-- ==== Sys2Proof/Word.lean ====
section
/-!
DEFINITION. Sys2Proof/Word.lean: the machine's word types, and finite maps kept with strictly
rising keys and no entry equal to the default, so that equal maps are equal data.
-/
namespace Sys2Proof

/-- One byte (R10). -/
abbrev Byte := BitVec 8
/-- A 32-bit instruction word, and the width of a lane register (R24, R68). -/
abbrev Word32 := BitVec 32
/-- A 64-bit uniform register, address or lane mask (R21, R24). -/
abbrev Word64 := BitVec 64

/-- A finite map from numbers, kept with strictly rising keys. -/
abbrev NMap (α : Type) := List (Nat × α)

/-- The entry at a key, if there is one. -/
def nfind {α : Type} : NMap α → Nat → Option α
  | [], _ => none
  | (k, v) :: m, x => if k = x then some v else nfind m x

/-- The map with the entry at a key replaced or added. -/
def nput {α : Type} : NMap α → Nat → α → NMap α
  | [], x, a => [(x, a)]
  | (k, v) :: m, x, a =>
    if k = x then (x, a) :: m
    else if x < k then (x, a) :: (k, v) :: m
    else (k, v) :: nput m x a

/-- The map without the entry at a key. -/
def ndel {α : Type} (m : NMap α) (x : Nat) : NMap α := m.filter fun e => decide (e.1 ≠ x)

/-- The value at a key, a default where nothing is listed. -/
def nget {α : Type} (d : α) (m : NMap α) (x : Nat) : α := (nfind m x).getD d

/-- Write a value; writing the default removes the entry. -/
def nset {α : Type} [DecidableEq α] (d : α) (m : NMap α) (x : Nat) (a : α) : NMap α :=
  if a = d then ndel m x else nput m x a

/-- Keys rise strictly from `lo`, and no entry equals the default. -/
def nwfFrom {α : Type} [DecidableEq α] (d : α) : Nat → NMap α → Bool
  | _, [] => true
  | lo, (k, v) :: m => decide (lo ≤ k) && decide (v ≠ d) && nwfFrom d (k + 1) m

/-- The canonical form of a map with defaults. -/
def nwf {α : Type} [DecidableEq α] (d : α) (m : NMap α) : Bool := nwfFrom d 0 m

/-- Change the entry at a key, if it is there. -/
def nmodify {α : Type} (m : NMap α) (x : Nat) (f : α → α) : NMap α :=
  match nfind m x with
  | none => m
  | some v => nput m x (f v)

end Sys2Proof
end

