-- ==== Sys2Proof/Machine/Bits.lean ====
section
/-!
DEFINITION. Sys2Proof/Machine/Bits.lean: bit fields, sign extension, saturation and byte order, the
shared helpers of R42 and R10.
-/
namespace Sys2Proof

/-- The number 1 for true and 0 for false. -/
def b2n (b : Bool) : Nat := if b then 1 else 0

/-- Bits `hi` down to `lo` of a number. -/
def nbits (x hi lo : Nat) : Nat := (x >>> lo) % 2 ^ (hi + 1 - lo)

/-- The low `n` bits of an integer: two's complement (R43). -/
def cut (n : Nat) (x : Int) : Nat := (x % ((2 ^ n : Nat) : Int)).toNat

/-- sx(x, n) of R42: the low n bits read as two's complement. -/
def sx (n x : Nat) : Int :=
  let y := x % 2 ^ n
  if 2 ^ n ≤ 2 * y then (y : Int) - ((2 ^ n : Nat) : Int) else (y : Int)

/-- zx(x, n) of R42: the low n bits read as unsigned. -/
def zx (n x : Nat) : Int := ((x % 2 ^ n : Nat) : Int)

/-- sat_s(x, n) of R42. -/
def satS (n : Nat) (x : Int) : Int :=
  max (min x (((2 ^ (n - 1) : Nat) : Int) - 1)) (-((2 ^ (n - 1) : Nat) : Int))

/-- sat_u(x, n) of R42. -/
def satU (n : Nat) (x : Int) : Int := max (min x (((2 ^ n : Nat) : Int) - 1)) 0

/-- bitlen(u) of R61: the number of binary digits of u. -/
def bitlen (u : Nat) : Nat := if u = 0 then 0 else Nat.log2 u + 1

/-- The numbers below `n` whose bit is set in a mask, ascending. -/
def maskList (n m : Nat) : List Nat := (List.range n).filter (fun i => m.testBit i)

/-- The mask whose bit i (below n) is `f i`. -/
def maskOf (n : Nat) (f : Nat → Bool) : Nat :=
  (List.range n).foldl (fun a i => if f i then a + 2 ^ i else a) 0

/-- The number of ones among the low n bits. -/
def popCount (n m : Nat) : Nat := (maskList n m).length

/-- A number's first `n` little-endian bytes (R10). -/
def toBytes : Nat → Nat → List Byte
  | 0, _ => []
  | n + 1, x => BitVec.ofNat 8 x :: toBytes n (x / 256)

/-- The number that little-endian bytes give (R10). -/
def ofBytes : List Byte → Nat
  | [] => 0
  | b :: bs => b.toNat + 256 * ofBytes bs

/-- Replace bits `hi` down to `lo` of a number. -/
def setBits (x hi lo v : Nat) : Nat :=
  x - (nbits x hi lo) * 2 ^ lo + (v % 2 ^ (hi + 1 - lo)) * 2 ^ lo

/-- Bitwise not of the low `n` bits. -/
def notBits (n x : Nat) : Nat := (2 ^ n - 1) ^^^ (x % 2 ^ n)

/-- The quotient rounded up. -/
def ceilDiv (a b : Nat) : Nat := (a + b - 1) / b

/-- floor(x / 2^k). -/
def floorShift (x : Int) (k : Nat) : Int := x / ((2 ^ k : Nat) : Int)

end Sys2Proof
end

