-- ==== Sys2Proof/Syntax.lean ====
section
/-!
DEFINITION. Sys2Proof/Syntax.lean: one constructor per row of the opcode table. An instruction word
carries its raw fields (R68, R69); a machine event (an effect of an agent of the device that is no
instruction word) carries the names of the state it acts on.
-/
namespace Sys2Proof

/-- The fields of a short word (R68). -/
structure SW where
  d : BitVec 7
  a : BitVec 7
  b : BitVec 7
deriving DecidableEq, Repr

/-- The guard fields GE, GN and GP of an extension word (R69, R73). -/
structure Guard where
  ge : Bool
  gn : Bool
  gp : BitVec 7
deriving DecidableEq, Repr

/-- The fields of a long word with an X-form extension (R69). -/
structure XW where
  d : BitVec 7
  a : BitVec 7
  b : BitVec 7
  g : Guard
  mod : BitVec 4
  c : BitVec 7
  imm : BitVec 12
deriving DecidableEq, Repr

/-- The fields of a long word with a K-form extension (R69). -/
structure KW where
  d : BitVec 7
  a : BitVec 7
  b : BitVec 7
  g : Guard
  imm : BitVec 23
deriving DecidableEq, Repr

/-- An IEEE 1588 message: its Ethernet port and its domain, and whether it completes a delay exchange (R379). -/
structure PtpMsg where
  port : Nat
  dom : Nat
  whole : Bool
deriving DecidableEq, Repr

/-- The virtual channel and the data type of a sensor frame (R381). -/
structure SensorChan where
  vc : Nat
  dt : Nat
deriving DecidableEq, Repr

/-- The instructions and machine events of the opcode table. -/
inductive Instr where
  /-- R83. Occupies one entry of the queue its E field names, completes at once and counts as a retired word. -/
  | nop (e : BitVec 3) (w : SW)
  /-- R82. At the head of the named queue, waits until token kN holds at least n, then subtracts n. -/
  | twait (e : BitVec 3) (w : SW)
  /-- R82. At the head of the named queue, waits for earlier words of that queue to complete and for room, then adds n to token kN. -/
  | tsig (e : BitVec 3) (w : SW)
  /-- R103. Writes the sign-extended 23-bit immediate to a uniform register. -/
  | sli (w : KW)
  /-- R103. Inserts a 23-bit unsigned immediate at a bit position of a uniform register, keeping other bits. -/
  | slih (w : KW)
  /-- R104. Copies 64 bits between uniform and team registers. -/
  | smov (w : SW)
  /-- R101. Short form: adds two uniform registers. -/
  | sadd (w : SW)
  /-- R101. Long form: uniform add with guard, immediate, unsigned or saturation modifiers. -/
  | saddX (w : XW)
  /-- R101. Short form: subtracts two uniform registers. -/
  | ssub (w : SW)
  /-- R101. Long form of the uniform subtract. -/
  | ssubX (w : XW)
  /-- R101. Short form: multiplies two uniform registers, low 64 bits. -/
  | smul (w : SW)
  /-- R101. Long form of the uniform multiply. -/
  | smulX (w : XW)
  /-- R101. Short form: upper 64 bits of the uniform product. -/
  | smulh (w : SW)
  /-- R101. Long form of the upper uniform product. -/
  | smulhX (w : XW)
  /-- R101. Short form: bitwise and of uniform registers. -/
  | sand (w : SW)
  /-- R101. Long form of the uniform and. -/
  | sandX (w : XW)
  /-- R101. Short form: bitwise or of uniform registers. -/
  | sor (w : SW)
  /-- R101. Long form of the uniform or. -/
  | sorX (w : XW)
  /-- R101. Short form: bitwise xor of uniform registers. -/
  | sxor (w : SW)
  /-- R101. Long form of the uniform xor. -/
  | sxorX (w : XW)
  /-- R101. Short form: uniform shift left by bits [5:0] of sB. -/
  | sshl (w : SW)
  /-- R101. Long form of the uniform shift left. -/
  | sshlX (w : XW)
  /-- R101. Short form: uniform logical shift right. -/
  | sshr (w : SW)
  /-- R101. Long form of the uniform logical shift right. -/
  | sshrX (w : XW)
  /-- R101. Short form: uniform arithmetic shift right. -/
  | ssra (w : SW)
  /-- R101. Long form of the uniform arithmetic shift right. -/
  | ssraX (w : XW)
  /-- R101. Short form: uniform minimum. -/
  | smin (w : SW)
  /-- R101. Long form of the uniform minimum. -/
  | sminX (w : XW)
  /-- R101. Short form: uniform maximum. -/
  | smax (w : SW)
  /-- R101. Long form of the uniform maximum. -/
  | smaxX (w : XW)
  /-- R102. Compares two uniform values by a condition and writes 1 or 0. -/
  | scmp (w : XW)
  /-- R102. Selects one of two uniform registers by a third. -/
  | ssel (w : XW)
  /-- R105. Reads a special register into a uniform register, or LANE into a lane register. -/
  | srd (w : SW)
  /-- R106. Moves the issuing slot to a PC-relative target. -/
  | bra (w : KW)
  /-- R106. Branches the issuing slot when a uniform register is non-zero or zero. -/
  | brc (w : KW)
  /-- R106. Moves the issuing slot to the address in a uniform register. -/
  | brx (w : SW)
  /-- R106. Writes the return address to a uniform register and branches. -/
  | call (w : KW)
  /-- R106. Returns to the address in a uniform register. -/
  | ret (w : SW)
  /-- R108. Splits the issuing slot by a predicate, placing or spilling the taken path. -/
  | bdiv (w : KW)
  /-- R109. Opens a rejoin region, spilling the other slot and pushing a rejoin entry. -/
  | mark (w : KW)
  /-- R110. Group-ordering rejoin that invalidates the slot and runs the resume step. -/
  | join (w : SW)
  /-- R107. Copies a loop count into a uniform register. -/
  | loop (w : KW)
  /-- R107. Decrements the loop count and branches back or leaves the loop. -/
  | endl (w : KW)
  /-- R112. Removes the slot's lanes, clears them from rejoin entries and resumes or retires. -/
  | exit (w : SW)
  /-- R120. Short form: per-lane integer add. -/
  | iadd (w : SW)
  /-- R120. Long form of the integer add with type, saturation, guard and operand selection. -/
  | iaddX (w : XW)
  /-- R120. Short form: per-lane integer subtract. -/
  | isub (w : SW)
  /-- R120. Long form of the integer subtract. -/
  | isubX (w : XW)
  /-- R120. Short form: per-lane integer multiply. -/
  | imul (w : SW)
  /-- R120. Long form of the integer multiply. -/
  | imulX (w : XW)
  /-- R120. Short form: upper half of the per-lane product. -/
  | imulh (w : SW)
  /-- R120. Long form of the upper product. -/
  | imulhX (w : XW)
  /-- R120. Per-lane integer multiply-add rounded and saturated once. -/
  | imad (w : XW)
  /-- R120. Short form: per-lane bitwise and. -/
  | iand (w : SW)
  /-- R120. Long form of the per-lane and. -/
  | iandX (w : XW)
  /-- R120. Short form: per-lane bitwise or. -/
  | ior (w : SW)
  /-- R120. Long form of the per-lane or. -/
  | iorX (w : XW)
  /-- R120. Short form: per-lane bitwise xor. -/
  | ixor (w : SW)
  /-- R120. Long form of the per-lane xor. -/
  | ixorX (w : XW)
  /-- R120. Short form: per-lane shift left. -/
  | ishl (w : SW)
  /-- R120. Long form of the per-lane shift left. -/
  | ishlX (w : XW)
  /-- R120. Short form: per-lane logical shift right. -/
  | ishr (w : SW)
  /-- R120. Long form of the per-lane logical shift right. -/
  | ishrX (w : XW)
  /-- R120. Short form: per-lane arithmetic shift right. -/
  | isra (w : SW)
  /-- R120. Long form of the per-lane arithmetic shift right. -/
  | israX (w : XW)
  /-- R120. Short form: per-lane integer minimum. -/
  | imin (w : SW)
  /-- R120. Long form of the integer minimum. -/
  | iminX (w : XW)
  /-- R120. Short form: per-lane integer maximum. -/
  | imax (w : SW)
  /-- R120. Long form of the integer maximum. -/
  | imaxX (w : XW)
  /-- R121. Short form: per-lane absolute value. -/
  | iabs (w : SW)
  /-- R121. Long form of the absolute value. -/
  | iabsX (w : XW)
  /-- R121. Short form: per-lane count of leading zeros. -/
  | iclz (w : SW)
  /-- R121. Long form of the leading-zero count. -/
  | iclzX (w : XW)
  /-- R121. Short form: per-lane population count. -/
  | ipopc (w : SW)
  /-- R121. Long form of the population count. -/
  | ipopcX (w : XW)
  /-- R121. Short form: per-lane bit reversal. -/
  | ibrev (w : SW)
  /-- R121. Long form of the bit reversal. -/
  | ibrevX (w : XW)
  /-- R122. Extracts a bit field per lane. -/
  | ibfx (w : XW)
  /-- R122. Inserts a bit field per lane. -/
  | ibfi (w : XW)
  /-- R123. Selects per lane between two registers by a predicate. -/
  | isel (w : XW)
  /-- R121. Short form: per-lane register move. -/
  | imov (w : SW)
  /-- R121. Long form of the move, from a lane register, immediate or uniform. -/
  | imovX (w : XW)
  /-- R123. Writes a 23-bit immediate, or with .hi its upper bits, to a lane register. -/
  | imovi (w : KW)
  /-- R124. Integer compare per lane into a predicate. -/
  | icmp (w : XW)
  /-- R126. Short form: per-lane floating add. -/
  | fadd (w : SW)
  /-- R126. Long form of the floating add with type and rounding. -/
  | faddX (w : XW)
  /-- R126. Short form: per-lane floating subtract. -/
  | fsub (w : SW)
  /-- R126. Long form of the floating subtract. -/
  | fsubX (w : XW)
  /-- R126. Short form: per-lane floating multiply. -/
  | fmul (w : SW)
  /-- R126. Long form of the floating multiply. -/
  | fmulX (w : XW)
  /-- R126. Per-lane fused multiply-add with one rounding. -/
  | ffma (w : XW)
  /-- R126. Short form: per-lane floating minimum. -/
  | fmin (w : SW)
  /-- R126. Long form of the floating minimum. -/
  | fminX (w : XW)
  /-- R126. Short form: per-lane floating maximum. -/
  | fmax (w : SW)
  /-- R126. Long form of the floating maximum. -/
  | fmaxX (w : XW)
  /-- R124. Floating compare per lane into a predicate. -/
  | fcmp (w : XW)
  /-- R127. Short form: classifies a floating value per lane. -/
  | fclass (w : SW)
  /-- R127. Long form of the floating classification. -/
  | fclassX (w : XW)
  /-- R126. Short form: correctly rounded reciprocal per lane. -/
  | frcp (w : SW)
  /-- R126. Long form of the reciprocal. -/
  | frcpX (w : XW)
  /-- R126. Short form: correctly rounded reciprocal square root. -/
  | frsq (w : SW)
  /-- R126. Long form of the reciprocal square root. -/
  | frsqX (w : XW)
  /-- R126. Short form: correctly rounded square root. -/
  | fsqrt (w : SW)
  /-- R126. Long form of the square root. -/
  | fsqrtX (w : XW)
  /-- R126. Short form: correctly rounded division. -/
  | fdiv (w : SW)
  /-- R126. Long form of the division. -/
  | fdivX (w : XW)
  /-- R126. Short form: correctly rounded base-2 exponential. -/
  | fex2 (w : SW)
  /-- R126. Long form of the base-2 exponential. -/
  | fex2X (w : XW)
  /-- R126. Short form: correctly rounded base-2 logarithm. -/
  | flg2 (w : SW)
  /-- R126. Long form of the base-2 logarithm. -/
  | flg2X (w : XW)
  /-- R126. Short form: multiplies by a power of two per lane. -/
  | fscale (w : SW)
  /-- R126. Long form of the scaling, admitting an integer immediate. -/
  | fscaleX (w : XW)
  /-- R129. Converts each active lane between types by R53. -/
  | cvt (w : XW)
  /-- R130. Quantises blocks of lanes into element codes and block scales. -/
  | quant (w : XW)
  /-- R131. Decodes an element code and scale per lane into FP32. -/
  | dqnt (w : XW)
  /-- R132. Short form: forms the 64-bit total-order key per lane. -/
  | skey (w : SW)
  /-- R132. Long form of the key formation with a type selection. -/
  | skeyX (w : XW)
  /-- R133. Short form: gathers each lane's value from an indexed source lane. -/
  | lshuf (w : SW)
  /-- R133. Long form of the lane shuffle with xor, up and down modes. -/
  | lshufX (w : XW)
  /-- R134. Short form: broadcasts one source lane to all active lanes. -/
  | lbcast (w : SW)
  /-- R134. Long form of the broadcast, admitting a uniform lane index. -/
  | lbcastX (w : XW)
  /-- R135. Short form: ballot of a predicate into a uniform register. -/
  | lvote (w : SW)
  /-- R135. Long form of the vote with any, all and count modes. -/
  | lvoteX (w : XW)
  /-- R136. Reads one lane's value into a uniform register. -/
  | lread (w : XW)
  /-- R136. Writes a uniform value into one lane of a lane register. -/
  | lwrite (w : XW)
  /-- R137. Reduces a register across lanes by the fixed tree. -/
  | gred (w : XW)
  /-- R137. Forms the inclusive scan across lanes by the fixed schedule. -/
  | gscan (w : XW)
  /-- R139. Short form: per-lane predicate and. -/
  | pand (w : SW)
  /-- R139. Long form of the predicate and with negations. -/
  | pandX (w : XW)
  /-- R139. Short form: per-lane predicate or. -/
  | por (w : SW)
  /-- R139. Long form of the predicate or. -/
  | porX (w : XW)
  /-- R139. Short form: per-lane predicate xor. -/
  | pxor (w : SW)
  /-- R139. Long form of the predicate xor. -/
  | pxorX (w : XW)
  /-- R139. Sets a predicate per lane from a mask, a bit or a constant. -/
  | pset (w : XW)
  /-- R139. Short form: writes a predicate into a lane register as 1 or 0. -/
  | pget (w : SW)
  /-- R139. Long form of the predicate read, with the all-ones mode. -/
  | pgetX (w : XW)
  /-- R140. Advances the rotating region by one position. -/
  | vrot (w : SW)
  /-- R146. Per-lane global load, checked whole and filling its destination piecewise. -/
  | ld (w : XW)
  /-- R147. Per-lane global store into the hold-back buffer. -/
  | st (w : XW)
  /-- R146. Per-lane local load, with stash fill when mapped. -/
  | ldl (w : XW)
  /-- R147. Per-lane local store, journaled and performed at once. -/
  | stl (w : XW)
  /-- R146. Global load of one value into a uniform register. -/
  | lds (w : XW)
  /-- R147. Global store of a uniform register. -/
  | sts (w : XW)
  /-- R153. Global atomic held until its seal or commit, then performed at the L2 slice. -/
  | atom (w : XW)
  /-- R153. Local atomic performed at once as one indivisible step. -/
  | atoml (w : XW)
  /-- R155. Orders the group's M, X, C and N effects, waiting for seals at wide scope. -/
  | fence (w : XW)
  /-- R156. Brings the addressed sectors into the L1 or L2. -/
  | pfetch (w : XW)
  /-- R157. Writes back dirty lines to DRAM at its seal. -/
  | cwb (w : XW)
  /-- R157. Writes back and removes lines from every cache at its seal. -/
  | cinv (w : XW)
  /-- R159. Maps a stash window and registers its range lock. -/
  | stmap (w : XW)
  /-- R161. Moves a window's written bytes to the hold-back buffer and unmaps it. -/
  | stunmap (w : XW)
  /-- R161. Moves a window's written bytes into the hold-back buffer. -/
  | stsync (w : XW)
  /-- R167. Tests per lane whether the addressed sector is poisoned. -/
  | ptst (w : XW)
  /-- R172. Sets a format stream register from two uniform registers. -/
  | xstrm (w : XW)
  /-- R172. Reads one half of a format stream descriptor. -/
  | xstrmGet (w : XW)
  /-- R177. Adds float-mode products of A rows and a B tile into accumulator rows. -/
  | xmma (w : XW)
  /-- R177. Adds complex products into accumulator rows. -/
  | xmmac (w : XW)
  /-- R177. Adds integer-mode products into accumulator rows. -/
  | ximma (w : XW)
  /-- R181. Zeroes rows and sets their exponent. -/
  | xzero (w : XW)
  /-- R181. Sets the exponent of rows without changing mantissas. -/
  | xexp (w : XW)
  /-- R182. Normalises rows by a fixed or fitted shift. -/
  | xnorm (w : XW)
  /-- R183. Reads a row's exponent and guard word, optionally clearing OVF and INX. -/
  | xgrd (w : XW)
  /-- R184. Reads row elements into lane registers in a view and type. -/
  | xrd (w : XW)
  /-- R185. Writes row elements from lane registers. -/
  | xwr (w : XW)
  /-- R186. Writes rows to local memory through a stream, quantising as needed. -/
  | xflush (w : XW)
  /-- R187. Hands an operator card to the core's walker and returns a handle. -/
  | xrun (w : XW)
  /-- R188. Returns, or waits for, the status of an operator card. -/
  | xpoll (w : XW)
  /-- R189. Asks the walker to stop a card at the next tile-step boundary. -/
  | xkill (w : XW)
  /-- R194. Accepts a linear copy and registers its range locks. -/
  | cpy (w : XW)
  /-- R198. Accepts a copy whose first write waits for a release time. -/
  | cpyt (w : XW)
  /-- R194. Accepts a copy described by a multi-dimensional descriptor. -/
  | cpynd (w : XW)
  /-- R194. Accepts a gather copy by an index list. -/
  | cpyg (w : XW)
  /-- R194. Accepts a scatter copy by an index list. -/
  | cpys (w : XW)
  /-- R194. Accepts a copy from global memory into the weight window. -/
  | cpyw (w : XW)
  /-- R204. Initialises a ring header and registers a pull watch. -/
  | rinit (w : XW)
  /-- R206. Waits for a filled slot and returns its local offset. -/
  | rwait (w : XW)
  /-- R206. Releases consumed slots and stores the credit for a pull ring. -/
  | rrel (w : XW)
  /-- R205. Reserves the next slot and posts a record into it as a copy. -/
  | rpost (w : XW)
  /-- R207. Stores a new producer tail into a source ring as a release. -/
  | rtail (w : XW)
  /-- R208. Returns a count of copies, locks, engine places or ring fill. -/
  | cqry (w : XW)
  /-- R210. Short form: arrives at a named barrier and waits for the phase. -/
  | bar (w : SW)
  /-- R210. Long form of the barrier arrival, with a guard. -/
  | barX (w : XW)
  /-- R210. Short form: arrives without waiting and returns the phase. -/
  | bara (w : SW)
  /-- R210. Long form of the non-waiting arrival. -/
  | baraX (w : XW)
  /-- R210. Short form: waits for a barrier phase to pass a value. -/
  | barw (w : SW)
  /-- R210. Long form of the barrier wait. -/
  | barwX (w : XW)
  /-- R210. Short form: arrives and drops from later phases. -/
  | bard (w : SW)
  /-- R210. Long form of the arrive-and-drop. -/
  | bardX (w : XW)
  /-- R214. Initialises a team or cluster transaction barrier object. -/
  | tbinit (w : XW)
  /-- R214. Announces expected bytes to a transaction barrier. -/
  | tbexp (w : XW)
  /-- R214. Arrives at a transaction barrier, optionally announcing bytes and reading the phase. -/
  | tbarr (w : XW)
  /-- R215. Waits for a transaction barrier phase and acquires the credited bytes. -/
  | tbwait (w : XW)
  /-- R216. Short form: surrenders register blocks to the team pool. -/
  | give (w : SW)
  /-- R216. Long form of the block surrender, with a guard. -/
  | giveX (w : XW)
  /-- R216. Short form: waits for and takes register blocks from the pool. -/
  | claim (w : SW)
  /-- R216. Long form of the claim, including CLAIM.st with a status register. -/
  | claimX (w : XW)
  /-- R219. Closes the group's quantum just after itself. -/
  | qend (w : SW)
  /-- R219. Closes the quantum and waits for its seal or epoch commit. -/
  | qseal (w : SW)
  /-- R220. Waits until global time reaches an absolute or release-relative target. -/
  | twtime (w : XW)
  /-- R221. Moves the group last in issue rotation and may close the quantum for a pending pre-emption. -/
  | yield (w : SW)
  /-- R222. Configures and clears the rotating region. -/
  | rotcfg (w : XW)
  /-- R228. Pushes a register through a port into the peer's channel. -/
  | psh (w : XW)
  /-- R228. Consumes the oldest ready entry of a port channel. -/
  | pop (w : XW)
  /-- R228. Returns the occupancy and binding of a port. -/
  | pstat (w : XW)
  /-- R232. Locks local bytes and queues them as a link message sent after the seal. -/
  | lsnd (w : XW)
  /-- R232. Receives a link message into local memory. -/
  | lrcv (w : XW)
  /-- R232. Receives a link message and adds it elementwise into local memory. -/
  | lradd (w : XW)
  /-- R235. Inserts leaves with priorities and flags, raising their generations. -/
  | trins (w : XW)
  /-- R236. Draws one stratified sample per lane from a tree. -/
  | trdrw (w : XW)
  /-- R235. Updates leaf priorities whose generations match, dropping others. -/
  | trupd (w : XW)
  /-- R237. Returns a tree total, minimum, drop count, capacity or error count. -/
  | trtot (w : XW)
  /-- R238. Computes importance weights from a tree snapshot. -/
  | trwgt (w : XW)
  /-- R239. Writes one configuration field of a tree. -/
  | trcfg (w : XW)
  /-- R240. Raises trap class SOFT with its immediate as cause. -/
  | trap (w : KW)
  /-- R241. Returns from a handler and resumes from the held trap record. -/
  | hret (w : SW)
  /-- R242. Reads a system register into a uniform register. -/
  | sysrd (w : XW)
  /-- R242. Writes a system register at its seal. -/
  | syswr (w : XW)
  /-- R243. Sets wake-register bits for cores or the array at its seal. -/
  | wake (w : XW)
  /-- R243. Begins power-gating idle cores at its seal and returns their mask. -/
  | gate (w : XW)
  /-- R243. Waits for a wake event, then resolves to the next word. -/
  | halt (w : SW)
  /-- R240. Raises trap class BKPT with its immediate as cause. -/
  | bkpt (w : KW)
  /-- R244. Arms a resident job card with a release time at its seal or commit. -/
  | jobarm (w : XW)
  /-- R245. Records the instance's completion time at its seal or commit. -/
  | jobdone (w : SW)
  /-- R245. Asks the dispatcher to park the context at its next quantum end. -/
  | jobyld (w : SW)
  /-- R246. Asks the dispatcher to suspend the device to an image at its seal. -/
  | susp (w : XW)
  /-- R247. Answers a fault-ring record at its seal. -/
  | fltrply (w : XW)
  /-- R322. Once started words complete, saves the queues and enters the in-device handler at TVEC. -/
  | trapDeliveryHandler (g : Nat)
  /-- R327. A trap delivered to the host ends the instance by kill, then replay or failure. -/
  | trapDeliveryHost (lk : Nat)
  /-- R218. When every unretired group of the team on a core waits in unsatisfiable CLAIM, the highest-indexed one completes with 0 or traps CLAIMDL. -/
  | claimDeadlock (g : Nat)
  /-- R31. A returning sector writes its part of a load destination and lowers the pending count. -/
  | loadSectorReturn (g seq n : Nat)
  /-- R283. A table walk finishes, setting A and D and supplying the translation or a fault. -/
  | tableWalkComplete (g va acc : Nat)
  /-- R292. Writes a fault-ring record, waiting for room, makes it visible and raises FRTAIL. -/
  | faultRecordWrite (n : Nat)
  /-- R319. Writes a duty-ring record at a host-assisted stop point, waiting for room. -/
  | dutyRecordWrite (n : Nat)
  /-- R33. 512 ns after a pair's quantum opened, closes it for every group of the pair. -/
  | quantumTimedClose (pr : Nat)
  /-- R33. When a group of the pair retires 4,096 words in the open quantum, the pair's quantum closes. -/
  | quantumWordCountClose (pr : Nat)
  /-- R33. When a journal or hold-back buffer of the pair fills, the pair's quantum closes. -/
  | quantumCapacityClose (pr : Nat)
  /-- R33. In deterministic mode closes a group's quantum after Q words or when a share fills. -/
  | detQuantumClose (g : Nat)
  /-- R34. A complete quantum whose seal window passes without a strike report is sealed, releasing its held effects and freeing its journal. -/
  | quantumSeal (det : Bool) (x : Nat)
  /-- R270. A sealed hold-back entry performs at the L2, invalidates L1 copies and is freed. -/
  | holdbackDrain (pr n : Nat) (bad : Bool)
  /-- R260. A sealed global atomic performs at its L2 slice and returns its result. -/
  | atomPerform (pr n : Nat)
  /-- R214. A sealed cluster transaction-barrier update performs at the L2 slice. -/
  | clusterTbPerform (pr n : Nat)
  /-- R255. A sealed device-type load or atomic performs once and returns its value. -/
  | deviceAccessPerform (pr n : Nat)
  /-- R242. A sealed SYSWR, WAKE or GATE takes its effect. -/
  | systemWordPerform (pr n : Nat)
  /-- R244. A sealed or committed JOBARM reaches the dispatcher and runs the arming checks. -/
  | jobarmPerform (pr n : Nat)
  /-- R36. Once every group of the wave has closed and sealed quantum q, applies their communications in group order. -/
  | epochCommit (n : Nat)
  /-- R36. After every group of a wave retires and commits, the next wave starts. -/
  | waveStart (n : Nat)
  /-- R23. When all groups have retired and every quantum is sealed, the dispatcher writes the completion record. -/
  | launchComplete (n : Nat)
  /-- R196. After the seal of its word's quantum a copy begins writing destination bytes. -/
  | copyWriteStart (k id ch : Nat)
  /-- R198. The release buffer starts a CPYT when its release time and seal have passed. -/
  | cpytRelease (k id : Nat)
  /-- R201. When every destination byte is written, frees the lock and credits the completion object. -/
  | copyComplete (k id : Nat)
  /-- R207. A pull-ring watch observes a new source tail and starts pulls of the new slots. -/
  | ringTailObserved (k n : Nat)
  /-- R207. A pulled slot is written and marked filled, advancing FILLED. -/
  | ringPullComplete (k id : Nat)
  /-- R229. A port entry for a peer beyond the pair region is delivered after its seal. -/
  | portEntryDeliver (far : Bool) (g port i : Nat)
  /-- R232. After its seal a link message is sent and its source lock freed. -/
  | lsndSend (i : Nat)
  /-- R232. A link message or remote port entry arrives in the receiving channel. -/
  | linkMessageArrive (what i dev src dst chan : Nat) (bytes : List (BitVec 8))
  /-- R373. A remote memory request from another device performs at the serving home agent. -/
  | krypinRemoteRequest (what pa op ty b c partid : Nat) (bytes : List (BitVec 8))
  /-- R374. A link flit arrives; a CRC failure causes a resend, and stop or go is signalled. -/
  | flitReceive (n what x : Nat)
  /-- R374. A link that cannot retrain within 1 ms goes down, dropping its writes and messages. -/
  | linkDown (n : Nat)
  /-- R375. A write of 1 to LKCTL.RETRAIN starts link retraining. -/
  | lkctlRetrain (n : Nat)
  /-- R377. Every 1 ms a follower exchanges timestamps with its time source and slews out the offset. -/
  | linkTimeExchange (n t1 t2 t3 t4 : Nat)
  /-- R379. The time unit processes an IEEE 1588 message on the selected port in hardware mode. -/
  | ptpMessage (m : PtpMsg) (lock : Bool) (t1 t2 t3 t4 : Nat)
  /-- R6. In host-assisted time discipline, each sync interval writes a duty record. -/
  | timeSyncInterval (refTime : Nat)
  /-- R378. An island write above TNOW steps global time forward. -/
  | tset (x : Nat)
  /-- R303. When global time reaches RELEASE an armed card becomes ready with its absolute deadline. -/
  | cardRelease (n : Nat)
  /-- R308. At the first pair quantum close after the decision, stops the context's groups and rolls back past-boundary work. -/
  | preemptCapture (lk c : Nat)
  /-- R309. After any commit in progress, stops a deterministic wave and rolls it back to its last committed epoch. -/
  | detWavePreempt (n : Nat)
  /-- R308. After the closed quantum seals, writes the context image through the hold-back buffer. -/
  | contextImageWrite (lk k : Nat)
  /-- R308. When the quantum holding the last image write is sealed, frees the context's carve, rows and weight bytes. -/
  | contextFree (lk c : Nat)
  /-- R330. When every write of a killed context has performed, frees its resources and writes the record. -/
  | killComplete (n : Nat)
  /-- R315. When global time reaches an uncompleted instance's deadline, raises DLMISS. -/
  | deadlineMiss (n : Nat)
  /-- R316. When USED first passes EBUDGET, raises BUDGET and applies BUDACT. -/
  | execBudgetOverrun (n : Nat)
  /-- R316. When a card's DRAM bytes in one window pass BWBUDGET, raises BUDGET. -/
  | bwBudgetOverrun (n : Nat)
  /-- R279. At each 10 µs window boundary, carries or restarts counts and serves deferred reads. -/
  | regulatorWindow
  /-- R279. A DRAM request at a home agent is charged, served or deferred. -/
  | regulatorRequest (pa pid card : Nat) (mine write : Bool) (err : Nat)
  /-- R277. The patrol scrubber reads and corrects each sector once per SCRUBHRS hours. -/
  | patrolScrub (pa err : Nat)
  /-- R278. An access to an address with no DRAM or register returns poison or is dropped and counted. -/
  | unmappedAccess (pa : Nat) (write : Bool)
  /-- R331. An acoustic sensor report locates a strike to a region and starts its response. -/
  | strikeReport (region n : Nat) (bad : Bool) (sectors : List (Nat × Nat))
  /-- R332. After restoration, each group resumes from its opening boundary with empty queues. -/
  | rollbackResume (pr : Nat)
  /-- R337. Every 100 ms the next core in rotation is drained for its scan or a record is written. -/
  | scanDue
  /-- R337. A scan deferred by a critical context drains the core after 10 ms. -/
  | scanForceDrain (c : Nat)
  /-- R338. A finished scan confirms records, repeats on failure or quarantines the core. -/
  | scanComplete (c : Nat) (pass : Bool) (rows cols : Nat) (spent : Bool)
  /-- R340. A write asks for a core's scan at the next decision point. -/
  | scannow (c : Nat)
  /-- R341. When both copies' quanta are sealed, compares their communications and commits or rolls back. -/
  | redundantCompare (n : Nat)
  /-- R351. The walker runs one tile step: loads weights, zeroes rows, gathers and adds products. -/
  | tileStep (k : Nat)
  /-- R353. At step end translates outputs, stages them and reaches any checkpoint. -/
  | tileStepEnd (k : Nat)
  /-- R353. After the step's quantum seals, staged outputs perform at the L2 and STEPS counts. -/
  | walkerOutputPerform (pr n : Nat)
  /-- R355. If CKPT × MAXSTEP cycles pass after a decision without a checkpoint, abandons the step and parks. -/
  | walkerAbandonStep (k : Nat)
  /-- R359. An MMIO write of BASE acts as TRCFG BASE at the home agent. -/
  | treeBaseWrite (n x : Nat)
  /-- R359. An MMIO write of LEVELS acts as TRCFG LEVELS, clearing the tree. -/
  | treeLevelsWrite (n x : Nat)
  /-- R359. An MMIO write of BETA sets β. -/
  | treeBetaWrite (n x : Nat)
  /-- R359. An MMIO write of NSIZE sets N. -/
  | treeNsizeWrite (n x : Nat)
  /-- R359. An MMIO write of SEED sets the generator seed. -/
  | treeSeedWrite (n x : Nat)
  /-- R362. A sealed tree command performs as one indivisible step at the tree's home agent. -/
  | sumtreeCommandPerform (pr n : Nat)
  /-- R365. A clear finishes writing every node and TCLRBUSY clears. -/
  | treeClearComplete (n : Nat)
  /-- R301. A write of ARM arms a card, running the checks of R301 and admission. -/
  | arm (n : Nat)
  /-- R301. A write of ARM with TIMED arms a card with ARMTIME as its release. -/
  | armTimed (n : Nat)
  /-- R299. The island's privileged arming, the only path that admits supervisor cards. -/
  | parm (n : Nat) (timed : Bool)
  /-- R303. Returns a card to idle or suppresses its further releases. -/
  | disarm (n : Nat)
  /-- R300. Setting DCTL.EN resumes dispatch and makes pending releases ready. -/
  | dctlEnable
  /-- R300. Clearing DCTL.EN stops releases, placements and restores. -/
  | dctlDisable
  /-- R320. Reply admitting a pending card and adding its charges. -/
  | dutyReplyAdmit (tag : Nat)
  /-- R320. Reply rejecting a pending card with cause 11. -/
  | dutyReplyReject (tag : Nat)
  /-- R320. Reply placing a launch on the cores of the payload mask. -/
  | dutyReplyPlace (tag mask : Nat)
  /-- R320. Reply deferring a placement to the next decision point. -/
  | dutyReplyDefer (tag : Nat)
  /-- R320. Reply ordering a replay of a failed attempt. -/
  | dutyReplyReplay (tag : Nat)
  /-- R320. Reply abandoning the instance with EVENT 5. -/
  | dutyReplyAbandon (tag : Nat)
  /-- R320. Reply granting a core's scan. -/
  | dutyReplyGrantScan (tag : Nat)
  /-- R320. Reply postponing a scan by 100 ms. -/
  | dutyReplyPostponeScan (tag : Nat)
  /-- R320. Reply supplying the route table of a link reduction. -/
  | dutyReplyRouteTable (tag addr : Nat)
  /-- R320. Reply giving a rate and offset correction to the time unit. -/
  | dutyReplyTimeCorrection (tag x : Nat)
  /-- R293. Fault reply RETRY: the lane, chunk or card access runs again. -/
  | frreplyRetry (tag : Nat)
  /-- R293. Fault reply POISON: the lane proceeds as on a poisoned sector. -/
  | frreplyPoison (tag : Nat)
  /-- R293. Fault reply FAIL: the lane raises PAGE cause 9 or the card fails. -/
  | frreplyFail (tag : Nat)
  /-- R291. Invalidates the page, block or run holding TLBINVADDR. -/
  | tlbinvPage (ctx : Nat) (all : Bool)
  /-- R291. Invalidates every entry of a context, or of all contexts. -/
  | tlbinvContext (ctx : Nat) (all : Bool)
  /-- R291. Invalidates every entry reaching the intermediate address. -/
  | tlbinvIpa (ctx : Nat) (all : Bool)
  /-- R291. BUSY clears once removed entries, their walks and their accesses have finished. -/
  | tlbinvComplete
  /-- R387. A W1C write clears pending host interrupt sources. -/
  | histatClear (x : Nat)
  /-- R387. Enabling a source whose bit is pending sends one MSI. -/
  | hienWrite (x : Nat)
  /-- R382. At a matching Frame Start the ingest engine drops the frame or opens a buffer. -/
  | frameStart (rx : Nat) (ch : SensorChan)
  /-- R382. A CSI-2 line packet is written to its buffer line or discarded. -/
  | frameLine (rx vc dt : Nat) (crcErr eccFix : Bool) (bytes : List (BitVec 8))
  /-- R382. At Frame End writes the frame record and raises the tail. -/
  | frameEnd (rx vc : Nat)
  /-- R384. The MAC reads a covered transmit descriptor, sends the frame and writes DONE. -/
  | ethTx (p : Nat) (under : Bool)
  /-- R384. A received frame fills a supplied buffer and its descriptor is returned. -/
  | ethRxFrame (p : Nat) (fcsErr : Bool) (bytes : List (BitVec 8))
  /-- R386. An inbound PCI Express request is translated and performed, or refused. -/
  | pcieInboundRequest (i bar what a op ty b c : Nat) (raw : Bool) (bytes : List (BitVec 8))
  /-- R12. A write to a register with no behaviour of its own updates its fields. -/
  | registerWrite (island : Bool) (off : Nat) (bytes : List (BitVec 8))
  /-- R343. A core enters power gating in cycle G unless a wake aborted it. -/
  | coreEnterGating (c : Nat)
  /-- R243. A gated core named by a wake finishes powering up. -/
  | coreWakeComplete (c : Nat)
  /-- R393. A write wakes named cores or the whole array, or resumes a suspended device. -/
  | wakeset (ochre : Bool) (x : Nat)
  /-- R400. A write with GO starts the suspend sequence to the image address. -/
  | suspctlGo (addr : Nat)
  /-- R400. After the image is written, DRAM enters self-refresh and non-always-on domains lose power. -/
  | suspendPowerDown
  /-- R402. A wake event on a suspended device powers up, checks the image and restores. -/
  | resume (wake : Bool)
  /-- R402. Reaching RESALARM resumes a suspended device. -/
  | resumeAlarm
  /-- R389. Power-on starts the island ROM at boot stage 1. -/
  | powerOn
  /-- R389. When a boot stage ends the next stage starts, or a failure stops the boot. -/
  | bootStage (ok : Bool) (img img2 : List (BitVec 8)) (failed : Nat)
  /-- R388. A lockstep mismatch resets the island alone. -/
  | islandLockstepReset
  /-- R392. Mailbox ATTEST writes a signed attestation report. -/
  | mbAttest
  /-- R394. Mailbox RESTART restarts the named engine. -/
  | mbRestart
  /-- R393. Mailbox COMMITSV raises the fused minimum SVNs. -/
  | mbCommitsv
  /-- R393. A mailbox command with an unlisted code completes with RESULT 2. -/
  | mbInvalid
  /-- R394. A ready group issuing nothing for 1 ms triggers a core restart. -/
  | coreStallTimeout (c : Nat)
  /-- R394. A walker completing no step for 10 ms triggers its restart. -/
  | walkerStallTimeout (c : Nat)
  /-- R394. No Frame End within 100 ms of Frame Start drops the frame. -/
  | ingestFrameTimeout (k : Nat)
  /-- R394. HBAP unwritten for HBTMO ms resets the application processor cluster. -/
  | heartbeatTimeout
  /-- R393. A heartbeat write restarts the application processor watch. -/
  | hbap
  /-- R399. Power or temperature over its limit lowers clocks together. -/
  | thermalThrottle (t : Nat)
  /-- R399. TEMP above 125 °C for 1 ms kills array contexts and holds cores in reset. -/
  | thermalShutdown
  /-- R399. TEMP falling below THROT releases the compute cores. -/
  | thermalRelease (t : Nat)
  /-- R374. A Krypin link finishes training, sets LKSTAT.UP and raises host interrupt source 5. -/
  | linkUp (n peer lanes : Nat)
  /-- R243. A sensor event taken by the ochre cluster ends a HALT there, or resumes a suspended device. -/
  | sensorEvent
  /-- R220. Global time reaches a waiting TWTIME's target and the word completes. -/
  | twtimeTargetReached (g : Nat)
  /-- R195. A copy's engine has read every source byte and frees the copy's source lock. -/
  | copySourceReadDone (k id : Nat)
  /-- R312. A context restore finishes reading its image; its groups reopen with new quanta, and its locks and watches are registered again. -/
  | restoreComplete (lk c : Nat)
  /-- R265. A coherent load, store or AMO by an application processor hart or a safety island core performs at the L2 or a home agent. -/
  | applicationProcessorAccess (island : Bool) (what pa op ty b c : Nat) (bytes : List (BitVec 8))
deriving DecidableEq, Repr

end Sys2Proof
end

