-- ==== Sys2Proof/Machine/Rows.lean ====
section
/-!
DEFINITION. Sys2Proof/Machine/Rows.lean: the encoding tables of the spec (R68 to R74, R87, R99, R117,
R141, R173, R191, R203, R209, R223), one row per instruction word: its engine and opcode, the class of
each field, the modifier codes it admits, and how it behaves in its queue (R73, R77, R80). Everything
that depends on an encoding (decoder, encoder, ILLOP causes, register hazards) reads these rows.
-/
namespace Sys2Proof

/-- The three forms of a word (R70). -/
inductive Form where
  | short
  | extX
  | extK
deriving DecidableEq, Repr

/-- The fields of a word of any form, as numbers; a field the form does not have is 0, which is what the
short form offers (R74). -/
structure Flds where
  form : Form
  d : Nat
  a : Nat
  b : Nat
  ge : Bool
  gn : Bool
  gp : Nat
  mod : Nat
  c : Nat
  imm : Nat
deriving DecidableEq, Repr

/-- The fields of a short word. -/
def SW.flds (w : SW) : Flds :=
  ⟨.short, w.d.toNat, w.a.toNat, w.b.toNat, false, false, 0, 0, 0, 0⟩

/-- The fields of an X-form word. -/
def XW.flds (w : XW) : Flds :=
  ⟨.extX, w.d.toNat, w.a.toNat, w.b.toNat, w.g.ge, w.g.gn, w.g.gp.toNat, w.mod.toNat, w.c.toNat,
    w.imm.toNat⟩

/-- The fields of a K-form word; the immediate is I23. -/
def KW.flds (w : KW) : Flds :=
  ⟨.extK, w.d.toNat, w.a.toNat, w.b.toNat, w.g.ge, w.g.gn, w.g.gp.toNat, 0, 0, w.imm.toNat⟩

/-- I12 read as signed (R69). -/
def Flds.i12 (f : Flds) : Int := sx 12 f.imm

/-- I23 read as signed (R69). -/
def Flds.i23 (f : Flds) : Int := sx 23 f.imm

/-- Bit `n` of the modifier. -/
def Flds.m (f : Flds) (n : Nat) : Bool := f.mod.testBit n

/-- Whether a word reads or writes a register it names. -/
inductive Acc where
  | r
  | w
  | rw
deriving DecidableEq, Repr

/-- The class of a field (R71). `v acc cnt align` names `cnt` lane registers from the field's value, which
is a multiple of `align`; `u` names uniform registers the same way; `ut` admits team registers too
(R104); `n lo hi` is a number in a range; `z` is a reserved field; `raw` is checked by its entry alone. -/
inductive FieldKind where
  | z
  | v (acc : Acc) (cnt align : Nat)
  | p (acc : Acc)
  | u (acc : Acc) (cnt align : Nat)
  | ut (acc : Acc)
  | f (acc : Acc)
  | n (lo hi : Nat)
  | raw
deriving DecidableEq, Repr

/-- One row of an encoding table. -/
structure Row where
  eng : Nat
  op : Nat
  form : Form
  d : FieldKind
  a : FieldKind
  b : FieldKind
  c : FieldKind
  /-- the immediate field is used, so that it need not be zero -/
  imm : Bool
  /-- the entry's other reserved bits are zero (cause 2) -/
  resv : Bool
  /-- the entry's other range conditions hold (cause 3) -/
  range : Bool
  /-- the modifier code is admitted (cause 6) -/
  modOk : Bool
  /-- the word acts per lane, so that an empty lane set does not guard it off (R73) -/
  lanes : Bool
  /-- group-ordering (R80) -/
  ord : Bool
  /-- fetch-stopping (R77) -/
  stop : Bool
  /-- reads or writes lanes outside its slot's mask (R138, R140) -/
  cross : Bool
deriving DecidableEq, Repr

/-- A row with no fields used. -/
def Row.mk0 (eng op : Nat) (f : Flds) : Row :=
  { eng := eng, op := op, form := f.form, d := .z, a := .z, b := .z, c := .z, imm := false,
    resv := true, range := true, modOk := f.mod = 0, lanes := false, ord := false, stop := false,
    cross := false }

/-- One lane register, read. -/
def FieldKind.vr : FieldKind := .v .r 1 1
/-- One lane register, written. -/
def FieldKind.vw : FieldKind := .v .w 1 1
/-- One uniform register, read. -/
def FieldKind.ur : FieldKind := .u .r 1 1
/-- One uniform register, written. -/
def FieldKind.uw : FieldKind := .u .w 1 1
/-- One uniform register, read and written. -/
def FieldKind.urw : FieldKind := .u .rw 1 1
/-- A lane register, or a register pair for a 64-bit type (R115). -/
def FieldKind.vt (acc : Acc) (wide : Bool) : FieldKind := if wide then .v acc 2 2 else .v acc 1 1

/-! ### S engine (R99) -/

/-- SADD to SMAX (R100): `uOk` and `satOk` say which of U and SAT the entry admits, `sh` that it shifts. -/
def rowSAlu (op : Nat) (uOk satOk sh : Bool) (f : Flds) : Row :=
  { Row.mk0 0 op f with
    d := .uw, a := .ur, b := if f.m 0 then .z else .ur, imm := f.m 0,
    range := !(sh && f.m 0) || f.imm < 64,
    modOk := (uOk || !f.m 1) && (satOk || !f.m 2) && !f.m 3 }

/-- A control word with an I23 offset and no other field. -/
def rowLabel (op : Nat) (stop : Bool) (f : Flds) : Row :=
  { Row.mk0 0 op f with imm := true, stop := stop }

/-! ### V engine (R117) -/

/-- The width of an integer type code of IT (R74). -/
def itWidth (t : Nat) : Nat :=
  if t % 8 < 2 then 32 else if t % 8 < 4 then 16 else if t % 8 < 6 then 8 else 64

/-- The IT code names a 64-bit type. -/
def itWide (t : Nat) : Bool := 6 ≤ t % 8

/-- SEL of R118. -/
def Flds.sel (f : Flds) : Nat := f.c % 4

/-- COND of R118. -/
def Flds.cond (f : Flds) : Nat := f.c / 4 % 8

/-- The class of a selectable field (R118). -/
def selKind (f : Flds) (wide : Bool) : FieldKind :=
  if f.sel = 0 then .vt .r wide else if f.sel = 1 then .z else if f.sel = 2 then .ur else .raw

/-- The bits of C beside SEL are zero, for entries without COND (R118). -/
def selResv (f : Flds) : Bool := f.c < 4

/-- The modifier names a type of a list of IT codes, and saturation only where it is admitted (R119). -/
def itOk (f : Flds) (types : List Nat) (sat : Bool) : Bool :=
  types.contains (f.mod % 8) && (sat || f.mod < 8)

/-- All eight integer types. -/
def itAll : List Nat := [0, 1, 2, 3, 4, 5, 6, 7]

/-- A two-source integer entry. -/
def rowI2 (op : Nat) (sat sh : Bool) (f : Flds) : Row :=
  { Row.mk0 1 op f with
    d := .vt .w (itWide f.mod), a := .vt .r (itWide f.mod), b := selKind f (itWide f.mod), c := .raw,
    imm := f.sel = 1, resv := selResv f,
    range := f.sel ≠ 3 && (!(sh && f.sel = 1) || f.imm < itWidth f.mod),
    modOk := itOk f itAll sat, lanes := true }

/-- A one-source integer entry. -/
def rowI1 (op : Nat) (types : List Nat) (sat : Bool) (f : Flds) : Row :=
  { Row.mk0 1 op f with
    d := .vt .w (itWide f.mod), a := selKind f (itWide f.mod), c := .raw, imm := f.sel = 1,
    resv := selResv f, range := f.sel ≠ 3, modOk := itOk f types sat, lanes := true }

/-- The modifier names a floating type, with rounding only where it is admitted (R125). -/
def ftOk (f : Flds) (rounds : Bool) : Bool := f.mod < 12 && (rounds || f.mod % 4 = 0)

/-- A two-source floating entry; SEL = 1 is admitted where `intB` (FSCALE). -/
def rowF2 (op : Nat) (rounds intB : Bool) (f : Flds) : Row :=
  { Row.mk0 1 op f with
    d := .vw, a := .vr, b := selKind f false, c := .raw, imm := intB && f.sel = 1,
    resv := selResv f, range := f.sel ≠ 3 && (intB || f.sel ≠ 1), modOk := ftOk f rounds,
    lanes := true }

/-- A one-source floating entry. -/
def rowF1 (op : Nat) (f : Flds) : Row :=
  { Row.mk0 1 op f with
    d := .vw, a := selKind f false, c := .raw, resv := selResv f,
    range := f.sel ≠ 3 && f.sel ≠ 1, modOk := ftOk f false, lanes := true }

/-- A predicate entry with two sources (R139). -/
def rowP2 (op : Nat) (f : Flds) : Row :=
  { Row.mk0 1 op f with d := .p .w, a := .p .r, b := .p .r, modOk := f.mod < 8, lanes := true }

/-! ### M engine (R141 to R144) -/

/-- AM, ORD and SCOPE of R142. -/
def Flds.am (f : Flds) : Nat := f.c % 4
def Flds.ordf (f : Flds) : Nat := f.c / 4 % 4
def Flds.scope (f : Flds) : Nat := f.c / 16

/-- The classes of A by addressing mode; a global lane address takes a register pair (R144). -/
def amA (f : Flds) (glob : Bool) : FieldKind :=
  if f.am = 2 then .vt .r glob else if f.am = 3 then .raw else .ur

/-- The class of B by addressing mode (R144). -/
def amB (f : Flds) : FieldKind :=
  if f.am = 1 then .vr else if f.am = 3 then .raw else .z

/-- The order and scope combination is admitted (R142); `ords` lists the ORD codes of the entry and `hi`
is its widest scope. -/
def ordOk (f : Flds) (ords : List Nat) (hi : Nat) : Bool :=
  if f.scope = 0 then f.ordf = 0 else ords.contains f.ordf && decide (f.scope ≤ hi)

/-- A load or store by lane: `store` says that D is the data source. -/
def rowMem (op : Nat) (store glob : Bool) (f : Flds) : Row :=
  { Row.mk0 2 op f with
    d := .vt (if store then .r else .w) (itWide f.mod), a := amA f glob, b := amB f, c := .raw,
    imm := true, range := f.am ≠ 3 && f.scope ≠ 7,
    modOk := ordOk f [if store then 2 else 1, 3] (if glob then 6 else 3), lanes := true }

/-- LDS and STS. -/
def rowMemU (op : Nat) (store : Bool) (f : Flds) : Row :=
  { Row.mk0 2 op f with
    d := if store then .ur else .uw, a := .ur, c := .raw, imm := true,
    range := f.am = 0 && f.scope ≠ 7, modOk := ordOk f [if store then 2 else 1, 3] 6 }

/-- The type of an atomic: TYPE, NR (R151). -/
def Flds.aty (f : Flds) : Nat := f.imm % 8
def Flds.anr (f : Flds) : Bool := f.imm.testBit 3
/-- The atomic's type has 64 bits. -/
def Flds.awide (f : Flds) : Bool := f.aty = 2 || f.aty = 3

/-- ATOM and ATOML (R150, R151). -/
def rowAtom (op : Nat) (glob : Bool) (f : Flds) : Row :=
  { Row.mk0 2 op f with
    d := if f.anr then .z else .vt .w f.awide,
    a := if f.am = 2 then .vt .r glob else if f.am = 0 then .ur else .raw,
    b := if f.mod = 7 then (if f.awide then .v .r 4 4 else .v .r 2 2) else .vt .r f.awide,
    c := .raw, imm := true, resv := f.imm < 16,
    range := (f.am = 0 || f.am = 2) && f.scope ≠ 7 && f.aty < 5,
    modOk := f.mod < 8 && !(f.aty = 4 && (3 ≤ f.mod && f.mod ≤ 5)) &&
      ordOk f [0, 1, 2, 3] (if glob then 6 else 3),
    lanes := true }

/-- PFETCH, CWB, CINV and PTST: a plain access only (R142). -/
def rowLine (op : Nat) (d : FieldKind) (modOk loc : Bool) (f : Flds) : Row :=
  { Row.mk0 2 op f with
    d := d, a := amA f (!loc), b := amB f, c := .raw, imm := true,
    range := f.am ≠ 3 && f.scope ≠ 7, modOk := modOk && f.ordf = 0 && f.scope = 0, lanes := true }

/-! ### X engine (R173) -/

/-- XMMA, XMMAC and XIMMA; `mbits` is the first modifier code not admitted. -/
def rowMma (op mbits : Nat) (f : Flds) : Row :=
  { Row.mk0 3 op f with
    d := .ur, a := .f (if f.m 0 then .rw else .r), b := .f (if f.m 1 then .rw else .r), c := .n 0 63,
    modOk := f.mod < mbits }

/-- The integer type codes of R128 have 64 bits at 6 and 7. -/
def tcWide (t : Nat) : Bool := t = 6 || t = 7

/-- XRD and XWR: the view of the row and the rounding mode (R173, R184, R185). -/
def viewOk (f : Flds) (rd : Bool) : Bool :=
  let view := f.mod / 4
  let rm := f.mod % 4
  (view ≠ 3) && (rd || rm = 0) && (view ≠ 2 || tcWide f.c) && (rd || view ≠ 1 || decide (f.c < 8)) &&
    (rm = 0 || decide (f.c < 13))

/-! ### C engine (R191, R203) -/

/-- A copy word; `pair` says that C names a register pair, `w` that it is CPYW. -/
def rowCopy (op : Nat) (pair w : Bool) (f : Flds) : Row :=
  { Row.mk0 4 op f with
    d := if f.mod / 4 = 0 then .z else .ur, a := .ur, b := .ur,
    c := if pair then .u .r 2 2 else .ur, imm := true, resv := f.imm < 2,
    modOk := f.mod < 12 && (!w || f.mod % 4 = 0) }

/-! ### Y engine (R209) -/

/-- A word of the BAR family (R210). -/
def rowBar (op : Nat) (d b : FieldKind) (f : Flds) : Row :=
  { Row.mk0 5 op f with d := d, a := .n 0 15, b := b, ord := true }

/-! ### N and Z engines (R223) -/

/-- A sum-tree word: the tree number stands in I12. -/
def rowTree (op : Nat) (d a b c : FieldKind) (modOk lanes : Bool) (f : Flds) : Row :=
  { Row.mk0 6 op f with
    d := d, a := a, b := b, c := c, imm := true, range := f.imm < 64, modOk := modOk, lanes := lanes }

/-- The system-register numbers of R242. -/
def sysregOk (n : Nat) : Bool :=
  [0, 1, 2, 3, 4, 5, 0x10, 0x11, 0x20, 0x21, 0x30, 0x31].contains n || (0x100 ≤ n && n ≤ 0x1FF)

/-- A Z word. -/
def rowZ (op : Nat) (d a b : FieldKind) (imm range stop : Bool) (f : Flds) : Row :=
  { Row.mk0 7 op f with d := d, a := a, b := b, imm := imm, range := range, stop := stop }

/-! ### The table -/

/-- SLI. -/
def entrySli (f : Flds) : Row :=
  { Row.mk0 0 0x01 f with
    d := .uw, imm := true }

/-- SLIH. -/
def entrySlih (f : Flds) : Row :=
  { Row.mk0 0 0x02 f with
    d := .urw, b := .n 0 63, imm := true }

/-- SMOV. -/
def entrySmov (f : Flds) : Row :=
  { Row.mk0 0 0x03 f with
    d := .ut .w, a := .ut .r }

/-- SADD. -/
def entrySadd (f : Flds) : Row :=
  rowSAlu 0x4 true true false f

/-- SSUB. -/
def entrySsub (f : Flds) : Row :=
  rowSAlu 0x5 true true false f

/-- SMUL. -/
def entrySmul (f : Flds) : Row :=
  rowSAlu 0x6 true true false f

/-- SMULH. -/
def entrySmulh (f : Flds) : Row :=
  rowSAlu 0x7 true false false f

/-- SAND. -/
def entrySand (f : Flds) : Row :=
  rowSAlu 0x8 false false false f

/-- SOR. -/
def entrySor (f : Flds) : Row :=
  rowSAlu 0x9 false false false f

/-- SXOR. -/
def entrySxor (f : Flds) : Row :=
  rowSAlu 0xa false false false f

/-- SSHL. -/
def entrySshl (f : Flds) : Row :=
  rowSAlu 0xb false false true f

/-- SSHR. -/
def entrySshr (f : Flds) : Row :=
  rowSAlu 0xc false false true f

/-- SSRA. -/
def entrySsra (f : Flds) : Row :=
  rowSAlu 0xd false false true f

/-- SMIN. -/
def entrySmin (f : Flds) : Row :=
  rowSAlu 0xe true false false f

/-- SMAX. -/
def entrySmax (f : Flds) : Row :=
  rowSAlu 0xf true false false f

/-- SCMP. -/
def entryScmp (f : Flds) : Row :=
  { Row.mk0 0 0x10 f with
    d := .uw, a := .ur, b := if f.c = 1 then .z else .ur, c := .n 0 1, imm := f.c = 1, modOk
      := f.mod % 8 < 6 }

/-- SSEL. -/
def entrySsel (f : Flds) : Row :=
  { Row.mk0 0 0x11 f with
    d := .uw, a := .ur, b := .ur, c := .ur }

/-- SRD. -/
def entrySrd (f : Flds) : Row :=
  { Row.mk0 0 0x12 f with
    d := if f.a = 0 then .vw else .uw, a := .n 0 15, lanes := f.a = 0 }

/-- BRA. -/
def entryBra (f : Flds) : Row :=
  rowLabel 0x20 true f

/-- BRC. -/
def entryBrc (f : Flds) : Row :=
  { Row.mk0 0 0x21 f with
    d := .n 0 1, a := .ur, imm := true, stop := true }

/-- BRX. -/
def entryBrx (f : Flds) : Row :=
  { Row.mk0 0 0x22 f with
    a := .ur, stop := true }

/-- CALL. -/
def entryCall (f : Flds) : Row :=
  { Row.mk0 0 0x23 f with
    d := .uw, imm := true, stop := true }

/-- RET. -/
def entryRet (f : Flds) : Row :=
  { Row.mk0 0 0x24 f with
    a := .ur, stop := true }

/-- BDIV. -/
def entryBdiv (f : Flds) : Row :=
  { Row.mk0 0 0x25 f with
    a := .p .r, imm := true, stop := true, lanes := true }

/-- MARK. -/
def entryMark (f : Flds) : Row :=
  rowLabel 0x26 false f

/-- JOIN. -/
def entryJoin (f : Flds) : Row :=
  { Row.mk0 0 0x27 f with
    stop := true, ord := true }

/-- LOOP. -/
def entryLoop (f : Flds) : Row :=
  { Row.mk0 0 0x28 f with
    d := .uw, a := .ur, imm := true, range := 0 < f.i23 }

/-- ENDL. -/
def entryEndl (f : Flds) : Row :=
  { Row.mk0 0 0x29 f with
    d := .urw, imm := true, stop := true, range := f.i23 < 0 }

/-- EXIT. -/
def entryExit (f : Flds) : Row :=
  { Row.mk0 0 0x2a f with
    stop := true }

/-- IADD. -/
def entryIadd (f : Flds) : Row :=
  rowI2 0x01 true false f

/-- ISUB. -/
def entryIsub (f : Flds) : Row :=
  rowI2 0x02 true false f

/-- IMUL. -/
def entryImul (f : Flds) : Row :=
  rowI2 0x03 true false f

/-- IMULH. -/
def entryImulh (f : Flds) : Row :=
  rowI2 0x04 false false f

/-- IMAD. -/
def entryImad (f : Flds) : Row :=
  { Row.mk0 1 0x05 f with
    d := .vt .w (itWide f.mod), a := .vt .r (itWide f.mod), b := .vt .r (itWide f.mod), c :=
      .vt .r (itWide f.mod), modOk := itOk f itAll true, lanes := true }

/-- IAND. -/
def entryIand (f : Flds) : Row :=
  rowI2 0x06 false false f

/-- IOR. -/
def entryIor (f : Flds) : Row :=
  rowI2 0x07 false false f

/-- IXOR. -/
def entryIxor (f : Flds) : Row :=
  rowI2 0x08 false false f

/-- ISHL. -/
def entryIshl (f : Flds) : Row :=
  rowI2 0x09 true true f

/-- ISHR. -/
def entryIshr (f : Flds) : Row :=
  rowI2 0x0a false true f

/-- ISRA. -/
def entryIsra (f : Flds) : Row :=
  rowI2 0x0b false true f

/-- IMIN. -/
def entryImin (f : Flds) : Row :=
  rowI2 0x0c false false f

/-- IMAX. -/
def entryImax (f : Flds) : Row :=
  rowI2 0x0d false false f

/-- IABS. A 64-bit type code makes its operands pairs, admitted or not (DEDUCED, log 87). -/
def entryIabs (f : Flds) : Row :=
  rowI1 0x0e [0, 2, 4, 6] true f

/-- ICLZ. -/
def entryIclz (f : Flds) : Row :=
  rowI1 0x0f itAll false f

/-- IPOPC. -/
def entryIpopc (f : Flds) : Row :=
  rowI1 0x10 itAll false f

/-- IBREV. -/
def entryIbrev (f : Flds) : Row :=
  rowI1 0x11 itAll false f

/-- IBFX. -/
def entryIbfx (f : Flds) : Row :=
  { Row.mk0 1 0x12 f with
    d := .vw, a := .vr, resv := f.imm < 1024, range := f.imm % 32 + (f.imm / 32 % 32 + 1) ≤
      32, modOk := itOk f [0, 1] false, imm := true, lanes := true }

/-- IBFI. -/
def entryIbfi (f : Flds) : Row :=
  { Row.mk0 1 0x13 f with
    d := .vw, a := .vr, b := .vr, resv := f.imm < 1024, range := f.imm % 32 + (f.imm / 32 % 32
      + 1) ≤ 32, modOk := itOk f [0, 1] false, imm := true, lanes := true }

/-- ISEL. A 64-bit type code makes its operands pairs, admitted or not (DEDUCED, log 87). -/
def entryIsel (f : Flds) : Row :=
  { Row.mk0 1 0x14 f with
    d := .vt .w (itWide f.mod), a := .vt .r (itWide f.mod), b := .vt .r (itWide f.mod), c :=
      .p .r, modOk := itOk f [0, 6] false, lanes := true }

/-- IMOV. -/
def entryImov (f : Flds) : Row :=
  rowI1 0x15 itAll false f

/-- IMOVI. -/
def entryImovi (f : Flds) : Row :=
  { Row.mk0 1 0x16 f with
    d := if f.b = 1 then .v .rw 1 1 else .vw, b := .n 0 1, imm := true, lanes := true }

/-- ICMP. -/
def entryIcmp (f : Flds) : Row :=
  { Row.mk0 1 0x17 f with
    d := .p .w, a := .vt .r (itWide f.mod), b := selKind f (itWide f.mod), c := .raw, imm :=
      f.sel = 1, resv := f.c < 32, range := f.sel ≠ 3 && f.cond < 6, modOk := f.mod < 8, lanes
      := true }

/-- FADD. -/
def entryFadd (f : Flds) : Row :=
  rowF2 0x20 true false f

/-- FSUB. -/
def entryFsub (f : Flds) : Row :=
  rowF2 0x21 true false f

/-- FMUL. -/
def entryFmul (f : Flds) : Row :=
  rowF2 0x22 true false f

/-- FFMA. -/
def entryFfma (f : Flds) : Row :=
  { Row.mk0 1 0x23 f with
    d := .vw, a := .vr, b := .vr, c := .vr, modOk := ftOk f true, lanes := true }

/-- FMIN. -/
def entryFmin (f : Flds) : Row :=
  rowF2 0x24 false false f

/-- FMAX. -/
def entryFmax (f : Flds) : Row :=
  rowF2 0x25 false false f

/-- FCMP. -/
def entryFcmp (f : Flds) : Row :=
  { Row.mk0 1 0x26 f with
    d := .p .w, a := .vr, b := selKind f false, c := .raw, resv := f.c < 32, range := f.sel ≠
      3 && f.sel ≠ 1 && f.cond < 7, modOk := ftOk f false, lanes := true }

/-- FCLASS. -/
def entryFclass (f : Flds) : Row :=
  rowF1 0x27 f

/-- FRCP. -/
def entryFrcp (f : Flds) : Row :=
  rowF1 0x28 f

/-- FRSQ. -/
def entryFrsq (f : Flds) : Row :=
  rowF1 0x29 f

/-- FSQRT. -/
def entryFsqrt (f : Flds) : Row :=
  rowF1 0x2a f

/-- FDIV. -/
def entryFdiv (f : Flds) : Row :=
  rowF2 0x2b false false f

/-- FEX2. -/
def entryFex2 (f : Flds) : Row :=
  rowF1 0x2c f

/-- FLG2. -/
def entryFlg2 (f : Flds) : Row :=
  rowF1 0x2d f

/-- FSCALE. -/
def entryFscale (f : Flds) : Row :=
  rowF2 0x2e true true f

/-- CVT. -/
def entryCvt (f : Flds) : Row :=
  { Row.mk0 1 0x30 f with
    d := .vt .w (tcWide f.c), a := .vt .r (tcWide f.b), b := .n 0 14, c := .n 0 14, modOk :=
      f.mod < 4 && (f.mod = 0 || f.c < 13), lanes := true }

/-- QUANT. -/
def entryQuant (f : Flds) : Row :=
  { Row.mk0 1 0x31 f with
    d := .vw, a := .vr, c := .vw, range := f.d ≠ f.c, modOk := f.mod % 8 < 5, lanes := true }

/-- DQNT. -/
def entryDqnt (f : Flds) : Row :=
  { Row.mk0 1 0x32 f with
    d := .vw, a := .vr, b := .vr, modOk := f.mod < 5, lanes := true }

/-- SKEY. -/
def entrySkey (f : Flds) : Row :=
  { Row.mk0 1 0x33 f with
    d := .v .w 2 2, a := .vr, b := .vr, modOk := f.mod < 3, lanes := true }

/-- LSHUF. -/
def entryLshuf (f : Flds) : Row :=
  { Row.mk0 1 0x38 f with
    d := .vw, a := .vr, b := if f.mod % 4 = 0 then .vr else .z, imm := f.mod % 4 ≠ 0, range :=
      f.mod % 4 = 0 || f.imm < 2048, modOk := f.mod < 4, lanes := true, cross := true }

/-- LBCAST. -/
def entryLbcast (f : Flds) : Row :=
  { Row.mk0 1 0x39 f with
    d := .vw, a := .vr, b := if f.m 0 then .ur else .n 0 63, modOk := f.mod < 2, lanes :=
      true, cross := true }

/-- LVOTE. -/
def entryLvote (f : Flds) : Row :=
  { Row.mk0 1 0x3a f with
    d := .uw, a := .p .r, modOk := f.mod < 4 }

/-- LREAD. -/
def entryLread (f : Flds) : Row :=
  { Row.mk0 1 0x3b f with
    d := .uw, a := .vt .r (f.m 1), b := selKind f false, c := .raw, imm := f.sel = 1, resv :=
      selResv f, range := f.sel ≠ 3 && f.sel ≠ 0 && (f.sel ≠ 1 || f.imm < 2048), modOk := f.mod
      < 3, cross := true }

/-- LWRITE. -/
def entryLwrite (f : Flds) : Row :=
  { Row.mk0 1 0x3c f with
    d := .vt .w (f.m 0), a := .ur, b := selKind f false, c := .raw, imm := f.sel = 1, resv :=
      selResv f, range := f.sel ≠ 3 && f.sel ≠ 0 && (f.sel ≠ 1 || f.imm < 2048), modOk := f.mod
      < 2, lanes := true }

/-- GRED. -/
def entryGred (f : Flds) : Row :=
  { Row.mk0 1 0x3d f with
    d := if f.m 3 then .vw else .uw, a := .vr, c := .n 0 2, modOk := f.mod % 8 < 6 && !(f.c =
      2 && 3 ≤ f.mod % 8), lanes := f.m 3 }

/-- GSCAN. -/
def entryGscan (f : Flds) : Row :=
  { Row.mk0 1 0x3e f with
    d := .vw, a := .vr, c := .n 0 2, modOk := f.mod < 6 && !(f.c = 2 && 3 ≤ f.mod), lanes :=
      true }

/-- PAND. -/
def entryPand (f : Flds) : Row :=
  rowP2 0x40 f

/-- POR. -/
def entryPor (f : Flds) : Row :=
  rowP2 0x41 f

/-- PXOR. -/
def entryPxor (f : Flds) : Row :=
  rowP2 0x42 f

/-- PSET. -/
def entryPset (f : Flds) : Row :=
  { Row.mk0 1 0x43 f with
    d := .p .w, a := if f.mod % 4 = 0 then .ur else if f.mod % 4 = 1 then .vr else if f.mod %
      4 = 2 then .z else .raw, imm := f.mod % 4 ≠ 0, range := (f.mod % 4 ≠ 1 || f.imm < 32) &&
      (f.mod % 4 ≠ 2 || f.imm < 2), modOk := f.mod < 3, lanes := true }

/-- PGET. -/
def entryPget (f : Flds) : Row :=
  { Row.mk0 1 0x44 f with
    d := .vw, a := .p .r, modOk := f.mod < 2, lanes := true }

/-- VROT. -/
def entryVrot (f : Flds) : Row :=
  { Row.mk0 1 0x48 f with
    lanes := true, cross := true }

/-- LD. -/
def entryLd (f : Flds) : Row :=
  rowMem 0x01 false true f

/-- ST. -/
def entrySt (f : Flds) : Row :=
  rowMem 0x02 true true f

/-- LDL. -/
def entryLdl (f : Flds) : Row :=
  rowMem 0x03 false false f

/-- STL. -/
def entryStl (f : Flds) : Row :=
  rowMem 0x04 true false f

/-- LDS. -/
def entryLds (f : Flds) : Row :=
  rowMemU 0x05 false f

/-- STS. -/
def entrySts (f : Flds) : Row :=
  rowMemU 0x06 true f

/-- ATOM. -/
def entryAtom (f : Flds) : Row :=
  rowAtom 0x07 true f

/-- ATOML. -/
def entryAtoml (f : Flds) : Row :=
  rowAtom 0x08 false f

/-- FENCE. -/
def entryFence (f : Flds) : Row :=
  { Row.mk0 2 0x09 f with
    c := .raw, range := f.am = 0 && f.scope ≠ 0 && f.scope ≠ 7 }

/-- PFETCH. -/
def entryPfetch (f : Flds) : Row :=
  rowLine 0x0a .z (f.mod < 2) false f

/-- CWB. -/
def entryCwb (f : Flds) : Row :=
  rowLine 0x0b .z (f.mod = 0) false f

/-- CINV. -/
def entryCinv (f : Flds) : Row :=
  rowLine 0x0c .z (f.mod = 0) false f

/-- STMAP. -/
def entryStmap (f : Flds) : Row :=
  { Row.mk0 2 0x0d f with
    d := .n 0 7, a := .ur, b := .ur, imm := true, range := 1 ≤ f.imm && f.imm ≤ 1152 }

/-- STUNMAP. -/
def entryStunmap (f : Flds) : Row :=
  { Row.mk0 2 0x0e f with
    d := .n 0 7 }

/-- STSYNC. -/
def entryStsync (f : Flds) : Row :=
  { Row.mk0 2 0x0f f with
    d := .n 0 7 }

/-- PTST. -/
def entryPtst (f : Flds) : Row :=
  rowLine 0x10 (.p .w) (f.mod < 2) (f.m 0) f

/-- XSTRM. -/
def entryXstrm (f : Flds) : Row :=
  { Row.mk0 3 0x01 f with
    d := .f .w, a := .ur, b := .ur }

/-- XSTRM_GET. -/
def entryXstrmGet (f : Flds) : Row :=
  { Row.mk0 3 0x01 f with
    d := .uw, a := .f .r, c := .n 0 1, modOk := f.mod = 1 }

/-- XMMA. -/
def entryXmma (f : Flds) : Row :=
  rowMma 0x02 4 f

/-- XMMAC. -/
def entryXmmac (f : Flds) : Row :=
  rowMma 0x03 16 f

/-- XIMMA. -/
def entryXimma (f : Flds) : Row :=
  rowMma 0x04 8 f

/-- XZERO. -/
def entryXzero (f : Flds) : Row :=
  { Row.mk0 3 0x05 f with
    d := .ur, c := .n 0 63, imm := true }

/-- XEXP. -/
def entryXexp (f : Flds) : Row :=
  { Row.mk0 3 0x06 f with
    d := .ur, a := .ur, c := .n 0 63 }

/-- XNORM. -/
def entryXnorm (f : Flds) : Row :=
  { Row.mk0 3 0x07 f with
    d := .ur, c := .n 0 63, imm := true, range := if f.m 0 then f.imm ≤ 62 else (-63 ≤ f.i12
      && f.i12 ≤ 63), modOk := f.mod < 2 }

/-- XGRD. -/
def entryXgrd (f : Flds) : Row :=
  { Row.mk0 3 0x08 f with
    d := .uw, a := .ur, modOk := f.mod < 2 }

/-- XRD. -/
def entryXrd (f : Flds) : Row :=
  { Row.mk0 3 0x09 f with
    d := .vt .w (tcWide f.c), a := .ur, c := .n 0 14, imm := true, range := f.imm < 4, modOk
      := viewOk f true, lanes := true }

/-- XWR. -/
def entryXwr (f : Flds) : Row :=
  { Row.mk0 3 0x0a f with
    d := .ur, a := .vt .r (tcWide f.c), c := .n 0 14, imm := true, range := f.imm < 4, modOk
      := viewOk f false, lanes := true }

/-- XFLUSH. -/
def entryXflush (f : Flds) : Row :=
  { Row.mk0 3 0x0b f with
    d := .f (if f.m 1 then .rw else .r), a := .ur, c := .n 0 63, modOk := f.mod < 8 }

/-- XRUN. -/
def entryXrun (f : Flds) : Row :=
  { Row.mk0 3 0x0c f with
    d := .uw, a := .ur }

/-- XPOLL. -/
def entryXpoll (f : Flds) : Row :=
  { Row.mk0 3 0x0d f with
    d := .uw, a := .ur, modOk := f.mod < 2 }

/-- XKILL. -/
def entryXkill (f : Flds) : Row :=
  { Row.mk0 3 0x0e f with
    a := .ur }

/-- CPY. -/
def entryCpy (f : Flds) : Row :=
  rowCopy 0x01 false false f

/-- CPYT. -/
def entryCpyt (f : Flds) : Row :=
  rowCopy 0x02 true false f

/-- CPYND. -/
def entryCpynd (f : Flds) : Row :=
  rowCopy 0x03 false false f

/-- CPYG. -/
def entryCpyg (f : Flds) : Row :=
  rowCopy 0x04 true false f

/-- CPYS. -/
def entryCpys (f : Flds) : Row :=
  rowCopy 0x05 true false f

/-- CPYW. -/
def entryCpyw (f : Flds) : Row :=
  rowCopy 0x06 false true f

/-- RINIT. -/
def entryRinit (f : Flds) : Row :=
  { Row.mk0 4 0x08 f with
    a := .ur, b := .ur, c := .ur }

/-- RWAIT. -/
def entryRwait (f : Flds) : Row :=
  { Row.mk0 4 0x09 f with
    d := .uw, a := .ur, imm := true }

/-- RREL. -/
def entryRrel (f : Flds) : Row :=
  { Row.mk0 4 0x0a f with
    a := .ur, imm := true, range := f.imm ≠ 0 }

/-- RPOST. -/
def entryRpost (f : Flds) : Row :=
  { Row.mk0 4 0x0b f with
    a := .ur, b := .ur, c := .ur, modOk := f.mod < 2 }

/-- RTAIL. -/
def entryRtail (f : Flds) : Row :=
  { Row.mk0 4 0x0c f with
    a := .ur, b := .ur }

/-- CQRY. -/
def entryCqry (f : Flds) : Row :=
  { Row.mk0 4 0x0d f with
    d := .uw, a := if f.mod % 4 = 3 then .ur else .z, modOk := f.mod < 4 }

/-- BAR. -/
def entryBar (f : Flds) : Row :=
  rowBar 0x01 .z .z f

/-- BARA. -/
def entryBara (f : Flds) : Row :=
  rowBar 0x02 .uw .z f

/-- BARW. -/
def entryBarw (f : Flds) : Row :=
  rowBar 0x03 .z .ur f

/-- BARD. -/
def entryBard (f : Flds) : Row :=
  rowBar 0x04 .z .z f

/-- TBINIT. -/
def entryTbinit (f : Flds) : Row :=
  { Row.mk0 5 0x05 f with
    a := .ur, imm := true, range := f.imm ≠ 0, modOk := f.mod < 2 }

/-- TBEXP. -/
def entryTbexp (f : Flds) : Row :=
  { Row.mk0 5 0x06 f with
    a := .ur, b := .ur, modOk := f.mod = 0 || f.mod = 8 }

/-- TBARR. -/
def entryTbarr (f : Flds) : Row :=
  { Row.mk0 5 0x07 f with
    d := if f.m 1 then .uw else .z, a := .ur, b := if f.m 0 then .ur else .z, modOk := !f.m 2
      && !(f.m 1 && f.m 3) }

/-- TBWAIT. -/
def entryTbwait (f : Flds) : Row :=
  { Row.mk0 5 0x08 f with
    a := .ur, b := .ur, modOk := f.mod = 0 || f.mod = 8 }

/-- GIVE. -/
def entryGive (f : Flds) : Row :=
  { Row.mk0 5 0x09 f with
    a := .n 1 15, ord := true }

/-- CLAIM. -/
def entryClaim (f : Flds) : Row :=
  { Row.mk0 5 0x0a f with
    d := if f.m 0 then .uw else .z, a := .n 1 15, ord := true, modOk := f.mod < 2 }

/-- QEND. -/
def entryQend (f : Flds) : Row :=
  { Row.mk0 5 0x0b f with
    ord := true }

/-- QSEAL. -/
def entryQseal (f : Flds) : Row :=
  Row.mk0 5 0x0c f

/-- TWTIME. -/
def entryTwtime (f : Flds) : Row :=
  { Row.mk0 5 0x0d f with
    a := .ur, modOk := f.mod < 2 }

/-- YIELD. -/
def entryYield (f : Flds) : Row :=
  Row.mk0 5 0x0e f

/-- ROTCFG. -/
def entryRotcfg (f : Flds) : Row :=
  { Row.mk0 5 0x0f f with
    a := .n 0 64, b := .n 0 64, range := f.a % 8 = 0 && (if f.a = 0 then f.b = 0 else 1 ≤ f.b
      && f.b ≤ f.a), cross := true }

/-- PSH. -/
def entryPsh (f : Flds) : Row :=
  { Row.mk0 6 0x01 f with
    a := .vr, b := .n 0 4 }

/-- POP. -/
def entryPop (f : Flds) : Row :=
  { Row.mk0 6 0x02 f with
    d := .vw, b := .n 0 4, c := if f.m 0 then .p .w else .z, modOk := f.mod < 2 }

/-- PSTAT. -/
def entryPstat (f : Flds) : Row :=
  { Row.mk0 6 0x03 f with
    d := .uw, b := .n 0 4 }

/-- LSND. -/
def entryLsnd (f : Flds) : Row :=
  { Row.mk0 6 0x08 f with
    a := .ur, b := .ur, c := .ur }

/-- LRCV. -/
def entryLrcv (f : Flds) : Row :=
  { Row.mk0 6 0x09 f with
    d := .uw, a := .ur, b := .ur, c := .ur }

/-- LRADD. -/
def entryLradd (f : Flds) : Row :=
  { Row.mk0 6 0x0a f with
    d := .uw, a := .ur, b := .ur, c := .ur, modOk := f.mod < 5 }

/-- TRINS. -/
def entryTrins (f : Flds) : Row :=
  rowTree 0x10 (if f.m 0 then .z else .vw) .vr .vr .vr (f.mod < 2) true f

/-- TRDRW. -/
def entryTrdrw (f : Flds) : Row :=
  rowTree 0x11 (.v .w 3 4) .ur .z .z (f.mod = 0) true f

/-- TRUPD. -/
def entryTrupd (f : Flds) : Row :=
  rowTree 0x12 (.p .w) .vr .vr .vr (f.mod = 0) true f

/-- TRTOT. -/
def entryTrtot (f : Flds) : Row :=
  rowTree 0x13 .uw .z .z .z (f.mod < 5) false f

/-- TRWGT. -/
def entryTrwgt (f : Flds) : Row :=
  rowTree 0x14 .vw .vr .z .z (f.mod < 2) true f

/-- TRCFG. -/
def entryTrcfg (f : Flds) : Row :=
  rowTree 0x15 .z .ur (.n 0 5) .z (f.mod = 0) false f

/-- TRAP. -/
def entryTrap (f : Flds) : Row :=
  rowZ 0x01 .z .z .z true true true f

/-- HRET. -/
def entryHret (f : Flds) : Row :=
  rowZ 0x02 .z .z .z false true true f

/-- SYSRD. -/
def entrySysrd (f : Flds) : Row :=
  rowZ 0x03 .uw .z .z true (sysregOk f.imm) false f

/-- SYSWR. -/
def entrySyswr (f : Flds) : Row :=
  rowZ 0x04 .z .ur .z true (sysregOk f.imm) false f

/-- WAKE. -/
def entryWake (f : Flds) : Row :=
  rowZ 0x05 .z .ur .z false true false f

/-- GATE. -/
def entryGate (f : Flds) : Row :=
  rowZ 0x06 .uw .ur .z false true false f

/-- HALT. -/
def entryHalt (f : Flds) : Row :=
  rowZ 0x07 .z .z .z false true true f

/-- BKPT. -/
def entryBkpt (f : Flds) : Row :=
  rowZ 0x08 .z .z .z true true true f

/-- JOBARM. -/
def entryJobarm (f : Flds) : Row :=
  rowZ 0x09 .z .ur .ur false true false f

/-- JOBDONE. -/
def entryJobdone (f : Flds) : Row :=
  rowZ 0x0a .z .z .z false true false f

/-- JOBYLD. -/
def entryJobyld (f : Flds) : Row :=
  rowZ 0x0b .z .z .z false true false f

/-- SUSP. -/
def entrySusp (f : Flds) : Row :=
  rowZ 0x0c .z .ur .z false true false f

/-- FLTRPLY. -/
def entryFltrply (f : Flds) : Row :=
  rowZ 0x0d .z .ur .ur false true false f

/-- NOP (R83), in the queue `e`. -/
def rowNop (e : Nat) (f : Flds) : Row := Row.mk0 e 0x00 f
/-- TWAIT (R82), in the queue `e`. -/
def rowTwait (e : Nat) (f : Flds) : Row := { Row.mk0 e 0x7e f with d := .n 0 15, a := .n 1 15 }
/-- TSIG (R82), in the queue `e`. -/
def rowTsig (e : Nat) (f : Flds) : Row := { Row.mk0 e 0x7f f with d := .n 0 15, a := .n 1 15 }

/-- The encoding row of an instruction word; a machine event has none. -/
def Instr.row (i : Instr) : Option Row :=
  match i with
  | .nop e w => some (rowNop e.toNat w.flds)
  | .twait e w => some (rowTwait e.toNat w.flds)
  | .tsig e w => some (rowTsig e.toNat w.flds)
  | .sli w => some (entrySli w.flds)
  | .slih w => some (entrySlih w.flds)
  | .smov w => some (entrySmov w.flds)
  | .sadd w => some (entrySadd w.flds)
  | .saddX w => some (entrySadd w.flds)
  | .ssub w => some (entrySsub w.flds)
  | .ssubX w => some (entrySsub w.flds)
  | .smul w => some (entrySmul w.flds)
  | .smulX w => some (entrySmul w.flds)
  | .smulh w => some (entrySmulh w.flds)
  | .smulhX w => some (entrySmulh w.flds)
  | .sand w => some (entrySand w.flds)
  | .sandX w => some (entrySand w.flds)
  | .sor w => some (entrySor w.flds)
  | .sorX w => some (entrySor w.flds)
  | .sxor w => some (entrySxor w.flds)
  | .sxorX w => some (entrySxor w.flds)
  | .sshl w => some (entrySshl w.flds)
  | .sshlX w => some (entrySshl w.flds)
  | .sshr w => some (entrySshr w.flds)
  | .sshrX w => some (entrySshr w.flds)
  | .ssra w => some (entrySsra w.flds)
  | .ssraX w => some (entrySsra w.flds)
  | .smin w => some (entrySmin w.flds)
  | .sminX w => some (entrySmin w.flds)
  | .smax w => some (entrySmax w.flds)
  | .smaxX w => some (entrySmax w.flds)
  | .scmp w => some (entryScmp w.flds)
  | .ssel w => some (entrySsel w.flds)
  | .srd w => some (entrySrd w.flds)
  | .bra w => some (entryBra w.flds)
  | .brc w => some (entryBrc w.flds)
  | .brx w => some (entryBrx w.flds)
  | .call w => some (entryCall w.flds)
  | .ret w => some (entryRet w.flds)
  | .bdiv w => some (entryBdiv w.flds)
  | .mark w => some (entryMark w.flds)
  | .join w => some (entryJoin w.flds)
  | .loop w => some (entryLoop w.flds)
  | .endl w => some (entryEndl w.flds)
  | .exit w => some (entryExit w.flds)
  | .iadd w => some (entryIadd w.flds)
  | .iaddX w => some (entryIadd w.flds)
  | .isub w => some (entryIsub w.flds)
  | .isubX w => some (entryIsub w.flds)
  | .imul w => some (entryImul w.flds)
  | .imulX w => some (entryImul w.flds)
  | .imulh w => some (entryImulh w.flds)
  | .imulhX w => some (entryImulh w.flds)
  | .imad w => some (entryImad w.flds)
  | .iand w => some (entryIand w.flds)
  | .iandX w => some (entryIand w.flds)
  | .ior w => some (entryIor w.flds)
  | .iorX w => some (entryIor w.flds)
  | .ixor w => some (entryIxor w.flds)
  | .ixorX w => some (entryIxor w.flds)
  | .ishl w => some (entryIshl w.flds)
  | .ishlX w => some (entryIshl w.flds)
  | .ishr w => some (entryIshr w.flds)
  | .ishrX w => some (entryIshr w.flds)
  | .isra w => some (entryIsra w.flds)
  | .israX w => some (entryIsra w.flds)
  | .imin w => some (entryImin w.flds)
  | .iminX w => some (entryImin w.flds)
  | .imax w => some (entryImax w.flds)
  | .imaxX w => some (entryImax w.flds)
  | .iabs w => some (entryIabs w.flds)
  | .iabsX w => some (entryIabs w.flds)
  | .iclz w => some (entryIclz w.flds)
  | .iclzX w => some (entryIclz w.flds)
  | .ipopc w => some (entryIpopc w.flds)
  | .ipopcX w => some (entryIpopc w.flds)
  | .ibrev w => some (entryIbrev w.flds)
  | .ibrevX w => some (entryIbrev w.flds)
  | .ibfx w => some (entryIbfx w.flds)
  | .ibfi w => some (entryIbfi w.flds)
  | .isel w => some (entryIsel w.flds)
  | .imov w => some (entryImov w.flds)
  | .imovX w => some (entryImov w.flds)
  | .imovi w => some (entryImovi w.flds)
  | .icmp w => some (entryIcmp w.flds)
  | .fadd w => some (entryFadd w.flds)
  | .faddX w => some (entryFadd w.flds)
  | .fsub w => some (entryFsub w.flds)
  | .fsubX w => some (entryFsub w.flds)
  | .fmul w => some (entryFmul w.flds)
  | .fmulX w => some (entryFmul w.flds)
  | .ffma w => some (entryFfma w.flds)
  | .fmin w => some (entryFmin w.flds)
  | .fminX w => some (entryFmin w.flds)
  | .fmax w => some (entryFmax w.flds)
  | .fmaxX w => some (entryFmax w.flds)
  | .fcmp w => some (entryFcmp w.flds)
  | .fclass w => some (entryFclass w.flds)
  | .fclassX w => some (entryFclass w.flds)
  | .frcp w => some (entryFrcp w.flds)
  | .frcpX w => some (entryFrcp w.flds)
  | .frsq w => some (entryFrsq w.flds)
  | .frsqX w => some (entryFrsq w.flds)
  | .fsqrt w => some (entryFsqrt w.flds)
  | .fsqrtX w => some (entryFsqrt w.flds)
  | .fdiv w => some (entryFdiv w.flds)
  | .fdivX w => some (entryFdiv w.flds)
  | .fex2 w => some (entryFex2 w.flds)
  | .fex2X w => some (entryFex2 w.flds)
  | .flg2 w => some (entryFlg2 w.flds)
  | .flg2X w => some (entryFlg2 w.flds)
  | .fscale w => some (entryFscale w.flds)
  | .fscaleX w => some (entryFscale w.flds)
  | .cvt w => some (entryCvt w.flds)
  | .quant w => some (entryQuant w.flds)
  | .dqnt w => some (entryDqnt w.flds)
  | .skey w => some (entrySkey w.flds)
  | .skeyX w => some (entrySkey w.flds)
  | .lshuf w => some (entryLshuf w.flds)
  | .lshufX w => some (entryLshuf w.flds)
  | .lbcast w => some (entryLbcast w.flds)
  | .lbcastX w => some (entryLbcast w.flds)
  | .lvote w => some (entryLvote w.flds)
  | .lvoteX w => some (entryLvote w.flds)
  | .lread w => some (entryLread w.flds)
  | .lwrite w => some (entryLwrite w.flds)
  | .gred w => some (entryGred w.flds)
  | .gscan w => some (entryGscan w.flds)
  | .pand w => some (entryPand w.flds)
  | .pandX w => some (entryPand w.flds)
  | .por w => some (entryPor w.flds)
  | .porX w => some (entryPor w.flds)
  | .pxor w => some (entryPxor w.flds)
  | .pxorX w => some (entryPxor w.flds)
  | .pset w => some (entryPset w.flds)
  | .pget w => some (entryPget w.flds)
  | .pgetX w => some (entryPget w.flds)
  | .vrot w => some (entryVrot w.flds)
  | .ld w => some (entryLd w.flds)
  | .st w => some (entrySt w.flds)
  | .ldl w => some (entryLdl w.flds)
  | .stl w => some (entryStl w.flds)
  | .lds w => some (entryLds w.flds)
  | .sts w => some (entrySts w.flds)
  | .atom w => some (entryAtom w.flds)
  | .atoml w => some (entryAtoml w.flds)
  | .fence w => some (entryFence w.flds)
  | .pfetch w => some (entryPfetch w.flds)
  | .cwb w => some (entryCwb w.flds)
  | .cinv w => some (entryCinv w.flds)
  | .stmap w => some (entryStmap w.flds)
  | .stunmap w => some (entryStunmap w.flds)
  | .stsync w => some (entryStsync w.flds)
  | .ptst w => some (entryPtst w.flds)
  | .xstrm w => some (entryXstrm w.flds)
  | .xstrmGet w => some (entryXstrmGet w.flds)
  | .xmma w => some (entryXmma w.flds)
  | .xmmac w => some (entryXmmac w.flds)
  | .ximma w => some (entryXimma w.flds)
  | .xzero w => some (entryXzero w.flds)
  | .xexp w => some (entryXexp w.flds)
  | .xnorm w => some (entryXnorm w.flds)
  | .xgrd w => some (entryXgrd w.flds)
  | .xrd w => some (entryXrd w.flds)
  | .xwr w => some (entryXwr w.flds)
  | .xflush w => some (entryXflush w.flds)
  | .xrun w => some (entryXrun w.flds)
  | .xpoll w => some (entryXpoll w.flds)
  | .xkill w => some (entryXkill w.flds)
  | .cpy w => some (entryCpy w.flds)
  | .cpyt w => some (entryCpyt w.flds)
  | .cpynd w => some (entryCpynd w.flds)
  | .cpyg w => some (entryCpyg w.flds)
  | .cpys w => some (entryCpys w.flds)
  | .cpyw w => some (entryCpyw w.flds)
  | .rinit w => some (entryRinit w.flds)
  | .rwait w => some (entryRwait w.flds)
  | .rrel w => some (entryRrel w.flds)
  | .rpost w => some (entryRpost w.flds)
  | .rtail w => some (entryRtail w.flds)
  | .cqry w => some (entryCqry w.flds)
  | .bar w => some (entryBar w.flds)
  | .barX w => some (entryBar w.flds)
  | .bara w => some (entryBara w.flds)
  | .baraX w => some (entryBara w.flds)
  | .barw w => some (entryBarw w.flds)
  | .barwX w => some (entryBarw w.flds)
  | .bard w => some (entryBard w.flds)
  | .bardX w => some (entryBard w.flds)
  | .tbinit w => some (entryTbinit w.flds)
  | .tbexp w => some (entryTbexp w.flds)
  | .tbarr w => some (entryTbarr w.flds)
  | .tbwait w => some (entryTbwait w.flds)
  | .give w => some (entryGive w.flds)
  | .giveX w => some (entryGive w.flds)
  | .claim w => some (entryClaim w.flds)
  | .claimX w => some (entryClaim w.flds)
  | .qend w => some (entryQend w.flds)
  | .qseal w => some (entryQseal w.flds)
  | .twtime w => some (entryTwtime w.flds)
  | .yield w => some (entryYield w.flds)
  | .rotcfg w => some (entryRotcfg w.flds)
  | .psh w => some (entryPsh w.flds)
  | .pop w => some (entryPop w.flds)
  | .pstat w => some (entryPstat w.flds)
  | .lsnd w => some (entryLsnd w.flds)
  | .lrcv w => some (entryLrcv w.flds)
  | .lradd w => some (entryLradd w.flds)
  | .trins w => some (entryTrins w.flds)
  | .trdrw w => some (entryTrdrw w.flds)
  | .trupd w => some (entryTrupd w.flds)
  | .trtot w => some (entryTrtot w.flds)
  | .trwgt w => some (entryTrwgt w.flds)
  | .trcfg w => some (entryTrcfg w.flds)
  | .trap w => some (entryTrap w.flds)
  | .hret w => some (entryHret w.flds)
  | .sysrd w => some (entrySysrd w.flds)
  | .syswr w => some (entrySyswr w.flds)
  | .wake w => some (entryWake w.flds)
  | .gate w => some (entryGate w.flds)
  | .halt w => some (entryHalt w.flds)
  | .bkpt w => some (entryBkpt w.flds)
  | .jobarm w => some (entryJobarm w.flds)
  | .jobdone w => some (entryJobdone w.flds)
  | .jobyld w => some (entryJobyld w.flds)
  | .susp w => some (entrySusp w.flds)
  | .fltrply w => some (entryFltrply w.flds)
  | .trapDeliveryHandler _ => none
  | .trapDeliveryHost _ => none
  | .claimDeadlock _ => none
  | .loadSectorReturn _ _ _ => none
  | .tableWalkComplete _ _ _ => none
  | .faultRecordWrite _ => none
  | .dutyRecordWrite _ => none
  | .quantumTimedClose _ => none
  | .quantumWordCountClose _ => none
  | .quantumCapacityClose _ => none
  | .detQuantumClose _ => none
  | .quantumSeal _ _ => none
  | .holdbackDrain _ _ _ => none
  | .atomPerform _ _ => none
  | .clusterTbPerform _ _ => none
  | .deviceAccessPerform _ _ => none
  | .systemWordPerform _ _ => none
  | .jobarmPerform _ _ => none
  | .epochCommit _ => none
  | .waveStart _ => none
  | .launchComplete _ => none
  | .copyWriteStart _ _ _ => none
  | .cpytRelease _ _ => none
  | .copyComplete _ _ => none
  | .ringTailObserved _ _ => none
  | .ringPullComplete _ _ => none
  | .portEntryDeliver _ _ _ _ => none
  | .lsndSend _ => none
  | .linkMessageArrive _ _ _ _ _ _ _ => none
  | .krypinRemoteRequest _ _ _ _ _ _ _ _ => none
  | .flitReceive _ _ _ => none
  | .linkDown _ => none
  | .lkctlRetrain _ => none
  | .linkTimeExchange _ _ _ _ _ => none
  | .ptpMessage _ _ _ _ _ _ => none
  | .timeSyncInterval _ => none
  | .tset _ => none
  | .cardRelease _ => none
  | .preemptCapture _ _ => none
  | .detWavePreempt _ => none
  | .contextImageWrite _ _ => none
  | .contextFree _ _ => none
  | .killComplete _ => none
  | .deadlineMiss _ => none
  | .execBudgetOverrun _ => none
  | .bwBudgetOverrun _ => none
  | .regulatorWindow => none
  | .regulatorRequest _ _ _ _ _ _ => none
  | .patrolScrub _ _ => none
  | .unmappedAccess _ _ => none
  | .strikeReport _ _ _ _ => none
  | .rollbackResume _ => none
  | .scanDue => none
  | .scanForceDrain _ => none
  | .scanComplete _ _ _ _ _ => none
  | .scannow _ => none
  | .redundantCompare _ => none
  | .tileStep _ => none
  | .tileStepEnd _ => none
  | .walkerOutputPerform _ _ => none
  | .walkerAbandonStep _ => none
  | .treeBaseWrite _ _ => none
  | .treeLevelsWrite _ _ => none
  | .treeBetaWrite _ _ => none
  | .treeNsizeWrite _ _ => none
  | .treeSeedWrite _ _ => none
  | .sumtreeCommandPerform _ _ => none
  | .treeClearComplete _ => none
  | .arm _ => none
  | .armTimed _ => none
  | .parm _ _ => none
  | .disarm _ => none
  | .dctlEnable => none
  | .dctlDisable => none
  | .dutyReplyAdmit _ => none
  | .dutyReplyReject _ => none
  | .dutyReplyPlace _ _ => none
  | .dutyReplyDefer _ => none
  | .dutyReplyReplay _ => none
  | .dutyReplyAbandon _ => none
  | .dutyReplyGrantScan _ => none
  | .dutyReplyPostponeScan _ => none
  | .dutyReplyRouteTable _ _ => none
  | .dutyReplyTimeCorrection _ _ => none
  | .frreplyRetry _ => none
  | .frreplyPoison _ => none
  | .frreplyFail _ => none
  | .tlbinvPage _ _ => none
  | .tlbinvContext _ _ => none
  | .tlbinvIpa _ _ => none
  | .tlbinvComplete => none
  | .histatClear _ => none
  | .hienWrite _ => none
  | .frameStart _ _ => none
  | .frameLine _ _ _ _ _ _ => none
  | .frameEnd _ _ => none
  | .ethTx _ _ => none
  | .ethRxFrame _ _ _ => none
  | .pcieInboundRequest _ _ _ _ _ _ _ _ _ _ => none
  | .registerWrite _ _ _ => none
  | .coreEnterGating _ => none
  | .coreWakeComplete _ => none
  | .wakeset _ _ => none
  | .suspctlGo _ => none
  | .suspendPowerDown => none
  | .resume _ => none
  | .resumeAlarm => none
  | .powerOn => none
  | .bootStage _ _ _ _ => none
  | .islandLockstepReset => none
  | .mbAttest => none
  | .mbRestart => none
  | .mbCommitsv => none
  | .mbInvalid => none
  | .coreStallTimeout _ => none
  | .walkerStallTimeout _ => none
  | .ingestFrameTimeout _ => none
  | .heartbeatTimeout => none
  | .hbap => none
  | .thermalThrottle _ => none
  | .thermalShutdown => none
  | .thermalRelease _ => none
  | .linkUp _ _ _ => none
  | .sensorEvent => none
  | .twtimeTargetReached _ => none
  | .copySourceReadDone _ _ => none
  | .restoreComplete _ _ => none
  | .applicationProcessorAccess _ _ _ _ _ _ _ _ => none

/-- The fields of an instruction word; a machine event has none. -/
def Instr.flds (i : Instr) : Flds :=
  match i with
  | .nop _ w => w.flds
  | .twait _ w => w.flds
  | .tsig _ w => w.flds
  | .sli w => w.flds
  | .slih w => w.flds
  | .smov w => w.flds
  | .sadd w => w.flds
  | .saddX w => w.flds
  | .ssub w => w.flds
  | .ssubX w => w.flds
  | .smul w => w.flds
  | .smulX w => w.flds
  | .smulh w => w.flds
  | .smulhX w => w.flds
  | .sand w => w.flds
  | .sandX w => w.flds
  | .sor w => w.flds
  | .sorX w => w.flds
  | .sxor w => w.flds
  | .sxorX w => w.flds
  | .sshl w => w.flds
  | .sshlX w => w.flds
  | .sshr w => w.flds
  | .sshrX w => w.flds
  | .ssra w => w.flds
  | .ssraX w => w.flds
  | .smin w => w.flds
  | .sminX w => w.flds
  | .smax w => w.flds
  | .smaxX w => w.flds
  | .scmp w => w.flds
  | .ssel w => w.flds
  | .srd w => w.flds
  | .bra w => w.flds
  | .brc w => w.flds
  | .brx w => w.flds
  | .call w => w.flds
  | .ret w => w.flds
  | .bdiv w => w.flds
  | .mark w => w.flds
  | .join w => w.flds
  | .loop w => w.flds
  | .endl w => w.flds
  | .exit w => w.flds
  | .iadd w => w.flds
  | .iaddX w => w.flds
  | .isub w => w.flds
  | .isubX w => w.flds
  | .imul w => w.flds
  | .imulX w => w.flds
  | .imulh w => w.flds
  | .imulhX w => w.flds
  | .imad w => w.flds
  | .iand w => w.flds
  | .iandX w => w.flds
  | .ior w => w.flds
  | .iorX w => w.flds
  | .ixor w => w.flds
  | .ixorX w => w.flds
  | .ishl w => w.flds
  | .ishlX w => w.flds
  | .ishr w => w.flds
  | .ishrX w => w.flds
  | .isra w => w.flds
  | .israX w => w.flds
  | .imin w => w.flds
  | .iminX w => w.flds
  | .imax w => w.flds
  | .imaxX w => w.flds
  | .iabs w => w.flds
  | .iabsX w => w.flds
  | .iclz w => w.flds
  | .iclzX w => w.flds
  | .ipopc w => w.flds
  | .ipopcX w => w.flds
  | .ibrev w => w.flds
  | .ibrevX w => w.flds
  | .ibfx w => w.flds
  | .ibfi w => w.flds
  | .isel w => w.flds
  | .imov w => w.flds
  | .imovX w => w.flds
  | .imovi w => w.flds
  | .icmp w => w.flds
  | .fadd w => w.flds
  | .faddX w => w.flds
  | .fsub w => w.flds
  | .fsubX w => w.flds
  | .fmul w => w.flds
  | .fmulX w => w.flds
  | .ffma w => w.flds
  | .fmin w => w.flds
  | .fminX w => w.flds
  | .fmax w => w.flds
  | .fmaxX w => w.flds
  | .fcmp w => w.flds
  | .fclass w => w.flds
  | .fclassX w => w.flds
  | .frcp w => w.flds
  | .frcpX w => w.flds
  | .frsq w => w.flds
  | .frsqX w => w.flds
  | .fsqrt w => w.flds
  | .fsqrtX w => w.flds
  | .fdiv w => w.flds
  | .fdivX w => w.flds
  | .fex2 w => w.flds
  | .fex2X w => w.flds
  | .flg2 w => w.flds
  | .flg2X w => w.flds
  | .fscale w => w.flds
  | .fscaleX w => w.flds
  | .cvt w => w.flds
  | .quant w => w.flds
  | .dqnt w => w.flds
  | .skey w => w.flds
  | .skeyX w => w.flds
  | .lshuf w => w.flds
  | .lshufX w => w.flds
  | .lbcast w => w.flds
  | .lbcastX w => w.flds
  | .lvote w => w.flds
  | .lvoteX w => w.flds
  | .lread w => w.flds
  | .lwrite w => w.flds
  | .gred w => w.flds
  | .gscan w => w.flds
  | .pand w => w.flds
  | .pandX w => w.flds
  | .por w => w.flds
  | .porX w => w.flds
  | .pxor w => w.flds
  | .pxorX w => w.flds
  | .pset w => w.flds
  | .pget w => w.flds
  | .pgetX w => w.flds
  | .vrot w => w.flds
  | .ld w => w.flds
  | .st w => w.flds
  | .ldl w => w.flds
  | .stl w => w.flds
  | .lds w => w.flds
  | .sts w => w.flds
  | .atom w => w.flds
  | .atoml w => w.flds
  | .fence w => w.flds
  | .pfetch w => w.flds
  | .cwb w => w.flds
  | .cinv w => w.flds
  | .stmap w => w.flds
  | .stunmap w => w.flds
  | .stsync w => w.flds
  | .ptst w => w.flds
  | .xstrm w => w.flds
  | .xstrmGet w => w.flds
  | .xmma w => w.flds
  | .xmmac w => w.flds
  | .ximma w => w.flds
  | .xzero w => w.flds
  | .xexp w => w.flds
  | .xnorm w => w.flds
  | .xgrd w => w.flds
  | .xrd w => w.flds
  | .xwr w => w.flds
  | .xflush w => w.flds
  | .xrun w => w.flds
  | .xpoll w => w.flds
  | .xkill w => w.flds
  | .cpy w => w.flds
  | .cpyt w => w.flds
  | .cpynd w => w.flds
  | .cpyg w => w.flds
  | .cpys w => w.flds
  | .cpyw w => w.flds
  | .rinit w => w.flds
  | .rwait w => w.flds
  | .rrel w => w.flds
  | .rpost w => w.flds
  | .rtail w => w.flds
  | .cqry w => w.flds
  | .bar w => w.flds
  | .barX w => w.flds
  | .bara w => w.flds
  | .baraX w => w.flds
  | .barw w => w.flds
  | .barwX w => w.flds
  | .bard w => w.flds
  | .bardX w => w.flds
  | .tbinit w => w.flds
  | .tbexp w => w.flds
  | .tbarr w => w.flds
  | .tbwait w => w.flds
  | .give w => w.flds
  | .giveX w => w.flds
  | .claim w => w.flds
  | .claimX w => w.flds
  | .qend w => w.flds
  | .qseal w => w.flds
  | .twtime w => w.flds
  | .yield w => w.flds
  | .rotcfg w => w.flds
  | .psh w => w.flds
  | .pop w => w.flds
  | .pstat w => w.flds
  | .lsnd w => w.flds
  | .lrcv w => w.flds
  | .lradd w => w.flds
  | .trins w => w.flds
  | .trdrw w => w.flds
  | .trupd w => w.flds
  | .trtot w => w.flds
  | .trwgt w => w.flds
  | .trcfg w => w.flds
  | .trap w => w.flds
  | .hret w => w.flds
  | .sysrd w => w.flds
  | .syswr w => w.flds
  | .wake w => w.flds
  | .gate w => w.flds
  | .halt w => w.flds
  | .bkpt w => w.flds
  | .jobarm w => w.flds
  | .jobdone w => w.flds
  | .jobyld w => w.flds
  | .susp w => w.flds
  | .fltrply w => w.flds
  | .trapDeliveryHandler _ => ⟨.short, 0, 0, 0, false, false, 0, 0, 0, 0⟩
  | .trapDeliveryHost _ => ⟨.short, 0, 0, 0, false, false, 0, 0, 0, 0⟩
  | .claimDeadlock _ => ⟨.short, 0, 0, 0, false, false, 0, 0, 0, 0⟩
  | .loadSectorReturn _ _ _ => ⟨.short, 0, 0, 0, false, false, 0, 0, 0, 0⟩
  | .tableWalkComplete _ _ _ => ⟨.short, 0, 0, 0, false, false, 0, 0, 0, 0⟩
  | .faultRecordWrite _ => ⟨.short, 0, 0, 0, false, false, 0, 0, 0, 0⟩
  | .dutyRecordWrite _ => ⟨.short, 0, 0, 0, false, false, 0, 0, 0, 0⟩
  | .quantumTimedClose _ => ⟨.short, 0, 0, 0, false, false, 0, 0, 0, 0⟩
  | .quantumWordCountClose _ => ⟨.short, 0, 0, 0, false, false, 0, 0, 0, 0⟩
  | .quantumCapacityClose _ => ⟨.short, 0, 0, 0, false, false, 0, 0, 0, 0⟩
  | .detQuantumClose _ => ⟨.short, 0, 0, 0, false, false, 0, 0, 0, 0⟩
  | .quantumSeal _ _ => ⟨.short, 0, 0, 0, false, false, 0, 0, 0, 0⟩
  | .holdbackDrain _ _ _ => ⟨.short, 0, 0, 0, false, false, 0, 0, 0, 0⟩
  | .atomPerform _ _ => ⟨.short, 0, 0, 0, false, false, 0, 0, 0, 0⟩
  | .clusterTbPerform _ _ => ⟨.short, 0, 0, 0, false, false, 0, 0, 0, 0⟩
  | .deviceAccessPerform _ _ => ⟨.short, 0, 0, 0, false, false, 0, 0, 0, 0⟩
  | .systemWordPerform _ _ => ⟨.short, 0, 0, 0, false, false, 0, 0, 0, 0⟩
  | .jobarmPerform _ _ => ⟨.short, 0, 0, 0, false, false, 0, 0, 0, 0⟩
  | .epochCommit _ => ⟨.short, 0, 0, 0, false, false, 0, 0, 0, 0⟩
  | .waveStart _ => ⟨.short, 0, 0, 0, false, false, 0, 0, 0, 0⟩
  | .launchComplete _ => ⟨.short, 0, 0, 0, false, false, 0, 0, 0, 0⟩
  | .copyWriteStart _ _ _ => ⟨.short, 0, 0, 0, false, false, 0, 0, 0, 0⟩
  | .cpytRelease _ _ => ⟨.short, 0, 0, 0, false, false, 0, 0, 0, 0⟩
  | .copyComplete _ _ => ⟨.short, 0, 0, 0, false, false, 0, 0, 0, 0⟩
  | .ringTailObserved _ _ => ⟨.short, 0, 0, 0, false, false, 0, 0, 0, 0⟩
  | .ringPullComplete _ _ => ⟨.short, 0, 0, 0, false, false, 0, 0, 0, 0⟩
  | .portEntryDeliver _ _ _ _ => ⟨.short, 0, 0, 0, false, false, 0, 0, 0, 0⟩
  | .lsndSend _ => ⟨.short, 0, 0, 0, false, false, 0, 0, 0, 0⟩
  | .linkMessageArrive _ _ _ _ _ _ _ => ⟨.short, 0, 0, 0, false, false, 0, 0, 0, 0⟩
  | .krypinRemoteRequest _ _ _ _ _ _ _ _ => ⟨.short, 0, 0, 0, false, false, 0, 0, 0, 0⟩
  | .flitReceive _ _ _ => ⟨.short, 0, 0, 0, false, false, 0, 0, 0, 0⟩
  | .linkDown _ => ⟨.short, 0, 0, 0, false, false, 0, 0, 0, 0⟩
  | .lkctlRetrain _ => ⟨.short, 0, 0, 0, false, false, 0, 0, 0, 0⟩
  | .linkTimeExchange _ _ _ _ _ => ⟨.short, 0, 0, 0, false, false, 0, 0, 0, 0⟩
  | .ptpMessage _ _ _ _ _ _ => ⟨.short, 0, 0, 0, false, false, 0, 0, 0, 0⟩
  | .timeSyncInterval _ => ⟨.short, 0, 0, 0, false, false, 0, 0, 0, 0⟩
  | .tset _ => ⟨.short, 0, 0, 0, false, false, 0, 0, 0, 0⟩
  | .cardRelease _ => ⟨.short, 0, 0, 0, false, false, 0, 0, 0, 0⟩
  | .preemptCapture _ _ => ⟨.short, 0, 0, 0, false, false, 0, 0, 0, 0⟩
  | .detWavePreempt _ => ⟨.short, 0, 0, 0, false, false, 0, 0, 0, 0⟩
  | .contextImageWrite _ _ => ⟨.short, 0, 0, 0, false, false, 0, 0, 0, 0⟩
  | .contextFree _ _ => ⟨.short, 0, 0, 0, false, false, 0, 0, 0, 0⟩
  | .killComplete _ => ⟨.short, 0, 0, 0, false, false, 0, 0, 0, 0⟩
  | .deadlineMiss _ => ⟨.short, 0, 0, 0, false, false, 0, 0, 0, 0⟩
  | .execBudgetOverrun _ => ⟨.short, 0, 0, 0, false, false, 0, 0, 0, 0⟩
  | .bwBudgetOverrun _ => ⟨.short, 0, 0, 0, false, false, 0, 0, 0, 0⟩
  | .regulatorWindow => ⟨.short, 0, 0, 0, false, false, 0, 0, 0, 0⟩
  | .regulatorRequest _ _ _ _ _ _ => ⟨.short, 0, 0, 0, false, false, 0, 0, 0, 0⟩
  | .patrolScrub _ _ => ⟨.short, 0, 0, 0, false, false, 0, 0, 0, 0⟩
  | .unmappedAccess _ _ => ⟨.short, 0, 0, 0, false, false, 0, 0, 0, 0⟩
  | .strikeReport _ _ _ _ => ⟨.short, 0, 0, 0, false, false, 0, 0, 0, 0⟩
  | .rollbackResume _ => ⟨.short, 0, 0, 0, false, false, 0, 0, 0, 0⟩
  | .scanDue => ⟨.short, 0, 0, 0, false, false, 0, 0, 0, 0⟩
  | .scanForceDrain _ => ⟨.short, 0, 0, 0, false, false, 0, 0, 0, 0⟩
  | .scanComplete _ _ _ _ _ => ⟨.short, 0, 0, 0, false, false, 0, 0, 0, 0⟩
  | .scannow _ => ⟨.short, 0, 0, 0, false, false, 0, 0, 0, 0⟩
  | .redundantCompare _ => ⟨.short, 0, 0, 0, false, false, 0, 0, 0, 0⟩
  | .tileStep _ => ⟨.short, 0, 0, 0, false, false, 0, 0, 0, 0⟩
  | .tileStepEnd _ => ⟨.short, 0, 0, 0, false, false, 0, 0, 0, 0⟩
  | .walkerOutputPerform _ _ => ⟨.short, 0, 0, 0, false, false, 0, 0, 0, 0⟩
  | .walkerAbandonStep _ => ⟨.short, 0, 0, 0, false, false, 0, 0, 0, 0⟩
  | .treeBaseWrite _ _ => ⟨.short, 0, 0, 0, false, false, 0, 0, 0, 0⟩
  | .treeLevelsWrite _ _ => ⟨.short, 0, 0, 0, false, false, 0, 0, 0, 0⟩
  | .treeBetaWrite _ _ => ⟨.short, 0, 0, 0, false, false, 0, 0, 0, 0⟩
  | .treeNsizeWrite _ _ => ⟨.short, 0, 0, 0, false, false, 0, 0, 0, 0⟩
  | .treeSeedWrite _ _ => ⟨.short, 0, 0, 0, false, false, 0, 0, 0, 0⟩
  | .sumtreeCommandPerform _ _ => ⟨.short, 0, 0, 0, false, false, 0, 0, 0, 0⟩
  | .treeClearComplete _ => ⟨.short, 0, 0, 0, false, false, 0, 0, 0, 0⟩
  | .arm _ => ⟨.short, 0, 0, 0, false, false, 0, 0, 0, 0⟩
  | .armTimed _ => ⟨.short, 0, 0, 0, false, false, 0, 0, 0, 0⟩
  | .parm _ _ => ⟨.short, 0, 0, 0, false, false, 0, 0, 0, 0⟩
  | .disarm _ => ⟨.short, 0, 0, 0, false, false, 0, 0, 0, 0⟩
  | .dctlEnable => ⟨.short, 0, 0, 0, false, false, 0, 0, 0, 0⟩
  | .dctlDisable => ⟨.short, 0, 0, 0, false, false, 0, 0, 0, 0⟩
  | .dutyReplyAdmit _ => ⟨.short, 0, 0, 0, false, false, 0, 0, 0, 0⟩
  | .dutyReplyReject _ => ⟨.short, 0, 0, 0, false, false, 0, 0, 0, 0⟩
  | .dutyReplyPlace _ _ => ⟨.short, 0, 0, 0, false, false, 0, 0, 0, 0⟩
  | .dutyReplyDefer _ => ⟨.short, 0, 0, 0, false, false, 0, 0, 0, 0⟩
  | .dutyReplyReplay _ => ⟨.short, 0, 0, 0, false, false, 0, 0, 0, 0⟩
  | .dutyReplyAbandon _ => ⟨.short, 0, 0, 0, false, false, 0, 0, 0, 0⟩
  | .dutyReplyGrantScan _ => ⟨.short, 0, 0, 0, false, false, 0, 0, 0, 0⟩
  | .dutyReplyPostponeScan _ => ⟨.short, 0, 0, 0, false, false, 0, 0, 0, 0⟩
  | .dutyReplyRouteTable _ _ => ⟨.short, 0, 0, 0, false, false, 0, 0, 0, 0⟩
  | .dutyReplyTimeCorrection _ _ => ⟨.short, 0, 0, 0, false, false, 0, 0, 0, 0⟩
  | .frreplyRetry _ => ⟨.short, 0, 0, 0, false, false, 0, 0, 0, 0⟩
  | .frreplyPoison _ => ⟨.short, 0, 0, 0, false, false, 0, 0, 0, 0⟩
  | .frreplyFail _ => ⟨.short, 0, 0, 0, false, false, 0, 0, 0, 0⟩
  | .tlbinvPage _ _ => ⟨.short, 0, 0, 0, false, false, 0, 0, 0, 0⟩
  | .tlbinvContext _ _ => ⟨.short, 0, 0, 0, false, false, 0, 0, 0, 0⟩
  | .tlbinvIpa _ _ => ⟨.short, 0, 0, 0, false, false, 0, 0, 0, 0⟩
  | .tlbinvComplete => ⟨.short, 0, 0, 0, false, false, 0, 0, 0, 0⟩
  | .histatClear _ => ⟨.short, 0, 0, 0, false, false, 0, 0, 0, 0⟩
  | .hienWrite _ => ⟨.short, 0, 0, 0, false, false, 0, 0, 0, 0⟩
  | .frameStart _ _ => ⟨.short, 0, 0, 0, false, false, 0, 0, 0, 0⟩
  | .frameLine _ _ _ _ _ _ => ⟨.short, 0, 0, 0, false, false, 0, 0, 0, 0⟩
  | .frameEnd _ _ => ⟨.short, 0, 0, 0, false, false, 0, 0, 0, 0⟩
  | .ethTx _ _ => ⟨.short, 0, 0, 0, false, false, 0, 0, 0, 0⟩
  | .ethRxFrame _ _ _ => ⟨.short, 0, 0, 0, false, false, 0, 0, 0, 0⟩
  | .pcieInboundRequest _ _ _ _ _ _ _ _ _ _ => ⟨.short, 0, 0, 0, false, false, 0, 0, 0, 0⟩
  | .registerWrite _ _ _ => ⟨.short, 0, 0, 0, false, false, 0, 0, 0, 0⟩
  | .coreEnterGating _ => ⟨.short, 0, 0, 0, false, false, 0, 0, 0, 0⟩
  | .coreWakeComplete _ => ⟨.short, 0, 0, 0, false, false, 0, 0, 0, 0⟩
  | .wakeset _ _ => ⟨.short, 0, 0, 0, false, false, 0, 0, 0, 0⟩
  | .suspctlGo _ => ⟨.short, 0, 0, 0, false, false, 0, 0, 0, 0⟩
  | .suspendPowerDown => ⟨.short, 0, 0, 0, false, false, 0, 0, 0, 0⟩
  | .resume _ => ⟨.short, 0, 0, 0, false, false, 0, 0, 0, 0⟩
  | .resumeAlarm => ⟨.short, 0, 0, 0, false, false, 0, 0, 0, 0⟩
  | .powerOn => ⟨.short, 0, 0, 0, false, false, 0, 0, 0, 0⟩
  | .bootStage _ _ _ _ => ⟨.short, 0, 0, 0, false, false, 0, 0, 0, 0⟩
  | .islandLockstepReset => ⟨.short, 0, 0, 0, false, false, 0, 0, 0, 0⟩
  | .mbAttest => ⟨.short, 0, 0, 0, false, false, 0, 0, 0, 0⟩
  | .mbRestart => ⟨.short, 0, 0, 0, false, false, 0, 0, 0, 0⟩
  | .mbCommitsv => ⟨.short, 0, 0, 0, false, false, 0, 0, 0, 0⟩
  | .mbInvalid => ⟨.short, 0, 0, 0, false, false, 0, 0, 0, 0⟩
  | .coreStallTimeout _ => ⟨.short, 0, 0, 0, false, false, 0, 0, 0, 0⟩
  | .walkerStallTimeout _ => ⟨.short, 0, 0, 0, false, false, 0, 0, 0, 0⟩
  | .ingestFrameTimeout _ => ⟨.short, 0, 0, 0, false, false, 0, 0, 0, 0⟩
  | .heartbeatTimeout => ⟨.short, 0, 0, 0, false, false, 0, 0, 0, 0⟩
  | .hbap => ⟨.short, 0, 0, 0, false, false, 0, 0, 0, 0⟩
  | .thermalThrottle _ => ⟨.short, 0, 0, 0, false, false, 0, 0, 0, 0⟩
  | .thermalShutdown => ⟨.short, 0, 0, 0, false, false, 0, 0, 0, 0⟩
  | .thermalRelease _ => ⟨.short, 0, 0, 0, false, false, 0, 0, 0, 0⟩
  | .linkUp _ _ _ => ⟨.short, 0, 0, 0, false, false, 0, 0, 0, 0⟩
  | .sensorEvent => ⟨.short, 0, 0, 0, false, false, 0, 0, 0, 0⟩
  | .twtimeTargetReached _ => ⟨.short, 0, 0, 0, false, false, 0, 0, 0, 0⟩
  | .copySourceReadDone _ _ => ⟨.short, 0, 0, 0, false, false, 0, 0, 0, 0⟩
  | .restoreComplete _ _ => ⟨.short, 0, 0, 0, false, false, 0, 0, 0, 0⟩
  | .applicationProcessorAccess _ _ _ _ _ _ _ _ => ⟨.short, 0, 0, 0, false, false, 0, 0, 0, 0⟩

/-- A register a word can name (R24, R30). `rot` is the rotation state. -/
inductive Reg where
  | v (n : Nat)
  | p (n : Nat)
  | u (n : Nat)
  | t (n : Nat)
  | f (n : Nat)
  | rot
deriving DecidableEq, Repr

/-- A field's value breaks a reserved field (R72, cause 2). -/
def fieldResv (fk : FieldKind) (x : Nat) : Bool :=
  match fk with
  | .z => x ≠ 0
  | _ => false

/-- A field's value lies outside its class or range (R71, cause 3). -/
def fieldRange (fk : FieldKind) (x : Nat) : Bool :=
  match fk with
  | .z => false
  | .v _ _ al => x % al ≠ 0
  | .p _ => false
  | .u _ _ al => 64 ≤ x || x % al ≠ 0
  | .ut _ => 80 ≤ x
  | .f _ => 16 ≤ x
  | .n lo hi => x < lo || hi < x
  | .raw => false

/-- A field names a lane register at or above the allocation `A` (R25, cause 4). -/
def fieldAlloc (fk : FieldKind) (x A : Nat) : Bool :=
  match fk with
  | .v _ cnt _ => A < x + cnt
  | _ => false

/-- The registers a field names and how (R30). -/
def fieldRegs (fk : FieldKind) (x : Nat) : List (Reg × Acc) :=
  match fk with
  | .v acc cnt _ => (List.range cnt).map (fun i => (.v (x + i), acc))
  | .p acc => [(.p x, acc)]
  | .u acc cnt _ => (List.range cnt).map (fun i => (.u (x + i), acc))
  | .ut acc => if x < 64 then [(.u x, acc)] else [(.t (x - 64), acc)]
  | .f acc => [(.f x, acc)]
  | _ => []

/-- Cause 2 of R75: a reserved field is not zero. -/
def Row.cause2 (r : Row) (f : Flds) : Bool :=
  fieldResv r.d f.d || fieldResv r.a f.a || fieldResv r.b f.b || fieldResv r.c f.c ||
    (!r.imm && f.imm ≠ 0) || !r.resv || (!f.ge && (f.gn || f.gp ≠ 0))

/-- Cause 3 of R75: a field value outside its class or range. -/
def Row.cause3 (r : Row) (f : Flds) : Bool :=
  fieldRange r.d f.d || fieldRange r.a f.a || fieldRange r.b f.b || fieldRange r.c f.c || !r.range

/-- Cause 4 of R75: an unallocated lane register. -/
def Row.cause4 (r : Row) (f : Flds) (A : Nat) : Bool :=
  fieldAlloc r.d f.d A || fieldAlloc r.a f.a A || fieldAlloc r.b f.b A || fieldAlloc r.c f.c A

/-- The registers a word names, its guard predicate among them (R30). -/
def Row.regs (r : Row) (f : Flds) : List (Reg × Acc) :=
  fieldRegs r.d f.d ++ fieldRegs r.a f.a ++ fieldRegs r.b f.b ++ fieldRegs r.c f.c ++
    (if f.ge then [(.p f.gp, .r)] else [])

/-- The causes of R75 that a word's bits alone decide, ascending. -/
def Row.staticCauses (r : Row) (f : Flds) : List Nat :=
  (if r.cause2 f then [2] else []) ++ (if r.cause3 f then [3] else []) ++
    (if r.modOk then [] else [6])

end Sys2Proof
end

