-- ==== Sys2Proof/WellFormed.lean ====
section
/-!
DEFINITION. Sys2Proof/WellFormed.lean: which instructions are well formed: those whose bits raise no
cause of R75 (reserved fields, field classes and ranges, modifier codes). Machine events are well formed
by their types.
-/
namespace Sys2Proof

/-- No cause of R75 follows from the word's bits. -/
def Instr.wellFormed (i : Instr) : Bool :=
  match i.row with
  | none => true
  | some r => (r.staticCauses i.flds).isEmpty

end Sys2Proof
end

