-- ==== Sys2Proof/Decode.lean ====
section
/-!
DEFINITION. Sys2Proof/Decode.lean: from bytes to an instruction (R68 to R70, R87), total on any bytes and
rejecting by name, and the encoder written from the same tables.
-/
namespace Sys2Proof

/-- Why bytes are no instruction. -/
inductive DecodeError where
  /-- fewer bytes than the instruction has -/
  | truncated
  /-- the opcode map of the engine does not list the opcode (R75 cause 0) -/
  | opcode
  /-- the opcode does not admit the form that L selects (R75 cause 1) -/
  | form
deriving DecidableEq, Repr

/-! ### Fields of the two words (R68, R69) -/

def wE (w : Word32) : BitVec 3 := w.extractLsb' 29 3
def wL (w : Word32) : BitVec 1 := w.extractLsb' 28 1
def wOp (w : Word32) : BitVec 7 := w.extractLsb' 21 7
def wD (w : Word32) : BitVec 7 := w.extractLsb' 14 7
def wA (w : Word32) : BitVec 7 := w.extractLsb' 7 7
def wB (w : Word32) : BitVec 7 := w.extractLsb' 0 7
def xGE (x : Word32) : BitVec 1 := x.extractLsb' 31 1
def xGN (x : Word32) : BitVec 1 := x.extractLsb' 30 1
def xGP (x : Word32) : BitVec 7 := x.extractLsb' 23 7
def xMOD (x : Word32) : BitVec 4 := x.extractLsb' 19 4
def xC (x : Word32) : BitVec 7 := x.extractLsb' 12 7
def xI12 (x : Word32) : BitVec 12 := x.extractLsb' 0 12
def xI23 (x : Word32) : BitVec 23 := x.extractLsb' 0 23

/-- The guard fields of an extension word. -/
def xGuard (x : Word32) : Guard := ⟨xGE x = 1#1, xGN x = 1#1, xGP x⟩

/-- The short word of word 0. -/
def toSW (w : Word32) : SW := ⟨wD w, wA w, wB w⟩
/-- The X-form word of word 0 and its extension. -/
def toXW (w x : Word32) : XW := ⟨wD w, wA w, wB w, xGuard x, xMOD x, xC x, xI12 x⟩
/-- The K-form word of word 0 and its extension. -/
def toKW (w x : Word32) : KW := ⟨wD w, wA w, wB w, xGuard x, xI23 x⟩

/-- Word 0 from its fields (R68). -/
def packWord (e : BitVec 3) (l : BitVec 1) (op d a b : BitVec 7) : Word32 :=
  e ++ l ++ op ++ d ++ a ++ b

/-- An X-form extension from its fields (R69). -/
def packX (g : Guard) (mod : BitVec 4) (c : BitVec 7) (imm : BitVec 12) : Word32 :=
  BitVec.ofBool g.ge ++ BitVec.ofBool g.gn ++ g.gp ++ mod ++ c ++ imm

/-- A K-form extension from its fields (R69). -/
def packK (g : Guard) (imm : BitVec 23) : Word32 :=
  BitVec.ofBool g.ge ++ BitVec.ofBool g.gn ++ g.gp ++ imm

/-! ### The opcode map (R87) -/

/-- What an opcode's long form is: none, X or K. No opcode admits both (R70). -/
inductive LongForm where
  | none
  | x (f : XW → Instr)
  | k (f : KW → Instr)

/-- One opcode of an engine: its short form, if it admits one, and its long form. -/
structure OpEntry where
  op : Nat
  short : Option (SW → Instr)
  long : LongForm

/-- The entry of an opcode in a table. -/
def findOp : List OpEntry → Nat → Option OpEntry
  | [], _ => none
  | e :: es, n => if e.op = n then some e else findOp es n

/-- XSTRM and XSTRM.get share an opcode; MOD = 1 is XSTRM.get (R173). Other codes of MOD are checked by XSTRM's field
classes before they are refused (DESIGN CHOICE, log 102). -/
def xstrmForm (w : XW) : Instr := if w.mod = 1#4 then .xstrmGet w else .xstrm w

/-- The opcodes of engine S. -/
def opsS : List OpEntry :=
  [ ⟨0x01, none, (.k .sli)⟩,
    ⟨0x02, none, (.k .slih)⟩,
    ⟨0x03, (some .smov), .none⟩,
    ⟨0x04, (some .sadd), (.x .saddX)⟩,
    ⟨0x05, (some .ssub), (.x .ssubX)⟩,
    ⟨0x06, (some .smul), (.x .smulX)⟩,
    ⟨0x07, (some .smulh), (.x .smulhX)⟩,
    ⟨0x08, (some .sand), (.x .sandX)⟩,
    ⟨0x09, (some .sor), (.x .sorX)⟩,
    ⟨0x0a, (some .sxor), (.x .sxorX)⟩,
    ⟨0x0b, (some .sshl), (.x .sshlX)⟩,
    ⟨0x0c, (some .sshr), (.x .sshrX)⟩,
    ⟨0x0d, (some .ssra), (.x .ssraX)⟩,
    ⟨0x0e, (some .smin), (.x .sminX)⟩,
    ⟨0x0f, (some .smax), (.x .smaxX)⟩,
    ⟨0x10, none, (.x .scmp)⟩,
    ⟨0x11, none, (.x .ssel)⟩,
    ⟨0x12, (some .srd), .none⟩,
    ⟨0x20, none, (.k .bra)⟩,
    ⟨0x21, none, (.k .brc)⟩,
    ⟨0x22, (some .brx), .none⟩,
    ⟨0x23, none, (.k .call)⟩,
    ⟨0x24, (some .ret), .none⟩,
    ⟨0x25, none, (.k .bdiv)⟩,
    ⟨0x26, none, (.k .mark)⟩,
    ⟨0x27, (some .join), .none⟩,
    ⟨0x28, none, (.k .loop)⟩,
    ⟨0x29, none, (.k .endl)⟩,
    ⟨0x2a, (some .exit), .none⟩ ]

/-- The opcodes of engine V. -/
def opsV : List OpEntry :=
  [ ⟨0x01, (some .iadd), (.x .iaddX)⟩,
    ⟨0x02, (some .isub), (.x .isubX)⟩,
    ⟨0x03, (some .imul), (.x .imulX)⟩,
    ⟨0x04, (some .imulh), (.x .imulhX)⟩,
    ⟨0x05, none, (.x .imad)⟩,
    ⟨0x06, (some .iand), (.x .iandX)⟩,
    ⟨0x07, (some .ior), (.x .iorX)⟩,
    ⟨0x08, (some .ixor), (.x .ixorX)⟩,
    ⟨0x09, (some .ishl), (.x .ishlX)⟩,
    ⟨0x0a, (some .ishr), (.x .ishrX)⟩,
    ⟨0x0b, (some .isra), (.x .israX)⟩,
    ⟨0x0c, (some .imin), (.x .iminX)⟩,
    ⟨0x0d, (some .imax), (.x .imaxX)⟩,
    ⟨0x0e, (some .iabs), (.x .iabsX)⟩,
    ⟨0x0f, (some .iclz), (.x .iclzX)⟩,
    ⟨0x10, (some .ipopc), (.x .ipopcX)⟩,
    ⟨0x11, (some .ibrev), (.x .ibrevX)⟩,
    ⟨0x12, none, (.x .ibfx)⟩,
    ⟨0x13, none, (.x .ibfi)⟩,
    ⟨0x14, none, (.x .isel)⟩,
    ⟨0x15, (some .imov), (.x .imovX)⟩,
    ⟨0x16, none, (.k .imovi)⟩,
    ⟨0x17, none, (.x .icmp)⟩,
    ⟨0x20, (some .fadd), (.x .faddX)⟩,
    ⟨0x21, (some .fsub), (.x .fsubX)⟩,
    ⟨0x22, (some .fmul), (.x .fmulX)⟩,
    ⟨0x23, none, (.x .ffma)⟩,
    ⟨0x24, (some .fmin), (.x .fminX)⟩,
    ⟨0x25, (some .fmax), (.x .fmaxX)⟩,
    ⟨0x26, none, (.x .fcmp)⟩,
    ⟨0x27, (some .fclass), (.x .fclassX)⟩,
    ⟨0x28, (some .frcp), (.x .frcpX)⟩,
    ⟨0x29, (some .frsq), (.x .frsqX)⟩,
    ⟨0x2a, (some .fsqrt), (.x .fsqrtX)⟩,
    ⟨0x2b, (some .fdiv), (.x .fdivX)⟩,
    ⟨0x2c, (some .fex2), (.x .fex2X)⟩,
    ⟨0x2d, (some .flg2), (.x .flg2X)⟩,
    ⟨0x2e, (some .fscale), (.x .fscaleX)⟩,
    ⟨0x30, none, (.x .cvt)⟩,
    ⟨0x31, none, (.x .quant)⟩,
    ⟨0x32, none, (.x .dqnt)⟩,
    ⟨0x33, (some .skey), (.x .skeyX)⟩,
    ⟨0x38, (some .lshuf), (.x .lshufX)⟩,
    ⟨0x39, (some .lbcast), (.x .lbcastX)⟩,
    ⟨0x3a, (some .lvote), (.x .lvoteX)⟩,
    ⟨0x3b, none, (.x .lread)⟩,
    ⟨0x3c, none, (.x .lwrite)⟩,
    ⟨0x3d, none, (.x .gred)⟩,
    ⟨0x3e, none, (.x .gscan)⟩,
    ⟨0x40, (some .pand), (.x .pandX)⟩,
    ⟨0x41, (some .por), (.x .porX)⟩,
    ⟨0x42, (some .pxor), (.x .pxorX)⟩,
    ⟨0x43, none, (.x .pset)⟩,
    ⟨0x44, (some .pget), (.x .pgetX)⟩,
    ⟨0x48, (some .vrot), .none⟩ ]

/-- The opcodes of engine M. -/
def opsM : List OpEntry :=
  [ ⟨0x01, none, (.x .ld)⟩,
    ⟨0x02, none, (.x .st)⟩,
    ⟨0x03, none, (.x .ldl)⟩,
    ⟨0x04, none, (.x .stl)⟩,
    ⟨0x05, none, (.x .lds)⟩,
    ⟨0x06, none, (.x .sts)⟩,
    ⟨0x07, none, (.x .atom)⟩,
    ⟨0x08, none, (.x .atoml)⟩,
    ⟨0x09, none, (.x .fence)⟩,
    ⟨0x0a, none, (.x .pfetch)⟩,
    ⟨0x0b, none, (.x .cwb)⟩,
    ⟨0x0c, none, (.x .cinv)⟩,
    ⟨0x0d, none, (.x .stmap)⟩,
    ⟨0x0e, none, (.x .stunmap)⟩,
    ⟨0x0f, none, (.x .stsync)⟩,
    ⟨0x10, none, (.x .ptst)⟩ ]

/-- The opcodes of engine X. -/
def opsX : List OpEntry :=
  [ ⟨0x01, none, (.x xstrmForm)⟩,
    ⟨0x02, none, (.x .xmma)⟩,
    ⟨0x03, none, (.x .xmmac)⟩,
    ⟨0x04, none, (.x .ximma)⟩,
    ⟨0x05, none, (.x .xzero)⟩,
    ⟨0x06, none, (.x .xexp)⟩,
    ⟨0x07, none, (.x .xnorm)⟩,
    ⟨0x08, none, (.x .xgrd)⟩,
    ⟨0x09, none, (.x .xrd)⟩,
    ⟨0x0a, none, (.x .xwr)⟩,
    ⟨0x0b, none, (.x .xflush)⟩,
    ⟨0x0c, none, (.x .xrun)⟩,
    ⟨0x0d, none, (.x .xpoll)⟩,
    ⟨0x0e, none, (.x .xkill)⟩ ]

/-- The opcodes of engine C. -/
def opsC : List OpEntry :=
  [ ⟨0x01, none, (.x .cpy)⟩,
    ⟨0x02, none, (.x .cpyt)⟩,
    ⟨0x03, none, (.x .cpynd)⟩,
    ⟨0x04, none, (.x .cpyg)⟩,
    ⟨0x05, none, (.x .cpys)⟩,
    ⟨0x06, none, (.x .cpyw)⟩,
    ⟨0x08, none, (.x .rinit)⟩,
    ⟨0x09, none, (.x .rwait)⟩,
    ⟨0x0a, none, (.x .rrel)⟩,
    ⟨0x0b, none, (.x .rpost)⟩,
    ⟨0x0c, none, (.x .rtail)⟩,
    ⟨0x0d, none, (.x .cqry)⟩ ]

/-- The opcodes of engine Y. -/
def opsY : List OpEntry :=
  [ ⟨0x01, (some .bar), (.x .barX)⟩,
    ⟨0x02, (some .bara), (.x .baraX)⟩,
    ⟨0x03, (some .barw), (.x .barwX)⟩,
    ⟨0x04, (some .bard), (.x .bardX)⟩,
    ⟨0x05, none, (.x .tbinit)⟩,
    ⟨0x06, none, (.x .tbexp)⟩,
    ⟨0x07, none, (.x .tbarr)⟩,
    ⟨0x08, none, (.x .tbwait)⟩,
    ⟨0x09, (some .give), (.x .giveX)⟩,
    ⟨0x0a, (some .claim), (.x .claimX)⟩,
    ⟨0x0b, (some .qend), .none⟩,
    ⟨0x0c, (some .qseal), .none⟩,
    ⟨0x0d, none, (.x .twtime)⟩,
    ⟨0x0e, (some .yield), .none⟩,
    ⟨0x0f, none, (.x .rotcfg)⟩ ]

/-- The opcodes of engine N. -/
def opsN : List OpEntry :=
  [ ⟨0x01, none, (.x .psh)⟩,
    ⟨0x02, none, (.x .pop)⟩,
    ⟨0x03, none, (.x .pstat)⟩,
    ⟨0x08, none, (.x .lsnd)⟩,
    ⟨0x09, none, (.x .lrcv)⟩,
    ⟨0x0a, none, (.x .lradd)⟩,
    ⟨0x10, none, (.x .trins)⟩,
    ⟨0x11, none, (.x .trdrw)⟩,
    ⟨0x12, none, (.x .trupd)⟩,
    ⟨0x13, none, (.x .trtot)⟩,
    ⟨0x14, none, (.x .trwgt)⟩,
    ⟨0x15, none, (.x .trcfg)⟩ ]

/-- The opcodes of engine Z. -/
def opsZ : List OpEntry :=
  [ ⟨0x01, none, (.k .trap)⟩,
    ⟨0x02, (some .hret), .none⟩,
    ⟨0x03, none, (.x .sysrd)⟩,
    ⟨0x04, none, (.x .syswr)⟩,
    ⟨0x05, none, (.x .wake)⟩,
    ⟨0x06, none, (.x .gate)⟩,
    ⟨0x07, (some .halt), .none⟩,
    ⟨0x08, none, (.k .bkpt)⟩,
    ⟨0x09, none, (.x .jobarm)⟩,
    ⟨0x0a, (some .jobdone), .none⟩,
    ⟨0x0b, (some .jobyld), .none⟩,
    ⟨0x0c, none, (.x .susp)⟩,
    ⟨0x0d, none, (.x .fltrply)⟩ ]

/-- The opcodes of an engine, beside the three that every engine has (R82, R83). -/
def opsOf (e : BitVec 3) : List OpEntry :=
  match e.toNat with
  | 0 => opsS
  | 1 => opsV
  | 2 => opsM
  | 3 => opsX
  | 4 => opsC
  | 5 => opsY
  | 6 => opsN
  | _ => opsZ

/-- The entry of an opcode in an engine (R87). -/
def opEntry (e : BitVec 3) (op : BitVec 7) : Option OpEntry :=
  if op = 0x00#7 then some ⟨0x00, some (.nop e), .none⟩
  else if op = 0x7e#7 then some ⟨0x7e, some (.twait e), .none⟩
  else if op = 0x7f#7 then some ⟨0x7f, some (.tsig e), .none⟩
  else findOp (opsOf e) op.toNat

/-- The instruction of a word 0 and, where L is 1, its extension `x` (R68 to R70). -/
def decodeWords (w x : Word32) : Except DecodeError Instr :=
  match opEntry (wE w) (wOp w) with
  | none => .error .opcode
  | some e =>
    if wL w = 0#1 then
      match e.short with
      | some f => .ok (f (toSW w))
      | none => .error .form
    else
      match e.long with
      | .none => .error .form
      | .x f => .ok (f (toXW w x))
      | .k f => .ok (f (toKW w x))

/-- The size in bytes of the instruction that a word 0 begins (R69). -/
def wordSize (w : Word32) : Nat := if wL w = 0#1 then 4 else 8

/-- The word of four little-endian bytes (R10). -/
def wordOf (b0 b1 b2 b3 : Byte) : Word32 := b3 ++ b2 ++ b1 ++ b0

/-- Decode the instruction that bytes begin with, and give the rest of the bytes. -/
def decode : List Byte → Except DecodeError (Instr × List Byte)
  | b0 :: b1 :: b2 :: b3 :: bs =>
    let w := wordOf b0 b1 b2 b3
    if wL w = 0#1 then
      match decodeWords w 0#32 with
      | .ok i => .ok (i, bs)
      | .error e => .error e
    else
      match bs with
      | c0 :: c1 :: c2 :: c3 :: cs =>
        match decodeWords w (wordOf c0 c1 c2 c3) with
        | .ok i => .ok (i, cs)
        | .error e => .error e
      | _ => .error .truncated
  | _ => .error .truncated

/-- The four bytes of a word, in memory order (R10). -/
def wordBytes (w : Word32) : List Byte :=
  [w.extractLsb' 0 8, w.extractLsb' 8 8, w.extractLsb' 16 8, w.extractLsb' 24 8]

/-- The words of an instruction: word 0 and, in a long form, its extension. A machine event has none. -/
def encode (i : Instr) : List Word32 :=
  match i.row with
  | none => []
  | some r =>
    let f := i.flds
    let w0 (l : BitVec 1) :=
      packWord (BitVec.ofNat 3 r.eng) l (BitVec.ofNat 7 r.op) (BitVec.ofNat 7 f.d) (BitVec.ofNat 7 f.a)
        (BitVec.ofNat 7 f.b)
    let g : Guard := ⟨f.ge, f.gn, BitVec.ofNat 7 f.gp⟩
    match f.form with
    | .short => [w0 0#1]
    | .extX => [w0 1#1, packX g (BitVec.ofNat 4 f.mod) (BitVec.ofNat 7 f.c) (BitVec.ofNat 12 f.imm)]
    | .extK => [w0 1#1, packK g (BitVec.ofNat 23 f.imm)]

/-- The bytes of an instruction, as they stand in memory. -/
def encodeBytes (i : Instr) : List Byte := (encode i).flatMap wordBytes

/-- An instruction's size in bytes (R69, R76). -/
def Instr.size (i : Instr) : Nat := match i.flds.form with
  | .short => 4
  | _ => 8

/-- The instruction this decoder reads from a word numbered as the opcode table numbers it: bit 0 is the
least significant bit of word 0, and the extension's bits count on from bit 32. Bits at and above `nbits`
are zero. -/
def decodeTableWord (nbits w : Nat) : Option Instr :=
  let x := w % 2 ^ nbits
  match decode (wordBytes (BitVec.ofNat 32 x) ++ wordBytes (BitVec.ofNat 32 (x / 2 ^ 32))) with
  | .ok (i, _) => some i
  | .error _ => none

end Sys2Proof
end

