-- ==== Sys2Proof/Config.lean ====
section
/-!
DEFINITION. Sys2Proof/Config.lean: what an implementation of the device fixes, and the free values: values
that the spec leaves open, as constants without a body, so that nothing can be proved about them.
-/
namespace Sys2Proof.Config

/-- The free values, by the number of the read that asks for one. -/
opaque freeValue : Nat → Nat

/-- Addressable DRAM of the device in bytes: 31/32 of 256 GiB installed (R276). -/
def dramBytes : Nat := 248 * 2 ^ 30

/-- Offset of the register region in the physical address map (R368). -/
def regBase : Nat := 0xFFF0000000000

/-- 64-byte sectors that the image of a launch takes on a core, beyond the first (R312). -/
opaque imageSectors : Nat → Nat → Nat

/-- DEVID as the straps leave it: DEVICE in [1:0], the devices present in [7:4] (R375). -/
opaque devidStrap : Nat

/-- What the PCI Express straps select (R385): 0 one controller of 16 lanes, 1 two of 8, 2 and up four of 4; and whether
controller 0 is to be an endpoint. -/
opaque pciStrap : Nat
opaque pciEndStrap : Bool

/-- SPARES as fused (R340). -/
opaque sparesFused : Nat

/-- Two devices of the machine have a Krypin link between them (R233). -/
opaque linked : Nat → Nat → Bool

/-- Another device holds IEEE 1588 lock at a time (R377). -/
opaque peerLocked : Nat → Nat → Bool

/-- Another device holds TLOCK at a time (R377). -/
opaque peerAligned : Nat → Nat → Bool

/-- SHAKE256 with 256 bits of output (R390, R392, R400), an outside standard. -/
opaque shake256 : List (BitVec 8) → Nat

/-- The fused digest of a key slot, and whether the slot is revoked (R390). -/
opaque keyDigest : Nat → Nat
opaque keyRevoked : Nat → Bool

/-- The fused minimum security version of an image KIND as manufactured (R390). -/
opaque fusedSvn : Nat → Nat

/-- The XMSS verification of NIST SP 800-208: parameter set, public key, message, signature (R390). -/
opaque xmssVerify : Nat → List (BitVec 8) → List (BitVec 8) → List (BitVec 8) → Bool

/-- Byte of the identity key's signature: index, message, byte number (R391). -/
opaque signByte : Nat → List (BitVec 8) → Nat → BitVec 8

end Sys2Proof.Config
end

