-- ==== Sys2Proof/Machine/Flags.lean ====
section
/-!
DEFINITION. Sys2Proof/Machine/Flags.lean: number formats and exact arithmetic (R43 to R58): decoding,
rounding into a format, the tapered formats, block quantisation, minimum and maximum, the correctly
rounded functions, the fixed reduction tree and scan, and the SKEY order. The core keeps no
floating-point flags (R45); what a row's guard word records is computed in Rows of the matrix engine.
-/
namespace Sys2Proof.Machine

/-! ### Exact values -/

/-- A value that a floating or tapered code stands for (R44, R48): `fin m e` is m × 2^e with m ≠ 0. NaV is
`nan` too: to any consumer both are no value (R51). -/
inductive Fl where
  | nan
  | inf (neg : Bool)
  | zero (neg : Bool)
  | fin (m e : Int)
deriving DecidableEq, Repr

/-- The binary floating-point formats of R44. -/
inductive Fmt where
  | f32
  | f16
  | bf16
  | e4
  | e5
deriving DecidableEq, Repr

def Fmt.fbits : Fmt → Nat
  | .f32 => 23 | .f16 => 10 | .bf16 => 7 | .e4 => 3 | .e5 => 2
def Fmt.ebits : Fmt → Nat
  | .f32 => 8 | .f16 => 5 | .bf16 => 8 | .e4 => 4 | .e5 => 5
def Fmt.bias : Fmt → Nat
  | .f32 => 127 | .f16 => 15 | .bf16 => 127 | .e4 => 7 | .e5 => 15
def Fmt.width (F : Fmt) : Nat := 1 + F.ebits + F.fbits
/-- The code of the largest finite value (R44). -/
def Fmt.maxCode : Fmt → Nat
  | .f32 => 0x7F7FFFFF | .f16 => 0x7BFF | .bf16 => 0x7F7F | .e4 => 0x7E | .e5 => 0x7B
/-- The code of +∞; E4M3 has none, and an overflow gives its largest finite value (R46). -/
def Fmt.infCode : Fmt → Nat
  | .f32 => 0x7F800000 | .f16 => 0x7C00 | .bf16 => 0x7F80 | .e4 => 0x7E | .e5 => 0x7C
/-- The canonical NaN (R44, R45). -/
def Fmt.nanCode : Fmt → Nat
  | .f32 => 0x7FC00000 | .f16 => 0x7E00 | .bf16 => 0x7FC0 | .e4 => 0x7F | .e5 => 0x7E

/-- The sign bit of a format. -/
def Fmt.signBit (F : Fmt) : Nat := 2 ^ (F.width - 1)

/-- m × 2^e, zero included with a sign. -/
def mkFl (neg : Bool) (m : Nat) (e : Int) : Fl :=
  if m = 0 then .zero neg else .fin (if neg then -(m : Int) else (m : Int)) e

/-- The value of a code (R44). -/
def fdec (F : Fmt) (x : Nat) : Fl :=
  let c := x % 2 ^ F.width
  let neg := c.testBit (F.width - 1)
  let ex := nbits c (F.width - 2) F.fbits
  let fr := c % 2 ^ F.fbits
  let top := 2 ^ F.ebits - 1
  if F = .e4 then
    if ex = top ∧ fr = 7 then .nan
    else if ex = 0 then mkFl neg fr (1 - (F.bias : Int) - F.fbits)
    else mkFl neg (2 ^ F.fbits + fr) ((ex : Int) - F.bias - F.fbits)
  else if ex = top then (if fr = 0 then .inf neg else .nan)
  else if ex = 0 then mkFl neg fr (1 - (F.bias : Int) - F.fbits)
  else mkFl neg (2 ^ F.fbits + fr) ((ex : Int) - F.bias - F.fbits)

/-- rnd_int(m / 2^k) of R46: mode 0 .rne, 1 .rz, 2 .rup, 3 .rdn. -/
def rndShift (m : Int) (k mode : Nat) : Int :=
  let d : Int := ((2 ^ k : Nat) : Int)
  let n := m / d
  let r := m % d
  if r = 0 then n
  else match mode with
    | 0 => if 2 * r > d ∨ (2 * r = d ∧ n % 2 = 1) then n + 1 else n
    | 1 => if m < 0 then n + 1 else n
    | 2 => n + 1
    | _ => n

/-- rne(x) of R46 at x = m × 2^e. -/
def rneDy (m e : Int) : Int :=
  if 0 ≤ e then m * ((2 ^ e.toNat : Nat) : Int) else rndShift m (-e).toNat 0

/-- The sign bit where a value is negative. -/
def withSign (F : Fmt) (neg : Bool) (c : Nat) : Nat := if neg then F.signBit + c else c

/-- The table of overflow results (R46). -/
def foverflow (F : Fmt) (neg : Bool) (mode : Nat) : Nat :=
  if mode = 0 ∨ (mode = 2 ∧ !neg) ∨ (mode = 3 ∧ neg) then withSign F neg F.infCode
  else withSign F neg F.maxCode

/-- round_fmt(x, F, mode) of R46 at x = m × 2^e, m ≠ 0. -/
def fround (F : Fmt) (mode : Nat) (m e : Int) : Nat :=
  let neg : Bool := m < 0
  let L : Int := (bitlen m.natAbs : Int) - 1 + e
  let emin : Int := 1 - (F.bias : Int)
  let emax : Int := if F = .e4 then 8 else (F.bias : Int)
  if L > emax then foverflow F neg mode
  else
    -- a magnitude far below the grid rounds as any value strictly inside its lowest step does
    let low : Int := emin - F.fbits - 2
    let m' : Int := if L < low then (if neg then -1 else 1) else m
    let e' : Int := if L < low then low else e
    let E : Int := max (if L < low then low else L) emin
    let q : Int := E - F.fbits
    let n : Int :=
      if q ≤ e' then m' * ((2 ^ (e' - q).toNat : Nat) : Int) else rndShift m' (q - e').toNat mode
    let a := n.natAbs
    let c := if a < 2 ^ F.fbits then a else (E + F.bias).toNat * 2 ^ F.fbits + (a - 2 ^ F.fbits)
    if c > F.maxCode then foverflow F neg mode else withSign F neg c

/-- The code of a value already exact or special, rounding where needed (R46); a NaN is canonical (R45). -/
def fenc (F : Fmt) (mode : Nat) : Fl → Nat
  | .nan => F.nanCode
  | .inf neg => if F = .e4 then F.nanCode else withSign F neg F.infCode
  | .zero neg => withSign F neg 0
  | .fin m e => fround F mode m e

def Fl.isNan : Fl → Bool
  | .nan => true
  | _ => false
def Fl.isNanInf : Fl → Bool
  | .nan => true
  | .inf _ => true
  | _ => false
/-- The sign of a value other than NaN. -/
def Fl.neg? : Fl → Bool
  | .nan => false
  | .inf n => n
  | .zero n => n
  | .fin m _ => m < 0
def Fl.negate : Fl → Fl
  | .nan => .nan
  | .inf n => .inf !n
  | .zero n => .zero !n
  | .fin m e => .fin (-m) e

/-- The exact sum of two dyadic numbers. -/
def dyAdd (m1 e1 m2 e2 : Int) : Int × Int :=
  if e1 ≤ e2 then (m1 + m2 * ((2 ^ (e2 - e1).toNat : Nat) : Int), e1)
  else (m1 * ((2 ^ (e1 - e2).toNat : Nat) : Int) + m2, e2)

/-- m1 × 2^e1 < m2 × 2^e2. -/
def dyLt (m1 e1 m2 e2 : Int) : Bool := (dyAdd m1 e1 (-m2) e2).1 < 0

/-- x + y exactly, a zero signed by R47 under the mode. -/
def fladd (mode : Nat) (x y : Fl) : Fl :=
  match x, y with
  | .nan, _ => .nan
  | _, .nan => .nan
  | .inf a, .inf b => if a = b then .inf a else .nan
  | .inf a, _ => .inf a
  | _, .inf b => .inf b
  | .zero a, .zero b => if a = b then .zero a else .zero (mode = 3)
  | .zero _, y => y
  | x, .zero _ => x
  | .fin m1 e1, .fin m2 e2 =>
    let r := dyAdd m1 e1 m2 e2
    if r.1 = 0 then .zero (mode = 3) else .fin r.1 r.2

/-- x × y exactly (R47). -/
def flmul (x y : Fl) : Fl :=
  let s := x.neg? != y.neg?
  match x, y with
  | .nan, _ => .nan
  | _, .nan => .nan
  | .inf _, .zero _ => .nan
  | .zero _, .inf _ => .nan
  | .inf _, _ => .inf s
  | _, .inf _ => .inf s
  | .zero _, _ => .zero s
  | _, .zero _ => .zero s
  | .fin m1 e1, .fin m2 e2 => .fin (m1 * m2) (e1 + e2)

/-- a × 2^k (R126 FSCALE, R174). -/
def flscale (a : Fl) (k : Int) : Fl :=
  match a with
  | .fin m e => .fin m (e + k)
  | x => x

/-- num / den to enough bits that rounding it is rounding the exact quotient: the last bit says that the
quotient was cut. -/
def divSticky (num den : Nat) (k : Nat) : Nat :=
  let n := num * 2 ^ k
  2 * (n / den) + (if n % den = 0 then 0 else 1)

/-- a / b, exact up to rounding (R55). -/
def fldiv (x y : Fl) : Fl :=
  let s := x.neg? != y.neg?
  match x, y with
  | .nan, _ => .nan
  | _, .nan => .nan
  | .inf _, .inf _ => .nan
  | .zero _, .zero _ => .nan
  | .inf _, _ => .inf s
  | _, .inf _ => .zero s
  | .zero _, _ => .zero s
  | _, .zero _ => .inf s
  | .fin m1 e1, .fin m2 e2 =>
    let q : Int := divSticky m1.natAbs m2.natAbs 60
    .fin (if s then -q else q) (e1 - e2 - 61)

/-- The integer square root by `n` binary digits. -/
def isqrtAux (x : Nat) : Nat → Nat → Nat
  | 0, r => r
  | n + 1, r => isqrtAux x n (if (r + 2 ^ n) * (r + 2 ^ n) ≤ x then r + 2 ^ n else r)
/-- The integer square root. -/
def isqrt (x : Nat) : Nat := isqrtAux x (bitlen x / 2 + 1) 0

/-- √x, exact up to rounding (R55). -/
def flsqrt : Fl → Fl
  | .nan => .nan
  | .inf neg => if neg then .nan else .inf false
  | .zero neg => .zero neg
  | .fin m e =>
    if m < 0 then .nan
    else
      let odd : Nat := (e % 2).toNat
      let n := m.natAbs * 2 ^ odd * 2 ^ 120
      let r := isqrt n
      .fin ((2 * r + (if r * r = n then 0 else 1) : Nat) : Int) ((e - odd) / 2 - 61)

/-- 1/√x, exact up to rounding (R55). -/
def flrsq : Fl → Fl
  | .nan => .nan
  | .inf neg => if neg then .nan else .zero false
  | .zero neg => .inf neg
  | .fin m e =>
    if m < 0 then .nan
    else
      let odd : Nat := (e % 2).toNat
      let d := m.natAbs * 2 ^ odd
      let r := isqrt (2 ^ 240 / d)
      .fin ((2 * r + (if r * r * d = 2 ^ 240 then 0 else 1) : Nat) : Int) (-((e - odd) / 2) - 121)

/-! ### 2^x and log2 x (R55), by fixed-point bounds at 200 bits

Each series is summed with every term rounded down, so that it lies below its limit by at most one unit of
the last place for each term. -/

/-- Fixed-point one. -/
def fxOne : Nat := 2 ^ 200

/-- The sum of t^(2k+1) / (2k+1), from term `k` on for `n` terms: `p` is t^(2k+1). -/
def atanhSum (t2 : Nat) : Nat → Nat → Nat → Nat
  | 0, _, _ => 0
  | n + 1, k, p => p / (2 * k + 1) + atanhSum t2 n (k + 1) (p * t2 / fxOne)

/-- ln(a / b) for 1 ≤ a / b ≤ 2, from below. -/
def lnFx (a b : Nat) : Nat :=
  let t := (a - b) * fxOne / (a + b)
  2 * atanhSum (t * t / fxOne) 72 0 t

/-- ln 2 from below. -/
def ln2Fx : Nat := lnFx 2 1

/-- The sum of z^k / k! from term `k` on for `n` terms: `p` is z^k / k!. -/
def expSum (z : Nat) : Nat → Nat → Nat → Nat
  | 0, _, _ => 0
  | n + 1, k, p => p + expSum z n (k + 1) (p * z / fxOne / (k + 1))

/-- The units of the last place by which the fixed-point results can lie below the exact value. -/
def fxSlack : Nat := 2 ^ 20

/-- Round a value that lies in [lo, lo + fxSlack) × 2^e (times −1 where `neg`) to nearest. Where the two ends
round apart, 200 bits do not decide, and the result is a free value. -/
def froundBetween (F : Fmt) (neg : Bool) (lo : Nat) (e : Int) (key : Nat) : Nat :=
  let sgn (n : Nat) : Int := if neg then -(n : Int) else n
  let a := fround F 0 (sgn lo) e
  let b := fround F 0 (sgn (lo + fxSlack)) e
  if a = b then a else Config.freeValue key % 2 ^ F.width

/-- 2^x rounded .rne into F (R55). -/
def fex2 (F : Fmt) (x : Fl) : Nat :=
  match x with
  | .nan => F.nanCode
  | .inf neg => if neg then 0 else withSign F false F.infCode
  | .zero _ => fround F 0 1 0
  | .fin m e =>
    let L : Int := (bitlen m.natAbs : Int) - 1 + e
    if L < -26 then fround F 0 1 0
    else if L > 20 then (if m < 0 then 0 else foverflow F false 0)
    else
      -- x = n + f / 2^s with 0 ≤ f < 2^s
      let s : Nat := (-e).toNat
      let num : Int := m * ((2 ^ e.toNat : Nat) : Int)
      let n : Int := num / ((2 ^ s : Nat) : Int)
      let f : Nat := (num % ((2 ^ s : Nat) : Int)).toNat
      if f = 0 then fround F 0 1 n
      else
        let z := f * ln2Fx / 2 ^ s
        froundBetween F false (expSum z 72 0 fxOne) (n - 200) (m.natAbs * 2 ^ 12 + s)

/-- log2 of m × 2^e, m > 0, rounded .rne into F (R55). -/
def flg2Pos (F : Fmt) (m : Nat) (e : Int) : Nat :=
  let L := bitlen m - 1
  let E : Int := (L : Int) + e
  if m = 2 ^ L then (if E = 0 then 0 else fround F 0 E 0)
  else
    -- log2 (m / 2^L) in (0, 1), between fixed-point bounds
    let ln := lnFx m (2 ^ L)
    let lg := ln * fxOne / (ln2Fx + 2 ^ 10)
    if 0 ≤ E then froundBetween F false (E.toNat * fxOne + lg) (-200) (m * 2 ^ 12 + L)
    else froundBetween F true ((-E).toNat * fxOne - lg - fxSlack) (-200) (m * 2 ^ 12 + L)

/-- log2 x rounded .rne into F (R55). -/
def flg2 (F : Fmt) (x : Fl) : Nat :=
  match x with
  | .nan => F.nanCode
  | .inf neg => if neg then F.nanCode else withSign F false F.infCode
  | .zero _ => withSign F true F.infCode
  | .fin m e => if m < 0 then F.nanCode else flg2Pos F m.natAbs e

/-! ### Comparing, minimum and maximum (R54, R124) -/

/-- a < b of two values that are no NaN, with −0 = +0. -/
def fllt (x y : Fl) : Bool :=
  match x, y with
  | .nan, _ => false
  | _, .nan => false
  | .inf a, .inf b => a && !b
  | .inf a, _ => a
  | _, .inf b => !b
  | .zero _, .zero _ => false
  | .zero _, .fin m _ => 0 < m
  | .fin m _, .zero _ => m < 0
  | .fin m1 e1, .fin m2 e2 => dyLt m1 e1 m2 e2

/-- a = b of two values that are no NaN, with −0 = +0. -/
def fleq (x y : Fl) : Bool := !x.isNan && !y.isNan && !fllt x y && !fllt y x

/-- fmin(a, b) of R54, on codes. -/
def fminCode (F : Fmt) (a b : Nat) : Nat :=
  let x := fdec F a
  let y := fdec F b
  if x.isNan && y.isNan then F.nanCode
  else if x.isNan then b
  else if y.isNan then a
  else if fllt x y || (fleq x y && x = .zero true) then a
  else b

/-- fmax(a, b) of R54, on codes. -/
def fmaxCode (F : Fmt) (a b : Nat) : Nat :=
  let x := fdec F a
  let y := fdec F b
  if x.isNan && y.isNan then F.nanCode
  else if x.isNan then b
  else if y.isNan then a
  else if fllt y x || (fleq x y && x = .zero false) then a
  else b

/-- The bit of FCLASS (R127). -/
def fclass (F : Fmt) (c : Nat) : Nat :=
  let ex := nbits c (F.width - 2) F.fbits
  match fdec F c with
  | .nan => 2 ^ 8
  | .inf neg => if neg then 2 ^ 0 else 2 ^ 7
  | .zero neg => if neg then 2 ^ 3 else 2 ^ 4
  | .fin m _ => if m < 0 then (if ex = 0 then 2 ^ 2 else 2 ^ 1) else (if ex = 0 then 2 ^ 5 else 2 ^ 6)

/-! ### Tapered formats (R48 to R50) -/

/-- The number of consecutive bits equal to `b` from bit `i` downward. -/
def runLen (c : Nat) (b : Bool) : Nat → Nat
  | 0 => if c.testBit 0 = b then 1 else 0
  | i + 1 => if c.testBit (i + 1) = b then 1 + runLen c b i else 0

/-- decode_tap of a magnitude code (R48): the mantissa and exponent of v. -/
def tapMag (c n es : Nat) : Nat × Int :=
  let b := c.testBit (n - 2)
  let m := runLen c b (n - 2)
  let k : Int := if b then (m : Int) - 1 else -(m : Int)
  -- bits below the run and its terminating bit
  let w := n - 2 - m
  let rest := c % 2 ^ w
  let e : Nat := if es = 0 then 0 else if w = 0 then 0 else rest / 2 ^ (w - 1)
  let w' := if es = 0 then w else w - 1
  let f := rest % 2 ^ w'
  (2 ^ w' + f, k * 2 ^ es + e - w')

/-- decode_tap of R48. -/
def tapDec (x n es : Nat) : Fl :=
  let c := x % 2 ^ n
  if c = 0 then .zero false
  else if c = 2 ^ (n - 1) then .nan
  else if c.testBit (n - 1) then let r := tapMag (2 ^ n - c) n es; .fin (-(r.1 : Int)) r.2
  else let r := tapMag c n es; .fin r.1 r.2

/-- The largest code not above a positive value m × 2^e, among codes up to `c`. -/
def tapFloor (m e : Int) (n es : Nat) : Nat → Nat
  | 0 => 0
  | c + 1 =>
    let r := tapMag (c + 1) n es
    if dyLt m e r.1 r.2 then tapFloor m e n es c else c + 1

/-- The code of a positive value (R49 steps 3 to 5). -/
def tapEncMag (m e : Int) (n es : Nat) : Nat :=
  let top := 2 ^ (n - 1) - 1
  let c := tapFloor m e n es top
  if c = 0 then 1
  else if c = top then top
  else
    let lo := tapMag c n es
    let hi := tapMag (c + 1) n es
    let d1 := dyAdd m e (-(lo.1 : Int)) lo.2
    let d2 := dyAdd hi.1 hi.2 (-m) e
    if dyLt d1.1 d1.2 d2.1 d2.2 then c
    else if dyLt d2.1 d2.2 d1.1 d1.2 then c + 1
    else if c % 2 = 0 then c else c + 1

/-- encode_tap of R49. A magnitude far out of range is first brought near the range, where it rounds the
same way. -/
def tapEnc (x : Fl) (n es : Nat) : Nat :=
  match x with
  | .nan => 2 ^ (n - 1)
  | .inf _ => 2 ^ (n - 1)
  | .zero _ => 0
  | .fin m e =>
    let L : Int := (bitlen m.natAbs : Int) - 1 + e
    let c := if L > 20 then 2 ^ (n - 1) - 1 else if L < -20 then 1 else tapEncMag m.natAbs e n es
    if m < 0 then 2 ^ n - c else c

/-! ### The type codes of R128 -/

/-- Bits of an integer type code. -/
def intWidth (t : Nat) : Nat := if t < 2 then 32 else if t < 4 then 16 else if t < 6 then 8 else 64

/-- An integer type code (R74, R128) is signed. -/
def tySigned (t : Nat) : Bool := t % 2 = 0

/-- Bits read as an integer type (R115). -/
def tyInt (t x : Nat) : Int := if tySigned t then sx (intWidth t) x else zx (intWidth t) x

/-- The value of an operand of a type code read from `x` (R115, R128); integers are exact. -/
def typeDec (t x : Nat) : Fl :=
  match t with
  | 8 => fdec .f32 x
  | 9 => fdec .f16 x
  | 10 => fdec .bf16 x
  | 11 => fdec .e4 x
  | 12 => fdec .e5 x
  | 13 => tapDec x 8 1
  | 14 => tapDec x 6 0
  | _ =>
    let v : Int := if t % 2 = 0 then sx (intWidth t) x else zx (intWidth t) x
    if v = 0 then .zero false else .fin v 0

/-- A value into an integer type (R53): rounded in the mode, then saturated. -/
def toInt (t mode : Nat) (x : Fl) : Int :=
  let w := intWidth t
  let big : Int := if t % 2 = 0 then ((2 ^ (w - 1) : Nat) : Int) - 1 else ((2 ^ w : Nat) : Int) - 1
  let small : Int := if t % 2 = 0 then -((2 ^ (w - 1) : Nat) : Int) else 0
  match x with
  | .nan => 0
  | .inf neg => if neg then small else big
  | .zero _ => 0
  | .fin m e =>
    let L : Int := (bitlen m.natAbs : Int) - 1 + e
    if L > 70 then (if m < 0 then small else big)
    else
      let y : Int :=
        if 0 ≤ e then m * ((2 ^ e.toNat : Nat) : Int)
        else if L < -2 then rndShift (if m < 0 then -1 else 1) 3 mode
        else rndShift m (-e).toNat mode
      max small (min big y)

/-- A value converted once into a type code (R53): the code, unextended. -/
def typeEnc (t mode : Nat) (x : Fl) : Nat :=
  match t with
  | 8 => fenc .f32 mode x
  | 9 => fenc .f16 mode x
  | 10 => fenc .bf16 mode x
  | 11 => fenc .e4 mode x
  | 12 => fenc .e5 mode x
  | 13 => tapEnc x 8 1
  | 14 => tapEnc x 6 0
  | _ => cut (intWidth t) (toInt t mode x)

/-! ### Block quantisation (R51, R52) -/

/-- The element formats of R52: 0 .t8, 1 .t6, 2 .e4, 3 .e5, 4 .i8. -/
def elemMax (f : Nat) : Nat :=
  match f with
  | 0 => 4096 | 1 => 16 | 2 => 448 | 3 => 57344 | _ => 127
def elemNan (f : Nat) : Nat :=
  match f with
  | 0 => 0x80 | 1 => 0x20 | 2 => 0x7F | 3 => 0x7E | _ => 0
/-- encode(F, y) of R52. -/
def elemEnc (f : Nat) (y : Fl) : Nat :=
  match f with
  | 0 => tapEnc y 8 1
  | 1 => tapEnc y 6 0
  | 2 => fenc .e4 0 y
  | 3 => fenc .e5 0 y
  | _ => cut 8 (toInt 4 0 y)
/-- The value of an element code (R51). -/
def elemDec (f c : Nat) : Fl :=
  match f with
  | 0 => tapDec c 8 1
  | 1 => tapDec c 6 0
  | 2 => fdec .e4 c
  | 3 => fdec .e5 c
  | _ => typeDec 4 c

/-- ceil(log2((m × 2^e) / M)) for m, M > 0. -/
def ceilLog2 (m : Nat) (e : Int) (M : Nat) : Int :=
  let d : Int := (bitlen m : Int) + e - (bitlen M : Int)
  -- m × 2^e ≤ M × 2^k holds first at one of three neighbouring k
  if !(dyLt M (d - 1) m e) then d - 1
  else if !(dyLt M d m e) then d
  else d + 1

/-- The larger of two magnitudes. -/
def magMax (a b : Nat × Int) : Nat × Int := if dyLt a.1 a.2 b.1 b.2 then b else a

/-- quant_block of R52: the scale byte and the codes. -/
def quantBlock (f : Nat) (xs : List Fl) : Nat × List Nat :=
  if f = 4 ∧ xs.any Fl.isNanInf then (0x80, xs.map fun _ => 0)
  else
    let mags := xs.filterMap fun x => match x with
      | .fin m e => some (m.natAbs, e)
      | _ => none
    let S : Int := match mags with
      | [] => 0
      | a :: as => let m := as.foldl magMax a; min 127 (max (-127) (ceilLog2 m.1 m.2 (elemMax f)))
    (cut 8 S, xs.map fun x => match x with
      | .fin m e =>
        if dyLt (elemMax f) 0 m.natAbs (e - S) then elemEnc f (.fin (if m < 0 then -(elemMax f : Int) else elemMax f) 0)
        else elemEnc f (.fin m (e - S))
      | .zero n => elemEnc f (.zero n)
      | _ => elemNan f)

/-! ### Reduction, scan and SKEY (R56 to R58) -/

/-- One level of the tree: neighbours combined. -/
def treeLevel (op : Nat → Nat → Nat) : List Nat → List Nat
  | a :: b :: xs => op a b :: treeLevel op xs
  | xs => xs

/-- gtree of R56 by levels. -/
def gtree (op : Nat → Nat → Nat) : Nat → List Nat → Nat
  | 0, xs => xs.headD 0
  | n + 1, xs => gtree op n (treeLevel op xs)

/-- gscan of R57 by levels: `d` is the distance of a level. -/
def gscan (op : Nat → Nat → Nat) : Nat → Nat → List Nat → List Nat
  | 0, _, xs => xs
  | n + 1, d, xs =>
    gscan op n (2 * d) (xs.zipIdx.map fun (x, i) => if d ≤ i then op (xs.getD (i - d) 0) x else x)

/-- log2 of WIDTH. -/
def widthLog (w : Nat) : Nat := Nat.log2 w

/-- skey(x, j, T) of R58: T is 0 .f32, 1 .i32, 2 .n32. -/
def skey (t x j : Nat) : Nat :=
  let hi :=
    if t = 0 then
      if (fdec .f32 x).isNan then 0
      else if x.testBit 31 then notBits 32 x
      else x % 2 ^ 32 ||| 0x80000000
    else if t = 1 then x % 2 ^ 32 ^^^ 0x80000000
    else x % 2 ^ 32
  hi * 2 ^ 32 + (0xFFFFFFFF - j % 2 ^ 32)

end Sys2Proof.Machine
end

