-- ==== Sys2Proof/Machine/State.lean ====
section
/-!
DEFINITION. Sys2Proof/Machine/State.lean: everything the spec gives the machine, as plain data, and the
state after reset. Numbers that name things (a group, a team, a launch, a core, an address) are plain
numbers; register contents are bit vectors.

Keys. A launch is named by `card * 2 + copy` (copy 1 is the second copy of redundant execution, R341), a
team by `(card * 2^24 + team) * 2 + copy`, a group by `((card * 2^24 + team) * 64 + group) * 2 + copy`;
within one copy, ascending keys are group order (R16).
-/
namespace Sys2Proof.Machine

/-- Why the machine stops with a fault. -/
inductive Fault where
  /-- `exec` was asked to run an instruction word while no group is issuing one. Raised by the shared
  wrapper of the instruction words; no step of the machine reaches it. Safe: it only stops. -/
  | noWord
deriving DecidableEq, Repr

/-- Why an instruction has no meaning. -/
inductive Refusal where
  /-- The instruction is not modelled. Safe: it only stops. -/
  | notModelled (mnemonic : String)
deriving DecidableEq, Repr

/-! ### Groups (R21 to R28, R40, R76, R84) -/

/-- A program-counter slot (R21); `stopped` says that fetch waits for a word to resolve (R77). -/
structure Slot where
  addr : Word64 := 0
  mask : Word64 := 0
  valid : Bool := false
  stopped : Bool := false
deriving DecidableEq, Repr

/-- A rotation state (R28): ROTSIZE, ROTLIVE and ROTPOS. -/
structure Rot where
  n : Nat := 0
  l : Nat := 0
  p : Nat := 0
deriving DecidableEq, Repr

/-- The slots as they stood just before a word was placed: what a rollback to that word restores (R332).
`turn` is the slot the splitter takes words from (R78), and `rot` the rotation state in program order (R29). -/
structure Snap where
  s0 : Slot := {}
  s1 : Slot := {}
  turn : Nat := 0
  rot : Rot := {}
deriving DecidableEq, Repr

/-- A word that has its sequence number (R76, R85). `rot` is the rotation state in force at its place in program order
(R29), and a slot number from 2 on names a path that a MARK has spilled from that slot less 2 (R109). While it waits
at the head of its queue, `cause` is its wait cause (R18), `stage` and `aux` say how far a word that acts in parts has
gone, `done` holds the lanes already performed, `pois` and `fail` the lanes answered POISON and FAIL (R164, R247), and
`recs` the tags of its outstanding fault records (R292). -/
structure QWord where
  instr : Instr
  seq : Nat := 0
  slot : Nat := 0
  pc : Word64 := 0
  mask : Word64 := 0
  cause : Nat := 0
  stage : Nat := 0
  aux : Nat := 0
  done : Word64 := 0
  pois : Word64 := 0
  fail : Word64 := 0
  recs : List Nat := []
  rot : Rot := {}
deriving DecidableEq, Repr

/-- A sector that a load still has to receive, and the lanes it serves (R31). -/
structure Piece where
  addr : Nat
  lanes : Word64
  /-- it is a streaming access, which no L1 keeps (R143) -/
  low : Bool := false
  /-- its place among the reads that a regulator has deferred (R279) -/
  ticket : Option Nat := none
deriving DecidableEq, Repr

/-- What a started, incomplete word still does. -/
inductive FlightKind where
  /-- a load: the word, its destination register, type code of MT, uniform destination, virtual and physical
  byte address of each lane, and the sectors still to come -/
  | load (w : QWord) (d ty : Nat) (unif : Bool) (addrs : NMap (Nat × Nat)) (pieces : List Piece)
  /-- a word held in the hold-back buffer whose result follows its seal or commit (R32), as it stood when it started -/
  | held (w : QWord)
  /-- in deterministic mode, a read of QNUM or of a team register whose quantum is not known yet (R36, R105) -/
  | late (w : QWord)
deriving DecidableEq, Repr

/-- A word that has started and not completed (R79, R84). `dests` are the registers still to be written
(R30, R31) and `mask` its lanes; `ok` says that it counts as completed for the completion of its quantum
(R32). -/
structure Flight where
  seq : Nat
  eng : Nat
  slot : Nat
  mask : Word64
  dests : List Reg
  ok : Bool
  kind : FlightKind
deriving DecidableEq, Repr

/-- A trap of a group, raised or delivered (R84, R242, R325). -/
structure TrapRec where
  cls : Nat := 0
  cause : Nat := 0
  queue : Nat := 0
  slot : Nat := 0
  pmode : Bool := false
  seq : Nat := 0
  addr : Word64 := 0
  /-- partial-completion mask (R164) -/
  mask : Word64 := 0
  /-- lane mask of the slot that issued the trapping word -/
  smask : Word64 := 0
  /-- the word itself completes at the delivery (R240) -/
  fin : Bool := false
deriving DecidableEq, Repr

/-- The trap record that the core holds while a handler runs (R322, R323). -/
structure Handler where
  trap : TrapRec
  nextSeq : Nat
  s0 : Slot
  s1 : Slot
  turn : Nat
  saved : List QWord
deriving DecidableEq, Repr

/-- A closed quantum (R32 to R34): number, first sequence number, first number past it, the slots at its
opening, and the time at which it was seen complete. -/
structure Quantum where
  num : Nat
  lo : Nat
  hi : Nat
  snap : Snap
  doneAt : Option Nat := none
  /-- number of the pair's quantum that it closed with -/
  pq : Nat := 0
deriving DecidableEq, Repr

/-- What comes before a word (R256 to R258): the held entries of each group of the pair that are numbered below a mark,
and single entries whose bytes have been read (R253). -/
structure Marks where
  below : NMap Nat := []
  one : List Nat := []
deriving DecidableEq, Repr

/-- A group (R24, R40). Lane registers are keyed `n * 64 + lane` by physical number (R28). -/
structure Group where
  s0 : Slot := {}
  s1 : Slot := {}
  /-- the slot the splitter takes words from in deterministic mode (R78) -/
  turn : Nat := 0
  depth : Nat := 0
  v : NMap Word32 := []
  p : NMap Word64 := []
  u : NMap Word64 := []
  f : NMap (BitVec 128) := []
  k : NMap Nat := []
  blocks : Nat := 1
  rotN : Nat := 0
  rotL : Nat := 0
  rotP : Nat := 0
  /-- rotation state in program order at the splitter, and at the place of the word that runs now (R29, R76) -/
  plan : Rot := {}
  map : Rot := {}
  supv : Bool := false
  nextSeq : Nat := 0
  queues : NMap (List QWord) := []
  /-- saved words that the splitter still has to fetch again, in ascending order (R86) -/
  refetch : List QWord := []
  flights : List Flight := []
  /-- quantum number, opening boundary and opening slots of the open quantum (R32, R35) -/
  qnum : Nat := 0
  qlo : Nat := 0
  qsnap : Snap := {}
  /-- in deterministic mode, the boundaries past the opening one that words have fixed (R33) -/
  marks : List Nat := []
  /-- the slots just before each word placed since the opening boundary -/
  snaps : NMap Snap := []
  /-- words retired in the pair's open quantum (R33) -/
  qret : Nat := 0
  closed : List Quantum := []
  /-- sealed quanta of deterministic mode whose epochs have not committed (R36, R333) -/
  sealedQ : List Quantum := []
  /-- a raised trap that waits for the started words to complete (R84) -/
  raised : Option TrapRec := none
  handler : Option Handler := none
  tstat : Word64 := 0
  tseq : Word64 := 0
  taddr : Word64 := 0
  trec : Word64 := 0
  waitCause : Nat := 0
  /-- the reply to a slot's instruction-fetch record: 1 POISON, 2 FAIL (R293); slot 2 stands for the words that
  are fetched again, and 4 is added where the extension's record was answered -/
  fetchAns : NMap Nat := []
  /-- the group has no further words (R23) -/
  retired : Bool := false
  /-- the context is saved or held for restore (R18) -/
  parked : Bool := false
  /-- YIELD made it the last candidate of one selection (R221) -/
  yielded : Bool := false
  /-- the held entries that happen before this group's next word, and before its last release (R257, R258) -/
  seen : Marks := {}
  rel : Marks := {}
  /-- its words of quanta not yet committed whose link message or port entry has left this pair: a rollback to the last
  commit does not send them again (R309, R430) -/
  gone : List Nat := []
  /-- in deterministic mode, the boundary it last rolled back to and how often in a row (R335) -/
  rollLo : Nat := 0
  rollCnt : Nat := 0
  /-- when a word of it last left the splitter or a queue (R394) -/
  issuedAt : Nat := 0
  /-- its ready time for its scheduler: the core cycle in which it last became ready or last issued, none while it is not
  ready (R314); and the time at which it last became ready (R394) -/
  readyAt : Option Nat := none
  readyNs : Nat := 0
deriving DecidableEq, Repr

/-- The word that is being executed now: its group, whether it stands at the head of its queue (or has only
just been fetched), and itself. -/
structure Cur where
  g : Nat
  retry : Bool
  w : QWord
deriving DecidableEq, Repr

/-! ### Accumulator rows and journal items (R35, R59) -/

/-- An accumulator row (R59, R60): 64 mantissa words, exponent word, guard word, and poison (R190). -/
structure AccRow where
  m : NMap Word64 := []
  e : Word32 := 0
  gw : Word32 := 0
  pois : Bool := false
deriving DecidableEq, Repr

/-- A piece of state that the rollback journal restores (R35, R332). Local memory is journaled in 16-byte
chunks, `loc team half chunk`; `half` is 1 for the partner half of a paired team on the odd core. -/
inductive Item where
  | v (g n l : Nat)
  | p (g n : Nat)
  | u (g n : Nat)
  | t (tk n : Nat)
  | f (g n : Nat)
  | k (g n : Nat)
  | depth (g : Nat)
  | rot (g : Nat)
  | blocks (g : Nat)
  | pool (tk half : Nat)
  | bar (tk n : Nat)
  | loc (tk half ch : Nat)
  | locPois (tk half gran : Nat)
  | row (core n : Nat)
deriving DecidableEq, Repr

/-- The value of a journal item. -/
inductive Val where
  | num (x : Nat)
  | row (r : AccRow)
deriving DecidableEq, Repr

/-- A product of two exact values, negated where `neg` (R65). -/
structure Prod where
  a : Fl
  b : Fl
  neg : Bool
deriving DecidableEq, Repr

/-- What a word does to an accumulator row (R61 to R64, R177, R181 to R185, R190). `prods` and `prodsInt` add, to each of
the 64 elements, its list of products in K order; `elems` writes elements of a view and type. -/
inductive RowEff where
  | prods (ps : List (List Prod))
  | prodsInt (sat : Bool) (ps : List (List Int))
  | zero (e : Int)
  | expo (e : Word32)
  | norm (sh : Int)
  | fit (t : Nat)
  | unflag
  | wipe
  | clean
  | elems (view t : Nat) (xs : List (Nat × Nat))
deriving DecidableEq, Repr

/-- What a write does to an item, so that a rollback of other writes can apply it again (R35): a value, some bits of
it, some bytes of a chunk, an integer addition, a local atomic, an arrival at or drop from a named barrier, an update
of a transaction-barrier object, an addition to a 32-bit count in a chunk, the clearing of a register by VROT, which
R35 does not charge, or the effect of a word on an accumulator row. -/
inductive Eff where
  | set (x : Val)
  | bits (mask x : Nat)
  | row (e : RowEff)
  | part (off : Nat) (bytes : List Byte)
  | atom (off op ty b c : Nat)
  | add (x : Int)
  | barArrive
  | barDrop
  | tb (op : Nat) (x : Int)
  | addAt (off n : Nat)
  | clear
deriving DecidableEq, Repr

/-- A journal entry: the word that wrote, the item, the value before, and the write. `keep` marks a write of
an engine whose quantum is already sealed, which no rollback undoes. -/
structure Undo where
  g : Nat
  seq : Nat
  keep : Bool
  item : Item
  old : Val
  eff : Eff
deriving DecidableEq, Repr

/-! ### Teams and launches (R14 to R17, R24, R26, R210, R297) -/

/-- A granule that a stash window has filled (R160): the physical sector it came from, and its bytes that are filled. -/
structure Filled where
  sec : Nat
  bytes : Word64
deriving DecidableEq, Repr

/-- A team. `core` is its core, the even one of a paired team; `loc0` and `loc1` are its local memory on that
core and on the partner core, and `pois0`, `pois1` their poisoned 64-byte granules. `fill0`, `fill1` give the
granules that a stash window has filled (R160). -/
structure Team where
  core : Nat := 0
  /-- its place in placement order (R314) -/
  order : Nat := 0
  t : NMap Word64 := []
  bars : NMap Word32 := []
  pool0 : Nat := 0
  pool1 : Nat := 0
  loc0 : List Host.Cell := []
  loc1 : List Host.Cell := []
  pois0 : NMap Bool := []
  pois1 : NMap Bool := []
  fill0 : NMap Filled := []
  fill1 : NMap Filled := []
deriving DecidableEq, Repr

/-- A launch's windows on one core (R168): first accumulator row and rows, first weight byte and bytes. -/
structure Win where
  acc : Nat := 0
  accN : Nat := 0
  wb : Nat := 0
  wbN : Nat := 0
deriving DecidableEq, Repr

/-- A context (R40): a launch's part on one core, or on one pair for a paired team. `preempt` says that the
dispatcher has decided to pre-empt it, and `atQ` is its pair's open quantum at the decision (R221, R308).
`capture` is 0 where the context runs, 1 once its groups have stopped and its image is to be written, 2 once the
image is written, 3 once the context is saved, and 4 while it is being restored. -/
structure Part where
  preempt : Bool := false
  atQ : Nat := 0
  /-- when the dispatcher decided so -/
  askedAt : Nat := 0
  capture : Nat := 0
deriving DecidableEq, Repr

/-- The account of a card's requests: its PARTID (R279) and the card itself, for its bandwidth budget (R316). A PARTID
alone is the account of requests of no card. -/
def acct (pid card : Nat) : Nat := pid + 65 * (card + 1)
def acctPid (a : Nat) : Nat := a % 65
def acctCard (a : Nat) : Option Nat := if a / 65 = 0 then none else some (a / 65 - 1)

/-- A resident instance of a lane launch: what the dispatcher read at arming and placement (R296, R297). -/
structure Launch where
  card : Nat := 0
  copy : Nat := 0
  inst : Nat := 0
  desc : BitVec 1024 := 0
  weave : BitVec 512 := 0
  release : Nat := 0
  deadline : Nat := 0
  relDeadline : Nat := 0
  partid : Nat := 0
  ctx : Nat := 0
  supv : Bool := false
  /-- the error policy in force is continue (R165, R295) -/
  cont : Bool := false
  tvec : Word64 := 0
  preads : Nat := 0
  /-- windows by core -/
  wins : NMap Win := []
  /-- teams placed so far (R307) -/
  placed : Nat := 0
  /-- wave in progress and next epoch to commit (R36) -/
  wave : Nat := 0
  epoch : Nat := 0
  /-- the commit of the wave's next epoch has begun (R36, R309) -/
  committing : Bool := false
  /-- how often the copies differed in the wave's next epoch, and whether they have been found equal (R341) -/
  mism : Nat := 0
  agreed : Bool := false
  /-- accepted operator cards by the core number that CORE reads there: how many so far (R187) -/
  handles : NMap Nat := []
  /-- its contexts, by core: the even core of a paired team's pair; a saved one by the core it was saved on -/
  parts : NMap Part := []
  /-- an instance-ending trap has reached the dispatcher (R327) -/
  killed : Bool := false
  /-- the first trap delivered to the host, with its group (R327) -/
  hostTrap : Option (Nat × TrapRec) := none
  /-- a link word has run, and the routes are fixed (R233, R376): device and the link that leaves for it -/
  routed : Bool := false
  routes : NMap Nat := []
  /-- a link word waits for the driver's routes (R233) -/
  routeAsk : Bool := false
deriving DecidableEq, Repr

/-- The account that a launch's requests are charged to. -/
def Launch.acct (l : Launch) : Nat := Sys2Proof.Machine.acct l.partid l.card

/-! ### The hold-back buffer (R269) -/

/-- One lane of a global atomic: lane, virtual and physical address, operands b and c (R151). -/
structure AtomLane where
  lane : Nat
  va : Nat
  pa : Nat
  b : Nat
  c : Nat
deriving DecidableEq, Repr

/-- A sum-tree command (R234), with its lanes' operands read at issue. -/
inductive TreeCmd where
  | ins (d : Option Nat) (lanes : List (Nat × Nat × Nat × Nat))
  | drw (d : Nat) (q : Nat) (lanes : List Nat)
  | upd (pd : Nat) (lanes : List (Nat × Nat × Nat × Nat))
  | tot (d mode : Nat)
  | wgt (d : Nat) (abs : Bool) (lanes : List (Nat × Nat))
  | cfg (field x : Nat)
deriving DecidableEq, Repr

/-- A system word held until its seal (R242 to R247). -/
inductive SysCmd where
  | sysWr (reg x : Nat)
  | wake (x : Nat)
  | gate (d : Nat) (x : Nat)
  | jobArm (target time : Nat)
  | jobDone
  | susp (addr : Nat)
  | fltRply (tag reply : Nat)
deriving DecidableEq, Repr

/-- What an entry of the hold-back buffer holds. -/
inductive Held where
  /-- a sector's bytes, by offset; `rel` 1 keeps it behind every earlier entry of its group (R148), and 2
  behind the group's earlier copies too (R207) -/
  | data (va pa : Nat) (bytes : NMap Byte) (rel : Nat) (dev : Bool)
  /-- the lanes of a global atomic that address one sector: operation, type, destination register or none -/
  | atom (op ty : Nat) (d : Option Nat) (lanes : List AtomLane) (acq rel : Bool)
  /-- a device-type load: destination, type code, uniform destination, lane and address -/
  | devLoad (d ty : Nat) (unif : Bool) (lane va pa : Nat) (acq rel : Bool)
  /-- a device-type atomic of one lane -/
  | devAtom (op ty : Nat) (d : Option Nat) (lane : AtomLane) (acq rel : Bool)
  /-- the fill of a stash window's granule from device-type memory: team, half, granule -/
  | devFill (tk half gran va pa : Nat)
  /-- a cluster transaction-barrier update (R214): operation 1 TBINIT, 2 TBEXP, 3 TBARR -/
  | tb (op va pa cnt : Nat) (x : Int)
  | cwb (va pa : Nat)
  | cinv (va pa : Nat)
  | tree (n : Nat) (c : TreeCmd)
  | sys (c : SysCmd)
  /-- a write of a context image (R308), its last one marked -/
  | image (pa : Nat) (bytes : List Byte) (last : Bool)
  /-- a run of outputs that a walker has staged (R353): launch, name and step of its card, and how many bits of
  the last byte belong to it, 0 for all -/
  | output (lk key step : Nat) (va pa : Nat) (bytes : List Byte) (tail : Nat)
deriving DecidableEq, Repr

/-- An entry of a pair's hold-back buffers, in entry order: the group (or none), its word, the core that holds it, the
partition, and whether its quantum is sealed. Outputs of a walker and writes of a context image belong to a quantum of
the pair, whose number stands in `seq`. `num` numbers the entries of groups in the order in which they entered, `tag`
is the quantum tag of a sealed entry (R269), and `after` gives, by group of the pair, the entries that a wide release
follows (R258). The stores of several words to one sector stand here one by one, and take one entry of the buffer
where R269 coalesces them. -/
structure HB where
  g : Nat
  seq : Nat
  core : Nat
  partid : Nat
  sealed : Bool
  what : Held
  num : Nat := 0
  tag : Nat := 0
  after : Marks := {}
  /-- its line is a first candidate for eviction (R143) -/
  low : Bool := false
  /-- the half of the team whose stash window it writes back: it takes a command entry (R160, R269) -/
  back : Option Nat := none
  /-- the memory type of a walker's output (R286) -/
  mt : Nat := 0
  /-- an uncorrectable error has struck it since its seal (R334) -/
  bad : Bool := false
deriving DecidableEq, Repr

/-- The account of an entry (R279, R316): its group names the card, or the launch of a walker's output. -/
def HB.acct (h : HB) : Nat :=
  Sys2Proof.Machine.acct h.partid (match h.what with
    | .output lk .. => lk / 2
    | _ => h.g / 2 ^ 31)

/-! ### Cores and pairs -/

/-- An entry of a core's range-lock table (R158, R195): its owner, whether it names local bytes (of a team and
half), weight bytes (space 2) or global bytes (of a context), the range, and what kind of lock it is:
0 a source, 1 a destination, 2 a stash window. `extra` marks the second part of a range that lies on both
halves of a paired team: the two take one entry. -/
structure Lock where
  id : Nat
  space : Nat
  own : Nat
  half : Nat
  lo : Nat
  hi : Nat
  kind : Nat
  extra : Bool := false
deriving DecidableEq, Repr

/-- Which bytes a copy moves, pair by pair (R194). -/
inductive CopyPairs where
  | linear (dst src len : Nat)
  | nd (dst src n0 n1 n2 n3 : Nat) (s1 s2 s3 t1 t2 t3 : Int)
  | gather (dst src rb : Nat) (idx : List Nat)
  | scatter (dst src rb : Nat) (idx : List Nat)
deriving DecidableEq, Repr

/-- A command that a copy engine has accepted (R195): a copy, a ring post or
a ring pull. Spaces are 0 global, 1 local, 2 weight window. `todo` holds the chunks not yet written, with the
fault records each waits for and the pages answered POISON or FAIL. -/
structure Cmd where
  id : Nat
  lk : Nat
  core : Nat
  g : Nat
  seq : Nat
  pairs : CopyPairs
  dsp : Nat
  ssp : Nat
  comp : Nat := 0
  compAddr : Nat := 0
  time : Option Nat := none
  /-- a ring post or pull: its header's byte and slot, the half it lies on, and its local offset as the group
  names it -/
  ring : Option (Nat × Nat) := none
  half : Nat := 0
  hdrAt : Nat := 0
  pull : Bool := false
  batch : Bool := false
  /-- its destination is the first candidate for eviction (R194) -/
  nt : Bool := false
  sealed : Bool := false
  started : Bool := false
  /-- it has written its first byte (R198) -/
  wrote : Bool := false
  /-- where its index list lies, as the group names it (R194) -/
  idxAt : Option Nat := none
  /-- the held entries of the pair's groups that its writes follow (R261) -/
  after : Marks := {}
  /-- poisoned sectors that it has met, by source address / 64, and local granules, counted from 2^64 (R200) -/
  met : List Nat := []
  srcDone : Bool := false
  todo : List Nat := []
  recs : NMap (List Nat) := []
  bad : List Nat := []
  /-- chunks with a page answered RETRY, which run again before the others (R344) -/
  again : List Nat := []
  /-- source bytes already read, by chunk, each with whether it is poisoned -/
  buf : NMap (List (Byte × Bool)) := []
  /-- a ring post or pull whose slot is written while an earlier slot is not yet filled (R205) -/
  filled : Bool := false
deriving DecidableEq, Repr

/-- A pull-ring watch (R204): the RINIT that set it, its half of a paired team, local header and source ring; `dead`
is the word that dropped it, until that word's quantum is sealed. -/
structure Watch where
  g : Nat
  seq : Nat
  half : Nat := 0
  hdr : Nat
  src : Nat
  dead : Option (Nat × Nat) := none
deriving DecidableEq, Repr

/-- An operator card that a walker has accepted (R187, R345): its handle count and core number (R187), the launch or
chain it belongs to, the XRUN word, its address and its bits once read. `st`, `killed`, `err` and `steps` are what
XPOLL reports (R188); `pos` is the next tile step to run and `stage` 1 while a step's rows stand computed and its
outputs are not yet staged; `resident` is the column group whose weights are loaded (R351). `killBy` is the XKILL that
asked for it to stop; `recs` are pages whose fault records are unanswered, `bad` those answered POISON (R356). `since`
is the time from which its walker's progress counts (R394); while it waits for replies or is parked, how much had been
counted. -/
structure Job where
  id : Nat
  hcore : Nat
  lk : Nat
  chain : Bool
  g : Nat
  seq : Nat
  addr : Nat
  desc : Option (BitVec 2048) := none
  st : Nat := 0
  killed : Bool := false
  killBy : Option (Nat × Nat) := none
  err : Nat := 0
  steps : Nat := 0
  pos : Nat := 0
  stage : Nat := 0
  /-- the masks of its weight tiles are still to be checked (R357) -/
  unchecked : Bool := false
  resident : Option Nat := none
  recs : List Nat := []
  bad : List Nat := []
  /-- it has stopped at a checkpoint for a pre-emption (R355) -/
  parked : Bool := false
  /-- after a rollback, the step before which it had stopped: the steps up to it run again first (R413) -/
  redo : Nat := 0
  since : Nat := 0
deriving DecidableEq, Repr

/-- A core (R266 to R269, R59, R195). `rf`, `loc` and `l1` are its carve in KiB. -/
structure Core where
  rf : Nat := 768
  loc : Nat := 0
  l1 : Nat := 1536
  rows : NMap AccRow := []
  wb : List Host.Cell := []
  wpois : NMap Bool := []
  locks : List Lock := []
  cmds : List Cmd := []
  watches : List Watch := []
  /-- the walker's cards: those not finished, and the last 64 of each context (R188) -/
  jobs : List Job := []
  /-- the sectors that its L1 holds, each with its poison bit (R267) -/
  l1c : NMap Bool := []
  /-- the rotation pointers of its four issue schedulers: the position that each chose last (R314) -/
  turns : NMap Nat := []
  /-- its cycle, and the schedulers that have issued in it, as a mask (R314) -/
  cycle : Nat := 0
  issued : Nat := 0
  /-- SRAM rows that have given an uncorrectable error since its last drain (R339) -/
  faulty : Nat := 0
deriving DecidableEq, Repr

/-- A core as reset leaves it: the smallest register carve, no local memory, the rest L1 (R266, R396). -/
def Core.fresh (c : Nat) : Core := if c < 32 then {} else { rf := 256, loc := 0, l1 := 640 }

/-- A team-register write of deterministic mode, held until its epoch commits (R36, R104). -/
structure TeamWrite where
  g : Nat
  seq : Nat
  n : Nat
  x : Nat
deriving DecidableEq, Repr

/-- A pair region (R34, R269, R331). -/
structure Pair where
  /-- time at which the pair's open quantum opened, and its number (R33) -/
  openAt : Nat := 0
  qn : Nat := 0
  /-- the pair's closed quanta that are not sealed, with the time of their close -/
  pqs : NMap Nat := []
  sealWin : Nat := 256
  strikes : Nat := 0
  /-- rollbacks since the pair last sealed a quantum (R335), and whether one is in progress (R332) -/
  rolls : Nat := 0
  rolling : Bool := false
  hb : List HB := []
  /-- team-register writes that wait for their commit (R430) -/
  tw : List TeamWrite := []
  journal : List Undo := []
  /-- when it last sealed a quantum: a strike report of that time would have come first (R331) -/
  sealedAt : Option Nat := none
deriving DecidableEq, Repr

/-- A translation that a TLB holds (R290): the TLB (a core's own by the core's number, a cluster's by 64 and the
cluster's number), context, first virtual page, size in bytes, the leaf entry, where it stands, and the physical
base it gives. `blk` and `blkSize` give the page, block or run of stage 1 that it is part of, `iblk` and
`iblkSize` the one of stage 2 (R291). -/
structure Tlb where
  unit : Nat := 0
  ctx : Nat
  va : Nat
  size : Nat
  entry : Word64
  entryPa : Nat
  pa : Nat
  mt : Nat
  ipa : Nat
  blk : Nat := 0
  blkSize : Nat := 0
  iblk : Nat := 0
  iblkSize : Nat := 0
deriving DecidableEq, Repr

/-- A table entry that a cluster's walk cache holds (R290): cluster, context, where the entry stands, its value,
and the virtual addresses that it covers. -/
structure WalkEnt where
  cl : Nat
  ctx : Nat
  loc : Nat
  val : Nat
  va : Nat
  size : Nat
deriving DecidableEq, Repr

/-- A line of the L2 (R272): its way, the PARTID that allocated it, which of its two sectors are valid, and
whether it is the first candidate for eviction (R143). `card` is the job card whose request that was, for its bandwidth
budget (R316). -/
structure L2Line where
  way : Nat
  partid : Nat
  card : Option Nat := none
  v0 : Bool := false
  v1 : Bool := false
  low : Bool := false
deriving DecidableEq, Repr

/-- A sector whose L2 copy and DRAM differ (R272, R275): the bytes and poison that DRAM holds. `drop` says that
the L2 copy is clean: DRAM was written beneath it, and its bytes go when the line leaves the L2. -/
structure Dirty where
  bytes : List Byte
  pois : Bool
  drop : Bool := false
deriving DecidableEq, Repr

/-- What an agent outside the array got for a read (R278, R373): 0 the device's own processor, 1 the safety island, 2
a PCI Express requester, 3 another device; 8 and up are the frames that the Ethernet ports have sent (R384). `data` is
none where it got an access fault (a hart or an island core), or a completion with EP set and zeros (a PCI Express
read). -/
structure Reply where
  agent : Nat
  addr : Nat
  data : Option (List Byte)
  /-- a PCI Express request was refused: Completer Abort (R386) -/
  abort : Bool := false
deriving DecidableEq, Repr

/-- What one push adds to a port channel (R227): the pushing group and its PSH word, the value of each lane it
carries, their mask bits, and whether it has been delivered (R229). A source beyond this device is
`remoteSrc` with its device added. -/
structure PortPart where
  src : Nat
  seq : Nat
  vals : NMap Word32
  mask : Word64
  delivered : Bool
  /-- the held entries of the pair's other groups that come before it (R262) -/
  after : Marks := {}
deriving DecidableEq, Repr

/-- A port channel (R227, R228): parts in push order, and the POP words that have consumed its oldest entries
and are not sealed. A freed entry is pushed once: `freed` names the pushes, by group and word, of freed entries whose
quanta may still roll back, and `again` counts by group those that have rolled back and are to run again (R227, R229). -/
structure Chan where
  parts : List PortPart := []
  taken : List Nat := []
  freed : List (Nat × Nat) := []
  again : NMap Nat := []
deriving DecidableEq, Repr

/-- A port part bound for another device (R229): pushing group and word, device, receiving group and port. -/
structure OutPart where
  part : PortPart
  dev : Nat
  dst : Nat
  port : Nat
  sent : Bool := false
deriving DecidableEq, Repr

/-- A link message (R231, R232): sending and receiving group with their devices, channel number, LSND word, bytes, its
source lock with its core, and how far it is: 0 held, 1 sent, 2 arrived, 3 to be forwarded (R376). `taken` is the
receiving word, until that word's quantum is sealed. -/
structure Msg where
  src : Nat
  sdev : Nat
  dst : Nat
  ddev : Nat
  chan : Nat
  seq : Nat
  bytes : List Byte
  lock : Nat
  core : Nat
  stage : Nat := 0
  taken : Option Nat := none
  after : Marks := {}
deriving DecidableEq, Repr

/-- Who waits for the reply to a fault record (R292): a lane of a word, an instruction fetch of a slot, a chunk
or page of a copy command, or an operator card. -/
inductive FaultOwner where
  | lane (g seq lane : Nat)
  | fetch (g slot : Nat)
  | chunk (cmd chunk page : Nat) (dst : Bool)
  | credit (cmd : Nat)
  | job (core id page : Nat)
deriving DecidableEq, Repr

/-- A fault record (R292): pending until it is written to the ring, then outstanding under its tag. -/
structure FaultRec where
  tag : Option Nat := none
  src : Nat
  acc : Nat
  cause : Nat
  ctx : Nat
  partid : Nat
  job : Nat
  core : Nat
  lane : Nat
  group : Nat
  team : Nat
  nrec : Nat
  va : Nat
  seq : Nat
  mask : Word64
  ipa : Nat
  time : Nat
  owner : FaultOwner
deriving DecidableEq, Repr

/-! ### The dispatcher (R295 to R320) -/

/-- Why a context is being killed (R303, R327, R330): the EVENT that follows, 4 or 5, or a replay, with the class
of the failure. -/
structure Kill where
  event : Nat
  cls : Nat
  /-- cores that failed, as a mask (R319) -/
  cores : Nat := 0
  replay : Bool := false
deriving DecidableEq, Repr

/-- What the dispatcher holds for a card beside the card itself: the current instance's release time and
absolute deadline (R303), a pending release with its deadline (R304), the arming that awaits its reply (R301),
what it read at arming (R296), and the counts that records carry (R318). -/
structure CardRun where
  rel : Nat := 0
  absDl : Nat := 0
  pend : Option (Nat × Nat) := none
  /-- DISARM suppresses further releases (R303) -/
  disarmed : Bool := false
  /-- DLMISS has been raised for the instance (R315) -/
  missed : Bool := false
  /-- DLMISS has been raised for the pending release (R300) -/
  pendMissed : Bool := false
  /-- the instance's JOBDONE time (R245) -/
  jobDone : Option Nat := none
  attempts : Nat := 0
  replayed : Bool := false
  /-- the reply of a replay duty is awaited (R6) -/
  replayAsk : Bool := false
  rolls : Nat := 0
  preads : Nat := 0
  /-- records dropped since the last one written (R318) -/
  dropped : Nat := 0
  /-- cores that ran the instance, as a mask -/
  ran : Nat := 0
  /-- execution time charged to the instance, in core-ns (R316), and when it was charged last -/
  usedNs : Nat := 0
  chargedAt : Nat := 0
  /-- BUDGET has been raised (R316), and the card demoted -/
  overran : Bool := false
  demoted : Bool := false
  /-- window and DRAM bytes of the bandwidth budget, and the last window it was raised for (R316) -/
  bwWin : Nat := 0
  bwBytes : Nat := 0
  bwRaised : Option Nat := none
  /-- earlier windows that passed the budget and for which it has not been raised yet -/
  bwDue : Nat := 0
  /-- release time asked for by the arming in progress, and the card whose JOBARM asked (R301) -/
  armRel : Nat := 0
  armBy : Option Nat := none
  /-- charges of R302 are counted in ADMUSEC and ADMUSEB -/
  charged : Option (Nat × Nat) := none
  desc : BitVec 1024 := 0
  weave : BitVec 512 := 0
  /-- the snapshot set: shadow area, and ranges as first page and pages (R328) -/
  shadow : Nat := 0
  ranges : List (Nat × Nat) := []
  /-- a copy batch: how many entries its header names, and how many have been issued (R298) -/
  entries : Nat := 0
  issued : Nat := 0
  kill : Option Kill := none
  /-- by core: the highest instance that has run there since the core's last pass (R338) -/
  prov : NMap Nat := []
  /-- a placement reply gave these cores (R320), or a placement is asked for or deferred -/
  placeMask : Option Nat := none
  placeAsk : Bool := false
deriving DecidableEq, Repr

/-- A duty record (R319): not yet written, then outstanding under its tag. -/
structure Duty where
  tag : Option Nat := none
  kind : Nat
  card : Nat := 0
  inst : Nat := 0
  cores : Nat := 0
  time : Nat := 0
  arg0 : Nat := 0
  arg1 : Nat := 0
  arg2 : Nat := 0
  /-- what it asks for has ended without its reply: a reply to it does nothing -/
  dead : Bool := false
deriving DecidableEq, Repr

/-- The saved part of a context on one core (R40, R312). -/
structure SavedPart where
  rows : NMap AccRow := []
  wb : List Host.Cell := []
  wpois : NMap Bool := []
  locks : List Lock := []
  cmds : List Cmd := []
  watches : List Watch := []
  jobs : List Job := []
  /-- bytes of the image written so far, and the pair quantum that holds the last of them -/
  written : Nat := 0
  /-- the core whose save slot holds its image (R312) -/
  slot : Nat := 0
  lastQn : Option Nat := none
deriving DecidableEq, Repr

/-! ### Engines outside the array -/

/-- A frame that an ingest engine is receiving (R382). -/
structure Frame where
  start : Nat
  /-- its number -/
  num : Nat
  /-- ICTL, IBUF, IGEOM and IRING as they stood at Frame Start -/
  ictl : Nat
  ibuf : Nat
  geom : Nat
  ring : Nat
  lines : Nat := 0
  crcErr : Bool := false
  trunc : Bool := false
  eccFix : Bool := false
deriving DecidableEq, Repr

/-- A sensor ingest engine (R381, R382): frames recorded, dropped, and dropped since the last record. -/
structure Ingest where
  frames : Nat := 0
  drops : Nat := 0
  since : Nat := 0
  cur : Option Frame := none
deriving DecidableEq, Repr

/-- Who asks for a sector's read (R279): a word, an entry of the hold-back buffer by its number, a command of a copy
engine, an operator card, a slot's instruction fetch, or an agent outside the array. -/
inductive Asker where
  | word (g seq : Nat)
  | entry (num : Nat)
  | cmd (id : Nat)
  | job (core id : Nat)
  | fetch (g slot : Nat)
  | agent (n : Nat)
deriving DecidableEq, Repr

/-- One PARTID's regulator at one home agent (R279): its window, bytes counted, and reads deferred. -/
structure Regulator where
  win : Nat := 0
  bytes : Nat := 0
  deferred : Nat := 0
  /-- deferred reads served so far -/
  served : Nat := 0
  /-- BYTES and EN as the window began -/
  limit : Nat := 0
  en : Bool := false
  /-- the deferred reads: who asks, the sector, and the place among the reads deferred so far -/
  waiting : List (Asker × Nat × Nat) := []
deriving DecidableEq, Repr

/-- The agents that reach registers (R248, R359): an application processor or the host behind it, the safety island, a
PCI Express requester or another device, or a group with its launch and core. -/
inductive Agent where
  | host
  | island
  | outside
  | group (lk core : Nat)
deriving DecidableEq, Repr

/-- A write of a tree's configuration that waits behind a clear (R362, R365): who writes, the register, its new value and
the bytes that it covers. -/
structure TreeWait where
  who : Agent
  off : Nat
  x : Nat
  bytes : List Nat
deriving DecidableEq, Repr

/-- A core's scan (R6, R337, R338): `stage` 0 its core is being drained, 1 it runs, 2 a critical context holds it
off until `dueAt`, 3 it awaits a reply, 4 it is postponed until `dueAt`, 5 it is asked for at the next decision
point; `second` after a failed one. -/
structure Scan where
  core : Nat
  stage : Nat := 0
  second : Bool := false
  dueAt : Nat := 0
  /-- a unit whose last spare is used has faulted (R339) -/
  spent : Bool := false
deriving DecidableEq, Repr

/-- The safety island (R388 to R394, R399). -/
structure Island where
  /-- the boot stage in progress, 0 before power-on, 7 when boot is over; it has stopped at a failure -/
  stage : Nat := 0
  failed : Bool := false
  /-- fused minimum and running security version, and measurement, by image KIND -/
  svnMin : NMap Nat := []
  svnRun : NMap Nat := []
  meas : NMap Nat := []
  /-- the monotonic index of the identity key (R391) -/
  keyIndex : Nat := 0
  hbAt : Nat := 0
  /-- TEMP has been above 125 °C since this time, and the compute cores are held in reset (R399) -/
  hotSince : Option Nat := none
  coresHeld : Bool := false
  misses : Nat := 0
  strikes : Nat := 0
  ueEvents : Nat := 0
  /-- the 1 MiB memory that the island's cores run from (R388, R390) -/
  sram : List Host.Cell := []
  /-- a signing in progress: its index, and the report (R391) -/
  signing : Option (Nat × List Byte) := none
  /-- the engine that is being restarted (R394), and the mailbox command in progress: code and argument -/
  restart : Option Nat := none
  mb : Option (Nat × Nat) := none
deriving DecidableEq, Repr

/-- Suspend and resume (R400 to R403). -/
structure Suspend where
  image : Nat := 0
  begun : Nat := 0
  powerDown : Nat := 0
  /-- the image's length and digest (R400) -/
  len : Nat := 0
  digest : Nat := 0
  /-- a wake event has arrived (R402), and when the resume began -/
  wakeSeen : Bool := false
  /-- the operation tried last has met DRAM asleep, and waits (R397) -/
  blocked : Bool := false
  resumeAt : Nat := 0
deriving DecidableEq, Repr

/-- What a step does next: an event of the machine or of the outside world, the splitter's next word of a
group's slot, or a try of the word at the head of a group's queue. -/
inductive Move where
  | event (i : Instr)
  | fetch (g slot : Nat)
  | head (g q : Nat)
  /-- so many ns pass -/
  | pass (ns : Nat)
  /-- a line leaves the L2, a sector a core's L1, or a translation the TLBs (R267, R272, R290) -/
  | evictL2 (line : Nat)
  | evictL1 (core sec : Nat)
  | evictTlb (n : Nat)
  /-- device d's own agents write bytes of one sector of its window (R373) -/
  | farWrite (pa : Nat) (bytes : List Byte)
  /-- a link loses its lanes, and begins to retrain (R374) -/
  | linkFails (n : Nat)
  /-- an uncorrectable error strikes a sealed entry of a pair's hold-back buffers (R334) -/
  | spoilEntry (pr n : Nat)
  /-- a core's next clock cycle begins (R314) -/
  | cycle (core : Nat)
  /-- an uncorrectable SRAM error poisons a row of a core, a granule of a half of a team's local memory, or a granule
  of a core's weight bytes (R165, R190) -/
  | poisonRow (core n : Nat)
  | poisonLocal (tk half gran : Nat)
  | poisonWeights (core gran : Nat)
deriving DecidableEq, Repr, Inhabited

/-- The whole machine. -/
structure State where
  /-- global time in ns (R378) -/
  now : Nat := 0
  /-- counts the steps, and numbers the free values -/
  ticks : Nat := 0
  /-- what happens next, in order; when it is empty a free value chooses -/
  script : List Move := []
  cur : Option Cur := none
  groups : NMap Group := []
  teams : NMap Team := []
  launches : NMap Launch := []
  cores : NMap Core := []
  pairs : NMap Pair := []
  /-- the job card table (R295) -/
  cards : NMap (BitVec 1024) := []
  /-- memory as coherent agents read it, by physical address (R252) -/
  mem : List Host.Cell := []
  /-- poisoned sectors, by physical address / 64 (R277) -/
  poison : NMap Bool := []
  /-- what DRAM holds, with its poisoned sectors, beneath the range that the ochre SRAM stores (R397) -/
  under : List Host.Cell := []
  underPois : NMap Bool := []
  /-- the lines of the L2, by physical address / 128 (R272), and its sectors that DRAM holds otherwise -/
  l2 : NMap L2Line := []
  dirty : NMap Dirty := []
  /-- sectors that a processor cluster has written and that its caches may alone hold as written (R394) -/
  apLines : List Nat := []
  /-- what reads from outside the array were answered (R278) -/
  replies : List Reply := []
  tlb : List Tlb := []
  walkCache : List WalkEnt := []
  /-- the next sector that the patrol scrubber reads, and when its next pass may begin (R277) -/
  scrubNext : Nat := 0
  scrubDue : Nat := 0
  /-- fault records not yet written, then those outstanding (R292) -/
  faults : List FaultRec := []
  outFaults : List FaultRec := []
  /-- port channels by receiving group × 8 + port (R227), and parts bound for other devices -/
  ports : NMap Chan := []
  outParts : List OutPart := []
  /-- groups of other devices that are known to have retired: device and group (R228) -/
  farRetired : List (Nat × Nat) := []
  /-- link messages (R231) -/
  msgs : List Msg := []
  /-- the dispatcher's own record of each card -/
  runs : NMap CardRun := []
  /-- duty records, those not yet written first in their order (R319) -/
  duties : List Duty := []
  /-- saved parts of contexts, by launch × 64 + core (R40, R312) -/
  savedParts : NMap SavedPart := []
  /-- message-signalled interrupts sent: address and data (R387) -/
  msis : List (Nat × Nat) := []
  /-- MSI-X vectors sent to the PCI Express host in endpoint mode (R387) -/
  msixs : List Nat := []
  /-- lanes of each PCI Express controller, none before stage 4 of boot, and whether controller 0 is an endpoint
  (R385) -/
  pciWidth : NMap Nat := []
  pciEnd : Bool := false
  ingest : NMap Ingest := []
  /-- regulators by home agent × 64 + PARTID -/
  regulators : NMap Regulator := []
  scans : List Scan := []
  scanAt : Nat := 0
  island : Island := {}
  susp : Suspend := {}
  /-- correction that the time unit still slews out (R8, R377), and what global time has passed beyond whole ns, both
  in units of 10^-9 ns -/
  slew : Int := 0
  timeFrac : Nat := 0
  /-- when the next sync interval's duty record falls due (R379) -/
  syncNext : Nat := 0
  /-- stopped link channels, link × 4 + channel (R374), and when each link began to retrain -/
  linkStop : Nat := 0
  retrain : NMap Nat := []
  /-- trees that are clearing (R365), trees whose BASE has been applied (R361), and each tree's PARTID -/
  treeBusy : Nat := 0
  treeBased : Nat := 0
  treePart : NMap Nat := []
  /-- writes of configurations of clearing trees, in arrival order (R362) -/
  treeWait : List TreeWait := []
  /-- invalidations in progress (R291): what is removed and not yet out of use -/
  tlbinv : List Tlb := []
  /-- cores that a wake names and that are not yet awake, cores whose gating has begun, and gated cores
  (R242, R243, R343) -/
  wakeReq : Nat := 0
  gating : Nat := 0
  gated : Nat := 0
  /-- memory-mapped registers by offset in the register region (R369) -/
  mmr : NMap Word64 := []
  nextId : Nat := 0
  /-- a quantum has closed, or the dispatcher has another reason to decide, since its last decision (R305) -/
  decision : Bool := false
deriving DecidableEq, Repr

/-- The machine right after reset: every register at the value the spec gives it, nothing resident, every card
empty (R295), every core with the smallest register carve (R266), and nothing in memory. -/
def State.reset : State := {}

end Sys2Proof.Machine
end

