-- ==== Sys2Proof/Machine/AccRow.lean ====
section
/-!
DEFINITION. Sys2Proof/Machine/AccRow.lean: accumulator rows (R59 to R66): exact products into rows, normalisation,
reading and writing elements, and what a word does to a row as the rollback journal keeps it (R35).
-/
namespace Sys2Proof.Machine

/-! ### The guard word (R60) -/

def AccRow.maxlen (r : AccRow) : Nat := nbits r.gw.toNat 5 0
def AccRow.nan (r : AccRow) : Bool := r.gw.toNat.testBit 7
/-- Set sticky bits of the guard word: 64 OVF, 128 NAN, 256 INX. -/
def AccRow.flag (b : Bool) (n : Nat) (r : AccRow) : AccRow :=
  if b then { r with gw := r.gw ||| BitVec.ofNat 32 n } else r
/-- M[j] as an integer. -/
def AccRow.mant (r : AccRow) (j : Nat) : Int := sx 64 (nget 0 r.m j).toNat
/-- E as an integer. -/
def AccRow.ex (r : AccRow) : Int := sx 32 r.e.toNat
/-- MAXLEN replaced. -/
def AccRow.setMaxlen (n : Nat) (r : AccRow) : AccRow :=
  { r with gw := BitVec.ofNat 32 (setBits r.gw.toNat 5 0 n) }

/-- The largest magnitude of a mantissa word (R59). -/
def mantMax : Int := 2 ^ 62 - 1

/-- Write M[j], saturating and taking the bit length into MAXLEN (R61). -/
def AccRow.putMant (j : Nat) (m : Int) (r : AccRow) : AccRow :=
  let big : Bool := mantMax < m.natAbs
  let m' := if big then (if m < 0 then -mantMax else mantMax) else m
  let r1 := AccRow.flag big 64 { r with m := nset 0 r.m j (BitVec.ofInt 64 m') }
  r1.setMaxlen (max r1.maxlen (bitlen m'.natAbs))

/-- rne(x / 2^E) and whether it was inexact, for x = m × 2^e (R61). -/
def unitsOf (m e E : Int) : Int × Bool :=
  if E ≤ e then (m * ((2 ^ (e - E).toNat : Nat) : Int), false)
  else
    let k := (E - e).toNat
    if bitlen m.natAbs + 1 < k then (0, decide (m ≠ 0))
    else (rndShift m k 0, decide (m % ((2 ^ k : Nat) : Int) ≠ 0))

/-- The units of a product. -/
def Prod.units (p : Prod) (E : Int) : Int × Bool :=
  match p.a, p.b with
  | .fin m1 e1, .fin m2 e2 =>
    let u := unitsOf (m1 * m2) (e1 + e2) E
    (if p.neg then -u.1 else u.1, u.2)
  | _, _ => (0, false)

/-- acc_add of R61. -/
def accAdd (j : Nat) (P : List Prod) (r : AccRow) : AccRow :=
  if r.nan then r
  else if P.any fun p => p.a.isNanInf || p.b.isNanInf then r.flag true 128
  else
    let us := P.map fun p => p.units r.ex
    let r1 := r.flag (us.any (·.2)) 256
    r1.putMant j (r1.mant j + (us.map (·.1)).sum)

/-- acc_add_int of R64, with the products in ascending K order. -/
def accAddInt (j : Nat) (sat : Bool) (P : List Int) (r : AccRow) : AccRow :=
  let m0 := sx 32 (nget 0 r.m j).toNat
  let step (x : Int × Bool) (p : Int) : Int × Bool :=
    let m := x.1 + p
    if sat then (satS 32 m, x.2 || decide (m ≠ satS 32 m)) else (m, x.2)
  let t := P.foldl step (m0, false)
  let ovf := if sat then t.2 else decide (t.1 ≠ satS 32 t.1)
  let m := sx 32 (cut 32 t.1)
  let r1 := AccRow.flag ovf 64 { r with m := nset 0 r.m j (BitVec.ofInt 64 m) }
  r1.setMaxlen (max r1.maxlen (bitlen m.natAbs))

/-- xnorm_row of R63. -/
def xnormRow (sh : Int) (r : AccRow) : AccRow :=
  if r.ex + sh < -(2 ^ 31) ∨ 2 ^ 31 - 1 < r.ex + sh then r.flag true 64
  else
    let r1 := (List.range 64).foldl (fun r j =>
      let m := r.mant j
      if 0 ≤ sh then
        let u := unitsOf m 0 sh
        (r.flag u.2 256).putMant j u.1
      else r.putMant j (m * ((2 ^ (-sh).toNat : Nat) : Int))) r
    let len := (List.range 64).foldl (fun a j => max a (bitlen (r1.mant j).natAbs)) 0
    { r1.setMaxlen len with e := BitVec.ofInt 32 (r.ex + sh) }

/-- The shift of XNORM.fit (R182), and the row it leaves. -/
def xnormFit (t : Nat) (r : AccRow) : AccRow :=
  if r.maxlen ≤ t then r else xnormRow ((r.maxlen - t : Nat) : Int) r

/-- XZERO of one row (R181): M and G zero, E set, poison cleared (R190). -/
def zeroRow (e : Int) (_ : AccRow) : AccRow := { m := [], e := BitVec.ofInt 32 e, gw := 0, pois := false }

/-- The exact value of element j as R66 reads it: `int` for integer mode. -/
def rowValue (int : Bool) (j : Nat) (r : AccRow) : Fl :=
  if r.nan then .nan
  else
    let m := if int then sx 32 (nget 0 r.m j).toNat else r.mant j
    if m = 0 then .zero false else .fin m (if int then 0 else r.ex)

/-- xwr_elem of R185 for a value of type code `t`, whose bits are `x`. -/
def xwrElem (view t j x : Nat) (r : AccRow) : AccRow :=
  match view with
  | 0 =>
    match typeDec t x with
    | .nan => r.flag true 128
    | .inf _ => r.flag true 128
    | .zero _ => r.putMant j 0
    | .fin m e => let u := unitsOf m e r.ex; (r.flag u.2 256).putMant j u.1
  | 1 =>
    let v := tyInt t x
    let m := sx 32 (cut 32 v)
    (r.flag (decide (m ≠ v)) 64).putMant j m
  | _ => r.putMant j (sx 64 x)

/-! ### The effect of a word on a row (R35) -/

/-- A row after the effect of a word. -/
def applyRow (e : RowEff) (r : AccRow) : AccRow :=
  match e with
  | .prods ps => (ps.zipIdx).foldl (fun r x => accAdd x.2 x.1 r) r
  | .prodsInt sat ps => (ps.zipIdx).foldl (fun r x => accAddInt x.2 sat x.1 r) r
  | .zero e => zeroRow e r
  | .expo e => { r with e := e }
  | .norm sh => xnormRow sh r
  | .fit t => xnormFit t r
  | .unflag => { r with gw := BitVec.ofNat 32 (notBits 32 320 &&& r.gw.toNat) }
  | .wipe => { r with m := [], gw := 0 }
  | .clean => { r.flag true 128 with pois := false }
  | .elems view t xs => xs.foldl (fun r x => xwrElem view t x.1 x.2 r) r

end Sys2Proof.Machine
end

