-- ==== Sys2Proof/Machine/Ops.lean ====
section
/-!
DEFINITION. Sys2Proof/Machine/Ops.lean: the named operations over groups, registers, local memory and the
rollback journal (R14 to R35, R40, R42), the splitter and the queues (R76 to R86), and the closing and
sealing of quanta (R32 to R34). Every architectural write of a group goes through `jw`, which logs it.
-/
namespace Sys2Proof.Machine

/-! ### Keys (R16) -/

/-- The job card of a group key. -/
def gCard (g : Nat) : Nat := g / 2 / 64 / 2 ^ 24
/-- TEAM of a group key. -/
def gTeam (g : Nat) : Nat := g / 2 / 64 % 2 ^ 24
/-- GROUP of a group key. -/
def gIdx (g : Nat) : Nat := g / 2 % 64
/-- The copy of a group key (R341). -/
def gCopy (g : Nat) : Nat := g % 2
/-- The group key of a card, team, group and copy. -/
def gKey (card team group copy : Nat) : Nat := ((card * 2 ^ 24 + team) * 64 + group) * 2 + copy
/-- The team key of a group key. -/
def tkOf (g : Nat) : Nat := g / 2 / 64 * 2 + g % 2
/-- The launch key of a group key. -/
def lkOf (g : Nat) : Nat := gCard g * 2 + gCopy g
/-- The launch key of a team key. -/
def lkOfT (tk : Nat) : Nat := tk / 2 / 2 ^ 24 * 2 + tk % 2
/-- The group key of a group of a team. -/
def gOfT (tk idx : Nat) : Nat := (tk / 2 * 64 + idx) * 2 + tk % 2

/-! ### Reading and changing the records of the state -/

def grp (s : State) (g : Nat) : Group := nget {} s.groups g
def setGrp (s : State) (g : Nat) (G : Group) : State := { s with groups := nput s.groups g G }
def modGrp (s : State) (g : Nat) (f : Group → Group) : State := setGrp s g (f (grp s g))
def team (s : State) (tk : Nat) : Team := nget {} s.teams tk
def setTeam (s : State) (tk : Nat) (T : Team) : State := { s with teams := nput s.teams tk T }
def modTeam (s : State) (tk : Nat) (f : Team → Team) : State := setTeam s tk (f (team s tk))
def launch (s : State) (lk : Nat) : Launch := nget {} s.launches lk
def modLaunch (s : State) (lk : Nat) (f : Launch → Launch) : State :=
  { s with launches := nput s.launches lk (f (launch s lk)) }
/-- A core's record; before anything has touched it, the core as reset leaves it (R266, R396). -/
def core (s : State) (c : Nat) : Core := nget (Core.fresh c) s.cores c
def modCore (s : State) (c : Nat) (f : Core → Core) : State :=
  { s with cores := nput s.cores c (f (core s c)) }
def pair (s : State) (p : Nat) : Pair := nget {} s.pairs p
def modPair (s : State) (p : Nat) (f : Pair → Pair) : State :=
  { s with pairs := nput s.pairs p (f (pair s p)) }

/-! ### The launch descriptor (R297) -/

/-- Bits `hi` down to `lo` of the descriptor. -/
def Launch.fld (l : Launch) (hi lo : Nat) : Nat := nbits l.desc.toNat hi lo
def Launch.entry (l : Launch) : Nat := l.fld 63 0
def Launch.width (l : Launch) : Nat := 16 * 2 ^ l.fld 65 64
def Launch.paired (l : Launch) : Bool := l.fld 66 66 = 1
def Launch.stack (l : Launch) : Bool := l.fld 67 67 = 1
def Launch.det (l : Launch) : Bool := l.fld 68 68 = 1
def Launch.ngroups (l : Launch) : Nat := l.fld 75 70 + 1
def Launch.roles (l : Launch) : Nat := l.fld 81 76 + 1
def Launch.regBlocks (l : Launch) : Nat := l.fld 85 82 + 1
def Launch.nteams (l : Launch) : Nat := l.fld 109 86 + 1
def Launch.waveSize (l : Launch) : Nat := l.fld 151 128 + 1
def Launch.q (l : Launch) : Nat := l.fld 168 152
def Launch.gmax (l : Launch) : Nat := l.fld 176 169 + 1
def Launch.localBytes (l : Launch) : Nat := l.fld 202 192 * 1024
def Launch.l1Kib (l : Launch) : Nat := l.fld 208 203 * 64
def Launch.accRows (l : Launch) : Nat := l.fld 238 224
def Launch.wbBytes (l : Launch) : Nat := l.fld 252 240 * 1024
/-- Argument word `i`, 0 to 7. -/
def Launch.arg (l : Launch) (i : Nat) : Nat := l.fld (256 + 64 * i + 63) (256 + 64 * i)
def Launch.wmap (l : Launch) : Nat := l.fld 831 768

/-- Groups of a team on one core (R14). -/
def Launch.perCore (l : Launch) : Nat := if l.paired then l.ngroups / 2 else l.ngroups

/-- The program window W of one core (R144). -/
def Launch.window (l : Launch) : Nat :=
  l.localBytes - 128 - (if l.stack then 1024 * l.perCore else 0)

/-- Where the stash window table begins (R158). -/
def Launch.stashBase (l : Launch) : Nat :=
  l.localBytes - 128 - (if l.stack then 1024 * l.perCore else 0)

/-- The launch of a group. -/
def launchOf (s : State) (g : Nat) : Launch := launch s (lkOf g)
/-- WIDTH of a group. -/
def widthOf (s : State) (g : Nat) : Nat := (launchOf s g).width
/-- The half of its paired team that a group runs on: 1 for the odd core (R14). -/
def halfOf (s : State) (g : Nat) : Nat :=
  let l := launchOf s g
  if l.paired && l.ngroups / 2 ≤ gIdx g then 1 else 0
/-- The physical core of a group. -/
def coreOf (s : State) (g : Nat) : Nat := (team s (tkOf g)).core + halfOf s g
/-- The pair region of a group. -/
def pairOf (s : State) (g : Nat) : Nat := coreOf s g / 2
/-- A group's launch is deterministic. -/
def isDet (s : State) (g : Nat) : Bool := (launchOf s g).det

/-! ### Memories as bytes -/

def memGet (m : List Host.Cell) (a : Nat) : Byte := nget 0 m a
def memSet (m : List Host.Cell) (a : Nat) (b : Byte) : List Host.Cell := nset 0 m a b
/-- The `n` bytes from an address upward. -/
def memRead (m : List Host.Cell) : Nat → Nat → List Byte
  | _, 0 => []
  | a, n + 1 => memGet m a :: memRead m (a + 1) n
/-- Write bytes from an address upward. -/
def memWrite (m : List Host.Cell) : Nat → List Byte → List Host.Cell
  | _, [] => m
  | a, b :: bs => memWrite (memSet m a b) (a + 1) bs
/-- The little-endian number of `n` bytes (R10). -/
def memNum (m : List Host.Cell) (a n : Nat) : Nat := ofBytes (memRead m a n)

/-- A team's local memory on one half. -/
def Team.mem (T : Team) (half : Nat) : List Host.Cell := if half = 0 then T.loc0 else T.loc1
def Team.setMem (T : Team) (half : Nat) (m : List Host.Cell) : Team :=
  if half = 0 then { T with loc0 := m } else { T with loc1 := m }
def Team.pois (T : Team) (half : Nat) : NMap Bool := if half = 0 then T.pois0 else T.pois1
def Team.setPois (T : Team) (half : Nat) (m : NMap Bool) : Team :=
  if half = 0 then { T with pois0 := m } else { T with pois1 := m }
def Team.fill (T : Team) (half : Nat) : NMap Filled := if half = 0 then T.fill0 else T.fill1
def Team.setFill (T : Team) (half : Nat) (m : NMap Filled) : Team :=
  if half = 0 then { T with fill0 := m } else { T with fill1 := m }

/-! ### Journal items (R35) -/

/-- A value as a number. -/
def Val.toNum : Val → Nat
  | .num x => x
  | .row _ => 0
/-- A value as a row. -/
def Val.toRow : Val → AccRow
  | .num _ => {}
  | .row r => r

/-- The value of an item. -/
def readItem (s : State) : Item → Val
  | .v g n l => .num (nget 0 (grp s g).v (n * 64 + l)).toNat
  | .p g n => .num (nget 0 (grp s g).p n).toNat
  | .u g n => .num (nget 0 (grp s g).u n).toNat
  | .t tk n => .num (nget 0 (team s tk).t n).toNat
  | .f g n => .num (nget 0 (grp s g).f n).toNat
  | .k g n => .num (nget 0 (grp s g).k n)
  | .depth g => .num (grp s g).depth
  | .rot g => let G := grp s g; .num ((G.rotN * 128 + G.rotL) * 128 + G.rotP)
  | .blocks g => .num (grp s g).blocks
  | .pool tk h => .num (if h = 0 then (team s tk).pool0 else (team s tk).pool1)
  | .bar tk n => .num (nget 0 (team s tk).bars n).toNat
  | .loc tk h ch => .num (memNum ((team s tk).mem h) (16 * ch) 16)
  | .locPois tk h gr => .num (b2n (nget false ((team s tk).pois h) gr))
  | .row c n => .row (nget {} (core s c).rows n)

/-- The state with an item's value replaced. -/
def writeItem (s : State) (it : Item) (x : Val) : State :=
  match it with
  | .v g n l => modGrp s g fun G => { G with v := nset 0 G.v (n * 64 + l) (BitVec.ofNat 32 x.toNum) }
  | .p g n => modGrp s g fun G => { G with p := nset 0 G.p n (BitVec.ofNat 64 x.toNum) }
  | .u g n => modGrp s g fun G => { G with u := nset 0 G.u n (BitVec.ofNat 64 x.toNum) }
  | .t tk n => modTeam s tk fun T => { T with t := nset 0 T.t n (BitVec.ofNat 64 x.toNum) }
  | .f g n => modGrp s g fun G => { G with f := nset 0 G.f n (BitVec.ofNat 128 x.toNum) }
  | .k g n => modGrp s g fun G => { G with k := nset 0 G.k n x.toNum }
  | .depth g => modGrp s g fun G => { G with depth := x.toNum }
  | .rot g => modGrp s g fun G =>
      { G with rotN := x.toNum / 128 / 128, rotL := x.toNum / 128 % 128, rotP := x.toNum % 128 }
  | .blocks g => modGrp s g fun G => { G with blocks := x.toNum }
  | .pool tk h => modTeam s tk fun T =>
      if h = 0 then { T with pool0 := x.toNum } else { T with pool1 := x.toNum }
  | .bar tk n => modTeam s tk fun T => { T with bars := nset 0 T.bars n (BitVec.ofNat 32 x.toNum) }
  | .loc tk h ch => modTeam s tk fun T =>
      T.setMem h (memWrite (T.mem h) (16 * ch) (toBytes 16 x.toNum))
  | .locPois tk h gr => modTeam s tk fun T => T.setPois h (nset false (T.pois h) gr (x.toNum ≠ 0))
  | .row c n => modCore s c fun C => { C with rows := nset {} C.rows n x.toRow }

/-! ### Named barriers and transaction-barrier objects as values (R210, R213, R214) -/

/-- LEFT, COUNT and PHASE of a named barrier (R210). -/
def barLeft (b : Nat) : Nat := nbits b 6 0
def barCount (b : Nat) : Nat := nbits b 13 7
def barPhase (b : Nat) : Nat := nbits b 21 14
def barMake (left count phase : Nat) : Nat := left % 128 + count % 128 * 2 ^ 7 + phase % 256 * 2 ^ 14

/-- One arrival at a named barrier, completing the phase at LEFT = 0 (R210). -/
def barArrive (b : Nat) : Nat :=
  if barCount b = 0 then b
  else
    let left := barLeft b - 1
    if left = 0 then barMake (barCount b) (barCount b) (barPhase b + 1)
    else barMake left (barCount b) (barPhase b)

/-- One drop from a named barrier (R210). -/
def barDrop (b : Nat) : Nat :=
  if barCount b = 0 then b
  else
    let count := barCount b - 1
    let left := barLeft b - 1
    if left = 0 then barMake count count (barPhase b + 1) else barMake left count (barPhase b)

/-- A transaction-barrier object (R213) as a structure; the object is 16 bytes. -/
structure TbObj where
  pend : Int
  left : Nat
  count : Nat
  phase : Nat
  kind : Nat
deriving DecidableEq, Repr

def tbOf (x : Nat) : TbObj :=
  ⟨sx 32 x, nbits x 47 32, nbits x 63 48, nbits x 95 64, nbits x 97 96⟩
def tbNum (o : TbObj) : Nat :=
  cut 32 o.pend + o.left % 2 ^ 16 * 2 ^ 32 + o.count % 2 ^ 16 * 2 ^ 48 + o.phase % 2 ^ 32 * 2 ^ 64 +
    o.kind % 4 * 2 ^ 96

/-- The completion test of R214. -/
def tbComplete (o : TbObj) : TbObj :=
  if o.left = 0 ∧ o.pend = 0 then { o with phase := (o.phase + 1) % 2 ^ 32, left := o.count, pend := 0 }
  else o

/-- One update of an object (R214): 0 TBINIT of a team object and 1 of a cluster object (x: count), 2 TBEXP
(x: bytes), 3 TBARR (x: bytes), 4 a copy's credit. PEND wraps in 32 bits. -/
def tbUpdate (op : Nat) (x : Int) (o : TbObj) : TbObj :=
  match op with
  | 0 => tbComplete ⟨0, x.toNat, x.toNat, 0, 1⟩
  | 1 => tbComplete ⟨0, x.toNat, x.toNat, 0, 2⟩
  | 2 => tbComplete { o with pend := sx 32 (cut 32 (o.pend + x)) }
  | 3 => tbComplete { o with pend := sx 32 (cut 32 (o.pend + x)), left := o.left - 1 }
  | _ => tbComplete { o with pend := sx 32 (cut 32 (o.pend - x)) }

/-! ### Atomics as functions of the old value (R151) -/

/-- Bytes of an atomic's type: 0 .i32, 1 .n32, 2 .i64, 3 .n64, 4 .f32. -/
def atomSize (ty : Nat) : Nat := if ty = 2 ∨ ty = 3 then 8 else 4

/-- The new value of an atomic (R151). -/
def atomNew (op ty old b c : Nat) : Nat :=
  let w := 8 * atomSize ty
  let sg : Bool := ty = 0 || ty = 2
  let rd (x : Nat) : Int := if sg then sx w x else zx w x
  if ty = 4 then
    match op with
    | 0 => fenc .f32 0 (fladd 0 (fdec .f32 old) (fdec .f32 b))
    | 1 => fminCode .f32 old b
    | 2 => fmaxCode .f32 old b
    | 6 => b
    | _ => if old = b then c else old
  else
    match op with
    | 0 => (old + b) % 2 ^ w
    | 1 => if rd b < rd old then b else old
    | 2 => if rd old < rd b then b else old
    | 3 => old &&& b
    | 4 => old ||| b
    | 5 => old ^^^ b
    | 6 => b
    | _ => if old = b then c else old

/-! ### The rollback journal (R35, R332) -/

/-- Replace `bytes` at offset `off` of a 16-byte chunk. -/
def chunkPut (x off : Nat) (bytes : List Byte) : Nat :=
  let n := bytes.length
  setBits x (8 * (off + n) - 1) (8 * off) (ofBytes bytes)

/-- A write's effect on an item's value. -/
def applyEff (e : Eff) (old : Val) : Val :=
  match e with
  | .set x => x
  | .part off bytes => if bytes.isEmpty then old else .num (chunkPut old.toNum off bytes)
  | .atom off op ty b c =>
    let n := atomSize ty
    let o := nbits old.toNum (8 * (off + n) - 1) (8 * off)
    .num (chunkPut old.toNum off (toBytes n (atomNew op ty o b c)))
  | .add x => .num ((old.toNum : Int) + x).toNat
  | .barArrive => .num (barArrive old.toNum)
  | .barDrop => .num (barDrop old.toNum)
  | .tb op x => .num (tbNum (tbUpdate op x (tbOf old.toNum)))
  | .addAt off n =>
    .num (setBits old.toNum (8 * off + 31) (8 * off) (nbits old.toNum (8 * off + 31) (8 * off) + n))
  | .clear => .num 0
  | .bits mask x => .num ((old.toNum &&& notBits 64 mask) ||| (x &&& mask))
  | .row e => .row (applyRow e old.toRow)

/-- An architectural write of a group: the item takes the effect, and the pair's journal logs it. -/
def jwrite (g seq : Nat) (it : Item) (e : Eff) (s : State) : State :=
  let old := readItem s it
  modPair (writeItem s it (applyEff e old)) (pairOf s g) fun P =>
    { P with journal := P.journal ++ [⟨g, seq, false, it, old, e⟩] }

/-- The journaled write of the word being executed. -/
def jw (c : Cur) (it : Item) (e : Eff) (s : State) : State := jwrite c.g c.w.seq it e s

/-- A write by an engine whose quantum is sealed (R196, R201): no rollback undoes it, so it is logged only
behind journaled writes of the same item. -/
def engineWrite (pr : Nat) (it : Item) (e : Eff) (s : State) : State :=
  let old := readItem s it
  let s' := writeItem s it (applyEff e old)
  if ((pair s pr).journal.any fun u => u.item = it) then
    modPair s' pr fun P => { P with journal := P.journal ++ [⟨0, 0, true, it, old, e⟩] }
  else s'

/-- The entries kept when a seal frees those of `dead`: they stay only behind live entries of their item. -/
def journalSeal (dead : Undo → Bool) : List Item → List Undo → List Undo
  | _, [] => []
  | live, u :: us =>
    if u.keep || dead u then
      if live.contains u.item then { u with keep := true } :: journalSeal dead live us
      else journalSeal dead live us
    else u :: journalSeal dead (u.item :: live) us

/-- The value an item takes when the entries of `gone` are undone: `v` is the value so far. -/
def undoValue (gone : Undo → Bool) (it : Item) : Val → List Undo → Val
  | v, [] => v
  | v, u :: us =>
    if u.item = it && !gone u then undoValue gone it (applyEff u.eff v) us else undoValue gone it v us

/-- The remaining entries, each with the value it now finds. -/
def undoEntries (gone : Undo → Bool) : List (Item × Val) → List Undo → List Undo
  | _, [] => []
  | vals, u :: us =>
    let old := ((vals.find? fun p => p.1 = u.item).map (·.2)).getD u.old
    if gone u then undoEntries gone ((u.item, old) :: vals) us
    else { u with old := old } :: undoEntries gone ((u.item, applyEff u.eff old) :: vals) us

/-- Undo the journal entries of `gone` on a pair (R332): each item they touched takes the value that the
other writes alone give it (R35). -/
def undoJournal (pr : Nat) (gone : Undo → Bool) (s : State) : State :=
  let J := (pair s pr).journal
  let items := (J.filter gone).map (·.item) |>.dedup
  let s1 := items.foldl (fun s it =>
    match J.find? fun u => u.item = it with
    | none => s
    | some u => writeItem s it (undoValue gone it u.old J)) s
  modPair s1 pr fun P => { P with journal := undoEntries gone [] J }

/-! ### Registers (R24, R28, R42) -/

/-- A lane register of a group of so many blocks lies in a rotating region of `N` registers (R28). -/
def inRegion (blocks N n : Nat) : Bool := decide (0 < N) && decide (8 * blocks - N ≤ n)

/-- The physical register of an architectural lane register under a rotation state: none where it is dead (R28). -/
def physRot (blocks : Nat) (r : Rot) (n : Nat) : Option Nat :=
  if inRegion blocks r.n n then
    let base := 8 * blocks - r.n
    if r.l ≤ n - base then none else some (base + (n - base + r.p) % r.n)
  else some n

/-- The same at the place of the word that runs now (R29). -/
def physReg (G : Group) (n : Nat) : Option Nat := physRot G.blocks G.map n

/-- The rotation state that the words executed so far have left. -/
def rotOf (G : Group) : Rot := ⟨G.rotN, G.rotL, G.rotP⟩

/-- vread(n, l) of R42. -/
def vread (s : State) (g n l : Nat) : Nat :=
  match physReg (grp s g) n with
  | none => 0
  | some m => (nget 0 (grp s g).v (m * 64 + l)).toNat

/-- A 64-bit value of the pair vn, vn+1 in a lane (R115). -/
def vread64 (s : State) (g n l : Nat) : Nat := vread s g n l + 2 ^ 32 * vread s g (n + 1) l

/-- vwrite(n, l, x) of R42. -/
def vwrite (c : Cur) (n l x : Nat) (s : State) : State :=
  match physReg (grp s c.g) n with
  | none => s
  | some m => jw c (.v c.g m l) (.set (.num (x % 2 ^ 32))) s

/-- Write a 64-bit value to a pair in a lane (R115). -/
def vwrite64 (c : Cur) (n l x : Nat) (s : State) : State :=
  vwrite c (n + 1) l (x / 2 ^ 32) (vwrite c n l x s)

/-- A predicate with the bits of the listed lanes replaced. -/
def predPut (old : Nat) (xs : List (Nat × Bool)) : Nat :=
  xs.foldl (fun a x => setBits a x.1 x.1 (b2n x.2)) old

def uread (s : State) (g n : Nat) : Nat := (nget 0 (grp s g).u n).toNat
def uwrite (c : Cur) (n x : Nat) (s : State) : State := jw c (.u c.g n) (.set (.num (x % 2 ^ 64))) s
def pread (s : State) (g n : Nat) : Nat := (nget 0 (grp s g).p n).toNat
/-- Write the listed lanes of a predicate; the other lanes keep their bits. -/
def pput (c : Cur) (n : Nat) (xs : List (Nat × Bool)) (s : State) : State :=
  jw c (.p c.g n) (.bits (predPut 0 (xs.map fun x => (x.1, true))) (predPut 0 xs)) s
def fread (s : State) (g n : Nat) : Nat := (nget 0 (grp s g).f n).toNat
def fwrite (c : Cur) (n x : Nat) (s : State) : State := jw c (.f c.g n) (.set (.num (x % 2 ^ 128))) s
def tread (s : State) (g n : Nat) : Nat := (nget 0 (team s (tkOf g)).t n).toNat
def kread (s : State) (g n : Nat) : Nat := nget 0 (grp s g).k n

/-- active_lanes(w) of R42, as a mask. -/
def activeLanes (s : State) (c : Cur) (f : Flds) : Nat :=
  let m := c.w.mask.toNat
  if f.ge then
    let g := pread s c.g f.gp
    if f.gn then m &&& notBits 64 g else m &&& g
  else m

/-- The active lanes, ascending. -/
def laneList (s : State) (c : Cur) (f : Flds) : List Nat := maskList 64 (activeLanes s c f)

/-- Write a value per lane to a lane register, in the listed lanes. -/
def vwriteLanes (c : Cur) (n : Nat) (xs : List (Nat × Nat)) (s : State) : State :=
  xs.foldl (fun s x => vwrite c n x.1 x.2 s) s
/-- The same for register pairs. -/
def vwriteLanes64 (c : Cur) (n : Nat) (xs : List (Nat × Nat)) (s : State) : State :=
  xs.foldl (fun s x => vwrite64 c n x.1 x.2 s) s

/-! ### The two slots and the divergence stack (R21, R22) -/

def slotOf (G : Group) (n : Nat) : Slot := if n = 0 then G.s0 else G.s1
def setSlot (G : Group) (n : Nat) (x : Slot) : Group :=
  if n = 0 then { G with s0 := x } else { G with s1 := x }

/-- The slots as they stand. -/
def snapOf (G : Group) : Snap := ⟨G.s0, G.s1, G.turn, G.plan⟩

/-- A word changes the slots: so do the slots that later words and boundaries have recorded (R332). -/
def slotsAfter (seq : Nat) (f : Snap → Snap) (G : Group) : Group :=
  let q (x : Quantum) : Quantum := if seq < x.lo then { x with snap := f x.snap } else x
  { G with
    snaps := G.snaps.map fun x => if seq < x.1 then (x.1, f x.2) else x
    qsnap := if seq < G.qlo then f G.qsnap else G.qsnap
    closed := G.closed.map q
    sealedQ := G.sealedQ.map q }

/-- One of the recorded slots replaced. -/
def Snap.setSlot (p : Snap) (n : Nat) (x : Slot) : Snap := if n = 0 then { p with s0 := x } else { p with s1 := x }

/-- A word replaces a slot of its group. -/
def putSlot (c : Cur) (n : Nat) (x : Slot) (s : State) : State :=
  modGrp s c.g fun G => slotsAfter c.w.seq (fun p => p.setSlot n x) (setSlot G n x)

/-- A word resolves its slot's next address (R77). Where a MARK has spilled its path, the address went with it (R109). -/
def resolve (c : Cur) (next : Nat) (s : State) : State :=
  if 2 ≤ c.w.slot then s
  else putSlot c c.w.slot { slotOf (grp s c.g) c.w.slot with addr := BitVec.ofNat 64 next, stopped := false } s

/-! ### Words in their queues (R76 to R80) -/

/-- The queue of an engine. -/
def queueOf (G : Group) (q : Nat) : List QWord := nget [] G.queues q
def setQueue (G : Group) (q : Nat) (ws : List QWord) : Group := { G with queues := nset [] G.queues q ws }

/-- Every word that waits in a queue. -/
def queued (G : Group) : List QWord := (List.range 8).flatMap (queueOf G)

/-- Every word that has its sequence number and has not started: those in queues, and those that are to be
fetched again (R86). -/
def unstarted (G : Group) : List QWord := queued G ++ G.refetch

/-- Two sets of lanes share a lane. -/
def lanesMeet (a b : Word64) : Bool := a &&& b ≠ 0

/-- The engine of an instruction word. -/
def engOf (i : Instr) : Nat :=
  match i.row with
  | none => 0
  | some r => r.eng

/-- The registers a word names (R30). -/
def regsOf (i : Instr) : List (Reg × Acc) :=
  match i.row with
  | none => []
  | some r => r.regs i.flds

/-- The word names a lane register (R76). -/
def namesLane (i : Instr) : Bool :=
  (regsOf i).any fun x => match x.1 with
    | .v _ => true
    | _ => false

/-- VROT or ROTCFG: it changes the rotation state (R29). -/
def isRot (i : Instr) : Bool :=
  match i with
  | .vrot _ => true
  | .rotcfg _ => true
  | _ => false

/-- GIVE or CLAIM (R76). -/
def isPool (i : Instr) : Bool :=
  match i with
  | .give _ => true
  | .giveX _ => true
  | .claim _ => true
  | .claimX _ => true
  | _ => false

def ordOf (i : Instr) : Bool :=
  match i.row with
  | none => false
  | some r => r.ord

/-- A register held once per lane, whose uses by words of different slots never meet (R21). -/
def laneReg (r : Reg) : Bool :=
  match r with
  | .v _ => true
  | .p _ => true
  | _ => false

/-- A use of a register by a word: a lane register by its physical number, and whether the word reads or writes lanes
beside its own (R133, R134, R136, R140). -/
structure Use where
  reg : Reg
  acc : Acc
  all : Bool
deriving DecidableEq, Repr

/-- The registers that a word reads in lanes beside its own: the A operand of LSHUF, LBCAST and LREAD. -/
def crossRegs (i : Instr) : List Reg :=
  match i.row with
  | none => []
  | some r => if r.cross then (fieldRegs r.a i.flds.a).map (·.1) else []

/-- The physical lane registers that a rotation word clears, under the rotation state before it: VROT the one that comes
to position 0 and the one that reaches the first dead position (R28, R140), ROTCFG its whole region (R222). -/
def rotClears (blocks : Nat) (r : Rot) (i : Instr) : List Nat :=
  match i with
  | .vrot _ =>
    let base := 8 * blocks - r.n
    let p := (r.p + r.n - 1) % r.n
    (base + p) :: (if r.l < r.n then [base + (r.l + p) % r.n] else [])
  | .rotcfg w => (List.range w.a.toNat).map (8 * blocks - w.a.toNat + ·)
  | _ => []

/-- The registers that a word uses, under the rotation state at its place (R29): a dead register is none. -/
def usesOf (blocks : Nat) (r : Rot) (i : Instr) : List Use :=
  (regsOf i).filterMap (fun x => match x.1 with
    | .v n => (physRot blocks r n).map fun m => ⟨.v m, x.2, x.2 = .r && (crossRegs i).contains (.v n)⟩
    | q => some ⟨q, x.2, false⟩) ++
  (rotClears blocks r i).map fun n => ⟨.v n, .w, true⟩

/-- Two uses of registers that R30 keeps in order: one of them writes. Words whose lanes differ have no lane register in
common, whichever slots they came from (R21, R109). -/
def useClash (sameLanes : Bool) (a b : List Use) : Bool :=
  a.any fun x => b.any fun y =>
    x.reg = y.reg && !(x.acc = .r && y.acc = .r) && (sameLanes || x.all || y.all || !laneReg x.reg)

/-- A ROTCFG whose guard is not yet known: what the words after it name in a rotating region waits for it. -/
def isGuardedRot (i : Instr) : Bool :=
  match i with
  | .rotcfg w => w.g.ge
  | _ => false

/-- The word names a lane register that the outcome of a guarded ROTCFG before it may move (R29). -/
def mayMove (blocks : Nat) (e w : QWord) : Bool :=
  isGuardedRot e.instr && (regsOf w.instr).any fun x => match x.1 with
    | .v n => inRegion blocks e.instr.flds.a n || inRegion blocks w.rot.n n
    | _ => false

/-- An earlier waiting word `e` of a group of so many blocks keeps a later word `w` from starting (R30). -/
def hazardQ (blocks : Nat) (e w : QWord) : Bool :=
  useClash (lanesMeet e.mask w.mask) (usesOf blocks e.rot e.instr) (usesOf blocks w.rot w.instr) ||
    (isRot e.instr && isRot w.instr) || mayMove blocks e w

/-- The word of a flight. -/
def Flight.word (f : Flight) : QWord :=
  match f.kind with
  | .load w .. => w
  | .held w => w
  | .late w => w

/-- An earlier started word whose destinations are still to be written does so (R30, R31). -/
def hazardF (blocks : Nat) (e : Flight) (w : QWord) : Bool :=
  let ds : List Use := e.dests.filterMap fun r => match r with
    | .v n => (physRot blocks e.word.rot n).map fun m => ⟨.v m, .w, false⟩
    | q => some ⟨q, .w, false⟩
  useClash (lanesMeet e.mask w.mask) ds (usesOf blocks w.rot w.instr)

/-- BDIV and EXIT wait for every earlier word of their own slot (R77). -/
def waitsSlot (i : Instr) : Bool :=
  match i with
  | .bdiv _ => true
  | .exit _ => true
  | _ => false

/-- A FENCE that is not known to be guarded off (R155). -/
def isFence (i : Instr) : Bool :=
  match i with
  | .fence _ => true
  | _ => false

/-- The queues that a FENCE orders: M, X, C and N (R155). -/
def fenced (q : Nat) : Bool := q = 2 || q = 3 || q = 4 || q = 6

/-- A waiting word whose guard can be read, and turns it off (R73). -/
def offNow (s : State) (g : Nat) (e : QWord) : Bool :=
  let G := grp s g
  e.instr.flds.ge && activeLanes s ⟨g, true, e⟩ e.instr.flds = 0 &&
    !((unstarted G).any fun x => decide (x.seq < e.seq) && hazardQ G.blocks x e) &&
    !(G.flights.any fun x => decide (x.seq < e.seq) && hazardF G.blocks x e)

/-- A word whose completion is an acquire event that orders every later memory access of the group (R257); BAR
and BARW are group-ordering words. -/
def isAcquire (i : Instr) : Bool :=
  match i with
  | .tbwait _ => true
  | .rwait _ => true
  | .pop _ => true
  | .lrcv _ => true
  | .lradd _ => true
  | .xpoll _ => true
  | _ => false

/-- A word of queue `q` that accesses memory for the group itself: an M word, the A reads of products and
XFLUSH (R179), a ring word of the group, a barrier object or a link message. Copies, ring posts, operator
cards and sum-tree commands are agents of their own (R248, R261). -/
def accessesMemory (q : Nat) (i : Instr) : Bool :=
  q = 2 || match i with
    | .xmma _ => true
    | .xmmac _ => true
    | .ximma _ => true
    | .xflush _ => true
    | .rinit _ => true
    | .rwait _ => true
    | .rrel _ => true
    | .rtail _ => true
    | .tbinit _ => true
    | .tbexp _ => true
    | .tbarr _ => true
    | .tbwait _ => true
    | .cqry w => w.flds.mod % 4 = 3
    | .lsnd _ => true
    | .lrcv _ => true
    | .lradd _ => true
    | _ => false

/-- The word may start now (R30, R77, R79, R80, R155, R257): nothing earlier holds it back. -/
def startable (i : Instr) (c : Cur) (s : State) : Bool :=
  let G := grp s c.g
  let qs := (queued G).filter fun e => e.seq < c.w.seq
  let fs := G.flights.filter fun e => e.seq < c.w.seq
  let q := engOf i
  let f := i.flds
  let w := { c.w with instr := i }
  !(qs.any fun e => engOf e.instr = q) &&
  !(qs.any fun e => hazardQ G.blocks e w) && !(fs.any fun e => hazardF G.blocks e w) &&
  !(qs.any fun e => ordOf e.instr) &&
  !(ordOf i && (!qs.isEmpty || !fs.isEmpty)) &&
  !(waitsSlot i && ((qs.any fun e => e.slot = c.w.slot || lanesMeet e.mask c.w.mask) ||
    (fs.any fun e => e.slot = c.w.slot || lanesMeet e.mask c.w.mask))) &&
  !(accessesMemory q i && (qs.any fun e => isAcquire e.instr)) &&
  !(fenced q && (qs.any fun e => isFence e.instr && !offNow s c.g e)) &&
  !(isFence i && !(f.ge && activeLanes s c f = 0) &&
    ((qs.any fun e => fenced (engOf e.instr)) || (fs.any fun e => fenced e.eng)))

/-- The places of an engine's queue that are taken (R76): its words, and words that have started and may still be put
back, as those held for their seal are (DESIGN CHOICE, log 140: R76 does not say when a started word frees its entry). -/
def queueLoad (G : Group) (q : Nat) : Nat :=
  (queueOf G q).length + (G.flights.filter fun f => f.eng = q && match f.kind with
    | .load .. => false
    | _ => true).length

/-! ### What a word's own effect answers -/

/-- The outcome of a word that has started. -/
inductive Res where
  /-- it has completed -/
  | done (s : State)
  /-- it stays at the head of its queue, with its wait cause and how far it has gone -/
  | wait (w : QWord) (s : State)
  /-- it has started, and completes later -/
  | fly (f : Flight) (s : State)
  /-- it traps: class, cause, TADDR and partial-completion mask; the word is saved as not started (R84) -/
  | trap (cls cause addr : Nat) (mask : Word64) (w : QWord) (s : State)
  /-- it raises a trap and completes as the trap is delivered (R240) -/
  | doneTrap (cls cause : Nat) (s : State)

/-- A wait with nothing changed but the cause. -/
def waitFor (c : Cur) (cause : Nat) (s : State) : Res := .wait { c.w with cause := cause } s
/-- A trap that leaves the word as it was. -/
def trapAs (c : Cur) (cls cause addr : Nat) (s : State) : Res := .trap cls cause addr 0 c.w s

/-! ### Finishing words -/

/-- A group with nothing left retires (R23). -/
def retireCheck (g : Nat) (s : State) : State :=
  modGrp s g fun G =>
    if !G.s0.valid && !G.s1.valid && G.depth = 0 && (unstarted G).isEmpty && G.flights.isEmpty &&
        G.handler.isNone then { G with retired := true }
    else G

/-- The oldest of some words. -/
def oldestWord : List QWord → Option QWord
  | [] => none
  | w :: ws =>
    match oldestWord ws with
    | some x => if x.seq < w.seq then some x else some w
    | none => some w

/-- The core records the cause of the oldest blocked word (R18); a word that has not been tried waits for
registers or for earlier words. -/
def noteWait (G : Group) : Group :=
  { G with waitCause := match oldestWord (queued G) with
      | some w => w.cause
      | none => 0 }

/-- Take the word away from the head of its queue, if it stood there. -/
def dequeue (c : Cur) (q : Nat) (s : State) : State :=
  modGrp s c.g fun G =>
    { noteWait (if c.retry then setQueue G q (queueOf G q).tail else G) with issuedAt := s.now }

/-- Put the word at the head of its queue. -/
def requeue (c : Cur) (i : Instr) (w : QWord) (s : State) : State :=
  let q := engOf i
  modGrp s c.g fun G =>
    let rest := if c.retry then (queueOf G q).tail else queueOf G q
    noteWait (setQueue G q ({ w with instr := i } :: rest))

/-- Count a retired word (R33). -/
def countRetired (c : Cur) (s : State) : State :=
  modGrp s c.g fun G => { G with qret := G.qret + 1 }

/-- A word has completed. -/
def finish (c : Cur) (i : Instr) (s : State) : State :=
  retireCheck c.g (countRetired c (dequeue c (engOf i) s))

/-! ### Trap classes (R321) -/

def clsIllop : Nat := 1
def clsMisalign : Nat := 2
def clsPage : Nat := 3
def clsRange : Nat := 4
def clsPoison : Nat := 5
def clsStack : Nat := 6
def clsClaimdl : Nat := 7
def clsPort : Nat := 8
def clsBkpt : Nat := 9
def clsSoft : Nat := 10
def clsDouble : Nat := 11
def clsLost : Nat := 12

/-- The class and cause may go to a handler (R321). -/
def toHandler (cls cause : Nat) : Bool :=
  cls = 1 || cls = 2 || (cls = 3 && cause ≠ 8) || cls = 4 || (6 ≤ cls && cls ≤ 10)

/-- TSTAT of a trap (R242). -/
def tstatOf (t : TrapRec) : Nat :=
  t.cls % 256 + t.cause % 2 ^ 24 * 2 ^ 8 + t.queue % 8 * 2 ^ 32 + t.slot % 2 * 2 ^ 35 +
    b2n t.pmode * 2 ^ 36

/-- Words in ascending sequence order. -/
def insertWord (w : QWord) : List QWord → List QWord
  | [] => [w]
  | x :: xs => if w.seq < x.seq then w :: x :: xs else x :: insertWord w xs
def sortWords (ws : List QWord) : List QWord := ws.foldr insertWord []

/-- Entry into the in-device handler (R322): the record is held, the trap registers take its values, the group
enters supervisor mode, slot 0 starts at TVEC + 16 × class with the trapping slot's mask, and slot 1 is
invalid. -/
def enterHandler (g : Nat) (t : TrapRec) (s : State) : State :=
  let tvec := (launchOf s g).tvec.toNat
  modGrp s g fun G =>
    { G with
      handler := some ⟨t, G.nextSeq, G.s0, G.s1, G.turn, sortWords (unstarted G)⟩
      queues := []
      refetch := []
      plan := rotOf G
      raised := none
      tstat := BitVec.ofNat 64 (tstatOf t)
      tseq := BitVec.ofNat 64 t.seq
      taddr := t.addr
      trec := BitVec.ofNat 64 (tvec + 256)
      supv := true
      turn := 0
      waitCause := 0
      s0 := ⟨BitVec.ofNat 64 (tvec + 16 * t.cls), t.smask, true, false⟩
      s1 := {} }

/-- A trap delivered to the host (R327): the dispatcher takes the first one, of traps that arrive together the
one of the lowest group; the trap registers take its values. -/
def enterHost (g : Nat) (t : TrapRec) (s : State) : State :=
  let tvec := (launchOf s g).tvec.toNat
  let s1 := modGrp s g fun G =>
    { G with
      raised := some t
      tstat := BitVec.ofNat 64 (tstatOf t)
      tseq := BitVec.ofNat 64 t.seq
      taddr := t.addr
      trec := BitVec.ofNat 64 (if tvec = 0 then 0 else tvec + 256) }
  modLaunch s1 (lkOf g) fun l =>
    { l with hostTrap := match l.hostTrap with
        | none => some (g, t)
        | some x => some x }

/-- An entry of a group's word. -/
def isGroupEntry (h : HB) : Bool :=
  match h.what with
  | .output .. => false
  | .image .. => false
  | _ => true

/-- A raised trap's own word, where it completes at the delivery (R240), is none that the trap leaves unstarted. -/
def finishing (G : Group) (w : QWord) : Bool :=
  match G.raised with
  | some r => r.fin && r.seq = w.seq
  | none => false

/-- The oldest sequence number among words that have not started and the words of a handler's record. -/
def oldestUnstarted (G : Group) : Nat :=
  (((unstarted G).filter fun w => !finishing G w).map (·.seq) ++ (match G.handler with
    | none => []
    | some h => h.saved.map (·.seq))).foldl min G.nextSeq

/-- A started word that cannot complete before the words that a trap leaves unstarted have run: a held word whose quantum
cannot be sealed before them (R32, R324), in deterministic mode also where its quantum has not closed, or a read whose
quantum is not known before them. -/
def stuckFlight (det : Bool) (G : Group) (f : Flight) : Bool :=
  match f.kind with
  | .load .. => false
  | .held _ => f.ok && (decide (oldestUnstarted G ≤ f.seq) || (det && decide (G.qlo ≤ f.seq)))
  | .late _ => true

/-- Every started word has completed, but those that the trap abandons (R84). -/
def settled (det : Bool) (G : Group) : Bool := G.flights.all (stuckFlight det G)

/-- The entry holds only lanes that its word had performed before its last start: none for any other word. -/
def earlierLanes (w : QWord) (h : HB) : Bool :=
  match h.what with
  | .atom _ _ _ lanes _ _ => lanes.all fun a => w.done.toNat.testBit a.lane
  | _ => false

/-- The words in flight that a trap cannot wait for are abandoned without effect: their entries leave the hold-back
buffer, and they are words not started (R84; DEDUCED, log 84). -/
def abandon (g : Nat) (s : State) : State :=
  let ws := (grp s g).flights.map fun f => (f.eng, f.word)
  if ws.isEmpty then s
  else
    let gone (h : HB) : Bool := h.g = g && isGroupEntry h &&
      ws.any fun x => x.2.seq = h.seq && !earlierLanes x.2 h
    modGrp (modPair s (pairOf s g) fun P => { P with hb := P.hb.filter fun h => !gone h }) g fun G =>
      ws.foldl (fun G x => setQueue G x.1 (insertWord x.2 (queueOf G x.1))) { G with flights := [] }

/-- The trapping word, a TRAP or BKPT, completes at the delivery of its own trap (R240): its slot goes on past its two
words. -/
def finishTrap (g : Nat) (t : TrapRec) (s : State) : State :=
  match (queueOf (grp s g) t.queue).find? fun w => t.fin && w.seq = t.seq with
  | none => s
  | some w =>
    let c : Cur := ⟨g, true, w⟩
    finish c w.instr (resolve c ((w.pc.toNat + 8) % 2 ^ 64) s)

/-- Deliver a raised trap once the started words have completed (R84, R322, R324, R327). -/
def deliver (g : Nat) (s : State) : State :=
  let G := grp s g
  match G.raised with
  | none => s
  | some t =>
    if !settled (isDet s g) G then s
    else
      let s1 := abandon g (finishTrap g t s)
      if G.handler.isSome then enterHost g { t with cls := clsDouble } s1
      else if toHandler t.cls t.cause && (launchOf s g).tvec ≠ 0 then enterHandler g t s1
      else enterHost g t s1

/-- Raise a trap: of several the one with the lowest sequence number is delivered (R84). -/
def raiseTrap (g : Nat) (t : TrapRec) (s : State) : State :=
  deliver g (modGrp s g fun G =>
    { G with raised := match G.raised with
        | none => some t
        | some r => if t.seq < r.seq then some t else some r })

/-- The record of a trap by the word being executed. -/
def trapRec (s : State) (c : Cur) (i : Instr) (cls cause addr : Nat) (mask : Word64) : TrapRec :=
  { cls := cls, cause := cause, queue := engOf i, slot := c.w.slot, pmode := (grp s c.g).supv,
    seq := c.w.seq, addr := BitVec.ofNat 64 addr, mask := mask, smask := c.w.mask }

/-- A flight keeps its word as the instruction that it is. -/
def Flight.named (i : Instr) (f : Flight) : Flight :=
  { f with kind := match f.kind with
      | .load w d ty unif addrs pieces => .load { w with instr := i } d ty unif addrs pieces
      | .held w => .held { w with instr := i }
      | .late w => .late { w with instr := i } }

/-- Carry out a word's outcome. -/
def applyRes (c : Cur) (i : Instr) (r : Res) : State :=
  match r with
  | .done s => finish c i s
  | .wait w s => requeue c i w s
  | .fly f s =>
    modGrp (dequeue c (engOf i) s) c.g fun G => { G with flights := G.flights ++ [f.named i] }
  | .trap cls cause addr mask w s =>
    raiseTrap c.g (trapRec s c i cls cause addr mask) (requeue c i w s)
  | .doneTrap cls cause s =>
    raiseTrap c.g { trapRec s c i cls cause 0 0 with fin := true } (requeue c i c.w s)

end Sys2Proof.Machine
end

