-- ==== Sys2Proof/Machine/RegMap.lean ====
section
/-!
DEFINITION. Sys2Proof/Machine/RegMap.lean: which memory-mapped registers there are, and how each answers a write
(R12, R280, R295, R299, R340, R358, R369, R375, R378, R381, R384, R386, R387, R393).
-/
namespace Sys2Proof.Machine

/-! ### Which registers there are (R369) -/

/-- How a register answers a write: not at all, in the bits of a mask, by an action, or by clearing bits. -/
inductive RegKind where
  | ro
  | rw (mask : Nat)
  | wo
  | w1c
deriving DecidableEq, Repr

/-- Bits `hi` to `lo` as a mask. -/
def bitMask (hi lo : Nat) : Nat := 2 ^ (hi + 1) - 2 ^ lo
def allBits : Nat := 2 ^ 64 - 1

/-- The dispatcher's registers (R299, R340). -/
def dispReg (o : Nat) : Option RegKind :=
  match o with
  | 0x00 => some (.rw 1)
  | 0x08 => some .wo
  | 0x10 => some (.rw allBits)
  | 0x18 => some .wo
  | 0x20 => some .wo
  | 0x28 => some .ro
  | 0x40 => some (.rw 0x3F)
  | 0x48 => some (.rw allBits)
  | 0x50 => some (.rw allBits)
  | 0x58 => some .ro
  | 0x60 => some .ro
  | 0x80 => some (.rw allBits)
  | 0x88 => some (.rw (bitMask 31 0))
  | 0x90 => some .ro
  | 0x98 => some .wo
  | 0xA0 => some (.rw allBits)
  | 0xA8 => some .ro
  | 0x100 => some .ro
  | 0x108 => some .ro
  | 0x110 => some .ro
  | 0x118 => some .ro
  | 0x120 => some .ro
  | 0x128 => some .wo
  | _ => none

/-- The writable bits of 64-bit word `w` of a card (R295). -/
def cardMask (w : Nat) : Nat :=
  match w with
  | 0 => allBits - bitMask 7 4 - bitMask 22 22 - bitMask 63 60
  | 5 => bitMask 31 0
  | 11 => bitMask 31 0
  | 12 => 0
  | 13 => 0
  | 14 => 0
  | 15 => 0
  | _ => allBits

/-- The memory system's registers (R280, R288). -/
def memReg (o : Nat) : Option RegKind :=
  if o < 0x200 then some (.rw 0xFFFF)
  else if o < 0x400 then some (.rw (bitMask 32 0))
  else if o < 0x600 then some .ro
  else if 0x800 ≤ o ∧ o < 0x1000 then
    (match o / 8 % 4 with
      | 0 => some (.rw (bitMask 51 10))
      | 1 => some (.rw (bitMask 51 7))
      | 2 => some (.rw 3)
      | _ => none)
  else match o with
  | 0x600 => some .ro
  | 0x608 => some .ro
  | 0x610 => some (.rw allBits)
  | 0x1000 => some (.rw (bitMask 8 0))
  | 0x1008 => some (.rw allBits)
  | 0x1100 => some (.rw allBits)
  | 0x1108 => some (.rw (bitMask 31 0))
  | 0x1110 => some .ro
  | 0x1118 => some .wo
  | 0x1120 => some .ro
  | 0x1200 => some (.rw allBits)
  | 0x1208 => some (.rw (bitMask 4 0))
  | 0x1210 => some .ro
  | 0x1218 => some (.rw (bitMask 31 0))
  | _ => none

/-- The tree table's registers (R358). -/
def treeRegKind (o : Nat) : Option RegKind :=
  if o < 0x1000 then
    (match o / 8 % 8 with
      | 0 => some (.rw allBits)
      | 1 => some (.rw (bitMask 10 0 + bitMask 63 32))
      | 2 => some (.rw (bitMask 31 0))
      | 3 => some (.rw allBits)
      | _ => some .ro)
  else if o = 0x1000 ∨ o = 0x1008 then some .ro
  else none

/-- The registers of the links (R375). -/
def linkReg (o : Nat) : Option RegKind :=
  if o = 0x400 then some (.rw 3)
  else if 0x400 ≤ o then none
  else match o % 0x100 with
  | 0x00 => some (.rw 3)
  | 0x08 => some .ro
  | 0x10 => some .ro
  | 0x18 => some .ro
  | 0x20 => some .ro
  | 0x28 => some .ro
  | _ => none

/-- The time unit's registers (R378). -/
def timeReg (o : Nat) : Option RegKind :=
  match o with
  | 0x00 => some .ro
  | 0x08 => some .ro
  | 0x10 => some .wo
  | 0x18 => some (.rw (bitMask 13 0))
  | 0x20 => some .ro
  | 0x28 => some .ro
  | _ => none

/-- The ingest engines' registers (R381). -/
def ingestReg (o : Nat) : Option RegKind :=
  if 0x800 ≤ o then none
  else match o % 0x100 with
  | 0x00 => some (.rw (bitMask 20 0))
  | 0x08 => some (.rw allBits)
  | 0x10 => some (.rw (bitMask 51 0))
  | 0x18 => some (.rw allBits)
  | 0x20 => some .ro
  | _ => none

/-- The Ethernet ports' registers (R384). -/
def ethReg (o : Nat) : Option RegKind :=
  if 0x4000 ≤ o then none
  else match o % 0x1000 with
  | 0x00 => some (.rw (bitMask 7 0))
  | 0x08 => some (.rw (bitMask 51 0 + bitMask 59 56))
  | 0x10 => some (.rw (bitMask 31 0))
  | 0x18 => some .ro
  | 0x20 => some (.rw (bitMask 51 0 + bitMask 59 56))
  | 0x28 => some (.rw (bitMask 31 0))
  | 0x30 => some .ro
  | _ => none

/-- The PCI Express controls (R386). -/
def pciReg (o : Nat) : Option RegKind :=
  if 0x400 ≤ o then none
  else match o % 0x100 with
  | 0x00 => some (.rw (bitMask 6 0))
  | 0x08 => some (.rw (bitMask 5 0))
  | 0x10 => some (.rw (bitMask 51 30 + bitMask 59 56))
  | 0x18 => some .ro
  | _ => none

/-- The host interrupt registers (R387). -/
def hostReg (o : Nat) : Option RegKind :=
  if o = 0 then some .w1c
  else if o = 8 then some (.rw 0xFF)
  else if 0x100 ≤ o ∧ o < 0x180 then
    (match o % 16 with
      | 0 => some (.rw (bitMask 51 2))
      | 8 => some (.rw (bitMask 31 0))
      | _ => none)
  else none

/-- The power, wake and mailbox registers (R393). -/
def powerReg (o : Nat) : Option RegKind :=
  match o with
  | 0x00 => some .wo
  | 0x08 => some .ro
  | 0x10 => some .wo
  | 0x18 => some .ro
  | 0x20 => some .ro
  | 0x28 => some (.rw allBits)
  | 0x30 => some (.rw allBits)
  | 0x38 => some .ro
  | 0x40 => some (.rw (bitMask 15 0))
  | 0x48 => some (.rw (bitMask 51 24))
  | 0x50 => some .ro
  | 0x58 => some .wo
  | 0x60 => some (.rw allBits)
  | 0x80 => some .wo
  | 0x88 => some (.rw allBits)
  | 0x90 => some .ro
  | _ => none

/-- The register at an offset, if a block defines one there (R369). -/
def regKind (off : Nat) : Option RegKind :=
  if off % 8 ≠ 0 then none
  else if 0x10000 ≤ off ∧ off < 0x90000 then some (.rw (cardMask ((off - 0x10000) / 8 % 16)))
  else match off / 0x10000 with
  | 0x00 => dispReg off
  | 0x10 => memReg (off % 0x10000)
  | 0x11 => treeRegKind (off % 0x10000)
  | 0x12 => linkReg (off % 0x10000)
  | 0x13 => timeReg (off % 0x10000)
  | 0x14 => ingestReg (off % 0x10000)
  | 0x15 => ethReg (off % 0x10000)
  | 0x16 => pciReg (off % 0x10000)
  | 0x17 => hostReg (off % 0x10000)
  | 0x18 => powerReg (off % 0x10000)
  | _ => none

/-- The configuration space of the root ports (R369). -/
def isEcam (off : Nat) : Bool := decide (0x10000000 ≤ off)

end Sys2Proof.Machine
end

