-- ==== Sys2Proof/Machine/RegFile.lean ====
section
/-!
DEFINITION. Sys2Proof/Machine/RegFile.lean: the physical address map (R368), memory-mapped registers with their reset
values, and what a register reads (R12, R280, R299, R340, R358, R369, R375 to R393).
-/
namespace Sys2Proof.Machine

/-! ### Physical addresses (R368) -/

/-- A memory-mapped register's value, `d` until it is written. -/
def mmr (s : State) (off d : Nat) : Nat := (nget (BitVec.ofNat 64 d) s.mmr off).toNat
def setMmr (s : State) (off x : Nat) : State := { s with mmr := nput s.mmr off (BitVec.ofNat 64 x) }

/-- DEVID (R375): this device's number, and the devices present; its reserved bits read as 0 (R12). -/
def rDevid : Nat := 0x120400
def devid (s : State) : Nat := mmr s rDevid Config.devidStrap &&& 0xF3
def deviceNo (s : State) : Nat := devid s % 4
/-- The devices present name only this one (R375). -/
def soleDevice (s : State) : Bool := [0, 1, 2, 4, 8].contains (nbits (devid s) 7 4)
def devPresent (s : State) (d : Nat) : Bool := d = deviceNo s || (!soleDevice s && (devid s).testBit (4 + d))

/-- What lies at a physical address. -/
inductive PaKind where
  | dram
  | pcie
  | remote (dev : Nat)
  | reg (off : Nat)
  | hole
deriving DecidableEq, Repr

def paKind (s : State) (pa : Nat) : PaKind :=
  let r := pa / 2 ^ 48
  if r = 0 then (if pa < Config.dramBytes then .dram else .hole)
  else if r = 1 then .pcie
  else if 4 ≤ r ∧ r ≤ 7 then
    (if devPresent s (r - 4) && deviceNo s ≠ r - 4 then .remote (r - 4) else .hole)
  else if Config.regBase ≤ pa ∧ pa < Config.regBase + 0x50000000 then .reg (pa - Config.regBase)
  else .hole

/-! ### Links to other devices (R233, R373, R375) -/

/-- LKSTAT of link n (R375). -/
def lkstat (s : State) (n : Nat) : Nat := mmr s (0x120008 + 0x100 * n) 0
def linkUp (s : State) (n : Nat) : Bool := (lkstat s n).testBit 0
def linkPeerDev (s : State) (n : Nat) : Nat := nbits (lkstat s n) 2 1

/-- The link on which messages to a device leave in hardware mode: the direct link, else the link to the
lowest-numbered device that links both ends (R233). -/
def hwRoute (s : State) (d : Nat) : Option Nat :=
  match (List.range 4).find? fun n => linkUp s n && linkPeerDev s n = d with
  | some n => some n
  | none =>
    (List.range 4).findSome? fun e => if Config.linked e d then
      (List.range 4).find? fun n => linkUp s n && linkPeerDev s n = e else none

/-- The link that a device is reached over, up or down: where writes that it loses are counted. -/
def linkToward (s : State) (d : Nat) : Nat :=
  ((List.range 4).find? fun n => linkPeerDev s n = d && lkstat s n ≠ 0).getD
    (((List.range 4).find? fun n => lkstat s n ≠ 0 && Config.linked (linkPeerDev s n) d).getD 0)

/-- LKLOST of a link counts a write or message that is discarded (R373, R375). -/
def loseOn (n : Nat) (s : State) : State := setMmr s (0x120020 + 0x100 * n) (mmr s (0x120020 + 0x100 * n) 0 + 1)

/-- The sender has stopped a link's channel (R374). -/
def chanStopped (s : State) (n ch : Nat) : Bool := s.linkStop.testBit (4 * n + ch)

/-- A request to a physical address on link channel `ch` waits: the link that leads there has stopped the channel (R374).
Memory requests go on channel 0. -/
def linkHoldsOn (s : State) (ch pa : Nat) : Bool :=
  match paKind s pa with
  | .remote d => match hwRoute s d with
    | some n => chanStopped s n ch
    | none => false
  | _ => false
def linkHolds (s : State) (pa : Nat) : Bool := linkHoldsOn s 0 pa

/-- The address always performs as memory type device (R368). -/
def paDevice (s : State) (pa : Nat) : Bool :=
  match paKind s pa with
  | .pcie => true
  | .reg _ => true
  | _ => false

/-- The memory system block (R280, R369). -/
def mBase : Nat := 0x100000
def rL2way (n : Nat) : Nat := mBase + 8 * n
def rCecount : Nat := mBase + 0x600
def rUecount : Nat := mBase + 0x608
def rCtx (n w : Nat) : Nat := mBase + 0x800 + 32 * n + 8 * w

/-- Count one in a register of 64 bits. -/
def bump (off n : Nat) (s : State) : State := setMmr s off (mmr s off 0 + n)

/-- UECOUNT counts one, and the safety island learns of it (R277, R388). -/
def countUe (s : State) : State :=
  bump rUecount 1 { s with island := { s.island with ueEvents := s.island.ueEvents + 1 } }

/-! ### Register offsets (R369) -/

def rDctl : Nat := 0x0000
def rArmTime : Nat := 0x0010
def rArmStat : Nat := 0x0028
def rDutySel : Nat := 0x0040
def rAdmCore : Nat := 0x0048
def rAdmBw : Nat := 0x0050
def rAdmUseC : Nat := 0x0058
def rAdmUseB : Nat := 0x0060
def rDrBase : Nat := 0x0080
def rDrHead : Nat := 0x0088
def rDrTail : Nat := 0x0090
def rDrReply1 : Nat := 0x00A0
def rDrIgn : Nat := 0x00A8
def rQuar : Nat := 0x0100
def rRetired : Nat := 0x0108
def rSpares : Nat := 0x0110
def rScanStat : Nat := 0x0118
def rMismatch : Nat := 0x0120
def rScrub : Nat := 0x100610
def rTlbInv : Nat := 0x101000
def rTlbInvAddr : Nat := 0x101008
def rFrBase : Nat := 0x101100
def rFrHead : Nat := 0x101108
def rFrTail : Nat := 0x101110
def rFrIgn : Nat := 0x101120
def rTReject : Nat := 0x111000
def rLk (n off : Nat) : Nat := 0x120000 + 0x100 * n + off
def rTStat : Nat := 0x130008
def rTSync : Nat := 0x130018
def rTOffset : Nat := 0x130020
def rTRate : Nat := 0x130028
def rIng (k off : Nat) : Nat := 0x140000 + 0x100 * k + off
def rEth (p off : Nat) : Nat := 0x150000 + 0x1000 * p + off
def rPci (i off : Nat) : Nat := 0x160000 + 0x100 * i + off
def rHiStat : Nat := 0x170000
def rHiEn : Nat := 0x170008
def rSuspStat : Nat := 0x180018
def rSuspTime : Nat := 0x180020
def rResAlarm : Nat := 0x180028
def rTdpw : Nat := 0x180030
def rTemp : Nat := 0x180038
def rThrot : Nat := 0x180040
def rOchWin : Nat := 0x180048
def rBootStat : Nat := 0x180050
def rHbTmo : Nat := 0x180060
def rMbAddr : Nat := 0x180088
def rMbStat : Nat := 0x180090

/-- A register's value at reset. -/
def regReset (off : Nat) : Nat :=
  if off = rAdmCore then 32768
  else if off = rAdmBw then 10368000
  else if off = rSpares then Config.sparesFused
  else if 0x100000 ≤ off ∧ off < 0x100200 then 0xFFFF
  else if off = rScrub then 24
  else if 0x110000 ≤ off ∧ off < 0x111000 ∧ off % 64 = 40 then 0xFFFFFFFF
  else if off = rDevid then Config.devidStrap
  else if off = rTdpw then 220
  else if off = rThrot then 1680
  else 0

/-- A register's stored value. -/
def reg (s : State) (off : Nat) : Nat := mmr s off (regReset off)
def setReg (s : State) (off x : Nat) : State := setMmr s off x

/-- Count in a register of 64 bits. -/
def countReg (off n : Nat) (s : State) : State := setReg s off (reg s off + n)

/-! ### What a register reads (R12, R377, R378) -/

/-- The time master (R377): the lowest-numbered present device that holds IEEE 1588 lock, or device 0 when none does. -/
def timeMaster (s : State) : Nat :=
  let locked (d : Nat) : Bool :=
    if d = deviceNo s then (reg s rTStat).testBit 0 else devPresent s d && Config.peerLocked d s.now
  ((List.range 4).find? locked).getD 0

/-- This device is the time master. -/
def isMaster (s : State) : Bool := timeMaster s = deviceNo s

/-- The device that this one takes its time from (R377): the master where a link reaches it, else the lowest-numbered
linked device that holds TLOCK. -/
def timeSource (s : State) : Option Nat :=
  let near (d : Nat) : Bool := (List.range 4).any fun n => linkUp s n && linkPeerDev s n = d
  if near (timeMaster s) then some (timeMaster s)
  else (List.range 4).find? fun d => near d && Config.peerAligned d s.now

/-- The value that a register reads. -/
def regRead (s : State) (off : Nat) : Nat :=
  match regKind off with
  | some .wo => 0
  | some (.rw _) =>
    if 0x10000 ≤ off ∧ off < 0x90000 then
      let w := (off - 0x10000) / 8
      nbits (nget 0 s.cards (w / 16)).toNat (64 * (w % 16) + 63) (64 * (w % 16))
    else if off = rDevid then devid s
    else reg s off
  | some _ =>
    if off = 0x111008 then s.treeBusy
    else if off = 0x130000 then s.now
    else if off = rTStat then reg s off % 4 + 4 * b2n (decide (4 < s.island.stage) && isMaster s)
    else if off = 0x180008 then s.wakeReq
    else if 0x140000 ≤ off ∧ off < 0x140800 then
      let e := nget {} s.ingest ((off - 0x140000) / 0x100)
      e.frames % 2 ^ 32 + e.drops % 2 ^ 32 * 2 ^ 32
    else reg s off
  | none => 0

/-- An access that one register takes: aligned, of a size R12 lists, and where a block defines a register. -/
def regFits (off n : Nat) : Bool :=
  (n = 1 || n = 2 || n = 4 || n = 8) && off % n = 0 && (regKind (off / 8 * 8)).isSome

/-- Read `n` bytes of the register region; none where no register takes the access (R278). -/
def regLoad (s : State) (off n : Nat) : Option Nat :=
  if isEcam off then some (Config.freeValue (s.ticks + off))
  else if regFits off n then
    some (nbits (regRead s (off / 8 * 8)) (8 * (off % 8 + n) - 1) (8 * (off % 8)))
  else none

end Sys2Proof.Machine
end

