-- ==== Sys2Proof/Machine/Memory.lean ====
section
/-!
DEFINITION. Sys2Proof/Machine/Memory.lean: global memory as the L2 and DRAM hold it (R252, R267 to R278),
address translation (R281 to R290), what a pair region forwards from its hold-back buffers (R253, R270),
and local addresses with their stash windows and range locks (R144, R158 to R166).
-/
namespace Sys2Proof.Machine

/-! ### Memory at the L2 (R252, R272, R273, R277, R278) -/

/-- The sector is poisoned (R277), there is nothing at its address (R278), or no link leads to it (R373). -/
def isPoison (s : State) (pa : Nat) : Bool :=
  match paKind s pa with
  | .dram => nget false s.poison (pa / 64)
  | .hole => true
  | .remote d => (hwRoute s d).isNone
  | .reg off => !isEcam off && (regKind (off / 8 * 8)).isNone
  | .pcie => false

/-- The bytes that coherent agents read. -/
def l2Read (s : State) (pa n : Nat) : List Byte := memRead s.mem pa n

/-- Read bytes that lie in one sector: none where the sector is poisoned or holds nothing (R277, R278). -/
def busRead (s : State) (pa n : Nat) : Option Nat :=
  match paKind s pa with
  | .reg off => regLoad s off n
  | .hole => none
  | _ => if isPoison s pa then none else some (ofBytes (l2Read s pa n))

/-- The 16 MiB of physical addresses that the ochre SRAM stores in place of DRAM (R397): base, and whether an address
lies there. -/
def ochreWin (s : State) : Nat := mmr s rOchWin 0
def inWindow (w pa : Nat) : Bool := decide (w ≤ pa) && decide (pa < w + 2 ^ 24)

/-! ### Regulators (R276, R279) -/

/-- The home agent of a physical address (R276). -/
def homeOf (pa : Nat) : Nat :=
  (nbits pa 12 8 ^^^ nbits pa 17 13 ^^^ nbits pa 22 18 ^^^ nbits pa 27 23 ^^^ nbits pa 32 28 ^^^ nbits pa 37 33) / 2

/-- The window of a time. -/
def windowOf (t : Nat) : Nat := t / 10000

def rRegLim (n : Nat) : Nat := mBase + 0x200 + 8 * n
def rRegDef (n : Nat) : Nat := mBase + 0x400 + 8 * n

/-- A regulator's next window opens: the count above BYTES carries, REGLIM as it stands takes effect, and deferred
reads are served first. -/
def nextWindow (s : State) (pid : Nat) (r : Regulator) : Regulator :=
  let carry := if r.en then r.bytes - r.limit else 0
  let lim := mmr s (rRegLim pid) 0
  let limit := lim % 2 ^ 32
  let en := lim.testBit 32
  let n := if en then min r.deferred ((limit - carry) / 64) else r.deferred
  { r with
    win := if carry = 0 && r.deferred = 0 then windowOf s.now else r.win + 1
    bytes := carry + 64 * n
    deferred := r.deferred - n
    served := r.served + n
    limit := limit
    en := en }

/-- The regulator of a home agent and PARTID, as its present window finds it. -/
def regulatorAt (s : State) (key : Nat) : Regulator :=
  let lim := mmr s (rRegLim (key % 64)) 0
  nget { win := windowOf s.now, limit := lim % 2 ^ 32, en := lim.testBit 32 } s.regulators key

/-- The windows that have ended since a regulator was last touched, one by one; `fuel` bounds them. -/
def catchUpAux (s : State) (pid : Nat) : Nat → Regulator → Regulator
  | 0, r => r
  | fuel + 1, r => if r.win < windowOf s.now then catchUpAux s pid fuel (nextWindow s pid r) else r
def catchUp (s : State) (pid : Nat) (r : Regulator) : Regulator := catchUpAux s pid (windowOf s.now - r.win) r

/-- Traffic of no partition: table walks, A and D updates and the scrubber, which no regulator charges (R279). -/
def noPartid : Nat := 64

/-- A PARTID's traffic at a home agent is counted: its regulator has been enabled at some time. -/
def regulated (s : State) (pa pid : Nat) : Bool :=
  decide (pid < noPartid) && !inWindow (ochreWin s) pa &&
    ((nfind s.regulators (homeOf pa * 64 + pid)).isSome || mmr s (rRegLim pid) 0 ≠ 0)

/-- A card's window has passed its bandwidth budget, which has not been raised for it (R316): BUDEN, BWBUDGET. -/
def bwOver (s : State) (n : Nat) : Bool :=
  let x := (nget 0 s.cards n).toNat
  let R := nget {} s.runs n
  x.testBit 21 && decide (nbits x 319 288 ≠ 0) && decide (nbits x 319 288 < R.bwBytes) && R.bwRaised ≠ some R.bwWin

/-- 64 bytes of DRAM traffic in this window count against a card's bandwidth budget (R316). -/
def chargeBw (n : Nat) (s : State) : State :=
  let R := nget {} s.runs n
  let w := windowOf s.now
  let R1 := if R.bwWin = w then { R with bwBytes := R.bwBytes + 64 }
    else { R with bwWin := w, bwBytes := 64, bwDue := R.bwDue + b2n (bwOver s n) }
  { s with runs := nput s.runs n R1 }

/-- The card of an account, if it has one, is charged. -/
def chargeCardBw (a : Nat) (s : State) : State :=
  match acctCard a with
  | some n => chargeBw n s
  | none => s

/-- A DRAM read or write of one sector charges its PARTID (R279) and the card whose traffic it is (R316); one of the
ochre SRAM charges none. -/
def chargeDram (pa account : Nat) (s0 : State) : State :=
  if inWindow (ochreWin s0) pa then s0 else
  let s := chargeCardBw account s0
  let pid := acctPid account
  if !regulated s pa pid then s
  else
    let key := homeOf pa * 64 + pid
    let r := catchUp s pid (regulatorAt s key)
    { s with regulators := nput s.regulators key { r with bytes := r.bytes + 64 } }

/-! ### Lines of the L2 and the L1 (R267, R272, R273) -/

/-- The exclusive or of `n` fields of `w` bits from bit `lo` up. -/
def xorFields (x lo w n : Nat) : Nat :=
  (List.range n).foldl (fun a i => a ^^^ nbits x (lo + w * i + w - 1) (lo + w * i)) 0

/-- The slice and the set of a line (R272). -/
def l2Slice (pa : Nat) : Nat := xorFields pa 7 5 9
def l2Set (pa : Nat) : Nat := nbits pa 17 7 ^^^ nbits pa 28 18

/-- The line's sector is valid in the L2. -/
def l2Valid (s : State) (pa : Nat) : Bool :=
  match nfind s.l2 (pa / 128) with
  | some L => if pa % 128 < 64 then L.v0 else L.v1
  | none => false

/-- Every L1 drops its copy of a line (R267). -/
def dropL1 (line : Nat) (s : State) : State :=
  { s with cores := s.cores.map fun x => (x.1, { x.2 with l1c := x.2.l1c.filter fun y => y.1 / 2 ≠ line }) }

/-- The account that a line's traffic is charged to. -/
def L2Line.acct (L : L2Line) : Nat :=
  match L.card with
  | some n => Sys2Proof.Machine.acct L.partid n
  | none => L.partid

/-- A sector leaves the L2: a dirty one is written back, and where DRAM was written beneath a clean one, what
DRAM holds is what agents read from now on (R272, R275). -/
def dropSector (sec partid : Nat) (s : State) : State :=
  match nfind s.dirty sec with
  | none => s
  | some d =>
    let s1 : State := { s with dirty := ndel s.dirty sec }
    if d.drop then
      { s1 with
        mem := memWrite s1.mem (64 * sec) d.bytes
        poison := if d.pois then nset false s1.poison sec true else ndel s1.poison sec }
    else chargeDram (64 * sec) partid s1

/-- A sector's L2 copy is dirty. -/
def l2Dirty (s : State) (sec : Nat) : Bool :=
  match nfind s.dirty sec with
  | some d => !d.drop
  | none => false

/-- A clean sector is invalidated in the L2 and every L1, and its next access fetches it again (R336). -/
def invalidateSector (sec : Nat) (s : State) : State :=
  let s1 := dropL1 (sec / 2) (dropSector sec noPartid s)
  match nfind s1.l2 (sec / 2) with
  | some L => { s1 with l2 := nput s1.l2 (sec / 2) (if sec % 2 = 0 then { L with v0 := false } else { L with v1 := false }) }
  | none => s1

/-- A line leaves the L2, and with it every L1 copy (R268). -/
def evictLine (line : Nat) (s : State) : State :=
  match nfind s.l2 line with
  | none => s
  | some L =>
    let s1 := dropL1 line (dropSector (2 * line + 1) L.acct (dropSector (2 * line) L.acct s))
    { s1 with l2 := ndel s1.l2 line }

/-- Every line leaves the L2. -/
def flushL2 (s : State) : State := (s.l2.map (·.1)).foldl (fun s line => evictLine line s) s

/-- The ways of a line's set that lines occupy: way, line, and whether it is the first candidate. -/
def waysTaken (s : State) (pa : Nat) : List (Nat × Nat × Bool) :=
  s.l2.filterMap fun x =>
    if l2Slice (128 * x.1) = l2Slice pa && l2Set (128 * x.1) = l2Set pa then some (x.2.way, x.1, x.2.low) else none

/-- The way that a miss allocates among those that its PARTID's mask permits (R273), and the line that leaves it:
an empty way, else one of those that are first candidates (R143), else any; which of several is free. -/
def pickWay (s : State) (pa partid : Nat) : Option (Nat × Option Nat) :=
  let ways := maskList 16 (if partid = noPartid then 0xFFFF else mmr s (rL2way (acctPid partid)) 0xFFFF)
  let taken := waysTaken s pa
  match ways.find? fun w => !(taken.any fun x => x.1 = w) with
  | some w => some (w, none)
  | none =>
    let mine := taken.filter fun x => ways.contains x.1
    let low := mine.filter fun x => x.2.2
    let from_ := if low.isEmpty then mine else low
    (from_[Config.freeValue (s.ticks + pa) % from_.length]?).map fun x => (x.1, some x.2.1)

/-- A coherent access of a sector of DRAM reaches the L2: it hits, or it fills the sector in a way that its
PARTID's mask permits (R272, R273); with no permitted way it passes through. `low` marks a streaming access, and
`charge` says that its read of DRAM has not been charged yet. -/
def l2FillBy (charge : Bool) (pa partid : Nat) (low : Bool) (s : State) : State :=
  match paKind s pa with
  | .dram =>
    if l2Valid s pa then s
    else
      let s1 := if charge then chargeDram pa partid s else s
      let mark (L : L2Line) : L2Line := if pa % 128 < 64 then { L with v0 := true } else { L with v1 := true }
      (match nfind s1.l2 (pa / 128) with
        | some L => { s1 with l2 := nput s1.l2 (pa / 128) (mark L) }
        | none =>
          match pickWay s1 pa partid with
          | none => s1
          | some (w, out) =>
            let s2 := match out with
              | some line => evictLine line s1
              | none => s1
            { s2 with l2 := nput s2.l2 (pa / 128) (mark
              { way := w, partid := acctPid partid, card := acctCard partid, low := low }) })
  | _ => s

def l2Fill (pa partid : Nat) (low : Bool) (s : State) : State := l2FillBy true pa partid low s

/-- A read of a sector reaches the L2 under a memory type (R286): a device-type one allocates nothing. -/
def fillAs (charge : Bool) (mt pa pid : Nat) (s : State) : State :=
  if mt = 2 then (if charge && !l2Valid s pa && decide (paKind s pa = .dram) then chargeDram pa pid s else s)
  else l2FillBy charge pa pid (decide (mt = 1)) s

/-- A sector is read through the L2 under its PARTID's regulator (R279): none where it is there now, else the place of
the read among those that the regulator has deferred. `ticket` is the place it has already, `mt` its memory type. -/
def regFill (pa account mt : Nat) (ticket : Option Nat) (s : State) : Option Nat × State :=
  let pid := acctPid account
  if l2Valid s pa || decide (paKind s pa ≠ .dram) || !regulated s pa pid then (none, fillAs true mt pa account s)
  else
    let key := homeOf pa * 64 + pid
    let r := catchUp s pid (regulatorAt s key)
    let s1 : State := { s with regulators := nput s.regulators key r }
    match ticket with
    | some t =>
      if t < r.served then (none, fillAs false mt pa account (chargeCardBw account s1))
      else (some t, s1)
    | none =>
      if r.en && (decide (r.deferred ≠ 0) || decide (r.limit < r.bytes + 64)) then
        (some (r.served + r.deferred), bump (rRegDef pid) 1
          { s1 with regulators := nput s1.regulators key { r with deferred := r.deferred + 1 } })
      else (none, fillAs true mt pa account s1)

/-- A sector is read for `rd`: whether its regulator has served the read, or holds it among those deferred. -/
def askRead (rd : Asker) (pa account mt : Nat) (s : State) : Bool × State :=
  let key := homeOf pa * 64 + acctPid account
  let mine (x : Asker × Nat × Nat) : Bool := x.1 = rd && x.2.1 = pa / 64
  let old := (nget {} s.regulators key).waiting.find? mine
  let r := regFill pa account mt (old.map (·.2.2)) s
  let note (f : List (Asker × Nat × Nat) → List (Asker × Nat × Nat)) (t : State) : State :=
    let R := nget {} t.regulators key
    { t with regulators := nput t.regulators key { R with waiting := f R.waiting } }
  match r.1, old with
  | none, none => (true, r.2)
  | none, some _ => (true, note (fun ws => ws.filter fun x => !mine x) r.2)
  | some _, some _ => (false, r.2)
  | some n, none => (false, note (fun ws => ws ++ [(rd, pa / 64, n)]) r.2)

/-- Some sectors, each with its memory type: whether all have been read. -/
def askReads (rd : Asker) (account : Nat) : List (Nat × Nat) → State → Bool × State
  | [], s => (true, s)
  | x :: xs, s =>
    let r := askRead rd x.1 account x.2 s
    let t := askReads rd account xs r.2
    (r.1 && t.1, t.2)

/-- A sector of DRAM stands in the L2, or its next access brings it there (R273). -/
def allocates (s : State) (pa partid : Nat) : Bool :=
  decide (paKind s pa = .dram) && ((nfind s.l2 (pa / 128)).isSome || (pickWay s pa partid).isSome)

/-- Before the L2 copy of a sector changes, remember what DRAM still holds; a sector that the L2 does not take is
written through (R273). A device-type write allocates nothing, and a streaming one as .nt does (R143, R286): `mt` is
the memory type. -/
def markDirty (mt pa partid : Nat) (s0 : State) : State :=
  let s := if mt = 2 || !allocates s0 pa partid then s0 else l2Fill pa partid (decide (mt = 1)) s0
  let sec := pa / 64
  if !l2Valid s pa then chargeDram pa partid { s with dirty := ndel s.dirty sec }
  else match nfind s.dirty sec with
    | some d => { s with dirty := nput s.dirty sec { d with drop := false } }
    | none =>
      { s with dirty := nput s.dirty sec ⟨memRead s.mem (64 * sec) 64, nget false s.poison sec, false⟩ }

/-- A write of bytes of one sector to DRAM beneath the L2 (R275): a sector that the L2 holds keeps its copy
there. -/
def dramWrite (pa : Nat) (bytes : List Byte) (s : State) : State :=
  let sec := pa / 64
  let whole : Bool := bytes.length = 64
  if l2Valid s pa then
    let d := (nfind s.dirty sec).getD ⟨memRead s.mem (64 * sec) 64, nget false s.poison sec, true⟩
    let n := pa % 64
    { s with dirty := nput s.dirty sec { d with
        bytes := d.bytes.take n ++ bytes ++ d.bytes.drop (n + bytes.length)
        pois := d.pois && !whole } }
  else
    { s with
      mem := memWrite s.mem pa bytes
      poison := if whole then ndel s.poison sec else s.poison }

/-- The bytes an entry of the hold-back buffer forwards, by physical address. -/
def heldByte (h : HB) (pa : Nat) : Option Byte :=
  match h.what with
  | .data _ base bytes _ _ => if base / 64 = pa / 64 then nfind bytes (pa % 64) else none
  | _ => none

/-- The bytes of a sector, as a mask, that words of a team have written into a window of its half in the open quantum, in
deterministic mode in any quantum that has not committed (R160; DEDUCED, log 152). -/
def teamWrote (s : State) (tk half sec : Nat) : Nat :=
  let T := nget {} s.teams tk
  let hs := (pair s (T.core / 2)).hb.filter fun h => h.back = some half && tkOf h.g = tk &&
    (isDet s h.g || decide ((grp s h.g).qlo ≤ h.seq))
  (List.range 64).foldl (fun m i => if hs.any fun h => (heldByte h (64 * sec + i)).isSome then m + 2 ^ i else m) 0

/-- The granules of a half of a team that a stash window has filled from a sector keep as filled only the bytes that the
team has written (R160). -/
def unfillHalf (s : State) (tk half sec : Nat) (m : NMap Filled) : NMap Filled :=
  m.map fun x => if x.2.sec = sec then
      (x.1, { x.2 with bytes := x.2.bytes &&& BitVec.ofNat 64 (teamWrote s tk half sec) })
    else x

/-- Another agent has written a sector: the stash windows that were filled from it, but those of `but` (a team and its
half), are filled again before their next access, save the bytes that their teams have written (R160). -/
def unfillBut (but : Option (Nat × Nat)) (sec : Nat) (s : State) : State :=
  let f (tk half : Nat) (m : NMap Filled) : NMap Filled :=
    if but = some (tk, half) then m else unfillHalf s tk half sec m
  { s with
    teams := s.teams.map fun (k, T) => (k, { T with fill0 := f k 0 T.fill0, fill1 := f k 1 T.fill1 }) }
def unfill (sec : Nat) (s : State) : State := unfillBut none sec s

/-- All 64 bytes. -/
def allFilled : Word64 := BitVec.ofNat 64 (2 ^ 64 - 1)

/-- A granule is filled. -/
def granFilled (T : Team) (half gran : Nat) : Bool :=
  match nfind (T.fill half) gran with
  | some x => x.bytes = allFilled
  | none => false

/-- A write of memory type `mt` performs at the L2: within one sector. A write that covers the sector clears its poison
(R165); where there is no DRAM it is dropped and counted (R278), and so is a write whose link is down (R373). `but` is
the stash window that wrote it back (R160). -/
def l2WriteSectorAs (mt : Nat) (but : Option (Nat × Nat)) (pa : Nat) (bytes : List Byte) (partid : Nat) (s : State) :
    State :=
  match paKind s pa with
  | .dram =>
    let s1 := dropL1 (pa / 128) (unfillBut but (pa / 64) (markDirty mt pa partid s))
    { s1 with
      mem := memWrite s1.mem pa bytes
      apLines := s1.apLines.erase (pa / 64)
      poison := if bytes.length = 64 then ndel s1.poison (pa / 64) else s1.poison }
  | .remote d =>
    if (hwRoute s d).isSome then { unfill (pa / 64) s with mem := memWrite s.mem pa bytes }
    else loseOn (linkToward s d) s
  | .pcie => { s with mem := memWrite s.mem pa bytes }
  | .hole => countUe s
  | .reg _ => countUe s
def l2WriteSector (pa : Nat) (bytes : List Byte) (partid : Nat) (s : State) : State :=
  l2WriteSectorAs 0 none pa bytes partid s

/-- A write of consecutive bytes, sector by sector; `fuel` bounds the sectors. -/
def l2WriteAux : Nat → Nat → List Byte → Nat → State → State
  | 0, _, _, _, s => s
  | fuel + 1, pa, bytes, partid, s =>
    if bytes.isEmpty then s
    else
      let n := 64 - pa % 64
      l2WriteAux fuel (pa + n) (bytes.drop n) partid (l2WriteSector pa (bytes.take n) partid s)

/-- A write of consecutive bytes at the L2. -/
def l2Write (pa : Nat) (bytes : List Byte) (partid : Nat) (s : State) : State :=
  l2WriteAux (bytes.length / 64 + 2) pa bytes partid s

/-- Poison a sector of the L2, or of DRAM where the L2 does not hold it (R277). An L1 copy keeps its own poison bit
(R267). -/
def poisonSector (pa : Nat) (s : State) : State :=
  match paKind s pa with
  | .dram => { unfill (pa / 64) s with poison := nset false s.poison (pa / 64) true }
  | _ => s

/-- Zero a sector and clear its poison (R165 under continue). -/
def zeroSector (pa partid : Nat) (s : State) : State :=
  l2WriteSector (64 * (pa / 64)) (List.replicate 64 0) partid s

/-- Write back a sector, if dirty, and leave it valid (R157). -/
def writeBack (pa : Nat) (s : State) : State :=
  match nfind s.dirty (pa / 64) with
  | some d =>
    if d.drop then s
    else chargeDram pa ((nfind s.l2 (pa / 128)).map (·.acct) |>.getD 0) { s with dirty := ndel s.dirty (pa / 64) }
  | none => s

/-- What DRAM itself holds of a sector: bytes and poison (R275). -/
def dramSector (s : State) (pa : Nat) : List Byte × Bool :=
  match nfind s.dirty (pa / 64) with
  | some d => (d.bytes, d.pois)
  | none => (memRead s.mem (64 * (pa / 64)) 64, nget false s.poison (pa / 64))

/-! ### The L1 (R267) -/

/-- A line's worth of L1 lines that a core may hold. -/
def l1Lines (s : State) (k : Nat) : List Nat := ((core s k).l1c.map fun x => x.1 / 2).dedup

/-- A load brings its sector into its core's L1, with the poison bit that the L2 gives it; when the L1 is full a
line that a free value names goes. -/
def l1Fill (k pa : Nat) (s : State) : State :=
  if (nfind (core s k).l1c (pa / 64)).isSome || decide (paKind s pa ≠ .dram) then s
  else
    let lines := l1Lines s k
    let full := decide ((core s k).l1 * 8 ≤ lines.length) && !lines.contains (pa / 128)
    let out := if full then lines[Config.freeValue (s.ticks + pa + 1) % lines.length]? else none
    modCore s k fun C =>
      { C with l1c := nput (C.l1c.filter fun x => some (x.1 / 2) ≠ out) (pa / 64) (isPoison s pa) }

/-- A sector is poisoned for a read of core `k`: as its L1 copy says, else as the L2 does. -/
def poisonAt (s : State) (k pa : Nat) : Bool :=
  match nfind (core s k).l1c (pa / 64) with
  | some p => p
  | none => isPoison s pa

/-! ### Page walks (R281 to R288) -/

/-- The kinds of access (R283). -/
inductive Acc2 where
  | read
  | write
  | atomic
  | fetch
deriving DecidableEq, Repr

/-- The code of an access kind in a fault record (R292). -/
def Acc2.code : Acc2 → Nat
  | .read => 0 | .write => 1 | .atomic => 2 | .fetch => 3

/-- What a walk answers. A fault carries its PAGE cause and, for stage 2, the intermediate address. -/
inductive Xl where
  | ok (pa mt : Nat)
  | fault (cause ipa : Nat)
deriving DecidableEq, Repr

/-- An entry of a page table, or none where its sector is poisoned; under continue it reads as 0 (R165). One in the
register region is an aligned read of 8 bytes there (R12, R368). -/
def pte (s : State) (cont : Bool) (pa : Nat) : Option Nat :=
  let x := busRead s pa 8
  if cont then some (x.getD 0) else x

/-- The access is permitted by an entry (R283). -/
def permitted (e : Nat) (a : Acc2) (userMode checkU : Bool) : Bool :=
  let r := e.testBit 2
  let w := e.testBit 3
  let x := e.testBit 4
  let p := match a with
    | .read => r
    | .write => w
    | .atomic => r && w
    | .fetch => x && nbits e 10 9 ≠ 2
  p && (!(userMode && checkU) || e.testBit 5)

/-- Set A, and D for a write or atomic, in an entry (R285). -/
def setAD (pa : Nat) (a : Acc2) (s : State) : State :=
  let e := ofBytes (l2Read s pa 8)
  let d := match a with
    | .write => true
    | .atomic => true
    | _ => false
  let e' := e ||| 0x40 ||| (if d then 0x80 else 0)
  if e' = e then s else l2Write pa (toBytes 8 e') noPartid s

/-- What one walk finds: a leaf entry with its address, the size it maps and the size of the page, block or run
that it belongs to, or a fault with its cause, its intermediate address and the address of the entry that raised
it; and the entries that it reads in memory, each with the access for which it sets A and D, if any. -/
inductive WalkRes where
  | leaf (entry loc size run : Nat) (seen : List (Nat × Option Acc2))
  | fault (cause ipa loc : Nat) (seen : List (Nat × Option Acc2))
deriving DecidableEq, Repr

/-- The table entries that a walk may take from its walk cache in place of memory (R290): address and value. -/
abbrev WalkHits := List (Nat × Nat)

/-- The index of a virtual or intermediate address at a level (R281). -/
def walkIndex (va lvl : Nat) : Nat :=
  if lvl = 0 then nbits va 63 57 else nbits va (56 - 9 * (lvl - 1)) (48 - 9 * (lvl - 1))

/-! ### Contiguous runs (R284) -/

/-- Entries of a run: 16 at level 5, 32 at level 3. -/
def contRun (lvl : Nat) : Nat := if lvl = 5 then 16 else if lvl = 3 then 32 else 1

/-- The size that a leaf of a level maps. -/
def leafSize (lvl : Nat) : Nat := 2 ^ (12 + 9 * (5 - lvl))

/-- The output address of an entry. -/
def entryOa (e : Nat) : Nat := nbits e 51 12 * 4096

/-- The valid leaves with CONT = 1 in the run around the entry of index `i` at `loc`: place in the run, and
entry. -/
def contLeaves (s : State) (cont : Bool) (lvl loc i : Nat) : List (Nat × Nat) :=
  let n := contRun lvl
  if n = 1 then []
  else (List.range n).filterMap fun j =>
    match pte s cont (loc - 8 * (i % n) + 8 * j) with
    | some e => if e.testBit 0 && e.testBit 1 && e.testBit 8 then some (j, e) else none
    | none => none

/-- The run is consistent. -/
def runConsistent (lvl : Nat) (xs : List (Nat × Nat)) : Bool :=
  match xs with
  | [] => false
  | (_, e0) :: _ =>
    decide (xs.length = contRun lvl) && decide (entryOa e0 % (leafSize lvl * contRun lvl) = 0) &&
      xs.all fun x => decide (nbits x.2 10 2 = nbits e0 10 2) && decide (entryOa x.2 = entryOa e0 + x.1 * leafSize lvl)

/-- The entry that translates (R284): its own, with the size that a TLB may hold it under; or, in a run that is
not consistent, its own or any CONT entry of the run, moved to this place: which one is free. -/
def contPick (s : State) (cont : Bool) (lvl loc i e : Nat) : Nat × Nat × Nat :=
  let n := contRun lvl
  let xs := contLeaves s cont lvl loc i
  if xs.isEmpty then (e, loc, leafSize lvl)
  else if runConsistent lvl xs then (e, loc, leafSize lvl * n)
  else
    match xs[Config.freeValue (s.ticks + loc) % (xs.length + 1)]? with
    | none => (e, loc, leafSize lvl)
    | some (j, x) =>
      let oa := (entryOa x + (i % n) * leafSize lvl + 2 ^ 52 - j * leafSize lvl) % 2 ^ 52
      (setBits x 51 12 (oa / 4096), loc - 8 * (i % n) + 8 * j, leafSize lvl)

/-- A stage-2 walk from level `lvl` (R287). -/
def walk2Aux (s : State) (cont : Bool) (ipa : Nat) (a : Acc2) : Nat → Nat → Nat → List (Nat × Option Acc2) → WalkRes
  | 0, _, _, seen => .fault 7 ipa 0 seen
  | fuel + 1, lvl, base, seen =>
    let i := if lvl = 1 then nbits ipa 51 48 else walkIndex ipa lvl
    let loc0 := base + 8 * i
    let seen := seen ++ [(loc0, none)]
    match pte s cont loc0 with
    | none => .fault 8 ipa loc0 seen
    | some e0 =>
      let (e, loc, run) := contPick s cont lvl loc0 i e0
      if !e.testBit 0 then .fault 5 ipa loc seen
      else if nbits e 58 52 ≠ 0 then .fault 7 ipa loc seen
      else if !e.testBit 1 then
        if lvl = 5 then .fault 7 ipa loc seen
        else walk2Aux s cont ipa a fuel (lvl + 1) (nbits e 51 12 * 4096) seen
      else
        let size := leafSize lvl
        if lvl < 3 ∨ nbits e 10 9 = 3 ∨ nbits e 51 12 * 4096 % size ≠ 0 then .fault 7 ipa loc seen
        else if !permitted e a false false then .fault 6 ipa loc seen
        else .leaf e loc size run (seen ++ [(loc, some a)])

/-- A translation context (R288): ROOT1, ROOT2, VALID and S2EN. -/
structure Ctx where
  root1 : Nat
  root2 : Nat
  valid : Bool
  s2en : Bool
deriving DecidableEq, Repr

def ctxOf (s : State) (n : Nat) : Ctx :=
  let w0 := mmr s (rCtx n 0) 0
  let w1 := mmr s (rCtx n 1) 0
  let w2 := mmr s (rCtx n 2) 0
  ⟨nbits w0 51 10 * 1024, nbits w1 51 7 * 128, w2.testBit 0, w2.testBit 1⟩

/-- What stage 2 gives for an intermediate address: the physical address, the leaf entry, the size it maps, the
size of its page, block or run, and the entries that it reads, with what sets their A and D. -/
structure S2Res where
  pa : Nat
  entry : Nat
  size : Nat
  run : Nat
  seen : List (Nat × Option Acc2)
deriving DecidableEq, Repr

/-- s2 of R287: the physical address of an intermediate address, or a fault with the entries read. -/
def s2 (s : State) (cont : Bool) (C : Ctx) (a : Acc2) (ipa : Nat) :
    Except (Nat × Nat × Nat × List (Nat × Option Acc2)) S2Res :=
  if C.s2en then
    match walk2Aux s cont ipa a 5 1 C.root2 [] with
    | .leaf e _ size run seen => .ok ⟨nbits e 51 12 * 4096 + ipa % size, e, size, run, seen⟩
    | .fault cause ipa loc seen => .error (cause, ipa, loc, seen)
  else .ok ⟨ipa, 0, 2 ^ 52, 2 ^ 52, []⟩

/-- An entry of a stage-1 table as the walk reads it: from the walk cache where that holds it and a free value
takes it (R290), else from memory. -/
def tableEntry (s : State) (cont : Bool) (wc : WalkHits) (loc : Nat) : Option Nat × List (Nat × Option Acc2) :=
  match wc.find? fun x => x.1 = loc with
  | some x =>
    if Config.freeValue (s.ticks + loc) % 2 = 1 then (some x.2, []) else (pte s cont loc, [(loc, none)])
  | none => (pte s cont loc, [(loc, none)])

/-- walk1 of R283 from level `lvl` at table `base`; beside the result, the table entries that it read. -/
def walk1Aux (s : State) (cont : Bool) (C : Ctx) (wc : WalkHits) (userMode : Bool) (va : Nat) (a : Acc2) :
    Nat → Nat → Nat → List (Nat × Option Acc2) → WalkRes × List (Nat × Nat × Nat)
  | 0, _, _, seen => (.fault 4 0 0 seen, [])
  | fuel + 1, lvl, base, seen =>
    match s2 s cont C .read (base + 8 * walkIndex va lvl) with
    | .error (cause, ipa, loc, xs) => (.fault cause ipa loc (seen ++ xs), [])
    | .ok r =>
      let t := tableEntry s cont wc r.pa
      let seen := seen ++ r.seen ++ t.2
      match t.1 with
      | none => (.fault 8 0 r.pa seen, [])
      | some e0 =>
        let (e, loc, run) := contPick s cont lvl r.pa (walkIndex va lvl) e0
        if !e.testBit 0 then (.fault (if e.testBit 11 ∧ lvl = 5 then 2 else 1) 0 loc seen, [])
        else if nbits e 58 52 ≠ 0 then (.fault 4 0 loc seen, [])
        else if !e.testBit 1 then
          if lvl = 5 then (.fault 4 0 loc seen, [])
          else
            let t := walk1Aux s cont C wc userMode va a fuel (lvl + 1) (nbits e 51 12 * 4096) seen
            (t.1, (loc, e, lvl) :: t.2)
        else
          let size := leafSize lvl
          if lvl < 3 ∨ nbits e 10 9 = 3 ∨ nbits e 51 12 * 4096 % size ≠ 0 then (.fault 4 0 loc seen, [])
          else if !permitted e a userMode true then (.fault 3 0 loc seen, [])
          else (.leaf e loc size run (seen ++ [(loc, some a)]), [])

/-- A walk reads its entries at the L2 (R272, R275), and sets the A and D bits of those that it uses (R285). -/
def setADs (seen : List (Nat × Option Acc2)) (s : State) : State :=
  seen.foldl (fun s x =>
    let s1 := l2Fill x.1 noPartid false s
    match x.2 with
    | some a => setAD x.1 a s1
    | none => s1) s

/-- The stronger of two memory types (R286). -/
def strongerMt (a b : Nat) : Nat := max a b

/-- The virtual addresses that an entry of a level covers. -/
def levelSpan (lvl : Nat) : Nat := if lvl = 0 then 2 ^ 57 else leafSize lvl

/-- A whole walk: the TLB entry it gives, or the fault (R283, R287), the entries whose A and D it sets, and the
table entries it read. -/
def walk (s : State) (cont : Bool) (wc : WalkHits) (ctx : Nat) (userMode : Bool) (va : Nat) (a : Acc2) :
    Except (Nat × Nat × Nat) Tlb × List (Nat × Option Acc2) × List (Nat × Nat × Nat) :=
  let C := ctxOf s ctx
  if !C.valid then (.error (1, 0, 0), [], [])
  else
    let w := walk1Aux s cont C wc userMode va a 6 0 C.root1 []
    match w.1 with
    | .fault cause ipa loc seen => (.error (cause, ipa, loc), seen, w.2)
    | .leaf e loc size run seen =>
      let ipa := nbits e 51 12 * 4096 + va % size
      match s2 s cont C a ipa with
      | .error (cause, ipa, loc, xs) => (.error (cause, ipa, loc), seen ++ xs, w.2)
      | .ok r =>
        -- a stage-2 leaf may map less than the stage-1 leaf: the entry then covers one granule; a consistent run
        -- is held as one translation or page by page
        let held := if C.s2en then 4096
          else if run = size || Config.freeValue (s.ticks + va) % 2 = 0 then size else run
        -- permissions and D hold where both stages give them; the stronger memory type stands
        let mt := strongerMt (nbits e 10 9) (if C.s2en then nbits r.entry 10 9 else 0)
        let both := if C.s2en then e &&& (r.entry ||| 0xFFFFFFFFFFFFFF63) else e
        (.ok { ctx := ctx, va := va - va % held, size := held, entry := BitVec.ofNat 64 (setBits both 10 9 mt),
               entryPa := loc, pa := r.pa - va % held, mt := mt, ipa := ipa - va % held,
               blk := va - va % run, blkSize := run, iblk := ipa - ipa % r.run, iblkSize := r.run },
          seen ++ r.seen, w.2)

/-- The TLB entry of a unit that covers an address (R290). -/
def tlbFind (s : State) (unit ctx va : Nat) : Option Tlb :=
  s.tlb.find? fun t => t.unit = unit && t.ctx = ctx && t.va ≤ va && va < t.va + t.size

/-- The cluster of a core, as a TLB unit: 64 to 67, and 68 for the ochre cluster (R290). -/
def clusterUnit (k : Nat) : Nat := 64 + k / 8

/-- Entries that a TLB holds (R290). -/
def tlbCap (unit : Nat) : Nat := if unit < 64 then 128 else 8192

/-- A TLB takes an entry: one for the same page goes, and where the TLB is full one that a free value names. -/
def tlbPut (unit : Nat) (t : Tlb) (s : State) : State :=
  let rest := s.tlb.filter fun x => !(x.unit = unit && x.ctx = t.ctx && x.va = t.va && x.size = t.size)
  let mine := rest.filter fun x => x.unit = unit
  let keep := if tlbCap unit ≤ mine.length then
      match mine[Config.freeValue (s.ticks + t.va) % mine.length]? with
      | some x => rest.erase x
      | none => rest
    else rest
  { s with tlb := { t with unit := unit } :: keep }

/-- The table entries that a cluster's walk cache holds for a context and address. -/
def walkHits (s : State) (k ctx va : Nat) : WalkHits :=
  s.walkCache.filterMap fun w =>
    if w.cl = clusterUnit k && w.ctx = ctx && decide (w.va ≤ va) && decide (va < w.va + w.size) then some (w.loc, w.val)
    else none

/-- The walk cache takes the table entries of a walk. -/
def cacheWalk (k ctx va : Nat) (tabs : List (Nat × Nat × Nat)) (s : State) : State :=
  { s with walkCache := tabs.foldl (fun cs x =>
      let w : WalkEnt := ⟨clusterUnit k, ctx, x.1, x.2.1, va - va % levelSpan x.2.2, levelSpan x.2.2⟩
      if cs.contains w then cs else w :: cs) s.walkCache }

/-- A held entry suffices for an access: it is permitted, and a write finds D set (R285). -/
def tlbServes (t : Tlb) (a : Acc2) (userMode : Bool) : Bool :=
  let e := t.entry.toNat
  permitted e a userMode true && (match a with
    | .write => e.testBit 7
    | .atomic => e.testBit 7
    | _ => true)

/-- The demand fill of R294: a page of the free-page list, zeroed, becomes the leaf of a level-5 entry. -/
def demandFill (loc : Nat) (s : State) : Option State :=
  let head := mmr s (mBase + 0x1210) 0 % 2 ^ 32
  let tail := mmr s (mBase + 0x1218) 0 % 2 ^ 32
  let lg := mmr s (mBase + 0x1208) 0 % 32
  if (tail + 2 ^ 32 - head) % 2 ^ 32 = 0 then none
  else
    let base := mmr s (mBase + 0x1200) 0
    let at_ := base + 8 * (head % 2 ^ lg)
    let page := ofBytes (l2Read s at_ 8)
    let e := ofBytes (l2Read s loc 8)
    let s1 := setMmr (l2Fill at_ noPartid false s) (mBase + 0x1210) ((head + 1) % 2 ^ 32)
    let s2 := l2Write page (List.replicate 4096 0) noPartid s1
    -- V, LEAF and A set, DF clear, OA the page, bits [10:2] and the software bits kept
    let e' := ((e &&& 0xF8000000000007FC) ||| 0x43) + nbits page 51 12 * 4096
    some (l2Write loc (toBytes 8 e') noPartid s2)

/-- DRAM sleeps at a physical address: the device is suspended and the ochre SRAM does not hold it (R397). -/
def dramSleeps (s : State) (pa : Nat) : Bool :=
  mmr s rSuspStat 0 % 4 = 2 && decide (paKind s pa = .dram) && !inWindow (ochreWin s) pa

/-- The cause, no fault of R283, of an access that waits for DRAM to wake (R397). -/
def causeAsleep : Nat := 256

/-- An access that meets DRAM asleep waits, and starts a resume (R397). -/
def meetAsleep (s : State) : State := { s with susp := { s.susp with wakeSeen := true, blocked := true } }
def asleep (s : State) : Xl × State := (.fault causeAsleep 0, meetAsleep s)

/-- No access of the operation that begins now has met DRAM asleep yet. -/
def unblocked (s : State) : State := { s with susp := { s.susp with blocked := false } }
/-- An operation that leads from `s` to `t` waits as a whole where one of its accesses has met DRAM asleep (R397). -/
def orAsleep (s t : State) : State := if t.susp.blocked then meetAsleep s else t

/-- Cores have numbers below this one; the units that R290 gives no TLB (the dispatcher, the tree engine, PCI
Express) stand at it, and their walks hold nothing. -/
def noTlb : Nat := 40

/-- Translate an address for core `k` (R281 to R290): by an entry of its own TLB, by one of its cluster's, or by a
walk whose entry both then hold. `hw` says that demand fill is served in hardware (R294). An access to memory that
sleeps, or whose walk reads such memory, waits (R397). -/
def translate (s : State) (cont hw : Bool) (k ctx : Nat) (userMode : Bool) (va : Nat) (a : Acc2) : Xl × State :=
  let r := match tlbFind s k ctx va with
    | some t => if tlbServes t a userMode then (Xl.ok (t.pa + (va - t.va)) t.mt, s) else second
    | none => second
  match r.1 with
  | .ok pa _ => if dramSleeps r.2 pa then asleep r.2 else r
  | .fault _ _ => r
where
  /-- the cluster's TLB -/
  second : Xl × State :=
    match tlbFind s (clusterUnit k) ctx va with
    | some t =>
      if tlbServes t a userMode && decide (k ≠ noTlb) then (.ok (t.pa + (va - t.va)) t.mt, tlbPut k t s) else slow
    | none => slow
  /-- a walk, with one demand fill where the fault asks for it -/
  slow : Xl × State :=
    let wc := walkHits s k ctx va
    match walk s cont wc ctx userMode va a with
    | (.ok t, seen, tabs) => install t seen tabs s
    | (.error (cause, ipa, loc), seen, _) =>
      let s1 := setADs seen s
      if seen.any fun x => dramSleeps s x.1 then asleep s
      else if cause = 2 ∧ hw then
        match demandFill loc s1 with
        | none => (.fault cause ipa, s1)
        | some s2 =>
          match walk s2 cont wc ctx userMode va a with
          | (.ok t, seen, tabs) => install t seen tabs s2
          | (.error (cause, ipa, _), seen, _) => (.fault cause ipa, setADs seen s2)
      else (.fault cause ipa, s1)
  /-- hold a walk's entry, as it stands after A and D are set -/
  install (t : Tlb) (seen : List (Nat × Option Acc2)) (tabs : List (Nat × Nat × Nat)) (s : State) : Xl × State :=
    if seen.any fun x => dramSleeps s x.1 then asleep s else
    let s1 := setADs seen s
    let d : Nat := match a with
      | .write => 0xC0
      | .atomic => 0xC0
      | _ => 0x40
    let t' := { t with entry := t.entry ||| BitVec.ofNat 64 d }
    (.ok (t.pa + (va - t.va)) t.mt,
      if k = noTlb then s1 else tlbPut k t' (tlbPut (clusterUnit k) t' (cacheWalk k ctx va tabs s1)))

/-! ### The launch's own settings -/

/-- Bits of a job card (R295). -/
def cardFld (s : State) (n hi lo : Nat) : Nat := nbits (nget 0 s.cards n).toNat hi lo

/-- Write bits of a card. -/
def setCardFld (n hi lo v : Nat) (s : State) : State :=
  { s with cards := nset 0 s.cards n (BitVec.ofNat 1024 (setBits (nget 0 s.cards n).toNat hi lo v)) }

/-- The external-effect bit of a launch's card is set (R329). -/
def extEff (lk : Nat) (s : State) : State := setCardFld (lk / 2) 22 22 1 s

/-- A duty override of a card against its DUTYSEL bit: true in hardware mode (R5, R7). -/
def dutyHw (s : State) (fld bit : Nat) : Bool :=
  if fld = 0 then !(mmr s 0x40 0).testBit bit else fld = 1

/-- The page-fault service of a group's card runs in hardware mode (R6). -/
def faultHw (s : State) (card : Nat) : Bool := dutyHw s (cardFld s card 25 24) 1

/-- Translate for a group's word (R38, R283). -/
def xlate (s : State) (g va : Nat) (a : Acc2) : Xl × State :=
  let l := launchOf s g
  translate s l.cont (faultHw s (gCard g)) (coreOf s g) l.ctx (!(grp s g).supv) (va % 2 ^ 64) a

/-- Translate without a group: for the engines of core `k`, or the dispatcher, in a launch's context and mode
(R283). -/
def xlateFor (s : State) (k lk va : Nat) (a : Acc2) : Xl × State :=
  let l := launch s lk
  translate s l.cont (faultHw s (lk / 2)) k l.ctx (!l.supv) (va % 2 ^ 64) a

/-! ### What a pair region reads (R253, R264, R270) -/

/-- Ranges [lo, hi) and [a, a + n) overlap. -/
def overlaps (lo hi a n : Nat) : Bool := decide (a < hi) && decide (lo < a + n)

/-- The parts of the range of `n` bytes from `a` upward modulo 2^64 (R194): first byte and one past the last, and
whether it is the second part. -/
def wrapParts (a n : Nat) : List (Nat × Nat × Bool) :=
  let lo := a % 2 ^ 64
  if n = 0 then [(0, 0, false)]
  else if lo + n ≤ 2 ^ 64 then [(lo, lo + n, false)]
  else [(lo, 2 ^ 64, false), (0, min (lo + n - 2 ^ 64) (2 ^ 64), true)]

/-- The newest held byte of a list in entry order. -/
def newestHeld (pa : Nat) : List HB → Option Byte
  | [] => none
  | h :: hs =>
    match newestHeld pa hs with
    | some b => some b
    | none => heldByte h pa

/-- Bytes of an entry's read-modify-write: an atomic or a cluster transaction barrier addresses a byte of
[pa, pa + n). -/
def atomTouches (pa n : Nat) (h : HB) : Bool :=
  match h.what with
  | .atom _ ty _ lanes _ _ => lanes.any fun a => overlaps a.pa (a.pa + atomSize ty) pa n
  | .devAtom _ ty _ a _ _ => overlaps a.pa (a.pa + atomSize ty) pa n
  | .tb _ _ p _ _ => overlaps p (p + 16) pa n
  | _ => false

/-- An entry will write a byte when it performs. -/
def writesByte (pa : Nat) (h : HB) : Bool := (heldByte h pa).isSome || atomTouches pa 1 h

/-- The entries whose bytes a group's read takes: the pair's, or in deterministic mode its own (R264). -/
def forwarders (s : State) (g : Nat) : List HB :=
  let H := (pair s (pairOf s g)).hb
  if isDet s g then H.filter fun h => h.g = g else H

/-- A byte as a group reads it (R253). -/
def viewByte (s : State) (g pa : Nat) : Byte :=
  match newestHeld pa (forwarders s g) with
  | some b => b
  | none =>
    -- under continue a poisoned sector reads as zeros (R165)
    if poisonAt s (coreOf s g) pa && (launchOf s g).cont then 0 else memGet s.mem pa

/-- Bytes from an address upward, as a group reads them. -/
def viewBytes (s : State) (g : Nat) : Nat → Nat → List Byte
  | _, 0 => []
  | pa, n + 1 => viewByte s g pa :: viewBytes s g (pa + 1) n

/-- A group's read of a sector consumes poison: the sector is poisoned and held stores do not cover it. -/
def viewPoison (s : State) (g pa : Nat) : Bool :=
  poisonAt s (coreOf s g) pa &&
    !((List.range 64).all fun i => (newestHeld (64 * (pa / 64) + i) (forwarders s g)).isSome)

/-- A byte that any group of a pair holds back, or that a held atomic of it will write (R254). -/
def heldOnPair (s : State) (pr pa : Nat) : Bool := (pair s pr).hb.any (writesByte pa)

/-- A group's read meets a byte that another group holds back (R254). -/
def heldByOther (s : State) (g pa : Nat) : Bool :=
  ((pair s (pairOf s g)).hb.any fun h => h.g ≠ g && (heldByte h pa).isSome)

/-! ### Local addresses (R144) and range locks (R166, R195) -/

/-- Where a local address lies: the half of the team and the byte there; none outside the window. -/
def localAt (s : State) (g : Nat) (x : Int) : Option (Nat × Nat) :=
  let l := launchOf s g
  let W := l.window
  if x < 0 then none
  else
    let a := x.toNat
    if a < W then some (halfOf s g, a)
    else if l.paired ∧ a < 2 * W then some (1 - halfOf s g, a - W)
    else none

/-- The core that holds a half of a team's local memory. -/
def coreOfHalf (s : State) (tk half : Nat) : Nat := (team s tk).core + half

/-- The lock tables that meet a group's accesses: its core's, and its partner's for a paired team (R195). -/
def lockTables (s : State) (g : Nat) : List Lock :=
  let c := coreOf s g
  if (launchOf s g).paired then (core s (c / 2 * 2)).locks ++ (core s (c / 2 * 2 + 1)).locks
  else (core s c).locks

/-- A store or atomic (or a load, where `load`) meets a copy's lock on local bytes (R166 cause 0). -/
def localLocked (s : State) (g half a n : Nat) (load : Bool) : Bool :=
  (lockTables s g).any fun k =>
    k.space = 1 && k.kind ≠ 2 && k.own = tkOf g && k.half = half && overlaps k.lo k.hi a n &&
      (!load || k.kind = 1)

/-- The same for global bytes of the group's context; a stash range gives cause 1 (R166). -/
def globalLock (s : State) (g a n : Nat) (load : Bool) : Option Nat :=
  let ls := (core s (coreOf s g)).locks.filter fun k =>
    k.space = 0 && k.own = (launchOf s g).ctx && overlaps k.lo k.hi a n
  if ls.any fun k => k.kind ≠ 2 && (!load || k.kind = 1) then some 0
  else if ls.any fun k => k.kind = 2 then some 1
  else none

/-! ### Stash windows (R158 to R162) -/

/-- A window of a team's half: VALID, GBASE, LBASE and SIZE (R158). -/
structure Stash where
  valid : Bool
  gbase : Nat
  lbase : Nat
  size : Nat
deriving DecidableEq, Repr

def stashOf (x : Nat) : Stash := ⟨x.testBit 0, nbits x 63 10 * 1024, nbits x 95 64, nbits x 127 96⟩
def stashNum (w : Stash) : Nat :=
  b2n w.valid + w.gbase / 1024 * 2 ^ 10 + w.lbase * 2 ^ 64 + w.size * 2 ^ 96

/-- Window `n` of a team's half; a launch without local memory has no table (R297). -/
def stashWin (s : State) (g half n : Nat) : Stash :=
  let l := launchOf s g
  if l.localBytes = 0 then ⟨false, 0, 0, 0⟩
  else stashOf (memNum ((team s (tkOf g)).mem half) (l.stashBase + 16 * n) 16)

/-- The window that holds a local byte. -/
def stashHit (s : State) (g half a : Nat) : Option Stash :=
  ((List.range 8).map (stashWin s g half)).find? fun w =>
    w.valid && decide (w.lbase ≤ a) && decide (a < w.lbase + w.size)

/-- The global address that a window maps a local byte to. -/
def Stash.gaddr (w : Stash) (a : Nat) : Nat := (w.gbase + (a - w.lbase)) % 2 ^ 64

/-- Write bytes of local memory that lie in one 16-byte chunk, journaled. -/
def locPutChunk (g seq half a : Nat) (bytes : List Byte) (s : State) : State :=
  jwrite g seq (.loc (tkOf g) half (a / 16)) (.part (a % 16) bytes) s

/-- Write bytes of local memory, chunk by chunk, journaled (R35). -/
def locPutAux (g seq half : Nat) : Nat → Nat → List Byte → State → State
  | 0, _, _, s => s
  | fuel + 1, a, bytes, s =>
    if bytes.isEmpty then s
    else
      let n := 16 - a % 16
      locPutAux g seq half fuel (a + n) (bytes.drop n) (locPutChunk g seq half a (bytes.take n) s)
def locPut (g seq half a : Nat) (bytes : List Byte) (s : State) : State :=
  locPutAux g seq half (bytes.length / 16 + 2) a bytes s

/-- The bytes of local memory. -/
def locGet (s : State) (tk half a n : Nat) : List Byte := memRead ((team s tk).mem half) a n

/-- The local granule is poisoned. -/
def locPoison (s : State) (tk half a : Nat) : Bool := nget false ((team s tk).pois half) (a / 64)

/-! ### Entering the hold-back buffer (R269, R271) -/

/-- The sectors an entry writes or reads, by physical address / 64. -/
def entrySectors (h : HB) : List Nat :=
  match h.what with
  | .data _ pa _ _ _ => [pa / 64]
  | .atom _ _ _ lanes _ _ => (lanes.map fun a => a.pa / 64).dedup
  | .devLoad _ _ _ _ _ pa _ _ => [pa / 64]
  | .devAtom _ _ _ a _ _ => [a.pa / 64]
  | .devFill _ _ _ _ pa => [pa / 64]
  | .tb _ _ pa _ _ => [pa / 64]
  | .cwb _ pa => [pa / 64, pa / 64 + 1]
  | .cinv _ pa => [pa / 64, pa / 64 + 1]
  | .tree _ _ => []
  | .sys _ => []
  | .image pa _ _ => [pa / 64]
  | .output _ _ _ _ pa bytes _ => if bytes.isEmpty then [] else [pa / 64, (pa + bytes.length - 1) / 64].dedup

/-- The closed quantum of a group that holds a sequence number, of those not committed (R32). -/
def quantumIn (G : Group) (seq : Nat) : Option Quantum :=
  (G.sealedQ ++ G.closed).find? fun q => q.lo ≤ seq && seq < q.hi

/-- Every word below this number lies in a sealed quantum (R34). -/
def sealedBelow (G : Group) : Nat :=
  match G.closed with
  | [] => G.qlo
  | q :: _ => q.lo

/-- The quantum of a word is sealed, and in deterministic mode its epoch has committed (R36, R430). -/
def released (s : State) (g seq : Nat) : Bool :=
  let G := grp s g
  decide (seq < sealedBelow G) && !(isDet s g && G.sealedQ.any fun q => q.lo ≤ seq && seq < q.hi)

/-- The quantum tag of a word's entries while they are not sealed (R269): in normal mode the pair's quantum, in
deterministic mode the group and its quantum. -/
def quantumTag (s : State) (g seq : Nat) : Nat × Nat :=
  let q := quantumIn (grp s g) seq
  if isDet s g then (g + 1, (q.map (·.num)).getD (grp s g).qnum)
  else (0, (q.map (·.pq)).getD (pair s (pairOf s g)).qn)

/-- The quantum tag of an entry (R269). -/
def tagOf (s : State) (h : HB) : Nat × Nat :=
  if h.sealed && !isDet s h.g then (0, h.tag) else quantumTag s h.g h.seq

/-- A data entry that is not of memory type device. -/
def plainData (h : HB) : Bool :=
  match h.what with
  | .data _ _ _ _ dev => !dev
  | _ => false

/-- The store coalesces into an entry that stands before it (R269); `older` are the entries before it, the newest
first. -/
def coalesces (s : State) (h : HB) (older : List HB) : Bool :=
  plainData h &&
    match older.find? fun e => (entrySectors e).any fun x => (entrySectors h).contains x with
    | some e => plainData e && e.back = h.back && e.core = h.core && tagOf s e = tagOf s h
    | none => false

/-- The entries that the buffers of a pair hold, each named by its first store; the newest first. -/
def entriesOf (s : State) : List HB → List HB
  | [] => []
  | h :: older => if coalesces s h older then entriesOf s older else h :: entriesOf s older

/-- The entry takes room in its core's buffer: a walker's staged outputs take none (R269). -/
def takesRoom (h : HB) : Bool :=
  match h.what with
  | .output .. => false
  | _ => true

/-- The occupied entries of a pair. -/
def pairEntries (s : State) (pr : Nat) : List HB := (entriesOf s (pair s pr).hb.reverse).filter takesRoom

/-- Entries that a core's buffer holds. -/
def holdCount (s : State) (c : Nat) : Nat := ((pairEntries s (c / 2)).filter fun h => h.core = c).length

/-- Entries of a core's buffer (R269, R396). -/
def holdCap (c : Nat) : Nat := if c < 32 then 4096 else 1024

/-- The group's share of its core's buffer in deterministic mode, in entries (R35). -/
def holdShare (s : State) (g : Nat) : Nat := holdCap (coreOf s g) / (launchOf s g).gmax

/-- An entry as a word would add it now: sealed where its quantum is sealed already. `back` is the half of the team whose
stash window it writes back. -/
def newEntry (s : State) (g seq : Nat) (what : Held) (back : Option Nat := none) : HB :=
  { g := g, seq := seq, core := coreOf s g, partid := (launchOf s g).partid, sealed := released s g seq, what := what,
    num := s.nextId, after := (grp s g).seen, back := back }

/-- How many new entries stores of a word to some sectors take: those that do not coalesce. -/
def newSectors (s : State) (g seq : Nat) (secs : List Nat) (back : Option Nat := none) : Nat :=
  (secs.filter fun x =>
    !coalesces s (newEntry s g seq (.data 0 (64 * x) [] 0 false) back) (pair s (pairOf s g)).hb.reverse).length

/-- A store is now visible to the other groups of its pair: stash windows of the pair that were filled from its sector
are filled again before their next access, but the one that wrote it back (R160). -/
def unfillPair (pr : Nat) (but : Option (Nat × Nat)) (sec : Nat) (s : State) : State :=
  let f (tk half : Nat) (m : NMap Filled) : NMap Filled :=
    if but = some (tk, half) then m else unfillHalf s tk half sec m
  { s with
    teams := s.teams.map fun x =>
      if x.2.core / 2 = pr then (x.1, { x.2 with fill0 := f x.1 0 x.2.fill0, fill1 := f x.1 1 x.2.fill1 }) else x }

/-- Add an entry for a word; in normal mode a store is now visible on the pair (R251). `low` marks a streaming
store (R143), and `back` the write-back of a stash window of a half of the team. -/
def hold (g seq : Nat) (what : Held) (s : State) (low : Bool := false) (back : Option Nat := none) : State :=
  let s1 := modPair { s with nextId := s.nextId + 1 } (pairOf s g) fun P =>
    { P with hb := P.hb ++ [{ newEntry s g seq what back with low := low }] }
  match what with
  | .data _ pa _ _ _ =>
    if isDet s g then s1 else unfillPair (pairOf s g) (back.map fun h => (tkOf g, h)) (pa / 64) s1
  | _ => s1

/-- The first sequence number of the quantum that holds a word, as far as boundaries are known (R32, R33). -/
def quantumStart (G : Group) (seq : Nat) : Nat :=
  match quantumIn G seq with
  | some q => q.lo
  | none => (G.marks.filter fun b => decide (b ≤ seq)).foldl max G.qlo

/-- `n` more entries fit (R271): none, or the wait cause. In deterministic mode a group's reserve holds its entries that
have not committed; those of one quantum always fit, so only where entries of an earlier quantum stand can it be full. -/
def holdFull (s : State) (g seq n : Nat) : Option Nat :=
  let c := coreOf s g
  if isDet s g then
    let used := (pairEntries s (pairOf s g)).filter fun h => h.g = g && decide (h.seq < seq)
    if used.length + n ≤ holdShare s g || !(used.any fun h => decide (h.seq < quantumStart (grp s g) seq)) then none
    else some 8
  else if holdCount s c + n ≤ holdCap c then none
  else some 6

/-! ### Release and acquire on a pair (R257, R258) -/

/-- What comes before by either of two marks. -/
def mergeMarks (a b : Marks) : Marks :=
  { below := b.below.foldl (fun m x => if nget 0 m x.1 < x.2 then nput m x.1 x.2 else m) a.below
    one := (a.one ++ b.one).dedup }

/-- A held entry of another group comes before what has these marks. -/
def Marks.has (m : Marks) (h : HB) : Bool := decide (h.num < nget 0 m.below h.g) || m.one.contains h.num

/-- A release event of a group: what it has seen, and its own entries so far, come before it. -/
def relEvent (g : Nat) (s : State) : State :=
  modGrp s g fun G => { G with rel := { G.seen with below := nput G.seen.below g s.nextId } }

/-- The newest held entry of a list, in entry order, that forwards a byte. -/
def newestEntry (pa : Nat) : List HB → Option HB
  | [] => none
  | h :: hs =>
    match newestEntry pa hs with
    | some e => some e
    | none => if (heldByte h pa).isSome then some h else none

/-- A group has read bytes: the held writes of other groups that it took come before its later words (R253). Entries
that have performed are forgotten. -/
def markRead (g : Nat) (pas : List Nat) (s : State) : State :=
  let H := forwarders s g
  match (pas.filterMap fun pa => newestEntry pa H).filter fun h => h.g ≠ g with
  | [] => s
  | hs =>
    modGrp s g fun G =>
      let one := (G.seen.one ++ hs.map (·.num)).dedup.filter fun n => H.any fun h => h.num = n
      { G with seen := { G.seen with one := one } }

/-- An acquire event of a group: the releases of the pair's other groups so far may be those it observes, and what
came before them comes before its later words. -/
def acqEvent (g : Nat) (s : State) : State :=
  let others := s.groups.filter fun x => x.1 ≠ g && pairOf s x.1 = pairOf s g
  modGrp s g fun G => { G with seen := others.foldl (fun m x => mergeMarks m x.2.rel) G.seen }

/-- An entry that a store or atomic makes: a release, a FENCE or a port entry follows it (R148, R155, R262). -/
def isWriteEntry (h : HB) : Bool :=
  match h.what with
  | .data .. => true
  | .atom .. => true
  | .devAtom .. => true
  | .tb .. => true
  | _ => false

/-- Held entries that come before a word of a group: its own earlier ones, and those that it has seen. -/
def heldBefore (s : State) (g seq : Nat) (after : Marks) : List HB :=
  (s.pairs.flatMap fun x => x.2.hb).filter fun h => isGroupEntry h &&
    ((h.g = g && decide (h.seq < seq)) || (h.g ≠ g && after.has h))

end Sys2Proof.Machine
end

