-- ==== Sys2Proof/Machine/Quantum.lean ====
section
/-!
DEFINITION. Sys2Proof/Machine/Quantum.lean: closing, completing and sealing quanta (R32 to R36), their
charges (R35), and the rollback of a pair's unsealed quanta (R332).
-/
namespace Sys2Proof.Machine

/-- The sequence numbers that a handler's record keeps from completing: the trapping word's and those of the saved
words (R322, R324). -/
def recordSeqs (G : Group) : List Nat :=
  match G.handler with
  | none => []
  | some h => h.trap.seq :: h.saved.map (·.seq)

/-- QSEAL counts as completed once its quantum has closed, and a word that waits for its device-type lanes or fills
once they are held (R32). -/
def sealWait (w : QWord) : Bool :=
  match w.instr with
  | .qseal _ => w.stage = 1
  | i => engOf i = 2 && w.stage = 1

/-- A sequence number of a group that has not completed (R33): waiting, in flight or in a handler's record. A held
word counts as completed (R32). -/
def openSeqs (G : Group) : List Nat :=
  ((unstarted G).filter fun w => !sealWait w).map (·.seq) ++ (G.flights.filter fun f => !f.ok).map (·.seq) ++ recordSeqs G

/-- The oldest sequence number that a group has not completed (R33). -/
def firstOpen (G : Group) : Nat := (openSeqs G).foldl min G.nextSeq

/-- The slots just before a word: as logged at its placement, or as they stand. -/
def snapAt (G : Group) (seq : Nat) : Snap := nget (snapOf G) G.snaps seq

/-- A decision point of the dispatcher (R305). -/
def decisionPoint (s : State) : State := { s with decision := true }

/-- Close a group's open quantum at `hi` and open the next (R32, R34); a close is a decision point. -/
def closeGroup (g hi : Nat) (s : State) : State :=
  modGrp (decisionPoint s) g fun G =>
    let hi := max hi G.qlo
    { G with
      closed := G.closed ++ [⟨G.qnum, G.qlo, hi, G.qsnap, none, (pair s (pairOf s g)).qn⟩]
      qnum := G.qnum + 1
      qlo := hi
      qsnap := snapAt G hi
      marks := G.marks.filter fun b => hi < b
      snaps := G.snaps.filter fun x => hi ≤ x.1
      qret := 0 }

/-- The groups that run on a pair and are not parked. -/
def groupsOn (s : State) (pr : Nat) : List Nat :=
  (s.groups.filter fun x => !x.2.parked && pairOf s x.1 = pr).map (·.1)

/-- Close the pair's open quantum for every group of the pair (R33): `g`, where it is named, at `hi`, every
other group in normal mode at the oldest sequence number it has not completed. -/
def closePair (pr : Nat) (special : Option (Nat × Nat)) (s : State) : State :=
  let s1 := ((groupsOn s pr).filter fun g => !isDet s g).foldl (fun s g =>
    let hi := match special with
      | some (g', hi) => if g = g' then hi else firstOpen (grp s g)
      | none => firstOpen (grp s g)
    closeGroup g hi s) s
  modPair (decisionPoint s1) pr fun P => { P with openAt := s.now, qn := P.qn + 1, pqs := nput P.pqs P.qn s.now }

/-- The quantum that holds a sequence number (R32). -/
def quantumOf (G : Group) (seq : Nat) : Nat := ((quantumIn G seq).map (·.num)).getD G.qnum

/-! ### Charges of deterministic mode (R35) -/

/-- What one journal entry is charged for: its share (0 pool, 1 accumulator), a name and bytes. The zeroing by VROT,
ROTCFG and GIVE is charged for nothing (DESIGN CHOICE, log 99: R35, R140 and R222 do not say). -/
def undoCharge (s : State) (u : Undo) : Option (Nat × Item × Nat) :=
  match u.item with
  | .v g n _ => if u.eff = .clear then none else some (0, .v g n 0, widthOf s g * 4)
  | .p g n => some (0, .p g n, 8)
  | .loc tk h ch => some (0, .loc tk h (ch / 4), 64)
  | .row c n => some (1, .row c n, 520)
  | _ => none

/-- Capacities of the three shares of a core (R35, R396): pool journal, accumulator journal, hold-back. -/
def shareCap (c share : Nat) : Nat :=
  match share with
  | 0 => if c < 32 then 256 * 1024 else 128 * 1024
  | 1 => if c < 32 then 1024 * 1024 else 128 * 1024
  | _ => if c < 32 then 256 * 1024 else 64 * 1024

/-- A held entry's sector where it is a data entry. -/
def heldSector (h : HB) : Option Nat :=
  match h.what with
  | .data _ pa _ _ _ => some (pa / 64)
  | _ => none

/-- The charges of a group's words from `lo` on that satisfy `p`: for each word its shares. A sector or item
is charged at its first word in sequence order. -/
def chargeSum (s : State) (g lo share : Nat) (p : Nat → Bool) : Nat :=
  let P := pair s (pairOf s g)
  let us := P.journal.filter fun u => u.g = g && !u.keep && lo ≤ u.seq && p u.seq
  let items := (us.filterMap (undoCharge s)).filter (fun x => x.1 = share) |>.map (·.2) |>.dedup
  let hs := P.hb.filter fun h => h.g = g && isGroupEntry h && lo ≤ h.seq && p h.seq
  let secs := (hs.filterMap heldSector).dedup.length * 64
  let cmds := (hs.filter fun h => (heldSector h).isNone).length * 64
  (items.map (·.2)).sum +
    (if share = 0 then secs else if share = 2 then secs + cmds else 0)

/-- A word's own charge to a share exceeds the whole share (R35). -/
def ownOver (s : State) (g seq share : Nat) : Bool :=
  let l := launchOf s g
  decide (shareCap (coreOf s g) share < chargeSum s g seq share (fun x => x = seq) * l.gmax)

/-- The part of a triple of charges that a share takes. -/
def shareOf (x : Nat × Nat × Nat) (share : Nat) : Nat :=
  if share = 0 then x.1 else if share = 1 then x.2.1 else x.2.2

/-- A word that will charge so much to the three shares can never fit in a quantum (R35): one of the pool journal or
hold-back share. -/
def neverFits (s : State) (g : Nat) (own : Nat × Nat × Nat) : Bool :=
  isDet s g && [0, 2].any fun k =>
    decide (shareCap (coreOf s g) k < shareOf own k * (launchOf s g).gmax)

/-- The sequence number of the first word of the open quantum whose charge does not fit in a share. -/
def shareBoundary (s : State) (g : Nat) : Option Nat :=
  let G := grp s g
  let l := launchOf s g
  let P := pair s (pairOf s g)
  let seqs := (P.journal.filter (fun u => u.g = g && !u.keep && G.qlo ≤ u.seq)).map (·.seq) ++
    (P.hb.filter (fun h => h.g = g && isGroupEntry h && G.qlo ≤ h.seq)).map (·.seq)
  let past (n : Nat) : Bool := [0, 1, 2].any fun sh =>
    shareCap (coreOf s g) sh < chargeSum s g G.qlo sh (fun x => x ≤ n) * l.gmax
  (seqs.filter fun n => G.qlo < n && past n).foldl (fun a n => match a with
    | none => some n
    | some m => some (min m n)) none

/-! ### Boundaries of deterministic mode (R33, R36, R37) -/

/-- Whether a word that has not started may close its quantum just after itself, beside the words whose boundary is
fixed as they are placed: a guarded QEND or QSEAL, and an access that may reach device memory (R255). -/
def mayClose (i : Instr) : Bool :=
  match i with
  | .qend _ => i.flds.ge
  | .qseal _ => i.flds.ge
  | .ld _ => true
  | .lds _ => true
  | .atom _ => i.flds.anr
  | .trtot _ => i.flds.ge
  | _ => false

/-- What a destination register charges to the pool journal. -/
def regCharge (s : State) (g : Nat) (r : Reg) : Nat :=
  match r with
  | .v _ => widthOf s g * 4
  | .p _ => 8
  | _ => 0

/-- The most that a word can charge to the pool journal, the accumulator journal and the hold-back share beside its
registers (R35): `n` is the number of its lanes. -/
def effectBound (l : Launch) (n : Nat) (i : Instr) : Nat × Nat × Nat :=
  let f := i.flds
  match i with
  | .mark _ => (if l.stack then 128 else 0, 0, 0)
  | .bdiv _ => (if l.stack then 64 else 0, 0, 0)
  | .exit _ => (if l.stack then 1024 else 0, 0, 0)
  | .st _ => (64 * n, 0, 64 * n)
  | .sts _ => (64, 0, 64)
  | .stl _ => (128 * n, 0, 64 * n)
  | .atom _ => (0, 0, 64 * n)
  | .atoml _ => (128 * n, 0, 64 * n)
  | .cwb _ => (0, 0, 64 * n)
  | .cinv _ => (0, 0, 64 * n)
  | .stmap _ => (64, 0, 0)
  | .stunmap _ => (64, 0, 0)
  | .xmma _ => (0, 520 * (f.c + 1), 0)
  | .xmmac _ => (0, 520 * (f.c + 1), 0)
  | .ximma _ => (0, 520 * (f.c + 1), 0)
  | .xzero _ => (0, 520 * (f.c + 1), 0)
  | .xexp _ => (0, 520 * (f.c + 1), 0)
  | .xnorm _ => (0, 520 * (f.c + 1), 0)
  | .xgrd _ => (0, 520, 0)
  | .xrd _ => (0, 520, 0)
  | .xwr _ => (0, 520, 0)
  | .xflush _ => (l.localBytes, 520 * (f.c + 1), 0)
  | .rinit _ => (64, 0, 0)
  | .rwait _ => (64, 0, 0)
  | .rrel _ => (128, 0, 64)
  | .rpost _ => (64, 0, 0)
  | .rtail _ => (64, 0, 64)
  | .tbinit _ => (64, 0, 64)
  | .tbexp _ => (64, 0, 64)
  | .tbarr _ => (64, 0, 64)
  | .lrcv _ => (l.localBytes, 0, 0)
  | .lradd _ => (l.localBytes, 0, 0)
  | .trins _ => (0, 0, 64)
  | .trdrw _ => (0, 0, 64)
  | .trupd _ => (0, 0, 64)
  | .trtot _ => (0, 0, 64)
  | .trwgt _ => (0, 0, 64)
  | .trcfg _ => (0, 0, 64)
  | .syswr _ => (0, 0, 64)
  | .wake _ => (0, 0, 64)
  | .gate _ => (0, 0, 64)
  | .jobarm _ => (0, 0, 64)
  | .jobdone _ => (0, 0, 64)
  | .susp _ => (0, 0, 64)
  | .fltrply _ => (0, 0, 64)
  | _ => (0, 0, 0)

/-- The most that a word can charge to the three shares (R35). -/
def chargeBound (s : State) (g : Nat) (w : QWord) : Nat × Nat × Nat :=
  let regs := ((regsOf w.instr).map fun x => if x.2 = .r then 0 else regCharge s g x.1).sum
  let x := effectBound (launchOf s g) (popCount 64 w.mask.toNat) w.instr
  (regs + x.1, x.2)

/-- What the destinations of started words may still charge to the pool journal. -/
def flightCharge (s : State) (g : Nat) (fs : List Flight) : Nat :=
  (fs.flatMap fun f => f.dests.map (regCharge s g)).sum

/-- The words of a group, from its opening boundary up to `b`, that have not started or not completed. -/
def openWords (G : Group) (b : Nat) : List QWord :=
  (unstarted G ++ (match G.handler with
    | none => []
    | some h => h.saved)).filter fun w => decide (G.qlo ≤ w.seq) && decide (w.seq < b)

/-- No boundary but those already known can come at or before `b`: no word before it may still close its quantum,
and what the words before it have charged, with the most that the others can, fits in every share. -/
def boundarySure (s : State) (g b : Nat) : Bool :=
  let G := grp s g
  let l := launchOf s g
  let ws := openWords G b
  let loads := flightCharge s g (G.flights.filter fun f => !f.ok && decide (G.qlo ≤ f.seq) && decide (f.seq < b))
  let bound (k : Nat) : Nat := (ws.map fun w => shareOf (chargeBound s g w) k).sum + (if k = 0 then loads else 0)
  !(openWords G b).any (fun w => mayClose w.instr) &&
    [0, 1, 2].all fun k =>
      decide ((chargeSum s g G.qlo k (fun x => decide (x < b)) + bound k) * l.gmax ≤ shareCap (coreOf s g) k)

/-- The next boundary that is known (R33): one that a word has fixed, Q words, or the first word whose charge does
not fit. -/
def nextBoundary (s : State) (g : Nat) : Option Nat :=
  let G := grp s g
  let full := G.qlo + (launchOf s g).q
  let bs := (G.marks.filter fun b => decide (G.qlo < b)) ++ (if full ≤ G.nextSeq then [full] else []) ++
    (shareBoundary s g).toList
  bs.foldl (fun a b => match a with
    | none => some b
    | some x => some (min x b)) none

/-- The closes of deterministic mode that are due (R33), in the order of their boundaries: each as soon as no earlier
boundary can come. -/
def detCloses (g : Nat) : Nat → State → State
  | 0, s => s
  | fuel + 1, s =>
    match nextBoundary s g with
    | none => s
    | some b => if boundarySure s g b then detCloses g fuel (closeGroup g b s) else s

/-- All of them. -/
def detClose (g : Nat) (s : State) : State :=
  if isDet s g then detCloses g ((grp s g).nextSeq - (grp s g).qlo + 1) s else s

/-- A word fixes a boundary of its group. -/
def addMark (g b : Nat) (s : State) : State :=
  modGrp s g fun G => if b ≤ G.qlo || G.marks.contains b then G else { G with marks := G.marks ++ [b] }

/-- Close the quantum of a word's group just after the word (R33): for the whole pair in normal mode, for the
group alone in deterministic mode. A word that a trap had abandoned has closed its quantum before. -/
def closeAfter (c : Cur) (s : State) : State :=
  if c.w.seq < (grp s c.g).qlo then s
  else if isDet s c.g then detClose c.g (addMark c.g (c.w.seq + 1) s)
  else closePair (pairOf s c.g) (some (c.g, c.w.seq + 1)) s

/-- The bytes that a word charges for the lane registers and predicates that it writes, but those that the open
quantum is charged for already (R35). -/
def newRegs (s : State) (g : Nat) (i : Instr) : Nat :=
  let G := grp s g
  let old := ((pair s (pairOf s g)).journal.filter fun u => u.g = g && !u.keep && decide (G.qlo ≤ u.seq)).filterMap
    (undoCharge s)
  let once (x : Item) (n : Nat) : Nat := if old.any fun y => y.2.1 = x then 0 else n
  ((regsOf i).map fun x => match x with
    | (_, .r) => 0
    | (.v n, _) => (match physReg G n with
      | some m => once (.v g m 0) (widthOf s g * 4)
      | none => 0)
    | (.p n, _) => once (.p g n) 8
    | _ => 0).sum

/-- Every earlier word of the group has completed, as far as R32 counts it. -/
def earlierDone (s : State) (c : Cur) : Bool :=
  !(openSeqs (grp s c.g)).any fun n => decide (n < c.w.seq)

/-- A word's own charge fits in the open quantum, whatever the words before it still charge. -/
def chargeFits (s : State) (c : Cur) (own : Nat × Nat × Nat) : Bool :=
  let G := grp s c.g
  let l := launchOf s c.g
  let loads := flightCharge s c.g
    (G.flights.filter fun f => !f.ok && decide (G.qlo ≤ f.seq) && decide (f.seq < c.w.seq))
  [0, 1, 2].all fun k =>
    decide ((chargeSum s c.g G.qlo k (fun x => decide (x < c.w.seq)) + shareOf own k + (if k = 0 then loads else 0) +
      ((openWords G c.w.seq).map fun w => shareOf (chargeBound s c.g w) k).sum) * l.gmax ≤ shareCap (coreOf s c.g) k)

/-- The quantum of a word is known: no boundary can come between the opening boundary and the word. `own` is what
the word itself charges to the three shares. -/
def quantumSure (s : State) (c : Cur) (own : Nat × Nat × Nat) : Bool :=
  let G := grp s c.g
  decide (c.w.seq < G.qlo) ||
    (!(G.marks.any fun b => decide (G.qlo < b) && decide (b ≤ c.w.seq)) &&
      decide (c.w.seq < G.qlo + (launchOf s c.g).q) &&
      !(openWords G c.w.seq).any (fun w => mayClose w.instr) && chargeFits s c own)

/-- A read of a deterministic launch waits: its quantum is not known yet, or an earlier quantum's epoch has not
committed (R36, R149). -/
def epochWait (s : State) (c : Cur) (own : Nat × Nat × Nat) : Bool :=
  isDet s c.g && (!quantumSure s c own || decide ((launchOf s c.g).epoch < quantumOf (grp s c.g) c.w.seq))

/-- Where every earlier word has completed and the word's own charge does not fit, the boundary comes just before the
word (R33). -/
def overflowClose (c : Cur) (own : Nat × Nat × Nat) (s : State) : State :=
  if isDet s c.g && earlierDone s c && decide ((grp s c.g).qlo < c.w.seq) && !chargeFits s c own then
    detClose c.g (addMark c.g c.w.seq s)
  else s

/-- A word that closes its quantum just before itself in deterministic mode (R33). -/
def closesBefore (i : Instr) : Bool :=
  match i with
  | .bar _ => true
  | .barX _ => true
  | .barw _ => true
  | .barwX _ => true
  | .tbwait _ => true
  | .claim _ => true
  | .claimX _ => true
  | .psh _ => true
  | .pop _ => true
  | .rwait _ => true
  | .rpost _ => true
  | .lsnd _ => true
  | .lrcv _ => true
  | .lradd _ => true
  | .xrun _ => true
  | .xpoll _ => true
  | _ => false

/-! ### Pre-emption (R245, R308) -/

/-- The context of a launch on a core (R40). -/
def part (s : State) (lk c : Nat) : Part := nget {} (launch s lk).parts c
def modPart (lk c : Nat) (f : Part → Part) (s : State) : State :=
  modLaunch s lk fun l => { l with parts := nput l.parts c (f (nget {} l.parts c)) }

/-- The core that names a group's context. -/
def seatOf (s : State) (g : Nat) : Nat := (team s (tkOf g)).core

/-- The groups of a context. -/
def groupsOfPart (s : State) (lk c : Nat) : List Nat :=
  (s.groups.filter fun x => lkOf x.1 = lk && seatOf s x.1 = c).map (·.1)

/-- The cores of a context whose name is core `c`. -/
def coresOf (l : Launch) (c : Nat) : List Nat := if l.paired then [c, c + 1] else [c]

/-- A context leaves its core: its share of the carve and its windows are free (R308). -/
def vacate (lk c : Nat) (s : State) : State :=
  let cs := coresOf (launch s lk) c
  modLaunch (modPart lk c (fun p => { p with capture := 3, preempt := false }) s) lk fun l =>
    { l with wins := l.wins.filter fun w => !cs.contains w.1 }

/-- The dispatcher decides to pre-empt a context: it stops at the next close of its pair's quantum (R308). One that is
still being restored has its image, and leaves at once. -/
def askPart (lk c : Nat) (s : State) : State :=
  let p := part s lk c
  if p.capture = 4 then decisionPoint (vacate lk c s)
  else if p.preempt || p.capture ≠ 0 then s
  else modPart lk c (fun p => { p with preempt := true, atQ := (pair s (c / 2)).qn, askedAt := s.now }) s

/-- A launch whose contexts are pre-empted and restored together: gang-scheduled or deterministic (R307). -/
def wholeLaunch (s : State) (lk : Nat) : Bool := (launch s lk).det || cardFld s (lk / 2) 11 11 = 1

/-- Decide to pre-empt a context, with every other of its launch where they go together; the copies of a
redundant card go together too (R341). -/
def askPreempt (lk c : Nat) (s : State) : State :=
  if wholeLaunch s lk then
    [lk / 2 * 2, lk / 2 * 2 + 1].foldl (fun s k =>
      (launch s k).parts.foldl (fun s p => askPart k p.1 s) s) s
  else askPart lk c s

/-- A group stops at the first close of its pair's quantum after the decision (R308). -/
def preemptDue (s : State) (g : Nat) : Bool :=
  let p := part s (lkOf g) (seatOf s g)
  p.preempt && !isDet s g && decide (p.atQ < (pair s (pairOf s g)).qn)

/-! ### Completion and sealing (R34) -/

/-- A quantum's words have all completed, as far as R32 counts them. -/
def quantumComplete (G : Group) (q : Quantum) : Bool :=
  let inQ (n : Nat) : Bool := q.lo ≤ n && n < q.hi
  decide (q.hi ≤ G.nextSeq) && !((unstarted G).any fun w => inQ w.seq && !sealWait w) &&
    !(G.flights.any fun f => inQ f.seq && !f.ok) && !(recordSeqs G).any inQ

/-- Note that the oldest closed quantum of a group is complete (R34). -/
def markComplete (g : Nat) (s : State) : State :=
  modGrp s g fun G =>
    match G.closed with
    | q :: qs =>
      if q.doneAt.isNone && quantumComplete G q then
        { G with closed := { q with doneAt := some s.now } :: qs }
      else G
    | [] => G

/-- The seal window of a group's oldest closed quantum has passed (R34). A strike report of the time at which it ends
comes before the seal (R331), and `strike` takes none after it. -/
def sealDue (s : State) (g : Nat) : Bool :=
  match (grp s g).closed with
  | q :: _ =>
    match q.doneAt with
    | some t => decide (t + (pair s (pairOf s g)).sealWin ≤ s.now)
    | none => false
  | [] => false

end Sys2Proof.Machine
end

