-- ==== Sys2Proof/Machine/Issue.lean ====
section
/-!
DEFINITION. Sys2Proof/Machine/Issue.lean: the wrapper that every instruction word goes through (R72 to R80,
R84): the splitter's checks, its place in its queue, its start, and the guard that may turn it off.
-/
namespace Sys2Proof.Machine

/-! ### The splitter's checks (R75) -/

/-- A Z word that the group's mode does not admit (R39). -/
def privileged (s : State) (g : Nat) (i : Instr) : Bool :=
  if (grp s g).supv then false
  else match i with
    | .nop e _ => e = 7#3
    | .twait e _ => e = 7#3
    | .tsig e _ => e = 7#3
    | .hret _ => true
    | .sysrd _ => true
    | .syswr _ => true
    | .wake _ => true
    | .gate _ => true
    | .halt _ => true
    | .susp _ => true
    | .fltrply _ => true
    | .jobarm _ => cardFld s (gCard g) 14 14 = 0
    | _ => false

/-- A system register that is read only (R242). -/
def sysregRo (n : Nat) : Bool := n ≠ 0 && n ≠ 1

/-- Cause 7 of R75: the word is not admitted in the group's present state. -/
def stateBad (s : State) (g : Nat) (i : Instr) : Bool :=
  let G := grp s g
  let w := widthOf s g
  let f := i.flds
  let det := isDet s g
  match i with
  | .give _ => 0 < G.plan.n || decide (G.blocks ≤ f.a)
  | .giveX _ => 0 < G.plan.n || decide (G.blocks ≤ f.a)
  | .claim _ => 0 < G.plan.n || decide (16 < G.blocks + f.a)
  | .claimX _ => 0 < G.plan.n || decide (16 < G.blocks + f.a)
  | .vrot _ => G.plan.n = 0
  | .rotcfg _ => decide (8 * G.blocks < f.a)
  | .quant _ => f.m 3 && w = 16
  | .lshufX _ => f.mod % 4 ≠ 0 && decide (w ≤ f.imm)
  | .lbcast _ => decide (w ≤ f.b)
  | .lbcastX _ => !f.m 0 && decide (w ≤ f.b)
  | .lread _ => f.sel = 1 && decide (w ≤ f.imm)
  | .lwrite _ => f.sel = 1 && decide (w ≤ f.imm)
  | .xrd _ => decide (64 / w ≤ f.imm)
  | .xwr _ => decide (64 / w ≤ f.imm)
  | .cqry _ => det
  | .pstat _ => det
  | .hret _ => G.handler.isNone
  | .syswr _ => sysregRo f.imm
  | _ => false

/-- The lowest cause of R75 that a word meets at the splitter. -/
def illop (s : State) (g : Nat) (i : Instr) : Option Nat :=
  match i.row with
  | none => none
  | some r =>
    let f := i.flds
    if r.cause2 f then some 2
    else if r.cause3 f then some 3
    else if r.cause4 f (8 * (grp s g).blocks) then some 4
    else if privileged s g i then some 5
    else if !r.modOk then some 6
    else if stateBad s g i then some 7
    else none

/-- Nothing new starts or is placed while a trap is raised or the group waits for fault replies, is parked or
retired, its pair rolls back, or its instance ends (R84, R164, R332). -/
def stopped (s : State) (g : Nat) : Bool :=
  let G := grp s g
  G.raised.isSome || G.retired || G.parked || preemptDue s g || (launchOf s g).hostTrap.isSome ||
    (pair s (pairOf s g)).rolling || (unstarted G).any fun w => !w.recs.isEmpty

/-- The splitter holds the word back behind a GIVE or CLAIM that has not completed (R76). -/
def heldBack (s : State) (g : Nat) (i : Instr) : Bool :=
  ((unstarted (grp s g)).any fun w => isPool w.instr) && (namesLane i || isPool i || isRot i) ||
    ((unstarted (grp s g)).any fun w => isGuardedRot w.instr) && (isPool i || isRot i)

/-- The rotation state that a word leaves in program order (R28, R29). -/
def planAfter (i : Instr) (r : Rot) : Rot :=
  match i with
  | .rotcfg w => if w.g.ge then r else ⟨w.a.toNat, w.b.toNat, 0⟩
  | .vrot _ => { r with p := (r.p + r.n - 1) % r.n }
  | _ => r

/-- The word stops fetch of its slot until it resolves (R77). -/
def stopOf (i : Instr) : Bool :=
  match i.row with
  | none => false
  | some r => r.stop

/-- A TRAP or MARK ... of one slot keeps the other slot's words back until it is done (R109). -/
def isMark (i : Instr) : Bool :=
  match i with
  | .mark _ => true
  | _ => false

/-- The word takes the next sequence number, and its slot moves past it or stops (R76, R77). -/
def place (i : Instr) (c : Cur) (s : State) : State :=
  modGrp s c.g fun G =>
    let sl := slotOf G c.w.slot
    -- deterministic mode takes words from one slot up to a fetch-stopping word, then from the other (R78)
    let turn := if G.s0.valid && G.s1.valid then (if stopOf i then 1 - c.w.slot else G.turn) else 0
    let sl' := if stopOf i then { sl with stopped := true }
      else { sl with addr := sl.addr + BitVec.ofNat 64 i.size }
    { setSlot G c.w.slot sl' with
      turn := turn
      snaps := nput G.snaps c.w.seq (snapOf G)
      nextSeq := G.nextSeq + 1
      plan := planAfter i G.plan }

/-- A word whose quantum closes just after it, whatever it finds: a value-returning global atomic (R153), a sum-tree
command with a result (R234), and QEND, QSEAL and TRTOT, which are guarded off where their guard is empty (R33, R73). -/
def closesAfter (i : Instr) : Bool :=
  match i with
  | .qend _ => !i.flds.ge
  | .qseal _ => !i.flds.ge
  | .atom _ => !i.flds.anr
  | .trins _ => !i.flds.m 0
  | .trdrw _ => true
  | .trupd _ => true
  | .trwgt _ => true
  | .trtot _ => !i.flds.ge
  | _ => false

/-- The boundaries that a word of deterministic mode fixes as it is placed, and the closes that are due (R33). -/
def closeBefore (i : Instr) (c : Cur) (s : State) : State :=
  if isDet s c.g then
    let s1 := if closesBefore i then addMark c.g c.w.seq s else s
    detClose c.g (if closesAfter i then addMark c.g (c.w.seq + 1) s1 else s1)
  else s

/-- The word acts per lane: an empty lane set does not guard it off (R73). -/
def perLane (i : Instr) : Bool :=
  match i.row with
  | none => false
  | some r => r.lanes

/-- A word that acts once for the group, with no active lane (R73). -/
def guardedOff (s : State) (c : Cur) (i : Instr) : Bool :=
  !perLane i && i.flds.ge && activeLanes s c i.flds = 0

/-- A handler word that R324 traps DOUBLE: one that can wait on another group. -/
def handlerWaits (s : State) (g : Nat) (i : Instr) : Bool :=
  (grp s g).handler.isSome && closesBefore i

/-- The charge of a word that exceeds a whole share (R35): its RANGE cause. -/
def overCharge (s : State) (g seq : Nat) : Option Nat :=
  if !isDet s g then none
  else if ownOver s g seq 1 then some 3
  else if ownOver s g seq 0 || ownOver s g seq 2 then some 7
  else none

/-- In deterministic mode a word whose own charge cannot fit traps RANGE instead (R35). -/
def checkCharge (c : Cur) (s : State) (r : Res) : Res :=
  let t := match r with
    | .done t => some t
    | .fly _ t => some t
    | .wait _ t => some t
    | _ => none
  match t with
  | none => r
  | some t =>
    match overCharge t c.g c.w.seq with
    | some cause => trapAs c clsRange cause 0 s
    | none => r

/-- In a handler, a word's own quantum holds the trapping word or comes after it, and HRET alone lets it be
sealed (R322, R324). -/
def handlerStuck (s : State) (g : Nat) : Bool := (grp s g).handler.isSome

/-- The quantum tag of the oldest word of a handler's record. -/
def recordTag (s : State) (g : Nat) : Option (Nat × Nat) :=
  match recordSeqs (grp s g) with
  | [] => none
  | n :: ns => some (quantumTag s g (ns.foldl min n))

/-- An entry that cannot be sealed before the group's handler returns (R324): its quantum, or in normal mode the
quantum of its pair, holds a word of the handler's record or follows one that does. -/
def heldStuck (s : State) (g : Nat) (h : HB) : Bool :=
  match recordTag s g with
  | none => false
  | some t => !h.sealed && (tagOf s h).1 = t.1 && decide (t.2 ≤ (tagOf s h).2)

/-- Wait for the seal or commit of the word's own quantum, or trap DOUBLE in a handler (R324). -/
def waitSeal (c : Cur) (cause : Nat) (s : State) : Res :=
  if handlerStuck s c.g then trapAs c clsDouble 0 0 s else waitFor c cause s

/-- Wait for the seals of held entries, or trap DOUBLE where one of them cannot come (R324). -/
def waitHeld (c : Cur) (cause : Nat) (hs : List HB) (s : State) : Res :=
  if hs.any (heldStuck s c.g) then trapAs c clsDouble 0 0 s else waitFor c cause s

/-- Wait for the commit of the epochs before a word's quantum (R149), or trap DOUBLE where one of them holds a word
of a handler's record (R324). -/
def waitEpoch (own : Nat × Nat × Nat) (c : Cur) (s : State) : Res :=
  let G := grp s c.g
  let lo := ((quantumIn G c.w.seq).map (·.lo)).getD G.qlo
  let stuck :=
    if quantumSure s c own then (recordSeqs G).any fun n => decide (n < lo)
    else G.handler.isSome && !((unstarted G).any fun w => decide (w.seq < c.w.seq)) &&
      !(G.flights.any fun f => !f.ok && decide (f.seq < c.w.seq))
  if stuck then trapAs c clsDouble 0 0 s else waitFor c 8 (overflowClose c own s)

/-- Run a word that may start: guarded off, or its own effect. -/
def runWord (i : Instr) (body : Cur → State → Res) (c : Cur) (s : State) : State :=
  if guardedOff s c i then
    finish c i (if stopOf i then resolve c (c.w.pc.toNat + i.size) s else s)
  else if handlerWaits s c.g i then
    applyRes c i (trapAs c clsDouble 0 0 s)
  else applyRes c i (checkCharge c s (body c s))

/-- Put a placed word at the tail of its queue (R76). -/
def enqueue (i : Instr) (c : Cur) (s : State) : State :=
  modGrp s c.g fun G =>
    noteWait (setQueue G (engOf i) (queueOf G (engOf i) ++ [{ c.w with instr := i }]))

/-- A saved word that has been fetched again goes back into its queue with its sequence number (R86). -/
def rejoinQueue (i : Instr) (c : Cur) (s : State) : State :=
  modGrp (enqueue i c s) c.g fun G => { G with refetch := G.refetch.filter fun w => w.seq ≠ c.w.seq }

/-- A word that the splitter has fetched for the first time (R75, R76). -/
def takeWord (i : Instr) (body : Cur → State → Res) (c : Cur) (s : State) : State :=
  if heldBack s c.g i then s
  else
    match illop s c.g i with
    | some cause => raiseTrap c.g (trapRec s c i clsIllop cause 0 0) s
    | none =>
      if 8 ≤ queueLoad (grp s c.g) (engOf i) then s
      else
        let s1 := closeBefore i c (place i c s)
        if startable i c s1 then runWord i body c s1 else enqueue i c s1

/-- What a group's registers are called from now on: by the rotation state in force at the place of a word (R29). -/
def useRot (g : Nat) (w : QWord) (s : State) : State := modGrp s g fun G => { G with map := w.rot }

/-- A word at the head of its queue, or one that the splitter has just fetched. In deterministic mode the closes
that are due come first (R33). -/
def wordStep (i : Instr) (body : Cur → State → Res) (c : Cur) (s0 : State) : State :=
  let s := useRot c.g c.w (detClose c.g s0)
  if stopped s c.g then s
  else if c.retry then
    if startable i c s then runWord i body c s else s
  else if c.w.seq < (grp s c.g).nextSeq then rejoinQueue i c s
  else takeWord i body c s

/-- The meaning of an instruction word with its own effect `body`. -/
def word (i : Instr) (body : Cur → State → Res) (s : State) : Host.Outcome State Fault Refusal :=
  match s.cur with
  | none => .fault .noWord
  | some c => .next (wordStep i body c { s with cur := none })

/-- The meaning of a machine event: a next state. -/
def event (s : State) : Host.Outcome State Fault Refusal := .next s

end Sys2Proof.Machine
end

