-- ==== Sys2Proof/Machine/Operands.lean ====
section
/-!
DEFINITION. Sys2Proof/Machine/Operands.lean: the operands of lane words (R115, R118, R128): typed reads and
writes of lane registers, the selectable operand, and the values an instruction gives to each active lane.
-/
namespace Sys2Proof.Machine

/-- The bits of a lane operand: a register, or a pair for a 64-bit type (R115). -/
def laneRaw (s : State) (g : Nat) (wide : Bool) (n l : Nat) : Nat :=
  if wide then vread64 s g n l else vread s g n l

/-- The selectable operand of R118 in a lane: `n` is the field that names it, `sg` says that an I12 operand
is sign-extended. -/
def selRaw (s : State) (g : Nat) (f : Flds) (wide sg : Bool) (n l : Nat) : Nat :=
  if f.sel = 1 then (if sg then cut 64 f.i12 else f.imm)
  else if f.sel = 2 then uread s g n
  else laneRaw s g wide n l

/-- What an integer of a type leaves in a register: extended to 32 bits, or 64 bits (R115). -/
def tyReg (t : Nat) (x : Int) : Nat :=
  let w := intWidth t
  if w = 64 then cut 64 x else cut 32 (tyInt t (cut w x))

/-- What a code of any type of R128 leaves in a register (R115). -/
def codeReg (t x : Nat) : Nat := if t < 8 then tyReg t (x : Nat) else x

/-- Write a value to a lane register, or a pair, in each listed lane (R115, R116). -/
def putLanes (c : Cur) (wide : Bool) (n : Nat) (xs : List (Nat × Nat)) (s : State) : State :=
  if wide then vwriteLanes64 c n xs s else vwriteLanes c n xs s

/-- One value for each active lane, ascending; every one is read before any is written (R116). -/
def eachLane (s : State) (c : Cur) (f : Flds) (fn : Nat → Nat) : List (Nat × Nat) :=
  (laneList s c f).map fun l => (l, fn l)

/-- A V word that writes a lane register (or a pair) in each active lane. -/
def laneWord (wide : Bool) (f : Flds) (fn : State → Nat → Nat → Nat) (c : Cur) (s : State) : Res :=
  .done (putLanes c wide f.d (eachLane s c f (fn s c.g)) s)

/-- A V word that writes a predicate in each active lane. -/
def predWord (f : Flds) (fn : State → Nat → Nat → Bool) (c : Cur) (s : State) : Res :=
  .done (pput c f.d ((laneList s c f).map fun l => (l, fn s c.g l)) s)

/-- A word that writes one uniform register once for the group (R73, R116). -/
def unifWord (f : Flds) (fn : State → Nat → Nat) (c : Cur) (s : State) : Res :=
  .done (uwrite c f.d (fn s c.g) s)

/-- Clear a physical lane register in every lane that holds a value (R28, R140). -/
def clearReg (c : Cur) (n : Nat) (s : State) : State :=
  ((List.range 64).filter fun l => (nget 0 (grp s c.g).v (n * 64 + l)) ≠ 0).foldl
    (fun s l => jw c (.v c.g n l) .clear s) s

/-- The binary format of FT (R74). -/
def ftFmt (f : Flds) : Fmt :=
  match f.mod / 4 with
  | 0 => .f32
  | 1 => .f16
  | _ => .bf16

end Sys2Proof.Machine
end

