-- ==== Sys2Proof/Machine/MemWords.lean ====
section
/-!
DEFINITION. Sys2Proof/Machine/MemWords.lean: the M engine (R141 to R167, R286): loads, stores, atomics,
fences, prefetch and cache maintenance, stash windows and the poison test, with the checks of R145, partial
completion (R164) and the error policies (R165).
-/
namespace Sys2Proof.Machine

/-! ### Addresses (R143, R144) -/

/-- Bytes of an MT access. -/
def mtSize (ty : Nat) : Nat := intWidth (ty % 8) / 8

/-- The exact address of a lane: `z` is the stride and `off` the offset (R144). -/
def laneAddr (s : State) (g : Nat) (f : Flds) (z : Nat) (off : Int) (loc : Bool) (l : Nat) : Int :=
  match f.am with
  | 0 => (uread s g f.a : Int) + off + (l * z : Nat)
  | 1 => (uread s g f.a : Int) + (vread s g f.b l : Nat) + off
  | _ => (if loc then (vread s g f.a l : Nat) else (vread64 s g f.a l : Nat) : Int) + off

/-- A global address is taken modulo 2^64 (R144). -/
def laneGlobal (s : State) (g : Nat) (f : Flds) (z : Nat) (off : Int) (l : Nat) : Nat :=
  cut 64 (laneAddr s g f z off false l)

/-! ### Lanes of a word -/

/-- A lane that may perform: lane, virtual and physical address, whether it reaches device memory, and whether it
allocates as .nt does (R143, R286). -/
structure Hit where
  lane : Nat
  va : Nat
  pa : Nat
  dev : Bool
  low : Bool
deriving DecidableEq, Repr

/-- A lane of a local access: where its bytes lie, and the virtual and physical address of its write-back
where it writes into a stash window (R160). -/
structure LHit where
  lane : Nat
  half : Nat
  off : Nat
  back : Option Hit
deriving DecidableEq, Repr

/-- A faulting lane: lane, virtual address, PAGE cause and intermediate address, the kind of access, and the SRC of
its record (R292). -/
structure Bad where
  lane : Nat
  va : Nat
  cause : Nat
  ipa : Nat
  acc : Acc2
  src : Nat
deriving DecidableEq, Repr

/-- A lane that consumes poison under contain: lane, POISON cause and TADDR (R321). -/
structure Pois where
  lane : Nat
  cause : Nat
  addr : Nat
deriving DecidableEq, Repr

/-- The lanes of a mask as a list. -/
def lanesOf (m : Nat) : List Nat := maskList 64 m
/-- The mask of a list of lanes. -/
def maskOfLanes (ls : List Nat) : Nat := ls.foldl (fun a l => a ||| 2 ^ l) 0

/-- The lanes a word still has to perform (R164): active, not completed and not answered FAIL. A word that
acts once is lane 0. -/
def restLanes (s : State) (c : Cur) (f : Flds) (unif : Bool) : List Nat :=
  let act := if unif then 1 else activeLanes s c f
  lanesOf (act &&& notBits 64 (c.w.done.toNat ||| c.w.fail.toNat))

/-- The lane was answered POISON (R247). -/
def wasPois (c : Cur) (l : Nat) : Bool := c.w.pois.toNat.testBit l

/-- POISON lanes in ascending lane order. -/
def insertPois (p : Pois) : List Pois → List Pois
  | [] => [p]
  | x :: xs => if x.lane < p.lane then x :: insertPois p xs else p :: x :: xs
def sortPois (ps : List Pois) : List Pois := ps.foldr insertPois []

/-- Add performed lanes to the partial-completion mask. -/
def markDone (w : QWord) (ls : List Nat) : QWord :=
  { w with done := BitVec.ofNat 64 (w.done.toNat ||| maskOfLanes ls) }

/-- The mask that records and traps carry: 0 for a word that acts once (R292). -/
def repMask (unif : Bool) (w : QWord) : Word64 := if unif then 0 else w.done

/-! ### Fault records of a word (R164, R292) -/

/-- The pending fault record of one lane; `n` is NREC. -/
def laneRecord (s : State) (c : Cur) (unif : Bool) (w : QWord) (n : Nat) (b : Bad) : FaultRec :=
  let l := launchOf s c.g
  { src := b.src, acc := b.acc.code, cause := b.cause, ctx := l.ctx, partid := l.partid, job := gCard c.g,
    core := coreOf s c.g, lane := b.lane, group := gIdx c.g, team := gTeam c.g, nrec := n, va := b.va,
    seq := c.w.seq, mask := repMask unif w, ipa := b.ipa, time := s.now,
    owner := .lane c.g c.w.seq b.lane }

/-- One record per faulting lane. -/
def recordLanes (c : Cur) (unif : Bool) (w : QWord) (bad : List Bad) (s : State) : State :=
  { s with faults := s.faults ++ bad.map (laneRecord s c unif w bad.length) }

/-- How a word goes on after the lanes that could perform have performed (R145 classes 4 and 5, R164, R165,
R293): `w` carries the completed lanes, `fa` the address of a lane. -/
def settleLanes (c : Cur) (unif : Bool) (w : QWord) (bad : List Bad) (pois : List Pois) (fa : Nat → Nat)
    (complete : State → Res) (s : State) : Res :=
  match bad.find? fun b => b.cause = 8 with
  | some b => .trap clsPage 8 b.va (repMask unif w) w s
  | none =>
    if bad.any fun b => b.cause = causeAsleep then .wait { w with cause := 6 } s
    else if !bad.isEmpty then
      .wait { w with cause := 7, recs := bad.map (·.lane) } (recordLanes c unif w bad s)
    else match pois with
      | p :: _ => .trap clsPoison p.cause p.addr (repMask unif w) w s
      | [] =>
        match lanesOf w.fail.toNat with
        | l :: _ => .trap clsPage 9 (fa l) (repMask unif w) { w with fail := 0, pois := 0, stage := 0 } s
        | [] => complete s

/-! ### Translation of lanes -/

/-- Translate each lane in ascending order; `nt` is the word's .nt hint. -/
def xlateLanes (g : Nat) (a : Acc2) (nt : Bool) : List (Nat × Nat) → State → List Hit × List Bad × State
  | [], s => ([], [], s)
  | (l, va) :: xs, s =>
    let r := xlate s g va a
    let t := xlateLanes g a nt xs r.2
    match r.1 with
    | .ok pa mt => (⟨l, va, pa, decide (mt = 2) || paDevice s pa, nt || decide (mt = 1)⟩ :: t.1, t.2.1, t.2.2)
    | .fault cause ipa => (t.1, ⟨l, va, cause, ipa, a, 0⟩ :: t.2.1, t.2.2)

/-- The lanes' sectors that are poisoned, each once. -/
def poisSectors (s : State) (g : Nat) (hits : List Hit) : List Nat :=
  ((hits.filter fun h => viewPoison s g h.pa).map fun h => h.pa / 64).dedup

/-- Count poisoned reads of a launch (R165). -/
def countPois (g n : Nat) (s : State) : State :=
  if n = 0 then s else modLaunch s (lkOf g) fun l => { l with preads := l.preads + n }

/-- The launch's policy is continue (R165). -/
def isCont (s : State) (g : Nat) : Bool := (launchOf s g).cont

/-- The first lane of a list that satisfies a test. -/
def firstLane (xs : List (Nat × Nat)) (p : Nat → Bool) : Option (Nat × Nat) := xs.find? fun x => p x.2

/-- The checks of classes 1 and 3 for a global access (R145, R166); `own` is what the word charges to the shares
(R35). -/
def globalChecks (c : Cur) (size : Nat) (load : Bool) (own : Nat × Nat × Nat) (xs : List (Nat × Nat)) (s : State) :
    Option Res :=
  match firstLane xs fun va => va % size ≠ 0 with
  | some x => some (trapAs c clsMisalign 0 x.2 s)
  | none =>
    match firstLane xs fun va => (globalLock s c.g va size load).isSome with
    | some x => some (trapAs c clsRange ((globalLock s c.g x.2 size load).getD 0) x.2 s)
    | none => if neverFits s c.g own then some (trapAs c clsRange 7 0 s) else none

/-! ### Order within the M queue (R81, R148, R154) -/

/-- An ordered form at scope .clus or wider, in normal mode (R148, R264). -/
def wideScope (s : State) (g : Nat) (f : Flds) : Bool := decide (4 ≤ f.scope) && !isDet s g
def isAcq (f : Flds) : Bool := f.scope ≠ 0 && (f.ordf = 0 || f.ordf = 1 || f.ordf = 3)
def isRel (f : Flds) : Bool := f.scope ≠ 0 && (f.ordf = 0 || f.ordf = 2 || f.ordf = 3)

/-- A load of the group is in flight. -/
def loadsInFlight (s : State) (c : Cur) : Bool :=
  (grp s c.g).flights.any fun f => decide (f.seq < c.w.seq) && match f.kind with
    | .load .. => true
    | _ => false

/-- The group's own held entries of earlier words. -/
def ownHeld (s : State) (c : Cur) : List HB :=
  (pair s (pairOf s c.g)).hb.filter fun h => h.g = c.g && isGroupEntry h && decide (h.seq < c.w.seq)

/-- The entries of earlier accesses with .acq that have not performed (R148). In deterministic mode an atomic that
returns no value performs with its epoch, and holds nothing back. -/
def acqHeld (s : State) (c : Cur) : List HB :=
  (ownHeld s c).filter fun h => match h.what with
    | .atom _ _ d _ acq _ => acq && (d.isSome || !isDet s c.g)
    | .devLoad _ _ _ _ _ _ acq _ => acq
    | .devAtom _ _ _ _ acq _ => acq
    | _ => false

/-- What keeps an M word from performing now (R79, R81, R148): `store` for words that write. -/
def orderWait (c : Cur) (f : Flds) (store : Bool) (s : State) : Option Res :=
  if !(acqHeld s c).isEmpty then some (waitHeld c 6 (acqHeld s c) s)
  else if (store || isRel f) && loadsInFlight s c then some (waitFor c 0 s)
  else none

/-- The entries of a word. -/
def entriesOfWord (s : State) (g seq : Nat) : List HB :=
  (pair s (pairOf s g)).hb.filter fun h => h.g = g && isGroupEntry h && h.seq = seq

/-- An ordered access at team scope or wider is a release event or an acquire event, or both (R148, R257). -/
def ordEvents (g : Nat) (f : Flds) (s : State) : State :=
  let s1 := if isAcq f && decide (2 ≤ f.scope) then acqEvent g s else s
  if isRel f && decide (2 ≤ f.scope) then relEvent g s1 else s1

/-! ### Loads (R146, R149, R154) -/

/-- The bytes a lane loads, as a number. -/
def loadNum (s : State) (g pa size : Nat) : Nat := ofBytes (viewBytes s g pa size)

/-- Write a loaded value to a lane, or to a uniform register (R115, R146). -/
def loadPut (c : Cur) (d ty : Nat) (unif : Bool) (l x : Nat) (s : State) : State :=
  let t := ty % 8
  if unif then uwrite c d (cut 64 (tyInt t x)) s
  else if itWide t then vwrite64 c d l x s else vwrite c d l (tyReg t x) s

/-- The registers a load fills. -/
def loadDests (d ty : Nat) (unif : Bool) : List Reg :=
  if unif then [.u d] else if itWide (ty % 8) then [.v d, .v (d + 1)] else [.v d]

/-- The pieces of a load, by sector (R31). -/
def piecesOf (hits : List Hit) : List Piece :=
  ((hits.map fun h => h.pa / 64).dedup).map fun sec =>
    let mine := hits.filter fun h => h.pa / 64 = sec
    ⟨sec * 64, BitVec.ofNat 64 (maskOfLanes (mine.map (·.lane))), mine.all (·.low), none⟩

/-- The sectors of some lanes, each once, with its memory type: 1 where every lane reads it as .nt does. -/
def hitSectors (hits : List Hit) : List (Nat × Nat) :=
  ((hits.map fun h => h.pa / 64).dedup).map fun sec =>
    (64 * sec, b2n ((hits.filter fun h => h.pa / 64 = sec).all (·.low)))

/-- A word reads the sectors of some lanes through the L2 (R272, R279): whether all are there. -/
def readSectors (c : Cur) (hits : List Hit) (s : State) : Bool × State :=
  askReads (.word c.g c.w.seq) (launchOf s c.g).acct (hitSectors hits) s

/-- What has been read comes into the core's L1, unless it is streaming (R143, R267). -/
def cacheRead (g pa : Nat) (low : Bool) (s : State) : State := if low then s else l1Fill (coreOf s g) pa s

/-- The bytes of some lanes. -/
def hitBytes (hits : List Hit) (size : Nat) : List Nat := hits.flatMap fun h => (List.range size).map (h.pa + ·)

/-- Load every lane of a list now. -/
def loadNow (c : Cur) (d ty : Nat) (unif : Bool) (hits : List Hit) (s : State) : State :=
  let s1 := hits.foldl (fun t h => cacheRead c.g h.pa h.low t) s
  let s2 := hits.foldl (fun t h => loadPut c d ty unif h.lane (loadNum s c.g h.pa (mtSize ty)) t) s1
  markRead c.g (hitBytes hits (mtSize ty)) s2

/-- The bytes that a load in flight has still to return: address and size. -/
def pendingBytes (f : Flight) : List (Nat × Nat) :=
  match f.kind with
  | .load _ _ ty _ addrs pieces =>
    (addrs.filter fun x => pieces.any fun p => p.lanes.toNat.testBit x.1).map fun x => (x.2.2, mtSize ty)
  | _ => []

/-- An earlier load of the group has still to return a byte that this one reads: it comes first (R81, R253). -/
def loadBehind (s : State) (g seq : Nat) (pas : List Nat) (size : Nat) : Bool :=
  (grp s g).flights.any fun f => decide (f.seq < seq) &&
    (pendingBytes f).any fun p => pas.any fun pa => overlaps pa (pa + size) p.1 p.2

/-- A word has entries in the hold-back buffer on which it waits: it completes with them, and counts as
completed for its quantum (R32). -/
def heldFlight (c : Cur) (q : Nat) (dests : List Reg) : Flight :=
  ⟨c.w.seq, q, c.w.slot, c.w.mask, dests, true, .held c.w⟩

/-- The hold-back buffer has no room for `n` entries: the full buffer closes the quantum in normal mode, and
the word waits (R33, R271). In deterministic mode the quantum closes just before the word where its own charge does
not fit. -/
def holdRoom (c : Cur) (n : Nat) (s : State) : Option Res :=
  match holdFull s c.g c.w.seq n with
  | none => none
  | some cause =>
    let pr := pairOf s c.g
    let open? := (groupsOn s pr).any fun g => decide ((grp s g).qlo < firstOpen (grp s g))
    let s1 := if cause = 6 && open? then closePair pr none s else overflowClose c (0, 0, 64 * n) s
    let hs := (pairEntries s1 pr).filter fun h => if isDet s1 c.g then h.g = c.g else h.core = coreOf s1 c.g
    some (if (grp s1 c.g).handler.isSome && hs.all (heldStuck s1 c.g) then trapAs c clsDouble 0 0 s
      else waitFor c cause s1)

/-- A word with device lanes whose other lanes were answered FAIL, or POISON under contain: its lanes have been held,
and it traps once they have performed (R286, R293). Its mask is always 0. -/
def devRest (c : Cur) (unif : Bool) (pois : List Pois) (addr : Nat → Nat) (s : State) : Res :=
  if (entriesOfWord s c.g c.w.seq).isEmpty then
    settleLanes c unif { c.w with stage := 0 } [] pois addr (fun s => .done s) s
  else waitFor c 6 s

/-- Its lanes have been held: the word completes as they perform, or waits for them before it traps. -/
def devFly (c : Cur) (pois : List Pois) (dests : List Reg) (s : State) : Res :=
  if c.w.fail = 0 && pois.isEmpty then .fly (heldFlight c 2 dests) (closeAfter c s)
  else .wait { c.w with stage := 1, cause := 6 } (closeAfter c s)

/-- A device-type load: each lane in its own entry, performed after the seal (R255, R286); `zeros` is what it does to
lanes answered POISON under continue. -/
def loadDevice (c : Cur) (f : Flds) (unif : Bool) (pois : List Pois) (hits : List Hit) (zeros : State → State)
    (s : State) : Res :=
  match holdRoom c hits.length s with
  | some r => r
  | none =>
    if handlerStuck s c.g then trapAs c clsDouble 0 0 s
    else
      let s1 := hits.foldl (fun s h =>
        hold c.g c.w.seq (.devLoad f.d (f.mod % 8) unif h.lane h.va h.pa (isAcq f) (isRel f)) s) (zeros s)
      devFly c pois (loadDests f.d f.mod unif) s1

/-- The entries that a .sc load at a wide scope waits for: the group's earlier writes, and another group's
held-back bytes (R148, R254, R259). -/
def scHeld (s : State) (c : Cur) (f : Flds) (hits : List Hit) (size : Nat) : List HB :=
  if f.ordf = 3 && wideScope s c.g f then
    ownHeld s c ++ (pair s (pairOf s c.g)).hb.filter fun h => h.g ≠ c.g &&
      hits.any fun x => (List.range size).any fun i => (heldByte h (x.pa + i)).isSome
  else []

/-- The held atomics that a read follows: the group's own of earlier words (R154), and in normal mode those that happen
before it (R253). -/
def ownAtoms (s : State) (c : Cur) (pas : List Nat) (size : Nat) : List HB :=
  (if isDet s c.g then ownHeld s c else heldBefore s c.g c.w.seq (grp s c.g).seen).filter fun h =>
    pas.any fun pa => atomTouches pa size h

/-- A load's lanes once translated. -/
def loadLanes (c : Cur) (f : Flds) (unif : Bool) (addr : Nat → Nat) (hits : List Hit) (bad : List Bad)
    (answered : List (Nat × Nat)) (s : State) : Res :=
  let size := mtSize f.mod
  let cont := isCont s c.g
  let dev := hits.any (·.dev)
  let pas := hits.map (·.pa)
  let ansPois : List Pois := if cont then [] else answered.map fun x => ⟨x.1, 0, x.2⟩
  let pois : List Pois := if cont then [] else sortPois
    (ansPois ++ ((hits.filter fun h => viewPoison s c.g h.pa).map fun h => (⟨h.lane, 0, h.va⟩ : Pois)))
  let good := if cont then hits else hits.filter fun h => !viewPoison s c.g h.pa
  -- lanes answered POISON read zeros under continue
  let zeros (s : State) : State :=
    if cont then
      countPois c.g answered.length (answered.foldl (fun s x => loadPut c f.d f.mod unif x.1 0 s) s)
    else s
  if dev then
    if !bad.isEmpty then settleLanes c unif c.w bad [] addr (fun s => .done s) s
    else loadDevice c f unif (sortPois ansPois) hits zeros s
  else if !(scHeld s c f hits size).isEmpty then waitHeld c 6 (scHeld s c f hits size) s
  else if !(ownAtoms s c pas size).isEmpty then waitHeld c (if isDet s c.g then 8 else 6) (ownAtoms s c pas size) s
  else
    let whole := bad.isEmpty && pois.isEmpty && c.w.fail = 0 && !isAcq f && !isRel f && !good.isEmpty
    if whole then
      .fly ⟨c.w.seq, 2, c.w.slot, c.w.mask, loadDests f.d f.mod unif, false,
        .load (markDone c.w (answered.map (·.1))) f.d (f.mod % 8) unif
          (good.foldl (fun m h => nput m h.lane (h.va, h.pa)) []) (piecesOf good)⟩ (zeros s)
    else if loadBehind s c.g c.w.seq pas size then waitFor c 0 s
    else if !(readSectors c good s).1 then waitFor c 0 (readSectors c good s).2
    else
      let s0 := zeros (readSectors c good s).2
      -- a sector that returns later is counted as it returns
      let s1 := if cont then countPois c.g (poisSectors s c.g hits).length s0 else s0
      let s2 := ordEvents c.g f (loadNow c f.d f.mod unif good s1)
      settleLanes c unif
        (markDone c.w (good.map (·.lane) ++ (if cont then answered.map (·.1) else []))) bad pois addr
        (fun s => .done s) s2

/-- LD and LDS (R31, R146, R149): with no active lane the word completes at once. -/
def loadRes (i : Instr) (f : Flds) (unif : Bool) (c : Cur) (s : State) : Res :=
  let addr := fun l => if unif then cut 64 ((uread s c.g f.a : Int) + f.i12)
    else laneGlobal s c.g f (mtSize f.mod) f.i12 l
  let xs := (restLanes s c f unif).map fun l => (l, addr l)
  let own := (newRegs s c.g i, 0, 0)
  let ans := xs.filter fun x => wasPois c x.1
  if !unif && activeLanes s c f = 0 then .done s
  else if c.w.stage = 1 then
    devRest c unif (if isCont s c.g then [] else ans.map fun x => ⟨x.1, 0, x.2⟩) addr s
  else match globalChecks c (mtSize f.mod) true own xs s with
  | some r => r
  | none =>
    match orderWait c f false s with
    | some r => r
    | none =>
      if epochWait s c own && !xs.isEmpty then waitEpoch own c s
      else
        let r := xlateLanes c.g .read (f.m 3) (xs.filter fun x => !wasPois c x.1) s
        loadLanes c f unif addr r.1 r.2.1 ans r.2.2

/-! ### Stores (R147) -/

/-- The data a lane stores: its low bytes. -/
def storeBytes (s : State) (c : Cur) (f : Flds) (unif : Bool) (l : Nat) : List Byte :=
  toBytes (mtSize f.mod) (if unif then uread s c.g f.d else laneRaw s c.g (itWide (f.mod % 8)) f.d l)

/-- A sector's bytes as the lanes write them, a higher lane's byte standing (R147). -/
def sectorBytes (hits : List (Nat × List Byte)) : NMap Byte :=
  hits.foldl (fun m h => (h.2.zipIdx).foldl (fun m x => nput m ((h.1 + x.2) % 64) x.1) m) []

/-- Every offset of a sector as zero. -/
def zeroBytes : NMap Byte := (List.range 64).map fun i => (i, 0)

/-- `m` written onto `base`. -/
def overlay (base m : NMap Byte) : NMap Byte := m.foldl (fun a x => nput a x.1 x.2) base

/-- The entry of one sector. Under continue a poisoned sector is replaced by zeros first (R165). `back` is the half of
the team whose stash window it writes back. -/
def holdSector (c : Cur) (f : Flds) (hits : List (Hit × List Byte)) (sec : Nat) (s : State)
    (back : Option Nat := none) : State :=
  let hs := hits.filter fun x => x.1.pa / 64 = sec
  let m := sectorBytes (hs.map fun x => (x.1.pa, x.2))
  let m := if isCont s c.g && viewPoison s c.g (sec * 64) then overlay zeroBytes m else m
  match hs with
  | [] => s
  | (h, _) :: _ =>
    hold c.g c.w.seq (.data (h.va - h.va % 64) (sec * 64) m (b2n (isRel f && wideScope s c.g f)) false) s h.low back

/-- Device lanes: each in its own entry, in ascending lane order (R286). -/
def holdDevice (c : Cur) (f : Flds) (hits : List (Hit × List Byte)) (s : State) (back : Option Nat := none) : State :=
  hits.foldl (fun s x =>
    hold c.g c.w.seq (.data (x.1.va - x.1.va % 64) (x.1.pa - x.1.pa % 64) (sectorBytes [(x.1.pa, x.2)])
      (b2n (isRel f && wideScope s c.g f)) true) s false back) s

/-- A store's lanes once translated. -/
def storeLanes (c : Cur) (f : Flds) (unif : Bool) (addr : Nat → Nat) (hits : List Hit) (bad : List Bad)
    (answered : List Nat) (s : State) : Res :=
  let dev := hits.any (·.dev)
  let data := hits.map fun h => (h, storeBytes s c f unif h.lane)
  let secs := (hits.map fun h => h.pa / 64).dedup
  let cont := isCont s c.g
  let s0 := if cont then countPois c.g answered.length s else s
  if dev && !bad.isEmpty then settleLanes c unif c.w bad [] addr (fun s => .done s) s
  else
    match holdRoom c (if dev then hits.length else newSectors s c.g c.w.seq secs) s with
    | some r => r
    | none =>
      let s1 := if cont && !dev then countPois c.g (poisSectors s c.g hits).length s0 else s0
      let s2 := if dev then holdDevice c f data s1 else secs.foldl (fun s sec => holdSector c f data sec s) s1
      let w' := if dev then c.w else markDone c.w (hits.map (·.lane) ++ answered)
      settleLanes c unif w' bad [] addr (fun s => .done s) (ordEvents c.g f s2)

/-- The sectors that some lanes address, as a store charges them (R35). -/
def sectorCharge (xs : List (Nat × Nat)) : Nat := 64 * ((xs.map fun x => x.2 / 64).dedup).length

/-- ST and STS (R147). -/
def storeRes (f : Flds) (unif : Bool) (c : Cur) (s : State) : Res :=
  let addr := fun l => if unif then cut 64 ((uread s c.g f.a : Int) + f.i12)
    else laneGlobal s c.g f (mtSize f.mod) f.i12 l
  let xs := (restLanes s c f unif).map fun l => (l, addr l)
  match globalChecks c (mtSize f.mod) false (sectorCharge xs, 0, sectorCharge xs) xs s with
  | some r => r
  | none =>
    match orderWait c f true s with
    | some r => r
    | none =>
      let r := xlateLanes c.g .write (f.m 3) (xs.filter fun x => !wasPois c x.1) s
      storeLanes c f unif addr r.1 r.2.1 ((xs.filter fun x => wasPois c x.1).map (·.1)) r.2.2

/-! ### Global atomics (R150 to R154) -/

/-- Operands b and c of an atomic in a lane (R151). -/
def atomB (s : State) (g : Nat) (f : Flds) (l : Nat) : Nat := laneRaw s g f.awide f.b l
def atomC (s : State) (g : Nat) (f : Flds) (l : Nat) : Nat :=
  if f.mod = 7 then laneRaw s g f.awide (f.b + (if f.awide then 2 else 1)) l else 0

/-- The registers an atomic writes. -/
def atomDests (f : Flds) : List Reg :=
  if f.anr then [] else if f.awide then [.v f.d, .v (f.d + 1)] else [.v f.d]

/-- The value an atomic returns, written as its type (R115, R151). -/
def atomPut (c : Cur) (ty d l x : Nat) (s : State) : State :=
  if ty = 2 ∨ ty = 3 then vwrite64 c d l x s else vwrite c d l x s

/-- The lanes that one sector's entry carries. -/
def atomLanes (s : State) (c : Cur) (f : Flds) (hits : List Hit) : List AtomLane :=
  hits.map fun h => ⟨h.lane, h.va, h.pa, atomB s c.g f h.lane, atomC s c.g f h.lane⟩

/-- The group's lanes answered POISON under continue: 0 is returned and nothing written (R247). -/
def atomZeros (c : Cur) (f : Flds) (ls : List Nat) (s : State) : State :=
  let s1 := if f.anr then s else ls.foldl (fun s l => atomPut c f.aty f.d l 0 s) s
  countPois c.g ls.length s1

/-- ATOM's lanes once translated. -/
def atomLanesRes (c : Cur) (f : Flds) (addr : Nat → Nat) (hits : List Hit) (bad : List Bad)
    (answered : List (Nat × Nat)) (s : State) : Res :=
  let cont := isCont s c.g
  let dev := hits.any (·.dev)
  let ansPois : List Pois := if cont then [] else answered.map fun x => ⟨x.1, 0, x.2⟩
  let pois : List Pois := if cont then [] else sortPois
    (ansPois ++ (if dev then [] else
        (hits.filter fun h => viewPoison s c.g h.pa).map fun h => (⟨h.lane, 0, h.va⟩ : Pois)))
  let good := if cont || dev then hits else hits.filter fun h => !viewPoison s c.g h.pa
  let dOut := if f.anr then none else some f.d
  let secs := (good.map fun h => h.pa / 64).dedup
  if dev && !bad.isEmpty then settleLanes c false c.w bad [] addr (fun s => .done s) s
  else
    match holdRoom c (if dev then good.length else secs.length) s with
    | some r => r
    | none =>
      if (!f.anr || dev) && !good.isEmpty && handlerStuck s c.g then trapAs c clsDouble 0 0 s
      else
        let s1 := if cont then atomZeros c f (answered.map (·.1)) s else s
        let lanes := atomLanes s c f good
        let rel := isRel f && wideScope s c.g f
        if dev then
          devFly c pois (atomDests f) (ordEvents c.g f
            (lanes.foldl (fun s a => hold c.g c.w.seq (.devAtom f.mod f.aty dOut a (isAcq f) rel) s) s1))
        else
          let s2 := secs.foldl (fun s sec => hold c.g c.w.seq
              (.atom f.mod f.aty dOut (lanes.filter fun a => a.pa / 64 = sec) (isAcq f) rel) s
              ((good.filter fun h => h.pa / 64 = sec).all (·.low))) s1
          let zeroed := if cont then answered.map (·.1) else []
          let w' := markDone c.w (good.map (·.lane) ++ zeroed)
          -- a value-returning atomic closes its quantum, and completes once its lanes have performed
          let complete (s : State) : Res :=
            if f.anr then .done s
            else if (entriesOfWord s c.g c.w.seq).isEmpty then .done (closeAfter c s)
            else .fly (heldFlight { c with w := markDone c.w zeroed } 2 (atomDests f)) (closeAfter c s)
          settleLanes c false w' bad pois addr complete (ordEvents c.g f s2)

/-- ATOM (R150 to R154); where it returns values it is a global read (R149). -/
def atomRes (i : Instr) (f : Flds) (c : Cur) (s : State) : Res :=
  let size := atomSize f.aty
  let addr := laneGlobal s c.g f size 0
  let xs := (restLanes s c f false).map fun l => (l, addr l)
  let own := (newRegs s c.g i, 0, sectorCharge xs)
  let ans := xs.filter fun x => wasPois c x.1
  if c.w.stage = 1 then
    devRest c false (if isCont s c.g then [] else ans.map fun x => ⟨x.1, 0, x.2⟩) addr s
  else match globalChecks c size false own xs s with
  | some r => r
  | none =>
    match orderWait c f true s with
    | some r => r
    | none =>
      if !f.anr && epochWait s c own && !xs.isEmpty then waitEpoch own c s
      else
        let r := xlateLanes c.g .atomic false (xs.filter fun x => !wasPois c x.1) s
        atomLanesRes c f addr r.1 r.2.1 ans r.2.2

/-! ### Local accesses and stash windows (R144, R158 to R162) -/

/-- The bytes of a granule that a fill from a sector still has to take (R160). -/
def toFill (T : Team) (half gran sec : Nat) : List Nat :=
  match nfind (T.fill half) gran with
  | some x => (List.range 64).filter fun i => !(x.sec = sec && x.bytes.toNat.testBit i)
  | none => List.range 64

/-- Bytes of a granule take what a sector's read gives them, and the granule is filled (R160). -/
def putFill (tk half gran sec : Nat) (byte : Nat → Byte) (s : State) : State :=
  modTeam s tk fun T =>
    (T.setMem half ((toFill T half gran sec).foldl (fun m i => memSet m (64 * gran + i) (byte i)) (T.mem half))).setFill half
      (nput (T.fill half) gran ⟨sec, allFilled⟩)

/-- Fill a granule of a window from its sector, as the group reads it (R149, R160). -/
def fillGranule (g half gran pa : Nat) (s : State) : State :=
  let base := pa / 64 * 64
  markRead g ((toFill (team s (tkOf g)) half gran (pa / 64)).map (base + ·))
    (putFill (tkOf g) half gran (pa / 64) (fun i => viewByte s g (base + i)) s)

/-- What a local lane answers before it performs. -/
inductive LRes where
  | hit (h : LHit)
  | bad (b : Bad)
  | pois (p : Pois)
  /-- answered POISON, or nothing to do -/
  | skip (l : Nat)
  /-- its fill reads device-type memory: the lane and the entry that performs it (R255, R286) -/
  | dev (l : Nat) (h : Held)
  /-- a regulator has deferred its fill (R279) -/
  | late

/-- Fill the granule of a window that a lane touches, where it is not filled. A fill from device-type memory performs
after the seal, and a word that has waited for its fills takes them as they stand. -/
def fillFor (c : Cur) (l half a : Nat) (w : Stash) (s : State) : Option LRes × State :=
  if granFilled (team s (tkOf c.g)) half (a / 64) || c.w.stage = 1 then (none, s)
  else
    let ga := w.gaddr (a / 64 * 64)
    let r := xlate s c.g ga .read
    match r.1 with
    | .fault cause ipa => (some (.bad ⟨l, ga, cause, ipa, .read, 2⟩), r.2)
    | .ok pa mt =>
      if mt = 2 || paDevice s pa then (some (.dev l (.devFill (tkOf c.g) half (a / 64) ga pa)), r.2)
      else
        let q := askRead (.word c.g c.w.seq) pa (launchOf r.2 c.g).acct mt r.2
        if !q.1 then (some .late, q.2)
        else if viewPoison q.2 c.g pa then
          if isCont q.2 c.g then (none, countPois c.g 1 (fillGranule c.g half (a / 64) pa q.2))
          else (some (.pois ⟨l, 0, w.gaddr a⟩), q.2)
        else (none, fillGranule c.g half (a / 64) pa q.2)

/-- A local lane: its window's granule is filled, and a write finds where its bytes go (R160). -/
def prepLane (c : Cur) (write : Bool) (l half a : Nat) (s : State) : LRes × State :=
  match stashHit s c.g half a with
  | none => (.hit ⟨l, half, a, none⟩, s)
  | some w =>
    if wasPois c l then (.skip l, s)
    else
      match fillFor c l half a w s with
      | (some r, s1) => (r, s1)
      | (none, s1) =>
        if !write then (.hit ⟨l, half, a, none⟩, s1)
        else
          let r := xlate s1 c.g (w.gaddr a) .write
          match r.1 with
          | .ok pa mt =>
            (.hit ⟨l, half, a, some ⟨l, w.gaddr a, pa, decide (mt = 2) || paDevice s1 pa, decide (mt = 1)⟩⟩, r.2)
          | .fault cause ipa => (.bad ⟨l, w.gaddr a, cause, ipa, .write, 0⟩, r.2)

/-- The lanes of a local access, ascending. -/
def prepLanes (c : Cur) (write : Bool) : List (Nat × Nat × Nat) → State → List LRes × State
  | [], s => ([], s)
  | (l, half, a) :: xs, s =>
    let r := prepLane c write l half a s
    let t := prepLanes c write xs r.2
    (r.1 :: t.1, t.2)

def lhits (rs : List LRes) : List LHit := rs.filterMap fun r => match r with
  | .hit h => some h
  | _ => none
def lbads (rs : List LRes) : List Bad := rs.filterMap fun r => match r with
  | .bad b => some b
  | _ => none
def lpois (rs : List LRes) : List Pois := rs.filterMap fun r => match r with
  | .pois p => some p
  | _ => none
def lskips (rs : List LRes) : List Nat := rs.filterMap fun r => match r with
  | .skip l => some l
  | _ => none
def llate (rs : List LRes) : Bool := rs.any fun r => match r with
  | .late => true
  | _ => false
def ldevs (rs : List LRes) : List Held := (rs.filterMap fun r => match r with
  | .dev _ h => some h
  | _ => none).dedup

/-- A lane reaches device-type memory through a window. -/
def ldevice (rs : List LRes) : Bool := !(ldevs rs).isEmpty || (lhits rs).any fun h => match h.back with
  | some b => b.dev
  | none => false

/-- The checks of classes 1 to 3 for a local access, and where its lanes lie (R145); `own` gives what it charges to
the shares (R35). -/
def localChecks (c : Cur) (size : Nat) (load : Bool) (own : List (Nat × Nat × Nat) → Nat × Nat × Nat)
    (xs : List (Nat × Int)) (s : State) : Res ⊕ List (Nat × Nat × Nat) :=
  match xs.find? fun x => x.2 % (size : Int) ≠ 0 with
  | some x => .inl (trapAs c clsMisalign 0 (cut 64 x.2) s)
  | none =>
    match xs.find? fun x => (localAt s c.g x.2).isNone with
    | some x => .inl (trapAs c clsPage 0 (cut 64 x.2) s)
    | none =>
      let ys := xs.map fun x => let p := (localAt s c.g x.2).getD (0, 0); (x.1, p.1, p.2)
      match (xs.zip ys).find? fun z => localLocked s c.g z.2.2.1 z.2.2.2 size load with
      | some z => .inl (trapAs c clsRange 0 (cut 64 z.1.2) s)
      | none => if neverFits s c.g (own ys) then .inl (trapAs c clsRange 7 0 s) else .inr ys

/-- The lanes whose window's granule is not filled: their fill is a global read (R149, R160). -/
def unfilled (s : State) (c : Cur) (ys : List (Nat × Nat × Nat)) : List (Nat × Nat × Nat) :=
  if c.w.stage = 1 then [] else ys.filter fun y => (stashHit s c.g y.2.1 y.2.2).isSome &&
    !granFilled (team s (tkOf c.g)) y.2.1 (y.2.2 / 64)

/-- The sector that a lane's fill reads, where the TLBs or tables give it. -/
def fillSector (s : State) (c : Cur) (y : Nat × Nat × Nat) : Option Nat :=
  match stashHit s c.g y.2.1 y.2.2 with
  | none => none
  | some w => match (xlate s c.g (w.gaddr (y.2.2 / 64 * 64)) .read).1 with
    | .ok pa _ => some pa
    | .fault _ _ => none

/-- What keeps the fills of a local word from being read now: an earlier epoch (R149), and held atomics on their
sectors: the group's own or, in normal mode, its team's and those that happen before it (R154, R253). -/
def fillWait (s : State) (c : Cur) (own : Nat × Nat × Nat) (ys : List (Nat × Nat × Nat)) : Option Res :=
  let us := unfilled s c ys
  if us.isEmpty then none
  else if epochWait s c own then some (waitEpoch own c s)
  else
    let pas := us.filterMap (fillSector s c)
    let hs := (pair s (pairOf s c.g)).hb.filter fun h =>
      (if h.g = c.g then decide (h.seq < c.w.seq)
        else !isDet s c.g && (tkOf h.g = tkOf c.g || (grp s c.g).seen.has h)) &&
        pas.any fun pa => atomTouches (pa / 64 * 64) 64 h
    if hs.isEmpty then none else some (waitHeld c (if isDet s c.g then 8 else 6) hs s)

/-- A local word whose lanes reach device-type memory holds its fills first, each once, and waits until they have
performed; where a lane fails translation none is held (R286). A word whose fill is deferred waits (R279). -/
def localDevice (c : Cur) (rs : List LRes) (addr : Nat → Nat) (s : State) : Option Res :=
  if llate rs then some (waitFor c 0 s)
  else if !ldevice rs then none
  else if !(lbads rs).isEmpty then some (settleLanes c false c.w (lbads rs) [] addr (fun s => .done s) s)
  else if (ldevs rs).isEmpty then none
  else
    match holdRoom c (ldevs rs).length s with
    | some r => some r
    | none =>
      if handlerStuck s c.g then some (trapAs c clsDouble 0 0 s)
      else
        some (.wait { c.w with stage := 1, cause := 6 }
          (closeAfter c ((ldevs rs).foldl (fun s h => hold c.g c.w.seq h s) s)))

/-- The POISON lanes of a local read or atomic: poisoned granules under contain (R165). -/
def localPois (s : State) (c : Cur) (addr : Nat → Int) (hits : List LHit) : List Pois :=
  if isCont s c.g then []
  else (hits.filter fun h => locPoison s (tkOf c.g) h.half h.off).map fun h =>
    ⟨h.lane, 1, cut 64 (addr h.lane)⟩

/-- Replace a poisoned granule by zeros and clear its poison, journaled (R165 under continue). -/
def cleanGranule (c : Cur) (half a : Nat) (s : State) : State :=
  if locPoison s (tkOf c.g) half a then
    let s1 := locPut c.g c.w.seq half (a / 64 * 64) (List.replicate 64 0) s
    countPois c.g 1 (jw c (.locPois (tkOf c.g) half (a / 64)) (.set (.num 0)) s1)
  else s

/-- The number of a local byte range, zeros where its granule is poisoned under continue. -/
def localNum (s : State) (c : Cur) (h : LHit) (size : Nat) : Nat :=
  if locPoison s (tkOf c.g) h.half h.off then 0 else ofBytes (locGet s (tkOf c.g) h.half h.off size)

/-- LDL (R31, R146, R160). -/
def ldlRes (i : Instr) (f : Flds) (c : Cur) (s : State) : Res :=
  let size := mtSize f.mod
  let addr := laneAddr s c.g f size f.i12 true
  let xs := (restLanes s c f false).map fun l => (l, addr l)
  let own := (newRegs s c.g i, 0, 0)
  if activeLanes s c f = 0 then .done s
  else if c.w.stage = 1 && !(entriesOfWord s c.g c.w.seq).isEmpty then waitFor c 6 s
  else match localChecks c size true (fun _ => own) xs s with
  | .inl r => r
  | .inr ys =>
    match (orderWait c f false s).or (fillWait s c own ys) with
    | some r => r
    | none =>
      let p := prepLanes c false ys s
      let s1 := p.2
      match localDevice c p.1 (fun l => cut 64 (addr l)) s1 with
      | some r => r
      | none =>
        let hits := lhits p.1
        let cont := isCont s1 c.g
        let pois := sortPois (localPois s1 c addr hits ++ lpois p.1 ++
          (if cont then [] else (lskips p.1).map fun l => (⟨l, 0, cut 64 (addr l)⟩ : Pois)))
        let good := hits.filter fun h => cont || !locPoison s1 (tkOf c.g) h.half h.off
        let zs := if cont then lskips p.1 else []
        let n := ((good.filter fun h => locPoison s1 (tkOf c.g) h.half h.off).map
          fun h => (h.half, h.off / 64)).dedup.length
        let s2 := good.foldl (fun t h => loadPut c f.d f.mod false h.lane (localNum s1 c h size) t) s1
        let s3 := countPois c.g (n + zs.length)
          (zs.foldl (fun t l => loadPut c f.d f.mod false l 0 t) s2)
        settleLanes c false (markDone c.w (good.map (·.lane) ++ zs)) (lbads p.1) pois
          (fun l => cut 64 (addr l)) (fun s => .done s) (ordEvents c.g f s3)

/-- The write-back entries of local writes into windows: by half of the team and sector, and one for each lane that
reaches device-type memory (R160, R286). -/
def holdBacks (c : Cur) (f : Flds) (xs : List (Nat × Hit × List Byte)) (s : State) : State :=
  [0, 1].foldl (fun s half =>
    let ys := (xs.filter fun x => x.1 = half).map (·.2)
    let plain := ys.filter fun x => !x.1.dev
    holdDevice c f (ys.filter fun x => x.1.dev)
      ((plain.map fun x => x.1.pa / 64).dedup.foldl (fun s sec => holdSector c f plain sec s (some half)) s) (some half)) s

/-- How many new entries they take. -/
def backRoom (s : State) (c : Cur) (backs : List (Nat × Hit)) : Nat :=
  (backs.filter fun h => h.2.dev).length +
    ([0, 1].map fun half => newSectors s c.g c.w.seq
      ((backs.filter fun h => h.1 = half && !h.2.dev).map fun h => h.2.pa / 64).dedup (some half)).sum

/-- What a local store charges: its granules, and the sectors of its write-backs (R35). -/
def localCharge (s : State) (c : Cur) (ys : List (Nat × Nat × Nat)) : Nat × Nat × Nat :=
  let grans := (ys.map fun y => (y.2.1, y.2.2 / 64)).dedup
  let secs := grans.filter fun x => (stashHit s c.g x.1 (x.2 * 64)).isSome
  (64 * grans.length + 64 * secs.length, 0, 64 * secs.length)

/-- The granules that a local store's lanes cover whole. -/
def coveredGranules (hits : List LHit) (size : Nat) : List (Nat × Nat) :=
  ((hits.map fun h => (h.half, h.off / 64)).dedup).filter fun x =>
    ((hits.filter fun h => h.half = x.1 && h.off / 64 = x.2).map (·.off)).dedup.length * size = 64

/-- STL (R147, R160). -/
def stlRes (f : Flds) (c : Cur) (s : State) : Res :=
  let size := mtSize f.mod
  let addr := laneAddr s c.g f size f.i12 true
  let xs := (restLanes s c f false).map fun l => (l, addr l)
  if c.w.stage = 1 && !(entriesOfWord s c.g c.w.seq).isEmpty then waitFor c 6 s
  else match localChecks c size false (localCharge s c) xs s with
  | .inl r => r
  | .inr ys =>
    match (orderWait c f true s).or (fillWait s c (localCharge s c ys) ys) with
    | some r => r
    | none =>
      let p := prepLanes c true ys s
      let s1 := p.2
      match localDevice c p.1 (fun l => cut 64 (addr l)) s1 with
      | some r => r
      | none =>
        let hits := lhits p.1
        let cont := isCont s1 c.g
        let backs := hits.filterMap fun h => h.back.map fun b => (h.half, b, storeBytes s1 c f false h.lane)
        match holdRoom c (backRoom s1 c (backs.map fun x => (x.1, x.2.1))) s1 with
        | some r => r
        | none =>
          -- poison: cleared by zeros under continue, and by a whole granule's bytes under either policy
          let s2 := if cont then hits.foldl (fun t h => cleanGranule c h.half h.off t) s1 else s1
          let s3 := hits.foldl (fun t h => locPut c.g c.w.seq h.half h.off (storeBytes s1 c f false h.lane) t) s2
          let s4 := (coveredGranules hits size).foldl (fun t x =>
            if nget false ((team t (tkOf c.g)).pois x.1) x.2 then
              jw c (.locPois (tkOf c.g) x.1 x.2) (.set (.num 0)) t else t) s3
          let s5 := if cont then countPois c.g (lskips p.1).length s4 else s4
          settleLanes c false (markDone c.w (hits.map (·.lane) ++ lskips p.1)) (lbads p.1)
            (lpois p.1) (fun l => cut 64 (addr l)) (fun s => .done s) (ordEvents c.g f (holdBacks c f backs s5))

/-- One lane of ATOML (R152, R153): the old value is returned, the new one stored; beside the state, the bytes that
its window writes back. -/
def atomlLane (c : Cur) (f : Flds) (src : State) (h : LHit) (x : State × List (Nat × Hit × List Byte)) :
    State × List (Nat × Hit × List Byte) :=
  let size := atomSize f.aty
  let s1 := cleanGranule c h.half h.off x.1
  let old := ofBytes (locGet s1 (tkOf c.g) h.half h.off size)
  let b := atomB src c.g f h.lane
  let cc := atomC src c.g f h.lane
  let s2 := jw c (.loc (tkOf c.g) h.half (h.off / 16)) (.atom (h.off % 16) f.mod f.aty b cc) s1
  let s3 := if f.anr then s2 else atomPut c f.aty f.d h.lane old s2
  (s3, match h.back with
    | none => x.2
    | some bk => x.2 ++ [(h.half, bk, toBytes size (atomNew f.mod f.aty old b cc))])

/-- ATOML (R150 to R153). -/
def atomlRes (i : Instr) (f : Flds) (c : Cur) (s : State) : Res :=
  let size := atomSize f.aty
  let addr := laneAddr s c.g f size 0 true
  let xs := (restLanes s c f false).map fun l => (l, addr l)
  let own (ys : List (Nat × Nat × Nat)) : Nat × Nat × Nat :=
    let x := localCharge s c ys
    (newRegs s c.g i + x.1, x.2)
  if c.w.stage = 1 && !(entriesOfWord s c.g c.w.seq).isEmpty then waitFor c 6 s
  else match localChecks c size false own xs s with
  | .inl r => r
  | .inr ys =>
    match (orderWait c f true s).or (fillWait s c (own ys) ys) with
    | some r => r
    | none =>
      let p := prepLanes c true ys s
      let s1 := p.2
      match localDevice c p.1 (fun l => cut 64 (addr l)) s1 with
      | some r => r
      | none =>
        let hits := lhits p.1
        let cont := isCont s1 c.g
        match holdRoom c (backRoom s1 c (hits.filterMap fun h => h.back.map fun b => (h.half, b))) s1 with
        | some r => r
        | none =>
          let pois := sortPois (localPois s1 c addr hits ++ lpois p.1 ++
            (if cont then [] else (lskips p.1).map fun l => (⟨l, 0, cut 64 (addr l)⟩ : Pois)))
          let good := hits.filter fun h => cont || !locPoison s1 (tkOf c.g) h.half h.off
          let zs := if cont then lskips p.1 else []
          let a := good.foldl (fun x h => atomlLane c f s1 h x) (s1, [])
          let s2 := holdBacks c f a.2 a.1
          let s3 := if zs.isEmpty then s2 else atomZeros c f zs s2
          settleLanes c false (markDone c.w (good.map (·.lane) ++ zs)) (lbads p.1) pois
            (fun l => cut 64 (addr l)) (fun s => .done s) (ordEvents c.g f s3)

/-! ### FENCE (R155) -/

/-- A held entry that a wide FENCE waits for. -/
def fenceWaits (h : HB) : Bool :=
  match h.what with
  | .data .. => true
  | .atom .. => true
  | .devLoad .. => true
  | .devAtom .. => true
  | .devFill .. => true
  | .tb .. => true
  | .cwb .. => true
  | .cinv .. => true
  | _ => false

/-- The entries that a FENCE waits for (R155, R258): at a wide scope with a release, the earlier writes of its group
and those that the group has seen, until they have performed at the L2. -/
def fenceHeld (s : State) (c : Cur) (f : Flds) : List HB :=
  if f.ordf ≠ 1 && wideScope s c.g f then
    (heldBefore s c.g c.w.seq (grp s c.g).seen).filter fun h => isGroupEntry h && fenceWaits h
  else []

/-- FENCE: it starts once the earlier words of M, X, C and N have completed (R155). -/
def fenceRes (f : Flds) (c : Cur) (s : State) : Res :=
  if (fenceHeld s c f).isEmpty then .done (ordEvents c.g f s) else waitHeld c 6 (fenceHeld s c f) s

/-! ### Prefetch and cache maintenance (R156, R157) -/

/-- One lane of PFETCH: the sector comes into the L2, and with MOD[0] = 0 into the L1; a lane that meets a range lock,
fails translation or names a poisoned sector is dropped (R156). Beside the state, whether it need not wait for memory
that sleeps (R397) or a deferred read (R279). -/
def pfetchLane (f : Flds) (c : Cur) (va : Nat) (s : State) : Bool × State :=
  let l := launchOf s c.g
  if (globalLock s c.g va 1 true).isSome then (true, s)
  else
    let r := translate s l.cont false (coreOf s c.g) l.ctx (!(grp s c.g).supv) va .read
    match r.1 with
    | .fault cause _ => if cause = causeAsleep then (false, r.2) else (true, s)
    | .ok pa mt =>
      if viewPoison r.2 c.g pa then (true, s)
      else if mt = 2 || paDevice s pa then (true, r.2)
      else
        let q := askRead (.word c.g c.w.seq) pa l.acct mt r.2
        (q.1, if f.m 0 || decide (mt = 1) || !q.1 then q.2 else l1Fill (coreOf s c.g) pa q.2)

/-- The lanes of PFETCH. -/
def pfetchLanes (f : Flds) (c : Cur) : List Nat → State → Bool × State
  | [], s => (true, s)
  | ln :: ls, s =>
    let r := pfetchLane f c (laneGlobal s c.g f 64 f.i12 ln) s
    let t := pfetchLanes f c ls r.2
    (r.1 && t.1, t.2)

/-- PFETCH (R156), behind an earlier access with .acq (R148). -/
def pfetchRes (f : Flds) (c : Cur) (s : State) : Res :=
  match orderWait c f false s with
  | some r => r
  | none =>
    let r := pfetchLanes f c (laneList s c f) s
    if r.1 then .done r.2 else waitFor c 6 r.2

/-- CWB and CINV: the line of each lane, one entry for each line (R157). -/
def lineRes (inv : Bool) (f : Flds) (c : Cur) (s : State) : Res :=
  let addr := laneGlobal s c.g f 128 f.i12
  let xs := (restLanes s c f false).map fun l => (l, addr l)
  if neverFits s c.g (0, 0, 64 * ((xs.map fun x => x.2 / 128).dedup).length) then trapAs c clsRange 7 0 s
  else match orderWait c f true s with
  | some r => r
  | none =>
    let r := xlateLanes c.g .read false (xs.filter fun x => !wasPois c x.1) s
    let dev := r.1.any (·.dev)
    let lines := (r.1.map fun h => (h.va - h.va % 128, h.pa - h.pa % 128)).dedup
    if dev && !r.2.1.isEmpty then settleLanes c false c.w r.2.1 [] addr (fun s => .done s) r.2.2
    else match holdRoom c lines.length r.2.2 with
    | some r => r
    | none =>
      let s1 := lines.foldl (fun s x =>
        hold c.g c.w.seq (if inv then .cinv x.1 x.2 else .cwb x.1 x.2) s) r.2.2
      let ans := (xs.filter fun x => wasPois c x.1).map (·.1)
      let w' := if dev then c.w else markDone c.w (r.1.map (·.lane) ++ ans)
      settleLanes c false w' r.2.1 [] addr (fun s => .done s) s1

/-! ### Stash windows (R158 to R162) -/

/-- The lock that a window of a team holds: `id` is the team, `half` its half and number. -/
def stashLock (tk ctx half n : Nat) (w : Stash) : List Lock :=
  (wrapParts w.gbase w.size).map fun p => ⟨tk, 0, ctx, half * 8 + n, p.1, p.2.1, 2, p.2.2⟩

/-- The valid windows' locks of every team on a core are registered again (R162). -/
def isStashLock (tk half n : Nat) (k : Lock) : Bool := k.kind = 2 && k.id = tk && k.half = half * 8 + n

/-- Write entry `n` of a core's window table, journaled (R158). -/
def stashPut (c : Cur) (half n : Nat) (w : Stash) (s : State) : State :=
  locPut c.g c.w.seq half ((launchOf s c.g).stashBase + 16 * n) (toBytes 16 (stashNum w)) s

/-- Granules of a window forget that they were filled. -/
def unfillRange (tk half lo hi : Nat) (s : State) : State :=
  modTeam s tk fun T => T.setFill half ((T.fill half).filter fun x =>
    !(decide (lo ≤ x.1 * 64) && decide (x.1 * 64 < hi)))

/-- Entries that a lock table holds. -/
def lockCount (ls : List Lock) : Nat := (ls.filter fun k => !k.extra).length

/-- STMAP (R159): no earlier load of the group may still trap (R79). -/
def stmapRes (f : Flds) (c : Cur) (s : State) : Res :=
  let half := halfOf s c.g
  let k := coreOf s c.g
  let ga := uread s c.g f.a
  let la := uread s c.g f.b
  let size := 1024 * f.imm
  let l := launchOf s c.g
  let locks := (core s k).locks
  if ga % 1024 ≠ 0 then trapAs c clsMisalign 0 ga s
  else if la % 1024 ≠ 0 then trapAs c clsMisalign 0 la s
  else if l.window < la + size || l.localBytes = 0 then trapAs c clsPage 0 la s
  else if (stashWin s c.g half f.d).valid ||
      ((List.range 8).map (stashWin s c.g half)).any (fun w =>
        w.valid && overlaps w.lbase (w.lbase + w.size) la size) ||
      (lockTables s c.g).any (fun x => x.kind ≠ 2 && x.space = 1 && x.own = tkOf c.g && x.half = half &&
        overlaps x.lo x.hi la size) ||
      locks.any (fun x => x.space = 0 && x.own = l.ctx &&
        (wrapParts ga size).any fun p => overlaps x.lo x.hi p.1 (p.2.1 - p.1)) ||
      32 ≤ lockCount locks then trapAs c clsRange 2 ga s
  else match orderWait c f true s with
  | some r => r
  | none =>
    let w : Stash := ⟨true, ga, la, size⟩
    let s1 := stashPut c half f.d w s
    let s2 := modCore s1 k fun C => { C with locks := C.locks ++ stashLock (tkOf c.g) l.ctx half f.d w }
    .done (unfillRange (tkOf c.g) half la (la + size) s2)

/-- STUNMAP (R161): the written bytes are held already. -/
def stunmapRes (f : Flds) (c : Cur) (s : State) : Res :=
  let half := halfOf s c.g
  let w := stashWin s c.g half f.d
  if !w.valid then trapAs c clsRange 2 0 s
  else match orderWait c f true s with
  | some r => r
  | none =>
    let s1 := stashPut c half f.d { w with valid := false } s
    let s2 := modCore s1 (coreOf s c.g) fun C =>
      { C with locks := C.locks.filter fun k => !isStashLock (tkOf c.g) half f.d k }
    .done (unfillRange (tkOf c.g) half w.lbase (w.lbase + w.size) s2)

/-- STSYNC (R161): every write into a window is held as it is made, so there is nothing left to move. -/
def stsyncRes (f : Flds) (c : Cur) (s : State) : Res :=
  if (stashWin s c.g (halfOf s c.g) f.d).valid then (orderWait c f true s).getD (.done s)
  else trapAs c clsRange 2 0 s

/-- The range locks of the valid windows of a core, from the tables (R162). -/
def restash (k : Nat) (s : State) : State :=
  let wins : List Lock := s.teams.flatMap fun x =>
    let T := x.2
    let l := launch s (lkOfT x.1)
    let half := k - T.core
    if (k = T.core || (l.paired && k = T.core + 1)) && l.localBytes ≠ 0 then
      (List.range 8).flatMap fun n =>
        let w := stashOf (memNum (T.mem half) (l.stashBase + 16 * n) 16)
        if w.valid then stashLock x.1 l.ctx half n w else []
    else []
  modCore s k fun C => { C with locks := C.locks.filter (fun k => k.kind ≠ 2) ++ wins }

/-! ### PTST (R167) -/

/-- Write predicate bits of some lanes. -/
def predLanes (c : Cur) (d : Nat) (xs : List (Nat × Bool)) (s : State) : State :=
  if xs.isEmpty then s else pput c d xs s

/-- PTST (R167); a lane answered POISON counts as poisoned. -/
def ptstRes (i : Instr) (f : Flds) (c : Cur) (s : State) : Res :=
  if f.m 0 then
    let addr := laneAddr s c.g f 64 f.i12 true
    let xs := (laneList s c f).map fun l => (l, addr l)
    match xs.find? fun x => (localAt s c.g x.2).isNone with
    | some x => trapAs c clsPage 0 (cut 64 x.2) s
    | none => (orderWait c f false s).getD <| .done (predLanes c f.d (xs.map fun x =>
        let p := (localAt s c.g x.2).getD (0, 0); (x.1, locPoison s (tkOf c.g) p.1 p.2)) s)
  else
    let addr := laneGlobal s c.g f 64 f.i12
    let xs := (restLanes s c f false).map fun l => (l, addr l)
    let own := (newRegs s c.g i, 0, 0)
    match orderWait c f false s with
    | some r => r
    | none =>
      if epochWait s c own && !xs.isEmpty then waitEpoch own c s
      else
        let r := xlateLanes c.g .read false (xs.filter fun x => !wasPois c x.1) s
        let ans := (xs.filter fun x => wasPois c x.1).map (·.1)
        let dev := r.1.any (·.dev)
        if dev && !r.2.1.isEmpty then settleLanes c false c.w r.2.1 [] addr (fun s => .done s) r.2.2
        else if !(readSectors c (r.1.filter fun h => !h.dev) r.2.2).1 then
          waitFor c 0 (readSectors c (r.1.filter fun h => !h.dev) r.2.2).2
        else
          let s0 := (readSectors c (r.1.filter fun h => !h.dev) r.2.2).2
          let s1 := predLanes c f.d ((r.1.map fun h => (h.lane, viewPoison s0 c.g h.pa)) ++
            ans.map fun l => (l, true)) s0
          let w' := if dev then c.w else markDone c.w (r.1.map (·.lane) ++ ans)
          settleLanes c false w' r.2.1 [] addr (fun s => .done s) s1

/-! ### The instructions -/

/-- LD (R146). -/
def execLd (w : XW) (s : State) := word (.ld w) (loadRes (.ld w) w.flds false) s
/-- ST (R147). -/
def execSt (w : XW) (s : State) := word (.st w) (storeRes w.flds false) s
/-- LDL (R146). -/
def execLdl (w : XW) (s : State) := word (.ldl w) (ldlRes (.ldl w) w.flds) s
/-- STL (R147). -/
def execStl (w : XW) (s : State) := word (.stl w) (stlRes w.flds) s
/-- LDS (R146). -/
def execLds (w : XW) (s : State) := word (.lds w) (loadRes (.lds w) w.flds true) s
/-- STS (R147). -/
def execSts (w : XW) (s : State) := word (.sts w) (storeRes w.flds true) s
/-- ATOM (R150 to R154). -/
def execAtom (w : XW) (s : State) := word (.atom w) (atomRes (.atom w) w.flds) s
/-- ATOML (R150 to R153). -/
def execAtoml (w : XW) (s : State) := word (.atoml w) (atomlRes (.atoml w) w.flds) s
/-- FENCE (R155). -/
def execFence (w : XW) (s : State) := word (.fence w) (fenceRes w.flds) s
/-- PFETCH (R156). -/
def execPfetch (w : XW) (s : State) := word (.pfetch w) (pfetchRes w.flds) s
/-- CWB (R157). -/
def execCwb (w : XW) (s : State) := word (.cwb w) (lineRes false w.flds) s
/-- CINV (R157). -/
def execCinv (w : XW) (s : State) := word (.cinv w) (lineRes true w.flds) s
/-- STMAP (R159). -/
def execStmap (w : XW) (s : State) := word (.stmap w) (stmapRes w.flds) s
/-- STUNMAP (R161). -/
def execStunmap (w : XW) (s : State) := word (.stunmap w) (stunmapRes w.flds) s
/-- STSYNC (R161). -/
def execStsync (w : XW) (s : State) := word (.stsync w) (stsyncRes w.flds) s
/-- PTST (R167). -/
def execPtst (w : XW) (s : State) := word (.ptst w) (ptstRes (.ptst w) w.flds) s

end Sys2Proof.Machine
end

