-- ==== Sys2Proof/Machine/RowOps.lean ====
section
/-!
DEFINITION. Sys2Proof/Machine/RowOps.lean: packed elements (R171, R174, R176): format stream descriptors, weight tiles
and output runs. The matrix words and the operator walker share these.
-/
namespace Sys2Proof.Machine

/-! ### Format streams and packed elements (R171, R174, R176) -/

/-- A format stream descriptor (R171). -/
structure Strm where
  fmt : Nat
  scale : Nat
  space : Nat
  resv : Nat
  base : Nat
  stride : Nat
  sbase : Nat
  sstride : Nat
deriving DecidableEq, Repr

def strmOf (x : Nat) : Strm :=
  ⟨nbits x 3 0, nbits x 5 4, nbits x 7 6, nbits x 31 8, nbits x 63 32, nbits x 79 64, nbits x 111 80,
    nbits x 127 112⟩
def strmNum (d : Strm) : Nat :=
  d.fmt + d.scale * 2 ^ 4 + d.space * 2 ^ 6 + d.resv * 2 ^ 8 + d.base % 2 ^ 32 * 2 ^ 32 +
    d.stride * 2 ^ 64 + d.sbase % 2 ^ 32 * 2 ^ 80 + d.sstride * 2 ^ 112

/-- A malformed descriptor (R171). -/
def strmBad (x : Nat) : Bool :=
  let d := strmOf x
  decide (10 ≤ d.fmt) || d.scale = 3 || d.resv ≠ 0 || (d.fmt = 0 && x ≠ 0) ||
    (d.scale ≠ 0 && decide (6 ≤ d.fmt)) || (d.space ≠ 0 && decide (8 ≤ d.fmt)) ||
    (d.space = 3 && d.fmt ≠ 1) || (d.space = 0 && d.fmt ≠ 0 && d.base % 4 ≠ 0) ||
    (d.space ≠ 0 && (d.base % 64 ≠ 0 || d.stride % 64 ≠ 0))

/-- Element width of FMT (R174). -/
def fmtBits (fmt : Nat) : Nat := if fmt = 2 then 6 else if fmt < 6 then 8 else if fmt < 8 then 16 else 32
/-- FMT as a type code of R128. -/
def fmtType (fmt : Nat) : Nat :=
  match fmt with
  | 1 => 13 | 2 => 14 | 3 => 11 | 4 => 12 | 5 => 4 | 6 => 9 | 7 => 10 | 8 => 8 | _ => 0
/-- Block length of SCALE. -/
def scaleLen (sc : Nat) : Nat := if sc = 1 then 16 else 32

/-- Element `e` of a packed string at bit `at0` (R174). -/
def elemCode (str at0 w e : Nat) : Nat := nbits str (at0 + w * e + w - 1) (at0 + w * e)

/-- An element's exact value under a scale byte; `none` for no scales (R174). -/
def elemValue (fmt code : Nat) (scale : Option Nat) : Fl :=
  let v := typeDec (fmtType fmt) code
  match scale with
  | none => v
  | some b => if b % 256 = 0x80 then .nan else flscale v (sx 8 b)

/-- Tile depth K_T (R175). -/
def tileDepth (fa : Nat) (cplx : Bool) : Nat :=
  let k := if fa = 2 then 256 else 128
  if cplx then k / 2 else k

/-- The formats of a product fit each other (R175). -/
def fmtsFit (fa fb : Nat) : Bool :=
  fa ≠ 0 && fb ≠ 0 && decide (fa < 8) && decide (fb < 8) && ((fa = 2) = (fb = 2))

/-- Bytes of a tile's scales (R176). -/
def tileScales (kt scale : Nat) : Nat := if scale = 0 then 0 else 64 * kt / scaleLen scale

/-- The mask bits of a mask-packed tile, bit e for element e (R176). -/
def tileMask (str kt sc : Nat) : Nat := nbits str (8 * (sc + 8 * kt) - 1) (8 * sc)

/-- A tile's length in bytes (R176). -/
def tileLen (str kt fmt space scale : Nat) : Nat :=
  let sc := tileScales kt scale
  let w := fmtBits fmt
  match space with
  | 1 => sc + 8 * kt * w
  | 2 => sc + 8 * kt + ceilDiv (popCount (64 * kt) (tileMask str kt sc) * w) 8
  | _ => sc + 144 * kt / 4

/-- The code of element (k, n) of a tile (R176). -/
def tileCode (str kt fmt space scale k n : Nat) : Nat :=
  let sc := tileScales kt scale
  let w := fmtBits fmt
  let e := n * kt + k
  match space with
  | 1 => elemCode str (8 * sc) w e
  | 2 =>
    let mk := tileMask str kt sc
    if mk.testBit e then elemCode str (8 * (sc + 8 * kt)) w (popCount e (mk % 2 ^ e)) else 0
  | _ =>
    let grp0 := 8 * (sc + 144 * (e / 256))
    nbits str (grp0 + 8 * elemCode str (grp0 + 128) 4 (e % 256) + 7)
      (grp0 + 8 * elemCode str (grp0 + 128) 4 (e % 256))

/-- The scale byte of element (k, n) of a tile. -/
def tileScale (str kt scale k n : Nat) : Option Nat :=
  if scale = 0 then none
  else some (elemCode str 0 8 (n * (kt / scaleLen scale) + k / scaleLen scale))

/-- The exact value of element (k, n) of a tile; `int` reads no scales (R177). -/
def tileValue (str kt fmt space scale : Nat) (int : Bool) (k n : Nat) : Fl :=
  elemValue fmt (tileCode str kt fmt space scale k n) (if int then none else tileScale str kt scale k n)

/-- The exact value of element k of an A row: its element string and its scale string (R175). -/
def rowElem (str scales fmt scale : Nat) (int : Bool) (k : Nat) : Fl :=
  elemValue fmt (elemCode str 0 (fmtBits fmt) k)
    (if int || scale = 0 then none else some (elemCode scales 0 8 (k / scaleLen scale)))

/-- Values packed as codes by R174, lowest first. -/
def packCodes (w : Nat) : List Nat → Nat
  | [] => 0
  | c :: cs => c % 2 ^ w + 2 ^ w * packCodes w cs

/-- A list cut into pieces of `n`; `fuel` bounds the pieces. -/
def chunksOf (n : Nat) : Nat → List Fl → List (List Fl)
  | 0, _ => []
  | fuel + 1, xs => if xs.isEmpty then [] else xs.take n :: chunksOf n fuel (xs.drop n)

/-- A run of exact values in an output format: its code bits and its scale bytes (R66, R186, R352). -/
def packRun (fmt scale : Nat) (xs : List Fl) : Nat × List Byte :=
  let w := fmtBits fmt
  if scale = 0 then (packCodes w (xs.map fun x => typeEnc (fmtType fmt) 0 x), [])
  else
    let bs := (chunksOf (scaleLen scale) xs.length xs).map fun b => quantBlock (fmt - 1) b
    (packCodes w (bs.flatMap (·.2)), bs.map fun b => BitVec.ofNat 8 b.1)

end Sys2Proof.Machine
end

