-- ==== Sys2Proof/Machine/OpCard.lean ====
section
/-!
DEFINITION. Sys2Proof/Machine/OpCard.lean: operator cards (R345 to R350, R357): their fields and tensor
descriptors, the checks made when a card is read, and how a walker reads global memory (R254, R356).
-/
namespace Sys2Proof.Machine

/-! ### How a walker reads global memory (R254, R356) -/

/-- The name of a card among those of its launch: its handle count with the core that accepted it. -/
def Job.key (j : Job) : Nat := j.id * 64 + j.hcore

/-- Bytes of global memory: first virtual address and length. -/
abbrev Run := Nat × Nat

/-- The pages that runs touch, each with the lowest address touched first. -/
def runPages (rs : List Run) : NMap Nat :=
  rs.foldl (fun m r =>
    if r.2 = 0 then m
    else (List.range ((r.1 + r.2 - 1) / 4096 - r.1 / 4096 + 1)).foldl (fun m i =>
      let p := r.1 / 4096 + i
      match nfind m p with
      | some _ => m
      | none => nput m p (max r.1 (4096 * p))) m) []

/-- The sectors that runs touch, as virtual address / 64. -/
def runSectors (rs : List Run) : List Nat :=
  (rs.flatMap fun r =>
    if r.2 = 0 then []
    else (List.range ((r.1 + r.2 - 1) / 64 - r.1 / 64 + 1)).map (· + r.1 / 64)).dedup

/-- Translate pages for the engines of core `k`: the physical base of each with its memory type in the low bits, and for
each that faults its page, address, cause and intermediate address. -/
def xlatePages (k lk : Nat) (a : Acc2) : NMap Nat → State → NMap Nat × List (Nat × Nat × Nat × Nat) × State
  | [], s => ([], [], s)
  | (p, va) :: ps, s =>
    let r := xlateFor s k lk va a
    let t := xlatePages k lk a ps r.2
    match r.1 with
    | .ok pa mt => (nput t.1 p (pa / 4096 * 4096 + (if paDevice r.2 pa then 2 else mt)), t.2.1, t.2.2)
    | .fault cause ipa => (t.1, (p, va, cause, ipa) :: t.2.1, t.2.2)

/-- Where a translated virtual byte lies, and its memory type (R286). -/
def pageAt (m : NMap Nat) (va : Nat) : Nat := nget 0 m (va / 4096) / 4096 * 4096 + va % 4096
def pageMt (m : NMap Nat) (va : Nat) : Nat := nget 0 m (va / 4096) % 4096

/-- An engine's read of a sector, in one access at the offsets `os`, meets poison: in a register too where the
register does not take the access (R12, R278, R368). -/
def engPoison (s : State) (pa : Nat) (os : List Nat) : Bool :=
  match paKind s pa with
  | .reg off =>
    let lo := os.foldl min 64
    let n := os.dedup.length
    os.any (fun o => decide (lo + n ≤ o)) || (regLoad s (off + lo) n).isNone
  | _ => isPoison s pa

/-- A byte that an engine reads. -/
def engByte (s : State) (pa : Nat) : Byte :=
  match paKind s pa with
  | .reg off => BitVec.ofNat 8 ((regLoad s off 1).getD 0)
  | _ => memGet s.mem pa

/-- What a walker's read of runs answers: the pages' places and the sectors that read as zeros; pages that wait
for replies; bytes that the pair holds back; or the error that ends the card. -/
inductive Got where
  | ok (pages : NMap Nat) (zeros : List Nat)
  | stall (faults : List (Nat × Nat × Nat × Nat))
  | held
  | err (n : Nat)

/-- Count poisoned reads of a launch (R165). -/
def countFor (lk n : Nat) (s : State) : State :=
  if n = 0 then s else modLaunch s lk fun l => { l with preads := l.preads + n }

/-- A walker on core `k` reads runs for a card (R199, R254, R279, R356): pages answered POISON, and in hardware mode
those that no fill gives, read as poisoned sectors. Its caller counts what read as zeros once it goes on with them. -/
def jobGather (k : Nat) (j : Job) (rs : List Run) (s : State) : Got × State :=
  let l := launch s j.lk
  let r := xlatePages k j.lk .read ((runPages rs).filter fun p => !j.bad.contains p.1) s
  let s1 := r.2.2
  let hw := faultHw s (j.lk / 2)
  if r.2.1.any fun f => f.2.2.1 = causeAsleep then (.held, s1)
  else if r.2.1.any fun f => f.2.2.1 = 8 then (.err 7, s1)
  else if !r.2.1.isEmpty && !hw then (.stall r.2.1, s1)
  else
    let lost := j.bad ++ r.2.1.map (·.1)
    let good := (runSectors rs).filter fun x => !lost.contains (x / 64)
    let heldHere (x : Nat) : Bool :=
      (List.range 64).any fun i => heldOnPair s1 (k / 2) (pageAt r.1 (64 * x + i))
    let os (x : Nat) : List Nat :=
      (List.range 64).filter fun i => rs.any fun q => decide (q.1 ≤ 64 * x + i) && decide (64 * x + i < q.1 + q.2)
    let bad := (runSectors rs).filter fun x => lost.contains (x / 64) || engPoison s1 (pageAt r.1 (64 * x)) (os x)
    if good.any (fun x => heldHere x || linkHolds s1 (pageAt r.1 (64 * x))) then (.held, s1)
    else
      let s1 := if good.any fun x => pageMt r.1 (64 * x) = 2 then extEff j.lk s1 else s1
      let q := askReads (.job k j.key) l.acct (good.map fun x => (pageAt r.1 (64 * x), pageMt r.1 (64 * x))) s1
      if !q.1 then (.held, q.2)
      else if !bad.isEmpty && !l.cont then (.err 6, q.2)
      else (.ok r.1 bad, q.2)

/-- A byte that a read has gathered. -/
def gotByte (s : State) (pages : NMap Nat) (zeros : List Nat) (va : Nat) : Byte :=
  if zeros.contains (va / 64) then 0 else engByte s (pageAt pages va)

/-- Consecutive gathered bytes as a number. -/
def gotNum (s : State) (pages : NMap Nat) (zeros : List Nat) (va n : Nat) : Nat :=
  ofBytes ((List.range n).map fun i => gotByte s pages zeros (va + i))

/-- Fault records of a card: one per page (R292, R356). -/
def jobRecords (k : Nat) (j : Job) (step : Nat) (a : Acc2) (fs : List (Nat × Nat × Nat × Nat)) (s : State) : State :=
  let l := launch s j.lk
  let mk (f : Nat × Nat × Nat × Nat) : FaultRec :=
    { src := 4, acc := a.code, cause := f.2.2.1, ctx := l.ctx, partid := l.partid, job := j.lk / 2, core := k,
      lane := 0, group := gIdx j.g, team := gTeam j.g, nrec := fs.length, va := f.2.1, seq := step, mask := 0,
      ipa := f.2.2.2, time := s.now, owner := .job j.hcore j.id f.1 }
  { s with faults := s.faults ++ fs.map mk }

/-! ### Fields of a card (R345, R346) -/

/-- A tensor descriptor. -/
structure Tens where
  base : Nat
  sbase : Nat
  s1 : Int
  s2 : Int
  s3 : Int
  fmt : Nat
  scale : Nat
  pack : Nat
  resv : Nat
deriving DecidableEq, Repr

/-- The descriptor at bit `lo` of a card. -/
def tensAt (x lo : Nat) : Tens :=
  let f (hi l : Nat) : Nat := nbits x (lo + hi) (lo + l)
  ⟨f 63 0, f 127 64, sx 32 (f 159 128), sx 32 (f 191 160), sx 64 (f 255 192), f 259 256, f 261 260, f 263 262,
    f 319 264⟩

/-- A card as it is read: its 2,048 bits. -/
abbrev OpBits := Nat

def ocKind (x : OpBits) : Nat := nbits x 3 0
def ocGemm (x : OpBits) : Bool := ocKind x = 1
def ocDw (x : OpBits) : Bool := ocKind x = 3
def ocLast (x : OpBits) : Bool := x.testBit 5
def ocInt (x : OpBits) : Bool := x.testBit 6
def ocSat (x : OpBits) : Bool := x.testBit 7
def ocCkpt (x : OpBits) : Nat := nbits x 15 8
def ocTM (x : OpBits) : Nat := nbits x 21 16 + 1
def ocTNB (x : OpBits) : Nat := nbits x 25 22 + 1
def ocNext (x : OpBits) : Nat := nbits x 127 64
def ocRow0 (x : OpBits) : Nat := nbits x 141 128
def ocLive (x : OpBits) : Nat := nbits x 157 144 + 1
def ocWoff (x : OpBits) : Nat := nbits x 171 160 * 1024
def ocWlen (x : OpBits) : Nat := nbits x 188 176 * 1024
def ocExp (x : OpBits) : Nat := nbits x 223 192
def ocNorm (x : OpBits) : Nat := nbits x 229 224
def ocAct (x : OpBits) : Nat := nbits x 239 232
def ocActs (x : OpBits) : Nat := nbits x 243 240
def ocKH (x : OpBits) : Nat := nbits x 259 256 + 1
def ocKW (x : OpBits) : Nat := nbits x 263 260 + 1
def ocSH (x : OpBits) : Nat := nbits x 267 264 + 1
def ocSW (x : OpBits) : Nat := nbits x 271 268 + 1
def ocDH (x : OpBits) : Nat := nbits x 275 272 + 1
def ocDW (x : OpBits) : Nat := nbits x 279 276 + 1
def ocPT (x : OpBits) : Int := sx 16 (nbits x 303 288)
def ocPB (x : OpBits) : Int := sx 16 (nbits x 319 304)
def ocPL (x : OpBits) : Int := sx 16 (nbits x 335 320)
def ocPR (x : OpBits) : Int := sx 16 (nbits x 351 336)
def ocPadv (x : OpBits) : Nat := nbits x 367 352
def ocDM (x : OpBits) : Nat := nbits x 543 512
def ocDK (x : OpBits) : Nat := nbits x 575 544
def ocDN (x : OpBits) : Nat := nbits x 607 576
def ocH (x : OpBits) : Nat := nbits x 623 608
def ocW (x : OpBits) : Nat := nbits x 639 624
def ocX (x : OpBits) : Tens := tensAt x 768
def ocWT (x : OpBits) : Tens := tensAt x 1088
def ocBias (x : OpBits) : Tens := tensAt x 1408
def ocY (x : OpBits) : Tens := tensAt x 1728

/-! ### Geometry (R348, R350) -/

def ocHo (x : OpBits) : Int :=
  if ocGemm x then 1 else ((ocH x : Int) + ocPT x + ocPB x - ocDH x * (ocKH x - 1) - 1) / ocSH x + 1
def ocWo (x : OpBits) : Int :=
  if ocGemm x then 1 else ((ocW x : Int) + ocPL x + ocPR x - ocDW x * (ocKW x - 1) - 1) / ocSW x + 1
/-- Mtot. -/
def ocMtot (x : OpBits) : Nat := ocDM x * (ocHo x).toNat * (ocWo x).toNat
/-- Ktot. -/
def ocKtot (x : OpBits) : Nat :=
  if ocGemm x then ocDK x else ocKH x * ocKW x * (if ocDw x then 64 else ocDK x)
/-- K_T and KTN. -/
def ocKT (x : OpBits) : Nat := tileDepth (ocX x).fmt false
def ocKTN (x : OpBits) : Nat := ceilDiv (ocKtot x) (ocKT x)
def ocMT (x : OpBits) : Nat := ceilDiv (ocMtot x) (ocTM x)
def ocNT (x : OpBits) : Nat := ceilDiv (ocDN x) (64 * ocTNB x)
/-- The number of tile steps. -/
def ocSteps (x : OpBits) : Nat := ocMT x * ocNT x
/-- M block and column block group of a step. -/
def ocMi (x : OpBits) (st : Nat) : Nat := if x.testBit 4 then st / ocNT x else st % ocMT x
def ocNi (x : OpBits) (st : Nat) : Nat := if x.testBit 4 then st % ocNT x else st / ocMT x
/-- The product of index `k` is added in column block `nb` (R349). -/
def kAdds (x : OpBits) (nb k : Nat) : Bool := decide (k < ocKtot x) && (!ocDw x || decide (64 * nb + k % 64 < ocDN x))

/-- The bytes that tile (kt, nb) takes in the weight window: its length by R176; a mask-packed tile of GEMM and CONV2D
its place in memory (DEDUCED from R409, log 51), and one of DEPTHWISE the length that its set mask bits give, rounded up
to 64 (R349). -/
def ocTile (x : OpBits) (nb kt : Nat) : Nat :=
  let w := ocWT x
  let sc := tileScales (ocKT x) w.scale
  if ocDw x then
    let coded := ((List.range (ocKT x)).filter fun i => kAdds x nb (kt * ocKT x + i)).length
    (sc + 8 * ocKT x + ceilDiv (coded * fmtBits w.fmt) 8 + 63) / 64 * 64
  else match w.pack with
    | 1 => sc + 8 * ocKT x * fmtBits w.fmt
    | 2 => w.s1.toNat
    | _ => sc + 144 * ocKT x / 4
/-- The bytes of the first `n` tiles of column group `ni`. -/
def ocTiles (x : OpBits) (ni n : Nat) : Nat :=
  if ocDw x then ((List.range n).map fun i => ocTile x (ni * ocTNB x + i / ocKTN x) (i % ocKTN x)).sum
  else n * ocTile x 0 0
/-- Where tile kt of block `nbLocal` of column group `ni` stands in the weight window. -/
def ocTileAt (x : OpBits) (ni nbLocal kt : Nat) : Nat := ocWoff x + ocTiles x ni (nbLocal * ocKTN x + kt)
/-- The most bytes that the tiles of a column group take. -/
def ocWeights (x : OpBits) : Nat :=
  if ocDw x then ((List.range (ocNT x)).map fun ni => ocTiles x ni (ocTNB x * ocKTN x)).foldl max 0
  else ocTiles x 0 (ocTNB x * ocKTN x)

/-! ### The checks at the read (R345 to R350, R357) -/

/-- A descriptor breaks R346 by itself. -/
def tensBad (t : Tens) (pack : Bool) : Bool :=
  t.resv ≠ 0 || t.scale = 3 || decide (10 ≤ t.fmt) || (t.scale = 0 && t.sbase ≠ 0) ||
    (if pack then t.pack = 0 else t.pack ≠ 0)

/-- ERR 1: a reserved bit, or a field outside its range. -/
def ocBad1 (x : OpBits) : Bool :=
  let z (hi lo : Nat) : Bool := nbits x hi lo = 0
  !(z 31 26 && z 143 142 && z 159 158 && z 175 172 && z 191 189 && z 231 230 && z 255 244 && z 767 640) ||
    !(ocGemm x || (z 287 280 && z 511 368)) ||
    ocKind x = 0 || decide (3 < ocKind x) || (ocSat x && !ocInt x) || ocCkpt x = 0 || nbits x 63 32 = 0 ||
    ocWlen x = 0 || decide (4096 * 1024 < ocWlen x) || ocNorm x = 63 || decide (4 < ocAct x) ||
    ((ocAct x = 3) ≠ (ocActs x ≠ 0)) || ocDM x = 0 || ocDK x = 0 || ocDN x = 0 ||
    (ocDw x && ocDN x ≠ ocDK x) || (!ocGemm x && (ocH x = 0 || ocW x = 0)) ||
    tensBad (ocX x) false || tensBad (ocWT x) (!ocDw x) || tensBad (ocBias x) false || tensBad (ocY x) false

/-- Bytes that a descriptor's addresses and strides are multiples of. -/
def tensAlign (t : Tens) : Nat := if t.scale = 0 then 1 else fmtBits t.fmt * scaleLen t.scale / 8

/-- A descriptor's runs are not aligned, or do not hold whole blocks. -/
def tensBad2 (t : Tens) (strides : List Int) (count : Nat) : Bool :=
  t.scale ≠ 0 && (t.base % tensAlign t ≠ 0 || strides.any (fun v => v % (tensAlign t : Int) ≠ 0) ||
    count % scaleLen t.scale ≠ 0)

/-- ERR 2: geometry, stride or alignment. -/
def ocBad2 (x : OpBits) : Bool :=
  let st (t : Tens) : List Int := if ocGemm x then [t.s1] else [t.s1, t.s2, t.s3]
  decide (ocHo x < 1) || decide (ocWo x < 1) || decide (2 ^ 32 ≤ ocMtot x) ||
    tensBad2 (ocX x) (st (ocX x)) (ocDK x) || tensBad2 (ocY x) (st (ocY x)) (ocDN x) ||
    (ocDw x && tensBad2 (ocWT x) [(ocWT x).s1] (ocDK x)) ||
    (!ocDw x && (ocWT x).s1 % 64 ≠ 0)

/-- ERR 3: formats, bias, weight tile length. -/
def ocBad3 (x : OpBits) : Bool :=
  let X := ocX x
  let W := ocWT x
  let Y := ocY x
  let B := ocBias x
  let yOk : Bool := (decide (1 ≤ Y.fmt) && decide (Y.fmt ≤ 5)) ||
    (decide (6 ≤ Y.fmt) && decide (Y.fmt ≤ 8) && Y.scale = 0) || (Y.fmt = 9 && ocInt x && Y.scale = 0)
  !fmtsFit X.fmt W.fmt || (X.scale ≠ 0 && decide (6 ≤ X.fmt)) || (W.scale ≠ 0 && decide (6 ≤ W.fmt)) ||
    (ocInt x && (X.fmt ≠ 5 || W.fmt ≠ 5)) || !yOk ||
    (B.base ≠ 0 && (B.fmt ≠ (if ocInt x then 9 else 8) || B.scale ≠ 0)) ||
    (!ocDw x && (W.sbase ≠ 0 || (W.pack = 3 && W.fmt ≠ 1) || decide (W.s1 < (ocLeast x : Int))))
where
  /-- the least length of a tile -/
  ocLeast (x : OpBits) : Nat :=
    let w := ocWT x
    if w.pack = 2 then tileScales (ocKT x) w.scale + 8 * ocKT x else ocTile x 0 0

/-- ERR 4: rows or weights outside windows of so many rows and weight bytes. -/
def ocBad4 (x : OpBits) (rows bytes : Nat) : Bool :=
  decide (ocLive x < 2 * ocTM x * ocTNB x) || decide (rows < ocRow0 x + ocLive x) ||
    decide (bytes < ocWoff x + ocWlen x) || decide (ocWlen x < ocWeights x)

/-- The error that a read card shows, 0 for none: the lowest. -/
def ocErr (x : OpBits) (rows bytes : Nat) : Nat :=
  if ocBad1 x then 1
  else if ocBad2 x then 2
  else if ocBad3 x then 3
  else if ocBad4 x rows bytes then 4
  else if !ocLast x && ocNext x % 256 ≠ 0 then 8
  else 0

/-- A card stops, or goes on after a stop, that does not count as time without a tile step (R394). -/
def Job.turnClock (now : Nat) (j : Job) : Job :=
  if j.recs.isEmpty && !j.parked then { j with since := now - j.since } else j

/-- The time from which a card's clock counts, where it runs again now. -/
def Job.clockAt (now : Nat) (j : Job) : Nat :=
  if j.recs.isEmpty && !j.parked then j.since else now - j.since
/-- Bytes at the front of a mask-packed tile that give its length. -/
def maskHead (x : OpBits) : Nat := tileScales (ocKT x) (ocWT x).scale + 8 * ocKT x
/-- Where a tile of GEMM or CONV2D weights lies. -/
def tileAt (x : OpBits) (nb kt : Nat) : Nat := cut 64 ((ocWT x).base + (nb * ocKTN x + kt : Nat) * (ocWT x).s1)
/-- The card's weights are mask-packed tiles that it reads, whose lengths the masks give (R176, R347). -/
def ocMasked (x : OpBits) : Bool := !ocDw x && (ocWT x).pack = 2
/-- Its tiles: block and K tile. -/
def maskTiles (x : OpBits) : List (Nat × Nat) :=
  (List.range (ceilDiv (ocDN x) 64)).flatMap fun nb => (List.range (ocKTN x)).map fun kt => (nb, kt)

/-- The masks of a card that has been read are checked (R347, R357): a tile longer than its place is ERR 3, which comes
before the card's own ERR 4 or 8. -/
def checkMasks (k : Nat) (j : Job) (x : OpBits) (s : State) : Job × State :=
  let r := jobGather k j ((maskTiles x).map fun t => (tileAt x t.1 t.2, maskHead x)) s
  let fail (e : Nat) : Job := { j with st := 3, err := e, recs := [], unchecked := false }
  match r.1 with
  | .held => (j, r.2)
  | .stall fs => ({ j.turnClock s.now with recs := fs.map (·.1) }, jobRecords k j 0 .read fs r.2)
  | .err e => (fail e, r.2)
  | .ok pages zeros =>
    let len (t : Nat × Nat) : Nat :=
      tileLen (gotNum r.2 pages zeros (tileAt x t.1 t.2) (maskHead x)) (ocKT x) (ocWT x).fmt 2 (ocWT x).scale
    let w := nget {} (launch r.2 j.lk).wins k
    let s1 := countFor j.lk zeros.length r.2
    if (maskTiles x).any fun t => decide ((ocWT x).s1 < (len t : Int)) then (fail 3, s1)
    else if ocErr x w.accN w.wbN ≠ 0 then (fail (ocErr x w.accN w.wbN), s1)
    else ({ j with unchecked := false, bad := [] }, s1)

/-- Read a card that has none of its bits yet (R345): its bits and no error, its error, or the records it now
waits for; unchanged where the pair holds its bytes back or records are unanswered. The masks of mask-packed weights
are checked before its first step. -/
def readCard (k : Nat) (j : Job) (s : State) : Job × State :=
  if !j.recs.isEmpty || j.desc.isSome then (j, s)
  else
    let r := jobGather k j [(j.addr, 256)] s
    let fail (e : Nat) : Job := { j with st := 3, err := e, recs := [] }
    match r.1 with
    | .held => (j, r.2)
    | .stall fs => ({ j.turnClock s.now with recs := fs.map (·.1) }, jobRecords k j 0 .read fs r.2)
    | .err e => (fail e, r.2)
    | .ok pages zeros =>
      let x := gotNum r.2 pages zeros j.addr 256
      let w := nget {} (launch r.2 j.lk).wins k
      let e := ocErr x w.accN w.wbN
      let s1 := countFor j.lk zeros.length r.2
      if ocMasked x && (e = 0 || decide (4 ≤ e)) then
        ({ j with desc := some (BitVec.ofNat 2048 x), bad := [], unchecked := true }, s1)
      else if e = 0 then ({ j with desc := some (BitVec.ofNat 2048 x), bad := [] }, s1)
      else (fail e, s1)

end Sys2Proof.Machine
end

