-- ==== Sys2Proof/Machine/Scalar.lean ====
section
/-!
DEFINITION. Sys2Proof/Machine/Scalar.lean: the S engine (R99 to R114): uniform arithmetic, special
registers, branches, counted loops, divergence, rejoin and exit; and NOP, TWAIT and TSIG (R82, R83).
-/
namespace Sys2Proof.Machine

/-! ### Uniform arithmetic (R100 to R103) -/

/-- The result of an S-ALU word by its opcode (R101), on 64-bit operands. -/
def sAluVal (op : Nat) (f : Flds) (a b : Nat) : Nat :=
  let rd (x : Nat) : Int := if f.m 1 then zx 64 x else sx 64 x
  let n := b % 64
  let r : Int :=
    match op with
    | 0x04 => rd a + rd b
    | 0x05 => rd a - rd b
    | 0x06 => rd a * rd b
    | 0x07 => floorShift (rd a * rd b) 64
    | 0x08 => ((a &&& b : Nat) : Int)
    | 0x09 => ((a ||| b : Nat) : Int)
    | 0x0a => ((a ^^^ b : Nat) : Int)
    | 0x0b => ((a * 2 ^ n : Nat) : Int)
    | 0x0c => ((a / 2 ^ n : Nat) : Int)
    | 0x0d => floorShift (sx 64 a) n
    | 0x0e => min (rd a) (rd b)
    | _ => max (rd a) (rd b)
  let r' := if f.m 2 then (if f.m 1 then satU 64 r else satS 64 r) else r
  cut 64 r'

/-- Operand B of an S-ALU word: sB, or I12 sign-extended (R100). -/
def sOperandB (s : State) (g : Nat) (f : Flds) (imm : Bool) : Nat :=
  if imm then cut 64 f.i12 else uread s g f.b

/-- An S-ALU word (R101). -/
def salu (op : Nat) (f : Flds) (c : Cur) (s : State) : Res :=
  .done (uwrite c f.d (sAluVal op f (uread s c.g f.a) (sOperandB s c.g f (f.m 0))) s)

/-- The conditions of R102 by MOD[2:0]. -/
def condInt (k : Nat) (a b : Int) : Bool :=
  match k with
  | 0 => a = b
  | 1 => a ≠ b
  | 2 => a < b
  | 3 => a ≤ b
  | 4 => b < a
  | _ => b ≤ a

/-- SCMP (R102). -/
def scmpRes (f : Flds) (c : Cur) (s : State) : Res :=
  let rd (x : Nat) : Int := if f.m 3 then zx 64 x else sx 64 x
  .done (uwrite c f.d
    (b2n (condInt (f.mod % 8) (rd (uread s c.g f.a)) (rd (sOperandB s c.g f (f.c = 1))))) s)

/-- SSEL (R102). -/
def sselRes (f : Flds) (c : Cur) (s : State) : Res :=
  .done (uwrite c f.d (if uread s c.g f.c ≠ 0 then uread s c.g f.a else uread s c.g f.b) s)

/-- SLI (R103). -/
def sliRes (f : Flds) (c : Cur) (s : State) : Res := .done (uwrite c f.d (cut 64 f.i23) s)

/-- SLIH (R103): bits [pos + 22 : pos] replaced, cut at bit 64. -/
def slihVal (old pos imm : Nat) : Nat :=
  let mask := (2 ^ 23 - 1) * 2 ^ pos % 2 ^ 64
  (old &&& notBits 64 mask) ||| (imm * 2 ^ pos % 2 ^ 64)
def slihRes (f : Flds) (c : Cur) (s : State) : Res :=
  .done (uwrite c f.d (slihVal (uread s c.g f.d) f.b f.imm) s)

/-- A register of SMOV: s0 to s63, then t0 to t15 (R104). -/
def stRead (s : State) (g n : Nat) : Nat := if n < 64 then uread s g n else tread s g (n - 64)
def stWrite (c : Cur) (n x : Nat) (s : State) : State :=
  if n < 64 then uwrite c n x s else jw c (.t (tkOf c.g) (n - 64)) (.set (.num x)) s

/-- A team-register write of deterministic mode that has not committed: the group's own of earlier words, newest last
(R36). -/
def ownTeamWrite (s : State) (g seq n : Nat) : Option Nat :=
  match (pair s (pairOf s g)).tw.filter fun x => x.g = g && decide (x.seq < seq) && x.n = n with
  | [] => none
  | x :: xs => some ((x :: xs).getLast?.getD x).x

/-- The flight of a word of the S queue whose quantum is not known yet, with what it will write (R36, R105; DEDUCED,
log 156). -/
def lateFlight (c : Cur) (d : Reg) : Flight := ⟨c.w.seq, 0, c.w.slot, c.w.mask, [d], false, .late c.w⟩

/-- SMOV's effect (R104). In deterministic mode a team-register write is held until the commit of its quantum, and a
read takes the committed value with the group's own writes. -/
def smovGo (f : Flds) (c : Cur) (s : State) : State :=
  let x :=
    if isDet s c.g && 64 ≤ f.a then (ownTeamWrite s c.g c.w.seq (f.a - 64)).getD (tread s c.g (f.a - 64))
    else stRead s c.g f.a
  if isDet s c.g && 64 ≤ f.d then
    modPair s (pairOf s c.g) fun P => { P with tw := P.tw ++ [⟨c.g, c.w.seq, f.d - 64, x⟩] }
  else stWrite c f.d x s

/-- SMOV (R104). A read of a team register whose quantum is not known yet keeps nothing behind it back: it is done once
the quantum is known and the earlier epochs have committed. -/
def smovRes (f : Flds) (c : Cur) (s : State) : Res :=
  if 64 ≤ f.a && epochWait s c (0, 0, 0) then
    if quantumSure s c (0, 0, 0) || handlerStuck s c.g then waitEpoch (0, 0, 0) c s
    else .fly (lateFlight c (if f.d < 64 then .u f.d else .t (f.d - 64))) s
  else .done (smovGo f c s)

/-! ### Special registers (R27, R105) -/

/-- The cores of a launch's resident teams, in placement order (R27). -/
def placedCores (s : State) (lk : Nat) : List Nat :=
  ((s.teams.filter fun x => lkOfT x.1 = lk).flatMap fun x =>
    if (launch s lk).paired then [x.2.core, x.2.core + 1] else [x.2.core]).dedup

/-- The place of a number in a list. -/
def placeIn (x : Nat) (l : List Nat) : Nat := l.idxOf x

/-- The cluster of a core (R27). -/
def clusterOf (c : Nat) : Nat := c / 8

/-- A special register as SRD delivers it (R27). -/
def special (s : State) (c : Cur) (n : Nat) : Nat :=
  let g := c.g
  let l := launchOf s g
  let k := coreOf s g
  let cores := placedCores s (lkOf g)
  match n with
  | 1 => gIdx g
  | 2 => gTeam g
  | 3 => l.inst
  | 4 => gIdx g % l.roles
  | 5 => if l.det then placeIn k cores else k
  | 6 => if l.det then placeIn (k / 2) ((cores.map (· / 2)).dedup) else k / 2
  | 7 => if l.det then placeIn (clusterOf k) ((cores.map clusterOf).dedup) else clusterOf k
  | 8 => deviceNo s
  | 9 => l.width
  | 10 => l.ngroups
  | 11 => l.nteams
  | 12 => if l.det then l.release else s.now
  | 13 => quantumOf (grp s g) c.w.seq
  | 14 => if l.det then l.relDeadline else cut 64 ((l.deadline : Int) - s.now)
  | _ => gCard g

/-- SRD (R105). In deterministic mode QNUM is known once no boundary can come between the opening boundary and the
word (R33): until then the value is still to come, and the words behind go on. In a handler it is the group's quantum as
it stands (DESIGN CHOICE, log 146: the spec does not say which quantum a handler's word lies in while a saved word may
still fix a boundary before it). -/
def srdRes (f : Flds) (c : Cur) (s : State) : Res :=
  if f.a = 13 && isDet s c.g && (grp s c.g).handler.isNone && !quantumSure s c (0, 0, 0) then
    .fly (lateFlight c (.u f.d)) s
  else if f.a = 0 then .done (vwriteLanes c f.d ((laneList s c f).map fun l => (l, l)) s)
  else .done (uwrite c f.d (special s c f.a) s)

/-- A word in flight that waited for its quantum is done, if it is known now (R36, R105). -/
def landLateWord (g : Nat) (s : State) (w : QWord) : State :=
  let c : Cur := ⟨g, true, w⟩
  let t : State := useRot g w s
  let r : Option State := match w.instr with
    | .srd x => if quantumSure s c (0, 0, 0) then some (uwrite c x.flds.d (special s c x.flds.a) t) else none
    | .smov x => if epochWait s c (0, 0, 0) then none else some (smovGo x.flds c t)
    | _ => none
  match r with
  | none => s
  | some u =>
    deliver g (retireCheck g (modGrp u g fun G =>
      { G with flights := G.flights.filter (fun f => f.seq ≠ w.seq), qret := G.qret + 1 }))

/-- Every such word of a group. -/
def landLate (g : Nat) (s : State) : State :=
  ((grp s g).flights.filterMap fun f => match f.kind with
    | .late w => some w
    | _ => none).foldl (landLateWord g) s

/-! ### Branches and loops (R106, R107) -/

/-- The address a label names (R94). -/
def labelAt (f : Flds) (c : Cur) : Nat := cut 64 ((c.w.pc.toNat : Int) + 4 * f.i23)
/-- The address past a long word. -/
def past (c : Cur) (n : Nat) : Nat := (c.w.pc.toNat + n) % 2 ^ 64

/-- Move the issuing slot, or trap on a misaligned target before any change (R106). -/
def branchTo (c : Cur) (next : Nat) (s : State) (s' : State) : Res :=
  if next % 4 ≠ 0 then trapAs c clsMisalign 1 next s else .done (resolve c next s')

def braRes (f : Flds) (c : Cur) (s : State) : Res := branchTo c (labelAt f c) s s
def brcRes (f : Flds) (c : Cur) (s : State) : Res :=
  let t : Bool := uread s c.g f.a ≠ 0
  branchTo c (if (if f.d = 1 then !t else t) then labelAt f c else past c 8) s s
def brxRes (f : Flds) (c : Cur) (s : State) : Res := branchTo c (uread s c.g f.a) s s
def callRes (f : Flds) (c : Cur) (s : State) : Res :=
  branchTo c (labelAt f c) s (uwrite c f.d (past c 8) s)
def loopRes (f : Flds) (c : Cur) (s : State) : Res := .done (uwrite c f.d (uread s c.g f.a) s)
def endlRes (f : Flds) (c : Cur) (s : State) : Res :=
  let n := uread s c.g f.d
  if n ≤ 1 then .done (resolve c (past c 8) (uwrite c f.d 0 s))
  else .done (resolve c (labelAt f c) (uwrite c f.d (n - 1) s))

/-! ### The divergence stack (R22, R108 to R113) -/

/-- An entry of the divergence stack. -/
structure StackEntry where
  kind : Nat
  pc : Nat
  mask : Nat
deriving DecidableEq, Repr

/-- Where a group's stack begins in its half of local memory (R22). -/
def stackBase (s : State) (g : Nat) : Nat :=
  let l := launchOf s g
  l.localBytes - 1024 * (gIdx g % l.perCore + 1)

/-- Entry `i` from the bottom. A poisoned granule under it changes nothing: the poison rules speak of M words (DESIGN
CHOICE, log 145). -/
def stackEntry (s : State) (g i : Nat) : StackEntry :=
  let x := memNum ((team s (tkOf g)).mem (halfOf s g)) (stackBase s g + 16 * i) 16
  ⟨x % 4, nbits x 63 2 * 4, nbits x 127 64⟩

/-- Write entry `i` (R113: a journaled local write). -/
def stackPut (c : Cur) (i : Nat) (e : StackEntry) (s : State) : State :=
  locPut c.g c.w.seq (halfOf s c.g) (stackBase s c.g + 16 * i)
    (toBytes 16 (e.kind % 4 + e.pc / 4 % 2 ^ 62 * 4 + e.mask % 2 ^ 64 * 2 ^ 64)) s

def setDepth (c : Cur) (n : Nat) (s : State) : State := jw c (.depth c.g) (.set (.num n)) s

/-- Push an entry. -/
def push (c : Cur) (e : StackEntry) (s : State) : State :=
  let d := (grp s c.g).depth
  setDepth c (d + 1) (stackPut c d e s)

/-- The STACK cause of pushing `n` entries: none where they fit (R113). -/
def pushCause (s : State) (g n : Nat) : Option Nat :=
  if !(launchOf s g).stack then some 1
  else if 64 < (grp s g).depth + n then some 0
  else none

/-- A valid slot at an address. -/
def slotAt (pc mask : Nat) : Slot := ⟨BitVec.ofNat 64 pc, BitVec.ofNat 64 mask, true, false⟩

/-- Both slots have become valid: deterministic mode begins with slot 0 (R78). -/
def bothValid (c : Cur) (s : State) : State :=
  modGrp s c.g fun G => slotsAfter c.w.seq (fun p => { p with turn := 0 }) { G with turn := 0 }

/-- BDIV (R108). -/
def bdivRes (f : Flds) (c : Cur) (s : State) : Res :=
  let M := c.w.mask.toNat
  let T := activeLanes s c f &&& pread s c.g f.a
  let F := M &&& notBits 64 T
  let y := 1 - c.w.slot
  if T = 0 then .done (resolve c (past c 8) s)
  else if F = 0 then .done (resolve c (labelAt f c) s)
  else if !(slotOf (grp s c.g) y).valid then
    .done (bothValid c (putSlot c y (slotAt (labelAt f c) T) (putSlot c c.w.slot (slotAt (past c 8) F) s)))
  else
    match pushCause s c.g 1 with
    | some cause => trapAs c clsStack cause 0 s
    | none => .done (putSlot c c.w.slot (slotAt (past c 8) F) (push c ⟨1, labelAt f c, T⟩ s))

/-- The word of the Z queue that stops a slot, a guarded TRAP or BKPT or a HALT: the slot goes on past it (R77). -/
def stopper (s : State) (g slot : Nat) : Option QWord :=
  if (slotOf (grp s g) slot).stopped then (queueOf (grp s g) 7).find? fun w => w.slot = slot && stopOf w.instr else none

/-- The next address of a slot that MARK spills (R109): past the word that stops it, where one does (DEDUCED, log
100). -/
def spillAddr (s : State) (g slot : Nat) : Nat :=
  match stopper s g slot with
  | some w => (w.pc.toNat + w.instr.size) % 2 ^ 64
  | none => (slotOf (grp s g) slot).addr.toNat

/-- That word no longer resolves its slot, which another path may have taken. -/
def spillStopper (g slot : Nat) (s : State) : State :=
  match stopper s g slot with
  | some w => modGrp s g fun G => setQueue G 7 ((queueOf G 7).map fun x =>
      if x.seq = w.seq then { x with slot := slot + 2 } else x)
  | none => s

/-- MARK (R109). The slot that issued it goes on as its words are placed. -/
def markRes (f : Flds) (c : Cur) (s : State) : Res :=
  let y := 1 - c.w.slot
  let Y := slotOf (grp s c.g) y
  match pushCause s c.g (if Y.valid then 2 else 1) with
  | some cause => trapAs c clsStack cause 0 s
  | none =>
    let s1 := if Y.valid then
        putSlot c y { Y with valid := false } (push c ⟨1, spillAddr s c.g y, Y.mask.toNat⟩ (spillStopper c.g y s))
      else s
    .done (push c ⟨0, labelAt f c, c.w.mask.toNat⟩ s1)

/-- The topmost rejoin entry among entries 0 to n − 1. -/
def topRejoin (s : State) (g : Nat) : Nat → Option StackEntry
  | 0 => none
  | n + 1 => let e := stackEntry s g n; if e.kind = 0 then some e else topRejoin s g n

/-- The resume step of R111, on an invalid slot X. -/
def resumeSlot (c : Cur) : Nat → State → State
  | 0, s => s
  | fuel + 1, s =>
    let d := (grp s c.g).depth
    if d = 0 then s
    else
      let e := stackEntry s c.g (d - 1)
      if e.kind = 1 then putSlot c c.w.slot (slotAt e.pc e.mask) (setDepth c (d - 1) s)
      else if (slotOf (grp s c.g) (1 - c.w.slot)).valid then s
      else if e.mask ≠ 0 then
        putSlot c c.w.slot (slotAt ((e.pc + 4) % 2 ^ 64) e.mask) (setDepth c (d - 1) s)
      else resumeSlot c fuel (setDepth c (d - 1) s)

/-- JOIN (R110). -/
def joinRes (c : Cur) (s : State) : Res :=
  match topRejoin s c.g (grp s c.g).depth with
  | none => trapAs c clsStack 2 0 s
  | some e =>
    if e.pc ≠ c.w.pc.toNat then trapAs c clsStack 2 0 s
    else .done (resumeSlot c 65 (putSlot c c.w.slot {} s))

/-- Clear lanes from the mask of every rejoin entry below `n` (R112). -/
def clearRejoin (c : Cur) (lanes : Nat) : Nat → State → State
  | 0, s => s
  | n + 1, s =>
    let e := stackEntry s c.g n
    let s1 := if e.kind = 0 then stackPut c n { e with mask := e.mask &&& notBits 64 lanes } s else s
    clearRejoin c lanes n s1

/-- EXIT (R23, R112). -/
def exitRes (c : Cur) (s : State) : Res :=
  .done (resumeSlot c 65 (putSlot c c.w.slot {} (clearRejoin c c.w.mask.toNat (grp s c.g).depth s)))

/-! ### NOP and tokens (R82, R83) -/

/-- A TWAIT on token `n` with a lower sequence number stands at the head of another queue, and the count satisfies
it (R82). -/
def olderTwait (s : State) (c : Cur) (n : Nat) : Bool :=
  (List.range 8).any fun q => match queueOf (grp s c.g) q with
    | w :: _ => (match w.instr with
      | .twait _ x => decide (w.seq < c.w.seq) && x.flds.d = n && decide (x.flds.a ≤ kread s c.g n) &&
          startable w.instr ⟨c.g, true, w⟩ s
      | _ => false)
    | [] => false

/-- TWAIT: the token holds enough, or the word waits (R82). -/
def twaitRes (f : Flds) (c : Cur) (s : State) : Res :=
  let k := kread s c.g f.d
  if f.a ≤ k && !olderTwait s c f.d then .done (jw c (.k c.g f.d) (.add (-(f.a : Int))) s)
  else waitFor c 1 s

/-- TSIG: every earlier word of its queue has completed and there is room, or the word waits (R82). -/
def tsigRes (q : Nat) (f : Flds) (c : Cur) (s : State) : Res :=
  let G := grp s c.g
  let k := kread s c.g f.d
  if (G.flights.any fun x => x.eng = q && decide (x.seq < c.w.seq)) || 15 < k + f.a then waitFor c 1 s
  else .done (jw c (.k c.g f.d) (.add f.a) s)

/-! ### The instructions -/

/-- NOP (R83). -/
def execNop (e : BitVec 3) (w : SW) (s : State) := word (.nop e w) (fun _ s => .done s) s
/-- TWAIT (R82). -/
def execTwait (e : BitVec 3) (w : SW) (s : State) := word (.twait e w) (twaitRes w.flds) s
/-- TSIG (R82). -/
def execTsig (e : BitVec 3) (w : SW) (s : State) := word (.tsig e w) (tsigRes e.toNat w.flds) s
/-- SADD, short form (R101). -/
def execSadd (w : SW) (s : State) := word (.sadd w) (salu 0x04 w.flds) s
/-- SADD, long form (R100, R101). -/
def execSaddX (w : XW) (s : State) := word (.saddX w) (salu 0x04 w.flds) s
/-- SSUB, short form (R101). -/
def execSsub (w : SW) (s : State) := word (.ssub w) (salu 0x05 w.flds) s
/-- SSUB, long form (R100, R101). -/
def execSsubX (w : XW) (s : State) := word (.ssubX w) (salu 0x05 w.flds) s
/-- SMUL, short form (R101). -/
def execSmul (w : SW) (s : State) := word (.smul w) (salu 0x06 w.flds) s
/-- SMUL, long form (R100, R101). -/
def execSmulX (w : XW) (s : State) := word (.smulX w) (salu 0x06 w.flds) s
/-- SMULH, short form (R101). -/
def execSmulh (w : SW) (s : State) := word (.smulh w) (salu 0x07 w.flds) s
/-- SMULH, long form (R100, R101). -/
def execSmulhX (w : XW) (s : State) := word (.smulhX w) (salu 0x07 w.flds) s
/-- SAND, short form (R101). -/
def execSand (w : SW) (s : State) := word (.sand w) (salu 0x08 w.flds) s
/-- SAND, long form (R100, R101). -/
def execSandX (w : XW) (s : State) := word (.sandX w) (salu 0x08 w.flds) s
/-- SOR, short form (R101). -/
def execSor (w : SW) (s : State) := word (.sor w) (salu 0x09 w.flds) s
/-- SOR, long form (R100, R101). -/
def execSorX (w : XW) (s : State) := word (.sorX w) (salu 0x09 w.flds) s
/-- SXOR, short form (R101). -/
def execSxor (w : SW) (s : State) := word (.sxor w) (salu 0x0a w.flds) s
/-- SXOR, long form (R100, R101). -/
def execSxorX (w : XW) (s : State) := word (.sxorX w) (salu 0x0a w.flds) s
/-- SSHL, short form (R101). -/
def execSshl (w : SW) (s : State) := word (.sshl w) (salu 0x0b w.flds) s
/-- SSHL, long form (R100, R101). -/
def execSshlX (w : XW) (s : State) := word (.sshlX w) (salu 0x0b w.flds) s
/-- SSHR, short form (R101). -/
def execSshr (w : SW) (s : State) := word (.sshr w) (salu 0x0c w.flds) s
/-- SSHR, long form (R100, R101). -/
def execSshrX (w : XW) (s : State) := word (.sshrX w) (salu 0x0c w.flds) s
/-- SSRA, short form (R101). -/
def execSsra (w : SW) (s : State) := word (.ssra w) (salu 0x0d w.flds) s
/-- SSRA, long form (R100, R101). -/
def execSsraX (w : XW) (s : State) := word (.ssraX w) (salu 0x0d w.flds) s
/-- SMIN, short form (R101). -/
def execSmin (w : SW) (s : State) := word (.smin w) (salu 0x0e w.flds) s
/-- SMIN, long form (R100, R101). -/
def execSminX (w : XW) (s : State) := word (.sminX w) (salu 0x0e w.flds) s
/-- SMAX, short form (R101). -/
def execSmax (w : SW) (s : State) := word (.smax w) (salu 0x0f w.flds) s
/-- SMAX, long form (R100, R101). -/
def execSmaxX (w : XW) (s : State) := word (.smaxX w) (salu 0x0f w.flds) s
/-- SLI (R103). -/
def execSli (w : KW) (s : State) := word (.sli w) (sliRes w.flds) s
/-- SLIH (R103). -/
def execSlih (w : KW) (s : State) := word (.slih w) (slihRes w.flds) s
/-- SMOV (R104). -/
def execSmov (w : SW) (s : State) := word (.smov w) (smovRes w.flds) s
/-- SCMP (R102). -/
def execScmp (w : XW) (s : State) := word (.scmp w) (scmpRes w.flds) s
/-- SSEL (R102). -/
def execSsel (w : XW) (s : State) := word (.ssel w) (sselRes w.flds) s
/-- SRD (R105). -/
def execSrd (w : SW) (s : State) := word (.srd w) (srdRes w.flds) s
/-- BRA (R106). -/
def execBra (w : KW) (s : State) := word (.bra w) (braRes w.flds) s
/-- BRC (R106). -/
def execBrc (w : KW) (s : State) := word (.brc w) (brcRes w.flds) s
/-- BRX (R106). -/
def execBrx (w : SW) (s : State) := word (.brx w) (brxRes w.flds) s
/-- CALL (R106). -/
def execCall (w : KW) (s : State) := word (.call w) (callRes w.flds) s
/-- RET (R106). -/
def execRet (w : SW) (s : State) := word (.ret w) (brxRes w.flds) s
/-- BDIV (R108). -/
def execBdiv (w : KW) (s : State) := word (.bdiv w) (bdivRes w.flds) s
/-- MARK (R109). -/
def execMark (w : KW) (s : State) := word (.mark w) (markRes w.flds) s
/-- JOIN (R110). -/
def execJoin (w : SW) (s : State) := word (.join w) (joinRes) s
/-- LOOP (R107). -/
def execLoop (w : KW) (s : State) := word (.loop w) (loopRes w.flds) s
/-- ENDL (R107). -/
def execEndl (w : KW) (s : State) := word (.endl w) (endlRes w.flds) s
/-- EXIT (R23, R112). -/
def execExit (w : SW) (s : State) := word (.exit w) (exitRes) s

end Sys2Proof.Machine
end

