-- ==== Sys2Proof/Machine/Matrix.lean ====
section
/-!
DEFINITION. Sys2Proof/Machine/Matrix.lean: the X engine (R168 to R190): format streams, matrix products,
row maintenance, reading, writing and flushing rows, and the operator-walker interface.
-/
namespace Sys2Proof.Machine

/-! ### Windows and locks (R168, R169, R189) -/

/-- The launch's windows on a core. -/
def winOf (s : State) (lk k : Nat) : Win := nget {} (launch s lk).wins k
/-- The windows of a group. -/
def winG (s : State) (g : Nat) : Win := winOf s (lkOf g) (coreOf s g)

/-- The card is accepted and unfinished. -/
def Job.live (j : Job) : Bool := decide (j.st < 2)
/-- Two records of one card. -/
def Job.same (a b : Job) : Bool := a.lk = b.lk && a.chain = b.chain && a.hcore = b.hcore && a.id = b.id
/-- Bits of the card, once read. -/
def Job.fld (j : Job) (hi lo : Nat) : Nat := nbits (j.desc.getD 0).toNat hi lo

/-- The card locks rows [lo, lo + n) of its launch (R189): of the launch's window `w` until it is read. -/
def Job.locksRows (j : Job) (w : Win) (lo n : Nat) : Bool :=
  j.live && (if j.desc.isNone then overlaps 0 w.accN lo n
    else overlaps (j.fld 141 128) (j.fld 141 128 + j.fld 157 144 + 1) lo n)
/-- The card locks weight bytes [lo, lo + n) of its launch (R189). -/
def Job.locksWeights (j : Job) (w : Win) (lo n : Nat) : Bool :=
  j.live && (if j.desc.isNone then overlaps 0 w.wbN lo n
    else overlaps (j.fld 171 160 * 1024) ((j.fld 171 160 + j.fld 188 176) * 1024) lo n)

/-- A launch's cards on a core. -/
def jobsOf (s : State) (lk k : Nat) : List Job := (core s k).jobs.filter fun j => j.lk = lk

/-- RANGE cause 0 for rows or weight bytes that a card holds. -/
def rowsHeld (s : State) (g lo n : Nat) : Bool :=
  (jobsOf s (lkOf g) (coreOf s g)).any fun j => j.locksRows (winG s g) lo n
def weightsHeld (s : State) (g lo n : Nat) : Bool :=
  ((jobsOf s (lkOf g) (coreOf s g)).any fun j => j.locksWeights (winG s g) lo n) ||
    (core s (coreOf s g)).locks.any fun k =>
      k.space = 2 && k.own = lkOf g && k.kind = 1 && overlaps k.lo k.hi lo n

/-- A row number within the window as a physical row. -/
def physRow (s : State) (g n : Nat) : Nat := (winG s g).acc + n
/-- Row `n` of the window. -/
def rowGet (s : State) (g n : Nat) : AccRow := nget {} (core s (coreOf s g)).rows (physRow s g n)
/-- Row `n` of the window takes the effect of a word, journaled. -/
def rowPut (c : Cur) (n : Nat) (e : RowEff) (s : State) : State :=
  jw c (.row (coreOf s c.g) (physRow s c.g n)) (.row e) s
/-- Rows `lo` to `lo + n − 1` take it. -/
def rowsPut (c : Cur) (lo n : Nat) (e : RowEff) (s : State) : State :=
  (List.range n).foldl (fun s i => rowPut c (lo + i) e s) s

/-- The writes of so many rows exceed the group's whole accumulator journal share (R35, R169). -/
def rowsOver (s : State) (g n : Nat) : Bool :=
  isDet s g && decide (shareCap (coreOf s g) 1 < 520 * n * (launchOf s g).gmax)

/-- RANGE for rows (R169): cause 0 before cause 3; `writes` is how many of them the word writes. -/
def rowsCheck (c : Cur) (lo n writes : Nat) (s : State) : Option Res :=
  if rowsHeld s c.g lo n then some (trapAs c clsRange 0 0 s)
  else if (winG s c.g).accN < lo + n || rowsOver s c.g writes then some (trapAs c clsRange 3 0 s)
  else none

/-- The poisoned rows of a range, as row numbers. -/
def poisRows (s : State) (g lo n : Nat) : List Nat :=
  ((List.range n).map (lo + ·)).filter fun i => (rowGet s g i).pois

/-- Under continue a reader first rewrites a poisoned row clean, with NAN set, and counts it (R190). -/
def cleanRows (c : Cur) (rows : List Nat) (s : State) : State :=
  countPois c.g rows.length
    (rows.foldl (fun s i => rowPut c i .clean s) s)

/-- A word that reads rows: it traps POISON under contain, and goes on with clean rows under continue. -/
def readingRows (c : Cur) (lo n : Nat) (s : State) (k : State → Res) : Res :=
  match poisRows s c.g lo n with
  | [] => k s
  | r :: rs => if isCont s c.g then k (cleanRows c (r :: rs) s) else trapAs c clsPoison 3 r s

/-! ### Local runs of X words (R144, R175) -/

/-- Where `n` bytes from local offset `a` lie: in one half of the window (R144, R175). -/
def localRun (s : State) (g a n : Nat) : Option (Nat × Nat) :=
  let W := (launchOf s g).window
  if a + n ≤ W then some (halfOf s g, a)
  else if (launchOf s g).paired && decide (W ≤ a) && decide (a + n ≤ 2 * W) then
    some (1 - halfOf s g, a - W)
  else none

/-- A run meets a valid stash window of its half (R169). -/
def runStashed (s : State) (g half a n : Nat) : Bool :=
  ((List.range 8).map (stashWin s g half)).any fun w =>
    w.valid && overlaps w.lbase (w.lbase + w.size) a n

/-- The checks of a word's local runs: PAGE, then RANGE 0 for locks; runs are offset and length. -/
def runsPage (c : Cur) (runs : List (Nat × Nat)) (s : State) : Option Res :=
  match runs.find? fun r => (localRun s c.g r.1 r.2).isNone with
  | some r => some (trapAs c clsPage 0 r.1 s)
  | none => none
def runsLocked (s : State) (g : Nat) (load : Bool) (runs : List (Nat × Nat)) : Bool :=
  runs.any fun r => match localRun s g r.1 r.2 with
    | some (h, a) => localLocked s g h a r.2 load
    | none => false
def runsStashed (s : State) (g : Nat) (runs : List (Nat × Nat)) : Bool :=
  runs.any fun r => match localRun s g r.1 r.2 with
    | some (h, a) => runStashed s g h a r.2
    | none => false

/-- The poisoned granules of a run, each with the run's local offset that meets it. -/
def runPois (s : State) (g : Nat) (r : Nat × Nat) : List (Nat × Nat × Nat) :=
  match localRun s g r.1 r.2 with
  | none => []
  | some (h, a) =>
    ((List.range ((a + r.2 - 1) / 64 - a / 64 + 1)).map (· + a / 64)).filterMap fun gr =>
      if nget false ((team s (tkOf g)).pois h) gr then some (h, gr, r.1 + (gr * 64 - a)) else none

/-- The bytes of a run as a number, poisoned granules as zeros (R165, R190). -/
def runNum (s : State) (g : Nat) (r : Nat × Nat) : Nat :=
  match localRun s g r.1 r.2 with
  | none => 0
  | some (h, a) =>
    ofBytes ((List.range r.2).map fun i =>
      if locPoison s (tkOf g) h (a + i) then 0 else memGet ((team s (tkOf g)).mem h) (a + i))

/-- Write a run of local memory as a store does: journaled, a poisoned granule cleared where the run covers
it whole, and under continue zeroed first (R165, R186). Only a single run covers a granule, not the runs of a word
together (DESIGN CHOICE, log 104). -/
def runPut (c : Cur) (a : Nat) (bytes : List Byte) (s : State) : State :=
  match localRun s c.g a bytes.length with
  | none => s
  | some (h, o) =>
    if bytes.isEmpty then s
    else
      let grs := (List.range ((o + bytes.length - 1) / 64 - o / 64 + 1)).map (· + o / 64)
      let s1 := if isCont s c.g then grs.foldl (fun s gr => cleanGranule c h (gr * 64) s) s else s
      let s2 := locPut c.g c.w.seq h o bytes s1
      (grs.filter fun gr => decide (o ≤ gr * 64) && decide (gr * 64 + 64 ≤ o + bytes.length)).foldl
        (fun s gr => if nget false ((team s (tkOf c.g)).pois h) gr then
          jw c (.locPois (tkOf c.g) h gr) (.set (.num 0)) s else s) s2

/-! ### Format streams (R172) -/

/-- XSTRM (R172). -/
def xstrmRes (f : Flds) (c : Cur) (s : State) : Res :=
  let x := uread s c.g f.b * 2 ^ 64 + uread s c.g f.a
  if strmBad x then trapAs c clsRange 4 0 s else .done (fwrite c f.d x s)

/-- XSTRM.get (R172). -/
def xstrmGetRes (f : Flds) (c : Cur) (s : State) : Res :=
  .done (uwrite c f.d (fread s c.g f.a / 2 ^ (64 * f.c)) s)

/-! ### Matrix products (R175 to R177) -/

/-- The operands of one row's element j: values of the A row by k, of the tile by (k, n). -/
def prodsReal (ea : Nat → Fl) (eb : Nat → Nat → Fl) (kt j : Nat) : List Prod :=
  (List.range kt).map fun k => ⟨ea k, eb k j, false⟩

/-- The products of XMMAC (R65, R177): `cja` and `cjb` conjugate the operands. -/
def prodsComplex (ea : Nat → Fl) (eb : Nat → Nat → Fl) (kt j : Nat) (cja cjb : Bool) : List Prod :=
  let h := j / 2
  (List.range kt).flatMap fun k =>
    let ar := ea (2 * k)
    let ai := if cja then (ea (2 * k + 1)).negate else ea (2 * k + 1)
    let br := eb k (2 * h)
    let bi := if cjb then (eb k (2 * h + 1)).negate else eb k (2 * h + 1)
    if j % 2 = 0 then [⟨ar, br, false⟩, ⟨ai, bi, true⟩] else [⟨ar, bi, false⟩, ⟨ai, br, false⟩]

/-- The exact value of an integer element. -/
def Fl.toIntVal : Fl → Int
  | .fin m e => m * ((2 ^ e.toNat : Nat) : Int)
  | _ => 0

/-- What a product word adds to one row (R177): `op` is the opcode. -/
def prodEff (op : Nat) (f : Flds) (ea : Nat → Fl) (eb : Nat → Nat → Fl) (kt : Nat) : RowEff :=
  match op with
  | 2 => .prods ((List.range 64).map fun j => prodsReal ea eb kt j)
  | 3 => .prods ((List.range 64).map fun j => prodsComplex ea eb kt j (f.m 2) (f.m 3))
  | _ => .prodsInt (f.m 2) ((List.range 64).map fun j =>
      (List.range kt).map fun k => (ea k).toIntVal * (eb k j).toIntVal)

/-- The poisoned granules of a launch's weight bytes, as window offsets. -/
def weightPois (s : State) (g lo n : Nat) : List Nat :=
  let w := winG s g
  if n = 0 then []
  else ((List.range n).filter fun i => (i = 0 || (w.wb + lo + i) % 64 = 0) &&
    nget false (core s (coreOf s g)).wpois ((w.wb + lo + i) / 64)).map (lo + ·)

/-- Weight bytes as a number. -/
def weightNum (s : State) (g lo n : Nat) : Nat :=
  memNum (core s (coreOf s g)).wb ((winG s g).wb + lo) n

/-- The two streams after .adva and .advb (R177). -/
def advStreams (c : Cur) (f : Flds) (A B : Strm) (ka : Nat) (s : State) : State :=
  let s1 := if f.m 0 then
      fwrite c f.a (strmNum { A with
        base := A.base + ka * fmtBits A.fmt / 8
        sbase := if A.scale = 0 then A.sbase else A.sbase + ka / scaleLen A.scale }) s
    else s
  if f.m 1 then fwrite c f.b (strmNum { B with base := B.base + B.stride }) s1 else s1

/-- XMMA, XMMAC and XIMMA (R170, R175 to R177). The runs of block scales count for RANGE 3 too (DESIGN CHOICE, log
101). -/
def prodRes (op : Nat) (f : Flds) (c : Cur) (s : State) : Res :=
  let A := strmOf (fread s c.g f.a)
  let B := strmOf (fread s c.g f.b)
  let int : Bool := op = 4
  let kt := tileDepth A.fmt (op = 3)
  let ka := if op = 3 then 2 * kt else kt
  let m := f.c + 1
  let row0 := uread s c.g f.d
  let scaled := A.scale ≠ 0 && !int
  let rowRun (i : Nat) : Nat × Nat := (A.base + i * A.stride, ka * fmtBits A.fmt / 8)
  let scRun (i : Nat) : Nat × Nat := (A.sbase + i * A.sstride, ka / scaleLen A.scale)
  let runs := (List.range m).flatMap fun i => if scaled then [rowRun i, scRun i] else [rowRun i]
  if !fmtsFit A.fmt B.fmt || A.space ≠ 0 || B.space = 0 || (int && (A.fmt ≠ 5 || B.fmt ≠ 5)) then
    trapAs c clsRange 4 0 s
  else match runsPage c runs s with
  | some r => r
  | none =>
    let tile := weightNum s c.g B.base B.stride
    if runsLocked s c.g true runs || weightsHeld s c.g B.base B.stride || rowsHeld s c.g row0 m then
      trapAs c clsRange 0 0 s
    else if (winG s c.g).accN < row0 + m || (winG s c.g).wbN < B.base + B.stride ||
        runsStashed s c.g runs || rowsOver s c.g m then trapAs c clsRange 3 0 s
    else if B.stride < tileLen tile kt B.fmt B.space B.scale then trapAs c clsRange 4 0 s
    else
      let lp := runs.flatMap (runPois s c.g)
      let wp := weightPois s c.g B.base B.stride
      if !isCont s c.g && !lp.isEmpty then
        trapAs c clsPoison 1 ((lp.map (·.2.2)).foldl min (2 ^ 64)) s
      else if !isCont s c.g && !wp.isEmpty then trapAs c clsPoison 2 (wp.headD 0) s
      else
        let n := (lp.map fun x => (x.1, x.2.1)).dedup.length + wp.length
        let s1 := if isCont s c.g then countPois c.g n s else s
        let s2 := (List.range m).foldl (fun t i =>
          let str := runNum s c.g (rowRun i)
          let scs := if scaled then runNum s c.g (scRun i) else 0
          rowPut c (row0 + i) (prodEff op f (rowElem str scs A.fmt A.scale int)
            (tileValue tile kt B.fmt B.space B.scale int) kt) t) s1
        .done (advStreams c f A B ka s2)

/-! ### Row maintenance (R181 to R183) -/

/-- XZERO (R181, R190). -/
def xzeroRes (f : Flds) (c : Cur) (s : State) : Res :=
  let lo := uread s c.g f.d
  match rowsCheck c lo (f.c + 1) (f.c + 1) s with
  | some r => r
  | none => .done (rowsPut c lo (f.c + 1) (.zero f.i12) s)

/-- XEXP (R181). It is no reader of its rows: a poisoned one neither traps nor is cleaned (DESIGN CHOICE, log 105). -/
def xexpRes (f : Flds) (c : Cur) (s : State) : Res :=
  let lo := uread s c.g f.d
  match rowsCheck c lo (f.c + 1) (f.c + 1) s with
  | some r => r
  | none => .done (rowsPut c lo (f.c + 1) (.expo (BitVec.ofNat 32 (uread s c.g f.a))) s)

/-- The rows of a range that XNORM changes: with .fit those whose elements are too long (R182). -/
def normRows (s : State) (c : Cur) (f : Flds) (lo : Nat) : List Nat :=
  ((List.range (f.c + 1)).map (lo + ·)).filter fun i => !f.m 0 || decide (f.imm < (rowGet s c.g i).maxlen)

/-- XNORM (R182); a row that .fit leaves as it is is not written. -/
def xnormRes (f : Flds) (c : Cur) (s : State) : Res :=
  let lo := uread s c.g f.d
  match rowsCheck c lo (f.c + 1) (normRows s c f lo).length s with
  | some r => r
  | none => readingRows c lo (f.c + 1) s fun s =>
      .done ((normRows s c f lo).foldl (fun t i =>
        rowPut c i (if f.m 0 then .fit f.imm else .norm f.i12) t) s)

/-- XGRD (R183). -/
def xgrdRes (f : Flds) (c : Cur) (s : State) : Res :=
  let n := uread s c.g f.a
  match rowsCheck c n 1 (if f.m 0 then 1 else 0) s with
  | some r => r
  | none => readingRows c n 1 s fun s =>
      let r := rowGet s c.g n
      let s1 := uwrite c f.d (cut 64 (r.ex * 2 ^ 32 + r.gw.toNat)) s
      if f.m 0 then
        .done (rowPut c n .unflag s1)
      else .done s1

/-! ### Reading and writing rows (R184 to R186) -/

/-- What XRD writes for element j of a row (R184). -/
def xrdVal (f : Flds) (j : Nat) (r : AccRow) : Nat :=
  match f.mod / 4 with
  | 0 => codeReg f.c (typeEnc f.c (f.mod % 4) (rowValue false j r))
  | 1 => codeReg f.c (typeEnc f.c (f.mod % 4) (rowValue true j r))
  | _ => (nget 0 r.m j).toNat

/-- XRD (R184). With no active lane it still checks and reads its row (DESIGN CHOICE, log 103). -/
def xrdRes (f : Flds) (c : Cur) (s : State) : Res :=
  let n := uread s c.g f.a
  match rowsCheck c n 1 0 s with
  | some r => r
  | none => readingRows c n 1 s fun s =>
      let r := rowGet s c.g n
      .done (putLanes c (tcWide f.c) f.d
        (eachLane s c f fun l => xrdVal f (f.imm * widthOf s c.g + l) r) s)

/-- XWR (R185): all lanes of the word write the row together. With no active lane it still checks the row (DESIGN
CHOICE, log 103). -/
def xwrRes (f : Flds) (c : Cur) (s : State) : Res :=
  let n := uread s c.g f.d
  match rowsCheck c n 1 1 s with
  | some r => r
  | none =>
    .done (rowPut c n (.elems (f.mod / 4) f.c ((laneList s c f).map fun l =>
      (f.imm * widthOf s c.g + l, laneRaw s c.g (tcWide f.c) f.a l))) s)

/-- The granules of local memory that runs touch: half and granule. -/
def runGrans (s : State) (g : Nat) (runs : List (Nat × Nat)) : List (Nat × Nat) :=
  (runs.flatMap fun r => match localRun s g r.1 r.2 with
    | some (h, a) => (List.range ((a + r.2 - 1) / 64 - a / 64 + 1)).map fun i => (h, a / 64 + i)
    | none => []).dedup

/-- XFLUSH (R186). The runs of block scales count for RANGE 3 too (DESIGN CHOICE, log 101). -/
def xflushRes (f : Flds) (c : Cur) (s : State) : Res :=
  let D := strmOf (fread s c.g f.d)
  let lo := uread s c.g f.a
  let n := f.c + 1
  let runLen := 8 * fmtBits D.fmt
  let outRun (i : Nat) : Nat × Nat := (D.base + i * D.stride, runLen)
  let scRun (i : Nat) : Nat × Nat := (D.sbase + i * D.sstride, 64 / scaleLen D.scale)
  let runs := (List.range n).flatMap fun i => if D.scale = 0 then [outRun i] else [outRun i, scRun i]
  if D.fmt = 0 || D.space ≠ 0 then trapAs c clsRange 4 0 s
  else match runsPage c runs s with
  | some r => r
  | none =>
    if runsLocked s c.g false runs || rowsHeld s c.g lo n then trapAs c clsRange 0 0 s
    else if (winG s c.g).accN < lo + n || runsStashed s c.g runs || (f.m 2 && rowsOver s c.g n) then
      trapAs c clsRange 3 0 s
    else if neverFits s c.g (64 * (runGrans s c.g runs).length, 0, 0) then trapAs c clsRange 7 0 s
    else readingRows c lo n s fun s =>
      let s1 := (List.range n).foldl (fun t i =>
        let vals := (List.range 64).map fun j => rowValue (f.m 0) j (rowGet s c.g (lo + i))
        let p := packRun D.fmt D.scale vals
        runPut c (scRun i).1 p.2 (runPut c (outRun i).1 (toBytes runLen p.1) t)) s
      let s2 := if f.m 1 then
          fwrite c f.d (strmNum { D with
            base := D.base + n * D.stride
            sbase := D.sbase + n * D.sstride }) s1
        else s1
      .done (if f.m 2 then rowsPut c lo n .wipe s2 else s2)

/-! ### The operator walker's interface (R187 to R189) -/

/-- Change the cards of a core. -/
def modJobs (k : Nat) (f : List Job → List Job) (s : State) : State :=
  modCore s k fun C => { C with jobs := f C.jobs }

/-- The last 64 cards of a launch's context that one core accepted (R188). -/
def lastJobs (lk hc : Nat) (js : List Job) : List Job :=
  ((js.filter fun j => j.lk = lk && !j.chain && j.hcore = hc).reverse).take 64

/-- Keep the unfinished cards and those last 64. -/
def trimJobs (lk hc : Nat) (js : List Job) : List Job :=
  js.filter fun j => !(j.lk = lk && !j.chain && j.hcore = hc) || j.live || (lastJobs lk hc js).contains j

/-- XRUN (R187, R345): the walker accepts the card and reads it; in deterministic mode the read waits, as a
load does, for the epochs before its own (R149). -/
def xrunRes (f : Flds) (c : Cur) (s : State) : Res :=
  let addr := uread s c.g f.a
  let lk := lkOf c.g
  let k := coreOf s c.g
  if addr % 256 ≠ 0 then trapAs c clsMisalign 0 addr s
  else if 4 ≤ ((jobsOf s lk k).filter (·.live)).length then waitFor c 4 s
  else if epochWait s c (0, 0, 0) then waitEpoch (0, 0, 0) c s
  else
    let hc := special s c 5
    let n := nget 0 (launch s lk).handles hc
    let j : Job := { id := n, hcore := hc, lk := lk, chain := false, g := c.g, seq := c.w.seq, addr := addr,
                     since := s.now }
    let r := readCard k j s
    let s1 := modLaunch r.2 lk fun l => { l with handles := nput l.handles hc (n + 1) }
    let s2 := modJobs k (fun js => trimJobs lk hc (js ++ [r.1])) s1
    .done (uwrite c f.d (n % 2 ^ 32 + hc * 2 ^ 32) s2)

/-- The card that a handle names for a group's context (R188), with its core: one of the last 64 that the same context
accepted on the core that the handle names. -/
def jobByHandle (s : State) (g h : Nat) : Option (Nat × Job) :=
  (coresOf (launchOf s g) (seatOf s g)).findSome? fun k =>
    ((lastJobs (lkOf g) (nbits h 37 32) (core s k).jobs).find? fun j => j.id % 2 ^ 32 = h % 2 ^ 32 && decide (h < 2 ^ 38)).map
      fun j => (k, j)

/-- The status word of a card (R188). -/
def jobStatus (j : Option (Nat × Job)) : Nat :=
  match j with
  | none => 3 + 0xFF * 2 ^ 8
  | some (_, j) => j.st + b2n j.killed * 4 + j.err * 2 ^ 8 + j.steps % 2 ^ 32 * 2 ^ 32

/-- The card is done: its effects come before the group's later words, as after an .acq access (R188). -/
def pollEvent (g : Nat) (j : Option (Nat × Job)) (s : State) : State :=
  match j with
  | some (_, j) => if j.st = 2 then acqEvent g s else s
  | none => s

/-- XPOLL (R188): deterministic mode acts as .wait. -/
def xpollRes (f : Flds) (c : Cur) (s : State) : Res :=
  let j := jobByHandle s c.g (uread s c.g f.a)
  let waits := (f.m 0 || isDet s c.g) && (match j with
    | some (_, j) => j.live
    | none => false)
  if waits then waitFor c 4 s else .done (pollEvent c.g j (uwrite c f.d (jobStatus j) s))

/-- A card stops at its next tile-step boundary (R189): at once where it stands at one. -/
def stopJob (who : Option (Nat × Nat)) (j : Job) : Job :=
  if !j.live then j
  else if j.stage = 0 then { j with st := 3, killed := true, killBy := who, recs := [] }
  else { j with killBy := some (who.getD (0, 0)) }

/-- XKILL (R189). -/
def xkillRes (f : Flds) (c : Cur) (s : State) : Res :=
  match jobByHandle s c.g (uread s c.g f.a) with
  | none => .done s
  | some (k, j) =>
    let s1 := modJobs k (fun js => js.map fun x => if x = j then stopJob (some (c.g, c.w.seq)) x else x) s
    -- the end of a card is a decision point (R355)
    .done (if j.live && j.stage = 0 then decisionPoint s1 else s1)

/-! ### The instructions -/

/-- XSTRM (R172). -/
def execXstrm (w : XW) (s : State) := word (.xstrm w) (xstrmRes w.flds) s
/-- XSTRM.get (R172). -/
def execXstrmGet (w : XW) (s : State) := word (.xstrmGet w) (xstrmGetRes w.flds) s
/-- XMMA (R177). -/
def execXmma (w : XW) (s : State) := word (.xmma w) (prodRes 2 w.flds) s
/-- XMMAC (R177). -/
def execXmmac (w : XW) (s : State) := word (.xmmac w) (prodRes 3 w.flds) s
/-- XIMMA (R177). -/
def execXimma (w : XW) (s : State) := word (.ximma w) (prodRes 4 w.flds) s
/-- XZERO (R181). -/
def execXzero (w : XW) (s : State) := word (.xzero w) (xzeroRes w.flds) s
/-- XEXP (R181). -/
def execXexp (w : XW) (s : State) := word (.xexp w) (xexpRes w.flds) s
/-- XNORM (R182). -/
def execXnorm (w : XW) (s : State) := word (.xnorm w) (xnormRes w.flds) s
/-- XGRD (R183). -/
def execXgrd (w : XW) (s : State) := word (.xgrd w) (xgrdRes w.flds) s
/-- XRD (R184). -/
def execXrd (w : XW) (s : State) := word (.xrd w) (xrdRes w.flds) s
/-- XWR (R185). -/
def execXwr (w : XW) (s : State) := word (.xwr w) (xwrRes w.flds) s
/-- XFLUSH (R186). -/
def execXflush (w : XW) (s : State) := word (.xflush w) (xflushRes w.flds) s
/-- XRUN (R187). -/
def execXrun (w : XW) (s : State) := word (.xrun w) (xrunRes w.flds) s
/-- XPOLL (R188). -/
def execXpoll (w : XW) (s : State) := word (.xpoll w) (xpollRes w.flds) s
/-- XKILL (R189). -/
def execXkill (w : XW) (s : State) := word (.xkill w) (xkillRes w.flds) s

end Sys2Proof.Machine
end

