-- ==== Sys2Proof/Machine/Copy.lean ====
section
/-!
DEFINITION. Sys2Proof/Machine/Copy.lean: the C engine (R191 to R208): copy commands, rings and CQRY, with
their checks at the trap point and the range locks they register.
-/
namespace Sys2Proof.Machine

/-! ### Which bytes a copy moves (R194) -/

/-- Pairs of a copy. -/
def CopyPairs.total : CopyPairs → Nat
  | .linear _ _ len => len
  | .nd _ _ n0 n1 n2 n3 .. => n0 * n1 * n2 * n3
  | .gather _ _ rb idx => rb * idx.length
  | .scatter _ _ rb idx => rb * idx.length

/-- Pair `k` of copy_pairs: destination and source address. -/
def CopyPairs.pairAt (p : CopyPairs) (k : Nat) : Int × Int :=
  match p with
  | .linear d s _ => ((d + k : Nat), (s + k : Nat))
  | .nd d s n0 n1 n2 _ s1 s2 s3 t1 t2 t3 =>
    let b : Int := (k % n0 : Nat)
    let i1 : Int := (k / n0 % n1 : Nat)
    let i2 : Int := (k / n0 / n1 % n2 : Nat)
    let i3 : Int := (k / n0 / n1 / n2 : Nat)
    ((d : Int) + i1 * t1 + i2 * t2 + i3 * t3 + b, (s : Int) + i1 * s1 + i2 * s2 + i3 * s3 + b)
  | .gather d s rb idx => ((d + k : Nat), (s + idx.getD (k / rb) 0 * rb + k % rb : Nat))
  | .scatter d s rb idx => ((d + idx.getD (k / rb) 0 * rb + k % rb : Nat), (s + k : Nat))

/-- The lowest and one past the highest byte of a strided walk; one of no bytes has none. -/
def ndRange (base n0 : Nat) (dims : List (Nat × Int)) : Int × Int :=
  let lo := dims.foldl (fun (a : Int) d => a + min 0 (((d.1 - 1 : Nat) : Int) * d.2)) base
  let hi := dims.foldl (fun (a : Int) d => a + max 0 (((d.1 - 1 : Nat) : Int) * d.2)) base
  if n0 = 0 then (lo, lo) else (lo, hi + n0)

/-- The ranges of destination bytes, each as lowest byte and one past the highest. -/
def CopyPairs.dstRanges : CopyPairs → List (Int × Int)
  | .linear d _ len => [((d : Int), (d + len : Nat))]
  | .nd d _ n0 n1 n2 n3 _ _ _ t1 t2 t3 => [ndRange d n0 [(n1, t1), (n2, t2), (n3, t3)]]
  | .gather d _ rb idx => [((d : Int), (d + rb * idx.length : Nat))]
  | .scatter d _ rb idx => idx.map fun i => ((d + i * rb : Nat), (d + i * rb + rb : Nat))

/-- The ranges of source bytes. -/
def CopyPairs.srcRanges : CopyPairs → List (Int × Int)
  | .linear _ s len => [((s : Int), (s + len : Nat))]
  | .nd _ s n0 n1 n2 n3 s1 s2 s3 .. => [ndRange s n0 [(n1, s1), (n2, s2), (n3, s3)]]
  | .gather _ s rb idx => idx.map fun i => ((s + i * rb : Nat), (s + i * rb + rb : Nat))
  | .scatter _ s rb idx => [((s : Int), (s + rb * idx.length : Nat))]

/-- Chunks of a copy (R199). -/
def CopyPairs.chunks (p : CopyPairs) : Nat := ceilDiv p.total 4096

/-! ### Checks (R192) -/

/-- A range of local bytes lies in the program window, or on both halves of a paired team's (R144, R192). -/
def localSpan (s : State) (g : Nat) (lo hi : Int) : Bool :=
  let l := launchOf s g
  lo = hi || (decide (0 ≤ lo) && decide (hi ≤ ((if l.paired then 2 * l.window else l.window : Nat) : Int)))

/-- The parts of a local range, by half: half, offset and length. -/
def localParts (s : State) (g lo n : Nat) : List (Nat × Nat × Nat) :=
  let W := (launchOf s g).window
  let h := halfOf s g
  if n = 0 then [(h, 0, 0)]
  else if lo + n ≤ W then [(h, lo, n)]
  else if W ≤ lo then [(1 - h, lo - W, n)]
  else [(h, lo, W - lo), (1 - h, 0, lo + n - W)]

/-- A range overlaps a valid stash window (R192): local bytes of either half, or global bytes. -/
def rangeStashed (s : State) (g sp : Nat) (r : Int × Int) : Bool :=
  let n := (r.2 - r.1).toNat
  if sp = 1 then
    (localParts s g r.1.toNat n).any fun p => p.2.2 ≠ 0 && runStashed s g p.1 p.2.1 p.2.2
  else if sp = 0 then
    n ≠ 0 && (core s (coreOf s g)).locks.any fun k =>
      k.kind = 2 && k.own = (launchOf s g).ctx &&
        (wrapParts (cut 64 r.1) n).any fun p => overlaps k.lo k.hi p.1 (p.2.1 - p.1)
  else false

/-- Two ranges of one space share a byte; global addresses are taken modulo 2^64 (R194). -/
def rangesMeet (sp : Nat) (a b : Int × Int) : Bool :=
  decide (a.1 < a.2) && decide (b.1 < b.2) &&
    if sp = 0 then decide (((b.1 - a.1) % 2 ^ 64) < a.2 - a.1) || decide (((a.1 - b.1) % 2 ^ 64) < b.2 - b.1)
    else decide (a.1 < b.2) && decide (b.1 < a.2)

/-- The lock entry, or the two parts of one, that a range takes. -/
def lockOf (s : State) (g id sp kind : Nat) (r : Int × Int) : List Lock :=
  let n := (r.2 - r.1).toNat
  match sp with
  | 0 => (wrapParts (cut 64 r.1) n).map fun p => ⟨id, 0, (launchOf s g).ctx, 0, p.1, p.2.1, kind, p.2.2⟩
  | 1 =>
    (localParts s g r.1.toNat n).zipIdx.map fun x =>
      ⟨id, 1, tkOf g, x.1.1, x.1.2.1, x.1.2.1 + x.1.2.2, kind, decide (x.2 ≠ 0)⟩
  | _ =>
    [⟨id, 2, lkOf g, 0, if n = 0 then 0 else r.1.toNat, if n = 0 then 0 else r.1.toNat + n, kind, false⟩]

/-- Spaces of a copy word (R191): destination, source. -/
def copySpaces (f : Flds) (w : Bool) : Nat × Nat :=
  if w then (2, 0)
  else match f.mod % 4 with
    | 0 => (0, 0)
    | 1 => (1, 0)
    | 2 => (0, 1)
    | _ => (1, 1)

/-- What a copy word asks for, once its operands are read: its bytes, the ranges its locks take, extra local
ranges it names, a misaligned address and a broken limit (R192, R195). -/
structure CopyReq where
  pairs : CopyPairs
  srcLocks : List (Nat × Int × Int)
  dstLocks : List (Nat × Int × Int)
  named : List (Int × Int) := []
  misal : Option Nat := none
  bad : Bool := false
  time : Option Nat := none
  /-- where its index list lies -/
  idxAt : Option Nat := none

/-- Bytes of local memory as a group names them, across both halves of a paired team. -/
def localNumAt (s : State) (g : Nat) (a n : Nat) : Nat :=
  ofBytes ((List.range n).map fun i =>
    match localAt s g (a + i : Nat) with
    | some (h, o) => memGet ((team s (tkOf g)).mem h) o
    | none => 0)

/-- CPY, CPYT and CPYW. -/
def reqLinear (s : State) (g : Nat) (f : Flds) (w timed : Bool) : CopyReq :=
  let d := uread s g f.a
  let x := uread s g f.b
  let len := uread s g f.c
  let sp := copySpaces f w
  let dr : Int × Int := ((d : Int), ((d + len : Nat) : Int))
  let sr : Int × Int := ((x : Int), ((x + len : Nat) : Int))
  { pairs := .linear d x len
    srcLocks := [(sp.2, sr)]
    dstLocks := [(sp.1, dr)]
    misal := if w then (if d % 64 ≠ 0 then some d else if x % 64 ≠ 0 then some x else none) else none
    bad := if w then len % 64 ≠ 0 else (2 ^ 24 < len || (sp.1 = sp.2 && rangesMeet sp.1 dr sr))
    time := if timed then some (uread s g (f.c + 1)) else none }

/-- CPYND (R193). -/
def reqNd (s : State) (g : Nat) (f : Flds) : CopyReq :=
  let d := uread s g f.a
  let x := uread s g f.b
  let at0 := uread s g f.c
  let D := localNumAt s g at0 64
  let sp := copySpaces f false
  let p : CopyPairs := .nd d x (nbits D 31 0) (nbits D 47 32 + 1) (nbits D 63 48 + 1) (nbits D 79 64 + 1)
    (sx 64 (nbits D 191 128)) (sx 64 (nbits D 255 192)) (sx 64 (nbits D 319 256))
    (sx 64 (nbits D 383 320)) (sx 64 (nbits D 447 384)) (sx 64 (nbits D 511 448))
  let dr := p.dstRanges.headD (0, 0)
  let sr := p.srcRanges.headD (0, 0)
  { pairs := p
    srcLocks := [(sp.2, sr)]
    dstLocks := [(sp.1, dr)]
    named := [((at0 : Int), ((at0 + 64 : Nat) : Int))]
    misal := if at0 % 64 ≠ 0 then some at0 else none
    bad := nbits D 31 0 = 0 || nbits D 127 80 ≠ 0 || 2 ^ 24 < p.total || 2 ^ 24 < nbits D 31 0 ||
      (sp.1 = sp.2 && rangesMeet sp.1 dr sr) }

/-- The index list of CPYG and CPYS: `cnt` words from a local offset (R194). -/
def indexList (s : State) (g at0 cnt : Nat) : List Nat := (List.range cnt).map fun i => localNumAt s g (at0 + 4 * i) 4

/-- CPYG and CPYS. -/
def reqIndexed (s : State) (g : Nat) (f : Flds) (scatter : Bool) : CopyReq :=
  let d := uread s g f.a
  let x := uread s g f.b
  let rb := uread s g f.c % 2 ^ 32
  let cnt := uread s g f.c / 2 ^ 32
  let at0 := uread s g (f.c + 1)
  let sp := copySpaces f false
  let ir : Int × Int := ((at0 : Int), ((at0 + 4 * cnt : Nat) : Int))
  -- a list that is not inside the window traps before it is read
  let idx := if localSpan s g ir.1 ir.2 then indexList s g at0 cnt else []
  let q : CopyReq :=
    { pairs := if scatter then .scatter d x rb idx else .gather d x rb idx
      srcLocks := [(1, ir)]
      dstLocks := []
      named := [ir]
      misal := if at0 % 4 ≠ 0 then some at0 else none
      bad := rb = 0 || 65536 < rb || cnt = 0 || 65536 < cnt || 2 ^ 24 < rb * cnt
      idxAt := some at0 }
  if scatter then { q with srcLocks := [(1, ir), (sp.2, ((x : Int), ((x + rb * cnt : Nat) : Int)))] }
  else { q with dstLocks := [(sp.1, ((d : Int), ((d + rb * cnt : Nat) : Int)))] }

/-- The commands of contexts that were saved from a core (R40, R195). -/
def parkedCmds (s : State) (k : Nat) : List Cmd :=
  (s.savedParts.filter fun x => x.1 % 64 = k).flatMap fun x => x.2.cmds

/-- The commands that take a place of a core's copy engine, parked ones included (R195). Ring pulls take none and are not
counted by CQRY (DESIGN CHOICE, log 148: R195 names copies and ring posts and does not say what pulls take). -/
def engineCmds (s : State) (k : Nat) : List Cmd :=
  ((core s k).cmds ++ parkedCmds s k).filter fun x => !x.pull && !x.filled

/-- Free entries of a core's range-lock table (R195). -/
def freeLocks (s : State) (k : Nat) : Nat := 32 - lockCount (core s k).locks
/-- Valid stash windows in the table. -/
def stashLocks (s : State) (k : Nat) : Nat := lockCount ((core s k).locks.filter fun x => x.kind = 2)

/-- A completion object's checks (R192): misaligned, or outside the window. -/
def compBad (s : State) (g : Nat) (f : Flds) : Option Nat × Bool :=
  let o := uread s g f.d
  match f.mod / 4 with
  | 0 => (none, false)
  | 1 => (if o % 16 ≠ 0 then some o else none, (localRun s g o 16).isNone)
  | _ => (if o % 16 ≠ 0 then some o else none, false)

/-- A command's locks as it is accepted (R195); in deterministic mode those on global ranges are left out (R197). -/
def acceptLocks (s : State) (g id : Nat) (src dst : List (Nat × Int × Int)) : List Lock :=
  (src.flatMap (fun r => lockOf s g id r.1 0 r.2) ++ dst.flatMap (fun r => lockOf s g id r.1 1 r.2)).filter fun k =>
    k.space ≠ 0 || !isDet s g

/-- Accept a command: its locks are registered and it takes a place of the engine (R195). -/
def acceptCmd (c : Cur) (q : CopyReq) (sp : Nat × Nat) (f : Flds) (s : State) : State :=
  let k := coreOf s c.g
  let id := s.nextId
  let cmd : Cmd :=
    { id := id, lk := lkOf c.g, core := k, g := c.g, seq := c.w.seq, pairs := q.pairs, dsp := sp.1,
      ssp := sp.2, comp := f.mod / 4, compAddr := if f.mod / 4 = 0 then 0 else uread s c.g f.d,
      time := q.time, todo := List.range q.pairs.chunks, idxAt := q.idxAt, nt := f.imm.testBit 0,
      after := (grp s c.g).seen }
  modCore { s with nextId := id + 1 } k fun C =>
    { C with locks := C.locks ++ acceptLocks s c.g id q.srcLocks q.dstLocks, cmds := C.cmds ++ [cmd] }

/-- A copy word: its checks in the order of R192, then its acceptance (R195, R198). -/
def copyRes (q : CopyReq) (w : Bool) (f : Flds) (c : Cur) (s : State) : Res :=
  let sp := copySpaces f w
  let k := coreOf s c.g
  let comp := compBad s c.g f
  let ranges := (q.pairs.dstRanges.map fun r => (sp.1, r)) ++ (q.pairs.srcRanges.map fun r => (sp.2, r)) ++
    (q.named.map fun r => (1, r))
  match q.misal with
  | some a => trapAs c clsMisalign 0 a s
  | none => match comp.1 with
  | some a => trapAs c clsMisalign 0 a s
  | none => match (q.named.map fun r => (1, r)).find? fun r => !localSpan s c.g r.2.1 r.2.2 with
  | some r => trapAs c clsPage 0 (cut 64 r.2.1) s
  | none =>
    if (ranges.any fun r => r.1 = 1 && !localSpan s c.g r.2.1 r.2.2) then
      trapAs c clsPage 0 (match ranges.find? fun r => r.1 = 1 && !localSpan s c.g r.2.1 r.2.2 with
        | some r => cut 64 r.2.1
        | none => 0) s
    else if comp.2 then trapAs c clsPage 0 (uread s c.g f.d) s
    else if w && (jobsOf s (lkOf c.g) k).any fun j =>
        j.locksWeights (winG s c.g) (uread s c.g f.a) (uread s c.g f.c) then trapAs c clsRange 0 0 s
    else if ranges.any fun r => rangeStashed s c.g r.1 r.2 then trapAs c clsRange 1 0 s
    else if w && (winG s c.g).wbN < uread s c.g f.a + uread s c.g f.c then trapAs c clsRange 3 0 s
    else if q.bad || 30 < stashLocks s k then trapAs c clsRange 5 0 s
    else if 64 ≤ (engineCmds s k).length || freeLocks s k < 2 then waitFor c 4 s
    else if q.time.isSome && 32 ≤ ((core s k).cmds.filter fun x => x.time.isSome && !x.wrote).length then
      waitFor c 6 s
    else .done (acceptCmd c q sp f s)

/-! ### Rings (R202 to R207) -/

/-- A ring header (R202). -/
structure Ring where
  head : Nat
  tail : Nat
  filled : Nat
  lslots : Nat
  lslotb : Nat
  pull : Bool
  valid : Bool
  src : Nat
deriving DecidableEq, Repr

def ringOf (x : Nat) : Ring :=
  ⟨nbits x 31 0, nbits x 63 32, nbits x 95 64, nbits x 99 96, nbits x 103 100, x.testBit 104, x.testBit 105,
    nbits x 191 128⟩
def ringNum (r : Ring) : Nat :=
  r.head + r.tail * 2 ^ 32 + r.filled * 2 ^ 64 + r.lslots * 2 ^ 96 + r.lslotb * 2 ^ 100 +
    b2n r.pull * 2 ^ 104 + b2n r.valid * 2 ^ 105 + r.src * 2 ^ 128
def Ring.slots (r : Ring) : Nat := 2 ^ r.lslots
def Ring.slotb (r : Ring) : Nat := 64 * 2 ^ r.lslotb
/-- Differences of counts, modulo 2^32 (R202). -/
def diff32 (a b : Nat) : Nat := (a + 2 ^ 32 - b % 2 ^ 32) % 2 ^ 32
/-- Slots filled and not released. -/
def Ring.ready (r : Ring) : Nat := diff32 r.filled r.head
/-- The local offset of slot `i` of the ring at `h`. -/
def Ring.slotAt (r : Ring) (h i : Nat) : Nat := h + 64 + i % r.slots * r.slotb

/-- The ring at a local offset. -/
def ringAt (s : State) (g h : Nat) : Ring := ringOf (localNumAt s g h 64)

/-- A byte of a team's local memory: its half and its offset there. -/
structure Half where
  half : Nat
  off : Nat
deriving DecidableEq, Repr

/-- Header checks of a ring word (R203): MISALIGN, PAGE, then an invalid header. -/
def ringChecks (c : Cur) (h : Nat) (s : State) (k : Half → Ring → Res) : Res :=
  if h % 64 ≠ 0 then trapAs c clsMisalign 0 h s
  else match localRun s c.g h 64 with
  | none => trapAs c clsPage 0 h s
  | some (half, o) =>
    let r := ringAt s c.g h
    if !r.valid then trapAs c clsRange 6 0 s else k ⟨half, o⟩ r

/-- Add to a 32-bit count of a header, as one indivisible local operation (R206). -/
def ringAdd (c : Cur) (x : Half) (off n : Nat) (s : State) : State :=
  jw c (.loc (tkOf c.g) x.half (x.off / 16)) (.addAt off n) s

/-- RINIT (R204). A SRC that is not a multiple of 64 traps MISALIGN (DESIGN CHOICE, log 147: the spec asks for the
multiple and names no outcome). -/
def rinitRes (f : Flds) (c : Cur) (s : State) : Res :=
  let h := uread s c.g f.a
  let cfg := uread s c.g f.b
  let src := if cfg.testBit 8 then uread s c.g f.c else 0
  let k := coreOf s c.g
  let r : Ring := ⟨0, 0, 0, cfg % 16, nbits cfg 7 4, cfg.testBit 8, true, src⟩
  if h % 64 ≠ 0 then trapAs c clsMisalign 0 h s
  else if src % 64 ≠ 0 then trapAs c clsMisalign 0 src s
  else
    let bad := 512 ≤ cfg || r.lslots = 0 || 12 < r.lslots || 10 < r.lslotb
    let len := if bad then 64 else 64 + r.slots * r.slotb
    match localRun s c.g h len with
    | none => trapAs c clsPage 0 h s
    | some (half, o) =>
      let isOld (w : Watch) : Bool := tkOf w.g = tkOf c.g && w.hdr = o && w.half = half && w.dead.isNone
      -- the cores of the team
      let ks := if (launchOf s c.g).paired then [k / 2 * 2, k / 2 * 2 + 1] else [k]
      if bad then trapAs c clsRange 5 0 s
      else if r.pull && 8 ≤ ((core s k).watches.filter fun w => w.dead.isNone && !isOld w).length then
        trapAs c clsRange 6 0 s
      else
        -- records in flight to the old ring are discarded, with their locks, on every core of the team
        let drop (s : State) (m : Nat) : State :=
          let gone := ((core s m).cmds.filter fun x =>
            tkOf x.g = tkOf c.g && x.ring.map (·.1) = some o && x.half = half).map (·.id)
          let mark (w : Watch) : Watch := if isOld w then { w with dead := some (c.g, c.w.seq) } else w
          modCore s m fun C =>
            { C with
              cmds := C.cmds.filter fun x => !gone.contains x.id
              locks := C.locks.filter fun x => x.kind = 2 || !gone.contains x.id
              watches := C.watches.map mark }
        let s1 := modCore (ks.foldl drop s) k fun C =>
          { C with watches := C.watches ++ (if r.pull then [⟨c.g, c.w.seq, half, o, src, none⟩] else []) }
        .done (locPut c.g c.w.seq half o (toBytes 64 (ringNum r)) s1)

/-- RWAIT (R206): an acquire event (R257). -/
def rwaitRes (f : Flds) (c : Cur) (s : State) : Res :=
  let h := uread s c.g f.a
  ringChecks c h s fun _ r =>
    if r.slots ≤ f.imm then trapAs c clsRange 6 0 s
    else if r.ready ≤ f.imm then waitFor c 4 s
    else .done (acqEvent c.g (uwrite c f.d (r.slotAt h (r.head + f.imm)) s))

/-- Hold the 4 bytes of a global store of a ring word, or record its fault (R164, R206, R207). -/
def ringStore (c : Cur) (va x rel : Nat) (after : State → State) (s : State) : Res :=
  match (if wasPois c 0 || c.w.fail ≠ 0 then none else some (xlateLanes c.g .write false [(0, va)] s)) with
  | none =>
    settleLanes c true c.w [] [] (fun _ => va)
      (fun s => .done (after (if isCont s c.g then countPois c.g 1 s else s))) s
  | some (hits, bad, s1) =>
    match hits with
    | [] => settleLanes c true c.w bad [] (fun _ => va) (fun s => .done s) s1
    | h :: _ =>
      match holdRoom c (newSectors s1 c.g c.w.seq [h.pa / 64]) s1 with
      | some r => r
      | none =>
        .done (after (hold c.g c.w.seq (.data (va - va % 64) (h.pa - h.pa % 64)
          (sectorBytes [(h.pa, toBytes 4 x)]) rel h.dev) s1 h.low))

/-- Earlier words of the M and X queues have all completed (R206). -/
def mxBusy (s : State) (c : Cur) : Bool :=
  let G := grp s c.g
  ((queued G).any fun e => decide (e.seq < c.w.seq) && (engOf e.instr = 2 || engOf e.instr = 3)) ||
    G.flights.any fun e => decide (e.seq < c.w.seq) && (e.eng = 2 || e.eng = 3)

/-- RREL (R206). -/
def rrelRes (f : Flds) (c : Cur) (s : State) : Res :=
  let h := uread s c.g f.a
  if mxBusy s c then waitFor c 0 s
  else ringChecks c h s fun x r =>
    let credit := (r.src + 8) % 2 ^ 64
    if r.pull && (globalLock s c.g credit 4 false).isSome then
      trapAs c clsRange ((globalLock s c.g credit 4 false).getD 0) credit s
    else if r.ready < f.imm then trapAs c clsRange 6 0 s
    else
      let done (s : State) : State := ringAdd c x 0 f.imm s
      if r.pull then ringStore c credit ((r.head + f.imm) % 2 ^ 32) 0 done s
      else .done (done s)

/-- RPOST (R205). It needs one entry of the lock table (DESIGN CHOICE, log 106: R195 gives numbers for copies only). An
invalid header has no slot length, so it reports cause 6 whatever the length of the record (DESIGN CHOICE, log 147). -/
def rpostRes (f : Flds) (c : Cur) (s : State) : Res :=
  let h := uread s c.g f.a
  let x := uread s c.g f.b
  let len := uread s c.g f.c
  let ssp := if f.m 0 then 1 else 0
  let sr : Int × Int := ((x : Int), ((x + len : Nat) : Int))
  let k := coreOf s c.g
  let lenBad (r : Ring) : Bool := len = 0 || r.slotb < len
  if h % 64 ≠ 0 then trapAs c clsMisalign 0 h s
  else match localRun s c.g h 64 with
  | none => trapAs c clsPage 0 h s
  | some (half, o) =>
    let r := ringAt s c.g h
    if ssp = 1 && !localSpan s c.g sr.1 sr.2 then trapAs c clsPage 0 x s
    else if rangeStashed s c.g ssp sr then trapAs c clsRange 1 0 s
    else if r.valid && (lenBad r || 31 < stashLocks s k) then trapAs c clsRange 5 0 s
    else if !r.valid || r.pull then trapAs c clsRange 6 0 s
    else if (!isDet s c.g && r.slots ≤ diff32 r.tail r.head) || 64 ≤ (engineCmds s k).length ||
        freeLocks s k < 1 then waitFor c 4 s
    else
      let id := s.nextId
      let p : CopyPairs := .linear (r.slotAt h r.tail) x len
      let cmd : Cmd :=
        { id := id, lk := lkOf c.g, core := k, g := c.g, seq := c.w.seq, pairs := p, dsp := 1, ssp := ssp,
          half := half, ring := some (o, r.tail), hdrAt := h, todo := List.range p.chunks, after := (grp s c.g).seen }
      let s1 := modCore { s with nextId := id + 1 } k fun C =>
        { C with locks := C.locks ++ acceptLocks s c.g id [(ssp, sr)] [], cmds := C.cmds ++ [cmd] }
      -- in deterministic mode the slot is reserved at the epoch commit
      .done (if isDet s c.g then s1 else ringAdd c ⟨half, o⟩ 4 1 s1)

/-- An earlier M-queue word of the group has still to perform, or to enter the hold-back buffer. -/
def memBusy (s : State) (c : Cur) : Bool :=
  let G := grp s c.g
  ((queued G).any fun e => decide (e.seq < c.w.seq) && engOf e.instr = 2) ||
    G.flights.any fun e => decide (e.seq < c.w.seq) && e.eng = 2 && !e.ok

/-- RTAIL (R207): its release at scope .sys follows the group's earlier stores, atomics and copies. An address that is
not a multiple of 64 traps MISALIGN (DESIGN CHOICE, log 147: the spec names no check beside the alignment of the 4-byte
store). -/
def rtailRes (f : Flds) (c : Cur) (s : State) : Res :=
  let a := uread s c.g f.a
  if a % 64 ≠ 0 then trapAs c clsMisalign 0 a s
  else if memBusy s c then waitFor c 0 s
  else match globalLock s c.g a 4 false with
  | some cause => trapAs c clsRange cause a s
  | none => ringStore c a (uread s c.g f.b % 2 ^ 32) 2 (relEvent c.g) s

/-- CQRY (R208). -/
def cqryRes (f : Flds) (c : Cur) (s : State) : Res :=
  let k := coreOf s c.g
  match f.mod % 4 with
  | 0 => .done (uwrite c f.d ((engineCmds s k).filter fun x => x.lk = lkOf c.g).length s)
  | 1 => .done (uwrite c f.d (freeLocks s k) s)
  | 2 => .done (uwrite c f.d (64 - (engineCmds s k).length) s)
  | _ => ringChecks c (uread s c.g f.a) s fun _ r => .done (uwrite c f.d r.ready s)

/-! ### The instructions -/

/-- CPY (R191 to R195). -/
def execCpy (w : XW) (s : State) := word (.cpy w) (fun c s => copyRes (reqLinear s c.g w.flds false false) false w.flds c s) s
/-- CPYT (R198). -/
def execCpyt (w : XW) (s : State) := word (.cpyt w) (fun c s => copyRes (reqLinear s c.g w.flds false true) false w.flds c s) s
/-- CPYND (R193, R194). -/
def execCpynd (w : XW) (s : State) := word (.cpynd w) (fun c s => copyRes (reqNd s c.g w.flds) false w.flds c s) s
/-- CPYG (R194). -/
def execCpyg (w : XW) (s : State) := word (.cpyg w) (fun c s => copyRes (reqIndexed s c.g w.flds false) false w.flds c s) s
/-- CPYS (R194). -/
def execCpys (w : XW) (s : State) := word (.cpys w) (fun c s => copyRes (reqIndexed s c.g w.flds true) false w.flds c s) s
/-- CPYW (R191, R192). -/
def execCpyw (w : XW) (s : State) := word (.cpyw w) (fun c s => copyRes (reqLinear s c.g w.flds true false) true w.flds c s) s
/-- RINIT (R204). -/
def execRinit (w : XW) (s : State) := word (.rinit w) (rinitRes w.flds) s
/-- RWAIT (R206). -/
def execRwait (w : XW) (s : State) := word (.rwait w) (rwaitRes w.flds) s
/-- RREL (R206). -/
def execRrel (w : XW) (s : State) := word (.rrel w) (rrelRes w.flds) s
/-- RPOST (R205). -/
def execRpost (w : XW) (s : State) := word (.rpost w) (rpostRes w.flds) s
/-- RTAIL (R207). -/
def execRtail (w : XW) (s : State) := word (.rtail w) (rtailRes w.flds) s
/-- CQRY (R208). -/
def execCqry (w : XW) (s : State) := word (.cqry w) (cqryRes w.flds) s

end Sys2Proof.Machine
end

