-- ==== Sys2Proof/Machine/Ports.lean ====
section
/-!
DEFINITION. Sys2Proof/Machine/Ports.lean: the N engine (R223 to R239): neighbour ports and the weave map,
link channels, and the words that send sum-tree commands.
-/
namespace Sys2Proof.Machine

/-! ### The weave map (R224, R225) -/

/-- A binding (R225). -/
structure Bind where
  kind : Nat
  dg : Int
  dt : Int
  dev : Nat
deriving DecidableEq, Repr

/-- The binding of a port: 0 E, 1 W, 2 N, 3 S, 4 X. -/
def bindOf (l : Launch) (port : Nat) : Bind :=
  let x := nbits l.weave.toNat (64 * port + 63) (64 * port)
  ⟨nbits x 2 0, sx 8 (nbits x 11 4), sx 24 (nbits x 35 12), nbits x 37 36⟩

/-- A peer: device, group key. -/
structure Peer where
  dev : Nat
  g : Nat
deriving DecidableEq, Repr

/-- The peer at team and group offsets, where it lies in the launch (R225). -/
def peerAt (l : Launch) (g : Nat) (dev : Nat) (dt dg : Int) : Option Peer :=
  let t := (gTeam g : Int) + dt
  let i := (gIdx g : Int) + dg
  if 0 ≤ t ∧ t < l.nteams ∧ 0 ≤ i ∧ i < l.ngroups then
    some ⟨dev, gKey (gCard g) t.toNat i.toNat (gCopy g)⟩
  else none

/-- The peer of a group through a port, none where the port is unbound (R225). -/
def peerOf (s : State) (g port : Nat) : Option Peer :=
  let l := launchOf s g
  let b := bindOf l port
  let me := deviceNo s
  let n : Int := l.ngroups
  let step : Int := if port = 0 then 1 else -1
  match b.kind with
  | 1 => some ⟨me, g⟩
  | 2 => peerAt l g me 0 step
  | 3 => peerAt l g me 0 (((gIdx g : Int) + step) % n - gIdx g)
  | 4 => peerAt l g me 0 b.dg
  | 5 => peerAt l g me b.dt b.dg
  | 6 => peerAt l g b.dev b.dt b.dg
  | _ => none

/-- The port of a peer's channel that a push feeds: E feeds W, W feeds E, N feeds S, S feeds N, X feeds X. -/
def faces (port : Nat) : Nat :=
  match port with
  | 0 => 1
  | 1 => 0
  | 2 => 3
  | 3 => 2
  | _ => 4

/-- The group on this device whose push through the facing port reaches a channel of `g` (R227). -/
def feeder (s : State) (g port : Nat) : Option Nat :=
  let l := launchOf s g
  let p := faces port
  let b := bindOf l p
  let step : Int := if p = 0 then 1 else -1
  let cand : Option Peer := match b.kind with
    | 1 => some ⟨0, g⟩
    | 2 => peerAt l g 0 0 (-step)
    | 3 => peerAt l g 0 0 (((gIdx g : Int) - step) % l.ngroups - gIdx g)
    | 4 => peerAt l g 0 0 (-b.dg)
    | 5 => peerAt l g 0 (-b.dt) (-b.dg)
    | 6 => peerAt l g 0 (-b.dt) (-b.dg)
    | _ => none
  match cand with
  | some q => if peerOf s q.g p = some ⟨deviceNo s, g⟩ then some q.g else none
  | none => none

/-- The source name of a device beyond this one. -/
def remoteSrc : Nat := 2 ^ 60

/-- The group of another device whose pushes reach a channel: the channel's own binding or the facing one names it
(R225). -/
def farSource (s : State) (g port : Nat) : Option Peer :=
  let l := launchOf s g
  let far (b : Bind) : Bool := b.kind = 6 && b.dev ≠ deviceNo s
  let own := bindOf l port
  let face := bindOf l (faces port)
  match (if far own then peerAt l g own.dev own.dt own.dg else none) with
  | some q => some q
  | none => if far face then peerAt l g face.dev (-face.dt) (-face.dg) else none

/-- The sources of a channel (R227): a lane channel takes the group's own pushes too. -/
def sourcesOf (s : State) (g port : Nat) : List Nat :=
  let own := if port < 2 then [g] else []
  let far := match feeder s g port with
    | some h => [h]
    | none => if (farSource s g port).isSome then [remoteSrc] else []
  (own ++ far).dedup

/-! ### Channels (R227 to R229) -/

def chanKey (g port : Nat) : Nat := g * 8 + port
def chanAt (s : State) (g port : Nat) : Chan := nget {} s.ports (chanKey g port)
def setChan (g port : Nat) (c : Chan) (s : State) : State :=
  { s with ports := nset {} s.ports (chanKey g port) c }

/-- The source of a part, every remote one alike. -/
def PortPart.origin (p : PortPart) : Nat := if remoteSrc ≤ p.src then remoteSrc else p.src

/-- A source's parts of a channel, in push order. -/
def Chan.of (c : Chan) (src : Nat) : List PortPart := c.parts.filter fun p => p.origin = src

/-- Every source has supplied its j-th part (R227). -/
def entryReady (s : State) (g port j : Nat) : Bool :=
  let c := chanAt s g port
  let srcs := sourcesOf s g port
  !srcs.isEmpty && srcs.all fun x => match (c.of x)[j]? with
    | some p => p.delivered
    | none => false

/-- The values and mask of entry j. -/
def entryAt (s : State) (g port j : Nat) : NMap Word32 × Nat :=
  let c := chanAt s g port
  (sourcesOf s g port).foldl (fun a x => match (c.of x)[j]? with
    | some p => (p.vals.foldl (fun m y => nput m y.1 y.2) a.1, a.2 ||| p.mask.toNat)
    | none => a) ([], 0)

/-- The oldest part of each source is freed. -/
def freeOldest (srcs : List Nat) (c : Chan) : Chan :=
  srcs.foldl (fun c x => match c.parts.find? fun p => p.origin = x with
    | some p => { c with parts := c.parts.erase p, freed := c.freed ++ [(p.src, p.seq)] }
    | none => c) c

/-- Free a channel's consumed entries whose POP is sealed (R229); in deterministic mode they are kept until
their epoch commits, for a return to the last committed epoch, and only count as freed. -/
def freeTaken (s : State) (g port : Nat) : Nat → Chan → Chan
  | 0, c => c
  | n + 1, c =>
    match c.taken with
    | [] => c
    | t :: ts =>
      if released s g t then
        freeTaken s g port n (freeOldest (sourcesOf s g port) { c with taken := ts })
      else c

/-- The channels of a group whose POPs are sealed free their entries (R229), and of the entries freed before, those that
the group has pushed in quanta now sealed can no longer be pushed again. -/
def freePorts (g : Nat) (s : State) : State :=
  let s1 := (List.range 5).foldl (fun s p =>
    let c := chanAt s g p
    if c.taken.isEmpty then s else setChan g p (freeTaken s g p c.taken.length c) s) s
  let sure (x : Nat × Nat) : Bool := decide (remoteSrc ≤ x.1) || released s1 x.1 x.2
  { s1 with ports := s1.ports.map fun x => (x.1, { x.2 with freed := x.2.freed.filter fun y => !sure y }) }

/-- What one push adds: receiving peer, its port, and lane values with mask bits. -/
structure Feed where
  peer : Peer
  port : Nat
  vals : NMap Word32
  mask : Nat
deriving DecidableEq, Repr

/-- Merge what one push adds twice to one channel. -/
def mergeFeeds : List Feed → List Feed
  | [] => []
  | f :: fs =>
    let rest := mergeFeeds fs
    match rest.find? fun x => x.peer = f.peer && x.port = f.port with
    | some x => { f with vals := x.vals.foldl (fun m y => nput m y.1 y.2) f.vals, mask := f.mask ||| x.mask } ::
        rest.erase x
    | none => f :: rest

/-- What a PSH adds (R227). -/
def feedsOf (s : State) (g port : Nat) (val : Nat → Nat) (mask : Nat) : List Feed :=
  let w := widthOf s g
  let me : Peer := ⟨deviceNo s, g⟩
  let peer := peerOf s g port
  let mk (q : Peer) (ls : List (Nat × Nat)) : Feed :=
    -- pairs of source lane and destination lane
    ⟨q, faces port, ls.foldl (fun m x => nput m x.2 (BitVec.ofNat 32 (val x.1))) [],
      maskOfLanes ((ls.filter fun x => mask.testBit x.1).map (·.2))⟩
  match port with
  | 0 => mergeFeeds (mk me ((List.range (w - 1)).map fun l => (l, l + 1)) ::
      (match peer with
        | some p => [mk p [(w - 1, 0)]]
        | none => []))
  | 1 => mergeFeeds (mk me ((List.range (w - 1)).map fun l => (l + 1, l)) ::
      (match peer with
        | some p => [mk p [(0, w - 1)]]
        | none => []))
  | _ => match peer with
    | some p => [mk p ((List.range w).map fun l => (l, l))]
    | none => []

/-- Unfreed parts of a group in the channel that a feed reaches. -/
def unfreed (s : State) (g : Nat) (f : Feed) : Nat :=
  if f.peer.dev = deviceNo s then
    let c := chanAt s f.peer.g f.port
    (c.of g).length - (c.taken.filter fun t => t < sealedBelow (grp s f.peer.g)).length
  else (s.outParts.filter fun o => o.part.src = g && o.dev = f.peer.dev && o.dst = f.peer.g && o.port = f.port).length

/-- A group has retired for good or for now: it stands retired, or its wave is past (R36). -/
def hasRetired (s : State) (g : Nat) : Bool :=
  match nfind s.groups g with
  | some G => G.retired
  | none =>
    let l := launchOf s g
    if l.det then decide (gTeam g < l.wave * l.waveSize) else decide (gTeam g < l.placed)

/-- A group of any device has retired, as far as this device knows. -/
def peerRetired (s : State) (p : Peer) : Bool :=
  if p.dev = deviceNo s then hasRetired s p.g else s.farRetired.contains (p.dev, p.g)

/-- The push can never go on: a full channel's receiver has retired, with no consumed entry left to free
(R228). -/
def pushDead (s : State) (f : Feed) : Bool :=
  peerRetired s f.peer && (f.peer.dev ≠ deviceNo s || (chanAt s f.peer.g f.port).taken.isEmpty)

/-- A device cannot be reached over any route (R230). -/
def unreachable (s : State) (dev : Nat) : Bool := dev ≠ deviceNo s && (!devPresent s dev || (hwRoute s dev).isNone)

/-- Add a part (R227, R229): it is delivered at once within the pair region. A part that a rolled-back run of the
word has sent to another device already is not sent again, nor is one whose entry a sealed POP has freed. -/
def addPart (c : Cur) (s : State) (f : Feed) : State :=
  let near := f.peer.dev = deviceNo s && (f.peer.g = c.g ||
    ((nfind s.groups f.peer.g).isSome && pairOf s f.peer.g = pairOf s c.g))
  let p : PortPart := ⟨c.g, c.w.seq, f.vals, BitVec.ofNat 64 f.mask, near, (grp s c.g).seen⟩
  if f.peer.dev = deviceNo s then
    let ch := chanAt s f.peer.g f.port
    let n := nget 0 ch.again c.g
    setChan f.peer.g f.port
      (if 0 < n then { ch with again := nset 0 ch.again c.g (n - 1), freed := ch.freed ++ [(c.g, c.w.seq)] }
        else { ch with parts := ch.parts ++ [p] }) s
  else if (grp s c.g).gone.contains c.w.seq then s
  else { s with outParts := s.outParts ++ [⟨p, f.peer.dev, f.peer.g, f.port, false⟩] }

/-- PSH (R228): a release event (R257). A peer that cannot be reached traps before the push waits (R230). -/
def pshRes (f : Flds) (c : Cur) (s : State) : Res :=
  let fs := feedsOf s c.g f.b (fun l => vread s c.g f.a l) (activeLanes s c f)
  let full := fs.filter fun x => 8 ≤ unfreed s c.g x
  if 2 ≤ f.b && (peerOf s c.g f.b).isNone then trapAs c clsPort 0 0 s
  else if fs.any fun x => unreachable s x.peer.dev then trapAs c clsPort 3 0 s
  else if full.any (pushDead s) then trapAs c clsPort 2 0 s
  else if !full.isEmpty then waitFor c 3 s
  else .done (relEvent c.g (fs.foldl (addPart c) s))

/-- A source of a channel will push no more: it has retired, and entry `j` has not come from it. -/
def sourceDead (s : State) (g port j x : Nat) : Bool :=
  let gone := if x < remoteSrc then hasRetired s x
    else match farSource s g port with
      | some q => peerRetired s q
      | none => true
  gone && decide (((chanAt s g port).of x).length ≤ j)

/-- POP (R228): an acquire event (R257). -/
def popRes (f : Flds) (c : Cur) (s : State) : Res :=
  let srcs := sourcesOf s c.g f.b
  let ch := chanAt s c.g f.b
  let j := ch.taken.length
  if srcs.isEmpty then trapAs c clsPort 0 0 s
  else if entryReady s c.g f.b j then
    let e := entryAt s c.g f.b j
    let s1 := setChan c.g f.b { ch with taken := ch.taken ++ [c.w.seq] } s
    let ls := laneList s c f
    let s2 := vwriteLanes c f.d ((ls.filter fun l => e.2.testBit l).map fun l => (l, (nget 0 e.1 l).toNat)) s1
    .done (acqEvent c.g (if f.m 0 then
      pput c f.c (ls.map fun l => (l, e.2.testBit l)) s2 else s2))
  else if srcs.contains remoteSrc && (match farSource s c.g f.b with
      | some q => unreachable s q.dev
      | none => false) then trapAs c clsPort 3 0 s
  else if srcs.all (sourceDead s c.g f.b j) then trapAs c clsPort 2 0 s
  else waitFor c 3 s

/-- Ready, unconsumed entries of a channel. -/
def readyCount (s : State) (g port : Nat) : Nat :=
  let n := (chanAt s g port).taken.length
  ((List.range 16).filter fun j => decide (n ≤ j) && entryReady s g port j).length

/-- PSTAT (R228). -/
def pstatRes (f : Flds) (c : Cur) (s : State) : Res :=
  let fs := feedsOf s c.g f.b (fun _ => 0) 0
  let room := fs.foldl (fun a x => min a (8 - unfreed s c.g x)) 8
  let bound : Bool := decide (f.b < 2) || (peerOf s c.g f.b).isSome
  .done (uwrite c f.d (readyCount s c.g f.b % 16 + room * 16 + b2n bound * 256) s)

/-! ### Link channels (R231 to R233) -/

/-- A peer word (R231). -/
structure LinkPeer where
  dev : Nat
  g : Nat
  chan : Nat
  bad : Bool
deriving DecidableEq, Repr

def linkPeer (s : State) (g x : Nat) : LinkPeer :=
  let l := launchOf s g
  ⟨nbits x 31 30, gKey (gCard g) (nbits x 29 6) (nbits x 5 0) (gCopy g), nbits x 35 32,
    nbits x 63 36 ≠ 0 || decide (l.ngroups ≤ nbits x 5 0) || decide (l.nteams ≤ nbits x 29 6)⟩

/-- Every device's route in hardware mode. -/
def hwRoutes (s : State) : NMap Nat :=
  (List.range 4).foldl (fun m d => match hwRoute s d with
    | some n => nput m d n
    | none => m) []

/-- The launch's link reduction runs in hardware mode (R6). -/
def linkHw (s : State) (card : Nat) : Bool := dutyHw s (cardFld s card 29 28) 4

/-- The peer device is this one, or is present and its fixed route is up (R230, R376). -/
def routeOk (s : State) (g d : Nat) : Bool :=
  d = deviceNo s || (devPresent s d && match nfind (launchOf s g).routes d with
    | some n => linkUp s n
    | none => false)

/-- The local range of a link word meets a copy's lock or a stash window (R166, R232). -/
def linkLocal (s : State) (g a n : Nat) (load : Bool) : Option Nat :=
  match localRun s g a n with
  | none => none
  | some (h, o) =>
    if localLocked s g h o n load then some 0
    else if runStashed s g h o n then some 1
    else none

/-- The checks of a link word (R232), once the launch's routes are fixed. A record that asks for them is answered first,
whatever the duty's mode is by then (R8). -/
def linkChecks (c : Cur) (a n : Nat) (p : LinkPeer) (load : Bool) (s : State) (k : State → Res) : Res :=
  let lenBad := n % 64 ≠ 0 || n < 64 || 65536 < n
  if a % 64 ≠ 0 then trapAs c clsMisalign 0 a s
  else if n ≠ 0 && (localRun s c.g a n).isNone then trapAs c clsPage 0 a s
  else if lenBad || p.bad then trapAs c clsRange 5 0 s
  else match linkLocal s c.g a n load with
  | some cause => trapAs c clsRange cause a s
  | none =>
    if (launchOf s c.g).routed then
      if routeOk s c.g p.dev then k s else trapAs c clsPort 3 0 s
    else if linkHw s (gCard c.g) && !(launchOf s c.g).routeAsk then
      let s1 := modLaunch s (lkOf c.g) fun l => { l with routed := true, routes := hwRoutes s }
      if routeOk s1 c.g p.dev then k s1 else trapAs c clsPort 3 0 s1
    else waitFor c 3 (askRoutes (lkOf c.g) s)
where
  /-- the driver is asked for the routes, once (R6, R319) -/
  askRoutes (lk : Nat) (s : State) : State :=
    if (launch s lk).routeAsk then s
    else
      let d : Duty := { kind := 4, card := lk / 2, inst := (launch s lk).inst, time := s.now }
      let s1 := modLaunch s lk fun l => { l with routeAsk := true }
      { s1 with duties := s1.duties ++ [d] }

/-- A message of the channel from `src` on `sdev` to `dst` on `ddev`. -/
def Msg.inChan (m : Msg) (sdev src ddev dst chan : Nat) : Bool :=
  m.sdev = sdev && m.src = src && m.ddev = ddev && m.dst = dst && m.chan = chan

/-- Register a local range for a link word. -/
def linkLock (c : Cur) (id kind a n : Nat) (s : State) : State :=
  modCore s (coreOf s c.g) fun C =>
    { C with locks := C.locks ++ lockOf s c.g id 1 kind ((a : Int), ((a + n : Nat) : Int)) }

/-- Free the locks of a link word, also where they are saved with its context (R40). -/
def linkUnlock (core id : Nat) (s : State) : State :=
  let rest (ls : List Lock) : List Lock := ls.filter fun k => k.kind = 2 || k.id ≠ id
  let s1 := modCore s core fun C => { C with locks := rest C.locks }
  { s1 with savedParts := s1.savedParts.map fun x => (x.1, { x.2 with locks := rest x.2.locks }) }

/-- Poisoned granules under contain end a word that reads a local run (R165). -/
def readingRun (c : Cur) (a n : Nat) (s : State) (k : State → Res) : Res :=
  match runPois s c.g (a, n) with
  | [] => k s
  | x :: xs =>
    if isCont s c.g then k (countPois c.g (x :: xs).length s) else trapAs c clsPoison 1 x.2.2 s

/-- LSND (R232): a release event. A message that has left before a rollback to the last commit is not held again (R309,
R430; log 30). -/
def lsndRes (f : Flds) (c : Cur) (s : State) : Res :=
  let a := uread s c.g f.a
  let n := uread s c.g f.b
  let p := linkPeer s c.g (uread s c.g f.c)
  linkChecks c a n p true s fun s =>
    let me := deviceNo s
    let k := coreOf s c.g
    if (grp s c.g).gone.contains c.w.seq then .done (relEvent c.g s)
    else if 8 ≤ (s.msgs.filter fun m => m.inChan me c.g p.dev p.g p.chan && m.taken.isNone).length ||
        freeLocks s k < 1 then waitFor c 3 s
    else readingRun c a n s fun s =>
      let id := s.nextId
      let m : Msg := { src := c.g, sdev := me, dst := p.g, ddev := p.dev, chan := p.chan, seq := c.w.seq,
                       bytes := toBytes n (runNum s c.g (a, n)), lock := id, core := k,
                       after := (grp s c.g).seen }
      let s1 := linkLock c id 0 a n { s with nextId := id + 1 }
      .done (relEvent c.g { s1 with msgs := s1.msgs ++ [m] })

/-- The next message of a receiving channel: it has arrived and no earlier receive took it. -/
def nextMsg (s : State) (g : Nat) (p : LinkPeer) : Option Msg :=
  match s.msgs.find? fun m => m.inChan p.dev p.g (deviceNo s) g p.chan && m.taken.isNone with
  | some m => if m.stage = 2 then some m else none
  | none => none

/-- Element bytes of an LRADD type. -/
def lraddSize (ty : Nat) : Nat := if ty < 3 then 4 else 2

/-- One element of LRADD (R232). -/
def lraddElem (ty x y : Nat) : Nat :=
  let add (F : Fmt) : Nat := fenc F 0 (fladd 0 (fdec F x) (fdec F y))
  match ty with
  | 2 => add .f32
  | 3 => add .f16
  | 4 => add .bf16
  | _ => (x + y) % 2 ^ 32

/-- The sum of two runs of elements. -/
def lraddRun (ty n x y : Nat) : List Byte :=
  let b := 8 * lraddSize ty
  (List.range (8 * n / b)).flatMap fun i =>
    toBytes (lraddSize ty) (lraddElem ty (nbits x (b * i + b - 1) (b * i)) (nbits y (b * i + b - 1) (b * i)))

/-- Take an arrived message. -/
def recvMsg (add : Option Nat) (f : Flds) (c : Cur) (a n : Nat) (m : Msg) (s : State) : Res :=
  if m.bytes.length ≠ n then
    .trap clsPort 4 0 0 { c.w with stage := 0, aux := 0 } (linkUnlock (coreOf s c.g) c.w.aux s)
  else
    let taken (s : State) : State :=
      { s with msgs := s.msgs.map fun x => if x = m then { x with taken := some c.w.seq } else x }
    let k := coreOf s c.g
    let fin (t : State) : State := acqEvent c.g (linkUnlock k c.w.aux (taken (uwrite c f.d n t)))
    match add with
    | none => .done (fin (runPut c a m.bytes s))
    | some ty => readingRun c a n s fun s =>
        .done (fin (runPut c a (lraddRun ty n (runNum s c.g (a, n)) (ofBytes m.bytes)) s))

/-- LRCV, and LRADD with its type (R232): the destination stays locked while the word waits. -/
def lrcvRes (add : Option Nat) (f : Flds) (c : Cur) (s : State) : Res :=
  let a := uread s c.g f.a
  let n := uread s c.g f.b
  let p := linkPeer s c.g (uread s c.g f.c)
  if c.w.stage = 0 then
    linkChecks c a n p false s fun s =>
      if freeLocks s (coreOf s c.g) < 1 then waitFor c 3 s
      else
        let id := s.nextId
        let c' : Cur := { c with w := { c.w with stage := 1, aux := id, cause := 3 } }
        let s1 := linkLock c id 1 a n { s with nextId := id + 1 }
        match nextMsg s c.g p with
        | some m => recvMsg add f c' a n m s1
        | none => .wait c'.w s1
  else if !routeOk s c.g p.dev then
    .trap clsPort 3 0 0 { c.w with stage := 0, aux := 0 } (linkUnlock (coreOf s c.g) c.w.aux s)
  else match nextMsg s c.g p with
  | some m => recvMsg add f c a n m s
  | none => waitFor c 3 s

/-! ### Sum-tree words (R234 to R239) -/

/-- Hold a tree command; with a result it closes its quantum and completes with the command (R234). -/
def treeRes (n : Nat) (cmd : TreeCmd) (dests : Option (List Reg)) (c : Cur) (s : State) : Res :=
  match holdRoom c 1 s with
  | some r => r
  | none =>
    let s1 := hold c.g c.w.seq (.tree n cmd) s
    match dests with
    | none => .done s1
    | some ds =>
      if handlerStuck s c.g then trapAs c clsDouble 0 0 s
      else .fly (heldFlight c 6 ds) (closeAfter c s1)

/-- The same for a word that acts per lane: with no active lane there is nothing to hold, and a word with a result
closes its quantum all the same. -/
def treeLanes (n : Nat) (cmd : List Nat → TreeCmd) (dests : Option (List Reg)) (f : Flds) (c : Cur)
    (s : State) : Res :=
  let ls := laneList s c f
  if ls.isEmpty then .done (if dests.isSome then closeAfter c s else s) else treeRes n (cmd ls) dests c s

/-- The operands vA, vB, vC of a lane. -/
def lane3 (s : State) (g : Nat) (f : Flds) (l : Nat) : Nat × Nat × Nat × Nat :=
  (l, vread s g f.a l, vread s g f.b l, vread s g f.c l)

/-- TRINS (R235). -/
def trinsRes (f : Flds) (c : Cur) (s : State) : Res :=
  let d := if f.m 0 then none else some f.d
  treeLanes f.imm (fun ls => .ins d (ls.map (lane3 s c.g f))) (d.map fun n => [.v n]) f c s

/-- TRUPD (R235). -/
def trupdRes (f : Flds) (c : Cur) (s : State) : Res :=
  treeLanes f.imm (fun ls => .upd f.d (ls.map (lane3 s c.g f))) (some [.p f.d]) f c s

/-- TRDRW (R236). -/
def trdrwRes (f : Flds) (c : Cur) (s : State) : Res :=
  treeLanes f.imm (fun ls => .drw f.d (uread s c.g f.a) ls) (some [.v f.d, .v (f.d + 1), .v (f.d + 2)]) f c s

/-- TRWGT (R238). -/
def trwgtRes (f : Flds) (c : Cur) (s : State) : Res :=
  treeLanes f.imm (fun ls => .wgt f.d (f.m 0) (ls.map fun l => (l, vread s c.g f.a l))) (some [.v f.d]) f c s

/-- TRTOT (R237). -/
def trtotRes (f : Flds) (c : Cur) (s : State) : Res :=
  treeRes f.imm (.tot f.d f.mod) (some [.u f.d]) c s

/-- TRCFG (R239). -/
def trcfgRes (f : Flds) (c : Cur) (s : State) : Res :=
  treeRes f.imm (.cfg f.b (uread s c.g f.a)) none c s

/-! ### The instructions -/

/-- PSH (R228). -/
def execPsh (w : XW) (s : State) := word (.psh w) (pshRes w.flds) s
/-- POP (R228). -/
def execPop (w : XW) (s : State) := word (.pop w) (popRes w.flds) s
/-- PSTAT (R228). -/
def execPstat (w : XW) (s : State) := word (.pstat w) (pstatRes w.flds) s
/-- LSND (R232). -/
def execLsnd (w : XW) (s : State) := word (.lsnd w) (lsndRes w.flds) s
/-- LRCV (R232). -/
def execLrcv (w : XW) (s : State) := word (.lrcv w) (lrcvRes none w.flds) s
/-- LRADD (R232). -/
def execLradd (w : XW) (s : State) := word (.lradd w) (lrcvRes (some (w.flds.mod)) w.flds) s
/-- TRINS (R234, R235). -/
def execTrins (w : XW) (s : State) := word (.trins w) (trinsRes w.flds) s
/-- TRDRW (R236). -/
def execTrdrw (w : XW) (s : State) := word (.trdrw w) (trdrwRes w.flds) s
/-- TRUPD (R235). -/
def execTrupd (w : XW) (s : State) := word (.trupd w) (trupdRes w.flds) s
/-- TRTOT (R237). -/
def execTrtot (w : XW) (s : State) := word (.trtot w) (trtotRes w.flds) s
/-- TRWGT (R238). -/
def execTrwgt (w : XW) (s : State) := word (.trwgt w) (trwgtRes w.flds) s
/-- TRCFG (R239). -/
def execTrcfg (w : XW) (s : State) := word (.trcfg w) (trcfgRes w.flds) s

end Sys2Proof.Machine
end

