-- ==== Sys2Proof/Machine/Regs.lean ====
section
/-!
DEFINITION. Sys2Proof/Machine/Regs.lean: host interrupts (R387), fields of job cards (R295), the writes of a launch
with its snapshot set and external-effect bit (R328, R329).
-/
namespace Sys2Proof.Machine

/-! ### Host interrupts (R387) -/

/-- The interrupt of source `n` is sent: an MSI, or in endpoint mode MSI-X vector `n`. -/
def sendMsi (n : Nat) (s : State) : State :=
  if s.pciEnd then { s with msixs := s.msixs ++ [n] }
  else
    { s with msis := s.msis ++ [(nbits (reg s (0x170100 + 16 * n)) 51 2 * 4, reg s (0x170108 + 16 * n) % 2 ^ 32)] }

/-- Raise source `n`: its bit is set, and where it was clear and is enabled one MSI is sent. -/
def raiseInt (n : Nat) (s : State) : State :=
  let old := reg s rHiStat
  let s1 := setReg s rHiStat (old ||| 2 ^ n)
  if !old.testBit n && (reg s rHiEn).testBit n then sendMsi n s1 else s1

/-! ### Job cards (R295) -/

/-- Count in a 32-bit field of a card. -/
def bumpCard (n hi lo : Nat) (s : State) : State := setCardFld n hi lo (cardFld s n hi lo + 1) s

def cKind (s : State) (n : Nat) : Nat := cardFld s n 3 0
def cState (s : State) (n : Nat) : Nat := cardFld s n 7 4
def cPrio (s : State) (n : Nat) : Nat := cardFld s n 9 8
def cDet (s : State) (n : Nat) : Bool := cardFld s n 10 10 = 1
def cGang (s : State) (n : Nat) : Bool := cardFld s n 11 11 = 1
def cRedun (s : State) (n : Nat) : Bool := cardFld s n 12 12 = 1
def cPartid (s : State) (n : Nat) : Nat := cardFld s n 37 32
def cCtx (s : State) (n : Nat) : Nat := cardFld s n 43 38
def cRelease (s : State) (n : Nat) : Nat := cardFld s n 127 64
def cPeriod (s : State) (n : Nat) : Nat := cardFld s n 191 128
def cDeadline (s : State) (n : Nat) : Nat := cardFld s n 255 192
def cEBudget (s : State) (n : Nat) : Nat := cardFld s n 287 256
def cBwBudget (s : State) (n : Nat) : Nat := cardFld s n 319 288
def cCores (s : State) (n : Nat) : Nat := cardFld s n 351 320
def cInstance (s : State) (n : Nat) : Nat := cardFld s n 383 352
def cWork (s : State) (n : Nat) : Nat := cardFld s n 447 384
def cCring (s : State) (n : Nat) : Nat := cardFld s n 511 448
def cWeave (s : State) (n : Nat) : Nat := cardFld s n 575 512
def cSnap (s : State) (n : Nat) : Nat := cardFld s n 639 576
def cExtEff (s : State) (n : Nat) : Bool := cardFld s n 22 22 = 1

/-- The dispatcher's record of a card. -/
def run (s : State) (n : Nat) : CardRun := nget {} s.runs n
def modRun (n : Nat) (f : CardRun → CardRun) (s : State) : State :=
  { s with runs := nput s.runs n (f (run s n)) }

/-! ### Writes of a launch (R328, R329) -/

/-- Write bytes that lie in one page at a virtual address of a launch; nothing where it does not translate. -/
def putVirtual (lk va : Nat) (bytes : List Byte) (s : State) : State :=
  let r := xlateFor s noTlb lk va .write
  match r.1 with
  | .ok pa _ => l2Write pa bytes (launch s lk).acct r.2
  | .fault _ _ => r.2

/-- The 64 sectors of a page are copied, from one physical address to another; a poisoned sector leaves a poisoned copy
(DESIGN CHOICE, log 149: R328 copies bytes and does not speak of poison). -/
def copyPage (dst src partid : Nat) (s : State) : State :=
  (List.range 64).foldl (fun s i =>
    let s1 := l2Fill (src + 64 * i) partid false s
    let s2 := l2Write (dst + 64 * i) (l2Read s1 (src + 64 * i) 64) partid s1
    if isPoison s1 (src + 64 * i) then poisonSector (dst + 64 * i) s2 else s2) s

/-- The number of a page in the snapshot set of a card (R328). -/
def snapPage (ranges : List (Nat × Nat)) (vp : Nat) : Option Nat :=
  match ranges with
  | [] => none
  | (p, n) :: rs =>
    if p ≤ vp ∧ vp < p + n then some (vp - p)
    else (snapPage rs vp).map (· + n)
def snapPages (ranges : List (Nat × Nat)) : Nat := (ranges.map (·.2)).sum

/-- Before the first write to a page of the snapshot set performs, the page is copied to its shadow and its
copied bit is set; a write outside the set is an external effect (R328, R329). -/
def snapshot (lk va pa : Nat) (s : State) : State :=
  let card := lk / 2
  let R := run s card
  if cSnap s card = 0 then extEff lk s
  else match snapPage R.ranges (va / 4096) with
  | none => extEff lk s
  | some j =>
    let bit := R.shadow + 4096 * snapPages R.ranges + j / 8
    let b := xlateFor s noTlb lk bit .read
    match b.1 with
    | .fault _ _ => b.2
    | .ok bpa _ =>
      let s1 := l2Fill bpa (launch s lk).acct false b.2
      let old := (busRead s1 bpa 1).getD 0
      if old.testBit (j % 8) then s1
      else
        let t := xlateFor s1 noTlb lk (R.shadow + 4096 * j) .write
        putVirtual lk bit [BitVec.ofNat 8 (old ||| 2 ^ (j % 8))] (match t.1 with
          | .ok tpa _ => copyPage tpa (pa / 4096 * 4096) (launch s lk).acct t.2
          | .fault _ _ => t.2)

/-- A write of a launch performs at the L2, within one sector, under a memory type; `but` is the stash window that it
writes back (R160). An access to device-type memory is an external effect (R329). -/
def launchWriteAs (mt : Nat) (but : Option (Nat × Nat)) (lk va pa : Nat) (bytes : List Byte) (partid : Nat) (s : State) :
    State :=
  let s1 := snapshot lk va pa s
  l2WriteSectorAs mt but pa bytes partid (if mt = 2 || paDevice s pa then extEff lk s1 else s1)
def launchWrite (lk va pa : Nat) (bytes : List Byte) (partid : Nat) (s : State) : State :=
  launchWriteAs 0 none lk va pa bytes partid s

end Sys2Proof.Machine
end

