-- ==== Sys2Proof/Machine/Tree.lean ====
section
/-!
DEFINITION. Sys2Proof/Machine/Tree.lean: the sum-tree engine (R234 to R239, R358 to R366): its table, its nodes
in memory, and how each command performs.
-/
namespace Sys2Proof.Machine

/-! ### The tree table (R358) -/

def treeReg (n w : Nat) : Nat := 0x110000 + 64 * n + 8 * w
def trBase (s : State) (n : Nat) : Nat := reg s (treeReg n 0)
def trWord1 (s : State) (n : Nat) : Nat := reg s (treeReg n 1)
def trLevels (s : State) (n : Nat) : Nat := nbits (trWord1 s n) 3 0
def trEn (s : State) (n : Nat) : Bool := (trWord1 s n).testBit 4
def trCtx (s : State) (n : Nat) : Nat := nbits (trWord1 s n) 10 5
def trBeta (s : State) (n : Nat) : Nat := nbits (trWord1 s n) 63 32
def trNsize (s : State) (n : Nat) : Nat := nbits (reg s (treeReg n 2)) 31 0
def trSeed (s : State) (n : Nat) : Nat := reg s (treeReg n 3)
def trTotal (s : State) (n : Nat) : Nat := reg s (treeReg n 4)
def trMin (s : State) (n : Nat) : Nat := nbits (reg s (treeReg n 5)) 31 0
def trDrop (s : State) (n : Nat) : Nat := nbits (reg s (treeReg n 6)) 31 0
def trErr (s : State) (n : Nat) : Nat := nbits (reg s (treeReg n 6)) 63 32

/-- Change bits of a table word. -/
def treeSet (n w hi lo v : Nat) (s : State) : State :=
  setReg s (treeReg n w) (setBits (reg s (treeReg n w)) hi lo v)

/-- Raise the error count or the drop count; both saturate (R358). -/
def treeErr (n k : Nat) (s : State) : State := treeSet n 6 63 32 (min 0xFFFFFFFF (trErr s n + k)) s
def treeDrop (n : Nat) (s : State) : State := treeSet n 6 31 0 (min 0xFFFFFFFF (trDrop s n + 1)) s
/-- A node access met a fault or poison: ERR rises, and FAULTED is set (R364). -/
def treeFault (n : Nat) (s : State) : State := treeErr n 1 (treeSet n 1 15 15 1 s)

/-- Leaves of the tree; none before a BASE has been applied (R234, R361). -/
def treeCap (s : State) (n : Nat) : Nat :=
  if trLevels s n = 0 ∨ 8 < trLevels s n ∨ !s.treeBased.testBit n then 0 else 16 ^ trLevels s n

/-! ### Nodes (R360) -/

/-- Bytes of the internal levels. -/
def treeInternal (D : Nat) : Nat := 16 * ((16 ^ D - 1) / 15)
/-- Offset of the leaf array. -/
def treeLeaves (D : Nat) : Nat := (treeInternal D + 4095) / 4096 * 4096
/-- Offset of node `i` of internal level `d`. -/
def nodeAt (d i : Nat) : Nat := 16 * ((16 ^ d - 1) / 15 + i)
/-- Offset of leaf `j`. -/
def leafAt (D j : Nat) : Nat := treeLeaves D + 8 * j

/-- Translate in the tree's context, with the write access kind (R361). -/
def treeXlate (n va : Nat) (s : State) : Option Nat × State :=
  let r := translate s false false noTlb (trCtx s n) false (va % 2 ^ 64) .write
  match r.1 with
  | .ok pa _ => (some pa, r.2)
  | .fault _ _ => (none, r.2)

/-- A write to a physical address reaches memory (R278, R373). -/
def landsAt (s : State) (pa : Nat) : Bool :=
  match paKind s pa with
  | .dram => true
  | .pcie => true
  | .remote d => (hwRoute s d).isSome
  | _ => false

/-- Read a node: none on a translation fault or poison (R364). -/
def nodeRead (n off len : Nat) (s : State) : Option Nat × State :=
  let r := treeXlate n (trBase s n + off) s
  match r.1 with
  | none => (none, r.2)
  | some pa => let s1 := l2Fill pa (nget 0 s.treePart n) false r.2; (busRead s1 pa len, s1)

/-- Write a node: where it has been written, or none where its translation or its write failed. -/
def nodeWrite (n off len x : Nat) (s : State) : Option Nat × State :=
  let r := treeXlate n (trBase s n + off) s
  match r.1 with
  | none => (none, r.2)
  | some pa => (if landsAt r.2 pa then some pa else none, l2Write pa (toBytes len x) (nget 0 s.treePart n) r.2)

/-- Write the nodes of a path: offset, bytes and value of each. Where one fails, the sectors that have been written are
poisoned, and the tree's counts say so (R364). -/
def writePath (n : Nat) (ws : List (Nat × Nat × Nat)) (s : State) : State :=
  let t := ws.foldl (fun t w => let r := nodeWrite n w.1 w.2.1 w.2.2 t.2; (t.1 ++ [r.1], r.2)) (([] : List (Option Nat)), s)
  if t.1.all (·.isSome) then t.2
  else treeFault n ((t.1.filterMap id).foldl (fun s pa => poisonSector pa s) t.2)

/-- The root as memory holds it (R363): none where it cannot be read. -/
def rootRead (n : Nat) (s : State) : Option Nat × State := nodeRead n (nodeAt 0 0) 16 s

/-- What a parent takes from a leaf: its priority, and its minimum (R362). -/
def leafPair (x : Nat) : Nat × Nat :=
  let p := nbits x 31 0
  (p, if p = 0 then 0xFFFFFFFF else p)
/-- What a parent takes from an internal node. -/
def nodePair (x : Nat) : Nat × Nat := (nbits x 63 0, nbits x 95 64)

/-- Read the children `16 i` to `16 i + 15` of a node of level `d`, as pairs. -/
def childPairs (n D d i : Nat) : Nat → State → Option (List (Nat × Nat)) × State
  | 0, s => (some [], s)
  | k + 1, s =>
    let j := 16 * i + (15 - k)
    let r := if d + 1 = D then nodeRead n (leafAt D j) 8 s else nodeRead n (nodeAt (d + 1) j) 16 s
    match r.1 with
    | none => (none, r.2)
    | some x =>
      let t := childPairs n D d i k r.2
      (t.1.map fun ps => (if d + 1 = D then leafPair x else nodePair x) :: ps, t.2)

def sumPairs (ps : List (Nat × Nat)) : Nat × Nat :=
  ((ps.map (·.1)).sum, (ps.map (·.2)).foldl min 0xFFFFFFFF)

/-- The new nodes of a path, from level `d - 1` up to the root (R362): `child` is the changed child with what
its parent takes from it. -/
def pathUp (n D child : Nat) (v : Nat × Nat) : Nat → State → Option (List (Nat × Nat) × (Nat × Nat)) × State
  | 0, s => (some ([], v), s)
  | d + 1, s =>
    let i := child / 16
    let r := childPairs n D d i 16 s
    match r.1 with
    | none => (none, r.2)
    | some ps =>
      let w := sumPairs (ps.set (child % 16) v)
      let t := pathUp n D i w d r.2
      (t.1.map fun x => ((nodeAt d i, w.1 % 2 ^ 64 + w.2 % 2 ^ 32 * 2 ^ 64) :: x.1, x.2), t.2)

/-- TOTAL and MIN mirror the root (R362). -/
def treeMirror (n : Nat) (v : Nat × Nat) (s : State) : State :=
  treeSet n 5 31 0 v.2 (setReg s (treeReg n 4) (v.1 % 2 ^ 64))

/-- TOTAL and MIN take the root as another agent may have left it (R362, R363). -/
def treeSync (n : Nat) (s : State) : State :=
  if treeCap s n = 0 then s
  else
    let r := rootRead n s
    match r.1 with
    | some x => treeMirror n (nodePair x) r.2
    | none => r.2

/-- apply_leaf of R362: none where reading the path fails (R364). -/
def applyLeaf (n i x : Nat) (s : State) : Option State × State :=
  let D := trLevels s n
  let q := rootRead n s
  let r := pathUp n D i (leafPair x) D q.2
  match q.1, r.1 with
  | some _, some (ws, v) =>
    (some (treeMirror n v (writePath n ((leafAt D i, 8, x) :: ws.map fun w => (w.1, 16, w.2)) r.2)), r.2)
  | _, _ => (none, r.2)

/-! ### Clearing (R239, R365) -/

/-- Rewrite the nodes of one page of node memory; a page that does not translate, or whose write fails, is left as it
was and counted. -/
def clearPage (n D : Nat) (s : State) (j : Nat) : State :=
  let off := 4096 * j
  let r := treeXlate n (trBase s n + off) s
  match r.1 with
  | none => treeFault n r.2
  | some pa =>
    let part := nget 0 s.treePart n
    let bytes : List Byte :=
      if off < treeInternal D then
        (List.range (min 256 ((treeInternal D - off) / 16))).flatMap fun _ => toBytes 16 (0xFFFFFFFF * 2 ^ 64)
      else List.replicate (min 4096 (treeLeaves D + 8 * 16 ^ D - off)) 0
    let s1 := l2Write pa bytes part r.2
    if !landsAt r.2 pa then treeFault n s1
    else { s1 with poison := (List.range (ceilDiv bytes.length 64)).foldl (fun m k => ndel m (pa / 64 + k)) s1.poison }

/-- Clear the tree: every node, the root's mirror and the counts; it is busy until the last write has
performed. -/
def treeClear (n : Nat) (s : State) : State :=
  let D := trLevels s n
  let s1 := treeMirror n (0, 0xFFFFFFFF) (setReg (treeSet n 1 15 15 0 s) (treeReg n 6) 0)
  if treeCap s n = 0 then s1
  else
    let pages := ceilDiv (treeLeaves D + 8 * 16 ^ D) 4096
    { (List.range pages).foldl (clearPage n D) s1 with treeBusy := s.treeBusy ||| 2 ^ n }

/-- TRCFG, or the MMIO write with its effect (R239, R359): `field` 0 BASE, 1 LEVELS, 2 BETA, 3 NSIZE, 4 SEED,
5 CLEAR. A value out of range is not applied, and ERR rises. -/
def treeCfg (n field x : Nat) (s : State) : State :=
  match field with
  | 0 =>
    if x % 4096 ≠ 0 then treeErr n 1 s
    else
      let r := treeXlate n x s
      match r.1 with
      | none => treeErr n 1 r.2
      | some pa =>
        let s1 := treeSet n 1 14 11 (homeOf pa) (setReg r.2 (treeReg n 0) x)
        treeClear n { s1 with treeBased := s1.treeBased ||| 2 ^ n }
  | 1 => if 1 ≤ x ∧ x ≤ 8 then treeClear n (treeSet n 1 3 0 x s) else treeErr n 1 s
  | 2 => treeSet n 1 63 32 (x % 2 ^ 32) s
  | 3 => if 1 ≤ x ∧ x < 2 ^ 32 then treeSet n 2 31 0 x s else treeErr n 1 s
  | 4 => setReg s (treeReg n 3) x
  | _ => if x = 0 then treeClear n s else treeErr n 1 s

/-! ### Draws (R236, R363) -/

/-- mix64 of R236. -/
def mix64 (z : Nat) : Nat :=
  let z := (z ^^^ z / 2 ^ 30) * 0xBF58476D1CE4E5B9 % 2 ^ 64
  let z := (z ^^^ z / 2 ^ 27) * 0x94D049BB133111EB % 2 ^ 64
  z ^^^ z / 2 ^ 31

/-- draw_word of R236. -/
def drawWord (seed q j : Nat) : Nat :=
  let z := seed ^^^ mix64 ((q + 0x9E3779B97F4A7C15) % 2 ^ 64)
  nbits (mix64 ((z + j * 0xD1B54A32D192ED03) % 2 ^ 64)) 63 32

/-- The child that holds point `x`: its number, and the point within it; none where `x` is past the last. -/
def pickChild : Nat → Nat → List (Nat × Nat) → Option (Nat × Nat)
  | _, _, [] => none
  | k, x, p :: ps => if x < p.1 then some (k, x) else pickChild (k + 1) (x - p.1) ps

/-- The highest child with a non-zero sum, at its last point (R363). -/
def lastChild (ps : List (Nat × Nat)) : Option (Nat × Nat) :=
  (ps.zipIdx.filter fun p => p.1.1 ≠ 0).getLast?.map fun p => (p.2, p.1.1 - 1)

/-- Descend from node `i` of level `D - k` to a leaf: none where a node cannot be read or nothing lies below;
`e` counts the errors of R363. -/
def descend (n D i x e : Nat) : Nat → State → Option Nat × Nat × State
  | 0, s => (some i, e, s)
  | k + 1, s =>
    let r := childPairs n D (D - (k + 1)) i 16 s
    match r.1 with
    | none => (none, e + 1, treeSet n 1 15 15 1 r.2)
    | some ps =>
      match pickChild 0 x ps with
      | some (c, y) => descend n D (16 * i + c) y e k r.2
      | none =>
        match lastChild ps with
        | some (c, y) => descend n D (16 * i + c) y (e + 1) k r.2
        | none => (none, e + 1, r.2)

/-- What a draw gives a lane: index, priority, generation with flags (R236). -/
def drawLane (n w q l : Nat) (s : State) : (Nat × Nat × Nat) × State :=
  let root := rootRead n s
  if treeCap s n = 0 then ((0, 0, 0), s)
  else if root.1.isNone then ((0, 0, 0), treeFault n root.2)
  else if trTotal s n = 0 then ((0, 0, 0), s)
  else
    let D := trLevels s n
    let x := (l * 2 ^ 32 + drawWord (trSeed s n) q l) * trTotal s n / (w * 2 ^ 32)
    let r := descend n D 0 x 0 D s
    let s1 := treeErr n r.2.1 r.2.2
    match r.1 with
    | none => ((0, 0, 0), s1)
    | some i =>
      let t := nodeRead n (leafAt D i) 8 s1
      match t.1 with
      | none => ((0, 0, 0), treeFault n t.2)
      | some v => ((i, nbits v 31 0, nbits v 47 32 + nbits v 63 48 * 2 ^ 16), t.2)

/-! ### Inserts and updates (R235) -/

/-- One lane of TRINS: what it returns. -/
def insLane (n : Nat) (x : Nat × Nat × Nat × Nat) (s : State) : Nat × State :=
  let i := x.2.1
  if treeCap s n ≤ i then (0, treeErr n 1 s)
  else
    let r := nodeRead n (leafAt (trLevels s n) i) 8 s
    match r.1 with
    | none => (0, treeFault n r.2)
    | some old =>
      let gen := (nbits old 47 32 + 1) % 2 ^ 16
      let flags := x.2.2.2 % 2 ^ 16
      match applyLeaf n i (x.2.2.1 % 2 ^ 32 + gen * 2 ^ 32 + flags * 2 ^ 48) r.2 with
      | (some t, _) => (gen + flags * 2 ^ 16, t)
      | (none, t) => (0, treeFault n t)

/-- One lane of TRUPD: what its predicate bit becomes. -/
def updLane (n : Nat) (x : Nat × Nat × Nat × Nat) (s : State) : Bool × State :=
  let i := x.2.1
  if treeCap s n ≤ i then (false, treeErr n 1 s)
  else
    let r := nodeRead n (leafAt (trLevels s n) i) 8 s
    match r.1 with
    | none => (false, treeFault n r.2)
    | some old =>
      if nbits old 47 32 ≠ x.2.2.2 % 2 ^ 16 then (false, treeDrop n r.2)
      else
        match applyLeaf n i (setBits old 31 0 x.2.2.1) r.2 with
        | (some t, _) => (true, t)
        | (none, t) => (false, treeFault n t)

/-! ### Weights (R238) -/

/-- A priority, total or minimum as its exact value. -/
def fx16 (x : Nat) : Fl := mkFl false x (-16)

/-- TRWGT of one lane, as FP32. -/
def wgtLane (s : State) (n : Nat) (abs : Bool) (p : Nat) : Nat :=
  let F : Fmt := .f32
  let lg (x : Fl) : Nat := flg2 F x
  let add (a b : Nat) : Nat := fenc F 0 (fladd 0 (fdec F a) (fdec F b))
  let sub (a b : Nat) : Nat := fenc F 0 (fladd 0 (fdec F a) (fdec F b).negate)
  let pw (d : Nat) : Nat := fex2 F (fdec F (fenc F 0 (flmul (fdec F (trBeta s n)).negate (fdec F d))))
  let b := lg (fx16 p)
  if p = 0 then 0
  else if abs then pw (sub (add (lg (mkFl false (trNsize s n) 0)) b) (lg (fx16 (trTotal s n))))
  else if trMin s n = 0xFFFFFFFF then F.nanCode
  else pw (sub b (lg (fx16 (trMin s n))))

/-! ### Commands (R234, R359) -/

/-- What a command returns: values for lane registers (register, lane, value), predicate bits, and a uniform
register's value. -/
structure TreeOut where
  v : List (Nat × Nat × Nat) := []
  p : Option (Nat × List (Nat × Bool)) := none
  u : Option (Nat × Nat) := none
deriving DecidableEq, Repr

/-- Lanes in ascending order, each in full before the next. -/
def overLanes {α β : Type} (f : α → State → β × State) : List α → State → List β × State
  | [], s => ([], s)
  | x :: xs, s =>
    let r := f x s
    let t := overLanes f xs r.2
    (r.1 :: t.1, t.2)

/-- The results of a rejected command (R359). -/
def treeRejected (c : TreeCmd) : TreeOut :=
  match c with
  | .ins (some d) ls => { v := ls.map fun x => (d, x.1, 0) }
  | .ins none _ => {}
  | .drw d _ ls => { v := ls.flatMap fun l => [(d, l, 0), (d + 1, l, 0), (d + 2, l, 0)] }
  | .upd d ls => { p := some (d, ls.map fun x => (x.1, false)) }
  | .tot d mode => { u := some (d, if mode = 1 then 0xFFFFFFFF else 0) }
  | .wgt d _ ls => { v := ls.map fun x => (d, x.1, if x.2 = 0 then 0 else Fmt.nanCode .f32) }
  | .cfg _ _ => {}

/-- A command of a launch performs at the tree's home agent: `ctx` is the launch's context, `part` its
PARTID and `w` its WIDTH. -/
def treePerform (n ctx part w : Nat) (c : TreeCmd) (s : State) : TreeOut × State :=
  if !trEn s n || trCtx s n ≠ ctx then
    (treeRejected c, setReg s rTReject (min (2 ^ 64 - 1) (reg s rTReject + 1)))
  else
    let s := treeSync n s
    match c with
    | .ins d ls =>
      let r := overLanes (insLane n) ls s
      (match d with
        | none => {}
        | some d => { v := (ls.zip r.1).map fun x => (d, x.1.1, x.2) }, r.2)
    | .upd d ls =>
      let r := overLanes (updLane n) ls s
      ({ p := some (d, (ls.zip r.1).map fun x => (x.1.1, x.2)) }, r.2)
    | .drw d q ls =>
      let r := overLanes (drawLane n w q) ls s
      ({ v := (ls.zip r.1).flatMap fun x =>
          [(d, x.1, x.2.1), (d + 1, x.1, x.2.2.1), (d + 2, x.1, x.2.2.2)] }, r.2)
    | .tot d mode =>
      ({ u := some (d, match mode with
          | 0 => trTotal s n
          | 1 => trMin s n
          | 2 => trDrop s n
          | 3 => treeCap s n
          | _ => trErr s n) }, s)
    | .wgt d abs ls => ({ v := ls.map fun x => (d, x.1, wgtLane s n abs x.2) }, s)
    | .cfg field x => ({}, treeCfg n field x { s with treePart := nput s.treePart n part })

/-- The command reaches outside its launch (R329). -/
def treeExt (c : TreeCmd) : Bool :=
  match c with
  | .ins _ _ => true
  | .upd _ _ => true
  | .cfg _ _ => true
  | _ => false

end Sys2Proof.Machine
end

