-- ==== Sys2Proof/Machine/Cards.lean ====
section
/-!
DEFINITION. Sys2Proof/Machine/Cards.lean: job cards (R295 to R304, R315 to R320): what the dispatcher reads of
them, completion records, duty records, the checks of an arming, and admission.
-/
namespace Sys2Proof.Machine

/-! ### Completion records (R318) -/

/-- Translate for the dispatcher in a card's context (R296, R318): no demand fill, no fault record. -/
def cardXlate (s : State) (n va : Nat) (a : Acc2) : Option Nat × State :=
  let r := translate s false false noTlb (cCtx s n) false (va % 2 ^ 64) a
  match r.1 with
  | .ok pa _ => (some pa, r.2)
  | .fault _ _ => (none, r.2)

/-- What a record says beside the card's own fields. -/
structure RecArgs where
  event : Nat
  cause : Nat := 0
  prov : Bool := false
  suspect : Bool := false
  card : Nat
  inst : Nat
  time : Nat
  rel : Nat
deriving DecidableEq, Repr

/-- Poisoned reads of a card's instance so far: of the attempts that have ended, and of its resident launches (R165,
R318). -/
def instPreads (s : State) (n : Nat) : Nat :=
  (run s n).preads + ((s.launches.filter fun x => x.1 / 2 = n).map fun x => x.2.preads).sum

/-- A record's 64 bytes for the ring of card `n`. -/
def recordBytes (s : State) (n : Nat) (r : RecArgs) : List Byte :=
  let R := run s n
  toBytes 64 (r.event % 16 + b2n r.prov * 2 ^ 4 + b2n r.suspect * 2 ^ 5 + b2n (cExtEff s n) * 2 ^ 6 +
    b2n R.replayed * 2 ^ 7 + r.cause % 16 * 2 ^ 8 + r.card % 4096 * 2 ^ 16 + r.inst % 2 ^ 32 * 2 ^ 32 +
    r.time % 2 ^ 64 * 2 ^ 64 + r.rel % 2 ^ 64 * 2 ^ 128 + cardFld s n 767 736 * 2 ^ 192 +
    instPreads s n % 2 ^ 32 * 2 ^ 224 + R.rolls % 2 ^ 32 * 2 ^ 256 + R.dropped % 2 ^ 32 * 2 ^ 288)

/-- A record that finds no place is dropped (R318). -/
def dropRecord (n : Nat) (s : State) : State :=
  modRun n (fun R => { R with dropped := R.dropped + 1 }) (bumpCard n 863 832 s)

/-- Write a record to the completion ring of card `n` (R318): the record first, then the tail. -/
def writeRecord (n : Nat) (r : RecArgs) (s : State) : State :=
  let lg := cardFld s n 59 56
  if lg = 0 then s
  else
    let base := cCring s n
    let t := cardXlate s n base .write
    match t.1 with
    | none => dropRecord n t.2
    | some hpa =>
      let t2 := l2Fill hpa (cPartid s n) false t.2
      let tail := ofBytes (l2Read t2 hpa 4)
      let head := ofBytes (l2Read t2 (hpa + 8) 4)
      let q := cardXlate t2 n (base + 64 + 64 * (tail % 2 ^ lg)) .write
      match q.1 with
      | none => dropRecord n q.2
      | some rpa =>
        if isPoison t2 hpa || decide (2 ^ lg ≤ diff32 tail head) then dropRecord n q.2
        else
          let s1 := l2Write rpa (recordBytes s n r) (cPartid s n) q.2
          let s2 := l2Write hpa (toBytes 4 ((tail + 1) % 2 ^ 32)) (cPartid s n) s1
          let s3 := modRun n (fun R => { R with dropped := 0 }) s2
          if r.event = 0 || r.event = 8 then s3 else raiseInt 2 s3

/-- The usual fields of a record about the card's current instance. -/
def instRec (s : State) (n event cause : Nat) : RecArgs :=
  { event := event, cause := cause, card := n, inst := cInstance s n, time := s.now, rel := (run s n).rel,
    prov := decide ((run s n).ran ≠ 0) && (event = 0 || event = 4 || event = 5) }

/-! ### Duty records (R319) -/

/-- Ask for a duty record. -/
def askDuty (d : Duty) (s : State) : State := { s with duties := s.duties ++ [d] }

/-- The 64 bytes of a duty record. -/
def Duty.bytes (d : Duty) (tag : Nat) : List Byte :=
  toBytes 64 (tag + d.kind % 16 * 2 ^ 32 + d.card % 4096 * 2 ^ 36 + d.inst % 2 ^ 32 * 2 ^ 64 +
    d.cores % 2 ^ 32 * 2 ^ 96 + d.time % 2 ^ 64 * 2 ^ 128 + d.arg0 % 2 ^ 64 * 2 ^ 192 +
    d.arg1 % 2 ^ 64 * 2 ^ 256 + d.arg2 % 2 ^ 64 * 2 ^ 320)

/-! ### What the dispatcher reads at arming (R296) -/

/-- Read bytes of global memory for a card's arming, page by page: none where a read fails translation or
meets a poisoned sector. -/
def cardRead (n : Nat) : Nat → Nat → State → Option (List Byte) × State
  | _, 0, s => (some [], s)
  | va, k + 1, s =>
    let r := cardXlate s n va .read
    match r.1 with
    | none => (none, r.2)
    | some pa =>
      let s1 := l2Fill pa (cPartid s n) false r.2
      if isPoison s1 pa then (none, s1)
      else
        let t := cardRead n (va + 1) k s1
        (t.1.map fun bs => memGet s1.mem pa :: bs, t.2)

/-- The same as a little-endian number. -/
def cardReadNum (n va len : Nat) (s : State) : Option Nat × State :=
  let r := cardRead n va len s
  (r.1.map ofBytes, r.2)

/-- A card is well formed as far as its own fields say (R295). -/
def cardForm (s : State) (n : Nat) : Bool :=
  let k := cKind s n
  decide (1 ≤ k) && decide (k ≤ 3) && cPrio s n ≠ 3 && cardFld s n 17 16 ≠ 3 && cardFld s n 20 19 ≠ 3 &&
    cardFld s n 31 30 ≠ 3 && decide (cardFld s n 59 56 ≤ 12) && cardFld s n 63 60 = 0 &&
    cardFld s n 1023 896 = 0 && cCring s n % 64 = 0 && cardFld s n 703 640 % 4096 = 0

/-- A launch descriptor as a launch, for its fields. -/
def descLaunch (x : Nat) : Launch := { desc := BitVec.ofNat 1024 x }

/-- A launch descriptor is well formed (R297). -/
def descForm (x : Nat) : Bool :=
  let l := descLaunch x
  let z (hi lo : Nat) : Bool := nbits x hi lo = 0
  let n := l.ngroups
  z 127 110 && z 191 177 && z 223 209 && z 239 239 && z 255 253 && z 1023 832 && l.entry % 4 = 0 &&
    l.wmap % 64 = 0 && l.fld 65 64 ≠ 3 &&
    (if l.paired then n % 2 = 0 && decide (2 ≤ n) else decide (n ≤ 32)) && decide (l.roles ≤ n) &&
    decide (l.fld 202 192 ≤ 1152) && decide (2 ≤ l.fld 208 203) && decide (l.fld 208 203 ≤ 36) &&
    decide (l.accRows ≤ 16384) && decide (l.fld 252 240 ≤ 4096) &&
    (!l.stack || decide (128 + 1024 * l.perCore ≤ l.localBytes)) &&
    (!l.det || (decide (l.waveSize ≤ l.nteams) && decide (1024 ≤ l.q) && decide (l.q ≤ 65536) &&
      decide (l.perCore ≤ l.gmax)))

/-- A weave map is well formed (R225). -/
def weaveForm (x : Nat) : Bool :=
  nbits x 511 320 = 0 && (List.range 5).all fun p =>
    let b := nbits x (64 * p + 63) (64 * p)
    b % 8 ≠ 7 && nbits b 3 3 = 0 && nbits b 63 38 = 0 &&
      (decide (p < 2) || !(decide (1 ≤ b % 8) && decide (b % 8 ≤ 3)))

/-- The bindings' kinds. -/
def weaveKinds (x : Nat) : List Nat := (List.range 5).map fun p => nbits x (64 * p + 2) (64 * p)

/-- A launch that needs the gang flag (R20, R225). -/
def needsGang (l : Launch) : Bool :=
  (weaveKinds l.weave.toNat).any fun k => k = 5 || k = 6 || (l.paired && decide (2 ≤ k) && decide (k ≤ 4))

/-- A snapshot set from its bytes: shadow area and ranges; none where it is malformed (R328). -/
def snapForm (hdr : Nat) (es : List Nat) : Option (Nat × List (Nat × Nat)) :=
  let rs := es.map fun e => (nbits e 63 12, nbits e 95 64)
  let shadow := nbits hdr 127 64
  let pages := (rs.map (·.2)).sum
  let meet (a b : Nat × Nat) : Bool := decide (a.1 < b.1 + b.2) && decide (b.1 < a.1 + a.2)
  -- the shadow area is the pages' copies and the bitmap behind them
  let area : Nat × Nat := (shadow / 4096, pages + ceilDiv (ceilDiv pages 8) 4096)
  if nbits hdr 63 8 ≠ 0 || nbits hdr 511 160 ≠ 0 || shadow % 4096 ≠ 0 || pages ≠ nbits hdr 159 128 ||
      pages = 0 || decide (2 ^ 22 < pages) ||
      (es.any fun e => nbits e 11 0 ≠ 0 || nbits e 127 96 ≠ 0 || nbits e 95 64 = 0) ||
      (rs.any (meet area)) ||
      ((List.range rs.length).any fun i => (List.range i).any fun j => meet (rs.getD i (0, 0)) (rs.getD j (0, 0)))
  then none else some (shadow, rs)

/-- An entry of a copy batch is well formed (R298). -/
def entryForm (e : Nat) : Bool :=
  let d := nbits e 63 0
  let x := nbits e 127 64
  let n := nbits e 152 128
  nbits e 191 154 = 0 && decide (n ≤ 2 ^ 24) && !(decide (0 < n) && decide (d < x + n) && decide (x < d + n))

/-- Everything the dispatcher reads for a card, put in its record; none where a structure is malformed or
unreadable (R296). -/
def cardLoad (n : Nat) (s : State) : Option CardRun × State :=
  let work := cWork s n
  let snap := cSnap s n
  -- the snapshot set
  let sn : Option (Nat × List (Nat × Nat)) × State :=
    if snap = 0 then (some (0, []), s)
    else
      let h := cardReadNum n snap 64 s
      match h.1 with
      | none => (none, h.2)
      | some hdr =>
        let e := cardReadNum n (snap + 64) (16 * (hdr % 256 + 1)) h.2
        (e.1.bind fun es => snapForm hdr ((List.range (hdr % 256 + 1)).map fun i =>
          nbits es (128 * i + 127) (128 * i)), e.2)
  match sn.1 with
  | none => (none, sn.2)
  | some (shadow, ranges) =>
    let base : CardRun := { shadow := shadow, ranges := ranges }
    match cKind s n with
    | 1 =>
      let d := cardReadNum n work 128 sn.2
      match d.1 with
      | none => (none, d.2)
      | some desc =>
        let wm := if cWeave s n ≠ 0 then cWeave s n else (descLaunch desc).wmap
        let w : Option Nat × State := if wm = 0 then (some 0, d.2) else cardReadNum n wm 64 d.2
        match w.1 with
        | none => (none, w.2)
        | some weave =>
          if work % 128 ≠ 0 || wm % 64 ≠ 0 || !descForm desc || !weaveForm weave then (none, w.2)
          else (some { base with desc := BitVec.ofNat 1024 desc, weave := BitVec.ofNat 512 weave }, w.2)
    | 2 =>
      -- the first operator card, 256 bytes, sizes the chain's windows (R312)
      let d := cardReadNum n work 256 sn.2
      match d.1 with
      | none => (none, d.2)
      | some x => if work % 256 ≠ 0 then (none, d.2) else (some { base with desc := BitVec.ofNat 1024 x }, d.2)
    | _ =>
      let h := cardReadNum n work 32 sn.2
      match h.1 with
      | none => (none, h.2)
      | some hdr =>
        if nbits hdr 255 8 ≠ 0 then (none, h.2) else (some { base with entries := hdr % 256 + 1 }, h.2)

/-! ### What fits on a core (R301 cause 7, R306, R312, R396) -/

def isOchre (c : Nat) : Bool := c = 32 || c = 33
/-- Carvable KiB, largest register carve, largest local carve, smallest register carve of a core (R266, R396). -/
def poolKib (c : Nat) : Nat := if isOchre c then 896 else 2304
def rfMax (c : Nat) : Nat := if isOchre c then 512 else 1536
def locMax (c : Nat) : Nat := if isOchre c then 512 else 1152
def rfMin (c : Nat) : Nat := if isOchre c then 256 else 768
def rowsOf (c : Nat) : Nat := if isOchre c then 2048 else 16384
def wbOf (c : Nat) : Nat := if isOchre c then 2 ^ 20 else 2 ^ 22

/-- KiB rounded up to a step of 64. -/
def up64 (x : Nat) : Nat := (x + 63) / 64 * 64

/-- KiB of registers of one team on one core (R15). -/
def teamRegBytes (l : Launch) : Nat := l.perCore * (8 * l.regBlocks) * l.width * 4

/-- The carve for `k` teams on an empty core: registers, local, L1 (R306). -/
def carveFor (c : Nat) (l : Launch) (k : Nat) : Nat × Nat × Nat :=
  let rf := max (rfMin c) (up64 (ceilDiv (k * teamRegBytes l) 1024))
  let loc := up64 (k * (l.localBytes / 1024))
  (rf, loc, poolKib c - rf - loc)

/-- `k` teams fit on an empty core (R15, R306). -/
def fitsEmpty (c : Nat) (l : Launch) (k : Nat) : Bool :=
  let v := carveFor c l k
  decide (v.1 ≤ rfMax c) && decide (v.2.1 ≤ locMax c) && decide (v.1 + v.2.1 + max 128 l.l1Kib ≤ poolKib c) &&
    decide (k * l.perCore * l.width ≤ 4096) && decide (l.accRows ≤ rowsOf c) && decide (l.wbBytes ≤ wbOf c) &&
    (!l.det || decide (k * l.perCore ≤ l.gmax))

/-- The most teams, up to `m`, that an empty core holds. -/
def mostTeams (c : Nat) (l : Launch) : Nat → Nat
  | 0 => 0
  | m + 1 => if fitsEmpty c l (m + 1) then m + 1 else mostTeams c l m

/-- The cores a card may use: those of CORES, or the ochre cluster (R396), without retired ones, and
quarantined ones only for redundant cards (R339). -/
def cardCores (s : State) (n : Nat) : List Nat :=
  let m := cCores s n
  if m = 0 then [32, 33]
  else (List.range 32).filter fun c => m.testBit c && !(reg s rRetired).testBit c &&
    (!(reg s rQuar).testBit c || cRedun s n)

/-- Teams that emptied cores hold together: by core, by pair for a paired team or a redundant launch. -/
def emptyTeams (s : State) (n : Nat) (l : Launch) (m : Nat) : Nat :=
  let cs := cardCores s n
  if l.paired || cRedun s n then
    ((cs.filter fun c => c % 2 = 0 && cs.contains (c + 1)).map fun c => mostTeams c l m).sum
  else (cs.map fun c => mostTeams c l m).sum

/-- Bytes of the largest image a lane launch can leave on a core (R312). -/
def launchImage (s : State) (n : Nat) (l : Launch) : Nat :=
  let cap := if l.det then min l.waveSize l.nteams else l.nteams
  let k := (cardCores s n).foldl (fun a c => max a (mostTeams c l (min cap 256))) 0
  let perG := 2048 + 4 * l.width * (8 * l.regBlocks) + 16 * l.width + 40 * (4 * l.width + 8)
  65536 + k * l.perCore * perG + l.localBytes + 520 * l.accRows + l.wbBytes

/-- Rows and weight KiB that a chain's first operator card asks for (R312, R350). -/
def chainRows (x : Nat) : Nat := nbits x 141 128 + nbits x 157 144 + 1
def chainWk (x : Nat) : Nat := nbits x 171 160 + nbits x 188 176

/-- The bound on the image of a context of card `n`, by its kind of work (R312); `x` is its launch descriptor or
first operator card. -/
def cardImage (s : State) (n x : Nat) : Nat :=
  match cKind s n with
  | 1 => launchImage s n (descLaunch x)
  | 2 => 65536 + 520 * chainRows x + 1024 * chainWk x
  | _ => 65536

/-- Cause 7 of R301. -/
def card7 (s : State) (n : Nat) (R : CardRun) : Bool :=
  let slot := cardFld s n 735 704 * 4096
  match cKind s n with
  | 1 =>
    let l := descLaunch R.desc.toNat
    let need := if l.det then min l.waveSize l.nteams else if cGang s n then l.nteams else 1
    decide (need ≤ emptyTeams s n l (min need 256)) && decide (cardImage s n R.desc.toNat ≤ slot)
  | 2 =>
    let x := R.desc.toNat
    ((cardCores s n).any fun c => decide (chainRows x ≤ rowsOf c) && decide (chainWk x * 1024 ≤ wbOf c)) &&
      decide (cardImage s n x ≤ slot)
  | _ => !(cardCores s n).isEmpty && decide (cardImage s n 0 ≤ slot)

/-! ### Admission (R302) -/

def admM (s : State) (n : Nat) : Nat :=
  if cPeriod s n = 0 then cDeadline s n else min (cPeriod s n) (cDeadline s n)
/-- The class C charge. -/
def chargeC (s : State) (n : Nat) : Nat := ceilDiv (1024000 * cEBudget s n) (max 1 (admM s n))
def chargeB (s : State) (n : Nat) : Nat := cBwBudget s n

/-- Count the card's charges. -/
def admitCard (n : Nat) (s : State) : State :=
  if cPrio s n = 2 then s
  else
    modRun n (fun R => { R with charged := some (chargeC s n, chargeB s n) })
      (countReg rAdmUseB (chargeB s n) (countReg rAdmUseC (chargeC s n) s))

/-- The charges are removed when the card returns to state 0. -/
def unadmit (n : Nat) (s : State) : State :=
  match (run s n).charged with
  | none => s
  | some (c, b) =>
    modRun n (fun R => { R with charged := none })
      (setReg (setReg s rAdmUseC (reg s rAdmUseC - c)) rAdmUseB (reg s rAdmUseB - b))

/-- The card goes to state 0. -/
def toIdle (n : Nat) (s : State) : State := unadmit n (setCardFld n 7 4 0 s)

/-! ### Arming (R301) -/

/-- Who arms: ARM, PARM, a JOBARM of card `by`, or the DLMISS and BUDGET handling. -/
inductive ArmPath where
  | arm
  | parm
  | job (card : Nat)
  | handler
deriving DecidableEq, Repr

/-- The lowest cause of R301 that rejects an arming, 0 for none, with what was read. -/
def armCause (path : ArmPath) (n : Nat) (s : State) : Nat × CardRun × State :=
  let hostAdm : Bool := (reg s rDutySel).testBit 0
  if cState s n ≠ 0 then (1, {}, s)
  else if !cardForm s n then (2, {}, s)
  else
    let r := cardLoad n s
    match r.1 with
    | none => (2, {}, r.2)
    | some R =>
      let l : Launch := { desc := R.desc, weave := R.weave }
      let redunBad := cRedun s n && (cKind s n ≠ 1 || !cDet s n || l.paired ||
        (weaveKinds R.weave.toNat).any fun k => k = 5 || k = 6)
      let c :=
        if redunBad then 2
        else if cKind s n = 1 && needsGang l && !cGang s n then 3
        else if (cardFld s n 13 13 = 1 && path ≠ .parm) || (match path with
            | .job _ => cardFld s n 15 15 = 0
            | _ => false) then 4
        else if cardFld s n 25 24 = 3 || cardFld s n 27 26 = 3 || cardFld s n 29 28 = 3 then 5
        else if cKind s n = 1 && cDet s n ≠ l.det then 6
        else if !card7 s n R then 7
        else if (cEBudget s n = 0 && cPrio s n ≠ 2) || cDeadline s n = 0 then 8
        else if hostAdm || cPrio s n = 2 then 0
        else if reg s rAdmCore < reg s rAdmUseC + chargeC s n then 9
        else if reg s rAdmBw < reg s rAdmUseB + chargeB s n then 10
        else 0
      (c, R, r.2)

/-- The state that an admitted card enters: it is armed for its release (R301, R303). -/
def armed (n rel : Nat) (s : State) : State :=
  let given := if rel = 0 then cRelease s n else rel
  let s1 := setCardFld n 7 4 2 (setCardFld n 127 64 (max s.now given) (setCardFld n 383 352 0 s))
  setCardFld n 831 768 0 (setCardFld n 895 832 0 s1)

/-- The record of a rejected arming (R301): to the card's own ring, and for JOBARM to the issuing card's. -/
def rejectRecord (path : ArmPath) (n rel cause : Nat) (s : State) : State :=
  let s1 := writeRecord n { event := 6, cause := cause, card := n, inst := cInstance s n, time := s.now,
                            rel := cRelease s n } s
  match path with
  | .job c => writeRecord c { event := 6, cause := cause, card := n, inst := cInstance s1 c, time := s.now,
                              rel := rel } s1
  | _ => s1

/-- An arming (R301): its cause goes to ARMSTAT; `rel` is the given release time, 0 for the card's own. The
answer says whether it was accepted. -/
def armCard (path : ArmPath) (n rel : Nat) (s : State) : Bool × State :=
  let r := armCause path n s
  let s1 := setReg r.2.2 rArmStat (n % 4096 + r.1 * 2 ^ 16)
  if r.1 ≠ 0 then (false, rejectRecord path n rel r.1 s1)
  else
    let asker := match path with
      | .job c => some c
      | _ => none
    let s2 := { s1 with runs := nput s1.runs n { r.2.1 with armRel := rel, armBy := asker, prov := (run s1 n).prov } }
    if (reg s rDutySel).testBit 0 then
      (true, askDuty { kind := 0, card := n, time := s.now } (setCardFld n 7 4 1 s2))
    else (true, admitCard n (armed n rel s2))

end Sys2Proof.Machine
end

