-- ==== Sys2Proof/Machine/System.lean ====
section
/-!
DEFINITION. Sys2Proof/Machine/System.lean: the Z engine (R240 to R247): traps, the return from a handler,
system registers with the trap record, power words and job control.
-/
namespace Sys2Proof.Machine

/-! ### The trap record (R85, R325, R326) -/

/-- What a trap record is built from (R84). -/
structure RecSrc where
  trap : TrapRec
  g : Nat
  nextSeq : Nat
  s0 : Slot
  s1 : Slot
  saved : List QWord
deriving DecidableEq, Repr

/-- The saved words of one queue, in queue order. -/
def RecSrc.queue (r : RecSrc) (q : Nat) : List QWord := r.saved.filter fun w => engOf w.instr = q

/-- A saved word in the format of R85. -/
def savedWord (w : QWord) : Nat :=
  w.slot % 2 + w.pc.toNat / 4 * 4 + w.seq % 2 ^ 64 * 2 ^ 64

/-- The 64-bit word `i` of the record's 256 (R325). -/
def RecSrc.word (r : RecSrc) (i : Nat) : Nat :=
  if i = 0 then tstatOf r.trap
  else if i = 1 then r.trap.seq
  else if i = 2 then r.trap.addr.toNat
  else if i = 3 then r.nextSeq
  else if i = 4 then r.s0.addr.toNat
  else if i = 5 then r.s0.mask.toNat
  else if i = 6 then r.s1.addr.toNat
  else if i = 7 then r.s1.mask.toNat
  else if i = 8 then b2n r.s0.valid + b2n r.s1.valid * 2
  else if i = 9 then gTeam r.g + gIdx r.g * 2 ^ 32
  else if i = 10 then r.trap.mask.toNat
  else if 11 ≤ i ∧ i < 19 then ((r.queue (i - 11)).map (·.seq)).headD r.nextSeq
  else if i = 19 then
    (List.range 8).foldl (fun a q => a + (r.queue q).length * 2 ^ (8 * q)) 0
  else if 32 ≤ i ∧ i < 160 then
    let q := (i - 32) / 16
    let k := (i - 32) % 16
    match (r.queue q)[k / 2]? with
    | some w => nbits (savedWord w) (64 * (k % 2) + 63) (64 * (k % 2))
    | none => 0
  else 0

/-- The record's 2,048 bytes. -/
def RecSrc.bytes (r : RecSrc) : List Byte := (List.range 256).flatMap fun i => toBytes 8 (r.word i)

/-- The record that a core holds for a running handler (R322). -/
def heldRec (s : State) (g : Nat) : Option RecSrc :=
  (grp s g).handler.map fun h => ⟨h.trap, g, h.nextSeq, h.s0, h.s1, h.saved⟩

/-! ### Traps and the return from a handler (R240, R241) -/

/-- TRAP and BKPT (R240): the trap is raised, and as it is delivered the word completes. -/
def trapRes (cls : Nat) (f : Flds) (_ : Cur) (s : State) : Res := .doneTrap cls f.imm s

/-- The rotation state in program order once some saved words have gone by (R29). -/
def planPast (ws : List QWord) (r : Rot) : Rot := ws.foldl (fun r w => planAfter w.instr r) r

/-- HRET (R241, R323): the slots and the mode come from the record that the core holds, and its saved words are to be
fetched again (R86); the next sequence number stays past HRET's own. It waits until every word of the handler has
started, so that the saved words stand before none in their queues (DESIGN CHOICE, log 141). -/
def hretRes (c : Cur) (s : State) : Res :=
  match (grp s c.g).handler with
  | none => .done s
  | some h =>
    if (queued (grp s c.g)).any fun w => decide (w.seq < c.w.seq) then waitFor c 0 s
    else
      .done (modGrp s c.g fun G =>
        { G with
          handler := none, s0 := h.s0, s1 := h.s1, turn := h.turn, supv := h.trap.pmode, refetch := h.saved
          plan := planPast h.saved (rotOf G) })

/-! ### System registers (R242) -/

/-- A system register's value (R242). -/
def sysReg (s : State) (g n : Nat) : Nat :=
  let G := grp s g
  let l := launchOf s g
  let P := pair s (pairOf s g)
  if 0x100 ≤ n ∧ n ≤ 0x1FF then
    (match heldRec s g with
      | some r => r.word (n - 0x100)
      | none => 0)
  else match n with
  | 0x000 => P.sealWin
  | 0x001 => l.tvec.toNat
  | 0x002 => G.tstat.toNat
  | 0x003 => G.tseq.toNat
  | 0x004 => G.taddr.toNat
  | 0x005 => G.trec.toNat
  | 0x010 => P.strikes
  | 0x011 => l.preads
  | 0x020 => l.partid
  | 0x021 => l.ctx
  | 0x030 => s.wakeReq
  | _ => s.gated

/-- SYSRD (R242). -/
def sysrdRes (f : Flds) (c : Cur) (s : State) : Res :=
  .done (uwrite c f.d (sysReg s c.g f.imm) s)

/-- A word that waits in the hold-back buffer for its seal, and completes as its effect is performed (R79, R242 to
R247); `dests` are the registers it writes then. -/
def sysHold (cmd : SysCmd) (dests : List Reg) (c : Cur) (s : State) : Res :=
  match holdRoom c 1 s with
  | some r => r
  | none => .fly (heldFlight c 7 dests) (hold c.g c.w.seq (.sys cmd) s)

/-- SYSWR (R242). -/
def syswrRes (f : Flds) (c : Cur) (s : State) : Res :=
  sysHold (.sysWr f.imm (uread s c.g f.a)) [] c s

/-- SEALWIN as a write leaves it (R242). -/
def sealWinOf (x : Nat) : Nat := max 256 (min 4096 (x / 32 * 32))

/-! ### Power (R243) -/

/-- WAKE (R243). -/
def wakeRes (f : Flds) (c : Cur) (s : State) : Res := sysHold (.wake (uread s c.g f.a)) [] c s
/-- GATE (R243): its result follows its seal, for which no handler waits (R324). -/
def gateRes (f : Flds) (c : Cur) (s : State) : Res :=
  if handlerStuck s c.g then trapAs c clsDouble 0 0 s else sysHold (.gate f.d (uread s c.g f.a)) [.u f.d] c s

/-- HALT (R243): it waits for a wake event of its core, which sets `aux`. -/
def haltRes (c : Cur) (s : State) : Res :=
  if c.w.stage = 1 ∧ c.w.aux = 1 then .done (resolve c (past c 4) s)
  else .wait { c.w with stage := 1, cause := 6 } s

/-- A waiting HALT that has been woken. -/
def haltWoken (w : QWord) : QWord :=
  match w.instr with
  | .halt _ => if w.stage = 1 then { w with aux := 1 } else w
  | _ => w

/-- A core receives a wake event (R243): its groups' HALT words may go on, and gating that has begun is
aborted (R343). -/
def wakeCore (k : Nat) (s : State) : State :=
  let awake (x : Nat × Group) : Nat × Group :=
    if coreOf s x.1 = k then (x.1, setQueue x.2 7 ((queueOf x.2 7).map haltWoken)) else x
  let s1 : State := { s with groups := s.groups.map awake, gating := setBits s.gating k k 0 }
  { s1 with wakeReq := setBits s1.wakeReq k k (b2n (s1.gated.testBit k)) }

/-- The cores of a mask receive a wake event; bit 32 names the whole array. -/
def wakeMask (x : Nat) (s : State) : State :=
  (List.range 34).foldl (fun s k => if x.testBit k || (x.testBit 32 && decide (k < 32)) then
    (if k < 32 then wakeCore k s else s) else s) s

/-- A core may be gated: it is not, and nothing resident, no unfinished card and no copy is on it (R243). -/
def idleCore (s : State) (k : Nat) : Bool :=
  !s.gated.testBit k && !s.gating.testBit k &&
  !(s.teams.any fun x => (x.2.core = k ||
    ((launch s (lkOfT x.1)).paired && x.2.core + 1 = k)) && (part s (lkOfT x.1) x.2.core).capture ≠ 3) &&
  !((core s k).jobs.any fun j => j.live) && (core s k).cmds.isEmpty

/-- The cores that a GATE begins to gate. -/
def gateMask (s : State) (own x : Nat) : Nat :=
  maskOf 32 fun k => x.testBit k && k ≠ own && idleCore s k

/-! ### Job control (R244 to R247) -/

/-- JOBARM (R244). -/
def jobarmRes (f : Flds) (c : Cur) (s : State) : Res :=
  sysHold (.jobArm (uread s c.g f.a % 4096) (uread s c.g f.b)) [] c s
/-- JOBDONE (R245): its time is taken as its quantum is sealed. -/
def jobdoneRes (c : Cur) (s : State) : Res := sysHold .jobDone [] c s
/-- JOBYLD (R245): the dispatcher parks the context at its next quantum end. -/
def jobyldRes (c : Cur) (s : State) : Res :=
  .done (askPreempt (lkOf c.g) (seatOf s c.g) s)
/-- SUSP (R246): it completes after resume, for which no handler waits (R324). -/
def suspRes (f : Flds) (c : Cur) (s : State) : Res :=
  let a := uread s c.g f.a
  if a % 4096 ≠ 0 then trapAs c clsMisalign 0 a s
  else if handlerStuck s c.g then trapAs c clsDouble 0 0 s
  else sysHold (.susp a) [] c s
/-- FLTRPLY (R247). -/
def fltrplyRes (f : Flds) (c : Cur) (s : State) : Res :=
  sysHold (.fltRply (uread s c.g f.a % 2 ^ 32) (uread s c.g f.b % 4)) [] c s

/-! ### The instructions -/

/-- TRAP (R240). -/
def execTrap (w : KW) (s : State) := word (.trap w) (trapRes clsSoft w.flds) s
/-- HRET (R241). -/
def execHret (w : SW) (s : State) := word (.hret w) hretRes s
/-- SYSRD (R242). -/
def execSysrd (w : XW) (s : State) := word (.sysrd w) (sysrdRes w.flds) s
/-- SYSWR (R242). -/
def execSyswr (w : XW) (s : State) := word (.syswr w) (syswrRes w.flds) s
/-- WAKE (R243). -/
def execWake (w : XW) (s : State) := word (.wake w) (wakeRes w.flds) s
/-- GATE (R243). -/
def execGate (w : XW) (s : State) := word (.gate w) (gateRes w.flds) s
/-- HALT (R243). -/
def execHalt (w : SW) (s : State) := word (.halt w) haltRes s
/-- BKPT (R240). -/
def execBkpt (w : KW) (s : State) := word (.bkpt w) (trapRes clsBkpt w.flds) s
/-- JOBARM (R244). -/
def execJobarm (w : XW) (s : State) := word (.jobarm w) (jobarmRes w.flds) s
/-- JOBDONE (R245). -/
def execJobdone (w : SW) (s : State) := word (.jobdone w) jobdoneRes s
/-- JOBYLD (R245). -/
def execJobyld (w : SW) (s : State) := word (.jobyld w) jobyldRes s
/-- SUSP (R246). -/
def execSusp (w : XW) (s : State) := word (.susp w) (suspRes w.flds) s
/-- FLTRPLY (R247). -/
def execFltrply (w : XW) (s : State) := word (.fltrply w) (fltrplyRes w.flds) s

end Sys2Proof.Machine
end

