-- ==== Sys2Proof/Machine/Rollback.lean ====
section
/-!
DEFINITION. Sys2Proof/Machine/Rollback.lean: the rollback of unsealed quanta (R332), the kill of a context
(R330), the freeing of what a launch holds, and the end of an instance (R303, R304, R327).
-/
namespace Sys2Proof.Machine

/-! ### Rolling groups back (R332) -/

/-- Groups with the sequence number that each returns to. -/
abbrev Bounds := NMap Nat

/-- A word lies at or past its group's boundary. -/
def undone (B : Bounds) (g seq : Nat) : Bool :=
  match nfind B g with
  | some b => decide (b ≤ seq)
  | none => false

/-- The slots just before a boundary: those of the quantum it opens. -/
def snapOfBound (G : Group) (b : Nat) : Snap :=
  match (G.sealedQ ++ G.closed).find? fun q => q.lo = b with
  | some q => q.snap
  | none => if G.qlo = b then G.qsnap else snapAt G b

/-- The quantum number that a boundary opens. -/
def numOfBound (G : Group) (b : Nat) : Nat :=
  match (G.sealedQ ++ G.closed).find? fun q => q.lo = b with
  | some q => q.num
  | none => G.qnum

/-- A group stands at its boundary again, with none of its words from there on in its queues. -/
def resetGroup (b : Nat) (G : Group) : Group :=
  let p := snapOfBound G b
  { G with
    s0 := p.s0, s1 := p.s1, turn := p.turn, plan := p.rot
    nextSeq := b
    queues := (G.queues.map fun x => (x.1, x.2.filter fun w => decide (w.seq < b))).filter fun x => !x.2.isEmpty
    refetch := G.refetch.filter fun w => decide (w.seq < b)
    flights := G.flights.filter fun f => f.seq < b
    marks := []
    qnum := numOfBound G b, qlo := b, qsnap := p
    snaps := [], qret := 0
    closed := G.closed.filter fun q => q.hi ≤ b
    sealedQ := G.sealedQ.filter fun q => q.hi ≤ b
    raised := G.raised.filter fun t => decide (t.seq < b)
    supv := match G.handler with
      | some h => h.trap.pmode
      | none => G.supv
    handler := none
    fetchAns := [], waitCause := 0, yielded := false
    retired := !p.s0.valid && !p.s1.valid && G.depth = 0 && !(G.flights.any fun f => decide (f.seq < b)) &&
      !((unstarted G).any fun w => decide (w.seq < b)) }

/-- Link words' locks of waiting receives that are undone. -/
def undoneLinkLocks (s : State) (B : Bounds) : List (Nat × Nat) :=
  B.flatMap fun x => ((unstarted (grp s x.1)).filter fun w => decide (x.2 ≤ w.seq) && engOf w.instr = 6 && w.stage = 1).map
    fun w => (coreOf s x.1, w.aux)

/-- Commands of undone words that have no sealed quantum. -/
def cancelCmds (B : Bounds) (s : State) : State :=
  { s with cores := s.cores.map fun x =>
      let gone := (x.2.cmds.filter fun c => !c.batch && undone B c.g c.seq).map (·.id)
      (x.1, { x.2 with
        cmds := x.2.cmds.filter fun c => !gone.contains c.id
        locks := x.2.locks.filter fun k => k.kind = 2 || !gone.contains k.id
        watches := (x.2.watches.filter fun w => !undone B w.g w.seq).map fun w =>
          match w.dead with
          | some (g, q) => if undone B g q then { w with dead := none } else w
          | none => w }) }

/-- Port entries pushed by undone words go, and entries they consumed return (R229); those already freed are to be pushed
again without effect (R227). -/
def undoPorts (B : Bounds) (s : State) : State :=
  { s with
    ports := s.ports.map fun x =>
      let back := x.2.freed.filter fun y => undone B y.1 y.2
      (x.1,
      { x.2 with
        parts := x.2.parts.filter fun p => !undone B p.src p.seq
        taken := x.2.taken.filter fun q => !undone B (x.1 / 8) q
        freed := x.2.freed.filter fun y => !undone B y.1 y.2
        again := back.foldl (fun m y => nset 0 m y.1 (nget 0 m y.1 + 1)) x.2.again })
    outParts := s.outParts.filter fun o => o.sent || !undone B o.part.src o.part.seq }

/-- Link messages of undone words are cancelled, and received ones return (R232). -/
def undoMsgs (B : Bounds) (s : State) : State :=
  let own (m : Msg) : Bool := m.sdev = deviceNo s && m.stage = 0 && undone B m.src m.seq
  let s1 := (s.msgs.filter own).foldl (fun s m => linkUnlock m.core m.lock s) s
  { s1 with msgs := (s1.msgs.filter fun m => !own m).map fun m =>
      match m.taken with
      | some q => if m.ddev = deviceNo s && undone B m.dst q then { m with taken := none } else m
      | none => m }

/-- Operator cards (R332, R187): those of undone XRUN words go, with their handle counts; an undone XKILL has not
happened. -/
def undoJobs (B : Bounds) (s : State) : State :=
  let gone (j : Job) : Bool := !j.chain && undone B j.g j.seq
  let s1 := s.cores.foldl (fun s x => (x.2.jobs.filter gone).foldl (fun s j =>
    modLaunch s j.lk fun l => { l with handles := nput l.handles j.hcore (nget 0 l.handles j.hcore - 1) }) s) s
  { s1 with cores := s1.cores.map fun x => (x.1, { x.2 with
      jobs := (x.2.jobs.filter fun j => !gone j).map fun j =>
        match j.killBy with
        | some (g, q) =>
          if undone B g q then
            { j with killBy := none, killed := false, st := if j.killed then (if j.desc.isNone then 0 else 1) else j.st }
          else j
        | none => j }) }

/-- A command stands on a core or in a saved context. -/
def cmdStands (s : State) (id : Nat) : Bool :=
  (s.cores.any fun x => x.2.cmds.any fun c => c.id = id) || s.savedParts.any fun x => x.2.cmds.any fun c => c.id = id

/-- Fault records of undone words and of cancelled copies stop being outstanding (R332). One that still waits for a full
ring is not written any more: the work that raised it writes a new one where it meets the fault again (DESIGN CHOICE,
log 143: R9 drops no record of work that stands, and R332 speaks of written ones). -/
def undoFaults (B : Bounds) (s : State) : State :=
  let live (r : FaultRec) : Bool := match r.owner with
    | .lane g q _ => !undone B g q
    | .fetch g _ => (nfind B g).isNone
    | .chunk id _ _ _ => cmdStands s id
    | .credit id => cmdStands s id
    | .job hc id _ => (s.cores.any fun x => x.2.jobs.any fun j => j.lk / 2 = r.job && j.hcore = hc && j.id = id) ||
        s.savedParts.any fun x => x.2.jobs.any fun j => j.lk / 2 = r.job && j.hcore = hc && j.id = id
  { s with faults := s.faults.filter live, outFaults := s.outFaults.filter live }

/-- Every granule of the stash windows of a pair's teams is unfilled (R162). -/
def unfillTeams (pr : Nat) (s : State) : State :=
  { s with teams := s.teams.map fun x => if x.2.core / 2 = pr then (x.1, { x.2 with fill0 := [], fill1 := [] }) else x }

/-- Roll groups of one pair back to their boundaries (R332 steps 1 to 4 and 6). -/
def rollGroups (pr : Nat) (B : Bounds) (s : State) : State :=
  let locks := undoneLinkLocks s B
  let s1 := undoJournal pr (fun u => !u.keep && undone B u.g u.seq) s
  let s2 := modPair s1 pr fun P =>
    { P with
      hb := P.hb.filter fun h => match h.what with
        | .output .. => true
        | .image .. => true
        | _ => !undone B h.g h.seq
      tw := P.tw.filter fun t => !undone B t.g t.seq }
  let s3 := undoMsgs B (undoPorts B (cancelCmds B s2))
  let s4 := undoFaults B (undoJobs B (locks.foldl (fun s x => linkUnlock x.1 x.2 s) s3))
  let s5 := B.foldl (fun s x => modGrp s x.1 (resetGroup x.2)) s4
  unfillTeams pr (restash (2 * pr + 1) (restash (2 * pr) s5))

/-- The first sequence number of a group that no sealed quantum holds (R332). -/
def oldestUnsealed (G : Group) : Nat := sealedBelow G

/-- Every group on a pair, parked or not. -/
def allOn (s : State) (pr : Nat) : List Nat :=
  (s.groups.filter fun x => pairOf s x.1 = pr && (part s (lkOf x.1) (seatOf s x.1)).capture < 3).map (·.1)

/-- The walkers' cards of a pair return to the first step whose outputs belong to the pair's quantum `q` or a later
one, of those not sealed (R332 step 5, R355); a step in progress begins again. A card that had stopped at a checkpoint
runs again up to there (R413), and one that had ended or failed runs again from that step on. -/
def rollJobs (pr q : Nat) (s : State) : State :=
  let late (h : HB) : Bool := !h.sealed && decide (q ≤ h.seq)
  let outs := (pair s pr).hb.filterMap fun h => match h.what with
    | .output lk key step .. => if late h then some (h.core, lk, key, step) else none
    | _ => none
  let back (j : Job) : Job :=
    let steps := (outs.filter fun o => o.2.1 = j.lk && o.2.2.1 = j.key).map (·.2.2.2)
    let j := if j.parked then Job.turnClock s.now { j with parked := false, redo := j.pos } else j
    match steps with
    | [] => { j with stage := 0 }
    | x :: xs => { j with pos := xs.foldl min x, stage := 0, st := if 2 ≤ j.st then 1 else j.st, err := 0, killed := false }
  let s1 := [2 * pr, 2 * pr + 1].foldl (fun s k => modJobs k (List.map back) s) s
  modPair s1 pr fun P => { P with hb := P.hb.filter fun h => match h.what with
    | .output .. => !late h
    | .image .. => !late h
    | _ => true }

/-- Captures in progress on a pair begin again (R308 step 4). -/
def undoCapture (pr : Nat) (s : State) : State :=
  s.launches.foldl (fun s x =>
    x.2.parts.foldl (fun s p =>
      if p.1 / 2 = pr && (p.2.capture = 1 || p.2.capture = 2) then
        let s1 := modPart x.1 p.1 (fun q => { q with capture := 0 }) s
        let here (y : Nat × Group) : Bool := lkOf y.1 = x.1 && seatOf s1 y.1 = p.1
        { s1 with
          groups := s1.groups.map fun y => if here y then (y.1, { y.2 with parked := false }) else y
          savedParts := s1.savedParts.filter fun y => !(y.1 / 64 = x.1 && (y.1 % 64) / 2 = pr) }
      else s) s) s

/-- The boundary of a group at the opening of its pair's quantum `q`. -/
def boundOf (G : Group) (q : Nat) : Nat :=
  match G.closed.find? fun x => q ≤ x.pq with
  | some x => x.lo
  | none => G.qlo

/-- The pair's quantum that holds the trapping word of a group's handler (R322); the open one where none does. -/
def handlerQuantum (s : State) (g : Nat) : Nat :=
  let G := grp s g
  let P := pair s (pairOf s g)
  match G.handler with
  | none => P.qn
  | some h => ((quantumIn G h.trap.seq).map (·.pq)).getD P.qn

/-- A pre-emption that was decided in a quantum that has rolled back is due at the first close from here on (R308). -/
def lowerAsks (pr : Nat) (s : State) : State :=
  let n := (pair s pr).qn
  { s with launches := s.launches.map fun x => (x.1, { x.2 with
      parts := x.2.parts.map fun p => if p.1 / 2 = pr then (p.1, { p.2 with atQ := min p.2.atQ n }) else p }) }

/-- Roll a pair back to the opening of its quantum `q`, or of an earlier one that holds the trapping word of a
handler (R308, R322, R332). -/
def rollTo (pr q0 : Nat) (s0 : State) : State :=
  let s := undoCapture pr s0
  let q := ((allOn s pr).map (handlerQuantum s)).foldl min q0
  let B : Bounds := (allOn s pr).foldl (fun m g => nput m g (boundOf (grp s g) q)) []
  lowerAsks pr (modPair (rollJobs pr q (rollGroups pr B s)) pr fun P =>
    { P with openAt := s.now, qn := min q P.qn, pqs := P.pqs.filter fun x => x.1 < q })

/-- Roll every unsealed quantum of a pair back (R332, R333); a group that
`toCommit` names returns to its last committed epoch (R309, R341). -/
def rollPair (pr : Nat) (toCommit : Nat → Bool) (s : State) : State :=
  let low (g : Nat) : Nat :=
    let G := grp s g
    match G.sealedQ with
    | q :: _ => if toCommit g then q.lo else oldestUnsealed G
    | [] => oldestUnsealed G
  let B : Bounds := (allOn s pr).foldl (fun m g => nput m g (low g)) []
  let s1 := rollJobs pr 0 (rollGroups pr B (undoCapture pr s))
  lowerAsks pr (modPair s1 pr fun P =>
    { P with openAt := s.now, qn := ((P.pqs.map (·.1)).headD P.qn), pqs := [] })

/-! ### Freeing and killing (R330) -/

/-- A launch's groups. -/
def groupsOfLaunch (s : State) (lk : Nat) : List Nat := (s.groups.filter fun x => lkOf x.1 = lk).map (·.1)

/-- Drop a launch's locks, commands, watches and, with `jobs`, its cards. -/
def dropEngines (lk : Nat) (jobs : Bool) (s : State) : State :=
  let ids := s.cores.flatMap fun x => (x.2.cmds.filter fun c => c.lk = lk).map (·.id)
  let ml := (s.msgs.filter fun m => m.sdev = deviceNo s && lkOf m.src = lk).map (·.lock)
  let mine (k : Lock) : Bool :=
    ids.contains k.id && k.kind ≠ 2 || ml.contains k.id && k.kind ≠ 2 ||
      (k.space = 1 && lkOfT k.own = lk) || (k.space = 2 && k.own = lk) || (k.kind = 2 && lkOfT k.id = lk)
  { s with cores := s.cores.map fun x => (x.1, { x.2 with
      cmds := x.2.cmds.filter fun c => c.lk ≠ lk
      locks := x.2.locks.filter fun k => !mine k
      watches := x.2.watches.filter fun w => lkOf w.g ≠ lk
      jobs := if jobs then x.2.jobs.filter fun j => j.lk ≠ lk else x.2.jobs }) }

/-- Remove a launch and all it holds; its sealed entries have performed. -/
def freeLaunch (lk : Nat) (s : State) : State :=
  let s1 := dropEngines lk true s
  { s1 with
    groups := s1.groups.filter fun x => lkOf x.1 ≠ lk
    teams := s1.teams.filter fun x => lkOfT x.1 ≠ lk
    launches := ndel s1.launches lk
    savedParts := s1.savedParts.filter fun x => x.1 / 64 ≠ lk
    ports := s1.ports.filter fun x => lkOf (x.1 / 8) ≠ lk
    outParts := s1.outParts.filter fun o => lkOf o.part.src ≠ lk
    msgs := s1.msgs.filter fun m =>
      !(m.sdev = deviceNo s && lkOf m.src = lk && m.stage = 0) && !(m.ddev = deviceNo s && lkOf m.dst = lk) }

/-- The steps of R330 for one launch. Its fault records end, those too that still wait for a full ring (DESIGN CHOICE,
log 143). A port entry or link message of a sealed quantum may still leave until the context is freed. -/
def killLaunch (lk : Nat) (s : State) : State :=
  let B : Bounds := (groupsOfLaunch s lk).foldl (fun m g => nput m g 0) []
  -- unsealed entries and copies that belong to no sealed work go; sealed entries drain
  let s1 := { s with pairs := s.pairs.map fun x => (x.1, { x.2 with
      hb := x.2.hb.filter fun h => h.sealed || !(match h.what with
        | .output l .. => l = lk
        | .image .. => lkOf h.g = lk
        | _ => lkOf h.g = lk && (nfind B h.g).isSome)
      tw := x.2.tw.filter fun t => lkOf t.g ≠ lk
      journal := x.2.journal.filter fun u => u.keep || lkOf u.g ≠ lk }) }
  let s2 := dropEngines lk false s1
  let stopG (x : Nat × Group) : Nat × Group :=
    if lkOf x.1 = lk then
      (x.1, { x.2 with
        parked := true, queues := [], refetch := [], marks := [], flights := [], raised := none,
        handler := none, closed := [], sealedQ := [] })
    else x
  let stopJ (j : Job) : Job := if j.lk = lk && j.live then { j with st := 3, killed := true, recs := [] } else j
  let stopC (x : Nat × Core) : Nat × Core := (x.1, { x.2 with jobs := x.2.jobs.map stopJ })
  let s3 : State := { s2 with
    groups := s2.groups.map stopG
    cores := s2.cores.map stopC
    ports := s2.ports.filter fun x => lkOf (x.1 / 8) ≠ lk
    outParts := s2.outParts.filter fun o => lkOf o.part.src ≠ lk || o.sent || released s o.part.src o.part.seq
    msgs := s2.msgs.filter fun m => !(m.ddev = deviceNo s && lkOf m.dst = lk) &&
      !(m.sdev = deviceNo s && lkOf m.src = lk && m.stage = 0 && !released s m.src m.seq) }
  let live (r : FaultRec) : Bool := r.job ≠ lk / 2
  { s3 with faults := s3.faults.filter live, outFaults := s3.outFaults.filter live }

/-- Records of some duties of a card have nothing to answer any more: they are still written and still hold their
tag, but a reply to them does nothing but count (R9, R320; DESIGN CHOICE, logs 97 and 98: the spec does not say what
becomes of the records of a disarmed card or of an instance that is over). -/
def endDuties (n : Nat) (kinds : List Nat) (s : State) : State :=
  { s with duties := s.duties.map fun d => if d.card = n && kinds.contains d.kind then { d with dead := true } else d }

/-- Kill every context of a card's instance (R330). -/
def killCard (n : Nat) (k : Kill) (s : State) : State :=
  if (run s n).kill.isSome then s
  else
    modRun n (fun R => { R with kill := some k }) (endDuties n [1, 4] (killLaunch (2 * n + 1) (killLaunch (2 * n) s)))

/-- The card has an instance in progress: ready, running or parked. -/
def inInstance (s : State) (n : Nat) : Bool := decide (3 ≤ cState s n)

/-! ### The end of an instance (R303, R304) -/

/-- Make a card ready: its instance begins (R303, R304, R328, R329). -/
def makeReady (n rel absDl : Nat) (s : State) : State :=
  let s1 := setCardFld n 7 4 3 (setCardFld n 767 736 0 (setCardFld n 22 22 0 s))
  let R := run s1 n
  let s2 := { s1 with runs := nput s1.runs n { R with
    rel := rel, absDl := absDl, pend := none, missed := R.pendMissed, pendMissed := false, jobDone := none, attempts := 0,
    replayed := false,
    replayAsk := false, rolls := 0, preads := 0, ran := 0, usedNs := 0, chargedAt := s.now, overran := false,
    demoted := false, kill := none, issued := 0, placeMask := none, placeAsk := false } }
  -- the copied bits of the snapshot set are cleared at each release
  if cSnap s n = 0 then s2
  else
    let bm := R.shadow + 4096 * snapPages R.ranges
    (List.range (ceilDiv (snapPages R.ranges) 8)).foldl (fun s i =>
      let r := cardXlate s n (bm + i) .write
      match r.1 with
      | some pa => l2Write pa [0] (cPartid s n) r.2
      | none => r.2) s2

/-- The card leaves its instance: INSTANCE counts up, and the card goes to its pending release, to armed or to
idle (R303, R304). -/
def leaveInstance (n : Nat) (s : State) : State :=
  let R := run s n
  let s1 := setCardFld n 383 352 (cInstance s n + 1)
    (modRun n (fun R => { R with kill := none, replayAsk := false }) (endDuties n [1, 2, 4] s))
  match R.pend, (reg s rDctl).testBit 0 && s.susp.begun = 0 with
  | some (rel, dl), true => makeReady n rel dl s1
  | p, _ =>
    if p.isSome || (cPeriod s n ≠ 0 && !R.disarmed) then setCardFld n 7 4 2 s1 else toIdle n s1

/-- The counts that records carry, taken from the launch before it is freed. -/
def tally (n : Nat) (s : State) : State :=
  let pr := (launch s (2 * n)).preads + (launch s (2 * n + 1)).preads
  modRun n (fun R => { R with preads := R.preads + pr }) s

/-- Free an instance's launches. -/
def freeCard (n : Nat) (s : State) : State := freeLaunch (2 * n + 1) (freeLaunch (2 * n) (tally n s))

/-- An instance completes: its record with EVENT 0, then the card leaves it (R303). -/
def completeCard (n : Nat) (s : State) : State := leaveInstance n (freeCard n (writeRecord n (instRec s n 0 0) s))

/-- An instance fails to the host or is aborted, with its class or cause (R298, R327). -/
def failCard (n event cls : Nat) (s : State) : State :=
  leaveInstance n (writeRecord n (instRec s n event cls) s)

/-- Copy back every shadow page whose copied bit is set (R328). -/
def restoreSnapshot (n : Nat) (s : State) : State :=
  let R := run s n
  if cSnap s n = 0 then s
  else
    let pages := R.ranges.flatMap fun r => (List.range r.2).map fun i => r.1 + i
    pages.zipIdx.foldl (fun s x =>
      let b := cardXlate s n (R.shadow + 4096 * snapPages R.ranges + x.2 / 8) .read
      match b.1 with
      | none => b.2
      | some bpa =>
        let s1 := l2Fill bpa (cPartid s n) false b.2
        if !((busRead s1 bpa 1).getD 0).testBit (x.2 % 8) then s1
        else
          let f := cardXlate s1 n (R.shadow + 4096 * x.2) .read
          let t := cardXlate f.2 n (4096 * x.1) .write
          match f.1, t.1 with
          | some fpa, some tpa => copyPage tpa fpa (cPartid s n) t.2
          | _, _ => t.2) s

/-- The replay of an instance: its pages are restored, and it is placed again from its start (R327, R328). -/
def replayCard (n : Nat) (s : State) : State :=
  let s1 := restoreSnapshot n s
  setCardFld n 7 4 3 (modRun n (fun R => { R with
    kill := none, replayAsk := false, attempts := R.attempts + 1, replayed := true, issued := 0, placeMask := none,
    placeAsk := false }) s1)

/-- A failed instance may be replayed (R327). -/
def mayReplay (s : State) (n cls cause : Nat) : Bool :=
  (cls = 5 || (cls = 3 && cause = 8) || cls = 12) && !(launch s (2 * n)).cont && !cExtEff s n &&
    decide ((run s n).attempts < cardFld s n 31 30)

/-- The kill that follows a host delivery (R327). -/
def killFor (s : State) (n cls cause : Nat) : Kill :=
  { event := 5, cls := cls, cores := (run s n).ran, replay := mayReplay s n cls cause }

/-- Nothing of a killed card is left to perform (R330). -/
def drained (s : State) (n : Nat) : Bool :=
  !(s.pairs.any fun x => x.2.hb.any fun h => match h.what with
    | .output l .. => l / 2 = n
    | _ => lkOf h.g / 2 = n)

/-- A kill completes (R327, R330): resources are freed, then the record or the replay follows. -/
def killDone (n : Nat) (s : State) : State :=
  match (run s n).kill with
  | none => s
  | some k =>
    if !drained s n then s
    else
      let s1 := freeCard n s
      -- a sealed write that performed during the kill may have set EXTEFF
      if !k.replay || cExtEff s1 n then failCard n k.event k.cls s1
      else if dutyHw s (cardFld s n 27 26) 2 then replayCard n s1
      else if (run s n).replayAsk then s1
      else askDuty { kind := 2, card := n, inst := cInstance s n, cores := k.cores, time := s.now,
                     arg0 := (run s n).attempts + 1 } (modRun n (fun R => { R with replayAsk := true }) s1)

/-- A trap delivered to the host reaches the dispatcher (R327): where TVEC is set the trap record is written
first (R325). -/
def hostDeliver (lk : Nat) (s : State) : State :=
  let l := launch s lk
  match l.hostTrap with
  | none => s
  | some (g, t) =>
    if l.killed then s
    else
      let G := grp s g
      let r : RecSrc := ⟨t, g, G.nextSeq, G.s0, G.s1, sortWords (unstarted G)⟩
      let at0 := l.tvec.toNat + 256
      let s1 :=
        if l.tvec = 0 then s
        else (List.range 32).foldl (fun s i =>
          putVirtual lk (at0 + 64 * i) ((List.range 8).flatMap fun k => toBytes 8 (r.word (8 * i + k))) s) s
      let s2 := modLaunch s1 lk fun l => { l with killed := true }
      killCard (lk / 2) { killFor s (lk / 2) t.cls t.cause with cores := 2 ^ coreOf s g } s2

end Sys2Proof.Machine
end

