-- ==== Sys2Proof/Machine/Place.lean ====
section
/-!
DEFINITION. Sys2Proof/Machine/Place.lean: the dispatcher's decisions (R305 to R312): which contexts fit where,
carves, placement and restore, and the pre-emptions it decides; the charges of R316.
-/
namespace Sys2Proof.Machine

/-! ### What a core holds (R15, R168, R306) -/

/-- The teams resident on a core: those of contexts that are not saved. -/
def teamsOn (s : State) (c : Nat) : List Nat :=
  (s.teams.filter fun x =>
    (coresOf (launch s (lkOfT x.1)) x.2.core).contains c && (part s (lkOfT x.1) x.2.core).capture ≠ 3).map (·.1)

/-- Register bytes, local KiB and lanes in use on a core. -/
def usedReg (s : State) (c : Nat) : Nat := ((teamsOn s c).map fun t => teamRegBytes (launch s (lkOfT t))).sum
def usedLoc (s : State) (c : Nat) : Nat :=
  ((teamsOn s c).map fun t => (launch s (lkOfT t)).localBytes / 1024).sum
def usedWidth (s : State) (c : Nat) : Nat :=
  ((teamsOn s c).map fun t => let l := launch s (lkOfT t); l.perCore * l.width).sum

/-- The windows on a core. -/
def winsOn (s : State) (c : Nat) : List Win := s.launches.filterMap fun x => nfind x.2.wins c

/-- The lowest free run of `n` units of `total` beside the runs in use. -/
def freeRun (occ : List (Nat × Nat)) (n total : Nat) : Option Nat :=
  if n = 0 then some 0
  else
    let fits (a : Nat) : Bool := decide (a + n ≤ total) && !(occ.any fun o => overlaps o.1 (o.1 + o.2) a n)
    ((0 :: occ.map fun o => o.1 + o.2).filter fits).foldl (fun a x => match a with
      | none => some x
      | some y => some (min x y)) none

/-- Windows of the given sizes on a core. -/
def winFor (s : State) (c rows bytes : Nat) : Option Win :=
  let ws := winsOn s c
  match freeRun (ws.map fun w => (w.acc, w.accN)) rows (rowsOf c),
      freeRun (ws.map fun w => (w.wb, w.wbN)) bytes (wbOf c) with
  | some a, some b => some ⟨a, rows, b, bytes⟩
  | _, _ => none

/-- A core may take work now: boot is over (R389, log 154), it is not drained for a scan, not held in reset, and powered. -/
def coreOpen (s : State) (c : Nat) : Bool :=
  decide (7 ≤ s.island.stage) && !(s.scans.any fun x => x.core = c && decide (x.stage < 2)) &&
    !(s.island.coresHeld && decide (c < 32)) && !s.gated.testBit c

/-- `k` teams of a launch fit beside what one core holds (R306). -/
def fitsMany (s : State) (lk k c : Nat) (l : Launch) : Bool :=
  let C := core s c
  let ts := teamsOn s c
  coreOpen s c && decide (l.l1Kib ≤ C.l1) && decide (usedReg s c + k * teamRegBytes l ≤ C.rf * 1024) &&
    decide (usedLoc s c + k * (l.localBytes / 1024) ≤ C.loc) &&
    decide (usedWidth s c + k * l.perCore * l.width ≤ 4096) &&
    (if l.det then ts.all (fun t => lkOfT t = lk) && decide ((ts.length + k) * l.perCore ≤ l.gmax)
      else ts.all fun t => !(launch s (lkOfT t)).det) &&
    ((nfind (launch s lk).wins c).isSome || (winFor s c l.accRows l.wbBytes).isSome)

/-- An empty core is carved for `k` teams (R306, R266). -/
def carve (c k : Nat) (l : Launch) (s : State) : State :=
  let v := carveFor c l k
  modCore s c fun C => { C with rf := v.1, loc := v.2.1, l1 := v.2.2 }

/-! ### Contexts that start, leave and return (R40, R41, R307, R308) -/

/-- Give a context its windows on its cores, and name it. -/
def openPart (lk c capture rows bytes : Nat) (s : State) : State :=
  let cs := coresOf (launch s lk) c
  let s1 := cs.foldl (fun s k =>
    if (nfind (launch s lk).wins k).isSome then s
    else match winFor s k rows bytes with
    | some w => modLaunch s lk fun l => { l with wins := nput l.wins k w }
    | none => s) s
  let s2 := modPart lk c (fun p => { p with capture := capture }) s1
  let s3 := cs.foldl (fun s k => wakeCore k s) s2
  modRun (lk / 2) (fun R => { R with
    ran := cs.foldl (fun m k => m ||| 2 ^ k) R.ran
    prov := cs.foldl (fun m k => nput m k (cInstance s (lk / 2))) R.prov }) s3

/-- A group at its start (R21, R24, R25, R38). -/
def startGroup (now : Nat) (l : Launch) : Group :=
  let s0 : Slot := ⟨BitVec.ofNat 64 l.entry, BitVec.ofNat 64 (2 ^ l.width - 1), true, false⟩
  { s0 := s0
    u := (List.range 8).foldl (fun m i => nset 0 m i (BitVec.ofNat 64 (l.arg i))) []
    blocks := l.regBlocks
    issuedAt := now
    supv := l.supv
    qsnap := { s0 := s0 } }

/-- A team at its start (R24, R26, R210). -/
def startTeam (l : Launch) (c : Nat) : Team :=
  { core := c
    bars := (List.range 16).foldl (fun m i => nput m i (BitVec.ofNat 32 (barMake l.ngroups l.ngroups 0))) [] }

/-- Place one team of a launch on a core, or on the pair it names. -/
def placeTeam (lk t c : Nat) (s : State) : State :=
  let l := launch s lk
  let tk := (lk / 2 * 2 ^ 24 + t) * 2 + lk % 2
  let s1 := openPart lk c 0 l.accRows l.wbBytes s
  let s2 := setTeam { s1 with nextId := s1.nextId + 1 } tk { startTeam l c with order := s1.nextId }
  let s3 := (List.range l.ngroups).foldl (fun s i => setGrp s (gKey (lk / 2) t i (lk % 2)) (startGroup s.now l)) s2
  modLaunch s3 lk fun l => { l with placed := max l.placed (t + 1) }

/-- The global words and commands of a context's launch on a core. -/
def Cmd.onPart (lk : Nat) (x : Cmd) : Bool := x.lk = lk

/-- What of a core belongs to a launch moves to its saved context (R40, R310, R312). -/
def savePart (lk k : Nat) (s : State) : State :=
  let C := core s k
  let w := winOf s lk k
  let cmds := C.cmds.filter fun x => x.lk = lk
  let gs := (s.groups.filter fun x => lkOf x.1 = lk).map (·.2)
  -- the locks of its copies, and of its link words and messages
  let ids := cmds.map (·.id) ++
    (gs.flatMap fun G => ((unstarted G).filter fun x => engOf x.instr = 6 && x.stage = 1).map (·.aux)) ++
    (s.msgs.filter fun m => m.sdev = deviceNo s && lkOf m.src = lk).map (·.lock)
  let mineL (x : Lock) : Bool := x.kind ≠ 2 && ids.contains x.id
  let mineW (x : Watch) : Bool := lkOf x.g = lk
  let inAcc (n : Nat) : Bool := decide (w.acc ≤ n) && decide (n < w.acc + w.accN)
  let inWb (n : Nat) : Bool := decide (w.wb ≤ n) && decide (n < w.wb + w.wbN)
  let P : SavedPart :=
    { rows := (C.rows.filter fun x => inAcc x.1).map fun x => (x.1 - w.acc, x.2)
      wb := (C.wb.filter fun x => inWb x.1).map fun x => (x.1 - w.wb, x.2)
      wpois := (C.wpois.filter fun x => inWb (64 * x.1)).map fun x => (x.1 - w.wb / 64, x.2)
      locks := C.locks.filter mineL
      cmds := cmds
      watches := C.watches.filter mineW
      jobs := C.jobs.filter fun j => j.lk = lk
      written := (nget {} s.savedParts (lk * 64 + k)).written
      slot := k }
  let s1 := { s with savedParts := nput s.savedParts (lk * 64 + k) P }
  modCore s1 k fun C => { C with
    locks := C.locks.filter fun x => !mineL x
    cmds := C.cmds.filter fun x => x.lk ≠ lk
    watches := C.watches.filter fun x => !mineW x
    jobs := C.jobs.filter fun j => j.lk ≠ lk }

/-- A saved context's contents return to a core (R41, R162, R312). -/
def loadPart (lk k : Nat) (s : State) : State :=
  match nfind s.savedParts (lk * 64 + k) with
  | none => s
  | some P =>
    let w := winOf s lk k
    let s1 := modCore s k fun C => { C with
      rows := P.rows.foldl (fun m x => nset {} m (w.acc + x.1) x.2)
        (C.rows.filter fun x => !(decide (w.acc ≤ x.1) && decide (x.1 < w.acc + w.accN)))
      wb := P.wb.foldl (fun m x => nset 0 m (w.wb + x.1) x.2)
        (C.wb.filter fun x => !(decide (w.wb ≤ x.1) && decide (x.1 < w.wb + w.wbN)))
      wpois := P.wpois.foldl (fun m x => nset false m (w.wb / 64 + x.1) x.2)
        (C.wpois.filter fun x => !(decide (w.wb ≤ 64 * x.1) && decide (64 * x.1 < w.wb + w.wbN)))
      locks := C.locks ++ P.locks
      cmds := C.cmds ++ P.cmds.map (fun x => { x with core := k })
      watches := C.watches ++ P.watches
      jobs := C.jobs ++ P.jobs }
    { s1 with savedParts := ndel s1.savedParts (lk * 64 + k) }

/-- The teams of a context. -/
def teamsOfPart (s : State) (lk c : Nat) : List Nat :=
  (s.teams.filter fun x => lkOfT x.1 = lk && x.2.core = c).map (·.1)

/-- A saved context begins its restore on core `c`: its name, its teams and its saved contents move there. -/
def restoreTo (lk old c rows bytes : Nat) (s : State) : State :=
  let ts := teamsOfPart s lk old
  let cs := (coresOf (launch s lk) old).zip (coresOf (launch s lk) c)
  let s1 := ts.foldl (fun s t =>
    modTeam { s with nextId := s.nextId + 1 } t fun T => { T with core := c, order := s.nextId }) s
  let s2 := modLaunch s1 lk fun l => { l with parts := ndel l.parts old }
  let move (m : NMap SavedPart) (x : Nat × Nat) : NMap SavedPart :=
    match nfind m (lk * 64 + x.1) with
    | some P => nput (ndel m (lk * 64 + x.1)) (lk * 64 + x.2) P
    | none => m
  let s3 := { s2 with savedParts := cs.foldl move s2.savedParts }
  openPart lk c 4 rows bytes s3

/-! ### Ranks (R305) -/

/-- The priority level in force: BUDACT may have demoted the instance (R295, R316). -/
def level (s : State) (n : Nat) : Nat := if (run s n).demoted then 2 else cPrio s n

/-- Card `a` ranks before card `b`. -/
def ranksBefore (s : State) (a b : Nat) : Bool :=
  let x := (level s a, (run s a).absDl, a)
  let y := (level s b, (run s b).absDl, b)
  decide (x.1 < y.1) || (x.1 = y.1 && (decide (x.2.1 < y.2.1) || (x.2.1 = y.2.1 && decide (x.2.2 < y.2.2))))

/-- Level and deadline alone put `a` strictly before `b`: what a pre-emption asks for. -/
def outranks (s : State) (a b : Nat) : Bool :=
  decide (level s a < level s b) || (level s a = level s b && decide ((run s a).absDl < (run s b).absDl))

/-- Cards in rank order. -/
def insertCard (s : State) (n : Nat) : List Nat → List Nat
  | [] => [n]
  | x :: xs => if ranksBefore s n x then n :: x :: xs else x :: insertCard s n xs
def rankedCards (s : State) : List Nat :=
  ((s.cards.map (·.1)).filter fun n => decide (3 ≤ cState s n)).foldr (insertCard s) []

/-! ### Which card runs (R188, R305, R311, R354) -/

/-- The context of a card, and whether it runs. -/
def jobPart (s : State) (k : Nat) (j : Job) : Option Part :=
  ((launch s j.lk).parts.find? fun p => (coresOf (launch s j.lk) p.1).contains k).map (·.2)
def jobRuns (s : State) (k : Nat) (j : Job) : Bool :=
  (run s (j.lk / 2)).kill.isNone && !j.parked && !(pair s (k / 2)).rolling && match jobPart s k j with
    | some p => p.capture = 0
    | none => false

/-- A step of the card is under way, or may still begin. -/
def hasSteps (j : Job) : Bool :=
  j.live && match j.desc with
    | none => true
    | some d => decide (j.pos < ocSteps d.toNat)

/-- The card has begun, and its walker stays with it. -/
def holdsWalker (j : Job) : Bool := j.st = 1 && hasSteps j && !j.parked

/-- A walker's output that another card of a launch has staged, and that has not performed. -/
def otherOutput (j : Job) (h : HB) : Bool :=
  match h.what with
  | .output lk key .. => lk = j.lk && key ≠ j.key
  | _ => false

/-- The card may begin: its epoch has committed, and no earlier card of its launch is unfinished or has an output that
has not performed (R354). -/
def mayBegin (s : State) (k : Nat) (j : Job) : Bool :=
  jobRuns s k j && (!(launch s j.lk).det || released s j.g j.seq) && !((pair s (k / 2)).hb.any (otherOutput j)) &&
    match (jobsOf s j.lk k).find? fun x => x.live with
    | some x => x.same j
    | none => false

/-- The card that a walker runs next: the one it stays with, else the first by rank. -/
def nextJob (s : State) (k : Nat) : Option Job :=
  let js := (core s k).jobs
  match js.find? holdsWalker with
  | some j => if jobRuns s k j then some j else none
  | none => (js.filter fun j => hasSteps j && mayBegin s k j).foldl (fun a j => match a with
      | none => some j
      | some b => if ranksBefore s (j.lk / 2) (b.lk / 2) then some j else some b) none

/-! ### Charges (R316) -/

/-- What an instance occupies: the cores of a lane launch's resident contexts, the walkers that run one of its operator
cards, and a batch's copy engine. -/
def busyUnits (s : State) (n : Nat) : Nat :=
  let cores :=
    if cKind s n = 2 then 0
    else ([2 * n, 2 * n + 1].map fun lk =>
      let l := launch s lk
      ((l.parts.filter fun p => p.2.capture ≠ 3).map fun p => (coresOf l p.1).length).sum).sum
  cores + ((s.cores.map (·.1)).filter fun k => ((nextJob s k).map fun j => j.lk / 2) = some n).length

/-- An instance's execution time up to now, at what it occupies. -/
def accrue (s : State) (n : Nat) : State :=
  modRun n (fun R => { R with usedNs := R.usedNs + (s.now - R.chargedAt) * busyUnits s n, chargedAt := s.now }) s

/-- The execution time of every instance in progress. -/
def accrueAll (s : State) : State :=
  (s.runs.map (·.1)).foldl (fun s n => if inInstance s n then accrue s n else s) s

/-- USED of an instance is its execution time, in whole core-µs. -/
def chargeCard (s : State) (n : Nat) : State :=
  let s1 := accrue s n
  setCardFld n 767 736 ((run s1 n).usedNs / 1000) s1

/-- Charge every instance in progress. -/
def chargeAll (s : State) : State :=
  (s.runs.map (·.1)).foldl (fun s n => if inInstance s n then chargeCard s n else s) s

/-! ### Placing (R306, R307) -/

/-- The cores a card may use now; in host-assisted mode those of the reply's mask (R320). -/
def openCores (s : State) (n : Nat) : List Nat :=
  let cs := cardCores s n
  match (run s n).placeMask with
  | some m => if cCores s n = 0 then cs else cs.filter fun c => m.testBit c
  | none => cs

/-- Cores that a context of the card may take: even ones of whole pairs where it takes a pair. -/
def seats (s : State) (n : Nat) (l : Launch) : List Nat :=
  let cs := openCores s n
  if l.paired || cRedun s n then cs.filter fun c => c % 2 = 0 && cs.contains (c + 1) else cs

/-- The launch keys of a card with the core each takes from seat `c` (R341). -/
def copiesAt (s : State) (n c : Nat) : List (Nat × Nat) :=
  if cRedun s n then [(2 * n, c), (2 * n + 1, c + 1)] else [(2 * n, c)]

/-- `k` more teams of the card fit at a seat. A core that a context of the launch was saved from keeps that context's
image in its save slot (R312), and one that a context is leaving or returning to is not free for it. -/
def fitsSeat (s : State) (n k c : Nat) (l : Launch) : Bool :=
  (copiesAt s n c).all fun x =>
    (part s x.1 x.2).capture = 0 && (coresOf l x.2).all fun j => fitsMany s x.1 k j l

/-- A seat whose cores hold no resident group. -/
def emptySeat (s : State) (n c : Nat) (l : Launch) : Bool :=
  (copiesAt s n c).all fun x => (coresOf l x.2).all fun j => (teamsOn s j).isEmpty

/-- Carve an empty seat for as many of `m` teams as it holds; none where it holds none. -/
def carveSeat (s : State) (n m c : Nat) (l : Launch) : Option State :=
  let k := mostTeams c l (min m 256)
  if k = 0 || !emptySeat s n c l then none
  else
    let s1 := (copiesAt s n c).foldl (fun s x => (coresOf l x.2).foldl (fun s j => carve j k l s) s) s
    if fitsSeat s1 n 1 c l then some s1 else none

/-- The seat for a card's next team, `m` teams being left: a core on which it fits, else an empty one carved
anew; with the state after the carve. -/
def findSeat (s : State) (n m : Nat) (l : Launch) : Option (Nat × State) :=
  let cs := seats s n l
  match cs.find? fun c => fitsSeat s n 1 c l with
  | some c => some (c, s)
  | none => cs.findSome? fun c => (carveSeat s n m c l).map fun t => (c, t)

/-- Place teams `t` and up, as they fit, to the number `hi`. -/
def placeUp (n hi : Nat) : Nat → Nat → State → Nat × State
  | 0, t, s => (t, s)
  | fuel + 1, t, s =>
    if hi ≤ t then (t, s)
    else
      let l := launch s (2 * n)
      match findSeat s n (hi - t) l with
      | none => (t, s)
      | some (c, s1) => placeUp n hi fuel (t + 1) ((copiesAt s n c).foldl (fun s x => placeTeam x.1 t x.2 s) s1)

/-- Fill one seat with teams `t` and up. -/
def fillSeat (n hi c : Nat) : Nat → Nat → State → Nat × State
  | 0, t, s => (t, s)
  | fuel + 1, t, s =>
    let l := launch s (2 * n)
    if decide (t < hi) && fitsSeat s n 1 c l then
      fillSeat n hi c fuel (t + 1) ((copiesAt s n c).foldl (fun s x => placeTeam x.1 t x.2 s) s)
    else (t, s)

/-- The most teams, up to `m`, that fit at a seat. -/
def seatRoom (s : State) (n c : Nat) (l : Launch) : Nat → Nat
  | 0 => 0
  | m + 1 => if fitsSeat s n (m + 1) c l then m + 1 else seatRoom s n c l m

/-- Carve empty seats anew, as long as those on which teams fit do not hold `need` teams together (R306). -/
def growWave (n need : Nat) : Nat → State → State
  | 0, s => s
  | fuel + 1, s =>
    let l := launch s (2 * n)
    let cs := seats s n l
    let room := (cs.map fun c => seatRoom s n c l (min need 256)).sum
    if need ≤ room then s
    else match (cs.filter fun c => !fitsSeat s n 1 c l).findSome? fun c => carveSeat s n (need - room) c l with
      | some s1 => growWave n need fuel s1
      | none => s

/-- A wave's teams go to the chosen cores in ascending order (R307). -/
def placeWave (n hi t : Nat) (s : State) : Nat × State :=
  (seats s n (launch s (2 * n))).foldl (fun (a : Nat × State) c => fillSeat n hi c 256 a.1 a.2)
    (t, growWave n (hi - t) 34 s)

/-- Two cores are the same, partners or mesh neighbours (R370). -/
def nearCores (a b : Nat) : Bool :=
  a / 2 = b / 2 || (decide (a < 32) && decide (b < 32) &&
    ((a / 8 = b / 8 && (a + 1 = b || b + 1 = a)) || a + 8 = b || b + 8 = a))

/-- A port's binding that asks for a peer nearby: KIND 5, or KIND 6 to this device (R225). -/
def nearBind (s : State) (l : Launch) (port : Nat) : Bool :=
  let b := bindOf l port
  b.kind = 5 || (b.kind = 6 && b.dev = deviceNo s)
def nearLaunch (s : State) (l : Launch) : Bool := (List.range 5).any (nearBind s l)

/-- The resident groups of a launch have the peers that such bindings name nearby (R225). -/
def peersNear (s : State) (lk : Nat) : Bool :=
  (groupsOfLaunch s lk).all fun g => (List.range 5).all fun p =>
    !nearBind s (launch s lk) p || match peerOf s g p with
      | some q => (nfind s.groups q.g).isNone || nearCores (coreOf s g) (coreOf s q.g)
      | none => true

/-- Teams `t` to `hi - 1` are placed so that every such peer is near: the first way, of all that there are; in a wave
with the cores in ascending order from `last` on. -/
def placeNear (n hi : Nat) (wave : Bool) : Nat → Nat → Nat → State → Option State
  | 0, t, _, s => if hi ≤ t then some s else none
  | fuel + 1, t, last, s =>
    if hi ≤ t then some s
    else
      let l := launch s (2 * n)
      let cs := (seats s n l).filter fun c => !wave || decide (last ≤ c)
      let fit := cs.filter fun c => fitsSeat s n 1 c l
      let new := (cs.filter fun c => !fit.contains c).filterMap fun c => (carveSeat s n (hi - t) c l).map fun u => (c, u)
      (fit.map (fun c => (c, s)) ++ new).findSome? fun x =>
        let s1 := (copiesAt s n x.1).foldl (fun s y => placeTeam y.1 t y.2 s) x.2
        if peersNear s1 (2 * n) then placeNear n hi wave fuel (t + 1) x.1 s1 else none

/-- The most teams that can be resident at once. -/
def maxResident : Nat := 34 * 256

/-- The resident record of an instance's launch (R296, R297). -/
def newLaunch (s : State) (n copy : Nat) : Launch :=
  let R := run s n
  let l : Launch := { desc := R.desc, weave := R.weave }
  let lane := cKind s n = 1
  { card := n
    copy := copy
    inst := cInstance s n
    desc := if lane then R.desc else 0
    weave := R.weave
    release := R.rel
    deadline := R.absDl
    relDeadline := cDeadline s n
    partid := cPartid s n
    ctx := cCtx s n
    supv := cardFld s n 13 13 = 1
    cont := cardFld s n 17 16 = 2 || (cardFld s n 17 16 = 0 && lane && l.fld 69 69 = 1) }

/-- The launches of a card exist. -/
def openLaunches (n : Nat) (s : State) : State :=
  (if cRedun s n then [0, 1] else [0]).foldl (fun s k =>
    if (nfind s.launches (2 * n + k)).isSome then s
    else { s with launches := nput s.launches (2 * n + k) (newLaunch s n k) }) s

/-- Teams of the wave in progress end here. -/
def waveEnd (l : Launch) : Nat := if l.det then min l.nteams ((l.wave + 1) * l.waveSize) else l.nteams

/-- Place what a lane launch has left: none where nothing fits, or not all of what goes together. -/
def placeLanes (n : Nat) (s0 : State) : Option State :=
  let s := openLaunches n s0
  let l := launch s (2 * n)
  let hi := waveEnd l
  if hi ≤ l.placed then none
  else if nearLaunch s l then placeNear n hi l.det (hi - l.placed) l.placed 0 s
  else
    let r := if l.det then placeWave n hi l.placed s else placeUp n hi maxResident l.placed s
    let whole := l.det || cGang s n
    if whole then (if r.1 = hi then some r.2 else none)
    else if r.1 = l.placed then none else some r.2

/-! ### Chains and batches (R298, R306, R312) -/

/-- Windows of a chain: rows and weight bytes of its first operator card. -/
def chainWin (R : CardRun) : Nat × Nat :=
  (chainRows R.desc.toNat, chainWk R.desc.toNat * 1024)

/-- A core's walker is free for a chain: it holds no unfinished card, and no chain (R305, R409). -/
def walkerFree (s : State) (c : Nat) : Bool := !((core s c).jobs.any fun j => j.live || j.chain)

/-- Place a chain on a free walker. -/
def placeChain (n : Nat) (s0 : State) : Option State :=
  let s := openLaunches n s0
  let w := chainWin (run s n)
  match (openCores s n).find? fun c => coreOpen s c && walkerFree s c && (winFor s c w.1 w.2).isSome with
  | none => none
  | some c =>
    let j : Job := { id := 0, hcore := c, lk := 2 * n, chain := true, g := gKey n 0 0 0, seq := 0,
                     addr := cWork s n, since := s.now }
    some (modJobs c (fun js => js ++ [j]) (openPart (2 * n) c 0 w.1 w.2 s))

/-- Issue a batch's entries in order while its engine has free places, each read as it is issued (R296, R298); the
answer says whether a malformed or unreadable one was met. -/
def issueBatch (n c : Nat) : Nat → State → Bool × State
  | 0, s => (false, s)
  | fuel + 1, s =>
    let R := run s n
    if R.entries ≤ R.issued || 64 ≤ (engineCmds s c).length || freeLocks s c < 2 then (false, s)
    else
      let r := cardReadNum n (cWork s n + 32 + 32 * R.issued) 32 s
      match r.1 with
      | none => (true, r.2)
      | some x =>
        if !entryForm x then (true, r.2)
        else
          let s := r.2
          let g := gKey n 0 0 0
          let id := s.nextId
          let p : CopyPairs := .linear (nbits x 63 0) (nbits x 127 64) (nbits x 152 128)
          let cmd : Cmd :=
            { id := id, lk := 2 * n, core := c, g := g, seq := R.issued, pairs := p, dsp := 0, ssp := 0,
              time := if nbits x 255 192 = 0 then none else some (nbits x 255 192), batch := true,
               nt := x.testBit 153, sealed := true,
              todo := List.range p.chunks }
          let locks := p.srcRanges.flatMap (lockOf s g id 0 0) ++ p.dstRanges.flatMap (lockOf s g id 0 1)
          let s1 := modCore { s with nextId := id + 1 } c fun C =>
            { C with cmds := C.cmds ++ [cmd], locks := C.locks ++ locks }
          issueBatch n c fuel (modRun n (fun R => { R with issued := R.issued + 1 }) s1)

/-- Issue what can be issued; a malformed entry then fails the instance with cause 2 (R298). -/
def runBatch (n c : Nat) (s : State) : State :=
  let r := issueBatch n c 256 s
  if r.1 then killCard n { event := 5, cls := 2 } r.2 else r.2

/-- Place a batch on a copy engine with every place free. -/
def placeBatch (n : Nat) (s0 : State) : Option State :=
  let s := openLaunches n s0
  match (openCores s n).find? fun c => coreOpen s c && (engineCmds s c).isEmpty with
  | none => none
  | some c => some (runBatch n c (openPart (2 * n) c 0 0 0 s))

/-! ### Restoring (R312) -/

/-- Rows and weight bytes of the windows of a card's contexts. -/
def winSize (s : State) (n : Nat) (l : Launch) : Nat × Nat :=
  match cKind s n with
  | 1 => (l.accRows, l.wbBytes)
  | 2 => chainWin (run s n)
  | _ => (0, 0)

/-- Pull-ring watches that a saved context needs on a core. -/
def savedWatches (s : State) (lk k : Nat) : Nat :=
  match nfind s.savedParts (lk * 64 + k) with
  | some P => P.watches.length
  | none => 0

/-- A saved context fits at core `c` (R306, R312). A launch has one context, with its windows, on a core (R40, R168). -/
def restoreFits (s : State) (n lk old c : Nat) (l : Launch) : Bool :=
  let k := (teamsOfPart s lk old).length
  let w := winSize s n l
  ((nfind l.parts c).isNone || c = old) &&
    ((coresOf l old).zip (coresOf l c)).all fun x =>
      coreOpen s x.2 && (cKind s n ≠ 1 || fitsMany s lk k x.2 l) && (winFor s x.2 w.1 w.2).isSome &&
        (cKind s n ≠ 2 || walkerFree s x.2) && (cKind s n ≠ 3 || (engineCmds s x.2).isEmpty) &&
        decide (((core s x.2).watches.filter fun y => y.dead.isNone).length + savedWatches s lk x.1 ≤ 8)

/-- A saved context that returns to a seat: its launch, the core it was saved from, and its place in the seat. -/
structure Return where
  lk : Nat
  old : Nat
  off : Nat
deriving DecidableEq, Repr

/-- Restore saved contexts that share a seat where they fit, on empty cores carved for them where no carve admits
them. -/
def restoreSeat (n : Nat) (xs : List Return) (s : State) : Option State :=
  let l := launch s (2 * n)
  let w := winSize s n l
  let k := (xs.map fun x => (teamsOfPart s x.lk x.old).length).foldl max 0
  let fit (s : State) (c : Nat) : Bool := xs.all fun x => restoreFits s n x.lk x.old (c + x.off) l
  let go (s : State) (c : Nat) : State := xs.foldl (fun s x => restoreTo x.lk x.old (c + x.off) w.1 w.2 s) s
  let cores (c : Nat) : List Nat := xs.flatMap fun x => coresOf l (c + x.off)
  let cs := seats s n l
  match cs.find? (fit s) with
  | some c => some (go s c)
  | none =>
    if cKind s n ≠ 1 then none
    else cs.findSome? fun c =>
      if (cores c).all (fun j => (teamsOn s j).isEmpty) && fitsEmpty c l k then
        let s1 := (cores c).foldl (fun s j => carve j k l s) s
        if fit s1 c then some (go s1 c) else none
      else none

/-- The saved contexts of a card, seat by seat: the copies of a redundant card share a pair (R341). -/
def savedOf (s : State) (n : Nat) : List (List Return) :=
  ((launch s (2 * n)).parts.filter fun p => p.2.capture = 3).map fun p =>
    ⟨2 * n, p.1, 0⟩ :: (if cRedun s n then [⟨2 * n + 1, p.1 + 1, 1⟩] else [])

/-- Restore a card's saved contexts: where they go together all of them, once all are saved, else those that fit. -/
def restoreCard (n : Nat) (s : State) : Option State :=
  let xs := savedOf s n
  if wholeLaunch s (2 * n) then
    if xs.isEmpty || ([2 * n, 2 * n + 1].any fun lk => (launch s lk).parts.any fun p => p.2.capture ≠ 3) then none
    else xs.foldl (fun a x => a.bind (restoreSeat n x)) (some s)
  else
    let r := xs.foldl (fun (a : Bool × State) x => match restoreSeat n x a.2 with
      | some t => (true, t)
      | none => a) (false, s)
    if r.1 then some r.2 else none

/-! ### Decisions (R305) -/

/-- Take the free room a retired team leaves (R307): its groups have retired and every quantum of theirs is
sealed, and nothing of it is left to perform. -/
def teamDone (s : State) (tk : Nat) : Bool :=
  let gs := s.groups.filter fun x => tkOf x.1 = tk
  gs.all (fun x => x.2.retired && x.2.flights.isEmpty && decide (sealedBelow x.2 = x.2.nextSeq)) &&
    !(s.pairs.any fun p => p.2.hb.any fun h => match h.what with
      | .output .. => false
      | .image .. => false
      | _ => tkOf h.g = tk) &&
    !(s.cores.any fun c => (c.2.cmds.any fun x => tkOf x.g = tk) || (c.2.jobs.any fun j => j.live && tkOf j.g = tk)) &&
    !(s.savedParts.any fun c => (c.2.cmds.any fun x => tkOf x.g = tk) || (c.2.jobs.any fun j => j.live && tkOf j.g = tk)) &&
    !(s.msgs.any fun m => m.stage = 0 && tkOf m.src = tk)

/-- Free a team of a launch in normal mode. Its port channels stay until the launch ends: a push into a full one is
one that no receiver will ever take (R228). -/
def reapTeam (s : State) (tk : Nat) : State :=
  let c := (team s tk).core
  let s1 := { s with
    groups := s.groups.filter fun x => tkOf x.1 ≠ tk
    teams := ndel s.teams tk }
  let drop (x : Nat × Core) : Nat × Core := (x.1, { x.2 with
    locks := x.2.locks.filter fun k => !(k.kind = 2 && k.id = tk)
    watches := x.2.watches.filter fun w => tkOf w.g ≠ tk })
  let s2 : State := { s1 with cores := s1.cores.map drop }
  if (teamsOfPart s2 (lkOfT tk) c).isEmpty then
    let cs := coresOf (launch s2 (lkOfT tk)) c
    modLaunch s2 (lkOfT tk) fun l =>
      { l with parts := ndel l.parts c, wins := l.wins.filter fun w => !cs.contains w.1 }
  else s2

/-- Free the retired teams of launches in normal mode that have further teams to place, or whose room others
may take. -/
def reapTeams (s : State) : State :=
  (s.teams.map (·.1)).foldl (fun s tk =>
    if !(launch s (lkOfT tk)).det && teamDone s tk then reapTeam s tk else s) s

/-- Place or restore a card: none where nothing of it fits. -/
def takeRoom (n : Nat) (s : State) : Option State :=
  match restoreCard n s with
  | some t => some t
  | none =>
    match cKind s n with
    | 1 => placeLanes n s
    | 2 => if cState s n = 3 then placeChain n s else none
    | _ => if cState s n = 3 then placeBatch n s else none

/-- The contexts on the card's cores whose cards rank after it, lowest ranked first: launch and core. -/
def victims (s : State) (n : Nat) : List (Nat × Nat) :=
  let cs := openCores s n
  let ranked := (rankedCards s).reverse.filter fun m => outranks s n m
  ranked.flatMap fun m => [2 * m + 1, 2 * m].flatMap fun lk =>
    let l := launch s lk
    (l.parts.reverse.filter fun p => p.2.capture ≠ 3 && (coresOf l p.1).any fun c => cs.contains c).map
      fun p => (lk, p.1)

/-- A context and all that leaves with it. -/
def leaves (s : State) (x : Nat × Nat) : List (Nat × Nat) :=
  if wholeLaunch s x.1 then
    [x.1 / 2 * 2, x.1 / 2 * 2 + 1].flatMap fun lk => (launch s lk).parts.map fun p => (lk, p.1)
  else [x]

/-- The state without a context, to try a placement in. -/
def without (x : Nat × Nat) (s : State) : State :=
  (coresOf (launch s x.1) x.2).foldl (fun s k => modCore s k fun C =>
    { C with cmds := C.cmds.filter (fun c => c.lk ≠ x.1), jobs := C.jobs.filter fun j => j.lk ≠ x.1 }) (vacate x.1 x.2 s)

/-- Pre-empt contexts, lowest ranked first, until the card fits in the state without them; `t` is that
state so far. -/
def preemptFor (n : Nat) : List (Nat × Nat) → State → State → Option State
  | [], t, s => if (takeRoom n t).isSome then some s else none
  | x :: xs, t, s =>
    if (takeRoom n t).isSome then some s
    else preemptFor n xs ((leaves t x).foldl (fun t y => without y t) t) (askPreempt x.1 x.2 s)

/-- Contexts that are leaving already. -/
def leaving (s : State) : List (Nat × Nat) :=
  s.launches.flatMap fun x => (x.2.parts.filter fun p => p.2.preempt).map fun p => (x.1, p.1)

/-- Wake the gated cores of a card that could take it (R398). -/
def wakeFor (n : Nat) (s : State) : State :=
  (openCores s n).foldl (fun s c => if s.gated.testBit c then wakeCore c s else s) s

/-- The placement record of a card that is ready for placement (R6, R319). Two points are the model's own (DESIGN
CHOICE, log 142): every kind of card asks for one, an operator chain and a copy batch too, where R6 speaks of a
launch; and the record names every core that the card may use, whether the card fits there or not, for R6 does not say
which cores are the candidates. -/
def askPlace (n : Nat) (s : State) : State :=
  askDuty { kind := 1, card := n, inst := cInstance s n, cores := maskOf 32 fun c => (cardCores s n).contains c,
            time := s.now } (modRun n (fun R => { R with placeAsk := true }) s)

/-- One card's turn in a decision (R305). In host-assisted mode a card that fits asks for its cores; one that does not
fit pre-empts as in hardware mode, for the order of the cards is the same in both (R6). Which cards ask, and for which
cores, is the model's choice (`askPlace`, DESIGN CHOICE, log 142). -/
def decideCard (s : State) (n : Nat) : State :=
  let R := run s n
  if R.kill.isSome || R.replayAsk then s
  else
    let host : Bool := (reg s rDutySel).testBit 0 && cState s n = 3 && R.placeMask.isNone
    if R.placeAsk then s
    else match takeRoom n s with
      | some t =>
        if host then askPlace n s
        else if cState t n = 3 || cState t n = 5 then setCardFld n 7 4 4 t
        else t
      | none =>
        if cState s n = 4 then s
        else
          let t := (leaving s).foldl (fun t y => without y t) s
          match preemptFor n (victims s n) t s with
          | some u => u
          | none => wakeFor n s

/-- Dispatch is on: DCTL.EN, and no suspend in progress (R300, R400). -/
def dispatching (s : State) : Bool := (reg s rDctl).testBit 0 && s.susp.begun = 0

/-! ### Scans (R6, R337, R340) -/

/-- Contexts on a core: launch and name. -/
def ctxsOn (s : State) (c : Nat) : List (Nat × Nat) :=
  s.launches.flatMap fun x =>
    (x.2.parts.filter fun p => p.2.capture ≠ 3 && (coresOf x.2 p.1).contains c).map fun p => (x.1, p.1)

/-- A critical-level context holds the core. -/
def criticalOn (s : State) (c : Nat) : Bool := (ctxsOn s c).any fun x => level s (x.1 / 2) = 0

/-- Change the scan of a core. -/
def setScan (x : Scan) (s : State) : State := { s with scans := x :: s.scans.filter fun y => y.core ≠ x.core }

/-- A core is drained for its scan: its contexts are pre-empted (R337). -/
def drainCore (c : Nat) (s : State) : State :=
  setScan { core := c } ((ctxsOn s c).foldl (fun s x => askPreempt x.1 x.2 s) s)

/-- A scan may begin: a critical-level context holds it off for at most 10 ms. -/
def grantScan (c : Nat) (s : State) : State :=
  if criticalOn s c then setScan { core := c, stage := 2, dueAt := s.now + 10000000 } s else drainCore c s

/-- A core's scan falls due (R337); in host-assisted mode it waits for a reply (R6). -/
def wantScan (c : Nat) (s : State) : State :=
  if 34 ≤ c || (reg s rRetired).testBit c || (s.scans.any fun x => x.core = c && x.stage < 4) then s
  else if (reg s rDutySel).testBit 3 then
    askDuty { kind := 3, cores := 2 ^ c, time := s.now } (setScan { core := c, stage := 3 } s)
  else grantScan c s

/-- A scan is asked for at the next decision point (R335, R340, R341), of a core of the ochre cluster too (R396). -/
def askScan (c : Nat) (s : State) : State :=
  if 34 ≤ c || (reg s rRetired).testBit c || (s.scans.any fun x => x.core = c && x.stage < 4) then s
  else setScan { core := c, stage := 5 } s

/-- The scans that were asked for since the last decision fall due. -/
def askedScans (s : State) : State :=
  ((s.scans.filter fun x => x.stage = 5).map (·.core)).foldl (fun s c => wantScan c s) s

/-- decide() of R305, with the scans that wait for it. -/
def dispatch (s : State) : State :=
  let s1 := askedScans (reapTeams (chargeAll { s with decision := false }))
  if !dispatching s1 then s1 else (rankedCards s1).foldl decideCard s1

end Sys2Proof.Machine
end

