-- ==== Sys2Proof/Machine/Island.lean ====
section
/-!
DEFINITION. Sys2Proof/Machine/Island.lean: what the safety island and the dispatcher do to running work from
outside it: failing operator cards (R357), the beginning of a suspend (R400), and of a link's training (R375).
-/
namespace Sys2Proof.Machine

/-! ### Operator cards that fail (R356, R357) -/

/-- Change one card of a core. -/
def modJob (k : Nat) (j : Job) (f : Job → Job) (s : State) : State :=
  modJobs k (List.map fun x => if x.same j then f x else x) s

/-- The card that a walker works on: the one it has begun, else the next. -/
def currentJob (js : List Job) : Option Job :=
  match js.find? fun j => j.live && j.st = 1 && !j.parked with
  | some j => some j
  | none => js.find? fun j => j.live && !j.parked

/-- The current card of a walker ends without a tile step: the walker's clock runs on for its other cards (R394). -/
def handClock (k : Nat) (j : Job) (s : State) : State :=
  match currentJob (core s k).jobs with
  | some c => if c.same j then
      modJobs k (List.map fun x => if x.live && x.recs.isEmpty && !x.parked then { x with since := c.clockAt s.now } else x) s
    else s
  | none => s

/-- Class and cause of the host trap of a failed chain (R357). -/
def errTrap (err : Nat) : Nat × Nat :=
  match err with
  | 5 => (clsPage, 9)
  | 6 => (clsPoison, 0)
  | 7 => (clsPage, 8)
  | 9 => (clsLost, 0)
  | _ => (clsRange, 0)

/-- A card fails: it stops, and for a chain the instance ends as on a host trap (R357). The end of a card is a decision
point (R355). -/
def failJob (k : Nat) (j : Job) (err : Nat) (s : State) : State :=
  let s1 := modJob k j (fun x => { x with st := 3, err := err, recs := [], stage := 0 }) (handClock k j s)
  if j.chain then
    let t := errTrap err
    killCard (j.lk / 2) { killFor s (j.lk / 2) t.1 t.2 with cores := 2 ^ k } s1
  else decisionPoint s1

/-! ### Suspend (R400) -/

/-- Bits of SUSPSTAT (R393). -/
def suspStat (s : State) : Nat := reg s rSuspStat % 4
def setSuspStat (x : Nat) (s : State) : State :=
  setReg s rSuspStat (reg s rSuspStat / 4 * 4 + x)

/-- A suspend begins (R246, R400 steps 1 and 2): releases and placements stop and every context is pre-empted,
but for those of the ochre cluster, which runs on (R395, R397); of them the one that asks for it, where a group does, is
suspended with the others (DEDUCED, log 69). Nothing happens while a suspend or resume is in progress. -/
def suspGo (by_ : Option Nat) (addr : Nat) (s : State) : State :=
  if suspStat s ≠ 0 then s
  else
    let s1 := setSuspStat 1 { s with susp := { image := addr, begun := s.now + 1 } }
    let s2 := s1.launches.foldl (fun s x => x.2.parts.foldl (fun s p => if p.1 < 32 then askPart x.1 p.1 s else s) s) s1
    match by_ with
    | some g => askPreempt (lkOf g) (seatOf s g) s2
    | none => s2

/-! ### Links (R374, R375) -/

/-- A link begins to train (R374, R375). -/
def startTraining (n : Nat) (s : State) : State := { s with retrain := nput s.retrain n s.now }

end Sys2Proof.Machine
end

