-- ==== Sys2Proof/Machine/Write.lean ====
section
/-!
DEFINITION. Sys2Proof/Machine/Write.lean: reads and writes of memory-mapped registers (R12, R280, R295, R299,
R340, R358, R359, R375, R378, R381, R384, R386, R387, R393), with what each write does.
-/
namespace Sys2Proof.Machine

/-! ### Replies to fault records (R293, R344) -/

/-- Change the word with a sequence number among a group's words that have not started. -/
def modQueued (g seq : Nat) (f : QWord → QWord) (s : State) : State :=
  let h (w : QWord) : QWord := if w.seq = seq then f w else w
  modGrp s g fun G => { G with queues := G.queues.map fun q => (q.1, q.2.map h), refetch := G.refetch.map h }

/-- The address that a group's slot, or the first of its words to be fetched again, is fetched from. -/
def fetchPc (G : Group) (slot : Nat) : Word64 :=
  if slot = 2 then ((G.refetch.head?).map (·.pc)).getD 0 else (slotOf G slot).addr

/-- Change a command wherever it stands, on a core or in a saved context. -/
def modCmd (id : Nat) (f : Cmd → Cmd) (s : State) : State :=
  let h (x : Cmd) : Cmd := if x.id = id then f x else x
  { s with
    cores := s.cores.map fun x => (x.1, { x.2 with cmds := x.2.cmds.map h })
    savedParts := s.savedParts.map fun x => (x.1, { x.2 with cmds := x.2.cmds.map h }) }

/-- Change an operator card wherever it stands. -/
def modJobAll (p : Job → Bool) (f : Job → Job) (s : State) : State :=
  let h (x : Job) : Job := if p x then f x else x
  { s with
    cores := s.cores.map fun x => (x.1, { x.2 with jobs := x.2.jobs.map h })
    savedParts := s.savedParts.map fun x => (x.1, { x.2 with jobs := x.2.jobs.map h }) }

/-- The core where a card of a launch stands. -/
def findJob (s : State) (p : Job → Bool) : Option (Nat × Job) :=
  s.cores.findSome? fun x => (x.2.jobs.find? p).map fun j => (x.1, j)

/-- A word's lane has its reply: 0 RETRY, 1 POISON, 2 FAIL (R247). -/
def answerLane (lane code : Nat) (w : QWord) : QWord :=
  { w with
    recs := w.recs.erase lane
    pois := if code = 1 then w.pois ||| BitVec.ofNat 64 (2 ^ lane) else w.pois
    fail := if code = 2 then w.fail ||| BitVec.ofNat 64 (2 ^ lane) else w.fail }

/-- The chunk number under which a copy's waiting credit is kept. -/
def creditChunk : Nat := 2 ^ 32

/-- Drop one page from a chunk's unanswered records. -/
def answerChunk (chunk page code : Nat) (x : Cmd) : Cmd :=
  { x with
    recs := nset [] x.recs chunk ((nget [] x.recs chunk).erase page)
    bad := if code = 0 then x.bad else (chunk * 2 ^ 64 + page) :: x.bad
    again := if code = 0 && x.todo.contains chunk then (chunk :: x.again).dedup else x.again }

/-- A reply acts on what waits for it (R293, R344). -/
def applyReply (r : FaultRec) (code : Nat) (s : State) : State :=
  match r.owner with
  | .lane g seq lane => modQueued g seq (answerLane lane code) s
  | .fetch g slot =>
    if code = 0 then s
    else modGrp s g fun G =>
      let ext := r.va = (fetchPc G slot + 4).toNat
      { G with fetchAns := nset 0 G.fetchAns slot (if ext then 4 + code else code) }
  | .chunk id chunk page dst => modCmd id (answerChunk chunk (2 * page + b2n dst) code) s
  | .credit id => modCmd id (fun x => { answerChunk creditChunk 0 0 x with comp := if code = 0 then x.comp else 0 }) s
  | .job hcore id page =>
    let mine (j : Job) : Bool := j.lk / 2 = r.job && j.hcore = hcore && j.id = id
    let s1 := modJobAll mine (fun j =>
      Job.turnClock s.now { j with recs := j.recs.erase page, bad := if code = 1 then page :: j.bad else j.bad }) s
    if code = 2 then
      match findJob s1 mine with
      | some (k, j) => failJob k j 5 s1
      | none =>
        -- the card stands in a saved context; a chain ends there as on a host trap (R357, R403)
        let chain := s1.savedParts.any fun x => x.2.jobs.any fun j => mine j && j.chain
        let s2 := modJobAll mine (fun j => { j with st := 3, err := 5 }) s1
        if chain then killCard r.job (killFor s r.job (errTrap 5).1 (errTrap 5).2) s2 else s2
    else s1

/-- A reply by FRREPLY or FLTRPLY. While the device is suspended none is possible: it does nothing, and the record stays
outstanding (R403; DESIGN CHOICE, log 150: that it is not counted). -/
def faultReply (tag code : Nat) (s : State) : State :=
  if suspStat s = 2 then s
  else match s.outFaults.find? fun r => r.tag = some tag with
  | none => countReg rFrIgn 1 s
  | some r =>
    if 3 ≤ code then countReg rFrIgn 1 s
    else applyReply r code { s with outFaults := s.outFaults.filter fun x => x.tag ≠ some tag }

/-! ### Replies to duty records (R320) -/

/-- The duty with a tag has been answered. -/
def dropDuty (tag : Nat) (s : State) : State := { s with duties := s.duties.filter fun d => d.tag ≠ some tag }

/-- The routes of a table (R376): none where a reserved bit is set or it cannot be read. -/
def routeTable (s : State) (pa : Nat) : NMap Nat :=
  let es := (List.range 4).map fun d => ofBytes (l2Read s (pa + 8 * d) 8)
  if isPoison s pa || pa % 32 ≠ 0 || (es.any fun e => decide (8 ≤ e)) then []
  else es.zipIdx.foldl (fun m x => if x.1.testBit 0 then nput m x.2 (nbits x.1 2 1) else m) []

/-- The launches of a card take their routes. -/
def giveRoutes (n : Nat) (rs : NMap Nat) (s : State) : State :=
  [2 * n, 2 * n + 1].foldl (fun s lk =>
    if (launch s lk).routeAsk then
      modLaunch s lk fun l => { l with routed := true, routeAsk := false, routes := rs }
    else s) s

/-- A placement reply (R320): a mask on which the card does not fit defers and is counted. Only a ready or a parked
card is placed (R303); the record of an instance that was aborted while it waited never comes here (DESIGN CHOICE,
log 98). While DCTL.EN is 0 or a suspend is in progress the reply is a deferral that is not counted, and its mask is
forgotten (DESIGN CHOICE, log 142). -/
def placeReply (n mask : Nat) (s : State) : State :=
  let s1 := modRun n (fun R => { R with placeAsk := false, placeMask := some mask }) s
  let defer (s : State) : State := modRun n (fun R => { R with placeAsk := false, placeMask := none }) s
  if !dispatching s || (cState s n ≠ 3 && cState s n ≠ 5) || (run s n).kill.isSome then defer s
  else match takeRoom n s1 with
  | some t => setCardFld n 7 4 4 t
  | none => countReg rDrIgn 1 (defer s)

/-- The effect of a reply with a listed code: none where it is to be ignored. -/
def dutyAct (d : Duty) (code payload : Nat) (s : State) : Option State :=
  match d.kind, code with
  | 0, 0 => some (admitCard d.card (armed d.card (run s d.card).armRel s))
  | 0, 1 =>
    let path : ArmPath := match (run s d.card).armBy with
      | some c => .job c
      | none => .arm
    let s1 := toIdle d.card (setReg s rArmStat (d.card % 4096 + 11 * 2 ^ 16))
    some (rejectRecord path d.card (run s d.card).armRel 11 s1)
  | 1, 0 => some (placeReply d.card (payload % 2 ^ 32) s)
  | 1, 1 => some (modRun d.card (fun R => { R with placeAsk := false }) s)
  | 2, 0 => some (dispatch (replayCard d.card s))
  | 2, 1 =>
    match (run s d.card).kill with
    | some k => some (dispatch (failCard d.card 5 k.cls s))
    | none => some s
  | 3, 0 => some (grantScan (Nat.log2 d.cores) s)
  | 3, 1 => some (setScan { core := Nat.log2 d.cores, stage := 4, dueAt := s.now + 100000000 } s)
  | 4, 0 => some (giveRoutes d.card (routeTable s payload) s)
  | 5, 0 =>
    let rate := sx 32 (payload % 2 ^ 32)
    if -200000 ≤ rate ∧ rate ≤ 200000 then
      some { setReg s rTRate (cut 64 rate) with
        slew := s.slew + sx 32 (payload / 2 ^ 32 % 2 ^ 32) * 1000000000 }
    else none
  | _, _ => none

/-- A reply by DRREPLY0. -/
def dutyReply (tag code : Nat) (s : State) : State :=
  match s.duties.find? fun d => d.tag = some tag with
  | none => countReg rDrIgn 1 s
  | some d =>
    -- what a record asked for may have ended while it was outstanding
    if d.dead then countReg rDrIgn 1 (dropDuty tag s)
    else match dutyAct d code (reg s rDrReply1) (dropDuty tag s) with
      | some t => t
      | none => countReg rDrIgn 1 s

/-! ### Writing -/

/-- A write of ARM or PARM (R299, R301). A TIMED arming takes ARMTIME for its release. -/
def armWrite (path : ArmPath) (x : Nat) (s : State) : State :=
  (armCard path (x % 4096) (if x.testBit 12 then max 1 (reg s rArmTime) else 0) s).2

/-- DISARM (R303). The card's duty records, also those not yet written, stay outstanding with their tags, and a reply to
one does nothing but count (DESIGN CHOICE, log 97: the spec does not say what becomes of them). -/
def disarmCard (n : Nat) (s : State) : State :=
  let st := cState s n
  if st = 0 then s
  else if 4 ≤ st then modRun n (fun R => { R with disarmed := true, pend := none }) s
  else
    let s1 := modRun n (fun R => { R with pend := none, kill := none, replayAsk := false, placeAsk := false }) s
    toIdle n (endDuties n [0, 1, 2, 4] s1)

/-- Releases that were recorded as pending while releases were stopped become ready (R300). -/
def readyPending (s : State) : State :=
  s.runs.foldl (fun s x =>
    match x.2.pend with
    | some (rel, dl) => if cState s x.1 = 2 then makeReady x.1 rel dl s else s
    | none => s) s

/-- Setting DCTL.EN (R300): pending releases become ready, and the dispatcher decides; a suspend in progress keeps
both back (R400). -/
def dctlSet (s : State) : State :=
  let s1 := setReg s rDctl 1
  dispatch (if s1.susp.begun = 0 then readyPending s1 else s1)
/-- Clearing it. -/
def dctlClear (s : State) : State := setReg s rDctl 0

/-- A write of a job card's word, while its STATE is 0 (R295, R296). -/
def cardWrite (off x : Nat) (s : State) : State :=
  let w := (off - 0x10000) / 8
  let n := w / 16
  if cState s n ≠ 0 then s
  else
    let m := cardMask (w % 16)
    let old := regRead s off
    setCardFld n (64 * (w % 16) + 63) (64 * (w % 16)) ((old &&& notBits 64 m) ||| (x &&& m)) s

/-- A write of TLBINV (R291). -/
def tlbinvWrite (x : Nat) (s : State) : State :=
  let scope := nbits x 8 7
  if (reg s rTlbInv).testBit 63 || scope = 3 then s
  else
    let a := reg s rTlbInvAddr
    let ctx (c : Nat) : Bool := x.testBit 6 || c = x % 64
    let at0 (lo n : Nat) : Bool := decide (lo ≤ a) && decide (a < lo + n)
    let hit (t : Tlb) : Bool := ctx t.ctx &&
      (match scope with
        | 0 => at0 t.va t.size || at0 t.blk t.blkSize
        | 1 => true
        | _ => at0 t.ipa t.size || at0 t.iblk t.iblkSize)
    -- every table entry of the walk caches that may lead to the address
    let cached (w : WalkEnt) : Bool := ctx w.ctx && (scope ≠ 0 || at0 w.va w.size)
    { setReg s rTlbInv (x % 512 + 2 ^ 63) with
      tlb := s.tlb.filter fun t => !hit t
      walkCache := s.walkCache.filter fun w => !cached w
      tlbinv := s.tlb.filter hit }

/-- A write of REGLIM (R279): it takes effect at the next window's start, so the present window of each home agent
keeps the value it began with. -/
def regLimWrite (pid x : Nat) (s : State) : State :=
  let s1 := (List.range 16).foldl (fun s h =>
    let key := h * 64 + pid
    { s with regulators := nput s.regulators key (catchUp s pid (regulatorAt s key)) }) s
  setReg s1 (rRegLim pid) x

/-- HISTAT: ones clear (R387). -/
def histatWrite (x : Nat) (s : State) : State := setReg s rHiStat (reg s rHiStat &&& notBits 64 x)

/-- HIEN: a source that becomes enabled while it is pending sends one MSI (R387). -/
def hienWrite (x : Nat) (s : State) : State :=
  let old := reg s rHiEn
  let s1 := setReg s rHiEn (x % 256)
  let new := (List.range 8).filter fun n => x.testBit n && !old.testBit n && (reg s rHiStat).testBit n
  new.foldl (fun s n => sendMsi n s) s1

/-- Bits of LKCTL (R375): training begins where EN becomes 1, and wherever RETRAIN is written 1. -/
def lkctlWrite (n x : Nat) (s : State) : State :=
  let old := reg s (rLk n 0)
  let s1 := setReg s (rLk n 0) (x % 4)
  if x.testBit 1 || (x.testBit 0 && !old.testBit 0) then startTraining n s1 else s1

/-- Fields of a tree word that a write reaches, by the bytes it covers (R359): EN and CTXID only for an application
processor or the safety island. A group's write configures the tree for its job card (R361). -/
def treeApply (who : Agent) (off x : Nat) (bytes : List Nat) (s : State) : State :=
  let n := off % 0x1000 / 64
  let s : State := match who with
    | .group lk _ => { s with treePart := nput s.treePart n (launch s lk).partid }
    | _ => s
  let covers (lo hi : Nat) : Bool := bytes.any fun b => decide (lo ≤ b) && decide (b ≤ hi)
  match off / 8 % 8 with
  | 0 => treeCfg n 0 x s
  | 1 =>
    let own : Bool := who = .host || who = .island
    let s1 := if own && covers 0 0 then treeSet n 1 4 4 (nbits x 4 4) s else s
    let s2 := if own && covers 0 1 then treeSet n 1 10 5 (nbits x 10 5) s1 else s1
    let s3 := if covers 0 0 then treeCfg n 1 (x % 16) s2 else s2
    if covers 4 7 then treeCfg n 2 (x / 2 ^ 32) s3 else s3
  | 2 => if covers 0 3 then treeCfg n 3 (x % 2 ^ 32) s else s
  | 3 => treeCfg n 4 x s
  | _ => s

/-- A write of a tree's configuration takes its place among the tree's commands: behind a clear it waits (R362, R365). -/
def treeWrite (who : Agent) (off x : Nat) (bytes : List Nat) (s : State) : State :=
  if s.treeBusy.testBit (off % 0x1000 / 64) then { s with treeWait := s.treeWait ++ [⟨who, off, x, bytes⟩] }
  else treeApply who off x bytes s

/-- The writes that wait for tree `n` apply in order, up to one that clears it again. -/
def treeDrain (n : Nat) : List TreeWait → State → State
  | [], s => s
  | w :: ws, s =>
    if w.off % 0x1000 / 64 = n && !s.treeBusy.testBit n then
      let x := w.bytes.foldl (fun a b => setBits a (8 * b + 7) (8 * b) (nbits w.x (8 * b + 7) (8 * b))) (regRead s w.off)
      treeDrain n ws (treeApply w.who w.off x w.bytes { s with treeWait := s.treeWait.erase w })
    else treeDrain n ws s

/-- The last write of a tree's clear has performed (R365). -/
def treeCleared (n : Nat) (s : State) : State :=
  if s.treeBusy.testBit n then
    let s1 : State := { s with treeBusy := setBits s.treeBusy n n 0 }
    treeDrain n s1.treeWait s1
  else s

/-- WAKESET (R393, R402): as WAKE; on a suspended device a write from the ochre cluster is a wake event. -/
def wakesetWrite (who : Agent) (x : Nat) (s : State) : State :=
  let ochre := match who with
    | .group _ c => isOchre c
    | _ => false
  let s1 := if ochre && suspStat s ≠ 0 then { s with susp := { s.susp with wakeSeen := true } } else s
  wakeMask x s1

/-- MBCMD (R393): a command begins, unless one is in progress. -/
def mbWrite (x : Nat) (s : State) : State :=
  if (reg s rMbStat).testBit 0 then s
  else { setReg s rMbStat (reg s rMbStat ||| 1) with
    island := { s.island with mb := some (x % 256, nbits x 31 8) } }

/-- HBAP (R393). -/
def hbapWrite (x : Nat) (s : State) : State :=
  if x.testBit 0 then { s with island := { s.island with hbAt := s.now } } else s

/-- TSET (R378). -/
def tsetWrite (x : Nat) (s : State) : State := if s.now < x then { s with now := x } else s

/-- OCHWIN moves (R397): the lines of the old range and of the new one leave the L2, DRAM shows again where the ochre
SRAM stood, and the SRAM's contents stand at the new range with DRAM beneath them (DEDUCED, log 151). -/
def moveOchre (w : Nat) (s0 : State) : State :=
  let v := ochreWin s0
  if v = w then s0
  else
    let s := (s0.l2.filter fun x => inWindow v (128 * x.1) || inWindow w (128 * x.1)).foldl (fun s x => evictLine x.1 s) s0
    let put (m : List Host.Cell) (xs : List Host.Cell) : List Host.Cell := xs.foldl (fun m x => memSet m x.1 x.2) m
    let putP (m : NMap Bool) (xs : NMap Bool) : NMap Bool := xs.foldl (fun m x => nset false m x.1 x.2) m
    let sram := (s.mem.filter fun x => inWindow v x.1).map fun x => (x.1 - v + w, x.2)
    let sramP := (s.poison.filter fun x => inWindow v (64 * x.1)).map fun x => (x.1 - v / 64 + w / 64, x.2)
    let dram := put (s.mem.filter fun x => !inWindow v x.1) s.under
    let dramP := putP (s.poison.filter fun x => !inWindow v (64 * x.1)) s.underPois
    { s with
      mem := put (dram.filter fun x => !inWindow w x.1) sram
      poison := putP (dramP.filter fun x => !inWindow w (64 * x.1)) sramP
      under := dram.filter fun x => inWindow w x.1
      underPois := dramP.filter fun x => inWindow w (64 * x.1) }

/-- A register that only the safety island writes (R299, R375, R378, R393). -/
def islandOnly (off : Nat) : Bool := off = 0x18 || off = rDevid || off = 0x130010 || off = 0x180048

/-- A write of the whole of a register with value `x`; `bytes` are the bytes it covers (R12). -/
def regWrite (who : Agent) (off x : Nat) (bytes : List Nat) (s : State) : State :=
  if islandOnly off && who ≠ .island then s
  else match regKind off with
  | none => s
  | some .ro => s
  | some .w1c => histatWrite x s
  | some .wo =>
    (match off with
      | 0x08 => armWrite .arm x s
      | 0x18 => armWrite .parm x s
      | 0x20 => disarmCard (x % 4096) s
      | 0x98 => dutyReply (x % 2 ^ 32) (nbits x 35 32) s
      | 0x128 => askScan (x % 32) s
      | 0x101118 => faultReply (x % 2 ^ 32) (nbits x 33 32) s
      | 0x130010 => tsetWrite x s
      | 0x180000 => wakesetWrite who x s
      | 0x180010 => if x.testBit 0 then suspGo none (nbits x 51 12 * 4096) s else s
      | 0x180058 => hbapWrite x s
      | 0x180080 => mbWrite x s
      | _ => s)
  | some (.rw m) =>
    if 0x10000 ≤ off ∧ off < 0x90000 then cardWrite off x s
    else if off = rDctl then
      (if x.testBit 0 then (if reg s rDctl = 0 then dctlSet s else s) else dctlClear s)
    else if off = rTlbInv then tlbinvWrite x s
    else if 0x100200 ≤ off ∧ off < 0x100400 then regLimWrite ((off - 0x100200) / 8) (x &&& m) s
    else if off = rHiEn then hienWrite x s
    else if 0x110000 ≤ off ∧ off < 0x111000 then treeWrite who off x bytes s
    else if off = rDevid then setReg s off (devid s / 4 * 4 + x % 4)
    else if 0x120000 ≤ off ∧ off < rDevid then lkctlWrite ((off - 0x120000) / 0x100) x s
    else if off = rTdpw then setReg s off (max 60 (min 220 x))
    else if off = rOchWin then setReg (moveOchre (x &&& m) s) off (x &&& m)
    else if off = 0x101208 then setReg s off (min 20 (x % 32))
    else setReg s off (x &&& m)

/-! ### Accesses of 1, 2, 4 and 8 bytes (R12) -/

/-- Write bytes of the register region: the bytes a narrow write does not cover keep RW fields, and are 0 for
W1C and WO (R12). An access that no register takes is dropped and counted (R278). -/
def regStore (who : Agent) (off : Nat) (bs : List Byte) (s : State) : State :=
  if isEcam off then s
  else if !regFits off bs.length then countUe s
  else
    let base := off / 8 * 8
    let old := match regKind base with
      | some (.rw _) => regRead s base
      | _ => 0
    let lo := 8 * (off % 8)
    let x := setBits old (lo + 8 * bs.length - 1) lo (ofBytes bs)
    regWrite who base x ((List.range bs.length).map (off % 8 + ·)) s

/-! ### Accesses of the whole physical map -/

/-- Write bytes that lie in one sector at a physical address, as an agent of the device. -/
def busWrite (who : Agent) (pa : Nat) (bs : List Byte) (partid : Nat) (s : State) : State :=
  match paKind s pa with
  | .reg off => regStore who off bs s
  | _ => l2Write pa bs partid s

end Sys2Proof.Machine
end

