-- ==== Sys2Proof/Machine/Perform.lean ====
section
/-!
DEFINITION. Sys2Proof/Machine/Perform.lean: how an entry of a hold-back buffer performs at the L2, at a device,
at a tree or at the dispatcher (R148, R157, R214, R242 to R247, R251, R255, R260, R270, R286, R353, R431), and
how the result of a held word reaches its registers.
-/
namespace Sys2Proof.Machine

/-! ### Results of held words -/

/-- The groups that a performed word's results go to: both copies of a redundant card's group (R341). -/
def resultGroups (s : State) (g : Nat) : List Nat :=
  if cRedun s (gCard g) then [g / 2 * 2, g / 2 * 2 + 1] else [g]

/-- A result in one lane of a lane register; its quantum is sealed, so no rollback removes it. -/
def putV (n l x : Nat) (s : State) (g : Nat) : State :=
  match physReg (grp s g) n with
  | none => s
  | some m => engineWrite (pairOf s g) (.v g m l) (.set (.num (x % 2 ^ 32))) s
/-- A 64-bit result in a lane of a register pair. -/
def putV64 (n l x : Nat) (s : State) (g : Nat) : State := putV (n + 1) l (x / 2 ^ 32) (putV n l x s g) g
/-- A result in a uniform register. -/
def putU (n x : Nat) (s : State) (g : Nat) : State :=
  engineWrite (pairOf s g) (.u g n) (.set (.num (x % 2 ^ 64))) s
/-- Bits of a result in a predicate. -/
def putP (n : Nat) (xs : List (Nat × Bool)) (s : State) (g : Nat) : State :=
  engineWrite (pairOf s g) (.p g n) (.bits (predPut 0 (xs.map fun x => (x.1, true))) (predPut 0 xs)) s

/-- A loaded value in its destination (R115, R146). -/
def putLoad (d ty : Nat) (unif : Bool) (l x : Nat) (s : State) (g : Nat) : State :=
  let t := ty % 8
  if unif then putU d (cut 64 (tyInt t x)) s g
  else if itWide t then putV64 d l x s g else putV d l (tyReg t x) s g

/-- The value that an atomic returns in its destination. -/
def putAtom (ty d l x : Nat) (s : State) (g : Nat) : State :=
  if ty = 2 ∨ ty = 3 then putV64 d l x s g else putV d l x s g

/-- A write for each of some groups. -/
def forGroups (gs : List Nat) (f : State → Nat → State) (s : State) : State := gs.foldl f s

/-- A held word that has started. -/
def awaitsSeal (seq : Nat) (f : Flight) : Bool := f.seq = seq && match f.kind with
  | .held _ => true
  | _ => false

/-- The results of a held word go to the registers that it named where it stood (R29). -/
def rotFor (seq : Nat) (s : State) (g : Nat) : State :=
  match (grp s g).flights.find? (awaitsSeal seq) with
  | some f => useRot g f.word s
  | none => s

/-- A word in flight whose last held entry is gone completes; a raised trap may have waited for it (R32, R84). -/
def landHeld (seq : Nat) (s : State) (g : Nat) : State :=
  let left := s.pairs.any fun x => x.2.hb.any fun h => h.g = g && h.seq = seq && isGroupEntry h
  if left || !((grp s g).flights.any (awaitsSeal seq)) then s
  else
    deliver g (retireCheck g (modGrp s g fun G =>
      { G with
        flights := G.flights.filter (fun f => !awaitsSeal seq f)
        qret := G.qret + 1 }))

/-! ### Poison met at the perform (R431) -/

/-- Under contain the dispatcher ends the instance, as on a POISON trap with cause 4. -/
def poisonEnds (g seq va : Nat) (s : State) : State :=
  enterHost g { cls := clsPoison, cause := 4, pmode := (grp s g).supv, seq := seq, addr := BitVec.ofNat 64 va } s

/-- There is nothing at the address (R278). -/
def isHole (s : State) (pa : Nat) : Bool := paKind s pa = .hole

/-- What an access that found its sector only now does about poison: none where the instance ends; else the state
in which it goes on, the sector zeroed and counted under continue. -/
def cleanSector (lk partid pa : Nat) (s : State) : Option State :=
  if !isPoison s pa then some s
  else if (launch s lk).cont then some (countFor lk 1 (zeroSector pa partid s))
  else none

/-! ### Performing at memory -/

/-- Runs of consecutive bytes of a sector, by offset. -/
def byteRuns : List (Nat × Byte) → List (Nat × List Byte)
  | [] => []
  | (o, b) :: xs =>
    match byteRuns xs with
    | [] => [(o, [b])]
    | (p, bs) :: rs => if p = o + 1 then (o, b :: bs) :: rs else (o, [b]) :: (p, bs) :: rs

/-- A line that streaming stores brought into the L2 is a first candidate for eviction (R143). -/
def lowLine (pa : Nat) (s : State) : State :=
  match nfind s.l2 (pa / 128) with
  | some L => { s with l2 := nput s.l2 (pa / 128) { L with low := true } }
  | none => s

/-- A write of a launch performs within one sector: at the L2, or at a register (R12, R328, R329, R368). -/
def launchPut (mt : Nat) (but : Option (Nat × Nat)) (lk core va pa : Nat) (bytes : List Byte) (partid : Nat)
    (s : State) : State :=
  match paKind s pa with
  | .reg off => regStore (.group lk core) off bytes (extEff lk s)
  | _ => launchWriteAs mt but lk va pa bytes partid s

/-- The memory type of what an entry writes. -/
def entryMt (h : HB) : Nat :=
  match h.what with
  | .data _ _ _ _ true => 2
  | .devLoad .. => 2
  | .devAtom .. => 2
  | .devFill .. => 2
  | .output .. => h.mt
  | _ => b2n h.low

/-- The held bytes of a sector are written: to memory, to a device, or to nothing (R251, R278, R328, R329). -/
def putSector (h : HB) (va pa : Nat) (bytes : NMap Byte) (s : State) : State :=
  let put (s : State) (r : Nat × List Byte) : State :=
    launchPut (entryMt h) (h.back.map fun half => (tkOf h.g, half)) (lkOf h.g) h.core (va + r.1) (pa + r.1) r.2 h.acct s
  let s1 := (byteRuns bytes).foldl put s
  if h.low then lowLine pa s1 else s1

/-- One lane of an atomic at the L2 slice (R151, R152): its old value is returned. -/
def atomLane (h : HB) (op ty : Nat) (d : Option Nat) (gs : List Nat) (s : State) (a : AtomLane) : State :=
  let n := atomSize ty
  let old := if isHole s a.pa then 0 else ofBytes (l2Read s a.pa n)
  let s1 := launchPut (entryMt h) none (lkOf h.g) h.core a.va a.pa (toBytes n (atomNew op ty old a.b a.c)) h.acct s
  match d with
  | none => s1
  | some d => forGroups gs (putAtom ty d a.lane old) s1

/-- The lanes of a global atomic that address one sector perform as one step (R152, R260, R431). -/
def performAtom (h : HB) (op ty : Nat) (d : Option Nat) (lanes : List AtomLane) (gs : List Nat) (s : State) : State :=
  match lanes with
  | [] => s
  | a :: _ =>
    match cleanSector (lkOf h.g) h.acct a.pa s with
    | none => poisonEnds h.g h.seq a.va s
    | some s1 => lanes.foldl (atomLane h op ty d gs) s1

/-- A device-type load of one lane (R255, R286). -/
def performDevLoad (h : HB) (d ty : Nat) (unif : Bool) (lane va pa : Nat) (gs : List Nat) (s : State) : State :=
  let s0 := extEff (lkOf h.g) s
  match busRead s0 pa (mtSize ty) with
  | some x => forGroups gs (putLoad d ty unif lane x) s0
  | none =>
    if (launch s0 (lkOf h.g)).cont then forGroups gs (putLoad d ty unif lane 0) (countFor (lkOf h.g) 1 s0)
    else poisonEnds h.g h.seq va s0

/-- A device-type atomic of one lane (R255, R286). -/
def performDevAtom (h : HB) (op ty : Nat) (d : Option Nat) (a : AtomLane) (gs : List Nat) (s : State) : State :=
  let s0 := extEff (lkOf h.g) s
  let n := atomSize ty
  match paKind s0 a.pa with
  | .reg _ =>
    let r := busRead s0 a.pa n
    if r.isNone && !(launch s0 (lkOf h.g)).cont then poisonEnds h.g h.seq a.va s0
    else
      let old := r.getD 0
      let s1 := if r.isNone then countFor (lkOf h.g) 1 s0 else s0
      let s2 := busWrite (.group (lkOf h.g) h.core) a.pa (toBytes n (atomNew op ty old a.b a.c)) h.acct s1
      match d with
      | none => s2
      | some d => forGroups gs (putAtom ty d a.lane old) s2
  | _ => performAtom h op ty d [a] gs s0

/-- The fill of a stash window's granule from device-type memory (R160, R255, R431): no register answers an access of a
whole sector (R12). -/
def performDevFill (h : HB) (tk half gran va pa : Nat) (s : State) : State :=
  let s0 := extEff (lkOf h.g) s
  let base := pa / 64 * 64
  let lost := (busRead s0 base 64).isNone
  if lost && !(launch s0 (lkOf h.g)).cont then poisonEnds h.g h.seq va s0
  else
    putFill tk half gran (pa / 64) (fun i => if lost then 0 else memGet s0.mem (base + i))
      (if lost then countFor (lkOf h.g) 1 s0 else s0)

/-- A cluster transaction-barrier update at the L2 slice (R214, R431): TBEXP and TBARR of an object that is not
initialised do nothing. -/
def performTb (h : HB) (op va pa : Nat) (x : Int) (s : State) : State :=
  match cleanSector (lkOf h.g) h.acct pa s with
  | none => poisonEnds h.g h.seq va s
  | some s1 =>
    let o := tbOf (ofBytes (l2Read s1 pa 16))
    if op ≠ 1 && o.kind ≠ 2 then s1
    else launchPut 0 none (lkOf h.g) h.core va pa (toBytes 16 (tbNum (tbUpdate op x o))) h.acct s1

/-- CWB at the L2 (R157): the 128-byte line goes to DRAM where it is dirty, and stays valid. -/
def performLine (pa : Nat) (s : State) : State := writeBack (pa + 64) (writeBack pa s)
/-- CINV: the line goes to DRAM where it is dirty, and leaves every cache, those of the application processors among
them. -/
def performInv (pa : Nat) (s : State) : State :=
  let t := dropL1 (pa / 128) (evictLine (pa / 128) s)
  { t with apLines := t.apLines.filter fun x => x / 2 ≠ pa / 128 }

/-- A walker's staged outputs are written (R353): a last byte of which only some bits belong to the run keeps its
other bits, as the slice or a register holds them. An empty run stands for a step that writes nothing. -/
def performOutput (h : HB) (lk va pa : Nat) (bytes : List Byte) (tail : Nat) (s : State) : State :=
  if bytes.isEmpty then s
  else
  let n := bytes.length
  let last := match bytes.getLast? with
    | some b => if tail = 0 then b
        else BitVec.ofNat 8 (setBits (heldOrZero s (pa + n - 1)) (tail - 1) 0 b.toNat)
    | none => 0
  launchPut h.mt none lk h.core va pa (bytes.dropLast ++ [last]) h.acct s
where
  /-- the byte as it stands -/
  heldOrZero (s : State) (pa : Nat) : Nat :=
    match paKind s pa with
    | .reg off => (regLoad s off 1).getD 0
    | _ => (memGet s.mem pa).toNat

/-! ### Performing at the tree, the dispatcher and the core's own units -/

/-- Put what a tree command returns. -/
def treeResults (o : TreeOut) (s : State) (g : Nat) : State :=
  let s1 := o.v.foldl (fun s x => putV x.1 x.2.1 x.2.2 s g) s
  let s2 := match o.p with
    | none => s1
    | some (d, xs) => putP d xs s1 g
  match o.u with
  | none => s2
  | some (d, x) => putU d x s2 g

/-- A sum-tree command performs (R234, R362). -/
def performTree (h : HB) (n : Nat) (c : TreeCmd) (gs : List Nat) (s : State) : State :=
  let l := launch s (lkOf h.g)
  let r := treePerform n l.ctx h.acct l.width c (if treeExt c then extEff (lkOf h.g) s else s)
  forGroups gs (treeResults r.1) r.2

/-- A system word performs (R242 to R247). -/
def performSys (h : HB) (c : SysCmd) (gs : List Nat) (s0 : State) : State :=
  let lk := lkOf h.g
  let s := match c with
    | .jobDone => s0
    | _ => extEff lk s0
  match c with
  | .sysWr r x =>
    if r = 0 then modPair s (h.core / 2) fun P => { P with sealWin := sealWinOf x }
    else
      let both := if cRedun s (lk / 2) then [lk / 2 * 2, lk / 2 * 2 + 1] else [lk]
      both.foldl (fun s k => modLaunch s k fun l => { l with tvec := BitVec.ofNat 64 (x / 256 * 256) }) s
  | .wake x => wakeMask x s
  | .gate d x =>
    let m := gateMask s h.core (x % 2 ^ 32)
    forGroups gs (putU d m) { s with gating := s.gating ||| m }
  | .jobArm t rel => (armCard (.job (lk / 2)) t rel s).2
  | .jobDone => modRun (lk / 2) (fun R => { R with jobDone := some (R.jobDone.getD s.now) }) s
  | .susp a => suspGo (some h.g) a s
  | .fltRply tag code => faultReply tag code s

/-- SUSP completes after resume, not when it performs (R246): one that began the suspend. -/
def landsLater (before : State) (h : HB) : Bool :=
  match h.what with
  | .sys (.susp _) => suspStat before = 0
  | _ => false

/-! ### One entry -/

/-- What an entry does as it performs. -/
def performHeld (h : HB) (s : State) : State :=
  let gs := resultGroups s h.g
  match h.what with
  | .data va pa bytes _ _ => putSector h va pa bytes s
  | .atom op ty d lanes _ _ => performAtom h op ty d lanes gs s
  | .devLoad d ty unif lane va pa _ _ => performDevLoad h d ty unif lane va pa gs s
  | .devAtom op ty d a _ _ => performDevAtom h op ty d a gs s
  | .devFill tk half gran va pa => performDevFill h tk half gran va pa s
  | .tb op va pa _ x => performTb h op va pa x s
  | .cwb _ pa => performLine pa s
  | .cinv _ pa => performInv pa s
  | .tree n c => performTree h n c gs s
  | .sys c => performSys h c gs s
  | .image pa bytes _ => busWrite .outside pa bytes h.acct s
  | .output lk _ _ va pa bytes tail => performOutput h lk va pa bytes tail s

/-- Entry `n` of a pair's buffers is freed. -/
def dropEntry (pr n : Nat) (s : State) : State := modPair s pr fun P => { P with hb := P.hb.eraseIdx n }

/-- A word's destinations take free values: the entry that would have given them is lost. -/
def freeDests (seq : Nat) (s : State) (g : Nat) : State :=
  match (grp s g).flights.find? (awaitsSeal seq) with
  | none => s
  | some f => f.dests.foldl (fun s r => match r with
      | .v n => (maskList 64 f.mask.toNat).foldl (fun s l => putV n l (Config.freeValue (s.ticks + 64 * n + l)) s g) s
      | .u n => putU n (Config.freeValue (s.ticks + n)) s g
      | .p n => putP n ((List.range 64).map fun l => (l, decide (Config.freeValue (s.ticks + l) % 2 = 1))) s g
      | _ => s) s

/-- An entry in which an uncorrectable error stands leaves its sectors poisoned in place of its effect (R334). -/
def spoilt (h : HB) (s : State) : State :=
  forGroups (resultGroups s h.g) (freeDests h.seq) ((entrySectors h).foldl (fun s x => poisonSector (64 * x) s) s)

/-- An uncorrectable error strikes entry `n` of a pair, once its quantum is sealed (R334). -/
def spoilEntry (pr n : Nat) (s : State) : State :=
  modPair s pr fun P =>
    { P with hb := P.hb.modify n fun h =>
        if h.sealed || (isGroupEntry h && decide (h.seq < sealedBelow (grp s h.g))) then { h with bad := true } else h }

/-- An entry performs and is freed, and a word that waited for it alone completes. -/
def performAt (pr n : Nat) (h : HB) (s0 : State) : State :=
  let later := landsLater s0 h && !h.bad
  let s := if isGroupEntry h then forGroups (resultGroups s0 h.g) (rotFor h.seq) s0 else s0
  let s1 := dropEntry pr n (if h.bad then spoilt h s else performHeld h s)
  if !isGroupEntry h || later then s1 else forGroups (resultGroups s1 h.g) (landHeld h.seq) s1

/-! ### Order between entries (R148, R207, R234, R251, R286) -/

/-- The release form of an entry: 0 none, 1 behind its group's earlier entries, 2 behind its copies too. -/
def entryRel (h : HB) : Nat :=
  match h.what with
  | .data _ _ _ rel _ => rel
  | .atom _ _ _ _ _ rel => b2n rel
  | .devLoad _ _ _ _ _ _ _ rel => b2n rel
  | .devAtom _ _ _ _ _ rel => b2n rel
  | _ => 0

/-- A device-type access or a system word: those of one group perform in order. -/
def entryDev (h : HB) : Bool :=
  match h.what with
  | .data _ _ _ _ dev => dev
  | .devLoad .. => true
  | .devAtom .. => true
  | .devFill .. => true
  | .sys _ => true
  | _ => false

/-- The tree of a tree command. -/
def entryTree (h : HB) : Option Nat :=
  match h.what with
  | .tree n _ => some n
  | _ => none

/-- An earlier entry of the pair keeps a later one from performing: device-type accesses and system words of one group
perform in order, and so do the commands to one tree and the writes to one sector. -/
def keepsBack (e h : HB) : Bool :=
  (e.g = h.g && entryDev e && entryDev h) || ((entryTree h).isSome && entryTree e = entryTree h) ||
    (entrySectors e).any fun x => (entrySectors h).contains x

/-- The accesses that a release orders before an entry have performed: every earlier M word of its own group, and the
stores and atomics that the group had seen (R148, R258); and for a ring's tail the group's earlier copies have completed
(R207). -/
def releaseMay (s : State) (h : HB) : Bool :=
  (entryRel h = 0 || !(heldBefore s h.g h.seq h.after).any fun e => isWriteEntry e || (e.g = h.g && fenceWaits e)) &&
    (entryRel h ≠ 2 ||
      !((s.cores.flatMap (fun x => x.2.cmds) ++ s.savedParts.flatMap fun x => x.2.cmds).any fun c =>
        !c.batch && c.g = h.g && decide (c.seq < h.seq)))

/-- A sealed entry may perform now: nothing earlier keeps it back, and no stopped link (R374). -/
def entryMay (s : State) (pr n : Nat) (h : HB) : Bool :=
  h.sealed && !((pair s pr).hb.take n).any (fun e => keepsBack e h) && releaseMay s h &&
    !((entrySectors h).any fun x => linkHolds s (64 * x)) &&
    (match entryTree h with
      | some t => !s.treeBusy.testBit t
      | none => true)

/-- The sectors that an entry reads through the L2 as it performs, each with its memory type: those it writes are filled
where the L2 takes them (R272, R273), and a device-type store reads none. -/
def entryReads (s : State) (h : HB) : List (Nat × Nat) :=
  let all := (entrySectors h).map fun x => (64 * x, entryMt h)
  let filled := all.filter fun x => x.2 ≠ 2 && allocates s x.1 h.acct
  match h.what with
  | .data .. => filled
  | .image .. => filled
  | .output .. => filled
  | .cwb .. => []
  | .cinv .. => []
  | _ => all

/-- What an entry reads has come: else a regulator has deferred it (R279), or DRAM sleeps (R397). -/
def entryServed (h : HB) (s : State) : Bool × State :=
  if h.bad then (true, s)
  else if (entrySectors h).any fun x => dramSleeps s (64 * x) then (false, meetAsleep s)
  else askReads (.entry h.num) h.acct (entryReads s h) s

/-- An entry performs, once what it reads has come. -/
def performReady (pr n : Nat) (h : HB) (s : State) : State :=
  let r := entryServed h s
  if r.1 then performAt pr n h r.2 else r.2

/-- An entry of a launch in normal mode performs, if it may. -/
def drainEntry (pr n : Nat) (want : HB → Bool) (s : State) : State :=
  match (pair s pr).hb[n]? with
  | none => s
  | some h => if want h && entryMay s pr n h then performReady pr n h s else s

/-- What kind of event performs an entry: 0 stores, line maintenance and image writes; 1 atomics; 2 cluster
transaction barriers; 3 device-type loads and atomics; 4 system words; 5 JOBARM; 6 tree commands; 7 outputs of
walkers. -/
def entryKind (h : HB) : Nat :=
  match h.what with
  | .data .. => 0
  | .cwb .. => 0
  | .cinv .. => 0
  | .image .. => 0
  | .atom .. => 1
  | .tb .. => 2
  | .devLoad .. => 3
  | .devAtom .. => 3
  | .devFill .. => 3
  | .sys (.jobArm _ _) => 5
  | .sys _ => 4
  | .tree .. => 6
  | .output .. => 7

end Sys2Proof.Machine
end

