-- ==== Sys2Proof/Machine/Seal.lean ====
section
/-!
DEFINITION. Sys2Proof/Machine/Seal.lean: the events that close, complete and seal quanta and perform what they
held (R33 to R36, R229, R251, R269, R309, R333, R341, R430), the commit of epochs, and the start of waves.
-/
namespace Sys2Proof.Machine

/-! ### Closing (R33) -/

/-- A pair's quantum closes for every group in normal mode; instances are charged, and the dispatcher decides
(R305, R316). -/
def closeNow (pr : Nat) (s : State) : State := dispatch (closePair pr none s)

/-- QUANTUM_TIMED_CLOSE (R33): 512 ns after the pair's quantum opened. -/
def timedClose (pr : Nat) (s : State) : State :=
  if pr < 17 && decide ((pair s pr).openAt + 512 ≤ s.now) then closeNow pr s else s

/-- QUANTUM_WORD_COUNT_CLOSE (R33): a group has retired 4,096 words in the open quantum. -/
def wordCountClose (pr : Nat) (s : State) : State :=
  if (groupsOn s pr).any fun g => !isDet s g && decide (4096 ≤ (grp s g).qret) then closeNow pr s else s

/-- A journal or hold-back buffer of a pair in normal mode is full (R33, R269). -/
def capacityFull (s : State) (pr : Nat) : Bool :=
  let gs := (groupsOn s pr).filter fun g => !isDet s g
  [2 * pr, 2 * pr + 1].any fun c =>
    decide (holdCap c ≤ holdCount s c) ||
      [0, 1].any fun sh =>
        decide (shareCap c sh ≤ ((gs.filter fun g => coreOf s g = c).map fun g =>
          chargeSum s g 0 sh (fun _ => true)).sum)

/-- QUANTUM_CAPACITY_CLOSE (R33). -/
def capacityClose (pr : Nat) (s : State) : State := if capacityFull s pr then closeNow pr s else s

/-- A group has no further word to issue: what it waits for is its last commits (R23, R32). -/
def exhausted (G : Group) : Bool :=
  !G.s0.valid && !G.s1.valid && G.depth = 0 && (unstarted G).isEmpty && G.flights.all (·.ok) && G.handler.isNone

/-- DET_QUANTUM_CLOSE (R33): after Q words or where a share fills; a group with no further words closes its last
quantum (R36). -/
def detCloseNow (g : Nat) (s : State) : State :=
  if !isDet s g then s
  else
    let s1 := detClose g s
    let G := grp s1 g
    if (G.retired || exhausted G) && decide (G.qlo < G.nextSeq) then closeGroup g G.nextSeq s1 else s1

/-! ### Sealing (R34) -/

/-- An entry of JOBDONE. -/
def isJobDone (h : HB) : Bool := h.what = .sys .jobDone

/-- The instance completes for its deadline at the seal of its first JOBDONE (R245, R315). -/
def noteJobDone (n : Nat) (s : State) : State :=
  modRun n (fun R => { R with jobDone := some (R.jobDone.getD s.now) }) s

/-- The effects of the seal of a group's oldest closed quantum: in normal mode everything it holds is released,
and its journal entries are freed; in deterministic mode they wait for the epoch's commit, since a pre-emption
returns the group to it (R309, R430). -/
def sealGroup (s : State) (g : Nat) : State :=
  let G := grp s g
  match G.closed with
  | [] => s
  | q :: qs =>
    let pr := pairOf s g
    let inQ (n : Nat) : Bool := decide (q.lo ≤ n) && decide (n < q.hi)
    if isDet s g then freePorts g (modGrp s g fun G => { G with closed := qs, sealedQ := G.sealedQ ++ [q] })
    else
      let s1 := modGrp s g fun G => { G with closed := qs }
      let s2 := modPair s1 pr fun P =>
        { P with
          hb := P.hb.map (fun h =>
            if h.g = g && inQ h.seq && isGroupEntry h then { h with sealed := true, tag := q.pq } else h)
          journal := journalSeal (fun u => u.g = g && decide (u.seq < q.hi)) [] P.journal }
      let sealCmd (c : Cmd) : Cmd := if c.g = g && inQ c.seq then { c with sealed := true } else c
      let deadW (w : Watch) : Bool := match w.dead with
        | some (h, n) => h = g && inQ n
        | none => false
      let onCore (x : Nat × Core) : Nat × Core :=
        (x.1, { x.2 with
          cmds := x.2.cmds.map sealCmd
          watches := x.2.watches.filter fun w => !deadW w })
      let s3 : State := { s2 with
        cores := s2.cores.map onCore
        msgs := s2.msgs.filter fun m =>
          !(m.ddev = deviceNo s2 && m.dst = g && (match m.taken with
            | some n => inQ n
            | none => false)) }
      freePorts g (if (pair s pr).hb.any fun h => h.g = g && inQ h.seq && isJobDone h then noteJobDone (gCard g) s3 else s3)

/-- The groups of a pair whose oldest closed quantum closed with the pair's quantum `q`. -/
def headsOf (s : State) (pr q : Nat) : List Nat :=
  (allOn s pr).filter fun g => !isDet s g && match (grp s g).closed with
    | x :: _ => x.pq = q
    | [] => false

/-- The pair's oldest closed quantum may be sealed: it is complete for each of its groups and its seal window
has passed (R34, R331). -/
def pairSealDue (s : State) (pr q closedAt : Nat) : Bool :=
  let gs := headsOf s pr q
  gs.all (sealDue s) && decide (closedAt + (pair s pr).sealWin ≤ s.now)

/-- QUANTUM_SEAL of a pair: completion is noted first, and the seal follows once the window has passed. -/
def sealPair (pr : Nat) (s0 : State) : State :=
  match (pair s0 pr).pqs with
  | [] => s0
  | (q, t) :: rest =>
    let s := (headsOf s0 pr q).foldl (fun s g => markComplete g s) s0
    if !pairSealDue s pr q t then s
    else
      let s1 := (headsOf s pr q).foldl sealGroup s
      modPair s1 pr fun P =>
        { P with
          pqs := rest
          rolls := 0
          sealedAt := some s.now
          hb := P.hb.map fun h => if !isGroupEntry h && h.seq = q then { h with sealed := true } else h }

/-- QUANTUM_SEAL of a group in deterministic mode. -/
def sealDet (g : Nat) (s0 : State) : State :=
  let s := markComplete g s0
  if isDet s g && sealDue s g then
    modPair (sealGroup s g) (pairOf s g) fun P => { P with sealedAt := some s.now }
  else s

/-! ### What a commit applies (R36, R430) -/

/-- The launch keys that commit together: both copies of a redundant card. -/
def commitKeys (s : State) (n : Nat) : List Nat := if cRedun s n then [2 * n, 2 * n + 1] else [2 * n]

/-- The groups of a card's wave in progress. -/
def waveGroups (s : State) (n : Nat) : List Nat :=
  (s.groups.filter fun x => (commitKeys s n).contains (lkOf x.1)).map (·.1)

/-- A group has closed and sealed its quantum `e`, or has retired with every quantum sealed (R36). -/
def epochSealed (s : State) (e g : Nat) : Bool :=
  let G := grp s g
  match G.sealedQ with
  | q :: _ => q.num = e
  | [] => G.retired && G.closed.isEmpty && G.qlo = G.nextSeq

/-- Every group of the wave in progress has sealed the next epoch's quantum; one of them has one to commit. -/
def epochDue (s : State) (n : Nat) : Bool :=
  let e := (launch s (2 * n)).epoch
  let gs := waveGroups s n
  (launch s (2 * n)).det && !gs.isEmpty && gs.all (epochSealed s e) &&
    gs.any (fun g => !(grp s g).sealedQ.isEmpty) && (run s n).kill.isNone

/-- The sequence numbers of a group's quantum that the next commit applies. -/
def commitRange (s : State) (e g : Nat) : Nat × Nat :=
  match (grp s g).sealedQ with
  | q :: _ => if q.num = e then (q.lo, q.hi) else (0, 0)
  | [] => (0, 0)

/-- One communication of an epoch: group, word, and what it is. -/
inductive Comm where
  | entry (pr n : Nat) (h : HB)
  | copy (k : Nat) (c : Cmd)
  | treg (pr : Nat) (t : TeamWrite)
deriving DecidableEq, Repr

/-- Its group and word. -/
def Comm.place (x : Comm) : Nat × Nat :=
  match x with
  | .entry _ _ h => (h.g, h.seq)
  | .copy _ c => (c.g, c.seq)
  | .treg _ t => (t.g, t.seq)

/-- The communications that the next commit has still to apply, in no order. -/
def comms (s : State) (n : Nat) : List Comm :=
  let e := (launch s (2 * n)).epoch
  let gs := waveGroups s n
  let here (g seq : Nat) : Bool :=
    gs.contains g && decide ((commitRange s e g).1 ≤ seq) && decide (seq < (commitRange s e g).2)
  (s.pairs.flatMap fun p =>
    ((p.2.hb.zipIdx).filterMap fun x =>
      if isGroupEntry x.1 && here x.1.g x.1.seq then some (.entry p.1 x.2 x.1) else none) ++
    (p.2.tw.filterMap fun t => if here t.g t.seq then some (.treg p.1 t) else none)) ++
  (s.cores.flatMap fun c => c.2.cmds.filterMap fun x =>
    if !x.sealed && here x.g x.seq then some (.copy c.1 x) else none)

/-- The first communication in group order, then sequence order, then entry order. -/
def firstComm : List Comm → Option Comm
  | [] => none
  | x :: xs =>
    match firstComm xs with
    | none => some x
    | some y =>
      let a := x.place
      let b := y.place
      if decide (b.1 < a.1) || (b.1 = a.1 && decide (b.2 < a.2)) then some y else some x

/-- A team-register write commits (R104, R430). -/
def commitTreg (pr : Nat) (t : TeamWrite) (s : State) : State :=
  modPair (writeItem s (.t (tkOf t.g) t.n) (.num t.x)) pr fun P => { P with tw := P.tw.erase t }

/-- The epoch has been applied: its quanta are committed, and their journal entries are freed. -/
def endCommit (n : Nat) (s : State) : State :=
  let e := (launch s (2 * n)).epoch
  let s1 := (waveGroups s n).foldl (fun s g =>
    let r := commitRange s e g
    let s2 := modPair s (pairOf s g) fun P =>
      { P with journal := journalSeal (fun u => u.g = g && decide (u.seq < r.2)) [] P.journal }
    modGrp s2 g fun G => { G with
      sealedQ := G.sealedQ.filter fun q => q.num ≠ e
      gone := G.gone.filter fun n => !decide (n < r.2) }) s
  let s2 := (commitKeys s n).foldl (fun s lk => modLaunch s lk fun l =>
    { l with epoch := e + 1, committing := false, mism := 0, agreed := false }) s1
  let s3 : State := { s2 with
    msgs := s2.msgs.filter fun m =>
      !(m.ddev = deviceNo s2 && (waveGroups s2 n).contains m.dst && (match m.taken with
        | some q => released s2 m.dst q
        | none => false)) }
  (waveGroups s3 n).foldl (fun s g => freePorts g s) s3

/-! ### Redundant execution (R341) -/

/-- A communication of a redundant copy as the hold-back buffers compare it: group and word, an entry, the fields
of a copy command, or a team-register write. -/
structure CommKey where
  g : Nat
  seq : Nat
  held : Option Held := none
  pairs : Option CopyPairs := none
  cmd : List Nat := []
  treg : Option (Nat × Nat) := none
deriving DecidableEq, Repr

/-- What is compared. -/
def commKey (x : Comm) : CommKey :=
  match x with
  | .entry _ _ h => { g := h.g / 2, seq := h.seq, held := some h.what }
  | .copy _ c =>
    { g := c.g / 2, seq := c.seq, pairs := some c.pairs,
      cmd := [c.dsp, c.ssp, c.comp, c.compAddr, b2n c.time.isSome, c.time.getD 0] }
  | .treg _ t => { g := t.g / 2, seq := t.seq, treg := some (t.n, t.x) }

/-- The communications of a copy, in the order of a commit. -/
def orderedComms : Nat → List Comm → List Comm
  | 0, _ => []
  | fuel + 1, xs =>
    match firstComm xs with
    | none => []
    | some x => x :: orderedComms fuel (xs.erase x)

/-- The pairs that hold a card's wave. -/
def wavePairs (s : State) (n : Nat) : List Nat := ((waveGroups s n).map (pairOf s)).dedup

/-- Both copies' groups on a pair hold the same communications for the next epoch: the two copies of a group stand on one
pair. -/
def pairAgrees (s : State) (n p : Nat) : Bool :=
  let xs := (comms s n).filter fun x => pairOf s x.place.1 = p
  let side (k : Nat) : List Comm := xs.filter fun x => x.place.1 % 2 = k
  decide ((orderedComms xs.length (side 0)).map commKey = (orderedComms xs.length (side 1)).map commKey)

/-- Both copies hold the same communications for the next epoch. -/
def copiesAgree (s : State) (n : Nat) : Bool := (wavePairs s n).all (pairAgrees s n)

/-- A redundant instance fails with LOST after a second mismatch: a quarantined core of a pair whose copies differ is
retired, otherwise both of its cores are scanned (R341). -/
def mismatchLost (n : Nat) (s : State) : State :=
  let ps := (wavePairs s n).filter fun p => !pairAgrees s n p
  let cs := ps.flatMap fun p => [2 * p, 2 * p + 1]
  let blame (s : State) (p : Nat) : State :=
    let two := [2 * p, 2 * p + 1]
    let quar := two.filter fun c => (reg s rQuar).testBit c
    if quar.isEmpty then two.foldl (fun s c => askScan c s) s
    else quar.foldl (fun s c => setReg s rRetired (reg s rRetired ||| 2 ^ c)) s
  let s1 := ps.foldl blame s
  killCard n { killFor s1 n clsLost 0 with cores := maskOf 34 fun c => cs.contains c } s1

/-- REDUNDANT_COMPARE (R341). -/
def compareCopies (n : Nat) (s : State) : State :=
  if !cRedun s n || !epochDue s n || (launch s (2 * n)).agreed then s
  else if copiesAgree s n then
    [2 * n, 2 * n + 1].foldl (fun s lk => modLaunch s lk fun l => { l with agreed := true }) s
  else if (launch s (2 * n)).mism = 0 then
    let s1 := [2 * n, 2 * n + 1].foldl (fun s lk => modLaunch s lk fun l => { l with mism := 1 }) s
    let s2 := modRun n (fun R => { R with rolls := R.rolls + 1 }) (countReg rMismatch 1 s1)
    (wavePairs s n).foldl (fun s p => rollPair p (fun g => gCard g = n) s) s2
  else mismatchLost n (countReg rMismatch 1 s)

/-! ### Waves (R36) -/

/-- Nothing of a group is left to commit. -/
def groupSpent (s : State) (g : Nat) : Bool :=
  let G := grp s g
  G.retired && G.flights.isEmpty && G.closed.isEmpty && G.sealedQ.isEmpty && G.qlo = G.nextSeq

/-- No entry, copy or card of a card's wave is left. -/
def waveDrained (s : State) (n : Nat) : Bool :=
  let ks := commitKeys s n
  !(s.pairs.any fun p => p.2.hb.any fun h => ks.contains (lkOf h.g)) &&
    !(s.cores.any fun c => (c.2.cmds.any fun x => ks.contains x.lk) || (c.2.jobs.any fun j => j.live && ks.contains j.lk)) &&
    !(s.savedParts.any fun c => (c.2.cmds.any fun x => ks.contains x.lk) || (c.2.jobs.any fun j => j.live && ks.contains j.lk)) &&
    !(s.msgs.any fun m => m.stage = 0 && m.sdev = deviceNo s && ks.contains (lkOf m.src))

/-- The teams of a wave go, and their cores are free for the next. Port channels stay until the launch ends (R228). -/
def endWave (lk : Nat) (s : State) : State :=
  let s1 := dropEngines lk true s
  let s2 := modLaunch s1 lk fun l => { l with parts := [], wins := [], wave := l.wave + 1, epoch := 0 }
  { s2 with
    groups := s2.groups.filter fun x => lkOf x.1 ≠ lk
    teams := s2.teams.filter fun x => lkOfT x.1 ≠ lk }

/-- WAVE_START (R36): every group of the wave has retired and committed. -/
def startWave (n : Nat) (s : State) : State :=
  let l := launch s (2 * n)
  if l.det && (run s n).kill.isNone && !(waveGroups s n).isEmpty && (waveGroups s n).all (groupSpent s) &&
      waveDrained s n && decide (waveEnd l < l.nteams) then
    dispatch ((commitKeys s n).foldl (fun s lk => endWave lk s) s)
  else s

end Sys2Proof.Machine
end

