-- ==== Sys2Proof/Machine/Engines.lean ====
section
/-!
DEFINITION. Sys2Proof/Machine/Engines.lean: the copy engines at work (R194 to R201, R205, R207, R298, R344): chunks,
completion with its credit, ring posts and pulls, copy batches, and what an epoch commit does with a copy.
-/
namespace Sys2Proof.Machine

/-! ### Reading a chunk (R194, R199, R200, R254) -/

/-- The pairs of a chunk. -/
def chunkPairs (c : Cmd) (ch : Nat) : List (Int × Int) :=
  (List.range (min 4096 (c.pairs.total - 4096 * ch))).map fun i => c.pairs.pairAt (4096 * ch + i)

/-- What the source of a chunk answers: bytes, each with whether it is poisoned; faults by page; a byte the pair
holds back; or a walk that reads poison. -/
inductive ChunkGot where
  | ok (bs : List (Byte × Bool))
  | faults (fs : List (Nat × Nat × Nat × Nat))
  | held
  | ends

/-- The page of one side of a chunk was answered POISON or FAIL. -/
def Cmd.badPage (c : Cmd) (ch : Nat) (dst : Bool) (p : Nat) : Bool := c.bad.contains (ch * 2 ^ 64 + 2 * p + b2n dst)

/-- A command of a core by its number. -/
def cmdAt (s : State) (k id : Nat) : Option Cmd := (core s k).cmds.find? fun c => c.id = id

/-- The command counts poisoned sectors that it has not met before (R165, R200). -/
def meetPois (c : Cmd) (xs : List Nat) (s : State) : State :=
  let met := ((cmdAt s c.core c.id).getD c).met
  let new := xs.filter fun x => !met.contains x
  countFor c.lk new.length (modCmd c.id (fun y => { y with met := y.met ++ new }) s)

/-- Local source bytes: poisoned granules give poison under contain, and zeros under continue. A byte outside the
window, which only an index list changed after acceptance can name, is open. -/
def localSource (c : Cmd) (xs : List Int) (s : State) : List (Byte × Bool) × State :=
  let tk := tkOf c.g
  let cont := (launch s c.lk).cont
  let places := xs.map (localAt s c.g)
  let bad := ((places.filterMap id).map fun p => (p.1, p.2 / 64)).dedup.filter fun p =>
    nget false ((team s tk).pois p.1) p.2
  (places.zipIdx.map fun x =>
    match x.1 with
    | none => (BitVec.ofNat 8 (Config.freeValue (s.ticks + x.2)), false)
    | some p =>
      let b := memGet ((team s tk).mem p.1) p.2
      if bad.contains (p.1, p.2 / 64) then (if cont then (0, false) else (b, true)) else (b, false),
   if cont then meetPois c (bad.map fun p => 2 ^ 64 + p.1 * 2 ^ 32 + p.2) s else s)

/-- Global source bytes (R199, R200, R344). -/
def globalSource (c : Cmd) (ch : Nat) (xs : List Nat) (s : State) : ChunkGot × State :=
  let l := launch s c.lk
  let bad (va : Nat) : Bool := c.badPage ch false (va / 4096)
  let pages := (runPages (xs.map fun a => (a, 1))).filter fun p => !bad (4096 * p.1)
  let r := xlatePages c.core c.lk .read pages s
  let s1 := r.2.2
  let good := xs.filter fun a => !bad a
  if r.2.1.any fun f => f.2.2.1 = causeAsleep then (.held, s1)
  else if r.2.1.any fun f => f.2.2.1 = 8 then (.ends, s1)
  else if !r.2.1.isEmpty then
    -- in hardware mode a fault that no fill serves poisons all that the chunk writes
    if faultHw s1 (c.lk / 2) then (.ok (xs.map fun _ => (0, true)), s1) else (.faults r.2.1, s1)
  else if (!l.det || c.pull) && good.any (fun a => heldOnPair s1 (c.core / 2) (pageAt r.1 a)) then (.held, s1)
  else
    let secs := (good.map (· / 64)).dedup
    if secs.any fun x => linkHoldsOn s1 (if c.pull then 2 else 0) (pageAt r.1 (64 * x)) then (.held, s1)
    else
      let s1 := if secs.any fun x => pageMt r.1 (64 * x) = 2 then extEff c.lk s1 else s1
      let q := askReads (.cmd c.id) l.acct (secs.map fun x => (pageAt r.1 (64 * x), pageMt r.1 (64 * x))) s1
      let s2 := q.2
      if !q.1 then (.held, s2)
      else
        let pois := secs.filter fun x =>
          engPoison s2 (pageAt r.1 (64 * x)) ((good.filter fun a => a / 64 = x).map (· % 64))
        (.ok (xs.map fun a =>
          if bad a then (0, true)
          else if pois.contains (a / 64) then (if l.cont then (0, false) else (memGet s2.mem (pageAt r.1 a), true))
          else (engByte s2 (pageAt r.1 a), false)), if l.cont then meetPois c pois s2 else s2)

/-- The source bytes of a chunk. -/
def chunkSource (c : Cmd) (ch : Nat) (s : State) : ChunkGot × State :=
  match nfind c.buf ch with
  | some bs => (.ok bs, s)
  | none =>
    let xs := (chunkPairs c ch).map (·.2)
    if c.ssp = 1 then
      let r := localSource c xs s
      (.ok r.1, r.2)
    else globalSource c ch (xs.map (cut 64)) s

/-! ### Writing a chunk (R199, R200) -/

/-- Bytes by sector: each with its offset, a later pair's byte standing. -/
def bySector (xs : List (Nat × Byte)) : NMap (NMap Byte) :=
  xs.foldl (fun m x => nput m (x.1 / 64) (nput (nget [] m (x.1 / 64)) (x.1 % 64) x.2)) []

/-- The places that receive a poisoned byte. -/
def poisonedAt (xs : List (Nat × Byte × Bool)) : List Nat := ((xs.filter fun x => x.2.2).map fun x => x.1 / 64).dedup

/-- The memory type of a copy's write of global memory (R194, R286). -/
def Cmd.destMt (c : Cmd) (pages : NMap Nat) (va : Nat) : Nat := max (pageMt pages va) (b2n c.nt)

/-- Write global bytes: virtual address, byte, poison. -/
def globalDest (c : Cmd) (pages : NMap Nat) (xs : List (Nat × Byte × Bool)) (s : State) : State :=
  let partid := (launch s c.lk).acct
  let put (s : State) (x : Nat × NMap Byte) : State :=
    let pa := pageAt pages (64 * x.1)
    let mt := c.destMt pages (64 * x.1)
    let s1 := (byteRuns x.2).foldl (fun s r =>
      launchPut mt none c.lk c.core (64 * x.1 + r.1) (pa + r.1) r.2 partid s) s
    if mt = 1 then lowLine pa s1 else s1
  let s1 := (bySector (xs.map fun x => (x.1, x.2.1))).foldl put s
  (poisonedAt xs).foldl (fun s x => poisonSector (pageAt pages (64 * x)) s) s1

/-- Write local bytes of a half: offset, byte, poison. The quantum of the copy is sealed. -/
def localDest (c : Cmd) (half : Nat) (xs : List (Nat × Byte × Bool)) (s : State) : State :=
  let tk := tkOf c.g
  let pr := c.core / 2
  let m := bySector (xs.map fun x => (x.1, x.2.1))
  let s1 := m.foldl (fun s x =>
    (byteRuns x.2).foldl (fun s r =>
      r.2.zipIdx.foldl (fun s b =>
        let a := 64 * x.1 + r.1 + b.2
        engineWrite pr (.loc tk half (a / 16)) (.part (a % 16) [b.1]) s) s) s) s
  let whole := (m.filter fun x => x.2.length = 64).map (·.1)
  let s2 := whole.foldl (fun s gr => engineWrite pr (.locPois tk half gr) (.set (.num 0)) s) s1
  (poisonedAt xs).foldl (fun s gr => engineWrite pr (.locPois tk half gr) (.set (.num 1)) s) s2

/-- Write bytes of the weight window: offset, byte, poison (R200). -/
def weightDest (c : Cmd) (xs : List (Nat × Byte × Bool)) (s : State) : State :=
  let w := (winOf s c.lk c.core).wb
  let ys := xs.map fun x => (w + x.1, x.2)
  let whole := ((bySector (ys.map fun x => (x.1, x.2.1))).filter fun x => x.2.length = 64).map (·.1)
  modCore s c.core fun C =>
    { C with
      wb := ys.foldl (fun m x => memSet m x.1 x.2.1) C.wb
      wpois := (poisonedAt ys).foldl (fun m g => nset false m g true)
        (whole.foldl (fun m g => nset false m g false) C.wpois) }

/-- The pages of a chunk's destination, translated. -/
def destPages (c : Cmd) (ch : Nat) (xs : List Nat) (s : State) :
    NMap Nat × List (Nat × Nat × Nat × Nat) × State :=
  if c.dsp ≠ 0 then ([], [], s)
  else xlatePages c.core c.lk .write ((runPages (xs.map fun a => (a, 1))).filter fun p => !c.badPage ch true p.1) s

/-- Fault records of a copy: one per page (R199, R292). -/
def chunkRecords (c : Cmd) (ch : Nat) (a : Acc2) (n : Nat) (fs : List (Nat × Nat × Nat × Nat)) (s : State) : State :=
  let l := launch s c.lk
  let mk (f : Nat × Nat × Nat × Nat) : FaultRec :=
    { src := if c.pull then 5 else 3, acc := a.code, cause := f.2.2.1, ctx := l.ctx, partid := l.partid, job := c.lk / 2,
      core := c.core, lane := 0, group := gIdx c.g, team := gTeam c.g, nrec := n, va := f.2.1, seq := ch, mask := 0,
      ipa := f.2.2.2, time := s.now, owner := .chunk c.id ch f.1 (match a with
        | .write => true
        | _ => false) }
  { s with faults := s.faults ++ fs.map mk }

/-- A walk that reads poison under contain ends the instance (R199, R321). -/
def walkEnds (c : Cmd) (s : State) : State :=
  if c.batch then killCard (c.lk / 2) { killFor s (c.lk / 2) clsPage 8 with cores := 2 ^ c.core } s
  else enterHost c.g { cls := clsPage, cause := 8, pmode := (grp s c.g).supv, seq := c.seq } s

/-- The writes of a chunk whose pages all translate. -/
def writeChunk (c : Cmd) (ch : Nat) (bs : List (Byte × Bool)) (pages : NMap Nat) (s : State) : State :=
  let ds := (chunkPairs c ch).map (·.1)
  let s1 :=
    if c.dsp = 0 then
      globalDest c pages (((ds.map (cut 64)).zip bs).filter fun x => !c.badPage ch true (x.1 / 4096)) s
    else if c.dsp = 1 then
      [0, 1].foldl (fun s half =>
        localDest c half ((ds.zip bs).filterMap fun x => match localAt s c.g x.1 with
          | some p => if p.1 = half then some (p.2, x.2) else none
          | none => none) s) s
    else weightDest c ((ds.map Int.toNat).zip bs) s
  modCmd c.id (fun x => { x with
    todo := x.todo.erase ch, buf := ndel x.buf ch, again := x.again.erase ch, started := true, wrote := true }) s1

/-- A held entry that comes before the copy is still to write one of a chunk's destination bytes (R261); at an epoch
commit the entries before it have performed. -/
def destHeld (s : State) (c : Cmd) (ch : Nat) (pages : NMap Nat) : Bool :=
  c.dsp = 0 && !c.batch && !(launch s c.lk).det &&
    let hs := heldBefore s c.g c.seq c.after
    (chunkPairs c ch).any fun x => hs.any (writesByte (pageAt pages (cut 64 x.1)))

/-- A chunk's destination sectors may be written: no stopped link leads there (R374), and what the L2 fills of them
has come (R279). -/
def destServed (c : Cmd) (ch : Nat) (pages : NMap Nat) (s : State) : Bool × State :=
  if c.dsp ≠ 0 then (true, s)
  else
    let partid := (launch s c.lk).acct
    let vas := (((chunkPairs c ch).map fun x => cut 64 x.1 / 64 * 64).dedup).filter fun va =>
      !c.badPage ch true (va / 4096)
    if vas.any fun va => linkHolds s (pageAt pages va) then (false, s)
    else askReads (.cmd c.id) partid ((vas.map fun va => (pageAt pages va, c.destMt pages va)).filter fun x =>
      x.2 ≠ 2 && allocates s x.1 partid) s

/-- A chunk is moved, or waits for replies, or does nothing while the pair holds its bytes back. Chunks with a page
answered RETRY run before the others, in their order (R344). -/
def runChunk (c : Cmd) (ch : Nat) (s : State) : State :=
  if !c.todo.contains ch || !(nget [] c.recs ch).isEmpty || c.again.any (fun x => decide (x < ch)) ||
      (!c.again.isEmpty && !c.again.contains ch) then s
  else
    let r := chunkSource c ch s
    match r.1 with
    | .held => r.2
    | .ends => walkEnds c r.2
    | got =>
      let d := destPages c ch ((chunkPairs c ch).map fun x => cut 64 x.1) r.2
      if d.2.1.any fun f => f.2.2.1 = causeAsleep then d.2.2
      else if d.2.1.any fun f => f.2.2.1 = 8 then walkEnds c d.2.2
      else
        let fs := match got with
          | .faults fs => fs
          | _ => []
        if !fs.isEmpty || !d.2.1.isEmpty then
          let n := fs.length + d.2.1.length
          let s1 := chunkRecords c ch .write n d.2.1 (chunkRecords c ch .read n fs d.2.2)
          modCmd c.id (fun x => { x with
            again := x.again.erase ch
            recs := nset [] x.recs ch (fs.map (fun f => 2 * f.1) ++ d.2.1.map fun f => 2 * f.1 + 1) }) s1
        else match got with
          | .ok bs =>
            let q := destServed c ch d.1 d.2.2
            if !q.1 || destHeld q.2 c ch d.1 then q.2 else writeChunk c ch bs d.1 q.2
          | _ => d.2.2

/-! ### Which commands may go on -/

/-- The context that a command belongs to runs (R310). -/
def cmdRuns (s : State) (c : Cmd) : Bool :=
  let l := launch s c.lk
  !(l.parts.any fun p => (coresOf l p.1).contains c.core && p.2.capture ≠ 0) && (run s (c.lk / 2)).kill.isNone

/-- A copy of a deterministic launch moves only at its commit (R197). -/
def cmdDet (s : State) (c : Cmd) : Bool := (launch s c.lk).det && !c.pull

/-- COPY_WRITE_START (R196, R199): chunk `ch` of a sealed copy that its release time allows. -/
def copyChunk (k id ch : Nat) (s : State) : State :=
  match cmdAt s k id with
  | none => s
  | some c =>
    if c.sealed && !cmdDet s c && cmdRuns s c && (c.time.isNone || c.started) then runChunk c ch s else s

/-- A CPYT may start: its quantum is sealed, its time has come, and no earlier one that may start waits (R198). -/
def cpytReady (s : State) (k : Nat) (c : Cmd) : Bool :=
  let ready (x : Cmd) : Bool := x.sealed && !x.started && !cmdDet s x && match x.time with
    | some t => decide (t ≤ s.now)
    | none => false
  ready c && !((core s k).cmds.any fun x => ready x && (decide (x.time.getD 0 < c.time.getD 0) ||
    (x.time = c.time && decide (x.id < c.id))))

/-- CPYT_RELEASE (R198). -/
def cpytStart (k id : Nat) (s : State) : State :=
  match cmdAt s k id with
  | none => s
  | some c => if cmdRuns s c && cpytReady s k c then modCmd id (fun x => { x with started := true }) s else s

/-- Read every chunk that is not yet read, none where a byte cannot be read now. -/
def readAll (c : Cmd) : List Nat → State → Option (NMap (List (Byte × Bool))) × State
  | [], s => (some c.buf, s)
  | ch :: chs, s =>
    let r := chunkSource c ch s
    match r.1 with
    | .ok bs =>
      let t := readAll c chs r.2
      (t.1.map fun m => nput m ch bs, t.2)
    | _ => (none, r.2)

/-- Free a command's locks of one kind (R195). -/
def freeCmdLocks (k id : Nat) (kinds : List Nat) (s : State) : State :=
  modCore s k fun C => { C with locks := C.locks.filter fun x => x.id ≠ id || x.kind = 2 || !kinds.contains x.kind }

/-- COPY_SOURCE_READ_DONE (R194, R195): the engine has read every source byte, and the source lock is free. -/
def sourceDone (k id : Nat) (s : State) : State :=
  match cmdAt s k id with
  | none => s
  | some c =>
    if c.srcDone || cmdDet s c || !cmdRuns s c || !c.recs.isEmpty then s
    else
      let r := readAll c c.todo s
      match r.1 with
      | none => r.2
      | some m => freeCmdLocks k id [0] (modCmd id (fun x => { x with buf := m, srcDone := true }) r.2)

/-! ### Completion (R201, R205, R207) -/

/-- The credit of a copy: a team object, or a cluster object. The answer says whether the copy may now complete. -/
def applyCredit (c : Cmd) (s : State) : Bool × State :=
  if c.comp = 0 then (true, s)
  else if c.comp = 1 then
    match localRun s c.g c.compAddr 16 with
    | none => (true, s)
    | some (h, o) =>
      let t := tbOf (memNum ((team s (tkOf c.g)).mem h) o 16)
      if t.kind = 1 || t.kind = 2 then
        (true, engineWrite (c.core / 2) (.loc (tkOf c.g) h (o / 16)) (.tb 4 c.pairs.total) s)
      else (true, s)
  else if !(nget [] c.recs creditChunk).isEmpty then (false, s)
  else
    let r := xlateFor s c.core c.lk c.compAddr .atomic
    match r.1 with
    | .fault cause ipa =>
      if cause = causeAsleep then (false, r.2)
      else if cause = 8 then (true, walkEnds c r.2)
      else
        let l := launch r.2 c.lk
        let rec1 : FaultRec :=
          { src := 3, acc := 2, cause := cause, ctx := l.ctx, partid := l.partid, job := c.lk / 2, core := c.core,
            lane := 0, group := gIdx c.g, team := gTeam c.g, nrec := 1, va := c.compAddr, seq := c.pairs.chunks - 1,
            mask := 0, ipa := ipa, time := s.now, owner := .credit c.id }
        (false, modCmd c.id (fun x => { x with recs := nset [] x.recs creditChunk [0] })
          { r.2 with faults := r.2.faults ++ [rec1] })
    | .ok pa mt =>
      let partid := (launch r.2 c.lk).acct
      let q := if linkHolds r.2 pa then (false, r.2) else askRead (.cmd c.id) pa partid mt r.2
      if !q.1 then (false, q.2)
      else match cleanSector c.lk partid pa q.2 with
      | none => (true, poisonEnds c.g c.seq c.compAddr q.2)
      | some s1 =>
        let o := tbOf (ofBytes (l2Read s1 pa 16))
        if o.kind = 1 || o.kind = 2 then
          (true, launchPut mt none c.lk c.core c.compAddr pa (toBytes 16 (tbNum (tbUpdate 4 c.pairs.total o))) partid s1)
        else (true, s1)

/-- The header of a ring command's ring, where its half holds it. -/
def cmdRing (s : State) (c : Cmd) : Ring :=
  let o := (c.ring.getD (0, 0)).1
  ringOf (memNum ((team s (tkOf c.g)).mem c.half) o 64)

/-- The ring commands of a team, on both cores of a paired one. -/
def teamCmds (s : State) (k tk : Nat) : List (Nat × Cmd) :=
  [k / 2 * 2, k / 2 * 2 + 1].flatMap fun m => ((core s m).cmds.filter fun x => tkOf x.g = tk).map fun x => (m, x)

/-- FILLED passes every filled slot at its front, whose commands go (R202, R205). -/
def advanceFilled (k : Nat) (c : Cmd) : Nat → State → State
  | 0, s => s
  | fuel + 1, s =>
    let o := (c.ring.getD (0, 0)).1
    let r := cmdRing s c
    match (teamCmds s k (tkOf c.g)).find? fun x => x.2.filled && x.2.half = c.half && x.2.ring = some (o, r.filled) with
    | none => s
    | some (m, x) =>
      let s1 := engineWrite (k / 2) (.loc (tkOf c.g) c.half (o / 16)) (.addAt 8 1) s
      advanceFilled k c fuel (modCore s1 m fun C => { C with cmds := C.cmds.filter fun y => y.id ≠ x.id })

/-- Every byte of a command is written: its locks go, its credit is applied, and its place is free. -/
def finishCmd (k : Nat) (c : Cmd) (s : State) : State :=
  let s1 := freeCmdLocks k c.id [0, 1] s
  if c.ring.isSome then
    advanceFilled k c ((teamCmds s k (tkOf c.g)).length + 1) (modCmd c.id (fun x => { x with filled := true }) s1)
  else
    let r := applyCredit c s1
    if !r.1 then r.2
    else
      let s2 := modCore r.2 k fun C => { C with cmds := C.cmds.filter fun y => y.id ≠ c.id }
      -- a batch issues its next entries
      if c.batch then runBatch (c.lk / 2) k s2 else s2

/-- COPY_COMPLETE (R201), and RING_PULL_COMPLETE (R207) for a pull. -/
def completeCmd (pull : Bool) (k id : Nat) (s : State) : State :=
  match cmdAt s k id with
  | none => s
  | some c =>
    if c.pull = pull && c.sealed && c.todo.isEmpty && !c.filled && !cmdDet s c && cmdRuns s c &&
        (c.time.isNone || c.started) then finishCmd k c s
    else s

/-! ### Pull rings (R204, R207) -/

/-- Begin the pulls of slots up to tail `t`; those from FILLED up to TAIL have begun already (R202). -/
def beginPulls (k : Nat) (w : Watch) (t : Nat) : Nat → State → State
  | 0, s => s
  | fuel + 1, s =>
    let tk := tkOf w.g
    let r := ringOf (memNum ((team s tk).mem w.half) w.hdr 64)
    let h := if w.half = halfOf s w.g then w.hdr else w.hdr + (launchOf s w.g).window
    if diff32 t r.filled ≤ diff32 r.tail r.filled || r.slots ≤ diff32 r.tail r.head then s
    else
      let p : CopyPairs := .linear (r.slotAt h r.tail) ((w.src + 64 + r.tail % r.slots * r.slotb) % 2 ^ 64) r.slotb
      let c : Cmd :=
        { id := s.nextId, lk := lkOf w.g, core := k, g := w.g, seq := w.seq, pairs := p, dsp := 1, ssp := 0,
          half := w.half, ring := some (w.hdr, r.tail), hdrAt := h, pull := true, sealed := true,
          todo := List.range p.chunks }
      let s1 := engineWrite (k / 2) (.loc tk w.half (w.hdr / 16)) (.addAt 4 1) { s with nextId := s.nextId + 1 }
      beginPulls k w t fuel (modCore s1 k fun C => { C with cmds := C.cmds ++ [c] })

/-- RING_TAIL_OBSERVED (R207): watch `n` of a core reads its source ring's tail, once the word that set it is
sealed. A walk for it that reads poison ends the instance (R321); a tail that does not translate, is poisoned or is
held back on the pair is read again later. -/
def observeTail (k n : Nat) (s : State) : State :=
  match (core s k).watches[n]? with
  | none => s
  | some w =>
    if w.dead.isSome || !released s w.g w.seq || preemptDue s w.g || (grp s w.g).parked then s
    else
      let r := xlateFor s k (lkOf w.g) w.src .read
      match r.1 with
      | .fault cause _ =>
        if cause = 8 then enterHost w.g { cls := clsPage, cause := 8, pmode := (grp s w.g).supv, seq := w.seq } r.2 else r.2
      | .ok pa mt =>
        let q := if linkHoldsOn r.2 2 pa then (false, r.2) else askRead (.word w.g w.seq) pa (launchOf s w.g).acct mt r.2
        let s1 := q.2
        if !q.1 || engPoison s1 pa ((List.range 4).map (pa % 64 + ·)) ||
            (List.range 4).any (fun i => heldOnPair s1 (k / 2) (pa + i)) then s1
        else
          let t := ofBytes ((List.range 4).map fun i => engByte s1 (pa + i))
          let R := ringOf (memNum ((team s1 (tkOf w.g)).mem w.half) w.hdr 64)
          let d := diff32 t R.filled
          if R.valid && R.pull && decide (1 ≤ d) && decide (d ≤ 2 ^ 31) then beginPulls k w t R.slots s1 else s1

/-! ### Copies in a commit (R197, R205, R341) -/

/-- A ring post takes its slot at the commit; none while the ring is full. -/
def reserveSlot (k : Nat) (c : Cmd) (s : State) : Option (Cmd × State) :=
  match c.ring with
  | none => some (c, s)
  | some (o, slot) =>
    if c.started || c.pull then some (c, s)
    else
      let r := cmdRing s c
      if r.slots ≤ diff32 r.tail r.head then none
      else
        let p : CopyPairs := match c.pairs with
          | .linear _ x n => .linear (r.slotAt c.hdrAt r.tail) x n
          | q => q
        let c' : Cmd := { c with pairs := p, ring := some (o, if slot = r.tail then slot else r.tail), started := true }
        let s1 := engineWrite (k / 2) (.loc (tkOf c.g) c.half (o / 16)) (.addAt 4 1) s
        some (c', modCmd c.id (fun _ => c') s1)

/-- A copy performs whole at the commit of its epoch; it is left in place while it waits. The second copy of a
redundant card writes its own core's memories only (R341). -/
def commitCopy (k : Nat) (c0 : Cmd) (s : State) : State :=
  match c0.time with
  | some t => if t ≤ s.now then go s else s
  | none => go s
where
  /-- its time has come -/
  go (s : State) : State :=
    match reserveSlot k c0 s with
    | none => s
    | some (c, s1) =>
      let second := c.g % 2 = 1 && cRedun s1 (c.lk / 2)
      -- the source reads are made now, the index list's among them (R197)
      let idx (n : Nat) : List Nat := indexList s1 c.g (c.idxAt.getD 0) n
      let pairs := match c.idxAt, c.pairs with
        | some _, .gather d x rb is => CopyPairs.gather d x rb (idx is.length)
        | some _, .scatter d x rb is => CopyPairs.scatter d x rb (idx is.length)
        | _, p => p
      let s1 := if c.wrote then s1 else modCmd c.id (fun x => { x with pairs := pairs }) s1
      let s2 :=
        if second && c.dsp = 0 then modCmd c.id (fun x => { x with todo := [] }) s1
        else c.todo.foldl (fun s ch => match cmdAt s k c.id with
          | some x => runChunk x ch s
          | none => s) s1
      match cmdAt s2 k c.id with
      | none => s2
      | some x =>
        if !x.todo.isEmpty then s2
        else finishCmd k (if second && x.comp = 2 then { x with comp := 0 } else x) s2

/-! ### Commits (R36, R333, R430) -/

/-- One communication of an epoch is applied. The entries of a redundant card's second copy go with those of the
first (R341). -/
def applyComm (n : Nat) (x : Comm) (s : State) : State :=
  match x with
  | .entry pr i h =>
    if cRedun s n && h.g % 2 = 1 then landHeld h.seq (dropEntry pr i s) h.g
    else if (match entryTree h with
      | some t => s.treeBusy.testBit t
      | none => false) then s
    else if (entrySectors h).any fun x => linkHolds s (64 * x) then s
    else performReady pr i h s
  | .copy k c => commitCopy k c s
  | .treg pr t => commitTreg pr t s

/-- EPOCH_COMMIT (R36): one communication of the next epoch is applied, in group order and then sequence order;
with none left, the epoch is committed. -/
def commitStep (n : Nat) (s : State) : State :=
  let l := launch s (2 * n)
  if !(l.committing || epochDue s n) || (cRedun s n && !l.agreed) || (run s n).kill.isSome then s
  else
    let s1 := (commitKeys s n).foldl (fun s lk => modLaunch s lk fun l => { l with committing := true }) s
    match firstComm (comms s1 n) with
    | none => endCommit n s1
    | some x => applyComm n x s1

end Sys2Proof.Machine
end

