-- ==== Sys2Proof/Machine/CardEv.lean ====
section
/-!
DEFINITION. Sys2Proof/Machine/CardEv.lean: the dispatcher's events: releases (R303, R304), completion (R23, R298,
R303), kills (R330), deadlines and budgets (R315, R316), and the capture and restore of contexts (R40, R41,
R308 to R312).
-/
namespace Sys2Proof.Machine

/-! ### Releases (R300, R303, R304) -/

/-- RELEASE advances by the period. -/
def nextRelease (n : Nat) (s : State) : State := setCardFld n 127 64 (cRelease s n + cPeriod s n) s

/-- A release is skipped (R304). -/
def skipRelease (n : Nat) (s : State) : State :=
  nextRelease n (writeRecord n { instRec s n 7 0 with rel := cRelease s n } (bumpCard n 895 864 s))

/-- A release is recorded as pending, or skipped where one is pending already. -/
def pendRelease (n : Nat) (s : State) : State :=
  if (run s n).pend.isSome then skipRelease n s
  else
    let rel := cRelease s n
    nextRelease n (modRun n (fun R => { R with pend := some (rel, rel + cDeadline s n) }) s)

/-- CARD_RELEASE (R300, R303, R304). Every release is a decision point, one that is recorded as pending or skipped too
(R305). -/
def releaseCard (n : Nat) (s : State) : State :=
  let R := run s n
  let rel := cRelease s n
  let periodic := cPeriod s n ≠ 0
  if cState s n = 2 then
    match R.pend, dispatching s with
    | some (r, dl), true => dispatch (makeReady n r dl s)
    | some _, false => if periodic && decide (rel ≤ s.now) then decisionPoint (skipRelease n s) else s
    | none, true =>
      if rel ≤ s.now then dispatch (makeReady n rel (rel + cDeadline s n) (if periodic then nextRelease n s else s))
      else s
    | none, false => if rel ≤ s.now then decisionPoint (pendRelease n s) else s
  else if 3 ≤ cState s n && periodic && !R.disarmed && decide (rel ≤ s.now) then decisionPoint (pendRelease n s)
  else s

/-! ### Completion (R23, R298, R303) -/

/-- Nothing of a launch's groups is left: placed, retired, sealed or committed, and performed. -/
def lanesDone (s : State) (n : Nat) : Bool :=
  (commitKeys s n).all fun lk =>
    let l := launch s lk
    let mine (h : HB) : Bool := match h.what with
      | .output k .. => k = lk
      | _ => lkOf h.g = lk
    (nfind s.launches lk).isSome && l.placed = l.nteams && l.hostTrap.isNone &&
      ((s.teams.filter fun x => lkOfT x.1 = lk).all fun x => teamDone s x.1) &&
      (!l.det || ((groupsOfLaunch s lk).all (groupSpent s) && waveDrained s n && decide (l.nteams ≤ waveEnd l))) &&
      !(s.pairs.any fun p => p.2.hb.any mine) && !(s.outParts.any fun o => lkOf o.part.src = lk && !o.sent)

/-- A chain's last card has finished (R303). -/
def chainDone (s : State) (n : Nat) : Bool :=
  s.cores.any fun x => x.2.jobs.any fun j => j.lk = 2 * n && j.chain && j.st = 2

/-- Every entry of a batch has completed (R298). -/
def batchDone (s : State) (n : Nat) : Bool :=
  decide (0 < (run s n).entries) && decide ((run s n).entries ≤ (run s n).issued) && (nfind s.launches (2 * n)).isSome &&
    !(s.cores.any fun x => x.2.cmds.any fun c => c.lk = 2 * n) &&
    !(s.savedParts.any fun x => x.2.cmds.any fun c => c.lk = 2 * n)

/-- An instance's work is over. -/
def workDone (s : State) (n : Nat) : Bool :=
  match cKind s n with
  | 1 => lanesDone s n
  | 2 => chainDone s n
  | _ => batchDone s n

/-! ### Deadlines and budgets (R315, R316) -/

/-- Arm the card's HANDLER with release now; the answer is the CAUSE of the record (R315). -/
def armHandler (n : Nat) (s : State) : Nat × State :=
  if cardFld s n 23 23 = 0 then (0, s)
  else
    let r := armCard .handler (cardFld s n 55 44) s.now s
    (if r.1 then 0 else 12, r.2)

/-- MISSACT asks for the abort of the instance. -/
def missAborts (s : State) (n : Nat) : Bool := cardFld s n 18 18 = 1

/-- The steps of a DLMISS but for the abort: MISSES, the island, the handler and the record. -/
def raiseMiss (n inst rel time : Nat) (s : State) : State :=
  let s1 := bumpCard n 799 768 { s with island := { s.island with misses := s.island.misses + 1 } }
  let r := armHandler n s1
  writeRecord n { instRec r.2 n 1 r.1 with inst := inst, rel := rel, time := time } r.2

/-- The instance has not completed by time `dl` (R315). -/
def pastDeadline (s : State) (n dl : Nat) : Bool :=
  decide (dl ≤ s.now) && match (run s n).jobDone with
    | none => true
    | some t => decide (dl < t)

/-- An aperiodic or periodic release that waits while the card is armed ends without having begun. -/
def dropPending (n : Nat) (s : State) : State :=
  decisionPoint (leaveInstance n (writeRecord n { instRec s n 4 0 with rel := ((run s n).pend.getD (0, 0)).1 }
    (modRun n (fun R => { R with pend := none, pendMissed := false }) s)))

/-- The current instance misses its deadline; the record's TIME is given. -/
def missInstance (n time : Nat) (s : State) : State :=
  let s1 := raiseMiss n (cInstance s n) (run s n).rel time (modRun n (fun R => { R with missed := true }) s)
  if missAborts s n then killCard n { event := 4, cls := 0 } s1 else s1

/-- The pending release misses its deadline. -/
def missPending (n time : Nat) (s : State) : State :=
  match (run s n).pend with
  | none => s
  | some (rel, _) =>
    let inst := cInstance s n + b2n (inInstance s n)
    let s1 := raiseMiss n inst rel time (modRun n (fun R => { R with pendMissed := true }) s)
    if missAborts s n && cState s n = 2 then dropPending n s1 else s1

/-- Deadlines that have passed and not been raised: time, card, and whether of a pending release. -/
def dueMisses (s : State) (n : Nat) : List (Nat × Nat × Bool) :=
  let R := run s n
  (if inInstance s n && !R.missed && pastDeadline s n R.absDl then [(R.absDl, n, false)] else []) ++
    match R.pend with
    | some (_, dl) => if !R.pendMissed && decide (dl ≤ s.now) then [(dl, n, true)] else []
    | none => []

/-- Misses in the order of their deadlines. -/
def insertMiss (x : Nat × Nat × Bool) : List (Nat × Nat × Bool) → List (Nat × Nat × Bool)
  | [] => [x]
  | y :: ys => if y.1 < x.1 then y :: insertMiss x ys else x :: y :: ys

/-- A deadline that passes while the device is suspended is raised when the resume ends (R402, R403). -/
def missWaits (s : State) (dl : Nat) : Bool :=
  let st := mmr s rSuspStat 0 % 4
  (st = 2 && decide (s.susp.powerDown ≤ dl)) ||
    (st = 3 && decide (s.susp.powerDown ≤ dl) && decide (dl < s.susp.resumeAt))

/-- Raise one deadline miss. -/
def raiseDue (x : Nat × Nat × Bool) (time : Nat) (s : State) : State :=
  if x.2.2 then missPending x.2.1 time s else missInstance x.2.1 time s

/-- DEADLINE_MISS (R300, R315): of the current instance, else of a pending release; an instance that a miss
aborts only now, since it was pending then, is killed. -/
def missDeadline (n : Nat) (s : State) : State :=
  match (dueMisses s n).find? fun x => !missWaits s x.1 with
  | some x => raiseDue x s.now s
  | none =>
    let R := run s n
    if inInstance s n && R.missed && missAborts s n && R.kill.isNone && pastDeadline s n R.absDl then
      killCard n { event := 4, cls := 0 } s
    else s

/-- A BUDGET event: counted, recorded and handed to the handler (R316). -/
def raiseBudget (n event : Nat) (s : State) : State :=
  let r := armHandler n (bumpCard n 831 800 s)
  writeRecord n (instRec r.2 n event r.1) r.2

/-- EXEC_BUDGET_OVERRUN (R316): USED first passes EBUDGET. -/
def overrunBudget (n : Nat) (s : State) : State :=
  if inInstance s n && cardFld s n 21 21 = 1 && cEBudget s n ≠ 0 && !(run s n).overran &&
      decide (cEBudget s n < cardFld s n 767 736) then
    let s1 := raiseBudget n 2 (modRun n (fun R => { R with overran := true }) s)
    match cardFld s n 20 19 with
    | 1 => modRun n (fun R => { R with demoted := true }) s1
    | 2 => killCard n { event := 4, cls := 0 } s1
    | _ => s1
  else s

/-- BW_BUDGET_OVERRUN (R316): once for a window, windows that have ended first. -/
def overrunBandwidth (n : Nat) (s : State) : State :=
  let R := run s n
  if inInstance s n && decide (0 < R.bwDue) then
    raiseBudget n 3 (modRun n (fun R => { R with bwDue := R.bwDue - 1 }) s)
  else if inInstance s n && cardFld s n 21 21 = 1 && cBwBudget s n ≠ 0 && decide (cBwBudget s n < R.bwBytes) &&
      R.bwRaised ≠ some R.bwWin then
    raiseBudget n 3 (modRun n (fun R => { R with bwRaised := some R.bwWin }) s)
  else s

/-- Every overrun that the instance has still to report is reported, the bandwidth's first, before the instance ends. -/
def reportOverruns (n : Nat) (s : State) : State :=
  overrunBudget n ((List.range ((run s n).bwDue + 1)).foldl (fun s _ => overrunBandwidth n s) (chargeCard s n))

/-- KILL_COMPLETE (R330): once every write of the killed contexts has performed. -/
def killOver (n : Nat) (s : State) : State :=
  if (run s n).kill.isNone || (run s n).replayAsk || !drained s n then s else dispatch (killDone n (reportOverruns n s))

/-- LAUNCH_COMPLETE (R23, R303): the completion record is written, and the dispatcher decides. A deadline that has
passed by then has been missed, and that comes first (R315), and so do overruns of its budgets (R316). -/
def completeLaunch (n : Nat) (s0 : State) : State :=
  let ready (s : State) : Bool := decide (4 ≤ cState s n) && (run s n).kill.isNone && workDone s n
  let late (s : State) : Bool :=
    !(run s n).missed && decide ((run s n).absDl < s.now) && pastDeadline s n (run s n).absDl
  if !ready s0 then s0
  else
    let s1 := if late s0 then missInstance n s0.now s0 else s0
    let s := if ready s1 then reportOverruns n s1 else s1
    if ready s then dispatch (completeCard n s) else s

/-! ### Capture (R308 to R311) -/

/-- The contexts of a launch that are pre-empted and still run. -/
def leavingParts (s : State) (lk : Nat) : List Nat :=
  ((launch s lk).parts.filter fun p => p.2.preempt && p.2.capture = 0).map (·.1)

/-- The operator cards of a context: they stand at a checkpoint (R311, R355). -/
def atCheckpoint (j : Job) : Bool :=
  j.stage = 0 && match j.desc with
    | none => true
    | some d => j.pos % max 1 (ocCkpt d.toNat) = 0 || decide (ocSteps d.toNat ≤ j.pos)
def jobsParked (s : State) (lk c : Nat) : Bool :=
  (coresOf (launch s lk) c).all fun k => (jobsOf s lk k).all fun j =>
    !j.live || (atCheckpoint j && decide (j.redo ≤ j.pos)) || j.parked

/-- Every started word of a group has completed, or waits for the seal of its quantum alone (R32, R84, R308). -/
def stoodStill (G : Group) : Bool := G.flights.all (·.ok) && G.raised.isNone

/-- A group holds a completed word at or above a boundary (R308 step 2). -/
def ranPast (G : Group) (b : Nat) : Bool :=
  decide (((openSeqs G).filter fun n => b ≤ n).length < G.nextSeq - b)

/-- The pair's quantum from which a context's pair rolls back at its capture, if it must: the open one for a word
past the boundary, and the trapping word's for a running handler (R308 step 2). -/
def captureBack (s : State) (lk c : Nat) : Option Nat :=
  let q := (part s lk c).atQ + 1
  let gs := groupsOfPart s lk c
  let past := gs.any fun g => ranPast (grp s g) (boundOf (grp s g) q)
  let hs := gs.filterMap fun g => (grp s g).handler.map fun h =>
    match (grp s g).closed.find? fun x => decide (x.lo ≤ h.trap.seq) && decide (h.trap.seq < x.hi) with
    | some x => min x.pq q
    | none => q
  match hs with
  | [] => if past then some q else none
  | x :: xs => some (xs.foldl min x)

/-- A group as its capture saves it (R40): its words that have not started are saved by their addresses and numbers,
each with its wait cause, and the trap registers are no part of it. -/
def parkGroup (G : Group) : Group :=
  { G with
    parked := true
    refetch := sortWords (unstarted G)
    queues := []
    tstat := 0
    tseq := 0
    taddr := 0
    trec := 0 }

/-- A context's groups and cards stand still, and its capture begins. -/
def parkPart (lk c : Nat) (s : State) : State :=
  let s1 := (groupsOfPart s lk c).foldl (fun s g => modGrp s g parkGroup) s
  let park (j : Job) : Job := if j.lk = lk && j.live then { j.turnClock s.now with parked := true } else j
  let s2 := (coresOf (launch s lk) c).foldl (fun s k => modJobs k (List.map park) s) s1
  modPart lk c (fun p => { p with capture := 1 }) s2

/-- PREEMPT_CAPTURE (R308 steps 1 and 2, R310, R311): context `c` of launch `lk`, at the first close of its pair's
quantum after the decision; a chain or a batch has no groups and waits for no close. -/
def capturePart (lk c : Nat) (s : State) : State :=
  let p := part s lk c
  let gs := groupsOfPart s lk c
  let lane := cKind s (lk / 2) = 1
  if (nfind (launch s lk).parts c).isNone || !p.preempt || p.capture ≠ 0 || (launch s lk).det ||
      (launch s lk).hostTrap.isSome || !jobsParked s lk c ||
      (lane && (!decide (p.atQ < (pair s (c / 2)).qn) || !gs.all fun g => stoodStill (grp s g))) then s
  else
    let s1 := match captureBack s lk c with
      | some q => rollTo (c / 2) q s
      | none => s
    dispatch (parkPart lk c s1)

/-- DET_WAVE_PREEMPT (R309): the wave of card `n` stops, and each of its groups returns to its last committed
epoch. A context of it that is saved already stays so. -/
def captureWave (n : Nat) (s : State) : State :=
  let ks := commitKeys s n
  let due := ks.any fun lk => (launch s lk).det && !(leavingParts s lk).isEmpty
  let gs := (waveGroups s n).filter fun g => !(grp s g).parked
  if !due || ks.any (fun lk => (launch s lk).committing || (launch s lk).hostTrap.isSome) ||
      !gs.all (fun g => stoodStill (grp s g)) ||
      !ks.all (fun lk => (launch s lk).parts.all fun p => jobsParked s lk p.1) then s
  else
    let s1 := (wavePairs s n).foldl (fun s p => rollPair p (fun g => gCard g = n) s) s
    dispatch (ks.foldl (fun s lk => (launch s lk).parts.foldl (fun s p =>
      if p.2.capture = 0 then parkPart lk p.1 s else s) s) s1)

/-! ### The image (R40, R41, R308, R312) -/

/-- Most sectors that a context's image takes on one core, by the kind of its card (R312). -/
def imageBound (s : State) (lk : Nat) : Nat := cardImage s (lk / 2) (run s (lk / 2)).desc.toNat / 64

/-- Sectors of a context's image on core `k`. -/
def imageSize (s : State) (lk k : Nat) : Nat := 1 + Config.imageSectors lk k % max 1 (imageBound s lk)

/-- The context of a launch that takes core `k`. -/
def partAt (s : State) (lk k : Nat) : Option Nat :=
  ((launch s lk).parts.find? fun p => (coresOf (launch s lk) p.1).contains k && p.2.capture ≠ 3).map (·.1)

/-- What is saved of a core, whose image is being written. -/
def savedAt (s : State) (lk k : Nat) : SavedPart := nget {} s.savedParts (lk * 64 + k)

/-- Every sector of a context's image is written. -/
def imageWritten (s : State) (lk c : Nat) : Bool :=
  (coresOf (launch s lk) c).all fun k => decide (imageSize s lk k ≤ (savedAt s lk k).written / 64)

/-- A sector of the image that core `k` writes, in its save slot. -/
def imageAddr (s : State) (n k i : Nat) : Nat :=
  cardFld s n 703 640 + k * (cardFld s n 735 704 * 4096) + 64 * i

/-- One sector of an image enters the hold-back buffer, in the pair's open quantum. Where the save slot does not
translate nothing is written. -/
def imageSector (lk k : Nat) (s : State) : State :=
  let n := lk / 2
  let P := savedAt s lk k
  let i := P.written / 64
  let r := cardXlate s n (imageAddr s n k i) .write
  let qn := (pair s (k / 2)).qn
  let e (pa : Nat) : HB :=
    { g := gKey n 0 0 (lk % 2), seq := qn, core := k, partid := (launch s lk).partid, sealed := false
      num := s.nextId
      what := .image pa (toBytes 64 (Config.freeValue s.ticks)) (decide (imageSize s lk k ≤ i + 1)) }
  let s1 := match r.1 with
    | some pa => modPair { r.2 with nextId := r.2.nextId + 1 } (k / 2) fun Q => { Q with hb := Q.hb ++ [e pa] }
    | none => r.2
  { s1 with savedParts := nput s1.savedParts (lk * 64 + k) { P with written := 64 * (i + 1), lastQn := some qn } }

/-- CONTEXT_IMAGE_WRITE (R308 step 3): the next sector of a launch's image on core `k`, once every closed quantum
of the context is sealed and its copies and cards stand; a chain's waits for no seal of its outputs (R311, R409). -/
def writeImage (lk k : Nat) (s : State) : State :=
  match partAt s lk k with
  | none => s
  | some c =>
    if (part s lk c).capture ≠ 1 || !(groupsOfPart s lk c).all (fun g => (grp s g).closed.isEmpty) ||
        holdCap k ≤ holdCount s k then s
    else
      let s1 := if (savedAt s lk k).written / 64 < imageSize s lk k then imageSector lk k s else s
      if imageWritten s1 lk c then modPart lk c (fun p => { p with capture := 2 }) s1 else s1

/-- The pair's quantum that holds the last write of each image is sealed. -/
def imageSealed (s : State) (lk c : Nat) : Bool :=
  (coresOf (launch s lk) c).all fun k => match (savedAt s lk k).lastQn with
    | some q => decide (q < (pair s (k / 2)).qn) && !((pair s (k / 2)).pqs.any fun x => decide (x.1 ≤ q))
    | none => true

/-- CONTEXT_FREE (R308 step 4): the context is saved, its share of the core is free, and with its last context the
card is parked. -/
def freeContext (lk c : Nat) (s : State) : State :=
  let cs := coresOf (launch s lk) c
  let mine (h : HB) : Bool := match h.what with
    | .output l .. => l = lk
    | _ => lkOf h.g = lk && cs.contains h.core
  if (part s lk c).capture ≠ 2 || !imageSealed s lk c || (pair s (c / 2)).hb.any mine then s
  else
    let s1 := vacate lk c (cs.foldl (fun s k => savePart lk k s) (chargeCard s (lk / 2)))
    let all := [lk / 2 * 2, lk / 2 * 2 + 1].all fun k => (launch s1 k).parts.all fun p => p.2.capture = 3
    dispatch (if all then setCardFld (lk / 2) 7 4 5 s1 else s1)

/-! ### Restore (R41, R162, R246, R312) -/

/-- The held words of a group whose entries are gone complete: a SUSP after its resume (R246). -/
def landAll (s : State) (g : Nat) : State :=
  ((grp s g).flights.map (·.seq)).foldl (fun s n => landHeld n s g) s

/-- The sectors of an image are read from the slot that it was written to (R312). -/
def readImage (lk k : Nat) (s : State) : State :=
  let n := lk / 2
  let P := savedAt s lk k
  (List.range (P.written / 64)).foldl (fun s i =>
    let r := cardXlate s n (imageAddr s n P.slot i) .read
    match r.1 with
    | some pa => l2Fill pa (launch s lk).acct false r.2
    | none => r.2) s

/-- RESTORE_COMPLETE (R312): the context's contents are on its new cores, its locks and watches are registered
again, its stash windows are empty (R162), and its groups go on with new quanta. -/
def restoreDone (lk c : Nat) (s : State) : State :=
  if (part s lk c).capture ≠ 4 then s
  else
    let cs := coresOf (launch s lk) c
    let gs := groupsOfPart s lk c
    let s1 := cs.foldl (fun s k => loadPart lk k (readImage lk k s)) s
    let wake (G : Group) : Group :=
      { G with parked := false, qret := 0, issuedAt := s.now, plan := planPast G.refetch (rotOf G) }
    let s2 := gs.foldl (fun s g => modGrp s g wake) s1
    let s3 := modPart lk c (fun p => { p with capture := 0 }) s2
    let again (j : Job) : Job :=
      if j.lk ≠ lk then j
      else if j.parked then Job.turnClock s.now { j with parked := false, resident := none }
      else { j with resident := none }
    let s4 := cs.foldl (fun s k => restash k (modJobs k (List.map again) s)) s3
    let s5 := (teamsOfPart s4 lk c).foldl (fun s t => modTeam s t fun T => { T with fill0 := [], fill1 := [] }) s4
    dispatch (gs.foldl landAll s5)

/-! ### The events -/

/-- CARD_RELEASE (R303): card. -/
def execCardRelease (n : Nat) (s : State) := event (releaseCard n s)
/-- LAUNCH_COMPLETE (R23): card. -/
def execLaunchComplete (n : Nat) (s : State) := event (completeLaunch n s)
/-- KILL_COMPLETE (R330): card. -/
def execKillComplete (n : Nat) (s : State) := event (killOver n s)
/-- DEADLINE_MISS (R315): card. -/
def execDeadlineMiss (n : Nat) (s : State) := event (missDeadline n s)
/-- EXEC_BUDGET_OVERRUN (R316): card. -/
def execExecBudgetOverrun (n : Nat) (s : State) := event (overrunBudget n s)
/-- BW_BUDGET_OVERRUN (R316): card. -/
def execBwBudgetOverrun (n : Nat) (s : State) := event (overrunBandwidth n s)
/-- PREEMPT_CAPTURE (R308): launch and context. -/
def execPreemptCapture (lk c : Nat) (s : State) := event (capturePart lk c s)
/-- DET_WAVE_PREEMPT (R309): card. -/
def execDetWavePreempt (n : Nat) (s : State) := event (captureWave n s)
/-- CONTEXT_IMAGE_WRITE (R308): launch and core. -/
def execContextImageWrite (lk k : Nat) (s : State) := event (writeImage lk k s)
/-- CONTEXT_FREE (R308): launch and context. -/
def execContextFree (lk c : Nat) (s : State) := event (freeContext lk c s)
/-- RESTORE_COMPLETE (R312): launch and context. -/
def execRestoreComplete (lk c : Nat) (s : State) := event (restoreDone lk c s)

end Sys2Proof.Machine
end

