-- ==== Sys2Proof/Machine/LinkEv.lean ====
section
/-!
DEFINITION. Sys2Proof/Machine/LinkEv.lean: port entries and link messages on their way (R229, R232), what arrives
from other devices (R373, R374), the links' state (R374, R375), and global time (R6, R377 to R379).
-/
namespace Sys2Proof.Machine

/-! ### Port entries (R229) -/

/-- What a word sends beyond its pair may leave: its quantum is sealed, and in normal mode every store and atomic
ordered before it has performed (R229, R262). In deterministic mode the seal is enough (R430). -/
def maySend (s : State) (g seq : Nat) (after : Marks) : Bool :=
  (match nfind s.groups g with
    | some G => decide (seq < sealedBelow G)
    | none => true) &&
    (isDet s g || !(heldBefore s g seq after).any isWriteEntry)

/-- The PSH of a part lets it go. -/
def partMay (s : State) (p : PortPart) : Bool := maySend s p.src p.seq p.after

/-- Part `i` of a channel of this device is delivered: its PSH lets it go, and its source's earlier parts are
delivered. -/
def deliverPart (g port i : Nat) (s : State) : State :=
  let c := chanAt s g port
  match c.parts[i]? with
  | none => s
  | some p =>
    if p.delivered || !partMay s p || (c.parts.take i).any (fun x => x.origin = p.origin && !x.delivered) then s
    else setChan g port { c with parts := c.parts.set i { p with delivered := true } } s

/-- In deterministic mode a word's message or part leaves at the seal, before its commit (R430). -/
def noteGone (g seq : Nat) (s : State) : State :=
  if isDet s g then modGrp s g fun G => { G with gone := seq :: G.gone } else s

/-- A part bound for another device leaves: sealed, in order, over a link that is up (R229, R230); it is an external
effect (R329). -/
def sendPart (i : Nat) (s : State) : State :=
  match s.outParts[i]? with
  | none => s
  | some o =>
    let before (x : OutPart) : Bool := x.part.src = o.part.src && x.dev = o.dev && x.dst = o.dst && x.port = o.port && !x.sent
    match hwRoute s o.dev with
    | none => s
    | some n =>
      if o.sent || !partMay s o.part || (s.outParts.take i).any before || chanStopped s n 2 then s
      else extEff (lkOf o.part.src)
        (noteGone o.part.src o.part.seq { s with outParts := s.outParts.set i { o with sent := true } })

/-! ### Link messages (R232, R376) -/

/-- The link on which a message leaves: by its launch's fixed routes, or, for one that this device forwards, toward its
device (R376). -/
def msgLink (s : State) (m : Msg) : Option Nat :=
  if m.sdev ≠ deviceNo s then hwRoute s m.ddev
  else match nfind (launch s (lkOf m.src)).routes m.ddev with
  | some n => if linkUp s n then some n else none
  | none => none

/-- A message that this device forwards leaves, in the order of its channel (R376); with no link up toward its device
it is discarded and counted (R375; DEDUCED, log 155). -/
def forwardMsg (i : Nat) (m : Msg) (s : State) : State :=
  let same (x : Msg) : Bool := x.inChan m.sdev m.src m.ddev m.dst m.chan && x.stage = 3
  if (s.msgs.take i).any same then s
  else match msgLink s m with
    | none => loseOn (linkToward s m.ddev) { s with msgs := s.msgs.eraseIdx i }
    | some n => if chanStopped s n 2 then s else { s with msgs := s.msgs.set i { m with stage := 1 } }

/-- LSND_SEND (R232, R262, R430): once its word lets it go, and in order in its channel, a message is sent and its
source lock is freed. A message of another device is forwarded.
A message whose route is down is discarded and counted (R374, R375). -/
def sendMsg (i : Nat) (s : State) : State :=
  match s.msgs[i]? with
  | none => s
  | some m =>
    let same (x : Msg) : Bool := x.inChan m.sdev m.src m.ddev m.dst m.chan && x.stage = 0
    if m.stage = 3 then forwardMsg i m s
    else if m.stage ≠ 0 || m.sdev ≠ deviceNo s || !maySend s m.src m.seq m.after || (s.msgs.take i).any same then s
    else if m.ddev = deviceNo s then
      linkUnlock m.core m.lock (noteGone m.src m.seq { s with msgs := s.msgs.set i { m with stage := 1 } })
    else match msgLink s m with
      | none =>
        let n := (nfind (launch s (lkOf m.src)).routes m.ddev).getD (linkToward s m.ddev)
        linkUnlock m.core m.lock (loseOn n { s with msgs := s.msgs.eraseIdx i })
      | some n =>
        if chanStopped s n 2 then s
        else extEff (lkOf m.src)
          (linkUnlock m.core m.lock (noteGone m.src m.seq { s with msgs := s.msgs.set i { m with stage := 1 } }))

/-- A message of this device to itself arrives, in the order of its channel. -/
def arriveOwn (i : Nat) (s : State) : State :=
  match s.msgs[i]? with
  | none => s
  | some m =>
    let before (x : Msg) : Bool := x.inChan m.sdev m.src m.ddev m.dst m.chan && decide (x.stage < 2)
    if m.stage ≠ 1 || m.ddev ≠ deviceNo s || (s.msgs.take i).any before then s
    else { s with msgs := s.msgs.set i { m with stage := 2 } }

/-- A message of another device arrives (R231). -/
def arriveMsg (dev src dst chan : Nat) (bytes : List Byte) (s : State) : State :=
  if dev = deviceNo s || !devPresent s dev then s
  else
    let m : Msg :=
      { src := src, sdev := dev, dst := dst, ddev := deviceNo s, chan := chan, seq := 0, bytes := bytes, lock := 0,
        core := 0, stage := 2 }
    { s with msgs := s.msgs ++ [m] }

/-- A message of one device to another arrives, to be forwarded (R376). -/
def arriveOnward (dev ddev src dst chan : Nat) (bytes : List Byte) (s : State) : State :=
  if dev = deviceNo s || ddev = deviceNo s || !devPresent s dev || !devPresent s ddev then s
  else
    let m : Msg :=
      { src := src, sdev := dev, dst := dst, ddev := ddev, chan := chan, seq := 0, bytes := bytes, lock := 0, core := 0,
        stage := 3 }
    { s with msgs := s.msgs ++ [m] }

/-- A port entry of another device arrives (R225, R229): 64 lane values, and the mask. -/
def arrivePart (dev dst port : Nat) (bytes : List Byte) (s : State) : State :=
  if dev = deviceNo s || !devPresent s dev then s
  else
    let x := ofBytes bytes
    let vals := (List.range (widthOf s dst)).map fun l => (l, BitVec.ofNat 32 (nbits x (32 * l + 31) (32 * l)))
    let p : PortPart := ⟨remoteSrc + dev, 0, vals, BitVec.ofNat 64 (nbits x 2111 2048), true, {}⟩
    let c := chanAt s dst port
    setChan dst port { c with parts := c.parts ++ [p] } s

/-- LINK_MESSAGE_ARRIVE (R232): 0 the device's own message `i`; 1 a message of another device; 2 a port entry; 3 a
message of another device to device `i`, not this one. -/
def linkArrive (what i dev src dst chan : Nat) (bytes : List Byte) (s : State) : State :=
  match what with
  | 0 => arriveOwn i s
  | 1 => arriveMsg dev src dst chan bytes s
  | 3 => arriveOnward dev i src dst chan bytes s
  | _ => arrivePart dev dst chan bytes s

/-! ### Reads that agents outside the array ask for (R279, R397) -/

/-- What an agent outside the array got for a read is kept (R278, R373). -/
def answer (agent pa : Nat) (data : Option (List Byte)) (s : State) : State :=
  { s with replies := s.replies ++ [{ agent := agent, addr := pa, data := data }] }

/-- Agent `n` reaches the sectors of some addresses under a PARTID, and reads those of `reads`: `k` follows once every
read has been served. Until then, or while DRAM sleeps there, the request waits (R279, R397). -/
def outsideReach (n pid : Nat) (touch reads : List Nat) (k : State → State) (s : State) : State :=
  if touch.any (dramSleeps s) then meetAsleep s
  else
    let r := askReads (.agent n) pid (reads.map fun a => (a, 0)) s
    if r.1 then k r.2 else r.2

/-- Agent `n` reads the sector of an address. -/
def outsideAsk (n pa pid : Nat) (k : State → State) (s : State) : State := outsideReach n pid [pa] [pa] k s

/-- Agent `n` writes bytes within the sector of an address: a sector that the L2 takes is read first. -/
def outsideWrite (n : Nat) (who : Agent) (pa : Nat) (bs : List Byte) (pid : Nat) (s : State) : State :=
  outsideReach n pid [pa] (if allocates s pa pid then [pa] else []) (busWrite who pa bs pid) s

/-- Agent `n` runs an atomic on `b` bytes; it is answered with the old value, or as poison where there is none. -/
def outsideAtomic (n agent : Nat) (who : Agent) (pa op ty b c pid : Nat) (s : State) : State :=
  let w := atomSize ty
  outsideAsk n pa pid (fun s => match busRead s pa w with
    | some old => answer agent pa (some (toBytes w old)) (busWrite who pa (toBytes w (atomNew op ty old b c)) pid s)
    | none => answer agent pa none s) s

/-! ### Requests of other devices (R373) -/

/-- A remote request performs at this device's home agent: 0 a read of a sector, 1 a write of bytes within a sector, 2
an atomic with its operation, type and operands, answered with the old value. A poisoned sector is answered as poison,
and an atomic leaves it. -/
def remoteRequest (what pa op ty b c partid : Nat) (bytes : List Byte) (s : State) : State :=
  let p := pa % 2 ^ 48
  match what with
  | 0 =>
    let a := 64 * (p / 64)
    outsideAsk 6 a (partid % 64) (fun s => answer 3 a (if isPoison s a then none else some (l2Read s a 64)) s) s
  | 1 => if 64 < p % 64 + bytes.length then s else outsideWrite 6 .outside p bytes (partid % 64) s
  | _ => if p % atomSize ty ≠ 0 then s else outsideAtomic 6 3 .outside p op ty b c (partid % 64) s

/-! ### Flits and the links' state (R374, R375) -/

/-- A stop signal is counted for its channel. -/
def countStop (n ch : Nat) (s : State) : State :=
  let x := reg s (rLk n 0x18)
  setReg s (rLk n 0x18) (setBits x (16 * ch + 15) (16 * ch) (nbits x (16 * ch + 15) (16 * ch) + 1))

/-- FLIT_RECEIVE (R374): a flit on link `n`: 0 its payload is whole, and acts by the events of its kind; 1 it fails
its CRC and is not seen; 2 the peer asks for a resend; 3 stop and 4 go for channel `x`; 5 the peer has freed port
part `x`, 6 it has received message `x`, and 7 a group of another device has retired: `x` names its device with four
times the group. -/
def flitReceive (n what x : Nat) (s : State) : State :=
  if !linkUp s n || 4 ≤ n then s
  else match what with
    | 2 => setReg s (rLk n 0x10) (reg s (rLk n 0x10) + 1)
    | 3 => if x < 4 then countStop n x { s with linkStop := s.linkStop ||| 2 ^ (4 * n + x) } else s
    | 4 => if x < 4 then { s with linkStop := setBits s.linkStop (4 * n + x) (4 * n + x) 0 } else s
    | 5 => match s.outParts[x]? with
      | some o => if o.sent && hwRoute s o.dev = some n then { s with outParts := s.outParts.eraseIdx x } else s
      | none => s
    | 6 => match s.msgs[x]? with
      | some m =>
        if m.stage = 1 && m.ddev ≠ deviceNo s && msgLink s m = some n then { s with msgs := s.msgs.eraseIdx x } else s
      | none => s
    | 7 =>
      let p := (x % 4, x / 4)
      if hwRoute s p.1 = some n && p.1 ≠ deviceNo s && !s.farRetired.contains p then
        { s with farRetired := s.farRetired ++ [p] }
      else s
    | _ => s

/-- Bits of TSTAT, with the interrupt of a change (R387). -/
def setTstat (bit : Nat) (on : Bool) (s : State) : State :=
  let old := reg s rTStat
  let new := setBits old bit bit (b2n on)
  if old = new then s else raiseInt 7 (setReg s rTStat new)

/-- LLOCK: the device is aligned over some link that is up (R378). -/
def setLlock (s : State) : State :=
  setTstat 1 ((List.range 4).any fun n => linkUp s n && (lkstat s n).testBit 3) s

/-- The island's restart of a link has ended (R394). -/
def linkRestarted (n : Nat) (s : State) : State :=
  if s.island.restart = some (0x4E + n) then { s with island := { s.island with restart := none } } else s

/-- LINK_UP (R374): a link that trains comes up, with its peer and lanes; the island has set the links up in stage 4 of
boot (R389). A link that goes up raises an interrupt (R387). -/
def linkComesUp (n peer lanes : Nat) (s : State) : State :=
  match nfind s.retrain n with
  | none => s
  | some _ =>
    if s.island.stage < 5 then s
    else
      let s1 := setReg { s with retrain := ndel s.retrain n } (rLk n 8) (1 + peer % 4 * 2 + lanes % 32 * 16)
      let s2 := linkRestarted n (setLlock s1)
      if linkUp s n then s2 else raiseInt 5 s2

/-- LINK_DOWN (R374): a link that has not retrained within 1 ms goes down; the messages in flight on it are
discarded and counted, and its port entries are lost. -/
def linkGoesDown (n : Nat) (s : State) : State :=
  match nfind s.retrain n with
  | none => s
  | some t =>
    if s.now < t + 1000000 then s
    else
      let gone (m : Msg) : Bool := m.stage = 1 && m.ddev ≠ deviceNo s && msgLink s m = some n
      let s1 := (s.msgs.filter gone).foldl (fun s _ => loseOn n s) s
      let s2 : State := { s1 with
        msgs := s1.msgs.filter fun m => !gone m
        outParts := s1.outParts.filter fun o => !(o.sent && hwRoute s o.dev = some n)
        retrain := ndel s1.retrain n
        linkStop := s1.linkStop - nbits s1.linkStop (4 * n + 3) (4 * n) * 2 ^ (4 * n) }
      let was := linkUp s n
      let s3 := linkRestarted n (setLlock (setReg s2 (rLk n 8) (setBits (setBits (reg s2 (rLk n 8)) 0 0 0) 3 3 0)))
      if was then raiseInt 5 s3 else s3

/-- LKCTL_RETRAIN (R375): a write of 1 to RETRAIN of link `n`. -/
def retrainLink (n : Nat) (s : State) : State :=
  if 4 ≤ n then s else regWrite .host (rLk n 0) (reg s (rLk n 0) ||| 2) [0] s

/-! ### Time (R8, R377 to R379) -/

/-- The offset of four timestamps, toward zero. -/
def offsetOf (t1 t2 t3 t4 : Nat) : Int := ((t2 : Int) - t1 - ((t4 : Int) - t3)).tdiv 2

/-- LINK_TIME_EXCHANGE (R377): a follower measures its offset over link `n` to its time source and slews it out, in place
of what is left of the last one; it is then aligned to that peer. -/
def linkTime (n t1 t2 t3 t4 : Nat) (s : State) : State :=
  if isMaster s || !linkUp s n || 4 ≤ n || timeSource s ≠ some (linkPeerDev s n) then s
  else
    let o := offsetOf t1 t2 t3 t4
    let s1 := setReg { s with slew := -(o * 1000000000) } (rLk n 0x28) (cut 64 o)
    setLlock (setReg s1 (rLk n 8) (reg s1 (rLk n 8) ||| 8))

/-- The rate correction that the clock's servo chooses, within 200 ppm (R8). -/
def servoRate (s : State) : Int := (Config.freeValue s.ticks % 400001 : Nat) - 200000

/-- PTP_MESSAGE (R6, R379): a message on an Ethernet port and in a PTP domain, those that TSYNC names; one that
completes a delay exchange gives the offset, and `lock` says whether the clock is then locked. In hardware mode the
offset is slewed out and the servo sets the rate; in host-assisted mode the next interval's record carries it to the
driver. -/
def ptpMessage (m : PtpMsg) (lock : Bool) (t1 t2 t3 t4 : Nat) (s : State) : State :=
  let o := offsetOf t1 t2 t3 t4
  if reg s rTSync % 4 ≠ m.port || nbits (reg s rTSync) 9 2 ≠ m.dom then s else
  let s1 := if m.whole then setReg s rTOffset (cut 64 o) else s
  let s2 :=
    if !m.whole || (reg s rDutySel).testBit 5 then s1
    else setReg { s1 with slew := -(o * 1000000000) } rTRate (cut 64 (servoRate s))
  setTstat 0 lock s2

/-- The sync interval in ns: 2^n units of 1/128 s (R378). -/
def syncPeriod (s : State) : Nat := 2 ^ nbits (reg s rTSync) 13 10 * 7812500

/-- TIME_SYNC_INTERVAL (R6, R379): in host-assisted mode each sync interval asks for one duty record. -/
def syncInterval (refTime : Nat) (s : State) : State :=
  if (reg s rDutySel).testBit 5 && decide (s.syncNext ≤ s.now) then
    askDuty { kind := 5, time := s.now, arg0 := s.now, arg1 := refTime, arg2 := reg s rTOffset }
      { s with syncNext := (s.now / syncPeriod s + 1) * syncPeriod s }
  else s

/-! ### The events -/

/-- PORT_ENTRY_DELIVER (R229): a part of a channel of this device, or with `far` one for another device. -/
def execPortEntryDeliver (far : Bool) (g port i : Nat) (s : State) :=
  event (if far then sendPart i s else deliverPart g port i s)
/-- LSND_SEND (R232): message. -/
def execLsndSend (i : Nat) (s : State) := event (sendMsg i s)
/-- LINK_MESSAGE_ARRIVE (R232). -/
def execLinkMessageArrive (what i dev src dst chan : Nat) (bytes : List Byte) (s : State) :=
  event (linkArrive what i dev src dst chan bytes s)
/-- KRYPIN_REMOTE_REQUEST (R373). -/
def execKrypinRemoteRequest (what pa op ty b c partid : Nat) (bytes : List Byte) (s : State) :=
  event (remoteRequest what pa op ty b c partid bytes s)
/-- FLIT_RECEIVE (R374): link, what the flit is, and what it names. -/
def execFlitReceive (n what x : Nat) (s : State) := event (flitReceive n what x s)
/-- LINK_DOWN (R374): link. -/
def execLinkDown (n : Nat) (s : State) := event (linkGoesDown n s)
/-- LINK_UP (R374): link, peer device and lanes. -/
def execLinkUp (n peer lanes : Nat) (s : State) := event (linkComesUp n peer lanes s)
/-- LKCTL_RETRAIN (R375): link. -/
def execLkctlRetrain (n : Nat) (s : State) := event (retrainLink n s)
/-- LINK_TIME_EXCHANGE (R377): link and timestamps. -/
def execLinkTimeExchange (n t1 t2 t3 t4 : Nat) (s : State) := event (linkTime n t1 t2 t3 t4 s)
/-- PTP_MESSAGE (R379): the message, whether the clock is locked, and timestamps. -/
def execPtpMessage (m : PtpMsg) (lock : Bool) (t1 t2 t3 t4 : Nat) (s : State) :=
  event (ptpMessage m lock t1 t2 t3 t4 s)
/-- TIME_SYNC_INTERVAL (R6): reference timestamp. -/
def execTimeSyncInterval (refTime : Nat) (s : State) := event (syncInterval refTime s)
/-- TSET (R378): value. -/
def execTset (x : Nat) (s : State) := event (regWrite .island 0x130010 (x % 2 ^ 64) (List.range 8) s)

end Sys2Proof.Machine
end

