-- ==== Sys2Proof/Machine/DevEv.lean ====
section
/-!
DEFINITION. Sys2Proof/Machine/DevEv.lean: memory traffic that the device's own units and the outside world begin:
bandwidth regulators and DRAM errors (R277, R279), unmapped addresses (R278), sensor ingest (R382), Ethernet
(R384), PCI Express (R386), and the application processors (R265, R387).
-/
namespace Sys2Proof.Machine

/-! ### Regulators and DRAM errors (R276, R277, R279) -/

/-- REGULATOR_WINDOW (R279): every regulator whose window has ended. -/
def openWindows (s : State) : State :=
  { s with regulators := s.regulators.map fun x => (x.1, catchUp s (x.1 % 64) x.2) }

/-- A read of DRAM finds its sector as it is, with one bit in error, or with two (R277): a sector with two is
poisoned in the L2, from where the poison reaches DRAM; where the L2 does not hold it, in DRAM itself. `pid` is the
PARTID of the read. -/
def dramError (pa err pid : Nat) (s : State) : State :=
  match err with
  | 0 => s
  | 1 => countReg rCecount 1 s
  | _ =>
    let s1 := countUe s
    match nfind s1.dirty (pa / 64) with
    | some d => { s1 with dirty := nput s1.dirty (pa / 64) { d with pois := true } }
    | none => poisonSector pa (if l2Valid s1 pa then markDirty 0 pa pid s1 else s1)

/-- REGULATOR_REQUEST (R279): a read of one sector of DRAM under a PARTID, for a card's bandwidth budget too where `card`
names one, or the write-back of a dirty sector; `err` is what the read finds (R277). -/
def dramRequest (pa pid : Nat) (card : Option Nat) (write : Bool) (err : Nat) (s : State) : State :=
  if 64 ≤ pid || paKind s pa ≠ .dram then s
  else if write then writeBack pa s
  else if l2Valid s pa then s
  else
    let account := match card with
      | some n => acct pid n
      | none => pid
    outsideAsk 30 pa account (dramError pa err account) s

/-- The nanoseconds of the patrol period (R277, R280). -/
def scrubPeriod (s : State) : Nat := reg s rScrub * 3600000000000

/-- PATROL_SCRUB (R277): the scrubber reads the next sector; a pass over every sector begins once in each period, and
SCRUBHRS 0 stops it. It has started with the end of stage 3 of boot (R389), and reads no DRAM that sleeps. -/
def patrolRead (pa err : Nat) (s : State) : State :=
  if reg s rScrub = 0 || decide (s.island.stage < 4) || dramSleeps s pa || paKind s pa ≠ .dram ||
      pa / 64 ≠ s.scrubNext || (s.scrubNext = 0 && decide (s.now < s.scrubDue)) then s
  else
    let s1 : State := { s with
      scrubNext := if 64 * (s.scrubNext + 1) < Config.dramBytes then s.scrubNext + 1 else 0
      scrubDue := if s.scrubNext = 0 then s.now + scrubPeriod s else s.scrubDue }
    dramError pa err noPartid s1

/-- There is neither DRAM nor a register at a physical address (R278). -/
def nothingAt (s : State) (pa : Nat) : Bool :=
  match paKind s pa with
  | .hole => true
  | .reg off => !isEcam off && (regKind (off / 8 * 8)).isNone
  | _ => false

/-- UNMAPPED_ACCESS (R278): a write where nothing is, is dropped and counted; a read returns poison, and an
application processor takes an access fault. -/
def unmapped (pa : Nat) (write : Bool) (s : State) : State :=
  if !nothingAt s pa then s else if write then countUe s else answer 0 pa none s

/-! ### Sensor ingest (R381, R382) -/

def ingestAt (s : State) (k : Nat) : Ingest := nget {} s.ingest k
def setIngest (k : Nat) (e : Ingest) (s : State) : State := { s with ingest := nput s.ingest k e }

/-- A frame is dropped and counted. -/
def countDrop (k : Nat) (s : State) : State :=
  let e := ingestAt s k
  setIngest k { e with cur := none, drops := e.drops + 1, since := e.since + 1 } s

/-- Log2 of the buffers, from IGEOM. -/
def lbufOf (geom : Nat) : Nat := nbits geom 51 48

/-- The registers that a Frame Start latches. -/
def frameOf (s : State) (k : Nat) : Frame :=
  { start := s.now, num := 0, ictl := reg s (rIng k 0), ibuf := reg s (rIng k 8), geom := reg s (rIng k 0x10),
    ring := reg s (rIng k 0x18) }

/-- A packet is on an engine's receiver and virtual channel. -/
def takesChannel (ictl rx vc : Nat) : Bool := ictl.testBit 0 && nbits ictl 4 1 = rx && nbits ictl 8 5 = vc
/-- A frame is of an engine's receiver, virtual channel and data type (R381). -/
def takesFrame (ictl rx vc dt : Nat) : Bool := takesChannel ictl rx vc && nbits ictl 14 9 = dt

/-- An ingest engine writes bytes within one sector, under the PARTID that its frame latched (R382). -/
def ingestWrite (F : Frame) (pa : Nat) (bs : List Byte) (s : State) : State :=
  if dramSleeps s pa then meetAsleep s else busWrite .outside pa bs (nbits F.ictl 20 15) s

/-- Frame Start at one engine: a frame that has had no Frame End is dropped, and so is one for which there is no
buffer or whose ring cannot be read. -/
def beginFrame (rx vc dt : Nat) (s : State) (k : Nat) : State :=
  let F := frameOf s k
  if !takesFrame F.ictl rx vc dt then s
  else if dramSleeps s F.ring then meetAsleep s
  else
    let s1 := l2Fill F.ring (nbits F.ictl 20 15) false (if (ingestAt s k).cur.isSome then countDrop k s else s)
    let tail := ofBytes (l2Read s1 F.ring 4)
    let credit := ofBytes (l2Read s1 (F.ring + 8) 4)
    if isPoison s1 F.ring || decide (2 ^ lbufOf F.geom = diff32 tail credit) then countDrop k s1
    else setIngest k { ingestAt s1 k with cur := some { F with num := tail } } s1

/-- FRAME_START (R382). -/
def frameBegins (rx vc dt : Nat) (s : State) : State := (List.range 8).foldl (beginFrame rx vc dt) s

/-- A line of a frame at one engine (R382): it takes its data type, and at most STRIDE bytes. -/
def takeLine (rx vc dt : Nat) (crcErr eccFix : Bool) (bytes : List Byte) (s : State) (k : Nat) : State :=
  let e := ingestAt s k
  match e.cur with
  | none => s
  | some F =>
    if !takesFrame F.ictl rx vc dt then s
    else
      let stride := F.geom % 2 ^ 32
      let lines := nbits F.geom 47 32
      let F1 := { F with eccFix := F.eccFix || eccFix }
      if lines ≤ F.lines then setIngest k { e with cur := some { F1 with trunc := true } } s
      else
        let a := F.ibuf + F.num % 2 ^ lbufOf F.geom * (stride * lines) + F.lines * stride
        setIngest k { e with cur := some { F1 with lines := F.lines + 1, crcErr := F.crcErr || crcErr } }
          (ingestWrite F a (bytes.take stride) s)

/-- FRAME_LINE (R382). -/
def frameLine (rx vc dt : Nat) (crcErr eccFix : Bool) (bytes : List Byte) (s : State) : State :=
  (List.range 8).foldl (takeLine rx vc dt crcErr eccFix bytes) s

/-- The 64 bytes of a frame record. -/
def frameRecord (F : Frame) (dropped now : Nat) : List Byte :=
  toBytes 64 (F.num % 2 ^ 32 + b2n F.crcErr * 2 ^ 32 + b2n F.trunc * 2 ^ 33 + b2n F.eccFix * 2 ^ 34 +
    F.start % 2 ^ 64 * 2 ^ 64 + now % 2 ^ 64 * 2 ^ 128 + F.lines % 2 ^ 32 * 2 ^ 192 + dropped % 2 ^ 32 * 2 ^ 224)

/-- Frame End at one engine: the record, then the tail, then the interrupt. -/
def endFrame (rx vc : Nat) (s : State) (k : Nat) : State :=
  let e := ingestAt s k
  match e.cur with
  | none => s
  | some F =>
    if !takesChannel F.ictl rx vc then s
    else
      let s1 := ingestWrite F (F.ring + 64 + 64 * (F.num % 2 ^ lbufOf F.geom)) (frameRecord F e.since s.now) s
      let s2 := ingestWrite F F.ring (toBytes 4 ((F.num + 1) % 2 ^ 32)) s1
      raiseInt 3 (setIngest k { e with cur := none, frames := e.frames + 1, since := 0 } s2)

/-- FRAME_END (R382). -/
def frameEnds (rx vc : Nat) (s : State) : State := (List.range 8).foldl (endFrame rx vc) s

/-! ### Ethernet (R383, R384) -/

/-- Descriptors `i` and up, `n` of them, of an Ethernet ring: base, log2 of its size (R384). -/
def ethDesc (ring i : Nat) : Nat := nbits ring 51 0 + 32 * (i % 2 ^ nbits ring 59 56)

/-- Return a descriptor with DONE and more bits of its word 1, and a timestamp where one is taken. -/
def ethDone (p pa word1 : Nat) (time : Option Nat) (s : State) : State :=
  let part := nbits (reg s (rEth p 0)) 7 2
  let t := match time with
    | some x => l2Write (pa + 16) (toBytes 8 x) part s
    | none => s
  l2Write (pa + 8) (toBytes 8 word1) part t

/-- Sectors from one address on that hold `n` bytes. -/
def sectorsOf (pa n : Nat) : List Nat :=
  (List.range ((pa % 64 + n + 63) / 64)).map fun i => 64 * (pa / 64) + 64 * i

/-- The MAC of port `p` sends the frame that a descriptor at `pa` names, and returns the descriptor; poison in it, or in
the descriptor, ends the frame as an underrun does. What is sent stands among the replies, under agent 8 + p. -/
def ethFrame (p pa : Nat) (under : Bool) (s : State) : State :=
  let head := reg s (rEth p 0x18)
  let part := nbits (reg s (rEth p 0)) 7 2
  let buf := ofBytes (l2Read s pa 8) % 2 ^ 52
  let w1 := ofBytes (l2Read s (pa + 8) 8)
  let len := w1 % 2 ^ 14
  let secs := sectorsOf buf len
  outsideReach (20 + p) part secs secs (fun s =>
    let err := under || isPoison s pa || secs.any (isPoison s)
    let s1 := answer (8 + p) buf (if err then none else some (l2Read s buf len)) s
    let s2 := ethDone p pa (setBits w1 16 15 (1 + 2 * b2n err)) (if w1.testBit 14 then some s.now else none) s1
    raiseInt 4 (setReg s2 (rEth p 0x18) ((head + 1) % 2 ^ 32))) s

/-- ETH_TX (R384): the MAC of port `p` reads its next covered descriptor, and sends its frame; `under` is an underrun. -/
def ethSend (p : Nat) (under : Bool) (s : State) : State :=
  let head := reg s (rEth p 0x18)
  if 4 ≤ p || !(reg s (rEth p 0)).testBit 0 || diff32 (reg s (rEth p 0x10)) head = 0 then s
  else
    let pa := ethDesc (reg s (rEth p 8)) head
    outsideAsk (20 + p) pa (nbits (reg s (rEth p 0)) 7 2) (ethFrame p pa under) s

/-- A received frame fills the buffer of the descriptor at `pa`, as far as it goes, and the descriptor returns; a
poisoned descriptor names no buffer, and returns with ERR. -/
def ethFill (p pa : Nat) (fcsErr : Bool) (bytes : List Byte) (s : State) : State :=
  let head := reg s (rEth p 0x30)
  let part := nbits (reg s (rEth p 0)) 7 2
  let buf := ofBytes (l2Read s pa 8) % 2 ^ 52
  let w1 := ofBytes (l2Read s (pa + 8) 8)
  let size := w1 % 2 ^ 14
  let tooLong := decide (size < bytes.length) || decide (9216 < bytes.length)
  let lost := isPoison s pa
  let secs := if lost then [] else sectorsOf buf (min size bytes.length)
  outsideReach (20 + p) part secs [] (fun s =>
    let s1 := if lost then s else l2Write buf (bytes.take size) part s
    let w1' := setBits (setBits w1 13 0 bytes.length) 16 15 (1 + 2 * b2n (fcsErr || tooLong || lost))
    raiseInt 4 (setReg (ethDone p pa w1' (some s.now) s1) (rEth p 0x30) ((head + 1) % 2 ^ 32))) s

/-- ETH_RX_FRAME (R384): a received frame takes the next supplied buffer; without one it is lost. -/
def ethReceive (p : Nat) (fcsErr : Bool) (bytes : List Byte) (s : State) : State :=
  let head := reg s (rEth p 0x30)
  if 4 ≤ p || !(reg s (rEth p 0)).testBit 0 || diff32 (reg s (rEth p 0x28)) head = 0 then s
  else
    let pa := ethDesc (reg s (rEth p 0x20)) head
    outsideAsk (20 + p) pa (nbits (reg s (rEth p 0)) 7 2) (ethFill p pa fcsErr bytes) s

/-! ### PCI Express (R275, R386) -/

/-- Controller `i` is the endpoint that the straps make of controller 0 (R385). -/
def pcieEndpoint (s : State) (i : Nat) : Bool := i = 0 && s.pciEnd

/-- The address that an inbound request names: through BAR0 or BAR2 of an endpoint (R386), or as it stands at a root
port. -/
def pcieAddr (s : State) (i bar a : Nat) : Option Nat :=
  let win := reg s (rPci i 0x10)
  if !pcieEndpoint s i then some a
  else match bar with
  | 0 => if a < 0x200000 then some (Config.regBase + a) else none
  | 2 => if a < 2 ^ (30 + nbits win 59 56) then some (nbits win 51 30 * 2 ^ 30 + a) else none
  | _ => none

/-- A request is refused and counted; one that awaits a completion gets Completer Abort. -/
def pcieRefuse (i what a : Nat) (s : State) : State :=
  let s1 := countReg (rPci i 0x18) 1 s
  if what = 1 then s1
  else { s1 with replies := s1.replies ++ [{ agent := 2, addr := a, data := none, abort := true }] }

/-- A request past the L2, with No Snoop: what DRAM holds, and a write to it (R265, R275). -/
def rawRead (s : State) (pa n : Nat) : Option Nat :=
  let d := dramSector s pa
  if d.2 then none else some (ofBytes ((d.1.drop (pa % 64)).take n))

/-- A translated request performs: 0 a read of as many bytes as are given, 1 a write of bytes within a sector, 2 an
AtomicOp: FetchAdd, Swap or CAS of 32 or 64 bits. A read of poison or of nothing is answered with EP set (R278). -/
def pciePerform (i what pa op ty b c : Nat) (raw : Bool) (bytes : List Byte) (s : State) : State :=
  let part := reg s (rPci i 8) % 64
  let past : Bool := raw && paKind s pa = .dram
  let len := bytes.length
  match what with
  | 0 =>
    if 64 < pa % 64 + len then s
    else if past then
      outsideReach (2 + i) part [pa] []
        (fun s => answer 2 pa ((rawRead s pa len).map (toBytes len)) (chargeDram pa part s)) s
    else outsideAsk (2 + i) pa part (fun s => answer 2 pa ((busRead s pa len).map (toBytes len)) s) s
  | 1 =>
    if 64 < pa % 64 + len then s
    else if past then outsideReach (2 + i) part [pa] [] (fun s => dramWrite pa bytes (chargeDram pa part s)) s
    else outsideWrite (2 + i) .outside pa bytes part s
  | _ =>
    if pa % atomSize ty ≠ 0 || !([0, 6, 7].contains op) || decide (4 ≤ ty) then s
    else outsideAtomic (2 + i) 2 .outside pa op ty b c part s

/-- PCIE_INBOUND_REQUEST (R386): of controller `i`, which has lanes, translated in PCICTX where EN is 1. -/
def pcieInbound (i bar what a op ty b c : Nat) (raw : Bool) (bytes : List Byte) (s : State) : State :=
  let ctl := reg s (rPci i 0)
  if 4 ≤ i || nget 0 s.pciWidth i = 0 then s
  else match pcieAddr s i bar a with
  | none => pcieRefuse i what a s
  | some va =>
    if !ctl.testBit 6 then pciePerform i what va op ty b c raw bytes s
    else
      let acc : Acc2 := match what with
        | 0 => .read
        | 1 => .write
        | _ => .atomic
      let r := translate s false false noTlb (ctl % 64) false va acc
      match r.1 with
      | .fault cause _ => if cause = causeAsleep then r.2 else pcieRefuse i what a r.2
      | .ok pa _ => pciePerform i what pa op ty b c raw bytes r.2

/-! ### Application processors and safety island (R265, R278, R387) -/

/-- A write by a hart or by a core of the safety island. What a hart writes to DRAM, its cluster's caches may alone hold
from then on (R394). -/
def apWrite (island : Bool) (pa : Nat) (bs : List Byte) (s : State) : State :=
  let t := busWrite (if island then .island else .host) pa bs 0 s
  match island, paKind s pa with
  | false, .dram => { t with apLines := pa / 64 :: t.apLines }
  | _, _ => t

/-- APPLICATION_PROCESSOR_ACCESS: 0 a load of as many bytes as are given, 1 a store of bytes within a sector, 2 an AMO,
by a hart or by a core of the safety island. A load of poison, or where nothing is, gives an access fault and no data
(R278). The harts run once stage 5 of boot has ended (R389). -/
def apAccess (island : Bool) (what pa op ty b c : Nat) (bytes : List Byte) (s : State) : State :=
  let len := bytes.length
  let n := atomSize ty
  let who := b2n island
  if !island && decide (s.island.stage < 6) then s
  else match what with
  | 0 =>
    if 64 < pa % 64 + len then s
    else outsideAsk who pa 0 (fun s => answer who pa ((busRead s pa len).map (toBytes len)) s) s
  | 1 =>
    if 64 < pa % 64 + len then s
    else outsideReach who 0 [pa] (if allocates s pa 0 then [pa] else []) (apWrite island pa bytes) s
  | _ =>
    if pa % n ≠ 0 then s
    else outsideAsk who pa 0 (fun s => match busRead s pa n with
      | some old => answer who pa (some (toBytes n old)) (apWrite island pa (toBytes n (atomNew op ty old b c)) s)
      | none => answer who pa none s) s

/-! ### The events -/

/-- REGULATOR_WINDOW (R279). -/
def execRegulatorWindow (s : State) := event (openWindows s)
/-- REGULATOR_REQUEST (R279): address, PARTID, card with `mine`, write, and what a read finds. -/
def execRegulatorRequest (pa pid card : Nat) (mine write : Bool) (err : Nat) (s : State) :=
  event (dramRequest pa pid (if mine then some card else none) write err s)
/-- PATROL_SCRUB (R277): address and what the read finds. -/
def execPatrolScrub (pa err : Nat) (s : State) := event (patrolRead pa err s)
/-- UNMAPPED_ACCESS (R278): address, and whether it is a write. -/
def execUnmappedAccess (pa : Nat) (write : Bool) (s : State) := event (unmapped pa write s)
/-- FRAME_START (R381, R382): receiver, virtual channel and data type. -/
def execFrameStart (rx : Nat) (ch : SensorChan) (s : State) := event (frameBegins rx ch.vc ch.dt s)
/-- FRAME_LINE (R382): receiver, virtual channel, data type, a failed CRC, a corrected header, and the payload. -/
def execFrameLine (rx vc dt : Nat) (crcErr eccFix : Bool) (bytes : List Byte) (s : State) :=
  event (frameLine rx vc dt crcErr eccFix bytes s)
/-- FRAME_END (R382): receiver and virtual channel. -/
def execFrameEnd (rx vc : Nat) (s : State) := event (frameEnds rx vc s)
/-- ETH_TX (R384): port, and an underrun. -/
def execEthTx (p : Nat) (under : Bool) (s : State) := event (ethSend p under s)
/-- ETH_RX_FRAME (R384): port, an FCS error, and the frame. -/
def execEthRxFrame (p : Nat) (fcsErr : Bool) (bytes : List Byte) (s : State) := event (ethReceive p fcsErr bytes s)
/-- PCIE_INBOUND_REQUEST (R386). -/
def execPcieInboundRequest (i bar what a op ty b c : Nat) (raw : Bool) (bytes : List Byte) (s : State) :=
  event (pcieInbound i bar what a op ty b c raw bytes s)
/-- APPLICATION_PROCESSOR_ACCESS (R265). -/
def execApplicationProcessorAccess (island : Bool) (what pa op ty b c : Nat) (bytes : List Byte) (s : State) :=
  event (apAccess island what pa op ty b c bytes s)

end Sys2Proof.Machine
end

