-- ==== Sys2Proof/Machine/Fetch.lean ====
section
/-!
DEFINITION. Sys2Proof/Machine/Fetch.lean: the splitter's fetch (R68 to R70, R76 to R78): which slot it takes a
word from, the bytes it reads, and what a fetch that fails does.
-/
namespace Sys2Proof.Machine

/-! ### When a slot gives its next word -/

/-- A fetch of a slot, or with 2 the fetch of a saved word, has a fault record without a reply (R292). -/
def fetchWaits (s : State) (g k : Nat) : Bool :=
  (s.faults ++ s.outFaults).any fun r => r.owner = .fetch g k

/-- A MARK of the other slot waits in the S queue: its slot's words come first (R109). -/
def markWaits (G : Group) (slot : Nat) : Bool :=
  (queueOf G 0).any fun w => isMark w.instr && w.slot ≠ slot

/-- The slot may give its next word now (R76 to R78); saved words come before any slot's (R86). -/
def fetchable (s : State) (g k : Nat) : Bool :=
  let G := grp s g
  let sl := slotOf G k
  (nfind s.groups g).isSome && !stopped s g && !fetchWaits s g k &&
    if k = 2 then !G.refetch.isEmpty
    else k < 2 && G.refetch.isEmpty && sl.valid && !sl.stopped && !markWaits G k &&
      (!(isDet s g && G.s0.valid && G.s1.valid) || k = G.turn)

/-- Where a fetch takes a word from: the slot or saved word by its key, the issuing slot, the address of word 0, the
sequence number and lane mask, and the saved word as it was. -/
structure FetchAt where
  key : Nat
  slot : Nat
  pc : Word64
  seq : Nat
  mask : Word64
  rot : Rot
  old : Option QWord := none
deriving DecidableEq, Repr

/-- The place of a slot's next word, or of the oldest saved word. -/
def fetchAt (G : Group) (k : Nat) : FetchAt :=
  match (if k = 2 then G.refetch.head? else none) with
  | some w => ⟨k, w.slot, w.pc, w.seq, w.mask, w.rot, some w⟩
  | none => ⟨k, k, (slotOf G k).addr, G.nextSeq, (slotOf G k).mask, G.plan, none⟩

/-! ### The bytes of a word -/

/-- What a fetch of one 32-bit word answers. -/
inductive Fetched where
  | word (w : Word32)
  | fault (va cause ipa : Nat)
  | poison (va : Nat)
  /-- its regulator has deferred the read (R279) -/
  | later
deriving DecidableEq, Repr

/-- A sector comes to the core for a fetch by slot or saved word `k`: it is in the L1, or it comes through the L2
under the regulator of the launch's PARTID, and its line into the L1 (R267, R272, R279). -/
def fetchLine (g k pa mt : Nat) (s : State) : Bool × State :=
  if (nfind (core s (coreOf s g)).l1c (pa / 64)).isSome then (true, s)
  else
    let q := askRead (.fetch g k) pa (launchOf s g).acct mt s
    (q.1, if q.1 && decide (mt = 0) then l1Fill (coreOf s g) pa q.2 else q.2)

/-- Fetch the 32-bit word at an address that is a multiple of 4, for slot or saved word `k` (R70, R283): under continue a
poisoned sector reads as zeros (R165), and a register answers an access that it takes (R12). -/
def fetchWord (s : State) (g k va : Nat) : Fetched × State :=
  let va := va % 2 ^ 64
  let r := xlate s g va .fetch
  match r.1 with
  | .fault cause ipa => (.fault va cause ipa, r.2)
  | .ok pa mt =>
    let q := fetchLine g k pa mt r.2
    let t := markRead g ((List.range 4).map (pa + ·)) q.2
    let lost := match paKind t pa with
      | .reg _ => (busRead t pa 4).isNone
      | _ => viewPoison t g pa
    let w := match paKind t pa with
      | .reg _ => (busRead t pa 4).getD 0
      | _ => ofBytes (viewBytes t g pa 4)
    if !q.1 then (.later, q.2)
    else if !lost then (.word (BitVec.ofNat 32 w), t)
    else if isCont t g then (.word (BitVec.ofNat 32 w), countPois g 1 t)
    else (.poison va, t)

/-- The trap of a fetch: the word has its sequence number and is not placed (R75, R84). `q` is the queue field it
reports: the word's E field, or 0 where its word 0 has not been read (DESIGN CHOICE, log 95: R84 and R242 name only the
E field of the trapping word). -/
def fetchTrap (g : Nat) (p : FetchAt) (cls cause addr q : Nat) (s : State) : State :=
  raiseTrap g { cls := cls, cause := cause, queue := q, slot := p.slot, pmode := (grp s g).supv, seq := p.seq,
                addr := BitVec.ofNat 64 addr, mask := 0, smask := p.mask } s

/-- The pending record of a fetch fault (R292). -/
def fetchRecord (g : Nat) (p : FetchAt) (va cause ipa : Nat) (s : State) : State :=
  let l := launchOf s g
  let r : FaultRec :=
    { src := 1, acc := 3, cause := cause, ctx := l.ctx, partid := l.partid, job := gCard g, core := coreOf s g,
      lane := 0, group := gIdx g, team := gTeam g, nrec := 1, va := va, seq := p.seq, mask := 0,
      ipa := ipa, time := s.now, owner := .fetch g p.key }
  { s with faults := s.faults ++ [r] }

/-- A 32-bit word of the fetch failed: a walk that reads poison traps, any other fault is served through the fault
ring (R164, R321); `q` is the queue field of a trap. -/
def fetchFail (g : Nat) (p : FetchAt) (q : Nat) (f : Fetched) (s : State) : State :=
  match f with
  | .word _ => s
  | .later => s
  | .poison va => fetchTrap g p clsPoison 0 va q s
  | .fault va cause ipa =>
    if cause = causeAsleep then s
    else if cause = 8 then fetchTrap g p clsPage 8 va q s else fetchRecord g p va cause ipa s

/-- What a slot's fetch gives: an instruction to run with its place, or a state in which nothing is fetched. -/
inductive FetchRes where
  | run (i : Instr) (c : Cur) (s : State)
  | idle (s : State)

/-- The ILLOP cause of a word that does not decode (R75): 0 for an opcode that the map does not list, 1 for a
form that the opcode does not admit. -/
def undecoded (e : DecodeError) : Nat := if e = .form then 1 else 0

/-- The word of a fetched word 0 and extension, as the splitter takes it. A saved word keeps how far it has gone. -/
def fetchDecode (g : Nat) (p : FetchAt) (w x : Word32) (s : State) : FetchRes :=
  match decodeWords w x with
  | .error e => .idle (fetchTrap g p clsIllop (undecoded e) 0 (wE w).toNat s)
  | .ok i =>
    let fresh : QWord := { instr := i, seq := p.seq, slot := p.slot, pc := p.pc, mask := p.mask, rot := p.rot }
    let word := match p.old with
      | some o => if o.instr = i then o else fresh
      | none => fresh
    .run i ⟨g, false, word⟩ s

/-- The fetch of the extension, once word 0 is read. `ans` is the reply to its own record: a POISON reply makes it read
as a poisoned sector, whose bytes are zeros under continue, and FAIL traps (R165, R247, R293). -/
def fetchExt (g : Nat) (p : FetchAt) (w : Word32) (ans : Nat) (s : State) : FetchRes :=
  let q := (wE w).toNat
  let va := (p.pc.toNat + 4) % 2 ^ 64
  match ans with
  | 0 =>
    let x := fetchWord s g p.key va
    match x.1 with
    | .word v => fetchDecode g p w v x.2
    | f => .idle (fetchFail g p q f x.2)
  | 1 =>
    if isCont s g then fetchDecode g p w 0 (countPois g 1 s)
    else .idle (fetchTrap g p clsPoison 0 va q s)
  | _ => .idle (fetchTrap g p clsPage 9 va q s)

/-- The words of the fetch: word 0, and the extension where its L bit asks for one (R69, R70). An opcode that the map
lists takes its extension before its form is checked, one that it does not list is refused first (DESIGN CHOICE,
log 96: R70 does not order the extension's fetch against ILLOP). -/
def fetchBytes (g : Nat) (p : FetchAt) (ans : Nat) (s : State) : FetchRes :=
  let r := fetchWord s g p.key p.pc.toNat
  match r.1 with
  | .word w =>
    if (opEntry (wE w) (wOp w)).isNone || wL w = 0#1 then fetchDecode g p w 0 r.2 else fetchExt g p w ans r.2
  | f => .idle (fetchFail g p 0 f r.2)

/-- A fetch of a slot or of the oldest saved word (R76, R86): the reply to a record of its earlier try comes first
(R293). -/
def fetchSlot (g k : Nat) (s : State) : FetchRes :=
  if !fetchable s g k then .idle s
  else
    let p := fetchAt (grp s g) k
    let ans := nget 0 (grp s g).fetchAns k
    let s1 := if ans = 0 then s else modGrp s g fun G => { G with fetchAns := nset 0 G.fetchAns k 0 }
    match ans with
    | 1 =>
      if isCont s g then fetchDecode g p 0 0 (countPois g 1 s1)
      else .idle (fetchTrap g p clsPoison 0 p.pc.toNat 0 s1)
    | 2 => .idle (fetchTrap g p clsPage 9 p.pc.toNat 0 s1)
    | a => fetchBytes g p (a - 4) s1

end Sys2Proof.Machine
end

