-- ==== Sys2Proof/Machine/Sync.lean ====
section
/-!
DEFINITION. Sys2Proof/Machine/Sync.lean: the Y engine (R209 to R222): named barriers, transaction barriers,
the block pool, quantum control, time waits and the rotating region.
-/
namespace Sys2Proof.Machine

/-! ### Named barriers (R210 to R212) -/

/-- Barrier `n` of a group's team. -/
def barAt (s : State) (g n : Nat) : Nat := (nget 0 (team s (tkOf g)).bars n).toNat

/-- An arrival or drop of the word's group at a barrier: a release at team scope (R211). -/
def arriveBar (c : Cur) (n : Nat) (e : Eff) (s : State) : State := jw c (.bar (tkOf c.g) n) e (relEvent c.g s)

/-- BAR (R210): arrive, then wait for the phase to pass. `aux` keeps the phase at arrival. -/
def barRes (f : Flds) (c : Cur) (s : State) : Res :=
  if c.w.stage = 0 then
    let b := barAt s c.g f.a
    let s1 := arriveBar c f.a .barArrive s
    if barCount b = 0 || barPhase (barAt s1 c.g f.a) ≠ barPhase b then .done (acqEvent c.g s1)
    else .wait { c.w with stage := 1, aux := barPhase b, cause := 2 } s1
  else if barPhase (barAt s c.g f.a) ≠ c.w.aux then .done (acqEvent c.g s)
  else waitFor c 2 s

/-- BARA (R210). -/
def baraRes (f : Flds) (c : Cur) (s : State) : Res :=
  .done (arriveBar c f.a .barArrive (uwrite c f.d (barPhase (barAt s c.g f.a)) s))

/-- BARW (R210). -/
def barwRes (f : Flds) (c : Cur) (s : State) : Res :=
  if barPhase (barAt s c.g f.a) ≠ uread s c.g f.b % 256 then .done (acqEvent c.g s) else waitFor c 2 s

/-- BARD (R210). -/
def bardRes (f : Flds) (c : Cur) (s : State) : Res := .done (arriveBar c f.a .barDrop s)

/-! ### Transaction barriers (R213 to R215) -/

/-- A team object's checks: aligned, inside the window, not poisoned under contain; under continue its
granule is cleaned (R165, R213). -/
def teamObj (c : Cur) (a : Nat) (s : State) (k : Half → TbObj → State → Res) : Res :=
  if a % 16 ≠ 0 then trapAs c clsMisalign 0 a s
  else match localRun s c.g a 16 with
  | none => trapAs c clsPage 0 a s
  | some (h, o) =>
    if locPoison s (tkOf c.g) h o && !isCont s c.g then trapAs c clsPoison 1 a s
    else
      let s1 := if isCont s c.g then cleanGranule c h o s else s
      k ⟨h, o⟩ (tbOf (memNum ((team s1 (tkOf c.g)).mem h) o 16)) s1

/-- The journaled update of a team object. -/
def tbJw (c : Cur) (x : Half) (op : Nat) (v : Int) (s : State) : State :=
  jw c (.loc (tkOf c.g) x.half (x.off / 16)) (.tb op v) s

/-- An update of a cluster object: translated and faulting like an ATOM of one lane, held until its seal
(R213, R214). -/
def clusterObj (c : Cur) (a op cnt : Nat) (v : Int) (s : State) : Res :=
  match globalChecks c 16 false (0, 0, 64) [(0, a)] s with
  | some r => r
  | none =>
    if c.w.fail ≠ 0 then settleLanes c true c.w [] [] (fun _ => a) (fun s => .done s) s
    else if wasPois c 0 then
      if isCont s c.g then .done (countPois c.g 1 s) else trapAs c clsPoison 0 a s
    else
      let r := xlateLanes c.g .atomic false [(0, a)] s
      match r.1 with
      | [] => settleLanes c true c.w r.2.1 [] (fun _ => a) (fun s => .done s) r.2.2
      | h :: _ =>
        if !isCont s c.g && viewPoison r.2.2 c.g h.pa then trapAs c clsPoison 0 a r.2.2
        else match holdRoom c 1 r.2.2 with
        | some r => r
        | none => .done (hold c.g c.w.seq (.tb op a h.pa cnt v) r.2.2)

/-- TBINIT (R214). -/
def tbinitRes (f : Flds) (c : Cur) (s : State) : Res :=
  let a := uread s c.g f.a
  if f.m 0 then clusterObj c a 1 f.imm f.imm s
  else teamObj c a s fun x _ s =>
    if 64 < f.imm then trapAs c clsRange 6 0 s else .done (tbJw c x 0 f.imm s)

/-- TBEXP (R214). -/
def tbexpRes (f : Flds) (c : Cur) (s : State) : Res :=
  let a := uread s c.g f.a
  let v := sx 32 (uread s c.g f.b)
  if f.m 3 then clusterObj c a 2 0 v s
  else teamObj c a s fun x o s =>
    if o.kind ≠ 1 then trapAs c clsRange 6 0 s else .done (tbJw c x 2 v s)

/-- TBARR (R214). -/
def tbarrRes (f : Flds) (c : Cur) (s : State) : Res :=
  let a := uread s c.g f.a
  let v := if f.m 0 then sx 32 (uread s c.g f.b) else 0
  if f.m 3 then clusterObj c a 3 0 v s
  else teamObj c a s fun x o s =>
    if o.kind ≠ 1 || o.left = 0 then trapAs c clsRange 6 0 s
    else
      let s1 := if f.m 1 then uwrite c f.d o.phase s else s
      .done (tbJw c x 3 v s1)

/-- The phase that TBWAIT waits for has passed (R214). -/
def tbPassed (phase x : Nat) : Bool :=
  let d := diff32 phase (x % 2 ^ 32)
  decide (1 ≤ d) && decide (d ≤ 2 ^ 31)

/-- TBWAIT (R214, R215): an acquire event. -/
def tbwaitRes (f : Flds) (c : Cur) (s : State) : Res :=
  let a := uread s c.g f.a
  let x := uread s c.g f.b
  if f.m 3 then
    match globalChecks c 16 true (0, 0, 0) [(0, a)] s with
    | some r => r
    | none =>
      if epochWait s c (0, 0, 0) then waitEpoch (0, 0, 0) c s
      else if c.w.fail ≠ 0 then settleLanes c true c.w [] [] (fun _ => a) (fun s => .done s) s
      else if wasPois c 0 then
        if isCont s c.g then .done (countPois c.g 1 s) else trapAs c clsPoison 0 a s
      else
        let r := xlateLanes c.g .atomic false [(0, a)] s
        match r.1 with
        | [] => settleLanes c true c.w r.2.1 [] (fun _ => a) (fun s => .done s) r.2.2
        | h :: _ =>
          if !isCont s c.g && viewPoison r.2.2 c.g h.pa then trapAs c clsPoison 0 a r.2.2
          else if !(ownAtoms r.2.2 c [h.pa] 16).isEmpty then
            waitHeld c (if isDet s c.g then 8 else 6) (ownAtoms r.2.2 c [h.pa] 16) r.2.2
          else if !(readSectors c [h] r.2.2).1 then waitFor c 0 (readSectors c [h] r.2.2).2
          else
            let s1 := markRead c.g (hitBytes [h] 16) (cacheRead c.g h.pa h.low (readSectors c [h] r.2.2).2)
            let o := tbOf (loadNum s1 c.g h.pa 16)
            if o.kind ≠ 2 then
              trapAs c clsRange 6 0 (if isCont s1 c.g then countPois c.g (poisSectors s1 c.g [h]).length s1 else s1)
            else if tbPassed o.phase x then .done (acqEvent c.g s1) else waitFor c 2 s1
  else teamObj c a s fun _ o s =>
    if o.kind ≠ 1 then trapAs c clsRange 6 0 s
    else if tbPassed o.phase x then .done (acqEvent c.g s) else waitFor c 2 s

/-! ### The block pool (R26, R216 to R218) -/

/-- Blocks in the pool of a group's core. -/
def poolOf (s : State) (g : Nat) : Nat :=
  let T := team s (tkOf g)
  if halfOf s g = 0 then T.pool0 else T.pool1
/-- Blocks are added to the pool, or taken from it. -/
def addPool (c : Cur) (n : Int) (s : State) : State := jw c (.pool (tkOf c.g) (halfOf s c.g)) (.add n) s
def setBlocks (c : Cur) (n : Nat) (s : State) : State := jw c (.blocks c.g) (.set (.num n)) s

/-- The number of blocks a CLAIM asks for. -/
def claimOf (i : Instr) : Option Nat :=
  match i with
  | .claim w => some w.a.toNat
  | .claimX w => some w.a.toNat
  | _ => none

/-- A group's CLAIM that waits at the head of its queue, with the blocks it asks for. -/
def waitingClaim (G : Group) : Option (QWord × Nat) :=
  match queueOf G 5 with
  | w :: _ => if w.cause = 5 then (claimOf w.instr).map fun n => (w, n) else none
  | [] => none

/-- The other groups of a team on one core. -/
def coreMates (s : State) (g : Nat) : List Nat :=
  (s.groups.filter fun x => tkOf x.1 = tkOf g && x.1 ≠ g && halfOf s x.1 = halfOf s g).map (·.1)

/-- Grant a CLAIM (R26, R216). -/
def grantClaim (f : Flds) (c : Cur) (s : State) : State :=
  let s1 := addPool c (-(f.a : Int)) (setBlocks c ((grp s c.g).blocks + f.a) s)
  if f.m 0 then uwrite c f.d 1 s1 else s1

/-- CLAIM (R216, R217). `stage` 2 is the release of a claim deadlock (R218): CLAIM.st completes with 0, and
the plain form traps. -/
def claimRes (f : Flds) (c : Cur) (s : State) : Res :=
  if f.a ≤ poolOf s c.g then .done (grantClaim f c s)
  else if c.w.stage = 2 then
    if f.m 0 then .done (uwrite c f.d 0 s)
    else .trap clsClaimdl 0 0 0 { c.w with stage := 0, cause := 0 } s
  else waitFor c 5 s

/-- The pool has grown: it grants the waiting CLAIM of a group, where it can satisfy it (R217). -/
def grantWaiting (h : Nat) (s : State) : State :=
  match waitingClaim (grp s h) with
  | some (w, n) =>
    if n ≤ poolOf s h && !stopped s h then
      runWord w.instr (claimRes w.instr.flds) ⟨h, true, w⟩ (useRot h w s)
    else s
  | none => s

/-- GIVE (R26, R216): the surrendered registers' values are lost, and the pool grants the CLAIMs that wait on its
core, in ascending group index (R217). -/
def giveRes (f : Flds) (c : Cur) (s : State) : Res :=
  let b := (grp s c.g).blocks
  let s1 := (List.range (8 * f.a)).foldl (fun s i => clearReg c (8 * (b - f.a) + i) s) s
  let s2 := addPool c f.a (setBlocks c (b - f.a) s1)
  .done ((coreMates s c.g).foldl (fun s h => grantWaiting h s) s2)

/-! ### Quantum, time and rotation (R219 to R222) -/

/-- QEND (R219). -/
def qendRes (c : Cur) (s : State) : Res := .done (closeAfter c s)

/-- QSEAL (R219): it closes its quantum just after itself and waits for the seal or commit. -/
def qsealRes (c : Cur) (s : State) : Res :=
  let cause := if isDet s c.g then 8 else 6
  if c.w.stage = 0 then
    if handlerStuck s c.g then trapAs c clsDouble 0 0 s
    else .wait { c.w with stage := 1, cause := cause } (closeAfter c s)
  else if released s c.g c.w.seq then .done s else waitFor c cause s

/-- TWTIME (R220). -/
def twtimeRes (f : Flds) (c : Cur) (s : State) : Res :=
  let t := uread s c.g f.a + (if f.m 0 then (launchOf s c.g).release else 0)
  if t ≤ s.now then .done s else waitFor c 6 s

/-- YIELD (R221). -/
def yieldRes (c : Cur) (s : State) : Res :=
  let s1 := modGrp s c.g fun G => { G with yielded := true }
  if (part s (lkOf c.g) (seatOf s c.g)).preempt && !isDet s c.g then .done (closeAfter c s1) else .done s1

/-- A guarded ROTCFG takes effect: the words placed after it use the new rotation state (R29). -/
def replan (c : Cur) (r : Rot) (s : State) : State :=
  let move (w : QWord) : QWord := if c.w.seq < w.seq then { w with rot := r } else w
  modGrp s c.g fun G => slotsAfter c.w.seq (fun p => { p with rot := r })
    { G with
      plan := r
      queues := G.queues.map fun x => (x.1, x.2.map move)
      refetch := G.refetch.map move }

/-- ROTCFG (R222): every slot of the region is cleared. A lane register that leaves a rotating region keeps the value
of its physical slot, unrotated (DESIGN CHOICE, log 144: R28 and R222 do not say what it then reads). Where a guard
left it open, the splitter learns the rotation state now (R29). -/
def rotcfgRes (f : Flds) (c : Cur) (s : State) : Res :=
  let b := 8 * (grp s c.g).blocks
  let s1 := (List.range f.a).foldl (fun s i => clearReg c (b - f.a + i) s) s
  let s2 := jw c (.rot c.g) (.set (.num ((f.a * 128 + f.b) * 128))) s1
  .done (if f.ge then replan c ⟨f.a, f.b, 0⟩ s2 else s2)

/-! ### The instructions -/

/-- BAR, short form (R210). -/
def execBar (w : SW) (s : State) := word (.bar w) (barRes w.flds) s
/-- BAR, long form (R210). -/
def execBarX (w : XW) (s : State) := word (.barX w) (barRes w.flds) s
/-- BARA, short form (R210). -/
def execBara (w : SW) (s : State) := word (.bara w) (baraRes w.flds) s
/-- BARA, long form (R210). -/
def execBaraX (w : XW) (s : State) := word (.baraX w) (baraRes w.flds) s
/-- BARW, short form (R210). -/
def execBarw (w : SW) (s : State) := word (.barw w) (barwRes w.flds) s
/-- BARW, long form (R210). -/
def execBarwX (w : XW) (s : State) := word (.barwX w) (barwRes w.flds) s
/-- BARD, short form (R210). -/
def execBard (w : SW) (s : State) := word (.bard w) (bardRes w.flds) s
/-- BARD, long form (R210). -/
def execBardX (w : XW) (s : State) := word (.bardX w) (bardRes w.flds) s
/-- TBINIT (R214). -/
def execTbinit (w : XW) (s : State) := word (.tbinit w) (tbinitRes w.flds) s
/-- TBEXP (R214). -/
def execTbexp (w : XW) (s : State) := word (.tbexp w) (tbexpRes w.flds) s
/-- TBARR (R214). -/
def execTbarr (w : XW) (s : State) := word (.tbarr w) (tbarrRes w.flds) s
/-- TBWAIT (R214, R215). -/
def execTbwait (w : XW) (s : State) := word (.tbwait w) (tbwaitRes w.flds) s
/-- GIVE, short form (R26, R216). -/
def execGive (w : SW) (s : State) := word (.give w) (giveRes w.flds) s
/-- GIVE, long form (R26, R216). -/
def execGiveX (w : XW) (s : State) := word (.giveX w) (giveRes w.flds) s
/-- CLAIM, short form (R216 to R218). -/
def execClaim (w : SW) (s : State) := word (.claim w) (claimRes w.flds) s
/-- CLAIM, long form (R216 to R218). -/
def execClaimX (w : XW) (s : State) := word (.claimX w) (claimRes w.flds) s
/-- QEND (R219). -/
def execQend (w : SW) (s : State) := word (.qend w) (qendRes) s
/-- QSEAL (R219). -/
def execQseal (w : SW) (s : State) := word (.qseal w) (qsealRes) s
/-- TWTIME (R220). -/
def execTwtime (w : XW) (s : State) := word (.twtime w) (twtimeRes w.flds) s
/-- YIELD (R221). -/
def execYield (w : SW) (s : State) := word (.yield w) (yieldRes) s
/-- ROTCFG (R222). -/
def execRotcfg (w : XW) (s : State) := word (.rotcfg w) (rotcfgRes w.flds) s

end Sys2Proof.Machine
end

