-- ==== Sys2Proof/Machine/GroupEv.lean ====
section
/-!
DEFINITION. Sys2Proof/Machine/GroupEv.lean: the events of groups and pairs: delivery of traps (R84, R322, R327),
claim deadlock (R218), loads and walks that finish (R31, R283), records for the driver (R292, R319), the close,
seal, drain and commit of quanta (R33 to R36, R270), and waves (R36).
-/
namespace Sys2Proof.Machine

/-! ### Traps (R84, R322, R324, R327) -/

/-- A raised trap goes to the host: its class has no handler, none is named, or one runs (R321, R324). -/
def trapToHost (s : State) (g : Nat) (t : TrapRec) : Bool :=
  (grp s g).handler.isSome || !toHandler t.cls t.cause || (launchOf s g).tvec = 0

/-- A group's raised trap is delivered where it goes to the given place. -/
def deliverTo (host : Bool) (s : State) (g : Nat) : State :=
  match (grp s g).raised with
  | some t => if trapToHost s g t = host && (nfind s.groups g).isSome then deliver g s else s
  | none => s

/-- A launch's raised traps reach the host, and the dispatcher ends the instance (R325, R327). -/
def deliverHost (lk : Nat) (s : State) : State := hostDeliver lk ((groupsOfLaunch s lk).foldl (deliverTo true) s)

/-! ### Claim deadlock (R218) -/

/-- Every group of the team on the core that has not retired waits in a CLAIM that the pool does not satisfy, and
`g` has the highest index of them. -/
def claimDead (s : State) (g : Nat) : Bool :=
  let stuck (h : Nat) : Bool := match waitingClaim (grp s h) with
    | some x => decide (poolOf s g < x.2)
    | none => false
  let mates := (coreMates s g).filter fun h => !(grp s h).retired
  (nfind s.groups g).isSome && !(grp s g).retired && stuck g && mates.all fun h => stuck h && decide (h < g)

/-- The head of a group's Y queue runs as the release of a deadlock. -/
def releaseClaim (g : Nat) (s : State) : State :=
  if !claimDead s g then s
  else match queueOf (grp s g) 5 with
    | [] => s
    | w :: _ =>
      let c : Cur := ⟨g, true, { w with stage := 2 }⟩
      match w.instr with
      | .claim i => wordStep w.instr (claimRes i.flds) c s
      | .claimX i => wordStep w.instr (claimRes i.flds) c s
      | _ => s

/-! ### Loads (R31, R146, R164) -/

/-- The load that a group has in flight under a sequence number. -/
def loadAt (s : State) (g seq : Nat) : Option Flight :=
  (grp s g).flights.find? fun f => f.seq = seq && match f.kind with
    | .load .. => true
    | _ => false

/-- Replace or remove a group's flight. -/
def putFlight (g seq : Nat) (f : Option Flight) (s : State) : State :=
  modGrp s g fun G => { G with flights := G.flights.flatMap fun x => if x.seq = seq then f.toList else [x] }

/-- A load whose last sector has returned: it completes, or, where a lane met poison under contain, it waits again
with its completed lanes noted and traps (R164, R165). Where words that came after it have taken every place of its
queue, it cannot wait again: its poison then counts as met after its trap point (R431; DESIGN CHOICE, log 140). -/
def landLoad (g : Nat) (w : QWord) (unif : Bool) (addrs : NMap (Nat × Nat)) (s : State) : State :=
  let past (s : State) : State := retireCheck g (modGrp s g fun G => { G with qret := G.qret + 1 })
  match addrs.filter fun x => !w.done.toNat.testBit x.1 with
  | [] => past s
  | (_, va, _) :: _ =>
    if 8 ≤ queueLoad (grp s g) 2 then poisonEnds g w.seq va (past s)
    else
      let s1 := modGrp s g fun G => setQueue G 2 (insertWord w (queueOf G 2))
      raiseTrap g (trapRec s1 ⟨g, true, w⟩ w.instr clsPoison 0 va (repMask unif w)) s1

/-- A sector comes to a core for a load: it is in the core's L1, or it comes through the L2 under the regulator of the
launch's PARTID (R267, R272, R279); the ticket is the read's place among deferred ones. -/
def fetchSector (g : Nat) (p : Piece) (s : State) : Option Nat × State :=
  let k := coreOf s g
  if (nfind (core s k).l1c (p.addr / 64)).isSome then (none, s)
  else
    let r := regFill p.addr (launchOf s g).acct (b2n p.low) p.ticket s
    if r.1.isSome || p.low then r else (none, l1Fill k p.addr r.2)

/-- The lanes of a piece take what their sector holds now; under continue a poisoned sector reads as zeros and is
counted (R31, R165, R253). The answer is the word with these lanes marked as done. -/
def takePiece (c : Cur) (d ty : Nat) (unif : Bool) (addrs : NMap (Nat × Nat)) (p : Piece) (s : State) : QWord × State :=
  let ls := maskList 64 p.lanes.toNat
  let bad := viewPoison s c.g p.addr
  let put (s : State) (l : Nat) : State :=
    loadPut c d ty unif l (loadNum s c.g (nget (0, 0) addrs l).2 (mtSize ty)) s
  let pas := ls.flatMap fun l => (List.range (mtSize ty)).map fun i => (nget (0, 0) addrs l).2 + i
  let t := markRead c.g pas (useRot c.g c.w s)
  if bad && !isCont s c.g then (c.w, s)
  else (markDone c.w ls, ls.foldl put (if bad then countPois c.g 1 t else t))

/-- Piece `n` of a load returns, once no earlier load of the group has a byte of it still to come (R253) and its
regulator no longer defers it. -/
def sectorReturns (g seq n : Nat) (s : State) : State :=
  match loadAt s g seq with
  | none => s
  | some f =>
    match f.kind with
    | .held _ => s
    | .late _ => s
    | .load w d ty unif addrs pieces =>
      match pieces[n]? with
      | none => s
      | some p =>
        let pas := (maskList 64 p.lanes.toNat).map fun l => (nget (0, 0) addrs l).2
        if loadBehind s g seq pas (mtSize ty) || linkHolds s p.addr then s
        else if dramSleeps s p.addr then meetAsleep s
        else
          let r := fetchSector g p s
          if r.1.isSome then
            putFlight g seq (some { f with
              kind := .load w d ty unif addrs (pieces.set n { p with ticket := r.1 }) }) r.2
          else
            let t := takePiece ⟨g, true, w⟩ d ty unif addrs p r.2
            let rest := pieces.eraseIdx n
            if rest.isEmpty then landLoad g t.1 unif addrs (putFlight g seq none t.2)
            else putFlight g seq (some { f with kind := .load t.1 d ty unif addrs rest }) t.2

/-! ### Walks (R281 to R290) -/

/-- The kind of access of a code (R292). -/
def accOf (n : Nat) : Acc2 :=
  match n with
  | 0 => .read
  | 1 => .write
  | 2 => .atomic
  | _ => .fetch

/-- A walk for a group's access finishes: the entries' A and D bits are set, a page is filled on demand, and the
translation is held (R285, R290, R294). -/
def walkDone (g va acc : Nat) (s : State) : State :=
  if (nfind s.groups g).isSome then (xlate s g va (accOf acc)).2 else s

/-! ### Records for the driver (R292, R319) -/

/-- The 64 bytes of a fault record. -/
def FaultRec.bytes (r : FaultRec) (tag : Nat) : List Byte :=
  toBytes 64 (tag % 2 ^ 32 + r.src % 16 * 2 ^ 32 + r.acc % 16 * 2 ^ 36 + r.cause % 256 * 2 ^ 40 +
    r.ctx % 64 * 2 ^ 48 + r.partid % 64 * 2 ^ 54 + r.job % 4096 * 2 ^ 64 + r.core % 64 * 2 ^ 76 +
    r.lane % 64 * 2 ^ 82 + r.group % 64 * 2 ^ 88 + r.team % 2 ^ 24 * 2 ^ 96 + r.nrec % 256 * 2 ^ 120 +
    r.va % 2 ^ 64 * 2 ^ 128 + r.seq % 2 ^ 64 * 2 ^ 192 + r.mask.toNat * 2 ^ 256 + r.ipa % 2 ^ 52 * 2 ^ 320 +
    r.time % 2 ^ 64 * 2 ^ 384)

/-- The n-th fault record that waits is written, unless the ring is full (R9, R292). -/
def writeFault (n : Nat) (s : State) : State :=
  let tail := reg s rFrTail
  match s.faults[n]? with
  | none => s
  | some r =>
    if 4096 ≤ diff32 tail (reg s rFrHead) then s
    else
      let s1 := busWrite .outside (reg s rFrBase + 64 * (tail % 4096)) (r.bytes tail) 0 s
      let s2 : State := { s1 with
        faults := s1.faults.eraseIdx n
        outFaults := s1.outFaults ++ [{ r with tag := some tail }] }
      raiseInt 0 (setReg s2 rFrTail ((tail + 1) % 2 ^ 32))

/-- The n-th duty record is written, if it waits and the ring has room (R9, R319). -/
def writeDuty (n : Nat) (s : State) : State :=
  let tail := reg s rDrTail
  match s.duties[n]? with
  | none => s
  | some d =>
    if d.tag.isSome || 1024 ≤ diff32 tail (reg s rDrHead) then s
    else
      let s1 := busWrite .outside (reg s rDrBase + 64 * (tail % 1024)) (d.bytes tail) 0 s
      let s2 : State := { s1 with duties := s1.duties.set n { d with tag := some tail } }
      raiseInt 1 (setReg s2 rDrTail ((tail + 1) % 2 ^ 32))

/-! ### Time waits (R220) -/

/-- The head of a group's Y queue, where it is a TWTIME whose target has come. -/
def timeReached (g : Nat) (s : State) : State :=
  match queueOf (grp s g) 5 with
  | [] => s
  | w :: _ =>
    match w.instr with
    | .twtime i => wordStep w.instr (twtimeRes i.flds) ⟨g, true, w⟩ s
    | _ => s

/-- A store entry drains; one with an uncorrectable error drains its sector poisoned (R334). -/
def drainStore (pr n : Nat) (bad : Bool) (s : State) : State :=
  drainEntry pr n (fun h => entryKind h = 0) (if bad then spoilEntry pr n s else s)

/-! ### The events -/

/-- TRAP_DELIVERY_HANDLER (R322): group `g`. -/
def execTrapDeliveryHandler (g : Nat) (s : State) := event (deliverTo false s g)
/-- TRAP_DELIVERY_HOST (R327): launch `lk`. -/
def execTrapDeliveryHost (lk : Nat) (s : State) := event (deliverHost lk s)
/-- CLAIM_DEADLOCK (R218): group `g`. -/
def execClaimDeadlock (g : Nat) (s : State) := event (releaseClaim g s)
/-- LOAD_SECTOR_RETURN (R31): group, word, and number of the piece. -/
def execLoadSectorReturn (g seq n : Nat) (s : State) := event (sectorReturns g seq n s)
/-- TABLE_WALK_COMPLETE (R283): group, address and access. -/
def execTableWalkComplete (g va acc : Nat) (s : State) := event (walkDone g va acc s)
/-- FAULT_RECORD_WRITE (R292): number of the record. -/
def execFaultRecordWrite (n : Nat) (s : State) := event (writeFault n s)
/-- DUTY_RECORD_WRITE (R319): number of the record. -/
def execDutyRecordWrite (n : Nat) (s : State) := event (writeDuty n s)
/-- QUANTUM_TIMED_CLOSE (R33): pair. -/
def execQuantumTimedClose (pr : Nat) (s : State) := event (timedClose pr s)
/-- QUANTUM_WORD_COUNT_CLOSE (R33): pair. -/
def execQuantumWordCountClose (pr : Nat) (s : State) := event (wordCountClose pr s)
/-- QUANTUM_CAPACITY_CLOSE (R33): pair. -/
def execQuantumCapacityClose (pr : Nat) (s : State) := event (capacityClose pr s)
/-- DET_QUANTUM_CLOSE (R33): group; words that waited to know their quantum then go on (R36, R105). -/
def execDetQuantumClose (g : Nat) (s : State) := event (landLate g (detCloseNow g s))
/-- QUANTUM_SEAL (R34): a group of a deterministic launch, or else a pair. -/
def execQuantumSeal (det : Bool) (x : Nat) (s : State) := event (if det then sealDet x s else sealPair x s)
/-- HOLDBACK_DRAIN (R270): pair and entry, and whether the sealed entry holds an uncorrectable error (R334). -/
def execHoldbackDrain (pr n : Nat) (bad : Bool) (s : State) := event (drainStore pr n bad s)
/-- ATOM_PERFORM (R260): pair and entry. -/
def execAtomPerform (pr n : Nat) (s : State) := event (drainEntry pr n (fun h => entryKind h = 1) s)
/-- CLUSTER_TB_PERFORM (R214): pair and entry. -/
def execClusterTbPerform (pr n : Nat) (s : State) := event (drainEntry pr n (fun h => entryKind h = 2) s)
/-- DEVICE_ACCESS_PERFORM (R255): pair and entry. -/
def execDeviceAccessPerform (pr n : Nat) (s : State) := event (drainEntry pr n (fun h => entryKind h = 3) s)
/-- SYSTEM_WORD_PERFORM (R242): pair and entry. -/
def execSystemWordPerform (pr n : Nat) (s : State) := event (drainEntry pr n (fun h => entryKind h = 4) s)
/-- JOBARM_PERFORM (R244): pair and entry. -/
def execJobarmPerform (pr n : Nat) (s : State) := event (drainEntry pr n (fun h => entryKind h = 5) s)
/-- SUMTREE_COMMAND_PERFORM (R362): pair and entry. -/
def execSumtreeCommandPerform (pr n : Nat) (s : State) := event (drainEntry pr n (fun h => entryKind h = 6) s)
/-- EPOCH_COMMIT (R36): card. -/
def execEpochCommit (n : Nat) (s : State) := event (commitStep n s)
/-- WAVE_START (R36): card. -/
def execWaveStart (n : Nat) (s : State) := event (startWave n s)
/-- REDUNDANT_COMPARE (R341): card. -/
def execRedundantCompare (n : Nat) (s : State) := event (compareCopies n s)
/-- COPY_WRITE_START (R196): core, command and chunk. -/
def execCopyWriteStart (k id ch : Nat) (s : State) := event (copyChunk k id ch s)
/-- CPYT_RELEASE (R198): core and command. -/
def execCpytRelease (k id : Nat) (s : State) := event (cpytStart k id s)
/-- COPY_SOURCE_READ_DONE (R195): core and command. -/
def execCopySourceReadDone (k id : Nat) (s : State) := event (sourceDone k id s)
/-- COPY_COMPLETE (R201): core and command. -/
def execCopyComplete (k id : Nat) (s : State) := event (completeCmd false k id s)
/-- RING_TAIL_OBSERVED (R207): core and watch. -/
def execRingTailObserved (k n : Nat) (s : State) := event (observeTail k n s)
/-- RING_PULL_COMPLETE (R207): core and command. -/
def execRingPullComplete (k id : Nat) (s : State) := event (completeCmd true k id s)
/-- TWTIME_TARGET_REACHED (R220): group. -/
def execTwtimeTargetReached (g : Nat) (s : State) := event (timeReached g s)

end Sys2Proof.Machine
end

