-- ==== Sys2Proof/Machine/RegEv.lean ====
section
/-!
DEFINITION. Sys2Proof/Machine/RegEv.lean: the events that are writes of memory-mapped registers with an effect of
their own, and the ends of what they begin (R291, R293, R299 to R301, R303, R320, R340, R359, R365, R387, R393,
R400).
-/
namespace Sys2Proof.Machine

/-- A write of a whole register by the host or an application processor. -/
def hostWrite (off x : Nat) (s : State) : State := regWrite .host off (x % 2 ^ 64) (List.range 8) s

/-! ### Replies (R293, R320) -/

/-- A reply of a duty's kind; a record of another kind takes the event of its own kind. -/
def replyAs (kind code tag : Nat) (s : State) : State :=
  match s.duties.find? fun d => d.tag = some tag with
  | some d => if d.kind = kind then hostWrite 0x98 (tag % 2 ^ 32 + code * 2 ^ 32) s else s
  | none => hostWrite 0x98 (tag % 2 ^ 32 + code * 2 ^ 32) s

/-- The same with a payload, which DRREPLY1 takes first. -/
def replyWith (kind code tag payload : Nat) (s : State) : State := replyAs kind code tag (hostWrite rDrReply1 payload s)

/-- A reply to a fault record. -/
def frReply (tag code : Nat) (s : State) : State := hostWrite 0x101118 (tag % 2 ^ 32 + code * 2 ^ 32) s

/-! ### Invalidation (R291) -/

/-- A write of TLBINV with a scope. -/
def invalidate (scope ctx : Nat) (all : Bool) (s : State) : State :=
  hostWrite rTlbInv (ctx % 64 + b2n all * 64 + scope * 128) s

/-- The physical addresses that a held entry will touch. -/
def entryPas (h : HB) : List Nat :=
  match h.what with
  | .data _ pa _ _ _ => [pa]
  | .atom _ _ _ lanes _ _ => lanes.map (·.pa)
  | .devLoad _ _ _ _ _ pa _ _ => [pa]
  | .devAtom _ _ _ a _ _ => [a.pa]
  | .devFill _ _ _ _ pa => [pa]
  | .tb _ _ pa _ _ => [pa]
  | .cwb _ pa => [pa]
  | .cinv _ pa => [pa]
  | .tree _ _ => []
  | .sys _ => []
  | .image pa _ _ => [pa]
  | .output _ _ _ _ pa _ _ => [pa]

/-- The addresses that a load in flight still reads. -/
def flightPas (f : Flight) : List Nat :=
  match f.kind with
  | .load _ _ _ _ _ pieces => pieces.map (·.addr)
  | .held _ => []
  | .late _ => []

/-- An access translated by a removed entry has not performed. -/
def invInUse (s : State) (t : Tlb) : Bool :=
  let inside (pa : Nat) : Bool := decide (t.pa ≤ pa) && decide (pa < t.pa + t.size)
  (s.pairs.any fun p => p.2.hb.any fun h => (launch s (lkOf h.g)).ctx = t.ctx && (entryPas h).any inside) ||
    s.groups.any fun g => (launchOf s g.1).ctx = t.ctx && g.2.flights.any fun f => (flightPas f).any inside

/-- TLBINV_COMPLETE (R291): nothing that a removed entry translated is left. -/
def invDone (s : State) : State :=
  if !(reg s rTlbInv).testBit 63 || s.tlbinv.any (invInUse s) then s
  else { setReg s rTlbInv (reg s rTlbInv % 2 ^ 63) with tlbinv := [] }

/-! ### Trees (R359, R365) -/

/-- Write bytes of a tree's word. -/
def treeBytes (n off : Nat) (bs : List Byte) (s : State) : State :=
  if 64 ≤ n then s else regStore .host (0x110000 + 64 * n + off) bs s

/-- A write of LEVELS alone. -/
def treeLevels (n x : Nat) (s : State) : State :=
  treeBytes n 8 [BitVec.ofNat 8 (setBits (regRead s (0x110000 + 64 * n + 8)) 3 0 x)] s

/-! ### The events -/

/-- TREE_BASE_WRITE (R359): tree and value. -/
def execTreeBaseWrite (n x : Nat) (s : State) := event (treeBytes n 0 (toBytes 8 x) s)
/-- TREE_LEVELS_WRITE (R359). -/
def execTreeLevelsWrite (n x : Nat) (s : State) := event (treeLevels n x s)
/-- TREE_BETA_WRITE (R359). -/
def execTreeBetaWrite (n x : Nat) (s : State) := event (treeBytes n 12 (toBytes 4 x) s)
/-- TREE_NSIZE_WRITE (R359). -/
def execTreeNsizeWrite (n x : Nat) (s : State) := event (treeBytes n 16 (toBytes 4 x) s)
/-- TREE_SEED_WRITE (R359). -/
def execTreeSeedWrite (n x : Nat) (s : State) := event (treeBytes n 24 (toBytes 8 x) s)
/-- TREE_CLEAR_COMPLETE (R365): tree. -/
def execTreeClearComplete (n : Nat) (s : State) := event (treeCleared n s)
/-- ARM (R301): card. -/
def execArm (n : Nat) (s : State) := event (hostWrite 0x08 (n % 4096) s)
/-- ARM_TIMED (R301): card; ARMTIME holds the release. -/
def execArmTimed (n : Nat) (s : State) := event (hostWrite 0x08 (n % 4096 + 4096) s)
/-- PARM (R299): card, and TIMED. -/
def execParm (n : Nat) (timed : Bool) (s : State) :=
  event (regWrite .island 0x18 (n % 4096 + b2n timed * 4096) (List.range 8) s)
/-- DISARM (R303): card. -/
def execDisarm (n : Nat) (s : State) := event (hostWrite 0x20 (n % 4096) s)
/-- DCTL_ENABLE (R300). -/
def execDctlEnable (s : State) := event (hostWrite rDctl 1 s)
/-- DCTL_DISABLE (R300). -/
def execDctlDisable (s : State) := event (hostWrite rDctl 0 s)
/-- DUTY_REPLY_ADMIT (R320): tag. -/
def execDutyReplyAdmit (tag : Nat) (s : State) := event (replyAs 0 0 tag s)
/-- DUTY_REPLY_REJECT (R320): tag. -/
def execDutyReplyReject (tag : Nat) (s : State) := event (replyAs 0 1 tag s)
/-- DUTY_REPLY_PLACE (R320): tag and cores. -/
def execDutyReplyPlace (tag mask : Nat) (s : State) := event (replyWith 1 0 tag mask s)
/-- DUTY_REPLY_DEFER (R320): tag. -/
def execDutyReplyDefer (tag : Nat) (s : State) := event (replyAs 1 1 tag s)
/-- DUTY_REPLY_REPLAY (R320): tag. -/
def execDutyReplyReplay (tag : Nat) (s : State) := event (replyAs 2 0 tag s)
/-- DUTY_REPLY_ABANDON (R320): tag. -/
def execDutyReplyAbandon (tag : Nat) (s : State) := event (replyAs 2 1 tag s)
/-- DUTY_REPLY_GRANT_SCAN (R320): tag. -/
def execDutyReplyGrantScan (tag : Nat) (s : State) := event (replyAs 3 0 tag s)
/-- DUTY_REPLY_POSTPONE_SCAN (R320): tag. -/
def execDutyReplyPostponeScan (tag : Nat) (s : State) := event (replyAs 3 1 tag s)
/-- DUTY_REPLY_ROUTE_TABLE (R320): tag and address of the table. -/
def execDutyReplyRouteTable (tag addr : Nat) (s : State) := event (replyWith 4 0 tag addr s)
/-- DUTY_REPLY_TIME_CORRECTION (R320): tag and correction. -/
def execDutyReplyTimeCorrection (tag x : Nat) (s : State) := event (replyWith 5 0 tag x s)
/-- FRREPLY_RETRY (R293): tag. -/
def execFrreplyRetry (tag : Nat) (s : State) := event (frReply tag 0 s)
/-- FRREPLY_POISON (R293): tag. -/
def execFrreplyPoison (tag : Nat) (s : State) := event (frReply tag 1 s)
/-- FRREPLY_FAIL (R293): tag. -/
def execFrreplyFail (tag : Nat) (s : State) := event (frReply tag 2 s)
/-- TLBINV_PAGE (R291): context, or all. -/
def execTlbinvPage (ctx : Nat) (all : Bool) (s : State) := event (invalidate 0 ctx all s)
/-- TLBINV_CONTEXT (R291): context, or all. -/
def execTlbinvContext (ctx : Nat) (all : Bool) (s : State) := event (invalidate 1 ctx all s)
/-- TLBINV_IPA (R291): context, or all. -/
def execTlbinvIpa (ctx : Nat) (all : Bool) (s : State) := event (invalidate 2 ctx all s)
/-- TLBINV_COMPLETE (R291). -/
def execTlbinvComplete (s : State) := event (invDone s)
/-- HISTAT_CLEAR (R387): ones clear. -/
def execHistatClear (x : Nat) (s : State) := event (hostWrite rHiStat x s)
/-- HIEN_WRITE (R387). -/
def execHienWrite (x : Nat) (s : State) := event (hostWrite rHiEn x s)
/-- REGISTER_WRITE (R12): by the island or another agent, of 1, 2, 4 or 8 bytes. -/
def execRegisterWrite (island : Bool) (off : Nat) (bytes : List Byte) (s : State) :=
  event (regStore (if island then .island else .host) off bytes s)
/-- SCANNOW (R340): core. -/
def execScannow (c : Nat) (s : State) := event (hostWrite 0x128 (c % 32) s)
/-- WAKESET (R393): mask, written by the ochre cluster or by another agent. -/
def execWakeset (ochre : Bool) (x : Nat) (s : State) :=
  event (regWrite (if ochre then .group 0 32 else .host) 0x180000 (x % 2 ^ 64) (List.range 8) s)
/-- SUSPCTL_GO (R400): address of the image. -/
def execSuspctlGo (addr : Nat) (s : State) := event (hostWrite 0x180010 (addr / 4096 * 4096 % 2 ^ 52 + 1) s)
/-- HBAP (R393). -/
def execHbap (s : State) := event (hostWrite 0x180058 1 s)

end Sys2Proof.Machine
end

