-- ==== Sys2Proof/Machine/IslandEv.lean ====
section
/-!
DEFINITION. Sys2Proof/Machine/IslandEv.lean: strikes (R331 to R336), scans (R337 to R340), power gating (R243,
R343), the safety island's boot, mailbox, supervision and restarts (R388 to R394), temperature (R399), and
suspend and resume (R400 to R403).
-/
namespace Sys2Proof.Machine

/-! ### Strikes (R331 to R336) -/

/-- Cards with a context on a pair. -/
def cardsOn (s : State) (pr : Nat) : List Nat :=
  (([2 * pr, 2 * pr + 1].flatMap (ctxsOn s)).map fun x => x.1 / 2).dedup

/-- Every context on a pair fails with LOST (R332, R335). -/
def pairLost (pr : Nat) (s : State) : State :=
  (cardsOn s pr).foldl (fun s n =>
    killCard n { killFor s n clsLost 0 with cores := 2 ^ (2 * pr) + 2 ^ (2 * pr + 1) } s) s

/-- A group of deterministic mode counts its rollbacks to one boundary (R335). -/
def countRoll (G : Group) : Group :=
  let lo := oldestUnsealed G
  if G.rollCnt ≠ 0 && G.rollLo = lo then { G with rollCnt := G.rollCnt + 1 } else { G with rollLo := lo, rollCnt := 1 }

/-- A group still has something that is not sealed, or will have. -/
def openWork (G : Group) : Bool := !G.retired || !G.closed.isEmpty || decide (G.qlo < G.nextSeq)

/-- A pair's own quanta hold, or will hold, something: a group in normal mode, or an entry of no group. -/
def pairWork (s : State) (pr : Nat) : Bool :=
  ((allOn s pr).any fun g => !isDet s g && openWork (grp s g)) || (pair s pr).hb.any fun h => !isGroupEntry h

/-- A strike on a pair region (R332, R335): every unsealed quantum rolls back, and after the fourth rollback of the
same quantum every context fails and both cores are to be scanned. `bad` says that the journal holds an
uncorrectable error. -/
def strikePair (pr : Nat) (bad : Bool) (s : State) : State :=
  let det := (allOn s pr).filter fun g => isDet s g && openWork (grp s g)
  let s1 := det.foldl (fun s g => modGrp s g countRoll) s
  let n := if pairWork s pr then (pair s pr).rolls + 1 else 0
  let lost := decide (4 ≤ n) || det.any fun g => decide (4 ≤ (grp s1 g).rollCnt)
  let s2 := (cardsOn s pr).foldl (fun s n => modRun n (fun R => { R with rolls := R.rolls + 1 }) s) s1
  let s3 := rollPair pr (fun _ => false) s2
  let s4 := modPair s3 pr fun P => { P with strikes := P.strikes + 1, rolls := n, rolling := true }
  if bad then pairLost pr s4
  else if lost then [2 * pr, 2 * pr + 1].foldl (fun s c => askScan c s) (pairLost pr s4)
  else s4

/-- A line whose tag or directory entry is lost leaves the L2; where a sector of it is dirty, the sectors that it
holds are poisoned (R336). -/
def loseTag (line : Nat) (s : State) : State :=
  let secs := [2 * line, 2 * line + 1].filter fun sec => l2Valid s (64 * sec)
  if secs.any (l2Dirty s) then secs.foldl (fun s sec => poisonSector (64 * sec) s) (evictLine line s)
  else evictLine line s

/-- One sector of an L2 slice's scrub (R336): outcome 1 corrected, 2 uncorrectable, 3 its line's tag or directory
entry uncorrectable. -/
def scrubSector (s : State) (x : Nat × Nat) : State :=
  let sec := x.1 / 64
  if !l2Valid s x.1 then s
  else match x.2 with
    | 1 => bump rCecount 1 s
    | 2 => if l2Dirty s sec then countUe (poisonSector x.1 s) else invalidateSector sec s
    | 3 => loseTag (x.1 / 128) s
    | _ => s

/-- STRIKE_REPORT (R331): `region` is 0 a core pair, 16 being the ochre cluster, 1 an L2 slice, 2 a fabric segment,
3 the application processor cluster. -/
def strike (region n : Nat) (bad : Bool) (sectors : List (Nat × Nat)) (s : State) : State :=
  let s1 : State := { s with island := { s.island with strikes := s.island.strikes + 1 } }
  match region with
  | 0 =>
    -- a report that arrives at the end of a seal window comes before the seal (R331)
    if (pair s n).sealedAt = some s.now then s else if n ≤ 16 then strikePair n bad s1 else s1
  | 1 => if n < 32 then (sectors.filter fun x => l2Slice x.1 = n).foldl scrubSector s1 else s1
  | _ => s1

/-- ROLLBACK_RESUME (R332 step 6): the groups of a pair go on from their boundaries, and its quantum opens. -/
def resumePair (pr : Nat) (s : State) : State :=
  if (pair s pr).rolling then modPair s pr fun P => { P with rolling := false, openAt := s.now } else s

/-! ### Scans (R337 to R340) -/

/-- SCAN_DUE: a postponed scan is asked for again, else the next core in rotation that is not retired is due, every
100 ms. -/
def scanDue (s : State) : State :=
  match s.scans.find? fun x => x.stage = 4 && decide (x.dueAt ≤ s.now) with
  | some x => wantScan x.core s
  | none =>
    if s.now < s.scanAt + 100000000 then s
    else
      let s1 : State := { s with scanAt := s.scanAt + 100000000 }
      let first := nbits (reg s rScanStat) 4 0
      match ((List.range 32).map fun i => (first + i) % 32).find? fun c => !(reg s rRetired).testBit c with
      | some c => wantScan c (setReg s1 rScanStat (setBits (reg s rScanStat) 4 0 ((c + 1) % 32)))
      | none => s1

/-- SCAN_FORCE_DRAIN: a scan held off by a critical-level context drains the core once that context has left, or
after 10 ms. -/
def forceDrain (c : Nat) (s : State) : State :=
  match s.scans.find? fun x => x.core = c with
  | some x => if x.stage = 2 && (decide (x.dueAt ≤ s.now) || !criticalOn s c) then drainCore c s else s
  | none => s

/-- Nothing of a context is left on a core. -/
def coreDrained (s : State) (c : Nat) : Bool :=
  (ctxsOn s c).isEmpty && (core s c).cmds.isEmpty && !((core s c).jobs.any (·.live))

/-- Cards that ran on a core since its last pass receive their records (R338). -/
def confirmCore (c : Nat) (suspect : Bool) (s : State) : State :=
  (s.runs.map (·.1)).foldl (fun s n =>
    match nfind (run s n).prov c with
    | none => s
    | some inst =>
      writeRecord n { event := 8, suspect := suspect, card := n, inst := inst, time := s.now, rel := c }
        (modRun n (fun R => { R with prov := ndel R.prov c }) s)) s

/-- A core is quarantined; QUAR holds the compute cores (R339, R340). -/
def quarantineOnly (c : Nat) (s : State) : State :=
  if c < 32 then setReg s rQuar (reg s rQuar ||| 2 ^ c) else s

/-- A core's scan has failed twice: it is quarantined, or retired where it is quarantined already (R339). -/
def quarantine (c : Nat) (s : State) : State :=
  if c < 32 && (reg s rQuar).testBit c then setReg s rRetired (reg s rRetired ||| 2 ^ c) else quarantineOnly c s

/-- A core's scan is over. -/
def endScan (c : Nat) (s : State) : State :=
  { s with
    scans := s.scans.filter fun y => y.core ≠ c
    island := { s.island with restart := if s.island.restart = some c then none else s.island.restart } }

/-- Failed scans count in SCANSTAT. -/
def countScanFail (s : State) : State :=
  setReg s rScanStat (setBits (reg s rScanStat) 31 16 (nbits (reg s rScanStat) 31 16 + 1))

/-- Units that the drained core maps to spares (R339), counted in SPARES. -/
def useSpares (rows cols : Nat) (s : State) : State :=
  let x := reg s rSpares
  setReg s rSpares (setBits (setBits x 23 8 (nbits x 23 8 + rows)) 39 24 (nbits x 39 24 + cols))

/-- SCAN_COMPLETE (R338, R339) on a drained core: whether it passed, the SRAM rows and matrix columns that it maps to
spares, at least the rows that have given uncorrectable errors, and whether a unit whose last spare is used has
faulted: the core is then quarantined at the scan's end. -/
def scanOver (c : Nat) (pass : Bool) (rows cols : Nat) (spent : Bool) (s : State) : State :=
  match s.scans.find? fun x => x.core = c && decide (x.stage < 2) with
  | none => s
  | some x =>
    if !coreDrained s c then s
    else
      let used := x.spent || spent
      let s1 := modCore (useSpares (max rows (core s c).faulty) cols s) c fun C => { C with faulty := 0 }
      if pass then dispatch (endScan c (if used then quarantineOnly c (confirmCore c x.second s1) else confirmCore c x.second s1))
      else if !x.second then setScan { x with stage := 1, second := true, spent := used } (countScanFail s1)
      else dispatch (endScan c (quarantine c (confirmCore c true (countScanFail s1))))

/-! ### Power gating (R243, R343, R398) -/

/-- CORE_ENTER_GATING: cycle G of a gating that no wake has aborted. -/
def enterGating (c : Nat) (s : State) : State :=
  if s.gating.testBit c then { s with gating := setBits s.gating c c 0, gated := s.gated ||| 2 ^ c } else s

/-- CORE_WAKE_COMPLETE: a gated core that a wake names has power again. -/
def wakeDone (c : Nat) (s : State) : State :=
  if s.gated.testBit c && s.wakeReq.testBit c then
    dispatch { s with gated := setBits s.gated c c 0, wakeReq := setBits s.wakeReq c c 0 }
  else s

/-- SENSOR_EVENT that the ochre cluster takes (R243, R402): it ends a HALT there, and is a wake event of a suspended
device. -/
def sensorEvent (s : State) : State :=
  let s1 := wakeCore 33 (wakeCore 32 s)
  if suspStat s1 = 0 then s1 else { s1 with susp := { s1.susp with wakeSeen := true } }

/-! ### Suspend (R400, R401) -/

/-- Every context but those of the ochre cluster that run on is saved, nothing is being killed, but for what awaits a
duty reply, and no write is held back. -/
def suspendReady (s : State) : Bool :=
  (s.launches.all fun x => x.2.parts.all fun p => p.2.capture = 3 || (decide (32 ≤ p.1) && !p.2.preempt)) &&
    (s.runs.all fun r => r.2.kill.isNone || r.2.replayAsk) && s.pairs.all fun p => p.2.hb.isEmpty

/-- Saved contexts. -/
def savedCount (s : State) : Nat :=
  (s.launches.map fun x => (x.2.parts.filter fun p => p.2.capture = 3).length).sum

/-- The card table, 128 bytes a card. -/
def cardSection (s : State) : List Byte :=
  (List.range 4096).flatMap fun n => toBytes 128 (nget 0 s.cards n).toNat

/-- Offsets of the registers of the nine blocks that the image holds, in ascending order; the card table is not
among them. -/
def savedRegs : List Nat :=
  (((List.range 0x2000).map (8 * ·)) ++ (List.range 0x10000).map fun i => 0x100000 + 8 * i).filter fun off =>
    (regKind off).isSome

/-- Their values, 8 bytes a register. -/
def regSection (s : State) : List Byte := savedRegs.flatMap fun off => toBytes 8 (regRead s off)

/-- The saved contexts: card, core and CSAVE slot of each. -/
def savedContexts (s : State) : List (Nat × Nat × Nat) :=
  s.launches.flatMap fun x => (x.2.parts.filter fun p => p.2.capture = 3).map fun p =>
    (x.1 / 2, p.1, (nget {} s.savedParts (x.1 * 64 + p.1)).slot)
def contextSection (s : State) : List Byte :=
  (savedContexts s).flatMap fun c => toBytes 4 c.1 ++ toBytes 4 c.2.1 ++ toBytes 8 c.2.2

/-- The image: its header, and its sections one behind the other (R401; DESIGN CHOICE, log 13: their places, the order of
registers, and the layout of a context's 16 bytes). -/
def suspendImage (s : State) : List Byte :=
  let a := cardSection s
  let b := regSection s
  let c := contextSection s
  let sect (at_ : Nat) (xs : List Byte) : List Byte := toBytes 8 at_ ++ toBytes 8 xs.length
  let len := 4096 + a.length + b.length + c.length
  toBytes 8 0x5A4B535553500001 ++ toBytes 8 s.now ++ toBytes 8 len ++ toBytes 8 (savedCount s) ++ toBytes 32 0 ++
    sect 4096 a ++ sect (4096 + a.length) b ++ sect (4096 + a.length + b.length) c ++ toBytes 80 0 ++ toBytes 3904 0 ++
    a ++ b ++ c

/-- Rows and weight bytes of a compute core read as zero after resume, and its L1 is empty; saved windows are in
their contexts. -/
def powerOffCore (x : Nat × Core) : Nat × Core :=
  if x.1 < 32 then (x.1, { x.2 with rows := [], wb := [], wpois := [], l1c := [] }) else x

/-- SUSPEND_POWER_DOWN (R400 steps 3 to 6): the L2 and the processors' caches are written back and empty, before the
image is written and after. -/
def powerDown (s : State) : State :=
  if suspStat s ≠ 1 || !suspendReady s then s
  else
    let img := suspendImage s
    let s1 := flushL2 (l2Write s.susp.image img 0 (flushL2 s))
    let s2 : State := { s1 with
      tlb := []
      walkCache := []
      apLines := []
      cores := s1.cores.map powerOffCore
      susp := { s.susp with powerDown := s.now, len := img.length, digest := Config.shake256 img } }
    setSuspStat 2 (setReg s2 rSuspTime (setBits (reg s2 rSuspTime) 31 0 (s.now + 1 - s.susp.begun)))

/-! ### Resume (R402, R403) -/

/-- The image in memory has its digest. -/
def imageGood (s : State) : Bool :=
  Config.shake256 (memRead s.mem s.susp.image s.susp.len) = s.susp.digest &&
    !((List.range (s.susp.len / 64)).any fun i => isPoison s (s.susp.image + 64 * i))

/-- Deadlines that passed while the device was suspended, in order (R402). -/
def heldMisses (s : State) : List (Nat × Nat × Bool) :=
  (((s.runs.map (·.1)).flatMap (dueMisses s)).filter fun x => missWaits s x.1).foldr insertMiss []

/-- Cards with a saved context. -/
def savedCards (s : State) : List Nat :=
  ((s.launches.filter fun x => x.2.parts.any fun p => p.2.capture = 3).map fun x => x.1 / 2).dedup

/-- A resume begins: step 1 of R402. -/
def beginResume (s : State) : State :=
  setSuspStat 3 { s with susp := { s.susp with resumeAt := s.now } }

/-- The SUSP of a group that was not saved completes (R246). -/
def landSusp (s : State) : State :=
  ((s.groups.map (·.1)).filter fun g => decide (32 ≤ coreOf s g)).foldl landAll s

/-- Steps 2 to 5 of a resume, and the misses that it raises. -/
def endResume (s : State) : State :=
  let ms := heldMisses s
  let good := imageGood s
  let s1 := setReg s rSuspTime (setBits (reg s rSuspTime) 63 32 (s.now - s.susp.resumeAt))
  let s2 := setReg s1 rSuspStat (if good then 0 else 4)
  let s3 : State := { s2 with susp := {}, island := { s2.island with hbAt := s.now } }
  let ready := if (reg s rDctl).testBit 0 then readyPending s3 else s3
  let s4 :=
    if good then landSusp (dispatch ready)
    else
      let s5 := (savedCards s3).foldl (fun s n => killCard n (killFor s n clsLost 0) s) s3
      landSusp { s5 with island := { s5.island with stage := 5, failed := false } }
  ms.foldl (fun s x => raiseDue x x.1 s) s4

/-- RESUME: `wake` is a PCI Express endpoint wake. While the device suspends, a wake event is remembered; once it is
suspended the resume begins, and its next event ends it. -/
def resume (wake : Bool) (s : State) : State :=
  match suspStat s with
  | 1 => if wake then { s with susp := { s.susp with wakeSeen := true } } else s
  | 2 => if wake || s.susp.wakeSeen then beginResume s else s
  | 3 => endResume s
  | _ => s

/-- RESUME_ALARM: RESALARM is reached. -/
def resumeAlarm (s : State) : State :=
  if suspStat s = 2 && reg s rResAlarm ≠ 0 && decide (reg s rResAlarm ≤ s.now) then beginResume s else s

/-! ### Boot (R388 to R390) -/

/-- POWER_ON (R389): the device starts from reset, but for what its fuses and non-volatile memory keep; each spare
core takes the number of a retired one (R339). -/
def powerOn (s : State) : State :=
  let spares := reg s rSpares
  let dead := (List.range 32).filter fun c => (reg s rRetired).testBit c
  let left := dead.drop (nbits spares 1 0)
  let s1 : State := { State.reset with
    ticks := s.ticks
    script := s.script
    island := { stage := 1, svnMin := s.island.svnMin, keyIndex := s.island.keyIndex } }
  setReg (setReg s1 rSpares (setBits spares 1 0 (nbits spares 1 0 - dead.length))) rRetired
    (left.foldl (fun m c => m ||| 2 ^ c) 0)

/-- BOOTSTAT once a stage has ended or failed. -/
def bootStat (last kind : Nat) (failed : Bool) (s : State) : State :=
  setReg s rBootStat (last % 8 + b2n failed * 8 + kind % 16 * 16)

/-- The least security version that the island accepts for a KIND. -/
def svnFloor (s : State) (kind : Nat) : Nat := max (Config.fusedSvn kind) (nget 0 s.island.svnMin kind)

/-- Bytes of a signature by PSET (R390). -/
def sigBytes (pset : Nat) : Nat :=
  match pset with
  | 1 => 2500
  | 2 => 2692
  | 3 => 2820
  | _ => 0

/-- Fields of an image's header. -/
def imgFld (img : List Byte) (lo n : Nat) : Nat := ofBytes ((img.drop lo).take n)

/-- The island accepts an image of a KIND (R390). -/
def imageOk (s : State) (kind : Nat) (img : List Byte) : Bool :=
  let pset := imgFld img 6 2
  let slot := imgFld img 12 4
  let len := imgFld img 24 8
  let pub := (img.drop 32).take 68
  imgFld img 0 4 = 0x5A4B4931 && imgFld img 4 2 = kind && decide (1 ≤ pset) && decide (pset ≤ 3) &&
    decide (slot ≤ 3) && len % 64 = 0 && decide (len ≤ 268435456) && img.length = 256 + len + sigBytes pset &&
    Config.shake256 pub = Config.keyDigest slot && !Config.keyRevoked slot &&
    decide (svnFloor s kind ≤ imgFld img 8 4) &&
    Config.xmssVerify pset pub (img.take (256 + len)) (img.drop (256 + len)) && imgFld img 100 156 = 0

/-- An accepted image runs: its version and measurement are kept, and its payload stands at LOAD, which is an offset
of the island's own 1 MiB for KIND 1. -/
def takeImage (kind : Nat) (img : List Byte) (s : State) : State :=
  let len := imgFld img 24 8
  let s1 : State := { s with island := { s.island with
    svnRun := nput s.island.svnRun kind (imgFld img 8 4)
    meas := nput s.island.meas kind (Config.shake256 (img.take (256 + len))) } }
  if kind = 1 then
    { s1 with island := { s1.island with
      sram := memWrite s1.island.sram (imgFld img 16 8) (((img.drop 256).take len).take (2 ^ 20 - imgFld img 16 8)) } }
  else l2Write (imgFld img 16 8) ((img.drop 256).take len) 0 s1

/-- A boot stage ends, and the next starts. -/
def stageEnds (n : Nat) (s : State) : State :=
  bootStat n 0 false { s with island := { s.island with stage := n + 1 } }

/-- A boot stage fails, and the boot stops there. -/
def stageFails (n kind : Nat) (s : State) : State :=
  bootStat (n - 1) kind true { s with island := { s.island with failed := true } }

/-- Stage 3 (R276, R277, R389): every sector of DRAM holds zeros and valid check words, and the patrol scrubber
starts. What the ochre SRAM stores stays (R397). -/
def clearDram (s : State) : State :=
  let keeps (pa : Nat) : Bool := decide (paKind s pa ≠ .dram) || inWindow (ochreWin s) pa
  { s with
    mem := s.mem.filter fun x => keeps x.1
    poison := s.poison.filter fun x => keeps (64 * x.1)
    under := []
    underPois := []
    dirty := []
    l2 := []
    scrubNext := 0
    scrubDue := s.now }

/-- Stage 4 (R375, R389): DEVICE is as strapped, but 0 where the devices present name only this one. -/
def writeDevice (s : State) : State :=
  if soleDevice s then setReg s rDevid (devid s / 4 * 4) else s

/-- Stage 4 (R385, R389): the straps set the controllers' lanes, and make controller 0 an endpoint or a root port (log 153). -/
def setPcie (s : State) : State :=
  let w : NMap Nat := match Config.pciStrap with
    | 0 => [(0, 16)]
    | 1 => [(0, 8), (2, 8)]
    | _ => [(0, 4), (1, 4), (2, 4), (3, 4)]
  { s with pciWidth := w, pciEnd := Config.pciEndStrap && decide (Config.pciStrap ≤ 1) }

/-- Stage 6: cores of a mask fail both runs of their scan and are quarantined. -/
def bootScan (failed : Nat) (s : State) : State :=
  (List.range 32).foldl (fun s c =>
    if failed.testBit c then quarantine c (countScanFail (countScanFail s)) else s) s

/-- BOOT_STAGE (R389): the stage in progress ends as `ok` says of its hardware, with the images that it loads and the
cores whose scan fails. -/
def bootStage (ok : Bool) (img img2 : List Byte) (failed : Nat) (s : State) : State :=
  let n := s.island.stage
  let load (kind : Nat) (img : List Byte) (then' : State → State) (s : State) : State :=
    if imageOk s kind img then then' (takeImage kind img s) else stageFails n kind s
  if n = 0 || decide (7 ≤ n) || s.island.failed then s
  else if !ok then stageFails n 0 s
  else match n with
  | 2 => load 1 img (stageEnds 2) s
  | 3 => stageEnds 3 (clearDram s)
  | 4 => stageEnds 4 (setPcie (writeDevice s))
  | 5 => load 2 img (fun s => stageEnds 5 { s with island := { s.island with hbAt := s.now } }) s
  | 6 => load 3 img (load 4 img2 fun s => dispatch (stageEnds 6 (bootScan failed s))) s
  | _ => stageEnds n s

/-- ISLAND_LOCKSTEP_RESET (R388): the island alone restarts; its counts survive. A signing in progress is interrupted,
and its command runs again with the next index (R391). -/
def islandReset (s : State) : State :=
  { s with island := { s.island with restart := none, hotSince := none, signing := none } }

/-! ### Restarting one engine (R394) -/

/-- A core restart: its contexts are killed, their instances end with LOST, and the core is scanned. -/
def restartCore (c : Nat) (s : State) : State :=
  let ns := ((ctxsOn s c).map fun x => x.1 / 2).dedup
  let s1 := ns.foldl (fun s n => killCard n { killFor s n clsLost 0 with cores := 2 ^ c } s) s
  setScan { core := c } s1

/-- A walker restart: its unfinished cards fail with ERR 9. -/
def restartWalker (c : Nat) (s : State) : State :=
  ((core s c).jobs.filter (·.live)).foldl (fun s j => failJob c j 9 s) s

/-- An ingest engine drops its frame and counts it. -/
def dropFrame (k : Nat) (s : State) : State :=
  let e := nget {} s.ingest k
  match e.cur with
  | none => s
  | some _ => { s with ingest := nput s.ingest k { e with cur := none, drops := e.drops + 1, since := e.since + 1 } }

/-- An Ethernet restart: the transmit descriptors in flight return DONE with ERR (R394). -/
def restartEth (p : Nat) (s : State) : State :=
  let head := reg s (rEth p 0x18)
  let n := diff32 (reg s (rEth p 0x10)) head
  let s1 := (List.range (min n (2 ^ nbits (reg s (rEth p 8)) 59 56))).foldl (fun s i =>
    let pa := ethDesc (reg s (rEth p 8)) (head + i)
    ethDone p pa (setBits (ofBytes (l2Read s (pa + 8) 8)) 16 15 3) none s) s
  if n = 0 then s1 else raiseInt 4 (setReg s1 (rEth p 0x18) ((head + n) % 2 ^ 32))

/-- A processor cluster is reset: the lines that only its caches held as written are poisoned at the L2 (R394). Which
of the sectors that the harts wrote these are, is free. -/
def loseApLines (s : State) : State :=
  let lost := s.apLines.filter fun sec => Config.freeValue (s.ticks + sec) % 2 = 1
  lost.foldl (fun s sec => poisonSector (64 * sec) s) { s with apLines := s.apLines.filter fun sec => !lost.contains sec }

/-- Restart an engine by its code: none where the code names no engine (R394). -/
def restartEngine (code : Nat) (s : State) : Option State :=
  if code < 0x20 then some (restartCore code { s with island := { s.island with restart := some code } })
  else if code < 0x40 then some (restartWalker (code - 0x20) s)
  else if code < 0x48 then some (dropFrame (code - 0x40) s)
  else if code < 0x4A then
    some (loseApLines (if code = 0x48 then { s with island := { s.island with hbAt := s.now } } else s))
  else if code < 0x4E then some (restartEth (code - 0x4A) s)
  else if code < 0x52 then
    some (startTraining (code - 0x4E) { s with island := { s.island with restart := some code } })
  else none

/-! ### The mailbox (R391 to R394) -/

/-- A mailbox message to the host (R387). -/
def postMail (s : State) : State := raiseInt 6 s

/-- A mailbox command completes with a RESULT (R393). -/
def mbDone (result : Nat) (s : State) : State :=
  let n := nbits (reg s rMbStat) 63 32
  postMail (setReg { s with island := { s.island with mb := none } } rMbStat (result * 16 + (n + 1) % 2 ^ 32 * 2 ^ 32))

/-- The attestation report (R392). -/
def attestReport (s : State) (nonce : List Byte) : List Byte :=
  toBytes 4 0x5A4B4141 ++ toBytes 12 0 ++ nonce ++ toBytes 8 s.now ++ toBytes 4 (reg s rQuar) ++
    toBytes 4 (reg s rRetired) ++ ((List.range 4).flatMap fun k => toBytes 32 (nget 0 s.island.meas (k + 1))) ++
    ((List.range 4).flatMap fun k => toBytes 4 (nget 0 s.island.svnRun (k + 1))) ++ toBytes 48 0

/-- ATTEST begins: the index is taken, and the counter committed (R391). -/
def attestBegin (s : State) : State :=
  if 2 ^ 40 ≤ s.island.keyIndex then mbDone 3 s
  else
    let i := s.island.keyIndex
    let addr := reg s rMbAddr
    outsideAsk 1 addr 0 (fun s =>
      let r := attestReport s (l2Read s (addr + 16) 32)
      { s with island := { s.island with keyIndex := i + 1, signing := some (i, r) } }) s

/-- MB_ATTEST: a signing begins; once one has begun, its signature is released (R391). -/
def mbAttest (s : State) : State :=
  match s.island.mb, s.island.signing with
  | some (1, _), none => attestBegin s
  | some (1, _), some (i, r) =>
    let s1 : State := { s with island := { s.island with signing := none } }
    mbDone 0 (l2Write (reg s rMbAddr) (r ++ (List.range 9893).map (Config.signByte i r)) 0 s1)
  | _, _ => s

/-- A restart may begin: no other is in progress, and no rollback on the core's pair (R394). -/
def mayRestart (s : State) (code : Nat) : Bool :=
  s.island.restart.isNone && !(decide (code < 0x20) && (pair s (code / 2)).rolling)

/-- RESTART (R394). -/
def mbRestart (s : State) : State :=
  match s.island.mb with
  | some (2, arg) =>
    let code := arg % 256
    if !mayRestart s code then s
    else match restartEngine code s with
      | some t => mbDone 0 t
      | none => mbDone 2 s
  | _ => s

/-- COMMITSV (R393). -/
def mbCommitsv (s : State) : State :=
  match s.island.mb with
  | some (3, _) =>
    let up (m : NMap Nat) (k : Nat) : NMap Nat := nput m k (max (svnFloor s k) (nget 0 s.island.svnRun k))
    mbDone 0 { s with island := { s.island with svnMin := [1, 2, 3, 4].foldl up s.island.svnMin } }
  | _ => s

/-- A code that R393 does not list. -/
def mbInvalid (s : State) : State :=
  match s.island.mb with
  | some (code, _) => if code = 1 || code = 2 || code = 3 then s else mbDone 2 s
  | none => s

/-! ### Supervision (R394) -/

/-- The island restarts an engine on its own decision. -/
def autoRestart (code : Nat) (s : State) : State :=
  if mayRestart s code then (restartEngine code s).getD s else s

/-- A group that is ready has issued nothing for 1 ms: since it last issued, and since it became ready. -/
def coreStalls (s : State) (c : Nat) : Bool :=
  s.groups.any fun x => coreOf s x.1 = c && !stopped s x.1 && x.2.readyAt.isSome &&
    decide (max x.2.issuedAt x.2.readyNs + 1000000 ≤ s.now)

/-- CORE_STALL_TIMEOUT. -/
def coreTimeout (c : Nat) (s : State) : State := if c < 32 && coreStalls s c then autoRestart c s else s

/-- A walker holds a card, and 10 ms have passed without a tile step; a step that awaits a fault reply and a parked
card do not count. -/
def walkerStalls (s : State) (c : Nat) : Bool :=
  let js := (core s c).jobs
  !(js.any fun j => j.live && !j.recs.isEmpty) && match currentJob js with
    | some j => decide (j.since + 10000000 ≤ s.now)
    | none => false

/-- WALKER_STALL_TIMEOUT. -/
def walkerTimeout (c : Nat) (s : State) : State :=
  if c < 32 && walkerStalls s c then autoRestart (0x20 + c) s else s

/-- INGEST_FRAME_TIMEOUT: no Frame End within 100 ms. -/
def ingestTimeout (k : Nat) (s : State) : State :=
  match (nget {} s.ingest k).cur with
  | some f => if k < 8 && decide (f.start + 100000000 ≤ s.now) then autoRestart (0x40 + k) s else s
  | none => s

/-- HEARTBEAT_TIMEOUT. -/
def heartbeatTimeout (s : State) : State :=
  let ms := reg s rHbTmo
  if ms ≠ 0 && decide (s.island.hbAt + 1000000 * ms ≤ s.now) then autoRestart 0x48 s else s

/-! ### Temperature (R399) -/

/-- The hottest junction's temperature changes. -/
def setTemp (t : Nat) (s : State) : State :=
  let hot := if sx 16 (t % 2 ^ 16) ≤ 2000 then none
    else if s.island.hotSince.isSome then s.island.hotSince else some s.now
  setReg { s with island := { s.island with hotSince := hot } } rTemp (t % 2 ^ 16)

/-- THERMAL_SHUTDOWN: above 125 °C for 1 ms. -/
def thermalShutdown (s : State) : State :=
  match s.island.hotSince with
  | some t =>
    if s.island.coresHeld || decide (s.now < t + 1000000) then s
    else
      let ns := ((List.range 32).flatMap fun c => (ctxsOn s c).map fun x => x.1 / 2).dedup
      let s1 := ns.foldl (fun s n => killCard n (killFor s n clsLost 0) s) s
      postMail { s1 with island := { s1.island with coresHeld := true } }
  | none => s

/-- THERMAL_RELEASE: TEMP falls below THROT. -/
def thermalRelease (t : Nat) (s : State) : State :=
  let s1 := setTemp t s
  if s.island.coresHeld && decide (sx 16 (t % 2 ^ 16) < sx 16 (reg s rThrot)) then
    dispatch { s1 with island := { s1.island with coresHeld := false } }
  else s1

/-! ### The events -/

/-- STRIKE_REPORT (R331): region kind and number, a bad journal, and the sectors of a slice with their outcomes. -/
def execStrikeReport (region n : Nat) (bad : Bool) (sectors : List (Nat × Nat)) (s : State) :=
  event (strike region n bad sectors s)
/-- ROLLBACK_RESUME (R332): pair. -/
def execRollbackResume (pr : Nat) (s : State) := event (resumePair pr s)
/-- SCAN_DUE (R337). -/
def execScanDue (s : State) := event (scanDue s)
/-- SCAN_FORCE_DRAIN (R337): core. -/
def execScanForceDrain (c : Nat) (s : State) := event (forceDrain c s)
/-- SCAN_COMPLETE (R338): core, pass, spare rows and columns used, last spare spent. -/
def execScanComplete (c : Nat) (pass : Bool) (rows cols : Nat) (spent : Bool) (s : State) :=
  event (scanOver c pass rows cols spent s)
/-- CORE_ENTER_GATING (R343): core. -/
def execCoreEnterGating (c : Nat) (s : State) := event (enterGating c s)
/-- CORE_WAKE_COMPLETE (R243): core. -/
def execCoreWakeComplete (c : Nat) (s : State) := event (wakeDone c s)
/-- SENSOR_EVENT (R243). -/
def execSensorEvent (s : State) := event (sensorEvent s)
/-- SUSPEND_POWER_DOWN (R400). -/
def execSuspendPowerDown (s : State) := event (powerDown s)
/-- RESUME (R402): whether a PCI Express endpoint wakes the device. -/
def execResume (wake : Bool) (s : State) := event (resume wake s)
/-- RESUME_ALARM (R402). -/
def execResumeAlarm (s : State) := event (resumeAlarm s)
/-- POWER_ON (R389). -/
def execPowerOn (s : State) := event (powerOn s)
/-- BOOT_STAGE (R389): hardware outcome, images, cores that fail their scan. -/
def execBootStage (ok : Bool) (img img2 : List Byte) (failed : Nat) (s : State) := event (bootStage ok img img2 failed s)
/-- ISLAND_LOCKSTEP_RESET (R388). -/
def execIslandLockstepReset (s : State) := event (islandReset s)
/-- MB_ATTEST (R392). -/
def execMbAttest (s : State) := event (mbAttest s)
/-- MB_RESTART (R394). -/
def execMbRestart (s : State) := event (mbRestart s)
/-- MB_COMMITSV (R393). -/
def execMbCommitsv (s : State) := event (mbCommitsv s)
/-- MB_INVALID (R393). -/
def execMbInvalid (s : State) := event (mbInvalid s)
/-- CORE_STALL_TIMEOUT (R394): core. -/
def execCoreStallTimeout (c : Nat) (s : State) := event (coreTimeout c s)
/-- WALKER_STALL_TIMEOUT (R394): core. -/
def execWalkerStallTimeout (c : Nat) (s : State) := event (walkerTimeout c s)
/-- INGEST_FRAME_TIMEOUT (R394): engine. -/
def execIngestFrameTimeout (k : Nat) (s : State) := event (ingestTimeout k s)
/-- HEARTBEAT_TIMEOUT (R394). -/
def execHeartbeatTimeout (s : State) := event (heartbeatTimeout s)
/-- THERMAL_THROTTLE (R399): the temperature in 1/16 °C; clocks are timing. -/
def execThermalThrottle (t : Nat) (s : State) := event (setTemp t s)
/-- THERMAL_SHUTDOWN (R399). -/
def execThermalShutdown (s : State) := event (thermalShutdown s)
/-- THERMAL_RELEASE (R399): the temperature in 1/16 °C. -/
def execThermalRelease (t : Nat) (s : State) := event (thermalRelease t s)

end Sys2Proof.Machine
end

