-- ==== Sys2Proof/Machine/Lane.lean ====
section
/-!
DEFINITION. Sys2Proof/Machine/Lane.lean: the V engine (R115 to R140): lane arithmetic, compares,
conversion and quantisation, exchange between lanes, predicates and rotation.
-/
namespace Sys2Proof.Machine

/-! ### Integer arithmetic (R119 to R123) -/

/-- A two-source integer result before it is cut (R120): `op` is the opcode, `t` the type. -/
def intVal (op t : Nat) (x y : Nat) : Int :=
  let n := intWidth t
  let a := tyInt t x
  let b := tyInt t y
  let sh := y % n
  match op with
  | 0x01 => a + b
  | 0x02 => a - b
  | 0x03 => a * b
  | 0x04 => floorShift (a * b) n
  | 0x06 => (((x &&& y) % 2 ^ n : Nat) : Int)
  | 0x07 => (((x ||| y) % 2 ^ n : Nat) : Int)
  | 0x08 => (((x ^^^ y) % 2 ^ n : Nat) : Int)
  | 0x09 => a * ((2 ^ sh : Nat) : Int)
  | 0x0a => floorShift (zx n x) sh
  | 0x0b => floorShift (sx n x) sh
  | 0x0c => min a b
  | _ => max a b

/-- Saturation where MOD[3] asks for it (R120). -/
def intSat (f : Flds) (t : Nat) (x : Int) : Int :=
  if f.m 3 then (if tySigned t then satS (intWidth t) x else satU (intWidth t) x) else x

/-- A two-source integer word (R120). -/
def int2 (op : Nat) (f : Flds) : Cur → State → Res :=
  let t := f.mod % 8
  laneWord (itWide t) f fun s g l =>
    tyReg t (intSat f t (intVal op t (laneRaw s g (itWide t) f.a l)
      (selRaw s g f (itWide t) (tySigned t) f.b l)))

/-- IMAD: one rounding and saturation of the exact sum (R120). -/
def imadRes (f : Flds) : Cur → State → Res :=
  let t := f.mod % 8
  let w := itWide t
  laneWord w f fun s g l =>
    tyReg t (intSat f t (tyInt t (laneRaw s g w f.a l) * tyInt t (laneRaw s g w f.b l) +
      tyInt t (laneRaw s g w f.c l)))

/-- The low `n` bits reversed. -/
def bitRev (n x : Nat) : Nat := maskOf n fun i => x.testBit (n - 1 - i)

/-- A one-source integer result (R121). -/
def intVal1 (op : Nat) (f : Flds) (t x : Nat) : Int :=
  let n := intWidth t
  let a := tyInt t x
  match op with
  | 0x0e => intSat f t (a.natAbs : Int)
  | 0x0f => ((n - bitlen (x % 2 ^ n) : Nat) : Int)
  | 0x10 => ((popCount n x : Nat) : Int)
  | 0x11 => ((bitRev n x : Nat) : Int)
  | _ => a

/-- A one-source integer word (R121). -/
def int1 (op : Nat) (f : Flds) : Cur → State → Res :=
  let t := f.mod % 8
  laneWord (itWide t) f fun s g l =>
    tyReg t (intVal1 op f t (selRaw s g f (itWide t) (tySigned t) f.a l))

/-- IBFX (R122). -/
def ibfxRes (f : Flds) : Cur → State → Res :=
  laneWord false f fun s g l =>
    let pos := f.imm % 32
    let len := f.imm / 32 % 32 + 1
    let x := nbits (vread s g f.a l) (pos + len - 1) pos
    if f.mod % 8 = 0 then cut 32 (sx len x) else x

/-- IBFI (R122). -/
def ibfiRes (f : Flds) : Cur → State → Res :=
  laneWord false f fun s g l =>
    let pos := f.imm % 32
    let len := f.imm / 32 % 32 + 1
    setBits (vread s g f.a l) (pos + len - 1) pos (vread s g f.b l)

/-- ISEL (R123). -/
def iselRes (f : Flds) : Cur → State → Res :=
  let w := itWide f.mod
  laneWord w f fun s g l =>
    if (pread s g f.c).testBit l then laneRaw s g w f.a l else laneRaw s g w f.b l

/-- IMOVI (R123). -/
def imoviRes (f : Flds) : Cur → State → Res :=
  laneWord false f fun s g l =>
    if f.b = 0 then cut 32 f.i23
    else (vread s g f.d l % 512 + f.imm * 512) % 2 ^ 32

/-! ### Compares (R124) -/

/-- The condition COND of two integers. -/
def condHolds (k : Nat) (a b : Int) : Bool :=
  match k with
  | 0 => a = b
  | 1 => a ≠ b
  | 2 => a < b
  | 3 => a ≤ b
  | 4 => b < a
  | _ => b ≤ a

/-- The condition COND of two floating values; a pair with a NaN is unordered. -/
def condFloat (k : Nat) (x y : Fl) : Bool :=
  let un := x.isNan || y.isNan
  match k with
  | 0 => fleq x y
  | 1 => !fleq x y
  | 2 => fllt x y
  | 3 => fllt x y || fleq x y
  | 4 => fllt y x
  | 5 => fllt y x || fleq x y
  | _ => un

/-- ICMP (R124). -/
def icmpRes (f : Flds) : Cur → State → Res :=
  let t := f.mod % 8
  predWord f fun s g l =>
    condHolds f.cond (tyInt t (laneRaw s g (itWide t) f.a l))
      (tyInt t (selRaw s g f (itWide t) (tySigned t) f.b l))

/-- FCMP (R124). -/
def fcmpRes (f : Flds) : Cur → State → Res :=
  predWord f fun s g l =>
    condFloat f.cond (fdec (ftFmt f) (vread s g f.a l)) (fdec (ftFmt f) (selRaw s g f false true f.b l))

/-! ### Floating-point arithmetic (R125 to R127) -/

/-- A two-source floating result (R126), on codes. -/
def floatVal (op : Nat) (F : Fmt) (mode x y : Nat) : Nat :=
  let a := fdec F x
  let b := fdec F y
  match op with
  | 0x20 => fenc F mode (fladd mode a b)
  | 0x21 => fenc F mode (fladd mode a b.negate)
  | 0x22 => fenc F mode (flmul a b)
  | 0x24 => fminCode F (x % 2 ^ F.width) (y % 2 ^ F.width)
  | 0x25 => fmaxCode F (x % 2 ^ F.width) (y % 2 ^ F.width)
  | _ => fenc F mode (fldiv a b)

/-- A two-source floating word (R126). -/
def float2 (op : Nat) (f : Flds) : Cur → State → Res :=
  laneWord false f fun s g l =>
    floatVal op (ftFmt f) (f.mod % 4) (vread s g f.a l) (selRaw s g f false true f.b l)

/-- FSCALE (R126). -/
def fscaleRes (f : Flds) : Cur → State → Res :=
  laneWord false f fun s g l =>
    fenc (ftFmt f) (f.mod % 4)
      (flscale (fdec (ftFmt f) (vread s g f.a l)) (sx 32 (selRaw s g f false true f.b l)))

/-- FFMA: one rounding (R126). -/
def ffmaRes (f : Flds) : Cur → State → Res :=
  laneWord false f fun s g l =>
    let F := ftFmt f
    let mode := f.mod % 4
    fenc F mode (fladd mode (flmul (fdec F (vread s g f.a l)) (fdec F (vread s g f.b l)))
      (fdec F (vread s g f.c l)))

/-- A one-source floating result (R55, R127), on codes. -/
def floatVal1 (op : Nat) (F : Fmt) (x : Nat) : Nat :=
  let a := fdec F x
  match op with
  | 0x27 => fclass F (x % 2 ^ F.width)
  | 0x28 => fenc F 0 (fldiv (.fin 1 0) a)
  | 0x29 => fenc F 0 (flrsq a)
  | 0x2a => fenc F 0 (flsqrt a)
  | 0x2c => fex2 F a
  | _ => flg2 F a

/-- A one-source floating word (R126, R127). -/
def float1 (op : Nat) (f : Flds) : Cur → State → Res :=
  laneWord false f fun s g l => floatVal1 op (ftFmt f) (selRaw s g f false true f.a l)

/-! ### Conversion and quantisation (R129 to R132) -/

/-- CVT (R129). -/
def cvtRes (f : Flds) : Cur → State → Res :=
  laneWord (tcWide f.c) f fun s g l =>
    codeReg f.c (typeEnc f.c (f.mod % 4) (typeDec f.b (laneRaw s g (tcWide f.b) f.a l)))

/-- The codes and scales of one block's lanes (R130). -/
def quantLanes (F : Nat) (s : State) (g n : Nat) (lanes : List Nat) : List (Nat × Nat × Nat) :=
  let r := quantBlock F (lanes.map fun l => fdec .f32 (vread s g n l))
  (lanes.zip r.2).map fun x => (x.1, x.2, r.1)

/-- QUANT (R130). -/
def quantRes (f : Flds) (c : Cur) (s : State) : Res :=
  let L := if f.m 3 then 32 else 16
  let lanes := laneList s c f
  let out := (List.range (widthOf s c.g / L)).flatMap fun k =>
    let ls := lanes.filter fun l => l / L = k
    if ls.isEmpty then [] else quantLanes (f.mod % 8) s c.g f.a ls
  .done (vwriteLanes c f.c (out.map fun x => (x.1, x.2.2))
    (vwriteLanes c f.d (out.map fun x => (x.1, x.2.1)) s))

/-- The value of an element code under a scale byte, as an FP32 code (R131). -/
def dqntVal (F code scale : Nat) : Nat :=
  let S := sx 8 scale
  let v := elemDec F code
  if S = -128 then Fmt.f32.nanCode else fenc .f32 0 (flscale v S)

/-- DQNT (R131). -/
def dqntRes (f : Flds) : Cur → State → Res :=
  laneWord false f fun s g l => dqntVal (f.mod % 8) (vread s g f.a l) (vread s g f.b l)

/-- SKEY (R132). -/
def skeyRes (f : Flds) : Cur → State → Res :=
  laneWord true f fun s g l => skey (f.mod % 4) (vread s g f.a l) (vread s g f.b l)

/-! ### Exchange between lanes (R133 to R138) -/

/-- The source lane of LSHUF (R133). -/
def shufSource (s : State) (g : Nat) (f : Flds) (l : Nat) : Nat :=
  let w := widthOf s g
  match f.mod % 4 with
  | 0 => vread s g f.b l % w
  | 1 => l ^^^ f.imm
  | 2 => if l < f.imm then l else l - f.imm
  | _ => if w ≤ l + f.imm then l else l + f.imm

/-- LSHUF (R133). -/
def lshufRes (f : Flds) : Cur → State → Res :=
  laneWord false f fun s g l => vread s g f.a (shufSource s g f l)

/-- LBCAST (R134). -/
def lbcastRes (f : Flds) : Cur → State → Res :=
  laneWord false f fun s g _ =>
    vread s g f.a (if f.m 0 then uread s g f.b % widthOf s g else f.b)

/-- LVOTE (R135). -/
def lvoteRes (f : Flds) (c : Cur) (s : State) : Res :=
  let act := activeLanes s c f
  let m := act &&& pread s c.g f.a
  unifWord f (fun _ _ => match f.mod % 4 with
    | 0 => m
    | 1 => b2n (m ≠ 0)
    | 2 => b2n (m = act)
    | _ => popCount 64 m) c s

/-- The lane that LREAD and LWRITE name (R136). -/
def namedLane (s : State) (g : Nat) (f : Flds) : Nat :=
  if f.sel = 1 then f.imm else uread s g f.b % widthOf s g

/-- LREAD (R136). -/
def lreadRes (f : Flds) : Cur → State → Res :=
  unifWord f fun s g =>
    let l := namedLane s g f
    if f.m 1 then vread64 s g f.a l
    else if f.m 0 then cut 64 (sx 32 (vread s g f.a l)) else vread s g f.a l

/-- LWRITE (R136): nothing where the lane is not active. -/
def lwriteRes (f : Flds) (c : Cur) (s : State) : Res :=
  let l := namedLane s c.g f
  let x := uread s c.g f.a
  if (activeLanes s c f).testBit l then .done (putLanes c (f.m 0) f.d [(l, x)] s) else .done s

/-- The node operation of GRED and GSCAN (R56, R137), on codes: `op` of MOD[2:0], `t` the type of C. -/
def redOp (op t : Nat) (a b : Nat) : Nat :=
  if t = 2 then
    match op with
    | 0 => fenc .f32 0 (fladd 0 (fdec .f32 a) (fdec .f32 b))
    | 1 => fminCode .f32 a b
    | _ => fmaxCode .f32 a b
  else
    let rd (x : Nat) : Int := if t = 0 then sx 32 x else zx 32 x
    match op with
    | 0 => (a + b) % 2 ^ 32
    | 1 => if rd b < rd a then b else a
    | 2 => if rd a < rd b then b else a
    | 3 => a &&& b
    | 4 => a ||| b
    | _ => a ^^^ b

/-- The identity of R56. -/
def redIdent (op t : Nat) : Nat :=
  if t = 2 then (if op = 0 then 0x80000000 else Fmt.f32.nanCode)
  else
    match op with
    | 1 => if t = 0 then 0x7FFFFFFF else 0xFFFFFFFF
    | 2 => if t = 0 then 0x80000000 else 0
    | 3 => 0xFFFFFFFF
    | _ => 0

/-- The lanes' values, lanes that are not active as the identity (R56). -/
def redInputs (s : State) (c : Cur) (f : Flds) : List Nat :=
  let act := activeLanes s c f
  (List.range (widthOf s c.g)).map fun l =>
    if act.testBit l then vread s c.g f.a l else redIdent (f.mod % 8) f.c

/-- GRED (R137). -/
def gredRes (f : Flds) (c : Cur) (s : State) : Res :=
  let r := gtree (redOp (f.mod % 8) f.c) (widthLog (widthOf s c.g)) (redInputs s c f)
  if f.m 3 then .done (vwriteLanes c f.d (eachLane s c f fun _ => r) s)
  else .done (uwrite c f.d (if f.c = 0 then cut 64 (sx 32 r) else r) s)

/-- A NaN that an instruction produces is the canonical one of its format (R45). -/
def canonNan (F : Fmt) (x : Nat) : Nat := if (fdec F x).isNan then F.nanCode else x

/-- GSCAN (R137). -/
def gscanRes (f : Flds) (c : Cur) (s : State) : Res :=
  let r := gscan (redOp (f.mod % 8) f.c) (widthLog (widthOf s c.g)) 1 (redInputs s c f)
  let out (l : Nat) : Nat := if f.c = 2 then canonNan .f32 (r.getD l 0) else r.getD l 0
  .done (vwriteLanes c f.d (eachLane s c f out) s)

/-! ### Predicates and rotation (R139, R140) -/

/-- PAND, POR and PXOR (R139). -/
def pred2 (op : Nat) (f : Flds) : Cur → State → Res :=
  predWord f fun s g l =>
    let x := (pread s g f.a).testBit l != f.m 0
    let y := (pread s g f.b).testBit l != f.m 1
    let r := match op with
      | 0x40 => x && y
      | 0x41 => x || y
      | _ => x != y
    r != f.m 2

/-- PSET (R139). -/
def psetRes (f : Flds) : Cur → State → Res :=
  predWord f fun s g l =>
    match f.mod % 4 with
    | 0 => (uread s g f.a).testBit l
    | 1 => (vread s g f.a l).testBit f.imm
    | _ => f.imm = 1

/-- PGET (R139). -/
def pgetRes (f : Flds) : Cur → State → Res :=
  laneWord false f fun s g l =>
    if (pread s g f.a).testBit l then (if f.m 0 then 0xFFFFFFFF else 1) else 0

/-- VROT (R28, R140): the position moves down by one; the register that comes to position 0, and one that
reaches the first dead position, are cleared. -/
def vrotRes (c : Cur) (s : State) : Res :=
  let G := grp s c.g
  let base := 8 * G.blocks - G.rotN
  let p := (G.rotP + G.rotN - 1) % G.rotN
  let s1 := clearReg c (base + p) s
  let s2 := if G.rotL < G.rotN then clearReg c (base + (G.rotL + p) % G.rotN) s1 else s1
  .done (jw c (.rot c.g) (.set (.num ((G.rotN * 128 + G.rotL) * 128 + p))) s2)

/-! ### The instructions -/

/-- IADD, short form (R120). -/
def execIadd (w : SW) (s : State) := word (.iadd w) (int2 0x01 w.flds) s
/-- IADD, long form (R120). -/
def execIaddX (w : XW) (s : State) := word (.iaddX w) (int2 0x01 w.flds) s
/-- ISUB, short form (R120). -/
def execIsub (w : SW) (s : State) := word (.isub w) (int2 0x02 w.flds) s
/-- ISUB, long form (R120). -/
def execIsubX (w : XW) (s : State) := word (.isubX w) (int2 0x02 w.flds) s
/-- IMUL, short form (R120). -/
def execImul (w : SW) (s : State) := word (.imul w) (int2 0x03 w.flds) s
/-- IMUL, long form (R120). -/
def execImulX (w : XW) (s : State) := word (.imulX w) (int2 0x03 w.flds) s
/-- IMULH, short form (R120). -/
def execImulh (w : SW) (s : State) := word (.imulh w) (int2 0x04 w.flds) s
/-- IMULH, long form (R120). -/
def execImulhX (w : XW) (s : State) := word (.imulhX w) (int2 0x04 w.flds) s
/-- IMAD (R120). -/
def execImad (w : XW) (s : State) := word (.imad w) (imadRes w.flds) s
/-- IAND, short form (R120). -/
def execIand (w : SW) (s : State) := word (.iand w) (int2 0x06 w.flds) s
/-- IAND, long form (R120). -/
def execIandX (w : XW) (s : State) := word (.iandX w) (int2 0x06 w.flds) s
/-- IOR, short form (R120). -/
def execIor (w : SW) (s : State) := word (.ior w) (int2 0x07 w.flds) s
/-- IOR, long form (R120). -/
def execIorX (w : XW) (s : State) := word (.iorX w) (int2 0x07 w.flds) s
/-- IXOR, short form (R120). -/
def execIxor (w : SW) (s : State) := word (.ixor w) (int2 0x08 w.flds) s
/-- IXOR, long form (R120). -/
def execIxorX (w : XW) (s : State) := word (.ixorX w) (int2 0x08 w.flds) s
/-- ISHL, short form (R120). -/
def execIshl (w : SW) (s : State) := word (.ishl w) (int2 0x09 w.flds) s
/-- ISHL, long form (R120). -/
def execIshlX (w : XW) (s : State) := word (.ishlX w) (int2 0x09 w.flds) s
/-- ISHR, short form (R120). -/
def execIshr (w : SW) (s : State) := word (.ishr w) (int2 0x0a w.flds) s
/-- ISHR, long form (R120). -/
def execIshrX (w : XW) (s : State) := word (.ishrX w) (int2 0x0a w.flds) s
/-- ISRA, short form (R120). -/
def execIsra (w : SW) (s : State) := word (.isra w) (int2 0x0b w.flds) s
/-- ISRA, long form (R120). -/
def execIsraX (w : XW) (s : State) := word (.israX w) (int2 0x0b w.flds) s
/-- IMIN, short form (R120). -/
def execImin (w : SW) (s : State) := word (.imin w) (int2 0x0c w.flds) s
/-- IMIN, long form (R120). -/
def execIminX (w : XW) (s : State) := word (.iminX w) (int2 0x0c w.flds) s
/-- IMAX, short form (R120). -/
def execImax (w : SW) (s : State) := word (.imax w) (int2 0x0d w.flds) s
/-- IMAX, long form (R120). -/
def execImaxX (w : XW) (s : State) := word (.imaxX w) (int2 0x0d w.flds) s
/-- IABS, short form (R121). -/
def execIabs (w : SW) (s : State) := word (.iabs w) (int1 0x0e w.flds) s
/-- IABS, long form (R121). -/
def execIabsX (w : XW) (s : State) := word (.iabsX w) (int1 0x0e w.flds) s
/-- ICLZ, short form (R121). -/
def execIclz (w : SW) (s : State) := word (.iclz w) (int1 0x0f w.flds) s
/-- ICLZ, long form (R121). -/
def execIclzX (w : XW) (s : State) := word (.iclzX w) (int1 0x0f w.flds) s
/-- IPOPC, short form (R121). -/
def execIpopc (w : SW) (s : State) := word (.ipopc w) (int1 0x10 w.flds) s
/-- IPOPC, long form (R121). -/
def execIpopcX (w : XW) (s : State) := word (.ipopcX w) (int1 0x10 w.flds) s
/-- IBREV, short form (R121). -/
def execIbrev (w : SW) (s : State) := word (.ibrev w) (int1 0x11 w.flds) s
/-- IBREV, long form (R121). -/
def execIbrevX (w : XW) (s : State) := word (.ibrevX w) (int1 0x11 w.flds) s
/-- IBFX (R122). -/
def execIbfx (w : XW) (s : State) := word (.ibfx w) (ibfxRes w.flds) s
/-- IBFI (R122). -/
def execIbfi (w : XW) (s : State) := word (.ibfi w) (ibfiRes w.flds) s
/-- ISEL (R123). -/
def execIsel (w : XW) (s : State) := word (.isel w) (iselRes w.flds) s
/-- IMOV, short form (R121). -/
def execImov (w : SW) (s : State) := word (.imov w) (int1 0x15 w.flds) s
/-- IMOV, long form (R121). -/
def execImovX (w : XW) (s : State) := word (.imovX w) (int1 0x15 w.flds) s
/-- IMOVI (R123). -/
def execImovi (w : KW) (s : State) := word (.imovi w) (imoviRes w.flds) s
/-- ICMP (R124). -/
def execIcmp (w : XW) (s : State) := word (.icmp w) (icmpRes w.flds) s
/-- FADD, short form (R126). -/
def execFadd (w : SW) (s : State) := word (.fadd w) (float2 0x20 w.flds) s
/-- FADD, long form (R126). -/
def execFaddX (w : XW) (s : State) := word (.faddX w) (float2 0x20 w.flds) s
/-- FSUB, short form (R126). -/
def execFsub (w : SW) (s : State) := word (.fsub w) (float2 0x21 w.flds) s
/-- FSUB, long form (R126). -/
def execFsubX (w : XW) (s : State) := word (.fsubX w) (float2 0x21 w.flds) s
/-- FMUL, short form (R126). -/
def execFmul (w : SW) (s : State) := word (.fmul w) (float2 0x22 w.flds) s
/-- FMUL, long form (R126). -/
def execFmulX (w : XW) (s : State) := word (.fmulX w) (float2 0x22 w.flds) s
/-- FFMA (R126). -/
def execFfma (w : XW) (s : State) := word (.ffma w) (ffmaRes w.flds) s
/-- FMIN, short form (R54, R126). -/
def execFmin (w : SW) (s : State) := word (.fmin w) (float2 0x24 w.flds) s
/-- FMIN, long form (R54, R126). -/
def execFminX (w : XW) (s : State) := word (.fminX w) (float2 0x24 w.flds) s
/-- FMAX, short form (R54, R126). -/
def execFmax (w : SW) (s : State) := word (.fmax w) (float2 0x25 w.flds) s
/-- FMAX, long form (R54, R126). -/
def execFmaxX (w : XW) (s : State) := word (.fmaxX w) (float2 0x25 w.flds) s
/-- FCMP (R124). -/
def execFcmp (w : XW) (s : State) := word (.fcmp w) (fcmpRes w.flds) s
/-- FCLASS, short form (R127). -/
def execFclass (w : SW) (s : State) := word (.fclass w) (float1 0x27 w.flds) s
/-- FCLASS, long form (R127). -/
def execFclassX (w : XW) (s : State) := word (.fclassX w) (float1 0x27 w.flds) s
/-- FRCP, short form (R55, R126). -/
def execFrcp (w : SW) (s : State) := word (.frcp w) (float1 0x28 w.flds) s
/-- FRCP, long form (R55, R126). -/
def execFrcpX (w : XW) (s : State) := word (.frcpX w) (float1 0x28 w.flds) s
/-- FRSQ, short form (R55, R126). -/
def execFrsq (w : SW) (s : State) := word (.frsq w) (float1 0x29 w.flds) s
/-- FRSQ, long form (R55, R126). -/
def execFrsqX (w : XW) (s : State) := word (.frsqX w) (float1 0x29 w.flds) s
/-- FSQRT, short form (R55, R126). -/
def execFsqrt (w : SW) (s : State) := word (.fsqrt w) (float1 0x2a w.flds) s
/-- FSQRT, long form (R55, R126). -/
def execFsqrtX (w : XW) (s : State) := word (.fsqrtX w) (float1 0x2a w.flds) s
/-- FDIV, short form (R55, R126). -/
def execFdiv (w : SW) (s : State) := word (.fdiv w) (float2 0x2b w.flds) s
/-- FDIV, long form (R55, R126). -/
def execFdivX (w : XW) (s : State) := word (.fdivX w) (float2 0x2b w.flds) s
/-- FEX2, short form (R55, R126). -/
def execFex2 (w : SW) (s : State) := word (.fex2 w) (float1 0x2c w.flds) s
/-- FEX2, long form (R55, R126). -/
def execFex2X (w : XW) (s : State) := word (.fex2X w) (float1 0x2c w.flds) s
/-- FLG2, short form (R55, R126). -/
def execFlg2 (w : SW) (s : State) := word (.flg2 w) (float1 0x2d w.flds) s
/-- FLG2, long form (R55, R126). -/
def execFlg2X (w : XW) (s : State) := word (.flg2X w) (float1 0x2d w.flds) s
/-- FSCALE, short form (R126). -/
def execFscale (w : SW) (s : State) := word (.fscale w) (fscaleRes w.flds) s
/-- FSCALE, long form (R126). -/
def execFscaleX (w : XW) (s : State) := word (.fscaleX w) (fscaleRes w.flds) s
/-- CVT (R53, R129). -/
def execCvt (w : XW) (s : State) := word (.cvt w) (cvtRes w.flds) s
/-- QUANT (R52, R130). -/
def execQuant (w : XW) (s : State) := word (.quant w) (quantRes w.flds) s
/-- DQNT (R131). -/
def execDqnt (w : XW) (s : State) := word (.dqnt w) (dqntRes w.flds) s
/-- SKEY, short form (R58, R132). -/
def execSkey (w : SW) (s : State) := word (.skey w) (skeyRes w.flds) s
/-- SKEY, long form (R58, R132). -/
def execSkeyX (w : XW) (s : State) := word (.skeyX w) (skeyRes w.flds) s
/-- LSHUF, short form (R133). -/
def execLshuf (w : SW) (s : State) := word (.lshuf w) (lshufRes w.flds) s
/-- LSHUF, long form (R133). -/
def execLshufX (w : XW) (s : State) := word (.lshufX w) (lshufRes w.flds) s
/-- LBCAST, short form (R134). -/
def execLbcast (w : SW) (s : State) := word (.lbcast w) (lbcastRes w.flds) s
/-- LBCAST, long form (R134). -/
def execLbcastX (w : XW) (s : State) := word (.lbcastX w) (lbcastRes w.flds) s
/-- LVOTE, short form (R135). -/
def execLvote (w : SW) (s : State) := word (.lvote w) (lvoteRes w.flds) s
/-- LVOTE, long form (R135). -/
def execLvoteX (w : XW) (s : State) := word (.lvoteX w) (lvoteRes w.flds) s
/-- LREAD (R136). -/
def execLread (w : XW) (s : State) := word (.lread w) (lreadRes w.flds) s
/-- LWRITE (R136). -/
def execLwrite (w : XW) (s : State) := word (.lwrite w) (lwriteRes w.flds) s
/-- GRED (R56, R137). -/
def execGred (w : XW) (s : State) := word (.gred w) (gredRes w.flds) s
/-- GSCAN (R57, R137). -/
def execGscan (w : XW) (s : State) := word (.gscan w) (gscanRes w.flds) s
/-- PAND, short form (R139). -/
def execPand (w : SW) (s : State) := word (.pand w) (pred2 0x40 w.flds) s
/-- PAND, long form (R139). -/
def execPandX (w : XW) (s : State) := word (.pandX w) (pred2 0x40 w.flds) s
/-- POR, short form (R139). -/
def execPor (w : SW) (s : State) := word (.por w) (pred2 0x41 w.flds) s
/-- POR, long form (R139). -/
def execPorX (w : XW) (s : State) := word (.porX w) (pred2 0x41 w.flds) s
/-- PXOR, short form (R139). -/
def execPxor (w : SW) (s : State) := word (.pxor w) (pred2 0x42 w.flds) s
/-- PXOR, long form (R139). -/
def execPxorX (w : XW) (s : State) := word (.pxorX w) (pred2 0x42 w.flds) s
/-- PSET (R139). -/
def execPset (w : XW) (s : State) := word (.pset w) (psetRes w.flds) s
/-- PGET, short form (R139). -/
def execPget (w : SW) (s : State) := word (.pget w) (pgetRes w.flds) s
/-- PGET, long form (R139). -/
def execPgetX (w : XW) (s : State) := word (.pgetX w) (pgetRes w.flds) s
/-- VROT (R28, R140). -/
def execVrot (w : SW) (s : State) := word (.vrot w) (vrotRes) s

end Sys2Proof.Machine
end

