-- ==== Sys2Proof/Machine/Walker.lean ====
section
/-!
DEFINITION. Sys2Proof/Machine/Walker.lean: the operator walker's tile steps (R348 to R357): which card runs, its
weights, the products it adds, the epilogue, its staged outputs and their end.
-/
namespace Sys2Proof.Machine

/-! ### Where elements lie (R346, R348) -/

/-- The address of pixel (n, h, w). -/
def pixelAt (t : Tens) (n h w : Int) : Int := t.base + n * t.s3 + h * t.s2 + w * t.s1

/-- Image, output row and output column of output row `m`. -/
def pixelOf (x : OpBits) (m : Nat) : Int × Int × Int :=
  let wo := (ocWo x).toNat
  let ho := (ocHo x).toNat
  ((m / wo / ho : Nat), (m / wo % ho : Nat), (m % wo : Nat))

/-- The run of output row `m` in Y. -/
def outRunAt (x : OpBits) (m : Nat) : Int :=
  let Y := ocY x
  if ocGemm x then Y.base + m * Y.s1
  else
    let p := pixelOf x m
    pixelAt Y p.1 p.2.1 p.2.2

/-- The input pixel that kernel tap `t` = r × KW + s of output row `m` reads; none where it is padding (R349). -/
def tapRun (x : OpBits) (m t : Nat) : Option Int :=
  let p := pixelOf x m
  let hi : Int := p.2.1 * ocSH x - ocPT x + (t / ocKW x : Nat) * ocDH x
  let wi : Int := p.2.2 * ocSW x - ocPL x + (t % ocKW x : Nat) * ocDW x
  if hi < 0 ∨ (ocH x : Int) ≤ hi ∨ wi < 0 ∨ (ocW x : Int) ≤ wi then none
  else some (pixelAt (ocX x) p.1 hi wi)

/-- The scale byte of block 0 of the run at `P`. -/
def scaleBase (t : Tens) (P : Int) : Int := t.sbase + (P - t.base) * 8 / (fmtBits t.fmt * scaleLen t.scale : Nat)

/-- The bytes that `n` elements from element `lo` of a run take, with their scale bytes. -/
def elemRuns (t : Tens) (int : Bool) (P : Int) (lo n : Nat) : List Run :=
  let w := fmtBits t.fmt
  let a := w * lo / 8
  let data : Run := (cut 64 (P + a), ceilDiv (w * (lo + n)) 8 - a)
  let L := scaleLen t.scale
  if n = 0 then []
  else if t.scale = 0 || int then [data]
  else [data, (cut 64 (scaleBase t P + (lo / L : Nat)), (lo + n - 1) / L - lo / L + 1)]

/-- How gathered bytes are read: address and number of bytes. -/
abbrev Reader := Nat → Nat → Nat

/-- The code of element `e` of a run. -/
def elemAt (rd : Reader) (t : Tens) (P : Int) (e : Nat) : Nat :=
  let w := fmtBits t.fmt
  let o := w * e % 8
  nbits (rd (cut 64 (P + (w * e / 8 : Nat))) ((o + w + 7) / 8)) (o + w - 1) o

/-- The scale byte of element `e` of a run. -/
def elemScale (rd : Reader) (t : Tens) (P : Int) (e : Nat) : Nat :=
  rd (cut 64 (scaleBase t P + (e / scaleLen t.scale : Nat))) 1

/-- Element `e` of a run, exactly. -/
def elemExact (rd : Reader) (t : Tens) (int : Bool) (P : Int) (e : Nat) : Fl :=
  elemValue t.fmt (elemAt rd t P e) (if t.scale = 0 || int then none else some (elemScale rd t P e))

/-! ### A step (R349 to R351) -/

/-- The unmasked rows of a step: row within the block, and output row. -/
def stepRows (x : OpBits) (st : Nat) : List (Nat × Nat) :=
  ((List.range (ocTM x)).map fun i => (i, ocMi x st * ocTM x + i)).filter fun r => r.2 < ocMtot x

/-- The column blocks of a column group that have columns: place in the group, and block. -/
def groupBlocks (x : OpBits) (ni : Nat) : List (Nat × Nat) :=
  ((List.range (ocTNB x)).map fun b => (b, ni * ocTNB x + b)).filter fun b => 64 * b.2 < ocDN x

/-- Channels of column block `nb` of a DEPTHWISE card. -/
def dwChannels (x : OpBits) (nb : Nat) : Nat := min 64 (ocDN x - 64 * nb)

/-- Kernel positions. -/
def ocTaps (x : OpBits) : Nat := ocKH x * ocKW x

/-- What a step gathers of X. -/
def gatherRuns (x : OpBits) (st : Nat) : List Run :=
  let X := ocX x
  let int := ocInt x
  (stepRows x st).flatMap fun r =>
    if ocGemm x then elemRuns X int (X.base + r.2 * X.s1) 0 (ocDK x)
    else (List.range (ocTaps x)).flatMap fun t =>
      match tapRun x r.2 t with
      | none => []
      | some P =>
        if ocDw x then (groupBlocks x (ocNi x st)).flatMap fun b => elemRuns X int P (64 * b.2) (dwChannels x b.2)
        else elemRuns X int P 0 (ocDK x)

/-- ea(m, k) of R349. -/
def eaOf (x : OpBits) (rd : Reader) (m nb k : Nat) : Fl :=
  let X := ocX x
  if ocGemm x then elemExact rd X (ocInt x) (X.base + m * X.s1) k
  else
    let C := if ocDw x then 64 else ocDK x
    match tapRun x m (k / C) with
    | none => elemValue X.fmt (ocPadv x % 2 ^ fmtBits X.fmt) none
    | some P => elemExact rd X (ocInt x) P (if ocDw x then 64 * nb + k % 64 else k % C)

/-- The packing of the tiles in the weight window. -/
def tileSpace (x : OpBits) : Nat := if ocDw x then 2 else (ocWT x).pack

/-- One tile's products are added to a row (R61, R64, R351). -/
def addTile (x : OpBits) (ea : Nat → Fl) (tile : Nat) (ks : List Nat) (k0 : Nat) (r : AccRow) : AccRow :=
  let W := ocWT x
  let eb (k j : Nat) : Fl := tileValue tile (ocKT x) W.fmt (tileSpace x) W.scale (ocInt x) k j
  (List.range 64).foldl (fun r j =>
    if ocInt x then accAddInt j (ocSat x) (ks.map fun k => (ea (k0 + k)).toIntVal * (eb k j).toIntVal) r
    else accAdd j (ks.map fun k => ⟨ea (k0 + k), eb k j, false⟩) r) r

/-- A row of a step, from its start to its last tile: `tile` gives the tiles of its column block. -/
def stepRow (x : OpBits) (rd : Reader) (tile : Nat → Nat) (m nb : Nat) : AccRow :=
  (List.range (ocKTN x)).foldl (fun r kt =>
    let k0 := kt * ocKT x
    let ks := (List.range (ocKT x)).filter fun k => kAdds x nb (k0 + k)
    let r1 := if ocNorm x = 0 then r else xnormFit (ocNorm x) r
    addTile x (eaOf x rd m nb) (tile kt) ks k0 r1) (zeroRow (sx 32 (ocExp x)) {})

/-- The row of the window that holds row `i` of block `b` of a step (R350). -/
def stepRowAt (x : OpBits) (st b i : Nat) : Nat := ocRow0 x + st % 2 * (ocTM x * ocTNB x) + b * ocTM x + i

/-! ### Weights (R347, R349, R351) -/

/-- The tiles of a column group: place in the group, block and K tile. -/
def groupTiles (x : OpBits) (ni : Nat) : List (Nat × Nat × Nat) :=
  (groupBlocks x ni).flatMap fun b => (List.range (ocKTN x)).map fun kt => (b.1, b.2, kt)

/-- The runs that give the weights of a column group. -/
def weightRuns (x : OpBits) (ni : Nat) : List Run :=
  let W := ocWT x
  if ocDw x then
    (groupBlocks x ni).flatMap fun b => (List.range (ocTaps x)).flatMap fun t =>
      elemRuns W (ocInt x) (W.base + t * W.s1) (64 * b.2) (dwChannels x b.2)
  else (groupTiles x ni).map fun t => (tileAt x t.2.1 t.2.2, ocTile x t.2.1 t.2.2)

/-- The mask-packed tile that the walker builds for a DEPTHWISE card (R349), as a number. -/
def dwTile (x : OpBits) (rd : Reader) (nb kt : Nat) : Nat :=
  let W := ocWT x
  let KT := ocKT x
  let sc := tileScales KT W.scale
  let run (k : Nat) : Int := W.base + ((kt * KT + k) / 64 : Nat) * W.s1
  let set (k n : Nat) : Bool := (kt * KT + k) % 64 = n && kAdds x nb (kt * KT + k)
  let mask := (List.range 64).foldl (fun a n => a + maskOf KT (fun k => set k n) * 2 ^ (n * KT)) 0
  let codes := (List.range 64).flatMap fun n => ((List.range KT).filter fun k => set k n).map fun k =>
    elemAt rd W (run k) (64 * nb + n)
  let L := scaleLen W.scale
  let scale (n b : Nat) : Nat :=
    match (List.range L).find? fun i => set (b * L + i) n with
    | some i => elemScale rd W (run (b * L + i)) (64 * nb + n)
    | none => 0
  let scales := if W.scale = 0 || ocInt x then 0
    else packCodes 8 ((List.range 64).flatMap fun n => (List.range (KT / L)).map fun b => scale n b)
  scales + mask * 2 ^ (8 * sc) + packCodes (fmtBits W.fmt) codes * 2 ^ (8 * (sc + 8 * KT))

/-- Put a tile at a byte of a core's weight window. -/
def putTile (k at0 : Nat) (bytes : List Byte) (s : State) : State :=
  modCore s k fun C => { C with
    wb := memWrite C.wb at0 bytes
    wpois := (List.range (ceilDiv bytes.length 64)).foldl (fun m i => nset false m (at0 / 64 + i) false) C.wpois }

/-- Load the weights of a column group. -/
def loadWeights (k : Nat) (j : Job) (x : OpBits) (rd : Reader) (ni : Nat) (s : State) : State :=
  let w := (winOf s j.lk k).wb
  (groupTiles x ni).foldl (fun s t =>
    let n := ocTile x t.2.1 t.2.2
    let tile := if ocDw x then dwTile x rd t.2.1 t.2.2 else rd (tileAt x t.2.1 t.2.2) n
    putTile k (w + ocTileAt x ni t.1 t.2.2) (toBytes n tile) s) s

/-! ### Checkpoints (R355) -/

/-- A pre-emption is pending, and the card stands at a checkpoint (R355); after a rollback, once it has come again to
where it had stopped (R413). -/
def stopsHere (s : State) (k : Nat) (j : Job) : Bool :=
  atCheckpoint j && decide (j.redo ≤ j.pos) && match jobPart s k j with
    | some p => p.preempt
    | none => false

/-! ### TILE_STEP (R349 to R351) -/

/-- A read of the walker has not succeeded: it fails the card, or waits for replies. -/
def badGather (k : Nat) (j : Job) (g : Got) (a : Acc2) (s : State) : State :=
  match g with
  | .err e => failJob k j e s
  | .stall fs => modJob k j (fun x => { x.turnClock s.now with recs := fs.map (·.1) }) (jobRecords k j j.pos a fs s)
  | _ => s

/-- Granules of a core's weight bytes that a step reads and that an SRAM error has poisoned (R165, R356). -/
def spoiltWeights (k : Nat) (j : Job) (x : OpBits) (s : State) : List Nat :=
  ((groupTiles x (ocNi x j.pos)).flatMap fun t =>
    (List.range (ceilDiv (ocTile x t.2.1 t.2.2) 64)).map fun i =>
      ((winOf s j.lk k).wb + ocTileAt x (ocNi x j.pos) t.1 t.2.2) / 64 + i).dedup.filter fun g => nget false (core s k).wpois g

/-- The rows of a step are computed; the weight granules `lost` read as zeros. -/
def runRows (k : Nat) (j : Job) (x : OpBits) (rd : Reader) (lost : List Nat) (s : State) : State :=
  let w := winOf s j.lk k
  let st := j.pos
  let ni := ocNi x st
  let C := core s k
  let wb := lost.foldl (fun m g => memWrite m (64 * g) (List.replicate 64 0)) C.wb
  let tile (b kt : Nat) : Nat := memNum wb (w.wb + ocTileAt x ni b kt) (ocTile x (ni * ocTNB x + b) kt)
  let zero := (List.range (ocTM x * ocTNB x)).foldl (fun m i =>
    nset {} m (w.acc + stepRowAt x st 0 0 + i) (zeroRow (sx 32 (ocExp x)) {})) C.rows
  let rows := (groupBlocks x ni).foldl (fun m b => (stepRows x st).foldl (fun m r =>
    nset {} m (w.acc + stepRowAt x st b.1 r.1) (stepRow x rd (tile b.1) r.2 b.2)) m) zero
  modJob k j (fun y => { y with st := 1, stage := 1, resident := some ni })
    (modCore s k fun C => { C with rows := rows })

/-- A step runs once its inputs are gathered. -/
def runStep (k : Nat) (j : Job) (x : OpBits) (s : State) : State :=
  let ni := ocNi x j.pos
  let load := j.resident ≠ some ni
  let r := jobGather k j ((if load then weightRuns x ni else []) ++ gatherRuns x j.pos) s
  match r.1 with
  | .ok p z =>
    let rd : Reader := gotNum r.2 p z
    let s1 := if load then loadWeights k j x rd ni r.2 else r.2
    let lost := spoiltWeights k j x s1
    if !lost.isEmpty && !(launch s1 j.lk).cont then failJob k j 6 s1
    else runRows k j x rd lost (countFor j.lk (z.length + lost.length) s1)
  | g => badGather k j g .read r.2

/-- The walker reads a card that it has not read yet, or checks its masks. The boundary before step 0 is a checkpoint,
and each checkpoint a decision point (R355). -/
def readNext (k : Nat) (j : Job) (s : State) : State :=
  let r := match j.desc with
    | none => readCard k j s
    | some d => checkMasks k j d.toNat s
  if r.1.st = 3 then failJob k j r.1.err r.2
  else
    let s1 := modJob k j (fun _ => r.1) r.2
    if r.1.desc.isSome && !r.1.unchecked then dispatch s1 else s1

/-- TILE_STEP (R351): the walker of core `k` reads its card, or runs its next tile step. -/
def tileStep (k : Nat) (s : State) : State :=
  match nextJob s k with
  | none => s
  | some j =>
    if !j.recs.isEmpty || j.stage ≠ 0 || stopsHere s k j then s
    else match j.desc with
      | none => readNext k j s
      | some d => if j.unchecked then readNext k j s else runStep k j d.toNat s

/-! ### The epilogue (R352) -/

/-- The least of a value and a positive bound, for relu6. -/
def capAt (b : Fl) (v : Fl) : Fl := if fllt b v then b else v

/-- The activation. -/
def ocActivate (x : OpBits) (v : Fl) : Fl :=
  if v.isNan then v
  else match ocAct x with
    | 1 => if v.neg? then .zero false else v
    | 2 => capAt (.fin 6 0) (if v.neg? then .zero false else v)
    | 3 => if v.neg? then flscale v (-(ocActs x : Int)) else v
    | 4 => if v.neg? then v.negate else v
    | _ => v

/-- epilogue of R352 for element `j` of a row; `bias` is the bias word of its column. -/
def epilogue (x : OpBits) (r : AccRow) (j : Nat) (bias : Option Nat) : Fl :=
  let v : Fl :=
    if ocInt x then
      let m := sx 32 (nget 0 r.m j).toNat
      let t := match bias with
        | none => m
        | some b => if ocSat x then satS 32 (m + sx 32 b) else sx 32 (cut 32 (m + sx 32 b))
      if t = 0 then .zero false else .fin t 0
    else
      let u := rowValue false j r
      match bias with
      | none => u
      | some b => if u.isNan || (fdec .f32 b).isNanInf then .nan else fladd 0 u (fdec .f32 b)
  ocActivate x v

/-! ### TILE_STEP_END (R353, R355) -/

/-- The columns of a step. -/
def stepCols (x : OpBits) (st : Nat) : Nat × Nat :=
  let n0 := 64 * ocTNB x * ocNi x st
  (n0, min (ocDN x) (n0 + 64 * ocTNB x) - n0)

/-- The bias words that a step reads. -/
def biasRuns (x : OpBits) (st : Nat) : List Run :=
  let B := ocBias x
  if B.base = 0 then [] else [(cut 64 (B.base + 4 * (stepCols x st).1 : Nat), 4 * (stepCols x st).2)]

/-- What a step writes: address, bytes, and how many bits of the last byte belong to it, 0 for all. -/
def stepOutputs (x : OpBits) (w : Win) (rows : NMap AccRow) (rd : Reader) (st : Nat) : List (Nat × List Byte × Nat) :=
  let Y := ocY x
  let n0 := (stepCols x st).1
  let cnt := (stepCols x st).2
  let fw := fmtBits Y.fmt
  let bias (n : Nat) : Option Nat :=
    if (ocBias x).base = 0 then none else some (rd (cut 64 ((ocBias x).base + 4 * n : Nat)) 4)
  (stepRows x st).flatMap fun r =>
    let P := outRunAt x r.2
    let vals := (List.range cnt).map fun c =>
      epilogue x (nget {} rows (w.acc + stepRowAt x st (c / 64) r.1)) (c % 64) (bias (n0 + c))
    let out := packRun Y.fmt Y.scale vals
    let data := (cut 64 (P + (fw * n0 / 8 : Nat)), toBytes (ceilDiv (fw * cnt) 8) out.1, fw * cnt % 8)
    if Y.scale = 0 then [data] else [data, (cut 64 (scaleBase Y P + (n0 / scaleLen Y.scale : Nat)), out.2, 0)]

/-- Cut a run of outputs at the ends of sectors. -/
def cutSectors (tail : Nat) : Nat → Nat → List Byte → List (Nat × List Byte × Nat)
  | 0, _, _ => []
  | fuel + 1, va, bs =>
    let n := 64 - va % 64
    if bs.length ≤ n then (if bs.isEmpty then [] else [(va, bs, tail)])
    else (va, bs.take n, 0) :: cutSectors tail fuel ((va + n) % 2 ^ 64) (bs.drop n)

/-- The step's outputs are staged in the pair's open quantum; those of a page answered POISON are dropped, and a step of
which none is left stages an empty run, so that it counts at its seal like any other (R353). -/
def stageOutputs (k : Nat) (j : Job) (pages : NMap Nat) (outs : List (Nat × List Byte × Nat)) (s : State) : State :=
  let qn := (pair s (k / 2)).qn
  let l := launch s j.lk
  let pieces := (outs.flatMap fun o => cutSectors o.2.2 (o.2.1.length / 64 + 2) o.1 o.2.1).filter fun o =>
    (nfind pages (o.1 / 4096)).isSome
  let pieces := if pieces.isEmpty then [(0, [], 0)] else pieces
  let entry (o : (Nat × List Byte × Nat) × Nat) : HB :=
    { g := j.g, seq := qn, core := k, partid := l.partid, sealed := false, mt := pageMt pages o.1.1, num := s.nextId + o.2
      what := .output j.lk j.key j.pos o.1.1 (pageAt pages o.1.1) o.1.2.1 o.1.2.2 }
  modPair { s with nextId := s.nextId + pieces.length } (k / 2) fun P => { P with hb := P.hb ++ pieces.zipIdx.map entry }

/-- The rows of a step that its outputs come from and that an SRAM error has poisoned since (R190). -/
def spoiltRows (k : Nat) (j : Job) (x : OpBits) (s : State) : List Nat :=
  ((groupBlocks x (ocNi x j.pos)).flatMap fun b => (stepRows x j.pos).map fun r =>
    (winOf s j.lk k).acc + stepRowAt x j.pos b.1 r.1).filter fun i => (nget {} (core s k).rows i).pois

/-- They are rewritten clean, with NAN set, and counted. -/
def cleanStep (k : Nat) (j : Job) (spoilt : List Nat) (s : State) : State :=
  if spoilt.isEmpty then s
  else countFor j.lk spoilt.length (modCore s k fun C =>
    { C with rows := spoilt.foldl (fun m i => nset {} m i { (nget {} m i).flag true 128 with pois := false }) C.rows })

/-- The step ends once its output pages are translated; `n` bias sectors read as zeros. -/
def endStep (k : Nat) (j : Job) (x : OpBits) (rd : Reader) (n : Nat) (s0 : State) : State :=
  let spoilt := spoiltRows k j x s0
  if !spoilt.isEmpty && !(launch s0 j.lk).cont then failJob k j 6 s0
  else
  let s := cleanStep k j spoilt s0
  let outs := stepOutputs x (winOf s j.lk k) (core s k).rows rd j.pos
  let ps := (runPages (outs.map fun o => (o.1, o.2.1.length))).filter fun p => !j.bad.contains p.1
  let r := xlatePages k j.lk .write ps s
  if r.2.1.any fun f => f.2.2.1 = causeAsleep then r.2.2
  else if r.2.1.any fun f => f.2.2.1 = 8 then failJob k j 7 r.2.2
  else if !r.2.1.isEmpty then badGather k j (.stall r.2.1) .write r.2.2
  else
    let s1 := stageOutputs k j r.1 outs (countFor j.lk n r.2.2)
    let fresh (y : Job) : Job := if y.recs.isEmpty && !y.parked then { y with since := s.now } else y
    let s2 := modJob k j (fun y => { y with pos := y.pos + 1, stage := 0, bad := [] }) (modJobs k (List.map fresh) s1)
    if (j.pos + 1) % max 1 (ocCkpt x) = 0 || decide (ocSteps x ≤ j.pos + 1) then dispatch s2 else s2

/-- TILE_STEP_END (R353): the step in progress on core `k` ends; a card that XKILL has named ends instead, and the
step writes nothing (R189). -/
def tileStepEnd (k : Nat) (s : State) : State :=
  match (core s k).jobs.find? fun j => j.live && j.stage = 1 with
  | none => s
  | some j =>
    if j.killBy.isSome then
      dispatch (modJob k j (fun y => { y with st := 3, killed := true, stage := 0, recs := [] }) (handClock k j s))
    else if !j.recs.isEmpty || !jobRuns s k j then s
    else match j.desc with
      | none => s
      | some d =>
        let x := d.toNat
        let r := jobGather k j (biasRuns x j.pos) s
        match r.1 with
        | .ok p z => endStep k j x (gotNum r.2 p z) z.length r.2
        | g => badGather k j g .read r.2

/-! ### Outputs that have performed (R353, R354) -/

/-- The card after a step whose outputs have all performed: with its last step it is done, and a chain goes on to
its next card. -/
def stepDone (j : Job) : List Job :=
  let j1 := { j with steps := j.steps + 1 }
  match j.desc with
  | none => [j1]
  | some d =>
    let x := d.toNat
    if j.st ≠ 1 || j1.steps < ocSteps x || j.pos < ocSteps x then [j1]
    else if j.chain && !ocLast x then
      [{ id := j.id + 1, hcore := j.hcore, lk := j.lk, chain := true, g := j.g, seq := j.seq, addr := ocNext x,
         since := j.since }]
    else [{ j1 with st := 2 }]

/-- WALKER_OUTPUT_PERFORM (R353): entry `n` of a pair's buffers performs, and its step counts once no output of it
is left. -/
def outputPerform (pr n : Nat) (s : State) : State :=
  match (pair s pr).hb[n]? with
  | none => s
  | some h =>
    match h.what with
    | .output lk key step .. =>
      if !entryMay s pr n h then s
      else
        let s1 := performReady pr n h s
        let left := (pair s1 pr).hb.any fun e => match e.what with
          | .output l q t .. => l = lk && q = key && t = step
          | _ => false
        if left then s1
        else [2 * pr, 2 * pr + 1].foldl (fun s k =>
          modJobs k (fun js => js.flatMap fun j => if j.lk = lk && j.key = key then stepDone j else [j]) s) (decisionPoint s1)
    | _ => s

/-- WALKER_ABANDON_STEP (R355): CKPT × MAXSTEP core cycles, of half a nanosecond at most speed, have passed since
the decision without a checkpoint; the step in progress is abandoned, and the card parks at its start. -/
def abandonStep (k : Nat) (s : State) : State :=
  match (core s k).jobs.find? holdsWalker with
  | none => s
  | some j =>
    match j.desc, jobPart s k j with
    | some d, some p =>
      let x := d.toNat
      if p.preempt && p.capture = 0 && !atCheckpoint j &&
          decide (2 * p.askedAt + ocCkpt x * nbits x 63 32 ≤ 2 * s.now) then
        modJob k j (fun y => if y.killBy.isSome then { y with st := 3, killed := true, stage := 0, recs := [] }
          else { y.turnClock s.now with stage := 0, parked := true }) s
      else s
    | _, _ => s

/-! ### The events -/

/-- TILE_STEP (R351): core. -/
def execTileStep (k : Nat) (s : State) := event (tileStep k s)
/-- TILE_STEP_END (R353): core. -/
def execTileStepEnd (k : Nat) (s : State) := event (tileStepEnd k s)
/-- WALKER_OUTPUT_PERFORM (R353): pair and entry. -/
def execWalkerOutputPerform (pr n : Nat) (s : State) := event (outputPerform pr n s)
/-- WALKER_ABANDON_STEP (R355): core. -/
def execWalkerAbandonStep (k : Nat) (s : State) := event (abandonStep k s)

end Sys2Proof.Machine
end

