-- ==== Sys2Proof/Machine/Dispatch.lean ====
section
/-!
DEFINITION. Sys2Proof/Machine/Dispatch.lean: the meaning of every instruction and event, one arm for each.
-/
namespace Sys2Proof.Machine

def exec (i : Instr) (s : State) : Host.Outcome State Fault Refusal :=
  match i with
  | .nop e w => Sys2Proof.Machine.execNop e w s
  | .twait e w => Sys2Proof.Machine.execTwait e w s
  | .tsig e w => Sys2Proof.Machine.execTsig e w s
  | .sli w => Sys2Proof.Machine.execSli w s
  | .slih w => Sys2Proof.Machine.execSlih w s
  | .smov w => Sys2Proof.Machine.execSmov w s
  | .sadd w => Sys2Proof.Machine.execSadd w s
  | .saddX w => Sys2Proof.Machine.execSaddX w s
  | .ssub w => Sys2Proof.Machine.execSsub w s
  | .ssubX w => Sys2Proof.Machine.execSsubX w s
  | .smul w => Sys2Proof.Machine.execSmul w s
  | .smulX w => Sys2Proof.Machine.execSmulX w s
  | .smulh w => Sys2Proof.Machine.execSmulh w s
  | .smulhX w => Sys2Proof.Machine.execSmulhX w s
  | .sand w => Sys2Proof.Machine.execSand w s
  | .sandX w => Sys2Proof.Machine.execSandX w s
  | .sor w => Sys2Proof.Machine.execSor w s
  | .sorX w => Sys2Proof.Machine.execSorX w s
  | .sxor w => Sys2Proof.Machine.execSxor w s
  | .sxorX w => Sys2Proof.Machine.execSxorX w s
  | .sshl w => Sys2Proof.Machine.execSshl w s
  | .sshlX w => Sys2Proof.Machine.execSshlX w s
  | .sshr w => Sys2Proof.Machine.execSshr w s
  | .sshrX w => Sys2Proof.Machine.execSshrX w s
  | .ssra w => Sys2Proof.Machine.execSsra w s
  | .ssraX w => Sys2Proof.Machine.execSsraX w s
  | .smin w => Sys2Proof.Machine.execSmin w s
  | .sminX w => Sys2Proof.Machine.execSminX w s
  | .smax w => Sys2Proof.Machine.execSmax w s
  | .smaxX w => Sys2Proof.Machine.execSmaxX w s
  | .scmp w => Sys2Proof.Machine.execScmp w s
  | .ssel w => Sys2Proof.Machine.execSsel w s
  | .srd w => Sys2Proof.Machine.execSrd w s
  | .bra w => Sys2Proof.Machine.execBra w s
  | .brc w => Sys2Proof.Machine.execBrc w s
  | .brx w => Sys2Proof.Machine.execBrx w s
  | .call w => Sys2Proof.Machine.execCall w s
  | .ret w => Sys2Proof.Machine.execRet w s
  | .bdiv w => Sys2Proof.Machine.execBdiv w s
  | .mark w => Sys2Proof.Machine.execMark w s
  | .join w => Sys2Proof.Machine.execJoin w s
  | .loop w => Sys2Proof.Machine.execLoop w s
  | .endl w => Sys2Proof.Machine.execEndl w s
  | .exit w => Sys2Proof.Machine.execExit w s
  | .iadd w => Sys2Proof.Machine.execIadd w s
  | .iaddX w => Sys2Proof.Machine.execIaddX w s
  | .isub w => Sys2Proof.Machine.execIsub w s
  | .isubX w => Sys2Proof.Machine.execIsubX w s
  | .imul w => Sys2Proof.Machine.execImul w s
  | .imulX w => Sys2Proof.Machine.execImulX w s
  | .imulh w => Sys2Proof.Machine.execImulh w s
  | .imulhX w => Sys2Proof.Machine.execImulhX w s
  | .imad w => Sys2Proof.Machine.execImad w s
  | .iand w => Sys2Proof.Machine.execIand w s
  | .iandX w => Sys2Proof.Machine.execIandX w s
  | .ior w => Sys2Proof.Machine.execIor w s
  | .iorX w => Sys2Proof.Machine.execIorX w s
  | .ixor w => Sys2Proof.Machine.execIxor w s
  | .ixorX w => Sys2Proof.Machine.execIxorX w s
  | .ishl w => Sys2Proof.Machine.execIshl w s
  | .ishlX w => Sys2Proof.Machine.execIshlX w s
  | .ishr w => Sys2Proof.Machine.execIshr w s
  | .ishrX w => Sys2Proof.Machine.execIshrX w s
  | .isra w => Sys2Proof.Machine.execIsra w s
  | .israX w => Sys2Proof.Machine.execIsraX w s
  | .imin w => Sys2Proof.Machine.execImin w s
  | .iminX w => Sys2Proof.Machine.execIminX w s
  | .imax w => Sys2Proof.Machine.execImax w s
  | .imaxX w => Sys2Proof.Machine.execImaxX w s
  | .iabs w => Sys2Proof.Machine.execIabs w s
  | .iabsX w => Sys2Proof.Machine.execIabsX w s
  | .iclz w => Sys2Proof.Machine.execIclz w s
  | .iclzX w => Sys2Proof.Machine.execIclzX w s
  | .ipopc w => Sys2Proof.Machine.execIpopc w s
  | .ipopcX w => Sys2Proof.Machine.execIpopcX w s
  | .ibrev w => Sys2Proof.Machine.execIbrev w s
  | .ibrevX w => Sys2Proof.Machine.execIbrevX w s
  | .ibfx w => Sys2Proof.Machine.execIbfx w s
  | .ibfi w => Sys2Proof.Machine.execIbfi w s
  | .isel w => Sys2Proof.Machine.execIsel w s
  | .imov w => Sys2Proof.Machine.execImov w s
  | .imovX w => Sys2Proof.Machine.execImovX w s
  | .imovi w => Sys2Proof.Machine.execImovi w s
  | .icmp w => Sys2Proof.Machine.execIcmp w s
  | .fadd w => Sys2Proof.Machine.execFadd w s
  | .faddX w => Sys2Proof.Machine.execFaddX w s
  | .fsub w => Sys2Proof.Machine.execFsub w s
  | .fsubX w => Sys2Proof.Machine.execFsubX w s
  | .fmul w => Sys2Proof.Machine.execFmul w s
  | .fmulX w => Sys2Proof.Machine.execFmulX w s
  | .ffma w => Sys2Proof.Machine.execFfma w s
  | .fmin w => Sys2Proof.Machine.execFmin w s
  | .fminX w => Sys2Proof.Machine.execFminX w s
  | .fmax w => Sys2Proof.Machine.execFmax w s
  | .fmaxX w => Sys2Proof.Machine.execFmaxX w s
  | .fcmp w => Sys2Proof.Machine.execFcmp w s
  | .fclass w => Sys2Proof.Machine.execFclass w s
  | .fclassX w => Sys2Proof.Machine.execFclassX w s
  | .frcp w => Sys2Proof.Machine.execFrcp w s
  | .frcpX w => Sys2Proof.Machine.execFrcpX w s
  | .frsq w => Sys2Proof.Machine.execFrsq w s
  | .frsqX w => Sys2Proof.Machine.execFrsqX w s
  | .fsqrt w => Sys2Proof.Machine.execFsqrt w s
  | .fsqrtX w => Sys2Proof.Machine.execFsqrtX w s
  | .fdiv w => Sys2Proof.Machine.execFdiv w s
  | .fdivX w => Sys2Proof.Machine.execFdivX w s
  | .fex2 w => Sys2Proof.Machine.execFex2 w s
  | .fex2X w => Sys2Proof.Machine.execFex2X w s
  | .flg2 w => Sys2Proof.Machine.execFlg2 w s
  | .flg2X w => Sys2Proof.Machine.execFlg2X w s
  | .fscale w => Sys2Proof.Machine.execFscale w s
  | .fscaleX w => Sys2Proof.Machine.execFscaleX w s
  | .cvt w => Sys2Proof.Machine.execCvt w s
  | .quant w => Sys2Proof.Machine.execQuant w s
  | .dqnt w => Sys2Proof.Machine.execDqnt w s
  | .skey w => Sys2Proof.Machine.execSkey w s
  | .skeyX w => Sys2Proof.Machine.execSkeyX w s
  | .lshuf w => Sys2Proof.Machine.execLshuf w s
  | .lshufX w => Sys2Proof.Machine.execLshufX w s
  | .lbcast w => Sys2Proof.Machine.execLbcast w s
  | .lbcastX w => Sys2Proof.Machine.execLbcastX w s
  | .lvote w => Sys2Proof.Machine.execLvote w s
  | .lvoteX w => Sys2Proof.Machine.execLvoteX w s
  | .lread w => Sys2Proof.Machine.execLread w s
  | .lwrite w => Sys2Proof.Machine.execLwrite w s
  | .gred w => Sys2Proof.Machine.execGred w s
  | .gscan w => Sys2Proof.Machine.execGscan w s
  | .pand w => Sys2Proof.Machine.execPand w s
  | .pandX w => Sys2Proof.Machine.execPandX w s
  | .por w => Sys2Proof.Machine.execPor w s
  | .porX w => Sys2Proof.Machine.execPorX w s
  | .pxor w => Sys2Proof.Machine.execPxor w s
  | .pxorX w => Sys2Proof.Machine.execPxorX w s
  | .pset w => Sys2Proof.Machine.execPset w s
  | .pget w => Sys2Proof.Machine.execPget w s
  | .pgetX w => Sys2Proof.Machine.execPgetX w s
  | .vrot w => Sys2Proof.Machine.execVrot w s
  | .ld w => Sys2Proof.Machine.execLd w s
  | .st w => Sys2Proof.Machine.execSt w s
  | .ldl w => Sys2Proof.Machine.execLdl w s
  | .stl w => Sys2Proof.Machine.execStl w s
  | .lds w => Sys2Proof.Machine.execLds w s
  | .sts w => Sys2Proof.Machine.execSts w s
  | .atom w => Sys2Proof.Machine.execAtom w s
  | .atoml w => Sys2Proof.Machine.execAtoml w s
  | .fence w => Sys2Proof.Machine.execFence w s
  | .pfetch w => Sys2Proof.Machine.execPfetch w s
  | .cwb w => Sys2Proof.Machine.execCwb w s
  | .cinv w => Sys2Proof.Machine.execCinv w s
  | .stmap w => Sys2Proof.Machine.execStmap w s
  | .stunmap w => Sys2Proof.Machine.execStunmap w s
  | .stsync w => Sys2Proof.Machine.execStsync w s
  | .ptst w => Sys2Proof.Machine.execPtst w s
  | .xstrm w => Sys2Proof.Machine.execXstrm w s
  | .xstrmGet w => Sys2Proof.Machine.execXstrmGet w s
  | .xmma w => Sys2Proof.Machine.execXmma w s
  | .xmmac w => Sys2Proof.Machine.execXmmac w s
  | .ximma w => Sys2Proof.Machine.execXimma w s
  | .xzero w => Sys2Proof.Machine.execXzero w s
  | .xexp w => Sys2Proof.Machine.execXexp w s
  | .xnorm w => Sys2Proof.Machine.execXnorm w s
  | .xgrd w => Sys2Proof.Machine.execXgrd w s
  | .xrd w => Sys2Proof.Machine.execXrd w s
  | .xwr w => Sys2Proof.Machine.execXwr w s
  | .xflush w => Sys2Proof.Machine.execXflush w s
  | .xrun w => Sys2Proof.Machine.execXrun w s
  | .xpoll w => Sys2Proof.Machine.execXpoll w s
  | .xkill w => Sys2Proof.Machine.execXkill w s
  | .cpy w => Sys2Proof.Machine.execCpy w s
  | .cpyt w => Sys2Proof.Machine.execCpyt w s
  | .cpynd w => Sys2Proof.Machine.execCpynd w s
  | .cpyg w => Sys2Proof.Machine.execCpyg w s
  | .cpys w => Sys2Proof.Machine.execCpys w s
  | .cpyw w => Sys2Proof.Machine.execCpyw w s
  | .rinit w => Sys2Proof.Machine.execRinit w s
  | .rwait w => Sys2Proof.Machine.execRwait w s
  | .rrel w => Sys2Proof.Machine.execRrel w s
  | .rpost w => Sys2Proof.Machine.execRpost w s
  | .rtail w => Sys2Proof.Machine.execRtail w s
  | .cqry w => Sys2Proof.Machine.execCqry w s
  | .bar w => Sys2Proof.Machine.execBar w s
  | .barX w => Sys2Proof.Machine.execBarX w s
  | .bara w => Sys2Proof.Machine.execBara w s
  | .baraX w => Sys2Proof.Machine.execBaraX w s
  | .barw w => Sys2Proof.Machine.execBarw w s
  | .barwX w => Sys2Proof.Machine.execBarwX w s
  | .bard w => Sys2Proof.Machine.execBard w s
  | .bardX w => Sys2Proof.Machine.execBardX w s
  | .tbinit w => Sys2Proof.Machine.execTbinit w s
  | .tbexp w => Sys2Proof.Machine.execTbexp w s
  | .tbarr w => Sys2Proof.Machine.execTbarr w s
  | .tbwait w => Sys2Proof.Machine.execTbwait w s
  | .give w => Sys2Proof.Machine.execGive w s
  | .giveX w => Sys2Proof.Machine.execGiveX w s
  | .claim w => Sys2Proof.Machine.execClaim w s
  | .claimX w => Sys2Proof.Machine.execClaimX w s
  | .qend w => Sys2Proof.Machine.execQend w s
  | .qseal w => Sys2Proof.Machine.execQseal w s
  | .twtime w => Sys2Proof.Machine.execTwtime w s
  | .yield w => Sys2Proof.Machine.execYield w s
  | .rotcfg w => Sys2Proof.Machine.execRotcfg w s
  | .psh w => Sys2Proof.Machine.execPsh w s
  | .pop w => Sys2Proof.Machine.execPop w s
  | .pstat w => Sys2Proof.Machine.execPstat w s
  | .lsnd w => Sys2Proof.Machine.execLsnd w s
  | .lrcv w => Sys2Proof.Machine.execLrcv w s
  | .lradd w => Sys2Proof.Machine.execLradd w s
  | .trins w => Sys2Proof.Machine.execTrins w s
  | .trdrw w => Sys2Proof.Machine.execTrdrw w s
  | .trupd w => Sys2Proof.Machine.execTrupd w s
  | .trtot w => Sys2Proof.Machine.execTrtot w s
  | .trwgt w => Sys2Proof.Machine.execTrwgt w s
  | .trcfg w => Sys2Proof.Machine.execTrcfg w s
  | .trap w => Sys2Proof.Machine.execTrap w s
  | .hret w => Sys2Proof.Machine.execHret w s
  | .sysrd w => Sys2Proof.Machine.execSysrd w s
  | .syswr w => Sys2Proof.Machine.execSyswr w s
  | .wake w => Sys2Proof.Machine.execWake w s
  | .gate w => Sys2Proof.Machine.execGate w s
  | .halt w => Sys2Proof.Machine.execHalt w s
  | .bkpt w => Sys2Proof.Machine.execBkpt w s
  | .jobarm w => Sys2Proof.Machine.execJobarm w s
  | .jobdone w => Sys2Proof.Machine.execJobdone w s
  | .jobyld w => Sys2Proof.Machine.execJobyld w s
  | .susp w => Sys2Proof.Machine.execSusp w s
  | .fltrply w => Sys2Proof.Machine.execFltrply w s
  | .trapDeliveryHandler x0 => Sys2Proof.Machine.execTrapDeliveryHandler x0 s
  | .trapDeliveryHost x0 => Sys2Proof.Machine.execTrapDeliveryHost x0 s
  | .claimDeadlock x0 => Sys2Proof.Machine.execClaimDeadlock x0 s
  | .loadSectorReturn x0 x1 x2 => Sys2Proof.Machine.execLoadSectorReturn x0 x1 x2 s
  | .tableWalkComplete x0 x1 x2 => Sys2Proof.Machine.execTableWalkComplete x0 x1 x2 s
  | .faultRecordWrite x0 => Sys2Proof.Machine.execFaultRecordWrite x0 s
  | .dutyRecordWrite x0 => Sys2Proof.Machine.execDutyRecordWrite x0 s
  | .quantumTimedClose x0 => Sys2Proof.Machine.execQuantumTimedClose x0 s
  | .quantumWordCountClose x0 => Sys2Proof.Machine.execQuantumWordCountClose x0 s
  | .quantumCapacityClose x0 => Sys2Proof.Machine.execQuantumCapacityClose x0 s
  | .detQuantumClose x0 => Sys2Proof.Machine.execDetQuantumClose x0 s
  | .quantumSeal x0 x1 => Sys2Proof.Machine.execQuantumSeal x0 x1 s
  | .holdbackDrain x0 x1 x2 => Sys2Proof.Machine.execHoldbackDrain x0 x1 x2 s
  | .atomPerform x0 x1 => Sys2Proof.Machine.execAtomPerform x0 x1 s
  | .clusterTbPerform x0 x1 => Sys2Proof.Machine.execClusterTbPerform x0 x1 s
  | .deviceAccessPerform x0 x1 => Sys2Proof.Machine.execDeviceAccessPerform x0 x1 s
  | .systemWordPerform x0 x1 => Sys2Proof.Machine.execSystemWordPerform x0 x1 s
  | .jobarmPerform x0 x1 => Sys2Proof.Machine.execJobarmPerform x0 x1 s
  | .epochCommit x0 => Sys2Proof.Machine.execEpochCommit x0 s
  | .waveStart x0 => Sys2Proof.Machine.execWaveStart x0 s
  | .launchComplete x0 => Sys2Proof.Machine.execLaunchComplete x0 s
  | .copyWriteStart x0 x1 x2 => Sys2Proof.Machine.execCopyWriteStart x0 x1 x2 s
  | .cpytRelease x0 x1 => Sys2Proof.Machine.execCpytRelease x0 x1 s
  | .copyComplete x0 x1 => Sys2Proof.Machine.execCopyComplete x0 x1 s
  | .ringTailObserved x0 x1 => Sys2Proof.Machine.execRingTailObserved x0 x1 s
  | .ringPullComplete x0 x1 => Sys2Proof.Machine.execRingPullComplete x0 x1 s
  | .portEntryDeliver x0 x1 x2 x3 => Sys2Proof.Machine.execPortEntryDeliver x0 x1 x2 x3 s
  | .lsndSend x0 => Sys2Proof.Machine.execLsndSend x0 s
  | .linkMessageArrive x0 x1 x2 x3 x4 x5 x6 => Sys2Proof.Machine.execLinkMessageArrive x0 x1 x2 x3 x4 x5 x6 s
  | .krypinRemoteRequest x0 x1 x2 x3 x4 x5 x6 x7 => Sys2Proof.Machine.execKrypinRemoteRequest x0 x1 x2 x3 x4 x5 x6 x7 s
  | .flitReceive x0 x1 x2 => Sys2Proof.Machine.execFlitReceive x0 x1 x2 s
  | .linkDown x0 => Sys2Proof.Machine.execLinkDown x0 s
  | .lkctlRetrain x0 => Sys2Proof.Machine.execLkctlRetrain x0 s
  | .linkTimeExchange x0 x1 x2 x3 x4 => Sys2Proof.Machine.execLinkTimeExchange x0 x1 x2 x3 x4 s
  | .ptpMessage x0 x1 x2 x3 x4 x5 => Sys2Proof.Machine.execPtpMessage x0 x1 x2 x3 x4 x5 s
  | .timeSyncInterval x0 => Sys2Proof.Machine.execTimeSyncInterval x0 s
  | .tset x0 => Sys2Proof.Machine.execTset x0 s
  | .cardRelease x0 => Sys2Proof.Machine.execCardRelease x0 s
  | .preemptCapture x0 x1 => Sys2Proof.Machine.execPreemptCapture x0 x1 s
  | .detWavePreempt x0 => Sys2Proof.Machine.execDetWavePreempt x0 s
  | .contextImageWrite x0 x1 => Sys2Proof.Machine.execContextImageWrite x0 x1 s
  | .contextFree x0 x1 => Sys2Proof.Machine.execContextFree x0 x1 s
  | .killComplete x0 => Sys2Proof.Machine.execKillComplete x0 s
  | .deadlineMiss x0 => Sys2Proof.Machine.execDeadlineMiss x0 s
  | .execBudgetOverrun x0 => Sys2Proof.Machine.execExecBudgetOverrun x0 s
  | .bwBudgetOverrun x0 => Sys2Proof.Machine.execBwBudgetOverrun x0 s
  | .regulatorWindow => Sys2Proof.Machine.execRegulatorWindow s
  | .regulatorRequest x0 x1 x2 x3 x4 x5 => Sys2Proof.Machine.execRegulatorRequest x0 x1 x2 x3 x4 x5 s
  | .patrolScrub x0 x1 => Sys2Proof.Machine.execPatrolScrub x0 x1 s
  | .unmappedAccess x0 x1 => Sys2Proof.Machine.execUnmappedAccess x0 x1 s
  | .strikeReport x0 x1 x2 x3 => Sys2Proof.Machine.execStrikeReport x0 x1 x2 x3 s
  | .rollbackResume x0 => Sys2Proof.Machine.execRollbackResume x0 s
  | .scanDue => Sys2Proof.Machine.execScanDue s
  | .scanForceDrain x0 => Sys2Proof.Machine.execScanForceDrain x0 s
  | .scanComplete x0 x1 x2 x3 x4 => Sys2Proof.Machine.execScanComplete x0 x1 x2 x3 x4 s
  | .scannow x0 => Sys2Proof.Machine.execScannow x0 s
  | .redundantCompare x0 => Sys2Proof.Machine.execRedundantCompare x0 s
  | .tileStep x0 => Sys2Proof.Machine.execTileStep x0 s
  | .tileStepEnd x0 => Sys2Proof.Machine.execTileStepEnd x0 s
  | .walkerOutputPerform x0 x1 => Sys2Proof.Machine.execWalkerOutputPerform x0 x1 s
  | .walkerAbandonStep x0 => Sys2Proof.Machine.execWalkerAbandonStep x0 s
  | .treeBaseWrite x0 x1 => Sys2Proof.Machine.execTreeBaseWrite x0 x1 s
  | .treeLevelsWrite x0 x1 => Sys2Proof.Machine.execTreeLevelsWrite x0 x1 s
  | .treeBetaWrite x0 x1 => Sys2Proof.Machine.execTreeBetaWrite x0 x1 s
  | .treeNsizeWrite x0 x1 => Sys2Proof.Machine.execTreeNsizeWrite x0 x1 s
  | .treeSeedWrite x0 x1 => Sys2Proof.Machine.execTreeSeedWrite x0 x1 s
  | .sumtreeCommandPerform x0 x1 => Sys2Proof.Machine.execSumtreeCommandPerform x0 x1 s
  | .treeClearComplete x0 => Sys2Proof.Machine.execTreeClearComplete x0 s
  | .arm x0 => Sys2Proof.Machine.execArm x0 s
  | .armTimed x0 => Sys2Proof.Machine.execArmTimed x0 s
  | .parm x0 x1 => Sys2Proof.Machine.execParm x0 x1 s
  | .disarm x0 => Sys2Proof.Machine.execDisarm x0 s
  | .dctlEnable => Sys2Proof.Machine.execDctlEnable s
  | .dctlDisable => Sys2Proof.Machine.execDctlDisable s
  | .dutyReplyAdmit x0 => Sys2Proof.Machine.execDutyReplyAdmit x0 s
  | .dutyReplyReject x0 => Sys2Proof.Machine.execDutyReplyReject x0 s
  | .dutyReplyPlace x0 x1 => Sys2Proof.Machine.execDutyReplyPlace x0 x1 s
  | .dutyReplyDefer x0 => Sys2Proof.Machine.execDutyReplyDefer x0 s
  | .dutyReplyReplay x0 => Sys2Proof.Machine.execDutyReplyReplay x0 s
  | .dutyReplyAbandon x0 => Sys2Proof.Machine.execDutyReplyAbandon x0 s
  | .dutyReplyGrantScan x0 => Sys2Proof.Machine.execDutyReplyGrantScan x0 s
  | .dutyReplyPostponeScan x0 => Sys2Proof.Machine.execDutyReplyPostponeScan x0 s
  | .dutyReplyRouteTable x0 x1 => Sys2Proof.Machine.execDutyReplyRouteTable x0 x1 s
  | .dutyReplyTimeCorrection x0 x1 => Sys2Proof.Machine.execDutyReplyTimeCorrection x0 x1 s
  | .frreplyRetry x0 => Sys2Proof.Machine.execFrreplyRetry x0 s
  | .frreplyPoison x0 => Sys2Proof.Machine.execFrreplyPoison x0 s
  | .frreplyFail x0 => Sys2Proof.Machine.execFrreplyFail x0 s
  | .tlbinvPage x0 x1 => Sys2Proof.Machine.execTlbinvPage x0 x1 s
  | .tlbinvContext x0 x1 => Sys2Proof.Machine.execTlbinvContext x0 x1 s
  | .tlbinvIpa x0 x1 => Sys2Proof.Machine.execTlbinvIpa x0 x1 s
  | .tlbinvComplete => Sys2Proof.Machine.execTlbinvComplete s
  | .histatClear x0 => Sys2Proof.Machine.execHistatClear x0 s
  | .hienWrite x0 => Sys2Proof.Machine.execHienWrite x0 s
  | .frameStart x0 x1 => Sys2Proof.Machine.execFrameStart x0 x1 s
  | .frameLine x0 x1 x2 x3 x4 x5 => Sys2Proof.Machine.execFrameLine x0 x1 x2 x3 x4 x5 s
  | .frameEnd x0 x1 => Sys2Proof.Machine.execFrameEnd x0 x1 s
  | .ethTx x0 x1 => Sys2Proof.Machine.execEthTx x0 x1 s
  | .ethRxFrame x0 x1 x2 => Sys2Proof.Machine.execEthRxFrame x0 x1 x2 s
  | .pcieInboundRequest x0 x1 x2 x3 x4 x5 x6 x7 x8 x9 => Sys2Proof.Machine.execPcieInboundRequest x0 x1 x2 x3 x4 x5 x6 x7 x8 x9 s
  | .registerWrite x0 x1 x2 => Sys2Proof.Machine.execRegisterWrite x0 x1 x2 s
  | .coreEnterGating x0 => Sys2Proof.Machine.execCoreEnterGating x0 s
  | .coreWakeComplete x0 => Sys2Proof.Machine.execCoreWakeComplete x0 s
  | .wakeset x0 x1 => Sys2Proof.Machine.execWakeset x0 x1 s
  | .suspctlGo x0 => Sys2Proof.Machine.execSuspctlGo x0 s
  | .suspendPowerDown => Sys2Proof.Machine.execSuspendPowerDown s
  | .resume x0 => Sys2Proof.Machine.execResume x0 s
  | .resumeAlarm => Sys2Proof.Machine.execResumeAlarm s
  | .powerOn => Sys2Proof.Machine.execPowerOn s
  | .bootStage x0 x1 x2 x3 => Sys2Proof.Machine.execBootStage x0 x1 x2 x3 s
  | .islandLockstepReset => Sys2Proof.Machine.execIslandLockstepReset s
  | .mbAttest => Sys2Proof.Machine.execMbAttest s
  | .mbRestart => Sys2Proof.Machine.execMbRestart s
  | .mbCommitsv => Sys2Proof.Machine.execMbCommitsv s
  | .mbInvalid => Sys2Proof.Machine.execMbInvalid s
  | .coreStallTimeout x0 => Sys2Proof.Machine.execCoreStallTimeout x0 s
  | .walkerStallTimeout x0 => Sys2Proof.Machine.execWalkerStallTimeout x0 s
  | .ingestFrameTimeout x0 => Sys2Proof.Machine.execIngestFrameTimeout x0 s
  | .heartbeatTimeout => Sys2Proof.Machine.execHeartbeatTimeout s
  | .hbap => Sys2Proof.Machine.execHbap s
  | .thermalThrottle x0 => Sys2Proof.Machine.execThermalThrottle x0 s
  | .thermalShutdown => Sys2Proof.Machine.execThermalShutdown s
  | .thermalRelease x0 => Sys2Proof.Machine.execThermalRelease x0 s
  | .linkUp x0 x1 x2 => Sys2Proof.Machine.execLinkUp x0 x1 x2 s
  | .sensorEvent => Sys2Proof.Machine.execSensorEvent s
  | .twtimeTargetReached x0 => Sys2Proof.Machine.execTwtimeTargetReached x0 s
  | .copySourceReadDone x0 x1 => Sys2Proof.Machine.execCopySourceReadDone x0 x1 s
  | .restoreComplete x0 x1 => Sys2Proof.Machine.execRestoreComplete x0 x1 s
  | .applicationProcessorAccess x0 x1 x2 x3 x4 x5 x6 x7 => Sys2Proof.Machine.execApplicationProcessorAccess x0 x1 x2 x3 x4 x5 x6 x7 s

end Sys2Proof.Machine
end

