-- ==== Sys2Proof/Machine/Run.lean ====
section
/-!
DEFINITION. Sys2Proof/Machine/Run.lean: what one step of the machine does: the next move of the script, or else
whatever move comes next, by a free value; and the state in which a given instruction word is fetched next.
-/
namespace Sys2Proof.Config

/-- Which move a step makes when no script says so, by the number of the step: any input of the outside world,
any event of the machine, any group's next word, or time that passes. -/
opaque freeMove : Nat → Sys2Proof.Machine.Move

end Sys2Proof.Config

namespace Sys2Proof.Machine

/-- A constructor of `Instr` that is a machine event, not an instruction word. -/
def isEvent (i : Instr) : Bool := i.row.isNone

/-! ### Time (R8, R34, R315, R316, R377) -/

/-- Deadlines that time has gone past without a miss being raised, in their order. -/
def passedMisses (s : State) : List (Nat × Nat × Bool) :=
  (((s.runs.map (·.1)).flatMap (dueMisses s)).filter fun x => decide (x.1 < s.now) && !missWaits s x.1).foldr insertMiss []

/-- Each is raised at once, with the deadline as its time (R315). -/
def raisePassed (s : State) : State :=
  (passedMisses s).foldl (fun s x => if (dueMisses s x.2.1).contains x then raiseDue x x.1 s else s) s

/-- Before time passes, what has been used and what is complete is noted with the time at which it was so. -/
def noteTime (s : State) : State := (s.groups.map (·.1)).foldl (fun s g => markComplete g s) (accrueAll s)

/-- Local time passes, in ns: global time runs at the rate that TRATE corrects, and slews an offset out by at most
200 ppm; it never steps back (R8, R377, R378). -/
def runClock (ns : Nat) (s : State) : State :=
  let d : Int := (min (ns * 200000) s.slew.natAbs : Nat)
  let d := if s.slew < 0 then -d else d
  let x := ((ns * 1000000000 + s.timeFrac : Nat) + ns * sx 64 (reg s rTRate) + d : Int).toNat
  { s with now := s.now + x / 1000000000, timeFrac := x % 1000000000, slew := s.slew - d }

/-- Time passes. -/
def passTime (ns : Nat) (s : State) : State := raisePassed (runClock ns (noteTime s))

/-! ### Moves -/

/-- The word at the head of a group's queue tries to start (R76, R77). -/
def runHead (g q : Nat) (s : State) : Host.Outcome State Fault Refusal :=
  match queueOf (grp s g) q with
  | [] => .next s
  | w :: _ => exec w.instr { s with cur := some ⟨g, true, w⟩ }

/-- A slot's next word is fetched, and is placed or starts (R76). -/
def runFetch (g slot : Nat) (s : State) : Host.Outcome State Fault Refusal :=
  match fetchSlot g slot s with
  | .run i c t => exec i { t with cur := some c }
  | .idle t => .next t

/-- An uncorrectable SRAM error poisons an accumulator row of a core (R190). -/
def spoilRow (k n : Nat) (s : State) : State :=
  if n < rowsOf k then modCore s k fun C => { C with rows := nput C.rows n { nget {} C.rows n with pois := true } } else s

/-- One poisons a granule of a team's local memory (R165). -/
def spoilLocal (tk half gran : Nat) (s : State) : State :=
  if (nfind s.teams tk).isNone || (launch s (lkOfT tk)).localBytes ≤ 64 * gran then s
  else modTeam s tk fun T =>
    if half = 0 then { T with pois0 := nput T.pois0 gran true } else { T with pois1 := nput T.pois1 gran true }

/-- One poisons a granule of a core's weight bytes. -/
def spoilWeights (k gran : Nat) (s : State) : State :=
  if 64 * gran < wbOf k then modCore s k fun C => { C with wpois := nput C.wpois gran true } else s

/-- A row or granule that gives an uncorrectable error is mapped to a spare at the core's next drain (R339). -/
def noteFaulty (k : Nat) (s : State) : State := modCore s k fun C => { C with faulty := C.faulty + 1 }

/-- Device d's own agents write bytes of one sector of its window (R373). -/
def farWrite (pa : Nat) (bytes : List Byte) (s : State) : State :=
  match paKind s pa with
  | .remote _ =>
    if 64 < pa % 64 + bytes.length then s else { unfill (pa / 64) s with mem := memWrite s.mem pa bytes }
  | _ => s

/-- A link that is up loses its lanes, and begins to retrain (R374). -/
def linkFails (n : Nat) (s : State) : State :=
  if linkUp s n && decide (n < 4) && (nfind s.retrain n).isNone then startTraining n s else s

/-- A core's next clock cycle begins: its schedulers may issue again (R314). -/
def nextCycle (k : Nat) (s : State) : State := modCore s k fun C => { C with cycle := C.cycle + 1, issued := 0 }

/-- An event happens; one whose accesses meet DRAM asleep waits as a whole (R397). -/
def runEvent (i : Instr) (s : State) : Host.Outcome State Fault Refusal :=
  match exec i (unblocked s) with
  | .next t => .next (orAsleep s t)
  | o => o

/-- Carry out a move: an event whose time has not come leaves the state as it is. -/
def runMove (m : Move) (s : State) : Host.Outcome State Fault Refusal :=
  match m with
  | .event i => if isEvent i then runEvent i s else .next s
  | .fetch g slot => runFetch g slot s
  | .head g q => runHead g q s
  | .pass ns => .next (passTime ns s)
  | .evictL2 line => .next (evictLine line s)
  | .evictL1 k sec => .next (modCore s k fun C => { C with l1c := ndel C.l1c sec })
  | .evictTlb n => .next { s with tlb := s.tlb.eraseIdx n }
  | .farWrite pa bytes => .next (farWrite pa bytes s)
  | .linkFails n => .next (linkFails n s)
  | .spoilEntry pr n => .next (spoilEntry pr n s)
  | .cycle k => .next (nextCycle k s)
  | .poisonRow k n => .next (noteFaulty k (spoilRow k n s))
  | .poisonLocal tk half gran => .next (noteFaulty ((team s tk).core + half) (spoilLocal tk half gran s))
  | .poisonWeights k gran => .next (noteFaulty k (spoilWeights k gran s))

/-! ### The issue schedulers (R314) -/

/-- The resident groups of a core in placement order. -/
def placedOn (s : State) (k : Nat) : List Nat :=
  let gs := (s.groups.filter fun x => !x.2.parked && coreOf s x.1 = k).map (·.1)
  let before (a b : Nat) : Bool :=
    decide ((team s (tkOf a)).order < (team s (tkOf b)).order) ||
      ((team s (tkOf a)).order = (team s (tkOf b)).order && decide (a < b))
  gs.foldr (fun g xs => xs.takeWhile (fun x => before x g) ++ g :: xs.dropWhile (fun x => before x g)) []

/-- The groups of a core's scheduler `r`, with their positions among the core's groups. -/
def schedGroups (s : State) (k r : Nat) : List (Nat × Nat) :=
  (((placedOn s k).zipIdx).filter fun x => x.2 % 4 = r).map fun x => (x.2, x.1)

/-- The word at the head of a group's queue issues: trying it changes more than its wait cause. -/
def headIssues (s : State) (g q : Nat) : Bool :=
  match queueOf (grp s g) q with
  | [] => false
  | w :: _ =>
    match runHead g q s with
    | .next t => (grp t g).raised.isSome ||
        (queueOf (grp t g) q).head?.map (fun x => { x with cause := 0 }) ≠ some { w with cause := 0 }
    | _ => false

/-- The queues of a group whose heads can issue, with the heads' sequence numbers. -/
def readyHeads (s : State) (g : Nat) : List (Nat × Nat) :=
  (List.range 8).filterMap fun q => match queueOf (grp s g) q with
    | w :: _ => if headIssues s g q then some (w.seq, q) else none
    | [] => none

/-- The word that a fetch gives issues at once. -/
def fetchIssues (s : State) (g slot : Nat) : Bool :=
  match runFetch g slot s with
  | .next t =>
    let n := (fetchAt (grp s g) slot).seq
    decide (n < (grp t g).nextSeq) && !((unstarted (grp t g)).any fun w => w.seq = n)
  | _ => false

/-- A group is ready: a head of its queues, or a word as it is fetched, can issue (R18). -/
def groupReady (s : State) (g : Nat) : Bool :=
  !(readyHeads s g).isEmpty || (List.range 3).any (fetchIssues s g)

/-- A group's ready time follows whether it is ready now (R314). -/
def noteGroup (ready : Bool) (cycle now : Nat) (G : Group) : Group :=
  match ready, G.readyAt with
  | false, _ => { G with readyAt := none }
  | true, some _ => G
  | true, none => { G with readyAt := some cycle, readyNs := now }

/-- The ready times of every group. -/
def noteReady (s : State) : State :=
  { s with groups := s.groups.map fun x =>
      (x.1, noteGroup (!x.2.parked && groupReady s x.1) (core s (coreOf s x.1)).cycle s.now x.2) }

/-- A scheduler's choice among ready groups, given by position and key: the oldest ready time, and among equal ones the
first after the rotation pointer. -/
def choose (s : State) (ptr : Nat) (xs : List (Nat × Nat)) : Option (Nat × Nat) :=
  let rank (x : Nat × Nat) : Nat × Nat × Nat := ((grp s x.2).readyAt.getD 0, b2n (decide (x.1 ≤ ptr)), x.1)
  let less (a b : Nat × Nat × Nat) : Bool :=
    decide (a.1 < b.1) || (a.1 = b.1 && (decide (a.2.1 < b.2.1) || (a.2.1 = b.2.1 && decide (a.2.2 < b.2.2))))
  xs.foldl (fun a x => match a with
    | none => some x
    | some y => if less (rank x) (rank y) then some x else some y) none

/-- The group that issues next: a winner that has yielded is passed over once where another group is ready. -/
def winner (s : State) (ptr : Nat) (xs : List (Nat × Nat)) : Option (Nat × Nat) × State :=
  match choose s ptr xs with
  | none => (none, s)
  | some x =>
    if !(grp s x.2).yielded then (some x, s)
    else
      let s1 := modGrp s x.2 fun G => { G with yielded := false }
      let rest := xs.filter fun y => y.2 ≠ x.2
      (if rest.isEmpty then some x else choose s ptr rest, s1)

/-- The lowest ready head of a group: sequence number and queue. -/
def lowestHead (s : State) (g : Nat) : Option (Nat × Nat) :=
  (readyHeads s g).foldl (fun a y => match a with
    | none => some y
    | some z => if y.1 < z.1 then some y else some z) none

/-- What a group that its scheduler has chosen issues: its ready head with the lowest sequence number, or, without
one, the word that one of its slots gives. -/
def issueWord (g : Nat) (s : State) : Host.Outcome State Fault Refusal :=
  match lowestHead s g with
  | some y => runHead g y.2 s
  | none => match (List.range 3).find? (fetchIssues s g) with
    | some slot => runFetch g slot s
    | none => .next s

/-- A word of the group `g` could issue: its scheduler issues one word, of the group that it chooses, once in each
cycle of the core. Where none is ready the move `m` goes on. -/
def issueOne (g : Nat) (m : Move) (s : State) : Host.Outcome State Fault Refusal :=
  let k := coreOf s g
  let r := (((placedOn s k).zipIdx.find? fun x => x.1 = g).map (·.2)).getD 0 % 4
  let w := winner s (nget 0 (core s k).turns r) ((schedGroups s k r).filter fun x => (grp s x.2).readyAt.isSome)
  match w.1 with
  | none => runMove m s
  | some x =>
    if (core s k).issued.testBit r then .next s
    else
      let now := (core s k).cycle
      let s1 := modCore w.2 k fun C => { C with turns := nput C.turns r x.1, issued := C.issued ||| 2 ^ r }
      issueWord x.2 (modGrp s1 x.2 fun G => { G with readyAt := some now })

/-- A move that a free value made: a word that issues is the one that its scheduler chooses. -/
def runFree (m : Move) (s0 : State) : Host.Outcome State Fault Refusal :=
  let s := noteReady s0
  match m with
  | .head g _ => issueOne g m s
  | .fetch g slot => if fetchIssues s g slot then issueOne g m s else runMove m s
  | _ => runMove m s

/-! ### One step -/

/-- The decision that a step has called for follows it (R305). -/
def decided (o : Host.Outcome State Fault Refusal) : Host.Outcome State Fault Refusal :=
  match o with
  | .next t => .next (if t.decision then dispatch t else t)
  | o => o

/-- After a free move the groups' ready times follow (R314). -/
def noted (o : Host.Outcome State Fault Refusal) : Host.Outcome State Fault Refusal :=
  match o with
  | .next t => .next (noteReady t)
  | o => o

/-- One step: the next move of the script, else a free one. -/
def stepOnce (s : State) : Host.Outcome State Fault Refusal :=
  let s1 : State := { s with ticks := s.ticks + 1, script := s.script.tail, cur := none }
  match s.script with
  | m :: _ => decided (runMove m s1)
  | [] => noted (decided (runFree (Config.freeMove s.ticks) s1))

/-! ### Placing one instruction word -/

/-- Where `placeWord` puts the word: virtual and physical address alike. -/
def wordAt : Nat := 0x1000

/-- A launch of one supervisor group with every register block, a local allocation, and windows. -/
def loneLaunch : Launch :=
  { desc := BitVec.ofNat 1024 (2 + 15 * 2 ^ 82 + 64 * 2 ^ 192 + 2 * 2 ^ 203 + 64 * 2 ^ 224 + 64 * 2 ^ 240)
    supv := true
    deadline := 1
    wins := [(0, { acc := 0, accN := 64, wb := 0, wbN := 65536 })]
    placed := 1 }

/-- A resident group whose slot 0 stands at the word, with the translation of its page. -/
def placeWord (s : State) (nbits w : Nat) : State :=
  let x := w % 2 ^ nbits
  let g0 : Group := { s0 := ⟨BitVec.ofNat 64 wordAt, BitVec.ofNat 64 (2 ^ 64 - 1), true, false⟩, blocks := 16, supv := true }
  { s with
    groups := nput s.groups 0 g0
    teams := nput s.teams 0 {}
    launches := nput s.launches 0 loneLaunch
    mem := memWrite s.mem wordAt (toBytes 8 x)
    island := { s.island with stage := 7 }
    tlb := { ctx := 0, va := wordAt, size := 4096, entry := 0xFF, entryPa := 0, pa := wordAt, mt := 0, ipa := wordAt } :: s.tlb
    cur := none
    script := [.fetch 0 0] }

end Sys2Proof.Machine
end

