-- ==== Sys2Proof/Safety.lean ====
section
/-!
DEFINITION. Sys2Proof/Safety.lean: what counts as a good state and a good run of the machine, in the terms
claims use: the canonical form of memory, when an instruction word starts, when it completes, and what two
states agree on.
-/
namespace Sys2Proof.Machine

/-- Memory is in its canonical form: addresses strictly rising, no listed byte zero. -/
def Memory.wf (s : State) : Bool := nwf 0 s.mem

/-- No sector of DRAM has been written beneath a clean L2 copy of it (R275): what leaves the L2 changes nothing that
agents read. -/
def NoRawBeneath (s : State) : Prop := ∀ x ∈ s.dirty, x.2.drop = false

/-- A step goes on: it ends in neither a fault nor a refusal. -/
def StepGoesOn (s : State) : Prop := ∃ t, step s = .next t

/-- The state without the mark of the word being executed. -/
def rest (s : State) : State := { s with cur := none }

/-- The state in which a try of the word `c` begins: in deterministic mode the closes of its group that are due have
been made (R33), and the word names the group's registers as the rotation stood at its place (R29). -/
def begun (c : Cur) (s : State) : State := useRot c.g c.w (detClose c.g (rest s))

/-- The word `i` stands at the head of its queue as `c` and may start: its group goes on, nothing earlier holds
it back (R30, R77, R80, R155), its guard leaves it an effect (R73), and it is no waiting word of a handler
(R324). -/
structure Starts (i : Instr) (c : Cur) (s : State) : Prop where
  cur : s.cur = some c
  head : c.retry = true
  live : stopped (begun c s) c.g = false
  free : startable i c (begun c s) = true
  guarded : guardedOff (begun c s) c i = false
  handler : handlerWaits (begun c s) c.g i = false

/-- The word `i` starts and completes: where it starts, and its journal charges fit (R35), `exec` answers the
next state in which `t` holds and the word has left its queue and is counted as retired. -/
def Does (i : Instr) (c : Cur) (s t : State) : Prop :=
  Starts i c s → overCharge t c.g c.w.seq = none → exec i s = .next (finish c i t)

/-- The word `i` starts and traps: class, cause and TADDR. It stays at the head of its queue (R84). -/
def Traps (i : Instr) (c : Cur) (s : State) (cls cause addr : Nat) : Prop :=
  Starts i c s → exec i s =
    .next (raiseTrap c.g (trapRec (begun c s) c i cls cause addr 0) (requeue c i c.w (begun c s)))

/-- The word `i` starts and waits with a wait cause (R18); nothing else changes. -/
def Waits (i : Instr) (c : Cur) (s : State) (cause : Nat) : Prop :=
  Starts i c s → overCharge (begun c s) c.g c.w.seq = none →
    exec i s = .next (requeue c i { c.w with cause := cause } (begun c s))

/-- An item whose numbers name one place each: a lane below 64, a half that is 0 or 1. -/
def Item.named (it : Item) : Prop :=
  match it with
  | .v _ _ l => l < 64
  | .loc _ h _ => h < 2
  | .locPois _ h _ => h < 2
  | .pool _ h => h < 2
  | _ => True

/-- Two states hold the same registers, accumulator rows, barriers and local memory. -/
def SameItems (s t : State) : Prop := ∀ it, readItem t it = readItem s it

/-- Two states hold the same global memory and poison marks. -/
def SameMemory (s t : State) : Prop := t.mem = s.mem ∧ t.poison = s.poison

end Sys2Proof.Machine
end

