-- ==== Sys2Proof/Certificates/Slice0/Obligations.lean ====
section
/-!
DEFINITION. Sys2Proof/Certificates/Slice0/Obligations.lean: the statements for the provers. A name under `Obl` is a
part of a statement; a name under `Obligations` is a statement. The words come first, engine by engine, then the
machine events, then encoding, the step, reset, frames and the splitter.
-/
section
open Sys2Proof Sys2Proof.Machine

/-! ### The S engine (R99 to R114) -/

/-- The value rdS of R101: unsigned where MOD.U is set, signed elsewhere. -/
def Obl.rdS (u : Bool) (x : Nat) : Int := if u then zx 64 x else sx 64 x

/-- Saturation of R100: MOD.SAT to the range that MOD.U selects. -/
def Obl.satS (u sat : Bool) (x : Int) : Int :=
  if sat then (if u then Sys2Proof.satU 64 x else Sys2Proof.satS 64 x) else x

/-- A two-source S word of a pair of forms: `fn u a b` is the exact result from the 64-bit operands, `u` is
MOD.U. The short form reads sB; the long form reads I12 sign-extended where MOD.IMM is set. -/
def Obl.ScalarAlu (short : SW → Instr) (long : XW → Instr) (fn : Bool → Nat → Nat → Int) : Prop :=
  ∀ (c : Cur) (s : State),
    (∀ w, Does (short w) c s
      (uwrite c w.d.toNat (cut 64 (fn false (uread s c.g w.a.toNat) (uread s c.g w.b.toNat))) (begun c s))) ∧
    (∀ w, Does (long w) c s
      (uwrite c w.d.toNat
        (cut 64 (Obl.satS (w.mod.getLsbD 1) (w.mod.getLsbD 2)
          (fn (w.mod.getLsbD 1) (uread s c.g w.a.toNat)
            (if w.mod.getLsbD 0 then cut 64 w.imm.toInt else uread s c.g w.b.toNat)))) (begun c s)))

/-- SADD to SMAX, both forms: sD takes the result of R101, once for the group, and nothing else changes but
the queue and the count of retired words. -/
def Obligations.ScalarArithmetic : Prop :=
  Obl.ScalarAlu .sadd .saddX (fun u a b => Obl.rdS u a + Obl.rdS u b) ∧
  Obl.ScalarAlu .ssub .ssubX (fun u a b => Obl.rdS u a - Obl.rdS u b) ∧
  Obl.ScalarAlu .smul .smulX (fun u a b => Obl.rdS u a * Obl.rdS u b) ∧
  Obl.ScalarAlu .smulh .smulhX (fun u a b => Obl.rdS u a * Obl.rdS u b / 2 ^ 64) ∧
  Obl.ScalarAlu .sand .sandX (fun _ a b => ((a &&& b : Nat) : Int)) ∧
  Obl.ScalarAlu .sor .sorX (fun _ a b => ((a ||| b : Nat) : Int)) ∧
  Obl.ScalarAlu .sxor .sxorX (fun _ a b => ((a ^^^ b : Nat) : Int)) ∧
  Obl.ScalarAlu .sshl .sshlX (fun _ a b => ((a * 2 ^ (b % 64) : Nat) : Int)) ∧
  Obl.ScalarAlu .sshr .sshrX (fun _ a b => ((a / 2 ^ (b % 64) : Nat) : Int)) ∧
  Obl.ScalarAlu .ssra .ssraX (fun _ a b => sx 64 a / ((2 ^ (b % 64) : Nat) : Int)) ∧
  Obl.ScalarAlu .smin .sminX (fun u a b => min (Obl.rdS u a) (Obl.rdS u b)) ∧
  Obl.ScalarAlu .smax .smaxX (fun u a b => max (Obl.rdS u a) (Obl.rdS u b))

/-- The word starts and stays in flight: `exec` answers the state `t` with the word taken from its queue and
`f` among the group's started words (R31, R32). -/
def Obl.Flies (i : Instr) (c : Cur) (s : State) (f : Flight) (t : State) : Prop :=
  Starts i c s → overCharge t c.g c.w.seq = none →
    exec i s = .next (modGrp (dequeue c (engOf i) t) c.g fun G => { G with flights := G.flights ++ [f.named i] })

/-- SLI, SLIH, SCMP, SSEL, SMOV and SRD: what sD (or the lane register, or the team register) takes. In deterministic
mode a read of a team register or of QNUM whose quantum is not known yet starts, and keeps nothing behind it back. -/
def Obligations.ScalarMoves : Prop :=
  ∀ (c : Cur) (s : State),
    (∀ w, Does (.sli w) c s (uwrite c w.d.toNat (cut 64 w.imm.toInt) (begun c s))) ∧
    (∀ w, Does (.slih w) c s
      (uwrite c w.d.toNat (slihVal (uread s c.g w.d.toNat) w.b.toNat w.imm.toNat) (begun c s))) ∧
    (∀ w, Does (.scmp w) c s
      (uwrite c w.d.toNat
        (b2n (condInt (w.mod.toNat % 8) (Obl.rdS (w.mod.getLsbD 3) (uread s c.g w.a.toNat))
          (Obl.rdS (w.mod.getLsbD 3)
            (if w.c = 1 then cut 64 w.imm.toInt else uread s c.g w.b.toNat)))) (begun c s))) ∧
    (∀ w, Does (.ssel w) c s
      (uwrite c w.d.toNat (if uread s c.g w.c.toNat ≠ 0 then uread s c.g w.a.toNat else uread s c.g w.b.toNat)
        (begun c s))) ∧
    (∀ w, w.d.toNat < 64 → w.a.toNat < 64 →
      Does (.smov w) c s (uwrite c w.d.toNat (uread s c.g w.a.toNat) (begun c s))) ∧
    (∀ w, isDet s c.g = false → 64 ≤ w.d.toNat → w.a.toNat < 64 →
      Does (.smov w) c s
        (jw c (.t (tkOf c.g) (w.d.toNat - 64)) (.set (.num (uread s c.g w.a.toNat))) (begun c s))) ∧
    (∀ w, isDet s c.g = true → 64 ≤ w.d.toNat → w.a.toNat < 64 →
      Does (.smov w) c s (modPair (begun c s) (pairOf s c.g) fun P =>
        { P with tw := P.tw ++ [⟨c.g, c.w.seq, w.d.toNat - 64, uread s c.g w.a.toNat⟩] })) ∧
    (∀ w, isDet s c.g = false → w.d.toNat < 64 → 64 ≤ w.a.toNat →
      Does (.smov w) c s (uwrite c w.d.toNat (tread s c.g (w.a.toNat - 64)) (begun c s))) ∧
    (∀ w, isDet s c.g = true → w.d.toNat < 64 → 64 ≤ w.a.toNat → epochWait (begun c s) c (0, 0, 0) = false →
      Does (.smov w) c s (uwrite c w.d.toNat
        ((ownTeamWrite (begun c s) c.g c.w.seq (w.a.toNat - 64)).getD (tread s c.g (w.a.toNat - 64))) (begun c s))) ∧
    (∀ w, w.d.toNat < 64 → 64 ≤ w.a.toNat → epochWait (begun c s) c (0, 0, 0) = true →
      quantumSure (begun c s) c (0, 0, 0) = false → handlerStuck (begun c s) c.g = false →
      Obl.Flies (.smov w) c s (lateFlight c (.u w.d.toNat)) (begun c s)) ∧
    (∀ w, w.a = 0 → Does (.srd w) c s
      (vwriteLanes c w.d.toNat ((maskList 64 c.w.mask.toNat).map fun l => (l, l)) (begun c s))) ∧
    (∀ w, w.a ≠ 0 → (w.a = 13 → isDet s c.g = false ∨ (grp s c.g).handler.isSome = true ∨
        quantumSure (begun c s) c (0, 0, 0) = true) →
      Does (.srd w) c s (uwrite c w.d.toNat (special (begun c s) c w.a.toNat) (begun c s))) ∧
    (∀ w, w.a = 13 → isDet s c.g = true → (grp s c.g).handler.isNone = true →
      quantumSure (begun c s) c (0, 0, 0) = false →
      Obl.Flies (.srd w) c s (lateFlight c (.u w.d.toNat)) (begun c s))

/-- BRA, BRC, BRX, RET, CALL, LOOP and ENDL: where the issuing slot goes, and the register they write. -/
def Obl.Branches : Prop :=
  ∀ (c : Cur) (s : State),
    let label (imm : BitVec 23) : Nat := cut 64 ((c.w.pc.toNat : Int) + 4 * imm.toInt)
    let next : Nat := (c.w.pc.toNat + 8) % 2 ^ 64
    c.w.pc.toNat % 4 = 0 →
    (∀ w, Does (.bra w) c s (resolve c (label w.imm) (begun c s))) ∧
    (∀ w, Does (.brc w) c s
      (resolve c (if (if w.d = 1 then uread s c.g w.a.toNat = 0 else uread s c.g w.a.toNat ≠ 0)
        then label w.imm else next) (begun c s))) ∧
    (∀ w, uread s c.g w.a.toNat % 4 = 0 → Does (.brx w) c s (resolve c (uread s c.g w.a.toNat) (begun c s))) ∧
    (∀ w, uread s c.g w.a.toNat % 4 = 0 → Does (.ret w) c s (resolve c (uread s c.g w.a.toNat) (begun c s))) ∧
    (∀ w, Does (.call w) c s (resolve c (label w.imm) (uwrite c w.d.toNat next (begun c s)))) ∧
    (∀ w, Does (.loop w) c s (uwrite c w.d.toNat (uread s c.g w.a.toNat) (begun c s))) ∧
    (∀ w, uread s c.g w.d.toNat ≤ 1 → Does (.endl w) c s (resolve c next (uwrite c w.d.toNat 0 (begun c s)))) ∧
    (∀ w, 1 < uread s c.g w.d.toNat → Does (.endl w) c s
      (resolve c (label w.imm) (uwrite c w.d.toNat (uread s c.g w.d.toNat - 1) (begun c s))))

/-- BRX and RET to an address that is not a multiple of 4 trap MISALIGN with cause 1 and the address. -/
def Obl.BranchTargetTraps : Prop :=
  ∀ (c : Cur) (s : State) (w : Sys2Proof.SW), uread s c.g w.a.toNat % 4 ≠ 0 →
    Traps (.brx w) c s 2 1 (uread s c.g w.a.toNat) ∧ Traps (.ret w) c s 2 1 (uread s c.g w.a.toNat)

/-- BDIV, MARK, JOIN and EXIT: the slots and the divergence stack. -/
def Obl.Divergence : Prop :=
  ∀ (c : Cur) (s : State),
    let label (imm : BitVec 23) : Nat := cut 64 ((c.w.pc.toNat : Int) + 4 * imm.toInt)
    let next : Nat := (c.w.pc.toNat + 8) % 2 ^ 64
    let other := slotOf (grp s c.g) (1 - c.w.slot)
    let hasStack := (launchOf s c.g).stack = true
    (∀ w : Sys2Proof.KW,
      let T := activeLanes s c w.flds &&& pread s c.g w.a.toNat
      let F := c.w.mask.toNat &&& notBits 64 T
      (T = 0 → Does (.bdiv w) c s (resolve c next (begun c s))) ∧
      (T ≠ 0 → F = 0 → Does (.bdiv w) c s (resolve c (label w.imm) (begun c s))) ∧
      (T ≠ 0 → F ≠ 0 → other.valid = false → Does (.bdiv w) c s
        (bothValid c
          (putSlot c (1 - c.w.slot) (slotAt (label w.imm) T) (putSlot c c.w.slot (slotAt next F) (begun c s))))) ∧
      (T ≠ 0 → F ≠ 0 → other.valid = true → hasStack → (grp s c.g).depth < 64 → Does (.bdiv w) c s
        (putSlot c c.w.slot (slotAt next F) (push c ⟨1, label w.imm, T⟩ (begun c s)))) ∧
      (T ≠ 0 → F ≠ 0 → other.valid = true → hasStack → 64 ≤ (grp s c.g).depth →
        Traps (.bdiv w) c s 6 0 0)) ∧
    (∀ w : Sys2Proof.KW, hasStack → other.valid = false → (grp s c.g).depth < 64 →
      Does (.mark w) c s (push c ⟨0, label w.imm, c.w.mask.toNat⟩ (begun c s))) ∧
    (∀ w : Sys2Proof.KW, hasStack → other.valid = true → (grp s c.g).depth < 63 →
      Does (.mark w) c s (push c ⟨0, label w.imm, c.w.mask.toNat⟩
        (putSlot c (1 - c.w.slot) { other with valid := false }
          (push c ⟨1, spillAddr (begun c s) c.g (1 - c.w.slot), other.mask.toNat⟩
            (spillStopper c.g (1 - c.w.slot) (begun c s)))))) ∧
    (∀ w, ¬hasStack → Traps (.mark w) c s 6 1 0) ∧
    (∀ w e, topRejoin s c.g (grp s c.g).depth = some e → e.pc = c.w.pc.toNat →
      Does (.join w) c s (resumeSlot c 65 (putSlot c c.w.slot {} (begun c s)))) ∧
    (∀ w, topRejoin s c.g (grp s c.g).depth = none → Traps (.join w) c s 6 2 0) ∧
    (∀ w, Does (.exit w) c s
      (resumeSlot c 65 (putSlot c c.w.slot {} (clearRejoin c c.w.mask.toNat (grp s c.g).depth (begun c s)))))

/-- NOP changes nothing; TWAIT and TSIG take from and add to their count, or wait with cause 1. Of two satisfied
TWAITs on one token at the heads of their queues the older one takes first. -/
def Obl.Tokens : Prop :=
  ∀ (e : BitVec 3) (w : Sys2Proof.SW) (c : Cur) (s : State),
    let k := kread s c.g w.d.toNat
    let n := w.a.toNat
    let busy := (grp s c.g).flights.any fun x => x.eng = e.toNat && decide (x.seq < c.w.seq)
    Does (.nop e w) c s (begun c s) ∧
    (n ≤ k → olderTwait (begun c s) c w.d.toNat = false →
      Does (.twait e w) c s (jw c (.k c.g w.d.toNat) (.add (-(n : Int))) (begun c s))) ∧
    (k < n ∨ olderTwait (begun c s) c w.d.toNat = true → Waits (.twait e w) c s 1) ∧
    (busy = false → k + n ≤ 15 →
      Does (.tsig e w) c s (jw c (.k c.g w.d.toNat) (.add n) (begun c s))) ∧
    (busy = true ∨ 15 < k + n → Waits (.tsig e w) c s 1)

/-! ### The V engine (R115 to R140) -/

/-- A V word gives every active lane a value: `fn l` from the registers before the word (R116). -/
def Obl.PerLane (i : Instr) (wide : Bool) (d : Nat) (f : Flds) (fn : State → Nat → Nat → Nat) : Prop :=
  ∀ (c : Cur) (s : State),
    Does i c s (putLanes c wide d ((laneList s c f).map fun l => (l, fn (begun c s) c.g l)) (begun c s))

/-- The two operands of a two-source integer word, as the bits that R115 and R118 give in lane `l`. -/
def Obl.IntPair (i : Instr) (f : Flds) (fn : Nat → Nat → Nat → Int) : Prop :=
  let t := f.mod % 8
  Obl.PerLane i (itWide t) f.d f fun s g l =>
    tyReg t (intSat f t (fn t (laneRaw s g (itWide t) f.a l) (selRaw s g f (itWide t) (tySigned t) f.b l)))

/-- The same for both forms of a word. -/
def Obl.IntTwo (short : SW → Instr) (long : XW → Instr) (fn : Nat → Nat → Nat → Int) : Prop :=
  (∀ w, Obl.IntPair (short w) w.flds fn) ∧ (∀ w, Obl.IntPair (long w) w.flds fn)

/-- A one-source integer word of both forms. -/
def Obl.IntOne (short : SW → Instr) (long : XW → Instr) (fn : Flds → Nat → Nat → Int) : Prop :=
  let gives (i : Instr) (f : Flds) : Prop :=
    let t := f.mod % 8
    Obl.PerLane i (itWide t) f.d f fun s g l =>
      tyReg t (fn f t (selRaw s g f (itWide t) (tySigned t) f.a l))
  (∀ w, gives (short w) w.flds) ∧ (∀ w, gives (long w) w.flds)

/-- The integer words of the lane engine: what each active lane's destination takes (R120 to R123). -/
def Obligations.LaneIntegers : Prop :=
  Obl.IntTwo .iadd .iaddX (fun t x y => tyInt t x + tyInt t y) ∧
  Obl.IntTwo .isub .isubX (fun t x y => tyInt t x - tyInt t y) ∧
  Obl.IntTwo .imul .imulX (fun t x y => tyInt t x * tyInt t y) ∧
  Obl.IntTwo .imulh .imulhX (fun t x y => tyInt t x * tyInt t y / ((2 ^ intWidth t : Nat) : Int)) ∧
  Obl.IntTwo .iand .iandX (fun t x y => (((x &&& y) % 2 ^ intWidth t : Nat) : Int)) ∧
  Obl.IntTwo .ior .iorX (fun t x y => (((x ||| y) % 2 ^ intWidth t : Nat) : Int)) ∧
  Obl.IntTwo .ixor .ixorX (fun t x y => (((x ^^^ y) % 2 ^ intWidth t : Nat) : Int)) ∧
  Obl.IntTwo .ishl .ishlX (fun t x y => tyInt t x * ((2 ^ (y % intWidth t) : Nat) : Int)) ∧
  Obl.IntTwo .ishr .ishrX (fun t x y => zx (intWidth t) x / ((2 ^ (y % intWidth t) : Nat) : Int)) ∧
  Obl.IntTwo .isra .israX (fun t x y => sx (intWidth t) x / ((2 ^ (y % intWidth t) : Nat) : Int)) ∧
  Obl.IntTwo .imin .iminX (fun t x y => min (tyInt t x) (tyInt t y)) ∧
  Obl.IntTwo .imax .imaxX (fun t x y => max (tyInt t x) (tyInt t y)) ∧
  Obl.IntOne .iabs .iabsX (fun f t x => intSat f t ((tyInt t x).natAbs : Int)) ∧
  Obl.IntOne .iclz .iclzX (fun _ t x => ((intWidth t - bitlen (x % 2 ^ intWidth t) : Nat) : Int)) ∧
  Obl.IntOne .ipopc .ipopcX (fun _ t x => ((popCount (intWidth t) x : Nat) : Int)) ∧
  Obl.IntOne .ibrev .ibrevX (fun _ t x => ((bitRev (intWidth t) x : Nat) : Int)) ∧
  Obl.IntOne .imov .imovX (fun _ t x => tyInt t x) ∧
  (∀ w : XW, Obl.PerLane (.imad w) (itWide (w.flds.mod % 8)) w.flds.d w.flds fun s g l =>
    let t := w.flds.mod % 8
    let v (n : Nat) : Int := tyInt t (laneRaw s g (itWide t) n l)
    tyReg t (intSat w.flds t (v w.flds.a * v w.flds.b + v w.flds.c))) ∧
  (∀ w : XW, Obl.PerLane (.ibfx w) false w.flds.d w.flds fun s g l =>
    let pos := w.flds.imm % 32
    let len := w.flds.imm / 32 % 32 + 1
    let x := nbits (vread s g w.flds.a l) (pos + len - 1) pos
    if w.flds.mod % 8 = 0 then cut 32 (sx len x) else x) ∧
  (∀ w : XW, Obl.PerLane (.ibfi w) false w.flds.d w.flds fun s g l =>
    let pos := w.flds.imm % 32
    setBits (vread s g w.flds.a l) (pos + w.flds.imm / 32 % 32) pos (vread s g w.flds.b l)) ∧
  (∀ w : XW, Obl.PerLane (.isel w) (itWide w.flds.mod) w.flds.d w.flds fun s g l =>
    laneRaw s g (itWide w.flds.mod) (if (pread s g w.flds.c).testBit l then w.flds.a else w.flds.b) l) ∧
  (∀ w : KW, Obl.PerLane (.imovi w) false w.flds.d w.flds fun s g l =>
    if w.flds.b = 0 then cut 32 w.flds.i23
    else (vread s g w.flds.d l % 512 + w.flds.imm * 512) % 2 ^ 32)

/-- A floating word of both forms: `fn F mode x y` from the codes of its operands. -/
def Obl.FloatTwo (short : SW → Instr) (long : XW → Instr) (fn : Fmt → Nat → Nat → Nat → Nat) : Prop :=
  let gives (i : Instr) (f : Flds) : Prop := Obl.PerLane i false f.d f fun s g l =>
    fn (ftFmt f) (f.mod % 4) (vread s g f.a l) (selRaw s g f false true f.b l)
  (∀ w, gives (short w) w.flds) ∧ (∀ w, gives (long w) w.flds)

/-- A one-source floating word of both forms. -/
def Obl.FloatOne (short : SW → Instr) (long : XW → Instr) (fn : Fmt → Nat → Nat) : Prop :=
  let gives (i : Instr) (f : Flds) : Prop := Obl.PerLane i false f.d f fun s g l =>
    fn (ftFmt f) (selRaw s g f false true f.a l)
  (∀ w, gives (short w) w.flds) ∧ (∀ w, gives (long w) w.flds)

/-- The floating words of the lane engine (R125 to R127). -/
def Obligations.LaneFloats : Prop :=
  Obl.FloatTwo .fadd .faddX (fun F m x y => fenc F m (fladd m (fdec F x) (fdec F y))) ∧
  Obl.FloatTwo .fsub .fsubX (fun F m x y => fenc F m (fladd m (fdec F x) (fdec F y).negate)) ∧
  Obl.FloatTwo .fmul .fmulX (fun F m x y => fenc F m (flmul (fdec F x) (fdec F y))) ∧
  Obl.FloatTwo .fdiv .fdivX (fun F m x y => fenc F m (fldiv (fdec F x) (fdec F y))) ∧
  Obl.FloatTwo .fmin .fminX (fun F _ x y => fminCode F (x % 2 ^ F.width) (y % 2 ^ F.width)) ∧
  Obl.FloatTwo .fmax .fmaxX (fun F _ x y => fmaxCode F (x % 2 ^ F.width) (y % 2 ^ F.width)) ∧
  Obl.FloatTwo .fscale .fscaleX (fun F m x y => fenc F m (flscale (fdec F x) (sx 32 y))) ∧
  Obl.FloatOne .frcp .frcpX (fun F x => fenc F 0 (fldiv (.fin 1 0) (fdec F x))) ∧
  Obl.FloatOne .frsq .frsqX (fun F x => fenc F 0 (flrsq (fdec F x))) ∧
  Obl.FloatOne .fsqrt .fsqrtX (fun F x => fenc F 0 (flsqrt (fdec F x))) ∧
  Obl.FloatOne .fex2 .fex2X (fun F x => fex2 F (fdec F x)) ∧
  Obl.FloatOne .flg2 .flg2X (fun F x => flg2 F (fdec F x)) ∧
  Obl.FloatOne .fclass .fclassX (fun F x => fclass F (x % 2 ^ F.width)) ∧
  (∀ w : XW, Obl.PerLane (.ffma w) false w.flds.d w.flds fun s g l =>
    let F := ftFmt w.flds
    let m := w.flds.mod % 4
    let v (n : Nat) := fdec F (vread s g n l)
    fenc F m (fladd m (flmul (v w.flds.a) (v w.flds.b)) (v w.flds.c)))

/-- A V word that writes a predicate: `fn l` in every active lane, every other bit as before (R116). -/
def Obl.PerPred (i : Instr) (f : Flds) (fn : State → Nat → Nat → Bool) : Prop :=
  ∀ (c : Cur) (s : State),
    Does i c s (pput c f.d ((laneList s c f).map fun l => (l, fn (begun c s) c.g l)) (begun c s))

/-- A predicate word of both forms: MOD 0 and 1 invert the operands and MOD 2 the result (R139). -/
def Obl.PredTwo (short : SW → Instr) (long : XW → Instr) (fn : Bool → Bool → Bool) : Prop :=
  let gives (i : Instr) (f : Flds) : Prop := Obl.PerPred i f fun s g l =>
    (fn ((pread s g f.a).testBit l != f.m 0) ((pread s g f.b).testBit l != f.m 1)) != f.m 2
  (∀ w, gives (short w) w.flds) ∧ (∀ w, gives (long w) w.flds)

/-- Compares and predicate words (R124, R139). -/
def Obl.LanePredicates : Prop :=
  (∀ w : XW, Obl.PerPred (.icmp w) w.flds fun s g l =>
    let t := w.flds.mod % 8
    let a := tyInt t (laneRaw s g (itWide t) w.flds.a l)
    let b := tyInt t (selRaw s g w.flds (itWide t) (tySigned t) w.flds.b l)
    match w.flds.cond with
    | 0 => a = b
    | 1 => a ≠ b
    | 2 => a < b
    | 3 => a ≤ b
    | 4 => b < a
    | _ => b ≤ a) ∧
  (∀ w : XW, Obl.PerPred (.fcmp w) w.flds fun s g l =>
    condFloat w.flds.cond (fdec (ftFmt w.flds) (vread s g w.flds.a l))
      (fdec (ftFmt w.flds) (selRaw s g w.flds false true w.flds.b l))) ∧
  Obl.PredTwo .pand .pandX (fun x y => x && y) ∧
  Obl.PredTwo .por .porX (fun x y => x || y) ∧
  Obl.PredTwo .pxor .pxorX (fun x y => x != y) ∧
  (∀ w : XW, Obl.PerPred (.pset w) w.flds fun s g l =>
    match w.flds.mod % 4 with
    | 0 => (uread s g w.flds.a).testBit l
    | 1 => (vread s g w.flds.a l).testBit w.flds.imm
    | _ => w.flds.imm = 1) ∧
  (let get (i : Instr) (f : Flds) : Prop := Obl.PerLane i false f.d f fun s g l =>
    if (pread s g f.a).testBit l then (if f.m 0 then 0xFFFFFFFF else 1) else 0
   (∀ w, get (.pget w) w.flds) ∧ (∀ w, get (.pgetX w) w.flds))

/-- Conversion, block quantisation and sort keys (R128 to R132). -/
def Obligations.LaneConversions : Prop :=
  (∀ w : XW, Obl.PerLane (.cvt w) (tcWide w.flds.c) w.flds.d w.flds fun s g l =>
    codeReg w.flds.c (typeEnc w.flds.c (w.flds.mod % 4)
      (typeDec w.flds.b (laneRaw s g (tcWide w.flds.b) w.flds.a l)))) ∧
  (∀ w : XW, Obl.PerLane (.dqnt w) false w.flds.d w.flds fun s g l =>
    let k := sx 8 (vread s g w.flds.b l)
    if k = -128 then Fmt.f32.nanCode
    else fenc .f32 0 (flscale (elemDec (w.flds.mod % 8) (vread s g w.flds.a l)) k)) ∧
  (∀ (c : Cur) (s : State) (w : XW),
    let f := w.flds
    let L := if f.m 3 then 32 else 16
    let block (k : Nat) : List Nat := (laneList s c f).filter fun l => l / L = k
    let out := (List.range (widthOf s c.g / L)).flatMap fun k =>
      if (block k).isEmpty then [] else quantLanes (f.mod % 8) (begun c s) c.g f.a (block k)
    Does (.quant w) c s
      (vwriteLanes c f.c (out.map fun x => (x.1, x.2.2)) (vwriteLanes c f.d (out.map fun x => (x.1, x.2.1))
        (begun c s)))) ∧
  (let key (i : Instr) (f : Flds) : Prop := Obl.PerLane i true f.d f fun s g l =>
    skey (f.mod % 4) (vread s g f.a l) (vread s g f.b l)
   (∀ w, key (.skey w) w.flds) ∧ (∀ w, key (.skeyX w) w.flds))

/-- Exchange between lanes, reductions and scans, and the rotation (R133 to R140). -/
def Obl.LaneExchange : Prop :=
  (let shuf (i : Instr) (f : Flds) : Prop := Obl.PerLane i false f.d f fun s g l =>
    vread s g f.a (match f.mod % 4 with
      | 0 => vread s g f.b l % widthOf s g
      | 1 => l ^^^ f.imm
      | 2 => if l < f.imm then l else l - f.imm
      | _ => if widthOf s g ≤ l + f.imm then l else l + f.imm)
   (∀ w, shuf (.lshuf w) w.flds) ∧ (∀ w, shuf (.lshufX w) w.flds)) ∧
  (let bcast (i : Instr) (f : Flds) : Prop := Obl.PerLane i false f.d f fun s g _ =>
    vread s g f.a (if f.m 0 then uread s g f.b % widthOf s g else f.b)
   (∀ w, bcast (.lbcast w) w.flds) ∧ (∀ w, bcast (.lbcastX w) w.flds)) ∧
  (let vote (i : Instr) (f : Flds) : Prop := ∀ (c : Cur) (s : State),
    let act := activeLanes s c f
    let m := act &&& pread s c.g f.a
    Does i c s (uwrite c f.d (match f.mod % 4 with
      | 0 => m
      | 1 => b2n (m ≠ 0)
      | 2 => b2n (m = act)
      | _ => popCount 64 m) (begun c s))
   (∀ w, vote (.lvote w) w.flds) ∧ (∀ w, vote (.lvoteX w) w.flds)) ∧
  (∀ (c : Cur) (s : State) (w : XW),
    let f := w.flds
    let l := if f.sel = 1 then f.imm else uread s c.g f.b % widthOf s c.g
    Does (.lread w) c s (uwrite c f.d
      (if f.m 1 then vread64 (begun c s) c.g f.a l
       else if f.m 0 then cut 64 (sx 32 (vread (begun c s) c.g f.a l)) else vread (begun c s) c.g f.a l) (begun c s)) ∧
    ((activeLanes s c f).testBit l = true →
      Does (.lwrite w) c s (putLanes c (f.m 0) f.d [(l, uread s c.g f.a)] (begun c s))) ∧
    ((activeLanes s c f).testBit l = false → Does (.lwrite w) c s (begun c s)) ∧
    (let tree := gtree (redOp (f.mod % 8) f.c) (widthLog (widthOf s c.g)) (redInputs (begun c s) c f)
     (f.m 3 = true → Does (.gred w) c s
       (vwriteLanes c f.d ((laneList s c f).map fun l => (l, tree)) (begun c s))) ∧
     (f.m 3 = false → Does (.gred w) c s
       (uwrite c f.d (if f.c = 0 then cut 64 (sx 32 tree) else tree) (begun c s)))) ∧
    (let scan := gscan (redOp (f.mod % 8) f.c) (widthLog (widthOf s c.g)) 1 (redInputs (begun c s) c f)
     Does (.gscan w) c s (vwriteLanes c f.d ((laneList s c f).map fun l =>
       (l, if f.c = 2 then canonNan .f32 (scan.getD l 0) else scan.getD l 0)) (begun c s)))) ∧
  (∀ (c : Cur) (s : State) (w : SW),
    let G := grp s c.g
    let base := 8 * G.blocks - G.rotN
    let p := (G.rotP + G.rotN - 1) % G.rotN
    let s1 := clearReg c (base + p) (begun c s)
    let s2 := if G.rotL < G.rotN then clearReg c (base + (G.rotL + p) % G.rotN) s1 else s1
    Does (.vrot w) c s (jw c (.rot c.g) (.set (.num ((G.rotN * 128 + G.rotL) * 128 + p))) s2))

/-! ### The M engine (R141 to R167) -/

/-- The address of each active lane of a global access, or of a uniform access as lane 0 (R144). -/
def Obl.lanesAt (c : Cur) (s : State) (f : Flds) (size : Nat) (unif : Bool) : List (Nat × Nat) :=
  if unif then [(0, cut 64 ((uread s c.g f.a : Int) + f.i12))]
  else (laneList s c f).map fun l => (l, laneGlobal (begun c s) c.g f size f.i12 l)

/-- A global access meets none of the traps and waits of R145, R148, R149 and R164: no lane of it has gone before,
every lane is aligned and free of range locks, nothing earlier is waited for, and every lane translates, to
memory that is not a device and not poisoned. `reads` says that it reads global memory for its group (R149), and `own`
is what it charges to the shares (R35). -/
structure Obl.Clear (c : Cur) (s : State) (f : Flds) (size : Nat) (a : Acc2) (nt reads : Bool)
    (own : Nat × Nat × Nat) (xs : List (Nat × Nat)) (hits : List Hit) (t : State) : Prop where
  fresh : c.w.done = 0 ∧ c.w.pois = 0 ∧ c.w.fail = 0 ∧ c.w.stage = 0
  aligned : ∀ x ∈ xs, x.2 % size = 0
  unlocked : ∀ x ∈ xs, globalLock (begun c s) c.g x.2 size (a = .read) = none
  fits : neverFits (begun c s) c.g own = false
  ordered : orderWait c f (a ≠ .read) (begun c s) = none
  epoch : reads = true → epochWait (begun c s) c own = false
  translated : xlateLanes c.g a nt xs (begun c s) = (hits, [], t)
  plain : ∀ h ∈ hits, h.dev = false ∧ viewPoison t c.g h.pa = false

/-- LD and LDS: a load that orders nothing starts with a piece for each sector; an ordered one whose sectors are there
takes its lanes' values at once, and is its acquire or release event; with no active lane LD completes at once (R31,
R146, R148, R257, R272). -/
def Obl.GlobalLoads : Prop :=
  ∀ (c : Cur) (s t u : State) (w : XW) (unif : Bool) (hits : List Hit),
    let i : Instr := if unif then .lds w else .ld w
    let f := w.flds
    let pas := hits.map (·.pa)
    (unif = false → activeLanes s c f = 0 → Does i c s (begun c s)) ∧
    (Obl.Clear c s f (mtSize f.mod) .read (f.m 3) true (newRegs (begun c s) c.g i, 0, 0)
        (Obl.lanesAt c s f (mtSize f.mod) unif) hits t → hits ≠ [] →
      scHeld t c f hits (mtSize f.mod) = [] → ownAtoms t c pas (mtSize f.mod) = [] →
      (isAcq f = false → isRel f = false → Obl.Flies i c s
        ⟨c.w.seq, 2, c.w.slot, c.w.mask, loadDests f.d f.mod unif, false,
          .load (markDone c.w []) f.d (f.mod % 8) unif (hits.foldl (fun m h => nput m h.lane (h.va, h.pa)) [])
            (piecesOf hits)⟩ t) ∧
      (isAcq f = true ∨ isRel f = true → loadBehind t c.g c.w.seq pas (mtSize f.mod) = false →
        readSectors c hits t = (true, u) → (∀ h ∈ hits, viewPoison t c.g h.pa = false) →
        Does i c s (ordEvents c.g f (loadNow c f.d f.mod unif hits u))))

/-- ST and STS: the bytes enter the hold-back buffer, one entry for each sector; an ordered store is its release event
(R147, R257, R269). -/
def Obl.GlobalStores : Prop :=
  ∀ (c : Cur) (s t : State) (w : XW) (unif : Bool) (hits : List Hit),
    let i : Instr := if unif then .sts w else .st w
    let f := w.flds
    let xs := Obl.lanesAt c s f (mtSize f.mod) unif
    let secs := (hits.map fun h => h.pa / 64).dedup
    let data := hits.map fun h => (h, toBytes (mtSize f.mod)
      (if unif then uread t c.g f.d else laneRaw t c.g (itWide (f.mod % 8)) f.d h.lane))
    Obl.Clear c s f (mtSize f.mod) .write (f.m 3) false (sectorCharge xs, 0, sectorCharge xs) xs hits t →
    holdFull t c.g c.w.seq (newSectors t c.g c.w.seq secs) = none →
    Does i c s (ordEvents c.g f (secs.foldl (fun u sec => holdSector c f data sec u) t))

/-- ATOM: one held entry for each sector, with each lane's operands; without a result the word is done, with one
it closes its quantum and its registers are written when the atomic performs (R150 to R154). -/
def Obligations.GlobalAtomics : Prop :=
  ∀ (c : Cur) (s t : State) (w : XW) (hits : List Hit),
    let f := w.flds
    let xs := (laneList s c f).map fun l => (l, laneGlobal (begun c s) c.g f (atomSize f.aty) 0 l)
    let own := (newRegs (begun c s) c.g (.atom w), 0, sectorCharge xs)
    let secs := (hits.map fun h => h.pa / 64).dedup
    let held := ordEvents c.g f (secs.foldl (fun u sec => hold c.g c.w.seq
      (.atom f.mod f.aty (if f.anr then none else some f.d)
        ((atomLanes t c f hits).filter fun a => a.pa / 64 = sec) (isAcq f)
        (isRel f && wideScope t c.g f)) u ((hits.filter fun h => h.pa / 64 = sec).all (·.low))) t)
    Obl.Clear c s f (atomSize f.aty) .atomic false (!f.anr) own xs hits t → hits ≠ [] →
    holdFull t c.g c.w.seq secs.length = none →
    (f.anr = true → Does (.atom w) c s held) ∧
    (f.anr = false → handlerStuck t c.g = false →
      Obl.Flies (.atom w) c s (heldFlight { c with w := markDone c.w [] } 2 (atomDests f)) (closeAfter c held))

/-- A local access meets none of the traps and waits of R145: every lane aligned, inside the window W, outside
every stash window, unlocked and not poisoned. `ys` says where each lane's bytes lie, and `own` what the word charges
to the shares (R35). -/
structure Obl.LocalClear (c : Cur) (s : State) (f : Flds) (size : Nat) (load : Bool) (off : Int)
    (own : Nat × Nat × Nat) (ys : List LHit) : Prop where
  fresh : c.w.done = 0 ∧ c.w.pois = 0 ∧ c.w.fail = 0 ∧ c.w.stage = 0
  aligned : ∀ l ∈ laneList s c f, laneAddr (begun c s) c.g f size off true l % (size : Int) = 0
  places : (laneList s c f).map (fun l => (l, localAt (begun c s) c.g (laneAddr (begun c s) c.g f size off true l))) =
    ys.map fun y => (y.lane, some (y.half, y.off))
  plain : ∀ y ∈ ys, y.back = none ∧ stashHit (begun c s) c.g y.half y.off = none ∧
    localLocked (begun c s) c.g y.half y.off size load = false ∧
    locPoison (begun c s) (tkOf c.g) y.half y.off = false
  fits : neverFits (begun c s) c.g own = false
  ordered : orderWait c f (!load) (begun c s) = none
  room : holdFull (begun c s) c.g c.w.seq 0 = none

/-- LDL, STL and ATOML outside stash windows: the lanes' registers take the bytes, the bytes take the lanes'
data, lane by lane in ascending order, and an atomic returns the old value (R146, R147, R152, R153). -/
def Obl.LocalWords : Prop :=
  ∀ (c : Cur) (s : State) (w : XW) (ys : List LHit),
    let f := w.flds
    let grans := localCharge (begun c s) c (ys.map fun y => (y.lane, y.half, y.off))
    (activeLanes s c f = 0 → Does (.ldl w) c s (begun c s)) ∧
    (ys ≠ [] → Obl.LocalClear c s f (mtSize f.mod) true f.i12 (newRegs (begun c s) c.g (.ldl w), 0, 0) ys →
      Does (.ldl w) c s (ordEvents c.g f (ys.foldl (fun t y =>
        loadPut c f.d f.mod false y.lane (ofBytes (locGet (begun c s) (tkOf c.g) y.half y.off (mtSize f.mod))) t)
        (begun c s)))) ∧
    (Obl.LocalClear c s f (mtSize f.mod) false f.i12 grans ys →
      Does (.stl w) c s (ordEvents c.g f (ys.foldl (fun t y => locPut c.g c.w.seq y.half y.off
        (toBytes (mtSize f.mod) (laneRaw (begun c s) c.g (itWide (f.mod % 8)) f.d y.lane)) t) (begun c s)))) ∧
    (Obl.LocalClear c s f (atomSize f.aty) false 0
        (newRegs (begun c s) c.g (.atoml w) + grans.1, grans.2) ys →
      Does (.atoml w) c s (ordEvents c.g f (ys.foldl (fun t y =>
        let old := ofBytes (locGet t (tkOf c.g) y.half y.off (atomSize f.aty))
        let u := jw c (.loc (tkOf c.g) y.half (y.off / 16))
          (.atom (y.off % 16) f.mod f.aty (atomB (begun c s) c.g f y.lane) (atomC (begun c s) c.g f y.lane)) t
        if f.anr then u else atomPut c f.aty f.d y.lane old u) (begun c s))))

/-- A misaligned or out-of-window lane traps before anything changes: of the lowest lane, MISALIGN first
(R145, R321). -/
def Obl.AddressTraps : Prop :=
  ∀ (c : Cur) (s : State) (w : XW) (l : Nat) (xs ys : List Nat),
    let f := w.flds
    let va (l : Nat) : Nat := laneGlobal (begun c s) c.g f (mtSize f.mod) f.i12 l
    let la (l : Nat) : Int := laneAddr (begun c s) c.g f (mtSize f.mod) f.i12 true l
    c.w.done = 0 → c.w.fail = 0 → c.w.stage = 0 → laneList s c f = xs ++ l :: ys →
    ((∀ x ∈ xs, va x % mtSize f.mod = 0) → va l % mtSize f.mod ≠ 0 →
      Traps (.ld w) c s 2 0 (va l) ∧ Traps (.st w) c s 2 0 (va l)) ∧
    ((∀ x ∈ xs, la x % (mtSize f.mod : Int) = 0) → la l % (mtSize f.mod : Int) ≠ 0 →
      Traps (.ldl w) c s 2 0 (cut 64 (la l)) ∧ Traps (.stl w) c s 2 0 (cut 64 (la l))) ∧
    ((∀ x ∈ xs ++ l :: ys, la x % (mtSize f.mod : Int) = 0) → (∀ x ∈ xs, (localAt (begun c s) c.g (la x)).isSome) →
      localAt (begun c s) c.g (la l) = none →
      Traps (.ldl w) c s 3 0 (cut 64 (la l)) ∧ Traps (.stl w) c s 3 0 (cut 64 (la l)))

/-- FENCE, PFETCH, CWB and CINV (R155 to R157): a wide FENCE with a release waits until the writes before it have
performed at the L2; in a handler it traps DOUBLE where one of them cannot be sealed before HRET (R324). -/
def Obligations.FencesAndCaches : Prop :=
  ∀ (c : Cur) (s : State) (w : XW),
    let f := w.flds
    let held := fenceHeld (begun c s) c f
    let stuck := held.any (heldStuck (begun c s) c.g)
    (held = [] → Does (.fence w) c s (ordEvents c.g f (begun c s))) ∧
    (held ≠ [] → stuck = false → Waits (.fence w) c s 6) ∧
    (held ≠ [] → stuck = true → Traps (.fence w) c s 11 0 0) ∧
    (∀ t, orderWait c f false (begun c s) = none → pfetchLanes f c (laneList s c f) (begun c s) = (true, t) →
      Does (.pfetch w) c s t) ∧
    (∀ va t, (globalLock t c.g va 1 true).isSome = true → pfetchLane f c va t = (true, t)) ∧
    (∀ va pa mt t t1 t2,
      translate t (launchOf t c.g).cont false (coreOf t c.g) (launchOf t c.g).ctx (!(grp t c.g).supv) va .read =
        (.ok pa mt, t1) → globalLock t c.g va 1 true = none →
      (viewPoison t1 c.g pa = true → pfetchLane f c va t = (true, t)) ∧
      (viewPoison t1 c.g pa = false → mt = 2 ∨ paDevice t pa = true → pfetchLane f c va t = (true, t1)) ∧
      (viewPoison t1 c.g pa = false → mt ≠ 2 → paDevice t pa = false →
        askRead (.word c.g c.w.seq) pa (launchOf t c.g).acct mt t1 = (true, t2) →
        pfetchLane f c va t =
          (true, if f.m 0 = true ∨ mt = 1 then t2 else l1Fill (coreOf t c.g) pa t2))) ∧
    (∀ hits t, c.w.done = 0 ∧ c.w.pois = 0 ∧ c.w.fail = 0 → orderWait c f true (begun c s) = none →
      let xs := (laneList s c f).map fun l => (l, laneGlobal (begun c s) c.g f 128 f.i12 l)
      neverFits (begun c s) c.g (0, 0, 64 * ((xs.map fun x => x.2 / 128).dedup).length) = false →
      xlateLanes c.g .read false xs (begun c s) = (hits, [], t) →
      let lines := (hits.map fun h => (h.va - h.va % 128, h.pa - h.pa % 128)).dedup
      holdFull t c.g c.w.seq lines.length = none →
      Does (.cwb w) c s (lines.foldl (fun u x => hold c.g c.w.seq (.cwb x.1 x.2) u) t) ∧
      Does (.cinv w) c s (lines.foldl (fun u x => hold c.g c.w.seq (.cinv x.1 x.2) u) t))

/-- STMAP, STUNMAP, STSYNC and PTST (R158 to R162, R167). -/
def Obl.StashWords : Prop :=
  ∀ (c : Cur) (s : State) (w : XW),
    let f := w.flds
    let half := halfOf s c.g
    let k := coreOf s c.g
    let ga := uread s c.g f.a
    let la := uread s c.g f.b
    let size := 1024 * f.imm
    let win := stashWin s c.g half f.d
    (ga % 1024 ≠ 0 → Traps (.stmap w) c s 2 0 ga) ∧
    (ga % 1024 = 0 → la % 1024 ≠ 0 → Traps (.stmap w) c s 2 0 la) ∧
    (ga % 1024 = 0 → la % 1024 = 0 → la + size ≤ (launchOf s c.g).window → (launchOf s c.g).localBytes ≠ 0 →
      win.valid = false →
      (∀ n < 8, (stashWin s c.g half n).valid = true → overlaps (stashWin s c.g half n).lbase
        ((stashWin s c.g half n).lbase + (stashWin s c.g half n).size) la size = false) →
      (∀ x ∈ lockTables s c.g, x.kind ≠ 2 ∧ x.space = 1 ∧ x.own = tkOf c.g ∧ x.half = half →
        overlaps x.lo x.hi la size = false) →
      (∀ x ∈ (core s k).locks, x.space = 0 ∧ x.own = (launchOf s c.g).ctx →
        ∀ p ∈ wrapParts ga size, overlaps x.lo x.hi p.1 (p.2.1 - p.1) = false) →
      lockCount (core s k).locks < 32 → orderWait c f true (begun c s) = none →
      let s1 := stashPut c half f.d ⟨true, ga, la, size⟩ (begun c s)
      let s2 := modCore s1 k fun C => { C with
        locks := C.locks ++ stashLock (tkOf c.g) (launchOf s c.g).ctx half f.d ⟨true, ga, la, size⟩ }
      Does (.stmap w) c s (unfillRange (tkOf c.g) half la (la + size) s2)) ∧
    (win.valid = true → orderWait c f true (begun c s) = none →
      let s1 := stashPut c half f.d { win with valid := false } (begun c s)
      let s2 := modCore s1 k fun C =>
        { C with locks := C.locks.filter fun x => !isStashLock (tkOf c.g) half f.d x }
      Does (.stunmap w) c s (unfillRange (tkOf c.g) half win.lbase (win.lbase + win.size) s2) ∧
      Does (.stsync w) c s (begun c s)) ∧
    (win.valid = false → Traps (.stunmap w) c s 4 2 0 ∧ Traps (.stsync w) c s 4 2 0) ∧
    (let b := begun c s
     f.m 0 = true → (∀ l ∈ laneList s c f, (localAt b c.g (laneAddr b c.g f 64 f.i12 true l)).isSome) →
      orderWait c f false b = none →
      Does (.ptst w) c s (predLanes c f.d ((laneList s c f).map fun l =>
        let p := (localAt b c.g (laneAddr b c.g f 64 f.i12 true l)).getD (0, 0)
        (l, locPoison b (tkOf c.g) p.1 p.2)) b)) ∧
    (∀ hits t u, f.m 0 = false → c.w.done = 0 ∧ c.w.pois = 0 ∧ c.w.fail = 0 →
      orderWait c f false (begun c s) = none →
      epochWait (begun c s) c (newRegs (begun c s) c.g (.ptst w), 0, 0) = false →
      xlateLanes c.g .read false ((laneList s c f).map fun l => (l, laneGlobal (begun c s) c.g f 64 f.i12 l))
        (begun c s) = (hits, [], t) →
      readSectors c (hits.filter fun h => !h.dev) t = (true, u) →
      Does (.ptst w) c s (predLanes c f.d (hits.map fun h => (h.lane, viewPoison u c.g h.pa)) u))

/-! ### The X engine (R168 to R190) -/

/-- Rows lo to lo + n − 1 may be used: inside the launch's window and held by no card, and so many of them as the word
writes fit in the group's journal share (R35, R168, R169). -/
def Obl.rowsFree (s : State) (g lo n writes : Nat) : Prop :=
  rowsHeld s g lo n = false ∧ lo + n ≤ (winG s g).accN ∧ rowsOver s g writes = false

/-- What the effect of each row word makes of a row (R61, R63, R64, R177, R181 to R183, R185, R186, R190). -/
def Obl.RowEffects : Prop :=
  ∀ r : AccRow,
    (∀ e, applyRow (.zero e) r = { m := [], e := BitVec.ofInt 32 e, gw := 0, pois := false }) ∧
    (∀ e, applyRow (.expo e) r = { r with e := e }) ∧
    (∀ sh, applyRow (.norm sh) r = xnormRow sh r) ∧
    (∀ t, applyRow (.fit t) r = if r.maxlen ≤ t then r else xnormRow ((r.maxlen - t : Nat) : Int) r) ∧
    applyRow .unflag r = { r with gw := BitVec.ofNat 32 (notBits 32 320 &&& r.gw.toNat) } ∧
    applyRow .wipe r = { r with m := [], gw := 0 } ∧
    (∀ v t xs, applyRow (.elems v t xs) r = xs.foldl (fun r x => xwrElem v t x.1 x.2 r) r) ∧
    (∀ ps, applyRow (.prods ps) r = (ps.zipIdx).foldl (fun r x => accAdd x.2 x.1 r) r) ∧
    (∀ sat ps, applyRow (.prodsInt sat ps) r = (ps.zipIdx).foldl (fun r x => accAddInt x.2 sat x.1 r) r)

/-- XZERO, XEXP, XNORM, XGRD, XRD and XWR: what each row becomes and what a register takes. Rows outside the
word's range are not named, and stay as they are (R181 to R185). -/
def Obligations.RowWords : Prop :=
  ∀ (c : Cur) (s : State) (w : XW),
    let f := w.flds
    let d := uread s c.g f.d
    let a := uread s c.g f.a
    let n := f.c + 1
    Obl.RowEffects ∧
    (∀ m e t, rowGet (rowPut c m e t) c.g m = applyRow e (rowGet t c.g m)) ∧
    (Obl.rowsFree s c.g d n n →
      Does (.xzero w) c s (rowsPut c d n (.zero f.i12) (begun c s)) ∧
      Does (.xexp w) c s (rowsPut c d n (.expo (BitVec.ofNat 32 a)) (begun c s))) ∧
    (let rows := ((List.range n).map (d + ·)).filter fun i =>
       !f.m 0 || decide (f.imm < (rowGet s c.g i).maxlen)
     Obl.rowsFree s c.g d n rows.length → poisRows s c.g d n = [] →
      Does (.xnorm w) c s (rows.foldl (fun t i =>
        rowPut c i (if f.m 0 then .fit f.imm else .norm f.i12) t) (begun c s))) ∧
    (Obl.rowsFree s c.g a 1 (if f.m 0 then 1 else 0) → poisRows s c.g a 1 = [] →
      let r := rowGet s c.g a
      let s1 := uwrite c f.d (cut 64 (r.ex * 2 ^ 32 + r.gw.toNat)) (begun c s)
      (f.m 0 = false → Does (.xgrd w) c s s1) ∧
      (f.m 0 = true → Does (.xgrd w) c s (rowPut c a .unflag s1))) ∧
    (Obl.rowsFree s c.g a 1 0 → poisRows s c.g a 1 = [] →
      Does (.xrd w) c s (putLanes c (tcWide f.c) f.d ((laneList s c f).map fun l =>
        (l, xrdVal f (f.imm * widthOf s c.g + l) (rowGet s c.g a))) (begun c s))) ∧
    (Obl.rowsFree s c.g d 1 1 →
      Does (.xwr w) c s (rowPut c d (.elems (f.mod / 4) f.c ((laneList s c f).map fun l =>
        (f.imm * widthOf s c.g + l, laneRaw (begun c s) c.g (tcWide f.c) f.a l))) (begun c s)))

/-- A row word outside the window traps RANGE with cause 3, and one on a card's rows with cause 0 (R169, R189). -/
def Obl.RowTraps : Prop :=
  ∀ (c : Cur) (s : State) (w : XW),
    let d := uread s c.g w.flds.d
    let n := w.flds.c + 1
    (rowsHeld s c.g d n = true →
      Traps (.xzero w) c s 4 0 0 ∧ Traps (.xexp w) c s 4 0 0 ∧ Traps (.xnorm w) c s 4 0 0) ∧
    (rowsHeld s c.g d n = false → (winG s c.g).accN < d + n →
      Traps (.xzero w) c s 4 3 0 ∧ Traps (.xexp w) c s 4 3 0 ∧ Traps (.xnorm w) c s 4 3 0)

/-- XSTRM and XSTRM.get: a stream register takes the two halves where they are no malformed descriptor, and
gives one half back (R171, R172). -/
def Obl.StreamWords : Prop :=
  ∀ (c : Cur) (s : State) (w : XW),
    let f := w.flds
    let x := uread s c.g f.b * 2 ^ 64 + uread s c.g f.a
    (strmBad x = false → Does (.xstrm w) c s (fwrite c f.d x (begun c s))) ∧
    (strmBad x = true → Traps (.xstrm w) c s 4 4 0) ∧
    Does (.xstrmGet w) c s (uwrite c f.d (fread s c.g f.a / 2 ^ (64 * f.c)) (begun c s))

/-- A product word's operands: the A stream in local memory, the B tile among the launch's weight bytes. -/
structure Obl.ProdClear (op : Nat) (c : Cur) (s : State) (f : Flds) (runs : List (Nat × Nat)) : Prop where
  formats : fmtsFit (strmOf (fread s c.g f.a)).fmt (strmOf (fread s c.g f.b)).fmt = true
  spaces : (strmOf (fread s c.g f.a)).space = 0 ∧ (strmOf (fread s c.g f.b)).space ≠ 0
  ints : op = 4 → (strmOf (fread s c.g f.a)).fmt = 5 ∧ (strmOf (fread s c.g f.b)).fmt = 5
  inside : ∀ r ∈ runs, (localRun s c.g r.1 r.2).isSome
  unlocked : runsLocked s c.g true runs = false ∧
    weightsHeld s c.g (strmOf (fread s c.g f.b)).base (strmOf (fread s c.g f.b)).stride = false
  rows : Obl.rowsFree s c.g (uread s c.g f.d) (f.c + 1) (f.c + 1)
  weights : (strmOf (fread s c.g f.b)).base + (strmOf (fread s c.g f.b)).stride ≤ (winG s c.g).wbN
  unstashed : runsStashed s c.g runs = false
  clean : runs.flatMap (runPois s c.g) = [] ∧
    weightPois s c.g (strmOf (fread s c.g f.b)).base (strmOf (fread s c.g f.b)).stride = []

/-- XMMA, XMMAC and XIMMA: each of the word's rows takes the exact sums of R177 over the tile depth, rounded
once by the row's exponent, and the two streams advance where MOD asks (R170, R175 to R177). -/
def Obligations.MatrixProducts : Prop :=
  ∀ (c : Cur) (s : State) (w : XW) (op : Nat), (op = 2 ∨ op = 3 ∨ op = 4) →
    let i : Instr := if op = 2 then .xmma w else if op = 3 then .xmmac w else .ximma w
    let f := w.flds
    let A := strmOf (fread s c.g f.a)
    let B := strmOf (fread s c.g f.b)
    let kt := tileDepth A.fmt (op = 3)
    let ka := if op = 3 then 2 * kt else kt
    let scaled : Bool := A.scale ≠ 0 && op ≠ 4
    let rowRun (n : Nat) : Nat × Nat := (A.base + n * A.stride, ka * fmtBits A.fmt / 8)
    let scRun (n : Nat) : Nat × Nat := (A.sbase + n * A.sstride, ka / scaleLen A.scale)
    let runs := (List.range (f.c + 1)).flatMap fun n => if scaled then [rowRun n, scRun n] else [rowRun n]
    let tile := weightNum s c.g B.base B.stride
    let row := uread s c.g f.d
    Obl.ProdClear op c s f runs → tileLen tile kt B.fmt B.space B.scale ≤ B.stride →
    Does i c s (advStreams c f A B ka ((List.range (f.c + 1)).foldl (fun t n =>
      rowPut c (row + n)
        (prodEff op f
          (rowElem (runNum s c.g (rowRun n)) (if scaled then runNum s c.g (scRun n) else 0) A.fmt A.scale
            (op = 4))
          (tileValue tile kt B.fmt B.space B.scale (op = 4)) kt) t) (begun c s)))

/-- XFLUSH: each row's 64 values, in the output format, go to local memory; the stream advances and the rows are
cleared where MOD asks (R186). -/
def Obl.FlushRows : Prop :=
  ∀ (c : Cur) (s : State) (w : XW),
    let f := w.flds
    let D := strmOf (fread s c.g f.d)
    let lo := uread s c.g f.a
    let n := f.c + 1
    let len := 8 * fmtBits D.fmt
    let outRun (i : Nat) : Nat × Nat := (D.base + i * D.stride, len)
    let scRun (i : Nat) : Nat × Nat := (D.sbase + i * D.sstride, 64 / scaleLen D.scale)
    let runs := (List.range n).flatMap fun i => if D.scale = 0 then [outRun i] else [outRun i, scRun i]
    let s1 := (List.range n).foldl (fun t i =>
      let p := packRun D.fmt D.scale ((List.range 64).map fun j => rowValue (f.m 0) j (rowGet s c.g (lo + i)))
      runPut c (scRun i).1 p.2 (runPut c (outRun i).1 (toBytes len p.1) t)) (begun c s)
    let s2 := if f.m 1 then
        fwrite c f.d (strmNum { D with base := D.base + n * D.stride, sbase := D.sbase + n * D.sstride }) s1
      else s1
    D.fmt ≠ 0 → D.space = 0 → (∀ r ∈ runs, (localRun s c.g r.1 r.2).isSome) →
    runsLocked s c.g false runs = false → runsStashed s c.g runs = false →
    Obl.rowsFree s c.g lo n (if f.m 2 then n else 0) →
    neverFits s c.g (64 * (runGrans s c.g runs).length, 0, 0) = false → poisRows s c.g lo n = [] →
    Does (.xflush w) c s (if f.m 2 then rowsPut c lo n .wipe s2 else s2)

/-- XRUN, XPOLL and XKILL: a card is accepted and gets the next handle, a status word is read, an unfinished
card stops (R187 to R189). -/
def Obligations.OperatorCards : Prop :=
  ∀ (c : Cur) (s : State) (w : XW),
    let f := w.flds
    let lk := lkOf c.g
    let k := coreOf s c.g
    let x := uread s c.g f.a
    let hc := special s c 5
    let n := nget 0 (launch s lk).handles hc
    let live := ((jobsOf s lk k).filter Job.live).length
    let r := readCard k { id := n, hcore := hc, lk := lk, chain := false, g := c.g, seq := c.w.seq, addr := x,
                          since := s.now } (begun c s)
    let s1 := modLaunch r.2 lk fun l => { l with handles := nput l.handles hc (n + 1) }
    (x % 256 = 0 → live < 4 → epochWait (begun c s) c (0, 0, 0) = false →
      Does (.xrun w) c s (uwrite c f.d (n % 2 ^ 32 + hc * 2 ^ 32)
        (modJobs k (fun js => trimJobs lk hc (js ++ [r.1])) s1))) ∧
    (x % 256 ≠ 0 → Traps (.xrun w) c s 2 0 x) ∧
    (x % 256 = 0 → 4 ≤ live → Waits (.xrun w) c s 4) ∧
    ((∀ j, jobByHandle s c.g x = some j → j.2.live = false) ∨ (f.m 0 = false ∧ isDet s c.g = false) →
      Does (.xpoll w) c s (pollEvent c.g (jobByHandle s c.g x)
        (uwrite c f.d (jobStatus (jobByHandle s c.g x)) (begun c s)))) ∧
    (∀ j, jobByHandle s c.g x = some j → j.2.live = true → f.m 0 = true ∨ isDet s c.g = true →
      Waits (.xpoll w) c s 4) ∧
    (jobByHandle s c.g x = none → Does (.xkill w) c s (begun c s)) ∧
    (∀ m j, jobByHandle s c.g x = some (m, j) →
      let t := modJobs m (fun js => js.map fun y => if y = j then stopJob (some (c.g, c.w.seq)) y else y) (begun c s)
      Does (.xkill w) c s (if j.live && j.stage = 0 then decisionPoint t else t))

/-! ### The C engine (R191 to R208) -/

/-- A copy word meets none of the traps and waits of R192, R195 and R198. -/
structure Obl.CopyClear (c : Cur) (s : State) (q : CopyReq) (weights : Bool) (f : Flds) : Prop where
  aligned : q.misal = none ∧ (compBad s c.g f).1 = none
  comp : (compBad s c.g f).2 = false
  limits : q.bad = false
  inside : ∀ r ∈ q.named, localSpan s c.g r.1 r.2 = true
  dst : ∀ r ∈ q.pairs.dstRanges, ((copySpaces f weights).1 = 1 → localSpan s c.g r.1 r.2 = true) ∧
    rangeStashed s c.g (copySpaces f weights).1 r = false
  src : ∀ r ∈ q.pairs.srcRanges, ((copySpaces f weights).2 = 1 → localSpan s c.g r.1 r.2 = true) ∧
    rangeStashed s c.g (copySpaces f weights).2 r = false
  named : ∀ r ∈ q.named, rangeStashed s c.g 1 r = false
  window : weights = true → uread s c.g f.a + uread s c.g f.c ≤ (winG s c.g).wbN ∧
    ∀ j ∈ jobsOf s (lkOf c.g) (coreOf s c.g),
      j.locksWeights (winG s c.g) (uread s c.g f.a) (uread s c.g f.c) = false
  table : stashLocks s (coreOf s c.g) ≤ 30 ∧ 2 ≤ freeLocks s (coreOf s c.g) ∧
    (engineCmds s (coreOf s c.g)).length < 64
  timed : q.time.isSome = true →
    ((core s (coreOf s c.g)).cmds.filter fun x => x.time.isSome && !x.wrote).length < 32

/-- The six copy words: each is accepted, with the bytes that R194 gives it, its locks in the core's table and a
place in its copy engine (R191 to R195, R198). -/
def Obl.CopyWords : Prop :=
  ∀ (c : Cur) (s : State) (w : XW),
    let f := w.flds
    let takes (i : Instr) (q : CopyReq) (weights : Bool) : Prop := Obl.CopyClear c s q weights f →
      Does i c s (acceptCmd c q (copySpaces f weights) f (begun c s))
    takes (.cpy w) (reqLinear s c.g f false false) false ∧
    takes (.cpyt w) (reqLinear s c.g f false true) false ∧
    takes (.cpynd w) (reqNd s c.g f) false ∧
    takes (.cpyg w) (reqIndexed s c.g f false) false ∧
    takes (.cpys w) (reqIndexed s c.g f true) false ∧
    takes (.cpyw w) (reqLinear s c.g f true false) true

/-- The bytes of a strided copy, in the order of R194: byte b of element (i1, i2, i3) is one pair, and the pairs
are numbered with b fastest and i3 slowest. -/
def Obl.StridedPairs : Prop :=
  ∀ (d x n0 n1 n2 n3 b i1 i2 i3 : Nat) (s1 s2 s3 t1 t2 t3 : Int),
    b < n0 → i1 < n1 → i2 < n2 → i3 < n3 →
    b + n0 * (i1 + n1 * (i2 + n2 * i3)) < (CopyPairs.nd d x n0 n1 n2 n3 s1 s2 s3 t1 t2 t3).total ∧
    (CopyPairs.nd d x n0 n1 n2 n3 s1 s2 s3 t1 t2 t3).pairAt (b + n0 * (i1 + n1 * (i2 + n2 * i3))) =
      ((d : Int) + i1 * t1 + i2 * t2 + i3 * t3 + b, (x : Int) + i1 * s1 + i2 * s2 + i3 * s3 + b)

/-- The ring header that a word names: 64-byte aligned, inside the window, and valid. -/
structure Obl.RingHdr (s : State) (g h : Nat) (x : Half) (r : Ring) : Prop where
  aligned : h % 64 = 0
  place : localRun s g h 64 = some (x.half, x.off)
  header : ringAt s g h = r
  valid : r.valid = true

/-- RINIT, RWAIT, RREL, RPOST, RTAIL and CQRY (R202 to R208). -/
def Obligations.RingWords : Prop :=
  ∀ (c : Cur) (s : State) (w : XW) (x : Half) (r : Ring),
    let f := w.flds
    let h := uread s c.g f.a
    let k := coreOf s c.g
    let cfg := uread s c.g f.b
    (∀ half o,
      let src := if cfg.testBit 8 then uread s c.g f.c else 0
      let new : Ring := ⟨0, 0, 0, cfg % 16, nbits cfg 7 4, cfg.testBit 8, true, src⟩
      h % 64 = 0 → src % 64 = 0 → cfg < 512 → 1 ≤ new.lslots → new.lslots ≤ 12 → new.lslotb ≤ 10 →
      localRun s c.g h (64 + new.slots * new.slotb) = some (half, o) →
      let old (y : Watch) : Bool := tkOf y.g = tkOf c.g && y.hdr = o && y.half = half && y.dead.isNone
      let gone (m : Nat) := ((core s m).cmds.filter fun y =>
        tkOf y.g = tkOf c.g && y.ring.map (·.1) = some o && y.half = half).map (·.id)
      let drop (t : State) (m : Nat) : State := modCore t m fun C =>
        { C with
          cmds := C.cmds.filter fun y => !(gone m).contains y.id
          locks := C.locks.filter fun y => y.kind = 2 || !(gone m).contains y.id
          watches := C.watches.map fun y => if old y then { y with dead := some (c.g, c.w.seq) } else y }
      let cores := if (launchOf s c.g).paired then [k / 2 * 2, k / 2 * 2 + 1] else [k]
      (new.pull = true → ((core s k).watches.filter fun y => y.dead.isNone && !old y).length < 8) →
      Does (.rinit w) c s (locPut c.g c.w.seq half o (toBytes 64 (ringNum new))
        (modCore (cores.foldl drop (begun c s)) k fun C =>
          { C with watches := C.watches ++ (if new.pull then [⟨c.g, c.w.seq, half, o, src, none⟩] else []) }))) ∧
    (Obl.RingHdr s c.g h x r →
      (f.imm < r.slots → f.imm < r.ready →
        Does (.rwait w) c s (acqEvent c.g (uwrite c f.d (r.slotAt h (r.head + f.imm)) (begun c s)))) ∧
      (f.imm < r.slots → r.ready ≤ f.imm → Waits (.rwait w) c s 4) ∧
      (r.slots ≤ f.imm → Traps (.rwait w) c s 4 6 0) ∧
      (mxBusy s c = false → f.imm ≤ r.ready → r.pull = false →
        Does (.rrel w) c s (ringAdd c x 0 f.imm (begun c s))) ∧
      (mxBusy s c = false → r.ready < f.imm →
        (r.pull = true → globalLock s c.g ((r.src + 8) % 2 ^ 64) 4 false = none) → Traps (.rrel w) c s 4 6 0) ∧
      (let va := (r.src + 8) % 2 ^ 64
       (∀ cause, mxBusy s c = false → r.pull = true → globalLock s c.g va 4 false = some cause →
         Traps (.rrel w) c s 4 cause va) ∧
       (∀ hit t, mxBusy s c = false → f.imm ≤ r.ready → r.pull = true → globalLock s c.g va 4 false = none →
         c.w.pois = 0 → c.w.fail = 0 → xlateLanes c.g .write false [(0, va)] (begun c s) = ([hit], [], t) →
         holdFull t c.g c.w.seq (newSectors t c.g c.w.seq [hit.pa / 64]) = none →
         Does (.rrel w) c s (ringAdd c x 0 f.imm (hold c.g c.w.seq (.data (va - va % 64)
           (hit.pa - hit.pa % 64) (sectorBytes [(hit.pa, toBytes 4 ((r.head + f.imm) % 2 ^ 32))]) 0 hit.dev)
           t hit.low)))) ∧
      (let src := uread s c.g f.b
       let len := uread s c.g f.c
       let ssp := if f.m 0 then 1 else 0
       let sr : Int × Int := ((src : Int), ((src + len : Nat) : Int))
       let p : CopyPairs := .linear (r.slotAt h r.tail) src len
       let cmd : Cmd := { id := s.nextId, lk := lkOf c.g, core := k, g := c.g, seq := c.w.seq, pairs := p,
                          dsp := 1, ssp := ssp, half := x.half, ring := some (x.off, r.tail), hdrAt := h,
                          todo := List.range p.chunks, after := (grp s c.g).seen }
       r.pull = false → 0 < len → len ≤ r.slotb → (ssp = 1 → localSpan s c.g sr.1 sr.2 = true) →
       rangeStashed s c.g ssp sr = false → stashLocks s k ≤ 31 → 1 ≤ freeLocks s k →
       (engineCmds s k).length < 64 → (isDet s c.g = false → diff32 r.tail r.head < r.slots) →
       let taken := modCore { begun c s with nextId := s.nextId + 1 } k fun C =>
         { C with locks := C.locks ++ acceptLocks s c.g s.nextId [(ssp, sr)] [], cmds := C.cmds ++ [cmd] }
       Does (.rpost w) c s (if isDet s c.g then taken else ringAdd c x 4 1 taken)) ∧
      (f.mod % 4 = 3 → Does (.cqry w) c s (uwrite c f.d r.ready (begun c s)))) ∧
    (∀ hit t, h % 64 = 0 → memBusy s c = false → globalLock s c.g h 4 false = none →
      c.w.pois = 0 → c.w.fail = 0 → xlateLanes c.g .write false [(0, h)] (begun c s) = ([hit], [], t) →
      holdFull t c.g c.w.seq (newSectors t c.g c.w.seq [hit.pa / 64]) = none →
      Does (.rtail w) c s (relEvent c.g (hold c.g c.w.seq (.data (h - h % 64) (hit.pa - hit.pa % 64)
        (sectorBytes [(hit.pa, toBytes 4 (uread s c.g f.b % 2 ^ 32))]) 2 hit.dev) t hit.low))) ∧
    (f.mod % 4 = 0 → Does (.cqry w) c s
      (uwrite c f.d ((engineCmds s k).filter fun y => y.lk = lkOf c.g).length (begun c s))) ∧
    (f.mod % 4 = 1 → Does (.cqry w) c s (uwrite c f.d (freeLocks s k) (begun c s))) ∧
    (f.mod % 4 = 2 → Does (.cqry w) c s (uwrite c f.d (64 - (engineCmds s k).length) (begun c s)))

/-! ### The Y engine (R209 to R222) -/

/-- Named barriers: what BAR, BARA, BARW and BARD write, and when BAR and BARW wait (R210 to R212); an arrival is a
release event and a passed phase an acquire event (R211, R257). -/
def Obl.NamedBarriers : Prop :=
  ∀ (c : Cur) (s : State),
    let says4 (bar bara barw bard : Instr) (f : Flds) : Prop :=
      let b := barAt s c.g f.a
      let arrived := jw c (.bar (tkOf c.g) f.a) .barArrive (relEvent c.g (begun c s))
      (c.w.stage = 0 → (barCount b = 0 ∨ barPhase (barAt arrived c.g f.a) ≠ barPhase b) →
        Does bar c s (acqEvent c.g arrived)) ∧
      (c.w.stage = 0 → barCount b ≠ 0 → barPhase (barAt arrived c.g f.a) = barPhase b →
        Starts bar c s → overCharge arrived c.g c.w.seq = none →
        exec bar s = .next (requeue c bar { c.w with stage := 1, aux := barPhase b, cause := 2 } arrived)) ∧
      (c.w.stage ≠ 0 → barPhase b ≠ c.w.aux → Does bar c s (acqEvent c.g (begun c s))) ∧
      (c.w.stage ≠ 0 → barPhase b = c.w.aux → Waits bar c s 2) ∧
      Does bara c s (jw c (.bar (tkOf c.g) f.a) .barArrive
        (relEvent c.g (uwrite c f.d (barPhase b) (begun c s)))) ∧
      (barPhase b ≠ uread s c.g f.b % 256 → Does barw c s (acqEvent c.g (begun c s))) ∧
      (barPhase b = uread s c.g f.b % 256 → Waits barw c s 2) ∧
      Does bard c s (jw c (.bar (tkOf c.g) f.a) .barDrop (relEvent c.g (begun c s)))
    (∀ w : SW, says4 (.bar w) (.bara w) (.barw w) (.bard w) w.flds) ∧
    (∀ w : XW, says4 (.barX w) (.baraX w) (.barwX w) (.bardX w) w.flds)

/-- An arrival takes one from LEFT; at LEFT = 0 the phase moves on and LEFT is COUNT again; a drop takes one
from both. A barrier that no launch has armed does not change (R210). -/
def Obl.BarrierValues : Prop :=
  ∀ left count phase : Nat, 0 < left → left ≤ count → count < 128 → phase < 256 →
    (1 < left → barArrive (barMake left count phase) = barMake (left - 1) count phase ∧
      barDrop (barMake left count phase) = barMake (left - 1) (count - 1) phase) ∧
    (left = 1 → barArrive (barMake left count phase) = barMake count count ((phase + 1) % 256) ∧
      barDrop (barMake left count phase) = barMake (count - 1) (count - 1) ((phase + 1) % 256)) ∧
    (∀ b, barCount b = 0 → barArrive b = b ∧ barDrop b = b)

/-- A transaction-barrier object of the team that a word names: aligned, inside the window and not poisoned. -/
structure Obl.TeamObj (s : State) (g a : Nat) (x : Half) (o : TbObj) : Prop where
  aligned : a % 16 = 0
  place : localRun s g a 16 = some (x.half, x.off)
  clean : locPoison s (tkOf g) x.half x.off = false
  object : tbOf (memNum ((team s (tkOf g)).mem x.half) x.off 16) = o

/-- A cluster object that a word names: aligned, translated, unlocked and not poisoned. -/
structure Obl.ClusterObj (c : Cur) (s : State) (a : Nat) (reads : Bool) (own : Nat) (hit : Hit) (t : State) :
    Prop where
  fresh : c.w.pois = 0 ∧ c.w.fail = 0
  aligned : a % 16 = 0
  unlocked : globalLock (begun c s) c.g a 16 reads = none
  fits : neverFits (begun c s) c.g (0, 0, own) = false
  translated : xlateLanes c.g .atomic false [(0, a)] (begun c s) = ([hit], [], t)
  clean : viewPoison t c.g hit.pa = false

/-- TBINIT, TBEXP, TBARR and TBWAIT on team objects and on cluster objects (R213 to R215). -/
def Obl.TransactionBarriers : Prop :=
  ∀ (c : Cur) (s : State) (w : XW) (x : Half) (o : TbObj),
    let f := w.flds
    let a := uread s c.g f.a
    let v := sx 32 (uread s c.g f.b)
    (Obl.TeamObj s c.g a x o →
      (f.m 0 = false → f.imm ≤ 64 → Does (.tbinit w) c s (tbJw c x 0 f.imm (begun c s))) ∧
      (f.m 0 = false → 64 < f.imm → Traps (.tbinit w) c s 4 6 0) ∧
      (f.m 3 = false → o.kind = 1 → Does (.tbexp w) c s (tbJw c x 2 v (begun c s))) ∧
      (f.m 3 = false → o.kind ≠ 1 → Traps (.tbexp w) c s 4 6 0) ∧
      (f.m 3 = false → o.kind = 1 → o.left ≠ 0 → Does (.tbarr w) c s
        (tbJw c x 3 (if f.m 0 then v else 0) (if f.m 1 then uwrite c f.d o.phase (begun c s) else begun c s))) ∧
      (f.m 3 = false → o.kind ≠ 1 ∨ o.left = 0 → Traps (.tbarr w) c s 4 6 0) ∧
      (f.m 3 = false → o.kind = 1 → tbPassed o.phase (uread s c.g f.b) = true →
        Does (.tbwait w) c s (acqEvent c.g (begun c s))) ∧
      (f.m 3 = false → o.kind = 1 → tbPassed o.phase (uread s c.g f.b) = false → Waits (.tbwait w) c s 2) ∧
      (f.m 3 = false → o.kind ≠ 1 → Traps (.tbwait w) c s 4 6 0)) ∧
    (∀ hit t, Obl.ClusterObj c s a false 64 hit t → holdFull t c.g c.w.seq 1 = none →
      (f.m 0 = true → Does (.tbinit w) c s (hold c.g c.w.seq (.tb 1 a hit.pa f.imm f.imm) t)) ∧
      (f.m 3 = true → Does (.tbexp w) c s (hold c.g c.w.seq (.tb 2 a hit.pa 0 v) t) ∧
        Does (.tbarr w) c s (hold c.g c.w.seq (.tb 3 a hit.pa 0 (if f.m 0 then v else 0)) t))) ∧
    (∀ hit t u, f.m 3 = true → Obl.ClusterObj c s a true 0 hit t → epochWait (begun c s) c (0, 0, 0) = false →
      ownAtoms t c [hit.pa] 16 = [] → readSectors c [hit] t = (true, u) →
      let t1 := markRead c.g (hitBytes [hit] 16) (cacheRead c.g hit.pa hit.low u)
      let o := tbOf (loadNum t1 c.g hit.pa 16)
      o.kind = 2 → tbPassed o.phase (uread s c.g f.b) = true → Does (.tbwait w) c s (acqEvent c.g t1))

/-- A transaction barrier completes a phase when no arrival is left and no byte is pending, and then starts the
next one: LEFT is COUNT and PEND is 0 (R213, R214). -/
def Obl.BarrierPhases : Prop :=
  ∀ o : TbObj,
    (o.left = 0 → o.pend = 0 →
      tbComplete o = { o with phase := (o.phase + 1) % 2 ^ 32, left := o.count, pend := 0 }) ∧
    (o.left ≠ 0 ∨ o.pend ≠ 0 → tbComplete o = o)

/-- GIVE, CLAIM, ROTCFG, QEND, QSEAL, TWTIME and YIELD (R216 to R222). -/
def Obligations.PoolAndQuantum : Prop :=
  ∀ (c : Cur) (s : State),
    let G := grp s c.g
    let giveTo (n : Nat) : State :=
      let s1 := (List.range (8 * n)).foldl (fun t i => clearReg c (8 * (G.blocks - n) + i) t) (begun c s)
      addPool c n (setBlocks c (G.blocks - n) s1)
    let claimTo (n : Nat) : State := addPool c (-(n : Int)) (setBlocks c (G.blocks + n) (begun c s))
    let granted (t : State) : State := (coreMates t c.g).foldl (fun u h => grantWaiting h u) t
    (∀ w : SW, Does (.give w) c s (granted (giveTo w.a.toNat))) ∧
    (∀ w : XW, Does (.giveX w) c s (granted (giveTo w.a.toNat))) ∧
    (∀ h t w n, waitingClaim (grp t h) = some (w, n) →
      let d : Cur := ⟨h, true, w⟩
      let u := useRot h w t
      (poolOf t h < n → grantWaiting h t = t) ∧
      (n ≤ poolOf t h → w.instr.flds.a = n → stopped t h = false → guardedOff u d w.instr = false →
        handlerWaits u h w.instr = false → overCharge (grantClaim w.instr.flds d u) h w.seq = none →
        grantWaiting h t = finish d w.instr (grantClaim w.instr.flds d u))) ∧
    (∀ w : SW, w.a.toNat ≤ poolOf s c.g → Does (.claim w) c s (claimTo w.a.toNat)) ∧
    (∀ w : SW, poolOf s c.g < w.a.toNat → c.w.stage ≠ 2 → Waits (.claim w) c s 5) ∧
    (∀ w : XW, poolOf s c.g < w.a.toNat → c.w.stage ≠ 2 → Waits (.claimX w) c s 5) ∧
    (∀ w : SW, poolOf s c.g < w.a.toNat → c.w.stage = 2 → Starts (.claim w) c s → exec (.claim w) s =
      .next (raiseTrap c.g (trapRec (begun c s) c (.claim w) 7 0 0 0)
        (requeue c (.claim w) { c.w with stage := 0, cause := 0 } (begun c s)))) ∧
    (∀ w : XW, w.a.toNat ≤ poolOf s c.g → Does (.claimX w) c s
      (if w.mod.getLsbD 0 then uwrite c w.d.toNat 1 (claimTo w.a.toNat) else claimTo w.a.toNat)) ∧
    (∀ w : XW, poolOf s c.g < w.a.toNat → c.w.stage = 2 → w.mod.getLsbD 0 = true →
      Does (.claimX w) c s (uwrite c w.d.toNat 0 (begun c s))) ∧
    (∀ w : XW,
      let n := w.a.toNat
      let s1 := (List.range n).foldl (fun t i => clearReg c (8 * G.blocks - n + i) t) (begun c s)
      let s2 := jw c (.rot c.g) (.set (.num ((n * 128 + w.b.toNat) * 128))) s1
      Does (.rotcfg w) c s (if w.flds.ge then replan c ⟨n, w.b.toNat, 0⟩ s2 else s2)) ∧
    (∀ w : SW, Does (.qend w) c s (closeAfter c (begun c s))) ∧
    (let cause := if isDet s c.g then 8 else 6
     ∀ w : SW,
      (c.w.stage = 0 → handlerStuck s c.g = false → Starts (.qseal w) c s →
        overCharge (closeAfter c (begun c s)) c.g c.w.seq = none →
        exec (.qseal w) s =
          .next (requeue c (.qseal w) { c.w with stage := 1, cause := cause } (closeAfter c (begun c s)))) ∧
      (c.w.stage = 0 → handlerStuck s c.g = true → Traps (.qseal w) c s 11 0 0) ∧
      (c.w.stage ≠ 0 → released (begun c s) c.g c.w.seq = true → Does (.qseal w) c s (begun c s)) ∧
      (c.w.stage ≠ 0 → released (begun c s) c.g c.w.seq = false → Waits (.qseal w) c s cause)) ∧
    (∀ w : XW,
      let at0 := uread s c.g w.a.toNat + (if w.mod.getLsbD 0 then (launchOf s c.g).release else 0)
      (at0 ≤ s.now → Does (.twtime w) c s (begun c s)) ∧ (s.now < at0 → Waits (.twtime w) c s 6)) ∧
    (∀ w : SW,
      let s1 := modGrp (begun c s) c.g fun G => { G with yielded := true }
      let asked := (part s (lkOf c.g) (seatOf s c.g)).preempt = true ∧ isDet s c.g = false
      (¬asked → Does (.yield w) c s s1) ∧ (asked → Does (.yield w) c s (closeAfter c s1)))

/-! ### The N engine (R223 to R239) -/

/-- PSH, POP and PSTAT (R227 to R229): what enters the channels, what the lanes take, and the traps PORT. -/
def Obl.PortWords : Prop :=
  ∀ (c : Cur) (s : State) (w : XW),
    let f := w.flds
    let fs := feedsOf s c.g f.b (fun l => vread (begun c s) c.g f.a l) (activeLanes s c f)
    let bound : Prop := f.b < 2 ∨ (peerOf s c.g f.b).isSome
    let ch := chanAt s c.g f.b
    let j := ch.taken.length
    let e := entryAt s c.g f.b j
    let ls := laneList s c f
    let away := fs.any fun x => unreachable s x.peer.dev
    let full := fs.filter fun x => 8 ≤ unfreed s c.g x
    (bound → away = false → full = [] →
      Does (.psh w) c s (relEvent c.g (fs.foldl (addPart c) (begun c s)))) ∧
    (¬bound → Traps (.psh w) c s 8 0 0) ∧
    (bound → away = true → Traps (.psh w) c s 8 3 0) ∧
    (bound → away = false → full.any (pushDead s) = true → Traps (.psh w) c s 8 2 0) ∧
    (bound → away = false → full ≠ [] → full.any (pushDead s) = false → Waits (.psh w) c s 3) ∧
    (sourcesOf s c.g f.b ≠ [] → entryReady s c.g f.b j = true →
      let s1 := setChan c.g f.b { ch with taken := ch.taken ++ [c.w.seq] } (begun c s)
      let s2 := vwriteLanes c f.d
        ((ls.filter fun l => e.2.testBit l).map fun l => (l, (nget 0 e.1 l).toNat)) s1
      Does (.pop w) c s (acqEvent c.g (if f.m 0 then
        pput c f.c (ls.map fun l => (l, e.2.testBit l)) s2 else s2))) ∧
    (sourcesOf s c.g f.b = [] → Traps (.pop w) c s 8 0 0) ∧
    Does (.pstat w) c s (uwrite c f.d
      (readyCount s c.g f.b % 16 +
        ((feedsOf s c.g f.b (fun _ => 0) 0).foldl (fun a x => min a (8 - unfreed s c.g x)) 8) * 16 +
        b2n (decide (f.b < 2) || (peerOf s c.g f.b).isSome) * 256) (begun c s))

/-- A link word's operands: a local run that is aligned, inside the window and free, a peer in the launch, and a
route that is fixed and up (R231 to R233). -/
structure Obl.LinkClear (s : State) (g a n : Nat) (p : LinkPeer) (load : Bool) : Prop where
  aligned : a % 64 = 0
  length : n % 64 = 0 ∧ 64 ≤ n ∧ n ≤ 65536
  inside : (localRun s g a n).isSome
  peer : p.bad = false
  free : linkLocal s g a n load = none
  routed : (launchOf s g).routed = true ∧ routeOk s g p.dev = true
  clean : runPois s g (a, n) = []

/-- LSND, LRCV and LRADD: a message is held and its source locked; a message that has arrived, of the size asked
for, is stored, or added element by element, and taken (R231, R232). A message that has left before a rollback to the
last commit is not held again (the model's choice, log entry 30). -/
def Obl.LinkWords : Prop :=
  ∀ (c : Cur) (s : State) (w : XW) (m : Msg),
    let f := w.flds
    let a := uread s c.g f.a
    let n := uread s c.g f.b
    let p := linkPeer s c.g (uread s c.g f.c)
    let k := coreOf s c.g
    (Obl.LinkClear s c.g a n p true → c.w.seq ∈ (grp s c.g).gone → Does (.lsnd w) c s (relEvent c.g (begun c s))) ∧
    (Obl.LinkClear s c.g a n p true → c.w.seq ∉ (grp s c.g).gone → 1 ≤ freeLocks s k →
      (s.msgs.filter fun m => m.inChan (deviceNo s) c.g p.dev p.g p.chan && m.taken.isNone).length < 8 →
      let s1 := linkLock c s.nextId 0 a n { begun c s with nextId := s.nextId + 1 }
      Does (.lsnd w) c s (relEvent c.g { s1 with
        msgs := s1.msgs ++ [{ src := c.g, sdev := deviceNo s, dst := p.g, ddev := p.dev, chan := p.chan,
                              seq := c.w.seq, bytes := toBytes n (runNum s c.g (a, n)), lock := s.nextId,
                              core := k, after := (grp s c.g).seen }] })) ∧
    (c.w.stage ≠ 0 → routeOk s c.g p.dev = true → nextMsg s c.g p = some m → m.bytes.length = n →
      let fin (t : State) : State := acqEvent c.g (linkUnlock k c.w.aux
        (let u := uwrite c f.d n t
         { u with msgs := u.msgs.map fun x => if x = m then { x with taken := some c.w.seq } else x }))
      Does (.lrcv w) c s (fin (runPut c a m.bytes (begun c s))) ∧
      (runPois s c.g (a, n) = [] → Does (.lradd w) c s
        (fin (runPut c a (lraddRun f.mod n (runNum s c.g (a, n)) (ofBytes m.bytes)) (begun c s))))) ∧
    (c.w.stage ≠ 0 → routeOk s c.g p.dev = true → nextMsg s c.g p = none →
      Waits (.lrcv w) c s 3 ∧ Waits (.lradd w) c s 3)

/-- The sum-tree words: the command, with its lanes' operands, enters the hold-back buffer; a word with a result
closes its quantum and stays in flight until the command performs (R234 to R239). -/
def Obligations.TreeWords : Prop :=
  ∀ (c : Cur) (s : State) (w : XW),
    let f := w.flds
    let ls := laneList s c f
    let v (n l : Nat) : Nat := vread (begun c s) c.g n l
    let ops := ls.map fun l => (l, v f.a l, v f.b l, v f.c l)
    let held (cmd : TreeCmd) : State := hold c.g c.w.seq (.tree f.imm cmd) (begun c s)
    let answers (i : Instr) (cmd : TreeCmd) (ds : List Reg) : Prop :=
      handlerStuck s c.g = false → Obl.Flies i c s (heldFlight c 6 ds) (closeAfter c (held cmd))
    holdFull (begun c s) c.g c.w.seq 1 = none →
    (ls ≠ [] →
      (f.m 0 = true → Does (.trins w) c s (held (.ins none ops))) ∧
      (f.m 0 = false → answers (.trins w) (.ins (some f.d) ops) [.v f.d]) ∧
      answers (.trupd w) (.upd f.d ops) [.p f.d] ∧
      answers (.trdrw w) (.drw f.d (uread s c.g f.a) ls) [.v f.d, .v (f.d + 1), .v (f.d + 2)] ∧
      answers (.trwgt w) (.wgt f.d (f.m 0) (ls.map fun l => (l, v f.a l))) [.v f.d]) ∧
    (ls = [] → Does (.trins w) c s (if f.m 0 then begun c s else closeAfter c (begun c s)) ∧
      Does (.trupd w) c s (closeAfter c (begun c s)) ∧ Does (.trdrw w) c s (closeAfter c (begun c s)) ∧
      Does (.trwgt w) c s (closeAfter c (begun c s))) ∧
    answers (.trtot w) (.tot f.d f.mod) [.u f.d] ∧
    Does (.trcfg w) c s (held (.cfg f.b (uread s c.g f.a)))

/-! ### The Z engine (R240 to R247) -/

/-- TRAP and BKPT raise SOFT and BKPT with their I23 as the cause; as the trap is delivered the word completes, with its
slot past it (R84, R240). -/
def Obl.TrapWords : Prop :=
  (∀ (c : Cur) (s : State) (w : KW),
    (Starts (.trap w) c s → exec (.trap w) s = .next (raiseTrap c.g
      { trapRec (begun c s) c (.trap w) 10 w.imm.toNat 0 0 with fin := true }
      (requeue c (.trap w) c.w (begun c s)))) ∧
    (Starts (.bkpt w) c s → exec (.bkpt w) s = .next (raiseTrap c.g
      { trapRec (begun c s) c (.bkpt w) 9 w.imm.toNat 0 0 with fin := true }
      (requeue c (.bkpt w) c.w (begun c s))))) ∧
  (∀ (g : Nat) (s : State) (r : TrapRec),
    (r.fin = false → finishTrap g r s = s) ∧
    (∀ w, r.fin = true → (queueOf (grp s g) r.queue).find? (fun x => x.seq = r.seq) = some w →
      finishTrap g r s = finish ⟨g, true, w⟩ w.instr (resolve ⟨g, true, w⟩ ((w.pc.toNat + 8) % 2 ^ 64) s)))

/-- A raised trap that may go to a handler, of a group that runs none and has a vector, is delivered once every
started word has completed: the trap registers take its values, the mode becomes supervisor, slot 0 stands at
TVEC + 16 × class with the trapping slot's lanes, slot 1 is invalid, and the queues are empty (R84, R321, R322).
No register, row or byte of memory changes. -/
def Obl.HandlerEntry : Prop :=
  ∀ (g : Nat) (s : State) (r : TrapRec),
    let G := grp (abandon g (finishTrap g r s)) g
    let tvec := (launchOf s g).tvec.toNat
    let t := deliver g s
    (grp s g).raised = some r → settled (isDet s g) (grp s g) = true → (grp s g).handler = none → tvec ≠ 0 →
    toHandler r.cls r.cause = true →
    (grp t g).tstat = BitVec.ofNat 64 (tstatOf r) ∧ (grp t g).tseq = BitVec.ofNat 64 r.seq ∧
    (grp t g).taddr = r.addr ∧ (grp t g).trec = BitVec.ofNat 64 (tvec + 256) ∧ (grp t g).supv = true ∧
    (grp t g).s0 = ⟨BitVec.ofNat 64 (tvec + 16 * r.cls), r.smask, true, false⟩ ∧
    (grp t g).s1.valid = false ∧ (grp t g).raised = none ∧ unstarted (grp t g) = [] ∧
    (grp t g).plan = rotOf G ∧
    (grp t g).handler = some ⟨r, G.nextSeq, G.s0, G.s1, G.turn, sortWords (unstarted G)⟩ ∧
    SameItems s t ∧ SameMemory s t

/-- Every other trap goes to the host: the trap registers take its values and the dispatcher learns of the first
one; in a handler the class becomes DOUBLE (R324, R327). -/
def Obl.HostTraps : Prop :=
  ∀ (g : Nat) (s : State) (r : TrapRec),
    let G := grp s g
    let t := deliver g s
    let cls := if G.handler.isSome then 11 else r.cls
    G.raised = some r → settled (isDet s g) G = true →
    (G.handler.isSome ∨ toHandler r.cls r.cause = false ∨ (launchOf s g).tvec = 0) →
    (grp t g).tstat = BitVec.ofNat 64 (tstatOf { r with cls := cls }) ∧
    (grp t g).tseq = BitVec.ofNat 64 r.seq ∧ (grp t g).taddr = r.addr ∧
    (launchOf t g).hostTrap = some ((launchOf s g).hostTrap.getD (g, { r with cls := cls })) ∧
    SameItems s t ∧ SameMemory s t

/-- SYSRD reads the system register that its number names; the other system words enter the hold-back buffer, act
after their seal, and complete as they act (R79, R242 to R247). -/
def Obl.SystemWords : Prop :=
  ∀ (c : Cur) (s : State) (w : XW),
    let f := w.flds
    let a := uread s c.g f.a
    let held (cmd : SysCmd) : State := hold c.g c.w.seq (.sys cmd) (begun c s)
    Does (.sysrd w) c s (uwrite c f.d (sysReg s c.g f.imm) (begun c s)) ∧
    (holdFull (begun c s) c.g c.w.seq 1 = none →
      let waits (i : Instr) (ds : List Reg) (cmd : SysCmd) : Prop := Obl.Flies i c s (heldFlight c 7 ds) (held cmd)
      waits (.syswr w) [] (.sysWr f.imm a) ∧
      waits (.wake w) [] (.wake a) ∧
      (handlerStuck s c.g = false → waits (.gate w) [.u f.d] (.gate f.d a)) ∧
      waits (.jobarm w) [] (.jobArm (a % 4096) (uread s c.g f.b)) ∧
      (∀ v : SW, waits (.jobdone v) [] .jobDone) ∧
      (a % 4096 = 0 → handlerStuck s c.g = false → waits (.susp w) [] (.susp a)) ∧
      waits (.fltrply w) [] (.fltRply (a % 2 ^ 32) (uread s c.g f.b % 4))) ∧
    (a % 4096 ≠ 0 → Traps (.susp w) c s 2 0 a) ∧
    (handlerStuck s c.g = true → Traps (.gate w) c s 11 0 0 ∧ (a % 4096 = 0 → Traps (.susp w) c s 11 0 0)) ∧
    (∀ v : SW, Does (.jobyld v) c s (askPreempt (lkOf c.g) (seatOf s c.g) (begun c s))) ∧
    (∀ v : SW, c.w.stage = 0 → Starts (.halt v) c s → overCharge (begun c s) c.g c.w.seq = none →
      exec (.halt v) s = .next (requeue c (.halt v) { c.w with stage := 1, cause := 6 } (begun c s))) ∧
    (∀ v : SW, c.w.stage = 1 → c.w.aux = 1 →
      Does (.halt v) c s (resolve c ((c.w.pc.toNat + 4) % 2 ^ 64) (begun c s))) ∧
    (∀ v : SW, c.w.stage = 1 → c.w.aux ≠ 1 → Waits (.halt v) c s 6)

/-- The system registers (R242): each number reads the state it names. -/
def Obl.SystemRegisters : Prop :=
  ∀ (s : State) (g : Nat),
    sysReg s g 0x000 = (pair s (pairOf s g)).sealWin ∧
    sysReg s g 0x001 = (launchOf s g).tvec.toNat ∧
    sysReg s g 0x002 = (grp s g).tstat.toNat ∧
    sysReg s g 0x003 = (grp s g).tseq.toNat ∧
    sysReg s g 0x004 = (grp s g).taddr.toNat ∧
    sysReg s g 0x005 = (grp s g).trec.toNat ∧
    sysReg s g 0x010 = (pair s (pairOf s g)).strikes ∧
    sysReg s g 0x011 = (launchOf s g).preads ∧
    sysReg s g 0x020 = (launchOf s g).partid ∧
    sysReg s g 0x021 = (launchOf s g).ctx ∧
    sysReg s g 0x030 = s.wakeReq ∧ sysReg s g 0x031 = s.gated ∧
    (∀ h, (grp s g).handler = some h →
      sysReg s g 0x100 = tstatOf h.trap ∧ sysReg s g 0x101 = h.trap.seq ∧
      sysReg s g 0x102 = h.trap.addr.toNat ∧ sysReg s g 0x103 = h.nextSeq)

/-- A privileged word of a user-mode group, with nothing else wrong in its bits, traps ILLOP with cause 5 as it
is fetched, and never enters its queue (R39, R75). -/
def Obl.PrivilegeTraps : Prop :=
  ∀ (c : Cur) (s : State) (i : Instr),
    (∃ w : SW, i = .hret w ∨ i = .halt w ∨ i = .nop 7 w ∨ i = .twait 7 w ∨ i = .tsig 7 w) ∨
    (cardFld s (gCard c.g) 14 14 = 0 ∧ ∃ w : XW, i = .jobarm w) ∨
    (∃ w : XW, i = .sysrd w ∨ i = .syswr w ∨ i = .wake w ∨ i = .gate w ∨ i = .susp w ∨ i = .fltrply w) →
    s.cur = some c → c.retry = false → (grp s c.g).nextSeq ≤ c.w.seq → stopped (begun c s) c.g = false →
      heldBack (begun c s) c.g i = false →
    (grp s c.g).supv = false →
    (∀ r, i.row = some r → r.cause2 i.flds = false ∧ r.cause3 i.flds = false ∧
      r.cause4 i.flds (8 * (grp s c.g).blocks) = false) →
    exec i s = .next (raiseTrap c.g (trapRec (begun c s) c i 1 5 0 0) (begun c s))

/-! ### Events of groups, quanta and copies -/

/-- Traps reach the handler or the host, a deadlocked CLAIM is released, a waiting TWTIME goes on when its time has
come, and a walk leaves its translation held (R218, R220, R283, R322, R327). -/
def Obl.GroupEvents : Prop :=
  ∀ (g : Nat) (s : State) (r : TrapRec) (w : QWord) (ws : List QWord),
    let G := grp s g
    let here := (nfind s.groups g).isSome = true
    (here → G.raised = some r → trapToHost s g r = false →
      exec (.trapDeliveryHandler g) s = .next (deliver g s)) ∧
    (∀ lk t, (launch s lk).hostTrap = some (g, t) → (launch s lk).killed = false → (launch s lk).tvec = 0 →
      (∀ h ∈ groupsOfLaunch s lk, (grp s h).raised = none) →
      exec (.trapDeliveryHost lk) s = .next (killCard (lk / 2)
        { killFor s (lk / 2) t.cls t.cause with cores := 2 ^ coreOf s g }
        (modLaunch s lk fun l => { l with killed := true }))) ∧
    (∀ i, claimDead s g = true → queueOf G 5 = w :: ws → w.instr = .claim i →
      exec (.claimDeadlock g) s =
        .next (wordStep (.claim i) (claimRes i.flds) ⟨g, true, { w with stage := 2 }⟩ s)) ∧
    (∀ i, claimDead s g = true → queueOf G 5 = w :: ws → w.instr = .claimX i →
      exec (.claimDeadlock g) s =
        .next (wordStep (.claimX i) (claimRes i.flds) ⟨g, true, { w with stage := 2 }⟩ s)) ∧
    (∀ i, queueOf G 5 = w :: ws → w.instr = .twtime i →
      exec (.twtimeTargetReached g) s = .next (wordStep (.twtime i) (twtimeRes i.flds) ⟨g, true, w⟩ s)) ∧
    (∀ va acc, here → exec (.tableWalkComplete g va acc) s = .next (xlate s g va (accOf acc)).2)

/-- A sector of a load returns, once no earlier load of the group has a byte of it still to come and its link lets it:
its lanes take what the pair reads there now, under continue zeros where it is poisoned; the last one completes the
word, which then counts as retired; one that met poison under contain traps, its other lanes done (R31, R81, R146,
R164, R165, R253, R374). A read that the regulator of the launch's PARTID defers waits (R279), as does one whose DRAM
sleeps (R397). -/
def Obl.LoadReturns : Prop :=
  ∀ (g seq n : Nat) (s t : State) (f : Flight) (w : QWord) (d ty : Nat) (unif : Bool)
    (addrs : NMap (Nat × Nat)) (pieces : List Piece) (p : Piece) (k : Option Nat),
    loadAt s g seq = some f → f.kind = .load w d ty unif addrs pieces → pieces[n]? = some p → fetchSector g p s = (k, t) →
    let ls := maskList 64 p.lanes.toNat
    let waits := loadBehind s g seq (ls.map fun l => (nget (0, 0) addrs l).2) (mtSize ty) = true ∨
      linkHolds s p.addr = true
    let pas := ls.flatMap fun l => (List.range (mtSize ty)).map fun i => (nget (0, 0) addrs l).2 + i
    let bad := viewPoison t g p.addr
    let t1 := markRead g pas (useRot g w t)
    let s1 := ls.foldl (fun u l => loadPut ⟨g, true, w⟩ d ty unif l
      (loadNum u g (nget (0, 0) addrs l).2 (mtSize ty)) u) (if bad then countPois g 1 t1 else t1)
    (waits → exec (.loadSectorReturn g seq n) s = .next s) ∧
    (¬waits → dramSleeps s p.addr = true → exec (.loadSectorReturn g seq n) s = .next (meetAsleep s)) ∧
    (∀ x, ¬waits → dramSleeps s p.addr = false → k = some x →
      exec (.loadSectorReturn g seq n) s = .next (putFlight g seq
        (some { f with kind := .load w d ty unif addrs (pieces.set n { p with ticket := k }) }) t)) ∧
    (¬waits → dramSleeps s p.addr = false → k = none → bad = false ∨ isCont t g = true →
      (1 < pieces.length → exec (.loadSectorReturn g seq n) s = .next (putFlight g seq
        (some { f with kind := .load (markDone w ls) d ty unif addrs (pieces.eraseIdx n) }) s1)) ∧
      (pieces.length = 1 → (∀ x ∈ addrs, (markDone w ls).done.toNat.testBit x.1 = true) →
        exec (.loadSectorReturn g seq n) s =
          .next (retireCheck g (modGrp (putFlight g seq none s1) g fun G => { G with qret := G.qret + 1 })))) ∧
    (∀ l va pa xs, ¬waits → dramSleeps s p.addr = false → k = none → bad = true → isCont t g = false → pieces.length = 1 →
      addrs.filter (fun x => !w.done.toNat.testBit x.1) = (l, va, pa) :: xs →
      let t2 := putFlight g seq none t
      let t3 := modGrp t2 g fun G => setQueue G 2 (insertWord w (queueOf G 2))
      queueLoad (grp t2 g) 2 < 8 → exec (.loadSectorReturn g seq n) s = .next (raiseTrap g
        (trapRec t3 ⟨g, true, w⟩ w.instr clsPoison 0 va (repMask unif w)) t3))

/-- A fault record and a duty record are written to their rings, with the ring's tail as their tag, unless the ring
is full; the host is told (R9, R292, R319). -/
def Obl.DriverRings : Prop :=
  ∀ (n : Nat) (s : State),
    (∀ r, s.faults[n]? = some r →
      let tail := reg s rFrTail
      let s1 := busWrite .outside (reg s rFrBase + 64 * (tail % 4096)) (r.bytes tail) 0 s
      (diff32 tail (reg s rFrHead) < 4096 →
        exec (.faultRecordWrite n) s = .next (raiseInt 0 (setReg
          { s1 with faults := s1.faults.eraseIdx n, outFaults := s1.outFaults ++ [{ r with tag := some tail }] }
          rFrTail ((tail + 1) % 2 ^ 32)))) ∧
      (4096 ≤ diff32 tail (reg s rFrHead) → exec (.faultRecordWrite n) s = .next s)) ∧
    (∀ d, s.duties[n]? = some d → d.tag = none →
      let tail := reg s rDrTail
      let s1 := busWrite .outside (reg s rDrBase + 64 * (tail % 1024)) (d.bytes tail) 0 s
      (diff32 tail (reg s rDrHead) < 1024 →
        exec (.dutyRecordWrite n) s = .next (raiseInt 1 (setReg
          { s1 with duties := s1.duties.set n { d with tag := some tail } } rDrTail ((tail + 1) % 2 ^ 32)))) ∧
      (1024 ≤ diff32 tail (reg s rDrHead) → exec (.dutyRecordWrite n) s = .next s))

/-- When quanta close: a pair's after 512 ns, at 4,096 retired words of a group, or at a full journal or hold-back
buffer; a group's of deterministic mode at each of its boundaries in turn, as soon as no earlier one can come, and at
its last word once it has no further words (R33); words of the group that waited to know their quantum then go on
(R36, R105). A close that is not due changes nothing. -/
def Obl.QuantumCloses : Prop :=
  ∀ (pr g b : Nat) (s : State),
    let full := (groupsOn s pr).any fun h => !isDet s h && decide (4096 ≤ (grp s h).qret)
    let t := detClose g s
    let G := grp t g
    let ended := (G.retired = true ∨ exhausted G = true) ∧ G.qlo < G.nextSeq
    (pr < 17 → (pair s pr).openAt + 512 ≤ s.now →
      exec (.quantumTimedClose pr) s = .next (dispatch (closePair pr none s))) ∧
    (s.now < (pair s pr).openAt + 512 → exec (.quantumTimedClose pr) s = .next s) ∧
    (full = true → exec (.quantumWordCountClose pr) s = .next (dispatch (closePair pr none s))) ∧
    (full = false → exec (.quantumWordCountClose pr) s = .next s) ∧
    (capacityFull s pr = true → exec (.quantumCapacityClose pr) s = .next (dispatch (closePair pr none s))) ∧
    (capacityFull s pr = false → exec (.quantumCapacityClose pr) s = .next s) ∧
    (isDet s g = false → exec (.detQuantumClose g) s = .next (landLate g s)) ∧
    ((grp s g).flights = [] → landLate g s = s) ∧
    (isDet s g = true → ended → exec (.detQuantumClose g) s = .next (landLate g (closeGroup g G.nextSeq t))) ∧
    (isDet s g = true → ¬ended → exec (.detQuantumClose g) s = .next (landLate g t)) ∧
    (isDet s g = true → nextBoundary s g = some b → boundarySure s g b = true →
      b ≤ G.qlo ∧ (grp s g).qnum < G.qnum)

/-- A pair's oldest closed quantum is sealed only when each of its groups has completed it and the seal window has
passed since (R34); its entries, commands and messages are then released, its journal entries are freed, and its
rollbacks are counted anew (R335). -/
def Obl.QuantumSeals : Prop :=
  ∀ (pr g q t : Nat) (ps : NMap Nat) (s : State),
    let marked := (headsOf s pr q).foldl (fun u g => markComplete g u) s
    ((pair s pr).pqs = (q, t) :: ps →
      (pairSealDue marked pr q t = false → exec (.quantumSeal false pr) s = .next marked) ∧
      (pairSealDue marked pr q t = true → exec (.quantumSeal false pr) s =
        .next (modPair ((headsOf marked pr q).foldl sealGroup marked) pr fun P =>
          { P with
            pqs := ps
            rolls := 0
            sealedAt := some s.now
            hb := P.hb.map fun h => if !isGroupEntry h && h.seq = q then { h with sealed := true } else h }))) ∧
    ((pair s pr).pqs = [] → exec (.quantumSeal false pr) s = .next s) ∧
    (isDet (markComplete g s) g = true → sealDue (markComplete g s) g = true →
      let u := markComplete g s
      exec (.quantumSeal true g) s = .next (modPair (sealGroup u g) (pairOf u g) fun P =>
        { P with sealedAt := some u.now })) ∧
    (sealDue (markComplete g s) g = false → exec (.quantumSeal true g) s = .next (markComplete g s))

/-- The event that performs entries of a kind leads from one state to another. -/
def Obl.Drains (pr n k : Nat) (s t : State) : Prop :=
  match k with
  | 0 => exec (.holdbackDrain pr n false) s = .next t
  | 1 => exec (.atomPerform pr n) s = .next t
  | 2 => exec (.clusterTbPerform pr n) s = .next t
  | 3 => exec (.deviceAccessPerform pr n) s = .next t
  | 4 => exec (.systemWordPerform pr n) s = .next t
  | 5 => exec (.jobarmPerform pr n) s = .next t
  | _ => exec (.sumtreeCommandPerform pr n) s = .next t

/-- Every entry of a hold-back buffer performs only when its quantum is sealed and nothing earlier keeps it back, once
what it reads has come; each kind of entry has its own event. An entry that may not perform, and an event of another
kind, leave the state as it is (R148, R251, R270, R279). An entry that performs takes its effect and is freed; its
word's results go to the registers that the word named where it stood, and a word that waited for its last entry
completes (R29, R32). What a store's entry writes are its bytes, in one sector, and no other byte (R251). -/
def Obl.HeldEntriesPerform : Prop :=
  ∀ (pr n k : Nat) (s u : State) (h : HB), (pair s pr).hb[n]? = some h → k < 7 →
    (entryMay s pr n h = true → entryServed h s = (true, u) →
      let t := performAt pr n h u
      (entryKind h = 0 → exec (.holdbackDrain pr n false) s = .next t) ∧
      (entryKind h = 1 → exec (.atomPerform pr n) s = .next t) ∧
      (entryKind h = 2 → exec (.clusterTbPerform pr n) s = .next t) ∧
      (entryKind h = 3 → exec (.deviceAccessPerform pr n) s = .next t) ∧
      (entryKind h = 4 → exec (.systemWordPerform pr n) s = .next t) ∧
      (entryKind h = 5 → exec (.jobarmPerform pr n) s = .next t) ∧
      (entryKind h = 6 → exec (.sumtreeCommandPerform pr n) s = .next t)) ∧
    (entryMay s pr n h = true → entryServed h s = (false, u) → entryKind h = k → Obl.Drains pr n k s u) ∧
    (entryMay s pr n h = false → Obl.Drains pr n k s s) ∧
    (entryKind h ≠ k → Obl.Drains pr n k s s) ∧
    (h.sealed = false → entryMay s pr n h = false) ∧
    (∀ e ∈ (pair s pr).hb.take n, keepsBack e h = true → entryMay s pr n h = false) ∧
    (h.bad = false → isGroupEntry h = true → landsLater s h = false →
      let t := dropEntry pr n (performHeld h (forGroups (resultGroups s h.g) (rotFor h.seq) s))
      performAt pr n h s = forGroups (resultGroups t h.g) (landHeld h.seq) t) ∧
    (∀ va pa bytes rel dev, h.what = .data va pa bytes rel dev → pa % 64 = 0 → bytes.Pairwise (fun x y => x.1 < y.1) →
      (∀ x ∈ bytes, x.1 < 64) → (∀ i < 64, paKind s (pa + i) = .dram) → cSnap s (lkOf h.g / 2) = 0 → NoRawBeneath s →
      (∀ i < 64, memGet (performHeld h s).mem (pa + i) = (nfind bytes i).getD (memGet s.mem (pa + i))) ∧
      (∀ a, a < pa ∨ pa + 64 ≤ a → memGet (performHeld h s).mem a = memGet s.mem a))

/-- What a line's write-back and invalidation, an atomic's lane and a cluster barrier's update do to memory when they
perform where nothing is poisoned (R151, R157, R214, R251, R260): after CWB neither sector of the line is dirty, after
CINV neither the L2 nor an application processor's cache holds the line, and neither changes what agents read. -/
def Obl.PerformEffects : Prop :=
  ∀ (s : State) (h : HB) (gs : List Nat),
    (∀ va pa, h.what = .cwb va pa → NoRawBeneath s → pa % 128 = 0 →
      let t := performHeld h s
      nfind t.dirty (pa / 64) = none ∧ nfind t.dirty (pa / 64 + 1) = none ∧ t.mem = s.mem ∧ t.poison = s.poison ∧
        t.l2 = s.l2) ∧
    (∀ va pa, h.what = .cinv va pa → NoRawBeneath s →
      let t := performHeld h s
      nfind t.l2 (pa / 128) = none ∧ (∀ x ∈ t.apLines, x / 2 ≠ pa / 128) ∧ t.mem = s.mem ∧ t.poison = s.poison) ∧
    (∀ op ty a, isPoison s a.pa = false → isHole s a.pa = false →
      performAtom h op ty none [a] gs s = launchPut (entryMt h) none (lkOf h.g) h.core a.va a.pa
        (toBytes (atomSize ty) (atomNew op ty (ofBytes (l2Read s a.pa (atomSize ty))) a.b a.c)) h.acct s) ∧
    (∀ op va pa x, isPoison s pa = false →
      let o := tbOf (ofBytes (l2Read s pa 16))
      (op ≠ 1 → o.kind ≠ 2 → performTb h op va pa x s = s) ∧
      (op = 1 ∨ o.kind = 2 → performTb h op va pa x s =
        launchPut 0 none (lkOf h.g) h.core va pa (toBytes 16 (tbNum (tbUpdate op x o))) h.acct s))

/-- An epoch of deterministic mode: one communication at a time in group order, then the commit; the next wave; and
the comparison of a redundant card's two copies (R36, R341). -/
def Obligations.Epochs : Prop :=
  ∀ (n : Nat) (s : State),
    let l := launch s (2 * n)
    let s1 := (commitKeys s n).foldl (fun u lk => modLaunch u lk fun l => { l with committing := true }) s
    let may := (l.committing = true ∨ epochDue s n = true) ∧ (cRedun s n = true → l.agreed = true) ∧
      (run s n).kill = none
    (may → firstComm (comms s1 n) = none → exec (.epochCommit n) s = .next (endCommit n s1)) ∧
    (∀ x, may → firstComm (comms s1 n) = some x → exec (.epochCommit n) s = .next (applyComm n x s1)) ∧
    (¬may → exec (.epochCommit n) s = .next s) ∧
    (l.det = true → (run s n).kill = none → waveGroups s n ≠ [] → (∀ g ∈ waveGroups s n, groupSpent s g = true) →
      waveDrained s n = true → waveEnd l < l.nteams →
      exec (.waveStart n) s = .next (dispatch ((commitKeys s n).foldl (fun u lk => endWave lk u) s))) ∧
    (cRedun s n = true → epochDue s n = true → l.agreed = false →
      (copiesAgree s n = true → exec (.redundantCompare n) s =
        .next ([2 * n, 2 * n + 1].foldl (fun u lk => modLaunch u lk fun l => { l with agreed := true }) s)) ∧
      (copiesAgree s n = false → l.mism = 0 → exec (.redundantCompare n) s =
        .next ((wavePairs s n).foldl (fun u p => rollPair p (fun g => gCard g = n) u)
          (modRun n (fun R => { R with rolls := R.rolls + 1 }) (countReg rMismatch 1
            ([2 * n, 2 * n + 1].foldl (fun u lk => modLaunch u lk fun l => { l with mism := 1 }) s))))) ∧
      (copiesAgree s n = false → l.mism ≠ 0 →
        exec (.redundantCompare n) s = .next (mismatchLost n (countReg rMismatch 1 s))))

/-- The copy engine's events: a chunk of a sealed copy moves, a timed copy is released in the order of R198, a
source lock is freed when every source byte is read, and a command whose bytes are all written completes (R194 to
R201, R207). -/
def Obl.CopyEvents : Prop :=
  ∀ (k id ch : Nat) (s : State) (c : Cmd), cmdAt s k id = some c →
    let runs := cmdRuns s c = true
    (c.sealed = true → cmdDet s c = false → runs → (c.time = none ∨ c.started = true) →
      exec (.copyWriteStart k id ch) s = .next (runChunk c ch s)) ∧
    (c.sealed = false → exec (.copyWriteStart k id ch) s = .next s ∧ exec (.copyComplete k id) s = .next s ∧
      exec (.ringPullComplete k id) s = .next s) ∧
    (runs → cpytReady s k c = true →
      exec (.cpytRelease k id) s = .next (modCmd id (fun x => { x with started := true }) s)) ∧
    (∀ m t, c.srcDone = false → cmdDet s c = false → runs → c.recs = [] → readAll c c.todo s = (some m, t) →
      exec (.copySourceReadDone k id) s =
        .next (freeCmdLocks k id [0] (modCmd id (fun x => { x with buf := m, srcDone := true }) t))) ∧
    (c.sealed = true → c.todo = [] → c.filled = false → cmdDet s c = false → runs →
      (c.time = none ∨ c.started = true) →
      (c.pull = false → exec (.copyComplete k id) s = .next (finishCmd k c s)) ∧
      (c.pull = true → exec (.ringPullComplete k id) s = .next (finishCmd k c s)))

/-- A pull ring's watch reads its source's tail and starts a pull for each new slot that fits (R204, R207), where its
link's channel for pulls is open (R374) and its regulator serves the read (R279); a walk that reads poison ends the
instance (R321). -/
def Obl.PullRings : Prop :=
  ∀ (k n : Nat) (s : State) (w : Watch), (core s k).watches[n]? = some w →
    w.dead = none → released s w.g w.seq = true → preemptDue s w.g = false → (grp s w.g).parked = false →
    (∀ pa mt t, xlateFor s k (lkOf w.g) w.src Acc2.read = (Xl.ok pa mt, t) → linkHoldsOn t 2 pa = true →
      exec (.ringTailObserved k n) s = .next t) ∧
    (∀ pa mt t s1, xlateFor s k (lkOf w.g) w.src Acc2.read = (Xl.ok pa mt, t) → linkHoldsOn t 2 pa = false →
      askRead (.word w.g w.seq) pa (launchOf s w.g).acct mt t = (false, s1) →
      exec (.ringTailObserved k n) s = .next s1) ∧
    (∀ pa mt t s1, xlateFor s k (lkOf w.g) w.src Acc2.read = (Xl.ok pa mt, t) → linkHoldsOn t 2 pa = false →
      askRead (.word w.g w.seq) pa (launchOf s w.g).acct mt t = (true, s1) →
      engPoison s1 pa ((List.range 4).map (pa % 64 + ·)) = false →
      (List.range 4).any (fun i => heldOnPair s1 (k / 2) (pa + i)) = false →
      let tail := ofBytes ((List.range 4).map fun i => engByte s1 (pa + i))
      let R := ringOf (memNum ((team s1 (tkOf w.g)).mem w.half) w.hdr 64)
      let d := diff32 tail R.filled
      (R.valid = true → R.pull = true → 1 ≤ d → d ≤ 2 ^ 31 →
        exec (.ringTailObserved k n) s = .next (beginPulls k w tail R.slots s1)) ∧
      (d = 0 → exec (.ringTailObserved k n) s = .next s1)) ∧
    (∀ ipa t, xlateFor s k (lkOf w.g) w.src Acc2.read = (Xl.fault 8 ipa, t) →
      exec (.ringTailObserved k n) s = .next (enterHost w.g
        { cls := clsPage, cause := 8, pmode := (grp s w.g).supv, seq := w.seq } t))

/-! ### Events of links, time, devices and the outside world -/

/-- Port entries and link messages on their way: a part is delivered, or sent over a link that is up, once its push
lets it go and its source's earlier parts have gone; a message is sent once its word lets it go, and its source lock
is freed, or, where its route is down, it is discarded and counted; it arrives in the order of its channel. A word
lets its communication go when its quantum is sealed and, in normal mode, the stores and atomics ordered before it
have performed; until then it is neither delivered nor sent. What another device sends, to this one or through it,
arrives, and is passed on in the order of its channel (R225, R229 to R232, R262, R329, R374 to R376, R430). -/
def Obligations.MessagesMove : Prop :=
  ∀ (s : State) (g port i : Nat),
    (∀ p, (chanAt s g port).parts[i]? = some p → p.delivered = false → maySend s p.src p.seq p.after = true →
      (∀ x ∈ (chanAt s g port).parts.take i, x.origin = p.origin → x.delivered = true) →
      exec (.portEntryDeliver false g port i) s = .next (setChan g port
        { chanAt s g port with parts := (chanAt s g port).parts.set i { p with delivered := true } } s)) ∧
    (∀ o n, s.outParts[i]? = some o → hwRoute s o.dev = some n → o.sent = false →
      maySend s o.part.src o.part.seq o.part.after = true → chanStopped s n 2 = false →
      (∀ x ∈ s.outParts.take i, x.part.src = o.part.src → x.dev = o.dev → x.dst = o.dst → x.port = o.port →
        x.sent = true) →
      exec (.portEntryDeliver true g port i) s =
        .next (extEff (lkOf o.part.src)
          (noteGone o.part.src o.part.seq { s with outParts := s.outParts.set i { o with sent := true } }))) ∧
    (∀ m, s.msgs[i]? = some m → m.stage = 0 → m.sdev = deviceNo s → maySend s m.src m.seq m.after = true →
      (∀ x ∈ s.msgs.take i, x.inChan m.sdev m.src m.ddev m.dst m.chan = true → x.stage ≠ 0) →
      let sent := noteGone m.src m.seq { s with msgs := s.msgs.set i { m with stage := 1 } }
      let route := nfind (launch s (lkOf m.src)).routes m.ddev
      (m.ddev = deviceNo s → exec (.lsndSend i) s = .next (linkUnlock m.core m.lock sent)) ∧
      (∀ n, m.ddev ≠ deviceNo s → route = some n → linkUp s n = true → chanStopped s n 2 = false →
        exec (.lsndSend i) s = .next (extEff (lkOf m.src) (linkUnlock m.core m.lock sent))) ∧
      (∀ n, m.ddev ≠ deviceNo s → route = some n → linkUp s n = false →
        exec (.lsndSend i) s =
          .next (linkUnlock m.core m.lock (loseOn n { s with msgs := s.msgs.eraseIdx i })))) ∧
    (∀ g seq after, maySend s g seq after = true ↔ (∀ G, nfind s.groups g = some G → seq < sealedBelow G) ∧
      (isDet s g = true ∨ ∀ e ∈ heldBefore s g seq after, isWriteEntry e = false)) ∧
    (∀ p, (chanAt s g port).parts[i]? = some p → maySend s p.src p.seq p.after = false →
      exec (.portEntryDeliver false g port i) s = .next s) ∧
    (∀ o, s.outParts[i]? = some o → maySend s o.part.src o.part.seq o.part.after = false →
      exec (.portEntryDeliver true g port i) s = .next s) ∧
    (∀ m, s.msgs[i]? = some m → m.stage ≠ 3 → maySend s m.src m.seq m.after = false →
      exec (.lsndSend i) s = .next s) ∧
    (∀ m, s.msgs[i]? = some m → m.stage = 3 → m.sdev ≠ deviceNo s →
      (∀ x ∈ s.msgs.take i, x.inChan m.sdev m.src m.ddev m.dst m.chan = true → x.stage ≠ 3) →
      (∀ n, hwRoute s m.ddev = some n → chanStopped s n 2 = false →
        exec (.lsndSend i) s = .next { s with msgs := s.msgs.set i { m with stage := 1 } }) ∧
      (∀ n, hwRoute s m.ddev = some n → chanStopped s n 2 = true → exec (.lsndSend i) s = .next s) ∧
      (hwRoute s m.ddev = none →
        exec (.lsndSend i) s = .next (loseOn (linkToward s m.ddev) { s with msgs := s.msgs.eraseIdx i }))) ∧
    (∀ m dev src dst chan bytes, s.msgs[i]? = some m → m.stage = 1 → m.ddev = deviceNo s →
      (∀ x ∈ s.msgs.take i, x.inChan m.sdev m.src m.ddev m.dst m.chan = true → 2 ≤ x.stage) →
      exec (.linkMessageArrive 0 i dev src dst chan bytes) s =
        .next { s with msgs := s.msgs.set i { m with stage := 2 } }) ∧
    (∀ dev src dst chan bytes, dev ≠ deviceNo s → devPresent s dev = true →
      exec (.linkMessageArrive 1 i dev src dst chan bytes) s = .next { s with msgs := s.msgs ++
        [{ src := src, sdev := dev, dst := dst, ddev := deviceNo s, chan := chan, seq := 0, bytes := bytes,
           lock := 0, core := 0, stage := 2 }] }) ∧
    (∀ dev src dst chan bytes, dev ≠ deviceNo s → i ≠ deviceNo s → devPresent s dev = true → devPresent s i = true →
      exec (.linkMessageArrive 3 i dev src dst chan bytes) s = .next { s with msgs := s.msgs ++
        [{ src := src, sdev := dev, dst := dst, ddev := i, chan := chan, seq := 0, bytes := bytes,
           lock := 0, core := 0, stage := 3 }] }) ∧
    (∀ dev src dst chan bytes, dev ≠ deviceNo s → devPresent s dev = true →
      let x := ofBytes bytes
      let vals := (List.range (widthOf s dst)).map fun l => (l, BitVec.ofNat 32 (nbits x (32 * l + 31) (32 * l)))
      let c := chanAt s dst chan
      exec (.linkMessageArrive 2 i dev src dst chan bytes) s = .next (setChan dst chan { c with
        parts := c.parts ++ [⟨remoteSrc + dev, 0, vals, BitVec.ofNat 64 (nbits x 2111 2048), true, {}⟩] } s))

/-- Agent `n` reaches the sectors of some addresses under a PARTID and reads those of `reads`: DRAM is awake, and
every read has been served. -/
def Obl.Reached (n pid : Nat) (touch reads : List Nat) (s t : State) : Prop :=
  (∀ a ∈ touch, dramSleeps s a = false) ∧ askReads (.agent n) pid (reads.map fun a => (a, 0)) s = (true, t)

/-- An event that at `s` makes an agent's accesses from `t` on: it takes its effect once every read has been served;
until then, or while DRAM sleeps there, it waits (R279, R397). -/
def Obl.Reaches (i : Instr) (s : State) (n pid : Nat) (touch reads : List Nat) (f : State → State) (t : State) : Prop :=
  ((∃ a ∈ touch, dramSleeps t a = true) → exec i s = .next (meetAsleep t)) ∧
  (∀ u, (∀ a ∈ touch, dramSleeps t a = false) →
    askReads (.agent n) pid (reads.map fun a => (a, 0)) t = (false, u) → exec i s = .next u) ∧
  (∀ u, Obl.Reached n pid touch reads t u → exec i s = .next (f u))

/-- A request of PCI Express to `a`, at a controller with lanes, comes to a physical address: as it stands, or
translated in the controller's context where the register's bit 6 enables that. -/
def Obl.PcieAt (s : State) (i bar a : Nat) (acc : Acc2) (pa : Nat) (t : State) : Prop :=
  i < 4 ∧ nget 0 s.pciWidth i ≠ 0 ∧ ∃ va, pcieAddr s i bar a = some va ∧
    (((reg s (rPci i 0)).testBit 6 = false ∧ pa = va ∧ t = s) ∨
     ((reg s (rPci i 0)).testBit 6 = true ∧
       ∃ mt, translate s false false noTlb (reg s (rPci i 0) % 64) false va acc = (.ok pa mt, t)))

/-- Requests of other devices, of PCI Express and of the application processors reach memory: a read is answered with
what coherent agents read, with No Snoop with what DRAM holds; a write of bytes within a sector stores them, with No
Snoop in DRAM; an atomic stores its new value and is answered with the old one; a read of poison or of nothing is
answered without data, and a request that is not translated is refused and counted (R265, R275, R278, R279, R373,
R386). -/
def Obligations.OutsideRequests : Prop :=
  ∀ (s : State) (pa op ty b c partid : Nat) (bytes : List Sys2Proof.Byte),
    let p := pa % 2 ^ 48
    let n := atomSize ty
    let len := bytes.length
    let pid := partid % 64
    let at64 := 64 * (p / 64)
    let new (old : Nat) := toBytes n (atomNew op ty old b c)
    let atom (agent : Nat) (a : Nat) (put : List Sys2Proof.Byte → State → State) (u : State) : State :=
      match busRead u a n with
      | some old => answer agent a (some (toBytes n old)) (put (new old) u)
      | none => answer agent a none u
    let filled (u : State) (a pid : Nat) : List Nat := if allocates u a pid then [a] else []
    Obl.Reaches (.krypinRemoteRequest 0 pa op ty b c partid bytes) s 6 pid [at64] [at64]
      (fun u => answer 3 at64 (if isPoison u at64 then none else some (l2Read u at64 64)) u) s ∧
    (p % 64 + len ≤ 64 → Obl.Reaches (.krypinRemoteRequest 1 pa op ty b c partid bytes) s 6 pid [p] (filled s p pid)
      (busWrite .outside p bytes pid) s) ∧
    (p % n = 0 → Obl.Reaches (.krypinRemoteRequest 2 pa op ty b c partid bytes) s 6 pid [p] [p]
      (atom 3 p fun bs => busWrite .outside p bs pid) s) ∧
    (∀ island : Bool, island = true ∨ 6 ≤ s.island.stage →
      let who := b2n island
      let wrote (bs : List Sys2Proof.Byte) (t : State) : State :=
        let u := busWrite (if island then .island else .host) pa bs 0 t
        if island = false ∧ paKind t pa = .dram then { u with apLines := pa / 64 :: u.apLines } else u
      (pa % 64 + len ≤ 64 →
        Obl.Reaches (.applicationProcessorAccess island 0 pa op ty b c bytes) s who 0 [pa] [pa]
          (fun u => answer who pa ((busRead u pa len).map (toBytes len)) u) s ∧
        Obl.Reaches (.applicationProcessorAccess island 1 pa op ty b c bytes) s who 0 [pa] (filled s pa 0)
          (wrote bytes) s) ∧
      (pa % n = 0 → Obl.Reaches (.applicationProcessorAccess island 2 pa op ty b c bytes) s who 0 [pa] [pa]
        (atom who pa wrote) s)) ∧
    (∀ i bar a t, Obl.PcieAt s i bar pa .read a t → a % 64 + len ≤ 64 →
      let part := reg t (rPci i 8) % 64
      let got (x : Option Nat) (u : State) : State := answer 2 a (x.map (toBytes len)) u
      Obl.Reaches (.pcieInboundRequest i bar 0 pa op ty b c false bytes) s (2 + i) part [a] [a]
        (fun u => got (busRead u a len) u) t ∧
      (paKind t a = .dram → Obl.Reaches (.pcieInboundRequest i bar 0 pa op ty b c true bytes) s (2 + i) part [a] []
        (fun u => got (rawRead u a len) (chargeDram a part u)) t)) ∧
    (∀ i bar a t, Obl.PcieAt s i bar pa .write a t → a % 64 + len ≤ 64 →
      let part := reg t (rPci i 8) % 64
      Obl.Reaches (.pcieInboundRequest i bar 1 pa op ty b c false bytes) s (2 + i) part [a] (filled t a part)
        (busWrite .outside a bytes part) t ∧
      (paKind t a = .dram → Obl.Reaches (.pcieInboundRequest i bar 1 pa op ty b c true bytes) s (2 + i) part [a] []
        (fun u => dramWrite a bytes (chargeDram a part u)) t)) ∧
    (∀ i bar a t raw, Obl.PcieAt s i bar pa .atomic a t → a % n = 0 → op ∈ [0, 6, 7] → ty < 4 →
      let part := reg t (rPci i 8) % 64
      Obl.Reaches (.pcieInboundRequest i bar 2 pa op ty b c raw bytes) s (2 + i) part [a] [a]
        (atom 2 a fun bs => busWrite .outside a bs part) t) ∧
    (∀ i bar what raw, i < 4 → nget 0 s.pciWidth i ≠ 0 → what < 3 →
      let acc : Acc2 := if what = 0 then .read else if what = 1 then .write else .atomic
      (pcieAddr s i bar pa = none →
        exec (.pcieInboundRequest i bar what pa op ty b c raw bytes) s = .next (pcieRefuse i what pa s)) ∧
      (∀ va cause ipa t, pcieAddr s i bar pa = some va → (reg s (rPci i 0)).testBit 6 = true →
        translate s false false noTlb (reg s (rPci i 0) % 64) false va acc = (.fault cause ipa, t) →
        (cause ≠ causeAsleep →
          exec (.pcieInboundRequest i bar what pa op ty b c raw bytes) s = .next (pcieRefuse i what pa t)) ∧
        (cause = causeAsleep →
          exec (.pcieInboundRequest i bar what pa op ty b c raw bytes) s = .next t)))

/-- The links: a stop and a go signal, a resend, the news that a group of another device has retired (R228; that a
flit brings it is the model's choice, log entry 117), a link that comes up, one that does not retrain within 1 ms and
goes down, and the write of RETRAIN (R374, R375). -/
def Obl.LinkStates : Prop :=
  ∀ (s : State) (n x peer lanes : Nat),
    (n < 4 → linkUp s n = true →
      (exec (.flitReceive n 0 x) s = .next s) ∧
      (exec (.flitReceive n 1 x) s = .next s) ∧
      (exec (.flitReceive n 2 x) s = .next (setReg s (rLk n 0x10) (reg s (rLk n 0x10) + 1))) ∧
      (x < 4 → exec (.flitReceive n 3 x) s =
        .next (countStop n x { s with linkStop := s.linkStop ||| 2 ^ (4 * n + x) })) ∧
      (x < 4 → exec (.flitReceive n 4 x) s =
        .next { s with linkStop := setBits s.linkStop (4 * n + x) (4 * n + x) 0 }) ∧
      (hwRoute s (x % 4) = some n → x % 4 ≠ deviceNo s → (x % 4, x / 4) ∉ s.farRetired →
        exec (.flitReceive n 7 x) s = .next { s with farRetired := s.farRetired ++ [(x % 4, x / 4)] })) ∧
    (∀ t, nfind s.retrain n = some t →
      (5 ≤ s.island.stage →
        let u := linkRestarted n (setLlock (setReg { s with retrain := ndel s.retrain n } (rLk n 8)
          (1 + peer % 4 * 2 + lanes % 32 * 16)))
        exec (.linkUp n peer lanes) s = .next (if linkUp s n then u else raiseInt 5 u)) ∧
      (s.now < t + 1000000 → exec (.linkDown n) s = .next s) ∧
      (t + 1000000 ≤ s.now →
        (∀ m ∈ s.msgs, m.stage ≠ 1) → (∀ o ∈ s.outParts, o.sent = false) →
        let u : State := { s with
          retrain := ndel s.retrain n
          linkStop := s.linkStop - nbits s.linkStop (4 * n + 3) (4 * n) * 2 ^ (4 * n) }
        let v := linkRestarted n (setLlock (setReg u (rLk n 8) (setBits (setBits (reg u (rLk n 8)) 0 0 0) 3 3 0)))
        exec (.linkDown n) s = .next (if linkUp s n then raiseInt 5 v else v))) ∧
    (n < 4 → exec (.lkctlRetrain n) s = .next (regWrite .host (rLk n 0) (reg s (rLk n 0) ||| 2) [0] s))

/-- Global time: an exchange with the time source or, on TSYNC's port and in its domain, with the grandmaster gives an
offset, which is slewed out, the grandmaster's only in hardware mode, where the servo sets the rate; in host-assisted
mode each interval asks for one duty record that carries the offset; a step by the island (R6, R8, R377 to R379). -/
def Obl.TimeEvents : Prop :=
  ∀ (s : State) (n port dom t1 t2 t3 t4 x : Nat) (whole lock : Bool),
    let o := offsetOf t1 t2 t3 t4
    let host := (reg s rDutySel).testBit 5
    let told := setReg s rTOffset (cut 64 o)
    (n < 4 → linkUp s n = true → isMaster s = false → timeSource s = some (linkPeerDev s n) →
      let s1 := setReg { s with slew := -(o * 1000000000) } (rLk n 0x28) (cut 64 o)
      exec (.linkTimeExchange n t1 t2 t3 t4) s =
        .next (setLlock (setReg s1 (rLk n 8) (reg s1 (rLk n 8) ||| 8)))) ∧
    (isMaster s = true ∨ timeSource s ≠ some (linkPeerDev s n) →
      exec (.linkTimeExchange n t1 t2 t3 t4) s = .next s) ∧
    (reg s rTSync % 4 ≠ port ∨ nbits (reg s rTSync) 9 2 ≠ dom →
      exec (.ptpMessage ⟨port, dom, whole⟩ lock t1 t2 t3 t4) s = .next s) ∧
    (reg s rTSync % 4 = port → nbits (reg s rTSync) 9 2 = dom →
      exec (.ptpMessage ⟨port, dom, false⟩ lock t1 t2 t3 t4) s = .next (setTstat 0 lock s) ∧
      (host = true → exec (.ptpMessage ⟨port, dom, true⟩ lock t1 t2 t3 t4) s = .next (setTstat 0 lock told)) ∧
      (host = false → exec (.ptpMessage ⟨port, dom, true⟩ lock t1 t2 t3 t4) s = .next (setTstat 0 lock
        (setReg { told with slew := -(o * 1000000000) } rTRate (cut 64 (servoRate s)))))) ∧
    (host = true → s.syncNext ≤ s.now → exec (.timeSyncInterval x) s = .next
      (askDuty { kind := 5, time := s.now, arg0 := s.now, arg1 := x, arg2 := reg s rTOffset }
        { s with syncNext := (s.now / syncPeriod s + 1) * syncPeriod s })) ∧
    (host = false ∨ s.now < s.syncNext → exec (.timeSyncInterval x) s = .next s) ∧
    exec (.tset x) s = .next (regWrite .island 0x130010 (x % 2 ^ 64) (List.range 8) s)

/-- Bandwidth regulators and DRAM errors: a window that ends carries its excess; a request of a sector that the L2 does
not hold is counted within its limit and deferred over it; one bit in error is counted, two poison the sector in the L2
or, where the L2 does not hold it, in DRAM; the patrol scrubber reads sector after sector, not with SCRUBHRS 0; an
access where nothing is, is counted or answered with an access fault (R277 to R280). -/
def Obligations.MemoryTraffic : Prop :=
  ∀ (s : State) (pa pid card err : Nat) (r : Regulator),
    let key := homeOf pa * 64 + pid
    let s1 : State := { s with regulators := nput s.regulators key r }
    let full := r.deferred ≠ 0 ∨ r.limit < r.bytes + 64
    exec .regulatorWindow s = .next
      { s with regulators := s.regulators.map fun x => (x.1, catchUp s (x.1 % 64) x.2) } ∧
    (pid < 64 → paKind s pa = .dram →
      (l2Valid s pa = true → exec (.regulatorRequest pa pid card false false 0) s = .next s) ∧
      exec (.regulatorRequest pa pid card false true 0) s = .next (writeBack pa s) ∧
      (l2Valid s pa = false → Obl.Reaches (.regulatorRequest pa pid card false false err) s 30 pid [pa] [pa]
        (dramError pa err pid) s) ∧
      (inWindow (ochreWin s) pa = false → nfind s.regulators key = some r → windowOf s.now ≤ r.win →
        nfind (chargeDram pa pid s).regulators key = some { r with bytes := r.bytes + 64 } ∧
        (l2Valid s pa = false → dramSleeps s pa = false → (∀ x ∈ r.waiting, ¬(x.1 = .agent 30 ∧ x.2.1 = pa / 64)) →
          (let t : State := bump (rRegDef pid) 1
             { s1 with regulators := nput s1.regulators key { r with deferred := r.deferred + 1 } }
           let R : Regulator := { r with
             deferred := r.deferred + 1
             waiting := r.waiting ++ [(.agent 30, pa / 64, r.served + r.deferred)] }
           r.en = true → full → exec (.regulatorRequest pa pid card false false 0) s =
            .next { t with regulators := nput t.regulators key R }) ∧
          (r.en = false ∨ ¬full →
            exec (.regulatorRequest pa pid card false false 0) s = .next (l2Fill pa pid false s1))))) ∧
    (paKind s pa = .dram → reg s rScrub ≠ 0 → 4 ≤ s.island.stage → dramSleeps s pa = false →
      pa / 64 = s.scrubNext → (s.scrubNext = 0 → s.scrubDue ≤ s.now) →
      let s2 : State := { s with
        scrubNext := if 64 * (s.scrubNext + 1) < Config.dramBytes then s.scrubNext + 1 else 0
        scrubDue := if s.scrubNext = 0 then s.now + reg s rScrub * 3600000000000 else s.scrubDue }
      exec (.patrolScrub pa 0) s = .next s2 ∧
      exec (.patrolScrub pa 1) s = .next (countReg rCecount 1 s2) ∧
      (∀ err, 2 ≤ err → exec (.patrolScrub pa err) s = .next
        (match nfind s.dirty (pa / 64) with
          | some d => { countUe s2 with dirty := nput s.dirty (pa / 64) { d with pois := true } }
          | none => poisonSector pa
              (if l2Valid s pa then markDirty 0 pa noPartid (countUe s2) else countUe s2)))) ∧
    (reg s rScrub = 0 → exec (.patrolScrub pa 2) s = .next s) ∧
    (nothingAt s pa = true → exec (.unmappedAccess pa true) s = .next (countUe s) ∧
      exec (.unmappedAccess pa false) s = .next (answer 0 pa none s))

/-- Sensor ingest at the engine that takes the frame, the other engines taking none: a frame of its receiver, channel and
data type begins with the ring's tail as its number, unless every buffer is full; a line is written at its place, and the
end writes the record, then the tail (R381, R382). -/
def Obl.IngestFrames : Prop :=
  ∀ (s : State) (rx vc dt k : Nat) (F : Frame) (bytes : List Sys2Proof.Byte),
    k < 8 → (∀ j < 8, j ≠ k → (ingestAt s j).cur = none ∧ takesFrame (reg s (rIng j 0)) rx vc dt = false) →
    (let new := frameOf s k
     let s1 := l2Fill new.ring (nbits new.ictl 20 15) false s
     let tail := ofBytes (l2Read s1 new.ring 4)
     let used := diff32 tail (ofBytes (l2Read s1 (new.ring + 8) 4))
     (takesFrame new.ictl rx vc dt = false → exec (.frameStart rx ⟨vc, dt⟩) s = .next s) ∧
     (takesFrame new.ictl rx vc dt = true → dramSleeps s new.ring = true →
       exec (.frameStart rx ⟨vc, dt⟩) s = .next (meetAsleep s)) ∧
     (takesFrame new.ictl rx vc dt = true → dramSleeps s new.ring = false → (ingestAt s k).cur = none →
       (isPoison s1 new.ring = false → used ≠ 2 ^ lbufOf new.geom → exec (.frameStart rx ⟨vc, dt⟩) s =
         .next (setIngest k { ingestAt s k with cur := some { new with num := tail } } s1)) ∧
       (isPoison s1 new.ring = true ∨ used = 2 ^ lbufOf new.geom →
         exec (.frameStart rx ⟨vc, dt⟩) s = .next (countDrop k s1)))) ∧
    ((ingestAt s k).cur = some F →
      let part := nbits F.ictl 20 15
      let stride := F.geom % 2 ^ 32
      let a := F.ibuf + F.num % 2 ^ lbufOf F.geom * (stride * nbits F.geom 47 32) + F.lines * stride
      let e := ingestAt s k
      let at0 := F.ring + 64 + 64 * (F.num % 2 ^ lbufOf F.geom)
      let s1 := busWrite .outside at0 (frameRecord F e.since s.now) part s
      let s2 := busWrite .outside F.ring (toBytes 4 ((F.num + 1) % 2 ^ 32)) part s1
      (takesFrame F.ictl rx vc dt = true → F.lines < nbits F.geom 47 32 → dramSleeps s a = false →
        exec (.frameLine rx vc dt false false bytes) s = .next (setIngest k
          { e with cur := some { F with lines := F.lines + 1 } } (busWrite .outside a (bytes.take stride) part s))) ∧
      (takesFrame F.ictl rx vc dt = true → nbits F.geom 47 32 ≤ F.lines →
        exec (.frameLine rx vc dt false false bytes) s = .next (setIngest k
          { e with cur := some { F with trunc := true } } s)) ∧
      (takesFrame F.ictl rx vc dt = false → exec (.frameLine rx vc dt false false bytes) s = .next s) ∧
      (takesChannel F.ictl rx vc = true → dramSleeps s at0 = false → dramSleeps s1 F.ring = false →
        exec (.frameEnd rx vc) s =
          .next (raiseInt 3 (setIngest k { e with cur := none, frames := e.frames + 1, since := 0 } s2))) ∧
      (takesChannel F.ictl rx vc = false → exec (.frameEnd rx vc) s = .next s))

/-- Ethernet: the next transmit descriptor's frame, of its LEN bytes, goes out and the descriptor is done; a received
frame fills the next supplied buffer (R384). The descriptor, and then the frame, are read as the port's PARTID lets
them (R279). -/
def Obl.EthernetFrames : Prop :=
  ∀ (s : State) (p : Nat) (bad : Bool) (bytes : List Sys2Proof.Byte),
    p < 4 → (reg s (rEth p 0)).testBit 0 = true →
    let part (u : State) := nbits (reg u (rEth p 0)) 7 2
    (let pa := ethDesc (reg s (rEth p 8)) (reg s (rEth p 0x18))
     (diff32 (reg s (rEth p 0x10)) (reg s (rEth p 0x18)) ≠ 0 → ∀ u v,
       let buf := ofBytes (l2Read u pa 8) % 2 ^ 52
       let w1 := ofBytes (l2Read u (pa + 8) 8)
       let len := w1 % 2 ^ 14
       let secs := sectorsOf buf len
       Obl.Reached (20 + p) (part s) [pa] [pa] s u → Obl.Reached (20 + p) (part u) secs secs u v →
       let err := bad || isPoison v pa || secs.any (isPoison v)
       exec (.ethTx p bad) s =
         .next (raiseInt 4 (setReg (ethDone p pa (setBits w1 16 15 (1 + 2 * b2n err))
           (if w1.testBit 14 then some v.now else none)
           (answer (8 + p) buf (if err then none else some (l2Read v buf len)) v)) (rEth p 0x18)
             ((reg u (rEth p 0x18) + 1) % 2 ^ 32)))) ∧
     (diff32 (reg s (rEth p 0x10)) (reg s (rEth p 0x18)) = 0 → exec (.ethTx p bad) s = .next s)) ∧
    (let pa := ethDesc (reg s (rEth p 0x20)) (reg s (rEth p 0x30))
     (diff32 (reg s (rEth p 0x28)) (reg s (rEth p 0x30)) ≠ 0 → ∀ u v,
       let buf := ofBytes (l2Read u pa 8) % 2 ^ 52
       let w1 := ofBytes (l2Read u (pa + 8) 8)
       let size := w1 % 2 ^ 14
       let lost := isPoison u pa
       let secs := if lost then [] else sectorsOf buf (min size bytes.length)
       let long := decide (size < bytes.length) || decide (9216 < bytes.length)
       Obl.Reached (20 + p) (part s) [pa] [pa] s u → Obl.Reached (20 + p) (part u) secs [] u v →
       exec (.ethRxFrame p bad bytes) s = .next (raiseInt 4 (setReg (ethDone p pa
         (setBits (setBits w1 13 0 bytes.length) 16 15 (1 + 2 * b2n (bad || long || lost))) (some v.now)
         (if lost then v else l2Write buf (bytes.take size) (part u) v))
         (rEth p 0x30) ((reg u (rEth p 0x30) + 1) % 2 ^ 32)))) ∧
     (diff32 (reg s (rEth p 0x28)) (reg s (rEth p 0x30)) = 0 → exec (.ethRxFrame p bad bytes) s = .next s))

/-! ### Events that write registers -/

/-- Writes of a tree's table words have the effect of TRCFG with the matching field; during a clear they wait, and take
their effect in order when it ends (R359, R362, R365). -/
def Obl.TreeTableWrites : Prop :=
  ∀ (s : State) (n x : Nat), n < 64 →
    let w := reg s (treeReg n 1)
    let kept := treeSet n 1 10 5 (nbits w 10 5) (treeSet n 1 4 4 (nbits w 4 4) s)
    let at0 := 0x110000 + 64 * n
    (s.treeBusy.testBit n = false →
    (x < 2 ^ 64 → exec (.treeBaseWrite n x) s = .next (treeCfg n 0 x s)) ∧
    (1 ≤ x → x ≤ 8 → exec (.treeLevelsWrite n x) s = .next (treeClear n (treeSet n 1 3 0 x kept))) ∧
    exec (.treeLevelsWrite n 0) s = .next (treeErr n 1 kept) ∧
    (x < 2 ^ 32 → exec (.treeBetaWrite n x) s = .next (treeSet n 1 63 32 x s)) ∧
    (1 ≤ x → x < 2 ^ 32 → exec (.treeNsizeWrite n x) s = .next (treeSet n 2 31 0 x s)) ∧
    exec (.treeNsizeWrite n 0) s = .next (treeErr n 1 s) ∧
    (x < 2 ^ 64 → exec (.treeSeedWrite n x) s = .next (setReg s (treeReg n 3) x)) ∧
    exec (.treeClearComplete n) s = .next s) ∧
    (s.treeBusy.testBit n = true →
    let done : State := { s with treeBusy := setBits s.treeBusy n n 0 }
    let waits (t : State) (word : Nat) : Prop := ∃ w, w.who = .host ∧ w.off = at0 + 8 * word ∧
      t = { s with treeWait := s.treeWait ++ [w] }
    (x < 2 ^ 64 → exec (.treeBaseWrite n x) s =
      .next { s with treeWait := s.treeWait ++ [⟨.host, at0, x, List.range 8⟩] }) ∧
    (∃ t, exec (.treeLevelsWrite n x) s = .next t ∧ waits t 1) ∧ (∃ t, exec (.treeBetaWrite n x) s = .next t ∧ waits t 1) ∧
    (∃ t, exec (.treeNsizeWrite n x) s = .next t ∧ waits t 2) ∧ (∃ t, exec (.treeSeedWrite n x) s = .next t ∧ waits t 3) ∧
    (s.treeWait = [] → exec (.treeClearComplete n) s = .next done) ∧
    (x < 2 ^ 64 → s.treeWait = [⟨.host, at0, x, List.range 8⟩] →
      exec (.treeClearComplete n) s = .next (treeCfg n 0 x { done with treeWait := [] })))

/-- Arming, disarming and DCTL: an arming of a card that is not idle is rejected with cause 1 in ARMSTAT; DISARM of
a card in states 1 to 3 returns it to state 0, and in states 4 and 5 lets the instance end; setting DCTL.EN makes pending
releases ready, but for a suspend (R299 to R301, R303, R400). What becomes of the card's duty records at a DISARM is the
model's choice (log entry 97). -/
def Obl.ArmingWrites : Prop :=
  ∀ (s : State) (n : Nat) (timed : Bool), n < 4096 →
    let rel := if timed then max 1 (reg s rArmTime) else 0
    (cState s n ≠ 0 →
      exec (.arm n) s = .next (rejectRecord .arm n 0 1 (setReg s rArmStat (n + 2 ^ 16))) ∧
      exec (.armTimed n) s =
        .next (rejectRecord .arm n (max 1 (reg s rArmTime)) 1 (setReg s rArmStat (n + 2 ^ 16))) ∧
      exec (.parm n timed) s = .next (rejectRecord .parm n rel 1 (setReg s rArmStat (n + 2 ^ 16)))) ∧
    exec (.arm n) s = .next (armCard .arm n 0 s).2 ∧
    exec (.armTimed n) s = .next (armCard .arm n (max 1 (reg s rArmTime)) s).2 ∧
    exec (.parm n timed) s = .next (armCard .parm n rel s).2 ∧
    (cState s n = 0 → exec (.disarm n) s = .next s) ∧
    (1 ≤ cState s n → cState s n ≤ 3 →
      exec (.disarm n) s = .next (toIdle n (endDuties n [0, 1, 2, 4]
        (modRun n (fun R => { R with pend := none, kill := none, replayAsk := false, placeAsk := false }) s)))) ∧
    (4 ≤ cState s n →
      exec (.disarm n) s = .next (modRun n (fun R => { R with disarmed := true, pend := none }) s)) ∧
    exec .dctlDisable s = .next (setReg s rDctl 0) ∧
    (reg s rDctl ≠ 0 → exec .dctlEnable s = .next s) ∧
    (reg s rDctl = 0 → s.susp.begun = 0 → exec .dctlEnable s = .next (dispatch (readyPending (setReg s rDctl 1)))) ∧
    (reg s rDctl = 0 → s.susp.begun ≠ 0 → exec .dctlEnable s = .next (dispatch (setReg s rDctl 1)))

/-- Replies to duty records, by their tag: admission, placement, replay, scan, route table and time correction; a
reply to a tag that is not outstanding is counted in DRIGN, and so is one to a record whose question has ended, which is
the model's choice (log entries 97 and 98); a placement reply to a card that is neither ready nor parked places nothing
(R303, R320). -/
def Obligations.DutyReplies : Prop :=
  ∀ (s : State) (tag x : Nat) (d : Duty), tag < 2 ^ 32 → x < 2 ^ 64 →
    let u := dropDuty tag s
    let v := dropDuty tag (setReg s rDrReply1 x)
    ((s.duties.find? fun d => d.tag = some tag) = some d → d.dead = false →
      (d.kind = 0 →
        exec (.dutyReplyAdmit tag) s = .next (admitCard d.card (armed d.card (run s d.card).armRel u)) ∧
        ((run s d.card).armBy = none → exec (.dutyReplyReject tag) s =
          .next (rejectRecord .arm d.card (run s d.card).armRel 11
            (toIdle d.card (setReg u rArmStat (d.card % 4096 + 11 * 2 ^ 16)))))) ∧
      (d.kind = 1 →
        exec (.dutyReplyPlace tag x) s = .next (placeReply d.card (x % 2 ^ 32) v) ∧
        (cState s d.card ≠ 3 → cState s d.card ≠ 5 → exec (.dutyReplyPlace tag x) s =
          .next (modRun d.card (fun R => { R with placeAsk := false, placeMask := none }) v)) ∧
        exec (.dutyReplyDefer tag) s = .next (modRun d.card (fun R => { R with placeAsk := false }) u)) ∧
      (d.kind = 2 →
        exec (.dutyReplyReplay tag) s = .next (dispatch (replayCard d.card u)) ∧
        (∀ k, (run s d.card).kill = some k →
          exec (.dutyReplyAbandon tag) s = .next (dispatch (failCard d.card 5 k.cls u)))) ∧
      (d.kind = 3 →
        let c := Nat.log2 d.cores
        (criticalOn s c = false → exec (.dutyReplyGrantScan tag) s = .next (drainCore c u)) ∧
        (criticalOn s c = true → exec (.dutyReplyGrantScan tag) s =
          .next (setScan { core := c, stage := 2, dueAt := s.now + 10000000 } u)) ∧
        exec (.dutyReplyPostponeScan tag) s =
          .next (setScan { core := c, stage := 4, dueAt := s.now + 100000000 } u)) ∧
      (d.kind = 4 → exec (.dutyReplyRouteTable tag x) s = .next (giveRoutes d.card (routeTable v x) v)) ∧
      (d.kind = 5 → -200000 ≤ sx 32 (x % 2 ^ 32) → sx 32 (x % 2 ^ 32) ≤ 200000 →
        exec (.dutyReplyTimeCorrection tag x) s = .next
          { setReg v rTRate (cut 64 (sx 32 (x % 2 ^ 32))) with
            slew := s.slew + sx 32 (x / 2 ^ 32 % 2 ^ 32) * 1000000000 })) ∧
    ((s.duties.find? fun d => d.tag = some tag) = some d → d.dead = true → d.kind = 0 →
      exec (.dutyReplyAdmit tag) s = .next (countReg rDrIgn 1 u)) ∧
    ((s.duties.find? fun d => d.tag = some tag) = none →
      exec (.dutyReplyAdmit tag) s = .next (countReg rDrIgn 1 s))

/-- Replies to fault records by FRREPLY: RETRY, POISON and FAIL for a lane of a waiting word; a tag that is not
outstanding is counted (R293). To a suspended device no reply is possible (R403); that none is counted is the model's
choice (log entry 150). -/
def Obl.FaultReplies : Prop :=
  ∀ (s : State) (tag g seq lane : Nat) (r : FaultRec), tag < 2 ^ 32 →
    let u : State := { s with outFaults := s.outFaults.filter fun x => x.tag ≠ some tag }
    (suspStat s = 2 → exec (.frreplyRetry tag) s = .next s ∧ exec (.frreplyPoison tag) s = .next s ∧
      exec (.frreplyFail tag) s = .next s) ∧
    (suspStat s ≠ 2 → (s.outFaults.find? fun r => r.tag = some tag) = some r → r.owner = .lane g seq lane →
      exec (.frreplyRetry tag) s = .next (modQueued g seq (answerLane lane 0) u) ∧
      exec (.frreplyPoison tag) s = .next (modQueued g seq (answerLane lane 1) u) ∧
      exec (.frreplyFail tag) s = .next (modQueued g seq (answerLane lane 2) u)) ∧
    (suspStat s ≠ 2 → (s.outFaults.find? fun r => r.tag = some tag) = none →
      exec (.frreplyRetry tag) s = .next (countReg rFrIgn 1 s))

/-- TLBINV removes the translations of its scope from one context or from all, with every page, block and run that
holds the address, and the table entries that the walk caches hold of it; its busy bit clears once no access uses one
of them (R290, R291). -/
def Obl.Invalidation : Prop :=
  ∀ (s : State) (ctx : Nat) (all : Bool), ctx < 64 →
    let a := reg s rTlbInvAddr
    let holds (lo n : Nat) : Bool := decide (lo ≤ a) && decide (a < lo + n)
    let gone (scope : Nat) (hit : Tlb → Bool) (cached : WalkEnt → Bool) : State :=
      { setReg s rTlbInv (ctx + b2n all * 64 + scope * 128 + 2 ^ 63) with
        tlb := s.tlb.filter fun t => !((all || t.ctx = ctx) && hit t)
        walkCache := s.walkCache.filter fun w => !((all || w.ctx = ctx) && cached w)
        tlbinv := s.tlb.filter fun t => (all || t.ctx = ctx) && hit t }
    ((reg s rTlbInv).testBit 63 = false →
      exec (.tlbinvPage ctx all) s = .next (gone 0 (fun t => holds t.va t.size || holds t.blk t.blkSize)
        (fun w => holds w.va w.size)) ∧
      exec (.tlbinvContext ctx all) s = .next (gone 1 (fun _ => true) (fun _ => true)) ∧
      exec (.tlbinvIpa ctx all) s = .next (gone 2 (fun t => holds t.ipa t.size || holds t.iblk t.iblkSize)
        (fun _ => true))) ∧
    ((reg s rTlbInv).testBit 63 = true →
      exec (.tlbinvPage ctx all) s = .next s ∧ exec (.tlbinvContext ctx all) s = .next s ∧
      exec (.tlbinvIpa ctx all) s = .next s ∧
      ((∀ t ∈ s.tlbinv, invInUse s t = false) → exec .tlbinvComplete s =
        .next { setReg s rTlbInv (reg s rTlbInv % 2 ^ 63) with tlbinv := [] }))

/-- Writes of host interrupt, scan, wake, suspend and heartbeat registers, and a narrow write of an RW register,
which keeps the bytes it does not cover; a scan that SCANNOW asks for falls due at the next decision point (R12, R278,
R340, R387, R393, R400). -/
def Obl.RegisterWrites : Prop :=
  ∀ (s : State) (x c o : Nat) (island ochre : Bool) (bytes : List Sys2Proof.Byte), x < 2 ^ 64 →
    exec (.histatClear x) s = .next (setReg s rHiStat (reg s rHiStat &&& notBits 64 x)) ∧
    ((∀ n < 8, x.testBit n = true → (reg s rHiEn).testBit n = true ∨ (reg s rHiStat).testBit n = false) →
      exec (.hienWrite x) s = .next (setReg s rHiEn (x % 256))) ∧
    (c < 32 → (reg s rRetired).testBit c = true → exec (.scannow c) s = .next s) ∧
    (c < 32 → (reg s rRetired).testBit c = false → (∀ y ∈ s.scans, y.core ≠ c) →
      exec (.scannow c) s = .next { s with scans := { core := c, stage := 5 } :: s.scans }) ∧
    (suspStat s = 0 → exec (.wakeset ochre x) s = .next (wakeMask x s)) ∧
    (suspStat s ≠ 0 → exec (.wakeset true x) s =
      .next (wakeMask x { s with susp := { s.susp with wakeSeen := true } })) ∧
    (x % 4096 = 0 → x < 2 ^ 52 → exec (.suspctlGo x) s = .next (suspGo none x s)) ∧
    (suspStat s ≠ 0 → exec (.suspctlGo x) s = .next s) ∧
    exec .hbap s = .next { s with island := { s.island with hbAt := s.now } } ∧
    (bytes.length ∈ [1, 2, 4, 8] → o < 8 → o % bytes.length = 0 → exec (.registerWrite island (0x10 + o) bytes) s =
      .next (setReg s 0x10 (setBits (reg s 0x10) (8 * o + 8 * bytes.length - 1) (8 * o) (ofBytes bytes)))) ∧
    (bytes.length = 3 → o < 0x10000000 → exec (.registerWrite island o bytes) s = .next (countUe s))

/-! ### The dispatcher's events -/

/-- Releases: an armed card whose RELEASE has come becomes ready with its absolute deadline, and a periodic card's
RELEASE advances; a release that comes while the instance runs is pending; a further one is skipped with a record
of EVENT 7; each of them calls for a decision (R303 to R305). -/
def Obl.Releases : Prop :=
  ∀ (s : State) (n : Nat),
    let rel := cRelease s n
    let periodic := cPeriod s n ≠ 0
    (cState s n < 2 → exec (.cardRelease n) s = .next s) ∧
    (cState s n = 2 → (run s n).pend = none → s.now < rel → exec (.cardRelease n) s = .next s) ∧
    (cState s n = 2 → (run s n).pend = none → dispatching s = true → rel ≤ s.now →
      exec (.cardRelease n) s = .next (dispatch (makeReady n rel (rel + cDeadline s n)
        (if periodic then setCardFld n 127 64 (rel + cPeriod s n) s else s)))) ∧
    (3 ≤ cState s n → periodic → (run s n).disarmed = false → rel ≤ s.now → (run s n).pend = none →
      exec (.cardRelease n) s = .next (decisionPoint (setCardFld n 127 64 (rel + cPeriod s n)
        (modRun n (fun R => { R with pend := some (rel, rel + cDeadline s n) }) s)))) ∧
    (3 ≤ cState s n → periodic → (run s n).disarmed = false → rel ≤ s.now → (run s n).pend.isSome = true →
      let u := bumpCard n 895 864 s
      exec (.cardRelease n) s =
        .next (decisionPoint (nextRelease n (writeRecord n { instRec s n 7 0 with rel := rel } u)))) ∧
    (∀ t, (decisionPoint t).decision = true)

/-- The ends of an instance: completion with its record of EVENT 0, after the deadline miss of an instance that is
late, and after what it has overrun of its budgets is reported; the end of a kill once nothing of it is left to
perform, and the record or the replay that follows, no replay once an external effect has performed (R23, R303, R315,
R316, R327, R329, R330). -/
def Obl.InstanceEnds : Prop :=
  ∀ (s : State) (n : Nat) (k : Kill),
    (let late := (run s n).missed = false ∧ (run s n).absDl < s.now ∧ pastDeadline s n (run s n).absDl = true
     let ready (t : State) : Prop := 4 ≤ cState t n ∧ (run t n).kill = none ∧ workDone t n = true
     let u := if late then missInstance n s.now s else s
     let v := reportOverruns n u
     (ready s → ready u → ready v → exec (.launchComplete n) s = .next (dispatch (completeCard n v))) ∧
     (ready s → ready u → ¬ready v → exec (.launchComplete n) s = .next v) ∧
     (ready s → ¬ready u → exec (.launchComplete n) s = .next u) ∧
     (¬ready s → exec (.launchComplete n) s = .next s)) ∧
    ((run s n).kill = none → exec (.killComplete n) s = .next s) ∧
    ((run s n).kill = some k → drained s n = false → exec (.killComplete n) s = .next s) ∧
    (let v := reportOverruns n s
     let u := freeCard n v
     (run s n).kill = some k → (run v n).kill = some k → (run s n).replayAsk = false → drained s n = true →
       drained v n = true →
      (k.replay = false ∨ cExtEff u n = true →
        exec (.killComplete n) s = .next (dispatch (failCard n k.event k.cls u))) ∧
      (k.replay = true → cExtEff u n = false → dutyHw v (cardFld v n 27 26) 2 = true →
        exec (.killComplete n) s = .next (dispatch (replayCard n u))))

/-- Deadlines and budgets: a miss counts in MISSES, arms the handler and writes a record of EVENT 1; USED over
EBUDGET and bandwidth over its window's budget are counted and recorded, also that of windows that have ended since, and
BUDACT demotes or aborts (R315, R316). -/
def Obl.MissesAndBudgets : Prop :=
  ∀ (s : State) (n : Nat),
    let R := run s n
    let enabled := inInstance s n = true ∧ cardFld s n 21 21 = 1
    (suspStat s = 0 → inInstance s n = true → R.missed = false → R.jobDone = none → R.absDl ≤ s.now →
      missAborts s n = false →
      exec (.deadlineMiss n) s = .next (raiseMiss n (cInstance s n) R.rel s.now
        (modRun n (fun R => { R with missed := true }) s))) ∧
    (inInstance s n = false → R.pend = none → exec (.deadlineMiss n) s = .next s) ∧
    (enabled → cEBudget s n ≠ 0 → R.overran = false → cEBudget s n < cardFld s n 767 736 →
      let u := raiseBudget n 2 (modRun n (fun R => { R with overran := true }) s)
      (cardFld s n 20 19 = 0 → exec (.execBudgetOverrun n) s = .next u) ∧
      (cardFld s n 20 19 = 1 →
        exec (.execBudgetOverrun n) s = .next (modRun n (fun R => { R with demoted := true }) u)) ∧
      (cardFld s n 20 19 = 2 → exec (.execBudgetOverrun n) s = .next (killCard n { event := 4, cls := 0 } u))) ∧
    (cardFld s n 767 736 ≤ cEBudget s n → exec (.execBudgetOverrun n) s = .next s) ∧
    (inInstance s n = true → 0 < R.bwDue → exec (.bwBudgetOverrun n) s =
      .next (raiseBudget n 3 (modRun n (fun R => { R with bwDue := R.bwDue - 1 }) s))) ∧
    (R.bwDue = 0 → enabled → cBwBudget s n ≠ 0 → cBwBudget s n < R.bwBytes → R.bwRaised ≠ some R.bwWin →
      exec (.bwBudgetOverrun n) s =
        .next (raiseBudget n 3 (modRun n (fun R => { R with bwRaised := some R.bwWin }) s))) ∧
    (R.bwDue = 0 → R.bwBytes ≤ cBwBudget s n → exec (.bwBudgetOverrun n) s = .next s)

/-- The capture of a context: its groups park at the first close after the decision, after a rollback where a word ran
past the boundary or a handler runs, those of a chain or a batch at once; its image is written sector by sector, and
it leaves its core once the image is sealed and its writes have performed; a wave returns to its last committed epoch,
and a context of it that is saved stays so; a restored context's groups go on with empty stash windows (R162, R308,
R309, R311, R312). -/
def Obligations.Captures : Prop :=
  ∀ (s : State) (lk c k : Nat) (p : Part),
    (nfind (launch s lk).parts c = some p → p.preempt = true → p.capture = 0 → (launch s lk).det = false →
      (launch s lk).hostTrap = none → jobsParked s lk c = true → cKind s (lk / 2) = 1 →
      p.atQ < (pair s (c / 2)).qn → (∀ g ∈ groupsOfPart s lk c, stoodStill (grp s g) = true) →
      (captureBack s lk c = none → exec (.preemptCapture lk c) s = .next (dispatch (parkPart lk c s))) ∧
      (∀ q, captureBack s lk c = some q →
        exec (.preemptCapture lk c) s = .next (dispatch (parkPart lk c (rollTo (c / 2) q s))))) ∧
    (nfind (launch s lk).parts c = some p → p.preempt = true → p.capture = 0 → (launch s lk).det = false →
      (launch s lk).hostTrap = none → jobsParked s lk c = true → cKind s (lk / 2) ≠ 1 → captureBack s lk c = none →
      exec (.preemptCapture lk c) s = .next (dispatch (parkPart lk c s))) ∧
    (nfind (launch s lk).parts c = some p → p.preempt = false →
      exec (.preemptCapture lk c) s = .next s) ∧
    (let ks := commitKeys s c
     ((∀ lk ∈ ks, leavingParts s lk = []) → exec (.detWavePreempt c) s = .next s) ∧
     ((∃ lk ∈ ks, (launch s lk).det = true ∧ leavingParts s lk ≠ []) →
      (∀ lk ∈ ks, (launch s lk).committing = false ∧ (launch s lk).hostTrap = none) →
      (∀ g ∈ waveGroups s c, (grp s g).parked = true ∨ stoodStill (grp s g) = true) →
      (∀ lk ∈ ks, ∀ p ∈ (launch s lk).parts, jobsParked s lk p.1 = true) →
      let u := (wavePairs s c).foldl (fun s p => rollPair p (fun g => gCard g = c) s) s
      exec (.detWavePreempt c) s = .next (dispatch
        (ks.foldl (fun s lk => (launch s lk).parts.foldl (fun s p =>
          if p.2.capture = 0 then parkPart lk p.1 s else s) s) u)))) ∧
    (partAt s lk k = none → exec (.contextImageWrite lk k) s = .next s) ∧
    (partAt s lk k = some c → (part s lk c).capture = 1 →
      (∀ g ∈ groupsOfPart s lk c, (grp s g).closed = []) →
      holdCount s k < holdCap k → (savedAt s lk k).written / 64 < imageSize s lk k →
      let u := imageSector lk k s
      exec (.contextImageWrite lk k) s =
        .next (if imageWritten u lk c then modPart lk c (fun p => { p with capture := 2 }) u else u)) ∧
    (let u := vacate lk c ((coresOf (launch s lk) c).foldl (fun s k => savePart lk k s) (chargeCard s (lk / 2)))
     let saved (k : Nat) : Prop := ∀ p ∈ (launch u k).parts, p.2.capture = 3
     let mine (h : HB) : Prop := match h.what with
       | .output l .. => l = lk
       | _ => lkOf h.g = lk ∧ h.core ∈ coresOf (launch s lk) c
     ((part s lk c).capture = 2 → imageSealed s lk c = true → (∀ h ∈ (pair s (c / 2)).hb, ¬mine h) →
       (saved (lk / 2 * 2) → saved (lk / 2 * 2 + 1) →
         exec (.contextFree lk c) s = .next (dispatch (setCardFld (lk / 2) 7 4 5 u))) ∧
       (¬saved (lk / 2 * 2) → exec (.contextFree lk c) s = .next (dispatch u))) ∧
     ((part s lk c).capture ≠ 2 → exec (.contextFree lk c) s = .next s)) ∧
    (let gs := groupsOfPart s lk c
     ((part s lk c).capture = 4 → ∃ u, exec (.restoreComplete lk c) s = .next (dispatch (gs.foldl landAll u)) ∧
       (part u lk c).capture = 0 ∧ (∀ g ∈ gs, (grp u g).parked = false) ∧ u.now = s.now ∧
       ∀ tk ∈ teamsOfPart s lk c, (team u tk).fill0 = [] ∧ (team u tk).fill1 = []) ∧
     ((part s lk c).capture ≠ 4 → exec (.restoreComplete lk c) s = .next s))

/-! ### The operator walker's events -/

/-- The walker: it reads a card and checks its masks, where the checkpoint before step 0 calls for a decision; it runs
the step whose inputs it has gathered, stages the step's outputs at its end, counts the step when they have performed,
and abandons one that overruns after a pre-emption (R349 to R355, R357). -/
def Obl.WalkerSteps : Prop :=
  ∀ (s : State) (k : Nat) (j : Job),
    (nextJob s k = none → exec (.tileStep k) s = .next s) ∧
    (nextJob s k = some j → j.recs = [] → j.stage = 0 → stopsHere s k j = false →
      let reads (r : Job × State) : Prop :=
        let u := modJob k j (fun _ => r.1) r.2
        (r.1.st ≠ 3 → r.1.desc = none ∨ r.1.unchecked = true → exec (.tileStep k) s = .next u) ∧
        (r.1.st ≠ 3 → r.1.desc ≠ none → r.1.unchecked = false → exec (.tileStep k) s = .next (dispatch u)) ∧
        (r.1.st = 3 → exec (.tileStep k) s = .next (failJob k j r.1.err r.2))
      (j.desc = none → reads (readCard k j s)) ∧
      (∀ d, j.desc = some d → j.unchecked = true → reads (checkMasks k j d.toNat s)) ∧
      (∀ d, j.desc = some d → j.unchecked = false → j.resident = some (ocNi d.toNat j.pos) →
        let g := jobGather k j (gatherRuns d.toNat j.pos) s
        let lost := spoiltWeights k j d.toNat g.2
        (∀ p z, g.1 = .ok p z → lost = [] ∨ (launch g.2 j.lk).cont = true → exec (.tileStep k) s =
          .next (runRows k j d.toNat (gotNum g.2 p z) lost (countFor j.lk (z.length + lost.length) g.2))))) ∧
    ((core s k).jobs.find? (fun j => j.live && j.stage = 1) = some j →
      (j.killBy.isSome = true → exec (.tileStepEnd k) s =
        .next (dispatch (modJob k j (fun y => { y with st := 3, killed := true, stage := 0, recs := [] })
          (handClock k j s)))) ∧
      (∀ d p z, j.killBy = none → j.recs = [] → jobRuns s k j = true → j.desc = some d →
        (jobGather k j (biasRuns d.toNat j.pos) s).1 = .ok p z →
        let g := (jobGather k j (biasRuns d.toNat j.pos) s).2
        exec (.tileStepEnd k) s = .next (endStep k j d.toNat (gotNum g p z) z.length g))) ∧
    (∀ d p, (core s k).jobs.find? holdsWalker = some j → j.desc = some d → jobPart s k j = some p →
      p.preempt = true → p.capture = 0 → atCheckpoint j = false →
      (2 * s.now < 2 * p.askedAt + ocCkpt d.toNat * nbits d.toNat 63 32 →
        exec (.walkerAbandonStep k) s = .next s) ∧
      (2 * p.askedAt + ocCkpt d.toNat * nbits d.toNat 63 32 ≤ 2 * s.now → j.killBy = none →
        exec (.walkerAbandonStep k) s = .next (modJob k j (fun y =>
          if y.killBy.isSome then { y with st := 3, killed := true, stage := 0, recs := [] }
          else { y.turnClock s.now with stage := 0, parked := true }) s)))

/-- A walker's output in a pair's buffers performs, once what it reads has come; while another output of its step is left
the step does not count, and with its last one it counts for its card, and calls for a decision (R279, R305, R353). -/
def Obl.WalkerOutputs : Prop :=
  ∀ (s : State) (pr n : Nat) (h : HB) (lk key step va pa tail : Nat) (bytes : List Sys2Proof.Byte),
    (pair s pr).hb[n]? = some h → h.what = .output lk key step va pa bytes tail →
    (entryMay s pr n h = false → exec (.walkerOutputPerform pr n) s = .next s) ∧
    (∀ u, entryMay s pr n h = true → entryServed h s = (false, u) → exec (.walkerOutputPerform pr n) s = .next u) ∧
    (∀ u, entryMay s pr n h = true → entryServed h s = (true, u) →
      let t := performAt pr n h u
      let same (e : HB) : Prop := ∃ v p b l, e.what = .output lk key step v p b l
      ((∃ e ∈ (pair t pr).hb, same e) → exec (.walkerOutputPerform pr n) s = .next t) ∧
      ((∀ e ∈ (pair t pr).hb, ¬same e) → exec (.walkerOutputPerform pr n) s =
        .next ([2 * pr, 2 * pr + 1].foldl (fun s k => modJobs k (fun js => js.flatMap fun j =>
          if j.lk = lk && j.key = key then stepDone j else [j]) s) (decisionPoint t))))

/-! ### Strikes, scans, power gating and temperature -/

/-- A strike on a core pair whose groups run in normal mode: its unsealed quanta roll back, the strike and the rollback
are counted, and the pair resumes later; the fourth rollback of one quantum fails every context there and asks for both
cores' scans, and so does a bad journal but for the scans; a slice's strike scrubs its own sectors (R331, R332, R334 to
R336). -/
def Obl.Strikes : Prop :=
  ∀ (s : State) (pr : Nat) (sectors : List (Nat × Nat)),
    let s1 : State := { s with island := { s.island with strikes := s.island.strikes + 1 } }
    let n := if pairWork s pr then (pair s pr).rolls + 1 else 0
    let counted := (cardsOn s1 pr).foldl (fun s n => modRun n (fun R => { R with rolls := R.rolls + 1 }) s) s1
    let back := modPair (rollPair pr (fun _ => false) counted) pr fun P =>
      { P with strikes := P.strikes + 1, rolls := n, rolling := true }
    ((pair s pr).sealedAt ≠ some s.now → pr ≤ 16 → (∀ g ∈ allOn s pr, isDet s g = false) →
      (n < 4 → exec (.strikeReport 0 pr false sectors) s = .next back) ∧
      (4 ≤ n → exec (.strikeReport 0 pr false sectors) s =
        .next (askScan (2 * pr + 1) (askScan (2 * pr) (pairLost pr back)))) ∧
      exec (.strikeReport 0 pr true sectors) s = .next (pairLost pr back)) ∧
    (pr < 32 → exec (.strikeReport 1 pr false sectors) s =
      .next ((sectors.filter fun x => l2Slice x.1 = pr).foldl scrubSector s1)) ∧
    (∀ a, l2Valid s1 a = true →
      (l2Dirty s1 (a / 64) = true → scrubSector s1 (a, 2) = countUe (poisonSector a s1)) ∧
      (l2Dirty s1 (a / 64) = false → scrubSector s1 (a, 2) = invalidateSector (a / 64) s1) ∧
      scrubSector s1 (a, 3) = loseTag (a / 128) s1) ∧
    exec (.strikeReport 2 pr false sectors) s = .next s1 ∧
    exec (.strikeReport 3 pr false sectors) s = .next s1 ∧
    ((pair s pr).rolling = true → exec (.rollbackResume pr) s =
      .next (modPair s pr fun P => { P with rolling := false, openAt := s.now })) ∧
    ((pair s pr).rolling = false → exec (.rollbackResume pr) s = .next s)

/-- Scans: every 100 ms the next core in rotation that is not retired is due; a context at critical level holds its
scan off for at most 10 ms; a drained core that passes is confirmed, and quarantined where a unit's last spare is
used; one that fails is scanned again, then quarantined; the rows that gave uncorrectable errors are mapped to spares
(R337 to R339). -/
def Obl.Scans : Prop :=
  ∀ (s : State) (c rows cols : Nat) (x : Scan),
    let x0 := reg s rScanStat
    let s1 : State := { s with scanAt := s.scanAt + 100000000 }
    let retired (i : Nat) : Bool := (reg s rRetired).testBit ((x0 % 32 + i) % 32)
    ((∀ y ∈ s.scans, y.stage ≠ 4) →
      (s.now < s.scanAt + 100000000 → exec .scanDue s = .next s) ∧
      (s.scanAt + 100000000 ≤ s.now →
        (∀ i < 32, retired i = false → (∀ j < i, retired j = true) →
          let k := (x0 % 32 + i) % 32
          exec .scanDue s = .next (wantScan k (setReg s1 rScanStat (setBits x0 4 0 ((k + 1) % 32))))) ∧
        ((∀ i < 32, retired i = true) → exec .scanDue s = .next s1))) ∧
    ((s.scans.find? fun x => x.core = c) = some x → x.stage = 2 →
      (x.dueAt ≤ s.now ∨ criticalOn s c = false → exec (.scanForceDrain c) s = .next (drainCore c s)) ∧
      (s.now < x.dueAt → criticalOn s c = true → exec (.scanForceDrain c) s = .next s)) ∧
    ((s.scans.find? fun x => x.core = c && decide (x.stage < 2)) = some x →
      (coreDrained s c = false → exec (.scanComplete c true rows cols false) s = .next s) ∧
      (coreDrained s c = true →
        let u := modCore (useSpares (max rows (core s c).faulty) cols s) c fun C => { C with faulty := 0 }
        let passed := confirmCore c x.second u
        (x.spent = false →
          exec (.scanComplete c true rows cols false) s = .next (dispatch (endScan c passed))) ∧
        (x.spent = true →
          exec (.scanComplete c true rows cols false) s = .next (dispatch (endScan c (quarantineOnly c passed)))) ∧
        exec (.scanComplete c true rows cols true) s = .next (dispatch (endScan c (quarantineOnly c passed))) ∧
        (x.second = false → exec (.scanComplete c false rows cols false) s =
          .next (setScan { x with stage := 1, second := true } (countScanFail u))) ∧
        (x.second = true → exec (.scanComplete c false rows cols false) s =
          .next (dispatch (endScan c (quarantine c (confirmCore c true (countScanFail u))))))))

/-- Power gating and the sensors' wakes: a gating that no wake has aborted ends with the core gated, and any other leaves
all as it is; a gated core that a wake names has power, and the dispatcher decides; a sensor event wakes the ochre cores
out of their HALT, and on a suspended device it is a wake event (R243, R343, R402). -/
def Obl.PowerGating : Prop :=
  ∀ (s : State) (c : Nat),
    (s.gating.testBit c = true → exec (.coreEnterGating c) s =
      .next { s with gating := setBits s.gating c c 0, gated := s.gated ||| 2 ^ c }) ∧
    (s.gating.testBit c = false → exec (.coreEnterGating c) s = .next s) ∧
    (s.gated.testBit c = true → s.wakeReq.testBit c = true → exec (.coreWakeComplete c) s =
      .next (dispatch { s with gated := setBits s.gated c c 0, wakeReq := setBits s.wakeReq c c 0 })) ∧
    (s.gated.testBit c = false ∨ s.wakeReq.testBit c = false → exec (.coreWakeComplete c) s = .next s) ∧
    (let u := wakeCore 33 (wakeCore 32 s)
     (suspStat s = 0 → exec .sensorEvent s = .next u) ∧
     (suspStat s ≠ 0 → exec .sensorEvent s = .next { u with susp := { u.susp with wakeSeen := true } }))

/-- Temperature: TEMP follows the hottest junction, and the time since which it stands above 125 °C is kept; once it has
stood there for 1 ms every array context is killed with LOST, the compute cores are held in reset and a mailbox message
goes out, once; a temperature below THROT releases them, and the dispatcher decides (R330, R393, R399). -/
def Obligations.Temperature : Prop :=
  ∀ (s : State) (t : Nat),
    let temp := sx 16 (t % 2 ^ 16)
    let since := if temp ≤ 2000 then none else some (s.island.hotSince.getD s.now)
    let told := setReg { s with island := { s.island with hotSince := since } } rTemp (t % 2 ^ 16)
    let cards := ((List.range 32).flatMap fun c => (ctxsOn s c).map fun x => x.1 / 2).dedup
    let killed := cards.foldl (fun s n => killCard n (killFor s n clsLost 0) s) s
    exec (.thermalThrottle t) s = .next told ∧
    (s.island.coresHeld = true → temp < sx 16 (reg s rThrot) → exec (.thermalRelease t) s =
      .next (dispatch { told with island := { told.island with coresHeld := false } })) ∧
    (s.island.coresHeld = false ∨ sx 16 (reg s rThrot) ≤ temp → exec (.thermalRelease t) s = .next told) ∧
    (∀ a, s.island.hotSince = some a → a + 1000000 ≤ s.now → s.island.coresHeld = false →
      exec .thermalShutdown s =
        .next (raiseInt 6 { killed with island := { killed.island with coresHeld := true } })) ∧
    (∀ a, s.island.hotSince = some a → s.now < a + 1000000 → exec .thermalShutdown s = .next s) ∧
    (s.island.hotSince = none ∨ s.island.coresHeld = true → exec .thermalShutdown s = .next s)

/-! ### Suspend, boot, the mailbox and supervision -/

/-- Suspend and resume: once every context is saved and no write is held back the device powers down, with its image
and the time it took, and the L2 and the TLBs are empty; a wake event or the alarm begins the resume, and its second
event ends it (R400 to R403). -/
def Obligations.SuspendResume : Prop :=
  ∀ (s : State),
    (suspStat s ≠ 1 ∨ suspendReady s = false → exec .suspendPowerDown s = .next s) ∧
    (suspStat s = 1 → suspendReady s = true → ∃ t, exec .suspendPowerDown s = .next t ∧
      suspStat t = 2 ∧ t.tlb = [] ∧ t.walkCache = [] ∧ t.l2 = [] ∧ t.susp.powerDown = s.now ∧
      t.susp.len = (suspendImage s).length ∧ nbits (reg t rSuspTime) 31 0 = (s.now + 1 - s.susp.begun) % 2 ^ 32 ∧
      (∀ c, c < 32 → (core t c).rows = [])) ∧
    (suspStat s = 1 → exec (.resume true) s = .next { s with susp := { s.susp with wakeSeen := true } }) ∧
    (suspStat s = 2 → exec (.resume true) s = .next (beginResume s)) ∧
    (suspStat s = 2 → s.susp.wakeSeen = true → exec (.resume false) s = .next (beginResume s)) ∧
    (suspStat s = 2 → s.susp.wakeSeen = false → exec (.resume false) s = .next s) ∧
    (suspStat s = 3 → exec (.resume false) s = .next (endResume s)) ∧
    (suspStat s = 2 → reg s rResAlarm ≠ 0 → reg s rResAlarm ≤ s.now →
      exec .resumeAlarm s = .next (beginResume s)) ∧
    (reg s rResAlarm = 0 → exec .resumeAlarm s = .next s)

/-- Power-on and boot: the device starts at stage 1 with what its non-volatile memory keeps; a stage that ends starts
the next and is told in BOOTSTAT; one that fails stops the boot; a device that is alone takes number 0, and the straps
set the PCI Express controllers; an image is taken only when its header, version, key and signature are good; a reset
of the island interrupts a signing (R375, R385, R388 to R391). -/
def Obl.BootStages : Prop :=
  ∀ (s : State) (img img2 : List Sys2Proof.Byte) (mask : Nat),
    let n := s.island.stage
    (∃ t, exec .powerOn s = .next t ∧ t.mem = [] ∧ t.groups = [] ∧ t.cards = [] ∧ t.now = 0 ∧
      t.island.stage = 1 ∧ t.island.failed = false ∧ t.island.svnMin = s.island.svnMin ∧
      t.island.keyIndex = s.island.keyIndex) ∧
    (1 ≤ n → n < 7 → s.island.failed = false →
      exec (.bootStage false img img2 mask) s = .next (stageFails n 0 s) ∧
      (n = 1 → exec (.bootStage true img img2 mask) s = .next (stageEnds 1 s)) ∧
      (n = 4 → soleDevice s = false → exec (.bootStage true img img2 mask) s = .next (stageEnds 4 (setPcie s))) ∧
      (n = 4 → soleDevice s = true → exec (.bootStage true img img2 mask) s =
        .next (stageEnds 4 (setPcie (setReg s rDevid (devid s / 4 * 4))))) ∧
      (n = 3 → exec (.bootStage true img img2 mask) s = .next (stageEnds 3 (clearDram s))) ∧
      (n = 2 → imageOk s 1 img = true → exec (.bootStage true img img2 mask) s = .next (stageEnds 2 (takeImage 1 img s))) ∧
      (n = 2 → imageOk s 1 img = false → exec (.bootStage true img img2 mask) s = .next (stageFails 2 1 s)) ∧
      (n = 5 → imageOk s 2 img = true → let u := takeImage 2 img s
        exec (.bootStage true img img2 mask) s =
          .next (stageEnds 5 { u with island := { u.island with hbAt := s.now } })) ∧
      (n = 5 → imageOk s 2 img = false → exec (.bootStage true img img2 mask) s = .next (stageFails 5 2 s)) ∧
      (n = 6 → imageOk s 3 img = true → imageOk (takeImage 3 img s) 4 img2 = true →
        exec (.bootStage true img img2 mask) s =
          .next (dispatch (stageEnds 6 (bootScan mask (takeImage 4 img2 (takeImage 3 img s))))))) ∧
    (7 ≤ n ∨ s.island.failed = true → exec (.bootStage true img img2 mask) s = .next s) ∧
    exec .islandLockstepReset s =
      .next { s with island := { s.island with restart := none, hotSince := none, signing := none } }

/-- Mailbox commands: ATTEST takes its key index and commits the next before it releases report and signature, and has
none left after 2^40; RESTART restarts the engine of a code; COMMITSV raises the least security versions; another code
is invalid; a command's end is counted in MBSTAT and raises the mailbox interrupt (R391 to R394). -/
def Obl.MailboxCommands : Prop :=
  ∀ (s : State) (code arg : Nat),
    let ended (t : State) (result : Nat) : State :=
      raiseInt 6 (setReg { t with island := { t.island with mb := none } } rMbStat
        (result * 16 + (nbits (reg t rMbStat) 63 32 + 1) % 2 ^ 32 * 2 ^ 32))
    (s.island.mb = none →
      exec .mbAttest s = .next s ∧ exec .mbRestart s = .next s ∧ exec .mbCommitsv s = .next s ∧
      exec .mbInvalid s = .next s) ∧
    (s.island.mb = some (1, arg) → s.island.signing = none → 2 ^ 40 ≤ s.island.keyIndex →
      exec .mbAttest s = .next (ended s 3)) ∧
    (s.island.mb = some (1, arg) → s.island.signing = none → s.island.keyIndex < 2 ^ 40 →
      let at0 := reg s rMbAddr
      let i := s.island.keyIndex
      ∀ u, Obl.Reached 1 0 [at0] [at0] s u → exec .mbAttest s = .next { u with
        island := { u.island with keyIndex := i + 1, signing := some (i, attestReport u (l2Read u (at0 + 16) 32)) } }) ∧
    (∀ i r, s.island.mb = some (1, arg) → s.island.signing = some (i, r) →
      exec .mbAttest s = .next (ended (l2Write (reg s rMbAddr) (r ++ (List.range 9893).map (Config.signByte i r)) 0
        { s with island := { s.island with signing := none } }) 0)) ∧
    (s.island.mb = some (2, arg) → mayRestart s (arg % 256) = true →
      (∀ t, restartEngine (arg % 256) s = some t → exec .mbRestart s = .next (ended t 0)) ∧
      (0x52 ≤ arg % 256 → exec .mbRestart s = .next (ended s 2))) ∧
    (s.island.mb = some (3, arg) → ∃ t, exec .mbCommitsv s = .next (ended t 0) ∧ t.mem = s.mem ∧
      ∀ k, 1 ≤ k → k ≤ 4 →
        nget 0 t.island.svnMin k = max (svnFloor s k) (nget 0 s.island.svnRun k)) ∧
    (s.island.mb = some (code, arg) → code ≠ 1 → code ≠ 2 → code ≠ 3 → exec .mbInvalid s = .next (ended s 2))

/-- Supervision: an engine that shows no progress within its time is restarted, if no other restart is in progress: a
core with a ready group that has issued nothing for 1 ms, unless its pair rolls back; a walker that has completed no
step of the card it is at for 10 ms, not while one awaits a fault reply; an ingest engine 100 ms after a Frame Start;
the processor cluster HBTMO ms after HBAP, which poisons what its caches lost. One that does show progress is left
alone (R394). -/
def Obl.Supervision : Prop :=
  ∀ (s : State) (c k : Nat) (F : Frame),
    let free := s.island.restart = none
    (c < 32 → coreStalls s c = true → free → (pair s (c / 2)).rolling = false → exec (.coreStallTimeout c) s =
      .next (restartCore c { s with island := { s.island with restart := some c } })) ∧
    (coreStalls s c = false ∨ ¬free ∨ (pair s (c / 2)).rolling = true → exec (.coreStallTimeout c) s = .next s) ∧
    (∀ j, c < 32 → free → currentJob (core s c).jobs = some j →
      (∀ j ∈ (core s c).jobs, j.live = true → j.recs = []) → j.since + 10000000 ≤ s.now →
      exec (.walkerStallTimeout c) s = .next (restartWalker c s)) ∧
    (currentJob (core s c).jobs = none ∨ (∃ j ∈ (core s c).jobs, j.live = true ∧ j.recs ≠ []) ∨
      (∀ j, currentJob (core s c).jobs = some j → s.now < j.since + 10000000) →
      exec (.walkerStallTimeout c) s = .next s) ∧
    (∀ j, currentJob (core s c).jobs = some j → j ∈ (core s c).jobs ∧ j.live = true ∧ j.parked = false) ∧
    (k < 8 → (nget {} s.ingest k).cur = some F → free →
      (F.start + 100000000 ≤ s.now → exec (.ingestFrameTimeout k) s = .next (dropFrame k s)) ∧
      (s.now < F.start + 100000000 → exec (.ingestFrameTimeout k) s = .next s)) ∧
    ((nget {} s.ingest k).cur = none → exec (.ingestFrameTimeout k) s = .next s) ∧
    (let due := s.island.hbAt + 1000000 * reg s rHbTmo ≤ s.now
     (reg s rHbTmo ≠ 0 → free → due →
       exec .heartbeatTimeout s = .next (loseApLines { s with island := { s.island with hbAt := s.now } })) ∧
     (reg s rHbTmo = 0 ∨ ¬due → exec .heartbeatTimeout s = .next s))

/-! ### Encoding (R68 to R70, R87, R92, R412) -/

/-- Words printed in the spec decode to the instructions that it prints beside them, and words written out from
R68 and R69 to theirs: one for each engine, in each form. -/
def Obligations.DecodeSamples : Prop :=
  decode (wordBytes 0x20204103) = .ok (.iadd ⟨1, 2, 3⟩, []) ∧
  decode (wordBytes 0x34010286 ++ wordBytes 0xC3880000) = .ok (.faddX ⟨4, 5, 6, ⟨true, true, 7⟩, 1, 0, 0⟩, []) ∧
  decode (wordBytes 0x4FE08080) = .ok (.tsig 2 ⟨2, 1, 0⟩, []) ∧
  decode (wordBytes 0x70458001 ++ wordBytes 0x00081000) =
    .ok (.xmma ⟨22, 0, 1, ⟨false, false, 0⟩, 1, 1, 0⟩, []) ∧
  decode (wordBytes 0x3581C300 ++ wordBytes 0x81800000) =
    .ok (.fex2X ⟨7, 6, 0, ⟨true, false, 3⟩, 0, 0, 0⟩, []) ∧
  decode (wordBytes 0x50824B8A ++ wordBytes 0x00281001) =
    .ok (.stl ⟨9, 23, 10, ⟨false, false, 0⟩, 5, 1, 1⟩, []) ∧
  decode (wordBytes 0x90C2C780 ++ wordBytes 0x00210000) =
    .ok (.cpyw ⟨11, 15, 0, ⟨false, false, 0⟩, 4, 16, 0⟩, []) ∧
  decode (wordBytes 0xB100058C ++ wordBytes 0) = .ok (.tbwait ⟨0, 11, 12, ⟨false, false, 0⟩, 0, 0, 0⟩, []) ∧
  decode (wordBytes 0xA1400080) = .ok (.claim ⟨0, 1, 0⟩, []) ∧
  decode (wordBytes 0x00804103) = .ok (.sadd ⟨1, 2, 3⟩, []) ∧
  decode (wordBytes 0xF0200000 ++ wordBytes 5) = .ok (.trap ⟨0, 0, 0, ⟨false, false, 0⟩, 5⟩, []) ∧
  decode (wordBytes 0xE0400000) = .ok (.hret ⟨0, 0, 0⟩, []) ∧
  decode (wordBytes 0x00600000 ++ [0]) = .ok (.smov ⟨0, 0, 0⟩, [0]) ∧
  decode (wordBytes 0x0FA00000) = .error .opcode ∧
  decode (wordBytes 0x00200000) = .error .form ∧
  decode (wordBytes 0x34010286) = .error .truncated

/-- Decoding an encoded well-formed instruction word gives it back with every operand, whatever bytes follow it. -/
def Obligations.DecodeOfEncode : Prop :=
  ∀ (i : Instr) (bs : List Sys2Proof.Byte), i.row.isSome = true → i.wellFormed = true →
    decode (encodeBytes i ++ bs) = .ok (i, bs)

/-- Every word has one meaning: the encoder gives back the bytes that the decoder has read, and an instruction is
as long as its L bit says. -/
def Obligations.EncodeOfDecode : Prop :=
  ∀ (i : Instr) (bs rest : List Sys2Proof.Byte), decode bs = .ok (i, rest) →
    encodeBytes i ++ rest = bs ∧ (encodeBytes i).length = i.size ∧ i.row.isSome = true

/-! ### The step (R70, R76) -/

/-- A step runs the instruction that it decodes. Where the next move fetches a slot's word, or a saved word that is
fetched again, and the 32-bit words at its address (and 4 bytes on, for a long form) decode to `i`, the step is `exec`
of `i` with its place, a saved word keeping how far it has gone; the 32-bit word at an address is its four bytes in
the group's view of memory, where the page translates, is no register and is not poisoned, and its line has come;
where the next move tries a queue's head, the step is `exec` of that word. A decision that is due follows each (R70,
R76, R86, R305). -/
def Obligations.StepRunsTheDecodedWord : Prop :=
  ∀ (s : State) (ms : List Move) (g slot q : Nat),
    let s0 : State := { s with ticks := s.ticks + 1, script := ms, cur := none }
    let p := fetchAt (grp s g) slot
    let pc := p.pc.toNat
    (∀ (w x : Word32) (t u : State) (i : Instr),
      s.script = .fetch g slot :: ms → fetchable s0 g slot = true → nget 0 (grp s g).fetchAns slot = 0 →
      fetchWord s0 g slot pc = (Fetched.word w, t) →
      let fresh : QWord := { instr := i, seq := p.seq, slot := p.slot, pc := p.pc, mask := p.mask, rot := p.rot }
      let place : Cur := ⟨g, false, match p.old with
        | some o => if o.instr = i then o else fresh
        | none => fresh⟩
      (wL w = 0#1 → decode (wordBytes w) = .ok (i, []) →
        step s = decided (exec i { t with cur := some place })) ∧
      (wL w = 1#1 → fetchWord t g slot ((pc + 4) % 2 ^ 64) = (Fetched.word x, u) →
        decode (wordBytes w ++ wordBytes x) = .ok (i, []) →
        step s = decided (exec i { u with cur := some place }))) ∧
    (slot < 2 → p.slot = slot ∧ p.pc = (slotOf (grp s g) slot).addr ∧ p.seq = (grp s g).nextSeq ∧
      p.mask = (slotOf (grp s g) slot).mask ∧ p.rot = (grp s g).plan ∧ p.old = none) ∧
    (∀ va pa mt t u, xlate s0 g (va % 2 ^ 64) .fetch = (.ok pa mt, t) →
      (fetchLine g slot pa mt t = (false, u) → fetchWord s0 g slot va = (Fetched.later, u)) ∧
      (fetchLine g slot pa mt t = (true, u) →
        let v := markRead g ((List.range 4).map (pa + ·)) u
        (∀ off, paKind v pa ≠ .reg off) → viewPoison v g pa = false →
        fetchWord s0 g slot va = (Fetched.word (BitVec.ofNat 32 (ofBytes (viewBytes v g pa 4))), v))) ∧
    (∀ w ws, s.script = .head g q :: ms → queueOf (grp s g) q = w :: ws →
      step s = decided (exec w.instr { s0 with cur := some ⟨g, true, w⟩ })) ∧
    (∀ t, decided (.next t) = .next (if t.decision then dispatch t else t))

/-- Every step keeps memory in its canonical form: addresses strictly rising, no listed byte zero. -/
def Obligations.StepKeepsMemoryForm : Prop :=
  ∀ (s t : State), Memory.wf s = true → step s = .next t → Memory.wf t = true

/-- The state after reset: memory in its canonical form and empty, no group, every card idle with every field 0
(R295, R303), the registers at the reset values of their tables (R32, R242, R266, R280, R299, R340, R358, R393),
every row zero (R60), and a core's carve (R266, R396). -/
def Obligations.ResetState : Prop :=
  let r := State.reset
  Memory.wf r = true ∧ (∀ a, memGet r.mem a = 0) ∧ r.groups = [] ∧ r.launches = [] ∧
  (∀ n, cState r n = 0 ∧ cRelease r n = 0 ∧ cInstance r n = 0) ∧ (∀ pr, (pair r pr).sealWin = 256) ∧
  (∀ c n, nget {} (core r c).rows n = {}) ∧
  (∀ c, c < 32 → (core r c).rf = 768 ∧ (core r c).loc = 0 ∧ (core r c).l1 = 1536) ∧
  ((core r 32).rf = 256 ∧ (core r 32).loc = 0 ∧ (core r 32).l1 = 640) ∧
  reg r rDctl = 0 ∧ reg r rDutySel = 0 ∧ reg r rAdmCore = 32768 ∧ reg r rAdmBw = 10368000 ∧
  reg r rQuar = 0 ∧ reg r rRetired = 0 ∧ reg r rScanStat = 0 ∧ reg r rMismatch = 0 ∧ reg r rScrub = 24 ∧
  (∀ n, n < 64 → reg r (rL2way n) = 0xFFFF) ∧ (∀ n, n < 64 → trMin r n = 0xFFFFFFFF ∧ trTotal r n = 0) ∧
  reg r rTdpw = 220 ∧ reg r rThrot = 1680 ∧ reg r rHiStat = 0 ∧ reg r rHiEn = 0

/-! ### Frames -/

/-- The frame of a register word: whatever it does (it completes, waits, traps, is placed or is held back),
memory, every other item, the cards and the memory-mapped registers are as before; at its queue's head in normal
mode, so are every group's mode, handler and trap registers. -/
def Obl.RegFrame (i : Instr) (dst : State → Cur → Item → Prop) : Prop :=
  ∀ (s t : State) (c : Cur), s.cur = some c → exec i s = .next t →
    t.mem = s.mem ∧ t.poison = s.poison ∧ t.cards = s.cards ∧ t.mmr = s.mmr ∧ t.now = s.now ∧
    (∀ it, it.named → ¬dst s c it → readItem t it = readItem s it) ∧
    (c.retry = true → isDet s c.g = false → ∀ g,
      (grp t g).supv = (grp s g).supv ∧ (grp t g).handler = (grp s g).handler ∧
      (grp t g).tstat = (grp s g).tstat ∧ (grp t g).tseq = (grp s g).tseq ∧
      (grp t g).taddr = (grp s g).taddr ∧ (grp t g).trec = (grp s g).trec)

/-- The frames of the register words: a scalar word changes its sD alone, a lane word its vD (and vD+1 for a 64-bit
type) alone, through the rotating region, and NOP nothing. -/
def Obligations.RegisterFrames : Prop :=
  (∀ w : SW, ∀ i ∈ [Instr.sadd w, .ssub w, .smul w, .smulh w, .sand w, .sor w, .sxor w, .sshl w, .sshr w, .ssra w,
      .smin w, .smax w], Obl.RegFrame i fun _ c it => it = .u c.g w.d.toNat) ∧
  (∀ w : XW, ∀ i ∈ [Instr.saddX w, .ssubX w, .smulX w, .smulhX w, .sandX w, .sorX w, .sxorX w, .sshlX w, .sshrX w,
      .ssraX w, .sminX w, .smaxX w, .scmp w, .ssel w], Obl.RegFrame i fun _ c it => it = .u c.g w.d.toNat) ∧
  (∀ w : SW, ∀ i ∈ [Instr.iadd w, .isub w, .imul w, .iand w, .ior w, .ixor w, .imin w, .imax w, .fadd w, .fsub w,
      .fmul w, .fmin w, .fmax w], Obl.RegFrame i fun s c it =>
        ∃ n m l, (n = w.d.toNat ∨ n = w.d.toNat + 1) ∧ physReg (grp (begun c s) c.g) n = some m ∧ it = .v c.g m l) ∧
  (∀ w : XW, ∀ i ∈ [Instr.iaddX w, .isubX w, .imulX w, .imad w, .iandX w, .iorX w, .ixorX w, .iminX w, .imaxX w,
      .isel w, .faddX w, .fsubX w, .fmulX w, .ffma w, .fminX w, .fmaxX w], Obl.RegFrame i fun s c it =>
        ∃ n m l, (n = w.d.toNat ∨ n = w.d.toNat + 1) ∧ physReg (grp (begun c s) c.g) n = some m ∧ it = .v c.g m l) ∧
  (∀ (e : BitVec 3) (w : SW), Obl.RegFrame (.nop e w) fun _ _ _ => False)

/-- The frames of stores. At the L2 and in local memory a store changes the bytes it covers and no other, where no No
Snoop write stands in DRAM beneath a clean line that the store may evict (R275). STL, at
the addresses that R144 gives its lanes, changes those bytes of the team's local memory and no other byte, register
or row, and no byte of global memory; an ST changes no byte before its entry performs. -/
def Obligations.StoreFrames : Prop :=
  (∀ (s : State) (pa partid a : Nat) (bytes : List Sys2Proof.Byte), NoRawBeneath s → a < pa ∨ pa + bytes.length ≤ a →
    memGet (l2Write pa bytes partid s).mem a = memGet s.mem a) ∧
  (∀ (s : State) (pa partid k : Nat) (bytes : List Sys2Proof.Byte), paKind s pa = .dram → k < bytes.length →
    pa % 64 + bytes.length ≤ 64 → memGet (l2Write pa bytes partid s).mem (pa + k) = bytes.getD k 0) ∧
  (∀ (c : Cur) (s : State) (w : XW) (ys : List LHit), isDet s c.g = false → Starts (.stl w) c s →
    Obl.LocalClear c s w.flds (mtSize w.flds.mod) false w.flds.i12
      (localCharge (begun c s) c (ys.map fun y => (y.lane, y.half, y.off))) ys → ∃ t, exec (.stl w) s = .next t ∧
      SameMemory s t ∧
      (∀ tk h a, h < 2 → (∀ y ∈ ys, ¬(tk = tkOf c.g ∧ y.half = h ∧ y.off ≤ a ∧ a < y.off + mtSize w.flds.mod)) →
        memGet ((team t tk).mem h) a = memGet ((team s tk).mem h) a) ∧
      (∀ it, it.named → (∀ h ch, it ≠ .loc (tkOf c.g) h ch) → readItem t it = readItem s it)) ∧
  (∀ (c : Cur) (s t : State) (w : XW) (hits : List Hit), isDet t c.g = false → Starts (.st w) c s →
    let xs := Obl.lanesAt c s w.flds (mtSize w.flds.mod) false
    Obl.Clear c s w.flds (mtSize w.flds.mod) .write (w.flds.m 3) false (sectorCharge xs, 0, sectorCharge xs) xs hits t →
    holdFull t c.g c.w.seq (newSectors t c.g c.w.seq (hits.map fun h => h.pa / 64).dedup) = none → ∃ u, exec (.st w) s = .next u ∧
      SameMemory t u ∧ ∀ it, it.named → readItem u it = readItem t it)

/-! ### The splitter's checks (R73, R75) -/

/-- A word that the splitter fetches and that meets a cause of R75 traps ILLOP with its lowest cause and enters no
queue; one that meets none takes the next sequence number, and waits in its queue where it cannot start; a word
that acts once for the group and is guarded off completes with no effect (R73, R75, R76). -/
def Obligations.SplitterChecks : Prop :=
  ∀ (i : Instr) (c : Cur) (s : State) (r : Row), s.cur = some c → i.row = some r →
    stopped (begun c s) c.g = false →
    (c.retry = false → (grp s c.g).nextSeq ≤ c.w.seq → heldBack (begun c s) c.g i = false →
      (∀ cause, illop (begun c s) c.g i = some cause →
        exec i s = .next (raiseTrap c.g (trapRec (begun c s) c i 1 cause 0 0) (begun c s))) ∧
      (r.cause2 i.flds = true → illop s c.g i = some 2) ∧
      (r.cause2 i.flds = false → r.cause3 i.flds = true → illop s c.g i = some 3) ∧
      (r.cause2 i.flds = false → r.cause3 i.flds = false → r.cause4 i.flds (8 * (grp s c.g).blocks) = true →
        illop s c.g i = some 4) ∧
      (r.cause2 i.flds = false → r.cause3 i.flds = false → r.cause4 i.flds (8 * (grp s c.g).blocks) = false →
        (privileged s c.g i = true → illop s c.g i = some 5) ∧
        (privileged s c.g i = false → (r.modOk = false → illop s c.g i = some 6) ∧
          (r.modOk = true → stateBad s c.g i = true → illop s c.g i = some 7) ∧
          (r.modOk = true → stateBad s c.g i = false → illop s c.g i = none))) ∧
      (isDet s c.g = false → illop (begun c s) c.g i = none →
        queueLoad (grp (begun c s) c.g) (engOf i) < 8 →
        let u := place i c (begun c s)
        (grp u c.g).nextSeq = (grp s c.g).nextSeq + 1 ∧
        (startable i c u = false → exec i s = .next (enqueue i c u))) ∧
      (illop (begun c s) c.g i = none → 8 ≤ queueLoad (grp (begun c s) c.g) (engOf i) →
        exec i s = .next (begun c s))) ∧
    (c.retry = true → startable i c (begun c s) = true → guardedOff (begun c s) c i = true → stopOf i = false →
      exec i s = .next (finish c i (begun c s)))

/-! ### Rules stated whole -/

/-- R85: the format of a saved word. -/
def Obligations.SavedWordFormat : Prop :=
  ∀ (w : QWord), w.slot < 2 →
    savedWord w < 2 ^ 128 ∧ nbits (savedWord w) 0 0 = w.slot ∧
    nbits (savedWord w) 1 1 = 0 ∧
    nbits (savedWord w) 63 2 = nbits w.pc.toNat 63 2 ∧ nbits (savedWord w) 127 64 = w.seq % 2 ^ 64

/-- R135: LVOTE takes the active lanes whose predicate bit is set, and writes them, whether there is one, whether
they are all, or their number; another modifier is ILLOP. -/
def Obligations.VoteWord : Prop :=
  ∀ (c : Cur) (s : State) (w : XW) (v : SW),
    let act := activeLanes s c w.flds
    let m := act &&& pread s c.g w.a.toNat
    (w.mod = 0 → Does (.lvoteX w) c s (uwrite c w.d.toNat m (begun c s))) ∧
    (w.mod = 1 → Does (.lvoteX w) c s (uwrite c w.d.toNat (if m ≠ 0 then 1 else 0) (begun c s))) ∧
    (w.mod = 2 → Does (.lvoteX w) c s (uwrite c w.d.toNat (if m = act then 1 else 0) (begun c s))) ∧
    (w.mod = 3 → Does (.lvoteX w) c s (uwrite c w.d.toNat (popCount 64 m) (begun c s))) ∧
    (4 ≤ w.mod.toNat → (Instr.lvoteX w).wellFormed = false ∧ illop s c.g (.lvoteX w) ≠ none) ∧
    Does (.lvote v) c s (uwrite c v.d.toNat (c.w.mask.toNat &&& pread s c.g v.a.toNat) (begun c s))

/-- R241: HRET gives a handler's group back the record's slots and mode, and its saved words are to be fetched again,
the first first, from their addresses with their sequence numbers, slots and lane masks (R86); a group that runs no
handler traps ILLOP with cause 7. HRET first waits for the handler's earlier words, which is the model's choice (log
entry 141). -/
def Obligations.ReturnFromHandler : Prop :=
  ∀ (c : Cur) (s : State) (w : SW),
    (∀ h, (grp s c.g).handler = some h → (∀ x ∈ queued (grp (begun c s) c.g), c.w.seq ≤ x.seq) →
      Does (.hret w) c s (modGrp (begun c s) c.g fun G =>
        { G with
          handler := none
          s0 := h.s0
          s1 := h.s1
          turn := h.turn
          supv := h.trap.pmode
          refetch := h.saved
          plan := planPast h.saved (rotOf G) })) ∧
    ((grp s c.g).handler ≠ none → (∃ x ∈ queued (grp (begun c s) c.g), x.seq < c.w.seq) → Waits (.hret w) c s 0) ∧
    (∀ (G : Group) (x : QWord) (xs : List QWord), G.refetch = x :: xs →
      fetchAt G 2 = ⟨2, x.slot, x.pc, x.seq, x.mask, x.rot, some x⟩) ∧
    ((grp s c.g).handler = none → (grp s c.g).supv = true → (Instr.hret w).wellFormed = true →
      illop s c.g (.hret w) = some 7 ∧
      (s.cur = some c → c.retry = false → (grp s c.g).nextSeq ≤ c.w.seq → stopped (begun c s) c.g = false →
        heldBack (begun c s) c.g (.hret w) = false →
        exec (.hret w) s = .next (raiseTrap c.g (trapRec (begun c s) c (.hret w) 1 7 0 0) (begun c s))))

/-! ### Statements put together from their parts -/

/-- Branches, calls and loops: where the slot goes, and misaligned targets: `Obl.Branches`,
`Obl.BranchTargetTraps`. -/
def Obligations.Branches : Prop := Obl.Branches ∧ Obl.BranchTargetTraps

/-- BDIV, MARK, JOIN, EXIT, NOP, TWAIT and TSIG: `Obl.Divergence`, `Obl.Tokens`. -/
def Obligations.DivergenceAndTokens : Prop := Obl.Divergence ∧ Obl.Tokens

/-- Compares, predicates, exchange between lanes, reductions and rotation: `Obl.LanePredicates`,
`Obl.LaneExchange`. -/
def Obligations.PredicatesAndExchange : Prop := Obl.LanePredicates ∧ Obl.LaneExchange

/-- LD, LDS, ST and STS: flights and held entries: `Obl.GlobalLoads`, `Obl.GlobalStores`. -/
def Obligations.LoadsAndStores : Prop := Obl.GlobalLoads ∧ Obl.GlobalStores

/-- LDL, STL, ATOML, STMAP, STUNMAP, STSYNC and PTST: `Obl.LocalWords`, `Obl.StashWords`. -/
def Obligations.LocalAndStashWords : Prop := Obl.LocalWords ∧ Obl.StashWords

/-- Misaligned, out-of-window and privileged words trap before anything changes: `Obl.AddressTraps`,
`Obl.RowTraps`, `Obl.PrivilegeTraps`. -/
def Obligations.OperandTraps : Prop := Obl.AddressTraps ∧ Obl.RowTraps ∧ Obl.PrivilegeTraps

/-- XSTRM, XSTRM.get and XFLUSH: `Obl.StreamWords`, `Obl.FlushRows`. -/
def Obligations.StreamAndFlushWords : Prop := Obl.StreamWords ∧ Obl.FlushRows

/-- The six copy words, and the bytes of a strided copy: `Obl.CopyWords`, `Obl.StridedPairs`. -/
def Obligations.CopyWords : Prop := Obl.CopyWords ∧ Obl.StridedPairs

/-- BAR, BARA, BARW and BARD, and the barrier value: `Obl.NamedBarriers`, `Obl.BarrierValues`. -/
def Obligations.NamedBarriers : Prop := Obl.NamedBarriers ∧ Obl.BarrierValues

/-- TBINIT, TBEXP, TBARR and TBWAIT, and how a phase completes: `Obl.TransactionBarriers`, `Obl.BarrierPhases`. -/
def Obligations.TransactionBarriers : Prop := Obl.TransactionBarriers ∧ Obl.BarrierPhases

/-- PSH, POP, PSTAT, LSND, LRCV and LRADD: `Obl.PortWords`, `Obl.LinkWords`. -/
def Obligations.PortAndLinkWords : Prop := Obl.PortWords ∧ Obl.LinkWords

/-- TRAP and BKPT, the entry into a handler, and delivery to the host: `Obl.TrapWords`, `Obl.HandlerEntry`,
`Obl.HostTraps`. -/
def Obligations.TakingTraps : Prop := Obl.TrapWords ∧ Obl.HandlerEntry ∧ Obl.HostTraps

/-- SYSRD, SYSWR, the other system words, and what each system register reads: `Obl.SystemWords`,
`Obl.SystemRegisters`. -/
def Obligations.SystemWords : Prop := Obl.SystemWords ∧ Obl.SystemRegisters

/-- Trap delivery, claims, time waits, walks and load returns: `Obl.GroupEvents`, `Obl.LoadReturns`. -/
def Obligations.GroupEvents : Prop := Obl.GroupEvents ∧ Obl.LoadReturns

/-- Fault and duty records are written to their rings; replies to fault records: `Obl.DriverRings`,
`Obl.FaultReplies`. -/
def Obligations.DriverRings : Prop := Obl.DriverRings ∧ Obl.FaultReplies

/-- When quanta close, and when they are sealed: `Obl.QuantumCloses`, `Obl.QuantumSeals`. -/
def Obligations.QuantaCloseAndSeal : Prop := Obl.QuantumCloses ∧ Obl.QuantumSeals

/-- Hold-back entries perform after their seal, and what they do to memory: `Obl.HeldEntriesPerform`,
`Obl.PerformEffects`. -/
def Obligations.HeldEntriesPerform : Prop := Obl.HeldEntriesPerform ∧ Obl.PerformEffects

/-- Copy chunks, timed copies, completion and pull rings: `Obl.CopyEvents`, `Obl.PullRings`. -/
def Obligations.CopiesMove : Prop := Obl.CopyEvents ∧ Obl.PullRings

/-- Link states and global time: `Obl.LinkStates`, `Obl.TimeEvents`. -/
def Obligations.LinksAndTime : Prop := Obl.LinkStates ∧ Obl.TimeEvents

/-- Sensor ingest and Ethernet frames: `Obl.IngestFrames`, `Obl.EthernetFrames`. -/
def Obligations.FramesArrive : Prop := Obl.IngestFrames ∧ Obl.EthernetFrames

/-- Writes of tree, TLBINV, interrupt, scan, wake and suspend registers: `Obl.TreeTableWrites`,
`Obl.Invalidation`, `Obl.RegisterWrites`. -/
def Obligations.RegisterWrites : Prop := Obl.TreeTableWrites ∧ Obl.Invalidation ∧ Obl.RegisterWrites

/-- Arming, disarming, DCTL and releases: `Obl.ArmingWrites`, `Obl.Releases`. -/
def Obligations.ArmingAndRelease : Prop := Obl.ArmingWrites ∧ Obl.Releases

/-- Completion, kills, deadline misses and budgets: `Obl.InstanceEnds`, `Obl.MissesAndBudgets`. -/
def Obligations.InstanceEnds : Prop := Obl.InstanceEnds ∧ Obl.MissesAndBudgets

/-- The operator walker: steps, their ends and their outputs: `Obl.WalkerSteps`, `Obl.WalkerOutputs`. -/
def Obligations.WalkerSteps : Prop := Obl.WalkerSteps ∧ Obl.WalkerOutputs

/-- Strikes, rollbacks and core scans: `Obl.Strikes`, `Obl.Scans`. -/
def Obligations.StrikesAndScans : Prop := Obl.Strikes ∧ Obl.Scans

/-- Power gating, the sensors' wakes, and the restarts of stalled engines: `Obl.PowerGating`, `Obl.Supervision`. -/
def Obligations.PowerAndSupervision : Prop := Obl.PowerGating ∧ Obl.Supervision

/-- Power-on, boot stages and mailbox commands: `Obl.BootStages`, `Obl.MailboxCommands`. -/
def Obligations.BootAndMailbox : Prop := Obl.BootStages ∧ Obl.MailboxCommands

end
end

