-- ==== Sys2Proof/Laws/State.lean ====
section
/-!
SUPPORT. Sys2Proof/Laws/State.lean: what each named update leaves alone, field by field and through each of the
reading functions, and what is read where it was written. Every lemma is true by rfl but those about maps.
-/
namespace Sys2Proof.Machine

/-! ### Fields -/

@[simp] theorem setGrp_now (s : State) (g : Nat) (G : Group) : (setGrp s g G).now = s.now := rfl
@[simp] theorem setGrp_ticks (s : State) (g : Nat) (G : Group) : (setGrp s g G).ticks = s.ticks := rfl
@[simp] theorem setGrp_script (s : State) (g : Nat) (G : Group) : (setGrp s g G).script = s.script := rfl
@[simp] theorem setGrp_cur (s : State) (g : Nat) (G : Group) : (setGrp s g G).cur = s.cur := rfl
@[simp] theorem setGrp_teams (s : State) (g : Nat) (G : Group) : (setGrp s g G).teams = s.teams := rfl
@[simp] theorem setGrp_launches (s : State) (g : Nat) (G : Group) : (setGrp s g G).launches = s.launches := rfl
@[simp] theorem setGrp_cores (s : State) (g : Nat) (G : Group) : (setGrp s g G).cores = s.cores := rfl
@[simp] theorem setGrp_pairs (s : State) (g : Nat) (G : Group) : (setGrp s g G).pairs = s.pairs := rfl
@[simp] theorem setGrp_cards (s : State) (g : Nat) (G : Group) : (setGrp s g G).cards = s.cards := rfl
@[simp] theorem setGrp_mem (s : State) (g : Nat) (G : Group) : (setGrp s g G).mem = s.mem := rfl
@[simp] theorem setGrp_poison (s : State) (g : Nat) (G : Group) : (setGrp s g G).poison = s.poison := rfl
@[simp] theorem setGrp_under (s : State) (g : Nat) (G : Group) : (setGrp s g G).under = s.under := rfl
@[simp] theorem setGrp_underPois (s : State) (g : Nat) (G : Group) : (setGrp s g G).underPois = s.underPois := rfl
@[simp] theorem setGrp_l2 (s : State) (g : Nat) (G : Group) : (setGrp s g G).l2 = s.l2 := rfl
@[simp] theorem setGrp_dirty (s : State) (g : Nat) (G : Group) : (setGrp s g G).dirty = s.dirty := rfl
@[simp] theorem setGrp_apLines (s : State) (g : Nat) (G : Group) : (setGrp s g G).apLines = s.apLines := rfl
@[simp] theorem setGrp_replies (s : State) (g : Nat) (G : Group) : (setGrp s g G).replies = s.replies := rfl
@[simp] theorem setGrp_tlb (s : State) (g : Nat) (G : Group) : (setGrp s g G).tlb = s.tlb := rfl
@[simp] theorem setGrp_walkCache (s : State) (g : Nat) (G : Group) : (setGrp s g G).walkCache = s.walkCache := rfl
@[simp] theorem setGrp_scrubNext (s : State) (g : Nat) (G : Group) : (setGrp s g G).scrubNext = s.scrubNext := rfl
@[simp] theorem setGrp_scrubDue (s : State) (g : Nat) (G : Group) : (setGrp s g G).scrubDue = s.scrubDue := rfl
@[simp] theorem setGrp_faults (s : State) (g : Nat) (G : Group) : (setGrp s g G).faults = s.faults := rfl
@[simp] theorem setGrp_outFaults (s : State) (g : Nat) (G : Group) : (setGrp s g G).outFaults = s.outFaults := rfl
@[simp] theorem setGrp_ports (s : State) (g : Nat) (G : Group) : (setGrp s g G).ports = s.ports := rfl
@[simp] theorem setGrp_outParts (s : State) (g : Nat) (G : Group) : (setGrp s g G).outParts = s.outParts := rfl
@[simp] theorem setGrp_farRetired (s : State) (g : Nat) (G : Group) : (setGrp s g G).farRetired = s.farRetired := rfl
@[simp] theorem setGrp_msgs (s : State) (g : Nat) (G : Group) : (setGrp s g G).msgs = s.msgs := rfl
@[simp] theorem setGrp_runs (s : State) (g : Nat) (G : Group) : (setGrp s g G).runs = s.runs := rfl
@[simp] theorem setGrp_duties (s : State) (g : Nat) (G : Group) : (setGrp s g G).duties = s.duties := rfl
@[simp] theorem setGrp_savedParts (s : State) (g : Nat) (G : Group) : (setGrp s g G).savedParts = s.savedParts := rfl
@[simp] theorem setGrp_msis (s : State) (g : Nat) (G : Group) : (setGrp s g G).msis = s.msis := rfl
@[simp] theorem setGrp_msixs (s : State) (g : Nat) (G : Group) : (setGrp s g G).msixs = s.msixs := rfl
@[simp] theorem setGrp_pciWidth (s : State) (g : Nat) (G : Group) : (setGrp s g G).pciWidth = s.pciWidth := rfl
@[simp] theorem setGrp_pciEnd (s : State) (g : Nat) (G : Group) : (setGrp s g G).pciEnd = s.pciEnd := rfl
@[simp] theorem setGrp_ingest (s : State) (g : Nat) (G : Group) : (setGrp s g G).ingest = s.ingest := rfl
@[simp] theorem setGrp_regulators (s : State) (g : Nat) (G : Group) : (setGrp s g G).regulators = s.regulators := rfl
@[simp] theorem setGrp_scans (s : State) (g : Nat) (G : Group) : (setGrp s g G).scans = s.scans := rfl
@[simp] theorem setGrp_scanAt (s : State) (g : Nat) (G : Group) : (setGrp s g G).scanAt = s.scanAt := rfl
@[simp] theorem setGrp_island (s : State) (g : Nat) (G : Group) : (setGrp s g G).island = s.island := rfl
@[simp] theorem setGrp_susp (s : State) (g : Nat) (G : Group) : (setGrp s g G).susp = s.susp := rfl
@[simp] theorem setGrp_slew (s : State) (g : Nat) (G : Group) : (setGrp s g G).slew = s.slew := rfl
@[simp] theorem setGrp_timeFrac (s : State) (g : Nat) (G : Group) : (setGrp s g G).timeFrac = s.timeFrac := rfl
@[simp] theorem setGrp_syncNext (s : State) (g : Nat) (G : Group) : (setGrp s g G).syncNext = s.syncNext := rfl
@[simp] theorem setGrp_linkStop (s : State) (g : Nat) (G : Group) : (setGrp s g G).linkStop = s.linkStop := rfl
@[simp] theorem setGrp_retrain (s : State) (g : Nat) (G : Group) : (setGrp s g G).retrain = s.retrain := rfl
@[simp] theorem setGrp_treeBusy (s : State) (g : Nat) (G : Group) : (setGrp s g G).treeBusy = s.treeBusy := rfl
@[simp] theorem setGrp_treeBased (s : State) (g : Nat) (G : Group) : (setGrp s g G).treeBased = s.treeBased := rfl
@[simp] theorem setGrp_treePart (s : State) (g : Nat) (G : Group) : (setGrp s g G).treePart = s.treePart := rfl
@[simp] theorem setGrp_treeWait (s : State) (g : Nat) (G : Group) : (setGrp s g G).treeWait = s.treeWait := rfl
@[simp] theorem setGrp_tlbinv (s : State) (g : Nat) (G : Group) : (setGrp s g G).tlbinv = s.tlbinv := rfl
@[simp] theorem setGrp_wakeReq (s : State) (g : Nat) (G : Group) : (setGrp s g G).wakeReq = s.wakeReq := rfl
@[simp] theorem setGrp_gating (s : State) (g : Nat) (G : Group) : (setGrp s g G).gating = s.gating := rfl
@[simp] theorem setGrp_gated (s : State) (g : Nat) (G : Group) : (setGrp s g G).gated = s.gated := rfl
@[simp] theorem setGrp_mmr (s : State) (g : Nat) (G : Group) : (setGrp s g G).mmr = s.mmr := rfl
@[simp] theorem setGrp_nextId (s : State) (g : Nat) (G : Group) : (setGrp s g G).nextId = s.nextId := rfl
@[simp] theorem setGrp_decision (s : State) (g : Nat) (G : Group) : (setGrp s g G).decision = s.decision := rfl
@[simp] theorem modGrp_now (s : State) (g : Nat) (f : Group → Group) : (modGrp s g f).now = s.now := rfl
@[simp] theorem modGrp_ticks (s : State) (g : Nat) (f : Group → Group) : (modGrp s g f).ticks = s.ticks := rfl
@[simp] theorem modGrp_script (s : State) (g : Nat) (f : Group → Group) : (modGrp s g f).script = s.script := rfl
@[simp] theorem modGrp_cur (s : State) (g : Nat) (f : Group → Group) : (modGrp s g f).cur = s.cur := rfl
@[simp] theorem modGrp_teams (s : State) (g : Nat) (f : Group → Group) : (modGrp s g f).teams = s.teams := rfl
@[simp] theorem modGrp_launches (s : State) (g : Nat) (f : Group → Group) : (modGrp s g f).launches = s.launches := rfl
@[simp] theorem modGrp_cores (s : State) (g : Nat) (f : Group → Group) : (modGrp s g f).cores = s.cores := rfl
@[simp] theorem modGrp_pairs (s : State) (g : Nat) (f : Group → Group) : (modGrp s g f).pairs = s.pairs := rfl
@[simp] theorem modGrp_cards (s : State) (g : Nat) (f : Group → Group) : (modGrp s g f).cards = s.cards := rfl
@[simp] theorem modGrp_mem (s : State) (g : Nat) (f : Group → Group) : (modGrp s g f).mem = s.mem := rfl
@[simp] theorem modGrp_poison (s : State) (g : Nat) (f : Group → Group) : (modGrp s g f).poison = s.poison := rfl
@[simp] theorem modGrp_under (s : State) (g : Nat) (f : Group → Group) : (modGrp s g f).under = s.under := rfl
@[simp] theorem modGrp_underPois (s : State) (g : Nat) (f : Group → Group) : (modGrp s g f).underPois = s.underPois := rfl
@[simp] theorem modGrp_l2 (s : State) (g : Nat) (f : Group → Group) : (modGrp s g f).l2 = s.l2 := rfl
@[simp] theorem modGrp_dirty (s : State) (g : Nat) (f : Group → Group) : (modGrp s g f).dirty = s.dirty := rfl
@[simp] theorem modGrp_apLines (s : State) (g : Nat) (f : Group → Group) : (modGrp s g f).apLines = s.apLines := rfl
@[simp] theorem modGrp_replies (s : State) (g : Nat) (f : Group → Group) : (modGrp s g f).replies = s.replies := rfl
@[simp] theorem modGrp_tlb (s : State) (g : Nat) (f : Group → Group) : (modGrp s g f).tlb = s.tlb := rfl
@[simp] theorem modGrp_walkCache (s : State) (g : Nat) (f : Group → Group) : (modGrp s g f).walkCache = s.walkCache := rfl
@[simp] theorem modGrp_scrubNext (s : State) (g : Nat) (f : Group → Group) : (modGrp s g f).scrubNext = s.scrubNext := rfl
@[simp] theorem modGrp_scrubDue (s : State) (g : Nat) (f : Group → Group) : (modGrp s g f).scrubDue = s.scrubDue := rfl
@[simp] theorem modGrp_faults (s : State) (g : Nat) (f : Group → Group) : (modGrp s g f).faults = s.faults := rfl
@[simp] theorem modGrp_outFaults (s : State) (g : Nat) (f : Group → Group) : (modGrp s g f).outFaults = s.outFaults := rfl
@[simp] theorem modGrp_ports (s : State) (g : Nat) (f : Group → Group) : (modGrp s g f).ports = s.ports := rfl
@[simp] theorem modGrp_outParts (s : State) (g : Nat) (f : Group → Group) : (modGrp s g f).outParts = s.outParts := rfl
@[simp] theorem modGrp_farRetired (s : State) (g : Nat) (f : Group → Group) : (modGrp s g f).farRetired = s.farRetired := rfl
@[simp] theorem modGrp_msgs (s : State) (g : Nat) (f : Group → Group) : (modGrp s g f).msgs = s.msgs := rfl
@[simp] theorem modGrp_runs (s : State) (g : Nat) (f : Group → Group) : (modGrp s g f).runs = s.runs := rfl
@[simp] theorem modGrp_duties (s : State) (g : Nat) (f : Group → Group) : (modGrp s g f).duties = s.duties := rfl
@[simp] theorem modGrp_savedParts (s : State) (g : Nat) (f : Group → Group) : (modGrp s g f).savedParts = s.savedParts := rfl
@[simp] theorem modGrp_msis (s : State) (g : Nat) (f : Group → Group) : (modGrp s g f).msis = s.msis := rfl
@[simp] theorem modGrp_msixs (s : State) (g : Nat) (f : Group → Group) : (modGrp s g f).msixs = s.msixs := rfl
@[simp] theorem modGrp_pciWidth (s : State) (g : Nat) (f : Group → Group) : (modGrp s g f).pciWidth = s.pciWidth := rfl
@[simp] theorem modGrp_pciEnd (s : State) (g : Nat) (f : Group → Group) : (modGrp s g f).pciEnd = s.pciEnd := rfl
@[simp] theorem modGrp_ingest (s : State) (g : Nat) (f : Group → Group) : (modGrp s g f).ingest = s.ingest := rfl
@[simp] theorem modGrp_regulators (s : State) (g : Nat) (f : Group → Group) : (modGrp s g f).regulators = s.regulators := rfl
@[simp] theorem modGrp_scans (s : State) (g : Nat) (f : Group → Group) : (modGrp s g f).scans = s.scans := rfl
@[simp] theorem modGrp_scanAt (s : State) (g : Nat) (f : Group → Group) : (modGrp s g f).scanAt = s.scanAt := rfl
@[simp] theorem modGrp_island (s : State) (g : Nat) (f : Group → Group) : (modGrp s g f).island = s.island := rfl
@[simp] theorem modGrp_susp (s : State) (g : Nat) (f : Group → Group) : (modGrp s g f).susp = s.susp := rfl
@[simp] theorem modGrp_slew (s : State) (g : Nat) (f : Group → Group) : (modGrp s g f).slew = s.slew := rfl
@[simp] theorem modGrp_timeFrac (s : State) (g : Nat) (f : Group → Group) : (modGrp s g f).timeFrac = s.timeFrac := rfl
@[simp] theorem modGrp_syncNext (s : State) (g : Nat) (f : Group → Group) : (modGrp s g f).syncNext = s.syncNext := rfl
@[simp] theorem modGrp_linkStop (s : State) (g : Nat) (f : Group → Group) : (modGrp s g f).linkStop = s.linkStop := rfl
@[simp] theorem modGrp_retrain (s : State) (g : Nat) (f : Group → Group) : (modGrp s g f).retrain = s.retrain := rfl
@[simp] theorem modGrp_treeBusy (s : State) (g : Nat) (f : Group → Group) : (modGrp s g f).treeBusy = s.treeBusy := rfl
@[simp] theorem modGrp_treeBased (s : State) (g : Nat) (f : Group → Group) : (modGrp s g f).treeBased = s.treeBased := rfl
@[simp] theorem modGrp_treePart (s : State) (g : Nat) (f : Group → Group) : (modGrp s g f).treePart = s.treePart := rfl
@[simp] theorem modGrp_treeWait (s : State) (g : Nat) (f : Group → Group) : (modGrp s g f).treeWait = s.treeWait := rfl
@[simp] theorem modGrp_tlbinv (s : State) (g : Nat) (f : Group → Group) : (modGrp s g f).tlbinv = s.tlbinv := rfl
@[simp] theorem modGrp_wakeReq (s : State) (g : Nat) (f : Group → Group) : (modGrp s g f).wakeReq = s.wakeReq := rfl
@[simp] theorem modGrp_gating (s : State) (g : Nat) (f : Group → Group) : (modGrp s g f).gating = s.gating := rfl
@[simp] theorem modGrp_gated (s : State) (g : Nat) (f : Group → Group) : (modGrp s g f).gated = s.gated := rfl
@[simp] theorem modGrp_mmr (s : State) (g : Nat) (f : Group → Group) : (modGrp s g f).mmr = s.mmr := rfl
@[simp] theorem modGrp_nextId (s : State) (g : Nat) (f : Group → Group) : (modGrp s g f).nextId = s.nextId := rfl
@[simp] theorem modGrp_decision (s : State) (g : Nat) (f : Group → Group) : (modGrp s g f).decision = s.decision := rfl
@[simp] theorem setTeam_now (s : State) (tk : Nat) (T : Team) : (setTeam s tk T).now = s.now := rfl
@[simp] theorem setTeam_ticks (s : State) (tk : Nat) (T : Team) : (setTeam s tk T).ticks = s.ticks := rfl
@[simp] theorem setTeam_script (s : State) (tk : Nat) (T : Team) : (setTeam s tk T).script = s.script := rfl
@[simp] theorem setTeam_cur (s : State) (tk : Nat) (T : Team) : (setTeam s tk T).cur = s.cur := rfl
@[simp] theorem setTeam_groups (s : State) (tk : Nat) (T : Team) : (setTeam s tk T).groups = s.groups := rfl
@[simp] theorem setTeam_launches (s : State) (tk : Nat) (T : Team) : (setTeam s tk T).launches = s.launches := rfl
@[simp] theorem setTeam_cores (s : State) (tk : Nat) (T : Team) : (setTeam s tk T).cores = s.cores := rfl
@[simp] theorem setTeam_pairs (s : State) (tk : Nat) (T : Team) : (setTeam s tk T).pairs = s.pairs := rfl
@[simp] theorem setTeam_cards (s : State) (tk : Nat) (T : Team) : (setTeam s tk T).cards = s.cards := rfl
@[simp] theorem setTeam_mem (s : State) (tk : Nat) (T : Team) : (setTeam s tk T).mem = s.mem := rfl
@[simp] theorem setTeam_poison (s : State) (tk : Nat) (T : Team) : (setTeam s tk T).poison = s.poison := rfl
@[simp] theorem setTeam_under (s : State) (tk : Nat) (T : Team) : (setTeam s tk T).under = s.under := rfl
@[simp] theorem setTeam_underPois (s : State) (tk : Nat) (T : Team) : (setTeam s tk T).underPois = s.underPois := rfl
@[simp] theorem setTeam_l2 (s : State) (tk : Nat) (T : Team) : (setTeam s tk T).l2 = s.l2 := rfl
@[simp] theorem setTeam_dirty (s : State) (tk : Nat) (T : Team) : (setTeam s tk T).dirty = s.dirty := rfl
@[simp] theorem setTeam_apLines (s : State) (tk : Nat) (T : Team) : (setTeam s tk T).apLines = s.apLines := rfl
@[simp] theorem setTeam_replies (s : State) (tk : Nat) (T : Team) : (setTeam s tk T).replies = s.replies := rfl
@[simp] theorem setTeam_tlb (s : State) (tk : Nat) (T : Team) : (setTeam s tk T).tlb = s.tlb := rfl
@[simp] theorem setTeam_walkCache (s : State) (tk : Nat) (T : Team) : (setTeam s tk T).walkCache = s.walkCache := rfl
@[simp] theorem setTeam_scrubNext (s : State) (tk : Nat) (T : Team) : (setTeam s tk T).scrubNext = s.scrubNext := rfl
@[simp] theorem setTeam_scrubDue (s : State) (tk : Nat) (T : Team) : (setTeam s tk T).scrubDue = s.scrubDue := rfl
@[simp] theorem setTeam_faults (s : State) (tk : Nat) (T : Team) : (setTeam s tk T).faults = s.faults := rfl
@[simp] theorem setTeam_outFaults (s : State) (tk : Nat) (T : Team) : (setTeam s tk T).outFaults = s.outFaults := rfl
@[simp] theorem setTeam_ports (s : State) (tk : Nat) (T : Team) : (setTeam s tk T).ports = s.ports := rfl
@[simp] theorem setTeam_outParts (s : State) (tk : Nat) (T : Team) : (setTeam s tk T).outParts = s.outParts := rfl
@[simp] theorem setTeam_farRetired (s : State) (tk : Nat) (T : Team) : (setTeam s tk T).farRetired = s.farRetired := rfl
@[simp] theorem setTeam_msgs (s : State) (tk : Nat) (T : Team) : (setTeam s tk T).msgs = s.msgs := rfl
@[simp] theorem setTeam_runs (s : State) (tk : Nat) (T : Team) : (setTeam s tk T).runs = s.runs := rfl
@[simp] theorem setTeam_duties (s : State) (tk : Nat) (T : Team) : (setTeam s tk T).duties = s.duties := rfl
@[simp] theorem setTeam_savedParts (s : State) (tk : Nat) (T : Team) : (setTeam s tk T).savedParts = s.savedParts := rfl
@[simp] theorem setTeam_msis (s : State) (tk : Nat) (T : Team) : (setTeam s tk T).msis = s.msis := rfl
@[simp] theorem setTeam_msixs (s : State) (tk : Nat) (T : Team) : (setTeam s tk T).msixs = s.msixs := rfl
@[simp] theorem setTeam_pciWidth (s : State) (tk : Nat) (T : Team) : (setTeam s tk T).pciWidth = s.pciWidth := rfl
@[simp] theorem setTeam_pciEnd (s : State) (tk : Nat) (T : Team) : (setTeam s tk T).pciEnd = s.pciEnd := rfl
@[simp] theorem setTeam_ingest (s : State) (tk : Nat) (T : Team) : (setTeam s tk T).ingest = s.ingest := rfl
@[simp] theorem setTeam_regulators (s : State) (tk : Nat) (T : Team) : (setTeam s tk T).regulators = s.regulators := rfl
@[simp] theorem setTeam_scans (s : State) (tk : Nat) (T : Team) : (setTeam s tk T).scans = s.scans := rfl
@[simp] theorem setTeam_scanAt (s : State) (tk : Nat) (T : Team) : (setTeam s tk T).scanAt = s.scanAt := rfl
@[simp] theorem setTeam_island (s : State) (tk : Nat) (T : Team) : (setTeam s tk T).island = s.island := rfl
@[simp] theorem setTeam_susp (s : State) (tk : Nat) (T : Team) : (setTeam s tk T).susp = s.susp := rfl
@[simp] theorem setTeam_slew (s : State) (tk : Nat) (T : Team) : (setTeam s tk T).slew = s.slew := rfl
@[simp] theorem setTeam_timeFrac (s : State) (tk : Nat) (T : Team) : (setTeam s tk T).timeFrac = s.timeFrac := rfl
@[simp] theorem setTeam_syncNext (s : State) (tk : Nat) (T : Team) : (setTeam s tk T).syncNext = s.syncNext := rfl
@[simp] theorem setTeam_linkStop (s : State) (tk : Nat) (T : Team) : (setTeam s tk T).linkStop = s.linkStop := rfl
@[simp] theorem setTeam_retrain (s : State) (tk : Nat) (T : Team) : (setTeam s tk T).retrain = s.retrain := rfl
@[simp] theorem setTeam_treeBusy (s : State) (tk : Nat) (T : Team) : (setTeam s tk T).treeBusy = s.treeBusy := rfl
@[simp] theorem setTeam_treeBased (s : State) (tk : Nat) (T : Team) : (setTeam s tk T).treeBased = s.treeBased := rfl
@[simp] theorem setTeam_treePart (s : State) (tk : Nat) (T : Team) : (setTeam s tk T).treePart = s.treePart := rfl
@[simp] theorem setTeam_treeWait (s : State) (tk : Nat) (T : Team) : (setTeam s tk T).treeWait = s.treeWait := rfl
@[simp] theorem setTeam_tlbinv (s : State) (tk : Nat) (T : Team) : (setTeam s tk T).tlbinv = s.tlbinv := rfl
@[simp] theorem setTeam_wakeReq (s : State) (tk : Nat) (T : Team) : (setTeam s tk T).wakeReq = s.wakeReq := rfl
@[simp] theorem setTeam_gating (s : State) (tk : Nat) (T : Team) : (setTeam s tk T).gating = s.gating := rfl
@[simp] theorem setTeam_gated (s : State) (tk : Nat) (T : Team) : (setTeam s tk T).gated = s.gated := rfl
@[simp] theorem setTeam_mmr (s : State) (tk : Nat) (T : Team) : (setTeam s tk T).mmr = s.mmr := rfl
@[simp] theorem setTeam_nextId (s : State) (tk : Nat) (T : Team) : (setTeam s tk T).nextId = s.nextId := rfl
@[simp] theorem setTeam_decision (s : State) (tk : Nat) (T : Team) : (setTeam s tk T).decision = s.decision := rfl
@[simp] theorem modTeam_now (s : State) (tk : Nat) (f : Team → Team) : (modTeam s tk f).now = s.now := rfl
@[simp] theorem modTeam_ticks (s : State) (tk : Nat) (f : Team → Team) : (modTeam s tk f).ticks = s.ticks := rfl
@[simp] theorem modTeam_script (s : State) (tk : Nat) (f : Team → Team) : (modTeam s tk f).script = s.script := rfl
@[simp] theorem modTeam_cur (s : State) (tk : Nat) (f : Team → Team) : (modTeam s tk f).cur = s.cur := rfl
@[simp] theorem modTeam_groups (s : State) (tk : Nat) (f : Team → Team) : (modTeam s tk f).groups = s.groups := rfl
@[simp] theorem modTeam_launches (s : State) (tk : Nat) (f : Team → Team) : (modTeam s tk f).launches = s.launches := rfl
@[simp] theorem modTeam_cores (s : State) (tk : Nat) (f : Team → Team) : (modTeam s tk f).cores = s.cores := rfl
@[simp] theorem modTeam_pairs (s : State) (tk : Nat) (f : Team → Team) : (modTeam s tk f).pairs = s.pairs := rfl
@[simp] theorem modTeam_cards (s : State) (tk : Nat) (f : Team → Team) : (modTeam s tk f).cards = s.cards := rfl
@[simp] theorem modTeam_mem (s : State) (tk : Nat) (f : Team → Team) : (modTeam s tk f).mem = s.mem := rfl
@[simp] theorem modTeam_poison (s : State) (tk : Nat) (f : Team → Team) : (modTeam s tk f).poison = s.poison := rfl
@[simp] theorem modTeam_under (s : State) (tk : Nat) (f : Team → Team) : (modTeam s tk f).under = s.under := rfl
@[simp] theorem modTeam_underPois (s : State) (tk : Nat) (f : Team → Team) : (modTeam s tk f).underPois = s.underPois := rfl
@[simp] theorem modTeam_l2 (s : State) (tk : Nat) (f : Team → Team) : (modTeam s tk f).l2 = s.l2 := rfl
@[simp] theorem modTeam_dirty (s : State) (tk : Nat) (f : Team → Team) : (modTeam s tk f).dirty = s.dirty := rfl
@[simp] theorem modTeam_apLines (s : State) (tk : Nat) (f : Team → Team) : (modTeam s tk f).apLines = s.apLines := rfl
@[simp] theorem modTeam_replies (s : State) (tk : Nat) (f : Team → Team) : (modTeam s tk f).replies = s.replies := rfl
@[simp] theorem modTeam_tlb (s : State) (tk : Nat) (f : Team → Team) : (modTeam s tk f).tlb = s.tlb := rfl
@[simp] theorem modTeam_walkCache (s : State) (tk : Nat) (f : Team → Team) : (modTeam s tk f).walkCache = s.walkCache := rfl
@[simp] theorem modTeam_scrubNext (s : State) (tk : Nat) (f : Team → Team) : (modTeam s tk f).scrubNext = s.scrubNext := rfl
@[simp] theorem modTeam_scrubDue (s : State) (tk : Nat) (f : Team → Team) : (modTeam s tk f).scrubDue = s.scrubDue := rfl
@[simp] theorem modTeam_faults (s : State) (tk : Nat) (f : Team → Team) : (modTeam s tk f).faults = s.faults := rfl
@[simp] theorem modTeam_outFaults (s : State) (tk : Nat) (f : Team → Team) : (modTeam s tk f).outFaults = s.outFaults := rfl
@[simp] theorem modTeam_ports (s : State) (tk : Nat) (f : Team → Team) : (modTeam s tk f).ports = s.ports := rfl
@[simp] theorem modTeam_outParts (s : State) (tk : Nat) (f : Team → Team) : (modTeam s tk f).outParts = s.outParts := rfl
@[simp] theorem modTeam_farRetired (s : State) (tk : Nat) (f : Team → Team) : (modTeam s tk f).farRetired = s.farRetired := rfl
@[simp] theorem modTeam_msgs (s : State) (tk : Nat) (f : Team → Team) : (modTeam s tk f).msgs = s.msgs := rfl
@[simp] theorem modTeam_runs (s : State) (tk : Nat) (f : Team → Team) : (modTeam s tk f).runs = s.runs := rfl
@[simp] theorem modTeam_duties (s : State) (tk : Nat) (f : Team → Team) : (modTeam s tk f).duties = s.duties := rfl
@[simp] theorem modTeam_savedParts (s : State) (tk : Nat) (f : Team → Team) : (modTeam s tk f).savedParts = s.savedParts := rfl
@[simp] theorem modTeam_msis (s : State) (tk : Nat) (f : Team → Team) : (modTeam s tk f).msis = s.msis := rfl
@[simp] theorem modTeam_msixs (s : State) (tk : Nat) (f : Team → Team) : (modTeam s tk f).msixs = s.msixs := rfl
@[simp] theorem modTeam_pciWidth (s : State) (tk : Nat) (f : Team → Team) : (modTeam s tk f).pciWidth = s.pciWidth := rfl
@[simp] theorem modTeam_pciEnd (s : State) (tk : Nat) (f : Team → Team) : (modTeam s tk f).pciEnd = s.pciEnd := rfl
@[simp] theorem modTeam_ingest (s : State) (tk : Nat) (f : Team → Team) : (modTeam s tk f).ingest = s.ingest := rfl
@[simp] theorem modTeam_regulators (s : State) (tk : Nat) (f : Team → Team) : (modTeam s tk f).regulators = s.regulators := rfl
@[simp] theorem modTeam_scans (s : State) (tk : Nat) (f : Team → Team) : (modTeam s tk f).scans = s.scans := rfl
@[simp] theorem modTeam_scanAt (s : State) (tk : Nat) (f : Team → Team) : (modTeam s tk f).scanAt = s.scanAt := rfl
@[simp] theorem modTeam_island (s : State) (tk : Nat) (f : Team → Team) : (modTeam s tk f).island = s.island := rfl
@[simp] theorem modTeam_susp (s : State) (tk : Nat) (f : Team → Team) : (modTeam s tk f).susp = s.susp := rfl
@[simp] theorem modTeam_slew (s : State) (tk : Nat) (f : Team → Team) : (modTeam s tk f).slew = s.slew := rfl
@[simp] theorem modTeam_timeFrac (s : State) (tk : Nat) (f : Team → Team) : (modTeam s tk f).timeFrac = s.timeFrac := rfl
@[simp] theorem modTeam_syncNext (s : State) (tk : Nat) (f : Team → Team) : (modTeam s tk f).syncNext = s.syncNext := rfl
@[simp] theorem modTeam_linkStop (s : State) (tk : Nat) (f : Team → Team) : (modTeam s tk f).linkStop = s.linkStop := rfl
@[simp] theorem modTeam_retrain (s : State) (tk : Nat) (f : Team → Team) : (modTeam s tk f).retrain = s.retrain := rfl
@[simp] theorem modTeam_treeBusy (s : State) (tk : Nat) (f : Team → Team) : (modTeam s tk f).treeBusy = s.treeBusy := rfl
@[simp] theorem modTeam_treeBased (s : State) (tk : Nat) (f : Team → Team) : (modTeam s tk f).treeBased = s.treeBased := rfl
@[simp] theorem modTeam_treePart (s : State) (tk : Nat) (f : Team → Team) : (modTeam s tk f).treePart = s.treePart := rfl
@[simp] theorem modTeam_treeWait (s : State) (tk : Nat) (f : Team → Team) : (modTeam s tk f).treeWait = s.treeWait := rfl
@[simp] theorem modTeam_tlbinv (s : State) (tk : Nat) (f : Team → Team) : (modTeam s tk f).tlbinv = s.tlbinv := rfl
@[simp] theorem modTeam_wakeReq (s : State) (tk : Nat) (f : Team → Team) : (modTeam s tk f).wakeReq = s.wakeReq := rfl
@[simp] theorem modTeam_gating (s : State) (tk : Nat) (f : Team → Team) : (modTeam s tk f).gating = s.gating := rfl
@[simp] theorem modTeam_gated (s : State) (tk : Nat) (f : Team → Team) : (modTeam s tk f).gated = s.gated := rfl
@[simp] theorem modTeam_mmr (s : State) (tk : Nat) (f : Team → Team) : (modTeam s tk f).mmr = s.mmr := rfl
@[simp] theorem modTeam_nextId (s : State) (tk : Nat) (f : Team → Team) : (modTeam s tk f).nextId = s.nextId := rfl
@[simp] theorem modTeam_decision (s : State) (tk : Nat) (f : Team → Team) : (modTeam s tk f).decision = s.decision := rfl
@[simp] theorem modLaunch_now (s : State) (lk : Nat) (f : Launch → Launch) : (modLaunch s lk f).now = s.now := rfl
@[simp] theorem modLaunch_ticks (s : State) (lk : Nat) (f : Launch → Launch) : (modLaunch s lk f).ticks = s.ticks := rfl
@[simp] theorem modLaunch_script (s : State) (lk : Nat) (f : Launch → Launch) : (modLaunch s lk f).script = s.script := rfl
@[simp] theorem modLaunch_cur (s : State) (lk : Nat) (f : Launch → Launch) : (modLaunch s lk f).cur = s.cur := rfl
@[simp] theorem modLaunch_groups (s : State) (lk : Nat) (f : Launch → Launch) : (modLaunch s lk f).groups = s.groups := rfl
@[simp] theorem modLaunch_teams (s : State) (lk : Nat) (f : Launch → Launch) : (modLaunch s lk f).teams = s.teams := rfl
@[simp] theorem modLaunch_cores (s : State) (lk : Nat) (f : Launch → Launch) : (modLaunch s lk f).cores = s.cores := rfl
@[simp] theorem modLaunch_pairs (s : State) (lk : Nat) (f : Launch → Launch) : (modLaunch s lk f).pairs = s.pairs := rfl
@[simp] theorem modLaunch_cards (s : State) (lk : Nat) (f : Launch → Launch) : (modLaunch s lk f).cards = s.cards := rfl
@[simp] theorem modLaunch_mem (s : State) (lk : Nat) (f : Launch → Launch) : (modLaunch s lk f).mem = s.mem := rfl
@[simp] theorem modLaunch_poison (s : State) (lk : Nat) (f : Launch → Launch) : (modLaunch s lk f).poison = s.poison := rfl
@[simp] theorem modLaunch_under (s : State) (lk : Nat) (f : Launch → Launch) : (modLaunch s lk f).under = s.under := rfl
@[simp] theorem modLaunch_underPois (s : State) (lk : Nat) (f : Launch → Launch) : (modLaunch s lk f).underPois = s.underPois := rfl
@[simp] theorem modLaunch_l2 (s : State) (lk : Nat) (f : Launch → Launch) : (modLaunch s lk f).l2 = s.l2 := rfl
@[simp] theorem modLaunch_dirty (s : State) (lk : Nat) (f : Launch → Launch) : (modLaunch s lk f).dirty = s.dirty := rfl
@[simp] theorem modLaunch_apLines (s : State) (lk : Nat) (f : Launch → Launch) : (modLaunch s lk f).apLines = s.apLines := rfl
@[simp] theorem modLaunch_replies (s : State) (lk : Nat) (f : Launch → Launch) : (modLaunch s lk f).replies = s.replies := rfl
@[simp] theorem modLaunch_tlb (s : State) (lk : Nat) (f : Launch → Launch) : (modLaunch s lk f).tlb = s.tlb := rfl
@[simp] theorem modLaunch_walkCache (s : State) (lk : Nat) (f : Launch → Launch) : (modLaunch s lk f).walkCache = s.walkCache := rfl
@[simp] theorem modLaunch_scrubNext (s : State) (lk : Nat) (f : Launch → Launch) : (modLaunch s lk f).scrubNext = s.scrubNext := rfl
@[simp] theorem modLaunch_scrubDue (s : State) (lk : Nat) (f : Launch → Launch) : (modLaunch s lk f).scrubDue = s.scrubDue := rfl
@[simp] theorem modLaunch_faults (s : State) (lk : Nat) (f : Launch → Launch) : (modLaunch s lk f).faults = s.faults := rfl
@[simp] theorem modLaunch_outFaults (s : State) (lk : Nat) (f : Launch → Launch) : (modLaunch s lk f).outFaults = s.outFaults := rfl
@[simp] theorem modLaunch_ports (s : State) (lk : Nat) (f : Launch → Launch) : (modLaunch s lk f).ports = s.ports := rfl
@[simp] theorem modLaunch_outParts (s : State) (lk : Nat) (f : Launch → Launch) : (modLaunch s lk f).outParts = s.outParts := rfl
@[simp] theorem modLaunch_farRetired (s : State) (lk : Nat) (f : Launch → Launch) : (modLaunch s lk f).farRetired = s.farRetired := rfl
@[simp] theorem modLaunch_msgs (s : State) (lk : Nat) (f : Launch → Launch) : (modLaunch s lk f).msgs = s.msgs := rfl
@[simp] theorem modLaunch_runs (s : State) (lk : Nat) (f : Launch → Launch) : (modLaunch s lk f).runs = s.runs := rfl
@[simp] theorem modLaunch_duties (s : State) (lk : Nat) (f : Launch → Launch) : (modLaunch s lk f).duties = s.duties := rfl
@[simp] theorem modLaunch_savedParts (s : State) (lk : Nat) (f : Launch → Launch) : (modLaunch s lk f).savedParts = s.savedParts := rfl
@[simp] theorem modLaunch_msis (s : State) (lk : Nat) (f : Launch → Launch) : (modLaunch s lk f).msis = s.msis := rfl
@[simp] theorem modLaunch_msixs (s : State) (lk : Nat) (f : Launch → Launch) : (modLaunch s lk f).msixs = s.msixs := rfl
@[simp] theorem modLaunch_pciWidth (s : State) (lk : Nat) (f : Launch → Launch) : (modLaunch s lk f).pciWidth = s.pciWidth := rfl
@[simp] theorem modLaunch_pciEnd (s : State) (lk : Nat) (f : Launch → Launch) : (modLaunch s lk f).pciEnd = s.pciEnd := rfl
@[simp] theorem modLaunch_ingest (s : State) (lk : Nat) (f : Launch → Launch) : (modLaunch s lk f).ingest = s.ingest := rfl
@[simp] theorem modLaunch_regulators (s : State) (lk : Nat) (f : Launch → Launch) : (modLaunch s lk f).regulators = s.regulators := rfl
@[simp] theorem modLaunch_scans (s : State) (lk : Nat) (f : Launch → Launch) : (modLaunch s lk f).scans = s.scans := rfl
@[simp] theorem modLaunch_scanAt (s : State) (lk : Nat) (f : Launch → Launch) : (modLaunch s lk f).scanAt = s.scanAt := rfl
@[simp] theorem modLaunch_island (s : State) (lk : Nat) (f : Launch → Launch) : (modLaunch s lk f).island = s.island := rfl
@[simp] theorem modLaunch_susp (s : State) (lk : Nat) (f : Launch → Launch) : (modLaunch s lk f).susp = s.susp := rfl
@[simp] theorem modLaunch_slew (s : State) (lk : Nat) (f : Launch → Launch) : (modLaunch s lk f).slew = s.slew := rfl
@[simp] theorem modLaunch_timeFrac (s : State) (lk : Nat) (f : Launch → Launch) : (modLaunch s lk f).timeFrac = s.timeFrac := rfl
@[simp] theorem modLaunch_syncNext (s : State) (lk : Nat) (f : Launch → Launch) : (modLaunch s lk f).syncNext = s.syncNext := rfl
@[simp] theorem modLaunch_linkStop (s : State) (lk : Nat) (f : Launch → Launch) : (modLaunch s lk f).linkStop = s.linkStop := rfl
@[simp] theorem modLaunch_retrain (s : State) (lk : Nat) (f : Launch → Launch) : (modLaunch s lk f).retrain = s.retrain := rfl
@[simp] theorem modLaunch_treeBusy (s : State) (lk : Nat) (f : Launch → Launch) : (modLaunch s lk f).treeBusy = s.treeBusy := rfl
@[simp] theorem modLaunch_treeBased (s : State) (lk : Nat) (f : Launch → Launch) : (modLaunch s lk f).treeBased = s.treeBased := rfl
@[simp] theorem modLaunch_treePart (s : State) (lk : Nat) (f : Launch → Launch) : (modLaunch s lk f).treePart = s.treePart := rfl
@[simp] theorem modLaunch_treeWait (s : State) (lk : Nat) (f : Launch → Launch) : (modLaunch s lk f).treeWait = s.treeWait := rfl
@[simp] theorem modLaunch_tlbinv (s : State) (lk : Nat) (f : Launch → Launch) : (modLaunch s lk f).tlbinv = s.tlbinv := rfl
@[simp] theorem modLaunch_wakeReq (s : State) (lk : Nat) (f : Launch → Launch) : (modLaunch s lk f).wakeReq = s.wakeReq := rfl
@[simp] theorem modLaunch_gating (s : State) (lk : Nat) (f : Launch → Launch) : (modLaunch s lk f).gating = s.gating := rfl
@[simp] theorem modLaunch_gated (s : State) (lk : Nat) (f : Launch → Launch) : (modLaunch s lk f).gated = s.gated := rfl
@[simp] theorem modLaunch_mmr (s : State) (lk : Nat) (f : Launch → Launch) : (modLaunch s lk f).mmr = s.mmr := rfl
@[simp] theorem modLaunch_nextId (s : State) (lk : Nat) (f : Launch → Launch) : (modLaunch s lk f).nextId = s.nextId := rfl
@[simp] theorem modLaunch_decision (s : State) (lk : Nat) (f : Launch → Launch) : (modLaunch s lk f).decision = s.decision := rfl
@[simp] theorem modCore_now (s : State) (c : Nat) (f : Core → Core) : (modCore s c f).now = s.now := rfl
@[simp] theorem modCore_ticks (s : State) (c : Nat) (f : Core → Core) : (modCore s c f).ticks = s.ticks := rfl
@[simp] theorem modCore_script (s : State) (c : Nat) (f : Core → Core) : (modCore s c f).script = s.script := rfl
@[simp] theorem modCore_cur (s : State) (c : Nat) (f : Core → Core) : (modCore s c f).cur = s.cur := rfl
@[simp] theorem modCore_groups (s : State) (c : Nat) (f : Core → Core) : (modCore s c f).groups = s.groups := rfl
@[simp] theorem modCore_teams (s : State) (c : Nat) (f : Core → Core) : (modCore s c f).teams = s.teams := rfl
@[simp] theorem modCore_launches (s : State) (c : Nat) (f : Core → Core) : (modCore s c f).launches = s.launches := rfl
@[simp] theorem modCore_pairs (s : State) (c : Nat) (f : Core → Core) : (modCore s c f).pairs = s.pairs := rfl
@[simp] theorem modCore_cards (s : State) (c : Nat) (f : Core → Core) : (modCore s c f).cards = s.cards := rfl
@[simp] theorem modCore_mem (s : State) (c : Nat) (f : Core → Core) : (modCore s c f).mem = s.mem := rfl
@[simp] theorem modCore_poison (s : State) (c : Nat) (f : Core → Core) : (modCore s c f).poison = s.poison := rfl
@[simp] theorem modCore_under (s : State) (c : Nat) (f : Core → Core) : (modCore s c f).under = s.under := rfl
@[simp] theorem modCore_underPois (s : State) (c : Nat) (f : Core → Core) : (modCore s c f).underPois = s.underPois := rfl
@[simp] theorem modCore_l2 (s : State) (c : Nat) (f : Core → Core) : (modCore s c f).l2 = s.l2 := rfl
@[simp] theorem modCore_dirty (s : State) (c : Nat) (f : Core → Core) : (modCore s c f).dirty = s.dirty := rfl
@[simp] theorem modCore_apLines (s : State) (c : Nat) (f : Core → Core) : (modCore s c f).apLines = s.apLines := rfl
@[simp] theorem modCore_replies (s : State) (c : Nat) (f : Core → Core) : (modCore s c f).replies = s.replies := rfl
@[simp] theorem modCore_tlb (s : State) (c : Nat) (f : Core → Core) : (modCore s c f).tlb = s.tlb := rfl
@[simp] theorem modCore_walkCache (s : State) (c : Nat) (f : Core → Core) : (modCore s c f).walkCache = s.walkCache := rfl
@[simp] theorem modCore_scrubNext (s : State) (c : Nat) (f : Core → Core) : (modCore s c f).scrubNext = s.scrubNext := rfl
@[simp] theorem modCore_scrubDue (s : State) (c : Nat) (f : Core → Core) : (modCore s c f).scrubDue = s.scrubDue := rfl
@[simp] theorem modCore_faults (s : State) (c : Nat) (f : Core → Core) : (modCore s c f).faults = s.faults := rfl
@[simp] theorem modCore_outFaults (s : State) (c : Nat) (f : Core → Core) : (modCore s c f).outFaults = s.outFaults := rfl
@[simp] theorem modCore_ports (s : State) (c : Nat) (f : Core → Core) : (modCore s c f).ports = s.ports := rfl
@[simp] theorem modCore_outParts (s : State) (c : Nat) (f : Core → Core) : (modCore s c f).outParts = s.outParts := rfl
@[simp] theorem modCore_farRetired (s : State) (c : Nat) (f : Core → Core) : (modCore s c f).farRetired = s.farRetired := rfl
@[simp] theorem modCore_msgs (s : State) (c : Nat) (f : Core → Core) : (modCore s c f).msgs = s.msgs := rfl
@[simp] theorem modCore_runs (s : State) (c : Nat) (f : Core → Core) : (modCore s c f).runs = s.runs := rfl
@[simp] theorem modCore_duties (s : State) (c : Nat) (f : Core → Core) : (modCore s c f).duties = s.duties := rfl
@[simp] theorem modCore_savedParts (s : State) (c : Nat) (f : Core → Core) : (modCore s c f).savedParts = s.savedParts := rfl
@[simp] theorem modCore_msis (s : State) (c : Nat) (f : Core → Core) : (modCore s c f).msis = s.msis := rfl
@[simp] theorem modCore_msixs (s : State) (c : Nat) (f : Core → Core) : (modCore s c f).msixs = s.msixs := rfl
@[simp] theorem modCore_pciWidth (s : State) (c : Nat) (f : Core → Core) : (modCore s c f).pciWidth = s.pciWidth := rfl
@[simp] theorem modCore_pciEnd (s : State) (c : Nat) (f : Core → Core) : (modCore s c f).pciEnd = s.pciEnd := rfl
@[simp] theorem modCore_ingest (s : State) (c : Nat) (f : Core → Core) : (modCore s c f).ingest = s.ingest := rfl
@[simp] theorem modCore_regulators (s : State) (c : Nat) (f : Core → Core) : (modCore s c f).regulators = s.regulators := rfl
@[simp] theorem modCore_scans (s : State) (c : Nat) (f : Core → Core) : (modCore s c f).scans = s.scans := rfl
@[simp] theorem modCore_scanAt (s : State) (c : Nat) (f : Core → Core) : (modCore s c f).scanAt = s.scanAt := rfl
@[simp] theorem modCore_island (s : State) (c : Nat) (f : Core → Core) : (modCore s c f).island = s.island := rfl
@[simp] theorem modCore_susp (s : State) (c : Nat) (f : Core → Core) : (modCore s c f).susp = s.susp := rfl
@[simp] theorem modCore_slew (s : State) (c : Nat) (f : Core → Core) : (modCore s c f).slew = s.slew := rfl
@[simp] theorem modCore_timeFrac (s : State) (c : Nat) (f : Core → Core) : (modCore s c f).timeFrac = s.timeFrac := rfl
@[simp] theorem modCore_syncNext (s : State) (c : Nat) (f : Core → Core) : (modCore s c f).syncNext = s.syncNext := rfl
@[simp] theorem modCore_linkStop (s : State) (c : Nat) (f : Core → Core) : (modCore s c f).linkStop = s.linkStop := rfl
@[simp] theorem modCore_retrain (s : State) (c : Nat) (f : Core → Core) : (modCore s c f).retrain = s.retrain := rfl
@[simp] theorem modCore_treeBusy (s : State) (c : Nat) (f : Core → Core) : (modCore s c f).treeBusy = s.treeBusy := rfl
@[simp] theorem modCore_treeBased (s : State) (c : Nat) (f : Core → Core) : (modCore s c f).treeBased = s.treeBased := rfl
@[simp] theorem modCore_treePart (s : State) (c : Nat) (f : Core → Core) : (modCore s c f).treePart = s.treePart := rfl
@[simp] theorem modCore_treeWait (s : State) (c : Nat) (f : Core → Core) : (modCore s c f).treeWait = s.treeWait := rfl
@[simp] theorem modCore_tlbinv (s : State) (c : Nat) (f : Core → Core) : (modCore s c f).tlbinv = s.tlbinv := rfl
@[simp] theorem modCore_wakeReq (s : State) (c : Nat) (f : Core → Core) : (modCore s c f).wakeReq = s.wakeReq := rfl
@[simp] theorem modCore_gating (s : State) (c : Nat) (f : Core → Core) : (modCore s c f).gating = s.gating := rfl
@[simp] theorem modCore_gated (s : State) (c : Nat) (f : Core → Core) : (modCore s c f).gated = s.gated := rfl
@[simp] theorem modCore_mmr (s : State) (c : Nat) (f : Core → Core) : (modCore s c f).mmr = s.mmr := rfl
@[simp] theorem modCore_nextId (s : State) (c : Nat) (f : Core → Core) : (modCore s c f).nextId = s.nextId := rfl
@[simp] theorem modCore_decision (s : State) (c : Nat) (f : Core → Core) : (modCore s c f).decision = s.decision := rfl
@[simp] theorem modPair_now (s : State) (p : Nat) (f : Pair → Pair) : (modPair s p f).now = s.now := rfl
@[simp] theorem modPair_ticks (s : State) (p : Nat) (f : Pair → Pair) : (modPair s p f).ticks = s.ticks := rfl
@[simp] theorem modPair_script (s : State) (p : Nat) (f : Pair → Pair) : (modPair s p f).script = s.script := rfl
@[simp] theorem modPair_cur (s : State) (p : Nat) (f : Pair → Pair) : (modPair s p f).cur = s.cur := rfl
@[simp] theorem modPair_groups (s : State) (p : Nat) (f : Pair → Pair) : (modPair s p f).groups = s.groups := rfl
@[simp] theorem modPair_teams (s : State) (p : Nat) (f : Pair → Pair) : (modPair s p f).teams = s.teams := rfl
@[simp] theorem modPair_launches (s : State) (p : Nat) (f : Pair → Pair) : (modPair s p f).launches = s.launches := rfl
@[simp] theorem modPair_cores (s : State) (p : Nat) (f : Pair → Pair) : (modPair s p f).cores = s.cores := rfl
@[simp] theorem modPair_cards (s : State) (p : Nat) (f : Pair → Pair) : (modPair s p f).cards = s.cards := rfl
@[simp] theorem modPair_mem (s : State) (p : Nat) (f : Pair → Pair) : (modPair s p f).mem = s.mem := rfl
@[simp] theorem modPair_poison (s : State) (p : Nat) (f : Pair → Pair) : (modPair s p f).poison = s.poison := rfl
@[simp] theorem modPair_under (s : State) (p : Nat) (f : Pair → Pair) : (modPair s p f).under = s.under := rfl
@[simp] theorem modPair_underPois (s : State) (p : Nat) (f : Pair → Pair) : (modPair s p f).underPois = s.underPois := rfl
@[simp] theorem modPair_l2 (s : State) (p : Nat) (f : Pair → Pair) : (modPair s p f).l2 = s.l2 := rfl
@[simp] theorem modPair_dirty (s : State) (p : Nat) (f : Pair → Pair) : (modPair s p f).dirty = s.dirty := rfl
@[simp] theorem modPair_apLines (s : State) (p : Nat) (f : Pair → Pair) : (modPair s p f).apLines = s.apLines := rfl
@[simp] theorem modPair_replies (s : State) (p : Nat) (f : Pair → Pair) : (modPair s p f).replies = s.replies := rfl
@[simp] theorem modPair_tlb (s : State) (p : Nat) (f : Pair → Pair) : (modPair s p f).tlb = s.tlb := rfl
@[simp] theorem modPair_walkCache (s : State) (p : Nat) (f : Pair → Pair) : (modPair s p f).walkCache = s.walkCache := rfl
@[simp] theorem modPair_scrubNext (s : State) (p : Nat) (f : Pair → Pair) : (modPair s p f).scrubNext = s.scrubNext := rfl
@[simp] theorem modPair_scrubDue (s : State) (p : Nat) (f : Pair → Pair) : (modPair s p f).scrubDue = s.scrubDue := rfl
@[simp] theorem modPair_faults (s : State) (p : Nat) (f : Pair → Pair) : (modPair s p f).faults = s.faults := rfl
@[simp] theorem modPair_outFaults (s : State) (p : Nat) (f : Pair → Pair) : (modPair s p f).outFaults = s.outFaults := rfl
@[simp] theorem modPair_ports (s : State) (p : Nat) (f : Pair → Pair) : (modPair s p f).ports = s.ports := rfl
@[simp] theorem modPair_outParts (s : State) (p : Nat) (f : Pair → Pair) : (modPair s p f).outParts = s.outParts := rfl
@[simp] theorem modPair_farRetired (s : State) (p : Nat) (f : Pair → Pair) : (modPair s p f).farRetired = s.farRetired := rfl
@[simp] theorem modPair_msgs (s : State) (p : Nat) (f : Pair → Pair) : (modPair s p f).msgs = s.msgs := rfl
@[simp] theorem modPair_runs (s : State) (p : Nat) (f : Pair → Pair) : (modPair s p f).runs = s.runs := rfl
@[simp] theorem modPair_duties (s : State) (p : Nat) (f : Pair → Pair) : (modPair s p f).duties = s.duties := rfl
@[simp] theorem modPair_savedParts (s : State) (p : Nat) (f : Pair → Pair) : (modPair s p f).savedParts = s.savedParts := rfl
@[simp] theorem modPair_msis (s : State) (p : Nat) (f : Pair → Pair) : (modPair s p f).msis = s.msis := rfl
@[simp] theorem modPair_msixs (s : State) (p : Nat) (f : Pair → Pair) : (modPair s p f).msixs = s.msixs := rfl
@[simp] theorem modPair_pciWidth (s : State) (p : Nat) (f : Pair → Pair) : (modPair s p f).pciWidth = s.pciWidth := rfl
@[simp] theorem modPair_pciEnd (s : State) (p : Nat) (f : Pair → Pair) : (modPair s p f).pciEnd = s.pciEnd := rfl
@[simp] theorem modPair_ingest (s : State) (p : Nat) (f : Pair → Pair) : (modPair s p f).ingest = s.ingest := rfl
@[simp] theorem modPair_regulators (s : State) (p : Nat) (f : Pair → Pair) : (modPair s p f).regulators = s.regulators := rfl
@[simp] theorem modPair_scans (s : State) (p : Nat) (f : Pair → Pair) : (modPair s p f).scans = s.scans := rfl
@[simp] theorem modPair_scanAt (s : State) (p : Nat) (f : Pair → Pair) : (modPair s p f).scanAt = s.scanAt := rfl
@[simp] theorem modPair_island (s : State) (p : Nat) (f : Pair → Pair) : (modPair s p f).island = s.island := rfl
@[simp] theorem modPair_susp (s : State) (p : Nat) (f : Pair → Pair) : (modPair s p f).susp = s.susp := rfl
@[simp] theorem modPair_slew (s : State) (p : Nat) (f : Pair → Pair) : (modPair s p f).slew = s.slew := rfl
@[simp] theorem modPair_timeFrac (s : State) (p : Nat) (f : Pair → Pair) : (modPair s p f).timeFrac = s.timeFrac := rfl
@[simp] theorem modPair_syncNext (s : State) (p : Nat) (f : Pair → Pair) : (modPair s p f).syncNext = s.syncNext := rfl
@[simp] theorem modPair_linkStop (s : State) (p : Nat) (f : Pair → Pair) : (modPair s p f).linkStop = s.linkStop := rfl
@[simp] theorem modPair_retrain (s : State) (p : Nat) (f : Pair → Pair) : (modPair s p f).retrain = s.retrain := rfl
@[simp] theorem modPair_treeBusy (s : State) (p : Nat) (f : Pair → Pair) : (modPair s p f).treeBusy = s.treeBusy := rfl
@[simp] theorem modPair_treeBased (s : State) (p : Nat) (f : Pair → Pair) : (modPair s p f).treeBased = s.treeBased := rfl
@[simp] theorem modPair_treePart (s : State) (p : Nat) (f : Pair → Pair) : (modPair s p f).treePart = s.treePart := rfl
@[simp] theorem modPair_treeWait (s : State) (p : Nat) (f : Pair → Pair) : (modPair s p f).treeWait = s.treeWait := rfl
@[simp] theorem modPair_tlbinv (s : State) (p : Nat) (f : Pair → Pair) : (modPair s p f).tlbinv = s.tlbinv := rfl
@[simp] theorem modPair_wakeReq (s : State) (p : Nat) (f : Pair → Pair) : (modPair s p f).wakeReq = s.wakeReq := rfl
@[simp] theorem modPair_gating (s : State) (p : Nat) (f : Pair → Pair) : (modPair s p f).gating = s.gating := rfl
@[simp] theorem modPair_gated (s : State) (p : Nat) (f : Pair → Pair) : (modPair s p f).gated = s.gated := rfl
@[simp] theorem modPair_mmr (s : State) (p : Nat) (f : Pair → Pair) : (modPair s p f).mmr = s.mmr := rfl
@[simp] theorem modPair_nextId (s : State) (p : Nat) (f : Pair → Pair) : (modPair s p f).nextId = s.nextId := rfl
@[simp] theorem modPair_decision (s : State) (p : Nat) (f : Pair → Pair) : (modPair s p f).decision = s.decision := rfl
@[simp] theorem setMmr_now (s : State) (off x : Nat) : (setMmr s off x).now = s.now := rfl
@[simp] theorem setMmr_ticks (s : State) (off x : Nat) : (setMmr s off x).ticks = s.ticks := rfl
@[simp] theorem setMmr_script (s : State) (off x : Nat) : (setMmr s off x).script = s.script := rfl
@[simp] theorem setMmr_cur (s : State) (off x : Nat) : (setMmr s off x).cur = s.cur := rfl
@[simp] theorem setMmr_groups (s : State) (off x : Nat) : (setMmr s off x).groups = s.groups := rfl
@[simp] theorem setMmr_teams (s : State) (off x : Nat) : (setMmr s off x).teams = s.teams := rfl
@[simp] theorem setMmr_launches (s : State) (off x : Nat) : (setMmr s off x).launches = s.launches := rfl
@[simp] theorem setMmr_cores (s : State) (off x : Nat) : (setMmr s off x).cores = s.cores := rfl
@[simp] theorem setMmr_pairs (s : State) (off x : Nat) : (setMmr s off x).pairs = s.pairs := rfl
@[simp] theorem setMmr_cards (s : State) (off x : Nat) : (setMmr s off x).cards = s.cards := rfl
@[simp] theorem setMmr_mem (s : State) (off x : Nat) : (setMmr s off x).mem = s.mem := rfl
@[simp] theorem setMmr_poison (s : State) (off x : Nat) : (setMmr s off x).poison = s.poison := rfl
@[simp] theorem setMmr_under (s : State) (off x : Nat) : (setMmr s off x).under = s.under := rfl
@[simp] theorem setMmr_underPois (s : State) (off x : Nat) : (setMmr s off x).underPois = s.underPois := rfl
@[simp] theorem setMmr_l2 (s : State) (off x : Nat) : (setMmr s off x).l2 = s.l2 := rfl
@[simp] theorem setMmr_dirty (s : State) (off x : Nat) : (setMmr s off x).dirty = s.dirty := rfl
@[simp] theorem setMmr_apLines (s : State) (off x : Nat) : (setMmr s off x).apLines = s.apLines := rfl
@[simp] theorem setMmr_replies (s : State) (off x : Nat) : (setMmr s off x).replies = s.replies := rfl
@[simp] theorem setMmr_tlb (s : State) (off x : Nat) : (setMmr s off x).tlb = s.tlb := rfl
@[simp] theorem setMmr_walkCache (s : State) (off x : Nat) : (setMmr s off x).walkCache = s.walkCache := rfl
@[simp] theorem setMmr_scrubNext (s : State) (off x : Nat) : (setMmr s off x).scrubNext = s.scrubNext := rfl
@[simp] theorem setMmr_scrubDue (s : State) (off x : Nat) : (setMmr s off x).scrubDue = s.scrubDue := rfl
@[simp] theorem setMmr_faults (s : State) (off x : Nat) : (setMmr s off x).faults = s.faults := rfl
@[simp] theorem setMmr_outFaults (s : State) (off x : Nat) : (setMmr s off x).outFaults = s.outFaults := rfl
@[simp] theorem setMmr_ports (s : State) (off x : Nat) : (setMmr s off x).ports = s.ports := rfl
@[simp] theorem setMmr_outParts (s : State) (off x : Nat) : (setMmr s off x).outParts = s.outParts := rfl
@[simp] theorem setMmr_farRetired (s : State) (off x : Nat) : (setMmr s off x).farRetired = s.farRetired := rfl
@[simp] theorem setMmr_msgs (s : State) (off x : Nat) : (setMmr s off x).msgs = s.msgs := rfl
@[simp] theorem setMmr_runs (s : State) (off x : Nat) : (setMmr s off x).runs = s.runs := rfl
@[simp] theorem setMmr_duties (s : State) (off x : Nat) : (setMmr s off x).duties = s.duties := rfl
@[simp] theorem setMmr_savedParts (s : State) (off x : Nat) : (setMmr s off x).savedParts = s.savedParts := rfl
@[simp] theorem setMmr_msis (s : State) (off x : Nat) : (setMmr s off x).msis = s.msis := rfl
@[simp] theorem setMmr_msixs (s : State) (off x : Nat) : (setMmr s off x).msixs = s.msixs := rfl
@[simp] theorem setMmr_pciWidth (s : State) (off x : Nat) : (setMmr s off x).pciWidth = s.pciWidth := rfl
@[simp] theorem setMmr_pciEnd (s : State) (off x : Nat) : (setMmr s off x).pciEnd = s.pciEnd := rfl
@[simp] theorem setMmr_ingest (s : State) (off x : Nat) : (setMmr s off x).ingest = s.ingest := rfl
@[simp] theorem setMmr_regulators (s : State) (off x : Nat) : (setMmr s off x).regulators = s.regulators := rfl
@[simp] theorem setMmr_scans (s : State) (off x : Nat) : (setMmr s off x).scans = s.scans := rfl
@[simp] theorem setMmr_scanAt (s : State) (off x : Nat) : (setMmr s off x).scanAt = s.scanAt := rfl
@[simp] theorem setMmr_island (s : State) (off x : Nat) : (setMmr s off x).island = s.island := rfl
@[simp] theorem setMmr_susp (s : State) (off x : Nat) : (setMmr s off x).susp = s.susp := rfl
@[simp] theorem setMmr_slew (s : State) (off x : Nat) : (setMmr s off x).slew = s.slew := rfl
@[simp] theorem setMmr_timeFrac (s : State) (off x : Nat) : (setMmr s off x).timeFrac = s.timeFrac := rfl
@[simp] theorem setMmr_syncNext (s : State) (off x : Nat) : (setMmr s off x).syncNext = s.syncNext := rfl
@[simp] theorem setMmr_linkStop (s : State) (off x : Nat) : (setMmr s off x).linkStop = s.linkStop := rfl
@[simp] theorem setMmr_retrain (s : State) (off x : Nat) : (setMmr s off x).retrain = s.retrain := rfl
@[simp] theorem setMmr_treeBusy (s : State) (off x : Nat) : (setMmr s off x).treeBusy = s.treeBusy := rfl
@[simp] theorem setMmr_treeBased (s : State) (off x : Nat) : (setMmr s off x).treeBased = s.treeBased := rfl
@[simp] theorem setMmr_treePart (s : State) (off x : Nat) : (setMmr s off x).treePart = s.treePart := rfl
@[simp] theorem setMmr_treeWait (s : State) (off x : Nat) : (setMmr s off x).treeWait = s.treeWait := rfl
@[simp] theorem setMmr_tlbinv (s : State) (off x : Nat) : (setMmr s off x).tlbinv = s.tlbinv := rfl
@[simp] theorem setMmr_wakeReq (s : State) (off x : Nat) : (setMmr s off x).wakeReq = s.wakeReq := rfl
@[simp] theorem setMmr_gating (s : State) (off x : Nat) : (setMmr s off x).gating = s.gating := rfl
@[simp] theorem setMmr_gated (s : State) (off x : Nat) : (setMmr s off x).gated = s.gated := rfl
@[simp] theorem setMmr_nextId (s : State) (off x : Nat) : (setMmr s off x).nextId = s.nextId := rfl
@[simp] theorem setMmr_decision (s : State) (off x : Nat) : (setMmr s off x).decision = s.decision := rfl
@[simp] theorem setReg_now (s : State) (off x : Nat) : (setReg s off x).now = s.now := rfl
@[simp] theorem setReg_ticks (s : State) (off x : Nat) : (setReg s off x).ticks = s.ticks := rfl
@[simp] theorem setReg_script (s : State) (off x : Nat) : (setReg s off x).script = s.script := rfl
@[simp] theorem setReg_cur (s : State) (off x : Nat) : (setReg s off x).cur = s.cur := rfl
@[simp] theorem setReg_groups (s : State) (off x : Nat) : (setReg s off x).groups = s.groups := rfl
@[simp] theorem setReg_teams (s : State) (off x : Nat) : (setReg s off x).teams = s.teams := rfl
@[simp] theorem setReg_launches (s : State) (off x : Nat) : (setReg s off x).launches = s.launches := rfl
@[simp] theorem setReg_cores (s : State) (off x : Nat) : (setReg s off x).cores = s.cores := rfl
@[simp] theorem setReg_pairs (s : State) (off x : Nat) : (setReg s off x).pairs = s.pairs := rfl
@[simp] theorem setReg_cards (s : State) (off x : Nat) : (setReg s off x).cards = s.cards := rfl
@[simp] theorem setReg_mem (s : State) (off x : Nat) : (setReg s off x).mem = s.mem := rfl
@[simp] theorem setReg_poison (s : State) (off x : Nat) : (setReg s off x).poison = s.poison := rfl
@[simp] theorem setReg_under (s : State) (off x : Nat) : (setReg s off x).under = s.under := rfl
@[simp] theorem setReg_underPois (s : State) (off x : Nat) : (setReg s off x).underPois = s.underPois := rfl
@[simp] theorem setReg_l2 (s : State) (off x : Nat) : (setReg s off x).l2 = s.l2 := rfl
@[simp] theorem setReg_dirty (s : State) (off x : Nat) : (setReg s off x).dirty = s.dirty := rfl
@[simp] theorem setReg_apLines (s : State) (off x : Nat) : (setReg s off x).apLines = s.apLines := rfl
@[simp] theorem setReg_replies (s : State) (off x : Nat) : (setReg s off x).replies = s.replies := rfl
@[simp] theorem setReg_tlb (s : State) (off x : Nat) : (setReg s off x).tlb = s.tlb := rfl
@[simp] theorem setReg_walkCache (s : State) (off x : Nat) : (setReg s off x).walkCache = s.walkCache := rfl
@[simp] theorem setReg_scrubNext (s : State) (off x : Nat) : (setReg s off x).scrubNext = s.scrubNext := rfl
@[simp] theorem setReg_scrubDue (s : State) (off x : Nat) : (setReg s off x).scrubDue = s.scrubDue := rfl
@[simp] theorem setReg_faults (s : State) (off x : Nat) : (setReg s off x).faults = s.faults := rfl
@[simp] theorem setReg_outFaults (s : State) (off x : Nat) : (setReg s off x).outFaults = s.outFaults := rfl
@[simp] theorem setReg_ports (s : State) (off x : Nat) : (setReg s off x).ports = s.ports := rfl
@[simp] theorem setReg_outParts (s : State) (off x : Nat) : (setReg s off x).outParts = s.outParts := rfl
@[simp] theorem setReg_farRetired (s : State) (off x : Nat) : (setReg s off x).farRetired = s.farRetired := rfl
@[simp] theorem setReg_msgs (s : State) (off x : Nat) : (setReg s off x).msgs = s.msgs := rfl
@[simp] theorem setReg_runs (s : State) (off x : Nat) : (setReg s off x).runs = s.runs := rfl
@[simp] theorem setReg_duties (s : State) (off x : Nat) : (setReg s off x).duties = s.duties := rfl
@[simp] theorem setReg_savedParts (s : State) (off x : Nat) : (setReg s off x).savedParts = s.savedParts := rfl
@[simp] theorem setReg_msis (s : State) (off x : Nat) : (setReg s off x).msis = s.msis := rfl
@[simp] theorem setReg_msixs (s : State) (off x : Nat) : (setReg s off x).msixs = s.msixs := rfl
@[simp] theorem setReg_pciWidth (s : State) (off x : Nat) : (setReg s off x).pciWidth = s.pciWidth := rfl
@[simp] theorem setReg_pciEnd (s : State) (off x : Nat) : (setReg s off x).pciEnd = s.pciEnd := rfl
@[simp] theorem setReg_ingest (s : State) (off x : Nat) : (setReg s off x).ingest = s.ingest := rfl
@[simp] theorem setReg_regulators (s : State) (off x : Nat) : (setReg s off x).regulators = s.regulators := rfl
@[simp] theorem setReg_scans (s : State) (off x : Nat) : (setReg s off x).scans = s.scans := rfl
@[simp] theorem setReg_scanAt (s : State) (off x : Nat) : (setReg s off x).scanAt = s.scanAt := rfl
@[simp] theorem setReg_island (s : State) (off x : Nat) : (setReg s off x).island = s.island := rfl
@[simp] theorem setReg_susp (s : State) (off x : Nat) : (setReg s off x).susp = s.susp := rfl
@[simp] theorem setReg_slew (s : State) (off x : Nat) : (setReg s off x).slew = s.slew := rfl
@[simp] theorem setReg_timeFrac (s : State) (off x : Nat) : (setReg s off x).timeFrac = s.timeFrac := rfl
@[simp] theorem setReg_syncNext (s : State) (off x : Nat) : (setReg s off x).syncNext = s.syncNext := rfl
@[simp] theorem setReg_linkStop (s : State) (off x : Nat) : (setReg s off x).linkStop = s.linkStop := rfl
@[simp] theorem setReg_retrain (s : State) (off x : Nat) : (setReg s off x).retrain = s.retrain := rfl
@[simp] theorem setReg_treeBusy (s : State) (off x : Nat) : (setReg s off x).treeBusy = s.treeBusy := rfl
@[simp] theorem setReg_treeBased (s : State) (off x : Nat) : (setReg s off x).treeBased = s.treeBased := rfl
@[simp] theorem setReg_treePart (s : State) (off x : Nat) : (setReg s off x).treePart = s.treePart := rfl
@[simp] theorem setReg_treeWait (s : State) (off x : Nat) : (setReg s off x).treeWait = s.treeWait := rfl
@[simp] theorem setReg_tlbinv (s : State) (off x : Nat) : (setReg s off x).tlbinv = s.tlbinv := rfl
@[simp] theorem setReg_wakeReq (s : State) (off x : Nat) : (setReg s off x).wakeReq = s.wakeReq := rfl
@[simp] theorem setReg_gating (s : State) (off x : Nat) : (setReg s off x).gating = s.gating := rfl
@[simp] theorem setReg_gated (s : State) (off x : Nat) : (setReg s off x).gated = s.gated := rfl
@[simp] theorem setReg_nextId (s : State) (off x : Nat) : (setReg s off x).nextId = s.nextId := rfl
@[simp] theorem setReg_decision (s : State) (off x : Nat) : (setReg s off x).decision = s.decision := rfl
@[simp] theorem setCardFld_now (n hi lo v : Nat) (s : State) : (setCardFld n hi lo v s).now = s.now := rfl
@[simp] theorem setCardFld_ticks (n hi lo v : Nat) (s : State) : (setCardFld n hi lo v s).ticks = s.ticks := rfl
@[simp] theorem setCardFld_script (n hi lo v : Nat) (s : State) : (setCardFld n hi lo v s).script = s.script := rfl
@[simp] theorem setCardFld_cur (n hi lo v : Nat) (s : State) : (setCardFld n hi lo v s).cur = s.cur := rfl
@[simp] theorem setCardFld_groups (n hi lo v : Nat) (s : State) : (setCardFld n hi lo v s).groups = s.groups := rfl
@[simp] theorem setCardFld_teams (n hi lo v : Nat) (s : State) : (setCardFld n hi lo v s).teams = s.teams := rfl
@[simp] theorem setCardFld_launches (n hi lo v : Nat) (s : State) : (setCardFld n hi lo v s).launches = s.launches := rfl
@[simp] theorem setCardFld_cores (n hi lo v : Nat) (s : State) : (setCardFld n hi lo v s).cores = s.cores := rfl
@[simp] theorem setCardFld_pairs (n hi lo v : Nat) (s : State) : (setCardFld n hi lo v s).pairs = s.pairs := rfl
@[simp] theorem setCardFld_mem (n hi lo v : Nat) (s : State) : (setCardFld n hi lo v s).mem = s.mem := rfl
@[simp] theorem setCardFld_poison (n hi lo v : Nat) (s : State) : (setCardFld n hi lo v s).poison = s.poison := rfl
@[simp] theorem setCardFld_under (n hi lo v : Nat) (s : State) : (setCardFld n hi lo v s).under = s.under := rfl
@[simp] theorem setCardFld_underPois (n hi lo v : Nat) (s : State) : (setCardFld n hi lo v s).underPois = s.underPois := rfl
@[simp] theorem setCardFld_l2 (n hi lo v : Nat) (s : State) : (setCardFld n hi lo v s).l2 = s.l2 := rfl
@[simp] theorem setCardFld_dirty (n hi lo v : Nat) (s : State) : (setCardFld n hi lo v s).dirty = s.dirty := rfl
@[simp] theorem setCardFld_apLines (n hi lo v : Nat) (s : State) : (setCardFld n hi lo v s).apLines = s.apLines := rfl
@[simp] theorem setCardFld_replies (n hi lo v : Nat) (s : State) : (setCardFld n hi lo v s).replies = s.replies := rfl
@[simp] theorem setCardFld_tlb (n hi lo v : Nat) (s : State) : (setCardFld n hi lo v s).tlb = s.tlb := rfl
@[simp] theorem setCardFld_walkCache (n hi lo v : Nat) (s : State) : (setCardFld n hi lo v s).walkCache = s.walkCache := rfl
@[simp] theorem setCardFld_scrubNext (n hi lo v : Nat) (s : State) : (setCardFld n hi lo v s).scrubNext = s.scrubNext := rfl
@[simp] theorem setCardFld_scrubDue (n hi lo v : Nat) (s : State) : (setCardFld n hi lo v s).scrubDue = s.scrubDue := rfl
@[simp] theorem setCardFld_faults (n hi lo v : Nat) (s : State) : (setCardFld n hi lo v s).faults = s.faults := rfl
@[simp] theorem setCardFld_outFaults (n hi lo v : Nat) (s : State) : (setCardFld n hi lo v s).outFaults = s.outFaults := rfl
@[simp] theorem setCardFld_ports (n hi lo v : Nat) (s : State) : (setCardFld n hi lo v s).ports = s.ports := rfl
@[simp] theorem setCardFld_outParts (n hi lo v : Nat) (s : State) : (setCardFld n hi lo v s).outParts = s.outParts := rfl
@[simp] theorem setCardFld_farRetired (n hi lo v : Nat) (s : State) : (setCardFld n hi lo v s).farRetired = s.farRetired := rfl
@[simp] theorem setCardFld_msgs (n hi lo v : Nat) (s : State) : (setCardFld n hi lo v s).msgs = s.msgs := rfl
@[simp] theorem setCardFld_runs (n hi lo v : Nat) (s : State) : (setCardFld n hi lo v s).runs = s.runs := rfl
@[simp] theorem setCardFld_duties (n hi lo v : Nat) (s : State) : (setCardFld n hi lo v s).duties = s.duties := rfl
@[simp] theorem setCardFld_savedParts (n hi lo v : Nat) (s : State) : (setCardFld n hi lo v s).savedParts = s.savedParts := rfl
@[simp] theorem setCardFld_msis (n hi lo v : Nat) (s : State) : (setCardFld n hi lo v s).msis = s.msis := rfl
@[simp] theorem setCardFld_msixs (n hi lo v : Nat) (s : State) : (setCardFld n hi lo v s).msixs = s.msixs := rfl
@[simp] theorem setCardFld_pciWidth (n hi lo v : Nat) (s : State) : (setCardFld n hi lo v s).pciWidth = s.pciWidth := rfl
@[simp] theorem setCardFld_pciEnd (n hi lo v : Nat) (s : State) : (setCardFld n hi lo v s).pciEnd = s.pciEnd := rfl
@[simp] theorem setCardFld_ingest (n hi lo v : Nat) (s : State) : (setCardFld n hi lo v s).ingest = s.ingest := rfl
@[simp] theorem setCardFld_regulators (n hi lo v : Nat) (s : State) : (setCardFld n hi lo v s).regulators = s.regulators := rfl
@[simp] theorem setCardFld_scans (n hi lo v : Nat) (s : State) : (setCardFld n hi lo v s).scans = s.scans := rfl
@[simp] theorem setCardFld_scanAt (n hi lo v : Nat) (s : State) : (setCardFld n hi lo v s).scanAt = s.scanAt := rfl
@[simp] theorem setCardFld_island (n hi lo v : Nat) (s : State) : (setCardFld n hi lo v s).island = s.island := rfl
@[simp] theorem setCardFld_susp (n hi lo v : Nat) (s : State) : (setCardFld n hi lo v s).susp = s.susp := rfl
@[simp] theorem setCardFld_slew (n hi lo v : Nat) (s : State) : (setCardFld n hi lo v s).slew = s.slew := rfl
@[simp] theorem setCardFld_timeFrac (n hi lo v : Nat) (s : State) : (setCardFld n hi lo v s).timeFrac = s.timeFrac := rfl
@[simp] theorem setCardFld_syncNext (n hi lo v : Nat) (s : State) : (setCardFld n hi lo v s).syncNext = s.syncNext := rfl
@[simp] theorem setCardFld_linkStop (n hi lo v : Nat) (s : State) : (setCardFld n hi lo v s).linkStop = s.linkStop := rfl
@[simp] theorem setCardFld_retrain (n hi lo v : Nat) (s : State) : (setCardFld n hi lo v s).retrain = s.retrain := rfl
@[simp] theorem setCardFld_treeBusy (n hi lo v : Nat) (s : State) : (setCardFld n hi lo v s).treeBusy = s.treeBusy := rfl
@[simp] theorem setCardFld_treeBased (n hi lo v : Nat) (s : State) : (setCardFld n hi lo v s).treeBased = s.treeBased := rfl
@[simp] theorem setCardFld_treePart (n hi lo v : Nat) (s : State) : (setCardFld n hi lo v s).treePart = s.treePart := rfl
@[simp] theorem setCardFld_treeWait (n hi lo v : Nat) (s : State) : (setCardFld n hi lo v s).treeWait = s.treeWait := rfl
@[simp] theorem setCardFld_tlbinv (n hi lo v : Nat) (s : State) : (setCardFld n hi lo v s).tlbinv = s.tlbinv := rfl
@[simp] theorem setCardFld_wakeReq (n hi lo v : Nat) (s : State) : (setCardFld n hi lo v s).wakeReq = s.wakeReq := rfl
@[simp] theorem setCardFld_gating (n hi lo v : Nat) (s : State) : (setCardFld n hi lo v s).gating = s.gating := rfl
@[simp] theorem setCardFld_gated (n hi lo v : Nat) (s : State) : (setCardFld n hi lo v s).gated = s.gated := rfl
@[simp] theorem setCardFld_mmr (n hi lo v : Nat) (s : State) : (setCardFld n hi lo v s).mmr = s.mmr := rfl
@[simp] theorem setCardFld_nextId (n hi lo v : Nat) (s : State) : (setCardFld n hi lo v s).nextId = s.nextId := rfl
@[simp] theorem setCardFld_decision (n hi lo v : Nat) (s : State) : (setCardFld n hi lo v s).decision = s.decision := rfl
@[simp] theorem modRun_now (n : Nat) (f : CardRun → CardRun) (s : State) : (modRun n f s).now = s.now := rfl
@[simp] theorem modRun_ticks (n : Nat) (f : CardRun → CardRun) (s : State) : (modRun n f s).ticks = s.ticks := rfl
@[simp] theorem modRun_script (n : Nat) (f : CardRun → CardRun) (s : State) : (modRun n f s).script = s.script := rfl
@[simp] theorem modRun_cur (n : Nat) (f : CardRun → CardRun) (s : State) : (modRun n f s).cur = s.cur := rfl
@[simp] theorem modRun_groups (n : Nat) (f : CardRun → CardRun) (s : State) : (modRun n f s).groups = s.groups := rfl
@[simp] theorem modRun_teams (n : Nat) (f : CardRun → CardRun) (s : State) : (modRun n f s).teams = s.teams := rfl
@[simp] theorem modRun_launches (n : Nat) (f : CardRun → CardRun) (s : State) : (modRun n f s).launches = s.launches := rfl
@[simp] theorem modRun_cores (n : Nat) (f : CardRun → CardRun) (s : State) : (modRun n f s).cores = s.cores := rfl
@[simp] theorem modRun_pairs (n : Nat) (f : CardRun → CardRun) (s : State) : (modRun n f s).pairs = s.pairs := rfl
@[simp] theorem modRun_cards (n : Nat) (f : CardRun → CardRun) (s : State) : (modRun n f s).cards = s.cards := rfl
@[simp] theorem modRun_mem (n : Nat) (f : CardRun → CardRun) (s : State) : (modRun n f s).mem = s.mem := rfl
@[simp] theorem modRun_poison (n : Nat) (f : CardRun → CardRun) (s : State) : (modRun n f s).poison = s.poison := rfl
@[simp] theorem modRun_under (n : Nat) (f : CardRun → CardRun) (s : State) : (modRun n f s).under = s.under := rfl
@[simp] theorem modRun_underPois (n : Nat) (f : CardRun → CardRun) (s : State) : (modRun n f s).underPois = s.underPois := rfl
@[simp] theorem modRun_l2 (n : Nat) (f : CardRun → CardRun) (s : State) : (modRun n f s).l2 = s.l2 := rfl
@[simp] theorem modRun_dirty (n : Nat) (f : CardRun → CardRun) (s : State) : (modRun n f s).dirty = s.dirty := rfl
@[simp] theorem modRun_apLines (n : Nat) (f : CardRun → CardRun) (s : State) : (modRun n f s).apLines = s.apLines := rfl
@[simp] theorem modRun_replies (n : Nat) (f : CardRun → CardRun) (s : State) : (modRun n f s).replies = s.replies := rfl
@[simp] theorem modRun_tlb (n : Nat) (f : CardRun → CardRun) (s : State) : (modRun n f s).tlb = s.tlb := rfl
@[simp] theorem modRun_walkCache (n : Nat) (f : CardRun → CardRun) (s : State) : (modRun n f s).walkCache = s.walkCache := rfl
@[simp] theorem modRun_scrubNext (n : Nat) (f : CardRun → CardRun) (s : State) : (modRun n f s).scrubNext = s.scrubNext := rfl
@[simp] theorem modRun_scrubDue (n : Nat) (f : CardRun → CardRun) (s : State) : (modRun n f s).scrubDue = s.scrubDue := rfl
@[simp] theorem modRun_faults (n : Nat) (f : CardRun → CardRun) (s : State) : (modRun n f s).faults = s.faults := rfl
@[simp] theorem modRun_outFaults (n : Nat) (f : CardRun → CardRun) (s : State) : (modRun n f s).outFaults = s.outFaults := rfl
@[simp] theorem modRun_ports (n : Nat) (f : CardRun → CardRun) (s : State) : (modRun n f s).ports = s.ports := rfl
@[simp] theorem modRun_outParts (n : Nat) (f : CardRun → CardRun) (s : State) : (modRun n f s).outParts = s.outParts := rfl
@[simp] theorem modRun_farRetired (n : Nat) (f : CardRun → CardRun) (s : State) : (modRun n f s).farRetired = s.farRetired := rfl
@[simp] theorem modRun_msgs (n : Nat) (f : CardRun → CardRun) (s : State) : (modRun n f s).msgs = s.msgs := rfl
@[simp] theorem modRun_duties (n : Nat) (f : CardRun → CardRun) (s : State) : (modRun n f s).duties = s.duties := rfl
@[simp] theorem modRun_savedParts (n : Nat) (f : CardRun → CardRun) (s : State) : (modRun n f s).savedParts = s.savedParts := rfl
@[simp] theorem modRun_msis (n : Nat) (f : CardRun → CardRun) (s : State) : (modRun n f s).msis = s.msis := rfl
@[simp] theorem modRun_msixs (n : Nat) (f : CardRun → CardRun) (s : State) : (modRun n f s).msixs = s.msixs := rfl
@[simp] theorem modRun_pciWidth (n : Nat) (f : CardRun → CardRun) (s : State) : (modRun n f s).pciWidth = s.pciWidth := rfl
@[simp] theorem modRun_pciEnd (n : Nat) (f : CardRun → CardRun) (s : State) : (modRun n f s).pciEnd = s.pciEnd := rfl
@[simp] theorem modRun_ingest (n : Nat) (f : CardRun → CardRun) (s : State) : (modRun n f s).ingest = s.ingest := rfl
@[simp] theorem modRun_regulators (n : Nat) (f : CardRun → CardRun) (s : State) : (modRun n f s).regulators = s.regulators := rfl
@[simp] theorem modRun_scans (n : Nat) (f : CardRun → CardRun) (s : State) : (modRun n f s).scans = s.scans := rfl
@[simp] theorem modRun_scanAt (n : Nat) (f : CardRun → CardRun) (s : State) : (modRun n f s).scanAt = s.scanAt := rfl
@[simp] theorem modRun_island (n : Nat) (f : CardRun → CardRun) (s : State) : (modRun n f s).island = s.island := rfl
@[simp] theorem modRun_susp (n : Nat) (f : CardRun → CardRun) (s : State) : (modRun n f s).susp = s.susp := rfl
@[simp] theorem modRun_slew (n : Nat) (f : CardRun → CardRun) (s : State) : (modRun n f s).slew = s.slew := rfl
@[simp] theorem modRun_timeFrac (n : Nat) (f : CardRun → CardRun) (s : State) : (modRun n f s).timeFrac = s.timeFrac := rfl
@[simp] theorem modRun_syncNext (n : Nat) (f : CardRun → CardRun) (s : State) : (modRun n f s).syncNext = s.syncNext := rfl
@[simp] theorem modRun_linkStop (n : Nat) (f : CardRun → CardRun) (s : State) : (modRun n f s).linkStop = s.linkStop := rfl
@[simp] theorem modRun_retrain (n : Nat) (f : CardRun → CardRun) (s : State) : (modRun n f s).retrain = s.retrain := rfl
@[simp] theorem modRun_treeBusy (n : Nat) (f : CardRun → CardRun) (s : State) : (modRun n f s).treeBusy = s.treeBusy := rfl
@[simp] theorem modRun_treeBased (n : Nat) (f : CardRun → CardRun) (s : State) : (modRun n f s).treeBased = s.treeBased := rfl
@[simp] theorem modRun_treePart (n : Nat) (f : CardRun → CardRun) (s : State) : (modRun n f s).treePart = s.treePart := rfl
@[simp] theorem modRun_treeWait (n : Nat) (f : CardRun → CardRun) (s : State) : (modRun n f s).treeWait = s.treeWait := rfl
@[simp] theorem modRun_tlbinv (n : Nat) (f : CardRun → CardRun) (s : State) : (modRun n f s).tlbinv = s.tlbinv := rfl
@[simp] theorem modRun_wakeReq (n : Nat) (f : CardRun → CardRun) (s : State) : (modRun n f s).wakeReq = s.wakeReq := rfl
@[simp] theorem modRun_gating (n : Nat) (f : CardRun → CardRun) (s : State) : (modRun n f s).gating = s.gating := rfl
@[simp] theorem modRun_gated (n : Nat) (f : CardRun → CardRun) (s : State) : (modRun n f s).gated = s.gated := rfl
@[simp] theorem modRun_mmr (n : Nat) (f : CardRun → CardRun) (s : State) : (modRun n f s).mmr = s.mmr := rfl
@[simp] theorem modRun_nextId (n : Nat) (f : CardRun → CardRun) (s : State) : (modRun n f s).nextId = s.nextId := rfl
@[simp] theorem modRun_decision (n : Nat) (f : CardRun → CardRun) (s : State) : (modRun n f s).decision = s.decision := rfl
@[simp] theorem setChan_now (g port : Nat) (x : Chan) (s : State) : (setChan g port x s).now = s.now := rfl
@[simp] theorem setChan_ticks (g port : Nat) (x : Chan) (s : State) : (setChan g port x s).ticks = s.ticks := rfl
@[simp] theorem setChan_script (g port : Nat) (x : Chan) (s : State) : (setChan g port x s).script = s.script := rfl
@[simp] theorem setChan_cur (g port : Nat) (x : Chan) (s : State) : (setChan g port x s).cur = s.cur := rfl
@[simp] theorem setChan_groups (g port : Nat) (x : Chan) (s : State) : (setChan g port x s).groups = s.groups := rfl
@[simp] theorem setChan_teams (g port : Nat) (x : Chan) (s : State) : (setChan g port x s).teams = s.teams := rfl
@[simp] theorem setChan_launches (g port : Nat) (x : Chan) (s : State) : (setChan g port x s).launches = s.launches := rfl
@[simp] theorem setChan_cores (g port : Nat) (x : Chan) (s : State) : (setChan g port x s).cores = s.cores := rfl
@[simp] theorem setChan_pairs (g port : Nat) (x : Chan) (s : State) : (setChan g port x s).pairs = s.pairs := rfl
@[simp] theorem setChan_cards (g port : Nat) (x : Chan) (s : State) : (setChan g port x s).cards = s.cards := rfl
@[simp] theorem setChan_mem (g port : Nat) (x : Chan) (s : State) : (setChan g port x s).mem = s.mem := rfl
@[simp] theorem setChan_poison (g port : Nat) (x : Chan) (s : State) : (setChan g port x s).poison = s.poison := rfl
@[simp] theorem setChan_under (g port : Nat) (x : Chan) (s : State) : (setChan g port x s).under = s.under := rfl
@[simp] theorem setChan_underPois (g port : Nat) (x : Chan) (s : State) : (setChan g port x s).underPois = s.underPois := rfl
@[simp] theorem setChan_l2 (g port : Nat) (x : Chan) (s : State) : (setChan g port x s).l2 = s.l2 := rfl
@[simp] theorem setChan_dirty (g port : Nat) (x : Chan) (s : State) : (setChan g port x s).dirty = s.dirty := rfl
@[simp] theorem setChan_apLines (g port : Nat) (x : Chan) (s : State) : (setChan g port x s).apLines = s.apLines := rfl
@[simp] theorem setChan_replies (g port : Nat) (x : Chan) (s : State) : (setChan g port x s).replies = s.replies := rfl
@[simp] theorem setChan_tlb (g port : Nat) (x : Chan) (s : State) : (setChan g port x s).tlb = s.tlb := rfl
@[simp] theorem setChan_walkCache (g port : Nat) (x : Chan) (s : State) : (setChan g port x s).walkCache = s.walkCache := rfl
@[simp] theorem setChan_scrubNext (g port : Nat) (x : Chan) (s : State) : (setChan g port x s).scrubNext = s.scrubNext := rfl
@[simp] theorem setChan_scrubDue (g port : Nat) (x : Chan) (s : State) : (setChan g port x s).scrubDue = s.scrubDue := rfl
@[simp] theorem setChan_faults (g port : Nat) (x : Chan) (s : State) : (setChan g port x s).faults = s.faults := rfl
@[simp] theorem setChan_outFaults (g port : Nat) (x : Chan) (s : State) : (setChan g port x s).outFaults = s.outFaults := rfl
@[simp] theorem setChan_outParts (g port : Nat) (x : Chan) (s : State) : (setChan g port x s).outParts = s.outParts := rfl
@[simp] theorem setChan_farRetired (g port : Nat) (x : Chan) (s : State) : (setChan g port x s).farRetired = s.farRetired := rfl
@[simp] theorem setChan_msgs (g port : Nat) (x : Chan) (s : State) : (setChan g port x s).msgs = s.msgs := rfl
@[simp] theorem setChan_runs (g port : Nat) (x : Chan) (s : State) : (setChan g port x s).runs = s.runs := rfl
@[simp] theorem setChan_duties (g port : Nat) (x : Chan) (s : State) : (setChan g port x s).duties = s.duties := rfl
@[simp] theorem setChan_savedParts (g port : Nat) (x : Chan) (s : State) : (setChan g port x s).savedParts = s.savedParts := rfl
@[simp] theorem setChan_msis (g port : Nat) (x : Chan) (s : State) : (setChan g port x s).msis = s.msis := rfl
@[simp] theorem setChan_msixs (g port : Nat) (x : Chan) (s : State) : (setChan g port x s).msixs = s.msixs := rfl
@[simp] theorem setChan_pciWidth (g port : Nat) (x : Chan) (s : State) : (setChan g port x s).pciWidth = s.pciWidth := rfl
@[simp] theorem setChan_pciEnd (g port : Nat) (x : Chan) (s : State) : (setChan g port x s).pciEnd = s.pciEnd := rfl
@[simp] theorem setChan_ingest (g port : Nat) (x : Chan) (s : State) : (setChan g port x s).ingest = s.ingest := rfl
@[simp] theorem setChan_regulators (g port : Nat) (x : Chan) (s : State) : (setChan g port x s).regulators = s.regulators := rfl
@[simp] theorem setChan_scans (g port : Nat) (x : Chan) (s : State) : (setChan g port x s).scans = s.scans := rfl
@[simp] theorem setChan_scanAt (g port : Nat) (x : Chan) (s : State) : (setChan g port x s).scanAt = s.scanAt := rfl
@[simp] theorem setChan_island (g port : Nat) (x : Chan) (s : State) : (setChan g port x s).island = s.island := rfl
@[simp] theorem setChan_susp (g port : Nat) (x : Chan) (s : State) : (setChan g port x s).susp = s.susp := rfl
@[simp] theorem setChan_slew (g port : Nat) (x : Chan) (s : State) : (setChan g port x s).slew = s.slew := rfl
@[simp] theorem setChan_timeFrac (g port : Nat) (x : Chan) (s : State) : (setChan g port x s).timeFrac = s.timeFrac := rfl
@[simp] theorem setChan_syncNext (g port : Nat) (x : Chan) (s : State) : (setChan g port x s).syncNext = s.syncNext := rfl
@[simp] theorem setChan_linkStop (g port : Nat) (x : Chan) (s : State) : (setChan g port x s).linkStop = s.linkStop := rfl
@[simp] theorem setChan_retrain (g port : Nat) (x : Chan) (s : State) : (setChan g port x s).retrain = s.retrain := rfl
@[simp] theorem setChan_treeBusy (g port : Nat) (x : Chan) (s : State) : (setChan g port x s).treeBusy = s.treeBusy := rfl
@[simp] theorem setChan_treeBased (g port : Nat) (x : Chan) (s : State) : (setChan g port x s).treeBased = s.treeBased := rfl
@[simp] theorem setChan_treePart (g port : Nat) (x : Chan) (s : State) : (setChan g port x s).treePart = s.treePart := rfl
@[simp] theorem setChan_treeWait (g port : Nat) (x : Chan) (s : State) : (setChan g port x s).treeWait = s.treeWait := rfl
@[simp] theorem setChan_tlbinv (g port : Nat) (x : Chan) (s : State) : (setChan g port x s).tlbinv = s.tlbinv := rfl
@[simp] theorem setChan_wakeReq (g port : Nat) (x : Chan) (s : State) : (setChan g port x s).wakeReq = s.wakeReq := rfl
@[simp] theorem setChan_gating (g port : Nat) (x : Chan) (s : State) : (setChan g port x s).gating = s.gating := rfl
@[simp] theorem setChan_gated (g port : Nat) (x : Chan) (s : State) : (setChan g port x s).gated = s.gated := rfl
@[simp] theorem setChan_mmr (g port : Nat) (x : Chan) (s : State) : (setChan g port x s).mmr = s.mmr := rfl
@[simp] theorem setChan_nextId (g port : Nat) (x : Chan) (s : State) : (setChan g port x s).nextId = s.nextId := rfl
@[simp] theorem setChan_decision (g port : Nat) (x : Chan) (s : State) : (setChan g port x s).decision = s.decision := rfl
@[simp] theorem setIngest_now (k : Nat) (e : Ingest) (s : State) : (setIngest k e s).now = s.now := rfl
@[simp] theorem setIngest_ticks (k : Nat) (e : Ingest) (s : State) : (setIngest k e s).ticks = s.ticks := rfl
@[simp] theorem setIngest_script (k : Nat) (e : Ingest) (s : State) : (setIngest k e s).script = s.script := rfl
@[simp] theorem setIngest_cur (k : Nat) (e : Ingest) (s : State) : (setIngest k e s).cur = s.cur := rfl
@[simp] theorem setIngest_groups (k : Nat) (e : Ingest) (s : State) : (setIngest k e s).groups = s.groups := rfl
@[simp] theorem setIngest_teams (k : Nat) (e : Ingest) (s : State) : (setIngest k e s).teams = s.teams := rfl
@[simp] theorem setIngest_launches (k : Nat) (e : Ingest) (s : State) : (setIngest k e s).launches = s.launches := rfl
@[simp] theorem setIngest_cores (k : Nat) (e : Ingest) (s : State) : (setIngest k e s).cores = s.cores := rfl
@[simp] theorem setIngest_pairs (k : Nat) (e : Ingest) (s : State) : (setIngest k e s).pairs = s.pairs := rfl
@[simp] theorem setIngest_cards (k : Nat) (e : Ingest) (s : State) : (setIngest k e s).cards = s.cards := rfl
@[simp] theorem setIngest_mem (k : Nat) (e : Ingest) (s : State) : (setIngest k e s).mem = s.mem := rfl
@[simp] theorem setIngest_poison (k : Nat) (e : Ingest) (s : State) : (setIngest k e s).poison = s.poison := rfl
@[simp] theorem setIngest_under (k : Nat) (e : Ingest) (s : State) : (setIngest k e s).under = s.under := rfl
@[simp] theorem setIngest_underPois (k : Nat) (e : Ingest) (s : State) : (setIngest k e s).underPois = s.underPois := rfl
@[simp] theorem setIngest_l2 (k : Nat) (e : Ingest) (s : State) : (setIngest k e s).l2 = s.l2 := rfl
@[simp] theorem setIngest_dirty (k : Nat) (e : Ingest) (s : State) : (setIngest k e s).dirty = s.dirty := rfl
@[simp] theorem setIngest_apLines (k : Nat) (e : Ingest) (s : State) : (setIngest k e s).apLines = s.apLines := rfl
@[simp] theorem setIngest_replies (k : Nat) (e : Ingest) (s : State) : (setIngest k e s).replies = s.replies := rfl
@[simp] theorem setIngest_tlb (k : Nat) (e : Ingest) (s : State) : (setIngest k e s).tlb = s.tlb := rfl
@[simp] theorem setIngest_walkCache (k : Nat) (e : Ingest) (s : State) : (setIngest k e s).walkCache = s.walkCache := rfl
@[simp] theorem setIngest_scrubNext (k : Nat) (e : Ingest) (s : State) : (setIngest k e s).scrubNext = s.scrubNext := rfl
@[simp] theorem setIngest_scrubDue (k : Nat) (e : Ingest) (s : State) : (setIngest k e s).scrubDue = s.scrubDue := rfl
@[simp] theorem setIngest_faults (k : Nat) (e : Ingest) (s : State) : (setIngest k e s).faults = s.faults := rfl
@[simp] theorem setIngest_outFaults (k : Nat) (e : Ingest) (s : State) : (setIngest k e s).outFaults = s.outFaults := rfl
@[simp] theorem setIngest_ports (k : Nat) (e : Ingest) (s : State) : (setIngest k e s).ports = s.ports := rfl
@[simp] theorem setIngest_outParts (k : Nat) (e : Ingest) (s : State) : (setIngest k e s).outParts = s.outParts := rfl
@[simp] theorem setIngest_farRetired (k : Nat) (e : Ingest) (s : State) : (setIngest k e s).farRetired = s.farRetired := rfl
@[simp] theorem setIngest_msgs (k : Nat) (e : Ingest) (s : State) : (setIngest k e s).msgs = s.msgs := rfl
@[simp] theorem setIngest_runs (k : Nat) (e : Ingest) (s : State) : (setIngest k e s).runs = s.runs := rfl
@[simp] theorem setIngest_duties (k : Nat) (e : Ingest) (s : State) : (setIngest k e s).duties = s.duties := rfl
@[simp] theorem setIngest_savedParts (k : Nat) (e : Ingest) (s : State) : (setIngest k e s).savedParts = s.savedParts := rfl
@[simp] theorem setIngest_msis (k : Nat) (e : Ingest) (s : State) : (setIngest k e s).msis = s.msis := rfl
@[simp] theorem setIngest_msixs (k : Nat) (e : Ingest) (s : State) : (setIngest k e s).msixs = s.msixs := rfl
@[simp] theorem setIngest_pciWidth (k : Nat) (e : Ingest) (s : State) : (setIngest k e s).pciWidth = s.pciWidth := rfl
@[simp] theorem setIngest_pciEnd (k : Nat) (e : Ingest) (s : State) : (setIngest k e s).pciEnd = s.pciEnd := rfl
@[simp] theorem setIngest_regulators (k : Nat) (e : Ingest) (s : State) : (setIngest k e s).regulators = s.regulators := rfl
@[simp] theorem setIngest_scans (k : Nat) (e : Ingest) (s : State) : (setIngest k e s).scans = s.scans := rfl
@[simp] theorem setIngest_scanAt (k : Nat) (e : Ingest) (s : State) : (setIngest k e s).scanAt = s.scanAt := rfl
@[simp] theorem setIngest_island (k : Nat) (e : Ingest) (s : State) : (setIngest k e s).island = s.island := rfl
@[simp] theorem setIngest_susp (k : Nat) (e : Ingest) (s : State) : (setIngest k e s).susp = s.susp := rfl
@[simp] theorem setIngest_slew (k : Nat) (e : Ingest) (s : State) : (setIngest k e s).slew = s.slew := rfl
@[simp] theorem setIngest_timeFrac (k : Nat) (e : Ingest) (s : State) : (setIngest k e s).timeFrac = s.timeFrac := rfl
@[simp] theorem setIngest_syncNext (k : Nat) (e : Ingest) (s : State) : (setIngest k e s).syncNext = s.syncNext := rfl
@[simp] theorem setIngest_linkStop (k : Nat) (e : Ingest) (s : State) : (setIngest k e s).linkStop = s.linkStop := rfl
@[simp] theorem setIngest_retrain (k : Nat) (e : Ingest) (s : State) : (setIngest k e s).retrain = s.retrain := rfl
@[simp] theorem setIngest_treeBusy (k : Nat) (e : Ingest) (s : State) : (setIngest k e s).treeBusy = s.treeBusy := rfl
@[simp] theorem setIngest_treeBased (k : Nat) (e : Ingest) (s : State) : (setIngest k e s).treeBased = s.treeBased := rfl
@[simp] theorem setIngest_treePart (k : Nat) (e : Ingest) (s : State) : (setIngest k e s).treePart = s.treePart := rfl
@[simp] theorem setIngest_treeWait (k : Nat) (e : Ingest) (s : State) : (setIngest k e s).treeWait = s.treeWait := rfl
@[simp] theorem setIngest_tlbinv (k : Nat) (e : Ingest) (s : State) : (setIngest k e s).tlbinv = s.tlbinv := rfl
@[simp] theorem setIngest_wakeReq (k : Nat) (e : Ingest) (s : State) : (setIngest k e s).wakeReq = s.wakeReq := rfl
@[simp] theorem setIngest_gating (k : Nat) (e : Ingest) (s : State) : (setIngest k e s).gating = s.gating := rfl
@[simp] theorem setIngest_gated (k : Nat) (e : Ingest) (s : State) : (setIngest k e s).gated = s.gated := rfl
@[simp] theorem setIngest_mmr (k : Nat) (e : Ingest) (s : State) : (setIngest k e s).mmr = s.mmr := rfl
@[simp] theorem setIngest_nextId (k : Nat) (e : Ingest) (s : State) : (setIngest k e s).nextId = s.nextId := rfl
@[simp] theorem setIngest_decision (k : Nat) (e : Ingest) (s : State) : (setIngest k e s).decision = s.decision := rfl
@[simp] theorem setScan_now (x : Scan) (s : State) : (setScan x s).now = s.now := rfl
@[simp] theorem setScan_ticks (x : Scan) (s : State) : (setScan x s).ticks = s.ticks := rfl
@[simp] theorem setScan_script (x : Scan) (s : State) : (setScan x s).script = s.script := rfl
@[simp] theorem setScan_cur (x : Scan) (s : State) : (setScan x s).cur = s.cur := rfl
@[simp] theorem setScan_groups (x : Scan) (s : State) : (setScan x s).groups = s.groups := rfl
@[simp] theorem setScan_teams (x : Scan) (s : State) : (setScan x s).teams = s.teams := rfl
@[simp] theorem setScan_launches (x : Scan) (s : State) : (setScan x s).launches = s.launches := rfl
@[simp] theorem setScan_cores (x : Scan) (s : State) : (setScan x s).cores = s.cores := rfl
@[simp] theorem setScan_pairs (x : Scan) (s : State) : (setScan x s).pairs = s.pairs := rfl
@[simp] theorem setScan_cards (x : Scan) (s : State) : (setScan x s).cards = s.cards := rfl
@[simp] theorem setScan_mem (x : Scan) (s : State) : (setScan x s).mem = s.mem := rfl
@[simp] theorem setScan_poison (x : Scan) (s : State) : (setScan x s).poison = s.poison := rfl
@[simp] theorem setScan_under (x : Scan) (s : State) : (setScan x s).under = s.under := rfl
@[simp] theorem setScan_underPois (x : Scan) (s : State) : (setScan x s).underPois = s.underPois := rfl
@[simp] theorem setScan_l2 (x : Scan) (s : State) : (setScan x s).l2 = s.l2 := rfl
@[simp] theorem setScan_dirty (x : Scan) (s : State) : (setScan x s).dirty = s.dirty := rfl
@[simp] theorem setScan_apLines (x : Scan) (s : State) : (setScan x s).apLines = s.apLines := rfl
@[simp] theorem setScan_replies (x : Scan) (s : State) : (setScan x s).replies = s.replies := rfl
@[simp] theorem setScan_tlb (x : Scan) (s : State) : (setScan x s).tlb = s.tlb := rfl
@[simp] theorem setScan_walkCache (x : Scan) (s : State) : (setScan x s).walkCache = s.walkCache := rfl
@[simp] theorem setScan_scrubNext (x : Scan) (s : State) : (setScan x s).scrubNext = s.scrubNext := rfl
@[simp] theorem setScan_scrubDue (x : Scan) (s : State) : (setScan x s).scrubDue = s.scrubDue := rfl
@[simp] theorem setScan_faults (x : Scan) (s : State) : (setScan x s).faults = s.faults := rfl
@[simp] theorem setScan_outFaults (x : Scan) (s : State) : (setScan x s).outFaults = s.outFaults := rfl
@[simp] theorem setScan_ports (x : Scan) (s : State) : (setScan x s).ports = s.ports := rfl
@[simp] theorem setScan_outParts (x : Scan) (s : State) : (setScan x s).outParts = s.outParts := rfl
@[simp] theorem setScan_farRetired (x : Scan) (s : State) : (setScan x s).farRetired = s.farRetired := rfl
@[simp] theorem setScan_msgs (x : Scan) (s : State) : (setScan x s).msgs = s.msgs := rfl
@[simp] theorem setScan_runs (x : Scan) (s : State) : (setScan x s).runs = s.runs := rfl
@[simp] theorem setScan_duties (x : Scan) (s : State) : (setScan x s).duties = s.duties := rfl
@[simp] theorem setScan_savedParts (x : Scan) (s : State) : (setScan x s).savedParts = s.savedParts := rfl
@[simp] theorem setScan_msis (x : Scan) (s : State) : (setScan x s).msis = s.msis := rfl
@[simp] theorem setScan_msixs (x : Scan) (s : State) : (setScan x s).msixs = s.msixs := rfl
@[simp] theorem setScan_pciWidth (x : Scan) (s : State) : (setScan x s).pciWidth = s.pciWidth := rfl
@[simp] theorem setScan_pciEnd (x : Scan) (s : State) : (setScan x s).pciEnd = s.pciEnd := rfl
@[simp] theorem setScan_ingest (x : Scan) (s : State) : (setScan x s).ingest = s.ingest := rfl
@[simp] theorem setScan_regulators (x : Scan) (s : State) : (setScan x s).regulators = s.regulators := rfl
@[simp] theorem setScan_scanAt (x : Scan) (s : State) : (setScan x s).scanAt = s.scanAt := rfl
@[simp] theorem setScan_island (x : Scan) (s : State) : (setScan x s).island = s.island := rfl
@[simp] theorem setScan_susp (x : Scan) (s : State) : (setScan x s).susp = s.susp := rfl
@[simp] theorem setScan_slew (x : Scan) (s : State) : (setScan x s).slew = s.slew := rfl
@[simp] theorem setScan_timeFrac (x : Scan) (s : State) : (setScan x s).timeFrac = s.timeFrac := rfl
@[simp] theorem setScan_syncNext (x : Scan) (s : State) : (setScan x s).syncNext = s.syncNext := rfl
@[simp] theorem setScan_linkStop (x : Scan) (s : State) : (setScan x s).linkStop = s.linkStop := rfl
@[simp] theorem setScan_retrain (x : Scan) (s : State) : (setScan x s).retrain = s.retrain := rfl
@[simp] theorem setScan_treeBusy (x : Scan) (s : State) : (setScan x s).treeBusy = s.treeBusy := rfl
@[simp] theorem setScan_treeBased (x : Scan) (s : State) : (setScan x s).treeBased = s.treeBased := rfl
@[simp] theorem setScan_treePart (x : Scan) (s : State) : (setScan x s).treePart = s.treePart := rfl
@[simp] theorem setScan_treeWait (x : Scan) (s : State) : (setScan x s).treeWait = s.treeWait := rfl
@[simp] theorem setScan_tlbinv (x : Scan) (s : State) : (setScan x s).tlbinv = s.tlbinv := rfl
@[simp] theorem setScan_wakeReq (x : Scan) (s : State) : (setScan x s).wakeReq = s.wakeReq := rfl
@[simp] theorem setScan_gating (x : Scan) (s : State) : (setScan x s).gating = s.gating := rfl
@[simp] theorem setScan_gated (x : Scan) (s : State) : (setScan x s).gated = s.gated := rfl
@[simp] theorem setScan_mmr (x : Scan) (s : State) : (setScan x s).mmr = s.mmr := rfl
@[simp] theorem setScan_nextId (x : Scan) (s : State) : (setScan x s).nextId = s.nextId := rfl
@[simp] theorem setScan_decision (x : Scan) (s : State) : (setScan x s).decision = s.decision := rfl
@[simp] theorem askDuty_now (d : Duty) (s : State) : (askDuty d s).now = s.now := rfl
@[simp] theorem askDuty_ticks (d : Duty) (s : State) : (askDuty d s).ticks = s.ticks := rfl
@[simp] theorem askDuty_script (d : Duty) (s : State) : (askDuty d s).script = s.script := rfl
@[simp] theorem askDuty_cur (d : Duty) (s : State) : (askDuty d s).cur = s.cur := rfl
@[simp] theorem askDuty_groups (d : Duty) (s : State) : (askDuty d s).groups = s.groups := rfl
@[simp] theorem askDuty_teams (d : Duty) (s : State) : (askDuty d s).teams = s.teams := rfl
@[simp] theorem askDuty_launches (d : Duty) (s : State) : (askDuty d s).launches = s.launches := rfl
@[simp] theorem askDuty_cores (d : Duty) (s : State) : (askDuty d s).cores = s.cores := rfl
@[simp] theorem askDuty_pairs (d : Duty) (s : State) : (askDuty d s).pairs = s.pairs := rfl
@[simp] theorem askDuty_cards (d : Duty) (s : State) : (askDuty d s).cards = s.cards := rfl
@[simp] theorem askDuty_mem (d : Duty) (s : State) : (askDuty d s).mem = s.mem := rfl
@[simp] theorem askDuty_poison (d : Duty) (s : State) : (askDuty d s).poison = s.poison := rfl
@[simp] theorem askDuty_under (d : Duty) (s : State) : (askDuty d s).under = s.under := rfl
@[simp] theorem askDuty_underPois (d : Duty) (s : State) : (askDuty d s).underPois = s.underPois := rfl
@[simp] theorem askDuty_l2 (d : Duty) (s : State) : (askDuty d s).l2 = s.l2 := rfl
@[simp] theorem askDuty_dirty (d : Duty) (s : State) : (askDuty d s).dirty = s.dirty := rfl
@[simp] theorem askDuty_apLines (d : Duty) (s : State) : (askDuty d s).apLines = s.apLines := rfl
@[simp] theorem askDuty_replies (d : Duty) (s : State) : (askDuty d s).replies = s.replies := rfl
@[simp] theorem askDuty_tlb (d : Duty) (s : State) : (askDuty d s).tlb = s.tlb := rfl
@[simp] theorem askDuty_walkCache (d : Duty) (s : State) : (askDuty d s).walkCache = s.walkCache := rfl
@[simp] theorem askDuty_scrubNext (d : Duty) (s : State) : (askDuty d s).scrubNext = s.scrubNext := rfl
@[simp] theorem askDuty_scrubDue (d : Duty) (s : State) : (askDuty d s).scrubDue = s.scrubDue := rfl
@[simp] theorem askDuty_faults (d : Duty) (s : State) : (askDuty d s).faults = s.faults := rfl
@[simp] theorem askDuty_outFaults (d : Duty) (s : State) : (askDuty d s).outFaults = s.outFaults := rfl
@[simp] theorem askDuty_ports (d : Duty) (s : State) : (askDuty d s).ports = s.ports := rfl
@[simp] theorem askDuty_outParts (d : Duty) (s : State) : (askDuty d s).outParts = s.outParts := rfl
@[simp] theorem askDuty_farRetired (d : Duty) (s : State) : (askDuty d s).farRetired = s.farRetired := rfl
@[simp] theorem askDuty_msgs (d : Duty) (s : State) : (askDuty d s).msgs = s.msgs := rfl
@[simp] theorem askDuty_runs (d : Duty) (s : State) : (askDuty d s).runs = s.runs := rfl
@[simp] theorem askDuty_savedParts (d : Duty) (s : State) : (askDuty d s).savedParts = s.savedParts := rfl
@[simp] theorem askDuty_msis (d : Duty) (s : State) : (askDuty d s).msis = s.msis := rfl
@[simp] theorem askDuty_msixs (d : Duty) (s : State) : (askDuty d s).msixs = s.msixs := rfl
@[simp] theorem askDuty_pciWidth (d : Duty) (s : State) : (askDuty d s).pciWidth = s.pciWidth := rfl
@[simp] theorem askDuty_pciEnd (d : Duty) (s : State) : (askDuty d s).pciEnd = s.pciEnd := rfl
@[simp] theorem askDuty_ingest (d : Duty) (s : State) : (askDuty d s).ingest = s.ingest := rfl
@[simp] theorem askDuty_regulators (d : Duty) (s : State) : (askDuty d s).regulators = s.regulators := rfl
@[simp] theorem askDuty_scans (d : Duty) (s : State) : (askDuty d s).scans = s.scans := rfl
@[simp] theorem askDuty_scanAt (d : Duty) (s : State) : (askDuty d s).scanAt = s.scanAt := rfl
@[simp] theorem askDuty_island (d : Duty) (s : State) : (askDuty d s).island = s.island := rfl
@[simp] theorem askDuty_susp (d : Duty) (s : State) : (askDuty d s).susp = s.susp := rfl
@[simp] theorem askDuty_slew (d : Duty) (s : State) : (askDuty d s).slew = s.slew := rfl
@[simp] theorem askDuty_timeFrac (d : Duty) (s : State) : (askDuty d s).timeFrac = s.timeFrac := rfl
@[simp] theorem askDuty_syncNext (d : Duty) (s : State) : (askDuty d s).syncNext = s.syncNext := rfl
@[simp] theorem askDuty_linkStop (d : Duty) (s : State) : (askDuty d s).linkStop = s.linkStop := rfl
@[simp] theorem askDuty_retrain (d : Duty) (s : State) : (askDuty d s).retrain = s.retrain := rfl
@[simp] theorem askDuty_treeBusy (d : Duty) (s : State) : (askDuty d s).treeBusy = s.treeBusy := rfl
@[simp] theorem askDuty_treeBased (d : Duty) (s : State) : (askDuty d s).treeBased = s.treeBased := rfl
@[simp] theorem askDuty_treePart (d : Duty) (s : State) : (askDuty d s).treePart = s.treePart := rfl
@[simp] theorem askDuty_treeWait (d : Duty) (s : State) : (askDuty d s).treeWait = s.treeWait := rfl
@[simp] theorem askDuty_tlbinv (d : Duty) (s : State) : (askDuty d s).tlbinv = s.tlbinv := rfl
@[simp] theorem askDuty_wakeReq (d : Duty) (s : State) : (askDuty d s).wakeReq = s.wakeReq := rfl
@[simp] theorem askDuty_gating (d : Duty) (s : State) : (askDuty d s).gating = s.gating := rfl
@[simp] theorem askDuty_gated (d : Duty) (s : State) : (askDuty d s).gated = s.gated := rfl
@[simp] theorem askDuty_mmr (d : Duty) (s : State) : (askDuty d s).mmr = s.mmr := rfl
@[simp] theorem askDuty_nextId (d : Duty) (s : State) : (askDuty d s).nextId = s.nextId := rfl
@[simp] theorem askDuty_decision (d : Duty) (s : State) : (askDuty d s).decision = s.decision := rfl
@[simp] theorem dropDuty_now (tag : Nat) (s : State) : (dropDuty tag s).now = s.now := rfl
@[simp] theorem dropDuty_ticks (tag : Nat) (s : State) : (dropDuty tag s).ticks = s.ticks := rfl
@[simp] theorem dropDuty_script (tag : Nat) (s : State) : (dropDuty tag s).script = s.script := rfl
@[simp] theorem dropDuty_cur (tag : Nat) (s : State) : (dropDuty tag s).cur = s.cur := rfl
@[simp] theorem dropDuty_groups (tag : Nat) (s : State) : (dropDuty tag s).groups = s.groups := rfl
@[simp] theorem dropDuty_teams (tag : Nat) (s : State) : (dropDuty tag s).teams = s.teams := rfl
@[simp] theorem dropDuty_launches (tag : Nat) (s : State) : (dropDuty tag s).launches = s.launches := rfl
@[simp] theorem dropDuty_cores (tag : Nat) (s : State) : (dropDuty tag s).cores = s.cores := rfl
@[simp] theorem dropDuty_pairs (tag : Nat) (s : State) : (dropDuty tag s).pairs = s.pairs := rfl
@[simp] theorem dropDuty_cards (tag : Nat) (s : State) : (dropDuty tag s).cards = s.cards := rfl
@[simp] theorem dropDuty_mem (tag : Nat) (s : State) : (dropDuty tag s).mem = s.mem := rfl
@[simp] theorem dropDuty_poison (tag : Nat) (s : State) : (dropDuty tag s).poison = s.poison := rfl
@[simp] theorem dropDuty_under (tag : Nat) (s : State) : (dropDuty tag s).under = s.under := rfl
@[simp] theorem dropDuty_underPois (tag : Nat) (s : State) : (dropDuty tag s).underPois = s.underPois := rfl
@[simp] theorem dropDuty_l2 (tag : Nat) (s : State) : (dropDuty tag s).l2 = s.l2 := rfl
@[simp] theorem dropDuty_dirty (tag : Nat) (s : State) : (dropDuty tag s).dirty = s.dirty := rfl
@[simp] theorem dropDuty_apLines (tag : Nat) (s : State) : (dropDuty tag s).apLines = s.apLines := rfl
@[simp] theorem dropDuty_replies (tag : Nat) (s : State) : (dropDuty tag s).replies = s.replies := rfl
@[simp] theorem dropDuty_tlb (tag : Nat) (s : State) : (dropDuty tag s).tlb = s.tlb := rfl
@[simp] theorem dropDuty_walkCache (tag : Nat) (s : State) : (dropDuty tag s).walkCache = s.walkCache := rfl
@[simp] theorem dropDuty_scrubNext (tag : Nat) (s : State) : (dropDuty tag s).scrubNext = s.scrubNext := rfl
@[simp] theorem dropDuty_scrubDue (tag : Nat) (s : State) : (dropDuty tag s).scrubDue = s.scrubDue := rfl
@[simp] theorem dropDuty_faults (tag : Nat) (s : State) : (dropDuty tag s).faults = s.faults := rfl
@[simp] theorem dropDuty_outFaults (tag : Nat) (s : State) : (dropDuty tag s).outFaults = s.outFaults := rfl
@[simp] theorem dropDuty_ports (tag : Nat) (s : State) : (dropDuty tag s).ports = s.ports := rfl
@[simp] theorem dropDuty_outParts (tag : Nat) (s : State) : (dropDuty tag s).outParts = s.outParts := rfl
@[simp] theorem dropDuty_farRetired (tag : Nat) (s : State) : (dropDuty tag s).farRetired = s.farRetired := rfl
@[simp] theorem dropDuty_msgs (tag : Nat) (s : State) : (dropDuty tag s).msgs = s.msgs := rfl
@[simp] theorem dropDuty_runs (tag : Nat) (s : State) : (dropDuty tag s).runs = s.runs := rfl
@[simp] theorem dropDuty_savedParts (tag : Nat) (s : State) : (dropDuty tag s).savedParts = s.savedParts := rfl
@[simp] theorem dropDuty_msis (tag : Nat) (s : State) : (dropDuty tag s).msis = s.msis := rfl
@[simp] theorem dropDuty_msixs (tag : Nat) (s : State) : (dropDuty tag s).msixs = s.msixs := rfl
@[simp] theorem dropDuty_pciWidth (tag : Nat) (s : State) : (dropDuty tag s).pciWidth = s.pciWidth := rfl
@[simp] theorem dropDuty_pciEnd (tag : Nat) (s : State) : (dropDuty tag s).pciEnd = s.pciEnd := rfl
@[simp] theorem dropDuty_ingest (tag : Nat) (s : State) : (dropDuty tag s).ingest = s.ingest := rfl
@[simp] theorem dropDuty_regulators (tag : Nat) (s : State) : (dropDuty tag s).regulators = s.regulators := rfl
@[simp] theorem dropDuty_scans (tag : Nat) (s : State) : (dropDuty tag s).scans = s.scans := rfl
@[simp] theorem dropDuty_scanAt (tag : Nat) (s : State) : (dropDuty tag s).scanAt = s.scanAt := rfl
@[simp] theorem dropDuty_island (tag : Nat) (s : State) : (dropDuty tag s).island = s.island := rfl
@[simp] theorem dropDuty_susp (tag : Nat) (s : State) : (dropDuty tag s).susp = s.susp := rfl
@[simp] theorem dropDuty_slew (tag : Nat) (s : State) : (dropDuty tag s).slew = s.slew := rfl
@[simp] theorem dropDuty_timeFrac (tag : Nat) (s : State) : (dropDuty tag s).timeFrac = s.timeFrac := rfl
@[simp] theorem dropDuty_syncNext (tag : Nat) (s : State) : (dropDuty tag s).syncNext = s.syncNext := rfl
@[simp] theorem dropDuty_linkStop (tag : Nat) (s : State) : (dropDuty tag s).linkStop = s.linkStop := rfl
@[simp] theorem dropDuty_retrain (tag : Nat) (s : State) : (dropDuty tag s).retrain = s.retrain := rfl
@[simp] theorem dropDuty_treeBusy (tag : Nat) (s : State) : (dropDuty tag s).treeBusy = s.treeBusy := rfl
@[simp] theorem dropDuty_treeBased (tag : Nat) (s : State) : (dropDuty tag s).treeBased = s.treeBased := rfl
@[simp] theorem dropDuty_treePart (tag : Nat) (s : State) : (dropDuty tag s).treePart = s.treePart := rfl
@[simp] theorem dropDuty_treeWait (tag : Nat) (s : State) : (dropDuty tag s).treeWait = s.treeWait := rfl
@[simp] theorem dropDuty_tlbinv (tag : Nat) (s : State) : (dropDuty tag s).tlbinv = s.tlbinv := rfl
@[simp] theorem dropDuty_wakeReq (tag : Nat) (s : State) : (dropDuty tag s).wakeReq = s.wakeReq := rfl
@[simp] theorem dropDuty_gating (tag : Nat) (s : State) : (dropDuty tag s).gating = s.gating := rfl
@[simp] theorem dropDuty_gated (tag : Nat) (s : State) : (dropDuty tag s).gated = s.gated := rfl
@[simp] theorem dropDuty_mmr (tag : Nat) (s : State) : (dropDuty tag s).mmr = s.mmr := rfl
@[simp] theorem dropDuty_nextId (tag : Nat) (s : State) : (dropDuty tag s).nextId = s.nextId := rfl
@[simp] theorem dropDuty_decision (tag : Nat) (s : State) : (dropDuty tag s).decision = s.decision := rfl
@[simp] theorem decisionPoint_now (s : State) : (decisionPoint s).now = s.now := rfl
@[simp] theorem decisionPoint_ticks (s : State) : (decisionPoint s).ticks = s.ticks := rfl
@[simp] theorem decisionPoint_script (s : State) : (decisionPoint s).script = s.script := rfl
@[simp] theorem decisionPoint_cur (s : State) : (decisionPoint s).cur = s.cur := rfl
@[simp] theorem decisionPoint_groups (s : State) : (decisionPoint s).groups = s.groups := rfl
@[simp] theorem decisionPoint_teams (s : State) : (decisionPoint s).teams = s.teams := rfl
@[simp] theorem decisionPoint_launches (s : State) : (decisionPoint s).launches = s.launches := rfl
@[simp] theorem decisionPoint_cores (s : State) : (decisionPoint s).cores = s.cores := rfl
@[simp] theorem decisionPoint_pairs (s : State) : (decisionPoint s).pairs = s.pairs := rfl
@[simp] theorem decisionPoint_cards (s : State) : (decisionPoint s).cards = s.cards := rfl
@[simp] theorem decisionPoint_mem (s : State) : (decisionPoint s).mem = s.mem := rfl
@[simp] theorem decisionPoint_poison (s : State) : (decisionPoint s).poison = s.poison := rfl
@[simp] theorem decisionPoint_under (s : State) : (decisionPoint s).under = s.under := rfl
@[simp] theorem decisionPoint_underPois (s : State) : (decisionPoint s).underPois = s.underPois := rfl
@[simp] theorem decisionPoint_l2 (s : State) : (decisionPoint s).l2 = s.l2 := rfl
@[simp] theorem decisionPoint_dirty (s : State) : (decisionPoint s).dirty = s.dirty := rfl
@[simp] theorem decisionPoint_apLines (s : State) : (decisionPoint s).apLines = s.apLines := rfl
@[simp] theorem decisionPoint_replies (s : State) : (decisionPoint s).replies = s.replies := rfl
@[simp] theorem decisionPoint_tlb (s : State) : (decisionPoint s).tlb = s.tlb := rfl
@[simp] theorem decisionPoint_walkCache (s : State) : (decisionPoint s).walkCache = s.walkCache := rfl
@[simp] theorem decisionPoint_scrubNext (s : State) : (decisionPoint s).scrubNext = s.scrubNext := rfl
@[simp] theorem decisionPoint_scrubDue (s : State) : (decisionPoint s).scrubDue = s.scrubDue := rfl
@[simp] theorem decisionPoint_faults (s : State) : (decisionPoint s).faults = s.faults := rfl
@[simp] theorem decisionPoint_outFaults (s : State) : (decisionPoint s).outFaults = s.outFaults := rfl
@[simp] theorem decisionPoint_ports (s : State) : (decisionPoint s).ports = s.ports := rfl
@[simp] theorem decisionPoint_outParts (s : State) : (decisionPoint s).outParts = s.outParts := rfl
@[simp] theorem decisionPoint_farRetired (s : State) : (decisionPoint s).farRetired = s.farRetired := rfl
@[simp] theorem decisionPoint_msgs (s : State) : (decisionPoint s).msgs = s.msgs := rfl
@[simp] theorem decisionPoint_runs (s : State) : (decisionPoint s).runs = s.runs := rfl
@[simp] theorem decisionPoint_duties (s : State) : (decisionPoint s).duties = s.duties := rfl
@[simp] theorem decisionPoint_savedParts (s : State) : (decisionPoint s).savedParts = s.savedParts := rfl
@[simp] theorem decisionPoint_msis (s : State) : (decisionPoint s).msis = s.msis := rfl
@[simp] theorem decisionPoint_msixs (s : State) : (decisionPoint s).msixs = s.msixs := rfl
@[simp] theorem decisionPoint_pciWidth (s : State) : (decisionPoint s).pciWidth = s.pciWidth := rfl
@[simp] theorem decisionPoint_pciEnd (s : State) : (decisionPoint s).pciEnd = s.pciEnd := rfl
@[simp] theorem decisionPoint_ingest (s : State) : (decisionPoint s).ingest = s.ingest := rfl
@[simp] theorem decisionPoint_regulators (s : State) : (decisionPoint s).regulators = s.regulators := rfl
@[simp] theorem decisionPoint_scans (s : State) : (decisionPoint s).scans = s.scans := rfl
@[simp] theorem decisionPoint_scanAt (s : State) : (decisionPoint s).scanAt = s.scanAt := rfl
@[simp] theorem decisionPoint_island (s : State) : (decisionPoint s).island = s.island := rfl
@[simp] theorem decisionPoint_susp (s : State) : (decisionPoint s).susp = s.susp := rfl
@[simp] theorem decisionPoint_slew (s : State) : (decisionPoint s).slew = s.slew := rfl
@[simp] theorem decisionPoint_timeFrac (s : State) : (decisionPoint s).timeFrac = s.timeFrac := rfl
@[simp] theorem decisionPoint_syncNext (s : State) : (decisionPoint s).syncNext = s.syncNext := rfl
@[simp] theorem decisionPoint_linkStop (s : State) : (decisionPoint s).linkStop = s.linkStop := rfl
@[simp] theorem decisionPoint_retrain (s : State) : (decisionPoint s).retrain = s.retrain := rfl
@[simp] theorem decisionPoint_treeBusy (s : State) : (decisionPoint s).treeBusy = s.treeBusy := rfl
@[simp] theorem decisionPoint_treeBased (s : State) : (decisionPoint s).treeBased = s.treeBased := rfl
@[simp] theorem decisionPoint_treePart (s : State) : (decisionPoint s).treePart = s.treePart := rfl
@[simp] theorem decisionPoint_treeWait (s : State) : (decisionPoint s).treeWait = s.treeWait := rfl
@[simp] theorem decisionPoint_tlbinv (s : State) : (decisionPoint s).tlbinv = s.tlbinv := rfl
@[simp] theorem decisionPoint_wakeReq (s : State) : (decisionPoint s).wakeReq = s.wakeReq := rfl
@[simp] theorem decisionPoint_gating (s : State) : (decisionPoint s).gating = s.gating := rfl
@[simp] theorem decisionPoint_gated (s : State) : (decisionPoint s).gated = s.gated := rfl
@[simp] theorem decisionPoint_mmr (s : State) : (decisionPoint s).mmr = s.mmr := rfl
@[simp] theorem decisionPoint_nextId (s : State) : (decisionPoint s).nextId = s.nextId := rfl
@[simp] theorem rest_now (s : State) : (rest s).now = s.now := rfl
@[simp] theorem rest_ticks (s : State) : (rest s).ticks = s.ticks := rfl
@[simp] theorem rest_script (s : State) : (rest s).script = s.script := rfl
@[simp] theorem rest_groups (s : State) : (rest s).groups = s.groups := rfl
@[simp] theorem rest_teams (s : State) : (rest s).teams = s.teams := rfl
@[simp] theorem rest_launches (s : State) : (rest s).launches = s.launches := rfl
@[simp] theorem rest_cores (s : State) : (rest s).cores = s.cores := rfl
@[simp] theorem rest_pairs (s : State) : (rest s).pairs = s.pairs := rfl
@[simp] theorem rest_cards (s : State) : (rest s).cards = s.cards := rfl
@[simp] theorem rest_mem (s : State) : (rest s).mem = s.mem := rfl
@[simp] theorem rest_poison (s : State) : (rest s).poison = s.poison := rfl
@[simp] theorem rest_under (s : State) : (rest s).under = s.under := rfl
@[simp] theorem rest_underPois (s : State) : (rest s).underPois = s.underPois := rfl
@[simp] theorem rest_l2 (s : State) : (rest s).l2 = s.l2 := rfl
@[simp] theorem rest_dirty (s : State) : (rest s).dirty = s.dirty := rfl
@[simp] theorem rest_apLines (s : State) : (rest s).apLines = s.apLines := rfl
@[simp] theorem rest_replies (s : State) : (rest s).replies = s.replies := rfl
@[simp] theorem rest_tlb (s : State) : (rest s).tlb = s.tlb := rfl
@[simp] theorem rest_walkCache (s : State) : (rest s).walkCache = s.walkCache := rfl
@[simp] theorem rest_scrubNext (s : State) : (rest s).scrubNext = s.scrubNext := rfl
@[simp] theorem rest_scrubDue (s : State) : (rest s).scrubDue = s.scrubDue := rfl
@[simp] theorem rest_faults (s : State) : (rest s).faults = s.faults := rfl
@[simp] theorem rest_outFaults (s : State) : (rest s).outFaults = s.outFaults := rfl
@[simp] theorem rest_ports (s : State) : (rest s).ports = s.ports := rfl
@[simp] theorem rest_outParts (s : State) : (rest s).outParts = s.outParts := rfl
@[simp] theorem rest_farRetired (s : State) : (rest s).farRetired = s.farRetired := rfl
@[simp] theorem rest_msgs (s : State) : (rest s).msgs = s.msgs := rfl
@[simp] theorem rest_runs (s : State) : (rest s).runs = s.runs := rfl
@[simp] theorem rest_duties (s : State) : (rest s).duties = s.duties := rfl
@[simp] theorem rest_savedParts (s : State) : (rest s).savedParts = s.savedParts := rfl
@[simp] theorem rest_msis (s : State) : (rest s).msis = s.msis := rfl
@[simp] theorem rest_msixs (s : State) : (rest s).msixs = s.msixs := rfl
@[simp] theorem rest_pciWidth (s : State) : (rest s).pciWidth = s.pciWidth := rfl
@[simp] theorem rest_pciEnd (s : State) : (rest s).pciEnd = s.pciEnd := rfl
@[simp] theorem rest_ingest (s : State) : (rest s).ingest = s.ingest := rfl
@[simp] theorem rest_regulators (s : State) : (rest s).regulators = s.regulators := rfl
@[simp] theorem rest_scans (s : State) : (rest s).scans = s.scans := rfl
@[simp] theorem rest_scanAt (s : State) : (rest s).scanAt = s.scanAt := rfl
@[simp] theorem rest_island (s : State) : (rest s).island = s.island := rfl
@[simp] theorem rest_susp (s : State) : (rest s).susp = s.susp := rfl
@[simp] theorem rest_slew (s : State) : (rest s).slew = s.slew := rfl
@[simp] theorem rest_timeFrac (s : State) : (rest s).timeFrac = s.timeFrac := rfl
@[simp] theorem rest_syncNext (s : State) : (rest s).syncNext = s.syncNext := rfl
@[simp] theorem rest_linkStop (s : State) : (rest s).linkStop = s.linkStop := rfl
@[simp] theorem rest_retrain (s : State) : (rest s).retrain = s.retrain := rfl
@[simp] theorem rest_treeBusy (s : State) : (rest s).treeBusy = s.treeBusy := rfl
@[simp] theorem rest_treeBased (s : State) : (rest s).treeBased = s.treeBased := rfl
@[simp] theorem rest_treePart (s : State) : (rest s).treePart = s.treePart := rfl
@[simp] theorem rest_treeWait (s : State) : (rest s).treeWait = s.treeWait := rfl
@[simp] theorem rest_tlbinv (s : State) : (rest s).tlbinv = s.tlbinv := rfl
@[simp] theorem rest_wakeReq (s : State) : (rest s).wakeReq = s.wakeReq := rfl
@[simp] theorem rest_gating (s : State) : (rest s).gating = s.gating := rfl
@[simp] theorem rest_gated (s : State) : (rest s).gated = s.gated := rfl
@[simp] theorem rest_mmr (s : State) : (rest s).mmr = s.mmr := rfl
@[simp] theorem rest_nextId (s : State) : (rest s).nextId = s.nextId := rfl
@[simp] theorem rest_decision (s : State) : (rest s).decision = s.decision := rfl

/-! ### The reading functions -/

@[simp] theorem setGrp_team (s : State) (g : Nat) (G : Group) (h : Nat) : team (setGrp s g G) h = team s h := rfl
@[simp] theorem setGrp_launch (s : State) (g : Nat) (G : Group) (h : Nat) : launch (setGrp s g G) h = launch s h := rfl
@[simp] theorem setGrp_core (s : State) (g : Nat) (G : Group) (h : Nat) : core (setGrp s g G) h = core s h := rfl
@[simp] theorem setGrp_pair (s : State) (g : Nat) (G : Group) (h : Nat) : pair (setGrp s g G) h = pair s h := rfl
@[simp] theorem setGrp_run (s : State) (g : Nat) (G : Group) (h : Nat) : run (setGrp s g G) h = run s h := rfl
@[simp] theorem setGrp_reg (s : State) (g : Nat) (G : Group) (h : Nat) : reg (setGrp s g G) h = reg s h := rfl
@[simp] theorem setGrp_chanAt (s : State) (g : Nat) (G : Group) (h i : Nat) : chanAt (setGrp s g G) h i = chanAt s h i := rfl
@[simp] theorem setGrp_ingestAt (s : State) (g : Nat) (G : Group) (h : Nat) : ingestAt (setGrp s g G) h = ingestAt s h := rfl
@[simp] theorem setGrp_cardFld (s : State) (g : Nat) (G : Group) (h i j : Nat) : cardFld (setGrp s g G) h i j = cardFld s h i j := rfl
@[simp] theorem modGrp_team (s : State) (g : Nat) (f : Group → Group) (h : Nat) : team (modGrp s g f) h = team s h := rfl
@[simp] theorem modGrp_launch (s : State) (g : Nat) (f : Group → Group) (h : Nat) : launch (modGrp s g f) h = launch s h := rfl
@[simp] theorem modGrp_core (s : State) (g : Nat) (f : Group → Group) (h : Nat) : core (modGrp s g f) h = core s h := rfl
@[simp] theorem modGrp_pair (s : State) (g : Nat) (f : Group → Group) (h : Nat) : pair (modGrp s g f) h = pair s h := rfl
@[simp] theorem modGrp_run (s : State) (g : Nat) (f : Group → Group) (h : Nat) : run (modGrp s g f) h = run s h := rfl
@[simp] theorem modGrp_reg (s : State) (g : Nat) (f : Group → Group) (h : Nat) : reg (modGrp s g f) h = reg s h := rfl
@[simp] theorem modGrp_chanAt (s : State) (g : Nat) (f : Group → Group) (h i : Nat) : chanAt (modGrp s g f) h i = chanAt s h i := rfl
@[simp] theorem modGrp_ingestAt (s : State) (g : Nat) (f : Group → Group) (h : Nat) : ingestAt (modGrp s g f) h = ingestAt s h := rfl
@[simp] theorem modGrp_cardFld (s : State) (g : Nat) (f : Group → Group) (h i j : Nat) : cardFld (modGrp s g f) h i j = cardFld s h i j := rfl
@[simp] theorem setTeam_grp (s : State) (tk : Nat) (T : Team) (h : Nat) : grp (setTeam s tk T) h = grp s h := rfl
@[simp] theorem setTeam_launch (s : State) (tk : Nat) (T : Team) (h : Nat) : launch (setTeam s tk T) h = launch s h := rfl
@[simp] theorem setTeam_core (s : State) (tk : Nat) (T : Team) (h : Nat) : core (setTeam s tk T) h = core s h := rfl
@[simp] theorem setTeam_pair (s : State) (tk : Nat) (T : Team) (h : Nat) : pair (setTeam s tk T) h = pair s h := rfl
@[simp] theorem setTeam_run (s : State) (tk : Nat) (T : Team) (h : Nat) : run (setTeam s tk T) h = run s h := rfl
@[simp] theorem setTeam_reg (s : State) (tk : Nat) (T : Team) (h : Nat) : reg (setTeam s tk T) h = reg s h := rfl
@[simp] theorem setTeam_chanAt (s : State) (tk : Nat) (T : Team) (h i : Nat) : chanAt (setTeam s tk T) h i = chanAt s h i := rfl
@[simp] theorem setTeam_ingestAt (s : State) (tk : Nat) (T : Team) (h : Nat) : ingestAt (setTeam s tk T) h = ingestAt s h := rfl
@[simp] theorem setTeam_cardFld (s : State) (tk : Nat) (T : Team) (h i j : Nat) : cardFld (setTeam s tk T) h i j = cardFld s h i j := rfl
@[simp] theorem modTeam_grp (s : State) (tk : Nat) (f : Team → Team) (h : Nat) : grp (modTeam s tk f) h = grp s h := rfl
@[simp] theorem modTeam_launch (s : State) (tk : Nat) (f : Team → Team) (h : Nat) : launch (modTeam s tk f) h = launch s h := rfl
@[simp] theorem modTeam_core (s : State) (tk : Nat) (f : Team → Team) (h : Nat) : core (modTeam s tk f) h = core s h := rfl
@[simp] theorem modTeam_pair (s : State) (tk : Nat) (f : Team → Team) (h : Nat) : pair (modTeam s tk f) h = pair s h := rfl
@[simp] theorem modTeam_run (s : State) (tk : Nat) (f : Team → Team) (h : Nat) : run (modTeam s tk f) h = run s h := rfl
@[simp] theorem modTeam_reg (s : State) (tk : Nat) (f : Team → Team) (h : Nat) : reg (modTeam s tk f) h = reg s h := rfl
@[simp] theorem modTeam_chanAt (s : State) (tk : Nat) (f : Team → Team) (h i : Nat) : chanAt (modTeam s tk f) h i = chanAt s h i := rfl
@[simp] theorem modTeam_ingestAt (s : State) (tk : Nat) (f : Team → Team) (h : Nat) : ingestAt (modTeam s tk f) h = ingestAt s h := rfl
@[simp] theorem modTeam_cardFld (s : State) (tk : Nat) (f : Team → Team) (h i j : Nat) : cardFld (modTeam s tk f) h i j = cardFld s h i j := rfl
@[simp] theorem modLaunch_grp (s : State) (lk : Nat) (f : Launch → Launch) (h : Nat) : grp (modLaunch s lk f) h = grp s h := rfl
@[simp] theorem modLaunch_team (s : State) (lk : Nat) (f : Launch → Launch) (h : Nat) : team (modLaunch s lk f) h = team s h := rfl
@[simp] theorem modLaunch_core (s : State) (lk : Nat) (f : Launch → Launch) (h : Nat) : core (modLaunch s lk f) h = core s h := rfl
@[simp] theorem modLaunch_pair (s : State) (lk : Nat) (f : Launch → Launch) (h : Nat) : pair (modLaunch s lk f) h = pair s h := rfl
@[simp] theorem modLaunch_run (s : State) (lk : Nat) (f : Launch → Launch) (h : Nat) : run (modLaunch s lk f) h = run s h := rfl
@[simp] theorem modLaunch_reg (s : State) (lk : Nat) (f : Launch → Launch) (h : Nat) : reg (modLaunch s lk f) h = reg s h := rfl
@[simp] theorem modLaunch_chanAt (s : State) (lk : Nat) (f : Launch → Launch) (h i : Nat) : chanAt (modLaunch s lk f) h i = chanAt s h i := rfl
@[simp] theorem modLaunch_ingestAt (s : State) (lk : Nat) (f : Launch → Launch) (h : Nat) : ingestAt (modLaunch s lk f) h = ingestAt s h := rfl
@[simp] theorem modLaunch_cardFld (s : State) (lk : Nat) (f : Launch → Launch) (h i j : Nat) : cardFld (modLaunch s lk f) h i j = cardFld s h i j := rfl
@[simp] theorem modCore_grp (s : State) (c : Nat) (f : Core → Core) (h : Nat) : grp (modCore s c f) h = grp s h := rfl
@[simp] theorem modCore_team (s : State) (c : Nat) (f : Core → Core) (h : Nat) : team (modCore s c f) h = team s h := rfl
@[simp] theorem modCore_launch (s : State) (c : Nat) (f : Core → Core) (h : Nat) : launch (modCore s c f) h = launch s h := rfl
@[simp] theorem modCore_pair (s : State) (c : Nat) (f : Core → Core) (h : Nat) : pair (modCore s c f) h = pair s h := rfl
@[simp] theorem modCore_run (s : State) (c : Nat) (f : Core → Core) (h : Nat) : run (modCore s c f) h = run s h := rfl
@[simp] theorem modCore_reg (s : State) (c : Nat) (f : Core → Core) (h : Nat) : reg (modCore s c f) h = reg s h := rfl
@[simp] theorem modCore_chanAt (s : State) (c : Nat) (f : Core → Core) (h i : Nat) : chanAt (modCore s c f) h i = chanAt s h i := rfl
@[simp] theorem modCore_ingestAt (s : State) (c : Nat) (f : Core → Core) (h : Nat) : ingestAt (modCore s c f) h = ingestAt s h := rfl
@[simp] theorem modCore_cardFld (s : State) (c : Nat) (f : Core → Core) (h i j : Nat) : cardFld (modCore s c f) h i j = cardFld s h i j := rfl
@[simp] theorem modPair_grp (s : State) (p : Nat) (f : Pair → Pair) (h : Nat) : grp (modPair s p f) h = grp s h := rfl
@[simp] theorem modPair_team (s : State) (p : Nat) (f : Pair → Pair) (h : Nat) : team (modPair s p f) h = team s h := rfl
@[simp] theorem modPair_launch (s : State) (p : Nat) (f : Pair → Pair) (h : Nat) : launch (modPair s p f) h = launch s h := rfl
@[simp] theorem modPair_core (s : State) (p : Nat) (f : Pair → Pair) (h : Nat) : core (modPair s p f) h = core s h := rfl
@[simp] theorem modPair_run (s : State) (p : Nat) (f : Pair → Pair) (h : Nat) : run (modPair s p f) h = run s h := rfl
@[simp] theorem modPair_reg (s : State) (p : Nat) (f : Pair → Pair) (h : Nat) : reg (modPair s p f) h = reg s h := rfl
@[simp] theorem modPair_chanAt (s : State) (p : Nat) (f : Pair → Pair) (h i : Nat) : chanAt (modPair s p f) h i = chanAt s h i := rfl
@[simp] theorem modPair_ingestAt (s : State) (p : Nat) (f : Pair → Pair) (h : Nat) : ingestAt (modPair s p f) h = ingestAt s h := rfl
@[simp] theorem modPair_cardFld (s : State) (p : Nat) (f : Pair → Pair) (h i j : Nat) : cardFld (modPair s p f) h i j = cardFld s h i j := rfl
@[simp] theorem setMmr_grp (s : State) (off x : Nat) (h : Nat) : grp (setMmr s off x) h = grp s h := rfl
@[simp] theorem setMmr_team (s : State) (off x : Nat) (h : Nat) : team (setMmr s off x) h = team s h := rfl
@[simp] theorem setMmr_launch (s : State) (off x : Nat) (h : Nat) : launch (setMmr s off x) h = launch s h := rfl
@[simp] theorem setMmr_core (s : State) (off x : Nat) (h : Nat) : core (setMmr s off x) h = core s h := rfl
@[simp] theorem setMmr_pair (s : State) (off x : Nat) (h : Nat) : pair (setMmr s off x) h = pair s h := rfl
@[simp] theorem setMmr_run (s : State) (off x : Nat) (h : Nat) : run (setMmr s off x) h = run s h := rfl
@[simp] theorem setMmr_chanAt (s : State) (off x : Nat) (h i : Nat) : chanAt (setMmr s off x) h i = chanAt s h i := rfl
@[simp] theorem setMmr_ingestAt (s : State) (off x : Nat) (h : Nat) : ingestAt (setMmr s off x) h = ingestAt s h := rfl
@[simp] theorem setMmr_cardFld (s : State) (off x : Nat) (h i j : Nat) : cardFld (setMmr s off x) h i j = cardFld s h i j := rfl
@[simp] theorem setReg_grp (s : State) (off x : Nat) (h : Nat) : grp (setReg s off x) h = grp s h := rfl
@[simp] theorem setReg_team (s : State) (off x : Nat) (h : Nat) : team (setReg s off x) h = team s h := rfl
@[simp] theorem setReg_launch (s : State) (off x : Nat) (h : Nat) : launch (setReg s off x) h = launch s h := rfl
@[simp] theorem setReg_core (s : State) (off x : Nat) (h : Nat) : core (setReg s off x) h = core s h := rfl
@[simp] theorem setReg_pair (s : State) (off x : Nat) (h : Nat) : pair (setReg s off x) h = pair s h := rfl
@[simp] theorem setReg_run (s : State) (off x : Nat) (h : Nat) : run (setReg s off x) h = run s h := rfl
@[simp] theorem setReg_chanAt (s : State) (off x : Nat) (h i : Nat) : chanAt (setReg s off x) h i = chanAt s h i := rfl
@[simp] theorem setReg_ingestAt (s : State) (off x : Nat) (h : Nat) : ingestAt (setReg s off x) h = ingestAt s h := rfl
@[simp] theorem setReg_cardFld (s : State) (off x : Nat) (h i j : Nat) : cardFld (setReg s off x) h i j = cardFld s h i j := rfl
@[simp] theorem setCardFld_grp (n hi lo v : Nat) (s : State) (h : Nat) : grp (setCardFld n hi lo v s) h = grp s h := rfl
@[simp] theorem setCardFld_team (n hi lo v : Nat) (s : State) (h : Nat) : team (setCardFld n hi lo v s) h = team s h := rfl
@[simp] theorem setCardFld_launch (n hi lo v : Nat) (s : State) (h : Nat) : launch (setCardFld n hi lo v s) h = launch s h := rfl
@[simp] theorem setCardFld_core (n hi lo v : Nat) (s : State) (h : Nat) : core (setCardFld n hi lo v s) h = core s h := rfl
@[simp] theorem setCardFld_pair (n hi lo v : Nat) (s : State) (h : Nat) : pair (setCardFld n hi lo v s) h = pair s h := rfl
@[simp] theorem setCardFld_run (n hi lo v : Nat) (s : State) (h : Nat) : run (setCardFld n hi lo v s) h = run s h := rfl
@[simp] theorem setCardFld_reg (n hi lo v : Nat) (s : State) (h : Nat) : reg (setCardFld n hi lo v s) h = reg s h := rfl
@[simp] theorem setCardFld_chanAt (n hi lo v : Nat) (s : State) (h i : Nat) : chanAt (setCardFld n hi lo v s) h i = chanAt s h i := rfl
@[simp] theorem setCardFld_ingestAt (n hi lo v : Nat) (s : State) (h : Nat) : ingestAt (setCardFld n hi lo v s) h = ingestAt s h := rfl
@[simp] theorem modRun_grp (n : Nat) (f : CardRun → CardRun) (s : State) (h : Nat) : grp (modRun n f s) h = grp s h := rfl
@[simp] theorem modRun_team (n : Nat) (f : CardRun → CardRun) (s : State) (h : Nat) : team (modRun n f s) h = team s h := rfl
@[simp] theorem modRun_launch (n : Nat) (f : CardRun → CardRun) (s : State) (h : Nat) : launch (modRun n f s) h = launch s h := rfl
@[simp] theorem modRun_core (n : Nat) (f : CardRun → CardRun) (s : State) (h : Nat) : core (modRun n f s) h = core s h := rfl
@[simp] theorem modRun_pair (n : Nat) (f : CardRun → CardRun) (s : State) (h : Nat) : pair (modRun n f s) h = pair s h := rfl
@[simp] theorem modRun_reg (n : Nat) (f : CardRun → CardRun) (s : State) (h : Nat) : reg (modRun n f s) h = reg s h := rfl
@[simp] theorem modRun_chanAt (n : Nat) (f : CardRun → CardRun) (s : State) (h i : Nat) : chanAt (modRun n f s) h i = chanAt s h i := rfl
@[simp] theorem modRun_ingestAt (n : Nat) (f : CardRun → CardRun) (s : State) (h : Nat) : ingestAt (modRun n f s) h = ingestAt s h := rfl
@[simp] theorem modRun_cardFld (n : Nat) (f : CardRun → CardRun) (s : State) (h i j : Nat) : cardFld (modRun n f s) h i j = cardFld s h i j := rfl
@[simp] theorem setChan_grp (g port : Nat) (x : Chan) (s : State) (h : Nat) : grp (setChan g port x s) h = grp s h := rfl
@[simp] theorem setChan_team (g port : Nat) (x : Chan) (s : State) (h : Nat) : team (setChan g port x s) h = team s h := rfl
@[simp] theorem setChan_launch (g port : Nat) (x : Chan) (s : State) (h : Nat) : launch (setChan g port x s) h = launch s h := rfl
@[simp] theorem setChan_core (g port : Nat) (x : Chan) (s : State) (h : Nat) : core (setChan g port x s) h = core s h := rfl
@[simp] theorem setChan_pair (g port : Nat) (x : Chan) (s : State) (h : Nat) : pair (setChan g port x s) h = pair s h := rfl
@[simp] theorem setChan_run (g port : Nat) (x : Chan) (s : State) (h : Nat) : run (setChan g port x s) h = run s h := rfl
@[simp] theorem setChan_reg (g port : Nat) (x : Chan) (s : State) (h : Nat) : reg (setChan g port x s) h = reg s h := rfl
@[simp] theorem setChan_ingestAt (g port : Nat) (x : Chan) (s : State) (h : Nat) : ingestAt (setChan g port x s) h = ingestAt s h := rfl
@[simp] theorem setChan_cardFld (g port : Nat) (x : Chan) (s : State) (h i j : Nat) : cardFld (setChan g port x s) h i j = cardFld s h i j := rfl
@[simp] theorem setIngest_grp (k : Nat) (e : Ingest) (s : State) (h : Nat) : grp (setIngest k e s) h = grp s h := rfl
@[simp] theorem setIngest_team (k : Nat) (e : Ingest) (s : State) (h : Nat) : team (setIngest k e s) h = team s h := rfl
@[simp] theorem setIngest_launch (k : Nat) (e : Ingest) (s : State) (h : Nat) : launch (setIngest k e s) h = launch s h := rfl
@[simp] theorem setIngest_core (k : Nat) (e : Ingest) (s : State) (h : Nat) : core (setIngest k e s) h = core s h := rfl
@[simp] theorem setIngest_pair (k : Nat) (e : Ingest) (s : State) (h : Nat) : pair (setIngest k e s) h = pair s h := rfl
@[simp] theorem setIngest_run (k : Nat) (e : Ingest) (s : State) (h : Nat) : run (setIngest k e s) h = run s h := rfl
@[simp] theorem setIngest_reg (k : Nat) (e : Ingest) (s : State) (h : Nat) : reg (setIngest k e s) h = reg s h := rfl
@[simp] theorem setIngest_chanAt (k : Nat) (e : Ingest) (s : State) (h i : Nat) : chanAt (setIngest k e s) h i = chanAt s h i := rfl
@[simp] theorem setIngest_cardFld (k : Nat) (e : Ingest) (s : State) (h i j : Nat) : cardFld (setIngest k e s) h i j = cardFld s h i j := rfl
@[simp] theorem setScan_grp (x : Scan) (s : State) (h : Nat) : grp (setScan x s) h = grp s h := rfl
@[simp] theorem setScan_team (x : Scan) (s : State) (h : Nat) : team (setScan x s) h = team s h := rfl
@[simp] theorem setScan_launch (x : Scan) (s : State) (h : Nat) : launch (setScan x s) h = launch s h := rfl
@[simp] theorem setScan_core (x : Scan) (s : State) (h : Nat) : core (setScan x s) h = core s h := rfl
@[simp] theorem setScan_pair (x : Scan) (s : State) (h : Nat) : pair (setScan x s) h = pair s h := rfl
@[simp] theorem setScan_run (x : Scan) (s : State) (h : Nat) : run (setScan x s) h = run s h := rfl
@[simp] theorem setScan_reg (x : Scan) (s : State) (h : Nat) : reg (setScan x s) h = reg s h := rfl
@[simp] theorem setScan_chanAt (x : Scan) (s : State) (h i : Nat) : chanAt (setScan x s) h i = chanAt s h i := rfl
@[simp] theorem setScan_ingestAt (x : Scan) (s : State) (h : Nat) : ingestAt (setScan x s) h = ingestAt s h := rfl
@[simp] theorem setScan_cardFld (x : Scan) (s : State) (h i j : Nat) : cardFld (setScan x s) h i j = cardFld s h i j := rfl
@[simp] theorem askDuty_grp (d : Duty) (s : State) (h : Nat) : grp (askDuty d s) h = grp s h := rfl
@[simp] theorem askDuty_team (d : Duty) (s : State) (h : Nat) : team (askDuty d s) h = team s h := rfl
@[simp] theorem askDuty_launch (d : Duty) (s : State) (h : Nat) : launch (askDuty d s) h = launch s h := rfl
@[simp] theorem askDuty_core (d : Duty) (s : State) (h : Nat) : core (askDuty d s) h = core s h := rfl
@[simp] theorem askDuty_pair (d : Duty) (s : State) (h : Nat) : pair (askDuty d s) h = pair s h := rfl
@[simp] theorem askDuty_run (d : Duty) (s : State) (h : Nat) : run (askDuty d s) h = run s h := rfl
@[simp] theorem askDuty_reg (d : Duty) (s : State) (h : Nat) : reg (askDuty d s) h = reg s h := rfl
@[simp] theorem askDuty_chanAt (d : Duty) (s : State) (h i : Nat) : chanAt (askDuty d s) h i = chanAt s h i := rfl
@[simp] theorem askDuty_ingestAt (d : Duty) (s : State) (h : Nat) : ingestAt (askDuty d s) h = ingestAt s h := rfl
@[simp] theorem askDuty_cardFld (d : Duty) (s : State) (h i j : Nat) : cardFld (askDuty d s) h i j = cardFld s h i j := rfl
@[simp] theorem dropDuty_grp (tag : Nat) (s : State) (h : Nat) : grp (dropDuty tag s) h = grp s h := rfl
@[simp] theorem dropDuty_team (tag : Nat) (s : State) (h : Nat) : team (dropDuty tag s) h = team s h := rfl
@[simp] theorem dropDuty_launch (tag : Nat) (s : State) (h : Nat) : launch (dropDuty tag s) h = launch s h := rfl
@[simp] theorem dropDuty_core (tag : Nat) (s : State) (h : Nat) : core (dropDuty tag s) h = core s h := rfl
@[simp] theorem dropDuty_pair (tag : Nat) (s : State) (h : Nat) : pair (dropDuty tag s) h = pair s h := rfl
@[simp] theorem dropDuty_run (tag : Nat) (s : State) (h : Nat) : run (dropDuty tag s) h = run s h := rfl
@[simp] theorem dropDuty_reg (tag : Nat) (s : State) (h : Nat) : reg (dropDuty tag s) h = reg s h := rfl
@[simp] theorem dropDuty_chanAt (tag : Nat) (s : State) (h i : Nat) : chanAt (dropDuty tag s) h i = chanAt s h i := rfl
@[simp] theorem dropDuty_ingestAt (tag : Nat) (s : State) (h : Nat) : ingestAt (dropDuty tag s) h = ingestAt s h := rfl
@[simp] theorem dropDuty_cardFld (tag : Nat) (s : State) (h i j : Nat) : cardFld (dropDuty tag s) h i j = cardFld s h i j := rfl
@[simp] theorem decisionPoint_grp (s : State) (h : Nat) : grp (decisionPoint s) h = grp s h := rfl
@[simp] theorem decisionPoint_team (s : State) (h : Nat) : team (decisionPoint s) h = team s h := rfl
@[simp] theorem decisionPoint_launch (s : State) (h : Nat) : launch (decisionPoint s) h = launch s h := rfl
@[simp] theorem decisionPoint_core (s : State) (h : Nat) : core (decisionPoint s) h = core s h := rfl
@[simp] theorem decisionPoint_pair (s : State) (h : Nat) : pair (decisionPoint s) h = pair s h := rfl
@[simp] theorem decisionPoint_run (s : State) (h : Nat) : run (decisionPoint s) h = run s h := rfl
@[simp] theorem decisionPoint_reg (s : State) (h : Nat) : reg (decisionPoint s) h = reg s h := rfl
@[simp] theorem decisionPoint_chanAt (s : State) (h i : Nat) : chanAt (decisionPoint s) h i = chanAt s h i := rfl
@[simp] theorem decisionPoint_ingestAt (s : State) (h : Nat) : ingestAt (decisionPoint s) h = ingestAt s h := rfl
@[simp] theorem decisionPoint_cardFld (s : State) (h i j : Nat) : cardFld (decisionPoint s) h i j = cardFld s h i j := rfl
@[simp] theorem rest_grp (s : State) (h : Nat) : grp (rest s) h = grp s h := rfl
@[simp] theorem rest_team (s : State) (h : Nat) : team (rest s) h = team s h := rfl
@[simp] theorem rest_launch (s : State) (h : Nat) : launch (rest s) h = launch s h := rfl
@[simp] theorem rest_core (s : State) (h : Nat) : core (rest s) h = core s h := rfl
@[simp] theorem rest_pair (s : State) (h : Nat) : pair (rest s) h = pair s h := rfl
@[simp] theorem rest_run (s : State) (h : Nat) : run (rest s) h = run s h := rfl
@[simp] theorem rest_reg (s : State) (h : Nat) : reg (rest s) h = reg s h := rfl
@[simp] theorem rest_chanAt (s : State) (h i : Nat) : chanAt (rest s) h i = chanAt s h i := rfl
@[simp] theorem rest_ingestAt (s : State) (h : Nat) : ingestAt (rest s) h = ingestAt s h := rfl
@[simp] theorem rest_cardFld (s : State) (h i j : Nat) : cardFld (rest s) h i j = cardFld s h i j := rfl

/-! ### What is read where it was written -/

theorem nfind_nput_self {α : Type} (m : NMap α) (x : Nat) (a : α) : nfind (nput m x a) x = some a := by
  induction m with
  | nil => simp [nput, nfind]
  | cons e m ih =>
    obtain ⟨k, v⟩ := e
    simp only [nput]
    split
    · simp [nfind]
    · split
      · simp [nfind]
      · simp [nfind, *]

theorem nfind_nput_ne {α : Type} (m : NMap α) {x y : Nat} (a : α) (h : y ≠ x) : nfind (nput m x a) y = nfind m y := by
  induction m with
  | nil => simp [nput, nfind, h.symm]
  | cons e m ih =>
    obtain ⟨k, v⟩ := e
    simp only [nput]
    split
    · subst_vars; simp [nfind, h.symm]
    · split
      · simp [nfind, h.symm]
      · simp only [nfind]; split
        · rfl
        · exact ih

@[simp] theorem nget_nput_self {α : Type} (d : α) (m : NMap α) (x : Nat) (a : α) : nget d (nput m x a) x = a := by
  simp [nget, nfind_nput_self]

theorem nget_nput_ne {α : Type} (d : α) (m : NMap α) {x y : Nat} (a : α) (h : y ≠ x) :
    nget d (nput m x a) y = nget d m y := by
  simp [nget, nfind_nput_ne m a h]

theorem ndel_cons {α : Type} (e : Nat × α) (m : NMap α) (x : Nat) :
    ndel (e :: m) x = if e.1 = x then ndel m x else e :: ndel m x := by
  by_cases h : e.1 = x <;> simp [ndel, h]

theorem nfind_ndel_self {α : Type} (m : NMap α) (x : Nat) : nfind (ndel m x) x = none := by
  induction m with
  | nil => rfl
  | cons e m ih =>
    rw [ndel_cons]
    split
    · exact ih
    · obtain ⟨k, v⟩ := e; simp_all [nfind]

theorem nfind_ndel_ne {α : Type} (m : NMap α) {x y : Nat} (h : y ≠ x) : nfind (ndel m x) y = nfind m y := by
  induction m with
  | nil => rfl
  | cons e m ih =>
    obtain ⟨k, v⟩ := e
    rw [ndel_cons]
    split
    · simp only at *; subst_vars; simp [nfind, ih, h.symm]
    · simp [nfind, ih]

@[simp] theorem nget_nset_self {α : Type} [DecidableEq α] (d : α) (m : NMap α) (x : Nat) (a : α) :
    nget d (nset d m x a) x = a := by
  unfold nset
  split
  · simp [nget, nfind_ndel_self, *]
  · simp

theorem nget_nset_ne {α : Type} [DecidableEq α] (d : α) (m : NMap α) {x y : Nat} (a : α) (h : y ≠ x) :
    nget d (nset d m x a) y = nget d m y := by
  unfold nset
  split
  · simp [nget, nfind_ndel_ne m h]
  · exact nget_nput_ne d m a h

@[simp] theorem grp_setGrp (s : State) (g : Nat) (G : Group) : grp (setGrp s g G) g = G := nget_nput_self ..
theorem grp_setGrp_ne (s : State) {g h : Nat} (G : Group) (n : h ≠ g) : grp (setGrp s g G) h = grp s h :=
  nget_nput_ne _ _ _ n
@[simp] theorem grp_modGrp (s : State) (g : Nat) (f : Group → Group) : grp (modGrp s g f) g = f (grp s g) :=
  nget_nput_self ..
theorem grp_modGrp_ne (s : State) {g h : Nat} (f : Group → Group) (n : h ≠ g) : grp (modGrp s g f) h = grp s h :=
  nget_nput_ne _ _ _ n
@[simp] theorem team_setTeam (s : State) (tk : Nat) (T : Team) : team (setTeam s tk T) tk = T := nget_nput_self ..
theorem team_setTeam_ne (s : State) {tk h : Nat} (T : Team) (n : h ≠ tk) : team (setTeam s tk T) h = team s h :=
  nget_nput_ne _ _ _ n
@[simp] theorem team_modTeam (s : State) (tk : Nat) (f : Team → Team) : team (modTeam s tk f) tk = f (team s tk) :=
  nget_nput_self ..
theorem team_modTeam_ne (s : State) {tk h : Nat} (f : Team → Team) (n : h ≠ tk) :
    team (modTeam s tk f) h = team s h := nget_nput_ne _ _ _ n
@[simp] theorem launch_modLaunch (s : State) (lk : Nat) (f : Launch → Launch) :
    launch (modLaunch s lk f) lk = f (launch s lk) := nget_nput_self ..
theorem launch_modLaunch_ne (s : State) {lk h : Nat} (f : Launch → Launch) (n : h ≠ lk) :
    launch (modLaunch s lk f) h = launch s h := nget_nput_ne _ _ _ n
@[simp] theorem core_modCore (s : State) (c : Nat) (f : Core → Core) : core (modCore s c f) c = f (core s c) :=
  nget_nput_self ..
theorem core_modCore_ne (s : State) {c h : Nat} (f : Core → Core) (n : h ≠ c) :
    core (modCore s c f) h = core s h := nget_nput_ne _ _ _ n
@[simp] theorem pair_modPair (s : State) (p : Nat) (f : Pair → Pair) : pair (modPair s p f) p = f (pair s p) :=
  nget_nput_self ..
theorem pair_modPair_ne (s : State) {p h : Nat} (f : Pair → Pair) (n : h ≠ p) :
    pair (modPair s p f) h = pair s h := nget_nput_ne _ _ _ n
@[simp] theorem run_modRun (n : Nat) (f : CardRun → CardRun) (s : State) : run (modRun n f s) n = f (run s n) :=
  nget_nput_self ..
theorem run_modRun_ne {n h : Nat} (f : CardRun → CardRun) (s : State) (k : h ≠ n) : run (modRun n f s) h = run s h :=
  nget_nput_ne _ _ _ k
@[simp] theorem ingestAt_setIngest (k : Nat) (e : Ingest) (s : State) : ingestAt (setIngest k e s) k = e :=
  nget_nput_self ..
@[simp] theorem chanAt_setChan (g port : Nat) (x : Chan) (s : State) : chanAt (setChan g port x s) g port = x :=
  nget_nset_self ..
theorem reg_setReg (s : State) (off x : Nat) : reg (setReg s off x) off = x % 2 ^ 64 := by
  simp only [reg, setReg, mmr, setMmr, nget_nput_self, BitVec.toNat_ofNat]
theorem reg_setReg_ne (s : State) {off h : Nat} (x : Nat) (n : h ≠ off) : reg (setReg s off x) h = reg s h := by
  simp only [reg, setReg, mmr, setMmr, nget_nput_ne _ _ _ n]

end Sys2Proof.Machine
end

