-- ==== Sys2Proof/Laws/Memory.lean ====
section
/-!
SUPPORT. Sys2Proof/Laws/Memory.lean: finite maps and memory: the canonical form that every operation keeps, what is
read after a write, which bytes a write leaves alone, and the byte order of R10.
-/
namespace Sys2Proof.Machine

/-! ### The canonical form of a map -/

theorem nwfFrom_mono {α : Type} [DecidableEq α] (d : α) {lo hi : Nat} (h : lo ≤ hi) :
    ∀ m : NMap α, nwfFrom d hi m = true → nwfFrom d lo m = true
  | [], _ => rfl
  | (k, v) :: m, hm => by
    simp only [nwfFrom, Bool.and_eq_true, decide_eq_true_eq] at hm ⊢
    exact ⟨⟨by omega, hm.1.2⟩, hm.2⟩

theorem nwfFrom_nput {α : Type} [DecidableEq α] (d a : α) (ha : a ≠ d) (x : Nat) :
    ∀ (m : NMap α) (lo : Nat), lo ≤ x → nwfFrom d lo m = true → nwfFrom d lo (nput m x a) = true
  | [], lo, hx, _ => by simp [nput, nwfFrom, ha, hx]
  | (k, v) :: m, lo, hx, hm => by
    simp only [nwfFrom, Bool.and_eq_true, decide_eq_true_eq] at hm
    simp only [nput]
    split
    · subst_vars
      simp [nwfFrom, ha, hx, hm.2]
    · split
      · simp only [nwfFrom, Bool.and_eq_true, decide_eq_true_eq]
        exact ⟨⟨hx, ha⟩, ⟨by omega, hm.1.2⟩, hm.2⟩
      · simp only [nwfFrom, Bool.and_eq_true, decide_eq_true_eq]
        exact ⟨hm.1, nwfFrom_nput d a ha x m (k + 1) (by omega) hm.2⟩

theorem nwfFrom_filter {α : Type} [DecidableEq α] (d : α) (p : Nat × α → Bool) :
    ∀ (m : NMap α) (lo : Nat), nwfFrom d lo m = true → nwfFrom d lo (m.filter p) = true
  | [], _, _ => rfl
  | (k, v) :: m, lo, hm => by
    simp only [nwfFrom, Bool.and_eq_true, decide_eq_true_eq] at hm
    have ih := nwfFrom_filter d p m (k + 1) hm.2
    by_cases h : p (k, v) = true
    · simp [h, nwfFrom, hm.1, ih]
    · rw [List.filter_cons_of_neg h]
      exact nwfFrom_mono d (by omega) _ ih

/-- Putting a value that is not the default keeps the canonical form. -/
theorem nwf_nput {α : Type} [DecidableEq α] {d a : α} (ha : a ≠ d) (x : Nat) {m : NMap α} (h : nwf d m = true) :
    nwf d (nput m x a) = true := nwfFrom_nput d a ha x m 0 (Nat.zero_le _) h

/-- Removing entries keeps the canonical form. -/
theorem nwf_filter {α : Type} [DecidableEq α] {d : α} (p : Nat × α → Bool) {m : NMap α} (h : nwf d m = true) :
    nwf d (m.filter p) = true := nwfFrom_filter d p m 0 h

theorem nwf_ndel {α : Type} [DecidableEq α] {d : α} (x : Nat) {m : NMap α} (h : nwf d m = true) :
    nwf d (ndel m x) = true := nwf_filter _ h

/-- Writing any value keeps the canonical form. -/
theorem nwf_nset {α : Type} [DecidableEq α] {d : α} (x : Nat) (a : α) {m : NMap α} (h : nwf d m = true) :
    nwf d (nset d m x a) = true := by
  unfold nset
  split
  · exact nwf_ndel x h
  · exact nwf_nput ‹_› x h

/-! ### Bytes -/

/-- Writing a byte keeps the canonical form. -/
theorem nwf_memSet (a : Nat) (b : Byte) {m : List Host.Cell} (h : nwf 0 m = true) : nwf 0 (memSet m a b) = true :=
  nwf_nset a b h

/-- Writing bytes keeps the canonical form. -/
theorem nwf_memWrite : ∀ (bytes : List Byte) (a : Nat) {m : List Host.Cell}, nwf 0 m = true →
    nwf 0 (memWrite m a bytes) = true
  | [], _, _, h => h
  | b :: bs, a, _, h => nwf_memWrite bs (a + 1) (nwf_memSet a b h)

@[simp] theorem memGet_memSet (m : List Host.Cell) (a : Nat) (b : Byte) : memGet (memSet m a b) a = b :=
  nget_nset_self ..

theorem memGet_memSet_ne (m : List Host.Cell) {a x : Nat} (b : Byte) (h : x ≠ a) :
    memGet (memSet m a b) x = memGet m x := nget_nset_ne _ _ _ h

/-- Bytes outside the range that is written stay. -/
theorem memGet_memWrite_out : ∀ (bytes : List Byte) (m : List Host.Cell) (a x : Nat),
    x < a ∨ a + bytes.length ≤ x → memGet (memWrite m a bytes) x = memGet m x
  | [], _, _, _, _ => rfl
  | b :: bs, m, a, x, h => by
    simp only [List.length_cons] at h
    rw [memWrite, memGet_memWrite_out bs _ _ _ (by omega), memGet_memSet_ne _ _ (by omega)]

/-- Each byte that is written is read back. -/
theorem memGet_memWrite_in : ∀ (bytes : List Byte) (m : List Host.Cell) (a k : Nat), k < bytes.length →
    memGet (memWrite m a bytes) (a + k) = bytes.getD k 0
  | [], _, _, _, h => by simp at h
  | b :: bs, m, a, 0, _ => by
    rw [memWrite, memGet_memWrite_out bs _ _ _ (by omega)]
    simp
  | b :: bs, m, a, k + 1, h => by
    rw [memWrite, show a + (k + 1) = a + 1 + k by omega,
      memGet_memWrite_in bs _ _ _ (by simpa using h)]
    simp

@[simp] theorem memRead_length (m : List Host.Cell) : ∀ (a n : Nat), (memRead m a n).length = n
  | _, 0 => rfl
  | a, n + 1 => by simp [memRead, memRead_length m (a + 1) n]

theorem memRead_getD (m : List Host.Cell) : ∀ (n a k : Nat), k < n → (memRead m a n).getD k 0 = memGet m (a + k)
  | 0, _, _, h => by omega
  | n + 1, a, 0, _ => by simp [memRead]
  | n + 1, a, k + 1, h => by
    have := memRead_getD m n (a + 1) k (by omega)
    simp only [memRead, List.getD_cons_succ, this]
    congr 1; omega

/-! ### Byte order (R10) -/

@[simp] theorem toBytes_length : ∀ (n x : Nat), (toBytes n x).length = n
  | 0, _ => rfl
  | n + 1, x => by simp [toBytes, toBytes_length n]

theorem ofBytes_toBytes : ∀ (n x : Nat), ofBytes (toBytes n x) = x % 256 ^ n
  | 0, x => by simp [toBytes, ofBytes, Nat.mod_one]
  | n + 1, x => by
    rw [toBytes, ofBytes, ofBytes_toBytes n, BitVec.toNat_ofNat, Nat.pow_succ' (m := 256), Nat.mod_mul]

theorem ofBytes_lt : ∀ bs : List Byte, ofBytes bs < 256 ^ bs.length
  | [] => by simp [ofBytes]
  | b :: bs => by
    have h := ofBytes_lt bs
    have hb : b.toNat < 256 := b.isLt
    simp only [ofBytes, List.length_cons, pow_succ]
    omega

theorem toBytes_ofBytes : ∀ bs : List Byte, toBytes bs.length (ofBytes bs) = bs
  | [] => rfl
  | b :: bs => by
    have hb : b.toNat < 256 := b.isLt
    simp only [List.length_cons, toBytes, ofBytes, List.cons.injEq]
    refine ⟨BitVec.eq_of_toNat_eq (by simp; omega), ?_⟩
    rw [show (b.toNat + 256 * ofBytes bs) / 256 = ofBytes bs by omega]
    exact toBytes_ofBytes bs

/-! ### Writes at the L2 (R252, R272, R277, R278, R373) -/

theorem mem_nput {α : Type} {k : Nat} {a : α} {x : Nat × α} : ∀ {m : NMap α}, x ∈ nput m k a → x = (k, a) ∨ x ∈ m
  | [], h => by simpa [nput] using h
  | (k', b) :: m, h => by
    simp only [nput] at h
    split at h
    · exact (List.mem_cons.1 h).imp id (List.mem_cons_of_mem _)
    · split at h
      · exact List.mem_cons.1 h
      · rcases List.mem_cons.1 h with h | h
        · exact .inr (h ▸ List.mem_cons_self ..)
        · rcases mem_nput h with h | h
          · exact .inl h
          · exact .inr (List.mem_cons_of_mem _ h)

theorem mem_ndel {α : Type} {k : Nat} {x : Nat × α} {m : NMap α} (h : x ∈ ndel m k) : x ∈ m :=
  (List.mem_filter.1 h).1

theorem mem_of_nfind {α : Type} {k : Nat} {a : α} : ∀ {m : NMap α}, nfind m k = some a → ∃ x ∈ m, x.2 = a
  | (k', b) :: m, h => by
    simp only [nfind] at h
    split at h
    · exact ⟨_, List.mem_cons_self .., by simpa using h⟩
    · obtain ⟨x, hx, e⟩ := mem_of_nfind h
      exact ⟨x, List.mem_cons_of_mem _ hx, e⟩

/-- Charging a sector of DRAM traffic changes the dispatcher's counts and the regulators alone (R279, R316). -/
theorem chargeDram_eq (pa pid : Nat) (s : State) :
    ∃ r q, chargeDram pa pid s = { s with runs := r, regulators := q } := by
  have bw : ∃ r, chargeCardBw pid s = { s with runs := r } := by
    unfold chargeCardBw
    split
    · exact ⟨_, rfl⟩
    · exact ⟨s.runs, rfl⟩
  obtain ⟨r, h⟩ := bw
  unfold chargeDram
  split
  · exact ⟨s.runs, s.regulators, rfl⟩
  · dsimp only
    rw [h]
    split
    · exact ⟨r, s.regulators, rfl⟩
    · exact ⟨r, _, rfl⟩

/-- A property of states that charges, the lines of the L2 and the L1s, and what leaves the L2 do not touch. -/
structure L2Quiet (P : State → Prop) : Prop where
  charge : ∀ s r q, P s → P { s with runs := r, regulators := q }
  lines : ∀ s l, P s → P { s with l2 := l }
  cores : ∀ s c, P s → P { s with cores := c }
  drop : ∀ s sec pid, P s → P (dropSector sec pid s)

section
variable {P : State → Prop} (hP : L2Quiet P) {s : State}
include hP

theorem L2Quiet.chargeDram (pa pid : Nat) (h : P s) : P (chargeDram pa pid s) := by
  obtain ⟨r, q, e⟩ := chargeDram_eq pa pid s
  rw [e]; exact hP.charge _ _ _ h
theorem L2Quiet.evictLine (line : Nat) (h : P s) : P (evictLine line s) := by
  unfold Machine.evictLine
  split
  · exact h
  · exact hP.lines _ _ (hP.cores _ _ (hP.drop _ _ _ (hP.drop _ _ _ h)))
theorem L2Quiet.l2Fill (pa pid : Nat) (low : Bool) (h : P s) : P (l2Fill pa pid low s) := by
  have hc : P (Machine.chargeDram pa pid s) := hP.chargeDram _ _ h
  unfold Machine.l2Fill l2FillBy
  split
  · split
    · exact h
    · dsimp only [if_true]
      split
      · exact hP.lines _ _ hc
      · split
        · exact hc
        · split
          · exact hP.lines _ _ (hP.evictLine _ hc)
          · exact hP.lines _ _ hc
  · exact h

end

/-- The canonical form of memory stays, whatever leaves the L2. -/
theorem l2Quiet_wf : L2Quiet fun s => Memory.wf s = true where
  charge _ _ _ h := h
  lines _ _ h := h
  cores _ _ h := h
  drop s sec pid h := by
    unfold dropSector
    split
    · exact h
    · dsimp only
      split
      · exact nwf_memWrite _ _ h
      · obtain ⟨r, q, e⟩ := chargeDram_eq (64 * sec) pid { s with dirty := ndel s.dirty sec }
        rw [e]; exact h

/-- Where no DRAM was written beneath a clean copy, agents go on reading what they read. -/
theorem l2Quiet_plain (m : List Host.Cell) (r : NMap Word64) :
    L2Quiet fun s => NoRawBeneath s ∧ s.mem = m ∧ s.mmr = r where
  charge _ _ _ h := h
  lines _ _ h := h
  cores _ _ h := h
  drop s sec pid h := by
    unfold dropSector
    split
    · exact h
    · rename_i d hd
      obtain ⟨x, hx, e⟩ := mem_of_nfind hd
      have hf : d.drop = false := e ▸ h.1 x hx
      simp only [hf, Bool.false_eq_true, if_false]
      obtain ⟨r, q, e⟩ := chargeDram_eq (64 * sec) pid { s with dirty := ndel s.dirty sec }
      rw [e]
      exact ⟨fun y hy => h.1 y (mem_ndel hy), h.2⟩

/-- What `markDirty` leaves: a property that the L2's traffic keeps, and that the notes of what DRAM holds keep. -/
theorem markDirty_keeps {P : State → Prop} (hP : L2Quiet P) (mt pa partid : Nat) {s : State} (h : P s)
    (del : ∀ t : State, P t → P { t with dirty := ndel t.dirty (pa / 64) })
    (put : ∀ (t : State) (d : Dirty), d.drop = false → P t → P { t with dirty := nput t.dirty (pa / 64) d }) :
    P (markDirty mt pa partid s) := by
  have h1 : P (if (mt = 2 || !allocates s pa partid) = true then s else l2Fill pa partid (decide (mt = 1)) s) := by
    split
    · exact h
    · exact hP.l2Fill _ _ _ h
  unfold markDirty
  dsimp only
  revert h1
  generalize (if (mt = 2 || !allocates s pa partid) = true then s else l2Fill pa partid (decide (mt = 1)) s) = t
  intro h1
  split
  · exact hP.chargeDram _ _ (del _ h1)
  · split
    · exact put _ _ rfl h1
    · exact put _ _ rfl h1

theorem markDirty_wf (mt pa partid : Nat) {s : State} (h : Memory.wf s = true) :
    Memory.wf (markDirty mt pa partid s) = true :=
  markDirty_keeps l2Quiet_wf mt pa partid h (fun _ h => h) fun _ _ _ h => h

theorem markDirty_plain (mt pa partid : Nat) {s : State} (h : NoRawBeneath s) :
    NoRawBeneath (markDirty mt pa partid s) ∧ (markDirty mt pa partid s).mem = s.mem ∧
      (markDirty mt pa partid s).mmr = s.mmr :=
  markDirty_keeps (l2Quiet_plain s.mem s.mmr) mt pa partid ⟨h, rfl, rfl⟩
    (fun _ h => ⟨fun x hx => h.1 x (mem_ndel hx), h.2⟩) fun _ _ hd h =>
      ⟨fun x hx => by
        rcases mem_nput hx with e | hx
        · rw [e]; exact hd
        · exact h.1 x hx, h.2⟩

@[simp] theorem unfill_mem (sec : Nat) (s : State) : (unfill sec s).mem = s.mem := rfl

theorem paKind_congr {s t : State} (h : t.mmr = s.mmr) (pa : Nat) : paKind t pa = paKind s pa := by
  simp only [paKind, devPresent, soleDevice, deviceNo, devid, mmr, h]; rfl

/-- Where no DRAM was written beneath a clean copy, a write within one sector stores its bytes, or changes nothing. -/
theorem l2WriteSector_mem (pa : Nat) (bytes : List Byte) (partid : Nat) {s : State} (h : NoRawBeneath s) :
    (l2WriteSector pa bytes partid s).mem = memWrite s.mem pa bytes ∨
      (l2WriteSector pa bytes partid s).mem = s.mem := by
  unfold l2WriteSector l2WriteSectorAs
  split
  · left; simp [dropL1, unfillBut, (markDirty_plain 0 pa partid h).2.1]
  · split
    · left; rfl
    · right; rfl
  · left; rfl
  · right; rfl
  · right; rfl

/-- In DRAM it stores them. -/
theorem l2WriteSector_dram {pa : Nat} (bytes : List Byte) (partid : Nat) {s : State} (h : NoRawBeneath s)
    (hd : paKind s pa = .dram) : (l2WriteSector pa bytes partid s).mem = memWrite s.mem pa bytes := by
  simp [l2WriteSector, l2WriteSectorAs, hd, dropL1, unfillBut, (markDirty_plain 0 pa partid h).2.1]

/-- It keeps that property. -/
theorem l2WriteSector_plain (pa : Nat) (bytes : List Byte) (partid : Nat) {s : State} (h : NoRawBeneath s) :
    NoRawBeneath (l2WriteSector pa bytes partid s) := by
  unfold l2WriteSector l2WriteSectorAs
  split
  · exact (markDirty_plain 0 pa partid h).1
  · split <;> exact h
  · exact h
  · exact h
  · exact h

theorem l2WriteSector_wf (pa : Nat) (bytes : List Byte) (partid : Nat) {s : State} (h : Memory.wf s = true) :
    Memory.wf (l2WriteSector pa bytes partid s) = true := by
  unfold l2WriteSector l2WriteSectorAs
  split
  · exact nwf_memWrite _ _ (markDirty_wf 0 pa partid h)
  · split
    · exact nwf_memWrite _ _ h
    · exact h
  · exact nwf_memWrite _ _ h
  · exact h
  · exact h

theorem l2WriteAux_wf : ∀ (fuel pa : Nat) (bytes : List Byte) (partid : Nat) {s : State}, Memory.wf s = true →
    Memory.wf (l2WriteAux fuel pa bytes partid s) = true
  | 0, _, _, _, _, h => h
  | fuel + 1, pa, bytes, partid, s, h => by
    unfold l2WriteAux
    split
    · exact h
    · exact l2WriteAux_wf fuel _ _ _ (l2WriteSector_wf _ _ _ h)

/-- A write at the L2 keeps memory in its canonical form. -/
theorem l2Write_wf (pa : Nat) (bytes : List Byte) (partid : Nat) {s : State} (h : Memory.wf s = true) :
    Memory.wf (l2Write pa bytes partid s) = true := l2WriteAux_wf _ _ _ _ h

theorem l2WriteSector_out (pa : Nat) (bytes : List Byte) (partid : Nat) {s : State} (hs : NoRawBeneath s) (x : Nat)
    (h : x < pa ∨ pa + bytes.length ≤ x) : memGet (l2WriteSector pa bytes partid s).mem x = memGet s.mem x := by
  rcases l2WriteSector_mem pa bytes partid hs with e | e <;> rw [e]
  exact memGet_memWrite_out _ _ _ _ h

/-- A write that lies in one sector is one write of the sector. -/
theorem l2Write_sector (pa : Nat) (bytes : List Byte) (partid : Nat) (s : State) (h : pa % 64 + bytes.length ≤ 64)
    (hb : bytes ≠ []) : l2Write pa bytes partid s = l2WriteSector pa bytes partid s := by
  unfold l2Write
  simp only [l2WriteAux, List.isEmpty_iff, hb, if_false]
  rw [List.take_of_length_le (by omega), List.drop_of_length_le (by omega)]
  simp

/-- The canonical form holds of memory at reset. -/
theorem reset_wf : Memory.wf State.reset = true := rfl

end Sys2Proof.Machine
end

