-- ==== Sys2Proof/Laws/Words.lean ====
section
/-!
SUPPORT. Sys2Proof/Laws/Words.lean: the wrapper of the instruction words, one lemma for each outcome that an
instruction's own effect can have, and what the wrapper does in every state.
-/
namespace Sys2Proof.Machine

variable {i : Instr} {body : Cur → State → Res} {c : Cur} {s t : State}

/-- The wrapper of a word that is being executed answers a next state. -/
theorem word_some (h : s.cur = some c) : word i body s = .next (wordStep i body c (rest s)) := by
  simp [word, h, rest]

/-- Without a word to execute, the wrapper stops. -/
theorem word_none (h : s.cur = none) : word i body s = .fault .noWord := by
  simp [word, h]

/-- A word that starts at the head of its queue runs its own effect. -/
theorem word_starts (h : Starts i c s) :
    word i body s = .next (applyRes c i (checkCharge c (begun c s) (body c (begun c s)))) := by
  rw [word_some h.cur]
  have l := h.live
  have f := h.free
  have u := h.guarded
  have d := h.handler
  unfold begun at l f u d ⊢
  simp [wordStep, l, h.head, f, runWord, u, d]

/-- A word whose effect is done completes where its charges fit. -/
theorem word_done (h : Starts i c s) (hb : body c (begun c s) = .done t)
    (hc : overCharge t c.g c.w.seq = none) : word i body s = .next (finish c i t) := by
  rw [word_starts h, hb]; simp [checkCharge, hc, applyRes]

/-- A word that traps stays in its queue, and the trap is raised. -/
theorem word_trap {cls cause addr : Nat} {mask : Word64} {w : QWord} (h : Starts i c s)
    (hb : body c (begun c s) = .trap cls cause addr mask w t) :
    word i body s = .next (raiseTrap c.g (trapRec t c i cls cause addr mask) (requeue c i w t)) := by
  rw [word_starts h, hb]; simp [checkCharge, applyRes]

/-- A word that waits goes back to the head of its queue. -/
theorem word_wait {w : QWord} (h : Starts i c s) (hb : body c (begun c s) = .wait w t)
    (hc : overCharge t c.g c.w.seq = none) : word i body s = .next (requeue c i w t) := by
  rw [word_starts h, hb]; simp [checkCharge, hc, applyRes]

/-- A word that has started and completes later leaves its queue and is in flight. -/
theorem word_fly {f : Flight} (h : Starts i c s) (hb : body c (begun c s) = .fly f t)
    (hc : overCharge t c.g c.w.seq = none) : word i body s =
      .next (modGrp (dequeue c (engOf i) t) c.g fun G => { G with flights := G.flights ++ [Flight.named i f] }) := by
  rw [word_starts h, hb]; simp [checkCharge, hc, applyRes]

/-- A word that completes and raises a trap (R240). -/
theorem word_doneTrap {cls cause : Nat} (h : Starts i c s) (hb : body c (begun c s) = .doneTrap cls cause t) :
    word i body s = .next (raiseTrap c.g { trapRec t c i cls cause 0 0 with fin := true } (requeue c i c.w t)) := by
  rw [word_starts h, hb]; simp [checkCharge, applyRes]

end Sys2Proof.Machine
end

