-- ==== Sys2Proof/Laws/Frames.lean ====
section
/-!
SUPPORT. Sys2Proof/Laws/Frames.lean: what the shared operations of words leave alone: journaled writes, the
retiring, waiting and trapping of a word, quantum closes, holding, and the wrapper of the instruction words.
-/
namespace Sys2Proof.Machine

/-! ### Items -/

theorem memRead_congr {m m' : List Host.Cell} : ∀ (n a : Nat), (∀ k, a ≤ k → k < a + n → memGet m' k = memGet m k) →
    memRead m' a n = memRead m a n
  | 0, _, _ => rfl
  | n + 1, a, h => by
    rw [memRead, memRead, h a (Nat.le_refl a) (by omega), memRead_congr n (a + 1) fun k h1 h2 => h k (by omega) (by omega)]

/-- Bytes outside a written chunk are as before. -/
theorem memNum_memWrite_ne (m : List Host.Cell) {ch ch' : Nat} (x : Nat) (h : ch' ≠ ch) :
    memNum (memWrite m (16 * ch) (toBytes 16 x)) (16 * ch') 16 = memNum m (16 * ch') 16 := by
  unfold memNum
  rw [memRead_congr 16 _ fun k h1 h2 => memGet_memWrite_out _ _ _ _ (by rw [toBytes_length]; omega)]

theorem Team.mem_setMem (T : Team) {h h' : Nat} (hh : h < 2) (hh' : h' < 2) (m : List Host.Cell) :
    (T.setMem h m).mem h' = if h' = h then m else T.mem h' := by
  obtain rfl | rfl : h = 0 ∨ h = 1 := by omega
  all_goals obtain rfl | rfl : h' = 0 ∨ h' = 1 := by omega
  all_goals simp [Team.setMem, Team.mem]

theorem Team.pois_setPois (T : Team) {h h' : Nat} (hh : h < 2) (hh' : h' < 2) (m : NMap Bool) :
    (T.setPois h m).pois h' = if h' = h then m else T.pois h' := by
  obtain rfl | rfl : h = 0 ∨ h = 1 := by omega
  all_goals obtain rfl | rfl : h' = 0 ∨ h' = 1 := by omega
  all_goals simp [Team.setPois, Team.pois]

@[simp] theorem Team.pois_setMem (T : Team) (h h' : Nat) (m : List Host.Cell) :
    (T.setMem h m).pois h' = T.pois h' := by 
  unfold Team.setMem Team.pois; repeat' split
  all_goals rfl
@[simp] theorem Team.mem_setPois (T : Team) (h h' : Nat) (m : NMap Bool) :
    (T.setPois h m).mem h' = T.mem h' := by 
  unfold Team.setPois Team.mem; repeat' split
  all_goals rfl

@[simp] theorem Team.t_setMem (T : Team) (h : Nat) (m : List Host.Cell) : (T.setMem h m).t = T.t := by
  unfold Team.setMem; split <;> rfl
@[simp] theorem Team.t_setPois (T : Team) (h : Nat) (m : NMap Bool) : (T.setPois h m).t = T.t := by
  unfold Team.setPois; split <;> rfl
@[simp] theorem Team.bars_setMem (T : Team) (h : Nat) (m : List Host.Cell) : (T.setMem h m).bars = T.bars := by
  unfold Team.setMem; split <;> rfl
@[simp] theorem Team.bars_setPois (T : Team) (h : Nat) (m : NMap Bool) : (T.setPois h m).bars = T.bars := by
  unfold Team.setPois; split <;> rfl
@[simp] theorem Team.pool0_setMem (T : Team) (h : Nat) (m : List Host.Cell) : (T.setMem h m).pool0 = T.pool0 := by
  unfold Team.setMem; split <;> rfl
@[simp] theorem Team.pool0_setPois (T : Team) (h : Nat) (m : NMap Bool) : (T.setPois h m).pool0 = T.pool0 := by
  unfold Team.setPois; split <;> rfl
@[simp] theorem Team.pool1_setMem (T : Team) (h : Nat) (m : List Host.Cell) : (T.setMem h m).pool1 = T.pool1 := by
  unfold Team.setMem; split <;> rfl
@[simp] theorem Team.pool1_setPois (T : Team) (h : Nat) (m : NMap Bool) : (T.setPois h m).pool1 = T.pool1 := by
  unfold Team.setPois; split <;> rfl

theorem grp_modGrp_if (s : State) (g h : Nat) (f : Group → Group) :
    grp (modGrp s g f) h = if h = g then f (grp s h) else grp s h := by
  split
  · subst h; exact grp_modGrp ..
  · exact grp_modGrp_ne _ _ ‹_›
theorem team_modTeam_if (s : State) (g h : Nat) (f : Team → Team) :
    team (modTeam s g f) h = if h = g then f (team s h) else team s h := by
  split
  · subst h; exact team_modTeam ..
  · exact team_modTeam_ne _ _ ‹_›
theorem core_modCore_if (s : State) (g h : Nat) (f : Core → Core) :
    core (modCore s g f) h = if h = g then f (core s h) else core s h := by
  split
  · subst h; exact core_modCore ..
  · exact core_modCore_ne _ _ ‹_›
theorem nget_nset_if {α : Type} [DecidableEq α] (d : α) (m : NMap α) (x y : Nat) (a : α) :
    nget d (nset d m x a) y = if y = x then a else nget d m y := by
  split
  · subst y; exact nget_nset_self ..
  · exact nget_nset_ne _ _ _ ‹_›

theorem readItem_write_v {s : State} {g n l : Nat} {it : Item} {x : Val} (h₁ : (Item.v g n l).named)
    (h₂ : it.named) (ne : it ≠ .v g n l) : readItem (writeItem s (.v g n l) x) it = readItem s it := by
  cases it with
  | v g' n' l' =>
    by_cases e : g' = g
    · subst e
      simp only [readItem, writeItem, grp_modGrp]
      simp only [Item.named] at h₁ h₂
      rw [nget_nset_ne _ _ _ fun h => ne (by
        obtain ⟨e₁, e₂⟩ : n' = n ∧ l' = l := by omega
        rw [e₁, e₂])]
    · simp only [readItem, writeItem, grp_modGrp_ne _ _ e]
  | p _ _ | u _ _ | f _ _ | k _ _ | depth _ | rot _ | blocks _ =>
    simp only [readItem, writeItem, grp_modGrp_if]; split <;> rfl
  | _ => rfl

theorem readItem_write_p {s : State} {g n : Nat} {it : Item} {x : Val} (ne : it ≠ .p g n) : readItem (writeItem s (.p g n) x) it = readItem s it := by
  cases it with
  | p g' n' =>
    by_cases e : g' = g
    · subst e
      simp only [readItem, writeItem, grp_modGrp]
      rw [nget_nset_ne _ _ _ fun h => ne (by rw [h])]
    · simp only [readItem, writeItem, grp_modGrp_ne _ _ e]
  | v _ _ _ | u _ _ | f _ _ | k _ _ | depth _ | rot _ | blocks _ =>
    simp only [readItem, writeItem, grp_modGrp_if]; split <;> rfl
  | _ => rfl

theorem readItem_write_u {s : State} {g n : Nat} {it : Item} {x : Val} (ne : it ≠ .u g n) : readItem (writeItem s (.u g n) x) it = readItem s it := by
  cases it with
  | u g' n' =>
    by_cases e : g' = g
    · subst e
      simp only [readItem, writeItem, grp_modGrp]
      rw [nget_nset_ne _ _ _ fun h => ne (by rw [h])]
    · simp only [readItem, writeItem, grp_modGrp_ne _ _ e]
  | v _ _ _ | p _ _ | f _ _ | k _ _ | depth _ | rot _ | blocks _ =>
    simp only [readItem, writeItem, grp_modGrp_if]; split <;> rfl
  | _ => rfl

theorem readItem_write_f {s : State} {g n : Nat} {it : Item} {x : Val} (ne : it ≠ .f g n) : readItem (writeItem s (.f g n) x) it = readItem s it := by
  cases it with
  | f g' n' =>
    by_cases e : g' = g
    · subst e
      simp only [readItem, writeItem, grp_modGrp]
      rw [nget_nset_ne _ _ _ fun h => ne (by rw [h])]
    · simp only [readItem, writeItem, grp_modGrp_ne _ _ e]
  | v _ _ _ | p _ _ | u _ _ | k _ _ | depth _ | rot _ | blocks _ =>
    simp only [readItem, writeItem, grp_modGrp_if]; split <;> rfl
  | _ => rfl

theorem readItem_write_k {s : State} {g n : Nat} {it : Item} {x : Val} (ne : it ≠ .k g n) : readItem (writeItem s (.k g n) x) it = readItem s it := by
  cases it with
  | k g' n' =>
    by_cases e : g' = g
    · subst e
      simp only [readItem, writeItem, grp_modGrp]
      rw [nget_nset_ne _ _ _ fun h => ne (by rw [h])]
    · simp only [readItem, writeItem, grp_modGrp_ne _ _ e]
  | v _ _ _ | p _ _ | u _ _ | f _ _ | depth _ | rot _ | blocks _ =>
    simp only [readItem, writeItem, grp_modGrp_if]; split <;> rfl
  | _ => rfl

theorem readItem_write_depth {s : State} {g : Nat} {it : Item} {x : Val} (ne : it ≠ .depth g) : readItem (writeItem s (.depth g) x) it = readItem s it := by
  cases it with
  | depth g' =>
    by_cases e : g' = g
    · exact absurd (by rw [e]) ne
    · simp only [readItem, writeItem, grp_modGrp_ne _ _ e]
  | v _ _ _ | p _ _ | u _ _ | f _ _ | k _ _ | rot _ | blocks _ =>
    simp only [readItem, writeItem, grp_modGrp_if]; split <;> rfl
  | _ => rfl

theorem readItem_write_rot {s : State} {g : Nat} {it : Item} {x : Val} (ne : it ≠ .rot g) : readItem (writeItem s (.rot g) x) it = readItem s it := by
  cases it with
  | rot g' =>
    by_cases e : g' = g
    · exact absurd (by rw [e]) ne
    · simp only [readItem, writeItem, grp_modGrp_ne _ _ e]
  | v _ _ _ | p _ _ | u _ _ | f _ _ | k _ _ | depth _ | blocks _ =>
    simp only [readItem, writeItem, grp_modGrp_if]; split <;> rfl
  | _ => rfl

theorem readItem_write_blocks {s : State} {g : Nat} {it : Item} {x : Val} (ne : it ≠ .blocks g) : readItem (writeItem s (.blocks g) x) it = readItem s it := by
  cases it with
  | blocks g' =>
    by_cases e : g' = g
    · exact absurd (by rw [e]) ne
    · simp only [readItem, writeItem, grp_modGrp_ne _ _ e]
  | v _ _ _ | p _ _ | u _ _ | f _ _ | k _ _ | depth _ | rot _ =>
    simp only [readItem, writeItem, grp_modGrp_if]; split <;> rfl
  | _ => rfl

theorem readItem_write_t {s : State} {tk n : Nat} {it : Item} {x : Val} (ne : it ≠ .t tk n) : readItem (writeItem s (.t tk n) x) it = readItem s it := by
  cases it with
  | t tk' n' =>
    by_cases e : tk' = tk
    · subst e
      simp only [readItem, writeItem, team_modTeam]
      rw [nget_nset_ne _ _ _ fun h => ne (by rw [h])]
    · simp only [readItem, writeItem, team_modTeam_ne _ _ e]
  | bar tk' n' =>
    by_cases e : tk' = tk
    · subst e
      simp only [readItem, writeItem, team_modTeam]
    · simp only [readItem, writeItem, team_modTeam_ne _ _ e]
  | pool tk' h' =>
    by_cases e : tk' = tk
    · subst e
      simp only [readItem, writeItem, team_modTeam]
    · simp only [readItem, writeItem, team_modTeam_ne _ _ e]
  | loc tk' h' ch' =>
    by_cases e : tk' = tk
    · subst e
      simp only [readItem, writeItem, team_modTeam]; rfl
    · simp only [readItem, writeItem, team_modTeam_ne _ _ e]
  | locPois tk' h' gr' =>
    by_cases e : tk' = tk
    · subst e
      simp only [readItem, writeItem, team_modTeam]; rfl
    · simp only [readItem, writeItem, team_modTeam_ne _ _ e]
  | _ => rfl

theorem readItem_write_bar {s : State} {tk n : Nat} {it : Item} {x : Val} (ne : it ≠ .bar tk n) : readItem (writeItem s (.bar tk n) x) it = readItem s it := by
  cases it with
  | t tk' n' =>
    by_cases e : tk' = tk
    · subst e
      simp only [readItem, writeItem, team_modTeam]
    · simp only [readItem, writeItem, team_modTeam_ne _ _ e]
  | bar tk' n' =>
    by_cases e : tk' = tk
    · subst e
      simp only [readItem, writeItem, team_modTeam]
      rw [nget_nset_ne _ _ _ fun h => ne (by rw [h])]
    · simp only [readItem, writeItem, team_modTeam_ne _ _ e]
  | pool tk' h' =>
    by_cases e : tk' = tk
    · subst e
      simp only [readItem, writeItem, team_modTeam]
    · simp only [readItem, writeItem, team_modTeam_ne _ _ e]
  | loc tk' h' ch' =>
    by_cases e : tk' = tk
    · subst e
      simp only [readItem, writeItem, team_modTeam]; rfl
    · simp only [readItem, writeItem, team_modTeam_ne _ _ e]
  | locPois tk' h' gr' =>
    by_cases e : tk' = tk
    · subst e
      simp only [readItem, writeItem, team_modTeam]; rfl
    · simp only [readItem, writeItem, team_modTeam_ne _ _ e]
  | _ => rfl

theorem readItem_write_pool {s : State} {tk h : Nat} {it : Item} {x : Val} (h₁ : (Item.pool tk h).named)
    (h₂ : it.named) (ne : it ≠ .pool tk h) : readItem (writeItem s (.pool tk h) x) it = readItem s it := by
  cases it with
  | t tk' n' =>
    by_cases e : tk' = tk
    · subst e
      simp only [readItem, writeItem, team_modTeam]
      split <;> rfl
    · simp only [readItem, writeItem, team_modTeam_ne _ _ e]
  | bar tk' n' =>
    by_cases e : tk' = tk
    · subst e
      simp only [readItem, writeItem, team_modTeam]
      split <;> rfl
    · simp only [readItem, writeItem, team_modTeam_ne _ _ e]
  | pool tk' h' =>
    by_cases e : tk' = tk
    · subst e
      simp only [readItem, writeItem, team_modTeam]
      simp only [Item.named] at h₁ h₂
      obtain rfl | rfl : h = 0 ∨ h = 1 := by omega
      all_goals obtain rfl | rfl : h' = 0 ∨ h' = 1 := by omega
      all_goals first | exact absurd rfl ne | rfl
    · simp only [readItem, writeItem, team_modTeam_ne _ _ e]
  | loc tk' h' ch' =>
    by_cases e : tk' = tk
    · subst e
      simp only [readItem, writeItem, team_modTeam]
      split <;> rfl
    · simp only [readItem, writeItem, team_modTeam_ne _ _ e]
  | locPois tk' h' gr' =>
    by_cases e : tk' = tk
    · subst e
      simp only [readItem, writeItem, team_modTeam]
      split <;> rfl
    · simp only [readItem, writeItem, team_modTeam_ne _ _ e]
  | _ => rfl

theorem readItem_write_loc {s : State} {tk h ch : Nat} {it : Item} {x : Val} (h₁ : (Item.loc tk h ch).named)
    (h₂ : it.named) (ne : it ≠ .loc tk h ch) : readItem (writeItem s (.loc tk h ch) x) it = readItem s it := by
  cases it with
  | t tk' n' =>
    by_cases e : tk' = tk
    · subst e
      simp only [readItem, writeItem, team_modTeam]
      simp only [Team.t_setMem]
    · simp only [readItem, writeItem, team_modTeam_ne _ _ e]
  | bar tk' n' =>
    by_cases e : tk' = tk
    · subst e
      simp only [readItem, writeItem, team_modTeam]
      simp only [Team.bars_setMem]
    · simp only [readItem, writeItem, team_modTeam_ne _ _ e]
  | pool tk' h' =>
    by_cases e : tk' = tk
    · subst e
      simp only [readItem, writeItem, team_modTeam]
      simp only [Team.pool0_setMem, Team.pool1_setMem]
    · simp only [readItem, writeItem, team_modTeam_ne _ _ e]
  | loc tk' h' ch' =>
    by_cases e : tk' = tk
    · subst e
      simp only [readItem, writeItem, team_modTeam]
      rw [Team.mem_setMem _ h₁ h₂]
      split
      · subst h'; rw [memNum_memWrite_ne _ _ fun h => ne (by rw [h])]
      · rfl
    · simp only [readItem, writeItem, team_modTeam_ne _ _ e]
  | locPois tk' h' gr' =>
    by_cases e : tk' = tk
    · subst e
      simp only [readItem, writeItem, team_modTeam]
      rw [Team.pois_setMem]
    · simp only [readItem, writeItem, team_modTeam_ne _ _ e]
  | _ => rfl

theorem readItem_write_locPois {s : State} {tk h gr : Nat} {it : Item} {x : Val} (h₁ : (Item.locPois tk h gr).named)
    (h₂ : it.named) (ne : it ≠ .locPois tk h gr) : readItem (writeItem s (.locPois tk h gr) x) it = readItem s it := by
  cases it with
  | t tk' n' =>
    by_cases e : tk' = tk
    · subst e
      simp only [readItem, writeItem, team_modTeam]
      simp only [Team.t_setPois]
    · simp only [readItem, writeItem, team_modTeam_ne _ _ e]
  | bar tk' n' =>
    by_cases e : tk' = tk
    · subst e
      simp only [readItem, writeItem, team_modTeam]
      simp only [Team.bars_setPois]
    · simp only [readItem, writeItem, team_modTeam_ne _ _ e]
  | pool tk' h' =>
    by_cases e : tk' = tk
    · subst e
      simp only [readItem, writeItem, team_modTeam]
      simp only [Team.pool0_setPois, Team.pool1_setPois]
    · simp only [readItem, writeItem, team_modTeam_ne _ _ e]
  | loc tk' h' ch' =>
    by_cases e : tk' = tk
    · subst e
      simp only [readItem, writeItem, team_modTeam]
      rw [Team.mem_setPois]
    · simp only [readItem, writeItem, team_modTeam_ne _ _ e]
  | locPois tk' h' gr' =>
    by_cases e : tk' = tk
    · subst e
      simp only [readItem, writeItem, team_modTeam]
      rw [Team.pois_setPois _ h₁ h₂]
      split
      · subst h'; rw [nget_nset_ne _ _ _ fun h => ne (by rw [h])]
      · rfl
    · simp only [readItem, writeItem, team_modTeam_ne _ _ e]
  | _ => rfl

theorem readItem_write_row {s : State} {c n : Nat} {it : Item} {x : Val} (ne : it ≠ .row c n) : readItem (writeItem s (.row c n) x) it = readItem s it := by
  cases it with
  | row c' n' =>
    by_cases e : c' = c
    · subst e
      simp only [readItem, writeItem, core_modCore]
      rw [nget_nset_ne _ _ _ fun h => ne (by rw [h])]
    · simp only [readItem, writeItem, core_modCore_ne _ _ e]
  | _ => rfl

/-- Writing an item changes no other item. -/
theorem readItem_writeItem_ne {s : State} {it it' : Item} {x : Val} (h : it.named) (h' : it'.named) (n : it' ≠ it) :
    readItem (writeItem s it x) it' = readItem s it' := by
  cases it with
  | v _ _ _ => exact readItem_write_v h h' n
  | p _ _ => exact readItem_write_p n
  | u _ _ => exact readItem_write_u n
  | f _ _ => exact readItem_write_f n
  | k _ _ => exact readItem_write_k n
  | depth _ => exact readItem_write_depth n
  | rot _ => exact readItem_write_rot n
  | blocks _ => exact readItem_write_blocks n
  | t _ _ => exact readItem_write_t n
  | bar _ _ => exact readItem_write_bar n
  | pool _ _ => exact readItem_write_pool h h' n
  | loc _ _ _ => exact readItem_write_loc h h' n
  | locPois _ _ _ => exact readItem_write_locPois h h' n
  | row _ _ => exact readItem_write_row n

/-- A journaled write changes no other item. -/
theorem readItem_jwrite_ne {s : State} {g seq : Nat} {it it' : Item} {e : Eff} (h : it.named) (h' : it'.named)
    (n : it' ≠ it) : readItem (jwrite g seq it e s) it' = readItem s it' :=
  readItem_writeItem_ne (s := s) h h' n

/-! ### What the control of words leaves alone -/

/-- Two groups hold the same registers, predicates, streams, tokens, stack depth, rotation and blocks. -/
structure SameRegs (G H : Group) : Prop where
  v : H.v = G.v
  p : H.p = G.p
  u : H.u = G.u
  f : H.f = G.f
  k : H.k = G.k
  depth : H.depth = G.depth
  rot : H.rotN = G.rotN ∧ H.rotL = G.rotL ∧ H.rotP = G.rotP
  blocks : H.blocks = G.blocks

/-- A property of states that updates of slots, queues, flights, quanta, traps, launches and pairs keep. -/
structure Quiet (P : State → Prop) : Prop where
  grp : ∀ s g f, (∀ G, SameRegs G (f G)) → P s → P (modGrp s g f)
  launch : ∀ s lk f, P s → P (modLaunch s lk f)
  pair : ∀ s p f, P s → P (modPair s p f)
  decision : ∀ s, P s → P (decisionPoint s)
  next : ∀ s n, P s → P { s with nextId := n }
  fills : ∀ s pr but sec, P s → P (unfillPair pr but sec s)

theorem Quiet.and {P Q : State → Prop} (hP : Quiet P) (hQ : Quiet Q) : Quiet fun s => P s ∧ Q s :=
  ⟨fun s g f h x => ⟨hP.grp s g f h x.1, hQ.grp s g f h x.2⟩, fun s l f x => ⟨hP.launch s l f x.1, hQ.launch s l f x.2⟩,
    fun s p f x => ⟨hP.pair s p f x.1, hQ.pair s p f x.2⟩, fun s x => ⟨hP.decision s x.1, hQ.decision s x.2⟩,
    fun s n x => ⟨hP.next s n x.1, hQ.next s n x.2⟩, fun s p b n x => ⟨hP.fills s p b n x.1, hQ.fills s p b n x.2⟩⟩

/-- What is read of global memory, cards, registers and time is quiet. -/
theorem quiet_of {α : Type} (r : List Host.Cell → NMap Bool → NMap (BitVec 1024) → NMap Word64 → Nat → α)
    (a : α) : Quiet fun s => r s.mem s.poison s.cards s.mmr s.now = a :=
  ⟨fun _ _ _ _ h => h, fun _ _ _ h => h, fun _ _ _ h => h, fun _ h => h, fun _ _ h => h, fun _ _ _ _ h => h⟩

/-- The canonical form of memory is quiet. -/
theorem quiet_wf : Quiet fun s => Memory.wf s = true :=
  ⟨fun _ _ _ _ h => h, fun _ _ _ h => h, fun _ _ _ h => h, fun _ h => h, fun _ _ h => h, fun _ _ _ _ h => h⟩

/-- An update that keeps a group's registers keeps every item. -/
theorem readItem_modGrp {s : State} {g : Nat} {f : Group → Group} (h : ∀ G, SameRegs G (f G)) (it : Item) :
    readItem (modGrp s g f) it = readItem s it := by
  cases it with
  | v _ _ _ => simp only [readItem, grp_modGrp_if]; split <;> simp only [(h _).v]
  | p _ _ => simp only [readItem, grp_modGrp_if]; split <;> simp only [(h _).p]
  | u _ _ => simp only [readItem, grp_modGrp_if]; split <;> simp only [(h _).u]
  | f _ _ => simp only [readItem, grp_modGrp_if]; split <;> simp only [(h _).f]
  | k _ _ => simp only [readItem, grp_modGrp_if]; split <;> simp only [(h _).k]
  | depth _ => simp only [readItem, grp_modGrp_if]; split <;> simp only [(h _).depth]
  | rot _ =>
    simp only [readItem, grp_modGrp_if]; split <;> simp only [(h _).rot.1, (h _).rot.2.1, (h _).rot.2.2]
  | blocks _ => simp only [readItem, grp_modGrp_if]; split <;> simp only [(h _).blocks]
  | _ => rfl

theorem nfind_map {α β : Type} (f : Nat × α → Nat × β) (hf : ∀ x, (f x).1 = x.1) (k : Nat) :
    ∀ m : NMap α, nfind (m.map f) k = (nfind m k).map fun a => (f (k, a)).2
  | [] => rfl
  | (k', a) :: m => by
    obtain ⟨b, hb⟩ : ∃ b, f (k', a) = (k', b) := ⟨(f (k', a)).2, Prod.ext (hf _) rfl⟩
    rw [List.map_cons, hb]
    simp only [nfind]
    split
    · rename_i h; subst h; simp [hb]
    · exact nfind_map f hf k m

/-- What a stash window was filled from is no item. -/
theorem readItem_unfillPair {s : State} (pr : Nat) (but : Option (Nat × Nat)) (sec : Nat) (it : Item) :
    readItem (unfillPair pr but sec s) it = readItem s it := by
  have same : ∀ tk, ∃ f0 f1, team (unfillPair pr but sec s) tk = { team s tk with fill0 := f0, fill1 := f1 } := by
    intro tk
    unfold unfillPair team nget
    dsimp only
    rw [nfind_map _ (fun x => by split <;> rfl)]
    cases nfind s.teams tk with
    | none => exact ⟨[], [], rfl⟩
    | some T =>
      simp only [Option.map_some, Option.getD_some]
      split
      · exact ⟨_, _, rfl⟩
      · exact ⟨T.fill0, T.fill1, rfl⟩
  cases it with
  | t tk _ | bar tk _ | pool tk _ | loc tk _ _ | locPois tk _ _ =>
    obtain ⟨f0, f1, e⟩ := same tk
    simp only [readItem, e, Team.mem, Team.pois]
  | _ => rfl

/-- What a set of items reads is quiet. -/
theorem quiet_items (s : State) (D : Item → Prop) : Quiet fun t => ∀ it, D it → readItem t it = readItem s it :=
  ⟨fun _ _ _ h x it d => (readItem_modGrp h it).trans (x it d), fun _ _ _ x it d => (by cases it <;> rfl : _ = _).trans (x it d),
    fun _ _ _ x it d => (by cases it <;> rfl : _ = _).trans (x it d),
    fun _ x it d => (by cases it <;> rfl : _ = _).trans (x it d),
    fun _ _ x it d => (by cases it <;> rfl : _ = _).trans (x it d),
    fun _ _ _ _ x it d => (readItem_unfillPair _ _ _ it).trans (x it d)⟩

/-- Putting words back into queues keeps a group's registers. -/
theorem sameRegs_insertAll (xs : List (Nat × QWord)) (G : Group) : SameRegs G
    (xs.foldl (fun G x => setQueue G x.1 (insertWord x.2 (queueOf G x.1))) { G with flights := [] }) := by
  suffices h : ∀ (xs : List (Nat × QWord)) (H : Group), SameRegs G H →
      SameRegs G (xs.foldl (fun G x => setQueue G x.1 (insertWord x.2 (queueOf G x.1))) H) from
    h xs _ ⟨rfl, rfl, rfl, rfl, rfl, rfl, ⟨rfl, rfl, rfl⟩, rfl⟩
  intro xs
  induction xs with
  | nil => exact fun _ h => h
  | cons x xs ih => exact fun H h => ih _ ⟨h.v, h.p, h.u, h.f, h.k, h.depth, h.rot, h.blocks⟩

theorem foldl_keeps {α : Type} {P : State → Prop} {f : State → α → State} (h : ∀ s x, P s → P (f s x)) :
    ∀ (xs : List α) {s : State}, P s → P (xs.foldl f s)
  | [], _, x => x
  | y :: ys, _, x => foldl_keeps h ys (h _ y x)

section
variable {P : State → Prop} (hP : Quiet P) {s : State}
include hP

theorem Quiet.putSlot (c : Cur) (n : Nat) (x : Slot) (h : P s) : P (putSlot c n x s) :=
  hP.grp _ _ _ (fun G => by
    unfold slotsAfter setSlot
    repeat' split
    all_goals exact ⟨rfl, rfl, rfl, rfl, rfl, rfl, ⟨rfl, rfl, rfl⟩, rfl⟩) h
theorem Quiet.resolve (c : Cur) (next : Nat) (h : P s) : P (resolve c next s) := by
  unfold Machine.resolve; split
  · exact h
  · exact hP.putSlot _ _ _ h
theorem Quiet.useRot (g : Nat) (w : QWord) (h : P s) : P (Machine.useRot g w s) :=
  hP.grp _ _ _ (fun _ => ⟨rfl, rfl, rfl, rfl, rfl, rfl, ⟨rfl, rfl, rfl⟩, rfl⟩) h
theorem Quiet.retireCheck (g : Nat) (h : P s) : P (retireCheck g s) :=
  hP.grp _ _ _ (fun G => by split <;> exact ⟨rfl, rfl, rfl, rfl, rfl, rfl, ⟨rfl, rfl, rfl⟩, rfl⟩) h
theorem Quiet.dequeue (c : Cur) (q : Nat) (h : P s) : P (dequeue c q s) :=
  hP.grp _ _ _ (fun G => by split <;> exact ⟨rfl, rfl, rfl, rfl, rfl, rfl, ⟨rfl, rfl, rfl⟩, rfl⟩) h
theorem Quiet.requeue (c : Cur) (i : Instr) (w : QWord) (h : P s) : P (requeue c i w s) := by
  unfold Machine.requeue
  refine hP.grp _ _ _ ?_ h
  exact (fun _ => ⟨rfl, rfl, rfl, rfl, rfl, rfl, ⟨rfl, rfl, rfl⟩, rfl⟩)
theorem Quiet.countRetired (c : Cur) (h : P s) : P (countRetired c s) :=
  hP.grp _ _ _ (fun _ => ⟨rfl, rfl, rfl, rfl, rfl, rfl, ⟨rfl, rfl, rfl⟩, rfl⟩) h
theorem Quiet.finish (c : Cur) (i : Instr) (h : P s) : P (finish c i s) :=
  hP.retireCheck _ (hP.countRetired _ (hP.dequeue _ _ h))
theorem Quiet.enterHandler (g : Nat) (t : TrapRec) (h : P s) : P (enterHandler g t s) := by
  unfold Machine.enterHandler
  refine hP.grp _ _ _ ?_ h
  exact (fun _ => ⟨rfl, rfl, rfl, rfl, rfl, rfl, ⟨rfl, rfl, rfl⟩, rfl⟩)
theorem Quiet.enterHost (g : Nat) (t : TrapRec) (h : P s) : P (enterHost g t s) := by
  unfold Machine.enterHost
  refine hP.launch _ _ _ (hP.grp _ _ _ ?_ h)
  exact (fun _ => ⟨rfl, rfl, rfl, rfl, rfl, rfl, ⟨rfl, rfl, rfl⟩, rfl⟩)
theorem Quiet.finishTrap (g : Nat) (t : TrapRec) (h : P s) : P (finishTrap g t s) := by
  unfold Machine.finishTrap; split
  · exact h
  · exact hP.finish _ _ (hP.resolve _ _ h)
theorem Quiet.abandon (g : Nat) (h : P s) : P (abandon g s) := by
  unfold Machine.abandon
  dsimp only
  split
  · exact h
  · refine hP.grp _ _ _ (fun G => ?_) (hP.pair _ _ _ h)
    exact sameRegs_insertAll _ _
theorem Quiet.deliver (g : Nat) (h : P s) : P (deliver g s) := by
  unfold Machine.deliver
  dsimp only
  split
  · exact h
  · split
    · exact h
    · split
      · exact hP.enterHost _ _ (hP.abandon _ (hP.finishTrap _ _ h))
      · split
        · exact hP.enterHandler _ _ (hP.abandon _ (hP.finishTrap _ _ h))
        · exact hP.enterHost _ _ (hP.abandon _ (hP.finishTrap _ _ h))
theorem Quiet.raiseTrap (g : Nat) (t : TrapRec) (h : P s) : P (raiseTrap g t s) :=
  hP.deliver _ (hP.grp _ _ _ (fun _ => ⟨rfl, rfl, rfl, rfl, rfl, rfl, ⟨rfl, rfl, rfl⟩, rfl⟩) h)
theorem Quiet.closeGroup (g hi : Nat) (h : P s) : P (closeGroup g hi s) :=
  hP.grp _ _ _ (fun _ => ⟨rfl, rfl, rfl, rfl, rfl, rfl, ⟨rfl, rfl, rfl⟩, rfl⟩) (hP.decision _ h)
theorem Quiet.closePair (pr : Nat) (sp : Option (Nat × Nat)) (h : P s) : P (closePair pr sp s) := by
  unfold Machine.closePair
  exact hP.pair _ _ _ (hP.decision _ (foldl_keeps (fun _ _ x => hP.closeGroup _ _ x) _ h))
theorem Quiet.detCloses (g : Nat) : ∀ (fuel : Nat) {s : State}, P s → P (detCloses g fuel s)
  | 0, _, h => h
  | fuel + 1, s, h => by
    unfold Machine.detCloses
    split
    · exact h
    · split
      · exact Quiet.detCloses g fuel (hP.closeGroup _ _ h)
      · exact h
theorem Quiet.detClose (g : Nat) (h : P s) : P (detClose g s) := by
  unfold Machine.detClose; split
  · exact hP.detCloses _ _ h
  · exact h
theorem Quiet.addMark (g b : Nat) (h : P s) : P (Machine.addMark g b s) :=
  hP.grp _ _ _ (fun G => by split <;> exact ⟨rfl, rfl, rfl, rfl, rfl, rfl, ⟨rfl, rfl, rfl⟩, rfl⟩) h
theorem Quiet.closeAfter (c : Cur) (h : P s) : P (closeAfter c s) := by
  unfold Machine.closeAfter; split
  · exact h
  · split
    · exact hP.detClose _ (hP.addMark _ _ h)
    · exact hP.closePair _ _ h
theorem Quiet.closeBefore (i : Instr) (c : Cur) (h : P s) : P (closeBefore i c s) := by
  unfold Machine.closeBefore; split
  · have h1 : P (if closesBefore i then Machine.addMark c.g c.w.seq s else s) := by
      split
      · exact hP.addMark _ _ h
      · exact h
    dsimp only
    refine hP.detClose _ ?_
    split
    · exact hP.addMark _ _ h1
    · exact h1
  · exact h
theorem Quiet.place (i : Instr) (c : Cur) (h : P s) : P (place i c s) :=
  hP.grp _ _ _ (fun G => by
    dsimp only; unfold setSlot; split <;> exact ⟨rfl, rfl, rfl, rfl, rfl, rfl, ⟨rfl, rfl, rfl⟩, rfl⟩) h
theorem Quiet.enqueue (i : Instr) (c : Cur) (h : P s) : P (enqueue i c s) :=
  hP.grp _ _ _ (fun _ => ⟨rfl, rfl, rfl, rfl, rfl, rfl, ⟨rfl, rfl, rfl⟩, rfl⟩) h
theorem Quiet.hold (g seq : Nat) (what : Held) (low : Bool) (back : Option Nat) (h : P s) :
    P (hold g seq what s low back) := by
  have h1 : P (modPair { s with nextId := s.nextId + 1 } (pairOf s g) fun P =>
      { P with hb := P.hb ++ [{ newEntry s g seq what back with low := low }] }) := hP.pair _ _ _ (hP.next _ _ h)
  unfold Machine.hold
  dsimp only
  split
  · split
    · exact h1
    · exact hP.fills _ _ _ _ h1
  · exact h1
theorem Quiet.rejoinQueue (i : Instr) (c : Cur) (h : P s) : P (rejoinQueue i c s) :=
  hP.grp _ _ _ (fun _ => ⟨rfl, rfl, rfl, rfl, rfl, rfl, ⟨rfl, rfl, rfl⟩, rfl⟩) (hP.enqueue _ _ h)

end

/-- The state that an outcome of a word's own effect carries. -/
def Res.state : Res → State
  | .done s => s
  | .wait _ s => s
  | .fly _ s => s
  | .trap _ _ _ _ _ s => s
  | .doneTrap _ _ s => s

section
variable {P : State → Prop} (hP : Quiet P) {s : State}
include hP

/-- Carrying out an outcome keeps what the word's own effect keeps. -/
theorem Quiet.applyRes (c : Cur) (i : Instr) {r : Res} (h : P r.state) : P (applyRes c i r) := by
  cases r with
  | done _ => exact hP.finish _ _ h
  | wait _ _ => exact hP.requeue _ _ _ h
  | fly _ _ =>
    unfold Machine.applyRes
    refine hP.grp _ _ _ ?_ (hP.dequeue _ _ h)
    exact (fun _ => ⟨rfl, rfl, rfl, rfl, rfl, rfl, ⟨rfl, rfl, rfl⟩, rfl⟩)
  | trap _ _ _ _ _ _ => exact hP.raiseTrap _ _ (hP.requeue _ _ _ h)
  | doneTrap _ _ _ => exact hP.raiseTrap _ _ (hP.requeue _ _ _ h)

/-- The wrapper of the instruction words keeps every quiet property that the word's own effect keeps: whether the
word completes, waits, traps, is placed or is held back. -/
theorem Quiet.wordStep (i : Instr) {body : Cur → State → Res} (c : Cur)
    (hb : ∀ t, P t → P (body c t).state) (h : P s) : P (wordStep i body c s) := by
  have run : ∀ t, P t → P (runWord i body c t) := by
    intro t ht
    unfold Machine.runWord
    split
    · refine hP.finish _ _ ?_
      split
      · exact hP.resolve _ _ ht
      · exact ht
    · split
      · exact hP.applyRes _ _ ht
      · refine hP.applyRes _ _ ?_
        unfold checkCharge
        dsimp only
        split
        · exact hb t ht
        · split
          · exact ht
          · exact hb t ht
  have taken : ∀ t, P t → P (takeWord i body c t) := by
    intro t ht
    have placed := hP.closeBefore i c (hP.place i c ht)
    unfold Machine.takeWord
    split
    · exact ht
    · split
      · exact hP.raiseTrap _ _ ht
      · split
        · exact ht
        · dsimp only
          split
          · exact run _ placed
          · exact hP.enqueue _ _ placed
  have h1 := hP.useRot c.g c.w (hP.detClose c.g h)
  unfold Machine.wordStep
  dsimp only
  split
  · exact h1
  · split
    · split
      · exact run _ h1
      · exact h1
    · split
      · exact hP.rejoinQueue _ _ h1
      · exact taken _ h1

/-- The same for the instruction itself. -/
theorem Quiet.word {i : Instr} {body : Cur → State → Res} {c : Cur} {t : State} (hc : s.cur = some c)
    (he : word i body s = .next t) (hb : ∀ u, P u → P (body c u).state) (h : P (rest s)) : P t := by
  rw [word_some hc] at he
  injection he with he
  rw [← he]
  exact hP.wordStep i c hb h

end

end Sys2Proof.Machine
end

