-- ==== Sys2Proof/Laws/PerInstr.lean ====
section
/-!
SUPPORT. Sys2Proof/Laws/PerInstr.lean: the family `Entry`, one lemma for each constructor: the opcode map lists a
word's engine and opcode, in the word's form, with the constructor that builds the word again from its fields. It is
what encoding and decoding have to agree on, instruction by instruction.
-/
namespace Sys2Proof.Laws

/-- An entry of the opcode map admits the instruction's form and rebuilds it from its fields. -/
def Fits (e : OpEntry) (i : Instr) : Prop :=
  match i.flds.form with
  | .short => ∃ f w, e.short = some f ∧ f w = i ∧ w.flds = i.flds
  | .extX => ∃ f w, e.long = .x f ∧ f w = i ∧ w.flds = i.flds
  | .extK => ∃ f w, e.long = .k f ∧ f w = i ∧ w.flds = i.flds

/-- The opcode map has the entry that fits a well-formed word. -/
def Entry.Statement (i : Instr) : Prop :=
  ∀ r, i.row = some r → i.wellFormed = true →
    ∃ e, opEntry (BitVec.ofNat 3 r.eng) (BitVec.ofNat 7 r.op) = some e ∧ Fits e i

theorem Entry.nop (e : BitVec 3) (w : SW) : Entry.Statement (.nop e w) := by
  intro r hr _; cases hr
  refine ⟨⟨0x00, some (.nop e), .none⟩, ?_, .nop e, w, rfl, rfl, rfl⟩
  simp [rowNop, Row.mk0, opEntry]
theorem Entry.twait (e : BitVec 3) (w : SW) : Entry.Statement (.twait e w) := by
  intro r hr _; cases hr
  refine ⟨⟨0x7e, some (.twait e), .none⟩, ?_, .twait e, w, rfl, rfl, rfl⟩
  simp [rowTwait, Row.mk0, opEntry]
theorem Entry.tsig (e : BitVec 3) (w : SW) : Entry.Statement (.tsig e w) := by
  intro r hr _; cases hr
  refine ⟨⟨0x7f, some (.tsig e), .none⟩, ?_, .tsig e, w, rfl, rfl, rfl⟩
  simp [rowTsig, Row.mk0, opEntry]
theorem Entry.sli (w : KW) : Entry.Statement (.sli w) := by
  intro r hr _; cases hr; exact ⟨_, rfl, .sli, w, rfl, rfl, rfl⟩
theorem Entry.slih (w : KW) : Entry.Statement (.slih w) := by
  intro r hr _; cases hr; exact ⟨_, rfl, .slih, w, rfl, rfl, rfl⟩
theorem Entry.smov (w : SW) : Entry.Statement (.smov w) := by
  intro r hr _; cases hr; exact ⟨_, rfl, .smov, w, rfl, rfl, rfl⟩
theorem Entry.sadd (w : SW) : Entry.Statement (.sadd w) := by
  intro r hr _; cases hr; exact ⟨_, rfl, .sadd, w, rfl, rfl, rfl⟩
theorem Entry.saddX (w : XW) : Entry.Statement (.saddX w) := by
  intro r hr _; cases hr; exact ⟨_, rfl, .saddX, w, rfl, rfl, rfl⟩
theorem Entry.ssub (w : SW) : Entry.Statement (.ssub w) := by
  intro r hr _; cases hr; exact ⟨_, rfl, .ssub, w, rfl, rfl, rfl⟩
theorem Entry.ssubX (w : XW) : Entry.Statement (.ssubX w) := by
  intro r hr _; cases hr; exact ⟨_, rfl, .ssubX, w, rfl, rfl, rfl⟩
theorem Entry.smul (w : SW) : Entry.Statement (.smul w) := by
  intro r hr _; cases hr; exact ⟨_, rfl, .smul, w, rfl, rfl, rfl⟩
theorem Entry.smulX (w : XW) : Entry.Statement (.smulX w) := by
  intro r hr _; cases hr; exact ⟨_, rfl, .smulX, w, rfl, rfl, rfl⟩
theorem Entry.smulh (w : SW) : Entry.Statement (.smulh w) := by
  intro r hr _; cases hr; exact ⟨_, rfl, .smulh, w, rfl, rfl, rfl⟩
theorem Entry.smulhX (w : XW) : Entry.Statement (.smulhX w) := by
  intro r hr _; cases hr; exact ⟨_, rfl, .smulhX, w, rfl, rfl, rfl⟩
theorem Entry.sand (w : SW) : Entry.Statement (.sand w) := by
  intro r hr _; cases hr; exact ⟨_, rfl, .sand, w, rfl, rfl, rfl⟩
theorem Entry.sandX (w : XW) : Entry.Statement (.sandX w) := by
  intro r hr _; cases hr; exact ⟨_, rfl, .sandX, w, rfl, rfl, rfl⟩
theorem Entry.sor (w : SW) : Entry.Statement (.sor w) := by
  intro r hr _; cases hr; exact ⟨_, rfl, .sor, w, rfl, rfl, rfl⟩
theorem Entry.sorX (w : XW) : Entry.Statement (.sorX w) := by
  intro r hr _; cases hr; exact ⟨_, rfl, .sorX, w, rfl, rfl, rfl⟩
theorem Entry.sxor (w : SW) : Entry.Statement (.sxor w) := by
  intro r hr _; cases hr; exact ⟨_, rfl, .sxor, w, rfl, rfl, rfl⟩
theorem Entry.sxorX (w : XW) : Entry.Statement (.sxorX w) := by
  intro r hr _; cases hr; exact ⟨_, rfl, .sxorX, w, rfl, rfl, rfl⟩
theorem Entry.sshl (w : SW) : Entry.Statement (.sshl w) := by
  intro r hr _; cases hr; exact ⟨_, rfl, .sshl, w, rfl, rfl, rfl⟩
theorem Entry.sshlX (w : XW) : Entry.Statement (.sshlX w) := by
  intro r hr _; cases hr; exact ⟨_, rfl, .sshlX, w, rfl, rfl, rfl⟩
theorem Entry.sshr (w : SW) : Entry.Statement (.sshr w) := by
  intro r hr _; cases hr; exact ⟨_, rfl, .sshr, w, rfl, rfl, rfl⟩
theorem Entry.sshrX (w : XW) : Entry.Statement (.sshrX w) := by
  intro r hr _; cases hr; exact ⟨_, rfl, .sshrX, w, rfl, rfl, rfl⟩
theorem Entry.ssra (w : SW) : Entry.Statement (.ssra w) := by
  intro r hr _; cases hr; exact ⟨_, rfl, .ssra, w, rfl, rfl, rfl⟩
theorem Entry.ssraX (w : XW) : Entry.Statement (.ssraX w) := by
  intro r hr _; cases hr; exact ⟨_, rfl, .ssraX, w, rfl, rfl, rfl⟩
theorem Entry.smin (w : SW) : Entry.Statement (.smin w) := by
  intro r hr _; cases hr; exact ⟨_, rfl, .smin, w, rfl, rfl, rfl⟩
theorem Entry.sminX (w : XW) : Entry.Statement (.sminX w) := by
  intro r hr _; cases hr; exact ⟨_, rfl, .sminX, w, rfl, rfl, rfl⟩
theorem Entry.smax (w : SW) : Entry.Statement (.smax w) := by
  intro r hr _; cases hr; exact ⟨_, rfl, .smax, w, rfl, rfl, rfl⟩
theorem Entry.smaxX (w : XW) : Entry.Statement (.smaxX w) := by
  intro r hr _; cases hr; exact ⟨_, rfl, .smaxX, w, rfl, rfl, rfl⟩
theorem Entry.scmp (w : XW) : Entry.Statement (.scmp w) := by
  intro r hr _; cases hr; exact ⟨_, rfl, .scmp, w, rfl, rfl, rfl⟩
theorem Entry.ssel (w : XW) : Entry.Statement (.ssel w) := by
  intro r hr _; cases hr; exact ⟨_, rfl, .ssel, w, rfl, rfl, rfl⟩
theorem Entry.srd (w : SW) : Entry.Statement (.srd w) := by
  intro r hr _; cases hr; exact ⟨_, rfl, .srd, w, rfl, rfl, rfl⟩
theorem Entry.bra (w : KW) : Entry.Statement (.bra w) := by
  intro r hr _; cases hr; exact ⟨_, rfl, .bra, w, rfl, rfl, rfl⟩
theorem Entry.brc (w : KW) : Entry.Statement (.brc w) := by
  intro r hr _; cases hr; exact ⟨_, rfl, .brc, w, rfl, rfl, rfl⟩
theorem Entry.brx (w : SW) : Entry.Statement (.brx w) := by
  intro r hr _; cases hr; exact ⟨_, rfl, .brx, w, rfl, rfl, rfl⟩
theorem Entry.call (w : KW) : Entry.Statement (.call w) := by
  intro r hr _; cases hr; exact ⟨_, rfl, .call, w, rfl, rfl, rfl⟩
theorem Entry.ret (w : SW) : Entry.Statement (.ret w) := by
  intro r hr _; cases hr; exact ⟨_, rfl, .ret, w, rfl, rfl, rfl⟩
theorem Entry.bdiv (w : KW) : Entry.Statement (.bdiv w) := by
  intro r hr _; cases hr; exact ⟨_, rfl, .bdiv, w, rfl, rfl, rfl⟩
theorem Entry.mark (w : KW) : Entry.Statement (.mark w) := by
  intro r hr _; cases hr; exact ⟨_, rfl, .mark, w, rfl, rfl, rfl⟩
theorem Entry.join (w : SW) : Entry.Statement (.join w) := by
  intro r hr _; cases hr; exact ⟨_, rfl, .join, w, rfl, rfl, rfl⟩
theorem Entry.loop (w : KW) : Entry.Statement (.loop w) := by
  intro r hr _; cases hr; exact ⟨_, rfl, .loop, w, rfl, rfl, rfl⟩
theorem Entry.endl (w : KW) : Entry.Statement (.endl w) := by
  intro r hr _; cases hr; exact ⟨_, rfl, .endl, w, rfl, rfl, rfl⟩
theorem Entry.exit (w : SW) : Entry.Statement (.exit w) := by
  intro r hr _; cases hr; exact ⟨_, rfl, .exit, w, rfl, rfl, rfl⟩
theorem Entry.iadd (w : SW) : Entry.Statement (.iadd w) := by
  intro r hr _; cases hr; exact ⟨_, rfl, .iadd, w, rfl, rfl, rfl⟩
theorem Entry.iaddX (w : XW) : Entry.Statement (.iaddX w) := by
  intro r hr _; cases hr; exact ⟨_, rfl, .iaddX, w, rfl, rfl, rfl⟩
theorem Entry.isub (w : SW) : Entry.Statement (.isub w) := by
  intro r hr _; cases hr; exact ⟨_, rfl, .isub, w, rfl, rfl, rfl⟩
theorem Entry.isubX (w : XW) : Entry.Statement (.isubX w) := by
  intro r hr _; cases hr; exact ⟨_, rfl, .isubX, w, rfl, rfl, rfl⟩
theorem Entry.imul (w : SW) : Entry.Statement (.imul w) := by
  intro r hr _; cases hr; exact ⟨_, rfl, .imul, w, rfl, rfl, rfl⟩
theorem Entry.imulX (w : XW) : Entry.Statement (.imulX w) := by
  intro r hr _; cases hr; exact ⟨_, rfl, .imulX, w, rfl, rfl, rfl⟩
theorem Entry.imulh (w : SW) : Entry.Statement (.imulh w) := by
  intro r hr _; cases hr; exact ⟨_, rfl, .imulh, w, rfl, rfl, rfl⟩
theorem Entry.imulhX (w : XW) : Entry.Statement (.imulhX w) := by
  intro r hr _; cases hr; exact ⟨_, rfl, .imulhX, w, rfl, rfl, rfl⟩
theorem Entry.imad (w : XW) : Entry.Statement (.imad w) := by
  intro r hr _; cases hr; exact ⟨_, rfl, .imad, w, rfl, rfl, rfl⟩
theorem Entry.iand (w : SW) : Entry.Statement (.iand w) := by
  intro r hr _; cases hr; exact ⟨_, rfl, .iand, w, rfl, rfl, rfl⟩
theorem Entry.iandX (w : XW) : Entry.Statement (.iandX w) := by
  intro r hr _; cases hr; exact ⟨_, rfl, .iandX, w, rfl, rfl, rfl⟩
theorem Entry.ior (w : SW) : Entry.Statement (.ior w) := by
  intro r hr _; cases hr; exact ⟨_, rfl, .ior, w, rfl, rfl, rfl⟩
theorem Entry.iorX (w : XW) : Entry.Statement (.iorX w) := by
  intro r hr _; cases hr; exact ⟨_, rfl, .iorX, w, rfl, rfl, rfl⟩
theorem Entry.ixor (w : SW) : Entry.Statement (.ixor w) := by
  intro r hr _; cases hr; exact ⟨_, rfl, .ixor, w, rfl, rfl, rfl⟩
theorem Entry.ixorX (w : XW) : Entry.Statement (.ixorX w) := by
  intro r hr _; cases hr; exact ⟨_, rfl, .ixorX, w, rfl, rfl, rfl⟩
theorem Entry.ishl (w : SW) : Entry.Statement (.ishl w) := by
  intro r hr _; cases hr; exact ⟨_, rfl, .ishl, w, rfl, rfl, rfl⟩
theorem Entry.ishlX (w : XW) : Entry.Statement (.ishlX w) := by
  intro r hr _; cases hr; exact ⟨_, rfl, .ishlX, w, rfl, rfl, rfl⟩
theorem Entry.ishr (w : SW) : Entry.Statement (.ishr w) := by
  intro r hr _; cases hr; exact ⟨_, rfl, .ishr, w, rfl, rfl, rfl⟩
theorem Entry.ishrX (w : XW) : Entry.Statement (.ishrX w) := by
  intro r hr _; cases hr; exact ⟨_, rfl, .ishrX, w, rfl, rfl, rfl⟩
theorem Entry.isra (w : SW) : Entry.Statement (.isra w) := by
  intro r hr _; cases hr; exact ⟨_, rfl, .isra, w, rfl, rfl, rfl⟩
theorem Entry.israX (w : XW) : Entry.Statement (.israX w) := by
  intro r hr _; cases hr; exact ⟨_, rfl, .israX, w, rfl, rfl, rfl⟩
theorem Entry.imin (w : SW) : Entry.Statement (.imin w) := by
  intro r hr _; cases hr; exact ⟨_, rfl, .imin, w, rfl, rfl, rfl⟩
theorem Entry.iminX (w : XW) : Entry.Statement (.iminX w) := by
  intro r hr _; cases hr; exact ⟨_, rfl, .iminX, w, rfl, rfl, rfl⟩
theorem Entry.imax (w : SW) : Entry.Statement (.imax w) := by
  intro r hr _; cases hr; exact ⟨_, rfl, .imax, w, rfl, rfl, rfl⟩
theorem Entry.imaxX (w : XW) : Entry.Statement (.imaxX w) := by
  intro r hr _; cases hr; exact ⟨_, rfl, .imaxX, w, rfl, rfl, rfl⟩
theorem Entry.iabs (w : SW) : Entry.Statement (.iabs w) := by
  intro r hr _; cases hr; exact ⟨_, rfl, .iabs, w, rfl, rfl, rfl⟩
theorem Entry.iabsX (w : XW) : Entry.Statement (.iabsX w) := by
  intro r hr _; cases hr; exact ⟨_, rfl, .iabsX, w, rfl, rfl, rfl⟩
theorem Entry.iclz (w : SW) : Entry.Statement (.iclz w) := by
  intro r hr _; cases hr; exact ⟨_, rfl, .iclz, w, rfl, rfl, rfl⟩
theorem Entry.iclzX (w : XW) : Entry.Statement (.iclzX w) := by
  intro r hr _; cases hr; exact ⟨_, rfl, .iclzX, w, rfl, rfl, rfl⟩
theorem Entry.ipopc (w : SW) : Entry.Statement (.ipopc w) := by
  intro r hr _; cases hr; exact ⟨_, rfl, .ipopc, w, rfl, rfl, rfl⟩
theorem Entry.ipopcX (w : XW) : Entry.Statement (.ipopcX w) := by
  intro r hr _; cases hr; exact ⟨_, rfl, .ipopcX, w, rfl, rfl, rfl⟩
theorem Entry.ibrev (w : SW) : Entry.Statement (.ibrev w) := by
  intro r hr _; cases hr; exact ⟨_, rfl, .ibrev, w, rfl, rfl, rfl⟩
theorem Entry.ibrevX (w : XW) : Entry.Statement (.ibrevX w) := by
  intro r hr _; cases hr; exact ⟨_, rfl, .ibrevX, w, rfl, rfl, rfl⟩
theorem Entry.ibfx (w : XW) : Entry.Statement (.ibfx w) := by
  intro r hr _; cases hr; exact ⟨_, rfl, .ibfx, w, rfl, rfl, rfl⟩
theorem Entry.ibfi (w : XW) : Entry.Statement (.ibfi w) := by
  intro r hr _; cases hr; exact ⟨_, rfl, .ibfi, w, rfl, rfl, rfl⟩
theorem Entry.isel (w : XW) : Entry.Statement (.isel w) := by
  intro r hr _; cases hr; exact ⟨_, rfl, .isel, w, rfl, rfl, rfl⟩
theorem Entry.imov (w : SW) : Entry.Statement (.imov w) := by
  intro r hr _; cases hr; exact ⟨_, rfl, .imov, w, rfl, rfl, rfl⟩
theorem Entry.imovX (w : XW) : Entry.Statement (.imovX w) := by
  intro r hr _; cases hr; exact ⟨_, rfl, .imovX, w, rfl, rfl, rfl⟩
theorem Entry.imovi (w : KW) : Entry.Statement (.imovi w) := by
  intro r hr _; cases hr; exact ⟨_, rfl, .imovi, w, rfl, rfl, rfl⟩
theorem Entry.icmp (w : XW) : Entry.Statement (.icmp w) := by
  intro r hr _; cases hr; exact ⟨_, rfl, .icmp, w, rfl, rfl, rfl⟩
theorem Entry.fadd (w : SW) : Entry.Statement (.fadd w) := by
  intro r hr _; cases hr; exact ⟨_, rfl, .fadd, w, rfl, rfl, rfl⟩
theorem Entry.faddX (w : XW) : Entry.Statement (.faddX w) := by
  intro r hr _; cases hr; exact ⟨_, rfl, .faddX, w, rfl, rfl, rfl⟩
theorem Entry.fsub (w : SW) : Entry.Statement (.fsub w) := by
  intro r hr _; cases hr; exact ⟨_, rfl, .fsub, w, rfl, rfl, rfl⟩
theorem Entry.fsubX (w : XW) : Entry.Statement (.fsubX w) := by
  intro r hr _; cases hr; exact ⟨_, rfl, .fsubX, w, rfl, rfl, rfl⟩
theorem Entry.fmul (w : SW) : Entry.Statement (.fmul w) := by
  intro r hr _; cases hr; exact ⟨_, rfl, .fmul, w, rfl, rfl, rfl⟩
theorem Entry.fmulX (w : XW) : Entry.Statement (.fmulX w) := by
  intro r hr _; cases hr; exact ⟨_, rfl, .fmulX, w, rfl, rfl, rfl⟩
theorem Entry.ffma (w : XW) : Entry.Statement (.ffma w) := by
  intro r hr _; cases hr; exact ⟨_, rfl, .ffma, w, rfl, rfl, rfl⟩
theorem Entry.fmin (w : SW) : Entry.Statement (.fmin w) := by
  intro r hr _; cases hr; exact ⟨_, rfl, .fmin, w, rfl, rfl, rfl⟩
theorem Entry.fminX (w : XW) : Entry.Statement (.fminX w) := by
  intro r hr _; cases hr; exact ⟨_, rfl, .fminX, w, rfl, rfl, rfl⟩
theorem Entry.fmax (w : SW) : Entry.Statement (.fmax w) := by
  intro r hr _; cases hr; exact ⟨_, rfl, .fmax, w, rfl, rfl, rfl⟩
theorem Entry.fmaxX (w : XW) : Entry.Statement (.fmaxX w) := by
  intro r hr _; cases hr; exact ⟨_, rfl, .fmaxX, w, rfl, rfl, rfl⟩
theorem Entry.fcmp (w : XW) : Entry.Statement (.fcmp w) := by
  intro r hr _; cases hr; exact ⟨_, rfl, .fcmp, w, rfl, rfl, rfl⟩
theorem Entry.fclass (w : SW) : Entry.Statement (.fclass w) := by
  intro r hr _; cases hr; exact ⟨_, rfl, .fclass, w, rfl, rfl, rfl⟩
theorem Entry.fclassX (w : XW) : Entry.Statement (.fclassX w) := by
  intro r hr _; cases hr; exact ⟨_, rfl, .fclassX, w, rfl, rfl, rfl⟩
theorem Entry.frcp (w : SW) : Entry.Statement (.frcp w) := by
  intro r hr _; cases hr; exact ⟨_, rfl, .frcp, w, rfl, rfl, rfl⟩
theorem Entry.frcpX (w : XW) : Entry.Statement (.frcpX w) := by
  intro r hr _; cases hr; exact ⟨_, rfl, .frcpX, w, rfl, rfl, rfl⟩
theorem Entry.frsq (w : SW) : Entry.Statement (.frsq w) := by
  intro r hr _; cases hr; exact ⟨_, rfl, .frsq, w, rfl, rfl, rfl⟩
theorem Entry.frsqX (w : XW) : Entry.Statement (.frsqX w) := by
  intro r hr _; cases hr; exact ⟨_, rfl, .frsqX, w, rfl, rfl, rfl⟩
theorem Entry.fsqrt (w : SW) : Entry.Statement (.fsqrt w) := by
  intro r hr _; cases hr; exact ⟨_, rfl, .fsqrt, w, rfl, rfl, rfl⟩
theorem Entry.fsqrtX (w : XW) : Entry.Statement (.fsqrtX w) := by
  intro r hr _; cases hr; exact ⟨_, rfl, .fsqrtX, w, rfl, rfl, rfl⟩
theorem Entry.fdiv (w : SW) : Entry.Statement (.fdiv w) := by
  intro r hr _; cases hr; exact ⟨_, rfl, .fdiv, w, rfl, rfl, rfl⟩
theorem Entry.fdivX (w : XW) : Entry.Statement (.fdivX w) := by
  intro r hr _; cases hr; exact ⟨_, rfl, .fdivX, w, rfl, rfl, rfl⟩
theorem Entry.fex2 (w : SW) : Entry.Statement (.fex2 w) := by
  intro r hr _; cases hr; exact ⟨_, rfl, .fex2, w, rfl, rfl, rfl⟩
theorem Entry.fex2X (w : XW) : Entry.Statement (.fex2X w) := by
  intro r hr _; cases hr; exact ⟨_, rfl, .fex2X, w, rfl, rfl, rfl⟩
theorem Entry.flg2 (w : SW) : Entry.Statement (.flg2 w) := by
  intro r hr _; cases hr; exact ⟨_, rfl, .flg2, w, rfl, rfl, rfl⟩
theorem Entry.flg2X (w : XW) : Entry.Statement (.flg2X w) := by
  intro r hr _; cases hr; exact ⟨_, rfl, .flg2X, w, rfl, rfl, rfl⟩
theorem Entry.fscale (w : SW) : Entry.Statement (.fscale w) := by
  intro r hr _; cases hr; exact ⟨_, rfl, .fscale, w, rfl, rfl, rfl⟩
theorem Entry.fscaleX (w : XW) : Entry.Statement (.fscaleX w) := by
  intro r hr _; cases hr; exact ⟨_, rfl, .fscaleX, w, rfl, rfl, rfl⟩
theorem Entry.cvt (w : XW) : Entry.Statement (.cvt w) := by
  intro r hr _; cases hr; exact ⟨_, rfl, .cvt, w, rfl, rfl, rfl⟩
theorem Entry.quant (w : XW) : Entry.Statement (.quant w) := by
  intro r hr _; cases hr; exact ⟨_, rfl, .quant, w, rfl, rfl, rfl⟩
theorem Entry.dqnt (w : XW) : Entry.Statement (.dqnt w) := by
  intro r hr _; cases hr; exact ⟨_, rfl, .dqnt, w, rfl, rfl, rfl⟩
theorem Entry.skey (w : SW) : Entry.Statement (.skey w) := by
  intro r hr _; cases hr; exact ⟨_, rfl, .skey, w, rfl, rfl, rfl⟩
theorem Entry.skeyX (w : XW) : Entry.Statement (.skeyX w) := by
  intro r hr _; cases hr; exact ⟨_, rfl, .skeyX, w, rfl, rfl, rfl⟩
theorem Entry.lshuf (w : SW) : Entry.Statement (.lshuf w) := by
  intro r hr _; cases hr; exact ⟨_, rfl, .lshuf, w, rfl, rfl, rfl⟩
theorem Entry.lshufX (w : XW) : Entry.Statement (.lshufX w) := by
  intro r hr _; cases hr; exact ⟨_, rfl, .lshufX, w, rfl, rfl, rfl⟩
theorem Entry.lbcast (w : SW) : Entry.Statement (.lbcast w) := by
  intro r hr _; cases hr; exact ⟨_, rfl, .lbcast, w, rfl, rfl, rfl⟩
theorem Entry.lbcastX (w : XW) : Entry.Statement (.lbcastX w) := by
  intro r hr _; cases hr; exact ⟨_, rfl, .lbcastX, w, rfl, rfl, rfl⟩
theorem Entry.lvote (w : SW) : Entry.Statement (.lvote w) := by
  intro r hr _; cases hr; exact ⟨_, rfl, .lvote, w, rfl, rfl, rfl⟩
theorem Entry.lvoteX (w : XW) : Entry.Statement (.lvoteX w) := by
  intro r hr _; cases hr; exact ⟨_, rfl, .lvoteX, w, rfl, rfl, rfl⟩
theorem Entry.lread (w : XW) : Entry.Statement (.lread w) := by
  intro r hr _; cases hr; exact ⟨_, rfl, .lread, w, rfl, rfl, rfl⟩
theorem Entry.lwrite (w : XW) : Entry.Statement (.lwrite w) := by
  intro r hr _; cases hr; exact ⟨_, rfl, .lwrite, w, rfl, rfl, rfl⟩
theorem Entry.gred (w : XW) : Entry.Statement (.gred w) := by
  intro r hr _; cases hr; exact ⟨_, rfl, .gred, w, rfl, rfl, rfl⟩
theorem Entry.gscan (w : XW) : Entry.Statement (.gscan w) := by
  intro r hr _; cases hr; exact ⟨_, rfl, .gscan, w, rfl, rfl, rfl⟩
theorem Entry.pand (w : SW) : Entry.Statement (.pand w) := by
  intro r hr _; cases hr; exact ⟨_, rfl, .pand, w, rfl, rfl, rfl⟩
theorem Entry.pandX (w : XW) : Entry.Statement (.pandX w) := by
  intro r hr _; cases hr; exact ⟨_, rfl, .pandX, w, rfl, rfl, rfl⟩
theorem Entry.por (w : SW) : Entry.Statement (.por w) := by
  intro r hr _; cases hr; exact ⟨_, rfl, .por, w, rfl, rfl, rfl⟩
theorem Entry.porX (w : XW) : Entry.Statement (.porX w) := by
  intro r hr _; cases hr; exact ⟨_, rfl, .porX, w, rfl, rfl, rfl⟩
theorem Entry.pxor (w : SW) : Entry.Statement (.pxor w) := by
  intro r hr _; cases hr; exact ⟨_, rfl, .pxor, w, rfl, rfl, rfl⟩
theorem Entry.pxorX (w : XW) : Entry.Statement (.pxorX w) := by
  intro r hr _; cases hr; exact ⟨_, rfl, .pxorX, w, rfl, rfl, rfl⟩
theorem Entry.pset (w : XW) : Entry.Statement (.pset w) := by
  intro r hr _; cases hr; exact ⟨_, rfl, .pset, w, rfl, rfl, rfl⟩
theorem Entry.pget (w : SW) : Entry.Statement (.pget w) := by
  intro r hr _; cases hr; exact ⟨_, rfl, .pget, w, rfl, rfl, rfl⟩
theorem Entry.pgetX (w : XW) : Entry.Statement (.pgetX w) := by
  intro r hr _; cases hr; exact ⟨_, rfl, .pgetX, w, rfl, rfl, rfl⟩
theorem Entry.vrot (w : SW) : Entry.Statement (.vrot w) := by
  intro r hr _; cases hr; exact ⟨_, rfl, .vrot, w, rfl, rfl, rfl⟩
theorem Entry.ld (w : XW) : Entry.Statement (.ld w) := by
  intro r hr _; cases hr; exact ⟨_, rfl, .ld, w, rfl, rfl, rfl⟩
theorem Entry.st (w : XW) : Entry.Statement (.st w) := by
  intro r hr _; cases hr; exact ⟨_, rfl, .st, w, rfl, rfl, rfl⟩
theorem Entry.ldl (w : XW) : Entry.Statement (.ldl w) := by
  intro r hr _; cases hr; exact ⟨_, rfl, .ldl, w, rfl, rfl, rfl⟩
theorem Entry.stl (w : XW) : Entry.Statement (.stl w) := by
  intro r hr _; cases hr; exact ⟨_, rfl, .stl, w, rfl, rfl, rfl⟩
theorem Entry.lds (w : XW) : Entry.Statement (.lds w) := by
  intro r hr _; cases hr; exact ⟨_, rfl, .lds, w, rfl, rfl, rfl⟩
theorem Entry.sts (w : XW) : Entry.Statement (.sts w) := by
  intro r hr _; cases hr; exact ⟨_, rfl, .sts, w, rfl, rfl, rfl⟩
theorem Entry.atom (w : XW) : Entry.Statement (.atom w) := by
  intro r hr _; cases hr; exact ⟨_, rfl, .atom, w, rfl, rfl, rfl⟩
theorem Entry.atoml (w : XW) : Entry.Statement (.atoml w) := by
  intro r hr _; cases hr; exact ⟨_, rfl, .atoml, w, rfl, rfl, rfl⟩
theorem Entry.fence (w : XW) : Entry.Statement (.fence w) := by
  intro r hr _; cases hr; exact ⟨_, rfl, .fence, w, rfl, rfl, rfl⟩
theorem Entry.pfetch (w : XW) : Entry.Statement (.pfetch w) := by
  intro r hr _; cases hr; exact ⟨_, rfl, .pfetch, w, rfl, rfl, rfl⟩
theorem Entry.cwb (w : XW) : Entry.Statement (.cwb w) := by
  intro r hr _; cases hr; exact ⟨_, rfl, .cwb, w, rfl, rfl, rfl⟩
theorem Entry.cinv (w : XW) : Entry.Statement (.cinv w) := by
  intro r hr _; cases hr; exact ⟨_, rfl, .cinv, w, rfl, rfl, rfl⟩
theorem Entry.stmap (w : XW) : Entry.Statement (.stmap w) := by
  intro r hr _; cases hr; exact ⟨_, rfl, .stmap, w, rfl, rfl, rfl⟩
theorem Entry.stunmap (w : XW) : Entry.Statement (.stunmap w) := by
  intro r hr _; cases hr; exact ⟨_, rfl, .stunmap, w, rfl, rfl, rfl⟩
theorem Entry.stsync (w : XW) : Entry.Statement (.stsync w) := by
  intro r hr _; cases hr; exact ⟨_, rfl, .stsync, w, rfl, rfl, rfl⟩
theorem Entry.ptst (w : XW) : Entry.Statement (.ptst w) := by
  intro r hr _; cases hr; exact ⟨_, rfl, .ptst, w, rfl, rfl, rfl⟩
theorem Entry.xstrm (w : XW) : Entry.Statement (.xstrm w) := by
  intro r hr hw; cases hr
  refine ⟨_, rfl, xstrmForm, w, rfl, ?_, rfl⟩
  simp only [Instr.wellFormed, Instr.row, Row.staticCauses, List.isEmpty_iff, List.append_eq_nil_iff] at hw
  have h : (entryXstrm w.flds).modOk = true := by by_contra h; simp [h] at hw
  have h1 : w.mod ≠ 1#4 := by rintro h1; simp [entryXstrm, Row.mk0, XW.flds, h1] at h
  simp [xstrmForm, h1]
theorem Entry.xstrmGet (w : XW) : Entry.Statement (.xstrmGet w) := by
  intro r hr hw; cases hr
  refine ⟨_, rfl, xstrmForm, w, rfl, ?_, rfl⟩
  simp only [Instr.wellFormed, Instr.row, Row.staticCauses, List.isEmpty_iff, List.append_eq_nil_iff] at hw
  have h : (entryXstrmGet w.flds).modOk = true := by by_contra h; simp [h] at hw
  have h1 : w.mod = 1#4 := by
    apply BitVec.eq_of_toNat_eq
    exact of_decide_eq_true h
  simp [xstrmForm, h1]
theorem Entry.xmma (w : XW) : Entry.Statement (.xmma w) := by
  intro r hr _; cases hr; exact ⟨_, rfl, .xmma, w, rfl, rfl, rfl⟩
theorem Entry.xmmac (w : XW) : Entry.Statement (.xmmac w) := by
  intro r hr _; cases hr; exact ⟨_, rfl, .xmmac, w, rfl, rfl, rfl⟩
theorem Entry.ximma (w : XW) : Entry.Statement (.ximma w) := by
  intro r hr _; cases hr; exact ⟨_, rfl, .ximma, w, rfl, rfl, rfl⟩
theorem Entry.xzero (w : XW) : Entry.Statement (.xzero w) := by
  intro r hr _; cases hr; exact ⟨_, rfl, .xzero, w, rfl, rfl, rfl⟩
theorem Entry.xexp (w : XW) : Entry.Statement (.xexp w) := by
  intro r hr _; cases hr; exact ⟨_, rfl, .xexp, w, rfl, rfl, rfl⟩
theorem Entry.xnorm (w : XW) : Entry.Statement (.xnorm w) := by
  intro r hr _; cases hr; exact ⟨_, rfl, .xnorm, w, rfl, rfl, rfl⟩
theorem Entry.xgrd (w : XW) : Entry.Statement (.xgrd w) := by
  intro r hr _; cases hr; exact ⟨_, rfl, .xgrd, w, rfl, rfl, rfl⟩
theorem Entry.xrd (w : XW) : Entry.Statement (.xrd w) := by
  intro r hr _; cases hr; exact ⟨_, rfl, .xrd, w, rfl, rfl, rfl⟩
theorem Entry.xwr (w : XW) : Entry.Statement (.xwr w) := by
  intro r hr _; cases hr; exact ⟨_, rfl, .xwr, w, rfl, rfl, rfl⟩
theorem Entry.xflush (w : XW) : Entry.Statement (.xflush w) := by
  intro r hr _; cases hr; exact ⟨_, rfl, .xflush, w, rfl, rfl, rfl⟩
theorem Entry.xrun (w : XW) : Entry.Statement (.xrun w) := by
  intro r hr _; cases hr; exact ⟨_, rfl, .xrun, w, rfl, rfl, rfl⟩
theorem Entry.xpoll (w : XW) : Entry.Statement (.xpoll w) := by
  intro r hr _; cases hr; exact ⟨_, rfl, .xpoll, w, rfl, rfl, rfl⟩
theorem Entry.xkill (w : XW) : Entry.Statement (.xkill w) := by
  intro r hr _; cases hr; exact ⟨_, rfl, .xkill, w, rfl, rfl, rfl⟩
theorem Entry.cpy (w : XW) : Entry.Statement (.cpy w) := by
  intro r hr _; cases hr; exact ⟨_, rfl, .cpy, w, rfl, rfl, rfl⟩
theorem Entry.cpyt (w : XW) : Entry.Statement (.cpyt w) := by
  intro r hr _; cases hr; exact ⟨_, rfl, .cpyt, w, rfl, rfl, rfl⟩
theorem Entry.cpynd (w : XW) : Entry.Statement (.cpynd w) := by
  intro r hr _; cases hr; exact ⟨_, rfl, .cpynd, w, rfl, rfl, rfl⟩
theorem Entry.cpyg (w : XW) : Entry.Statement (.cpyg w) := by
  intro r hr _; cases hr; exact ⟨_, rfl, .cpyg, w, rfl, rfl, rfl⟩
theorem Entry.cpys (w : XW) : Entry.Statement (.cpys w) := by
  intro r hr _; cases hr; exact ⟨_, rfl, .cpys, w, rfl, rfl, rfl⟩
theorem Entry.cpyw (w : XW) : Entry.Statement (.cpyw w) := by
  intro r hr _; cases hr; exact ⟨_, rfl, .cpyw, w, rfl, rfl, rfl⟩
theorem Entry.rinit (w : XW) : Entry.Statement (.rinit w) := by
  intro r hr _; cases hr; exact ⟨_, rfl, .rinit, w, rfl, rfl, rfl⟩
theorem Entry.rwait (w : XW) : Entry.Statement (.rwait w) := by
  intro r hr _; cases hr; exact ⟨_, rfl, .rwait, w, rfl, rfl, rfl⟩
theorem Entry.rrel (w : XW) : Entry.Statement (.rrel w) := by
  intro r hr _; cases hr; exact ⟨_, rfl, .rrel, w, rfl, rfl, rfl⟩
theorem Entry.rpost (w : XW) : Entry.Statement (.rpost w) := by
  intro r hr _; cases hr; exact ⟨_, rfl, .rpost, w, rfl, rfl, rfl⟩
theorem Entry.rtail (w : XW) : Entry.Statement (.rtail w) := by
  intro r hr _; cases hr; exact ⟨_, rfl, .rtail, w, rfl, rfl, rfl⟩
theorem Entry.cqry (w : XW) : Entry.Statement (.cqry w) := by
  intro r hr _; cases hr; exact ⟨_, rfl, .cqry, w, rfl, rfl, rfl⟩
theorem Entry.bar (w : SW) : Entry.Statement (.bar w) := by
  intro r hr _; cases hr; exact ⟨_, rfl, .bar, w, rfl, rfl, rfl⟩
theorem Entry.barX (w : XW) : Entry.Statement (.barX w) := by
  intro r hr _; cases hr; exact ⟨_, rfl, .barX, w, rfl, rfl, rfl⟩
theorem Entry.bara (w : SW) : Entry.Statement (.bara w) := by
  intro r hr _; cases hr; exact ⟨_, rfl, .bara, w, rfl, rfl, rfl⟩
theorem Entry.baraX (w : XW) : Entry.Statement (.baraX w) := by
  intro r hr _; cases hr; exact ⟨_, rfl, .baraX, w, rfl, rfl, rfl⟩
theorem Entry.barw (w : SW) : Entry.Statement (.barw w) := by
  intro r hr _; cases hr; exact ⟨_, rfl, .barw, w, rfl, rfl, rfl⟩
theorem Entry.barwX (w : XW) : Entry.Statement (.barwX w) := by
  intro r hr _; cases hr; exact ⟨_, rfl, .barwX, w, rfl, rfl, rfl⟩
theorem Entry.bard (w : SW) : Entry.Statement (.bard w) := by
  intro r hr _; cases hr; exact ⟨_, rfl, .bard, w, rfl, rfl, rfl⟩
theorem Entry.bardX (w : XW) : Entry.Statement (.bardX w) := by
  intro r hr _; cases hr; exact ⟨_, rfl, .bardX, w, rfl, rfl, rfl⟩
theorem Entry.tbinit (w : XW) : Entry.Statement (.tbinit w) := by
  intro r hr _; cases hr; exact ⟨_, rfl, .tbinit, w, rfl, rfl, rfl⟩
theorem Entry.tbexp (w : XW) : Entry.Statement (.tbexp w) := by
  intro r hr _; cases hr; exact ⟨_, rfl, .tbexp, w, rfl, rfl, rfl⟩
theorem Entry.tbarr (w : XW) : Entry.Statement (.tbarr w) := by
  intro r hr _; cases hr; exact ⟨_, rfl, .tbarr, w, rfl, rfl, rfl⟩
theorem Entry.tbwait (w : XW) : Entry.Statement (.tbwait w) := by
  intro r hr _; cases hr; exact ⟨_, rfl, .tbwait, w, rfl, rfl, rfl⟩
theorem Entry.give (w : SW) : Entry.Statement (.give w) := by
  intro r hr _; cases hr; exact ⟨_, rfl, .give, w, rfl, rfl, rfl⟩
theorem Entry.giveX (w : XW) : Entry.Statement (.giveX w) := by
  intro r hr _; cases hr; exact ⟨_, rfl, .giveX, w, rfl, rfl, rfl⟩
theorem Entry.claim (w : SW) : Entry.Statement (.claim w) := by
  intro r hr _; cases hr; exact ⟨_, rfl, .claim, w, rfl, rfl, rfl⟩
theorem Entry.claimX (w : XW) : Entry.Statement (.claimX w) := by
  intro r hr _; cases hr; exact ⟨_, rfl, .claimX, w, rfl, rfl, rfl⟩
theorem Entry.qend (w : SW) : Entry.Statement (.qend w) := by
  intro r hr _; cases hr; exact ⟨_, rfl, .qend, w, rfl, rfl, rfl⟩
theorem Entry.qseal (w : SW) : Entry.Statement (.qseal w) := by
  intro r hr _; cases hr; exact ⟨_, rfl, .qseal, w, rfl, rfl, rfl⟩
theorem Entry.twtime (w : XW) : Entry.Statement (.twtime w) := by
  intro r hr _; cases hr; exact ⟨_, rfl, .twtime, w, rfl, rfl, rfl⟩
theorem Entry.yield (w : SW) : Entry.Statement (.yield w) := by
  intro r hr _; cases hr; exact ⟨_, rfl, .yield, w, rfl, rfl, rfl⟩
theorem Entry.rotcfg (w : XW) : Entry.Statement (.rotcfg w) := by
  intro r hr _; cases hr; exact ⟨_, rfl, .rotcfg, w, rfl, rfl, rfl⟩
theorem Entry.psh (w : XW) : Entry.Statement (.psh w) := by
  intro r hr _; cases hr; exact ⟨_, rfl, .psh, w, rfl, rfl, rfl⟩
theorem Entry.pop (w : XW) : Entry.Statement (.pop w) := by
  intro r hr _; cases hr; exact ⟨_, rfl, .pop, w, rfl, rfl, rfl⟩
theorem Entry.pstat (w : XW) : Entry.Statement (.pstat w) := by
  intro r hr _; cases hr; exact ⟨_, rfl, .pstat, w, rfl, rfl, rfl⟩
theorem Entry.lsnd (w : XW) : Entry.Statement (.lsnd w) := by
  intro r hr _; cases hr; exact ⟨_, rfl, .lsnd, w, rfl, rfl, rfl⟩
theorem Entry.lrcv (w : XW) : Entry.Statement (.lrcv w) := by
  intro r hr _; cases hr; exact ⟨_, rfl, .lrcv, w, rfl, rfl, rfl⟩
theorem Entry.lradd (w : XW) : Entry.Statement (.lradd w) := by
  intro r hr _; cases hr; exact ⟨_, rfl, .lradd, w, rfl, rfl, rfl⟩
theorem Entry.trins (w : XW) : Entry.Statement (.trins w) := by
  intro r hr _; cases hr; exact ⟨_, rfl, .trins, w, rfl, rfl, rfl⟩
theorem Entry.trdrw (w : XW) : Entry.Statement (.trdrw w) := by
  intro r hr _; cases hr; exact ⟨_, rfl, .trdrw, w, rfl, rfl, rfl⟩
theorem Entry.trupd (w : XW) : Entry.Statement (.trupd w) := by
  intro r hr _; cases hr; exact ⟨_, rfl, .trupd, w, rfl, rfl, rfl⟩
theorem Entry.trtot (w : XW) : Entry.Statement (.trtot w) := by
  intro r hr _; cases hr; exact ⟨_, rfl, .trtot, w, rfl, rfl, rfl⟩
theorem Entry.trwgt (w : XW) : Entry.Statement (.trwgt w) := by
  intro r hr _; cases hr; exact ⟨_, rfl, .trwgt, w, rfl, rfl, rfl⟩
theorem Entry.trcfg (w : XW) : Entry.Statement (.trcfg w) := by
  intro r hr _; cases hr; exact ⟨_, rfl, .trcfg, w, rfl, rfl, rfl⟩
theorem Entry.trap (w : KW) : Entry.Statement (.trap w) := by
  intro r hr _; cases hr; exact ⟨_, rfl, .trap, w, rfl, rfl, rfl⟩
theorem Entry.hret (w : SW) : Entry.Statement (.hret w) := by
  intro r hr _; cases hr; exact ⟨_, rfl, .hret, w, rfl, rfl, rfl⟩
theorem Entry.sysrd (w : XW) : Entry.Statement (.sysrd w) := by
  intro r hr _; cases hr; exact ⟨_, rfl, .sysrd, w, rfl, rfl, rfl⟩
theorem Entry.syswr (w : XW) : Entry.Statement (.syswr w) := by
  intro r hr _; cases hr; exact ⟨_, rfl, .syswr, w, rfl, rfl, rfl⟩
theorem Entry.wake (w : XW) : Entry.Statement (.wake w) := by
  intro r hr _; cases hr; exact ⟨_, rfl, .wake, w, rfl, rfl, rfl⟩
theorem Entry.gate (w : XW) : Entry.Statement (.gate w) := by
  intro r hr _; cases hr; exact ⟨_, rfl, .gate, w, rfl, rfl, rfl⟩
theorem Entry.halt (w : SW) : Entry.Statement (.halt w) := by
  intro r hr _; cases hr; exact ⟨_, rfl, .halt, w, rfl, rfl, rfl⟩
theorem Entry.bkpt (w : KW) : Entry.Statement (.bkpt w) := by
  intro r hr _; cases hr; exact ⟨_, rfl, .bkpt, w, rfl, rfl, rfl⟩
theorem Entry.jobarm (w : XW) : Entry.Statement (.jobarm w) := by
  intro r hr _; cases hr; exact ⟨_, rfl, .jobarm, w, rfl, rfl, rfl⟩
theorem Entry.jobdone (w : SW) : Entry.Statement (.jobdone w) := by
  intro r hr _; cases hr; exact ⟨_, rfl, .jobdone, w, rfl, rfl, rfl⟩
theorem Entry.jobyld (w : SW) : Entry.Statement (.jobyld w) := by
  intro r hr _; cases hr; exact ⟨_, rfl, .jobyld, w, rfl, rfl, rfl⟩
theorem Entry.susp (w : XW) : Entry.Statement (.susp w) := by
  intro r hr _; cases hr; exact ⟨_, rfl, .susp, w, rfl, rfl, rfl⟩
theorem Entry.fltrply (w : XW) : Entry.Statement (.fltrply w) := by
  intro r hr _; cases hr; exact ⟨_, rfl, .fltrply, w, rfl, rfl, rfl⟩
theorem Entry.trapDeliveryHandler (g : Nat) : Entry.Statement (.trapDeliveryHandler g) := by
  intro r hr; cases hr
theorem Entry.trapDeliveryHost (lk : Nat) : Entry.Statement (.trapDeliveryHost lk) := by
  intro r hr; cases hr
theorem Entry.claimDeadlock (g : Nat) : Entry.Statement (.claimDeadlock g) := by
  intro r hr; cases hr
theorem Entry.loadSectorReturn (g seq n : Nat) : Entry.Statement (.loadSectorReturn g seq n) := by
  intro r hr; cases hr
theorem Entry.tableWalkComplete (g va acc : Nat) : Entry.Statement (.tableWalkComplete g va acc) := by
  intro r hr; cases hr
theorem Entry.faultRecordWrite (n : Nat) : Entry.Statement (.faultRecordWrite n) := by
  intro r hr; cases hr
theorem Entry.dutyRecordWrite (n : Nat) : Entry.Statement (.dutyRecordWrite n) := by
  intro r hr; cases hr
theorem Entry.quantumTimedClose (pr : Nat) : Entry.Statement (.quantumTimedClose pr) := by
  intro r hr; cases hr
theorem Entry.quantumWordCountClose (pr : Nat) : Entry.Statement (.quantumWordCountClose pr) := by
  intro r hr; cases hr
theorem Entry.quantumCapacityClose (pr : Nat) : Entry.Statement (.quantumCapacityClose pr) := by
  intro r hr; cases hr
theorem Entry.detQuantumClose (g : Nat) : Entry.Statement (.detQuantumClose g) := by
  intro r hr; cases hr
theorem Entry.quantumSeal (det : Bool) (x : Nat) : Entry.Statement (.quantumSeal det x) := by
  intro r hr; cases hr
theorem Entry.holdbackDrain (pr n : Nat) (bad : Bool) : Entry.Statement (.holdbackDrain pr n bad) := by
  intro r hr; cases hr
theorem Entry.atomPerform (pr n : Nat) : Entry.Statement (.atomPerform pr n) := by
  intro r hr; cases hr
theorem Entry.clusterTbPerform (pr n : Nat) : Entry.Statement (.clusterTbPerform pr n) := by
  intro r hr; cases hr
theorem Entry.deviceAccessPerform (pr n : Nat) : Entry.Statement (.deviceAccessPerform pr n) := by
  intro r hr; cases hr
theorem Entry.systemWordPerform (pr n : Nat) : Entry.Statement (.systemWordPerform pr n) := by
  intro r hr; cases hr
theorem Entry.jobarmPerform (pr n : Nat) : Entry.Statement (.jobarmPerform pr n) := by
  intro r hr; cases hr
theorem Entry.epochCommit (n : Nat) : Entry.Statement (.epochCommit n) := by
  intro r hr; cases hr
theorem Entry.waveStart (n : Nat) : Entry.Statement (.waveStart n) := by
  intro r hr; cases hr
theorem Entry.launchComplete (n : Nat) : Entry.Statement (.launchComplete n) := by
  intro r hr; cases hr
theorem Entry.copyWriteStart (k id ch : Nat) : Entry.Statement (.copyWriteStart k id ch) := by
  intro r hr; cases hr
theorem Entry.cpytRelease (k id : Nat) : Entry.Statement (.cpytRelease k id) := by
  intro r hr; cases hr
theorem Entry.copyComplete (k id : Nat) : Entry.Statement (.copyComplete k id) := by
  intro r hr; cases hr
theorem Entry.ringTailObserved (k n : Nat) : Entry.Statement (.ringTailObserved k n) := by
  intro r hr; cases hr
theorem Entry.ringPullComplete (k id : Nat) : Entry.Statement (.ringPullComplete k id) := by
  intro r hr; cases hr
theorem Entry.portEntryDeliver (far : Bool) (g port i : Nat) : Entry.Statement (.portEntryDeliver far g port i) := by
  intro r hr; cases hr
theorem Entry.lsndSend (i : Nat) : Entry.Statement (.lsndSend i) := by
  intro r hr; cases hr
theorem Entry.linkMessageArrive (what i dev src dst chan : Nat) (bytes : List (BitVec 8)) : Entry.Statement (.linkMessageArrive what i dev src dst chan bytes) := by
  intro r hr; cases hr
theorem Entry.krypinRemoteRequest (what pa op ty b c partid : Nat) (bytes : List (BitVec 8)) : Entry.Statement (.krypinRemoteRequest what pa op ty b c partid bytes) := by
  intro r hr; cases hr
theorem Entry.flitReceive (n what x : Nat) : Entry.Statement (.flitReceive n what x) := by
  intro r hr; cases hr
theorem Entry.linkDown (n : Nat) : Entry.Statement (.linkDown n) := by
  intro r hr; cases hr
theorem Entry.lkctlRetrain (n : Nat) : Entry.Statement (.lkctlRetrain n) := by
  intro r hr; cases hr
theorem Entry.linkTimeExchange (n t1 t2 t3 t4 : Nat) : Entry.Statement (.linkTimeExchange n t1 t2 t3 t4) := by
  intro r hr; cases hr
theorem Entry.ptpMessage (m : PtpMsg) (lock : Bool) (t1 t2 t3 t4 : Nat) : Entry.Statement (.ptpMessage m lock t1 t2 t3 t4) := by
  intro r hr; cases hr
theorem Entry.timeSyncInterval (refTime : Nat) : Entry.Statement (.timeSyncInterval refTime) := by
  intro r hr; cases hr
theorem Entry.tset (x : Nat) : Entry.Statement (.tset x) := by
  intro r hr; cases hr
theorem Entry.cardRelease (n : Nat) : Entry.Statement (.cardRelease n) := by
  intro r hr; cases hr
theorem Entry.preemptCapture (lk c : Nat) : Entry.Statement (.preemptCapture lk c) := by
  intro r hr; cases hr
theorem Entry.detWavePreempt (n : Nat) : Entry.Statement (.detWavePreempt n) := by
  intro r hr; cases hr
theorem Entry.contextImageWrite (lk k : Nat) : Entry.Statement (.contextImageWrite lk k) := by
  intro r hr; cases hr
theorem Entry.contextFree (lk c : Nat) : Entry.Statement (.contextFree lk c) := by
  intro r hr; cases hr
theorem Entry.killComplete (n : Nat) : Entry.Statement (.killComplete n) := by
  intro r hr; cases hr
theorem Entry.deadlineMiss (n : Nat) : Entry.Statement (.deadlineMiss n) := by
  intro r hr; cases hr
theorem Entry.execBudgetOverrun (n : Nat) : Entry.Statement (.execBudgetOverrun n) := by
  intro r hr; cases hr
theorem Entry.bwBudgetOverrun (n : Nat) : Entry.Statement (.bwBudgetOverrun n) := by
  intro r hr; cases hr
theorem Entry.regulatorWindow : Entry.Statement (.regulatorWindow) := by
  intro r hr; cases hr
theorem Entry.regulatorRequest (pa pid card : Nat) (mine write : Bool) (err : Nat) : Entry.Statement (.regulatorRequest pa pid card mine write err) := by
  intro r hr; cases hr
theorem Entry.patrolScrub (pa err : Nat) : Entry.Statement (.patrolScrub pa err) := by
  intro r hr; cases hr
theorem Entry.unmappedAccess (pa : Nat) (write : Bool) : Entry.Statement (.unmappedAccess pa write) := by
  intro r hr; cases hr
theorem Entry.strikeReport (region n : Nat) (bad : Bool) (sectors : List (Nat × Nat)) : Entry.Statement (.strikeReport region n bad sectors) := by
  intro r hr; cases hr
theorem Entry.rollbackResume (pr : Nat) : Entry.Statement (.rollbackResume pr) := by
  intro r hr; cases hr
theorem Entry.scanDue : Entry.Statement (.scanDue) := by
  intro r hr; cases hr
theorem Entry.scanForceDrain (c : Nat) : Entry.Statement (.scanForceDrain c) := by
  intro r hr; cases hr
theorem Entry.scanComplete (c : Nat) (pass : Bool) (rows cols : Nat) (spent : Bool) : Entry.Statement (.scanComplete c pass rows cols spent) := by
  intro r hr; cases hr
theorem Entry.scannow (c : Nat) : Entry.Statement (.scannow c) := by
  intro r hr; cases hr
theorem Entry.redundantCompare (n : Nat) : Entry.Statement (.redundantCompare n) := by
  intro r hr; cases hr
theorem Entry.tileStep (k : Nat) : Entry.Statement (.tileStep k) := by
  intro r hr; cases hr
theorem Entry.tileStepEnd (k : Nat) : Entry.Statement (.tileStepEnd k) := by
  intro r hr; cases hr
theorem Entry.walkerOutputPerform (pr n : Nat) : Entry.Statement (.walkerOutputPerform pr n) := by
  intro r hr; cases hr
theorem Entry.walkerAbandonStep (k : Nat) : Entry.Statement (.walkerAbandonStep k) := by
  intro r hr; cases hr
theorem Entry.treeBaseWrite (n x : Nat) : Entry.Statement (.treeBaseWrite n x) := by
  intro r hr; cases hr
theorem Entry.treeLevelsWrite (n x : Nat) : Entry.Statement (.treeLevelsWrite n x) := by
  intro r hr; cases hr
theorem Entry.treeBetaWrite (n x : Nat) : Entry.Statement (.treeBetaWrite n x) := by
  intro r hr; cases hr
theorem Entry.treeNsizeWrite (n x : Nat) : Entry.Statement (.treeNsizeWrite n x) := by
  intro r hr; cases hr
theorem Entry.treeSeedWrite (n x : Nat) : Entry.Statement (.treeSeedWrite n x) := by
  intro r hr; cases hr
theorem Entry.sumtreeCommandPerform (pr n : Nat) : Entry.Statement (.sumtreeCommandPerform pr n) := by
  intro r hr; cases hr
theorem Entry.treeClearComplete (n : Nat) : Entry.Statement (.treeClearComplete n) := by
  intro r hr; cases hr
theorem Entry.arm (n : Nat) : Entry.Statement (.arm n) := by
  intro r hr; cases hr
theorem Entry.armTimed (n : Nat) : Entry.Statement (.armTimed n) := by
  intro r hr; cases hr
theorem Entry.parm (n : Nat) (timed : Bool) : Entry.Statement (.parm n timed) := by
  intro r hr; cases hr
theorem Entry.disarm (n : Nat) : Entry.Statement (.disarm n) := by
  intro r hr; cases hr
theorem Entry.dctlEnable : Entry.Statement (.dctlEnable) := by
  intro r hr; cases hr
theorem Entry.dctlDisable : Entry.Statement (.dctlDisable) := by
  intro r hr; cases hr
theorem Entry.dutyReplyAdmit (tag : Nat) : Entry.Statement (.dutyReplyAdmit tag) := by
  intro r hr; cases hr
theorem Entry.dutyReplyReject (tag : Nat) : Entry.Statement (.dutyReplyReject tag) := by
  intro r hr; cases hr
theorem Entry.dutyReplyPlace (tag mask : Nat) : Entry.Statement (.dutyReplyPlace tag mask) := by
  intro r hr; cases hr
theorem Entry.dutyReplyDefer (tag : Nat) : Entry.Statement (.dutyReplyDefer tag) := by
  intro r hr; cases hr
theorem Entry.dutyReplyReplay (tag : Nat) : Entry.Statement (.dutyReplyReplay tag) := by
  intro r hr; cases hr
theorem Entry.dutyReplyAbandon (tag : Nat) : Entry.Statement (.dutyReplyAbandon tag) := by
  intro r hr; cases hr
theorem Entry.dutyReplyGrantScan (tag : Nat) : Entry.Statement (.dutyReplyGrantScan tag) := by
  intro r hr; cases hr
theorem Entry.dutyReplyPostponeScan (tag : Nat) : Entry.Statement (.dutyReplyPostponeScan tag) := by
  intro r hr; cases hr
theorem Entry.dutyReplyRouteTable (tag addr : Nat) : Entry.Statement (.dutyReplyRouteTable tag addr) := by
  intro r hr; cases hr
theorem Entry.dutyReplyTimeCorrection (tag x : Nat) : Entry.Statement (.dutyReplyTimeCorrection tag x) := by
  intro r hr; cases hr
theorem Entry.frreplyRetry (tag : Nat) : Entry.Statement (.frreplyRetry tag) := by
  intro r hr; cases hr
theorem Entry.frreplyPoison (tag : Nat) : Entry.Statement (.frreplyPoison tag) := by
  intro r hr; cases hr
theorem Entry.frreplyFail (tag : Nat) : Entry.Statement (.frreplyFail tag) := by
  intro r hr; cases hr
theorem Entry.tlbinvPage (ctx : Nat) (all : Bool) : Entry.Statement (.tlbinvPage ctx all) := by
  intro r hr; cases hr
theorem Entry.tlbinvContext (ctx : Nat) (all : Bool) : Entry.Statement (.tlbinvContext ctx all) := by
  intro r hr; cases hr
theorem Entry.tlbinvIpa (ctx : Nat) (all : Bool) : Entry.Statement (.tlbinvIpa ctx all) := by
  intro r hr; cases hr
theorem Entry.tlbinvComplete : Entry.Statement (.tlbinvComplete) := by
  intro r hr; cases hr
theorem Entry.histatClear (x : Nat) : Entry.Statement (.histatClear x) := by
  intro r hr; cases hr
theorem Entry.hienWrite (x : Nat) : Entry.Statement (.hienWrite x) := by
  intro r hr; cases hr
theorem Entry.frameStart (rx : Nat) (ch : SensorChan) : Entry.Statement (.frameStart rx ch) := by
  intro r hr; cases hr
theorem Entry.frameLine (rx vc dt : Nat) (crcErr eccFix : Bool) (bytes : List (BitVec 8)) : Entry.Statement (.frameLine rx vc dt crcErr eccFix bytes) := by
  intro r hr; cases hr
theorem Entry.frameEnd (rx vc : Nat) : Entry.Statement (.frameEnd rx vc) := by
  intro r hr; cases hr
theorem Entry.ethTx (p : Nat) (under : Bool) : Entry.Statement (.ethTx p under) := by
  intro r hr; cases hr
theorem Entry.ethRxFrame (p : Nat) (fcsErr : Bool) (bytes : List (BitVec 8)) : Entry.Statement (.ethRxFrame p fcsErr bytes) := by
  intro r hr; cases hr
theorem Entry.pcieInboundRequest (i bar what a op ty b c : Nat) (raw : Bool) (bytes : List (BitVec 8)) : Entry.Statement (.pcieInboundRequest i bar what a op ty b c raw bytes) := by
  intro r hr; cases hr
theorem Entry.registerWrite (island : Bool) (off : Nat) (bytes : List (BitVec 8)) : Entry.Statement (.registerWrite island off bytes) := by
  intro r hr; cases hr
theorem Entry.coreEnterGating (c : Nat) : Entry.Statement (.coreEnterGating c) := by
  intro r hr; cases hr
theorem Entry.coreWakeComplete (c : Nat) : Entry.Statement (.coreWakeComplete c) := by
  intro r hr; cases hr
theorem Entry.wakeset (ochre : Bool) (x : Nat) : Entry.Statement (.wakeset ochre x) := by
  intro r hr; cases hr
theorem Entry.suspctlGo (addr : Nat) : Entry.Statement (.suspctlGo addr) := by
  intro r hr; cases hr
theorem Entry.suspendPowerDown : Entry.Statement (.suspendPowerDown) := by
  intro r hr; cases hr
theorem Entry.resume (wake : Bool) : Entry.Statement (.resume wake) := by
  intro r hr; cases hr
theorem Entry.resumeAlarm : Entry.Statement (.resumeAlarm) := by
  intro r hr; cases hr
theorem Entry.powerOn : Entry.Statement (.powerOn) := by
  intro r hr; cases hr
theorem Entry.bootStage (ok : Bool) (img img2 : List (BitVec 8)) (failed : Nat) : Entry.Statement (.bootStage ok img img2 failed) := by
  intro r hr; cases hr
theorem Entry.islandLockstepReset : Entry.Statement (.islandLockstepReset) := by
  intro r hr; cases hr
theorem Entry.mbAttest : Entry.Statement (.mbAttest) := by
  intro r hr; cases hr
theorem Entry.mbRestart : Entry.Statement (.mbRestart) := by
  intro r hr; cases hr
theorem Entry.mbCommitsv : Entry.Statement (.mbCommitsv) := by
  intro r hr; cases hr
theorem Entry.mbInvalid : Entry.Statement (.mbInvalid) := by
  intro r hr; cases hr
theorem Entry.coreStallTimeout (c : Nat) : Entry.Statement (.coreStallTimeout c) := by
  intro r hr; cases hr
theorem Entry.walkerStallTimeout (c : Nat) : Entry.Statement (.walkerStallTimeout c) := by
  intro r hr; cases hr
theorem Entry.ingestFrameTimeout (k : Nat) : Entry.Statement (.ingestFrameTimeout k) := by
  intro r hr; cases hr
theorem Entry.heartbeatTimeout : Entry.Statement (.heartbeatTimeout) := by
  intro r hr; cases hr
theorem Entry.hbap : Entry.Statement (.hbap) := by
  intro r hr; cases hr
theorem Entry.thermalThrottle (t : Nat) : Entry.Statement (.thermalThrottle t) := by
  intro r hr; cases hr
theorem Entry.thermalShutdown : Entry.Statement (.thermalShutdown) := by
  intro r hr; cases hr
theorem Entry.thermalRelease (t : Nat) : Entry.Statement (.thermalRelease t) := by
  intro r hr; cases hr
theorem Entry.linkUp (n peer lanes : Nat) : Entry.Statement (.linkUp n peer lanes) := by
  intro r hr; cases hr
theorem Entry.sensorEvent : Entry.Statement (.sensorEvent) := by
  intro r hr; cases hr
theorem Entry.twtimeTargetReached (g : Nat) : Entry.Statement (.twtimeTargetReached g) := by
  intro r hr; cases hr
theorem Entry.copySourceReadDone (k id : Nat) : Entry.Statement (.copySourceReadDone k id) := by
  intro r hr; cases hr
theorem Entry.restoreComplete (lk c : Nat) : Entry.Statement (.restoreComplete lk c) := by
  intro r hr; cases hr
theorem Entry.applicationProcessorAccess (island : Bool) (what pa op ty b c : Nat) (bytes : List (BitVec 8)) : Entry.Statement (.applicationProcessorAccess island what pa op ty b c bytes) := by
  intro r hr; cases hr

end Sys2Proof.Laws
end

