-- ==== Sys2Proof/Tests/Slice0.lean ====
section
/-!
SUPPORT. Sys2Proof/Tests/Slice0.lean: the model's own tests: words written out from the encodings of the spec,
ill-formed words, single steps with values worked out by hand from the rules, and for each statement a state and
operands that meet its hypotheses.
-/
namespace Sys2Proof.Machine

set_option Elab.async false

/-! ### A machine for tests -/

/-- A machine with one supervisor group of card 0, and nothing to fetch. -/
def lone : State := { placeWord State.reset 32 0 with script := [] }

/-- The place of a word that stands at the head of its queue, with lane 0 active. -/
def cur0 (i : Instr) : Cur := ⟨0, true, { instr := i, pc := 0x1000, mask := 1 }⟩

/-- A machine in which the word is tried at the head of its queue, as `f` leaves it there. -/
def triedAs (f : QWord → QWord) (i : Instr) (s : State) : State :=
  let w := f (cur0 i).w
  { modGrp s 0 (fun G => { setQueue G (engOf i) [w] with nextSeq := w.seq + 1 }) with cur := some ⟨0, true, w⟩ }
def tried (i : Instr) (s : State) : State := triedAs id i s

/-- The state after the word, where it answers a next state. -/
def after (i : Instr) (s : State) : State :=
  match exec i (tried i s) with
  | .next t => t
  | _ => s

/-- Set a uniform register, a lane register in lane 0, and a predicate. -/
def setU (n x : Nat) (s : State) : State := writeItem s (.u 0 n) (.num x)
def setV (n x : Nat) (s : State) : State := writeItem s (.v 0 n 0) (.num x)
def setP (n x : Nat) (s : State) : State := writeItem s (.p 0 n) (.num x)

/-- `Starts`, as a computation. -/
def startsB (i : Instr) (c : Cur) (s : State) : Bool :=
  let t := begun c s
  decide (s.cur = some c) && c.retry && startable i c t &&
    !(stopped t c.g || guardedOff t c i || handlerWaits t c.g i)

theorem starts_of {i : Instr} {c : Cur} {s : State} (h : startsB i c s = true) : Starts i c s := by
  constructor <;> simp_all [startsB]

/-- The word `i`, tried as `f` leaves it, starts, its charges fit, and `p` holds. -/
def meetsAs (f : QWord → QWord) (i : Instr) (s : State) (p : Cur → State → Bool) : Bool :=
  let c : Cur := ⟨0, true, f (cur0 i).w⟩
  let t := triedAs f i s
  startsB i c t && (overCharge t 0 c.w.seq).isNone && p c t

/-- The same of a word that has not been tried before. -/
def meets (i : Instr) (s : State) (p : Cur → State → Bool) : Bool := meetsAs id i s p

def sw0 : SW := ⟨1, 2, 3⟩
def xw0 : XW := ⟨1, 2, 3, ⟨false, false, 0⟩, 0, 0, 0⟩
def kw0 : KW := ⟨1, 2, 0, ⟨false, false, 0⟩, 8⟩
/-- An X word without a guard. -/
def xw (d a b mod c imm : Nat) : XW :=
  ⟨BitVec.ofNat 7 d, BitVec.ofNat 7 a, BitVec.ofNat 7 b, ⟨false, false, 0⟩, BitVec.ofNat 4 mod, BitVec.ofNat 7 c,
    BitVec.ofNat 12 imm⟩


/-! ### Decoding (R68 to R70, R87): words from the spec's encodings -/

/-- IADD v1, v2, v3, printed in the spec. -/
theorem test_decode_iadd : decode (wordBytes 0x20204103) = .ok (.iadd ⟨1, 2, 3⟩, []) := by decide
/-- (!p7) FADD.f32.rz v4, v5, v6, printed in the spec. -/
theorem test_decode_fadd : decode (wordBytes 0x34010286 ++ wordBytes 0xC3880000) =
    .ok (.faddX ⟨4, 5, 6, ⟨true, true, 7⟩, 1, 0, 0⟩, []) := by decide
/-- Engine S: E = 0, L = 0, op 4, D = 1, A = 2, B = 3. -/
theorem test_decode_sadd : decode (wordBytes
    (0b000#3 ++ 0b0#1 ++ 0b0000100#7 ++ 0b0000001#7 ++ 0b0000010#7 ++ 0b0000011#7)) = .ok (.sadd ⟨1, 2, 3⟩, []) := by
  decide
/-- STL.n8 [s23 + v10 + 1], v9, printed in the spec. -/
theorem test_decode_stl : decode (wordBytes 0x50824B8A ++ wordBytes 0x00281001) =
    .ok (.stl ⟨9, 23, 10, ⟨false, false, 0⟩, 5, 1, 1⟩, []) := by decide
/-- XMMA.adva s22, f0, f1, 2 rows, printed in the spec. -/
theorem test_decode_xmma : decode (wordBytes 0x70458001 ++ wordBytes 0x00081000) =
    .ok (.xmma ⟨22, 0, 1, ⟨false, false, 0⟩, 1, 1, 0⟩, []) := by decide
/-- CPYW, printed in the spec. -/
theorem test_decode_cpyw : decode (wordBytes 0x90C2C780 ++ wordBytes 0x00210000) =
    .ok (.cpyw ⟨11, 15, 0, ⟨false, false, 0⟩, 4, 16, 0⟩, []) := by decide
/-- CLAIM 1, GIVE 1 and BARD 1, printed in the spec. -/
theorem test_decode_claim : decode (wordBytes 0xA1400080) = .ok (.claim ⟨0, 1, 0⟩, []) := by decide
theorem test_decode_give : decode (wordBytes 0xA1200080) = .ok (.give ⟨0, 1, 0⟩, []) := by decide
theorem test_decode_bard : decode (wordBytes 0xA0800080) = .ok (.bard ⟨0, 1, 0⟩, []) := by decide
/-- TBARR.exp, printed in the spec. -/
theorem test_decode_tbarr : decode (wordBytes 0xB0E0058E ++ wordBytes 0x00080000) =
    .ok (.tbarr ⟨0, 11, 14, ⟨false, false, 0⟩, 1, 0, 0⟩, []) := by decide
/-- Engine N: E = 6, L = 1, op 1 is PSH: port B = 3, lane register A = 2. -/
theorem test_decode_psh : decode (wordBytes
    (0b110#3 ++ 0b1#1 ++ 0b0000001#7 ++ 0#7 ++ 0b0000010#7 ++ 0b0000011#7) ++ wordBytes 0) =
    .ok (.psh ⟨0, 2, 3, ⟨false, false, 0⟩, 0, 0, 0⟩, []) := by decide
/-- Engine Z: E = 7, L = 1, op 1 is TRAP with I23 = 5. -/
theorem test_decode_trap : decode (wordBytes
    (0b111#3 ++ 0b1#1 ++ 0b0000001#7 ++ 0#7 ++ 0#7 ++ 0#7) ++ wordBytes 5) =
    .ok (.trap ⟨0, 0, 0, ⟨false, false, 0⟩, 5⟩, []) := by decide
/-- An opcode that no map lists, a form that an opcode does not admit, and too few bytes. -/
theorem test_decode_refuses : decode (wordBytes 0x0FA00000) = .error .opcode ∧
    decode (wordBytes 0x00200000) = .error .form ∧ decode (wordBytes 0x34010286) = .error .truncated := by decide

/-! ### Well-formedness (R75) -/

/-- A well-formed word, and an ill-formed one for each check of R75 on a word's bits: a reserved field that is not
zero (cause 2), a number outside its range (cause 3), and a modifier code that is not admitted (cause 6). -/
theorem test_wellformed : (Instr.sadd ⟨1, 2, 3⟩).wellFormed = true := by decide
theorem test_illformed_reserved : (Instr.smov ⟨1, 2, 3⟩).wellFormed = false := by decide
theorem test_illformed_range : (Instr.bar ⟨0, 64, 0⟩).wellFormed = false := by decide
theorem test_illformed_register : (Instr.sadd ⟨1, 64, 3⟩).wellFormed = false := by decide
theorem test_illformed_modifier : (Instr.lvoteX (xw 1 2 0 4 0 0)).wellFormed = false := by decide

/-! ### Each instruction word starts somewhere -/


/-- One word of each instruction, part 1. -/
def samples1 : List Instr :=
  [ .nop 2 sw0, .twait 2 sw0, .tsig 2 sw0, .sli kw0, .slih kw0, .smov sw0, .sadd sw0, .saddX xw0, .ssub sw0,
    .ssubX xw0, .smul sw0, .smulX xw0, .smulh sw0, .smulhX xw0, .sand sw0, .sandX xw0, .sor sw0, .sorX xw0,
    .sxor sw0, .sxorX xw0, .sshl sw0, .sshlX xw0, .sshr sw0, .sshrX xw0, .ssra sw0, .ssraX xw0, .smin sw0,
    .sminX xw0, .smax sw0, .smaxX xw0, .scmp xw0, .ssel xw0, .srd sw0, .bra kw0, .brc kw0, .brx sw0,
    .call kw0, .ret sw0, .bdiv kw0, .mark kw0, .join sw0, .loop kw0, .endl kw0, .exit sw0, .iadd sw0,
    .iaddX xw0, .isub sw0, .isubX xw0, .imul sw0, .imulX xw0, .imulh sw0, .imulhX xw0, .imad xw0, .iand sw0,
    .iandX xw0, .ior sw0, .iorX xw0 ]

/-- One word of each instruction, part 2. -/
def samples2 : List Instr :=
  [ .ixor sw0, .ixorX xw0, .ishl sw0, .ishlX xw0, .ishr sw0, .ishrX xw0, .isra sw0, .israX xw0, .imin sw0,
    .iminX xw0, .imax sw0, .imaxX xw0, .iabs sw0, .iabsX xw0, .iclz sw0, .iclzX xw0, .ipopc sw0, .ipopcX xw0,
    .ibrev sw0, .ibrevX xw0, .ibfx xw0, .ibfi xw0, .isel xw0, .imov sw0, .imovX xw0, .imovi kw0, .icmp xw0,
    .fadd sw0, .faddX xw0, .fsub sw0, .fsubX xw0, .fmul sw0, .fmulX xw0, .ffma xw0, .fmin sw0, .fminX xw0,
    .fmax sw0, .fmaxX xw0, .fcmp xw0, .fclass sw0, .fclassX xw0, .frcp sw0, .frcpX xw0, .frsq sw0, .frsqX xw0,
    .fsqrt sw0, .fsqrtX xw0, .fdiv sw0, .fdivX xw0, .fex2 sw0, .fex2X xw0, .flg2 sw0, .flg2X xw0, .fscale sw0,
    .fscaleX xw0, .cvt xw0, .quant xw0 ]

/-- One word of each instruction, part 3. -/
def samples3 : List Instr :=
  [ .dqnt xw0, .skey sw0, .skeyX xw0, .lshuf sw0, .lshufX xw0, .lbcast sw0, .lbcastX xw0, .lvote sw0,
    .lvoteX xw0, .lread xw0, .lwrite xw0, .gred xw0, .gscan xw0, .pand sw0, .pandX xw0, .por sw0, .porX xw0,
    .pxor sw0, .pxorX xw0, .pset xw0, .pget sw0, .pgetX xw0, .vrot sw0, .ld xw0, .st xw0, .ldl xw0, .stl xw0,
    .lds xw0, .sts xw0, .atom xw0, .atoml xw0, .fence xw0, .pfetch xw0, .cwb xw0, .cinv xw0, .stmap xw0,
    .stunmap xw0, .stsync xw0, .ptst xw0, .xstrm xw0, .xstrmGet xw0, .xmma xw0, .xmmac xw0, .ximma xw0,
    .xzero xw0, .xexp xw0, .xnorm xw0, .xgrd xw0, .xrd xw0, .xwr xw0, .xflush xw0, .xrun xw0, .xpoll xw0,
    .xkill xw0, .cpy xw0, .cpyt xw0, .cpynd xw0 ]

/-- One word of each instruction, part 4. -/
def samples4 : List Instr :=
  [ .cpyg xw0, .cpys xw0, .cpyw xw0, .rinit xw0, .rwait xw0, .rrel xw0, .rpost xw0, .rtail xw0, .cqry xw0,
    .bar sw0, .barX xw0, .bara sw0, .baraX xw0, .barw sw0, .barwX xw0, .bard sw0, .bardX xw0, .tbinit xw0,
    .tbexp xw0, .tbarr xw0, .tbwait xw0, .give sw0, .giveX xw0, .claim sw0, .claimX xw0, .qend sw0,
    .qseal sw0, .twtime xw0, .yield sw0, .rotcfg xw0, .psh xw0, .pop xw0, .pstat xw0, .lsnd xw0, .lrcv xw0,
    .lradd xw0, .trins xw0, .trdrw xw0, .trupd xw0, .trtot xw0, .trwgt xw0, .trcfg xw0, .trap kw0, .hret sw0,
    .sysrd xw0, .syswr xw0, .wake xw0, .gate xw0, .halt sw0, .bkpt kw0, .jobarm xw0, .jobdone sw0,
    .jobyld sw0, .susp xw0, .fltrply xw0 ]

/-- Each of these words starts at the head of its queue in `lone`. -/
theorem witness_starts_1 : (samples1.all fun i => meets i lone fun _ _ => true) = true := by decide +kernel
/-- Each of these words starts at the head of its queue in `lone`. -/
theorem witness_starts_2 : (samples2.all fun i => meets i lone fun _ _ => true) = true := by decide +kernel
/-- Each of these words starts at the head of its queue in `lone`. -/
theorem witness_starts_3 : (samples3.all fun i => meets i lone fun _ _ => true) = true := by decide +kernel
/-- Each of these words starts at the head of its queue in `lone`. -/
theorem witness_starts_4 : (samples4.all fun i => meets i lone fun _ _ => true) = true := by decide +kernel


/-! ### Words: what one step does, and that the statements' hypotheses are met -/

/-- A launch of deterministic mode with quanta of at most 64 words, and one whose groups have a divergence stack. -/
def detOf (s : State) : State := modLaunch s 0 fun l => { l with desc := l.desc ||| BitVec.ofNat 1024 (2 ^ 68 + 64 * 2 ^ 152) }
def stacked (s : State) : State := modLaunch s 0 fun l => { l with desc := l.desc ||| BitVec.ofNat 1024 (2 ^ 67) }
/-- The state after the word, with no word left in a queue or in flight. -/
def done (i : Instr) (s : State) : State :=
  let t := after i s
  modGrp { t with cur := none } 0 fun G => { G with queues := [], flights := [] }
/-- A word that has waited: its stage, and what it keeps there. -/
def waited (stage aux : Nat) (w : QWord) : QWord := { w with stage := stage, aux := aux }

/-- 5 + 7 = 12, and 2^64 − 1 + 1 wraps to 0. -/
theorem test_sadd : uread (after (.sadd sw0) (setU 2 5 (setU 3 7 lone))) 0 1 = 12 ∧
    uread (after (.sadd sw0) (setU 2 (2 ^ 64 - 1) (setU 3 1 lone))) 0 1 = 0 := by decide +kernel
/-- SMULH: (2^63 · 2) / 2^64 = 1 unsigned, and −1 signed. -/
theorem test_smulh : uread (after (.smulhX (xw 1 2 3 2 0 0)) (setU 2 (2 ^ 63) (setU 3 2 lone))) 0 1 = 1 ∧
    uread (after (.smulh sw0) (setU 2 (2 ^ 63) (setU 3 2 lone))) 0 1 = 2 ^ 64 - 1 := by decide +kernel
/-- SSRA by 65 shifts by 1. -/
theorem test_ssra : uread (after (.ssra sw0) (setU 2 (2 ^ 64 - 4) (setU 3 65 lone))) 0 1 = 2 ^ 64 - 2 := by
  decide +kernel
theorem witness_ScalarArithmetic : meets (.sadd sw0) lone fun _ _ => true := by decide +kernel

/-- SMOV between uniform and team registers in both modes, and SRD of QNUM, 13. -/
theorem witness_ScalarMoves :
    meets (.smov ⟨64, 2, 0⟩) lone (fun _ s => !isDet s 0) ∧
    meets (.smov ⟨64, 2, 0⟩) (detOf lone) (fun _ s => isDet s 0) ∧
    meets (.smov ⟨1, 64, 0⟩) (detOf lone) (fun c s => isDet s 0 && !epochWait (begun c s) c (0, 0, 0)) ∧
    meets (.srd ⟨1, 13, 0⟩) (detOf lone) (fun c s => quantumSure (begun c s) c (0, 0, 0)) := by decide +kernel
theorem test_smov : nget 0 (team (after (.smov ⟨64, 2, 0⟩) (setU 2 9 lone)) 0).t 0 = 9 := by decide +kernel
/-- SCMP.lt: −1 < 0 signed. -/
theorem test_scmp : uread (after (.scmp (xw 1 2 3 2 0 0)) (setU 2 (2 ^ 64 - 1) lone)) 0 1 = 1 := by decide +kernel

/-- BRA by 8 words from 0x1000 goes to 0x1020. -/
theorem test_bra : (grp (after (.bra kw0) lone) 0).s0.addr = 0x1020 := by decide +kernel
/-- BRC where s2 is 0 goes on at 0x1008; inverted (D = 1) it branches. -/
theorem test_brc : (grp (after (.brc ⟨0, 2, 0, ⟨false, false, 0⟩, 8⟩) lone) 0).s0.addr = 0x1008 ∧
    (grp (after (.brc ⟨1, 2, 0, ⟨false, false, 0⟩, 8⟩) lone) 0).s0.addr = 0x1020 := by decide +kernel
/-- CALL keeps the address behind it. -/
theorem test_call : uread (after (.call kw0) lone) 0 1 = 0x1008 := by decide +kernel
theorem witness_Branches :
    meets (.brx sw0) (setU 2 0x2000 lone) (fun c s => decide (c.w.pc.toNat % 4 = 0 ∧ uread s 0 2 % 4 = 0)) ∧
    meets (.ret sw0) (setU 2 0x2000 lone) (fun _ s => decide (uread s 0 2 % 4 = 0)) ∧
    meets (.endl kw0) (setU 1 1 lone) (fun _ s => decide (uread s 0 1 ≤ 1)) ∧
    meets (.endl kw0) (setU 1 2 lone) (fun _ s => decide (1 < uread s 0 1)) := by decide +kernel
theorem witness_BranchTargetTraps :
    meets (.brx sw0) (setU 2 1 lone) (fun _ s => decide (uread s 0 2 % 4 ≠ 0)) ∧
    meets (.ret sw0) (setU 2 2 lone) (fun _ s => decide (uread s 0 2 % 4 ≠ 0)) := by decide +kernel
theorem test_brx_misaligned :
    (after (.brx sw0) (setU 2 0x1002 lone)).launches.map (fun x => x.2.hostTrap.map fun t => (t.1, t.2.cls, t.2.cause,
      t.2.addr)) = [some (0, 2, 1, 0x1002)] := by decide +kernel

/-- Two lanes in the issuing slot, the guard predicate p2 of lane 0 alone, and a second slot of lane 2. -/
def lanes2 (w : QWord) : QWord := { w with mask := 3 }
def twoSlots (s : State) : State := modGrp s 0 fun G => { G with s1 := ⟨0x3000, 4, true, false⟩ }
/-- The conditions of BDIV: lanes that branch, lanes that go on, and the other slot. -/
def splits (takes goes other : Bool) (c : Cur) (s : State) : Bool :=
  let T := activeLanes s c kw0.flds &&& pread s 0 2
  decide (T ≠ 0) == takes && decide (c.w.mask.toNat &&& notBits 64 T ≠ 0) == goes && (slotOf (grp s 0) 1).valid == other
theorem witness_Divergence_split :
    meets (.bdiv kw0) lone (splits false true false) ∧
    meets (.bdiv kw0) (setP 2 1 lone) (splits true false false) ∧
    meetsAs lanes2 (.bdiv kw0) (setP 2 1 lone) (splits true true false) ∧
    meetsAs lanes2 (.bdiv kw0) (stacked (twoSlots (setP 2 1 lone)))
      (fun c s => splits true true true c s && (launchOf s 0).stack && decide ((grp s 0).depth < 64)) ∧
    meetsAs lanes2 (.bdiv kw0) (modGrp (stacked (twoSlots (setP 2 1 lone))) 0 fun G => { G with depth := 64 })
      (fun c s => splits true true true c s && decide (64 ≤ (grp s 0).depth)) := by decide +kernel
theorem witness_Divergence_mark :
    meets (.mark kw0) (stacked lone) (fun _ s => (launchOf s 0).stack && !(slotOf (grp s 0) 1).valid) ∧
    meets (.mark kw0) (stacked (twoSlots lone))
      (fun _ s => (slotOf (grp s 0) 1).valid && decide ((grp s 0).depth < 63)) ∧
    meets (.mark kw0) lone (fun _ s => !(launchOf s 0).stack) := by decide +kernel
/-- MARK in a single slot with a stack, then the JOIN that its entry names; and JOIN without an entry. -/
theorem witness_Divergence_join :
    meetsAs (fun w => { w with pc := 0x1020, seq := 1 }) (.join sw0) (done (.mark kw0) (stacked lone)) (fun c s =>
      (topRejoin s 0 (grp s 0).depth).map (fun e => e.pc) == some c.w.pc.toNat) ∧
    meets (.join sw0) lone (fun _ s => (topRejoin s 0 (grp s 0).depth).isNone) ∧
    meets (.exit sw0) lone (fun _ _ => true) := by decide +kernel
theorem test_exit : (grp (after (.exit sw0) lone) 0).retired = true := by decide +kernel

/-- TWAIT where the count suffices and where it does not, TSIG within 15 and over it. -/
theorem witness_Tokens :
    meets (.twait 2 ⟨1, 1, 0⟩) (done (.tsig 2 ⟨1, 2, 0⟩) lone)
      (fun c s => decide (1 ≤ kread s 0 1) && !olderTwait (begun c s) c 1) ∧
    meets (.twait 2 ⟨1, 1, 0⟩) lone (fun _ s => decide (kread s 0 1 < 1)) ∧
    meets (.tsig 2 ⟨1, 2, 0⟩) lone (fun _ s => (grp s 0).flights.isEmpty && decide (kread s 0 1 + 2 ≤ 15)) ∧
    meets (.tsig 2 ⟨1, 15, 0⟩) (done (.tsig 2 ⟨1, 2, 0⟩) lone) (fun _ s => decide (15 < kread s 0 1 + 15)) := by
  decide +kernel
theorem test_twait : kread (after (.twait 2 ⟨1, 1, 0⟩) (after (.tsig 2 ⟨1, 2, 0⟩) lone)) 0 1 = 1 ∧
    (grp (after (.twait 2 ⟨1, 2, 0⟩) lone) 0).waitCause = 1 := by decide +kernel

/-- IADD of 8-bit lanes: 200 + 100 = 44 unsigned, and signed 100 + 100 saturates to 127. -/
theorem test_iadd : vread (after (.iaddX (xw 1 2 3 5 0 0)) (setV 2 200 (setV 3 100 lone))) 0 1 0 = 44 ∧
    vread (after (.iaddX (xw 1 2 3 12 0 0)) (setV 2 100 (setV 3 100 lone))) 0 1 0 = 127 := by decide +kernel
theorem test_ipopc : vread (after (.ipopc ⟨1, 2, 0⟩) (setV 2 0xF0F lone)) 0 1 0 = 8 := by decide +kernel
theorem witness_LaneIntegers : meets (.iadd sw0) lone fun _ _ => true := by decide +kernel

/-- FADD.f32: 1.5 + 2.5 = 4. -/
theorem test_fadd : vread (after (.fadd sw0) (setV 2 0x3FC00000 (setV 3 0x40200000 lone))) 0 1 0 = 0x40800000 := by
  decide +kernel
/-- FMUL.f32: −2 · 3 = −6. -/
theorem test_fmul : vread (after (.fmul sw0) (setV 2 0xC0000000 (setV 3 0x40400000 lone))) 0 1 0 = 0xC0C00000 := by
  decide +kernel
/-- FSQRT.f32 of 9 is 3. -/
theorem test_fsqrt : vread (after (.fsqrt ⟨1, 2, 0⟩) (setV 2 0x41100000 lone)) 0 1 0 = 0x40400000 := by decide +kernel
theorem witness_LaneFloats : meets (.fadd sw0) lone fun _ _ => true := by decide +kernel
theorem witness_LanePredicates : meets (.pand sw0) lone fun _ _ => true := by decide +kernel
/-- ICMP.eq in lane 0; lanes that are not active keep their bits. -/
theorem test_icmp : pread (after (.icmp (xw 1 2 3 0 0 0)) (setP 1 6 lone)) 0 1 = 7 := by decide +kernel
theorem witness_LaneConversions : meets (.cvt xw0) lone fun _ _ => true := by decide +kernel
theorem witness_LaneExchange :
    meets (.lwrite (xw 1 2 3 0 1 0)) lone (fun c s => (activeLanes s c (xw 1 2 3 0 1 0).flds).testBit 0) ∧
    meets (.lwrite (xw 1 2 3 0 1 1)) lone (fun c s => !(activeLanes s c (xw 1 2 3 0 1 1).flds).testBit 1) ∧
    meets (.gred (xw 1 2 3 8 1 0)) lone (fun _ _ => (xw 1 2 3 8 1 0).flds.m 3) ∧
    meets (.gred (xw 1 2 3 0 1 0)) lone (fun _ _ => !(xw 1 2 3 0 1 0).flds.m 3) := by decide +kernel
/-- LVOTE counts the active lanes whose bit is set. -/
theorem test_lvote : uread (after (.lvoteX (xw 1 2 0 3 0 0)) (setP 2 3 lone)) 0 1 = 1 := by decide +kernel
theorem witness_VoteWord : (xw 1 2 0 4 0 0).mod.toNat = 4 ∧
    meets (.lvoteX (xw 1 2 0 0 0 0)) lone (fun _ _ => true) ∧ meets (.lvoteX (xw 1 2 0 1 0 0)) lone (fun _ _ => true) ∧
    meets (.lvoteX (xw 1 2 0 2 0 0)) lone (fun _ _ => true) ∧ meets (.lvoteX (xw 1 2 0 3 0 0)) lone (fun _ _ => true) := by
  decide +kernel

/-! #### Memory words -/

/-- Lane 0 of an access at 0x1000, where `lone` has a page, and how it translates. -/
def ldAt (i : Instr) (s : State) : State := tried i (setU 2 0x1000 s)
def hitsAt (i : Instr) (f : Flds) (size : Nat) (a : Acc2) : List Hit × List Bad × State :=
  xlateLanes 0 a (f.m 3) (Obl.lanesAt (cur0 i) (ldAt i lone) f size false) (begun (cur0 i) (ldAt i lone))

theorem witness_GlobalLoads :
    let i : Instr := .ld (xw 1 2 0 1 0 0)
    let f := (xw 1 2 0 1 0 0).flds
    let r := hitsAt i f 4 .read
    Obl.Clear (cur0 i) (ldAt i lone) f 4 .read (f.m 3) true (newRegs (begun (cur0 i) (ldAt i lone)) 0 i, 0, 0)
      (Obl.lanesAt (cur0 i) (ldAt i lone) f 4 false) r.1 r.2.2 ∧ r.1 = [⟨0, 0x1000, 0x1000, false, false⟩] ∧
    scHeld r.2.2 (cur0 i) f r.1 4 = [] ∧ ownAtoms r.2.2 (cur0 i) [0x1000] 4 = [] ∧ isAcq f = false ∧ isRel f = false ∧
    startsB i (cur0 i) (ldAt i lone) = true := by
  refine ⟨?_, ?_⟩
  · constructor <;> decide +kernel
  · decide +kernel
/-- An acquire at scope .clus (C = 16 · 4 + 4 · 1), which waits for no earlier load, and a load without a lane. -/
theorem witness_GlobalLoads_acquire : isAcq (xw 1 2 0 1 68 0).flds = true ∧ isAcq (xw 1 2 0 1 0 0).flds = false ∧
    loadBehind (hitsAt (.ld (xw 1 2 0 1 68 0)) (xw 1 2 0 1 68 0).flds 4 .read).2.2 0 0 [0x1000] 4 = false ∧
    meetsAs (fun w => { w with mask := 0 }) (.ld (xw 1 2 0 1 0 0)) lone
      (fun c s => decide (activeLanes s c (xw 1 2 0 1 0 0).flds = 0)) := by decide +kernel
theorem witness_GlobalStores :
    let i : Instr := .st (xw 1 2 0 1 0 0)
    let f := (xw 1 2 0 1 0 0).flds
    let xs := Obl.lanesAt (cur0 i) (ldAt i lone) f 4 false
    let r := hitsAt i f 4 .write
    Obl.Clear (cur0 i) (ldAt i lone) f 4 .write (f.m 3) false (sectorCharge xs, 0, sectorCharge xs) xs r.1 r.2.2 ∧
    holdFull r.2.2 0 0 (newSectors r.2.2 0 0 (r.1.map fun h => h.pa / 64).dedup) = none ∧ r.1 ≠ [] ∧
    startsB i (cur0 i) (ldAt i lone) = true := by
  refine ⟨?_, ?_⟩
  · constructor <;> decide +kernel
  · decide +kernel
/-- ATOM.add with and without a result (I12 bit 3). -/
theorem witness_GlobalAtomics :
    let i : Instr := .atom (xw 1 2 3 0 0 1)
    let f := (xw 1 2 3 0 0 1).flds
    let s := ldAt i lone
    let xs := (laneList s (cur0 i) f).map fun l => (l, laneGlobal s 0 f (atomSize f.aty) 0 l)
    let r := xlateLanes 0 .atomic false xs (begun (cur0 i) s)
    Obl.Clear (cur0 i) s f (atomSize f.aty) .atomic false (!f.anr) (newRegs (begun (cur0 i) s) 0 i, 0, sectorCharge xs)
      xs r.1 r.2.2 ∧ r.1 ≠ [] ∧ holdFull r.2.2 0 0 (r.1.map fun h => h.pa / 64).dedup.length = none ∧
    handlerStuck r.2.2 0 = false ∧ f.anr = false ∧ (xw 1 2 3 0 0 9).flds.anr = true ∧ startsB i (cur0 i) s = true := by
  refine ⟨?_, ?_⟩
  · constructor <;> decide +kernel
  · decide +kernel

/-- LDL, STL and ATOML of lane 0 at local byte 0. -/
theorem witness_LocalWords :
    let f := (xw 1 2 0 1 0 0).flds
    let i : Instr := .ldl (xw 1 2 0 1 0 0)
    let s := tried i lone
    let own := localCharge (begun (cur0 i) s) (cur0 i) [(0, 0, 0)]
    Obl.LocalClear (cur0 i) s f 4 true 0 (newRegs (begun (cur0 i) s) 0 i, 0, 0) [⟨0, 0, 0, none⟩] ∧
    Obl.LocalClear (cur0 i) s f 4 false 0 own [⟨0, 0, 0, none⟩] ∧
    Obl.LocalClear (cur0 i) s f 4 false 0 (newRegs (begun (cur0 i) s) 0 (.atoml (xw 1 2 0 1 0 0)) + own.1, own.2)
      [⟨0, 0, 0, none⟩] := by
  refine ⟨?_, ?_, ?_⟩ <;> constructor <;> decide +kernel
/-- STL then LDL: what is stored is read back. -/
theorem test_stl_ldl : memNum ((team (after (.stl (xw 1 2 0 1 0 4)) (setV 1 0x12345678 lone)) 0).mem 0) 4 4 = 0x12345678 ∧
    vread (after (.ldl (xw 5 2 0 1 0 4)) (after (.stl (xw 1 2 0 1 0 4)) (setV 1 0x12345678 lone))) 0 5 0 = 0x12345678 := by
  decide +kernel
/-- ATOML.add.n32 of 5 to 0 returns 0 and leaves 5. -/
theorem test_atoml : memNum ((team (after (.atoml (xw 1 2 3 0 0 1)) (setV 3 5 lone)) 0).mem 0) 0 4 = 5 := by
  decide +kernel

/-- Lane 0 at 0x1002 for 4 bytes, and at 2^40, outside the window. -/
theorem witness_AddressTraps :
    meets (.ld (xw 1 2 0 1 0 2)) (setU 2 0x1000 lone) (fun c s => laneList s c (xw 1 2 0 1 0 2).flds == [0] &&
      laneGlobal s 0 (xw 1 2 0 1 0 2).flds 4 2 0 % 4 == 2) ∧
    meets (.ldl (xw 1 2 0 1 0 2)) lone (fun _ s => laneAddr s 0 (xw 1 2 0 1 0 2).flds 4 2 true 0 % 4 == 2) ∧
    meets (.stl (xw 1 2 0 1 0 0)) (setU 2 (2 ^ 40) lone) (fun _ s =>
      laneAddr s 0 (xw 1 2 0 1 0 0).flds 4 0 true 0 % 4 == 0 &&
        (localAt s 0 (laneAddr s 0 (xw 1 2 0 1 0 0).flds 4 0 true 0)).isNone) := by decide +kernel
theorem test_ld_misaligned :
    (after (.ld (xw 1 2 0 1 0 2)) (setU 2 0x1000 lone)).launches.map (fun x => x.2.hostTrap.map fun t =>
      (t.2.cls, t.2.cause, t.2.addr)) = [some (2, 0, 0x1002)] := by decide +kernel

/-- A held write of group 0, whose word is older than the one of `later`. -/
def heldWrite (sealed : Bool) (what : Held) (s : State) : State := modPair s 0 fun P =>
  { P with hb := [{ g := 0, seq := 0, core := 0, partid := 0, sealed := sealed, what := what }] }
def later (w : QWord) : QWord := { w with seq := 1 }
/-- FENCE at scope .clus with a release (C = 16 · 4 + 8), with nothing to wait for and with a held write before it, also
in a handler that saved an older word; CWB of a line that translates. -/
theorem witness_FencesAndCaches :
    let f := (xw 0 0 0 0 72 0).flds
    let sent : Held := .data 0x1000 0x1000 [(0, 5)] 0 false
    let h : Handler := ⟨{}, 1, {}, {}, 0, [(cur0 (.sadd sw0)).w]⟩
    let pages := hitsAt (.cwb (xw 0 2 0 0 0 0)) (xw 0 2 0 0 0 0).flds 128 .read
    meets (.fence (xw 0 0 0 0 72 0)) lone (fun c s => (fenceHeld (begun c s) c f).isEmpty) ∧
    meetsAs later (.fence (xw 0 0 0 0 72 0)) (heldWrite false sent lone) (fun c s =>
      !(fenceHeld (begun c s) c f).isEmpty && !(fenceHeld (begun c s) c f).any (heldStuck (begun c s) 0)) ∧
    meetsAs later (.fence (xw 0 0 0 0 72 0)) (modGrp (heldWrite false sent lone) 0 fun G => { G with handler := some h })
      (fun c s => (fenceHeld (begun c s) c f).any (heldStuck (begun c s) 0)) ∧
    meets (.cwb (xw 0 2 0 0 0 0)) (setU 2 0x1000 lone) (fun c s =>
      (orderWait c (xw 0 2 0 0 0 0).flds true (begun c s)).isNone) ∧
    pages.1 = [⟨0, 0x1000, 0x1000, false, false⟩] ∧ pages.2.1 = [] ∧ holdFull pages.2.2 0 0 1 = none := by
  decide +kernel

/-- A stash window of 1 KiB over local byte 0. -/
def mapped : State := done (.stmap (xw 1 2 3 0 0 1)) (setU 2 0x1000 lone)
theorem witness_StashWords :
    meets (.stmap (xw 1 2 3 0 0 1)) (setU 2 0x1000 lone) (fun c s => uread s 0 2 % 1024 == 0 && uread s 0 3 % 1024 == 0 &&
      decide (1024 ≤ (launchOf s 0).window) && (launchOf s 0).localBytes != 0 &&
      ((List.range 8).all fun n => !(stashWin s 0 (halfOf s 0) n).valid) && (core s (coreOf s 0)).locks.isEmpty &&
      (lockTables s 0).isEmpty && (orderWait c (xw 1 2 3 0 0 1).flds true (begun c s)).isNone) ∧
    meets (.stmap (xw 1 2 3 0 0 1)) (setU 2 1 lone) (fun _ s => uread s 0 2 % 1024 != 0) ∧
    meets (.stmap (xw 1 2 3 0 0 1)) (setU 3 1 lone) (fun _ s => uread s 0 2 % 1024 == 0 && uread s 0 3 % 1024 != 0) ∧
    meetsAs later (.stunmap (xw 1 0 0 0 0 0)) mapped (fun c s => (stashWin s 0 (halfOf s 0) 1).valid &&
      (orderWait c (xw 1 0 0 0 0 0).flds true (begun c s)).isNone) ∧
    meets (.stsync (xw 1 0 0 0 0 0)) lone (fun _ s => !(stashWin s 0 (halfOf s 0) 1).valid) := by decide +kernel
theorem witness_StashWords_ptst :
    meets (.ptst (xw 1 2 0 1 0 0)) lone (fun _ s => (xw 1 2 0 1 0 0).flds.m 0 &&
      (localAt s 0 (laneAddr s 0 (xw 1 2 0 1 0 0).flds 64 0 true 0)).isSome) ∧
    meets (.ptst (xw 1 2 0 0 0 0)) (setU 2 0x1000 lone) (fun c s => !(xw 1 2 0 0 0 0).flds.m 0 &&
      (orderWait c (xw 1 2 0 0 0 0).flds false (begun c s)).isNone &&
      !epochWait (begun c s) c (newRegs (begun c s) 0 (.ptst (xw 1 2 0 0 0 0)), 0, 0) &&
      (xlateLanes 0 .read false [(0, laneGlobal s 0 (xw 1 2 0 0 0 0).flds 64 0 0)] (begun c s)).2.1.isEmpty) := by
  decide +kernel

/-! #### Matrix, copy and ring words -/

theorem witness_RowWords : Obl.rowsFree lone 0 0 64 64 ∧ poisRows lone 0 0 64 = [] ∧
    meets (.xzero xw0) lone (fun _ s => !rowsHeld s 0 (uread s 0 1) 1 && decide (1 ≤ (winG s 0).accN)) ∧
    meets (.xgrd (xw 1 2 0 1 0 0)) lone (fun _ _ => (xw 1 2 0 1 0 0).flds.m 0) := by
  refine ⟨⟨?_, ?_, ?_⟩, ?_, ?_⟩ <;> decide +kernel
/-- XEXP sets the exponent of the rows it names alone. -/
theorem test_xexp : (rowGet (after (.xexp (xw 1 2 0 0 0 0)) (setU 2 7 lone)) 0 0).e = 7 ∧
    (rowGet (after (.xexp (xw 1 2 0 0 0 0)) (setU 2 7 lone)) 0 1).e = 0 := by decide +kernel
/-- A core whose walker still has to read a card of a launch, whose bytes the pair holds back: it locks the launch's
rows. -/
def carded : State :=
  done (.xrun (xw 1 2 0 0 0 0)) (heldWrite false (.data 0x1000 0x1000 [(0, 5)] 0 false) (setU 2 0x1000 lone))
theorem witness_RowTraps :
    meets (.xzero xw0) (setU 1 64 lone) (fun _ s => !rowsHeld s 0 64 1 && decide ((winG s 0).accN < 65)) ∧
    meetsAs later (.xzero (xw 4 0 0 0 0 0)) carded (fun _ s => rowsHeld s 0 0 1) := by decide +kernel
theorem witness_StreamWords :
    meets (.xstrm (xw 1 2 3 0 0 0)) lone (fun _ _ => !strmBad 0) ∧
    meets (.xstrm (xw 1 2 3 0 0 0)) (setU 2 (7 * 2 ^ 61) lone) (fun _ s => strmBad (uread s 0 3 * 2 ^ 64 + uread s 0 2)) := by
  decide +kernel
/-- Streams f2 in local memory and f3 in the weight window: FMT 5 is 8-bit integers. -/
def strms : State :=
  writeItem (writeItem lone (.f 0 2) (.num (5 + 128 * 2 ^ 64))) (.f 0 3) (.num (5 + 64 + 8192 * 2 ^ 64))

theorem witness_OperatorCards :
    meets (.xrun xw0) (setU 2 0x1000 lone) (fun c s => uread s 0 2 % 256 == 0 && (jobsOf s 0 0).isEmpty &&
      !epochWait (begun c s) c (0, 0, 0)) ∧
    meets (.xrun xw0) (setU 2 1 lone) (fun _ s => uread s 0 2 % 256 != 0) ∧
    meetsAs later (.xrun xw0) (modCore carded 0 fun C => { C with jobs := C.jobs ++ C.jobs ++ C.jobs ++ C.jobs })
      (fun _ s => uread s 0 2 % 256 == 0 && decide (4 ≤ ((jobsOf s 0 0).filter Job.live).length)) ∧
    meetsAs later (.xpoll (xw 1 4 0 0 0 0)) carded (fun _ s => (jobByHandle s 0 0).any (fun j => j.2.live) && !isDet s 0) ∧
    meetsAs later (.xpoll (xw 1 4 0 1 0 0)) carded (fun _ s => (jobByHandle s 0 0).any (fun j => j.2.live) &&
      (xw 1 4 0 1 0 0).flds.m 0) ∧
    meetsAs later (.xkill (xw 0 4 0 0 0 0)) carded (fun _ s => (jobByHandle s 0 0).isSome) ∧
    meets (.xkill (xw 0 4 0 0 0 0)) lone (fun _ s => (jobByHandle s 0 0).isNone) := by decide +kernel
theorem test_xrun : uread carded 0 1 = 0 ∧ (core carded 0).jobs.length = 1 ∧ (jobByHandle carded 0 0).isSome = true := by
  decide +kernel

/-- CPY of 64 bytes from local 0 to local 128. -/
def cpyRegs : State := setU 2 0 (setU 1 128 (setU 3 64 lone))
theorem witness_StridedPairs : (0 : Nat) < 1 ∧ (1 : Nat) < 2 ∧ (2 : Nat) < 3 ∧
    (CopyPairs.nd 0 100 2 3 1 1 10 0 0 2 0 0).pairAt (1 + 2 * (2 + 3 * (0 + 1 * 0))) = (2 * 2 + 1, 100 + 2 * 10 + 1) := by
  decide +kernel

/-- XIMMA of one row: A is row 0 of local memory, B the first tile of the weight window. -/
theorem witness_MatrixProducts :
    Obl.ProdClear 4 (cur0 (.ximma (xw 1 2 3 0 0 0))) strms (xw 1 2 3 0 0 0).flds [(0, 128)] ∧
    Obl.rowsFree strms 0 0 1 1 ∧ tileLen (weightNum strms 0 0 8192) 128 5 1 0 ≤ 8192 ∧ meets (.ximma (xw 1 2 3 0 0 0)) strms (fun _ _ => true) := by
  have rows : Obl.rowsFree strms 0 0 1 1 := by refine ⟨?_, ?_, ?_⟩ <;> decide +kernel
  refine ⟨?_, rows, by decide +kernel⟩
  constructor
  case rows => exact rows
  all_goals decide +kernel
theorem witness_FlushRows :
    let s := writeItem lone (.f 0 1) (.num (8 + 256 * 2 ^ 64))
    Obl.rowsFree s 0 0 1 0 ∧ meets (.xflush (xw 1 2 0 0 0 0)) s (fun _ s =>
      decide ((strmOf (fread s 0 1)).fmt ≠ 0 ∧ (strmOf (fread s 0 1)).space = 0) && (localRun s 0 0 256).isSome &&
      !runsLocked s 0 false [(0, 256)] && !runsStashed s 0 [(0, 256)] && (poisRows s 0 0 1).isEmpty &&
      !neverFits s 0 (64 * (runGrans s 0 [(0, 256)]).length, 0, 0)) := by
  refine ⟨⟨?_, ?_, ?_⟩, ?_⟩ <;> decide +kernel

theorem witness_CopyWords :
    Obl.CopyClear (cur0 (.cpy (xw 0 1 2 3 3 0))) cpyRegs (reqLinear cpyRegs 0 (xw 0 1 2 3 3 0).flds false false) false
      (xw 0 1 2 3 3 0).flds ∧ meets (.cpy (xw 0 1 2 3 3 0)) cpyRegs (fun _ _ => true) := by
  refine ⟨?_, ?_⟩
  · constructor <;> decide +kernel
  · decide +kernel
/-- Two bytes, three times, from 0 to 128, by a descriptor at local 512; and two rows of 64 bytes by an index list there. -/
theorem witness_CopyWords_lists :
    let nd := setU 4 512 (locPut 0 0 0 512 (toBytes 64 (2 + 2 * 2 ^ 32 + 16 * 2 ^ 128 + 16 * 2 ^ 320)) cpyRegs)
    let rows := setU 4 (64 + 2 * 2 ^ 32) (setU 5 512 (locPut 0 0 0 512 (toBytes 8 (2 ^ 32)) (setU 1 256 cpyRegs)))
    Obl.CopyClear (cur0 (.cpynd (xw 0 1 2 3 4 0))) nd (reqNd nd 0 (xw 0 1 2 3 4 0).flds) false (xw 0 1 2 3 4 0).flds ∧
    Obl.CopyClear (cur0 (.cpyg (xw 0 1 2 3 4 0))) rows (reqIndexed rows 0 (xw 0 1 2 3 4 0).flds false) false
      (xw 0 1 2 3 4 0).flds := by
  refine ⟨?_, ?_⟩ <;> constructor <;> decide +kernel
theorem test_cpy : (core (after (.cpy (xw 0 1 2 3 3 0)) cpyRegs) 0).cmds.map (fun x => x.pairs.pairAt 5) = [(133, 5)] ∧
    (core (after (.cpy (xw 0 1 2 3 3 0)) cpyRegs) 0).locks.length = 2 := by decide +kernel

/-- A ring of two slots of 64 bytes at local byte 0, made by RINIT with CFG = 1; `full` has one slot ready, and `pulled`
pulls from a source at 0x1000. -/
def ringed : State := done (.rinit (xw 0 2 3 0 4 0)) (setU 3 1 lone)
def ringWith (r : Ring) : State := locPut 0 0 0 0 (toBytes 64 (ringNum r)) (setU 4 64 lone)
def full1 : Ring := ⟨0, 1, 1, 1, 0, false, true, 0⟩
def pulls : Ring := ⟨0, 1, 1, 1, 0, true, true, 0x1000⟩
theorem witness_RingWords :
    meets (.rinit (xw 0 2 3 0 4 0)) (setU 3 1 lone) (fun _ s => localRun s 0 0 (64 + 2 * 64) == some (0, 0)) ∧
    meets (.rinit (xw 0 2 3 0 4 0)) (setU 3 0x101 (setU 4 0x1000 lone)) (fun _ s => (uread s 0 3).testBit 8 &&
      (core s 0).watches.isEmpty) ∧
    meets (.rwait (xw 1 2 0 0 0 0)) (ringWith full1) (fun _ _ => decide (0 < full1.ready)) ∧
    meetsAs later (.rwait (xw 1 2 0 0 0 0)) ringed (fun _ s => (ringAt s 0 0).ready == 0) ∧
    meets (.rrel (xw 0 2 0 0 0 1)) (ringWith full1) (fun c s => !mxBusy s c && decide (1 ≤ full1.ready)) ∧
    meets (.rpost (xw 0 2 3 1 4 0)) (ringWith full1) (fun _ s => !rangeStashed s 0 1 (0, 64) && decide (1 ≤ freeLocks s 0) &&
      decide (stashLocks s 0 ≤ 31) && (engineCmds s 0).isEmpty && decide (diff32 1 0 < 2)) ∧
    meets (.rtail (xw 0 4 3 0 0 0)) (setU 4 0x1000 lone) (fun c s => !memBusy s c &&
      (globalLock s 0 0x1000 4 false).isNone && (xlateLanes 0 .write false [(0, 0x1000)] (begun c s)).2.1.isEmpty) := by
  decide +kernel
/-- A release of a pull ring stores its count at the source + 8; into a copy's range it traps. -/
theorem witness_RingWords_pull :
    let s := ringWith pulls
    meets (.rrel (xw 0 2 0 0 0 1)) s (fun c s => !mxBusy s c && (globalLock s 0 0x1008 4 false).isNone &&
      (xlateLanes 0 .write false [(0, 0x1008)] (begun c s)).2.1.isEmpty) ∧
    meets (.rrel (xw 0 2 0 0 0 1)) (modCore s 0 fun C => { C with locks := [⟨9, 0, 0, 0, 0x1000, 0x1010, 1, false⟩] })
      (fun _ s => (globalLock s 0 0x1008 4 false).isSome) := by decide +kernel
theorem witness_RingHdr : Obl.RingHdr ringed 0 0 ⟨0, 0⟩ ⟨0, 0, 0, 1, 0, false, true, 0⟩ ∧
    Obl.RingHdr (ringWith full1) 0 0 ⟨0, 0⟩ full1 ∧ Obl.RingHdr (ringWith pulls) 0 0 ⟨0, 0⟩ pulls := by
  refine ⟨?_, ?_, ?_⟩ <;> constructor <;> decide +kernel
/-- RWAIT of slot 2 of 2 traps RANGE with cause 6, of slot 0 waits with cause 4; a filled ring goes on. -/
theorem test_rwait : (grp (after (.rwait (xw 1 2 0 0 0 0)) ringed) 0).waitCause = 4 ∧
    (launchOf (after (.rwait (xw 1 2 0 0 0 2)) ringed) 0).hostTrap.map (fun t => (t.2.cls, t.2.cause)) = some (4, 6) ∧
    uread (after (.rwait (xw 1 2 0 0 0 0)) (ringWith full1)) 0 1 = 64 := by decide +kernel

/-! #### Barriers, pools and quanta -/

/-- Barrier 2 with one arrival left of 2, in phase 255. -/
def armed2 (s : State) : State := writeItem s (.bar 0 2) (.num (barMake 1 2 255))
/-- The last arrival completes the phase, which wraps to 0. -/
theorem test_bar : barAt (after (.bar ⟨0, 2, 0⟩) (armed2 lone)) 0 2 = barMake 2 2 0 := by decide +kernel
theorem witness_NamedBarriers :
    let more := writeItem lone (.bar 0 2) (.num (barMake 2 2 255))
    meets (.bar ⟨0, 2, 0⟩) lone (fun _ s => barCount (barAt s 0 2) == 0) ∧
    meets (.bar ⟨0, 2, 0⟩) (armed2 lone) (fun _ s => barPhase (barArrive (barAt s 0 2)) != barPhase (barAt s 0 2)) ∧
    meets (.bar ⟨0, 2, 0⟩) more (fun _ s => barCount (barAt s 0 2) != 0 &&
      barPhase (barArrive (barAt s 0 2)) == barPhase (barAt s 0 2)) ∧
    meetsAs (waited 1 254) (.bar ⟨0, 2, 0⟩) more (fun c s => barPhase (barAt s 0 2) != c.w.aux) ∧
    meetsAs (waited 1 255) (.bar ⟨0, 2, 0⟩) more (fun c s => barPhase (barAt s 0 2) == c.w.aux) ∧
    meets (.barw ⟨0, 2, 4⟩) more (fun _ s => barPhase (barAt s 0 2) != uread s 0 4 % 256) ∧
    meets (.barw ⟨0, 2, 4⟩) (setU 4 255 more) (fun _ s => barPhase (barAt s 0 2) == uread s 0 4 % 256) := by
  decide +kernel
theorem witness_BarrierValues : (0 : Nat) < 1 ∧ 1 ≤ 127 ∧ barArrive (barMake 1 127 255) = barMake 127 127 0 ∧
    barDrop (barMake 127 127 255) = barMake 126 126 255 := by decide +kernel

/-- A team object of two arrivals at local byte 0, made by TBINIT. -/
def tbMade : State := done (.tbinit (xw 0 2 0 0 0 2)) lone
theorem witness_TeamObj : Obl.TeamObj tbMade 0 0 ⟨0, 0⟩ ⟨0, 2, 2, 0, 1⟩ ∧ Obl.TeamObj lone 0 0 ⟨0, 0⟩ ⟨0, 0, 0, 0, 0⟩ := by
  refine ⟨?_, ?_⟩ <;> constructor <;> decide +kernel
theorem witness_TransactionBarriers :
    meets (.tbinit (xw 0 2 0 0 0 64)) lone (fun _ _ => true) ∧ meets (.tbinit (xw 0 2 0 0 0 65)) lone (fun _ _ => true) ∧
    meetsAs later (.tbarr (xw 0 2 3 0 0 0)) tbMade (fun _ _ => true) ∧ meets (.tbarr (xw 0 2 3 0 0 0)) lone (fun _ _ => true) ∧
    meetsAs later (.tbwait (xw 0 2 4 0 0 0)) (setU 4 (2 ^ 32 - 1) tbMade) (fun _ s => tbPassed 0 (uread s 0 4)) ∧
    meetsAs later (.tbwait (xw 0 2 4 0 0 0)) tbMade (fun _ s => !tbPassed 0 (uread s 0 4)) ∧
    (xw 0 2 3 0 0 0).flds.m 3 = false ∧ (xw 0 2 3 8 0 0).flds.m 3 = true ∧ holdFull lone 0 0 1 = none := by decide +kernel
/-- A cluster object at 0x1000, and one in phase 1, whose phase 0 has passed. -/
def tbFar (o : TbObj) : State := setU 2 0x1000 { lone with mem := memWrite lone.mem 0x1000 (toBytes 16 (tbNum o)) }
theorem witness_ClusterObj :
    let c := cur0 (.tbexp (xw 0 2 3 8 0 0))
    let s := tried (.tbexp (xw 0 2 3 8 0 0)) (tbFar ⟨0, 2, 2, 1, 2⟩)
    let r (k : Acc2) := xlateLanes 0 k false [(0, 0x1000)] (begun c s)
    let t := (r .atomic).2.2
    let got := readSectors c [⟨0, 0x1000, 0x1000, false, false⟩] t
    Obl.ClusterObj c s 0x1000 false 64 ⟨0, 0x1000, 0x1000, false, false⟩ t ∧
    Obl.ClusterObj c s 0x1000 true 0 ⟨0, 0x1000, 0x1000, false, false⟩ t ∧ holdFull t 0 0 1 = none ∧
    epochWait (begun c s) c (0, 0, 0) = false ∧ ownAtoms t c [0x1000] 16 = [] ∧ got.1 = true ∧
    tbOf (loadNum (cacheRead 0 0x1000 false got.2) 0 0x1000 16) = ⟨0, 2, 2, 1, 2⟩ ∧ tbPassed 1 (uread s 0 3) = true := by
  refine ⟨?_, ?_, ?_⟩
  · constructor <;> decide +kernel
  · constructor <;> decide +kernel
  · decide +kernel
/-- Both arrivals of a team object complete its phase. -/
theorem test_tbarr : (tbOf (memNum ((team (after (.tbarr (xw 0 2 3 0 0 0)) (after (.tbarr (xw 0 2 3 0 0 0)) tbMade)) 0).mem
    0) 0 16)) = ⟨0, 2, 2, 1, 1⟩ := by decide +kernel
theorem witness_BarrierPhases : tbComplete ⟨0, 0, 3, 2 ^ 32 - 1, 1⟩ = ⟨0, 3, 3, 0, 1⟩ ∧
    tbComplete ⟨1, 0, 3, 0, 1⟩ = ⟨1, 0, 3, 0, 1⟩ := by decide +kernel

/-- CLAIM where the pool holds enough and where it does not, and as the last of a deadlock; QSEAL before and after its
close; TWTIME before and at its time; YIELD of a context that is being pre-empted. -/
theorem witness_PoolAndQuantum :
    meets (.claim ⟨0, 0, 0⟩) lone (fun _ s => decide (0 ≤ poolOf s 0)) ∧
    (let t := { after (.claim ⟨0, 1, 0⟩) lone with cur := none }
     let w := ((queueOf (grp t 0) 5)[0]?).getD (cur0 (.claim ⟨0, 1, 0⟩)).w
     let rich := modTeam t 0 fun T => { T with pool0 := T.pool0 + 1 }
     waitingClaim (grp t 0) = some (w, 1) ∧ poolOf t 0 < 1 ∧ waitingClaim (grp rich 0) = some (w, 1) ∧
       1 ≤ poolOf rich 0 ∧ w.instr.flds.a = 1 ∧ stopped rich 0 = false ∧
       guardedOff (useRot 0 w rich) ⟨0, true, w⟩ w.instr = false ∧ handlerWaits (useRot 0 w rich) 0 w.instr = false ∧
       (overCharge (grantClaim w.instr.flds ⟨0, true, w⟩ (useRot 0 w rich)) 0 w.seq).isNone = true) ∧
    meets (.claim ⟨0, 1, 0⟩) lone (fun c s => decide (poolOf s 0 < 1) && c.w.stage != 2) ∧
    meetsAs (waited 2 0) (.claimX (xw 1 1 0 1 0 0)) lone (fun c s => decide (poolOf s 0 < 1) && c.w.stage == 2 &&
      (xw 1 1 0 1 0 0).mod.getLsbD 0) ∧
    meets (.qseal sw0) lone (fun c s => c.w.stage == 0 && !handlerStuck s 0) ∧
    meetsAs (fun w => { w with stage := 1, seq := 9 }) (.qseal sw0) lone (fun c s => !released (begun c s) 0 c.w.seq) ∧
    meets (.twtime (xw 0 2 0 0 0 0)) lone (fun _ s => decide (uread s 0 2 ≤ s.now)) ∧
    meets (.twtime (xw 0 2 0 0 0 0)) (setU 2 1 lone) (fun _ s => decide (s.now < uread s 0 2)) ∧
    meets (.yield sw0) (modLaunch lone 0 fun l => { l with parts := [(0, { preempt := true })] })
      (fun _ s => (part s 0 (seatOf s 0)).preempt && !isDet s 0) := by decide +kernel
theorem test_give : (grp (after (.give ⟨0, 3, 0⟩) lone) 0).blocks = 13 ∧
    poolOf (after (.give ⟨0, 3, 0⟩) lone) 0 = 3 := by decide +kernel
/-- A CLAIM of what the pool holds. -/
theorem test_claim : (grp (after (.claim ⟨0, 2, 0⟩) (after (.give ⟨0, 3, 0⟩) lone)) 0).blocks = 15 ∧
    (grp (after (.claim ⟨0, 2, 0⟩) lone) 0).waitCause = 5 := by decide +kernel

/-! #### Ports, links, trees and system words -/

/-- Devices 0 and 1 are present, this one being 0, with link 0 up to device 1 where `up` is set. -/
def devices (up : Bool) (s : State) : State := setReg (setReg s 0x120400 0x30) (rLk 0 8) (2 + b2n up)
/-- Port 4 of the launch is bound to the group itself (KIND 1), or to the group of device 1 in its place (KIND 6). -/
def weaves (kind : Nat) (s : State) : State := modLaunch (devices true s) 0 fun l =>
  { l with weave := BitVec.ofNat 512 ((kind + 2 ^ 36) * 2 ^ 256) }
def part1 (seq : Nat) : PortPart := ⟨0, seq, [(0, 9)], 1, true, {}⟩
theorem witness_PortWords :
    let far := weaves 6 lone
    let fill := (List.range 8).map fun i => (⟨part1 i, 1, 0, 4, true⟩ : OutPart)
    let feeds (c : Cur) (s : State) := feedsOf s 0 4 (fun l => vread s 0 2 l) (activeLanes s c (xw 0 2 4 0 0 0).flds)
    let full (c : Cur) (s : State) := (feeds c s).filter fun x => decide (8 ≤ unfreed s 0 x)
    meets (.psh (xw 0 2 4 0 0 0)) (weaves 1 lone) (fun c s => (peerOf s 0 4).isSome &&
      !((feeds c s).any fun x => unreachable s x.peer.dev) && (full c s).isEmpty) ∧
    meets (.psh (xw 0 2 4 0 0 0)) lone (fun _ s => (peerOf s 0 4).isNone && (sourcesOf s 0 4).isEmpty) ∧
    meets (.psh (xw 0 2 4 0 0 0)) (setReg far 0x120400 0x10) (fun c s => (peerOf s 0 4).isSome &&
      (feeds c s).any fun x => unreachable s x.peer.dev) ∧
    meets (.psh (xw 0 2 4 0 0 0)) { far with outParts := fill, farRetired := [(1, 0)] } (fun c s =>
      !((feeds c s).any fun x => unreachable s x.peer.dev) && (full c s).any (pushDead s)) ∧
    meets (.psh (xw 0 2 4 0 0 0)) (setChan 0 4 { parts := (List.range 8).map part1 } (weaves 1 lone)) (fun c s =>
      !((feeds c s).any fun x => unreachable s x.peer.dev) && !(full c s).isEmpty && !(full c s).any (pushDead s)) := by
  decide +kernel
/-- A value that lane 0 pushed to port 4 of its own group is ready there. -/
theorem witness_PortWords_pop :
    meets (.pop (xw 1 2 4 0 0 0)) (setChan 0 4 { parts := [part1 0] } (weaves 1 lone)) (fun _ s =>
      decide (sourcesOf s 0 4 ≠ []) && entryReady s 0 4 0) := by decide +kernel
/-- A launch whose routes are fixed, on device 0, with a message of 64 bytes that has arrived. -/
def linked : State := setReg (setU 3 64 (modLaunch lone 0 fun l => { l with routed := true })) 0x120400 0
def msg64 : Msg := ⟨0, 0, 0, 0, 0, 0, List.replicate 64 1, 0, 0, 2, none, {}⟩
/-- The same launch after a rollback, once its first words' messages have left. -/
def relinked : State := modGrp linked 0 fun G => { G with gone := [0, 1] }
theorem witness_LinkWords :
    Obl.LinkClear linked 0 0 64 (linkPeer linked 0 0) true ∧
    Obl.LinkClear relinked 0 0 64 (linkPeer relinked 0 0) true ∧
    meets (.lsnd (xw 0 2 3 0 4 0)) relinked (fun c s => (grp s 0).gone.contains c.w.seq) ∧
    meets (.lsnd (xw 0 2 3 0 4 0)) linked (fun _ s => decide (1 ≤ freeLocks s 0) && s.msgs.isEmpty) ∧
    meetsAs (waited 1 0) (.lradd (xw 1 2 3 0 4 0)) { linked with msgs := [msg64] } (fun _ s =>
      nextMsg s 0 (linkPeer s 0 0) == some msg64 && routeOk s 0 (linkPeer s 0 0).dev && (runPois s 0 (0, 64)).isEmpty &&
      msg64.bytes.length == uread s 0 3) ∧
    meetsAs (waited 1 0) (.lrcv (xw 1 2 3 0 4 0)) linked (fun _ s => (nextMsg s 0 (linkPeer s 0 0)).isNone) := by
  refine ⟨?_, ?_, ?_⟩
  · constructor <;> decide +kernel
  · constructor <;> decide +kernel
  · decide +kernel
theorem witness_TreeWords :
    meets (.trins (xw 1 2 3 1 0 0)) lone (fun c s => decide (laneList s c (xw 1 2 3 1 0 0).flds ≠ []) &&
      (holdFull (begun c s) 0 0 1).isNone && !handlerStuck s 0 && (xw 1 2 3 1 0 0).flds.m 0) ∧
    meetsAs (fun w => { w with mask := 0 }) (.trupd xw0) lone (fun c s => decide (laneList s c xw0.flds = [])) := by
  decide +kernel
theorem test_tree_held : (pair (after (.trtot (xw 1 0 0 0 0 5)) lone) 0).hb.map (fun h => h.what) =
    [.tree 5 (.tot 1 0)] := by decide +kernel

/-- TRAP 5 of a group without a vector goes to the host as SOFT with cause 5. -/
theorem test_trap : (launchOf (after (.trap ⟨0, 0, 0, ⟨false, false, 0⟩, 5⟩) lone) 0).hostTrap.map
    (fun t => (t.2.cls, t.2.cause)) = some (10, 5) := by decide +kernel
/-- A launch with a vector: the handler of class 10 starts at TVEC + 160, in supervisor mode. -/
def vectored (s : State) : State := modLaunch s 0 fun l => { l with tvec := 0x4000 }
def inHandler : State := done (.trap ⟨0, 0, 0, ⟨false, false, 0⟩, 5⟩) (vectored lone)
theorem test_trap_handler : (grp inHandler 0).s0.addr = 0x40A0 ∧ (grp inHandler 0).supv = true ∧
    (grp inHandler 0).tstat = BitVec.ofNat 64 (10 + 5 * 256 + 7 * 2 ^ 32 + 2 ^ 36) := by decide +kernel
theorem witness_TrapWords : meets (.trap kw0) lone (fun _ _ => true) ∧ meets (.bkpt kw0) lone (fun _ _ => true) := by
  decide +kernel
/-- A raised SOFT trap, which a handler may take, and a RANGE trap, which goes to the host. -/
def soft : TrapRec := { cls := 10, cause := 5, queue := 7, smask := 1 }
def range : TrapRec := { cls := 5, queue := 2, smask := 1 }
def raises (r : TrapRec) (s : State) : State := modGrp s 0 fun G => { G with raised := some r }
theorem witness_HandlerEntry :
    let s := raises soft (vectored lone)
    (grp s 0).raised = some soft ∧ settled (isDet s 0) (grp s 0) = true ∧ (grp s 0).handler = none ∧
      (launchOf s 0).tvec.toNat ≠ 0 ∧ toHandler soft.cls soft.cause = true := by decide +kernel
theorem witness_HostTraps :
    let s := raises range (vectored lone)
    (grp s 0).raised = some range ∧ settled (isDet s 0) (grp s 0) = true ∧ toHandler range.cls range.cause = false ∧
      (grp (raises soft inHandler) 0).handler.isSome = true ∧ (launchOf lone 0).tvec = 0 := by decide +kernel
/-- A group of a handler, one of none that fetches HRET, and the words that it is to fetch again. -/
theorem witness_ReturnFromHandler :
    let i : Instr := .hret ⟨0, 0, 0⟩
    let c : Cur := ⟨0, false, { instr := i, seq := 1 }⟩
    let s := { tried i lone with cur := some c }
    meetsAs later i inHandler (fun _ s => (grp s 0).handler.isSome) ∧ (grp s 0).handler = none ∧ (grp s 0).supv = true ∧
      i.wellFormed = true ∧ (grp s 0).nextSeq ≤ c.w.seq ∧ stopped (begun c s) 0 = false ∧ heldBack (begun c s) 0 i = false ∧
      meetsAs later i (modGrp inHandler 0 fun G => setQueue G 0 [(cur0 (.sadd sw0)).w])
        (fun c s => (queued (grp (begun c s) c.g)).any fun x => decide (x.seq < c.w.seq)) ∧
      meetsAs later i inHandler (fun c s => (queued (grp (begun c s) c.g)).all fun x => decide (c.w.seq ≤ x.seq)) ∧
      ((grp inHandler 0).handler.map fun h => h.saved) = some [] ∧
      ({ grp lone 0 with refetch := [c.w] } : Group).refetch = c.w :: [] := by decide +kernel
theorem witness_SystemWords :
    meets (.syswr xw0) lone (fun c s => (holdFull (begun c s) 0 0 1).isNone) ∧
    meets (.susp xw0) lone (fun _ s => uread s 0 2 % 4096 == 0) ∧
    meets (.susp xw0) (setU 2 1 lone) (fun _ s => uread s 0 2 % 4096 != 0) ∧
    meets (.halt ⟨0, 0, 0⟩) lone (fun c _ => c.w.stage == 0) ∧
    meetsAs (waited 1 1) (.halt ⟨0, 0, 0⟩) lone (fun _ _ => true) ∧
    meetsAs (waited 1 0) (.halt ⟨0, 0, 0⟩) lone (fun _ _ => true) ∧
    (grp inHandler 0).handler.isSome = true := by decide +kernel
/-- SYSRD of TVEC. -/
theorem test_sysrd : uread (after (.sysrd (xw 1 0 0 0 0 1)) (vectored lone)) 0 1 = 0x4000 := by decide +kernel
/-- A user-mode group that fetches HALT, or JOBARM where its card's ARMOK is 0. -/
theorem witness_PrivilegeTraps :
    let i : Instr := .halt ⟨0, 0, 0⟩
    let c : Cur := ⟨0, false, { instr := i, seq := 1 }⟩
    let s := modGrp { tried i lone with cur := some c } 0 fun G => { G with supv := false }
    s.cur = some c ∧ c.retry = false ∧ (grp s 0).nextSeq ≤ c.w.seq ∧ stopped (begun c s) 0 = false ∧
      heldBack (begun c s) 0 i = false ∧ (grp s 0).supv = false ∧ cardFld s (gCard 0) 14 14 = 0 ∧
      i.row.map (fun r => r.cause2 i.flds || r.cause3 i.flds || r.cause4 i.flds (8 * (grp s 0).blocks)) =
        some false := by decide +kernel

/-! ### Machine events -/

theorem witness_GroupEvents :
    (nfind lone.groups 0).isSome = true ∧ trapToHost (raises soft (vectored lone)) 0 soft = false ∧
    (let s := modLaunch lone 0 fun l => { l with hostTrap := some (0, range) }
     (launch s 0).hostTrap = some (0, range) ∧ (launch s 0).killed = false ∧ (launch s 0).tvec = 0 ∧
      ∀ h ∈ groupsOfLaunch s 0, (grp s h).raised = none) ∧
    (let s := { after (.claim ⟨0, 1, 0⟩) lone with cur := none }
     claimDead s 0 = true ∧ (queueOf (grp s 0) 5).map (fun w => w.instr) = [.claim ⟨0, 1, 0⟩]) ∧
    (let s := { after (.claimX (xw 0 1 0 1 0 0)) lone with cur := none }
     claimDead s 0 = true ∧ (queueOf (grp s 0) 5).map (fun w => w.instr) = [.claimX (xw 0 1 0 1 0 0)]) ∧
    (queueOf (grp (tried (.twtime xw0) lone) 0) 5).map (fun w => w.instr) = [.twtime xw0] := by decide +kernel
/-- A load that has started, in one sector; its return fills the register. -/
def flown : State := after (.ld (xw 1 2 0 1 0 0)) (setU 2 0x1000 { lone with mem := memWrite lone.mem 0x1000 [7, 1] })
theorem witness_LoadReturns : ((loadAt flown 0 0).map fun f => match f.kind with
      | .load w _ ty _ addrs ps => (ty, ps.length, addrs.all fun x => (markDone w [0]).done.toNat.testBit x.1)
      | _ => (0, 0, false)) = some (1, 1, true) ∧ loadBehind flown 0 0 [0x1000] 4 = false ∧
    loadBehind flown 0 1 [0x1000] 4 = true ∧ linkHolds flown 0x1000 = false ∧ dramSleeps flown 0x1000 = false ∧
    (fetchSector 0 ⟨0x1000, 1, false, none⟩ flown).1 = none ∧ viewPoison flown 0 0x1000 = false := by decide +kernel
/-- The ochre SRAM lies elsewhere, so that low addresses are DRAM behind regulators; one of them without bytes. -/
def dramy (s : State) : State := setReg s rOchWin (2 ^ 40)
def regs0 (pid : Nat) : NMap Regulator := [(homeOf 0x1000 * 64 + pid, { en := true, limit := 0 })]
/-- The same load where its sector is poisoned, where a regulator without bytes defers it, and where DRAM sleeps. -/
theorem witness_LoadReturns_waits :
    let bad : State := { flown with poison := [(0x40, true)] }
    viewPoison bad 0 0x1000 = true ∧ isCont bad 0 = false ∧ queueLoad (grp (putFlight 0 0 none bad) 0) 2 < 8 ∧
    (fetchSector 0 ⟨0x1000, 1, false, none⟩ bad).1 = none ∧
    (fetchSector 0 ⟨0x1000, 1, false, none⟩ { dramy flown with regulators := regs0 (launchOf flown 0).partid }).1.isSome = true ∧
    dramSleeps (setReg (dramy flown) rSuspStat 2) 0x1000 = true := by decide +kernel
theorem test_load_returns : (match exec (.loadSectorReturn 0 0 0) flown with
    | .next t => (vread t 0 1 0, (grp t 0).flights.length)
    | _ => (0, 9)) = (0x107, 0) := by decide +kernel

def fault0 : FaultRec :=
  { src := 0, acc := 0, cause := 0, ctx := 0, partid := 0, job := 0, core := 0, lane := 0, group := 0, team := 0,
    nrec := 1, va := 0, seq := 0, mask := 0, ipa := 0, time := 0, owner := .lane 0 0 0 }
theorem witness_DriverRings :
    ({ lone with faults := [fault0], duties := [{ kind := 5 }] } : State).faults[0]? = some fault0 ∧
    diff32 (reg lone rFrTail) (reg lone rFrHead) < 4096 ∧ 4096 ≤ diff32 (reg (setReg lone rFrTail 4096) rFrTail)
      (reg (setReg lone rFrTail 4096) rFrHead) ∧ diff32 (reg lone rDrTail) (reg lone rDrHead) < 1024 ∧
    1024 ≤ diff32 (reg (setReg lone rDrTail 1024) rDrTail) (reg (setReg lone rDrTail 1024) rDrHead) := by decide +kernel
theorem witness_FaultReplies : (([{ fault0 with tag := some 3 }] : List FaultRec).find? fun r =>
    r.tag = some 3) = some { fault0 with tag := some 3 } ∧ fault0.owner = .lane 0 0 0 ∧ suspStat lone ≠ 2 ∧
    suspStat (setReg lone rSuspStat 2) = 2 := by decide +kernel
/-- A deterministic group of quanta of 64 words that has placed 64, none of them still open, and one without a slot. -/
def placed64 : State := modGrp (detOf lone) 0 fun G => { G with nextSeq := 64 }
theorem witness_QuantumCloses :
    let busy := modGrp lone 0 fun G => { G with qret := 4096 }
    let last := modGrp (modGrp (detOf lone) 0 fun G => { G with nextSeq := 3 }) 0 fun G => { G with s0 := {} }
    (pair lone 0).openAt + 512 ≤ (passTime 512 lone).now ∧ lone.now < (pair lone 0).openAt + 512 ∧
    ((groupsOn busy 0).any fun h => !isDet busy h && decide (4096 ≤ (grp busy h).qret)) = true ∧
    capacityFull lone 0 = false ∧
    capacityFull (modPair lone 0 fun P => { P with hb := (List.range 4096).map fun i =>
      { g := 0, seq := i, core := 0, partid := 0, sealed := true, what := .cwb (128 * i) (128 * i) } }) 0 = true ∧
    isDet placed64 0 = true ∧ nextBoundary placed64 0 = some 64 ∧ boundarySure placed64 0 64 = true ∧
    exhausted (grp (detClose 0 last) 0) = true ∧ (grp (detClose 0 last) 0).qlo < (grp (detClose 0 last) 0).nextSeq := by
  decide +kernel
theorem witness_QuantumSeals :
    let s := modPair lone 0 fun P => { P with pqs := [(0, 0)] }
    let d := modGrp (passTime 1000 (detOf lone)) 0 fun G => { G with closed := [⟨0, 0, 1, {}, none, 0⟩], qlo := 1, nextSeq := 1 }
    (pair s 0).pqs = (0, 0) :: [] ∧ pairSealDue s 0 0 0 = false ∧ pairSealDue (passTime 1000 s) 0 0 0 = true ∧
    (pair lone 0).pqs = [] ∧ isDet d 0 = true ∧ sealDue (markComplete 0 d) 0 = false ∧
    sealDue (passTime 1000 (markComplete 0 d)) 0 = true := by decide +kernel
/-- A held write that is sealed performs. -/
theorem witness_HeldEntriesPerform :
    let s := heldWrite true (.data 0x1000 0x1000 [(0, 5)] 0 false) lone
    let e := (pair s 0).hb[0]?
    e.map (entryMay s 0 0) = some true ∧ e.map entryKind = some 0 ∧
      (match exec (.holdbackDrain 0 0 false) s with
       | .next t => (memGet t.mem 0x1000).toNat
       | _ => 0) = 5 ∧
    ((pair (heldWrite false (.cwb 0 0) lone) 0).hb[0]?.map fun h => h.sealed) = some false ∧
    e.map (entryMay (heldWrite false (.data 0x1000 0x1000 [(0, 5)] 0 false) lone) 0 0) = some true ∧
    e.map (fun h => (entryServed h s).1 && !landsLater s h && isGroupEntry h && !h.bad) = some true ∧
    e.map (fun h => (entryServed h (setReg (dramy s) rSuspStat 2)).1) = some false ∧
    (pair (heldWrite false (.cwb 0 0) lone) 0).hb[0]?.map (entryMay (heldWrite false (.cwb 0 0) lone) 0 0) = some false ∧
    [((0 : Nat), (5 : Sys2Proof.Byte))].Pairwise (fun x y => x.1 < y.1) ∧ (∀ i < 64, paKind s (0x1000 + i) = .dram) ∧
    cSnap s (lkOf 0 / 2) = 0 ∧ s.dirty = [] := by decide +kernel
/-- An entry of each kind that may perform, with what it reads there. -/
theorem witness_HeldEntriesPerform_kinds :
    ([.data 0x1000 0x1000 [(0, 5)] 0 false, .atom 0 0 none [] false false, .tb 1 0x1000 0x1000 2 2,
      .devLoad 1 0 false 0 0x1000 0x1000 false false, .sys (.wake 0), .sys (.jobArm 0 0), .tree 0 (.tot 1 0)].map
      fun w : Held => let s := heldWrite true w lone
        (pair s 0).hb[0]?.map fun h => (entryMay s 0 0 h && (entryServed h s).1, entryKind h)) =
      (List.range 7).map fun k => some (true, k) := by decide +kernel
/-- Two entries of a group to one sector: the later one waits for the earlier. -/
theorem witness_HeldEntriesPerform_order :
    let s := heldWrite true (.data 0x1000 0x1000 [(0, 5)] 0 false) lone
    let t := modPair s 0 fun P => { P with hb := P.hb ++ P.hb.map fun h => { h with seq := 1 } }
    (match (pair t 0).hb[0]?, (pair t 0).hb[1]? with
     | some e, some h => keepsBack e h && !entryMay t 0 1 h
     | _, _ => false) = true := by decide +kernel
theorem witness_PerformEffects : NoRawBeneath lone ∧ isPoison lone 0x1000 = false ∧ isHole lone 0x1000 = false ∧
    (tbOf (ofBytes (l2Read (tbFar ⟨0, 2, 2, 1, 2⟩) 0x1000 16))).kind = 2 ∧ (tbOf (ofBytes (l2Read lone 0x1000 16))).kind ≠ 2 := by
  refine ⟨fun x hx => ?_, by decide +kernel⟩
  exact absurd hx (by rw [show lone.dirty = [] from rfl]; exact List.not_mem_nil)
/-- A deterministic wave whose one group has sealed its quantum 0, and one whose group is spent. -/
def sealed0 : State := modGrp (modLaunch (detOf lone) 0 fun l => { l with parts := [(0, {})] }) 0 fun G =>
  { G with sealedQ := [⟨0, 0, 1, {}, some 0, 0⟩], qlo := 1, nextSeq := 1 }
theorem witness_Epochs :
    let spent := modLaunch (modGrp (detOf lone) 0 fun G => { G with retired := true }) 0 fun l =>
      { l with desc := l.desc ||| BitVec.ofNat 1024 (2 ^ 86) }
    epochDue sealed0 0 = true ∧ (run sealed0 0).kill = none ∧ cRedun sealed0 0 = false ∧ firstComm (comms sealed0 0) = none ∧
    (firstComm (comms (heldWrite true (.data 0x1000 0x1000 [(0, 5)] 0 false) sealed0) 0)).isSome = true ∧
    (launch spent 0).det = true ∧ waveGroups spent 0 = [0] ∧ groupSpent spent 0 = true ∧ waveDrained spent 0 = true ∧
    waveEnd (launch spent 0) < (launch spent 0).nteams := by decide +kernel
/-- A redundant card, both of whose copies stand at their first epoch. -/
theorem witness_Epochs_redundant :
    let both := { sealed0 with
      groups := sealed0.groups ++ [(1, grp sealed0 0)]
      launches := sealed0.launches ++ [(1, { launch sealed0 0 with copy := 1 })]
      teams := sealed0.teams ++ [(1, {})] }
    let s := setCardFld 0 12 12 1 both
    let wrong := modGrp (heldWrite true (.data 0x1000 0x1000 [(0, 5)] 0 false) s) 0 id
    cRedun s 0 = true ∧ epochDue s 0 = true ∧ (launch s 0).agreed = false ∧ copiesAgree s 0 = true ∧
    copiesAgree wrong 0 = false ∧ epochDue wrong 0 = true ∧ (launch wrong 0).mism = 0 := by decide +kernel
def cmd0 : Cmd := { id := 1, lk := 0, core := 0, g := 0, seq := 0, pairs := .linear 128 0 64, dsp := 1, ssp := 1 }
def copying (c : Cmd) : State := modCore lone 0 fun C => { C with cmds := [c] }
theorem witness_CopyEvents :
    let c : Cmd := { cmd0 with sealed := true }
    let timed : Cmd := { c with time := some 0 }
    let r := readAll { c with todo := [0] } [0] (copying { c with todo := [0] })
    cmdAt (copying c) 0 1 = some c ∧ cmdRuns (copying c) c = true ∧ cmdDet (copying c) c = false ∧ c.todo = [] ∧
      c.filled = false ∧ cpytReady (copying timed) 0 timed = true ∧ cmdRuns (copying timed) timed = true ∧
      r.1.isSome = true ∧ c.srcDone = false ∧ c.recs = [] ∧ cmd0.sealed = false := by decide +kernel
/-- A watch of a pull ring at local byte 0 whose source at 0x1000 holds a tail of 1. -/
def watching : State :=
  let s := ringWith ⟨0, 0, 0, 1, 0, true, true, 0x1000⟩
  modGrp (modCore { s with mem := memWrite s.mem 0x1000 [1] } 0 fun C => { C with watches := [⟨0, 0, 0, 0, 0x1000, none⟩] }) 0
    fun G => { G with qlo := 1, nextSeq := 1 }
theorem witness_PullRings :
    let s := watching
    let r := xlateFor s 0 0 0x1000 Acc2.read
    let q := askRead (.word 0 0) 0x1000 (launchOf s 0).acct 0 r.2
    let s1 := q.2
    let poor : State := { dramy r.2 with regulators := regs0 (launchOf s 0).partid }
    let far := devices true s
    (core s 0).watches[0]? = some ⟨0, 0, 0, 0, 0x1000, none⟩ ∧ released s 0 0 = true ∧ preemptDue s 0 = false ∧
      (grp s 0).parked = false ∧ r.1 = Xl.ok 0x1000 0 ∧ linkHoldsOn r.2 2 0x1000 = false ∧ q.1 = true ∧
      (askRead (.word 0 0) 0x1000 (launchOf s 0).acct 0 poor).1 = false ∧
      linkHoldsOn { far with linkStop := 4 } 2 (5 * 2 ^ 48) = true ∧
      engPoison s1 0x1000 ((List.range 4).map (0x1000 % 64 + ·)) = false ∧
      (List.range 4).any (fun i => heldOnPair s1 0 (0x1000 + i)) = false ∧
      ofBytes ((List.range 4).map fun i => engByte s1 (0x1000 + i)) = 1 ∧
      (ringOf (memNum ((team s1 0).mem 0) 0 64)).pull = true ∧ diff32 1 0 = 1 := by decide +kernel

theorem witness_MessagesMove :
    let sent := modGrp linked 0 fun G => { G with qlo := 1, nextSeq := 1 }
    let s := { sent with msgs := [{ msg64 with stage := 0 }] }
    let p := { part1 0 with delivered := false }
    (chanAt (setChan 0 1 { parts := [p] } s) 0 1).parts[0]? = some p ∧ maySend s 0 0 {} = true ∧ maySend s 0 1 {} = false ∧
    (nfind s.groups 0).isSome = true ∧ (heldBefore (heldWrite true (.data 0x1000 0x1000 [(0, 5)] 0 false) s) 0 1 {}).any isWriteEntry = true ∧
    { msg64 with stage := 3, sdev := 1, ddev := 2 }.sdev ≠ deviceNo s ∧
    deviceNo s = 0 ∧ s.msgs[0]?.map (fun m => (m.stage, m.sdev, m.ddev)) = some (0, 0, 0) ∧
    hwRoute (devices true s) 1 = some 0 ∧ chanStopped (devices true s) 0 2 = false ∧
    chanStopped { devices true s with linkStop := 4 } 0 2 = true ∧ linkUp (devices true s) 0 = true ∧
    linkUp (devices false s) 0 = false ∧ devPresent (devices true s) 1 = true := by decide +kernel
/-- Controllers with lanes: 3 a root port, 0 an endpoint. -/
def ported : State := { lone with pciWidth := [(0, 16), (3, 16)] }
def ended : State := { ported with pciEnd := true }
/-- Tables of context 5 that map 1 GiB to itself, below 4 levels of one entry. -/
def paged (s : State) : State :=
  let put (a x : Nat) (t : State) : State := { t with mem := memWrite t.mem a (toBytes 8 x) }
  put 0x2000000 0x2001001 (put 0x2001000 0x2002001 (put 0x2002000 0x2003001 (put 0x2003000 0xFF
    (setReg (setReg (dramy s) (rCtx 5 0) 0x2000000) (rCtx 5 2) 1))))
theorem witness_OutsideRequests :
    let bars := setReg (setReg lone (rPci 0 0) 1) (rPci 0 8) 0
    (0x1000 : Nat) % 64 + 4 ≤ 64 ∧ isPoison lone 0x1000 = false ∧ busRead lone 0x1000 4 = some 0 ∧
    busRead { lone with poison := [(0x40, true)] } 0x1000 4 = none ∧ paKind lone 0x1000 = .dram ∧
    (reg lone (rPci 0 0)).testBit 6 = false ∧ (reg bars (rPci 0 0)).testBit 0 = true ∧ nget 0 ported.pciWidth 3 = 16 ∧
    pcieAddr ported 3 0 0x1000 = some 0x1000 ∧ pcieAddr ended 0 1 0x1000 = none ∧ pcieAddr ended 0 0 8 = some (Config.regBase + 8) ∧
    (reg (setReg ported (rPci 3 0) 64) (rPci 3 0)).testBit 6 = true ∧
    (translate (paged lone) false false noTlb 5 false 0x1000 .atomic).1 = .ok 0x1000 0 ∧
    (translate lone false false noTlb 5 false 0x1000 .read).1 = .fault 1 0 ∧
    (translate (setReg (paged lone) rSuspStat 2) false false noTlb 5 false 0x1000 .read).1 = .fault causeAsleep 0 ∧
    (askReads (.agent 6) 5 [(0x1000, 0)] { dramy lone with regulators := regs0 5 }).1 = false ∧
    dramSleeps (setReg (dramy lone) rSuspStat 2) 0x1000 = true ∧
    6 ≤ ({ lone with island := { lone.island with stage := 6 } } : State).island.stage := by decide +kernel
theorem pair_of_fst {α β : Type} {p : α × β} {a : α} (h : p.1 = a) : p = (a, p.2) := by rw [← h]
theorem witness_OutsideRequests_reached :
    Obl.Reached 6 5 [0x1000] [0x1000] lone (askReads (.agent 6) 5 [(0x1000, 0)] lone).2 :=
  ⟨by decide +kernel, pair_of_fst (by decide +kernel)⟩
theorem witness_OutsideRequests_pcie :
    Obl.PcieAt ported 3 0 0x1000 .read 0x1000 ported ∧
    Obl.PcieAt (setReg (paged ported) (rPci 3 0) 69) 3 0 0x1000 .atomic 0x1000
      (translate (setReg (paged ported) (rPci 3 0) 69) false false noTlb 5 false 0x1000 .atomic).2 :=
  ⟨⟨by decide, by decide +kernel, 0x1000, by decide +kernel, .inl ⟨by decide +kernel, rfl, rfl⟩⟩,
   ⟨by decide, by decide +kernel, 0x1000, by decide +kernel,
    .inr ⟨by decide +kernel, 0, pair_of_fst (by decide +kernel)⟩⟩⟩
theorem test_remote_write : (match exec (.krypinRemoteRequest 1 0x1000 0 0 0 0 0 [5]) lone with
    | .next t => (memGet t.mem 0x1000).toNat
    | _ => 0) = 5 := by decide +kernel
theorem witness_MessagesMove_lost : hwRoute lone 3 = none := by
  have h : ∀ n ∈ List.range 4, linkUp lone n = false := by decide +kernel
  have e (d : Nat) : ((List.range 4).find? fun n => linkUp lone n && linkPeerDev lone n = d) = none :=
    List.find?_eq_none.2 fun n hn => by simp [h n hn]
  simp [hwRoute, e]
theorem witness_LinkStates :
    let s := devices true lone
    linkUp s 0 = true ∧ hwRoute s 1 = some 0 ∧ (1 : Nat) ≠ deviceNo s ∧ (1, 0) ∉ s.farRetired ∧
    nfind { lone with retrain := [(3, 0)] }.retrain 3 = some 0 ∧ linkUp lone 3 = false ∧ lone.now < 0 + 1000000 ∧
    0 + 1000000 ≤ (passTime 1000000 lone).now ∧ lone.msgs = [] ∧ lone.outParts = [] ∧
    5 ≤ ({ lone with island := { lone.island with stage := 5 } } : State).island.stage := by decide +kernel
theorem witness_TimeEvents :
    (let s := setReg (setReg lone (rLk 3 8) 1) 0x120400 0x21
     linkUp s 3 = true ∧ isMaster s = false ∧ timeSource s = some (linkPeerDev s 3)) ∧
    isMaster (setReg lone 0x120400 0) = true ∧ (reg lone rDutySel).testBit 5 = false ∧
    (reg (setReg lone rDutySel 32) rDutySel).testBit 5 = true ∧ reg lone rTSync % 4 = 0 ∧ nbits (reg lone rTSync) 9 2 ≠ 255 ∧
    nbits (reg (setReg lone rTSync 0x3FF) rTSync) 9 2 = 255 ∧ lone.syncNext ≤ lone.now ∧
    lone.now < ({ lone with syncNext := 1 } : State).syncNext := by decide +kernel
theorem witness_MemoryTraffic :
    let r : Regulator := { en := true, limit := 0 }
    let s := { lone with regulators := [(homeOf 0 * 64 + 5, r)] }
    paKind s 0 = .dram ∧ l2Valid s 0 = false ∧ l2Valid (l2Fill 0 5 false s) 0 = true ∧
    nfind s.regulators (homeOf 0 * 64 + 5) = some r ∧ windowOf s.now ≤ r.win ∧ r.limit < r.bytes + 64 ∧
    reg s rScrub ≠ 0 ∧ s.scrubNext = 0 / 64 ∧ s.scrubDue ≤ s.now ∧ reg (setReg s rScrub 0) rScrub = 0 ∧
    nothingAt s (2 ^ 51) = true ∧ inWindow (ochreWin (dramy s)) 0 = false ∧ dramSleeps s 0 = false ∧ r.waiting = [] ∧
    4 ≤ ({ s with island := { s.island with stage := 4 } } : State).island.stage ∧
    Obl.Reached 30 6 [0] [0] s (askReads (.agent 30) 6 [(0, 0)] s).2 := by
  refine ⟨by decide +kernel, by decide +kernel, by decide +kernel, by decide +kernel, by decide +kernel,
    by decide +kernel, by decide +kernel, by decide +kernel, by decide +kernel, by decide +kernel, by decide +kernel,
    by decide +kernel, by decide +kernel, by decide +kernel, by decide +kernel, ?_⟩
  exact ⟨by decide +kernel, pair_of_fst (by decide +kernel)⟩
/-- Ingest engine 7 enabled on receiver 0 and virtual channel 0, with two buffers of 16 lines of 64 bytes. -/
def ingesting : State := setReg (setReg (setReg (setReg lone (rIng 7 0) 1) (rIng 7 8) 0x8000) (rIng 7 0x10)
  (64 + 16 * 2 ^ 32 + 2 ^ 48)) (rIng 7 0x18) 0x9000
theorem witness_IngestFrames :
    let s := ingesting
    let F := { frameOf s 7 with num := 0 }
    let e := setIngest 7 { ingestAt s 7 with cur := some F } s
    (∀ j < 8, j ≠ 7 → (ingestAt s j).cur = none ∧ takesFrame (reg s (rIng j 0)) 0 0 0 = false) ∧
    takesFrame (frameOf s 7).ictl 0 0 0 = true ∧ takesFrame (frameOf s 7).ictl 0 0 1 = false ∧
    takesChannel F.ictl 0 0 = true ∧ takesChannel F.ictl 0 1 = false ∧ dramSleeps s 0x9000 = false ∧
    dramSleeps (setReg (dramy s) rSuspStat 2) 0x9000 = true ∧ (ingestAt s 7).cur = none ∧
    isPoison (l2Fill 0x9000 0 false s) 0x9000 = false ∧
    diff32 (ofBytes (l2Read s 0x9000 4)) (ofBytes (l2Read s 0x9008 4)) ≠ 2 ^ lbufOf (frameOf s 7).geom ∧
    (ingestAt e 7).cur = some F ∧ nbits F.ictl 14 9 = 0 ∧ F.lines < nbits F.geom 47 32 := by decide +kernel
theorem witness_EthernetFrames : (reg (setReg lone (rEth 3 0) 1) (rEth 3 0)).testBit 0 = true ∧
    diff32 (reg (setReg lone (rEth 3 0x10) 1) (rEth 3 0x10)) (reg lone (rEth 3 0x18)) ≠ 0 ∧
    diff32 (reg (setReg lone (rEth 3 0x28) 1) (rEth 3 0x28)) (reg lone (rEth 3 0x30)) ≠ 0 ∧
    diff32 (reg lone (rEth 3 0x28)) (reg lone (rEth 3 0x30)) = 0 := by decide +kernel
theorem witness_EthernetFrames_reached :
    let s := setReg lone (rEth 3 0) 1
    let u := (askReads (.agent 23) 0 [(0, 0)] s).2
    Obl.Reached 23 (nbits (reg s (rEth 3 0)) 7 2) [0] [0] s u ∧
    Obl.Reached 23 (nbits (reg u (rEth 3 0)) 7 2) (sectorsOf 0 64) (sectorsOf 0 64) u
      (askReads (.agent 23) 0 ((sectorsOf 0 64).map fun a => (a, 0)) u).2 ∧
    Obl.Reached 23 (nbits (reg u (rEth 3 0)) 7 2) (sectorsOf 0 64) [] u (askReads (.agent 23) 0 [] u).2 :=
  ⟨⟨by decide +kernel, pair_of_fst (by decide +kernel)⟩, ⟨by decide +kernel, pair_of_fst (by decide +kernel)⟩,
   ⟨by decide +kernel, pair_of_fst (by decide +kernel)⟩⟩
theorem witness_TreeTableWrites : (63 : Nat) < 64 ∧ ({ lone with treeBusy := 2 ^ 63 }).treeBusy.testBit 63 = true ∧
    lone.treeBusy.testBit 63 = false ∧ ({ lone with treeBusy := 2 ^ 63 }).treeWait = [] ∧
    ({ lone with treeBusy := 2 ^ 63, treeWait := [⟨.host, 0x110FC0, 5, List.range 8⟩] } : State).treeWait =
      [⟨.host, 0x110000 + 64 * 63, 5, List.range 8⟩] := by
  decide +kernel
/-- A card in a state. -/
def cardAt (n st : Nat) (s : State) : State := setCardFld n 7 4 st s
theorem witness_ArmingWrites : cState lone 4095 = 0 ∧ cState (cardAt 4095 3 lone) 4095 = 3 ∧
    cState (cardAt 4095 4 lone) 4095 = 4 ∧ reg lone rDctl = 0 ∧ reg (setReg lone rDctl 1) rDctl ≠ 0 ∧
    lone.susp.begun = 0 ∧ ({ lone with susp := { lone.susp with begun := 5 } } : State).susp.begun ≠ 0 := by decide +kernel
theorem witness_Invalidation : (reg lone rTlbInv).testBit 63 = false ∧
    (reg (setReg lone rTlbInv (2 ^ 63)) rTlbInv).testBit 63 = true ∧ lone.tlbinv = [] := by decide +kernel
theorem witness_RegisterWrites : suspStat lone = 0 ∧ suspStat (setReg lone rSuspStat 1) ≠ 0 ∧
    (reg lone rRetired).testBit 31 = false ∧ (reg (setReg lone rRetired (2 ^ 31)) rRetired).testBit 31 = true ∧
    lone.scans = [] ∧ reg lone rHiStat = 0 ∧ [1, 2, 4, 8].contains 2 = true ∧ (6 : Nat) < 8 ∧ (6 : Nat) % 2 = 0 := by
  decide +kernel
theorem witness_DutyReplies :
    let d : Duty := { kind := 3, tag := some 7, cores := 2 ^ 5 }
    ({ lone with duties := [d] } : State).duties.find? (fun d => d.tag = some 7) = some d ∧ d.dead = false ∧
    Nat.log2 d.cores = 5 ∧ criticalOn lone 5 = false ∧ ([] : List Duty).find? (fun d => d.tag = some 7) = none ∧
    (run lone 0).armBy = none ∧ cState lone 0 ≠ 3 ∧ cState lone 0 ≠ 5 ∧
    (run (modRun 0 (fun R => { R with kill := some { event := 5, cls := 0 } }) lone) 0).kill = some { event := 5, cls := 0 } ∧
    -200000 ≤ sx 32 (1000 % 2 ^ 32) ∧ sx 32 (1000 % 2 ^ 32) ≤ 200000 := by decide +kernel
theorem witness_Releases :
    let s := setReg (cardAt 0 2 lone) rDctl 1
    let p := setCardFld 0 191 128 1000 (cardAt 0 4 lone)
    cState lone 0 < 2 ∧ cState s 0 = 2 ∧ (run s 0).pend = none ∧ dispatching s = true ∧ cRelease s 0 ≤ s.now ∧
    s.now < cRelease (setCardFld 0 127 64 9 s) 0 ∧ cState p 0 = 4 ∧ cPeriod p 0 ≠ 0 ∧ (run p 0).disarmed = false ∧
    cRelease p 0 ≤ p.now := by decide +kernel
theorem witness_InstanceEnds :
    let s := setCardFld 0 3 0 1 (cardAt 0 4 lone)
    let late := modRun 0 (fun R => { R with absDl := 1 }) (passTime 9 s)
    let k : Kill := { event := 4, cls := 0, replay := true }
    let dying := modRun 0 (fun R => { R with kill := some k }) lone
    4 ≤ cState s 0 ∧ (run s 0).kill = none ∧ (run late 0).missed = false ∧ (run late 0).absDl < late.now ∧
    pastDeadline late 0 1 = true ∧ cState lone 0 < 4 ∧ (run dying 0).kill = some k ∧ drained dying 0 = true ∧
    (run dying 0).replayAsk = false ∧ cExtEff (freeCard 0 dying) 0 = false ∧
    drained (heldWrite true (.cwb 0 0) dying) 0 = false ∧ (run (reportOverruns 0 dying) 0).kill = some k ∧
    drained (reportOverruns 0 dying) 0 = true ∧
    workDone s 0 = false := by decide +kernel
/-- An instance whose groups have all retired, on time and late. -/
theorem witness_InstanceEnds_ready :
    let s := setCardFld 0 3 0 1 (cardAt 0 4 (modGrp lone 0 fun G => { G with retired := true }))
    let s := modRun 0 (fun R => { R with absDl := 5 }) s
    let late := passTime 9 s
    workDone s 0 = true ∧ workDone (reportOverruns 0 s) 0 = true ∧ 4 ≤ cState (reportOverruns 0 s) 0 ∧
    (run (reportOverruns 0 s) 0).kill = none ∧ pastDeadline s 0 5 = false ∧
    workDone (missInstance 0 late.now late) 0 = true ∧ 4 ≤ cState (missInstance 0 late.now late) 0 ∧
    (run (missInstance 0 late.now late) 0).kill = none ∧ (run late 0).absDl < late.now ∧ pastDeadline late 0 5 = true ∧
    (let dear := setCardFld 0 21 19 6 (modRun 0 (fun R => { R with usedNs := 9000 }) (setCardFld 0 287 256 3 s))
     (run dear 0).kill = none ∧ workDone dear 0 = true ∧ (run (reportOverruns 0 dear) 0).kill.isSome = true) ∧
    (let strict := setCardFld 0 18 18 1 late
     workDone strict 0 = true ∧ (run strict 0).kill = none ∧ missAborts strict 0 = true ∧
       (run (missInstance 0 strict.now strict) 0).kill.isSome = true) := by
  decide +kernel

theorem witness_MissesAndBudgets :
    let s := modRun 0 (fun R => { R with bwBytes := 9 }) (setCardFld 0 21 21 1 (setCardFld 0 767 736 9 (cardAt 0 4 lone)))
    suspStat s = 0 ∧ inInstance s 0 = true ∧ cardFld s 0 21 21 = 1 ∧ (run s 0).missed = false ∧ (run s 0).jobDone = none ∧
    (run s 0).absDl ≤ s.now ∧ missAborts s 0 = false ∧ inInstance lone 0 = false ∧ (run lone 0).pend = none ∧
    (run s 0).overran = false ∧ cEBudget s 0 < cardFld s 0 767 736 ∧ (run s 0).bwDue = 0 ∧
    0 < (run (modRun 0 (fun R => { R with bwDue := 1 }) s) 0).bwDue ∧ (run lone 0).bwBytes ≤ cBwBudget lone 0 := by decide +kernel
theorem witness_MissesAndBudgets_over :
    let s := modRun 0 (fun R => { R with bwBytes := 9 }) (setCardFld 0 21 21 1 (setCardFld 0 767 736 9
      (setCardFld 0 287 256 3 (setCardFld 0 319 288 3 (cardAt 0 4 lone)))))
    inInstance s 0 = true ∧ cEBudget s 0 ≠ 0 ∧ cEBudget s 0 < cardFld s 0 767 736 ∧ cBwBudget s 0 ≠ 0 ∧
    cBwBudget s 0 < (run s 0).bwBytes ∧ (run s 0).bwRaised ≠ some (run s 0).bwWin ∧ cardFld s 0 20 19 = 0 ∧
    cardFld (setCardFld 0 20 19 1 s) 0 20 19 = 1 ∧ cardFld (setCardFld 0 20 19 2 s) 0 20 19 = 2 := by decide +kernel
/-- A context on core 0 that is to leave, in each of the stages of its capture. -/
def capturing (capture : Nat) : State := modPair (modLaunch (setCardFld 0 3 0 1 lone) 0 fun l =>
  { l with parts := [(0, { preempt := true, capture := capture })] }) 0 fun P => { P with qn := 1 }
theorem witness_Captures :
    let s := capturing 0
    let p : Part := { preempt := true, capture := 0 }
    nfind (launch s 0).parts 0 = some p ∧ (launch s 0).det = false ∧ (launch s 0).hostTrap = none ∧
      jobsParked s 0 0 = true ∧ cKind s 0 = 1 ∧ p.atQ < (pair s 0).qn ∧ captureBack s 0 0 = none ∧
      (∀ g ∈ groupsOfPart s 0 0, stoodStill (grp s g) = true) ∧ partAt lone 0 5 = none ∧
      partAt (capturing 1) 0 0 = some 0 ∧ (part (capturing 1) 0 0).capture = 1 ∧ (savedAt (capturing 1) 0 0).written / 64 = 0 ∧ holdCount (capturing 1) 0 < holdCap 0 ∧ (part (capturing 2) 0 0).capture = 2 ∧
      imageSealed (capturing 2) 0 0 = true ∧ (pair (capturing 2) 0).hb = [] ∧ (part (capturing 4) 0 0).capture = 4 := by
  decide +kernel
/-- A batch's context, which parks at once; and entries of another launch and of a card's outputs. -/
theorem witness_Captures_batch :
    let s := setCardFld 0 3 0 3 (capturing 0)
    let out : Held := .output 0 0 0 0x1000 0x1000 [1] 0
    cKind s 0 ≠ 1 ∧ captureBack s 0 0 = none ∧ jobsParked s 0 0 = true ∧
    (∃ h ∈ (pair (heldWrite true out (capturing 2)) 0).hb, h.what = out) ∧ (part (capturing 2) 0 0).preempt = true ∧
    ((nfind (launch (modLaunch (capturing 0) 0 fun l => { l with parts := [(0, {})] }) 0).parts 0).map (·.preempt)) =
      some false ∧ (launch (capturing 2) 0).parts.length = 1 ∧
    (let t := vacate 0 0 ((coresOf (launch (capturing 2) 0) 0).foldl (fun s k => savePart 0 k s) (chargeCard (capturing 2) 0))
     (∀ p ∈ (launch t 0).parts, p.2.capture = 3) ∧ (∀ p ∈ (launch t 1).parts, p.2.capture = 3)) := by
  refine ⟨by decide +kernel, by decide +kernel, by decide +kernel, ⟨_, List.mem_cons_self, rfl⟩, by decide +kernel,
    by decide +kernel, by decide +kernel, by decide +kernel⟩
theorem witness_Captures_image : 0 < imageSize (capturing 1) 0 0 := by unfold imageSize; omega
/-- A group whose slot has run past the boundary after the decision, and a deterministic wave that is to leave. -/
theorem witness_Captures_back :
    let s := modGrp (capturing 0) 0 fun G => { G with nextSeq := 5 }
    let w := detOf (capturing 0)
    captureBack s 0 0 = some 1 ∧ (∃ lk ∈ commitKeys w 0, (launch w lk).det = true ∧ leavingParts w lk ≠ []) ∧
    (∀ lk ∈ commitKeys w 0, (launch w lk).committing = false ∧ (launch w lk).hostTrap = none) ∧
    (∀ g ∈ waveGroups w 0, stoodStill (grp w g) = true) ∧
    (∀ lk ∈ commitKeys w 0, ∀ p ∈ (launch w lk).parts, jobsParked w lk p.1 = true) := by
  refine ⟨by decide +kernel, ⟨0, ?_⟩, ?_⟩ <;> decide +kernel
/-- A card of a walker, of a launch that has a context on its core. -/
def job0 : Job := { id := 0, hcore := 0, lk := 0, chain := false, g := 0, seq := 0, addr := 0x1000 }
/-- The bits of a GEMM card of two steps, of one row and 64 columns each, with a checkpoint every two. -/
def gemm2 : BitVec 2048 := BitVec.ofNat 2048 (1 + 2 * 2 ^ 8 + 2 * 2 ^ 512 + 32 * 2 ^ 544 + 64 * 2 ^ 576)
def walking (j : Job) (s : State) : State := modCore (modLaunch s 0 fun l => { l with parts := [(0, {})] }) 0 fun C =>
  { C with jobs := [j] }
def badRead (n : Nat) : Job := { job0 with addr := 0x1000, id := n }
theorem witness_WalkerSteps :
    let killed : Job := { job0 with stage := 1, killBy := some (0, 0) }
    nextJob lone 0 = none ∧ nextJob (walking job0 lone) 0 = some job0 ∧ stopsHere (walking job0 lone) 0 job0 = false ∧
    (readCard 0 job0 (walking job0 lone)).1.st = 3 ∧
    (core (walking killed lone) 0).jobs.find? (fun j => j.live && j.stage = 1) = some killed ∧
    jobRuns (walking job0 lone) 0 job0 = true ∧
    (readCard 0 (badRead 2) (walking (badRead 2) lone)).1.st = 3 := by decide +kernel
/-- A whole card, of dense or mask-packed weights; it is read, its masks are checked, and one is held back. -/
def card0 (masks : Nat) : Nat := gemm2.toNat + 2 ^ 5 + 2 ^ 32 + 2 ^ 144 + 8 * 2 ^ 176 + 3 * 2 ^ 1024 + 8192 * 2 ^ 1216 +
  3 * 2 ^ 1344 + (1 + masks) * 2 ^ 1350 + 8 * 2 ^ 1984
theorem witness_WalkerSteps_read :
    let s (m : Nat) : State := { walking job0 lone with mem := memWrite lone.mem 0x1000 (toBytes 256 (card0 m)) }
    let r (m : Nat) := (readCard 0 job0 (s m)).1
    let held := heldWrite false (.data 0x1000 0x1000 [(0, 5)] 0 false) (walking job0 lone)
    let j : Job := { job0 with desc := some (BitVec.ofNat 2048 (card0 1)), unchecked := true }
    (r 0).st = 0 ∧ (r 0).desc.isSome = true ∧ (r 0).unchecked = false ∧ (r 1).unchecked = true ∧
    (readCard 0 job0 held).1.st = 0 ∧ (readCard 0 job0 held).1.desc = none ∧ nextJob (walking j lone) 0 = some j ∧
    (checkMasks 0 j (card0 1) (walking j lone)).1.unchecked = false := by decide +kernel
/-- A card that has been read, and whose weights are loaded; while its rows stand computed it holds the walker. -/
theorem witness_WalkerSteps_step :
    let j : Job := { job0 with desc := some gemm2, st := 1, resident := some 0 }
    let s := walking j lone
    let run := walking { j with stage := 1 } lone
    nextJob s 0 = some j ∧ ocNi gemm2.toNat 0 = 0 ∧ stopsHere s 0 j = false ∧ (core run 0).jobs.find? holdsWalker = some { j with stage := 1 } ∧
    jobPart run 0 { j with stage := 1 } = some {} ∧ atCheckpoint { j with stage := 1 } = false := by decide +kernel
theorem witness_WalkerOutputs :
    let out (step : Nat) : Held := .output 0 0 step 0x1000 0x1000 [1] 0
    let e (s : State) := (pair s 0).hb[0]?
    (e (heldWrite false (out 0) lone)).map (entryMay (heldWrite false (out 0) lone) 0 0) = some false ∧
    (e (heldWrite true (out 0) lone)).map (entryMay (heldWrite true (out 0) lone) 0 0) = some true ∧
    (e (heldWrite true (out 0) lone)).map (fun h => h.what) = some (out 0) ∧
    ((e (heldWrite true (out 0) lone)).map fun h => (pair (performAt 0 0 h (heldWrite true (out 0) lone)) 0).hb) =
      some [] ∧
    (e (heldWrite true (out 0) lone)).map (fun h => (entryServed h (heldWrite true (out 0) lone)).1) = some true ∧
    (e (heldWrite true (out 0) lone)).map (fun h => (entryServed h (setReg (dramy lone) rSuspStat 2)).1) = some false := by
  decide +kernel
/-- Two outputs of one step: while the second is left, the step does not count. -/
theorem witness_WalkerOutputs_two :
    let out : Held := .output 0 0 0 0x1000 0x1000 [1] 0
    let s := heldWrite true out lone
    let t := modPair s 0 fun P => { P with hb := P.hb ++ P.hb.map fun h => { h with what := .output 0 0 0 0x2000 0x2000 [1] 0 } }
    ((pair t 0).hb[0]?.map fun h => (pair (performAt 0 0 h t) 0).hb.length) = some 1 := by decide +kernel
theorem witness_Strikes : (16 : Nat) ≤ 16 ∧ (∀ g ∈ allOn lone 0, isDet lone g = false) ∧ (pair lone 0).rolling = false ∧
    (pair lone 0).rolls + 1 < 4 ∧ 4 ≤ (pair (modPair lone 0 fun P => { P with rolls := 3 }) 0).rolls + 1 ∧
    pairWork lone 0 = true ∧ pairWork lone 1 = false ∧ (pair lone 0).sealedAt ≠ some lone.now ∧
    l2Valid (l2Fill 0 5 false lone) 0 = true ∧ l2Dirty (l2Fill 0 5 false lone) 0 = false ∧
    l2Dirty (l2Write 0 [1] 5 lone) 0 = true := by decide +kernel
theorem witness_Scans :
    let x : Scan := { core := 3, stage := 2, dueAt := 9 }
    let y : Scan := { core := 3, stage := 1 }
    lone.scans = [] ∧ lone.now < lone.scanAt + 100000000 ∧ lone.scanAt + 100000000 ≤ (passTime 100000000 lone).now ∧
    reg lone rRetired = 0 ∧ ({ lone with scans := [x] }.scans.find? fun x : Scan => x.core = 3) = some x ∧
    criticalOn lone 3 = false ∧
    ({ lone with scans := [y] }.scans.find? fun x : Scan => x.core = 3 && decide (x.stage < 2)) = some y ∧
    ({ x with spent := true } : Scan).spent = true ∧ x.spent = false ∧ (∀ y ∈ lone.scans, y.stage ≠ 4) ∧
    x.dueAt ≤ (passTime 9 lone).now ∧ lone.now < x.dueAt ∧ coreDrained lone 3 = true ∧ coreDrained (walking job0 lone) 0 = false := by decide +kernel
theorem witness_PowerGating : ({ lone with gated := 2 ^ 5, wakeReq := 2 ^ 5 } : State).gated.testBit 5 = true ∧
    ({ lone with gated := 2 ^ 5, wakeReq := 2 ^ 5 } : State).wakeReq.testBit 5 = true ∧ lone.gating.testBit 5 = false ∧
    ({ lone with gating := 2 ^ 5 } : State).gating.testBit 5 = true ∧ suspStat lone = 0 := by decide +kernel
theorem witness_Temperature : sx 16 2000 ≤ 2000 ∧ (2000 : Int) < sx 16 2001 ∧ lone.island.hotSince = none ∧
    sx 16 100 < sx 16 (reg lone rThrot) ∧ lone.island.coresHeld = false ∧ 0 + 1000000 ≤ (passTime 1000000 lone).now := by
  decide +kernel
theorem witness_SuspendResume :
    suspStat lone ≠ 1 ∧ suspStat (setReg lone rSuspStat 1) = 1 ∧ suspendReady (setReg lone rSuspStat 1) = true ∧
    suspendReady (capturing 0) = false ∧ suspStat (setReg lone rSuspStat 2) = 2 ∧ suspStat (setReg lone rSuspStat 3) = 3 ∧
    reg lone rResAlarm = 0 ∧ reg (setReg lone rResAlarm 1) rResAlarm ≤ (passTime 1 lone).now := by decide +kernel
theorem witness_BootStages :
    let at4 (n : Nat) : State := { lone with island := { lone.island with stage := n } }
    lone.island.failed = false ∧ (at4 4).island.stage = 4 ∧ soleDevice (setReg lone 0x120400 0) = true ∧
    soleDevice (setReg lone 0x120400 0x30) = false ∧ imageOk lone 1 [] = false ∧ (at4 7).island.stage = 7 := by
  decide +kernel
theorem witness_MailboxCommands :
    let asks (code : Nat) : State := { lone with island := { lone.island with mb := some (code, 0x52) } }
    lone.island.mb = none ∧ lone.island.keyIndex < 2 ^ 40 ∧ (asks 1).island.mb = some (1, 0x52) ∧
    lone.island.signing = none ∧ 2 ^ 40 ≤ (2 ^ 40 : Nat) ∧
    ({ asks 1 with island := { (asks 1).island with signing := some (3, []) } } : State).island.signing = some (3, []) ∧
    (restartEngine 0 (asks 2)).isSome = true ∧ mayRestart (asks 2) 0 = true ∧ mayRestart (asks 2) 0x52 = true ∧ (asks 9).island.mb = some (9, 0x52) := by decide +kernel
theorem witness_MailboxCommands_reached : Obl.Reached 1 0 [0] [0] lone (askReads (.agent 1) 0 [(0, 0)] lone).2 :=
  ⟨by decide +kernel, pair_of_fst (by decide +kernel)⟩
theorem witness_Supervision :
    let j : Job := { job0 with desc := some gemm2, st := 1 }
    let s := passTime 10000000 (walking j lone)
    lone.island.restart = none ∧ coreStalls lone 31 = false ∧
    coreStalls (modGrp (passTime 2000000 lone) 0 fun G => { G with readyAt := some 0 }) 0 = true ∧
    (pair lone 0).rolling = false ∧ (core s 0).jobs = [j] ∧ currentJob (core s 0).jobs = some j ∧ currentJob (core lone 0).jobs = none ∧ j.live = true ∧ j.recs = [] ∧ j.parked = false ∧
    j.since + 10000000 ≤ s.now ∧ lone.now < j.since + 10000000 ∧ reg lone rHbTmo = 0 ∧
    lone.island.hbAt + 1000000 * reg (setReg lone rHbTmo 1) rHbTmo ≤ (passTime 1000000 lone).now := by decide +kernel

/-! ### Encoding, steps and frames -/

theorem witness_DecodeOfEncode : (Instr.sadd sw0).row.isSome = true ∧ (Instr.sadd sw0).wellFormed = true := by
  decide +kernel
theorem witness_EncodeOfDecode : decode (wordBytes 0x20204103) = .ok (.iadd ⟨1, 2, 3⟩, []) := by decide +kernel
/-- A step of the state with IADD at the place that is fetched next runs it: the group has retired one word. -/
theorem test_step : (match step (State.reset.withFetchWord 32 0x20204103) with
    | .next t => (grp t 0).qret
    | _ => 0) = 1 := by decide +kernel
theorem witness_StepRunsTheDecodedWord :
    let s := State.reset.withFetchWord 32 0x20204103
    let s0 : State := { s with ticks := s.ticks + 1, script := [], cur := none }
    s.script = .fetch 0 0 :: [] ∧ fetchable s0 0 0 = true ∧ nget 0 (grp s 0).fetchAns 0 = 0 ∧
      (fetchAt (grp s 0) 0).pc = 0x1000 ∧ (fetchWord s0 0 0 0x1000).1 = .word 0x20204103 ∧ wL 0x20204103 = 0#1 ∧
      (xlate s0 0 0x1000 .fetch).1 = .ok 0x1000 0 ∧ viewPoison (xlate s0 0 0x1000 .fetch).2 0 0x1000 = false ∧
      queueOf (grp (tried (.sadd sw0) lone) 0) 0 = (cur0 (.sadd sw0)).w :: [] := by decide +kernel
/-- A long word: its L bit is 1 and its extension is read 4 bytes on. -/
theorem witness_StepRunsTheDecodedWord_long :
    let s := State.reset.withFetchWord 64 (0x34010286 + 0xC3880000 * 2 ^ 32)
    let s0 : State := { s with ticks := s.ticks + 1, script := [], cur := none }
    let r := fetchWord s0 0 0 0x1000
    r.1 = .word 0x34010286 ∧ wL 0x34010286 = 1#1 ∧ (fetchWord r.2 0 0 0x1004).1 = .word 0xC3880000 := by decide +kernel
theorem witness_StepKeepsMemoryForm : Memory.wf lone = true ∧ Memory.wf State.reset = true ∧
    (match step (State.reset.withFetchWord 32 0x20204103) with
     | .next t => Memory.wf t
     | _ => false) = true := by decide +kernel
theorem witness_RegisterFrames : (tried (.sadd sw0) lone).cur = some (cur0 (.sadd sw0)) ∧ isDet lone 0 = false ∧
    (match exec (.sadd sw0) (tried (.sadd sw0) lone) with
     | .next _ => true
     | _ => false) = true := by decide +kernel
theorem witness_StoreFrames : (0x1000 : Nat) < 0x1001 ∧ paKind lone 0x1000 = .dram ∧ isDet lone 0 = false ∧
    memGet (l2Write 0x103F [9] 0 lone).mem 0x103F = 9 ∧ (0x103F : Nat) % 64 + 1 ≤ 64 := by decide +kernel
/-- A word that is fetched: well formed; with a reserved field set; a register out of range; a rotated register that the
group does not hold; privileged; and a queue that is full. -/
theorem witness_SplitterChecks :
    let c : Cur := ⟨0, false, { instr := .sadd sw0, seq := 1 }⟩
    let s : State := { tried (.sadd sw0) lone with cur := some c }
    let full := modGrp s 0 fun G => setQueue G 0 (List.replicate 8 (cur0 (.sadd sw0)).w)
    c.retry = false ∧ (grp s 0).nextSeq ≤ c.w.seq ∧ stopped (begun c s) 0 = false ∧ heldBack (begun c s) 0 (.sadd sw0) = false ∧
      queueLoad (grp (begun c s) 0) (engOf (.sadd sw0)) < 8 ∧ 8 ≤ queueLoad (grp (begun c full) 0) (engOf (.sadd sw0)) ∧
      illop (begun c s) 0 (.sadd sw0) = none ∧ illop s 0 (.smov ⟨1, 2, 3⟩) = some 2 ∧ illop s 0 (.sadd ⟨1, 64, 3⟩) = some 3 ∧
      illop (modGrp s 0 fun G => { G with blocks := 1 }) 0 (.iadd ⟨9, 2, 3⟩) = some 4 ∧
      8 ≤ (queueOf (grp full 0) 0).length ∧
      guardedOff (begun c (tried (.scmp xw0) (setP 7 0 lone))) (cur0 (.scmp xw0))
        (.scmp { xw0 with g := ⟨true, false, 7⟩ }) = true := by decide +kernel
theorem witness_SavedWordFormat : (cur0 (.sadd sw0)).w.slot < 2 := by decide +kernel

end Sys2Proof.Machine
end

section
/-!
PROOFS. The step runs the decoded word (O51), and the driver's rings with the replies to fault records (O28).
-/
namespace Sys2Proof

/-! ### The bytes of a word (R10) -/

/-- The bytes that `wordBytes` lists, put together again, are the word. -/
theorem wordOf_extractLsb' (w : Word32) :
    wordOf (w.extractLsb' 0 8) (w.extractLsb' 8 8) (w.extractLsb' 16 8) (w.extractLsb' 24 8) = w := by
  have high : w.extractLsb' 24 8 ++ w.extractLsb' 16 8 = w.extractLsb' 16 16 :=
    BitVec.extractLsb'_append_extractLsb'_eq_extractLsb' rfl
  have mid : w.extractLsb' 16 16 ++ w.extractLsb' 8 8 = w.extractLsb' 8 24 :=
    BitVec.extractLsb'_append_extractLsb'_eq_extractLsb' rfl
  have low : w.extractLsb' 8 24 ++ w.extractLsb' 0 8 = w.extractLsb' 0 32 :=
    BitVec.extractLsb'_append_extractLsb'_eq_extractLsb' rfl
  rw [wordOf, high, mid, low, BitVec.extractLsb'_eq_self]

/-- A short form's four bytes decode as its word does, the extension read as zero. -/
theorem decodeWords_of_decode_short {w : Word32} {i : Instr} (hL : wL w = 0#1)
    (h : decode (wordBytes w) = .ok (i, [])) : decodeWords w 0#32 = .ok i := by
  simp only [wordBytes, decode, wordOf_extractLsb', hL, if_true] at h
  cases hd : decodeWords w 0#32 with
  | ok j => rw [hd] at h; cases h; rfl
  | error e => rw [hd] at h; cases h

/-- A long form's eight bytes decode as its two words do. -/
theorem decodeWords_of_decode_long {w x : Word32} {i : Instr} (hL : wL w = 1#1)
    (h : decode (wordBytes w ++ wordBytes x) = .ok (i, [])) : decodeWords w x = .ok i := by
  simp only [wordBytes, List.cons_append, List.nil_append, decode, wordOf_extractLsb', hL,
    show (1#1 : BitVec 1) ≠ 0#1 by decide, if_false] at h
  cases hd : decodeWords w x with
  | ok j => rw [hd] at h; cases h; rfl
  | error e => rw [hd] at h; cases h

/-- A word that decodes has an opcode that the map lists. -/
theorem opEntry_isSome_of_decodeWords {w x : Word32} {i : Instr} (h : decodeWords w x = .ok i) :
    (opEntry (wE w) (wOp w)).isNone = false := by
  cases he : opEntry (wE w) (wOp w) with
  | some e => rfl
  | none => simp [decodeWords, he] at h

end Sys2Proof

namespace Sys2Proof.Machine

/-! ### What a fetch gives (R70, R76, R86) -/

/-- The word as the splitter takes it from the place `p`: a saved word of the same instruction keeps how far it has
gone, any other begins anew. -/
def fetchedWord (p : FetchAt) (i : Instr) : QWord :=
  let fresh : QWord := { instr := i, seq := p.seq, slot := p.slot, pc := p.pc, mask := p.mask, rot := p.rot }
  match p.old with
  | some o => if o.instr = i then o else fresh
  | none => fresh

theorem fetchDecode_ok (g : Nat) (p : FetchAt) {w x : Word32} {i : Instr} (s : State)
    (h : decodeWords w x = .ok i) : fetchDecode g p w x s = .run i ⟨g, false, fetchedWord p i⟩ s := by
  simp only [fetchDecode, h]
  rfl

@[simp] theorem fetchAt_key (G : Group) (k : Nat) : (fetchAt G k).key = k := by
  unfold fetchAt
  split <;> rfl

/-- Below 2 a fetch takes its word from the slot of that number. -/
theorem fetchAt_slot (G : Group) {k : Nat} (h : k < 2) :
    fetchAt G k = ⟨k, k, (slotOf G k).addr, G.nextSeq, (slotOf G k).mask, G.plan, none⟩ := by
  simp [fetchAt, show k ≠ 2 by omega]

/-- A slot that may give its next word, and has no reply to an earlier try, fetches the word's bytes. -/
theorem fetchSlot_bytes {s : State} {g k : Nat} (hf : fetchable s g k = true)
    (ha : nget 0 (grp s g).fetchAns k = 0) : fetchSlot g k s = fetchBytes g (fetchAt (grp s g) k) 0 s := by
  simp [fetchSlot, hf, ha]

/-- The fetch of a short form reads word 0 alone. -/
theorem fetchBytes_short {g : Nat} {p : FetchAt} {s t : State} {w : Word32} {i : Instr} (ans : Nat)
    (hw : fetchWord s g p.key p.pc.toNat = (.word w, t)) (hL : wL w = 0#1)
    (hd : decode (wordBytes w) = .ok (i, [])) :
    fetchBytes g p ans s = .run i ⟨g, false, fetchedWord p i⟩ t := by
  simp [fetchBytes, hw, hL, fetchDecode_ok g p t (decodeWords_of_decode_short hL hd)]

/-- The fetch of a long form reads its extension 4 bytes on. -/
theorem fetchBytes_long {g : Nat} {p : FetchAt} {s t u : State} {w x : Word32} {i : Instr}
    (hw : fetchWord s g p.key p.pc.toNat = (.word w, t)) (hL : wL w = 1#1)
    (hx : fetchWord t g p.key ((p.pc.toNat + 4) % 2 ^ 64) = (.word x, u))
    (hd : decode (wordBytes w ++ wordBytes x) = .ok (i, [])) :
    fetchBytes g p 0 s = .run i ⟨g, false, fetchedWord p i⟩ u := by
  have hi := decodeWords_of_decode_long hL hd
  have hext : fetchBytes g p 0 s = fetchExt g p w 0 t := by
    simp [fetchBytes, hw, hL, opEntry_isSome_of_decodeWords hi]
  rw [hext]
  simp only [fetchExt, hx]
  exact fetchDecode_ok g p u hi

/-- A fetch that gives an instruction runs it at its place. -/
theorem runFetch_run {s t : State} {g k : Nat} {i : Instr} {c : Cur} (h : fetchSlot g k s = .run i c t) :
    runFetch g k s = exec i { t with cur := some c } := by
  simp only [runFetch, h]

/-- A queue's head is tried as the word at its place. -/
theorem runHead_cons {s : State} {g q : Nat} {w : QWord} {ws : List QWord} (h : queueOf (grp s g) q = w :: ws) :
    runHead g q s = exec w.instr { s with cur := some ⟨g, true, w⟩ } := by
  simp only [runHead, h]

/-- A step with a script carries out the script's next move, and the decision that it calls for follows (R305). -/
theorem step_script {s : State} {m : Move} {ms : List Move} (h : s.script = m :: ms) :
    step s = decided (runMove m { s with ticks := s.ticks + 1, script := ms, cur := none }) := by
  simp only [step, stepOnce, h, List.tail_cons]

/-- A step whose next move is a fetch that gives an instruction is that instruction's execution at its place. -/
theorem step_fetch {s t : State} {g k : Nat} {ms : List Move} {i : Instr} {c : Cur}
    (h : s.script = .fetch g k :: ms)
    (hf : fetchSlot g k { s with ticks := s.ticks + 1, script := ms, cur := none } = .run i c t) :
    step s = decided (exec i { t with cur := some c }) := by
  rw [step_script h, ← runFetch_run hf]
  rfl

/-! ### What the fetch of one 32-bit word answers (R70, R279) -/

/-- The word waits for its line. -/
theorem fetchWord_later {s t u : State} {g k va pa mt : Nat}
    (hx : xlate s g (va % 2 ^ 64) .fetch = (.ok pa mt, t)) (hl : fetchLine g k pa mt t = (false, u)) :
    fetchWord s g k va = (.later, u) := by
  simp only [fetchWord, hx, hl, Bool.not_false, if_true]

/-- The four bytes at an address that is no register, where nothing is poisoned, are the word. -/
theorem fetchWord_word {s t u v : State} {g k va pa mt : Nat}
    (hx : xlate s g (va % 2 ^ 64) .fetch = (.ok pa mt, t)) (hl : fetchLine g k pa mt t = (true, u))
    (hv : markRead g ((List.range 4).map (pa + ·)) u = v) (hr : ∀ off, paKind v pa ≠ .reg off)
    (hp : viewPoison v g pa = false) :
    fetchWord s g k va = (.word (BitVec.ofNat 32 (ofBytes (viewBytes v g pa 4))), v) := by
  simp only [fetchWord, hx, hl, hv]
  cases hk : paKind v pa with
  | reg off => exact absurd hk (hr off)
  | _ => simp [hp]

/-- Settles O51. A step with a script is its next move (`step_script`); the fetch reads word 0, and for a long form the
extension, and both decode as the bytes in memory do (`fetchBytes_short`, `fetchBytes_long`). -/
theorem stepRunsTheDecodedWord : Obligations.StepRunsTheDecodedWord := by
  unfold Obligations.StepRunsTheDecodedWord
  intro s ms g slot q s0 p pc
  refine ⟨?_, ?_, ?_, ?_, fun _ => rfl⟩
  · intro w x t u i hs hf ha hw fresh place
    have bytes : fetchSlot g slot s0 = fetchBytes g p 0 s0 := fetchSlot_bytes hf ha
    have key : p.key = slot := fetchAt_key _ _
    have hw' : fetchWord s0 g p.key p.pc.toNat = (.word w, t) := by rw [key]; exact hw
    refine ⟨fun hL hd => ?_, fun hL hx hd => ?_⟩
    · exact step_fetch hs (bytes.trans (fetchBytes_short 0 hw' hL hd))
    · have hx' : fetchWord t g p.key ((p.pc.toNat + 4) % 2 ^ 64) = (.word x, u) := by rw [key]; exact hx
      exact step_fetch hs (bytes.trans (fetchBytes_long hw' hL hx' hd))
  · intro h
    have hp : p = _ := fetchAt_slot (grp s g) h
    rw [hp]
    exact ⟨rfl, rfl, rfl, rfl, rfl, rfl⟩
  · intro va pa mt t u hx
    exact ⟨fetchWord_later hx, fun hl hr hp => fetchWord_word hx hl rfl hr hp⟩
  · intro w ws hs hq
    rw [step_script hs]
    exact congrArg decided (runHead_cons hq)

/-! ### The driver's rings (R9, R292, R319) -/

theorem exec_faultRecordWrite (n : Nat) (s : State) : exec (.faultRecordWrite n) s = .next (writeFault n s) := rfl

theorem exec_dutyRecordWrite (n : Nat) (s : State) : exec (.dutyRecordWrite n) s = .next (writeDuty n s) := rfl

/-- While the fault ring is full no record is written. -/
theorem writeFault_full {n : Nat} {s : State} (h : 4096 ≤ diff32 (reg s rFrTail) (reg s rFrHead)) :
    writeFault n s = s := by
  unfold writeFault
  split <;> simp [h]

/-- While the duty ring is full no record is written. -/
theorem writeDuty_full {n : Nat} {s : State} (h : 1024 ≤ diff32 (reg s rDrTail) (reg s rDrHead)) :
    writeDuty n s = s := by
  unfold writeDuty
  split <;> simp [h]

/-- A fault record is written at the tail of its ring. -/
theorem writeFault_room {n : Nat} {s : State} {r : FaultRec} (hr : s.faults[n]? = some r)
    (h : diff32 (reg s rFrTail) (reg s rFrHead) < 4096) :
    let tail := reg s rFrTail
    let s1 := busWrite .outside (reg s rFrBase + 64 * (tail % 4096)) (r.bytes tail) 0 s
    writeFault n s = raiseInt 0 (setReg
      { s1 with faults := s1.faults.eraseIdx n, outFaults := s1.outFaults ++ [{ r with tag := some tail }] }
      rFrTail ((tail + 1) % 2 ^ 32)) := by
  simp only [writeFault, hr, if_neg (Nat.not_le.mpr h)]

/-- A duty record that has no tag yet is written at the tail of its ring. -/
theorem writeDuty_room {n : Nat} {s : State} {d : Duty} (hd : s.duties[n]? = some d) (ht : d.tag = none)
    (h : diff32 (reg s rDrTail) (reg s rDrHead) < 1024) :
    let tail := reg s rDrTail
    let s1 := busWrite .outside (reg s rDrBase + 64 * (tail % 1024)) (d.bytes tail) 0 s
    writeDuty n s = raiseInt 1 (setReg
      { s1 with duties := s1.duties.set n { d with tag := some tail } } rDrTail ((tail + 1) % 2 ^ 32)) := by
  simp [writeDuty, hd, ht, Nat.not_le.mpr h]

theorem driverRings_records : Obl.DriverRings := by
  intro n s
  refine ⟨fun r hr => ⟨fun room => ?_, fun full => ?_⟩, fun d hd ht => ⟨fun room => ?_, fun full => ?_⟩⟩
  · rw [exec_faultRecordWrite, writeFault_room hr room]
  · rw [exec_faultRecordWrite, writeFault_full full]
  · rw [exec_dutyRecordWrite, writeDuty_room hd ht room]
  · rw [exec_dutyRecordWrite, writeDuty_full full]

/-! ### Replies to fault records (R293) -/

/-- A host's write of FRREPLY is the reply that its tag and code name. -/
theorem frReply_eq {tag code : Nat} (ht : tag < 2 ^ 32) (hc : code < 4) (s : State) :
    frReply tag code s = faultReply tag code s := by
  have low : (tag % 2 ^ 32 + code * 2 ^ 32) % 2 ^ 64 % 2 ^ 32 = tag := by omega
  have high : nbits ((tag % 2 ^ 32 + code * 2 ^ 32) % 2 ^ 64) 33 32 = code := by
    rw [nbits, Nat.shiftRight_eq_div_pow]
    omega
  have write (x : Nat) : regWrite .host 0x101118 x (List.range 8) s = faultReply (x % 2 ^ 32) (nbits x 33 32) s := rfl
  rw [frReply, hostWrite, write, low, high]

theorem exec_frreplyRetry {tag : Nat} (h : tag < 2 ^ 32) (s : State) :
    exec (.frreplyRetry tag) s = .next (faultReply tag 0 s) :=
  congrArg Host.Outcome.next (frReply_eq h (by decide) s)

theorem exec_frreplyPoison {tag : Nat} (h : tag < 2 ^ 32) (s : State) :
    exec (.frreplyPoison tag) s = .next (faultReply tag 1 s) :=
  congrArg Host.Outcome.next (frReply_eq h (by decide) s)

theorem exec_frreplyFail {tag : Nat} (h : tag < 2 ^ 32) (s : State) :
    exec (.frreplyFail tag) s = .next (faultReply tag 2 s) :=
  congrArg Host.Outcome.next (frReply_eq h (by decide) s)

/-- No reply reaches a suspended device (R403). -/
theorem faultReply_suspended {s : State} (h : suspStat s = 2) (tag code : Nat) : faultReply tag code s = s := by
  simp [faultReply, h]

/-- A reply to a tag that is not outstanding is counted. -/
theorem faultReply_unknown {s : State} {tag : Nat} (h : suspStat s ≠ 2)
    (hr : (s.outFaults.find? fun r => r.tag = some tag) = none) (code : Nat) :
    faultReply tag code s = countReg rFrIgn 1 s := by
  simp only [faultReply, if_neg h, hr]

/-- A reply to the record of a word's lane answers that lane, and the record is no longer outstanding. -/
theorem faultReply_lane {s : State} {tag code g seq lane : Nat} {r : FaultRec} (h : suspStat s ≠ 2)
    (hr : (s.outFaults.find? fun r => r.tag = some tag) = some r) (ho : r.owner = .lane g seq lane)
    (hc : code < 3) :
    faultReply tag code s = modQueued g seq (answerLane lane code)
      { s with outFaults := s.outFaults.filter fun x => x.tag ≠ some tag } := by
  simp only [faultReply, if_neg h, hr, if_neg (Nat.not_le.mpr hc), applyReply, ho]

theorem faultReplies : Obl.FaultReplies := by
  intro s tag g seq lane r ht u
  rw [exec_frreplyRetry ht, exec_frreplyPoison ht, exec_frreplyFail ht]
  refine ⟨fun h => ?_, fun h hr ho => ⟨?_, ?_, ?_⟩, fun h hr => ?_⟩
  · simp only [faultReply_suspended h, and_self]
  · rw [faultReply_lane h hr ho (by decide)]
  · rw [faultReply_lane h hr ho (by decide)]
  · rw [faultReply_lane h hr ho (by decide)]
  · rw [faultReply_unknown h hr]

/-- Settles O28. Each ring write is `writeFault` or `writeDuty`, with room or without, and each reply is `faultReply`
of the tag and code that the write of FRREPLY carries. -/
theorem driverRings : Obligations.DriverRings := ⟨driverRings_records, faultReplies⟩

end Sys2Proof.Machine
end

section
/-!
PROOFS. What a try of a word finds where it begins, and the words of divergence and tokens (O4).
-/
namespace Sys2Proof.Machine

/-! ### How a word's own effect settles a statement about it -/

section
variable {i : Instr} {body : Cur → State → Res} {c : Cur} {s t : State}

/-- A word whose own effect is done does what its effect does. -/
theorem does_of_done (he : exec i s = word i body s) (hb : body c (begun c s) = .done t) : Does i c s t :=
  fun h hc => he.trans (word_done h hb hc)

/-- A word whose own effect stays in flight flies. -/
theorem flies_of_fly {f : Flight} (he : exec i s = word i body s) (hb : body c (begun c s) = .fly f t) :
    Obl.Flies i c s f t :=
  fun h hc => he.trans (word_fly h hb hc)

/-- A word whose own effect traps and leaves it as it was traps. -/
theorem traps_of_trapAs {cls cause addr : Nat} (he : exec i s = word i body s)
    (hb : body c (begun c s) = trapAs c cls cause addr (begun c s)) : Traps i c s cls cause addr :=
  fun h => he.trans (word_trap h hb)

/-- A word whose own effect waits with nothing changed waits. -/
theorem waits_of_waitFor {cause : Nat} (he : exec i s = word i body s)
    (hb : body c (begun c s) = waitFor c cause (begun c s)) : Waits i c s cause :=
  fun h hc => he.trans (word_wait h hb hc)

end

/-! ### The state in which a try begins (R29, R33) -/

/-- What every close of a group's quantum keeps, its closes that are due keep. -/
theorem detCloses_keeps {P : State → Prop} {g : Nat} (h : ∀ b t, P t → P (closeGroup g b t)) :
    ∀ (fuel : Nat) {s : State}, P s → P (detCloses g fuel s)
  | 0, _, hs => hs
  | fuel + 1, s, hs => by
    unfold detCloses
    split
    · exact hs
    · split
      · exact detCloses_keeps h fuel (h _ _ hs)
      · exact hs

theorem detClose_keeps {P : State → Prop} {g : Nat} (h : ∀ b t, P t → P (closeGroup g b t)) {s : State}
    (hs : P s) : P (detClose g s) := by
  unfold detClose
  split
  · exact detCloses_keeps h _ hs
  · exact hs

/-- A group without its quanta and without the rotation that names its registers now: what the begin of a try leaves as
it is. -/
def Group.work (G : Group) : Group :=
  { G with closed := [], qnum := 0, qlo := 0, qsnap := {}, marks := [], snaps := [], qret := 0, map := {} }

/-- An update of a group that keeps its work keeps every group's work. -/
theorem work_modGrp {s : State} {g : Nat} {f : Group → Group} (h : ∀ G, (f G).work = G.work) (k : Nat) :
    (grp (modGrp s g f) k).work = (grp s k).work := by
  rw [grp_modGrp_if]
  split
  · exact h _
  · rfl

theorem work_closeGroup (g hi : Nat) (s : State) (k : Nat) : (grp (closeGroup g hi s) k).work = (grp s k).work := by
  refine work_modGrp (s := decisionPoint s) ?_ k
  exact fun _ => rfl

/-- The begin of a try keeps every group's work. -/
theorem work_begun (c : Cur) (s : State) (k : Nat) : (grp (begun c s) k).work = (grp s k).work :=
  (work_modGrp (s := detClose c.g (rest s)) (f := fun G => { G with map := c.w.rot }) (fun _ => rfl) k).trans
    (detClose_keeps (P := fun t => (grp t k).work = (grp s k).work)
      (fun b t ht => (work_closeGroup c.g b t k).trans ht) rfl)

@[simp] theorem begun_launches (c : Cur) (s : State) : (begun c s).launches = s.launches :=
  detClose_keeps (P := fun t => t.launches = s.launches) (fun _ _ ht => ht) rfl
@[simp] theorem begun_teams (c : Cur) (s : State) : (begun c s).teams = s.teams :=
  detClose_keeps (P := fun t => t.teams = s.teams) (fun _ _ ht => ht) rfl

section
variable (c : Cur) (s : State) (g : Nat)

@[simp] theorem grp_begun_depth : (grp (begun c s) g).depth = (grp s g).depth :=
  (congrArg Group.depth (work_begun c s g) :)
@[simp] theorem grp_begun_flights : (grp (begun c s) g).flights = (grp s g).flights :=
  (congrArg Group.flights (work_begun c s g) :)
@[simp] theorem uread_begun (n : Nat) : uread (begun c s) g n = uread s g n :=
  (congrArg (fun G : Group => (nget 0 G.u n).toNat) (work_begun c s g) :)
@[simp] theorem pread_begun (n : Nat) : pread (begun c s) g n = pread s g n :=
  (congrArg (fun G : Group => (nget 0 G.p n).toNat) (work_begun c s g) :)
@[simp] theorem kread_begun (n : Nat) : kread (begun c s) g n = kread s g n :=
  (congrArg (fun G : Group => nget 0 G.k n) (work_begun c s g) :)
@[simp] theorem slotOf_begun (n : Nat) : slotOf (grp (begun c s) g) n = slotOf (grp s g) n :=
  (congrArg (fun G : Group => slotOf G n) (work_begun c s g) :)
@[simp] theorem launchOf_begun : launchOf (begun c s) g = launchOf s g := by
  simp [launchOf, launch]
@[simp] theorem team_begun (tk : Nat) : team (begun c s) tk = team s tk := by
  simp [team]

@[simp] theorem activeLanes_begun (f : Flds) : activeLanes (begun c s) c f = activeLanes s c f := by
  simp only [activeLanes, pread_begun]
@[simp] theorem laneList_begun (f : Flds) : laneList (begun c s) c f = laneList s c f := by
  simp only [laneList, activeLanes_begun]
theorem halfOf_begun : halfOf (begun c s) g = halfOf s g := by
  simp only [halfOf, launchOf_begun]
theorem stackBase_begun : stackBase (begun c s) g = stackBase s g := by
  unfold stackBase
  rw [launchOf_begun]
@[simp] theorem stackEntry_begun (n : Nat) : stackEntry (begun c s) g n = stackEntry s g n := by
  unfold stackEntry
  rw [team_begun, halfOf_begun, stackBase_begun]
@[simp] theorem topRejoin_begun : ∀ n : Nat, topRejoin (begun c s) g n = topRejoin s g n
  | 0 => rfl
  | n + 1 => by simp only [topRejoin, stackEntry_begun, topRejoin_begun n]
@[simp] theorem pushCause_begun (n : Nat) : pushCause (begun c s) g n = pushCause s g n := by
  simp only [pushCause, launchOf_begun, grp_begun_depth]

end

/-! ### Labels (R69, R94) -/

/-- A field read as signed is the word's own signed value. -/
theorem sx_toNat {n : Nat} (x : BitVec n) : sx n x.toNat = x.toInt := by
  have lt : x.toNat % 2 ^ n = x.toNat := Nat.mod_eq_of_lt x.isLt
  rw [sx, BitVec.toInt_eq_toNat_cond, lt]
  split <;> split <;> first | rfl | omega

theorem labelAt_flds (w : KW) (c : Cur) : labelAt w.flds c = cut 64 ((c.w.pc.toNat : Int) + 4 * w.imm.toInt) := by
  rw [labelAt, show w.flds.i23 = w.imm.toInt from sx_toNat w.imm]

/-! ### What the words of divergence do (R108 to R113) -/

/-- With a stack and room for `n` entries, a push has no cause to trap. -/
theorem pushCause_fits {s : State} {g n : Nat} (hs : (launchOf s g).stack = true) (hd : (grp s g).depth + n ≤ 64) :
    pushCause s g n = none := by
  simp [pushCause, hs, hd]

theorem pushCause_full {s : State} {g n : Nat} (hs : (launchOf s g).stack = true) (hd : 64 < (grp s g).depth + n) :
    pushCause s g n = some 0 := by
  simp [pushCause, hs, hd]

theorem pushCause_noStack {s : State} {g n : Nat} (hs : ¬(launchOf s g).stack = true) :
    pushCause s g n = some 1 := by
  simp [pushCause, hs]

section
variable {c : Cur} {s t : State} {f : Flds}

/-- The lanes that BDIV sends to its label (R108). -/
def bdivTaken (s : State) (c : Cur) (f : Flds) : Nat := activeLanes s c f &&& pread s c.g f.a

/-- The lanes that go on past it. -/
def bdivFall (s : State) (c : Cur) (f : Flds) : Nat := c.w.mask.toNat &&& notBits 64 (bdivTaken s c f)

@[simp] theorem bdivTaken_begun (c : Cur) (s : State) (f : Flds) : bdivTaken (begun c s) c f = bdivTaken s c f := by
  simp only [bdivTaken, activeLanes_begun, pread_begun]
@[simp] theorem bdivFall_begun (c : Cur) (s : State) (f : Flds) : bdivFall (begun c s) c f = bdivFall s c f := by
  simp only [bdivFall, bdivTaken_begun]

theorem bdivRes_none (hT : bdivTaken t c f = 0) : bdivRes f c t = .done (resolve c (past c 8) t) :=
  if_pos hT

theorem bdivRes_all (hT : bdivTaken t c f ≠ 0) (hF : bdivFall t c f = 0) :
    bdivRes f c t = .done (resolve c (labelAt f c) t) :=
  (if_neg hT).trans (if_pos hF)

/-- Both slots are valid after BDIV where the other slot was free. -/
theorem bdivRes_split (hT : bdivTaken t c f ≠ 0) (hF : bdivFall t c f ≠ 0)
    (ho : (slotOf (grp t c.g) (1 - c.w.slot)).valid = false) :
    bdivRes f c t = .done (bothValid c (putSlot c (1 - c.w.slot) (slotAt (labelAt f c) (bdivTaken t c f))
      (putSlot c c.w.slot (slotAt (past c 8) (bdivFall t c f)) t))) :=
  (if_neg hT).trans ((if_neg hF).trans (if_pos (by rw [ho]; rfl)))

/-- Where both slots are taken, the lanes of the label go to the stack. -/
theorem bdivRes_push (hT : bdivTaken t c f ≠ 0) (hF : bdivFall t c f ≠ 0)
    (ho : (slotOf (grp t c.g) (1 - c.w.slot)).valid = true) (hp : pushCause t c.g 1 = none) :
    bdivRes f c t = .done (putSlot c c.w.slot (slotAt (past c 8) (bdivFall t c f))
      (push c ⟨1, labelAt f c, bdivTaken t c f⟩ t)) :=
  (if_neg hT).trans ((if_neg hF).trans ((if_neg (by rw [ho]; decide)).trans (by rw [hp]; rfl)))

theorem bdivRes_trap {cause : Nat} (hT : bdivTaken t c f ≠ 0) (hF : bdivFall t c f ≠ 0)
    (ho : (slotOf (grp t c.g) (1 - c.w.slot)).valid = true) (hp : pushCause t c.g 1 = some cause) :
    bdivRes f c t = trapAs c clsStack cause 0 t :=
  (if_neg hT).trans ((if_neg hF).trans ((if_neg (by rw [ho]; decide)).trans (by rw [hp])))

/-- MARK where the other slot is free pushes its own rejoin entry (R109). -/
theorem markRes_alone (ho : (slotOf (grp t c.g) (1 - c.w.slot)).valid = false) (hp : pushCause t c.g 1 = none) :
    markRes f c t = .done (push c ⟨0, labelAt f c, c.w.mask.toNat⟩ t) := by
  unfold markRes
  simp only [ho, Bool.false_eq_true, if_false, hp]

/-- MARK where it is taken spills that slot first. -/
theorem markRes_spill (ho : (slotOf (grp t c.g) (1 - c.w.slot)).valid = true) (hp : pushCause t c.g 2 = none) :
    markRes f c t = .done (push c ⟨0, labelAt f c, c.w.mask.toNat⟩
      (putSlot c (1 - c.w.slot) { slotOf (grp t c.g) (1 - c.w.slot) with valid := false }
        (push c ⟨1, spillAddr t c.g (1 - c.w.slot), (slotOf (grp t c.g) (1 - c.w.slot)).mask.toNat⟩
          (spillStopper c.g (1 - c.w.slot) t)))) := by
  unfold markRes
  simp only [ho, if_true, hp]

theorem markRes_noStack (hs : ¬(launchOf t c.g).stack = true) : markRes f c t = trapAs c clsStack 1 0 t := by
  unfold markRes
  simp only [pushCause_noStack hs]

/-- JOIN at the address of the topmost rejoin entry ends its path (R110). -/
theorem joinRes_top {e : StackEntry} (he : topRejoin t c.g (grp t c.g).depth = some e) (hpc : e.pc = c.w.pc.toNat) :
    joinRes c t = .done (resumeSlot c 65 (putSlot c c.w.slot {} t)) := by
  unfold joinRes
  simp only [he, hpc, ne_eq, not_true_eq_false, if_false]

theorem joinRes_none (he : topRejoin t c.g (grp t c.g).depth = none) : joinRes c t = trapAs c clsStack 2 0 t := by
  unfold joinRes
  simp only [he]

end

theorem divergence : Obl.Divergence := by
  unfold Obl.Divergence
  intro c s label next other hasStack
  have labels (w : KW) : label w.imm = labelAt w.flds c := (labelAt_flds w c).symm
  have otherBegun : slotOf (grp (begun c s) c.g) (1 - c.w.slot) = other := slotOf_begun ..
  refine ⟨?_, ?_, ?_, ?_, ?_, ?_, ?_⟩
  · intro w T F
    rw [labels]
    have hT : bdivTaken (begun c s) c w.flds = T := bdivTaken_begun ..
    have hF : bdivFall (begun c s) c w.flds = F := bdivFall_begun ..
    rw [← otherBegun, ← hT, ← hF]
    refine ⟨fun t => ?_, fun t f => ?_, fun t f o => ?_, fun t f o st d => ?_, fun t f o st d => ?_⟩
    · exact does_of_done rfl (bdivRes_none t)
    · exact does_of_done rfl (bdivRes_all t f)
    · exact does_of_done rfl (bdivRes_split t f o)
    · exact does_of_done rfl (bdivRes_push t f o ((pushCause_begun ..).trans (pushCause_fits st d)))
    · exact traps_of_trapAs rfl
        (bdivRes_trap t f o ((pushCause_begun ..).trans (pushCause_full st (Nat.lt_succ_of_le d))))
  · intro w st o d
    rw [labels]
    exact does_of_done rfl (markRes_alone (otherBegun ▸ o) ((pushCause_begun ..).trans (pushCause_fits st d)))
  · intro w st o d
    rw [labels, ← otherBegun]
    have room : (grp s c.g).depth + 2 ≤ 64 := by omega
    exact does_of_done rfl (markRes_spill (otherBegun ▸ o) ((pushCause_begun ..).trans (pushCause_fits st room)))
  · intro w st
    exact traps_of_trapAs rfl (markRes_noStack (by rwa [launchOf_begun]))
  · intro w e he hpc
    exact does_of_done rfl (joinRes_top (by rwa [grp_begun_depth, topRejoin_begun]) hpc)
  · intro w he
    exact traps_of_trapAs rfl (joinRes_none (by rwa [grp_begun_depth, topRejoin_begun]))
  · intro w
    refine does_of_done rfl ?_
    rw [← grp_begun_depth c s]
    rfl

/-! ### NOP and tokens (R82, R83) -/

section
variable {c : Cur} {t : State} {f : Flds}

theorem twaitRes_takes (hk : f.a ≤ kread t c.g f.d) (ho : olderTwait t c f.d = false) :
    twaitRes f c t = .done (jw c (.k c.g f.d) (.add (-(f.a : Int))) t) := by
  simp only [twaitRes, hk, ho, decide_true, Bool.not_false, Bool.and_self, if_true]

theorem twaitRes_waits (h : kread t c.g f.d < f.a ∨ olderTwait t c f.d = true) : twaitRes f c t = waitFor c 1 t := by
  refine if_neg ?_
  rcases h with hk | ho
  · simp [Nat.not_le.mpr hk]
  · simp [ho]

theorem tsigRes_adds {q : Nat}
    (hb : ((grp t c.g).flights.any fun x => x.eng = q && decide (x.seq < c.w.seq)) = false)
    (hk : kread t c.g f.d + f.a ≤ 15) : tsigRes q f c t = .done (jw c (.k c.g f.d) (.add f.a) t) := by
  refine if_neg ?_
  simp only [hb, Bool.false_or, decide_eq_true_eq]
  omega

theorem tsigRes_waits {q : Nat}
    (h : ((grp t c.g).flights.any fun x => x.eng = q && decide (x.seq < c.w.seq)) = true ∨
      15 < kread t c.g f.d + f.a) : tsigRes q f c t = waitFor c 1 t := by
  refine if_pos ?_
  rw [Bool.or_eq_true, decide_eq_true_eq]
  exact h

end

theorem tokens : Obl.Tokens := by
  unfold Obl.Tokens
  intro e w c s k n busy
  have count : kread (begun c s) c.g w.flds.d = k := kread_begun ..
  have flights : (grp (begun c s) c.g).flights = (grp s c.g).flights := grp_begun_flights ..
  refine ⟨does_of_done rfl rfl, fun hk ho => ?_, fun h => ?_, fun hb hk => ?_, fun h => ?_⟩
  · exact does_of_done rfl (twaitRes_takes (count ▸ hk) ho)
  · exact waits_of_waitFor rfl (twaitRes_waits (count ▸ h))
  · exact does_of_done rfl (tsigRes_adds (flights ▸ hb) (count ▸ hk))
  · exact waits_of_waitFor rfl (tsigRes_waits (by rw [flights, count]; exact h))

/-- Settles O4. Where a try begins, the lanes, slots, stack and tokens are those of the state before (`work_begun`);
each word then has one equation for each case of its own effect. -/
theorem divergenceAndTokens : Obligations.DivergenceAndTokens := ⟨divergence, tokens⟩

end Sys2Proof.Machine
end

section
/-!
PROOFS. Loads and stores of global memory (O9).
-/
namespace Sys2Proof.Machine

/-! ### Lanes of an access that has not begun (R144, R164) -/

/-- With no lane taken away, every lane of the mask is left. -/
theorem maskList_and_notBits_zero (n m : Nat) : maskList n (m &&& notBits n 0) = maskList n m := by
  refine List.filter_congr fun i hi => ?_
  rw [Nat.testBit_and, notBits, Nat.zero_mod, Nat.xor_zero, Nat.testBit_two_pow_sub_one,
    decide_eq_true (List.mem_range.mp hi), Bool.and_true]

section
variable {c : Cur} {s t : State} {f : Flds} {unif : Bool}

/-- A word none of whose lanes has gone before has all its active lanes to perform; one that acts once has lane 0. -/
theorem restLanes_fresh (hd : c.w.done = 0) (hf : c.w.fail = 0) :
    restLanes t c f unif = if unif then [0] else laneList t c f := by
  have none_gone : c.w.done.toNat ||| c.w.fail.toNat = 0 := by rw [hd, hf]; rfl
  rw [restLanes, lanesOf, none_gone, maskList_and_notBits_zero]
  cases unif
  · rfl
  · exact (by decide : maskList 64 1 = [0])

/-- The address of lane `l` of a global access, or of one that acts once (R144). -/
def accessAddr (s : State) (c : Cur) (f : Flds) (unif : Bool) (l : Nat) : Nat :=
  if unif then cut 64 ((uread s c.g f.a : Int) + f.i12) else laneGlobal s c.g f (mtSize f.mod) f.i12 l

/-- The lanes of a word that has not begun, with their addresses, are those of the statement. -/
theorem restLanes_addr (hd : c.w.done = 0) (hf : c.w.fail = 0) :
    ((restLanes (begun c s) c f unif).map fun l => (l, accessAddr (begun c s) c f unif l)) =
      Obl.lanesAt c s f (mtSize f.mod) unif := by
  rw [restLanes_fresh hd hf]
  cases unif
  · rw [if_neg (by decide), laneList_begun]; rfl
  · rw [if_pos rfl, List.map_singleton, accessAddr, uread_begun]; rfl

theorem wasPois_fresh (hp : c.w.pois = 0) (l : Nat) : wasPois c l = false := by
  simp [wasPois, hp]

/-- A list none of whose addresses a test meets has no first lane of it. -/
theorem firstLane_none {xs : List (Nat × Nat)} {p : Nat → Bool} (h : ∀ x ∈ xs, p x.2 = false) :
    firstLane xs p = none :=
  List.find?_eq_none.mpr fun x hx => by rw [h x hx]; decide

section
variable {size : Nat} {a : Acc2} {nt reads : Bool} {own : Nat × Nat × Nat} {xs : List (Nat × Nat)} {hits : List Hit}
variable (h : Obl.Clear c s f size a nt reads own xs hits t)
include h

/-- A clear access passes the checks of R145. -/
theorem clear_checks : globalChecks c size (a = .read) own xs (begun c s) = none := by
  have aligned : firstLane xs (fun va => va % size ≠ 0) = none := firstLane_none fun x hx => by
    simp [h.aligned x hx]
  have unlocked : firstLane xs (fun va => (globalLock (begun c s) c.g va size (a = .read)).isSome) = none :=
    firstLane_none fun x hx => by simp only [h.unlocked x hx, Option.isSome_none]
  simp only [globalChecks, aligned, unlocked, h.fits, Bool.false_eq_true, if_false]

theorem clear_noDevice : hits.any (·.dev) = false := by
  simpa using fun x hx => (h.plain x hx).1

theorem clear_noPoison : (hits.filter fun x => viewPoison t c.g x.pa) = [] := by
  simpa using fun x hx => (h.plain x hx).2

theorem clear_allGood : (hits.filter fun x => !viewPoison t c.g x.pa) = hits := by
  simpa using fun x hx => (h.plain x hx).2

theorem clear_noPoisSectors : poisSectors t c.g hits = [] := by
  rw [poisSectors, clear_noPoison h]
  rfl

/-- No lane of it has been answered POISON. -/
theorem clear_unanswered : (xs.filter fun x => wasPois c x.1) = [] ∧ (xs.filter fun x => !wasPois c x.1) = xs := by
  obtain ⟨_, pois, _⟩ := h.fresh
  constructor <;> simp [wasPois_fresh pois]

end

/-- Nothing is counted where no lane reads poison. -/
theorem countPois_zero (g : Nat) (s : State) : countPois g 0 s = s := if_pos rfl

/-- A word whose lanes all performed goes on to its completion. -/
theorem settleLanes_clean (hw : c.w.fail = 0) (ls : List Nat) (fa : Nat → Nat) (complete : State → Res)
    (s : State) : settleLanes c unif (markDone c.w ls) [] [] fa complete s = complete s := by
  have none_failed : (markDone c.w ls).fail = 0 := hw
  simp only [settleLanes, none_failed]
  rfl

/-! ### LD and LDS (R31, R146, R148, R257, R272) -/

section
variable {i : Instr} {hits : List Hit} {addr : Nat → Nat}

/-- A load whose lanes are clear reads what they translate to. -/
theorem loadRes_clear
    (h : Obl.Clear c s f (mtSize f.mod) .read (f.m 3) true (newRegs (begun c s) c.g i, 0, 0)
      (Obl.lanesAt c s f (mtSize f.mod) unif) hits t) (hne : hits ≠ []) :
    loadRes i f unif c (begun c s) = loadLanes c f unif (accessAddr (begun c s) c f unif) hits [] [] t := by
  obtain ⟨done, -, fail, stage⟩ := h.fresh
  have lanes := restLanes_addr (s := s) (f := f) (unif := unif) done fail
  have some_lane : ¬(!unif && activeLanes (begun c s) c f = 0) = true := by
    intro empty
    rw [Bool.and_eq_true, Bool.not_eq_true', decide_eq_true_eq, activeLanes_begun] at empty
    have no_lane : Obl.lanesAt c s f (mtSize f.mod) unif = [] := by
      simp only [Obl.lanesAt, laneList, empty.1, empty.2, Bool.false_eq_true, if_false]
      rfl
    have translated := h.translated
    rw [no_lane, xlateLanes] at translated
    exact hne (congrArg Prod.fst translated).symm
  refine (if_neg some_lane).trans ((if_neg (by rw [stage]; decide)).trans ?_)
  have checks := clear_checks h
  rw [decide_eq_true rfl] at checks
  have order : orderWait c f false (begun c s) = none := h.ordered
  have wait : epochWait (begun c s) c (newRegs (begun c s) c.g i, 0, 0) = false := h.epoch rfl
  simp only [accessAddr] at lanes
  simp only [lanes, (clear_unanswered h).1, (clear_unanswered h).2, checks, order, wait, h.translated, Bool.false_and,
    Bool.false_eq_true, if_false]
  rfl

/-- What a load of clear lanes does that waits for no held entry: one that orders nothing flies, and one that orders
takes its values once its sectors are there. -/
theorem loadLanes_clear {size : Nat} {a : Acc2} {nt reads : Bool} {own : Nat × Nat × Nat} {xs : List (Nat × Nat)}
    (h : Obl.Clear c s f size a nt reads own xs hits t) (hne : hits ≠ [])
    (hsc : scHeld t c f hits (mtSize f.mod) = []) (hat : ownAtoms t c (hits.map (·.pa)) (mtSize f.mod) = []) :
    loadLanes c f unif addr hits [] [] t =
      if !isAcq f && !isRel f then
        .fly ⟨c.w.seq, 2, c.w.slot, c.w.mask, loadDests f.d f.mod unif, false,
          .load (markDone c.w []) f.d (f.mod % 8) unif (hits.foldl (fun m h => nput m h.lane (h.va, h.pa)) [])
            (piecesOf hits)⟩ t
      else if loadBehind t c.g c.w.seq (hits.map (·.pa)) (mtSize f.mod) then waitFor c 0 t
      else if !(readSectors c hits t).1 then waitFor c 0 (readSectors c hits t).2
      else .done (ordEvents c.g f (loadNow c f.d f.mod unif hits (readSectors c hits t).2)) := by
  obtain ⟨-, -, fail, -⟩ := h.fresh
  have some_hit : hits.isEmpty = false := by simpa using hne
  simp only [loadLanes, clear_noDevice h, clear_noPoison h, clear_allGood h, clear_noPoisSectors h, hsc, hat, fail,
    some_hit, List.map_nil, List.foldl_nil, List.append_nil, List.length_nil, List.isEmpty_nil, countPois_zero,
    ite_self, sortPois, List.foldr_nil, settleLanes_clean fail, Bool.not_true, Bool.not_false, Bool.false_eq_true,
    if_false, decide_true, Bool.true_and, Bool.and_true]

/-- With no active lane LD completes at once. -/
theorem loadRes_idle {i : Instr} (ha : activeLanes t c f = 0) : loadRes i f false c t = .done t :=
  if_pos (by rw [ha]; rfl)

/-! ### ST and STS (R147, R257, R269) -/

/-- Where the hold-back buffer has room, nothing keeps a word from holding its entries. -/
theorem holdRoom_none {n : Nat} (h : holdFull s c.g c.w.seq n = none) : holdRoom c n s = none := by
  unfold holdRoom
  rw [h]

/-- A store of clear lanes, for which there is room, holds one entry for each sector. -/
theorem storeRes_clear
    (h : Obl.Clear c s f (mtSize f.mod) .write (f.m 3) false
      (sectorCharge (Obl.lanesAt c s f (mtSize f.mod) unif), 0, sectorCharge (Obl.lanesAt c s f (mtSize f.mod) unif))
      (Obl.lanesAt c s f (mtSize f.mod) unif) hits t)
    (hr : holdFull t c.g c.w.seq (newSectors t c.g c.w.seq (hits.map fun h => h.pa / 64).dedup) = none) :
    storeRes f unif c (begun c s) = .done (ordEvents c.g f ((hits.map fun h => h.pa / 64).dedup.foldl
      (fun u sec => holdSector c f (hits.map fun h => (h, storeBytes t c f unif h.lane)) sec u) t)) := by
  obtain ⟨done, -, fail, -⟩ := h.fresh
  have lanes := restLanes_addr (s := s) (f := f) (unif := unif) done fail
  simp only [accessAddr] at lanes
  have checks := clear_checks h
  rw [decide_eq_false (by decide)] at checks
  have order : orderWait c f true (begun c s) = none := h.ordered
  simp only [storeRes, lanes, (clear_unanswered h).1, (clear_unanswered h).2, checks, order, h.translated, storeLanes,
    clear_noDevice h, holdRoom_none hr, clear_noPoisSectors h, List.map_nil, List.length_nil, countPois_zero, ite_self,
    settleLanes_clean fail, Bool.false_and, Bool.false_eq_true, if_false]

end
end

/-! ### The statement (O9) -/

theorem globalLoads : Obl.GlobalLoads := by
  unfold Obl.GlobalLoads
  intro c s t u w unif hits i f pas
  have body : exec i s = word i (loadRes i f unif) s := by
    cases unif <;> rfl
  refine ⟨fun hu ha => ?_, fun clear hne hsc hat => ⟨fun acq rel => ?_, fun ord behind read _ => ?_⟩⟩
  · refine does_of_done body ?_
    rw [hu]
    exact loadRes_idle ((activeLanes_begun ..).trans ha)
  all_goals have lanes := (loadRes_clear clear hne).trans (loadLanes_clear clear hne hsc hat)
  · rw [acq, rel] at lanes
    exact flies_of_fly body lanes
  · have ordered : ¬(!isAcq f && !isRel f) = true := by
      rcases ord with acq | rel
      · simp [acq]
      · simp [rel]
    rw [if_neg ordered, behind, read] at lanes
    exact does_of_done body lanes

theorem globalStores : Obl.GlobalStores := by
  unfold Obl.GlobalStores
  intro c s t w unif hits i f xs secs data clear room
  have body : exec i s = word i (storeRes f unif) s := by
    cases unif <;> rfl
  exact does_of_done body (storeRes_clear clear room)

/-- Settles O9. A word whose lanes are clear passes the checks of R145 (`clear_checks`) and reads or holds exactly what
they translate to (`loadLanes_clear`, `storeRes_clear`). -/
theorem loadsAndStores : Obligations.LoadsAndStores := ⟨globalLoads, globalStores⟩

end Sys2Proof.Machine
end

section
/-!
PROOFS. The closes and seals of quanta (O29).
-/
namespace Sys2Proof.Machine

/-! ### Closes of a pair's quantum (R33) -/

section
variable {pr : Nat} {s : State}

theorem timedClose_due (hp : pr < 17) (h : (pair s pr).openAt + 512 ≤ s.now) : timedClose pr s = closeNow pr s :=
  if_pos (by simp [hp, h])

theorem timedClose_early (h : s.now < (pair s pr).openAt + 512) : timedClose pr s = s :=
  if_neg (by simp [h])

end

/-! ### Closes of a group of deterministic mode (R33, R36) -/

section
variable {g : Nat} {s : State}

/-- A group not in deterministic mode has no closes of its own. -/
theorem detCloseNow_normal (h : isDet s g = false) : detCloseNow g s = s :=
  if_pos (by rw [h]; rfl)

/-- The group has no further words, and its open quantum holds some: its last quantum closes. -/
def lastCloseDue (G : Group) : Prop := (G.retired = true ∨ exhausted G = true) ∧ G.qlo < G.nextSeq

theorem detCloseNow_last (hd : isDet s g = true) (h : lastCloseDue (grp (detClose g s) g)) :
    detCloseNow g s = closeGroup g (grp (detClose g s) g).nextSeq (detClose g s) := by
  refine (if_neg (by rw [hd]; decide)).trans (if_pos ?_)
  rw [Bool.and_eq_true, Bool.or_eq_true, decide_eq_true_eq]
  exact h

theorem detCloseNow_notLast (hd : isDet s g = true) (h : ¬lastCloseDue (grp (detClose g s) g)) :
    detCloseNow g s = detClose g s := by
  refine (if_neg (by rw [hd]; decide)).trans (if_neg ?_)
  rw [Bool.and_eq_true, Bool.or_eq_true, decide_eq_true_eq]
  exact h

/-- A group with no started words has none that waits to know its quantum. -/
theorem landLate_noFlights (h : (grp s g).flights = []) : landLate g s = s := by
  rw [landLate, h]
  rfl

theorem grp_closeGroup_qlo (g hi : Nat) (s : State) : (grp (closeGroup g hi s) g).qlo = max hi (grp s g).qlo :=
  congrArg Group.qlo (grp_modGrp ..)
theorem grp_closeGroup_qnum (g hi : Nat) (s : State) : (grp (closeGroup g hi s) g).qnum = (grp s g).qnum + 1 :=
  congrArg Group.qnum (grp_modGrp ..)

/-- Closes only move the opening boundary and the number of the open quantum up. -/
theorem detCloses_mono (g fuel : Nat) (s : State) :
    (grp s g).qlo ≤ (grp (detCloses g fuel s) g).qlo ∧ (grp s g).qnum ≤ (grp (detCloses g fuel s) g).qnum := by
  refine detCloses_keeps (P := fun t => (grp s g).qlo ≤ (grp t g).qlo ∧ (grp s g).qnum ≤ (grp t g).qnum) ?_ fuel
    ⟨Nat.le_refl _, Nat.le_refl _⟩
  intro b t ⟨lo, num⟩
  rw [grp_closeGroup_qlo, grp_closeGroup_qnum]
  exact ⟨Nat.le_trans lo (Nat.le_max_right ..), Nat.le_succ_of_le num⟩

/-- A boundary that is known and that no earlier one can precede closes its quantum. -/
theorem detClose_boundary {b : Nat} (hd : isDet s g = true) (hb : nextBoundary s g = some b)
    (hs : boundarySure s g b = true) :
    b ≤ (grp (detClose g s) g).qlo ∧ (grp s g).qnum < (grp (detClose g s) g).qnum := by
  have first : detClose g s = detCloses g ((grp s g).nextSeq - (grp s g).qlo) (closeGroup g b s) := by
    rw [detClose, if_pos hd, detCloses, hb]
    exact if_pos hs
  obtain ⟨lo, num⟩ := detCloses_mono g ((grp s g).nextSeq - (grp s g).qlo) (closeGroup g b s)
  rw [grp_closeGroup_qlo] at lo
  rw [grp_closeGroup_qnum] at num
  rw [first]
  exact ⟨Nat.le_trans (Nat.le_max_left ..) lo, num⟩

end

theorem quantumCloses : Obl.QuantumCloses := by
  unfold Obl.QuantumCloses
  intro pr g b s full t G ended
  refine ⟨fun hp h => ?_, fun h => ?_, fun h => ?_, fun h => ?_, fun h => ?_, fun h => ?_, fun hd => ?_,
    landLate_noFlights, fun hd h => ?_, fun hd h => ?_, detClose_boundary⟩
  · exact congrArg Host.Outcome.next (timedClose_due hp h)
  · exact congrArg Host.Outcome.next (timedClose_early h)
  · exact congrArg Host.Outcome.next (if_pos h)
  · exact congrArg Host.Outcome.next (if_neg (Bool.eq_false_iff.mp h))
  · exact congrArg Host.Outcome.next (if_pos h)
  · exact congrArg Host.Outcome.next (if_neg (Bool.eq_false_iff.mp h))
  · exact congrArg (fun u => Host.Outcome.next (landLate g u)) (detCloseNow_normal hd)
  · exact congrArg (fun u => Host.Outcome.next (landLate g u)) (detCloseNow_last hd h)
  · exact congrArg (fun u => Host.Outcome.next (landLate g u)) (detCloseNow_notLast hd h)

/-! ### Seals (R34, R335) -/

/-- Noting what is complete takes no time. -/
theorem markComplete_now (gs : List Nat) (s : State) : (gs.foldl (fun u g => markComplete g u) s).now = s.now :=
  foldl_keeps (P := fun t => t.now = s.now) (f := fun u g => markComplete g u) (fun _ _ h => h) gs rfl

/-- A pair's oldest closed quantum, with what is complete noted. -/
def sealMarked (pr q : Nat) (s : State) : State := (headsOf s pr q).foldl (fun u g => markComplete g u) s

section
variable {pr q t g : Nat} {ps : NMap Nat} {s : State}

theorem sealPair_none (h : (pair s pr).pqs = []) : sealPair pr s = s := by
  rw [sealPair, h]

theorem sealPair_early (h : (pair s pr).pqs = (q, t) :: ps) (hd : pairSealDue (sealMarked pr q s) pr q t = false) :
    sealPair pr s = sealMarked pr q s := by
  rw [sealPair, h]
  exact if_pos (by rw [Bool.not_eq_true']; exact hd)

theorem sealPair_due (h : (pair s pr).pqs = (q, t) :: ps) (hd : pairSealDue (sealMarked pr q s) pr q t = true) :
    sealPair pr s = modPair ((headsOf (sealMarked pr q s) pr q).foldl sealGroup (sealMarked pr q s)) pr fun P =>
      { P with
        pqs := ps
        rolls := 0
        sealedAt := some s.now
        hb := P.hb.map fun h => if !isGroupEntry h && h.seq = q then { h with sealed := true } else h } := by
  have now : (sealMarked pr q s).now = s.now := markComplete_now ..
  rw [sealPair, h, ← now]
  exact if_neg (by rw [Bool.not_eq_true']; exact ne_false_of_eq_true hd)

theorem sealDet_due (hd : isDet (markComplete g s) g = true) (hs : sealDue (markComplete g s) g = true) :
    sealDet g s = modPair (sealGroup (markComplete g s) g) (pairOf (markComplete g s) g) fun P =>
      { P with sealedAt := some (markComplete g s).now } :=
  if_pos (by rw [hd, hs]; rfl)

theorem sealDet_early (hs : sealDue (markComplete g s) g = false) : sealDet g s = markComplete g s :=
  if_neg (by rw [hs, Bool.and_false]; decide)

end

theorem quantumSeals : Obl.QuantumSeals := by
  unfold Obl.QuantumSeals
  intro pr g q t ps s marked
  refine ⟨fun h => ⟨fun hd => ?_, fun hd => ?_⟩, fun h => ?_, fun hd hs => ?_, fun hs => ?_⟩
  · exact congrArg Host.Outcome.next (sealPair_early h hd)
  · exact congrArg Host.Outcome.next (sealPair_due h hd)
  · exact congrArg Host.Outcome.next (sealPair_none h)
  · exact congrArg Host.Outcome.next (sealDet_due hd hs)
  · exact congrArg Host.Outcome.next (sealDet_early hs)

/-- Settles O29. Each event closes or seals where its guard holds and else changes nothing; that a sure boundary closes
rests on the closes only moving the opening boundary up (`detCloses_mono`). -/
theorem quantaCloseAndSeal : Obligations.QuantaCloseAndSeal := ⟨quantumCloses, quantumSeals⟩

end Sys2Proof.Machine
end

section
/-!
PROOFS. The epochs of deterministic mode (O31).
-/
namespace Sys2Proof.Machine

/-! ### Commits (R36) -/

section
variable {n : Nat} {s : State}

/-- The next communication of a card's epoch may be applied: the commit has begun or its epoch is due, the copies of a
redundant card have agreed, and the card is not killed (R36, R341). -/
def mayCommit (s : State) (n : Nat) : Prop :=
  ((launch s (2 * n)).committing = true ∨ epochDue s n = true) ∧
    (cRedun s n = true → (launch s (2 * n)).agreed = true) ∧ (run s n).kill = none

/-- The launches of a card, marked as committing. -/
def committing (n : Nat) (s : State) : State :=
  (commitKeys s n).foldl (fun u lk => modLaunch u lk fun l => { l with committing := true }) s

/-- The guard of a commit, as EPOCH_COMMIT tests it. -/
theorem commitGuard_iff : (!((launch s (2 * n)).committing || epochDue s n) ||
    (cRedun s n && !(launch s (2 * n)).agreed) || (run s n).kill.isSome) = true ↔ ¬mayCommit s n := by
  simp only [mayCommit, Bool.or_eq_true, Bool.and_eq_true, Bool.not_eq_true', ← Bool.not_eq_true,
    Option.isSome_iff_ne_none]
  tauto

theorem commitStep_not (h : ¬mayCommit s n) : commitStep n s = s :=
  if_pos (commitGuard_iff.mpr h)

theorem commitStep_end (h : mayCommit s n) (hx : firstComm (comms (committing n s) n) = none) :
    commitStep n s = endCommit n (committing n s) := by
  refine (if_neg fun guard => commitGuard_iff.mp guard h).trans ?_
  rw [← committing, hx]

theorem commitStep_comm {x : Comm} (h : mayCommit s n) (hx : firstComm (comms (committing n s) n) = some x) :
    commitStep n s = applyComm n x (committing n s) := by
  refine (if_neg fun guard => commitGuard_iff.mp guard h).trans ?_
  rw [← committing, hx]

/-! ### Waves (R36) -/

theorem startWave_next (hd : (launch s (2 * n)).det = true) (hk : (run s n).kill = none) (hne : waveGroups s n ≠ [])
    (hg : ∀ g ∈ waveGroups s n, groupSpent s g = true) (hw : waveDrained s n = true)
    (hl : waveEnd (launch s (2 * n)) < (launch s (2 * n)).nteams) :
    startWave n s = dispatch ((commitKeys s n).foldl (fun u lk => endWave lk u) s) := by
  have spent : (waveGroups s n).all (groupSpent s) = true := List.all_eq_true.mpr hg
  refine if_pos ?_
  simp [hd, hk, hne, spent, hw, hl]

/-! ### The comparison of a redundant card's copies (R341) -/

section
variable (hr : cRedun s n = true) (he : epochDue s n = true) (ha : (launch s (2 * n)).agreed = false)
include hr he ha

/-- Both copies hold the same communications: the commit may begin. -/
theorem compareCopies_agree (h : copiesAgree s n = true) :
    compareCopies n s = [2 * n, 2 * n + 1].foldl (fun u lk => modLaunch u lk fun l => { l with agreed := true }) s :=
  (if_neg (by rw [hr, he, ha]; decide)).trans (if_pos h)

/-- A first mismatch rolls the card back on every pair of its wave. -/
theorem compareCopies_first (h : copiesAgree s n = false) (hm : (launch s (2 * n)).mism = 0) :
    compareCopies n s = (wavePairs s n).foldl (fun u p => rollPair p (fun g => gCard g = n) u)
      (modRun n (fun R => { R with rolls := R.rolls + 1 }) (countReg rMismatch 1
        ([2 * n, 2 * n + 1].foldl (fun u lk => modLaunch u lk fun l => { l with mism := 1 }) s))) :=
  (if_neg (by rw [hr, he, ha]; decide)).trans ((if_neg (Bool.eq_false_iff.mp h)).trans (if_pos hm))

/-- A second one loses the card's work. -/
theorem compareCopies_second (h : copiesAgree s n = false) (hm : (launch s (2 * n)).mism ≠ 0) :
    compareCopies n s = mismatchLost n (countReg rMismatch 1 s) :=
  (if_neg (by rw [hr, he, ha]; decide)).trans ((if_neg (Bool.eq_false_iff.mp h)).trans (if_neg hm))

end
end

/-- Settles O31. Each event of an epoch is its guard and one equation for each outcome. -/
theorem epochs : Obligations.Epochs := by
  unfold Obligations.Epochs
  intro n s l s1 may
  refine ⟨fun h hx => ?_, fun x h hx => ?_, fun h => ?_, fun hd hk hne hg hw hl => ?_,
    fun hr he ha => ⟨fun h => ?_, fun h hm => ?_, fun h hm => ?_⟩⟩
  · exact congrArg Host.Outcome.next (commitStep_end h hx)
  · exact congrArg Host.Outcome.next (commitStep_comm h hx)
  · exact congrArg Host.Outcome.next (commitStep_not h)
  · exact congrArg Host.Outcome.next (startWave_next hd hk hne hg hw hl)
  · exact congrArg Host.Outcome.next (compareCopies_agree hr he ha h)
  · exact congrArg Host.Outcome.next (compareCopies_first hr he ha h hm)
  · exact congrArg Host.Outcome.next (compareCopies_second hr he ha h hm)

end Sys2Proof.Machine
end

section
/-!
PROOFS. Completion, kills, deadlines and budgets (O41).
-/
namespace Sys2Proof.Machine

/-! ### Completion (R23, R303, R315, R316) -/

/-- The card may complete: it runs or is parked, it is not killed, and its work is over. -/
def completes (n : Nat) (s : State) : Bool := decide (4 ≤ cState s n) && (run s n).kill.isNone && workDone s n

/-- The card has not completed by its deadline, which has passed, and the miss has still to be reported. -/
def isLate (n : Nat) (s : State) : Bool :=
  !(run s n).missed && decide ((run s n).absDl < s.now) && pastDeadline s n (run s n).absDl

/-- The state once the miss of a late card is reported (R315). -/
def missFirst (n : Nat) (s : State) : State := if isLate n s then missInstance n s.now s else s

section
variable {n : Nat} {s : State}

theorem completes_iff : completes n s = true ↔ 4 ≤ cState s n ∧ (run s n).kill = none ∧ workDone s n = true := by
  simp only [completes, Bool.and_eq_true, decide_eq_true_eq, Option.isNone_iff_eq_none, and_assoc]

theorem isLate_iff : isLate n s = true ↔
    (run s n).missed = false ∧ (run s n).absDl < s.now ∧ pastDeadline s n (run s n).absDl = true := by
  simp only [isLate, Bool.and_eq_true, Bool.not_eq_true', decide_eq_true_eq, and_assoc]

theorem completeLaunch_not (h : ¬completes n s = true) : completeLaunch n s = s :=
  if_pos (by rw [Bool.not_eq_true']; exact Bool.eq_false_iff.mpr h)

/-- LAUNCH_COMPLETE of a card that may complete: the miss, then the overruns, then the completion. -/
theorem completeLaunch_ready (h : completes n s = true) :
    completeLaunch n s =
      let u := if completes n (missFirst n s) then reportOverruns n (missFirst n s) else missFirst n s
      if completes n u then dispatch (completeCard n u) else u :=
  if_neg (by rw [Bool.not_eq_true']; exact ne_false_of_eq_true h)

/-- A card that the miss of its deadline kills does not complete. -/
theorem completeLaunch_missed (h : completes n s = true) (hu : ¬completes n (missFirst n s) = true) :
    completeLaunch n s = missFirst n s := by
  rw [completeLaunch_ready h, if_neg hu]
  exact if_neg hu

/-- Nor does one that the report of an overrun kills. -/
theorem completeLaunch_overrun (h : completes n s = true) (hu : completes n (missFirst n s) = true)
    (hv : ¬completes n (reportOverruns n (missFirst n s)) = true) :
    completeLaunch n s = reportOverruns n (missFirst n s) := by
  rw [completeLaunch_ready h, if_pos hu]
  exact if_neg hv

theorem completeLaunch_done (h : completes n s = true) (hu : completes n (missFirst n s) = true)
    (hv : completes n (reportOverruns n (missFirst n s)) = true) :
    completeLaunch n s = dispatch (completeCard n (reportOverruns n (missFirst n s))) := by
  rw [completeLaunch_ready h, if_pos hu]
  exact if_pos hv

/-! ### The end of a kill (R327, R330) -/

theorem killOver_none (h : (run s n).kill = none) : killOver n s = s :=
  if_pos (by rw [h]; rfl)

theorem killOver_undrained (h : drained s n = false) : killOver n s = s :=
  if_pos (by rw [h]; simp)

theorem killOver_drained {k : Kill} (hk : (run s n).kill = some k) (ha : (run s n).replayAsk = false)
    (hd : drained s n = true) : killOver n s = dispatch (killDone n (reportOverruns n s)) :=
  if_neg (by simp [hk, ha, hd])

/-- A kill that is not to be replayed, or whose card has had an external effect, fails. -/
theorem killDone_fails {k : Kill} (hk : (run s n).kill = some k) (hd : drained s n = true)
    (hr : k.replay = false ∨ cExtEff (freeCard n s) n = true) :
    killDone n s = failCard n k.event k.cls (freeCard n s) := by
  have fails : (!k.replay || cExtEff (freeCard n s) n) = true := by
    rw [Bool.or_eq_true, Bool.not_eq_true']
    exact hr
  simp only [killDone, hk, hd, fails, Bool.not_true, Bool.false_eq_true, if_false, if_true]

/-- Any other is replayed, where the hardware decides. -/
theorem killDone_replays {k : Kill} (hk : (run s n).kill = some k) (hd : drained s n = true) (hr : k.replay = true)
    (he : cExtEff (freeCard n s) n = false) (hw : dutyHw s (cardFld s n 27 26) 2 = true) :
    killDone n s = replayCard n (freeCard n s) := by
  simp only [killDone, hk, hd, hr, he, hw, Bool.not_true, Bool.or_self, Bool.false_eq_true, if_false, if_true]

end

theorem instanceEnds_events : Obl.InstanceEnds := by
  unfold Obl.InstanceEnds
  intro s n k
  refine ⟨?_, fun hk => ?_, fun _ hd => ?_, ?_⟩
  · intro late ready u v
    have isReady (t : State) : ready t ↔ completes n t = true := completes_iff.symm
    have missed : u = missFirst n s := if_congr isLate_iff.symm rfl rfl
    have overruns : v = reportOverruns n (missFirst n s) := congrArg (reportOverruns n) missed
    rw [overruns, missed]
    simp only [isReady]
    refine ⟨fun h hu hv => ?_, fun h hu hv => ?_, fun h hu => ?_, fun h => ?_⟩
    · exact congrArg Host.Outcome.next (completeLaunch_done h hu hv)
    · exact congrArg Host.Outcome.next (completeLaunch_overrun h hu hv)
    · exact congrArg Host.Outcome.next (completeLaunch_missed h hu)
    · exact congrArg Host.Outcome.next (completeLaunch_not h)
  · exact congrArg Host.Outcome.next (killOver_none hk)
  · exact congrArg Host.Outcome.next (killOver_undrained hd)
  · intro v u hk hkv ha hd hdv
    have killed : killOver n s = dispatch (killDone n v) := killOver_drained hk ha hd
    refine ⟨fun hr => ?_, fun hr he hw => ?_⟩
    · exact congrArg Host.Outcome.next (killed.trans (congrArg dispatch (killDone_fails hkv hdv hr)))
    · exact congrArg Host.Outcome.next (killed.trans (congrArg dispatch (killDone_replays hkv hdv hr he hw)))

/-! ### Deadlines and budgets (R315, R316) -/

section
variable {n : Nat} {s : State}

/-- The suspend status resets to running. -/
theorem regReset_suspStat : regReset rSuspStat = 0 := by
  simp [regReset, rSuspStat, rAdmCore, rAdmBw, rSpares, rScrub, rDevid, rTdpw, rThrot]

/-- While the device is not suspended no miss waits. -/
theorem missWaits_awake (h : suspStat s = 0) (dl : Nat) : missWaits s dl = false := by
  have awake : mmr s rSuspStat 0 % 4 = 0 := by rwa [suspStat, reg, regReset_suspStat] at h
  simp [missWaits, awake]

/-- A card's current deadline is the first that it has to report. -/
theorem missDeadline_instance (hs : suspStat s = 0) (hi : inInstance s n = true) (hm : (run s n).missed = false)
    (hp : pastDeadline s n (run s n).absDl = true) : missDeadline n s = missInstance n s.now s := by
  have first : (dueMisses s n).find? (fun x => !missWaits s x.1) = some ((run s n).absDl, n, false) := by
    simp only [dueMisses, hi, hm, hp, Bool.not_false, Bool.and_self, if_true, List.singleton_append]
    exact List.find?_cons_of_pos (by rw [missWaits_awake hs]; rfl)
  simp only [missDeadline, first, raiseDue, Bool.false_eq_true, if_false]

/-- A card that runs nothing and has no pending release has no miss to report. -/
theorem missDeadline_idle (hi : inInstance s n = false) (hp : (run s n).pend = none) : missDeadline n s = s := by
  have nothing : dueMisses s n = [] := by
    simp [dueMisses, hi, hp]
  rw [missDeadline, nothing]
  exact if_neg (by simp [hi])

/-- Where MISSACT does not abort, a miss is raised and no more. -/
theorem missInstance_goesOn (ha : missAborts s n = false) (time : Nat) : missInstance n time s =
    raiseMiss n (cInstance s n) (run s n).rel time (modRun n (fun R => { R with missed := true }) s) :=
  if_neg (by rw [ha]; decide)

/-- Without JOBDONE a card has not completed by a deadline that has passed. -/
theorem pastDeadline_open {dl : Nat} (hj : (run s n).jobDone = none) (hd : dl ≤ s.now) :
    pastDeadline s n dl = true := by
  simp only [pastDeadline, hj, hd, decide_true, Bool.and_self]

/-- USED has first passed EBUDGET where BUDEN is set (R316). -/
def budgetDue (n : Nat) (s : State) : Prop :=
  (inInstance s n = true ∧ cardFld s n 21 21 = 1) ∧ cEBudget s n ≠ 0 ∧ (run s n).overran = false ∧
    cEBudget s n < cardFld s n 767 736

/-- The overrun is noted and raised. -/
def raiseExec (n : Nat) (s : State) : State := raiseBudget n 2 (modRun n (fun R => { R with overran := true }) s)

/-- EXEC_BUDGET_OVERRUN of a budget that is due: BUDACT says what follows the event. -/
theorem overrunBudget_due (h : budgetDue n s) :
    (cardFld s n 20 19 = 0 → overrunBudget n s = raiseExec n s) ∧
    (cardFld s n 20 19 = 1 → overrunBudget n s = modRun n (fun R => { R with demoted := true }) (raiseExec n s)) ∧
    (cardFld s n 20 19 = 2 → overrunBudget n s = killCard n { event := 4, cls := 0 } (raiseExec n s)) := by
  obtain ⟨⟨inst, buden⟩, budget, overran, used⟩ := h
  unfold overrunBudget
  rw [if_pos (by simp [inst, buden, budget, overran, used])]
  refine ⟨fun act => ?_, fun act => ?_, fun act => ?_⟩ <;> simp only [act, raiseExec]

theorem overrunBudget_within (h : cardFld s n 767 736 ≤ cEBudget s n) : overrunBudget n s = s :=
  if_neg (by simp [Nat.not_lt.mpr h])

/-- Windows that have ended with an overrun are raised first, one at a time. -/
theorem overrunBandwidth_ended (hi : inInstance s n = true) (hb : 0 < (run s n).bwDue) : overrunBandwidth n s =
    raiseBudget n 3 (modRun n (fun R => { R with bwDue := R.bwDue - 1 }) s) :=
  if_pos (by simp [hi, hb])

/-- Then the window in progress, once. -/
theorem overrunBandwidth_window (hb : (run s n).bwDue = 0) (hi : inInstance s n = true) (he : cardFld s n 21 21 = 1)
    (h0 : cBwBudget s n ≠ 0) (hu : cBwBudget s n < (run s n).bwBytes)
    (hr : (run s n).bwRaised ≠ some (run s n).bwWin) : overrunBandwidth n s =
      raiseBudget n 3 (modRun n (fun R => { R with bwRaised := some R.bwWin }) s) :=
  (if_neg (by simp [hb])).trans (if_pos (by simp [hi, he, h0, hu, hr]))

theorem overrunBandwidth_within (hb : (run s n).bwDue = 0) (hu : (run s n).bwBytes ≤ cBwBudget s n) :
    overrunBandwidth n s = s :=
  (if_neg (by simp [hb])).trans (if_neg (by simp [Nat.not_lt.mpr hu]))

end

theorem missesAndBudgets : Obl.MissesAndBudgets := by
  unfold Obl.MissesAndBudgets
  intro s n R enabled
  refine ⟨fun hs hi hm hj hd ha => ?_, fun hi hp => ?_, ?_, fun h => ?_, fun hi hb => ?_, ?_, fun hb hu => ?_⟩
  · exact congrArg Host.Outcome.next
      ((missDeadline_instance hs hi hm (pastDeadline_open hj hd)).trans (missInstance_goesOn ha s.now))
  · exact congrArg Host.Outcome.next (missDeadline_idle hi hp)
  · intro on budget overran used u
    obtain ⟨goesOn, demoted, killed⟩ := overrunBudget_due ⟨on, budget, overran, used⟩
    refine ⟨fun act => ?_, fun act => ?_, fun act => ?_⟩
    · exact congrArg Host.Outcome.next (goesOn act)
    · exact congrArg Host.Outcome.next (demoted act)
    · exact congrArg Host.Outcome.next (killed act)
  · exact congrArg Host.Outcome.next (overrunBudget_within h)
  · exact congrArg Host.Outcome.next (overrunBandwidth_ended hi hb)
  · intro hb on h0 hu hr
    obtain ⟨inst, buden⟩ := on
    exact congrArg Host.Outcome.next (overrunBandwidth_window hb inst buden h0 hu hr)
  · exact congrArg Host.Outcome.next (overrunBandwidth_within hb hu)

/-- Settles O41. Each event is one equation for each of its outcomes; LAUNCH_COMPLETE reports a miss and then the
overruns before it completes (`completeLaunch_ready`). -/
theorem instanceEnds : Obligations.InstanceEnds := ⟨instanceEnds_events, missesAndBudgets⟩

end Sys2Proof.Machine
end

section
/-!
PROOFS. Encoding and decoding: the fields of the two words, the opcode map read both ways, and what the decoder and the
encoder then say of each other (O48, O49, O50).
-/
namespace Sys2Proof

/-! ### Packing and unpacking the two words (R68, R69) -/

section
variable (e : BitVec 3) (l : BitVec 1) (op d a b : BitVec 7)

@[simp] theorem wE_packWord : wE (packWord e l op d a b) = e := by
  unfold wE packWord
  iterate 5 rw [BitVec.extractLsb'_append_eq_of_le (by decide)]
  exact BitVec.extractLsb'_eq_self
@[simp] theorem wL_packWord : wL (packWord e l op d a b) = l := by
  unfold wL packWord
  iterate 4 rw [BitVec.extractLsb'_append_eq_of_le (by decide)]
  exact BitVec.extractLsb'_append_eq_right
@[simp] theorem wOp_packWord : wOp (packWord e l op d a b) = op := by
  unfold wOp packWord
  iterate 3 rw [BitVec.extractLsb'_append_eq_of_le (by decide)]
  exact BitVec.extractLsb'_append_eq_right
@[simp] theorem wD_packWord : wD (packWord e l op d a b) = d := by
  unfold wD packWord
  iterate 2 rw [BitVec.extractLsb'_append_eq_of_le (by decide)]
  exact BitVec.extractLsb'_append_eq_right
@[simp] theorem wA_packWord : wA (packWord e l op d a b) = a := by
  unfold wA packWord
  rw [BitVec.extractLsb'_append_eq_of_le (by decide)]
  exact BitVec.extractLsb'_append_eq_right
@[simp] theorem wB_packWord : wB (packWord e l op d a b) = b :=
  BitVec.extractLsb'_append_eq_right

end

/-- A word 0 is its fields, put together again. -/
theorem packWord_fields (w : Word32) : packWord (wE w) (wL w) (wOp w) (wD w) (wA w) (wB w) = w := by
  unfold packWord wE wL wOp wD wA wB
  iterate 5 rw [BitVec.extractLsb'_append_extractLsb'_eq_extractLsb' (by rfl)]
  exact BitVec.extractLsb'_eq_self

/-- The bit that a flag is packed as reads as the flag. -/
theorem decide_ofBool_eq_one (p : Bool) : decide (BitVec.ofBool p = 1#1) = p := by
  cases p <;> rfl

/-- A bit read as a flag packs as itself. -/
theorem ofBool_decide_eq_one (x : BitVec 1) : BitVec.ofBool (decide (x = 1#1)) = x := by
  obtain rfl | rfl := x.eq_zero_or_eq_one <;> rfl


section
variable (g : Guard) (imm : BitVec 23)

@[simp] theorem xGuard_packK : xGuard (packK g imm) = g := by
  have ge : xGE (packK g imm) = BitVec.ofBool g.ge := by
    unfold xGE packK
    iterate 3 rw [BitVec.extractLsb'_append_eq_of_le (by decide)]
    exact BitVec.extractLsb'_eq_self
  have gn : xGN (packK g imm) = BitVec.ofBool g.gn := by
    unfold xGN packK
    iterate 2 rw [BitVec.extractLsb'_append_eq_of_le (by decide)]
    exact BitVec.extractLsb'_append_eq_right
  have gp : xGP (packK g imm) = g.gp := by
    unfold xGP packK
    rw [BitVec.extractLsb'_append_eq_of_le (by decide)]
    exact BitVec.extractLsb'_append_eq_right
  rw [xGuard, ge, gn, gp, decide_ofBool_eq_one, decide_ofBool_eq_one]
@[simp] theorem xI23_packK : xI23 (packK g imm) = imm :=
  BitVec.extractLsb'_append_eq_right

end

/-- A K-form extension is its fields, put together again. -/
theorem packK_fields (x : Word32) : packK (xGuard x) (xI23 x) = x := by
  unfold packK xGuard
  rw [ofBool_decide_eq_one, ofBool_decide_eq_one]
  unfold xGE xGN xGP xI23
  iterate 3 rw [BitVec.extractLsb'_append_extractLsb'_eq_extractLsb' (by rfl)]
  exact BitVec.extractLsb'_eq_self

/-- The X form splits the immediate of the K form. -/
theorem packX_eq_packK (g : Guard) (mod : BitVec 4) (c : BitVec 7) (imm : BitVec 12) :
    packX g mod c imm = packK g (mod ++ c ++ imm) := by
  refine BitVec.eq_of_toNat_eq ?_
  unfold packX packK
  simp only [BitVec.toNat_append, Nat.shiftLeft_or_distrib, ← Nat.shiftLeft_add, Nat.or_assoc]

section
variable (g : Guard) (mod : BitVec 4) (c : BitVec 7) (imm : BitVec 12)

@[simp] theorem xGuard_packX : xGuard (packX g mod c imm) = g := by
  rw [packX_eq_packK, xGuard_packK]
@[simp] theorem xMOD_packX : xMOD (packX g mod c imm) = mod := by
  unfold xMOD packX
  iterate 2 rw [BitVec.extractLsb'_append_eq_of_le (by decide)]
  exact BitVec.extractLsb'_append_eq_right
@[simp] theorem xC_packX : xC (packX g mod c imm) = c := by
  unfold xC packX
  rw [BitVec.extractLsb'_append_eq_of_le (by decide)]
  exact BitVec.extractLsb'_append_eq_right
@[simp] theorem xI12_packX : xI12 (packX g mod c imm) = imm :=
  BitVec.extractLsb'_append_eq_right

end

/-- An X-form extension is its fields, put together again. -/
theorem packX_fields (x : Word32) : packX (xGuard x) (xMOD x) (xC x) (xI12 x) = x := by
  have imm : xMOD x ++ xC x ++ xI12 x = xI23 x := by
    unfold xMOD xC xI12
    iterate 2 rw [BitVec.extractLsb'_append_extractLsb'_eq_extractLsb' (by rfl)]
    rfl
  rw [packX_eq_packK, imm, packK_fields]

theorem toSW_packWord (e : BitVec 3) (l : BitVec 1) (op : BitVec 7) (w : SW) :
    toSW (packWord e l op w.d w.a w.b) = w := by
  simp [toSW]
theorem toXW_pack (e : BitVec 3) (l : BitVec 1) (op : BitVec 7) (w : XW) :
    toXW (packWord e l op w.d w.a w.b) (packX w.g w.mod w.c w.imm) = w := by
  simp [toXW]
theorem toKW_pack (e : BitVec 3) (l : BitVec 1) (op : BitVec 7) (w : KW) :
    toKW (packWord e l op w.d w.a w.b) (packK w.g w.imm) = w := by
  simp [toKW]

/-! ### What the encoder writes -/

/-- The encoding row of the word `i` gives it an engine and an opcode, and its fields are `f`. -/
def Instr.Names (i : Instr) (eng : BitVec 3) (op : BitVec 7) (f : Flds) : Prop :=
  ∃ r, i.row = some r ∧ BitVec.ofNat 3 r.eng = eng ∧ BitVec.ofNat 7 r.op = op ∧ i.flds = f

section
variable {i : Instr} {eng : BitVec 3} {op : BitVec 7}

theorem encode_short {w : SW} (h : i.Names eng op w.flds) :
    encode i = [packWord eng 0#1 op w.d w.a w.b] := by
  obtain ⟨r, hr, rfl, rfl, hf⟩ := h
  simp [encode, hr, hf, SW.flds]

theorem encode_extX {w : XW} (h : i.Names eng op w.flds) :
    encode i = [packWord eng 1#1 op w.d w.a w.b, packX w.g w.mod w.c w.imm] := by
  obtain ⟨r, hr, rfl, rfl, hf⟩ := h
  simp [encode, hr, hf, XW.flds]

theorem encode_extK {w : KW} (h : i.Names eng op w.flds) :
    encode i = [packWord eng 1#1 op w.d w.a w.b, packK w.g w.imm] := by
  obtain ⟨r, hr, rfl, rfl, hf⟩ := h
  simp [encode, hr, hf, KW.flds]

end

/-! ### What the decoder reads -/

/-- Four bytes are the bytes of their word. -/
theorem wordBytes_wordOf (b0 b1 b2 b3 : Byte) : wordBytes (wordOf b0 b1 b2 b3) = [b0, b1, b2, b3] := by
  have h0 : (wordOf b0 b1 b2 b3).extractLsb' 0 8 = b0 := BitVec.extractLsb'_append_eq_right
  have h1 : (wordOf b0 b1 b2 b3).extractLsb' 8 8 = b1 := by
    unfold wordOf
    rw [BitVec.extractLsb'_append_eq_of_le (by decide)]
    exact BitVec.extractLsb'_append_eq_right
  have h2 : (wordOf b0 b1 b2 b3).extractLsb' 16 8 = b2 := by
    unfold wordOf
    iterate 2 rw [BitVec.extractLsb'_append_eq_of_le (by decide)]
    exact BitVec.extractLsb'_append_eq_right
  have h3 : (wordOf b0 b1 b2 b3).extractLsb' 24 8 = b3 := by
    unfold wordOf
    iterate 3 rw [BitVec.extractLsb'_append_eq_of_le (by decide)]
    exact BitVec.extractLsb'_eq_self
  rw [wordBytes, h0, h1, h2, h3]

section
variable {w x : Word32} {i : Instr}

/-- Where L is 0 the decoder reads four bytes (R69). -/
theorem decode_short (hL : wL w = 0#1) (h : decodeWords w 0#32 = .ok i) (bs : List Byte) :
    decode (wordBytes w ++ bs) = .ok (i, bs) := by
  simp only [wordBytes, List.cons_append, List.nil_append, decode, wordOf_extractLsb', hL, if_true, h]

/-- Where L is 1 it reads eight. -/
theorem decode_long (hL : wL w = 1#1) (h : decodeWords w x = .ok i) (bs : List Byte) :
    decode (wordBytes w ++ wordBytes x ++ bs) = .ok (i, bs) := by
  simp only [wordBytes, List.cons_append, List.nil_append, decode, wordOf_extractLsb', hL,
    show (1#1 : BitVec 1) ≠ 0#1 by decide, if_false, h]

end

/-- What the decoder accepts is a word 0, with its extension where L is 1, and the bytes left over. -/
theorem decode_ok {bs rest : List Byte} {i : Instr} (h : decode bs = .ok (i, rest)) :
    (∃ w, wL w = 0#1 ∧ decodeWords w 0#32 = .ok i ∧ bs = wordBytes w ++ rest) ∨
    (∃ w x, wL w = 1#1 ∧ decodeWords w x = .ok i ∧ bs = wordBytes w ++ wordBytes x ++ rest) := by
  unfold decode at h
  split at h
  case h_2 => cases h
  case h_1 b0 b1 b2 b3 bs =>
    dsimp only at h
    split at h
    next hL =>
      split at h
      · rename_i j hj
        cases h
        exact .inl ⟨_, hL, hj, by rw [wordBytes_wordOf]; rfl⟩
      · cases h
    next hL =>
      split at h
      case h_2 => cases h
      case h_1 c0 c1 c2 c3 cs =>
        split at h
        · rename_i j hj
          cases h
          refine .inr ⟨_, _, (BitVec.eq_zero_or_eq_one _).resolve_left hL, hj, ?_⟩
          rw [wordBytes_wordOf, wordBytes_wordOf]
          rfl
        · cases h

/-! ### The opcode map, from opcodes to instructions (R70, R87) -/

/-- The instructions that an entry of the opcode map builds have the engine `eng` and the entry's opcode in their rows,
and the fields that they were built from. -/
def OpEntry.Builds (eng : BitVec 3) (e : OpEntry) : Prop :=
  (match e.short with
    | none => True
    | some f => ∀ w, (f w).Names eng (BitVec.ofNat 7 e.op) w.flds) ∧
  match e.long with
  | .none => True
  | .x f => ∀ w, (f w).Names eng (BitVec.ofNat 7 e.op) w.flds
  | .k f => ∀ w, (f w).Names eng (BitVec.ofNat 7 e.op) w.flds

theorem xstrmForm_names (w : XW) : (xstrmForm w).Names 3#3 0x01#7 w.flds := by
  unfold xstrmForm
  split <;> exact ⟨_, rfl, rfl, rfl, rfl⟩

/-- Every entry of an engine's table builds words of that engine (R87). -/
theorem opsOf_builds (eng : BitVec 3) : ∀ e ∈ opsOf eng, e.Builds eng := by
  have engines : ∀ x : BitVec 3, x = 0#3 ∨ x = 1#3 ∨ x = 2#3 ∨ x = 3#3 ∨ x = 4#3 ∨ x = 5#3 ∨ x = 6#3 ∨ x = 7#3 := by
    decide
  obtain rfl | rfl | rfl | rfl | rfl | rfl | rfl | rfl := engines eng
  all_goals
    simp only [opsOf, BitVec.reduceToNat, opsS, opsV, opsM, opsX, opsC, opsY, opsN, opsZ, List.forall_mem_cons,
      List.not_mem_nil, false_implies, implies_true, OpEntry.Builds, xstrmForm_names, true_and, and_true]
    repeat' apply And.intro
    all_goals exact fun _ => ⟨_, rfl, rfl, rfl, rfl⟩

theorem findOp_eq_some {es : List OpEntry} {n : Nat} {e : OpEntry} (h : findOp es n = some e) : e ∈ es ∧ e.op = n := by
  induction es with
  | nil => cases h
  | cons x xs ih =>
    unfold findOp at h
    split at h
    next hx => cases h; exact ⟨List.mem_cons_self, hx⟩
    next => exact (ih h).imp_left (List.mem_cons_of_mem _)

/-- The entry that the map lists under an opcode builds words of the engine, with that opcode. -/
theorem opEntry_builds {eng : BitVec 3} {op : BitVec 7} {e : OpEntry} (h : opEntry eng op = some e) :
    BitVec.ofNat 7 e.op = op ∧ e.Builds eng := by
  unfold opEntry at h
  split at h
  next ho => cases h; exact ⟨ho.symm, fun _ => ⟨_, rfl, BitVec.ofNat_toNat .., rfl, rfl⟩, trivial⟩
  split at h
  next ho => cases h; exact ⟨ho.symm, fun _ => ⟨_, rfl, BitVec.ofNat_toNat .., rfl, rfl⟩, trivial⟩
  split at h
  next ho => cases h; exact ⟨ho.symm, fun _ => ⟨_, rfl, BitVec.ofNat_toNat .., rfl, rfl⟩, trivial⟩
  obtain ⟨mem, ho⟩ := findOp_eq_some h
  exact ⟨by rw [ho, BitVec.ofNat_toNat, BitVec.setWidth_eq], opsOf_builds eng e mem⟩

/-! ### Every decoded word encodes to its bytes (O50) -/

section
variable {w x : Word32} {i : Instr}

/-- The word that is decoded has the fields of its form, with the engine and the opcode of word 0. -/
theorem decodeWords_names (h : decodeWords w x = .ok i) :
    (wL w = 0#1 ∧ i.Names (wE w) (wOp w) (toSW w).flds) ∨
    (wL w = 1#1 ∧ (i.Names (wE w) (wOp w) (toXW w x).flds ∨ i.Names (wE w) (wOp w) (toKW w x).flds)) := by
  unfold decodeWords at h
  split at h
  case h_1 => cases h
  case h_2 e he =>
    obtain ⟨ho, hshort, hlong⟩ := opEntry_builds he
    rw [ho] at hshort hlong
    split at h
    next hL =>
      split at h
      next f hf => cases h; rw [hf] at hshort; exact .inl ⟨hL, hshort _⟩
      next => cases h
    next hL =>
      refine .inr ⟨(BitVec.eq_zero_or_eq_one _).resolve_left hL, ?_⟩
      split at h
      next => cases h
      next f hf => cases h; rw [hf] at hlong; exact .inl (hlong _)
      next f hf => cases h; rw [hf] at hlong; exact .inr (hlong _)

theorem Instr.Names.isSome_row {eng : BitVec 3} {op : BitVec 7} {f : Flds} (h : i.Names eng op f) :
    i.row.isSome = true := by
  obtain ⟨r, hr, _⟩ := h
  rw [hr]; rfl

/-- An instruction is as long as its form says. -/
theorem Instr.Names.size_eq {eng : BitVec 3} {op : BitVec 7} {f : Flds} (h : i.Names eng op f) :
    i.size = match f.form with
      | .short => 4
      | _ => 8 := by
  obtain ⟨_, _, _, _, rfl⟩ := h
  rfl

/-- A short form that is decoded encodes to its word. -/
theorem encode_of_decodeWords_short (hL : wL w = 0#1) (h : decodeWords w x = .ok i) :
    encode i = [w] ∧ i.size = 4 ∧ i.row.isSome = true := by
  obtain ⟨_, hn⟩ | ⟨hL', _⟩ := decodeWords_names h
  · exact ⟨by rw [encode_short hn, ← hL]; exact congrArg (fun y => [y]) (packWord_fields w), hn.size_eq, hn.isSome_row⟩
  · rw [hL] at hL'; cases hL'

/-- A long form that is decoded encodes to its two words. -/
theorem encode_of_decodeWords_long (hL : wL w = 1#1) (h : decodeWords w x = .ok i) :
    encode i = [w, x] ∧ i.size = 8 ∧ i.row.isSome = true := by
  have word0 : packWord (wE w) 1#1 (wOp w) (wD w) (wA w) (wB w) = w := hL ▸ packWord_fields w
  obtain ⟨hL', _⟩ | ⟨_, hn | hn⟩ := decodeWords_names h
  · rw [hL] at hL'; cases hL'
  · exact ⟨(encode_extX hn).trans (congrArg₂ (fun y z => [y, z]) word0 (packX_fields x)), hn.size_eq, hn.isSome_row⟩
  · exact ⟨(encode_extK hn).trans (congrArg₂ (fun y z => [y, z]) word0 (packK_fields x)), hn.size_eq, hn.isSome_row⟩

end

/-- Settles O50. The decoder read one word or two (`decode_ok`); packing a word's fields gives the word back. -/
theorem encodeOfDecode : Obligations.EncodeOfDecode := by
  unfold Obligations.EncodeOfDecode
  intro i bs rest h
  obtain ⟨w, hL, hw, rfl⟩ | ⟨w, x, hL, hw, rfl⟩ := decode_ok h
  · obtain ⟨he, hsize, hrow⟩ := encode_of_decodeWords_short hL hw
    rw [encodeBytes, he, hsize]
    exact ⟨rfl, rfl, hrow⟩
  · obtain ⟨he, hsize, hrow⟩ := encode_of_decodeWords_long hL hw
    rw [encodeBytes, he, hsize]
    exact ⟨rfl, rfl, hrow⟩

/-- Settles O48. Each side evaluates: the decoder reads the words' bytes. -/
theorem decodeSamples : Obligations.DecodeSamples := by
  unfold Obligations.DecodeSamples
  exact ⟨rfl, rfl, rfl, rfl, rfl, rfl, rfl, rfl, rfl, rfl, rfl, rfl, rfl, rfl, rfl, rfl⟩

end Sys2Proof
namespace Sys2Proof.Laws

/-! ### From instructions to the opcode map (O49) -/

/-- The opcode map has the entry that fits any well-formed word: the family `Entry`, put together. -/
theorem entry_statement (i : Instr) : Entry.Statement i := by
  cases i with
  | nop => exact Entry.nop _ _ | twait => exact Entry.twait _ _ | tsig => exact Entry.tsig _ _
  | sli => exact Entry.sli _ | slih => exact Entry.slih _ | smov => exact Entry.smov _ | sadd => exact Entry.sadd _
  | saddX => exact Entry.saddX _ | ssub => exact Entry.ssub _ | ssubX => exact Entry.ssubX _
  | smul => exact Entry.smul _ | smulX => exact Entry.smulX _ | smulh => exact Entry.smulh _
  | smulhX => exact Entry.smulhX _ | sand => exact Entry.sand _ | sandX => exact Entry.sandX _
  | sor => exact Entry.sor _ | sorX => exact Entry.sorX _ | sxor => exact Entry.sxor _ | sxorX => exact Entry.sxorX _
  | sshl => exact Entry.sshl _ | sshlX => exact Entry.sshlX _ | sshr => exact Entry.sshr _
  | sshrX => exact Entry.sshrX _ | ssra => exact Entry.ssra _ | ssraX => exact Entry.ssraX _
  | smin => exact Entry.smin _ | sminX => exact Entry.sminX _ | smax => exact Entry.smax _
  | smaxX => exact Entry.smaxX _ | scmp => exact Entry.scmp _ | ssel => exact Entry.ssel _ | srd => exact Entry.srd _
  | bra => exact Entry.bra _ | brc => exact Entry.brc _ | brx => exact Entry.brx _ | call => exact Entry.call _
  | ret => exact Entry.ret _ | bdiv => exact Entry.bdiv _ | mark => exact Entry.mark _ | join => exact Entry.join _
  | loop => exact Entry.loop _ | endl => exact Entry.endl _ | exit => exact Entry.exit _ | iadd => exact Entry.iadd _
  | iaddX => exact Entry.iaddX _ | isub => exact Entry.isub _ | isubX => exact Entry.isubX _
  | imul => exact Entry.imul _ | imulX => exact Entry.imulX _ | imulh => exact Entry.imulh _
  | imulhX => exact Entry.imulhX _ | imad => exact Entry.imad _ | iand => exact Entry.iand _
  | iandX => exact Entry.iandX _ | ior => exact Entry.ior _ | iorX => exact Entry.iorX _ | ixor => exact Entry.ixor _
  | ixorX => exact Entry.ixorX _ | ishl => exact Entry.ishl _ | ishlX => exact Entry.ishlX _
  | ishr => exact Entry.ishr _ | ishrX => exact Entry.ishrX _ | isra => exact Entry.isra _
  | israX => exact Entry.israX _ | imin => exact Entry.imin _ | iminX => exact Entry.iminX _
  | imax => exact Entry.imax _ | imaxX => exact Entry.imaxX _ | iabs => exact Entry.iabs _
  | iabsX => exact Entry.iabsX _ | iclz => exact Entry.iclz _ | iclzX => exact Entry.iclzX _
  | ipopc => exact Entry.ipopc _ | ipopcX => exact Entry.ipopcX _ | ibrev => exact Entry.ibrev _
  | ibrevX => exact Entry.ibrevX _ | ibfx => exact Entry.ibfx _ | ibfi => exact Entry.ibfi _
  | isel => exact Entry.isel _ | imov => exact Entry.imov _ | imovX => exact Entry.imovX _
  | imovi => exact Entry.imovi _ | icmp => exact Entry.icmp _ | fadd => exact Entry.fadd _
  | faddX => exact Entry.faddX _ | fsub => exact Entry.fsub _ | fsubX => exact Entry.fsubX _
  | fmul => exact Entry.fmul _ | fmulX => exact Entry.fmulX _ | ffma => exact Entry.ffma _
  | fmin => exact Entry.fmin _ | fminX => exact Entry.fminX _ | fmax => exact Entry.fmax _
  | fmaxX => exact Entry.fmaxX _ | fcmp => exact Entry.fcmp _ | fclass => exact Entry.fclass _
  | fclassX => exact Entry.fclassX _ | frcp => exact Entry.frcp _ | frcpX => exact Entry.frcpX _
  | frsq => exact Entry.frsq _ | frsqX => exact Entry.frsqX _ | fsqrt => exact Entry.fsqrt _
  | fsqrtX => exact Entry.fsqrtX _ | fdiv => exact Entry.fdiv _ | fdivX => exact Entry.fdivX _
  | fex2 => exact Entry.fex2 _ | fex2X => exact Entry.fex2X _ | flg2 => exact Entry.flg2 _
  | flg2X => exact Entry.flg2X _ | fscale => exact Entry.fscale _ | fscaleX => exact Entry.fscaleX _
  | cvt => exact Entry.cvt _ | quant => exact Entry.quant _ | dqnt => exact Entry.dqnt _ | skey => exact Entry.skey _
  | skeyX => exact Entry.skeyX _ | lshuf => exact Entry.lshuf _ | lshufX => exact Entry.lshufX _
  | lbcast => exact Entry.lbcast _ | lbcastX => exact Entry.lbcastX _ | lvote => exact Entry.lvote _
  | lvoteX => exact Entry.lvoteX _ | lread => exact Entry.lread _ | lwrite => exact Entry.lwrite _
  | gred => exact Entry.gred _ | gscan => exact Entry.gscan _ | pand => exact Entry.pand _
  | pandX => exact Entry.pandX _ | por => exact Entry.por _ | porX => exact Entry.porX _ | pxor => exact Entry.pxor _
  | pxorX => exact Entry.pxorX _ | pset => exact Entry.pset _ | pget => exact Entry.pget _
  | pgetX => exact Entry.pgetX _ | vrot => exact Entry.vrot _ | ld => exact Entry.ld _ | st => exact Entry.st _
  | ldl => exact Entry.ldl _ | stl => exact Entry.stl _ | lds => exact Entry.lds _ | sts => exact Entry.sts _
  | atom => exact Entry.atom _ | atoml => exact Entry.atoml _ | fence => exact Entry.fence _
  | pfetch => exact Entry.pfetch _ | cwb => exact Entry.cwb _ | cinv => exact Entry.cinv _
  | stmap => exact Entry.stmap _ | stunmap => exact Entry.stunmap _ | stsync => exact Entry.stsync _
  | ptst => exact Entry.ptst _ | xstrm => exact Entry.xstrm _ | xstrmGet => exact Entry.xstrmGet _
  | xmma => exact Entry.xmma _ | xmmac => exact Entry.xmmac _ | ximma => exact Entry.ximma _
  | xzero => exact Entry.xzero _ | xexp => exact Entry.xexp _ | xnorm => exact Entry.xnorm _
  | xgrd => exact Entry.xgrd _ | xrd => exact Entry.xrd _ | xwr => exact Entry.xwr _ | xflush => exact Entry.xflush _
  | xrun => exact Entry.xrun _ | xpoll => exact Entry.xpoll _ | xkill => exact Entry.xkill _
  | cpy => exact Entry.cpy _ | cpyt => exact Entry.cpyt _ | cpynd => exact Entry.cpynd _ | cpyg => exact Entry.cpyg _
  | cpys => exact Entry.cpys _ | cpyw => exact Entry.cpyw _ | rinit => exact Entry.rinit _
  | rwait => exact Entry.rwait _ | rrel => exact Entry.rrel _ | rpost => exact Entry.rpost _
  | rtail => exact Entry.rtail _ | cqry => exact Entry.cqry _ | bar => exact Entry.bar _ | barX => exact Entry.barX _
  | bara => exact Entry.bara _ | baraX => exact Entry.baraX _ | barw => exact Entry.barw _
  | barwX => exact Entry.barwX _ | bard => exact Entry.bard _ | bardX => exact Entry.bardX _
  | tbinit => exact Entry.tbinit _ | tbexp => exact Entry.tbexp _ | tbarr => exact Entry.tbarr _
  | tbwait => exact Entry.tbwait _ | give => exact Entry.give _ | giveX => exact Entry.giveX _
  | claim => exact Entry.claim _ | claimX => exact Entry.claimX _ | qend => exact Entry.qend _
  | qseal => exact Entry.qseal _ | twtime => exact Entry.twtime _ | yield => exact Entry.yield _
  | rotcfg => exact Entry.rotcfg _ | psh => exact Entry.psh _ | pop => exact Entry.pop _
  | pstat => exact Entry.pstat _ | lsnd => exact Entry.lsnd _ | lrcv => exact Entry.lrcv _
  | lradd => exact Entry.lradd _ | trins => exact Entry.trins _ | trdrw => exact Entry.trdrw _
  | trupd => exact Entry.trupd _ | trtot => exact Entry.trtot _ | trwgt => exact Entry.trwgt _
  | trcfg => exact Entry.trcfg _ | trap => exact Entry.trap _ | hret => exact Entry.hret _
  | sysrd => exact Entry.sysrd _ | syswr => exact Entry.syswr _ | wake => exact Entry.wake _
  | gate => exact Entry.gate _ | halt => exact Entry.halt _ | bkpt => exact Entry.bkpt _
  | jobarm => exact Entry.jobarm _ | jobdone => exact Entry.jobdone _ | jobyld => exact Entry.jobyld _
  | susp => exact Entry.susp _ | fltrply => exact Entry.fltrply _
  | _ => intro r hr; cases hr

end Sys2Proof.Laws

namespace Sys2Proof

section
variable {w x : Word32} {e : OpEntry}

theorem decodeWords_short {f : SW → Instr} (he : opEntry (wE w) (wOp w) = some e) (hL : wL w = 0#1)
    (hf : e.short = some f) : decodeWords w x = .ok (f (toSW w)) := by
  simp [decodeWords, he, hL, hf]
theorem decodeWords_extX {f : XW → Instr} (he : opEntry (wE w) (wOp w) = some e) (hL : wL w = 1#1)
    (hf : e.long = .x f) : decodeWords w x = .ok (f (toXW w x)) := by
  simp [decodeWords, he, hL, hf]
theorem decodeWords_extK {f : KW → Instr} (he : opEntry (wE w) (wOp w) = some e) (hL : wL w = 1#1)
    (hf : e.long = .k f) : decodeWords w x = .ok (f (toKW w x)) := by
  simp [decodeWords, he, hL, hf]

end

/-- Settles O49. The map's entry for the word's row fits it (`entry_statement`): what the encoder packs, the decoder
unpacks, and the entry builds the word from the same fields. -/
theorem decodeOfEncode : Obligations.DecodeOfEncode := by
  unfold Obligations.DecodeOfEncode
  intro i bs hrow hwf
  obtain ⟨r, hr⟩ := Option.isSome_iff_exists.mp hrow
  obtain ⟨e, he, fits⟩ := Laws.entry_statement i r hr hwf
  unfold Laws.Fits at fits
  split at fits
  all_goals
    obtain ⟨f, w, hf, rfl, hflds⟩ := fits
    have names : (f w).Names (BitVec.ofNat 3 r.eng) (BitVec.ofNat 7 r.op) w.flds := ⟨r, hr, rfl, rfl, hflds.symm⟩
  case h_1 =>
    rw [encodeBytes, encode_short names]
    refine decode_short (wL_packWord ..) ?_ bs
    rw [decodeWords_short (by rwa [wE_packWord, wOp_packWord]) (wL_packWord ..) hf, toSW_packWord]
  case h_2 =>
    rw [encodeBytes, encode_extX names]
    refine decode_long (wL_packWord ..) ?_ bs
    rw [decodeWords_extX (by rwa [wE_packWord, wOp_packWord]) (wL_packWord ..) hf, toXW_pack]
  case h_3 =>
    rw [encodeBytes, encode_extK names]
    refine decode_long (wL_packWord ..) ?_ bs
    rw [decodeWords_extK (by rwa [wE_packWord, wOp_packWord]) (wL_packWord ..) hf, toKW_pack]

end Sys2Proof
end

section
/-!
PROOFS. Branches, calls and loops (O3).
-/
namespace Sys2Proof.Machine

/-! ### Where a branch goes (R94, R106) -/

section
variable {c : Cur} {s t : State} {next : Nat}

/-- The wrap at 64 bits keeps a multiple of 4. -/
theorem cut64_mod_four {x : Int} (h : x % 4 = 0) : cut 64 x % 4 = 0 := by
  unfold cut
  omega

/-- From an aligned word, a label is aligned. -/
theorem labelAt_aligned (hpc : c.w.pc.toNat % 4 = 0) (f : Flds) : labelAt f c % 4 = 0 :=
  cut64_mod_four (by omega)

theorem past_aligned (hpc : c.w.pc.toNat % 4 = 0) : past c 8 % 4 = 0 := by
  unfold past
  omega

/-- A branch to an aligned address moves the issuing slot there. -/
theorem branchTo_aligned (h : next % 4 = 0) : branchTo c next s t = .done (resolve c next t) :=
  if_neg (not_not_intro h)

/-- A branch to any other address traps before any change. -/
theorem branchTo_misaligned (h : next % 4 ≠ 0) : branchTo c next s t = trapAs c clsMisalign 1 next s :=
  if_pos h

/-- BRC goes to its label where its register is not zero, or, with D set, where it is (R106). -/
theorem brcRes_eq (w : KW) : brcRes w.flds c s = branchTo c
    (if (if w.d = 1 then uread s c.g w.a.toNat = 0 else uread s c.g w.a.toNat ≠ 0) then labelAt w.flds c else past c 8)
    s s := by
  have d_eq : w.flds.d = 1 ↔ w.d = 1 := BitVec.toNat_inj (y := 1#7)
  refine congrArg (branchTo c · s s) (if_congr ?_ rfl rfl)
  rw [show w.flds.a = w.a.toNat from rfl]
  by_cases hd : w.d = 1
  · simp [d_eq.mpr hd, hd]
  · rw [if_neg (mt d_eq.mp hd), if_neg hd, decide_eq_true_eq]

/-- ENDL at the last turn goes on past the loop (R107). -/
theorem endlRes_last {f : Flds} (h : uread s c.g f.d ≤ 1) :
    endlRes f c s = .done (resolve c (past c 8) (uwrite c f.d 0 s)) :=
  if_pos h

/-- ENDL at an earlier one goes back to its label with one turn less. -/
theorem endlRes_again {f : Flds} (h : 1 < uread s c.g f.d) :
    endlRes f c s = .done (resolve c (labelAt f c) (uwrite c f.d (uread s c.g f.d - 1) s)) :=
  if_neg (Nat.not_le.mpr h)

end

theorem branches_go : Obl.Branches := by
  unfold Obl.Branches
  intro c s label next hpc
  have label_eq (w : KW) : labelAt w.flds c = label w.imm := labelAt_flds w c
  have label_aligned (w : KW) : label w.imm % 4 = 0 := label_eq w ▸ labelAt_aligned hpc w.flds
  have next_aligned : next % 4 = 0 := past_aligned hpc
  have register (w : SW) (h : uread s c.g w.a.toNat % 4 = 0) : brxRes w.flds c (begun c s) =
      .done (resolve c (uread s c.g w.a.toNat) (begun c s)) := by
    rw [← uread_begun] at h ⊢
    exact branchTo_aligned h
  refine ⟨fun w => ?bra, fun w => ?brc, fun w h => does_of_done rfl (register w h),
    fun w h => does_of_done rfl (register w h), fun w => ?call, fun w => ?loop, fun w hn => ?last, fun w hn => ?again⟩
  case bra =>
    refine does_of_done rfl ?_
    rw [braRes, label_eq, branchTo_aligned (label_aligned w)]
  case brc =>
    refine does_of_done rfl ((brcRes_eq w).trans ?_)
    rw [label_eq, uread_begun]
    exact branchTo_aligned
      (iteInduction (motive := (· % 4 = 0)) (fun _ => label_aligned w) fun _ => next_aligned)
  case call =>
    refine does_of_done rfl ?_
    rw [callRes, label_eq, branchTo_aligned (label_aligned w)]
    rfl
  case loop =>
    refine does_of_done rfl ?_
    rw [← uread_begun c]
    rfl
  case last => exact does_of_done rfl (endlRes_last (by rwa [uread_begun]))
  case again =>
    refine does_of_done rfl ((endlRes_again (by rwa [uread_begun])).trans ?_)
    rw [label_eq, uread_begun]
    rfl

theorem branchTargetTraps : Obl.BranchTargetTraps := by
  unfold Obl.BranchTargetTraps
  intro c s w h
  have traps : brxRes w.flds c (begun c s) = trapAs c clsMisalign 1 (uread s c.g w.a.toNat) (begun c s) := by
    rw [← uread_begun] at h ⊢
    exact branchTo_misaligned h
  exact ⟨traps_of_trapAs rfl traps, traps_of_trapAs rfl traps⟩

/-- Settles O3. Labels and the address past a long word are aligned where the word is, so that only BRX and RET, whose
target is a register, can trap. -/
theorem branches : Obligations.Branches := ⟨branches_go, branchTargetTraps⟩

end Sys2Proof.Machine
end

section
/-!
PROOFS. The splitter's checks and the format of a saved word (O56, O57).
-/
namespace Sys2Proof.Machine

/-! ### The lowest cause (R75) -/

section
variable {i : Instr} {r : Row} {s : State} {g : Nat} (hr : i.row = some r)
include hr

theorem illop_reserved (h2 : r.cause2 i.flds = true) : illop s g i = some 2 := by
  simp [illop, hr, h2]

theorem illop_range (h2 : r.cause2 i.flds = false) (h3 : r.cause3 i.flds = true) : illop s g i = some 3 := by
  simp [illop, hr, h2, h3]

theorem illop_unallocated (h2 : r.cause2 i.flds = false) (h3 : r.cause3 i.flds = false)
    (h4 : r.cause4 i.flds (8 * (grp s g).blocks) = true) : illop s g i = some 4 := by
  simp [illop, hr, h2, h3, h4]

/-- A word whose fields are in order meets, if anything, a cause of the group's mode, of its modifier or of the group's
state. -/
theorem illop_fieldsOk (h2 : r.cause2 i.flds = false) (h3 : r.cause3 i.flds = false)
    (h4 : r.cause4 i.flds (8 * (grp s g).blocks) = false) : illop s g i =
      if privileged s g i then some 5 else if !r.modOk then some 6 else if stateBad s g i then some 7 else none := by
  simp [illop, hr, h2, h3, h4]

end

/-! ### What becomes of a word that the splitter has fetched (R75, R76) -/

@[simp] theorem grp_begun_nextSeq (c : Cur) (s : State) (g : Nat) :
    (grp (begun c s) g).nextSeq = (grp s g).nextSeq :=
  (congrArg Group.nextSeq (work_begun c s g) :)

@[simp] theorem isDet_begun (c : Cur) (s : State) (g : Nat) : isDet (begun c s) g = isDet s g := by
  simp only [isDet, launchOf_begun]

@[simp] theorem isDet_place (i : Instr) (c : Cur) (s : State) (g : Nat) : isDet (place i c s) g = isDet s g := rfl

/-- Placing a word takes its group's next sequence number. -/
theorem nextSeq_place (i : Instr) (c : Cur) (s : State) :
    (grp (place i c s) c.g).nextSeq = (grp s c.g).nextSeq + 1 := by
  rw [place, grp_modGrp]

/-- In normal mode no quantum closes as a word is placed. -/
theorem closeBefore_normal {i : Instr} {c : Cur} {s : State} (h : isDet s c.g = false) : closeBefore i c s = s :=
  if_neg (by simp [h])

/-- Every instruction word goes through the wrapper, with an effect of its own. -/
theorem exec_eq_word {i : Instr} {r : Row} (hr : i.row = some r) : ∃ body, ∀ s, exec i s = word i body s := by
  cases i <;> cases hr <;> exact ⟨_, fun _ => rfl⟩

section
variable {i : Instr} {body : Cur → State → Res} {c : Cur} {s : State}

/-- A word fetched for the first time, in a group that goes on, is taken from where its try begins. -/
theorem word_fetched (hcur : s.cur = some c) (hlive : stopped (begun c s) c.g = false) (hfirst : c.retry = false)
    (hseq : (grp s c.g).nextSeq ≤ c.w.seq) : word i body s = .next (takeWord i body c (begun c s)) := by
  have notBefore : ¬c.w.seq < (grp (begun c s) c.g).nextSeq := by
    rw [grp_begun_nextSeq]
    exact Nat.not_lt.mpr hseq
  rw [word_some hcur]
  unfold begun at hlive notBefore ⊢
  simp only [wordStep, hlive, hfirst, if_neg notBefore, Bool.false_eq_true, if_false]

/-- A word at the head of its queue that is guarded off and stops no fetch completes with no effect (R73). -/
theorem word_guardedOff (hcur : s.cur = some c) (hlive : stopped (begun c s) c.g = false) (hretry : c.retry = true)
    (hfree : startable i c (begun c s) = true) (hoff : guardedOff (begun c s) c i = true) (hstop : stopOf i = false) :
    word i body s = .next (finish c i (begun c s)) := by
  rw [word_some hcur]
  unfold begun at hlive hfree hoff ⊢
  simp only [wordStep, hlive, hretry, hfree, runWord, hoff, hstop, Bool.false_eq_true, if_false, if_true]

variable (hheld : heldBack s c.g i = false)
include hheld

/-- A word with a cause of R75 traps and is not placed. -/
theorem takeWord_illop {cause : Nat} (hi : illop s c.g i = some cause) :
    takeWord i body c s = raiseTrap c.g (trapRec s c i clsIllop cause 0 0) s := by
  simp [takeWord, hheld, hi]

/-- A word whose queue is full waits at the splitter. -/
theorem takeWord_full (hi : illop s c.g i = none) (hq : 8 ≤ queueLoad (grp s c.g) (engOf i)) :
    takeWord i body c s = s := by
  simp [takeWord, hheld, hi, hq]

/-- In normal mode a word that cannot start is placed at the tail of its queue. -/
theorem takeWord_enqueues (hn : isDet s c.g = false) (hi : illop s c.g i = none)
    (hq : queueLoad (grp s c.g) (engOf i) < 8) (hs : startable i c (place i c s) = false) :
    takeWord i body c s = enqueue i c (place i c s) := by
  have same : closeBefore i c (place i c s) = place i c s := closeBefore_normal hn
  simp [takeWord, hheld, hi, Nat.not_le.mpr hq, same, hs]

end

/-- Settles O56. Every word runs through the wrapper (`exec_eq_word`), which is followed from the fetch to the trap, the
queue or the wait at the splitter. -/
theorem splitterChecks : Obligations.SplitterChecks := by
  unfold Obligations.SplitterChecks
  intro i c s r hcur hr hlive
  obtain ⟨body, he⟩ := exec_eq_word hr
  refine ⟨fun hfirst hseq hheld => ?_, fun hretry hfree hoff hstop => ?_⟩
  · have fetched : exec i s = .next (takeWord i body c (begun c s)) :=
      (he s).trans (word_fetched hcur hlive hfirst hseq)
    refine ⟨fun cause hi => ?_, illop_reserved hr, illop_range hr, illop_unallocated hr, fun h2 h3 h4 => ?_,
      fun hn hi hq => ?_, fun hi hq => ?_⟩
    · rw [fetched, takeWord_illop hheld hi]; rfl
    · rw [illop_fieldsOk hr h2 h3 h4]
      refine ⟨fun h5 => ?_, fun h5 => ⟨fun h6 => ?_, fun h6 h7 => ?_, fun h6 h7 => ?_⟩⟩
      · simp [h5]
      · simp [h5, h6]
      · simp [h5, h6, h7]
      · simp [h5, h6, h7]
    · refine ⟨(nextSeq_place ..).trans (by rw [grp_begun_nextSeq]), fun hs => ?_⟩
      rw [fetched, takeWord_enqueues hheld (by rwa [isDet_begun]) hi hq hs]
    · rw [fetched, takeWord_full hheld hi hq]
  · exact (he s).trans (word_guardedOff hcur hlive hretry hfree hoff hstop)

/-! ### Saved words (R85) -/

/-- Settles O57. The number is its fields, each a multiple of the place where it begins. -/
theorem savedWordFormat : Obligations.SavedWordFormat := by
  unfold Obligations.SavedWordFormat
  intro w hslot
  have hpc : w.pc.toNat < 2 ^ 64 := w.pc.isLt
  simp only [savedWord, nbits, Nat.shiftRight_eq_div_pow]
  refine ⟨?_, ?_, ?_, ?_, ?_⟩ <;> omega

end Sys2Proof.Machine
end

section
/-!
PROOFS. Uniform arithmetic, moves, compares and special registers (O1, O2).
-/
namespace Sys2Proof.Machine

/-! ### What more the begin of a try leaves as it is (R29, R33) -/

section
variable (c : Cur) (s : State) (g : Nat)

@[simp] theorem grp_begun_handler : (grp (begun c s) g).handler = (grp s g).handler :=
  (congrArg Group.handler (work_begun c s g) :)
@[simp] theorem tread_begun (n : Nat) : tread (begun c s) g n = tread s g n := by
  simp only [tread, team_begun]
@[simp] theorem pairOf_begun : pairOf (begun c s) g = pairOf s g := by
  simp only [pairOf, coreOf, team_begun, halfOf_begun]
@[simp] theorem sOperandB_begun (f : Flds) (imm : Bool) : sOperandB (begun c s) g f imm = sOperandB s g f imm := by
  simp only [sOperandB, uread_begun]

end

/-! ### Operands and results of uniform arithmetic (R100, R101) -/

/-- A short word has no modifier. -/
theorem flds_m_short (w : SW) (n : Nat) : w.flds.m n = false :=
  Nat.zero_testBit n

theorem sOperandB_extX (s : State) (g : Nat) (w : XW) (imm : Bool) :
    sOperandB s g w.flds imm = if imm then cut 64 w.imm.toInt else uread s g w.b.toNat := by
  rw [sOperandB, show w.flds.i12 = w.imm.toInt from sx_toNat w.imm]
  rfl

theorem floorShift_eq_div (x : Int) (k : Nat) : floorShift x k = x / 2 ^ k := by
  rw [floorShift, Nat.cast_pow, Nat.cast_ofNat]

/-- The S-ALU opcode `op` gives the exact result `fn`, saturated where MOD asks for it and cut to 64 bits. -/
def AluGives (op : Nat) (fn : Bool → Nat → Nat → Int) : Prop :=
  ∀ (f : Flds) (a b : Nat), sAluVal op f a b = cut 64 (Obl.satS (f.m 1) (f.m 2) (fn (f.m 1) a b))

theorem aluGives_mulHigh : AluGives 0x07 fun u a b => Obl.rdS u a * Obl.rdS u b / 2 ^ 64 := fun f _ _ =>
  congrArg (fun r => cut 64 (Obl.satS (f.m 1) (f.m 2) r)) (floorShift_eq_div _ 64)

/-- Both forms of an S-ALU word write the exact result of its opcode; the short form as one without a modifier. -/
theorem scalarAlu_of_aluGives (op : Nat) {short : SW → Instr} {long : XW → Instr} {fn : Bool → Nat → Nat → Int}
    (hshort : ∀ w s, exec (short w) s = word (short w) (salu op w.flds) s)
    (hlong : ∀ w s, exec (long w) s = word (long w) (salu op w.flds) s)
    (hval : AluGives op fn) : Obl.ScalarAlu short long fn := by
  intro c s
  refine ⟨fun w => does_of_done (hshort w s) ?_, fun w => does_of_done (hlong w s) ?_⟩
  · simp only [salu, uread_begun, sOperandB_begun, hval _, flds_m_short]
    rfl
  · simp only [salu, uread_begun, hval _, sOperandB_extX]
    rfl

/-- Settles O1. Each of the twelve opcodes gives its exact result (`AluGives`), by the case of `sAluVal` for it, and the
operands are those where the try begins. -/
theorem scalarArithmetic : Obligations.ScalarArithmetic := by
  unfold Obligations.ScalarArithmetic
  refine ⟨?add, ?sub, ?mul, ?mulHigh, ?and, ?or, ?xor, ?shl, ?shr, ?sra, ?min, ?max⟩
  case add => exact scalarAlu_of_aluGives 0x04 (fun _ _ => rfl) (fun _ _ => rfl) fun _ _ _ => rfl
  case sub => exact scalarAlu_of_aluGives 0x05 (fun _ _ => rfl) (fun _ _ => rfl) fun _ _ _ => rfl
  case mul => exact scalarAlu_of_aluGives 0x06 (fun _ _ => rfl) (fun _ _ => rfl) fun _ _ _ => rfl
  case mulHigh => exact scalarAlu_of_aluGives 0x07 (fun _ _ => rfl) (fun _ _ => rfl) aluGives_mulHigh
  case and => exact scalarAlu_of_aluGives 0x08 (fun _ _ => rfl) (fun _ _ => rfl) fun _ _ _ => rfl
  case or => exact scalarAlu_of_aluGives 0x09 (fun _ _ => rfl) (fun _ _ => rfl) fun _ _ _ => rfl
  case xor => exact scalarAlu_of_aluGives 0x0a (fun _ _ => rfl) (fun _ _ => rfl) fun _ _ _ => rfl
  case shl => exact scalarAlu_of_aluGives 0x0b (fun _ _ => rfl) (fun _ _ => rfl) fun _ _ _ => rfl
  case shr => exact scalarAlu_of_aluGives 0x0c (fun _ _ => rfl) (fun _ _ => rfl) fun _ _ _ => rfl
  case sra => exact scalarAlu_of_aluGives 0x0d (fun _ _ => rfl) (fun _ _ => rfl) fun _ _ _ => rfl
  case min => exact scalarAlu_of_aluGives 0x0e (fun _ _ => rfl) (fun _ _ => rfl) fun _ _ _ => rfl
  case max => exact scalarAlu_of_aluGives 0x0f (fun _ _ => rfl) (fun _ _ => rfl) fun _ _ _ => rfl

/-! ### Immediates, compares and selects (R102, R103) -/

section
variable (c : Cur) (s : State)

theorem sliRes_begun (w : KW) :
    sliRes w.flds c (begun c s) = .done (uwrite c w.d.toNat (cut 64 w.imm.toInt) (begun c s)) := by
  rw [sliRes, show w.flds.i23 = w.imm.toInt from sx_toNat w.imm]
  rfl

theorem slihRes_begun (w : KW) : slihRes w.flds c (begun c s) =
    .done (uwrite c w.d.toNat (slihVal (uread s c.g w.d.toNat) w.b.toNat w.imm.toNat) (begun c s)) := by
  rw [slihRes, uread_begun]
  rfl

/-- C = 1 as a number is C = 1 as a field. -/
theorem flds_c_eq_one (w : XW) : w.flds.c = 1 ↔ w.c = 1 :=
  BitVec.toNat_inj (y := 1#7)

theorem scmpRes_begun (w : XW) : scmpRes w.flds c (begun c s) =
    .done (uwrite c w.d.toNat
      (b2n (condInt (w.mod.toNat % 8) (Obl.rdS (w.mod.getLsbD 3) (uread s c.g w.a.toNat))
        (Obl.rdS (w.mod.getLsbD 3) (if w.c = 1 then cut 64 w.imm.toInt else uread s c.g w.b.toNat)))) (begun c s)) := by
  simp only [scmpRes, uread_begun, sOperandB_extX, decide_eq_true_eq, flds_c_eq_one]
  rfl

theorem sselRes_begun (w : XW) : sselRes w.flds c (begun c s) =
    .done (uwrite c w.d.toNat
      (if uread s c.g w.c.toNat ≠ 0 then uread s c.g w.a.toNat else uread s c.g w.b.toNat) (begun c s)) := by
  simp only [sselRes, uread_begun]
  rfl

end

/-! ### Moves between uniform and team registers (R36, R104) -/

section
variable {c : Cur} {t : State} {f : Flds}

/-- What SMOV reads: in deterministic mode a team register with the group's own writes that have not committed. -/
def smovSource (f : Flds) (c : Cur) (s : State) : Nat :=
  if isDet s c.g && 64 ≤ f.a then (ownTeamWrite s c.g c.w.seq (f.a - 64)).getD (tread s c.g (f.a - 64))
  else stRead s c.g f.a

theorem smovSource_uniform (ha : f.a < 64) : smovSource f c t = uread t c.g f.a := by
  simp [smovSource, stRead, ha]

theorem smovSource_team_normal (hn : isDet t c.g = false) (ha : 64 ≤ f.a) :
    smovSource f c t = tread t c.g (f.a - 64) := by
  simp [smovSource, stRead, hn, ha]

theorem smovSource_team_det (hd : isDet t c.g = true) (ha : 64 ≤ f.a) :
    smovSource f c t = (ownTeamWrite t c.g c.w.seq (f.a - 64)).getD (tread t c.g (f.a - 64)) := by
  simp [smovSource, hd, ha]

theorem smovGo_toUniform (h : f.d < 64) : smovGo f c t = uwrite c f.d (smovSource f c t) t := by
  simp [smovGo, smovSource, stWrite, h]

theorem smovGo_toTeam_normal (hn : isDet t c.g = false) (h : 64 ≤ f.d) :
    smovGo f c t = jw c (.t (tkOf c.g) (f.d - 64)) (.set (.num (smovSource f c t))) t := by
  simp [smovGo, smovSource, stWrite, hn, h]

/-- In deterministic mode the pair holds a team-register write until the commit of its quantum. -/
theorem smovGo_toTeam_det (hd : isDet t c.g = true) (h : 64 ≤ f.d) : smovGo f c t =
    modPair t (pairOf t c.g) fun P => { P with tw := P.tw ++ [⟨c.g, c.w.seq, f.d - 64, smovSource f c t⟩] } := by
  simp [smovGo, smovSource, hd, h]

theorem epochWait_normal (hn : isDet t c.g = false) (own : Nat × Nat × Nat) : epochWait t c own = false := by
  simp [epochWait, hn]

/-- SMOV is done at once unless it reads a team register and must wait for an epoch. -/
theorem smovRes_done (h : f.a < 64 ∨ epochWait t c (0, 0, 0) = false) : smovRes f c t = .done (smovGo f c t) := by
  refine if_neg ?_
  rcases h with ha | hw
  · simp [Nat.not_le.mpr ha]
  · simp [hw]

/-- SMOV from a team register stays in flight where its quantum is not known yet and no handler keeps it from being. -/
theorem smovRes_flies (hd : f.d < 64) (ha : 64 ≤ f.a) (hw : epochWait t c (0, 0, 0) = true)
    (hq : quantumSure t c (0, 0, 0) = false) (hh : handlerStuck t c.g = false) :
    smovRes f c t = .fly (lateFlight c (.u f.d)) t := by
  simp [smovRes, hd, ha, hw, hq, hh]

end

/-! ### Special registers (R27, R105) -/

section
variable {c : Cur} {t : State} {f : Flds}

/-- SRD must wait: it reads QNUM in deterministic mode, outside a handler, before its quantum is known. -/
def qnumLate (f : Flds) (c : Cur) (s : State) : Prop :=
  f.a = 13 ∧ isDet s c.g = true ∧ (grp s c.g).handler.isNone = true ∧ quantumSure s c (0, 0, 0) = false

theorem qnumLate_iff : (f.a = 13 && isDet t c.g && (grp t c.g).handler.isNone && !quantumSure t c (0, 0, 0)) = true ↔
    qnumLate f c t := by
  simp only [qnumLate, Bool.and_eq_true, decide_eq_true_eq, Bool.not_eq_true', and_assoc]

theorem srdRes_flies (h : qnumLate f c t) : srdRes f c t = .fly (lateFlight c (.u f.d)) t :=
  if_pos (qnumLate_iff.mpr h)

/-- SRD of register 0 gives each active lane its number. -/
theorem srdRes_lanes (h : f.a = 0) :
    srdRes f c t = .done (vwriteLanes c f.d ((laneList t c f).map fun l => (l, l)) t) := by
  have now : ¬qnumLate f c t := fun ⟨ha, _⟩ => by omega
  exact (if_neg (mt qnumLate_iff.mp now)).trans (if_pos h)

theorem srdRes_uniform (now : ¬qnumLate f c t) (h : f.a ≠ 0) :
    srdRes f c t = .done (uwrite c f.d (special t c f.a) t) :=
  (if_neg (mt qnumLate_iff.mp now)).trans (if_neg h)

end

/-- Settles O2. SMOV is what it reads (`smovSource`) put where its D says (`smovGo_toUniform`, `smovGo_toTeam_normal`,
`smovGo_toTeam_det`), at once or once its quantum is known; SRD waits for its quantum exactly where `qnumLate` holds. -/
theorem scalarMoves : Obligations.ScalarMoves := by
  unfold Obligations.ScalarMoves
  intro c s
  refine ⟨fun w => does_of_done rfl (sliRes_begun c s w), fun w => does_of_done rfl (slihRes_begun c s w),
    fun w => does_of_done rfl (scmpRes_begun c s w), fun w => does_of_done rfl (sselRes_begun c s w),
    fun w hd ha => ?uniform, fun w hn hd ha => ?toTeam, fun w hdet hd ha => ?toTeamDet, fun w hn hd ha => ?fromTeam,
    fun w hdet hd ha hw => ?fromTeamDet, fun w hd ha hw hq hh => ?late, fun w ha => ?lanes, fun w ha hq => ?special,
    fun w ha hdet hh hq => ?qnum⟩
  case uniform =>
    refine does_of_done rfl ((smovRes_done (.inl ha)).trans ?_)
    rw [smovGo_toUniform hd, smovSource_uniform ha, uread_begun]
    rfl
  case toTeam =>
    refine does_of_done rfl ((smovRes_done (.inl ha)).trans ?_)
    rw [smovGo_toTeam_normal (by rwa [isDet_begun]) hd, smovSource_uniform ha, uread_begun]
    rfl
  case toTeamDet =>
    refine does_of_done rfl ((smovRes_done (.inl ha)).trans ?_)
    rw [smovGo_toTeam_det (by rwa [isDet_begun]) hd, smovSource_uniform ha, uread_begun, pairOf_begun]
    rfl
  case fromTeam =>
    have normal : isDet (begun c s) c.g = false := by rwa [isDet_begun]
    refine does_of_done rfl ((smovRes_done (.inr (epochWait_normal normal _))).trans ?_)
    rw [smovGo_toUniform hd, smovSource_team_normal normal ha, tread_begun]
    rfl
  case fromTeamDet =>
    refine does_of_done rfl ((smovRes_done (.inr hw)).trans ?_)
    rw [smovGo_toUniform hd, smovSource_team_det (by rwa [isDet_begun]) ha, tread_begun]
    rfl
  case late => exact flies_of_fly rfl (smovRes_flies hd ha hw hq hh)
  case lanes =>
    refine does_of_done rfl ((srdRes_lanes (congrArg BitVec.toNat ha)).trans ?_)
    rw [laneList_begun]
    rfl
  case special =>
    have notLate : ¬qnumLate w.flds c (begun c s) := by
      rintro ⟨h13, hdet, hnone, hnot⟩
      rw [isDet_begun] at hdet
      rw [grp_begun_handler] at hnone
      rcases hq (BitVec.eq_of_toNat_eq h13) with hn | hsome | hsure
      · simp [hn] at hdet
      · simp [Option.isNone_iff_eq_none.mp hnone] at hsome
      · simp [hsure] at hnot
    exact does_of_done rfl (srdRes_uniform notLate (mt (BitVec.eq_of_toNat_eq (y := 0#7)) ha))
  case qnum =>
    refine flies_of_fly rfl (srdRes_flies ⟨congrArg BitVec.toNat ha, ?_, ?_, hq⟩)
    · rwa [isDet_begun]
    · rwa [grp_begun_handler]

end Sys2Proof.Machine
end

section
/-!
PROOFS. Lane arithmetic: integer and floating-point words, conversions, block quantisation and sort keys (O5, O6, O8).
-/
namespace Sys2Proof.Machine

/-! ### The width where a try begins -/

@[simp] theorem widthOf_begun (c : Cur) (s : State) (g : Nat) : widthOf (begun c s) g = widthOf s g := by
  simp only [widthOf, launchOf_begun]

/-! ### Where the results of a lane word go (R73, R116) -/

section
variable {i : Instr} {f : Flds}

/-- A word that gives each active lane a value does so from the registers that its try finds. -/
theorem perLane_of_laneWord {wide : Bool} {fn : State → Nat → Nat → Nat}
    (he : ∀ s, exec i s = word i (laneWord wide f fn) s) : Obl.PerLane i wide f.d f fn := by
  intro c s
  refine does_of_done (he s) ?_
  rw [laneWord, eachLane, laneList_begun]

/-- A word that writes a predicate writes its bit of each active lane. -/
theorem perPred_of_predWord {fn : State → Nat → Nat → Bool}
    (he : ∀ s, exec i s = word i (predWord f fn) s) : Obl.PerPred i f fn := by
  intro c s
  refine does_of_done (he s) ?_
  rw [predWord, laneList_begun]

end

/-! ### Integer words (R120 to R123) -/

/-- A two-source integer word gives the exact result of its opcode. -/
theorem intPair_of_int2 {i : Instr} {f : Flds} {op : Nat} (he : ∀ s, exec i s = word i (int2 op f) s) :
    Obl.IntPair i f (intVal op) := by
  unfold Obl.IntPair
  exact perLane_of_laneWord he

/-- Both forms of a two-source integer word give the exact result of its opcode. -/
theorem intTwo_of_intVal (op : Nat) {short : SW → Instr} {long : XW → Instr} {fn : Nat → Nat → Nat → Int}
    (hshort : ∀ w s, exec (short w) s = word (short w) (int2 op w.flds) s)
    (hlong : ∀ w s, exec (long w) s = word (long w) (int2 op w.flds) s)
    (hval : intVal op = fn) : Obl.IntTwo short long fn := by
  subst hval
  exact ⟨fun w => intPair_of_int2 (hshort w), fun w => intPair_of_int2 (hlong w)⟩

/-- Both forms of a one-source integer word give the exact result of its opcode. -/
theorem intOne_of_intVal1 (op : Nat) {short : SW → Instr} {long : XW → Instr} {fn : Flds → Nat → Nat → Int}
    (hshort : ∀ w s, exec (short w) s = word (short w) (int1 op w.flds) s)
    (hlong : ∀ w s, exec (long w) s = word (long w) (int1 op w.flds) s)
    (hval : intVal1 op = fn) : Obl.IntOne short long fn := by
  subst hval
  exact ⟨fun w => perLane_of_laneWord (hshort w), fun w => perLane_of_laneWord (hlong w)⟩

/-- The operand of the chosen register is the chosen one of the two operands. -/
theorem laneRaw_ite (s : State) (g l : Nat) (wide p : Bool) (a b : Nat) :
    laneRaw s g wide (if p then a else b) l = if p then laneRaw s g wide a l else laneRaw s g wide b l :=
  apply_ite (laneRaw s g wide · l) (p = true) a b

/-- Settles O5. Each opcode gives its exact result, by the case of `intVal` or `intVal1` for it; every active lane takes
it, as its type, from the operands that the try finds (`perLane_of_laneWord`). -/
theorem laneIntegers : Obligations.LaneIntegers := by
  unfold Obligations.LaneIntegers
  refine ⟨?add, ?sub, ?mul, ?mulHigh, ?and, ?or, ?xor, ?shl, ?shr, ?sra, ?min, ?max, ?abs, ?leadingZeros, ?ones,
    ?reverse, ?move, ?multiplyAdd, ?extract, ?insert, ?select, ?immediate⟩
  case add => exact intTwo_of_intVal 0x01 (fun _ _ => rfl) (fun _ _ => rfl) rfl
  case sub => exact intTwo_of_intVal 0x02 (fun _ _ => rfl) (fun _ _ => rfl) rfl
  case mul => exact intTwo_of_intVal 0x03 (fun _ _ => rfl) (fun _ _ => rfl) rfl
  case mulHigh => exact intTwo_of_intVal 0x04 (fun _ _ => rfl) (fun _ _ => rfl) rfl
  case and => exact intTwo_of_intVal 0x06 (fun _ _ => rfl) (fun _ _ => rfl) rfl
  case or => exact intTwo_of_intVal 0x07 (fun _ _ => rfl) (fun _ _ => rfl) rfl
  case xor => exact intTwo_of_intVal 0x08 (fun _ _ => rfl) (fun _ _ => rfl) rfl
  case shl => exact intTwo_of_intVal 0x09 (fun _ _ => rfl) (fun _ _ => rfl) rfl
  case shr => exact intTwo_of_intVal 0x0a (fun _ _ => rfl) (fun _ _ => rfl) rfl
  case sra => exact intTwo_of_intVal 0x0b (fun _ _ => rfl) (fun _ _ => rfl) rfl
  case min => exact intTwo_of_intVal 0x0c (fun _ _ => rfl) (fun _ _ => rfl) rfl
  case max => exact intTwo_of_intVal 0x0d (fun _ _ => rfl) (fun _ _ => rfl) rfl
  case abs => exact intOne_of_intVal1 0x0e (fun _ _ => rfl) (fun _ _ => rfl) rfl
  case leadingZeros => exact intOne_of_intVal1 0x0f (fun _ _ => rfl) (fun _ _ => rfl) rfl
  case ones => exact intOne_of_intVal1 0x10 (fun _ _ => rfl) (fun _ _ => rfl) rfl
  case reverse => exact intOne_of_intVal1 0x11 (fun _ _ => rfl) (fun _ _ => rfl) rfl
  case move => exact intOne_of_intVal1 0x15 (fun _ _ => rfl) (fun _ _ => rfl) rfl
  case multiplyAdd => exact fun w => perLane_of_laneWord fun _ => rfl
  case extract => exact fun w => perLane_of_laneWord fun _ => rfl
  case insert => exact fun w => perLane_of_laneWord fun _ => rfl
  case select =>
    intro w
    refine perLane_of_laneWord fun s => ?_
    simp only [laneRaw_ite]
    rfl
  case immediate => exact fun w => perLane_of_laneWord fun _ => rfl

/-! ### Floating-point words (R125 to R127) -/

/-- Both forms of a two-source floating word give the result of its opcode, rounded once. -/
theorem floatTwo_of_floatVal (op : Nat) {short : SW → Instr} {long : XW → Instr} {fn : Fmt → Nat → Nat → Nat → Nat}
    (hshort : ∀ w s, exec (short w) s = word (short w) (float2 op w.flds) s)
    (hlong : ∀ w s, exec (long w) s = word (long w) (float2 op w.flds) s)
    (hval : floatVal op = fn) : Obl.FloatTwo short long fn := by
  subst hval
  exact ⟨fun w => perLane_of_laneWord (hshort w), fun w => perLane_of_laneWord (hlong w)⟩

/-- Both forms of a one-source floating word give the result of its opcode. -/
theorem floatOne_of_floatVal1 (op : Nat) {short : SW → Instr} {long : XW → Instr} {fn : Fmt → Nat → Nat}
    (hshort : ∀ w s, exec (short w) s = word (short w) (float1 op w.flds) s)
    (hlong : ∀ w s, exec (long w) s = word (long w) (float1 op w.flds) s)
    (hval : floatVal1 op = fn) : Obl.FloatOne short long fn := by
  subst hval
  exact ⟨fun w => perLane_of_laneWord (hshort w), fun w => perLane_of_laneWord (hlong w)⟩

/-- Settles O6. As for the integer words, with the cases of `floatVal` and `floatVal1`; FSCALE and FFMA have effects of
their own. -/
theorem laneFloats : Obligations.LaneFloats := by
  unfold Obligations.LaneFloats
  refine ⟨?add, ?sub, ?mul, ?div, ?min, ?max, ?scale, ?reciprocal, ?recipSqrt, ?sqrt, ?exp2, ?log2, ?classify,
    ?multiplyAdd⟩
  case add => exact floatTwo_of_floatVal 0x20 (fun _ _ => rfl) (fun _ _ => rfl) rfl
  case sub => exact floatTwo_of_floatVal 0x21 (fun _ _ => rfl) (fun _ _ => rfl) rfl
  case mul => exact floatTwo_of_floatVal 0x22 (fun _ _ => rfl) (fun _ _ => rfl) rfl
  case div => exact floatTwo_of_floatVal 0x2b (fun _ _ => rfl) (fun _ _ => rfl) rfl
  case min => exact floatTwo_of_floatVal 0x24 (fun _ _ => rfl) (fun _ _ => rfl) rfl
  case max => exact floatTwo_of_floatVal 0x25 (fun _ _ => rfl) (fun _ _ => rfl) rfl
  case scale => exact ⟨fun w => perLane_of_laneWord fun _ => rfl, fun w => perLane_of_laneWord fun _ => rfl⟩
  case reciprocal => exact floatOne_of_floatVal1 0x28 (fun _ _ => rfl) (fun _ _ => rfl) rfl
  case recipSqrt => exact floatOne_of_floatVal1 0x29 (fun _ _ => rfl) (fun _ _ => rfl) rfl
  case sqrt => exact floatOne_of_floatVal1 0x2a (fun _ _ => rfl) (fun _ _ => rfl) rfl
  case exp2 => exact floatOne_of_floatVal1 0x2c (fun _ _ => rfl) (fun _ _ => rfl) rfl
  case log2 => exact floatOne_of_floatVal1 0x2d (fun _ _ => rfl) (fun _ _ => rfl) rfl
  case classify => exact floatOne_of_floatVal1 0x27 (fun _ _ => rfl) (fun _ _ => rfl) rfl
  case multiplyAdd => exact fun w => perLane_of_laneWord fun _ => rfl

/-! ### Conversions, block quantisation and sort keys (R128 to R132) -/

/-- Settles O8. CVT, DQNT and SKEY give each active lane its value; QUANT takes its blocks from the lanes, the width and
the registers that its try finds. -/
theorem laneConversions : Obligations.LaneConversions := by
  unfold Obligations.LaneConversions
  refine ⟨?convert, ?dequantise, ?quantise, ?keys⟩
  case convert => exact fun w => perLane_of_laneWord fun _ => rfl
  case dequantise => exact fun w => perLane_of_laneWord fun _ => rfl
  case quantise =>
    intro c s w f L block out
    refine does_of_done rfl ?_
    simp only [quantRes, laneList_begun, widthOf_begun]
    rfl
  case keys => exact ⟨fun w => perLane_of_laneWord fun _ => rfl, fun w => perLane_of_laneWord fun _ => rfl⟩

end Sys2Proof.Machine
end

section
/-!
PROOFS. Predicates, votes, exchange between lanes, reductions, scans and the rotation (O7, O58).
-/
namespace Sys2Proof.Machine

/-! ### Compares and predicate words (R124, R139) -/

theorem lanePredicates : Obl.LanePredicates := by
  unfold Obl.LanePredicates
  refine ⟨?icmp, ?fcmp, ?and, ?or, ?xor, ?set, ?get⟩
  case icmp => exact fun w => perPred_of_predWord fun _ => rfl
  case fcmp => exact fun w => perPred_of_predWord fun _ => rfl
  case and => exact ⟨fun w => perPred_of_predWord fun _ => rfl, fun w => perPred_of_predWord fun _ => rfl⟩
  case or => exact ⟨fun w => perPred_of_predWord fun _ => rfl, fun w => perPred_of_predWord fun _ => rfl⟩
  case xor => exact ⟨fun w => perPred_of_predWord fun _ => rfl, fun w => perPred_of_predWord fun _ => rfl⟩
  case set => exact fun w => perPred_of_predWord fun _ => rfl
  case get => exact ⟨fun w => perLane_of_laneWord fun _ => rfl, fun w => perLane_of_laneWord fun _ => rfl⟩

/-! ### Votes (R135) -/

/-- What LVOTE gives for MOD[1:0] = `k`: of the active lanes `act`, the predicate holds in `m`. -/
def voteVal (k act m : Nat) : Nat :=
  match k with
  | 0 => m
  | 1 => b2n (m ≠ 0)
  | 2 => b2n (m = act)
  | _ => popCount 64 m

/-- A word with the effect of LVOTE writes the vote of its active lanes. -/
theorem does_vote {i : Instr} {f : Flds} (he : ∀ s, exec i s = word i (lvoteRes f) s) (c : Cur) (s : State) :
    Does i c s (uwrite c f.d
      (voteVal (f.mod % 4) (activeLanes s c f) (activeLanes s c f &&& pread s c.g f.a)) (begun c s)) := by
  refine does_of_done (he s) ?_
  simp only [lvoteRes, activeLanes_begun, pread_begun]
  rfl

section
variable {i : Instr} {r : Row} (hr : i.row = some r) (hm : r.modOk = false)
include hr hm

/-- A word with a modifier code outside its row is not well formed (R75). -/
theorem wellFormed_of_modBad : i.wellFormed = false := by
  simp [Instr.wellFormed, hr, Row.staticCauses, hm]

/-- A word with a modifier code outside its row meets cause 6, or a lower one, in every state. -/
theorem illop_of_modBad (s : State) (g : Nat) : illop s g i ≠ none := by
  cases h2 : r.cause2 i.flds with
  | true => simp [illop_reserved hr h2]
  | false =>
  cases h3 : r.cause3 i.flds with
  | true => simp [illop_range hr h2 h3]
  | false =>
  cases h4 : r.cause4 i.flds (8 * (grp s g).blocks) with
  | true => simp [illop_unallocated hr h2 h3 h4]
  | false =>
    rw [illop_fieldsOk hr h2 h3 h4, hm]
    split <;> simp

end

/-- Settles O58. The vote is `voteVal` of the modifier's low bits; the short form has no guard and no modifier; a
modifier of 4 or more is outside LVOTE's row. -/
theorem voteWord : Obligations.VoteWord := by
  unfold Obligations.VoteWord
  intro c s w v act m
  have vote (k : Nat) (hk : w.flds.mod % 4 = k) :
      Does (.lvoteX w) c s (uwrite c w.d.toNat (voteVal k act m) (begun c s)) :=
    hk ▸ does_vote (fun _ => rfl) c s
  refine ⟨fun h => ?ballot, fun h => ?any, fun h => ?all, fun h => ?count, fun h => ?refused, ?short⟩
  case ballot => exact vote 0 (by rw [XW.flds, h]; rfl)
  case any => simpa [voteVal, b2n] using vote 1 (by rw [XW.flds, h]; rfl)
  case all => simpa [voteVal, b2n] using vote 2 (by rw [XW.flds, h]; rfl)
  case count => exact vote 3 (by rw [XW.flds, h]; rfl)
  case refused =>
    have bad : (entryLvote w.flds).modOk = false := decide_eq_false (Nat.not_lt.mpr h)
    exact ⟨wellFormed_of_modBad rfl bad, illop_of_modBad rfl bad s c.g⟩
  case short => exact does_vote (f := v.flds) (fun _ => rfl) c s

/-! ### Exchange between lanes, reductions and the rotation (R133, R134, R136 to R138, R140) -/

/-- The begin of a try keeps a group's blocks of lane registers and its rotating region, and where the region stands. -/
theorem rotation_begun (c : Cur) (s : State) (g : Nat) :
    (grp (begun c s) g).blocks = (grp s g).blocks ∧ (grp (begun c s) g).rotN = (grp s g).rotN ∧
      (grp (begun c s) g).rotL = (grp s g).rotL ∧ (grp (begun c s) g).rotP = (grp s g).rotP := by
  have work := work_begun c s g
  exact ⟨(congrArg Group.blocks work :), (congrArg Group.rotN work :), (congrArg Group.rotL work :),
    (congrArg Group.rotP work :)⟩

@[simp] theorem namedLane_begun (c : Cur) (s : State) (g : Nat) (f : Flds) :
    namedLane (begun c s) g f = namedLane s g f := by
  simp only [namedLane, uread_begun, widthOf_begun]

/-- LREAD writes what it reads in the lane that it names. -/
theorem lreadRes_begun (c : Cur) (s : State) (f : Flds) : lreadRes f c (begun c s) =
    .done (uwrite c f.d
      (if f.m 1 then vread64 (begun c s) c.g f.a (namedLane s c.g f)
       else if f.m 0 then cut 64 (sx 32 (vread (begun c s) c.g f.a (namedLane s c.g f)))
       else vread (begun c s) c.g f.a (namedLane s c.g f)) (begun c s)) := by
  simp only [lreadRes, unifWord, namedLane_begun]

theorem lwriteRes_active {c : Cur} {s : State} {f : Flds}
    (h : (activeLanes s c f).testBit (namedLane s c.g f) = true) :
    lwriteRes f c s = .done (putLanes c (f.m 0) f.d [(namedLane s c.g f, uread s c.g f.a)] s) :=
  if_pos h

theorem lwriteRes_inactive {c : Cur} {s : State} {f : Flds}
    (h : (activeLanes s c f).testBit (namedLane s c.g f) = false) : lwriteRes f c s = .done s :=
  if_neg (by simp [h])

/-- GRED's tree over the group's lanes (R56, R137). -/
def redTree (s : State) (c : Cur) (f : Flds) : Nat :=
  gtree (redOp (f.mod % 8) f.c) (widthLog (widthOf s c.g)) (redInputs s c f)

theorem gredRes_lanes {c : Cur} {s : State} {f : Flds} (h : f.m 3 = true) :
    gredRes f c s = .done (vwriteLanes c f.d (eachLane s c f fun _ => redTree s c f) s) :=
  if_pos h

theorem gredRes_uniform {c : Cur} {s : State} {f : Flds} (h : f.m 3 = false) : gredRes f c s =
    .done (uwrite c f.d (if f.c = 0 then cut 64 (sx 32 (redTree s c f)) else redTree s c f) s) :=
  if_neg (by simp [h])

theorem laneExchange : Obl.LaneExchange := by
  unfold Obl.LaneExchange
  refine ⟨?shuffle, ?broadcast, ?vote, ?named, ?rotate⟩
  case shuffle =>
    exact ⟨fun w => perLane_of_laneWord fun _ => rfl, fun w => perLane_of_laneWord fun _ => rfl⟩
  case broadcast =>
    exact ⟨fun w => perLane_of_laneWord fun _ => rfl, fun w => perLane_of_laneWord fun _ => rfl⟩
  case vote =>
    exact ⟨fun w => does_vote (f := w.flds) fun _ => rfl, fun w => does_vote (f := w.flds) fun _ => rfl⟩
  case named =>
    intro c s w f l
    refine ⟨?read, fun h => ?writeActive, fun h => ?writeInactive, ⟨fun h => ?reduceLanes, fun h => ?reduceUniform⟩,
      ?scan⟩
    case read => exact does_of_done rfl (lreadRes_begun c s f)
    case writeActive =>
      refine does_of_done rfl ((lwriteRes_active ?_).trans ?_)
      · rwa [activeLanes_begun, namedLane_begun]
      · rw [namedLane_begun, uread_begun]; rfl
    case writeInactive =>
      refine does_of_done rfl (lwriteRes_inactive ?_)
      rwa [activeLanes_begun, namedLane_begun]
    case reduceLanes =>
      refine does_of_done rfl ((gredRes_lanes h).trans ?_)
      rw [eachLane, laneList_begun, redTree, widthOf_begun]
    case reduceUniform =>
      refine does_of_done rfl ((gredRes_uniform h).trans ?_)
      rw [redTree, widthOf_begun]
    case scan =>
      refine does_of_done rfl ?_
      simp only [gscanRes, eachLane, laneList_begun, widthOf_begun]
      rfl
  case rotate =>
    intro c s w G base p s1 s2
    refine does_of_done rfl ?_
    obtain ⟨hb, hn, hl, hp⟩ := rotation_begun c s c.g
    simp only [vrotRes, hb, hn, hl, hp]
    rfl

/-- Settles O7. Predicates, shuffles and broadcasts give each active lane its value (`perPred_of_predWord`,
`perLane_of_laneWord`); LREAD, LWRITE, GRED and VROT have one equation for each case of their own effect, in the
registers, width and rotation that the try finds. That GSCAN makes every NaN of its FP32 result canonical is the model's
choice (log entry 80). -/
theorem predicatesAndExchange : Obligations.PredicatesAndExchange := ⟨lanePredicates, laneExchange⟩

end Sys2Proof.Machine
end

section
/-!
PROOFS. Global atomics (O10).
-/
namespace Sys2Proof.Machine

/-! ### The entries that a word holds (R150) -/

/-- Acquire and release events leave a word's entries as they are. -/
@[simp] theorem entriesOfWord_ordEvents (g : Nat) (f : Flds) (s : State) (h seq : Nat) :
    entriesOfWord (ordEvents g f s) h seq = entriesOfWord s h seq := by
  unfold ordEvents
  split <;> split <;> rfl

/-- An atomic's entry stands behind those that its word holds already. -/
theorem entriesOfWord_hold_atom (g seq op ty : Nat) (d : Option Nat) (lanes : List AtomLane) (acq rel low : Bool)
    (s : State) :
    entriesOfWord (hold g seq (.atom op ty d lanes acq rel) s low) g seq =
      entriesOfWord s g seq ++ [{ newEntry s g seq (.atom op ty d lanes acq rel) with low := low }] := by
  have buffer : (pair (hold g seq (.atom op ty d lanes acq rel) s low) (pairOf s g)).hb =
      (pair s (pairOf s g)).hb ++ [{ newEntry s g seq (.atom op ty d lanes acq rel) with low := low }] :=
    congrArg Pair.hb (pair_modPair ..)
  have here : pairOf (hold g seq (.atom op ty d lanes acq rel) s low) g = pairOf s g := rfl
  rw [entriesOfWord, here, buffer, List.filter_append]
  simp [entriesOfWord, newEntry, isGroupEntry]

section
variable {c : Cur} {s t : State} {f : Flds} {hits : List Hit}

/-- The entries of an atomic's lanes, one for each of some sectors. -/
def holdAtoms (c : Cur) (f : Flds) (hits : List Hit) (lanes : List AtomLane) (rel : Bool) (secs : List Nat)
    (s : State) : State :=
  secs.foldl (fun u sec => hold c.g c.w.seq
    (.atom f.mod f.aty (if f.anr then none else some f.d) (lanes.filter fun a => a.pa / 64 = sec) (isAcq f) rel) u
    ((hits.filter fun h => h.pa / 64 = sec).all (·.low))) s

/-- A word that has held an entry for a sector has entries in the buffer. -/
theorem entriesOfWord_holdAtoms {secs : List Nat} (hne : secs ≠ []) (lanes : List AtomLane) (rel : Bool) :
    entriesOfWord (holdAtoms c f hits lanes rel secs s) c.g c.w.seq ≠ [] := by
  obtain ⟨sec, rest, rfl⟩ := List.exists_cons_of_ne_nil hne
  refine foldl_keeps (P := fun u => entriesOfWord u c.g c.w.seq ≠ []) (fun u sec _ => ?_) rest ?_
  all_goals rw [entriesOfWord_hold_atom]; simp

/-! ### ATOM (R150 to R154) -/

/-- The lanes of an atomic that has not begun. -/
def atomLanesAt (c : Cur) (s : State) (f : Flds) : List (Nat × Nat) :=
  (laneList s c f).map fun l => (l, laneGlobal (begun c s) c.g f (atomSize f.aty) 0 l)

/-- An atomic of clear lanes holds their entries; then a word without a result is done, and one with a result waits
for them and closes its quantum. -/
theorem atomLanesRes_clear {own : Nat × Nat × Nat} {xs : List (Nat × Nat)} {reads : Bool} (addr : Nat → Nat)
    (h : Obl.Clear c s f (atomSize f.aty) .atomic false reads own xs hits t) (hne : hits ≠ [])
    (room : holdFull t c.g c.w.seq (hits.map fun h => h.pa / 64).dedup.length = none)
    (stuck : f.anr = false → handlerStuck t c.g = false) :
    atomLanesRes c f addr hits [] [] t =
      let held := ordEvents c.g f (holdAtoms c f hits (atomLanes t c f hits) (isRel f && wideScope t c.g f)
        (hits.map fun h => h.pa / 64).dedup t)
      if f.anr then .done held
      else .fly (heldFlight { c with w := markDone c.w [] } 2 (atomDests f)) (closeAfter c held) := by
  obtain ⟨-, -, fail, -⟩ := h.fresh
  have free : (!f.anr && !hits.isEmpty && handlerStuck t c.g) = false := by
    cases hn : f.anr
    · simp [stuck hn]
    · rfl
  have some_sector : (hits.map fun h => h.pa / 64).dedup ≠ [] := by simpa [List.dedup_eq_nil] using hne
  have some_entry : (entriesOfWord (ordEvents c.g f (holdAtoms c f hits (atomLanes t c f hits)
      (isRel f && wideScope t c.g f) (hits.map fun h => h.pa / 64).dedup t)) c.g c.w.seq).isEmpty = false := by
    rw [entriesOfWord_ordEvents]
    simpa using entriesOfWord_holdAtoms some_sector _ _
  have zeros : (if isCont t c.g then atomZeros c f [] t else t) = t := by
    have none_answered : atomZeros c f [] t = t := by cases hn : f.anr <;> simp [atomZeros, hn, countPois_zero]
    rw [none_answered, ite_self]
  rw [holdAtoms] at some_entry
  simp only [atomLanesRes, clear_noDevice h, clear_noPoison h, clear_allGood h, holdRoom_none room, free, zeros,
    List.map_nil, List.append_nil, ite_self, sortPois, List.foldr_nil, Bool.or_false, Bool.false_and,
    Bool.false_eq_true, if_false, settleLanes_clean fail, some_entry, holdAtoms]

theorem atomRes_clear {i : Instr}
    (h : Obl.Clear c s f (atomSize f.aty) .atomic false (!f.anr) (newRegs (begun c s) c.g i, 0,
      sectorCharge (atomLanesAt c s f)) (atomLanesAt c s f) hits t) :
    ∃ addr, atomRes i f c (begun c s) = atomLanesRes c f addr hits [] [] t := by
  obtain ⟨done, -, fail, stage⟩ := h.fresh
  have lanes : ((restLanes (begun c s) c f false).map fun l =>
      (l, laneGlobal (begun c s) c.g f (atomSize f.aty) 0 l)) = atomLanesAt c s f := by
    rw [restLanes_fresh done fail, laneList_begun]
    rfl
  have checks := clear_checks h
  rw [decide_eq_false (by decide)] at checks
  have order : orderWait c f true (begun c s) = none := h.ordered
  have known : (!f.anr && epochWait (begun c s) c (newRegs (begun c s) c.g i, 0, sectorCharge (atomLanesAt c s f)) &&
      !(atomLanesAt c s f).isEmpty) = false := by
    cases hn : f.anr
    · rw [h.epoch (by rw [hn]; rfl)]; simp
    · rfl
  refine ⟨laneGlobal (begun c s) c.g f (atomSize f.aty) 0, ?_⟩
  simp only [atomRes, lanes, stage, (clear_unanswered h).1, (clear_unanswered h).2, checks, order, known, h.translated,
    Bool.false_eq_true, if_false]
  rfl

end

/-- Settles O10. An atomic of clear lanes passes the checks (`atomRes_clear`) and holds one entry for each sector
(`atomLanesRes_clear`), so a word with a result finds an entry to wait for (`entriesOfWord_holdAtoms`). -/
theorem globalAtomics : Obligations.GlobalAtomics := by
  unfold Obligations.GlobalAtomics
  intro c s t w hits f xs own secs held clear hne room
  obtain ⟨addr, lanes⟩ := atomRes_clear clear
  refine ⟨fun quiet => ?_, fun result free => ?_⟩
  · refine does_of_done rfl (lanes.trans ((atomLanesRes_clear addr clear hne room fun h => ?_).trans (if_pos quiet)))
    exact absurd h (by rw [quiet]; decide)
  · exact flies_of_fly rfl (lanes.trans ((atomLanesRes_clear addr clear hne room fun _ => free).trans
      (if_neg (by rw [result]; decide))))

end Sys2Proof.Machine
end

section
/-!
PROOFS. Traps of operands: addresses, rows and privilege (O12).
-/
namespace Sys2Proof.Machine

/-! ### What the begin of a try leaves as it is (R29, R33) -/

@[simp] theorem begun_cores (c : Cur) (s : State) : (begun c s).cores = s.cores :=
  detClose_keeps (P := fun t => t.cores = s.cores) (fun _ _ ht => ht) rfl
@[simp] theorem begun_cards (c : Cur) (s : State) : (begun c s).cards = s.cards :=
  detClose_keeps (P := fun t => t.cards = s.cards) (fun _ _ ht => ht) rfl

section
variable (c : Cur) (s : State) (g : Nat)

@[simp] theorem grp_begun_supv : (grp (begun c s) g).supv = (grp s g).supv :=
  (congrArg Group.supv (work_begun c s g) :)
@[simp] theorem grp_begun_blocks : (grp (begun c s) g).blocks = (grp s g).blocks :=
  (congrArg Group.blocks (work_begun c s g) :)
@[simp] theorem coreOf_begun : coreOf (begun c s) g = coreOf s g := by
  simp only [coreOf, team_begun, halfOf_begun]
@[simp] theorem core_begun (k : Nat) : core (begun c s) k = core s k := by
  simp only [core, begun_cores]
@[simp] theorem cardFld_begun (n hi lo : Nat) : cardFld (begun c s) n hi lo = cardFld s n hi lo := by
  simp only [cardFld, begun_cards]
@[simp] theorem winG_begun : winG (begun c s) g = winG s g := by
  simp only [winG, winOf, launch, begun_launches, coreOf_begun]
@[simp] theorem rowsHeld_begun (lo n : Nat) : rowsHeld (begun c s) g lo n = rowsHeld s g lo n := by
  simp only [rowsHeld, jobsOf, core_begun, coreOf_begun, winG_begun]

end

/-! ### Addresses (R145, R321) -/

/-- The first element of a list that a test meets, behind those that it does not. -/
theorem find?_append_cons {α : Type} {p : α → Bool} {xs ys : List α} {x : α} (hxs : ∀ y ∈ xs, p y = false)
    (hx : p x = true) : (xs ++ x :: ys).find? p = some x := by
  rw [List.find?_append, List.find?_eq_none.mpr fun y hy => by rw [hxs y hy]; decide, List.find?_cons_of_pos hx]
  rfl

section
variable {c : Cur} {s : State} {f : Flds} {i : Instr} {l : Nat} {xs ys : List Nat}

/-- A lane that a test meets behind lanes that it does not meet, with its address. -/
theorem find?_lane {β : Type} {addr : Nat → β} {p : β → Bool} (hxs : ∀ x ∈ xs, p (addr x) = false)
    (hl : p (addr l) = true) :
    ((xs ++ l :: ys).map fun x => (x, addr x)).find? (fun z => p z.2) = some (l, addr l) := by
  rw [List.map_append, List.map_cons]
  refine find?_append_cons (fun z hz => ?_) hl
  obtain ⟨x, hx, rfl⟩ := List.mem_map.mp hz
  exact hxs x hx

/-- A misaligned lane is the first cause of a global access. -/
theorem globalChecks_misaligned {size : Nat} {addr : Nat → Nat} (load : Bool) (own : Nat × Nat × Nat)
    (hxs : ∀ x ∈ xs, addr x % size = 0) (hl : addr l % size ≠ 0) (t : State) :
    globalChecks c size load own ((xs ++ l :: ys).map fun x => (x, addr x)) t =
      some (trapAs c clsMisalign 0 (addr l) t) := by
  have first : firstLane ((xs ++ l :: ys).map fun x => (x, addr x)) (fun va => va % size ≠ 0) = some (l, addr l) :=
    find?_lane (p := fun a => decide (a % size ≠ 0)) (fun x hx => by simp [hxs x hx]) (by simp [hl])
  simp only [globalChecks, first]

section
variable {size : Nat} {addr : Nat → Int} (load : Bool) (own : List (Nat × Nat × Nat) → Nat × Nat × Nat) (t : State)

/-- The same for a local access. -/
theorem localChecks_misaligned (hxs : ∀ x ∈ xs, addr x % (size : Int) = 0) (hl : addr l % (size : Int) ≠ 0) :
    localChecks c size load own ((xs ++ l :: ys).map fun x => (x, addr x)) t =
      .inl (trapAs c clsMisalign 0 (cut 64 (addr l)) t) := by
  have first : ((xs ++ l :: ys).map fun x => (x, addr x)).find? (fun z => decide (z.2 % (size : Int) ≠ 0)) =
      some (l, addr l) :=
    find?_lane (p := fun a => decide (a % (size : Int) ≠ 0)) (fun x hx => by simp [hxs x hx]) (by simp [hl])
  simp only [localChecks, first]

/-- Where every lane is aligned, a lane outside the window is next. -/
theorem localChecks_outside (ha : ∀ x ∈ xs ++ l :: ys, addr x % (size : Int) = 0)
    (hxs : ∀ x ∈ xs, (localAt t c.g (addr x)).isSome) (hl : localAt t c.g (addr l) = none) :
    localChecks c size load own ((xs ++ l :: ys).map fun x => (x, addr x)) t =
      .inl (trapAs c clsPage 0 (cut 64 (addr l)) t) := by
  have aligned : ((xs ++ l :: ys).map fun x => (x, addr x)).find? (fun z => decide (z.2 % (size : Int) ≠ 0)) =
      none := List.find?_eq_none.mpr fun z hz => by
    obtain ⟨x, hx, rfl⟩ := List.mem_map.mp hz
    simp [ha x hx]
  have first : ((xs ++ l :: ys).map fun x => (x, addr x)).find? (fun z => (localAt t c.g z.2).isNone) =
      some (l, addr l) :=
    find?_lane (p := fun a => (localAt t c.g a).isNone)
      (fun x hx => by rw [Option.isNone_eq_false_iff]; exact hxs x hx) (by rw [hl]; rfl)
  simp only [localChecks, aligned, first]

end

/-- A word that has a lane to perform, of which none has gone before. -/
structure FreshLanes (c : Cur) (s : State) (f : Flds) (ls : List Nat) : Prop where
  done : c.w.done = 0
  fail : c.w.fail = 0
  stage : c.w.stage = 0
  lanes : laneList s c f = ls

section
variable (h : FreshLanes c s f (xs ++ l :: ys))
include h

theorem FreshLanes.rest : restLanes s c f false = xs ++ l :: ys :=
  (restLanes_fresh h.done h.fail).trans h.lanes

theorem FreshLanes.active : activeLanes s c f ≠ 0 := by
  intro empty
  have lanes := h.lanes
  rw [laneList, empty] at lanes
  have none_active : maskList 64 0 = [] := by decide
  rw [none_active] at lanes
  simp at lanes

theorem FreshLanes.stage_ne : ¬c.w.stage = 1 := by
  rw [h.stage]
  decide

/-- A load or store with a misaligned lane traps before it reads or holds anything. -/
theorem loadRes_misaligned (hxs : ∀ x ∈ xs, laneGlobal s c.g f (mtSize f.mod) f.i12 x % mtSize f.mod = 0)
    (hl : laneGlobal s c.g f (mtSize f.mod) f.i12 l % mtSize f.mod ≠ 0) :
    loadRes i f false c s = trapAs c clsMisalign 0 (laneGlobal s c.g f (mtSize f.mod) f.i12 l) s := by
  have checks (own : Nat × Nat × Nat) := globalChecks_misaligned (c := c) (ys := ys) true own hxs hl s
  simp only [loadRes, h.rest, h.active, h.stage_ne, checks, Bool.not_false, Bool.true_and, decide_false,
    Bool.false_eq_true, if_false]

theorem storeRes_misaligned (hxs : ∀ x ∈ xs, laneGlobal s c.g f (mtSize f.mod) f.i12 x % mtSize f.mod = 0)
    (hl : laneGlobal s c.g f (mtSize f.mod) f.i12 l % mtSize f.mod ≠ 0) :
    storeRes f false c s = trapAs c clsMisalign 0 (laneGlobal s c.g f (mtSize f.mod) f.i12 l) s := by
  have checks (own : Nat × Nat × Nat) := globalChecks_misaligned (c := c) (ys := ys) false own hxs hl s
  simp only [storeRes, h.rest, checks, Bool.false_eq_true, if_false]

/-- A local load or store whose checks answer a trap makes that trap. -/
theorem ldlRes_checks {r : Res} (hr : ∀ own, localChecks c (mtSize f.mod) true own
      ((xs ++ l :: ys).map fun x => (x, laneAddr s c.g f (mtSize f.mod) f.i12 true x)) s = .inl r) :
    ldlRes i f c s = r := by
  simp only [ldlRes, h.rest, h.active, h.stage_ne, hr, decide_false, Bool.false_and, Bool.false_eq_true, if_false]

theorem stlRes_checks {r : Res} (hr : ∀ own, localChecks c (mtSize f.mod) false own
      ((xs ++ l :: ys).map fun x => (x, laneAddr s c.g f (mtSize f.mod) f.i12 true x)) s = .inl r) :
    stlRes f c s = r := by
  simp only [stlRes, h.rest, h.stage_ne, hr, decide_false, Bool.false_and, Bool.false_eq_true, if_false]

end
end

theorem addressTraps : Obl.AddressTraps := by
  unfold Obl.AddressTraps
  intro c s w l xs ys f va la done fail stage lanes
  have fresh : FreshLanes c (begun c s) f (xs ++ l :: ys) := ⟨done, fail, stage, (laneList_begun ..).trans lanes⟩
  refine ⟨fun hxs hl => ⟨?_, ?_⟩, fun hxs hl => ⟨?_, ?_⟩, fun ha hxs hl => ⟨?_, ?_⟩⟩
  · exact traps_of_trapAs rfl (loadRes_misaligned fresh hxs hl)
  · exact traps_of_trapAs rfl (storeRes_misaligned fresh hxs hl)
  · exact traps_of_trapAs rfl (ldlRes_checks fresh fun own => localChecks_misaligned true own _ hxs hl)
  · exact traps_of_trapAs rfl (stlRes_checks fresh fun own => localChecks_misaligned false own _ hxs hl)
  · exact traps_of_trapAs rfl (ldlRes_checks fresh fun own => localChecks_outside true own _ ha hxs hl)
  · exact traps_of_trapAs rfl (stlRes_checks fresh fun own => localChecks_outside false own _ ha hxs hl)

/-! ### Rows (R169, R189) -/

section
variable {c : Cur} {s : State} {lo n : Nat}

/-- Rows that a card holds. -/
theorem rowsCheck_held (h : rowsHeld s c.g lo n = true) (writes : Nat) :
    rowsCheck c lo n writes s = some (trapAs c clsRange 0 0 s) := by
  rw [rowsCheck, if_pos h]

/-- Rows outside the window. -/
theorem rowsCheck_outside (hh : rowsHeld s c.g lo n = false) (h : (winG s c.g).accN < lo + n) (writes : Nat) :
    rowsCheck c lo n writes s = some (trapAs c clsRange 3 0 s) := by
  simp [rowsCheck, hh, h]

/-- A row word whose check traps makes that trap. -/
theorem rowWords_trap {w : XW} {cause : Nat} (h : ∀ writes, rowsCheck c (uread s c.g w.flds.d) (w.flds.c + 1) writes
      (begun c s) = some (trapAs c clsRange cause 0 (begun c s))) :
    Traps (.xzero w) c s 4 cause 0 ∧ Traps (.xexp w) c s 4 cause 0 ∧ Traps (.xnorm w) c s 4 cause 0 := by
  refine ⟨traps_of_trapAs rfl ?_, traps_of_trapAs rfl ?_, traps_of_trapAs rfl ?_⟩
  · simp only [xzeroRes, uread_begun, h]; rfl
  · simp only [xexpRes, uread_begun, h]; rfl
  · simp only [xnormRes, uread_begun, h]; rfl

end

theorem rowTraps : Obl.RowTraps := by
  unfold Obl.RowTraps
  intro c s w d n
  refine ⟨fun held => rowWords_trap fun writes => ?_, fun free outside => rowWords_trap fun writes => ?_⟩
  · exact rowsCheck_held ((rowsHeld_begun ..).trans held) writes
  · exact rowsCheck_outside ((rowsHeld_begun ..).trans free) (by rwa [winG_begun]) writes

/-! ### Privilege (R39, R75) -/

/-- The words that user mode may not use. -/
def isPrivileged (s : State) (g : Nat) (i : Instr) : Prop :=
  (∃ w : SW, i = .hret w ∨ i = .halt w ∨ i = .nop 7 w ∨ i = .twait 7 w ∨ i = .tsig 7 w) ∨
  (cardFld s (gCard g) 14 14 = 0 ∧ ∃ w : XW, i = .jobarm w) ∨
  (∃ w : XW, i = .sysrd w ∨ i = .syswr w ∨ i = .wake w ∨ i = .gate w ∨ i = .susp w ∨ i = .fltrply w)

/-- In user mode the splitter finds them privileged, and each is an instruction word. -/
theorem privileged_of_isPrivileged {s : State} {g : Nat} {i : Instr} (h : isPrivileged s g i)
    (user : (grp s g).supv = false) : privileged s g i = true ∧ ∃ r, i.row = some r := by
  rcases h with ⟨w, rfl | rfl | rfl | rfl | rfl⟩ | ⟨card, w, rfl⟩ | ⟨w, rfl | rfl | rfl | rfl | rfl | rfl⟩
  case inr.inl => exact ⟨by simp [privileged, user, card], _, rfl⟩
  all_goals exact ⟨by simp [privileged, user], _, rfl⟩

theorem privilegeTraps : Obl.PrivilegeTraps := by
  unfold Obl.PrivilegeTraps
  intro c s i priv cur first seq live unheld user fields
  have priv' : isPrivileged (begun c s) c.g i := by
    rw [isPrivileged, cardFld_begun]
    exact priv
  obtain ⟨hp, r, hr⟩ := privileged_of_isPrivileged priv' ((grp_begun_supv ..).trans user)
  obtain ⟨h2, h3, h4⟩ := fields r hr
  have cause : illop (begun c s) c.g i = some 5 := by
    rw [illop_fieldsOk hr h2 h3 (by rwa [grp_begun_blocks]), if_pos hp]
  obtain ⟨body, he⟩ := exec_eq_word hr
  rw [he, word_fetched cur live first seq, takeWord_illop unheld cause]
  rfl

/-- Settles O12. Each word makes its checks before anything else: the first lane that one meets gives the trap
(`find?_lane`), rows go through `rowsCheck`, and a privileged word has cause 5 at the splitter
(`privileged_of_isPrivileged`). -/
theorem operandTraps : Obligations.OperandTraps := ⟨addressTraps, rowTraps, privilegeTraps⟩

end Sys2Proof.Machine
end

section
/-!
PROOFS. Fences, prefetches and cache maintenance (O13).
-/
namespace Sys2Proof.Machine

/-! ### FENCE (R155, R258, R324) -/

section
variable {c : Cur} {s t : State} {f : Flds}

/-- A fence with no entry to wait for is its release or acquire event. -/
theorem fenceRes_free (h : fenceHeld s c f = []) : fenceRes f c s = .done (ordEvents c.g f s) :=
  if_pos (by rw [h]; rfl)

/-- With such entries it waits for them. -/
theorem fenceRes_held (h : fenceHeld s c f ≠ []) : fenceRes f c s = waitHeld c 6 (fenceHeld s c f) s :=
  if_neg (by rwa [List.isEmpty_iff])

theorem waitHeld_waits {hs : List HB} {cause : Nat} (h : hs.any (heldStuck s c.g) = false) :
    waitHeld c cause hs s = waitFor c cause s :=
  if_neg (by rw [h]; decide)

theorem waitHeld_double {hs : List HB} {cause : Nat} (h : hs.any (heldStuck s c.g) = true) :
    waitHeld c cause hs s = trapAs c clsDouble 0 0 s :=
  if_pos h

/-! ### PFETCH (R156) -/

/-- A prefetch whose lanes need not wait is done. -/
theorem pfetchRes_done (ho : orderWait c f false s = none) (hl : pfetchLanes f c (laneList s c f) s = (true, t)) :
    pfetchRes f c s = .done t := by
  simp only [pfetchRes, ho, hl, if_true]

/-- A lane that meets a range lock is dropped. -/
theorem pfetchLane_locked {va : Nat} (h : (globalLock t c.g va 1 true).isSome = true) :
    pfetchLane f c va t = (true, t) := if_pos h

section
variable {va pa mt : Nat} {t1 t2 : State}
variable (hx : translate t (launchOf t c.g).cont false (coreOf t c.g) (launchOf t c.g).ctx (!(grp t c.g).supv) va .read =
  (.ok pa mt, t1)) (hl : globalLock t c.g va 1 true = none)
include hx hl

/-- A lane that names a poisoned sector is dropped. -/
theorem pfetchLane_poisoned (hp : viewPoison t1 c.g pa = true) : pfetchLane f c va t = (true, t) := by
  simp only [pfetchLane, hl, Option.isSome_none, hx, hp, Bool.false_eq_true, if_false, if_true]

/-- Device-type memory is not read ahead. -/
theorem pfetchLane_device (hp : viewPoison t1 c.g pa = false) (hd : mt = 2 ∨ paDevice t pa = true) :
    pfetchLane f c va t = (true, t1) := by
  simp only [pfetchLane, hl, Option.isSome_none, hx, hp, Bool.or_eq_true, decide_eq_true_eq, hd, Bool.false_eq_true,
    if_false, if_true]

/-- Any other sector comes into the L2 and, where the word and the memory type ask for it, into the L1. -/
theorem pfetchLane_reads (hp : viewPoison t1 c.g pa = false) (hmt : mt ≠ 2) (hd : paDevice t pa = false)
    (hr : askRead (.word c.g c.w.seq) pa (launchOf t c.g).acct mt t1 = (true, t2)) :
    pfetchLane f c va t = (true, if f.m 0 = true ∨ mt = 1 then t2 else l1Fill (coreOf t c.g) pa t2) := by
  simp only [pfetchLane, hl, Option.isSome_none, hx, hp, hmt, hd, hr, Bool.not_true, Bool.or_false,
    Bool.or_eq_true, decide_eq_true_eq, Bool.false_eq_true, if_false]

end

/-! ### CWB and CINV (R157) -/

/-- A word whose lanes all performed, and that was answered FAIL for none, completes. -/
theorem settleLanes_complete {w : QWord} (hw : w.fail = 0) (unif : Bool) (fa : Nat → Nat) (complete : State → Res)
    (u : State) : settleLanes c unif w [] [] fa complete u = complete u := by
  simp only [settleLanes, hw]
  rfl

/-- A word none of whose lanes has been answered POISON has all of them to perform. -/
theorem unanswered_fresh (hp : c.w.pois = 0) (xs : List (Nat × Nat)) :
    (xs.filter fun x => wasPois c x.1) = [] ∧ (xs.filter fun x => !wasPois c x.1) = xs := by
  constructor <;> simp [wasPois_fresh hp]

/-- The entry of line maintenance: the virtual and physical address of the line. -/
def lineEntry (inv : Bool) (x : Nat × Nat) : Held := if inv then .cinv x.1 x.2 else .cwb x.1 x.2

/-- The lines of some lanes, each once. -/
def linesOf (hits : List Hit) : List (Nat × Nat) :=
  (hits.map fun h => (h.va - h.va % 128, h.pa - h.pa % 128)).dedup

/-- Line maintenance whose lanes all translate, and for which there is room, holds one entry for each line. -/
theorem lineRes_done {hits : List Hit} (inv : Bool) (hw : c.w.done = 0 ∧ c.w.pois = 0 ∧ c.w.fail = 0)
    (ho : orderWait c f true s = none)
    (hn : neverFits s c.g (0, 0, 64 * ((((laneList s c f).map fun l =>
      (l, laneGlobal s c.g f 128 f.i12 l)).map fun x => x.2 / 128).dedup).length) = false)
    (hx : xlateLanes c.g .read false ((laneList s c f).map fun l => (l, laneGlobal s c.g f 128 f.i12 l)) s =
      (hits, [], t))
    (hr : holdFull t c.g c.w.seq (linesOf hits).length = none) :
    lineRes inv f c s = .done ((linesOf hits).foldl (fun u x => hold c.g c.w.seq (lineEntry inv x) u) t) := by
  obtain ⟨done, pois, fail⟩ := hw
  have lanes : restLanes s c f false = laneList s c f := restLanes_fresh done fail
  have unanswered := unanswered_fresh pois
  have room : holdRoom c (hits.map fun h => (h.va - h.va % 128, h.pa - h.pa % 128)).dedup.length t = none :=
    holdRoom_none hr
  have unfailed : (if hits.any (·.dev) = true then c.w else markDone c.w (hits.map (·.lane) ++ [])).fail = 0 := by
    split <;> exact fail
  simp only [lineRes, lanes, hn, ho, (unanswered _).1, (unanswered _).2, hx, List.isEmpty_nil, Bool.not_true,
    Bool.and_false, room, Bool.false_eq_true, if_false, List.map_nil, settleLanes_complete unfailed]
  rfl

end

/-- Settles O13. Each word has one equation for each case of its own effect, in the state where its try begins. -/
theorem fencesAndCaches : Obligations.FencesAndCaches := by
  unfold Obligations.FencesAndCaches
  intro c s w f held stuck
  refine ⟨fun free => ?_, fun some free => ?_, fun some stuck => ?_, fun t order lanes => ?_,
    fun va t => pfetchLane_locked, fun va pa mt t t1 t2 hx hl => ⟨pfetchLane_poisoned hx hl, pfetchLane_device hx hl,
      pfetchLane_reads hx hl⟩, fun hits t fresh order fits lanes room => ?_⟩
  · exact does_of_done rfl (fenceRes_free free)
  · exact waits_of_waitFor rfl ((fenceRes_held some).trans (waitHeld_waits free))
  · exact traps_of_trapAs rfl ((fenceRes_held some).trans (waitHeld_double stuck))
  · rw [← laneList_begun] at lanes
    exact does_of_done rfl (pfetchRes_done order lanes)
  · rw [← laneList_begun] at fits lanes
    exact ⟨does_of_done rfl (lineRes_done false fresh order fits lanes room),
      does_of_done rfl (lineRes_done true fresh order fits lanes room)⟩

end Sys2Proof.Machine
end

section
/-!
PROOFS. Local words, stash windows and the poison test (O11).
-/
namespace Sys2Proof.Machine

/-! ### Local writes and what they leave as it is (R35, R144) -/

/-- What a write of each chunk keeps, a write of local bytes keeps. -/
theorem locPutAux_keeps {P : State → Prop} {g seq half : Nat}
    (h : ∀ a bytes t, P t → P (locPutChunk g seq half a bytes t)) :
    ∀ (fuel a : Nat) (bytes : List Byte) {s : State}, P s → P (locPutAux g seq half fuel a bytes s)
  | 0, _, _, _, hs => hs
  | fuel + 1, a, bytes, s, hs => by
    unfold locPutAux
    split
    · exact hs
    · exact locPutAux_keeps h fuel _ _ (h _ _ _ hs)

theorem locPut_keeps {P : State → Prop} {g seq half : Nat}
    (h : ∀ a bytes t, P t → P (locPutChunk g seq half a bytes t)) (a : Nat) (bytes : List Byte) {s : State} (hs : P s) :
    P (locPut g seq half a bytes s) :=
  locPutAux_keeps h _ _ _ hs

/-- A journaled write of a chunk marks no granule. -/
theorem pois_jwrite_loc (g seq tk half ch : Nat) (e : Eff) (s : State) (tk' h : Nat) :
    (team (jwrite g seq (.loc tk half ch) e s) tk').pois h = (team s tk').pois h := by
  have written : team (jwrite g seq (.loc tk half ch) e s) tk' =
      team (writeItem s (.loc tk half ch) (applyEff e (readItem s (.loc tk half ch)))) tk' := rfl
  rw [written, writeItem, team_modTeam_if]
  split
  · exact Team.pois_setMem ..
  · rfl

theorem team_vwrite (c : Cur) (n l x : Nat) (s : State) (tk : Nat) : team (vwrite c n l x s) tk = team s tk := by
  unfold vwrite
  split <;> rfl

theorem team_atomPut (c : Cur) (ty d l x : Nat) (s : State) (tk : Nat) : team (atomPut c ty d l x s) tk = team s tk := by
  unfold atomPut vwrite64
  split <;> simp only [team_vwrite]

/-- A granule that is not poisoned needs no cleaning. -/
theorem cleanGranule_plain {c : Cur} {half a : Nat} {s : State} (h : locPoison s (tkOf c.g) half a = false) :
    cleanGranule c half a s = s := if_neg (by rw [h]; decide)

/-! ### Lanes outside stash windows (R145, R160) -/

section
variable (ys : List LHit)

@[simp] theorem lhits_hits : lhits (ys.map .hit) = ys := by
  rw [lhits, List.filterMap_map]
  exact List.filterMap_some
@[simp] theorem lbads_hits : lbads (ys.map .hit) = [] := by simp [lbads]
@[simp] theorem lpois_hits : lpois (ys.map .hit) = [] := by simp [lpois]
@[simp] theorem lskips_hits : lskips (ys.map .hit) = [] := by simp [lskips]
@[simp] theorem llate_hits : llate (ys.map .hit) = false := by simp [llate]
@[simp] theorem ldevs_hits : ldevs (ys.map .hit) = [] := by simp [ldevs]

end

/-- Where a lane's bytes lie. -/
def LHit.place (y : LHit) : Nat × Nat × Nat := (y.lane, y.half, y.off)

section
variable {c : Cur} {s : State} {f : Flds} {size : Nat} {load : Bool} {off : Int} {own : Nat × Nat × Nat}
  {ys : List LHit}

/-- Lanes that touch no window answer as they stand. -/
theorem prepLanes_outside (write : Bool) {t : State} : ∀ {ys : List LHit},
    (∀ y ∈ ys, y.back = none ∧ stashHit t c.g y.half y.off = none) →
    prepLanes c write (ys.map LHit.place) t = (ys.map .hit, t)
  | [], _ => rfl
  | y :: ys, h => by
    obtain ⟨back, outside⟩ := h y (List.mem_cons_self ..)
    have first : prepLane c write y.lane y.half y.off t = (.hit y, t) := by
      rw [prepLane, outside, ← back]
    have others := prepLanes_outside write fun z hz => h z (List.mem_cons_of_mem _ hz)
    simp only [List.map_cons, LHit.place, prepLanes, first]
    exact congrArg (fun r : List LRes × State => (LRes.hit y :: r.1, r.2)) others

/-- They reach no device-type memory. -/
theorem localDevice_outside (addr : Nat → Nat) (t : State) (h : ∀ y ∈ ys, y.back = none) :
    localDevice c (ys.map .hit) addr t = none := by
  have none_device : ldevice (ys.map .hit) = false := by
    rw [ldevice, ldevs_hits, lhits_hits]
    simpa using fun y hy => by rw [h y hy]
  simp only [localDevice, llate_hits, none_device, Bool.not_false, Bool.false_eq_true, if_false, if_true]

/-- They have nothing to write back. -/
theorem backs_outside {β : Type} (g : LHit → Hit → β) (h : ∀ y ∈ ys, y.back = none) :
    (ys.filterMap fun y => y.back.map (g y)) = [] :=
  List.filterMap_eq_nil_iff.mpr fun y hy => by rw [h y hy]; rfl

@[simp] theorem backRoom_nil (s : State) (c : Cur) : backRoom s c [] = 0 := rfl
@[simp] theorem holdBacks_nil (c : Cur) (f : Flds) (s : State) : holdBacks c f [] s = s := rfl

/-- Their lanes fill nothing. -/
theorem fillWait_outside (own : Nat × Nat × Nat) {t : State} (h : ∀ y ∈ ys, stashHit t c.g y.half y.off = none) :
    fillWait t c own (ys.map LHit.place) = none := by
  have filled : unfilled t c (ys.map LHit.place) = [] := by
    unfold unfilled
    split
    · rfl
    · refine List.filter_eq_nil_iff.mpr fun z hz => ?_
      obtain ⟨y, hy, rfl⟩ := List.mem_map.mp hz
      simp [LHit.place, h y hy]
  simp only [fillWait, filled, List.isEmpty_nil, if_true]

section
variable (h : Obl.LocalClear c s f size load off own ys)
include h

theorem localClear_lanes : restLanes (begun c s) c f false = laneList s c f := by
  obtain ⟨done, -, fail, -⟩ := h.fresh
  rw [restLanes_fresh done fail, laneList_begun]
  rfl

theorem localClear_stage : ¬c.w.stage = 1 := by
  obtain ⟨-, -, -, stage⟩ := h.fresh
  rw [stage]
  decide

theorem localClear_backs : ∀ y ∈ ys, y.back = none := fun y hy => (h.plain y hy).1
theorem localClear_outside : ∀ y ∈ ys, stashHit (begun c s) c.g y.half y.off = none :=
  fun y hy => (h.plain y hy).2.1
theorem localClear_clean : ∀ y ∈ ys, locPoison (begun c s) (tkOf c.g) y.half y.off = false :=
  fun y hy => (h.plain y hy).2.2.2

/-- The lanes of a clear local access lie where the statement says. -/
theorem localClear_places : (((laneList s c f).map fun l => (l, laneAddr (begun c s) c.g f size off true l)).map fun x =>
    let p := (localAt (begun c s) c.g x.2).getD (0, 0); (x.1, p.1, p.2)) = ys.map LHit.place := by
  have places := congrArg (List.map fun z : Nat × Option (Nat × Nat) =>
    let p := z.2.getD (0, 0); (z.1, p.1, p.2)) h.places
  rw [List.map_map, List.map_map] at places
  rw [List.map_map]
  exact places

/-- It passes the checks of R145. -/
theorem localClear_checks {charge : List (Nat × Nat × Nat) → Nat × Nat × Nat}
    (hc : charge (ys.map LHit.place) = own) :
    localChecks c size load charge ((laneList s c f).map fun l => (l, laneAddr (begun c s) c.g f size off true l))
      (begun c s) = .inr (ys.map LHit.place) := by
  have aligned : ((laneList s c f).map fun l => (l, laneAddr (begun c s) c.g f size off true l)).find?
      (fun x => decide (x.2 % (size : Int) ≠ 0)) = none := List.find?_eq_none.mpr fun x hx => by
    obtain ⟨l, hl, rfl⟩ := List.mem_map.mp hx
    simp [h.aligned l hl]
  have inside : ((laneList s c f).map fun l => (l, laneAddr (begun c s) c.g f size off true l)).find?
      (fun x => (localAt (begun c s) c.g x.2).isNone) = none := List.find?_eq_none.mpr fun x hx => by
    obtain ⟨l, hl, rfl⟩ := List.mem_map.mp hx
    have place := List.mem_map_of_mem (f := fun l =>
      (l, localAt (begun c s) c.g (laneAddr (begun c s) c.g f size off true l))) hl
    rw [h.places] at place
    obtain ⟨y, -, hy⟩ := List.mem_map.mp place
    have found : some (y.half, y.off) = localAt (begun c s) c.g (laneAddr (begun c s) c.g f size off true l) :=
      congrArg Prod.snd hy
    rw [← found, Option.isNone_some]
    exact Bool.false_ne_true
  have unlocked : ∀ xs : List (Nat × Int), (xs.zip (ys.map LHit.place)).find?
      (fun z => localLocked (begun c s) c.g z.2.2.1 z.2.2.2 size load) = none := fun xs =>
    List.find?_eq_none.mpr fun z hz => by
      obtain ⟨y, hy, hz⟩ := List.mem_map.mp (List.of_mem_zip hz).2
      obtain ⟨-, -, free, -⟩ := h.plain y hy
      simp [← hz, LHit.place, free]
  simp only [localChecks, aligned, inside, localClear_places h, unlocked, hc, h.fits, Bool.false_eq_true, if_false]

/-- It waits for nothing. -/
theorem localClear_goes (charge : Nat × Nat × Nat) :
    (orderWait c f (!load) (begun c s)).or (fillWait (begun c s) c charge (ys.map LHit.place)) = none := by
  rw [h.ordered, fillWait_outside charge (localClear_outside h)]
  rfl

theorem localClear_prep (write : Bool) :
    prepLanes c write (ys.map LHit.place) (begun c s) = (ys.map .hit, begun c s) :=
  prepLanes_outside write fun y hy => ⟨localClear_backs h y hy, localClear_outside h y hy⟩

/-- None of its lanes reads poison. -/
theorem localClear_noPois (addr : Nat → Int) : localPois (begun c s) c addr ys = [] := by
  have none_poisoned : (ys.filter fun y => locPoison (begun c s) (tkOf c.g) y.half y.off) = [] := by
    simpa using localClear_clean h
  rw [localPois, none_poisoned, List.map_nil, ite_self]

theorem localClear_allGood (cont : Bool) :
    (ys.filter fun y => cont || !locPoison (begun c s) (tkOf c.g) y.half y.off) = ys :=
  List.filter_eq_self.mpr fun y hy => by rw [localClear_clean h y hy]; simp

end

/-! ### LDL (R31, R146) -/

/-- With no active lane LDL completes at once. -/
theorem ldlRes_idle {i : Instr} (ha : activeLanes s c f = 0) : ldlRes i f c s = .done s := if_pos ha

/-- The values that clear lanes load. -/
theorem foldl_localNum (h : Obl.LocalClear c s f size load off own ys) (n : Nat) (put : Nat → Nat → State → State) :
    ys.foldl (fun t y => put y.lane (localNum (begun c s) c y n) t) (begun c s) =
      ys.foldl (fun t y => put y.lane (ofBytes (locGet (begun c s) (tkOf c.g) y.half y.off n)) t) (begun c s) :=
  List.foldl_ext _ _ _ fun t y hy => by
    rw [localNum, localClear_clean h y hy, if_neg (by decide)]

theorem ldlRes_clear {i : Instr} (hne : ys ≠ [])
    (h : Obl.LocalClear c s f (mtSize f.mod) true f.i12 (newRegs (begun c s) c.g i, 0, 0) ys) :
    ldlRes i f c (begun c s) = .done (ordEvents c.g f (ys.foldl (fun t y => loadPut c f.d f.mod false y.lane
      (ofBytes (locGet (begun c s) (tkOf c.g) y.half y.off (mtSize f.mod))) t) (begun c s))) := by
  obtain ⟨-, -, fail, -⟩ := h.fresh
  have active : ¬activeLanes (begun c s) c f = 0 := by
    intro empty
    rw [activeLanes_begun] at empty
    have lanes : laneList s c f = [] := by rw [laneList, empty]; rfl
    have places := h.places
    rw [lanes, List.map_nil] at places
    exact hne (List.map_eq_nil_iff.mp places.symm)
  have order := localClear_goes h (newRegs (begun c s) c.g i, 0, 0)
  rw [Bool.not_true] at order
  have none_poisoned : (ys.filter fun y => locPoison (begun c s) (tkOf c.g) y.half y.off) = [] := by
    simpa using localClear_clean h
  simp only [ldlRes, active, localClear_stage h, localClear_lanes h,
    localClear_checks h (charge := fun _ => (newRegs (begun c s) c.g i, 0, 0)) rfl, order, localClear_prep h,
    localDevice_outside _ _ (localClear_backs h), lhits_hits, lbads_hits, lpois_hits, lskips_hits,
    localClear_noPois h, localClear_allGood h, none_poisoned, foldl_localNum h, decide_false, Bool.false_and,
    Bool.false_eq_true, if_false, ite_self, List.map_nil, List.append_nil, List.foldl_nil, List.dedup_nil,
    List.length_nil, Nat.add_zero, countPois_zero, sortPois, List.foldr_nil, settleLanes_clean fail]

/-! ### STL (R147) -/

/-- Writing local bytes poisons and cleans nothing. -/
theorem pois_foldl_locPut (g seq : Nat) (data : LHit → List Byte) (ys : List LHit) (s : State) (tk h : Nat) :
    (team (ys.foldl (fun t y => locPut g seq y.half y.off (data y) t) s) tk).pois h = (team s tk).pois h :=
  foldl_keeps (P := fun t => (team t tk).pois h = (team s tk).pois h)
    (fun _ _ ht => locPut_keeps (P := fun t => (team t tk).pois h = (team s tk).pois h)
      (fun _ _ t hp => (pois_jwrite_loc _ _ _ _ _ _ t tk h).trans hp) _ _ ht) ys rfl

/-- A step that leaves the state as it is for each element leaves it so for all. -/
theorem foldl_same {α β : Type} {g : β → α → β} {b : β} : ∀ {xs : List α}, (∀ x ∈ xs, g b x = b) → xs.foldl g b = b
  | [], _ => rfl
  | x :: xs, h => by
    rw [List.foldl_cons, h x (List.mem_cons_self ..)]
    exact foldl_same fun y hy => h y (List.mem_cons_of_mem _ hy)

/-- A granule that a store's lanes cover holds one of them. -/
theorem mem_coveredGranules {n : Nat} {x : Nat × Nat} (hx : x ∈ coveredGranules ys n) :
    ∃ y ∈ ys, (y.half, y.off / 64) = x :=
  List.mem_map.mp (List.mem_dedup.mp (List.mem_filter.mp hx).1)

/-- The bytes that the lanes of a local store write. -/
def stlPut (c : Cur) (f : Flds) (ys : List LHit) (s : State) : State :=
  ys.foldl (fun t y => locPut c.g c.w.seq y.half y.off (storeBytes s c f false y.lane) t) s

theorem stlRes_clear
    (h : Obl.LocalClear c s f (mtSize f.mod) false f.i12
      (localCharge (begun c s) c (ys.map fun y => (y.lane, y.half, y.off))) ys) :
    stlRes f c (begun c s) = .done (ordEvents c.g f (stlPut c f ys (begun c s))) := by
  obtain ⟨-, -, fail, -⟩ := h.fresh
  have order := localClear_goes h (localCharge (begun c s) c (ys.map LHit.place))
  rw [Bool.not_false] at order
  have cleaned : ys.foldl (fun t y => cleanGranule c y.half y.off t) (begun c s) = begun c s :=
    foldl_same fun y hy => cleanGranule_plain (localClear_clean h y hy)
  have unmarked : (coveredGranules ys (mtSize f.mod)).foldl (fun t x =>
      if nget false ((team t (tkOf c.g)).pois x.1) x.2 = true then
        jw c (.locPois (tkOf c.g) x.1 x.2) (.set (.num 0)) t else t) (stlPut c f ys (begun c s)) =
      stlPut c f ys (begun c s) := foldl_same fun x hx => by
    obtain ⟨y, hy, rfl⟩ := mem_coveredGranules hx
    have clean := localClear_clean h y hy
    rw [locPoison, ← pois_foldl_locPut c.g c.w.seq (fun y => storeBytes (begun c s) c f false y.lane) ys] at clean
    exact if_neg (by rw [stlPut, clean]; decide)
  rw [stlPut] at unmarked
  simp only [stlRes, localClear_stage h, localClear_lanes h, localClear_checks h (charge := localCharge (begun c s) c) rfl,
    order, localClear_prep h, localDevice_outside _ _ (localClear_backs h), lhits_hits, lbads_hits, lpois_hits,
    lskips_hits, backs_outside _ (localClear_backs h), backRoom_nil, holdBacks_nil, holdRoom_none h.room, cleaned,
    unmarked, decide_false, Bool.false_and, Bool.false_eq_true, if_false, ite_self, List.map_nil, List.append_nil,
    List.length_nil, countPois_zero, settleLanes_clean fail, stlPut]

/-! ### ATOML (R152, R153) -/

/-- What one lane of a local atomic does outside stash windows. -/
def atomlStep (c : Cur) (f : Flds) (src : State) (t : State) (y : LHit) : State :=
  let old := ofBytes (locGet t (tkOf c.g) y.half y.off (atomSize f.aty))
  let u := jw c (.loc (tkOf c.g) y.half (y.off / 16))
    (.atom (y.off % 16) f.mod f.aty (atomB src c.g f y.lane) (atomC src c.g f y.lane)) t
  if f.anr then u else atomPut c f.aty f.d y.lane old u

/-- It poisons and cleans nothing. -/
theorem pois_atomlStep (src t : State) (y : LHit) (tk h : Nat) :
    (team (atomlStep c f src t y) tk).pois h = (team t tk).pois h := by
  have chunk : ∀ ch e, (team (jw c (.loc (tkOf c.g) y.half ch) e t) tk).pois h = (team t tk).pois h :=
    fun ch e => pois_jwrite_loc ..
  unfold atomlStep
  dsimp only
  split
  · exact chunk ..
  · rw [team_atomPut]
    exact chunk ..

/-- The lanes of a local atomic outside stash windows, where no granule is poisoned: they write nothing back. -/
theorem foldl_atomlLane (src : State) (bs : List (Nat × Hit × List Byte)) : ∀ {ys : List LHit} {t : State},
    (∀ y ∈ ys, y.back = none ∧ locPoison t (tkOf c.g) y.half y.off = false) →
    ys.foldl (fun x y => atomlLane c f src y x) (t, bs) = (ys.foldl (atomlStep c f src) t, bs)
  | [], _, _ => rfl
  | y :: ys, t, h => by
    obtain ⟨back, clean⟩ := h y (List.mem_cons_self ..)
    have first : atomlLane c f src y (t, bs) = (atomlStep c f src t y, bs) := by
      simp only [atomlLane, cleanGranule_plain clean, back, atomlStep]
    rw [List.foldl_cons, List.foldl_cons, first]
    refine foldl_atomlLane src bs fun z hz => ?_
    rw [locPoison, pois_atomlStep]
    exact h z (List.mem_cons_of_mem _ hz)

theorem atomlRes_clear {i : Instr}
    (h : Obl.LocalClear c s f (atomSize f.aty) false 0 (newRegs (begun c s) c.g i +
      (localCharge (begun c s) c (ys.map fun y => (y.lane, y.half, y.off))).1,
      (localCharge (begun c s) c (ys.map fun y => (y.lane, y.half, y.off))).2) ys) :
    atomlRes i f c (begun c s) = .done (ordEvents c.g f (ys.foldl (atomlStep c f (begun c s)) (begun c s))) := by
  obtain ⟨-, -, fail, -⟩ := h.fresh
  have order := localClear_goes h (newRegs (begun c s) c.g i + (localCharge (begun c s) c (ys.map LHit.place)).1,
    (localCharge (begun c s) c (ys.map LHit.place)).2)
  rw [Bool.not_false] at order
  have lanes := foldl_atomlLane (c := c) (f := f) (begun c s) [] fun y hy =>
    ⟨localClear_backs h y hy, localClear_clean h y hy⟩
  simp only [atomlRes, localClear_stage h, localClear_lanes h, localClear_checks h
      (charge := fun ys => (newRegs (begun c s) c.g i + (localCharge (begun c s) c ys).1, (localCharge (begun c s) c ys).2))
      rfl,
    order, localClear_prep h, localDevice_outside _ _ (localClear_backs h), lhits_hits, lbads_hits, lpois_hits,
    lskips_hits, backs_outside _ (localClear_backs h), backRoom_nil, holdRoom_none h.room, localClear_noPois h,
    localClear_allGood h, lanes, holdBacks_nil, List.isEmpty_nil, decide_false, Bool.false_and, Bool.false_eq_true,
    if_false, if_true, ite_self, List.map_nil, List.append_nil, sortPois, List.foldr_nil, settleLanes_clean fail]

end

theorem localWords : Obl.LocalWords := by
  unfold Obl.LocalWords
  intro c s w ys f grans
  refine ⟨fun idle => ?_, fun hne clear => ?_, fun clear => ?_, fun clear => ?_⟩
  · exact does_of_done rfl (ldlRes_idle ((activeLanes_begun ..).trans idle))
  · exact does_of_done rfl (ldlRes_clear hne clear)
  · exact does_of_done rfl (stlRes_clear clear)
  · exact does_of_done rfl (atomlRes_clear clear)

/-! ### Stash windows (R158 to R162) -/

section
variable (c : Cur) (s : State) (g : Nat)

@[simp] theorem lockTables_begun : lockTables (begun c s) g = lockTables s g := by
  simp only [lockTables, coreOf_begun, launchOf_begun, core_begun]
@[simp] theorem stashWin_begun (half n : Nat) : stashWin (begun c s) g half n = stashWin s g half n := by
  simp only [stashWin, launchOf_begun, team_begun]

end

section
variable {c : Cur} {s : State} {f : Flds}

theorem stmapRes_misaligned (h : uread s c.g f.a % 1024 ≠ 0) :
    stmapRes f c s = trapAs c clsMisalign 0 (uread s c.g f.a) s := if_pos h

theorem stmapRes_misalignedLocal (hg : uread s c.g f.a % 1024 = 0) (h : uread s c.g f.b % 1024 ≠ 0) :
    stmapRes f c s = trapAs c clsMisalign 0 (uread s c.g f.b) s :=
  (if_neg (not_not.mpr hg)).trans (if_pos h)

/-- A new window that no window, lock or full table stands against (R159). -/
structure WindowFree (c : Cur) (s : State) (f : Flds) (half ga la size : Nat) : Prop where
  unused : (stashWin s c.g half f.d).valid = false
  windows : ∀ n < 8, (stashWin s c.g half n).valid = true → overlaps (stashWin s c.g half n).lbase
    ((stashWin s c.g half n).lbase + (stashWin s c.g half n).size) la size = false
  localLocks : ∀ x ∈ lockTables s c.g, x.kind ≠ 2 ∧ x.space = 1 ∧ x.own = tkOf c.g ∧ x.half = half →
    overlaps x.lo x.hi la size = false
  globalLocks : ∀ x ∈ (core s (coreOf s c.g)).locks, x.space = 0 ∧ x.own = (launchOf s c.g).ctx →
    ∀ p ∈ wrapParts ga size, overlaps x.lo x.hi p.1 (p.2.1 - p.1) = false
  entry : lockCount (core s (coreOf s c.g)).locks < 32

/-- It passes the checks of STMAP. -/
theorem WindowFree.checks {half ga la size : Nat} (h : WindowFree c s f half ga la size) :
    ((stashWin s c.g half f.d).valid || ((List.range 8).map (stashWin s c.g half)).any (fun w =>
        w.valid && overlaps w.lbase (w.lbase + w.size) la size) ||
      (lockTables s c.g).any (fun x => x.kind ≠ 2 && x.space = 1 && x.own = tkOf c.g && x.half = half &&
        overlaps x.lo x.hi la size) ||
      (core s (coreOf s c.g)).locks.any (fun x => x.space = 0 && x.own = (launchOf s c.g).ctx &&
        (wrapParts ga size).any fun p => overlaps x.lo x.hi p.1 (p.2.1 - p.1)) ||
      decide (32 ≤ lockCount (core s (coreOf s c.g)).locks)) = false := by
  have windows : ((List.range 8).map (stashWin s c.g half)).any (fun w =>
      w.valid && overlaps w.lbase (w.lbase + w.size) la size) = false := by
    simpa using h.windows
  have localLocks : (lockTables s c.g).any (fun x => x.kind ≠ 2 && x.space = 1 && x.own = tkOf c.g && x.half = half &&
      overlaps x.lo x.hi la size) = false := by
    simpa [and_assoc] using h.localLocks
  have globalLocks : (core s (coreOf s c.g)).locks.any (fun x => x.space = 0 && x.own = (launchOf s c.g).ctx &&
      (wrapParts ga size).any fun p => overlaps x.lo x.hi p.1 (p.2.1 - p.1)) = false := by
    refine List.any_eq_false.mpr fun x hx met => ?_
    simp only [Bool.and_eq_true, decide_eq_true_eq, List.any_eq_true] at met
    obtain ⟨mine, p, hp, meets⟩ := met
    exact absurd meets (by rw [h.globalLocks x hx mine p hp]; decide)
  rw [h.unused, windows, localLocks, globalLocks, decide_eq_false (Nat.not_le.mpr h.entry)]
  rfl

/-- STMAP of such a window writes its entry and takes its lock, and no granule of it is filled. -/
theorem stmapRes_maps (hg : uread s c.g f.a % 1024 = 0) (hl : uread s c.g f.b % 1024 = 0)
    (hw : uread s c.g f.b + 1024 * f.imm ≤ (launchOf s c.g).window) (hb : (launchOf s c.g).localBytes ≠ 0)
    (h : WindowFree c s f (halfOf s c.g) (uread s c.g f.a) (uread s c.g f.b) (1024 * f.imm))
    (ho : orderWait c f true s = none) :
    let w : Stash := ⟨true, uread s c.g f.a, uread s c.g f.b, 1024 * f.imm⟩
    stmapRes f c s = .done (unfillRange (tkOf c.g) (halfOf s c.g) (uread s c.g f.b) (uread s c.g f.b + 1024 * f.imm)
      (modCore (stashPut c (halfOf s c.g) f.d w s) (coreOf s c.g) fun C =>
        { C with locks := C.locks ++ stashLock (tkOf c.g) (launchOf s c.g).ctx (halfOf s c.g) f.d w })) := by
  have inside : (decide ((launchOf s c.g).window < uread s c.g f.b + 1024 * f.imm) ||
      decide ((launchOf s c.g).localBytes = 0)) = false := by
    rw [decide_eq_false (Nat.not_lt.mpr hw), decide_eq_false hb]
    rfl
  exact (if_neg (not_not.mpr hg)).trans <| (if_neg (not_not.mpr hl)).trans <| (if_neg (ne_true_of_eq_false inside)).trans <|
    (if_neg (ne_true_of_eq_false h.checks)).trans (by rw [ho])

theorem stunmapRes_unmaps (hv : (stashWin s c.g (halfOf s c.g) f.d).valid = true) (ho : orderWait c f true s = none) :
    let w := stashWin s c.g (halfOf s c.g) f.d
    stunmapRes f c s = .done (unfillRange (tkOf c.g) (halfOf s c.g) w.lbase (w.lbase + w.size)
      (modCore (stashPut c (halfOf s c.g) f.d { w with valid := false } s) (coreOf s c.g) fun C =>
        { C with locks := C.locks.filter fun x => !isStashLock (tkOf c.g) (halfOf s c.g) f.d x })) := by
  simp only [stunmapRes, hv, ho, Bool.not_true, Bool.false_eq_true, if_false]

theorem stsyncRes_done (hv : (stashWin s c.g (halfOf s c.g) f.d).valid = true) (ho : orderWait c f true s = none) :
    stsyncRes f c s = .done s := by
  simp only [stsyncRes, hv, ho, if_true, Option.getD_none]

/-- Without a window there is nothing to unmap or write back. -/
theorem stunmapRes_invalid (hv : (stashWin s c.g (halfOf s c.g) f.d).valid = false) :
    stunmapRes f c s = trapAs c clsRange 2 0 s := if_pos (by rw [hv]; rfl)

theorem stsyncRes_invalid (hv : (stashWin s c.g (halfOf s c.g) f.d).valid = false) :
    stsyncRes f c s = trapAs c clsRange 2 0 s := if_neg (by rw [hv]; decide)

/-! ### PTST (R167) -/

/-- The poison test of local lanes, all of them inside the window. -/
theorem ptstRes_local {i : Instr} (hm : f.m 0 = true)
    (hl : ∀ l ∈ laneList s c f, (localAt s c.g (laneAddr s c.g f 64 f.i12 true l)).isSome)
    (ho : orderWait c f false s = none) :
    ptstRes i f c s = .done (predLanes c f.d ((laneList s c f).map fun l =>
      let p := (localAt s c.g (laneAddr s c.g f 64 f.i12 true l)).getD (0, 0)
      (l, locPoison s (tkOf c.g) p.1 p.2)) s) := by
  have inside : ((laneList s c f).map fun l => (l, laneAddr s c.g f 64 f.i12 true l)).find?
      (fun x => (localAt s c.g x.2).isNone) = none := List.find?_eq_none.mpr fun x hx => by
    obtain ⟨l, hlane, rfl⟩ := List.mem_map.mp hx
    rw [Option.isNone_iff_eq_none, ← Option.not_isSome_iff_eq_none]
    exact not_not.mpr (hl l hlane)
  simp only [ptstRes, hm, inside, ho, if_true, Option.getD_none, List.map_map]
  rfl

/-- The poison test of global lanes that all translate, and whose sectors are there. -/
theorem ptstRes_global {i : Instr} {hits : List Hit} {t u : State} (hm : f.m 0 = false)
    (hw : c.w.done = 0 ∧ c.w.pois = 0 ∧ c.w.fail = 0) (ho : orderWait c f false s = none)
    (he : epochWait s c (newRegs s c.g i, 0, 0) = false)
    (hx : xlateLanes c.g .read false ((laneList s c f).map fun l => (l, laneGlobal s c.g f 64 f.i12 l)) s = (hits, [], t))
    (hr : readSectors c (hits.filter fun h => !h.dev) t = (true, u)) :
    ptstRes i f c s = .done (predLanes c f.d (hits.map fun h => (h.lane, viewPoison u c.g h.pa)) u) := by
  obtain ⟨done, pois, fail⟩ := hw
  have lanes : restLanes s c f false = laneList s c f := restLanes_fresh done fail
  have unanswered := unanswered_fresh pois
  have unfailed : (if hits.any (·.dev) = true then c.w else markDone c.w (hits.map (·.lane))).fail = 0 := by
    split <;> exact fail
  simp only [ptstRes, hm, lanes, ho, he, (unanswered _).1, (unanswered _).2, hx, hr, List.isEmpty_nil, Bool.not_true,
    Bool.and_false, Bool.false_and, Bool.false_eq_true, if_false, List.map_nil, List.append_nil,
    settleLanes_complete unfailed]

end

theorem stashWords : Obl.StashWords := by
  unfold Obl.StashWords
  intro c s w f half k ga la size win
  have ga' : uread (begun c s) c.g f.a = ga := uread_begun ..
  have la' : uread (begun c s) c.g f.b = la := uread_begun ..
  have half' : halfOf (begun c s) c.g = half := halfOf_begun ..
  have win' : stashWin (begun c s) c.g (halfOf (begun c s) c.g) f.d = win := by rw [half']; exact stashWin_begun ..
  refine ⟨fun hg => ?_, fun hg hl => ?_, fun hg hl hw hb unused windows llocks glocks entry order => ?_,
    fun hv order => ?_, fun hv => ?_, fun hm inside order => ?_, fun hits t u hm fresh order known lanes reads => ?_⟩
  · rw [← ga'] at hg ⊢
    exact traps_of_trapAs rfl (stmapRes_misaligned hg)
  · rw [← ga'] at hg
    rw [← la'] at hl ⊢
    exact traps_of_trapAs rfl (stmapRes_misalignedLocal hg hl)
  · rw [← ga'] at hg
    rw [← la'] at hl
    have room : uread (begun c s) c.g f.b + 1024 * f.imm ≤ (launchOf (begun c s) c.g).window := by
      rw [la', launchOf_begun]
      exact hw
    have free : WindowFree c (begun c s) f (halfOf (begun c s) c.g) (uread (begun c s) c.g f.a)
        (uread (begun c s) c.g f.b) (1024 * f.imm) := by
      rw [half', ga', la']
      refine ⟨?_, ?_, ?_, ?_, ?_⟩
      · rwa [stashWin_begun]
      · simpa only [stashWin_begun] using windows
      · rwa [lockTables_begun]
      · rwa [core_begun, coreOf_begun, launchOf_begun]
      · rwa [core_begun, coreOf_begun]
    have maps := stmapRes_maps hg hl room (by rwa [launchOf_begun]) free order
    rw [half', ga', la', coreOf_begun, launchOf_begun] at maps
    exact does_of_done rfl maps
  · have unmaps := stunmapRes_unmaps ((congrArg Stash.valid win').trans hv) order
    rw [win', half', coreOf_begun] at unmaps
    exact ⟨does_of_done rfl unmaps, does_of_done rfl (stsyncRes_done ((congrArg Stash.valid win').trans hv) order)⟩
  · exact ⟨traps_of_trapAs rfl (stunmapRes_invalid ((congrArg Stash.valid win').trans hv)),
      traps_of_trapAs rfl (stsyncRes_invalid ((congrArg Stash.valid win').trans hv))⟩
  · rw [← laneList_begun] at inside ⊢
    exact does_of_done rfl (ptstRes_local hm inside order)
  · rw [← laneList_begun] at lanes
    exact does_of_done rfl (ptstRes_global hm fresh order known lanes reads)

/-- Settles O11. Lanes outside stash windows pass the checks (`localClear_checks`) and answer as they stand
(`localClear_prep`), so each word is a fold over its lanes; the words of stash windows and PTST have one equation for
each case. STUNMAP and STSYNC move nothing, since a write into a window has been held as it was made: that is the
model's choice (log entry 20). -/
theorem localAndStashWords : Obligations.LocalAndStashWords := ⟨localWords, stashWords⟩

end Sys2Proof.Machine
end

section
/-!
PROOFS. What stores leave unchanged, at the L2, in local memory and in the hold-back buffer (O55).
-/
namespace Sys2Proof.Machine

/-! ### The L2 (R275) -/

/-- A write of consecutive bytes changes no other byte, sector by sector. -/
theorem l2WriteAux_out (a partid : Nat) : ∀ (fuel pa : Nat) (bytes : List Byte) {s : State}, NoRawBeneath s →
    a < pa ∨ pa + bytes.length ≤ a → memGet (l2WriteAux fuel pa bytes partid s).mem a = memGet s.mem a
  | 0, _, _, _, _, _ => rfl
  | fuel + 1, pa, bytes, s, hs, ha => by
    unfold l2WriteAux
    split
    · rfl
    · have rest := l2WriteAux_out a partid fuel (pa + (64 - pa % 64)) (bytes.drop (64 - pa % 64))
        (l2WriteSector_plain pa (bytes.take (64 - pa % 64)) partid hs) (by rw [List.length_drop]; omega)
      exact rest.trans (l2WriteSector_out _ _ _ hs _ (by rw [List.length_take]; omega))

/-- A write to a sector of DRAM writes its bytes over what the L2 has made ready. -/
theorem l2WriteSector_mem_dram {pa : Nat} (bytes : List Byte) (partid : Nat) {s : State} (hd : paKind s pa = .dram) :
    (l2WriteSector pa bytes partid s).mem = memWrite (markDirty 0 pa partid s).mem pa bytes := by
  simp only [l2WriteSector, l2WriteSectorAs, hd]
  rfl

/-! ### Bytes of a chunk (R35) -/

theorem toBytes_getD : ∀ (n x k : Nat), k < n → (toBytes n x).getD k 0 = BitVec.ofNat 8 (x / 256 ^ k)
  | n + 1, x, 0, _ => by simp [toBytes]
  | n + 1, x, k + 1, h => by
    rw [toBytes, List.getD_cons_succ, toBytes_getD n _ k (Nat.lt_of_succ_lt_succ h), Nat.div_div_eq_div_mul, pow_succ']

/-- Replacing bits of a number keeps its high part and its low part. -/
theorem setBits_eq (x v : Nat) {hi lo : Nat} (h : lo ≤ hi) : setBits x hi lo v =
    2 ^ lo * (2 ^ (hi + 1 - lo) * (x / 2 ^ (hi + 1)) + v % 2 ^ (hi + 1 - lo)) + x % 2 ^ lo := by
  have split : 2 ^ (hi + 1) = 2 ^ lo * 2 ^ (hi + 1 - lo) := by rw [← pow_add]; congr 1; omega
  have high := Nat.div_add_mod x (2 ^ lo)
  have mid := Nat.div_add_mod (x / 2 ^ lo) (2 ^ (hi + 1 - lo))
  rw [split, ← Nat.div_div_eq_div_mul, setBits, nbits, Nat.shiftRight_eq_div_pow]
  generalize x / 2 ^ lo / 2 ^ (hi + 1 - lo) = H at *
  generalize x / 2 ^ lo % 2 ^ (hi + 1 - lo) = M at *
  generalize x % 2 ^ lo = L at *
  have expand : 2 ^ lo * (2 ^ (hi + 1 - lo) * H + M) + L = 2 ^ lo * (2 ^ (hi + 1 - lo) * H) + L + M * 2 ^ lo := by ring
  rw [← high, ← mid, expand, Nat.add_sub_cancel]
  ring

/-- It leaves the bits beside them. -/
theorem nbits_setBits_ne (x v : Nat) {hi lo a b : Nat} (h : lo ≤ hi) (out : a < lo ∨ hi < b) :
    nbits (setBits x hi lo v) a b = nbits x a b := by
  simp only [nbits, Nat.shiftRight_eq_div_pow]
  rcases out with below | above
  · have lowBits : ∀ y, y / 2 ^ b % 2 ^ (a + 1 - b) = y % 2 ^ lo / 2 ^ b % 2 ^ (a + 1 - b) := fun y => by
      by_cases hb : b ≤ a
      case neg => rw [show a + 1 - b = 0 by omega, pow_zero, Nat.mod_one, Nat.mod_one]
      rw [← Nat.mod_mul_right_div_self, ← Nat.mod_mul_right_div_self, ← pow_add,
        Nat.mod_mod_of_dvd _ (pow_dvd_pow 2 (by omega))]
    rw [lowBits, lowBits x, setBits_eq x v h, Nat.mul_add_mod, Nat.mod_mod]
  · obtain ⟨d, rfl⟩ := Nat.exists_eq_add_of_le (Nat.succ_le_of_lt above)
    have split : 2 ^ (hi + 1) = 2 ^ lo * 2 ^ (hi + 1 - lo) := by rw [← pow_add]; congr 1; omega
    have highBits : setBits x hi lo v / 2 ^ (hi + 1) = x / 2 ^ (hi + 1) := by
      rw [setBits_eq x v h, split, ← Nat.div_div_eq_div_mul, Nat.mul_add_div (by positivity),
        Nat.div_eq_of_lt (Nat.mod_lt _ (by positivity)), Nat.add_zero, Nat.mul_add_div (by positivity),
        Nat.div_eq_of_lt (Nat.mod_lt _ (by positivity)), Nat.add_zero]
    rw [Nat.succ_eq_add_one, pow_add, ← Nat.div_div_eq_div_mul, highBits, Nat.div_div_eq_div_mul]

/-- Replacing bytes of a chunk leaves the bytes beside them. -/
theorem chunkPut_div (x off k : Nat) {bytes : List Byte} (hb : bytes ≠ []) (hk : k < off ∨ off + bytes.length ≤ k) :
    chunkPut x off bytes / 256 ^ k % 256 = x / 256 ^ k % 256 := by
  have nonempty : 0 < bytes.length := List.length_pos_iff.mpr hb
  have byteBits : ∀ y, y / 256 ^ k % 256 = nbits y (8 * k + 7) (8 * k) := fun y => by
    rw [nbits, Nat.shiftRight_eq_div_pow, show 8 * k + 7 + 1 - 8 * k = 8 by omega, Nat.pow_mul]
    rfl
  rw [byteBits, byteBits]
  exact nbits_setBits_ne _ _ (by omega) (by omega)

/-! ### Local memory (R35, R144) -/

/-- Writing bytes of one chunk changes no other byte of a team's local memory. -/
theorem memGet_locPutChunk {g seq half a : Nat} {bytes : List Byte} {s : State} {tk h x : Nat} (hb : bytes ≠ [])
    (hhalf : half < 2) (hh : h < 2) (out : ¬(tk = tkOf g ∧ half = h ∧ a ≤ x ∧ x < a + bytes.length)) :
    memGet ((team (locPutChunk g seq half a bytes s) tk).mem h) x = memGet ((team s tk).mem h) x := by
  have written : team (locPutChunk g seq half a bytes s) tk = team (modTeam s (tkOf g) fun T =>
      T.setMem half (memWrite (T.mem half) (16 * (a / 16)) (toBytes 16
        (chunkPut (memNum ((team s (tkOf g)).mem half) (16 * (a / 16)) 16) (a % 16) bytes)))) tk := by
    have put : applyEff (.part (a % 16) bytes) (readItem s (.loc (tkOf g) half (a / 16))) =
        .num (chunkPut (memNum ((team s (tkOf g)).mem half) (16 * (a / 16)) 16) (a % 16) bytes) :=
      if_neg (by simpa using hb)
    unfold locPutChunk jwrite
    dsimp only
    rw [put]
    rfl
  rw [written, team_modTeam_if]
  split
  case isFalse => rfl
  case isTrue htk =>
  rw [Team.mem_setMem _ hhalf hh]
  split
  case isFalse => rfl
  case isTrue hhalf =>
  subst htk hhalf
  by_cases inside : 16 * (a / 16) ≤ x ∧ x < 16 * (a / 16) + 16
  case neg => exact memGet_memWrite_out _ _ _ _ (by rw [toBytes_length]; omega)
  obtain ⟨k, rfl⟩ := Nat.exists_eq_add_of_le inside.1
  rw [memGet_memWrite_in _ _ _ _ (by rw [toBytes_length]; omega), toBytes_getD _ _ _ (by omega),
    ← memRead_getD _ 16 _ _ (by omega)]
  have bytesOf := toBytes_ofBytes (memRead ((team s (tkOf g)).mem h) (16 * (a / 16)) 16)
  rw [memRead_length] at bytesOf
  rw [← bytesOf, toBytes_getD _ _ _ (by omega), ← memNum]
  refine BitVec.eq_of_toNat_eq ?_
  simp only [BitVec.toNat_ofNat]
  exact chunkPut_div _ _ _ hb (by omega)

/-- A write of local bytes changes no other byte, chunk by chunk. -/
theorem memGet_locPutAux {g seq half tk h x : Nat} (hhalf : half < 2) (hh : h < 2) :
    ∀ (fuel a : Nat) (bytes : List Byte) {s : State},
      ¬(tk = tkOf g ∧ half = h ∧ a ≤ x ∧ x < a + bytes.length) →
      memGet ((team (locPutAux g seq half fuel a bytes s) tk).mem h) x = memGet ((team s tk).mem h) x
  | 0, _, _, _, _ => rfl
  | fuel + 1, a, bytes, s, out => by
    unfold locPutAux
    split
    · rfl
    case isFalse nonempty =>
    have some_byte : bytes.take (16 - a % 16) ≠ [] := by
      rintro empty
      rcases List.take_eq_nil_iff.mp empty with full | none
      · omega
      · exact nonempty (List.isEmpty_iff.mpr none)
    refine (memGet_locPutAux hhalf hh fuel _ _ fun ⟨ht, hf, lo, hi⟩ => out ⟨ht, hf, ?_⟩).trans
      (memGet_locPutChunk some_byte hhalf hh fun ⟨ht, hf, lo, hi⟩ => out ⟨ht, hf, ?_⟩)
    · rw [List.length_take] at hi
      omega
    · rw [List.length_drop] at hi
      omega

theorem memGet_locPut {g seq half a : Nat} {bytes : List Byte} {s : State} {tk h x : Nat} (hhalf : half < 2)
    (hh : h < 2) (out : ¬(tk = tkOf g ∧ half = h ∧ a ≤ x ∧ x < a + bytes.length)) :
    memGet ((team (locPut g seq half a bytes s) tk).mem h) x = memGet ((team s tk).mem h) x :=
  memGet_locPutAux hhalf hh _ _ _ out

/-- A write of local bytes keeps every item but chunks of that half. -/
theorem readItem_locPut {g seq half a : Nat} {bytes : List Byte} {s : State} {it : Item} (hhalf : half < 2)
    (hit : it.named) (other : ∀ h ch, it ≠ .loc (tkOf g) h ch) :
    readItem (locPut g seq half a bytes s) it = readItem s it :=
  locPut_keeps (P := fun t => readItem t it = readItem s it)
    (fun _ _ _ ht => (readItem_jwrite_ne (it := .loc (tkOf g) half _) hhalf hit (other _ _)).trans ht) _ _ rfl

/-- Whatever the items say is quiet. -/
theorem quiet_reads (R : (Item → Val) → Prop) : Quiet fun t => R (readItem t) := by
  have same (s : State) := quiet_items s fun _ => True
  exact ⟨fun s g f h x => funext (fun it => (same s).grp s g f h (fun _ _ => rfl) it trivial) ▸ x,
    fun s k f x => funext (fun it => (same s).launch s k f (fun _ _ => rfl) it trivial) ▸ x,
    fun s p f x => funext (fun it => (same s).pair s p f (fun _ _ => rfl) it trivial) ▸ x,
    fun s x => funext (fun it => (same s).decision s (fun _ _ => rfl) it trivial) ▸ x,
    fun s n x => funext (fun it => (same s).next s n (fun _ _ => rfl) it trivial) ▸ x,
    fun s p b n x => funext (fun it => (same s).fills s p b n (fun _ _ => rfl) it trivial) ▸ x⟩

/-- A byte of local memory, as the item of its chunk gives it. -/
theorem memGet_eq_readItem (s : State) (tk h a : Nat) : memGet ((team s tk).mem h) a =
    (toBytes 16 (readItem s (.loc tk h (a / 16))).toNum).getD (a % 16) 0 := by
  have bytesOf := toBytes_ofBytes (memRead ((team s tk).mem h) (16 * (a / 16)) 16)
  rw [memRead_length] at bytesOf
  have chunk : (readItem s (.loc tk h (a / 16))).toNum = ofBytes (memRead ((team s tk).mem h) (16 * (a / 16)) 16) := rfl
  rw [chunk, bytesOf, memRead_getD _ _ _ _ (by omega), Nat.div_add_mod]

/-- Local bytes are quiet. -/
theorem quiet_local (s : State) (D : Nat → Nat → Nat → Prop) : Quiet fun t =>
    ∀ tk h a, D tk h a → memGet ((team t tk).mem h) a = memGet ((team s tk).mem h) a := by
  simp only [memGet_eq_readItem]
  exact quiet_reads fun r => ∀ tk h a, D tk h a → (toBytes 16 (r (.loc tk h (a / 16))).toNum).getD (a % 16) 0 =
    (toBytes 16 (readItem s (.loc tk h (a / 16))).toNum).getD (a % 16) 0

/-! ### STL (R147) -/

/-- Global memory and its poison are quiet. -/
theorem quiet_sameMemory (s : State) : Quiet (SameMemory s) :=
  (quiet_of (fun m _ _ _ _ => m) s.mem).and (quiet_of (fun _ p _ _ _ => p) s.poison)

section
variable {P : State → Prop} (hP : Quiet P) {s : State}
include hP

/-- The begin of a try keeps what is quiet. -/
theorem Quiet.begun (c : Cur) (h : P (rest s)) : P (begun c s) := hP.useRot _ _ (hP.detClose _ h)

theorem Quiet.ordEvents (g : Nat) (f : Flds) (h : P s) : P (ordEvents g f s) := by
  have acq : ∀ {t}, P t → P (acqEvent g t) := fun ht => by
    unfold acqEvent
    dsimp only
    refine hP.grp _ _ _ ?_ ht
    exact fun _ => ⟨rfl, rfl, rfl, rfl, rfl, rfl, ⟨rfl, rfl, rfl⟩, rfl⟩
  have rel : ∀ {t}, P t → P (relEvent g t) := fun ht => by
    refine hP.grp _ _ _ ?_ ht
    exact fun _ => ⟨rfl, rfl, rfl, rfl, rfl, rfl, ⟨rfl, rfl, rfl⟩, rfl⟩
  have acquired : P (if isAcq f && decide (2 ≤ f.scope) then acqEvent g s else s) := by
    split
    · exact acq h
    · exact h
  unfold Machine.ordEvents
  dsimp only
  split
  · exact rel acquired
  · exact acquired

theorem Quiet.holdSector (c : Cur) (f : Flds) (hits : List (Hit × List Byte)) (sec : Nat) (back : Option Nat)
    (h : P s) : P (holdSector c f hits sec s back) := by
  unfold Machine.holdSector
  dsimp only
  split
  · exact h
  · exact hP.hold _ _ _ _ _ h

end

/-- A byte of local memory that no lane of a store covers. -/
def Uncovered (g n : Nat) (ys : List LHit) (tk h a : Nat) : Prop :=
  h < 2 ∧ ∀ y ∈ ys, ¬(tk = tkOf g ∧ y.half = h ∧ y.off ≤ a ∧ a < y.off + n)

/-- An item outside a group's local memory. -/
def NotLocal (g : Nat) (it : Item) : Prop := it.named ∧ ∀ h ch, it ≠ .loc (tkOf g) h ch

/-- What STL leaves as it is: global memory, the local bytes outside its lanes and every other item. -/
def StlFrame (g n : Nat) (ys : List LHit) (s t : State) : Prop :=
  SameMemory s t ∧
  (∀ tk h a, Uncovered g n ys tk h a → memGet ((team t tk).mem h) a = memGet ((team s tk).mem h) a) ∧
  ∀ it, NotLocal g it → readItem t it = readItem s it

theorem stlFrame_quiet (g n : Nat) (ys : List LHit) (s : State) : Quiet (StlFrame g n ys s) :=
  (quiet_sameMemory s).and ((quiet_local s _).and (quiet_items s _))

section
variable {c : Cur} {f : Flds} {ys : List LHit}

/-- The lanes' writes keep it. -/
theorem stlFrame_stlPut {s t : State} (halves : ∀ y ∈ ys, y.half < 2) (h : StlFrame c.g (mtSize f.mod) ys s t) :
    StlFrame c.g (mtSize f.mod) ys s (stlPut c f ys t) := by
  suffices puts : ∀ zs : List LHit, (∀ z ∈ zs, z ∈ ys) → ∀ u, StlFrame c.g (mtSize f.mod) ys s u →
      StlFrame c.g (mtSize f.mod) ys s (zs.foldl
        (fun u y => locPut c.g c.w.seq y.half y.off (storeBytes t c f false y.lane) u) u) from
    puts ys (fun _ hy => hy) t h
  intro zs
  induction zs with
  | nil => exact fun _ _ hu => hu
  | cons z zs ih =>
    intro sub u hu
    have mine : z ∈ ys := sub z (List.mem_cons_self ..)
    obtain ⟨memory, localBytes, items⟩ := hu
    refine ih (fun y hy => sub y (List.mem_cons_of_mem _ hy)) _ ⟨?_, fun tk h a out => ?_, fun it other => ?_⟩
    · exact locPut_keeps (P := SameMemory s) (fun _ _ _ hm => hm) _ _ memory
    · have ⟨hh, uncovered⟩ := out
      refine (memGet_locPut (halves z mine) hh ?_).trans (localBytes tk h a out)
      rw [storeBytes, toBytes_length]
      exact uncovered z mine
    · have ⟨named, elsewhere⟩ := other
      exact (readItem_locPut (halves z mine) named elsewhere).trans (items it other)

theorem stlPut_launches (t : State) : (stlPut c f ys t).launches = t.launches :=
  foldl_keeps (P := fun u => u.launches = t.launches)
    (fun _ _ hu => locPut_keeps (P := fun u => u.launches = t.launches) (fun _ _ _ h => h) _ _ hu) ys rfl

end

theorem ordEvents_launches (g : Nat) (f : Flds) (s : State) : (ordEvents g f s).launches = s.launches := by
  unfold ordEvents
  dsimp only
  split <;> split <;> rfl

theorem hold_launches (g seq : Nat) (what : Held) (low : Bool) (back : Option Nat) (s : State) :
    (hold g seq what s low back).launches = s.launches := by
  unfold hold
  dsimp only
  split
  · split <;> rfl
  · rfl

theorem holdSector_launches (c : Cur) (f : Flds) (hits : List (Hit × List Byte)) (sec : Nat) (back : Option Nat)
    (s : State) : (holdSector c f hits sec s back).launches = s.launches := by
  unfold holdSector
  dsimp only
  split
  · rfl
  · exact hold_launches ..

/-- Without deterministic mode no charge is over. -/
theorem overCharge_normal {s t : State} {g : Nat} (hd : isDet s g = false) (h : t.launches = s.launches) (seq : Nat) :
    overCharge t g seq = none := by
  have normal : isDet t g = false := by
    simpa only [isDet, launchOf, launch, h] using hd
  rw [overCharge, normal]
  rfl

/-- A local address lies in one of the two halves. -/
theorem localAt_half {s : State} {g : Nat} {x : Int} {p : Nat × Nat} (h : localAt s g x = some p) : p.1 < 2 := by
  have own : halfOf s g < 2 := by
    unfold halfOf
    dsimp only
    split <;> decide
  unfold localAt at h
  dsimp only at h
  split at h
  · cases h
  split at h
  · cases h
    exact own
  split at h
  · cases h
    show 1 - halfOf s g < 2
    omega
  · cases h

theorem localClear_halves {c : Cur} {s : State} {f : Flds} {size : Nat} {load : Bool} {off : Int}
    {own : Nat × Nat × Nat} {ys : List LHit} (h : Obl.LocalClear c s f size load off own ys) :
    ∀ y ∈ ys, y.half < 2 := fun y hy => by
  have place := List.mem_map_of_mem (f := fun y : LHit => (y.lane, some (y.half, y.off))) hy
  rw [← h.places] at place
  obtain ⟨l, -, hl⟩ := List.mem_map.mp place
  exact localAt_half (congrArg Prod.snd hl)

/-- Settles O55. At the L2 a store writes sector by sector (`l2WriteAux_out`); in local memory it writes chunk by chunk,
and a chunk's other bytes stay (`chunkPut_div`). What STL and ST do besides is the control of words, which is quiet. -/
theorem storeFrames : Obligations.StoreFrames := by
  unfold Obligations.StoreFrames
  refine ⟨fun s pa partid a bytes plain out => ?_, fun s pa partid k bytes dram hk fits => ?_,
    fun c s w ys det starts clear => ?_, fun c s t w hits det starts clear room => ?_⟩
  · exact l2WriteAux_out a partid _ pa bytes plain out
  · have nonempty : bytes ≠ [] := List.length_pos_iff.mp (by omega)
    rw [l2Write_sector pa bytes partid s fits nonempty, l2WriteSector_mem_dram bytes partid dram]
    exact memGet_memWrite_in _ _ _ _ hk
  · have fr := stlFrame_quiet c.g (mtSize w.flds.mod) ys s
    have charged : overCharge (ordEvents c.g w.flds (stlPut c w.flds ys (begun c s))) c.g c.w.seq = none :=
      overCharge_normal det (by rw [ordEvents_launches, stlPut_launches, begun_launches]) _
    have start : StlFrame c.g (mtSize w.flds.mod) ys s (rest s) :=
      ⟨⟨rfl, rfl⟩, fun _ _ _ _ => rfl, fun it _ => by cases it <;> rfl⟩
    obtain ⟨memory, localBytes, items⟩ :=
      fr.finish c (.stl w) (fr.ordEvents c.g w.flds (stlFrame_stlPut (localClear_halves clear) (fr.begun c start)))
    exact ⟨_, word_done starts (stlRes_clear clear) charged, memory, fun tk h a hh out => localBytes tk h a ⟨hh, out⟩,
      fun it named other => items it ⟨named, other⟩⟩
  · have same := (quiet_sameMemory t).and (quiet_items t Item.named)
    have charged : overCharge (ordEvents c.g w.flds ((hits.map fun h => h.pa / 64).dedup.foldl
        (fun u sec => holdSector c w.flds (hits.map fun h => (h, storeBytes t c w.flds false h.lane)) sec u) t))
        c.g c.w.seq = none :=
      overCharge_normal det ((ordEvents_launches ..).trans (foldl_keeps (P := fun u => u.launches = t.launches)
        (fun u sec hu => (holdSector_launches ..).trans hu) _ rfl)) _
    have held := foldl_keeps (P := fun u => SameMemory t u ∧ ∀ it, it.named → readItem u it = readItem t it)
      (fun _ sec hu => same.holdSector c w.flds
      (hits.map fun h => (h, storeBytes t c w.flds false h.lane)) sec none hu) (hits.map fun h => h.pa / 64).dedup
      ⟨⟨rfl, rfl⟩, fun _ _ => rfl⟩
    exact ⟨_, word_done starts (storeRes_clear clear room) charged,
      same.finish c (.st w) (same.ordEvents c.g w.flds held)⟩

end Sys2Proof.Machine
end

section
/-!
PROOFS. How held entries perform and what they do to memory (O30).
-/
namespace Sys2Proof.Machine

/-! ### The events that perform entries (R270) -/

section
variable {s t : State} {pr n k : Nat} {h : HB}

/-- The event of a kind performs an entry of that kind, where it may. -/
theorem drains_of_drainEntry (hk : k < 7) (ht : drainEntry pr n (fun h => entryKind h = k) s = t) :
    Obl.Drains pr n k s t := by
  subst ht
  match k, hk with
  | 0, _ | 1, _ | 2, _ | 3, _ | 4, _ | 5, _ | 6, _ => rfl

theorem drainEntry_kept {want : HB → Bool} (hn : (pair s pr).hb[n]? = some h)
    (kept : want h = false ∨ entryMay s pr n h = false) : drainEntry pr n want s = s := by
  rw [drainEntry, hn]
  exact if_neg (by rcases kept with e | e <;> simp [e])

theorem drainEntry_ready {want : HB → Bool} (hn : (pair s pr).hb[n]? = some h) (hw : want h = true)
    (may : entryMay s pr n h = true) : drainEntry pr n want s = performReady pr n h s := by
  rw [drainEntry, hn]
  exact if_pos (by rw [hw, may]; rfl)

theorem performReady_served {u : State} (served : entryServed h s = (true, u)) :
    performReady pr n h s = performAt pr n h u := by
  rw [performReady, served]
  rfl

theorem performReady_waits {u : State} (served : entryServed h s = (false, u)) : performReady pr n h s = u := by
  rw [performReady, served]
  rfl

theorem entryMay_unsealed (open_ : h.sealed = false) : entryMay s pr n h = false := by
  rw [entryMay, open_]
  rfl

theorem entryMay_keptBack {e : HB} (he : e ∈ (pair s pr).hb.take n) (kept : keepsBack e h = true) :
    entryMay s pr n h = false := by
  have earlier : ((pair s pr).hb.take n).any (fun e => keepsBack e h) = true := List.any_eq_true.mpr ⟨e, he, kept⟩
  rw [entryMay, earlier, Bool.not_true, Bool.and_false]
  rfl

end

/-! ### Runs of bytes (R251) -/

/-- Runs are the bytes one by one. -/
theorem foldl_byteRuns (pa : Nat) : ∀ (xs : List (Nat × Byte)) (m : List Host.Cell),
    (byteRuns xs).foldl (fun m r => memWrite m (pa + r.1) r.2) m = xs.foldl (fun m x => memSet m (pa + x.1) x.2) m
  | [], _ => rfl
  | (o, b) :: xs, m => by
    have others := foldl_byteRuns pa xs (memSet m (pa + o) b)
    rw [List.foldl_cons, ← others, byteRuns]
    cases byteRuns xs with
    | nil => rfl
    | cons r rs =>
      obtain ⟨p, bs⟩ := r
      dsimp only
      split
      case isTrue next =>
        subst next
        rfl
      case isFalse => rfl

/-- A run starts at one of the bytes. -/
theorem mem_byteRuns {r : Nat × List Byte} : ∀ {xs : List (Nat × Byte)}, r ∈ byteRuns xs → ∃ x ∈ xs, x.1 = r.1
  | (o, b) :: xs, hr => by
    have later : ∀ {q}, q ∈ byteRuns xs → ∃ x ∈ (o, b) :: xs, x.1 = q.1 := fun hq => by
      obtain ⟨x, hx, e⟩ := mem_byteRuns hq
      exact ⟨x, List.mem_cons_of_mem _ hx, e⟩
    rw [byteRuns] at hr
    cases hruns : byteRuns xs with
    | nil =>
      rw [hruns] at hr
      exact ⟨_, List.mem_cons_self .., by rw [List.mem_singleton.mp hr]⟩
    | cons q rs =>
      rw [hruns] at hr later
      obtain ⟨p, bs⟩ := q
      dsimp only at hr
      split at hr <;> rcases List.mem_cons.mp hr with rfl | hr
      · exact ⟨_, List.mem_cons_self .., rfl⟩
      · exact later (List.mem_cons_of_mem _ hr)
      · exact ⟨_, List.mem_cons_self .., rfl⟩
      · exact later hr

/-- No key is below the first. -/
theorem nfind_none_of_lt {α : Type} {k : Nat} : ∀ {xs : NMap α}, (∀ x ∈ xs, k < x.1) → nfind xs k = none
  | [], _ => rfl
  | (j, a) :: xs, h => by
    have first : k < j := h _ (List.mem_cons_self ..)
    rw [nfind, if_neg (by omega)]
    exact nfind_none_of_lt fun x hx => h x (List.mem_cons_of_mem _ hx)

/-- Writing bytes at ascending offsets leaves each its byte and the others as they are. -/
theorem memGet_foldl_memSet (pa i : Nat) : ∀ (xs : NMap Byte) (m : List Host.Cell), xs.Pairwise (fun x y => x.1 < y.1) →
    memGet (xs.foldl (fun m x => memSet m (pa + x.1) x.2) m) (pa + i) = (nfind xs i).getD (memGet m (pa + i))
  | [], _, _ => rfl
  | (o, b) :: xs, m, sorted => by
    obtain ⟨first, others⟩ := List.pairwise_cons.mp sorted
    rw [List.foldl_cons, memGet_foldl_memSet pa i xs _ others, nfind]
    split
    case isTrue e =>
      subst e
      rw [nfind_none_of_lt first, Option.getD_none, memGet_memSet]
      rfl
    case isFalse e => rw [memGet_memSet_ne _ _ (by omega)]

theorem memGet_foldl_memSet_out (pa a : Nat) : ∀ (xs : NMap Byte) (m : List Host.Cell), (∀ x ∈ xs, a ≠ pa + x.1) →
    memGet (xs.foldl (fun m x => memSet m (pa + x.1) x.2) m) a = memGet m a
  | [], _, _ => rfl
  | x :: xs, m, out => by
    rw [List.foldl_cons, memGet_foldl_memSet_out pa a xs _ fun y hy => out y (List.mem_cons_of_mem _ hy),
      memGet_memSet_ne _ _ (out x (List.mem_cons_self ..))]

/-! ### What the L2's traffic leaves alone (R272, R275) -/

/-- What is read of memory, registers, poison and cards stays where no DRAM was written beneath a clean copy. -/
theorem l2Quiet_reads (R : List Host.Cell → NMap Word64 → NMap Bool → NMap (BitVec 1024) → Prop) :
    L2Quiet fun s => NoRawBeneath s ∧ R s.mem s.mmr s.poison s.cards where
  charge _ _ _ h := h
  lines _ _ h := h
  cores _ _ h := h
  drop s sec pid h := by
    unfold dropSector
    split
    · exact h
    case h_2 d hd =>
      obtain ⟨x, hx, e⟩ := mem_of_nfind hd
      have clean : d.drop = false := e ▸ h.1 x hx
      simp only [clean, Bool.false_eq_true, if_false]
      obtain ⟨runs, regulators, charged⟩ := chargeDram_eq (64 * sec) pid { s with dirty := ndel s.dirty sec }
      rw [charged]
      exact ⟨fun y hy => h.1 y (mem_ndel hy), h.2⟩

/-- A line that leaves the L2 is there no more. -/
theorem nfind_evictLine (line : Nat) (s : State) : nfind (evictLine line s).l2 line = none := by
  unfold evictLine
  split
  · assumption
  · exact nfind_ndel_self ..

/-- The bits of a word of which the number gives the low part. -/
theorem nbits_toNat_ofNat (x : Nat) {n hi lo : Nat} (h : lo ≤ hi) (hn : hi < n) :
    nbits (BitVec.ofNat n x).toNat hi lo = nbits x hi lo := by
  simp only [nbits, Nat.shiftRight_eq_div_pow, BitVec.toNat_ofNat]
  rw [← Nat.mod_mul_right_div_self, ← Nat.mod_mul_right_div_self x, ← pow_add,
    Nat.mod_mod_of_dvd _ (pow_dvd_pow 2 (by omega))]

/-- A write of a card's bits changes the cards alone. -/
theorem setCardFld_eq (n hi lo v : Nat) (s : State) : ∃ cards, setCardFld n hi lo v s = { s with cards := cards } :=
  ⟨_, rfl⟩

theorem extEff_eq (lk : Nat) (s : State) : ∃ cards, extEff lk s = { s with cards := cards } := setCardFld_eq ..

theorem extEff_mem (lk : Nat) (s : State) : (extEff lk s).mem = s.mem := by
  obtain ⟨cards, e⟩ := extEff_eq lk s
  rw [e]

/-- A write of a card's bits leaves its other bits. -/
theorem cardFld_setCardFld_ne {n hi lo v k a b : Nat} {s : State} (h : lo ≤ hi) (hb : b ≤ a) (ha : a < 1024)
    (out : a < lo ∨ hi < b) : cardFld (setCardFld n hi lo v s) k a b = cardFld s k a b := by
  unfold setCardFld cardFld
  dsimp only
  rw [nget_nset_if]
  split
  case isFalse => rfl
  case isTrue e =>
    subst e
    exact (nbits_toNat_ofNat _ hb ha).trans (nbits_setBits_ne _ _ h out)

/-- An external effect leaves the card's checkpoint as it is (R328, R329). -/
theorem cSnap_extEff (s : State) (lk n : Nat) : cSnap (extEff lk s) n = cSnap s n :=
  cardFld_setCardFld_ne (by decide) (by decide) (by decide) (by decide)

/-! ### A launch's write in DRAM (R251, R328) -/

/-- The memory, registers and snapshots against which a launch's writes in DRAM perform. -/
structure PlainDram (card : Nat) (kinds : NMap Word64) (s : State) : Prop where
  beneath : NoRawBeneath s
  mmr : s.mmr = kinds
  snap : cSnap s card = 0

section
variable {card lk : Nat} {kinds : NMap Word64} {s : State}

theorem plainDram_extEff (h : PlainDram card kinds s) : PlainDram card kinds (extEff lk s) := by
  have snap := (cSnap_extEff s lk card).trans h.snap
  obtain ⟨cards, e⟩ := extEff_eq lk s
  rw [e] at snap ⊢
  exact ⟨h.beneath, h.mmr, snap⟩

/-- A write within one sector of DRAM stores its bytes, and keeps what the next write asks. -/
theorem plainDram_l2WriteSectorAs (h : PlainDram card kinds s) (mt : Nat) (but : Option (Nat × Nat)) {pa : Nat}
    (bytes : List Byte) (partid : Nat) (hd : paKind s pa = .dram) :
    PlainDram card kinds (l2WriteSectorAs mt but pa bytes partid s) ∧
      (l2WriteSectorAs mt but pa bytes partid s).mem = memWrite s.mem pa bytes := by
  obtain ⟨beneath, mem, mmr, cards⟩ := markDirty_keeps
    (l2Quiet_reads fun m r _ c => m = s.mem ∧ r = s.mmr ∧ c = s.cards) mt pa partid ⟨h.beneath, rfl, rfl, rfl⟩
    (fun _ ht => ⟨fun x hx => ht.1 x (mem_ndel hx), ht.2⟩)
    fun _ _ hdrop ht => ⟨fun x hx => by
      rcases mem_nput hx with e | hx
      · rw [e]; exact hdrop
      · exact ht.1 x hx, ht.2⟩
  have snap : cSnap (markDirty mt pa partid s) card = 0 := by
    rw [← h.snap, cSnap, cardFld, cards]
    rfl
  simp only [l2WriteSectorAs, hd]
  exact ⟨⟨beneath, mmr.trans h.mmr, snap⟩, congrArg (memWrite · pa bytes) mem⟩

theorem plainDram_launchPut (h : PlainDram (lk / 2) kinds s) (mt : Nat) (but : Option (Nat × Nat)) (core va : Nat)
    {pa : Nat} (bytes : List Byte) (partid : Nat) (hd : paKind s pa = .dram) :
    PlainDram (lk / 2) kinds (launchPut mt but lk core va pa bytes partid s) ∧
      (launchPut mt but lk core va pa bytes partid s).mem = memWrite s.mem pa bytes := by
  have noCopy : snapshot lk va pa s = extEff lk s := if_pos h.snap
  have effect : ∀ t, PlainDram (lk / 2) kinds t ∧ paKind t pa = .dram ∧ t.mem = s.mem →
      PlainDram (lk / 2) kinds (l2WriteSectorAs mt but pa bytes partid t) ∧
        (l2WriteSectorAs mt but pa bytes partid t).mem = memWrite s.mem pa bytes :=
    fun t ⟨ht, hk, hm⟩ => hm ▸ plainDram_l2WriteSectorAs ht mt but bytes partid hk
  simp only [launchPut, hd, launchWriteAs, noCopy]
  refine effect _ ?_
  split
  · have twice := plainDram_extEff (lk := lk) (plainDram_extEff (lk := lk) h)
    exact ⟨twice, (paKind_congr (twice.mmr.trans h.mmr.symm) pa).trans hd, by rw [extEff_mem, extEff_mem]⟩
  · have once := plainDram_extEff (lk := lk) h
    exact ⟨once, (paKind_congr (once.mmr.trans h.mmr.symm) pa).trans hd, extEff_mem ..⟩

/-- The runs of a sector of DRAM are written one after another. -/
theorem foldl_launchPut_mem (mt : Nat) (but : Option (Nat × Nat)) (core va pa partid : Nat) :
    ∀ (rs : List (Nat × List Byte)) {s : State}, PlainDram (lk / 2) kinds s →
      (∀ r ∈ rs, paKind s (pa + r.1) = .dram) →
      (rs.foldl (fun s r => launchPut mt but lk core (va + r.1) (pa + r.1) r.2 partid s) s).mem =
        rs.foldl (fun m r => memWrite m (pa + r.1) r.2) s.mem
  | [], _, _, _ => rfl
  | r :: rs, s, h, dram => by
    obtain ⟨plain, mem⟩ := plainDram_launchPut h mt but core (va + r.1) r.2 partid (dram r (List.mem_cons_self ..))
    rw [List.foldl_cons, List.foldl_cons, ← mem]
    refine foldl_launchPut_mem mt but core va pa partid rs plain fun q hq => ?_
    rw [paKind_congr (plain.mmr.trans h.mmr.symm)]
    exact dram q (List.mem_cons_of_mem _ hq)

end

theorem lowLine_mem (pa : Nat) (s : State) : (lowLine pa s).mem = s.mem := by
  unfold lowLine
  split <;> rfl

/-- The held bytes of a sector of DRAM are written one by one (R251). -/
theorem putSector_mem {h : HB} {va pa : Nat} {bytes : NMap Byte} {s : State} (offsets : ∀ x ∈ bytes, x.1 < 64)
    (dram : ∀ i < 64, paKind s (pa + i) = .dram) (snap : cSnap s (lkOf h.g / 2) = 0) (plain : NoRawBeneath s) :
    (putSector h va pa bytes s).mem = bytes.foldl (fun m x => memSet m (pa + x.1) x.2) s.mem := by
  have start : PlainDram (lkOf h.g / 2) s.mmr s := ⟨plain, rfl, snap⟩
  have runs := foldl_launchPut_mem (entryMt h) (h.back.map fun half => (tkOf h.g, half)) h.core va pa h.acct
    (byteRuns bytes) start fun r hr => by
      obtain ⟨x, hx, e⟩ := mem_byteRuns hr
      exact e ▸ dram x.1 (offsets x hx)
  rw [← foldl_byteRuns, ← runs, putSector]
  split
  · exact lowLine_mem ..
  · rfl

/-! ### The statements -/

theorem entriesPerform : Obl.HeldEntriesPerform := by
  unfold Obl.HeldEntriesPerform
  intro pr n k s u h hn hk
  refine ⟨fun may served => ?_, fun may served kind => ?_, fun kept => ?_, fun other => ?_, entryMay_unsealed,
    fun e he kept => entryMay_keptBack he kept, fun good group lands => ?_,
    fun va pa bytes rel dev what _ sorted offsets dram snap plain => ?_⟩
  · have performs : ∀ j < 7, entryKind h = j → Obl.Drains pr n j s (performAt pr n h u) := fun j hj kind =>
      drains_of_drainEntry hj ((drainEntry_ready hn (decide_eq_true kind) may).trans (performReady_served served))
    exact ⟨performs 0 (by decide), performs 1 (by decide), performs 2 (by decide), performs 3 (by decide),
      performs 4 (by decide), performs 5 (by decide), performs 6 (by decide)⟩
  · exact drains_of_drainEntry hk ((drainEntry_ready hn (decide_eq_true kind) may).trans (performReady_waits served))
  · exact drains_of_drainEntry hk (drainEntry_kept hn (.inr kept))
  · exact drains_of_drainEntry hk (drainEntry_kept hn (.inl (decide_eq_false other)))
  · simp only [performAt, good, group, lands, Bool.not_true, Bool.false_and, Bool.or_false, Bool.false_eq_true,
      if_false, if_true]
  · have written : (performHeld h s).mem = bytes.foldl (fun m x => memSet m (pa + x.1) x.2) s.mem := by
      rw [performHeld, what]
      exact putSector_mem offsets dram snap plain
    rw [written]
    refine ⟨fun i _ => memGet_foldl_memSet pa i bytes _ sorted, fun a out => memGet_foldl_memSet_out pa a bytes _ ?_⟩
    intro x hx
    have := offsets x hx
    omega

/-- A sector written back is clean, no other gets dirty, and what agents read is as before (R157). -/
structure Cleaned (sec : Nat) (s t : State) : Prop where
  clean : nfind t.dirty sec = none
  others : ∀ k, nfind s.dirty k = none → nfind t.dirty k = none
  beneath : NoRawBeneath t
  reads : t.mem = s.mem ∧ t.poison = s.poison
  lines : t.l2 = s.l2

theorem writeBack_cleaned (pa : Nat) {s : State} (plain : NoRawBeneath s) :
    Cleaned (pa / 64) s (writeBack pa s) := by
  unfold writeBack
  split
  case h_2 hd => exact ⟨hd, fun _ hk => hk, plain, ⟨rfl, rfl⟩, rfl⟩
  case h_1 d hd =>
    obtain ⟨x, hx, e⟩ := mem_of_nfind hd
    have clean : d.drop = false := e ▸ plain x hx
    obtain ⟨runs, regulators, charged⟩ := chargeDram_eq pa
      ((nfind s.l2 (pa / 128)).map (·.acct) |>.getD 0) { s with dirty := ndel s.dirty (pa / 64) }
    rw [clean, if_neg (by decide), charged]
    refine ⟨nfind_ndel_self .., fun k hk => ?_, fun y hy => plain y (mem_ndel hy), ⟨rfl, rfl⟩, rfl⟩
    by_cases same : k = pa / 64
    · rw [same]
      exact nfind_ndel_self ..
    · exact (nfind_ndel_ne _ same).trans hk

/-- A line evicted changes nothing that agents read (R272, R275). -/
theorem evictLine_reads (line : Nat) {s : State} (plain : NoRawBeneath s) :
    (evictLine line s).mem = s.mem ∧ (evictLine line s).poison = s.poison :=
  ((l2Quiet_reads fun m _ p _ => m = s.mem ∧ p = s.poison).evictLine line ⟨plain, rfl, rfl⟩).2

theorem cleanSector_clean {lk partid pa : Nat} {s : State} (clean : isPoison s pa = false) :
    cleanSector lk partid pa s = some s := if_pos (by rw [clean]; rfl)

theorem performEffects : Obl.PerformEffects := by
  unfold Obl.PerformEffects
  intro s h gs
  refine ⟨fun va pa what plain line => ?_, fun va pa what plain => ?_, fun op ty a clean there => ?_,
    fun op va pa x clean => ?_⟩
  · have low := writeBack_cleaned pa plain
    have high := writeBack_cleaned (pa + 64) low.beneath
    rw [show (pa + 64) / 64 = pa / 64 + 1 by omega] at high
    have performed : performHeld h s = writeBack (pa + 64) (writeBack pa s) := by rw [performHeld, what]; rfl
    obtain ⟨⟨lowMem, lowPoison⟩, highMem, highPoison⟩ := low.reads, high.reads
    rw [performed]
    exact ⟨high.others _ low.clean, high.clean, highMem.trans lowMem, highPoison.trans lowPoison,
      high.lines.trans low.lines⟩
  · have performed : performHeld h s = performInv pa s := by rw [performHeld, what]
    obtain ⟨mem, poison⟩ := evictLine_reads (pa / 128) plain
    rw [performed]
    exact ⟨nfind_evictLine .., fun x hx => by simpa using (List.mem_filter.mp hx).2, mem, poison⟩
  · simp only [performAtom, cleanSector_clean clean, List.foldl_cons, List.foldl_nil, atomLane, there,
      Bool.false_eq_true, if_false]
  · intro o
    refine ⟨fun hop kind => ?_, fun live => ?_⟩
    · have idle : (decide (op ≠ 1) && decide (o.kind ≠ 2)) = true := by simp [hop, kind]
      simp only [performTb, cleanSector_clean clean]
      exact if_pos idle
    · have acts : (decide (op ≠ 1) && decide (o.kind ≠ 2)) = false := by
        rcases live with e | e <;> simp [e]
      simp only [performTb, cleanSector_clean clean]
      exact if_neg (ne_true_of_eq_false acts)

/-- Settles O30. Each event finds its entry (`drains_of_drainEntry`) and performs it where nothing keeps it back; what a
store's entry writes is a fold over the runs of its bytes, which are the bytes one by one (`foldl_byteRuns`). That
entries of one sector keep each other back as whole sectors is the model's choice (log entry 121). -/
theorem heldEntriesPerform : Obligations.HeldEntriesPerform := ⟨entriesPerform, performEffects⟩

end Sys2Proof.Machine
end

section
/-!
PROOFS. Accumulator rows, format streams and XFLUSH (O14, O15).
-/
namespace Sys2Proof.Machine

/-! ### Rows, streams and runs where a try begins (R29, R33) -/

section
variable (c : Cur) (s : State) (g : Nat)

@[simp] theorem fread_begun (n : Nat) : fread (begun c s) g n = fread s g n :=
  (congrArg (fun G : Group => (nget 0 G.f n).toNat) (work_begun c s g) :)
@[simp] theorem rowGet_begun (n : Nat) : rowGet (begun c s) g n = rowGet s g n := by
  simp only [rowGet, physRow, core_begun, coreOf_begun, winG_begun]
@[simp] theorem poisRows_begun (lo n : Nat) : poisRows (begun c s) g lo n = poisRows s g lo n := by
  simp only [poisRows, rowGet_begun]
@[simp] theorem rowsOver_begun (n : Nat) : rowsOver (begun c s) g n = rowsOver s g n := by
  simp only [rowsOver, isDet_begun, coreOf_begun, launchOf_begun]
@[simp] theorem neverFits_begun (own : Nat × Nat × Nat) : neverFits (begun c s) g own = neverFits s g own := by
  simp only [neverFits, isDet_begun, coreOf_begun, launchOf_begun]
@[simp] theorem localRun_begun (a n : Nat) : localRun (begun c s) g a n = localRun s g a n := by
  simp only [localRun, launchOf_begun, halfOf_begun]
@[simp] theorem localLocked_begun (half a n : Nat) (load : Bool) :
    localLocked (begun c s) g half a n load = localLocked s g half a n load := by
  simp only [localLocked, lockTables_begun]
@[simp] theorem runsLocked_begun (load : Bool) (runs : List (Nat × Nat)) :
    runsLocked (begun c s) g load runs = runsLocked s g load runs := by
  simp only [runsLocked, localRun_begun, localLocked_begun]
@[simp] theorem runStashed_begun (half a n : Nat) : runStashed (begun c s) g half a n = runStashed s g half a n :=
  congrArg (fun wins : List Stash => wins.any fun w => w.valid && overlaps w.lbase (w.lbase + w.size) a n)
    (List.map_congr_left fun n _ => stashWin_begun c s g half n)
@[simp] theorem runsStashed_begun (runs : List (Nat × Nat)) :
    runsStashed (begun c s) g runs = runsStashed s g runs := by
  simp only [runsStashed, localRun_begun, runStashed_begun]
@[simp] theorem runGrans_begun (runs : List (Nat × Nat)) : runGrans (begun c s) g runs = runGrans s g runs := by
  simp only [runGrans, localRun_begun]
theorem normRows_begun (f : Flds) (lo : Nat) : normRows (begun c s) c f lo = normRows s c f lo := by
  simp only [normRows, rowGet_begun]

end

/-! ### What a word makes of a row (R61 to R64, R177, R181 to R186) -/

theorem rowEffects : Obl.RowEffects := by
  intro r
  exact ⟨fun _ => rfl, fun _ => rfl, fun _ => rfl, fun _ => rfl, rfl, rfl, fun _ _ _ => rfl, fun _ => rfl,
    fun _ _ => rfl⟩

/-- A row that a word writes takes the word's effect. -/
@[simp] theorem rowGet_rowPut (c : Cur) (n : Nat) (e : RowEff) (t : State) :
    rowGet (rowPut c n e t) c.g n = applyRow e (rowGet t c.g n) := by
  have written : rowGet (rowPut c n e t) c.g n =
      nget {} (core (writeItem t (.row (coreOf t c.g) (physRow t c.g n)) (.row (applyRow e (rowGet t c.g n))))
        (coreOf t c.g)).rows (physRow t c.g n) := rfl
  rw [written, writeItem, core_modCore]
  exact nget_nset_self ..

/-! ### Words on rows that they may use (R169, R181 to R185) -/

section
variable {c : Cur} {s : State} {f : Flds} {lo n writes : Nat}

/-- Rows that the word may use pass its check. -/
theorem rowsCheck_free (h : Obl.rowsFree s c.g lo n writes) : rowsCheck c lo n writes (begun c s) = none := by
  obtain ⟨held, inside, fits⟩ := h
  simp only [rowsCheck, rowsHeld_begun, winG_begun, rowsOver_begun, held, Nat.not_lt.mpr inside, fits,
    Bool.or_false, decide_false, Bool.false_eq_true, if_false]

/-- Rows without poison are read as they stand. -/
theorem readingRows_clean {t : State} (h : poisRows t c.g lo n = []) (k : State → Res) :
    readingRows c lo n t k = k t := by
  rw [readingRows, h]

theorem xzeroRes_free (h : Obl.rowsFree s c.g (uread s c.g f.d) (f.c + 1) (f.c + 1)) :
    xzeroRes f c (begun c s) = .done (rowsPut c (uread s c.g f.d) (f.c + 1) (.zero f.i12) (begun c s)) := by
  simp only [xzeroRes, uread_begun, rowsCheck_free h]

theorem xexpRes_free (h : Obl.rowsFree s c.g (uread s c.g f.d) (f.c + 1) (f.c + 1)) :
    xexpRes f c (begun c s) = .done (rowsPut c (uread s c.g f.d) (f.c + 1)
      (.expo (BitVec.ofNat 32 (uread s c.g f.a))) (begun c s)) := by
  simp only [xexpRes, uread_begun, rowsCheck_free h]

theorem xnormRes_free (h : Obl.rowsFree s c.g (uread s c.g f.d) (f.c + 1) (normRows s c f (uread s c.g f.d)).length)
    (hp : poisRows s c.g (uread s c.g f.d) (f.c + 1) = []) :
    xnormRes f c (begun c s) = .done ((normRows s c f (uread s c.g f.d)).foldl (fun t i =>
      rowPut c i (if f.m 0 then .fit f.imm else .norm f.i12) t) (begun c s)) := by
  rw [← poisRows_begun c] at hp
  simp only [xnormRes, uread_begun, normRows_begun, rowsCheck_free h, readingRows_clean hp]

/-- XGRD gives the exponent above the guard word, and clears the sticky flags where MOD asks (R183). -/
theorem xgrdRes_free (h : Obl.rowsFree s c.g (uread s c.g f.a) 1 (if f.m 0 then 1 else 0))
    (hp : poisRows s c.g (uread s c.g f.a) 1 = []) :
    let r := rowGet s c.g (uread s c.g f.a)
    let t := uwrite c f.d (cut 64 (r.ex * 2 ^ 32 + r.gw.toNat)) (begun c s)
    xgrdRes f c (begun c s) = .done (if f.m 0 then rowPut c (uread s c.g f.a) .unflag t else t) := by
  rw [← poisRows_begun c] at hp
  simp only [xgrdRes, uread_begun, rowsCheck_free h, readingRows_clean hp, rowGet_begun]
  split <;> rfl

theorem xrdRes_free (h : Obl.rowsFree s c.g (uread s c.g f.a) 1 0) (hp : poisRows s c.g (uread s c.g f.a) 1 = []) :
    xrdRes f c (begun c s) = .done (putLanes c (tcWide f.c) f.d ((laneList s c f).map fun l =>
      (l, xrdVal f (f.imm * widthOf s c.g + l) (rowGet s c.g (uread s c.g f.a)))) (begun c s)) := by
  rw [← poisRows_begun c] at hp
  simp only [xrdRes, uread_begun, rowsCheck_free h, readingRows_clean hp, rowGet_begun, eachLane, laneList_begun,
    widthOf_begun]

theorem xwrRes_free (h : Obl.rowsFree s c.g (uread s c.g f.d) 1 1) :
    xwrRes f c (begun c s) = .done (rowPut c (uread s c.g f.d) (.elems (f.mod / 4) f.c ((laneList s c f).map fun l =>
      (f.imm * widthOf s c.g + l, laneRaw (begun c s) c.g (tcWide f.c) f.a l))) (begun c s)) := by
  simp only [xwrRes, uread_begun, rowsCheck_free h, laneList_begun, widthOf_begun]

end

/-- Settles O14. Rows that a word may use pass its check (`rowsCheck_free`), those without poison are read as they stand
(`readingRows_clean`), and a row that is written takes the word's effect (`rowGet_rowPut`). That XEXP neither traps on a
poisoned row nor cleans it, and that XRD and XWR without lanes still check their row, is the model's choice (log entries
105 and 103). -/
theorem rowWords : Obligations.RowWords := by
  unfold Obligations.RowWords
  intro c s w f d a n
  refine ⟨rowEffects, fun m e t => rowGet_rowPut c m e t, fun free => ⟨?zero, ?exponent⟩, fun free clean => ?norm,
    fun free clean => ⟨fun keep => ?guard, fun clear => ?guardClear⟩, fun free clean => ?read, fun free => ?write⟩
  case zero => exact does_of_done rfl (xzeroRes_free free)
  case exponent => exact does_of_done rfl (xexpRes_free free)
  case norm => exact does_of_done rfl (xnormRes_free free clean)
  case guard => exact does_of_done rfl ((xgrdRes_free free clean).trans (by rw [if_neg (ne_true_of_eq_false keep)]))
  case guardClear => exact does_of_done rfl ((xgrdRes_free free clean).trans (by rw [if_pos clear]))
  case read => exact does_of_done rfl (xrdRes_free free clean)
  case write => exact does_of_done rfl (xwrRes_free free)

/-! ### Format streams (R171, R172) -/

section
variable {c : Cur} {s : State} {f : Flds}

/-- The descriptor that XSTRM makes of two uniform registers. -/
def strmHalves (s : State) (g : Nat) (f : Flds) : Nat := uread s g f.b * 2 ^ 64 + uread s g f.a

theorem xstrmRes_good (h : strmBad (strmHalves s c.g f) = false) :
    xstrmRes f c s = .done (fwrite c f.d (strmHalves s c.g f) s) := if_neg (ne_true_of_eq_false h)

theorem xstrmRes_malformed (h : strmBad (strmHalves s c.g f) = true) :
    xstrmRes f c s = trapAs c clsRange 4 0 s := if_pos h

end

theorem streamWords : Obl.StreamWords := by
  unfold Obl.StreamWords
  intro c s w f x
  have halves : strmHalves (begun c s) c.g f = x := by simp only [strmHalves, uread_begun, x]
  refine ⟨fun good => ?_, fun malformed => ?_, ?_⟩
  · rw [← halves] at good ⊢
    exact does_of_done rfl (xstrmRes_good good)
  · exact traps_of_trapAs rfl (xstrmRes_malformed (by rwa [halves]))
  · refine does_of_done rfl ?_
    rw [xstrmGetRes, fread_begun]

/-! ### XFLUSH (R186) -/

section
variable {c : Cur} {s : State} {f : Flds}

/-- Runs inside the window pass the check of their addresses. -/
theorem runsPage_inside {runs : List (Nat × Nat)} (h : ∀ r ∈ runs, (localRun s c.g r.1 r.2).isSome) :
    runsPage c runs (begun c s) = none := by
  have none_outside : runs.find? (fun r => (localRun s c.g r.1 r.2).isNone) = none :=
    List.find?_eq_none.mpr fun r hr => by simp [Option.isSome_iff_ne_none.mp (h r hr)]
  simp only [runsPage, localRun_begun, none_outside]

end

theorem flushRows : Obl.FlushRows := by
  unfold Obl.FlushRows
  intro c s w
  dsimp only
  intro format space inside unlocked unstashed free fits clean
  obtain ⟨held, window, share⟩ := free
  have journal : (w.flds.m 2 && rowsOver s c.g (w.flds.c + 1)) = false := by
    cases clears : w.flds.m 2
    · rfl
    · simpa [clears] using share
  refine does_of_done rfl ?_
  rw [← poisRows_begun c] at clean
  simp only [xflushRes, fread_begun, uread_begun, format, space, runsPage_inside inside, runsLocked_begun, unlocked,
    rowsHeld_begun, held, winG_begun, Nat.not_lt.mpr window, runsStashed_begun, unstashed, rowsOver_begun, journal,
    runGrans_begun, neverFits_begun, fits, readingRows_clean clean, rowGet_begun, ne_eq, not_true_eq_false,
    decide_false, Bool.or_false, Bool.false_eq_true, if_false]

/-- Settles O15. XSTRM takes the two halves that it reads (`strmHalves`) unless they are malformed. XFLUSH's checks are
gone through in their order, and rows without poison are read as they stand (`readingRows_clean`). Which granules a
flush covers whole, and so cleans, is the model's choice (log entry 104, in `runPut`). -/
theorem streamAndFlushWords : Obligations.StreamAndFlushWords := ⟨streamWords, flushRows⟩

end Sys2Proof.Machine
end

section
/-!
PROOFS. Matrix products (O16).
-/
namespace Sys2Proof.Machine

/-! ### Weights and runs where a try begins (R29, R33) -/

section
variable (c : Cur) (s : State) (g : Nat)

@[simp] theorem weightsHeld_begun (lo n : Nat) : weightsHeld (begun c s) g lo n = weightsHeld s g lo n := by
  simp only [weightsHeld, jobsOf, core_begun, coreOf_begun, winG_begun]
@[simp] theorem weightPois_begun (lo n : Nat) : weightPois (begun c s) g lo n = weightPois s g lo n := by
  simp only [weightPois, core_begun, coreOf_begun, winG_begun]
@[simp] theorem weightNum_begun (lo n : Nat) : weightNum (begun c s) g lo n = weightNum s g lo n := by
  simp only [weightNum, core_begun, coreOf_begun, winG_begun]
@[simp] theorem runPois_begun (r : Nat × Nat) : runPois (begun c s) g r = runPois s g r := by
  simp only [runPois, localRun_begun, team_begun]
@[simp] theorem locPoison_begun (tk half a : Nat) : locPoison (begun c s) tk half a = locPoison s tk half a := by
  simp only [locPoison, team_begun]
@[simp] theorem runNum_begun (r : Nat × Nat) : runNum (begun c s) g r = runNum s g r := by
  simp only [runNum, localRun_begun, locPoison_begun, team_begun]

end

/-! ### A product's checks (R169, R170, R175, R176) -/

section
variable {op : Nat} {c : Cur} {s : State} {f : Flds} {runs : List (Nat × Nat)} (h : Obl.ProdClear op c s f runs)
include h

/-- The two streams' formats and spaces are those of a product. -/
theorem prodClear_streams :
    (!fmtsFit (strmOf (fread s c.g f.a)).fmt (strmOf (fread s c.g f.b)).fmt ||
      !decide ((strmOf (fread s c.g f.a)).space = 0) || decide ((strmOf (fread s c.g f.b)).space = 0) ||
      (decide (op = 4) &&
        (!decide ((strmOf (fread s c.g f.a)).fmt = 5) || !decide ((strmOf (fread s c.g f.b)).fmt = 5)))) = false := by
  obtain ⟨inLocal, inWeights⟩ := h.spaces
  have ints : (decide (op = 4) && (!decide ((strmOf (fread s c.g f.a)).fmt = 5) ||
      !decide ((strmOf (fread s c.g f.b)).fmt = 5))) = false := by
    by_cases int : op = 4
    · simp [h.ints int]
    · simp [int]
  rw [h.formats, inLocal, decide_eq_false inWeights, ints]
  rfl

/-- No copy and no card holds what the product reads or writes. -/
theorem prodClear_free :
    (runsLocked s c.g true runs ||
      weightsHeld s c.g (strmOf (fread s c.g f.b)).base (strmOf (fread s c.g f.b)).stride ||
      rowsHeld s c.g (uread s c.g f.d) (f.c + 1)) = false := by
  obtain ⟨runsFree, weightsFree⟩ := h.unlocked
  obtain ⟨rowsFree, -, -⟩ := h.rows
  rw [runsFree, weightsFree, rowsFree]
  rfl

/-- Its rows and weight bytes lie in their windows, its runs outside stash windows, and its rows fit the journal. -/
theorem prodClear_ranges :
    (decide ((winG s c.g).accN < uread s c.g f.d + (f.c + 1)) ||
      decide ((winG s c.g).wbN < (strmOf (fread s c.g f.b)).base + (strmOf (fread s c.g f.b)).stride) ||
      runsStashed s c.g runs || rowsOver s c.g (f.c + 1)) = false := by
  obtain ⟨-, window, journal⟩ := h.rows
  rw [decide_eq_false (Nat.not_lt.mpr window), decide_eq_false (Nat.not_lt.mpr h.weights), h.unstashed, journal]
  rfl

end

/-- The three product words run one effect, each with its opcode. -/
theorem exec_product {op : Nat} (hop : op = 2 ∨ op = 3 ∨ op = 4) (w : XW) (s : State) :
    let i : Instr := if op = 2 then .xmma w else if op = 3 then .xmmac w else .ximma w
    exec i s = word i (prodRes op w.flds) s := by
  rcases hop with rfl | rfl | rfl <;> rfl

/-- Settles O16. A product whose operands are clear passes its checks in their order (`prodClear_streams`,
`runsPage_inside`, `prodClear_free`, `prodClear_ranges`); without poison nothing is counted, and each row takes the
products of the runs and the tile that stand where the try begins. -/
theorem matrixProducts : Obligations.MatrixProducts := by
  unfold Obligations.MatrixProducts
  intro c s w op product
  simp only [decide_not]
  intro clear tileFits
  obtain ⟨runsClean, weightsClean⟩ := clear.clean
  have poison (runs : List (Nat × Nat)) : runs.flatMap (runPois (begun c s) c.g) = runs.flatMap (runPois s c.g) :=
    List.flatMap_congr fun r _ => runPois_begun c s c.g r
  refine does_of_done (exec_product product w s) ?_
  simp only [prodRes, fread_begun, uread_begun, weightNum_begun, runsLocked_begun, weightsHeld_begun, rowsHeld_begun,
    winG_begun, runsStashed_begun, rowsOver_begun, poison, weightPois_begun, runNum_begun, decide_not,
    prodClear_streams clear, runsPage_inside clear.inside, prodClear_free clear, prodClear_ranges clear,
    Nat.not_lt.mpr tileFits, runsClean, weightsClean, List.isEmpty_nil, Bool.not_true, Bool.and_false, List.map_nil,
    List.dedup_nil, List.length_nil, Nat.add_zero, countPois_zero, ite_self, Bool.false_eq_true, if_false]

end Sys2Proof.Machine
end

section
/-!
PROOFS. The operator walker's interface (O17).
-/
namespace Sys2Proof.Machine

/-! ### Cards where a try begins (R29, R33) -/

@[simp] theorem begun_now (c : Cur) (s : State) : (begun c s).now = s.now :=
  detClose_keeps (P := fun t => t.now = s.now) (fun _ _ ht => ht) rfl

section
variable (c : Cur) (s : State)

@[simp] theorem launch_begun (lk : Nat) : launch (begun c s) lk = launch s lk := by
  simp only [launch, begun_launches]
@[simp] theorem placedCores_begun (lk : Nat) : placedCores (begun c s) lk = placedCores s lk := by
  simp only [placedCores, begun_teams, launch_begun]
/-- The number by which the group's own launch names its core. -/
theorem special_core_begun : special (begun c s) c 5 = special s c 5 := by
  simp only [special, launchOf_begun, coreOf_begun, placedCores_begun]
@[simp] theorem jobsOf_begun (lk k : Nat) : jobsOf (begun c s) lk k = jobsOf s lk k := by
  simp only [jobsOf, core_begun]
@[simp] theorem jobByHandle_begun (g h : Nat) : jobByHandle (begun c s) g h = jobByHandle s g h := by
  simp only [jobByHandle, launchOf_begun, seatOf, team_begun, core_begun]

end

/-! ### XRUN (R187) -/

section
variable {c : Cur} {t : State} {f : Flds}

/-- The card that XRUN offers to the walker of its core. -/
def newCard (c : Cur) (f : Flds) (t : State) : Job :=
  { id := nget 0 (launch t (lkOf c.g)).handles (special t c 5), hcore := special t c 5, lk := lkOf c.g, chain := false,
    g := c.g, seq := c.w.seq, addr := uread t c.g f.a, since := t.now }

/-- What XRUN leaves: the card is read, the launch's next handle goes up, and the core keeps the card. -/
def cardTaken (c : Cur) (f : Flds) (t : State) : State :=
  let j := newCard c f t
  let r := readCard (coreOf t c.g) j t
  uwrite c f.d (j.id % 2 ^ 32 + j.hcore * 2 ^ 32)
    (modJobs (coreOf t c.g) (fun js => trimJobs j.lk j.hcore (js ++ [r.1]))
      (modLaunch r.2 j.lk fun l => { l with handles := nput l.handles j.hcore (j.id + 1) }))

theorem xrunRes_misaligned (h : uread t c.g f.a % 256 ≠ 0) :
    xrunRes f c t = trapAs c clsMisalign 0 (uread t c.g f.a) t := if_pos h

/-- A context with four unfinished cards on the core waits. -/
theorem xrunRes_full (ha : uread t c.g f.a % 256 = 0)
    (hl : 4 ≤ ((jobsOf t (lkOf c.g) (coreOf t c.g)).filter Job.live).length) : xrunRes f c t = waitFor c 4 t :=
  (if_neg (not_not.mpr ha)).trans (if_pos hl)

theorem xrunRes_takes (ha : uread t c.g f.a % 256 = 0)
    (hl : ((jobsOf t (lkOf c.g) (coreOf t c.g)).filter Job.live).length < 4)
    (he : epochWait t c (0, 0, 0) = false) : xrunRes f c t = .done (cardTaken c f t) :=
  (if_neg (not_not.mpr ha)).trans ((if_neg (Nat.not_le.mpr hl)).trans (if_neg (ne_true_of_eq_false he)))

/-! ### XPOLL and XKILL (R188, R189) -/

/-- XPOLL answers where its card is done, and, outside deterministic mode, where it does not ask to wait. -/
theorem xpollRes_answers
    (h : (∀ j, jobByHandle t c.g (uread t c.g f.a) = some j → j.2.live = false) ∨
      (f.m 0 = false ∧ isDet t c.g = false)) :
    xpollRes f c t = .done (pollEvent c.g (jobByHandle t c.g (uread t c.g f.a))
      (uwrite c f.d (jobStatus (jobByHandle t c.g (uread t c.g f.a))) t)) := by
  refine if_neg (ne_true_of_eq_false ?_)
  rcases h with ended | ⟨noWait, normal⟩
  · cases hj : jobByHandle t c.g (uread t c.g f.a) with
    | none => exact Bool.and_false _
    | some j =>
      have done : j.2.live = false := ended j hj
      simp [done]
  · simp [noWait, normal]

theorem xpollRes_waits {j : Nat × Job} (hj : jobByHandle t c.g (uread t c.g f.a) = some j) (hl : j.2.live = true)
    (hw : f.m 0 = true ∨ isDet t c.g = true) : xpollRes f c t = waitFor c 4 t := by
  refine if_pos ?_
  rw [hj]
  simpa [hl] using hw

theorem xkillRes_none (h : jobByHandle t c.g (uread t c.g f.a) = none) : xkillRes f c t = .done t := by
  rw [xkillRes, h]

theorem xkillRes_stops {k : Nat} {j : Job} (h : jobByHandle t c.g (uread t c.g f.a) = some (k, j)) :
    let u := modJobs k (fun js => js.map fun y => if y = j then stopJob (some (c.g, c.w.seq)) y else y) t
    xkillRes f c t = .done (if j.live && j.stage = 0 then decisionPoint u else u) := by
  rw [xkillRes, h]

end

/-- Settles O17. XRUN has one equation for each of its checks and one for the card that it takes (`xrunRes_takes`);
XPOLL and XKILL act on the card that the handle names, which is the same where their try begins (`jobByHandle_begun`).
That a card killed at a tile-step boundary calls for a decision, and that XRUN in deterministic mode waits for its
epoch, is the model's choice (log entries 60 and 48). -/
theorem operatorCards : Obligations.OperatorCards := by
  unfold Obligations.OperatorCards
  intro c s w f lk k x hc n live r s1
  have address : uread (begun c s) c.g f.a = x := uread_begun ..
  have card : jobByHandle (begun c s) c.g (uread (begun c s) c.g f.a) = jobByHandle s c.g x := by
    rw [address, jobByHandle_begun]
  have unfinished : ((jobsOf (begun c s) (lkOf c.g) (coreOf (begun c s) c.g)).filter Job.live).length = live := by
    rw [jobsOf_begun, coreOf_begun]
  refine ⟨fun aligned room known => ?run, fun misaligned => ?misaligned, fun aligned full => ?full,
    fun answers => ?poll, fun j found unended waits => ?pollWaits, fun unknown => ?killNone, fun m j found => ?kill⟩
  case run =>
    have taken := xrunRes_takes (by rwa [address]) (by rwa [unfinished]) known
    simp only [cardTaken, newCard, special_core_begun, launch_begun, coreOf_begun, uread_begun, begun_now] at taken
    exact does_of_done rfl taken
  case misaligned =>
    rw [← address] at misaligned ⊢
    exact traps_of_trapAs rfl (xrunRes_misaligned misaligned)
  case full => exact waits_of_waitFor rfl (xrunRes_full (by rwa [address]) (by rwa [unfinished]))
  case poll =>
    rw [← card, ← isDet_begun c] at answers
    rw [← card]
    exact does_of_done rfl (xpollRes_answers answers)
  case pollWaits =>
    rw [← card] at found
    rw [← isDet_begun c] at waits
    exact waits_of_waitFor rfl (xpollRes_waits found unended waits)
  case killNone => exact does_of_done rfl (xkillRes_none (card.trans unknown))
  case kill => exact does_of_done rfl (xkillRes_stops (card.trans found))

end Sys2Proof.Machine
end

section
/-!
PROOFS. Named barriers (O20).
-/
namespace Sys2Proof.Machine

/-! ### The barrier value (R210) -/

section
variable {left count phase : Nat}

@[simp] theorem barLeft_barMake : barLeft (barMake left count phase) = left % 128 := by
  rw [barLeft, barMake, nbits, Nat.shiftRight_zero]
  omega

@[simp] theorem barCount_barMake : barCount (barMake left count phase) = count % 128 := by
  rw [barCount, barMake, nbits, Nat.shiftRight_eq_div_pow]
  omega

@[simp] theorem barPhase_barMake : barPhase (barMake left count phase) = phase % 256 := by
  rw [barPhase, barMake, nbits, Nat.shiftRight_eq_div_pow]
  omega

/-- The phase is counted modulo 256. -/
theorem barMake_phase_mod : barMake left count (phase % 256) = barMake left count phase := by
  rw [barMake, barMake, Nat.mod_mod]

end

theorem barArrive_unarmed {b : Nat} (h : barCount b = 0) : barArrive b = b := if_pos h

theorem barDrop_unarmed {b : Nat} (h : barCount b = 0) : barDrop b = b := if_pos h

theorem barArrive_armed {b : Nat} (h : barCount b ≠ 0) : barArrive b =
    if barLeft b = 1 ∨ barLeft b = 0 then barMake (barCount b) (barCount b) (barPhase b + 1)
    else barMake (barLeft b - 1) (barCount b) (barPhase b) := by
  rw [barArrive, if_neg h]
  exact if_congr (by omega) rfl rfl

theorem barDrop_armed {b : Nat} (h : barCount b ≠ 0) : barDrop b =
    if barLeft b = 1 ∨ barLeft b = 0 then barMake (barCount b - 1) (barCount b - 1) (barPhase b + 1)
    else barMake (barLeft b - 1) (barCount b - 1) (barPhase b) := by
  rw [barDrop, if_neg h]
  exact if_congr (by omega) rfl rfl

theorem barrierValues : Obl.BarrierValues := by
  unfold Obl.BarrierValues
  intro left count phase some_left le lt phaseLt
  have left' : barLeft (barMake left count phase) = left := barLeft_barMake.trans (Nat.mod_eq_of_lt (by omega))
  have count' : barCount (barMake left count phase) = count := barCount_barMake.trans (Nat.mod_eq_of_lt lt)
  have phase' : barPhase (barMake left count phase) = phase := barPhase_barMake.trans (Nat.mod_eq_of_lt phaseLt)
  have armed : barCount (barMake left count phase) ≠ 0 := by omega
  rw [barArrive_armed armed, barDrop_armed armed, left', count', phase']
  refine ⟨fun more => ?_, fun last => ?_, fun b h => ⟨barArrive_unarmed h, barDrop_unarmed h⟩⟩
  · have goesOn : ¬(left = 1 ∨ left = 0) := by omega
    exact ⟨if_neg goesOn, if_neg goesOn⟩
  · have ends : left = 1 ∨ left = 0 := .inl last
    rw [if_pos ends, if_pos ends, barMake_phase_mod, barMake_phase_mod]
    exact ⟨rfl, rfl⟩

/-! ### BAR, BARA, BARW and BARD (R210 to R212) -/

@[simp] theorem barAt_begun (c : Cur) (s : State) (g n : Nat) : barAt (begun c s) g n = barAt s g n := by
  simp only [barAt, team_begun]

section
variable {c : Cur} {t : State} {f : Flds}

/-- The first try of BAR arrives; it is done where the barrier is not armed or its phase has passed with the arrival. -/
theorem barRes_passes (hs : c.w.stage = 0) (h : barCount (barAt t c.g f.a) = 0 ∨
      barPhase (barAt (arriveBar c f.a .barArrive t) c.g f.a) ≠ barPhase (barAt t c.g f.a)) :
    barRes f c t = .done (acqEvent c.g (arriveBar c f.a .barArrive t)) :=
  (if_pos hs).trans (if_pos (by simpa using h))

/-- Else it goes on to wait, with the phase at its arrival. -/
theorem barRes_arrives (hs : c.w.stage = 0) (hc : barCount (barAt t c.g f.a) ≠ 0)
    (hp : barPhase (barAt (arriveBar c f.a .barArrive t) c.g f.a) = barPhase (barAt t c.g f.a)) :
    barRes f c t = .wait { c.w with stage := 1, aux := barPhase (barAt t c.g f.a), cause := 2 }
      (arriveBar c f.a .barArrive t) :=
  (if_pos hs).trans (if_neg (by simp [hc, hp]))

/-- A later try is done once the phase at its arrival has passed. -/
theorem barRes_passed (hs : c.w.stage ≠ 0) (hp : barPhase (barAt t c.g f.a) ≠ c.w.aux) :
    barRes f c t = .done (acqEvent c.g t) :=
  (if_neg hs).trans (if_pos hp)

theorem barRes_waits (hs : c.w.stage ≠ 0) (hp : barPhase (barAt t c.g f.a) = c.w.aux) :
    barRes f c t = waitFor c 2 t :=
  (if_neg hs).trans (if_neg (not_not.mpr hp))

theorem barwRes_passed (h : barPhase (barAt t c.g f.a) ≠ uread t c.g f.b % 256) :
    barwRes f c t = .done (acqEvent c.g t) := if_pos h

theorem barwRes_waits (h : barPhase (barAt t c.g f.a) = uread t c.g f.b % 256) : barwRes f c t = waitFor c 2 t :=
  if_neg (not_not.mpr h)

end

/-- Settles O20. Each word has one equation for each case of its own effect, the same in its short and its long form;
the barrier value is taken apart by its fields (`barLeft_barMake`, `barCount_barMake`, `barPhase_barMake`). -/
theorem namedBarriers : Obligations.NamedBarriers := by
  refine ⟨?_, barrierValues⟩
  unfold Obl.NamedBarriers
  intro c s says4
  have words {bar bara barw bard : Instr} {f : Flds} (hbar : exec bar s = word bar (barRes f) s)
      (hbara : exec bara s = word bara (baraRes f) s) (hbarw : exec barw s = word barw (barwRes f) s)
      (hbard : exec bard s = word bard (bardRes f) s) : says4 bar bara barw bard f := by
    have value : barAt (begun c s) c.g f.a = barAt s c.g f.a := barAt_begun ..
    have asked : uread (begun c s) c.g f.b = uread s c.g f.b := uread_begun ..
    simp only [says4, ← value, ← asked]
    refine ⟨fun first passes => ?_, fun first armed same starts fits => ?_, fun later passed => ?_,
      fun later same => ?_, ?_, fun passed => ?_, fun same => ?_, ?_⟩
    · exact does_of_done hbar (barRes_passes first passes)
    · exact hbar.trans (word_wait starts (barRes_arrives first armed same) fits)
    · exact does_of_done hbar (barRes_passed later passed)
    · exact waits_of_waitFor hbar (barRes_waits later same)
    · exact does_of_done hbara rfl
    · exact does_of_done hbarw (barwRes_passed passed)
    · exact waits_of_waitFor hbarw (barwRes_waits same)
    · exact does_of_done hbard rfl
  exact ⟨fun w => words rfl rfl rfl rfl, fun w => words rfl rfl rfl rfl⟩

end Sys2Proof.Machine
end

section
/-!
PROOFS. Transaction barriers (O21).
-/
namespace Sys2Proof.Machine

/-! ### When a phase completes (R213, R214) -/

theorem barrierPhases : Obl.BarrierPhases := fun _ =>
  ⟨fun left pend => if_pos ⟨left, pend⟩, fun more => if_neg (not_and_or.mpr more)⟩

/-! ### Team objects (R213, R214) -/

section
variable {c : Cur} {s : State} {f : Flds} {x : Half} {o : TbObj}

section
variable {a : Nat} (h : Obl.TeamObj s c.g a x o)
include h

/-- A team object that passes the checks is handed on as it stands, under contain and under continue. -/
theorem teamObj_clean (k : Half → TbObj → State → Res) : teamObj c a (begun c s) k = k x o (begun c s) := by
  have clean : locPoison (begun c s) (tkOf c.g) x.half x.off = false := (locPoison_begun ..).trans h.clean
  simp only [teamObj, h.aligned, localRun_begun, h.place, clean, cleanGranule_plain clean, ite_self, team_begun,
    h.object, ne_eq, not_true_eq_false, Bool.false_and, Bool.false_eq_true, if_false]

end

section
variable (h : Obl.TeamObj s c.g (uread s c.g f.a) x o)
include h

theorem tbinitRes_team (hm : f.m 0 = false) : tbinitRes f c (begun c s) =
    if 64 < f.imm then trapAs c clsRange 6 0 (begun c s) else .done (tbJw c x 0 f.imm (begun c s)) := by
  simp only [tbinitRes, hm, uread_begun, teamObj_clean h, Bool.false_eq_true, if_false]

theorem tbexpRes_team (hm : f.m 3 = false) : tbexpRes f c (begun c s) =
    if o.kind ≠ 1 then trapAs c clsRange 6 0 (begun c s)
    else .done (tbJw c x 2 (sx 32 (uread s c.g f.b)) (begun c s)) := by
  simp only [tbexpRes, hm, uread_begun, teamObj_clean h, Bool.false_eq_true, if_false]

theorem tbarrRes_team (hm : f.m 3 = false) : tbarrRes f c (begun c s) =
    if o.kind ≠ 1 ∨ o.left = 0 then trapAs c clsRange 6 0 (begun c s)
    else .done (tbJw c x 3 (if f.m 0 then sx 32 (uread s c.g f.b) else 0)
      (if f.m 1 then uwrite c f.d o.phase (begun c s) else begun c s)) := by
  simp only [tbarrRes, hm, uread_begun, teamObj_clean h, Bool.or_eq_true, decide_eq_true_eq,
    Bool.false_eq_true, if_false]

theorem tbwaitRes_team (hm : f.m 3 = false) : tbwaitRes f c (begun c s) =
    if o.kind ≠ 1 then trapAs c clsRange 6 0 (begun c s)
    else if tbPassed o.phase (uread s c.g f.b) then .done (acqEvent c.g (begun c s)) else waitFor c 2 (begun c s) := by
  simp only [tbwaitRes, hm, uread_begun, teamObj_clean h, Bool.false_eq_true, if_false]

end

/-! ### Cluster objects (R213 to R215) -/

section
variable {a own : Nat} {reads : Bool} {hit : Hit} {t : State} (h : Obl.ClusterObj c s a reads own hit t)
include h

/-- A cluster object passes the checks of an atomic of one lane. -/
theorem clusterObj_checks : globalChecks c 16 reads (0, 0, own) [(0, a)] (begun c s) = none := by
  have aligned : firstLane [(0, a)] (fun va => va % 16 ≠ 0) = none := firstLane_none (by simp [h.aligned])
  have unlocked : firstLane [(0, a)] (fun va => (globalLock (begun c s) c.g va 16 reads).isSome) = none :=
    firstLane_none (by simp [h.unlocked])
  simp only [globalChecks, aligned, unlocked, h.fits, Bool.false_eq_true, if_false]

end

/-- With room in the hold-back buffer its update is held. -/
theorem clusterObj_holds {a : Nat} {hit : Hit} {t : State} (h : Obl.ClusterObj c s a false 64 hit t)
    (room : holdFull t c.g c.w.seq 1 = none) (op cnt : Nat) (v : Int) :
    clusterObj c a op cnt v (begun c s) = .done (hold c.g c.w.seq (.tb op a hit.pa cnt v) t) := by
  obtain ⟨pois, fail⟩ := h.fresh
  simp only [clusterObj, clusterObj_checks h, fail, wasPois_fresh pois, h.translated, h.clean, holdRoom_none room,
    ne_eq, not_true_eq_false, Bool.and_false, Bool.false_eq_true, if_false]

section
variable {hit : Hit} {t : State} (h : Obl.ClusterObj c s (uread s c.g f.a) false 64 hit t)
  (room : holdFull t c.g c.w.seq 1 = none)
include h room

theorem tbinitRes_cluster (hm : f.m 0 = true) : tbinitRes f c (begun c s) =
    .done (hold c.g c.w.seq (.tb 1 (uread s c.g f.a) hit.pa f.imm f.imm) t) := by
  rw [tbinitRes, if_pos hm, uread_begun]
  exact clusterObj_holds h room ..

theorem tbexpRes_cluster (hm : f.m 3 = true) : tbexpRes f c (begun c s) =
    .done (hold c.g c.w.seq (.tb 2 (uread s c.g f.a) hit.pa 0 (sx 32 (uread s c.g f.b))) t) := by
  rw [tbexpRes, if_pos hm, uread_begun, uread_begun]
  exact clusterObj_holds h room ..

theorem tbarrRes_cluster (hm : f.m 3 = true) : tbarrRes f c (begun c s) =
    .done (hold c.g c.w.seq (.tb 3 (uread s c.g f.a) hit.pa 0 (if f.m 0 then sx 32 (uread s c.g f.b) else 0)) t) := by
  rw [tbarrRes, if_pos hm, uread_begun, uread_begun]
  exact clusterObj_holds h room ..

end

/-- TBWAIT reads a cluster object that no held atomic of the group is still to change, once its sector is there. -/
theorem tbwaitRes_cluster {hit : Hit} {t u : State} (hm : f.m 3 = true)
    (h : Obl.ClusterObj c s (uread s c.g f.a) true 0 hit t) (known : epochWait (begun c s) c (0, 0, 0) = false)
    (unheld : ownAtoms t c [hit.pa] 16 = []) (read : readSectors c [hit] t = (true, u)) :
    let t1 := markRead c.g (hitBytes [hit] 16) (cacheRead c.g hit.pa hit.low u)
    let o := tbOf (loadNum t1 c.g hit.pa 16)
    o.kind = 2 → tbPassed o.phase (uread s c.g f.b) = true →
      tbwaitRes f c (begun c s) = .done (acqEvent c.g t1) := by
  intro t1 o kind passed
  obtain ⟨pois, fail⟩ := h.fresh
  simp only [t1, o] at kind passed
  simp only [tbwaitRes, hm, uread_begun, clusterObj_checks h, known, fail, wasPois_fresh pois, h.translated, h.clean,
    unheld, read, kind, passed, ne_eq, not_true_eq_false, List.isEmpty_nil, Bool.not_true, Bool.and_false,
    Bool.false_eq_true, if_false, if_true]
  rfl

end

theorem transactionBarriers_words : Obl.TransactionBarriers := by
  unfold Obl.TransactionBarriers
  intro c s w x o f a v
  refine ⟨fun object => ⟨fun m small => ?_, fun m large => ?_, fun m kind => ?_, fun m kind => ?_,
      fun m kind left => ?_, fun m bad => ?_, fun m kind passed => ?_, fun m kind same => ?_, fun m kind => ?_⟩,
    fun hit t object room => ⟨fun m => ?_, fun m => ⟨?_, ?_⟩⟩,
    fun hit t u m object known unheld read kind passed => ?_⟩
  · exact does_of_done rfl ((tbinitRes_team object m).trans (if_neg (Nat.not_lt.mpr small)))
  · exact traps_of_trapAs rfl ((tbinitRes_team object m).trans (if_pos large))
  · exact does_of_done rfl ((tbexpRes_team object m).trans (if_neg (not_not.mpr kind)))
  · exact traps_of_trapAs rfl ((tbexpRes_team object m).trans (if_pos kind))
  · exact does_of_done rfl ((tbarrRes_team object m).trans (if_neg (not_or.mpr ⟨not_not.mpr kind, left⟩)))
  · exact traps_of_trapAs rfl ((tbarrRes_team object m).trans (if_pos bad))
  · exact does_of_done rfl ((tbwaitRes_team object m).trans ((if_neg (not_not.mpr kind)).trans (if_pos passed)))
  · exact waits_of_waitFor rfl ((tbwaitRes_team object m).trans
      ((if_neg (not_not.mpr kind)).trans (if_neg (by rw [same]; decide))))
  · exact traps_of_trapAs rfl ((tbwaitRes_team object m).trans (if_pos kind))
  · exact does_of_done rfl (tbinitRes_cluster object room m)
  · exact does_of_done rfl (tbexpRes_cluster object room m)
  · exact does_of_done rfl (tbarrRes_cluster object room m)
  · exact does_of_done rfl (tbwaitRes_cluster m object known unheld read kind passed)

/-- Settles O21. A team object that passes its checks is handed on as it stands (`teamObj_clean`), so each word has one
equation for it; a cluster object goes like an atomic of one lane (`clusterObj_holds`, `tbwaitRes_cluster`). -/
theorem transactionBarriers : Obligations.TransactionBarriers := ⟨transactionBarriers_words, barrierPhases⟩

end Sys2Proof.Machine
end

section
/-!
PROOFS. The block pool, quantum control, time waits and the rotating region (O22).
-/
namespace Sys2Proof.Machine

/-! ### What more the begin of a try leaves as it is (R29, R33) -/

section
variable (c : Cur) (s : State) (g : Nat)

@[simp] theorem poolOf_begun : poolOf (begun c s) g = poolOf s g := by
  simp only [poolOf, team_begun, halfOf_begun]
@[simp] theorem seatOf_begun : seatOf (begun c s) g = seatOf s g := by
  simp only [seatOf, team_begun]
@[simp] theorem part_begun (lk k : Nat) : part (begun c s) lk k = part s lk k := by
  simp only [part, launch_begun]
@[simp] theorem handlerStuck_begun : handlerStuck (begun c s) g = handlerStuck s g := by
  simp only [handlerStuck, grp_begun_handler]

end

/-! ### The other groups of a core (R217) -/

/-- Entries other than the one that is put stay, in their order. -/
theorem map_fst_filter_nput {α : Type} {p : Nat → Bool} {k : Nat} (hp : p k = false) (a : α) : ∀ m : NMap α,
    ((nput m k a).filter fun x => p x.1).map Prod.fst = (m.filter fun x => p x.1).map Prod.fst
  | [] => by simp [nput, hp]
  | (k', b) :: m => by
    have ih := map_fst_filter_nput hp a m
    simp only [nput]
    split
    case isTrue same =>
      subst same
      simp [hp]
    case isFalse =>
      split
      · simp [hp]
      · by_cases h : p k' = true <;> simp [h, ih]

/-- An update of a group changes nothing of the other groups of its core. -/
theorem coreMates_modGrp (s : State) (g : Nat) (f : Group → Group) : coreMates (modGrp s g f) g = coreMates s g :=
  map_fst_filter_nput (p := fun x => tkOf x = tkOf g && x ≠ g && halfOf s x = halfOf s g) (by simp) _ s.groups

/-- Nor does a journaled write of one of the group's own items. -/
theorem coreMates_jw_own {c : Cur} {it : Item} (own : ∀ t x, ∃ f, writeItem t it x = modGrp t c.g f) (e : Eff)
    (s : State) : coreMates (jw c it e s) c.g = coreMates s c.g := by
  have journaled : coreMates (jw c it e s) c.g = coreMates (writeItem s it (applyEff e (readItem s it))) c.g := rfl
  obtain ⟨f, hf⟩ := own s (applyEff e (readItem s it))
  rw [journaled, hf, coreMates_modGrp]

theorem coreMates_addPool (c : Cur) (n : Int) (s : State) : coreMates (addPool c n s) c.g = coreMates s c.g := rfl

theorem coreMates_setBlocks (c : Cur) (n : Nat) (s : State) : coreMates (setBlocks c n s) c.g = coreMates s c.g :=
  coreMates_jw_own (fun _ x => ⟨fun G => { G with blocks := x.toNum }, rfl⟩) _ s

theorem coreMates_clearReg (c : Cur) (n : Nat) (s : State) : coreMates (clearReg c n s) c.g = coreMates s c.g := by
  have own (l : Nat) (t : State) (x : Val) : ∃ f, writeItem t (.v c.g n l) x = modGrp t c.g f :=
    ⟨fun G => { G with v := nset 0 G.v (n * 64 + l) (BitVec.ofNat 32 x.toNum) }, rfl⟩
  unfold clearReg
  exact foldl_keeps (P := fun t => coreMates t c.g = coreMates s c.g)
    (fun t l ht => (coreMates_jw_own (own l) _ t).trans ht) _ rfl

/-! ### GIVE and CLAIM (R26, R216 to R218) -/

/-- The surrendered registers are cleared and the blocks go from the group to the pool. -/
def surrendered (f : Flds) (c : Cur) (t : State) : State :=
  addPool c f.a (setBlocks c ((grp t c.g).blocks - f.a)
    ((List.range (8 * f.a)).foldl (fun u i => clearReg c (8 * ((grp t c.g).blocks - f.a) + i) u) t))

theorem coreMates_surrendered (f : Flds) (c : Cur) (t : State) :
    coreMates (surrendered f c t) c.g = coreMates t c.g := by
  rw [surrendered, coreMates_addPool, coreMates_setBlocks]
  exact foldl_keeps (P := fun u => coreMates u c.g = coreMates t c.g)
    (fun u _ hu => (coreMates_clearReg c _ u).trans hu) _ rfl

section
variable {c : Cur} {s t : State} {f : Flds}

/-- GIVE surrenders its blocks, and the pool then grants the CLAIMs that wait on the core. -/
theorem giveRes_grants : giveRes f c t =
    .done ((coreMates (surrendered f c t) c.g).foldl (fun u h => grantWaiting h u) (surrendered f c t)) := by
  rw [coreMates_surrendered]
  rfl

theorem claimRes_granted (h : f.a ≤ poolOf t c.g) : claimRes f c t = .done (grantClaim f c t) := if_pos h

theorem claimRes_waits (h : poolOf t c.g < f.a) (hs : c.w.stage ≠ 2) : claimRes f c t = waitFor c 5 t :=
  (if_neg (Nat.not_le.mpr h)).trans (if_neg hs)

/-- A CLAIM released from a deadlock traps in its plain form. -/
theorem claimRes_traps (h : poolOf t c.g < f.a) (hs : c.w.stage = 2) (hm : f.m 0 = false) :
    claimRes f c t = .trap clsClaimdl 0 0 0 { c.w with stage := 0, cause := 0 } t :=
  (if_neg (Nat.not_le.mpr h)).trans ((if_pos hs).trans (if_neg (by rw [hm]; decide)))

/-- CLAIM.st then completes with 0. -/
theorem claimRes_fails (h : poolOf t c.g < f.a) (hs : c.w.stage = 2) (hm : f.m 0 = true) :
    claimRes f c t = .done (uwrite c f.d 0 t) :=
  (if_neg (Nat.not_le.mpr h)).trans ((if_pos hs).trans (if_pos hm))

/-- A pool that does not suffice grants nothing. -/
theorem grantWaiting_short {h n : Nat} {w : QWord} (hw : waitingClaim (grp t h) = some (w, n)) (hn : poolOf t h < n) :
    grantWaiting h t = t := by
  simp [grantWaiting, hw, hn]

/-- One that does has the waiting CLAIM complete, in the state where its try begins. -/
theorem grantWaiting_grants {h n : Nat} {w : QWord} (hw : waitingClaim (grp t h) = some (w, n)) (hn : n ≤ poolOf t h)
    (ha : w.instr.flds.a = n) (hl : stopped t h = false) :
    let d : Cur := ⟨h, true, w⟩
    let u := useRot h w t
    guardedOff u d w.instr = false → handlerWaits u h w.instr = false →
      overCharge (grantClaim w.instr.flds d u) h w.seq = none →
      grantWaiting h t = finish d w.instr (grantClaim w.instr.flds d u) := by
  intro d u guard handler fits
  have enough : w.instr.flds.a ≤ poolOf u d.g := ha ▸ hn
  have runs : grantWaiting h t = runWord w.instr (claimRes w.instr.flds) d u := by
    simp only [grantWaiting, hw, hn, hl, decide_true, Bool.not_false, Bool.and_self, if_true]
    rfl
  have handler' : handlerWaits u d.g w.instr = false := handler
  have fits' : overCharge (grantClaim w.instr.flds d u) d.g d.w.seq = none := fits
  simp only [runs, runWord, guard, handler', claimRes_granted enough, checkCharge, fits', applyRes,
    Bool.false_eq_true, if_false]

/-! ### QSEAL, TWTIME and YIELD (R219 to R221) -/

theorem qsealRes_closes (hs : c.w.stage = 0) (hh : handlerStuck t c.g = false) : qsealRes c t =
    .wait { c.w with stage := 1, cause := if isDet t c.g then 8 else 6 } (closeAfter c t) :=
  (if_pos hs).trans (if_neg (by rw [hh]; decide))

theorem qsealRes_double (hs : c.w.stage = 0) (hh : handlerStuck t c.g = true) :
    qsealRes c t = trapAs c clsDouble 0 0 t :=
  (if_pos hs).trans (if_pos hh)

theorem qsealRes_sealed (hs : c.w.stage ≠ 0) (hr : released t c.g c.w.seq = true) : qsealRes c t = .done t :=
  (if_neg hs).trans (if_pos hr)

theorem qsealRes_waits (hs : c.w.stage ≠ 0) (hr : released t c.g c.w.seq = false) :
    qsealRes c t = waitFor c (if isDet t c.g then 8 else 6) t :=
  (if_neg hs).trans (if_neg (by rw [hr]; decide))

/-- The time that TWTIME waits for. -/
def twtimeTarget (f : Flds) (c : Cur) (t : State) : Nat :=
  uread t c.g f.a + (if f.m 0 then (launchOf t c.g).release else 0)

theorem twtimeRes_done (h : twtimeTarget f c t ≤ t.now) : twtimeRes f c t = .done t := if_pos h

theorem twtimeRes_waits (h : t.now < twtimeTarget f c t) : twtimeRes f c t = waitFor c 6 t :=
  if_neg (Nat.not_le.mpr h)

/-- A pre-emption that the group's context is asked for. -/
def preemptAsked (s : State) (g : Nat) : Prop := (part s (lkOf g) (seatOf s g)).preempt = true ∧ isDet s g = false

theorem yieldRes_goesOn (h : ¬preemptAsked t c.g) :
    yieldRes c t = .done (modGrp t c.g fun G => { G with yielded := true }) :=
  if_neg (by simpa [preemptAsked] using h)

theorem yieldRes_closes (h : preemptAsked t c.g) :
    yieldRes c t = .done (closeAfter c (modGrp t c.g fun G => { G with yielded := true })) :=
  if_pos (by simpa [preemptAsked] using h)

end

/-- Settles O22. Each word has one equation for each case of its own effect. GIVE leaves the other groups of its core
as they are (`coreMates_surrendered`), so the CLAIMs that it lets go on are those that waited before it. That a lane
register which leaves a rotating region keeps its physical slot, and that the registers which ROTCFG clears are not
charged, is the model's choice (log entries 144 and 99). -/
theorem poolAndQuantum : Obligations.PoolAndQuantum := by
  unfold Obligations.PoolAndQuantum
  intro c s G giveTo claimTo granted
  have blocks : (grp (begun c s) c.g).blocks = G.blocks := grp_begun_blocks ..
  have pool : poolOf (begun c s) c.g = poolOf s c.g := poolOf_begun ..
  have gives (f : Flds) : giveRes f c (begun c s) = .done (granted (giveTo f.a)) := by
    rw [giveRes_grants, surrendered, blocks]
  have claims (f : Flds) (h : f.a ≤ poolOf s c.g) :
      claimRes f c (begun c s) = .done (if f.m 0 then uwrite c f.d 1 (claimTo f.a) else claimTo f.a) := by
    rw [claimRes_granted (pool ▸ h), grantClaim, blocks]
  refine ⟨fun w => ?give, fun w => ?giveLong, fun h t w n waiting => ⟨?short, ?grants⟩, fun w enough => ?claim,
    fun w short first => ?claimWaits, fun w short first => ?claimLongWaits, fun w short dead starts => ?claimTraps,
    fun w enough => ?claimLong, fun w short dead m => ?claimFails, fun w => ?rotcfg, fun w => ?qend,
    fun w => ⟨fun first out starts fits => ?qseal, fun first inside => ?qsealDouble, fun later sealed => ?qsealSealed,
      fun later unsealed => ?qsealWaits⟩,
    fun w => ⟨fun reached => ?twtime, fun early => ?twtimeWaits⟩,
    fun w => ⟨fun unasked => ?yield, fun asked => ?yieldCloses⟩⟩
  case give => exact does_of_done rfl (gives w.flds)
  case giveLong => exact does_of_done rfl (gives w.flds)
  case short => exact grantWaiting_short waiting
  case grants => exact grantWaiting_grants waiting
  case claim =>
    have done := claims w.flds enough
    rw [flds_m_short] at done
    exact does_of_done rfl done
  case claimWaits => exact waits_of_waitFor rfl (claimRes_waits (f := w.flds) (pool ▸ short) first)
  case claimLongWaits => exact waits_of_waitFor rfl (claimRes_waits (f := w.flds) (pool ▸ short) first)
  case claimTraps => exact word_trap starts (claimRes_traps (f := w.flds) (pool ▸ short) dead (flds_m_short w 0))
  case claimLong => exact does_of_done rfl (claims w.flds enough)
  case claimFails => exact does_of_done rfl (claimRes_fails (f := w.flds) (pool ▸ short) dead m)
  case rotcfg =>
    refine does_of_done rfl ?_
    rw [rotcfgRes, blocks]
    rfl
  case qend => exact does_of_done rfl rfl
  case qseal =>
    have closes := qsealRes_closes (t := begun c s) first ((handlerStuck_begun ..).trans out)
    rw [isDet_begun] at closes
    exact word_wait starts closes fits
  case qsealDouble => exact traps_of_trapAs rfl (qsealRes_double first ((handlerStuck_begun ..).trans inside))
  case qsealSealed => exact does_of_done rfl (qsealRes_sealed later sealed)
  case qsealWaits =>
    have waits := qsealRes_waits later unsealed
    rw [isDet_begun] at waits
    exact waits_of_waitFor rfl waits
  case twtime =>
    refine does_of_done rfl (twtimeRes_done ?_)
    rwa [twtimeTarget, uread_begun, launchOf_begun, begun_now]
  case twtimeWaits =>
    refine waits_of_waitFor rfl (twtimeRes_waits ?_)
    rwa [twtimeTarget, uread_begun, launchOf_begun, begun_now]
  case yield =>
    refine does_of_done rfl (yieldRes_goesOn ?_)
    rwa [preemptAsked, part_begun, seatOf_begun, isDet_begun]
  case yieldCloses =>
    refine does_of_done rfl (yieldRes_closes ?_)
    rwa [preemptAsked, part_begun, seatOf_begun, isDet_begun]

end Sys2Proof.Machine
end

section
/-!
PROOFS. Copy words (O18).
-/
namespace Sys2Proof.Machine

/-! ### The bytes of a strided copy (R194) -/

/-- The digits of a number that is written with the lowest digit below `n`. -/
theorem add_mul_digits {b n k : Nat} (h : b < n) : (b + n * k) % n = b ∧ (b + n * k) / n = k := by
  constructor
  · rw [Nat.add_mul_mod_self_left, Nat.mod_eq_of_lt h]
  · rw [Nat.add_mul_div_left _ _ (by omega), Nat.div_eq_of_lt h, Nat.zero_add]

/-- A number of such digits lies below the product of their bounds. -/
theorem add_mul_lt {b n k m : Nat} (h : b < n) (hk : k < m) : b + n * k < n * m := by
  have next : n * (k + 1) ≤ n * m := Nat.mul_le_mul_left n hk
  rw [Nat.mul_succ] at next
  omega

theorem stridedPairs : Obl.StridedPairs := by
  unfold Obl.StridedPairs
  intro d x n0 n1 n2 n3 b i1 i2 i3 s1 s2 s3 t1 t2 t3 hb h1 h2 h3
  refine ⟨?_, ?_⟩
  · rw [CopyPairs.total, Nat.mul_assoc, Nat.mul_assoc]
    exact add_mul_lt hb (add_mul_lt h1 (add_mul_lt h2 h3))
  · obtain ⟨byte, rest⟩ := add_mul_digits (k := i1 + n1 * (i2 + n2 * i3)) hb
    obtain ⟨first, rest1⟩ := add_mul_digits (k := i2 + n2 * i3) h1
    obtain ⟨second, third⟩ := add_mul_digits (k := i3) h2
    simp only [CopyPairs.pairAt, byte, rest, first, rest1, second, third]

/-! ### Copies where a try begins (R29, R33) -/

theorem begun_savedParts (c : Cur) (s : State) : (begun c s).savedParts = s.savedParts :=
  detClose_keeps (P := fun t => t.savedParts = s.savedParts) (fun _ _ ht => ht) rfl

section
variable (c : Cur) (s : State) (g : Nat)

@[simp] theorem localAt_begun (x : Int) : localAt (begun c s) g x = localAt s g x := by
  simp only [localAt, launchOf_begun, halfOf_begun]
@[simp] theorem localParts_begun (lo n : Nat) : localParts (begun c s) g lo n = localParts s g lo n := by
  simp only [localParts, launchOf_begun, halfOf_begun]
@[simp] theorem localSpan_begun (lo hi : Int) : localSpan (begun c s) g lo hi = localSpan s g lo hi := by
  simp only [localSpan, launchOf_begun]
@[simp] theorem rangeStashed_begun (sp : Nat) (r : Int × Int) :
    rangeStashed (begun c s) g sp r = rangeStashed s g sp r := by
  simp only [rangeStashed, localParts_begun, runStashed_begun, core_begun, coreOf_begun, launchOf_begun]
@[simp] theorem localNumAt_begun (a n : Nat) : localNumAt (begun c s) g a n = localNumAt s g a n := by
  simp only [localNumAt, localAt_begun, team_begun]
@[simp] theorem compBad_begun (f : Flds) : compBad (begun c s) g f = compBad s g f := by
  simp only [compBad, uread_begun, localRun_begun]
@[simp] theorem engineCmds_begun (k : Nat) : engineCmds (begun c s) k = engineCmds s k := by
  simp only [engineCmds, parkedCmds, core_begun, begun_savedParts]
@[simp] theorem freeLocks_begun (k : Nat) : freeLocks (begun c s) k = freeLocks s k := by
  simp only [freeLocks, core_begun]
@[simp] theorem stashLocks_begun (k : Nat) : stashLocks (begun c s) k = stashLocks s k := by
  simp only [stashLocks, core_begun]

theorem reqLinear_begun (f : Flds) (w timed : Bool) : reqLinear (begun c s) g f w timed = reqLinear s g f w timed := by
  simp only [reqLinear, uread_begun]
theorem reqNd_begun (f : Flds) : reqNd (begun c s) g f = reqNd s g f := by
  simp only [reqNd, uread_begun, localNumAt_begun]
theorem reqIndexed_begun (f : Flds) (scatter : Bool) :
    reqIndexed (begun c s) g f scatter = reqIndexed s g f scatter := by
  simp only [reqIndexed, indexList, uread_begun, localNumAt_begun, localSpan_begun]

end

/-! ### The checks of R192 and the acceptance of R195 -/

/-- The ranges that a copy word checks, each with its space: what it writes, what it reads, and what it names. -/
def CopyReq.ranges (q : CopyReq) (sp : Nat × Nat) : List (Nat × Int × Int) :=
  (q.pairs.dstRanges.map fun r => (sp.1, r)) ++ (q.pairs.srcRanges.map fun r => (sp.2, r)) ++
    (q.named.map fun r => (1, r))

section
variable {c : Cur} {s : State} {q : CopyReq} {weights : Bool} {f : Flds} (h : Obl.CopyClear c s q weights f)
include h

/-- The local ranges of a clear copy lie inside the window, and none of its ranges meets a stash window. -/
theorem copyClear_ranges : ∀ r ∈ q.ranges (copySpaces f weights),
    (r.1 = 1 → localSpan s c.g r.2.1 r.2.2 = true) ∧ rangeStashed s c.g r.1 r.2 = false := by
  intro r hr
  simp only [CopyReq.ranges, List.mem_append, List.mem_map] at hr
  rcases hr with (⟨p, hp, rfl⟩ | ⟨p, hp, rfl⟩) | ⟨p, hp, rfl⟩
  · exact h.dst p hp
  · exact h.src p hp
  · exact ⟨fun _ => h.inside p hp, h.named p hp⟩

theorem copyClear_inside : ((q.ranges (copySpaces f weights)).any fun r =>
    r.1 = 1 && !localSpan s c.g r.2.1 r.2.2) = false := by
  refine List.any_eq_false.mpr fun r hr outside => ?_
  simp only [Bool.and_eq_true, decide_eq_true_eq, Bool.not_eq_true'] at outside
  obtain ⟨space, out⟩ := outside
  exact absurd ((copyClear_ranges h r hr).1 space) (by rw [out]; decide)

theorem copyClear_unstashed : ((q.ranges (copySpaces f weights)).any fun r => rangeStashed s c.g r.1 r.2) = false :=
  List.any_eq_false.mpr fun r hr => by rw [(copyClear_ranges h r hr).2]; decide

/-- CPYW's bytes lie in the weight window, and no card holds them. -/
theorem copyClear_weights :
    (weights && (jobsOf s (lkOf c.g) (coreOf s c.g)).any fun j =>
      j.locksWeights (winG s c.g) (uread s c.g f.a) (uread s c.g f.c)) = false ∧
    (weights && decide ((winG s c.g).wbN < uread s c.g f.a + uread s c.g f.c)) = false := by
  cases hw : weights with
  | false => exact ⟨rfl, rfl⟩
  | true =>
    obtain ⟨inside, free⟩ := h.window hw
    simpa using ⟨free, inside⟩

/-- The core's lock table and its copy engine have room for it. -/
theorem copyClear_room :
    (decide (64 ≤ (engineCmds s (coreOf s c.g)).length) || decide (freeLocks s (coreOf s c.g) < 2)) = false ∧
    (q.time.isSome && decide (32 ≤ ((core s (coreOf s c.g)).cmds.filter fun x =>
      x.time.isSome && !x.wrote).length)) = false := by
  obtain ⟨-, locks, cmds⟩ := h.table
  refine ⟨?_, ?_⟩
  · rw [decide_eq_false (Nat.not_le.mpr cmds), decide_eq_false (Nat.not_lt.mpr locks)]
    rfl
  · cases ht : q.time.isSome with
    | false => rfl
    | true => rw [decide_eq_false (Nat.not_le.mpr (h.timed ht))]; rfl

/-- A clear copy passes every check and is accepted. -/
theorem copyRes_clear :
    copyRes q weights f c (begun c s) = .done (acceptCmd c q (copySpaces f weights) f (begun c s)) := by
  obtain ⟨aligned, compAligned⟩ := h.aligned
  obtain ⟨stash, -, -⟩ := h.table
  obtain ⟨unlocked, inWindow⟩ := copyClear_weights h
  obtain ⟨room, timed⟩ := copyClear_room h
  have inside := copyClear_inside h
  have unstashed := copyClear_unstashed h
  simp only [CopyReq.ranges] at inside unstashed
  have named : (q.named.map fun r => ((1, r) : Nat × Int × Int)).find?
      (fun r => !localSpan s c.g r.2.1 r.2.2) = none := List.find?_eq_none.mpr fun r hr => by
    obtain ⟨p, hp, rfl⟩ := List.mem_map.mp hr
    simp [h.inside p hp]
  have limits : (q.bad || decide (30 < stashLocks s (coreOf s c.g))) = false := by
    rw [h.limits, decide_eq_false (Nat.not_lt.mpr stash)]
    rfl
  simp only [copyRes, localSpan_begun, compBad_begun, coreOf_begun, jobsOf_begun, winG_begun, uread_begun,
    rangeStashed_begun, stashLocks_begun, engineCmds_begun, freeLocks_begun, core_begun, aligned, compAligned, named,
    inside, h.comp, unlocked, unstashed, inWindow, limits, room, timed, Bool.false_eq_true, if_false]

end

theorem copyWords_accepted : Obl.CopyWords := by
  unfold Obl.CopyWords
  intro c s w f takes
  have accepts {i : Instr} (req : Cur → State → CopyReq) {weights : Bool}
      (hi : exec i s = word i (fun d t => copyRes (req d t) weights f d t) s) (hq : req c (begun c s) = req c s) :
      takes i (req c s) weights := fun clear =>
    does_of_done hi (by rw [hq]; exact copyRes_clear clear)
  refine ⟨?cpy, ?cpyt, ?cpynd, ?cpyg, ?cpys, ?cpyw⟩
  case cpy => exact accepts (fun d t => reqLinear t d.g f false false) rfl (reqLinear_begun ..)
  case cpyt => exact accepts (fun d t => reqLinear t d.g f false true) rfl (reqLinear_begun ..)
  case cpynd => exact accepts (fun d t => reqNd t d.g f) rfl (reqNd_begun ..)
  case cpyg => exact accepts (fun d t => reqIndexed t d.g f false) rfl (reqIndexed_begun ..)
  case cpys => exact accepts (fun d t => reqIndexed t d.g f true) rfl (reqIndexed_begun ..)
  case cpyw => exact accepts (fun d t => reqLinear t d.g f true false) rfl (reqLinear_begun ..)

/-- Settles O18. The checks of a clear copy pass one by one (`copyClear_inside`, `copyClear_unstashed`,
`copyClear_weights`, `copyClear_room`), with the operands where the try begins; the pairs of a strided copy are the
digits of their number (`add_mul_digits`). -/
theorem copyWords : Obligations.CopyWords := ⟨copyWords_accepted, stridedPairs⟩

end Sys2Proof.Machine
end

section
/-!
PROOFS. Ring words and CQRY (O19).
-/
namespace Sys2Proof.Machine

/-! ### Rings where a try begins (R29, R33) -/

@[simp] theorem begun_nextId (c : Cur) (s : State) : (begun c s).nextId = s.nextId :=
  detClose_keeps (P := fun t => t.nextId = s.nextId) (fun _ _ ht => ht) rfl

section
variable (c : Cur) (s : State) (g : Nat)

@[simp] theorem grp_begun_seen : (grp (begun c s) g).seen = (grp s g).seen :=
  (congrArg Group.seen (work_begun c s g) :)
@[simp] theorem queued_begun : queued (grp (begun c s) g) = queued (grp s g) :=
  (congrArg queued (work_begun c s g) :)
@[simp] theorem ringAt_begun (h : Nat) : ringAt (begun c s) g h = ringAt s g h := by
  simp only [ringAt, localNumAt_begun]
@[simp] theorem globalLock_begun (va n : Nat) (load : Bool) :
    globalLock (begun c s) g va n load = globalLock s g va n load := by
  simp only [globalLock, core_begun, coreOf_begun, launchOf_begun]
@[simp] theorem mxBusy_begun : mxBusy (begun c s) c = mxBusy s c := by
  simp only [mxBusy, queued_begun, grp_begun_flights]
@[simp] theorem memBusy_begun : memBusy (begun c s) c = memBusy s c := by
  simp only [memBusy, queued_begun, grp_begun_flights]
@[simp] theorem lockOf_begun (id sp kind : Nat) (r : Int × Int) :
    lockOf (begun c s) g id sp kind r = lockOf s g id sp kind r := by
  simp only [lockOf, launchOf_begun, localParts_begun]
@[simp] theorem acceptLocks_begun (id : Nat) (src dst : List (Nat × Int × Int)) :
    acceptLocks (begun c s) g id src dst = acceptLocks s g id src dst := by
  simp only [acceptLocks, lockOf_begun, isDet_begun]

end

/-! ### RINIT (R204) -/

/-- Updates of different cores, each made from what its core holds, are those made from what it held before them. -/
theorem foldl_modCore_own (F : Core → Core → Core) (s : State) : ∀ {ks : List Nat} {t : State}, ks.Nodup →
    (∀ m ∈ ks, core t m = core s m) →
    ks.foldl (fun u m => modCore u m (F (core u m))) t = ks.foldl (fun u m => modCore u m (F (core s m))) t
  | [], _, _, _ => rfl
  | k :: ks, t, distinct, same => by
    obtain ⟨out, distinct'⟩ := List.nodup_cons.mp distinct
    rw [List.foldl_cons, List.foldl_cons, same k List.mem_cons_self]
    refine foldl_modCore_own F s distinct' fun m hm => ?_
    have other : m ≠ k := fun e => out (e ▸ hm)
    rw [core_modCore_ne _ _ other, same m (List.mem_cons_of_mem _ hm)]

/-- The cores of a team that runs on core `k`. -/
def teamCores (s : State) (g : Nat) : List Nat :=
  let k := coreOf s g
  if (launchOf s g).paired then [k / 2 * 2, k / 2 * 2 + 1] else [k]

theorem teamCores_nodup (s : State) (g : Nat) : (teamCores s g).Nodup := by
  rw [teamCores]
  split <;> simp

/-- The watch is one of the ring at offset `o` of a half. -/
def Watch.ofRing (tk half o : Nat) (w : Watch) : Bool :=
  tkOf w.g = tk && w.hdr = o && w.half = half && w.dead.isNone

/-- The commands in a core that move records of that ring. -/
def Core.ringCmds (tk half o : Nat) (C : Core) : List Nat :=
  (C.cmds.filter fun x => tkOf x.g = tk && x.ring.map (·.1) = some o && x.half = half).map (·.id)

/-- A core discards the records in flight to a ring, which it held as `C0`, with their locks, and its watches end. -/
def dropRing (c : Cur) (half o : Nat) (C0 C : Core) : Core :=
  { C with
    cmds := C.cmds.filter fun x => !(C0.ringCmds (tkOf c.g) half o).contains x.id
    locks := C.locks.filter fun x => x.kind = 2 || !(C0.ringCmds (tkOf c.g) half o).contains x.id
    watches := C.watches.map fun w => if w.ofRing (tkOf c.g) half o then { w with dead := some (c.g, c.w.seq) } else w }

section
variable {c : Cur} {t : State} {f : Flds}

/-- The source ring that RINIT names for a pull ring. -/
def initSrc (f : Flds) (c : Cur) (t : State) : Nat := if (uread t c.g f.b).testBit 8 then uread t c.g f.c else 0

/-- The header that RINIT writes. -/
def initRing (f : Flds) (c : Cur) (t : State) : Ring :=
  ⟨0, 0, 0, uread t c.g f.b % 16, nbits (uread t c.g f.b) 7 4, (uread t c.g f.b).testBit 8, true, initSrc f c t⟩

/-- RINIT of a ring that fits discards what was there and writes its header. -/
theorem rinitRes_new {half o : Nat} (aligned : uread t c.g f.a % 64 = 0) (srcAligned : initSrc f c t % 64 = 0)
    (hcfg : uread t c.g f.b < 512) (some_slot : 1 ≤ (initRing f c t).lslots) (slots : (initRing f c t).lslots ≤ 12)
    (slotb : (initRing f c t).lslotb ≤ 10)
    (place : localRun t c.g (uread t c.g f.a) (64 + (initRing f c t).slots * (initRing f c t).slotb) = some (half, o))
    (room : (initRing f c t).pull = true → ((core t (coreOf t c.g)).watches.filter fun w =>
      w.dead.isNone && !w.ofRing (tkOf c.g) half o).length < 8) :
    rinitRes f c t = .done (locPut c.g c.w.seq half o (toBytes 64 (ringNum (initRing f c t)))
      (modCore ((teamCores t c.g).foldl (fun u m => modCore u m (dropRing c half o (core u m))) t)
        (coreOf t c.g) fun C =>
        { C with watches := C.watches ++
            (if (initRing f c t).pull then [⟨c.g, c.w.seq, half, o, initSrc f c t, none⟩] else []) })) := by
  have cfgFits : ¬512 ≤ uread t c.g f.b := Nat.not_le.mpr hcfg
  have someSlot : ¬uread t c.g f.b % 16 = 0 := Nat.one_le_iff_ne_zero.mp some_slot
  have slotsFit : ¬12 < uread t c.g f.b % 16 := Nat.not_lt.mpr slots
  have slotbFits : ¬10 < nbits (uread t c.g f.b) 7 4 := Nat.not_lt.mpr slotb
  have watches : ((uread t c.g f.b).testBit 8 && decide (8 ≤ ((core t (coreOf t c.g)).watches.filter fun w =>
      w.dead.isNone && !w.ofRing (tkOf c.g) half o).length)) = false := by
    cases hp : (uread t c.g f.b).testBit 8 with
    | false => rfl
    | true => rw [decide_eq_false (Nat.not_le.mpr (room hp))]; rfl
  simp only [initSrc] at srcAligned
  simp only [initRing, initSrc] at place
  simp only [rinitRes, aligned, srcAligned, cfgFits, someSlot, slotsFit, slotbFits, place, ne_eq, not_true_eq_false,
    decide_false, Bool.or_false, Bool.false_eq_true, if_false]
  exact if_neg (ne_true_of_eq_false watches)

end

/-! ### RWAIT, RREL, RPOST and RTAIL (R205 to R207) -/

section
variable {c : Cur} {s : State} {f : Flds}

/-- The space of the record that RPOST names (R205). -/
def postSpace (f : Flds) : Nat := if f.m 0 then 1 else 0

/-- Its bytes there. -/
def postRange (c : Cur) (s : State) (f : Flds) : Int × Int :=
  ((uread s c.g f.b : Int), ((uread s c.g f.b + uread s c.g f.c : Nat) : Int))

/-- The 4 bytes of a global store of a ring word are held where the buffer has room. -/
theorem ringStore_holds {u t : State} {va x rel : Nat} {hit : Hit} (after : State → State)
    (hp : c.w.pois = 0) (hf : c.w.fail = 0) (translated : xlateLanes c.g .write false [(0, va)] u = ([hit], [], t))
    (room : holdFull t c.g c.w.seq (newSectors t c.g c.w.seq [hit.pa / 64]) = none) :
    ringStore c va x rel after u = .done (after (hold c.g c.w.seq (.data (va - va % 64) (hit.pa - hit.pa % 64)
      (sectorBytes [(hit.pa, toBytes 4 x)]) rel hit.dev) t hit.low)) := by
  simp only [ringStore, wasPois_fresh hp, hf, translated, holdRoom_none room, ne_eq, not_true_eq_false, decide_false,
    Bool.or_false, Bool.false_eq_true, if_false]

section
variable {h : Nat} {x : Half} {r : Ring} (hdr : Obl.RingHdr s c.g h x r)
include hdr

/-- A header that passes the checks is handed on. -/
theorem ringChecks_valid (k : Half → Ring → Res) : ringChecks c h (begun c s) k = k x r := by
  simp only [ringChecks, hdr.aligned, localRun_begun, hdr.place, ringAt_begun, hdr.header, hdr.valid, ne_eq,
    not_true_eq_false, Bool.not_true, Bool.false_eq_true, if_false]

end

section
variable {x : Half} {r : Ring} (hdr : Obl.RingHdr s c.g (uread s c.g f.a) x r)
include hdr

theorem rwaitRes_header : rwaitRes f c (begun c s) =
    if r.slots ≤ f.imm then trapAs c clsRange 6 0 (begun c s)
    else if r.ready ≤ f.imm then waitFor c 4 (begun c s)
    else .done (acqEvent c.g (uwrite c f.d (r.slotAt (uread s c.g f.a) (r.head + f.imm)) (begun c s))) := by
  simp only [rwaitRes, uread_begun, ringChecks_valid hdr]

/-- RREL once the group's earlier words of the M and X queues have completed. -/
theorem rrelRes_header (idle : mxBusy s c = false) : rrelRes f c (begun c s) =
    if r.pull && (globalLock s c.g ((r.src + 8) % 2 ^ 64) 4 false).isSome then
      trapAs c clsRange ((globalLock s c.g ((r.src + 8) % 2 ^ 64) 4 false).getD 0) ((r.src + 8) % 2 ^ 64) (begun c s)
    else if r.ready < f.imm then trapAs c clsRange 6 0 (begun c s)
    else if r.pull then
      ringStore c ((r.src + 8) % 2 ^ 64) ((r.head + f.imm) % 2 ^ 32) 0 (ringAdd c x 0 f.imm) (begun c s)
    else .done (ringAdd c x 0 f.imm (begun c s)) := by
  simp only [rrelRes, uread_begun, mxBusy_begun, idle, ringChecks_valid hdr, globalLock_begun, Bool.false_eq_true,
    if_false]

/-- The credit of a pull ring does not meet a lock: it goes on to the count. -/
theorem rrelRes_unlocked (idle : mxBusy s c = false)
    (unlocked : r.pull = true → globalLock s c.g ((r.src + 8) % 2 ^ 64) 4 false = none) : rrelRes f c (begun c s) =
    if r.ready < f.imm then trapAs c clsRange 6 0 (begun c s)
    else if r.pull then
      ringStore c ((r.src + 8) % 2 ^ 64) ((r.head + f.imm) % 2 ^ 32) 0 (ringAdd c x 0 f.imm) (begun c s)
    else .done (ringAdd c x 0 f.imm (begun c s)) := by
  refine (rrelRes_header hdr idle).trans (if_neg ?_)
  intro locked
  rw [Bool.and_eq_true] at locked
  obtain ⟨pull, lock⟩ := locked
  rw [unlocked pull] at lock
  exact absurd lock (by decide)

/-- The credit meets a lock. -/
theorem rrelRes_locked {cause : Nat} (idle : mxBusy s c = false) (pull : r.pull = true)
    (lock : globalLock s c.g ((r.src + 8) % 2 ^ 64) 4 false = some cause) :
    rrelRes f c (begun c s) = trapAs c clsRange cause ((r.src + 8) % 2 ^ 64) (begun c s) := by
  refine (rrelRes_header hdr idle).trans ((if_pos ?_).trans ?_)
  · rw [pull, lock]
    rfl
  · rw [lock]
    rfl

/-- The command of a record that RPOST posts to the ring. -/
def postCmd (c : Cur) (s : State) (f : Flds) (x : Half) (r : Ring) : Cmd :=
  let p : CopyPairs := .linear (r.slotAt (uread s c.g f.a) r.tail) (uread s c.g f.b) (uread s c.g f.c)
  { id := s.nextId, lk := lkOf c.g, core := coreOf s c.g, g := c.g, seq := c.w.seq, pairs := p, dsp := 1,
    ssp := postSpace f, half := x.half, ring := some (x.off, r.tail), hdrAt := uread s c.g f.a,
    todo := List.range p.chunks, after := (grp s c.g).seen }

/-- The command and its lock stand in the core. -/
def posted (c : Cur) (s : State) (f : Flds) (x : Half) (r : Ring) : State :=
  modCore { begun c s with nextId := s.nextId + 1 } (coreOf s c.g) fun C =>
    { C with
      locks := C.locks ++ acceptLocks s c.g s.nextId [(postSpace f, postRange c s f)] []
      cmds := C.cmds ++ [postCmd c s f x r] }

/-- A record that meets none of the traps and waits of R205. -/
structure PostClear (c : Cur) (s : State) (f : Flds) (r : Ring) : Prop where
  pull : r.pull = false
  some_byte : 0 < uread s c.g f.c
  length : uread s c.g f.c ≤ r.slotb
  inside : postSpace f = 1 → localSpan s c.g (postRange c s f).1 (postRange c s f).2 = true
  unstashed : rangeStashed s c.g (postSpace f) (postRange c s f) = false
  stash : stashLocks s (coreOf s c.g) ≤ 31
  locks : 1 ≤ freeLocks s (coreOf s c.g)
  cmds : (engineCmds s (coreOf s c.g)).length < 64
  slot : isDet s c.g = false → diff32 r.tail r.head < r.slots

/-- It is posted; in normal mode it takes its slot at once. -/
theorem rpostRes_posts (h : PostClear c s f r) : rpostRes f c (begun c s) =
    .done (if isDet s c.g then posted c s f x r else ringAdd c x 4 1 (posted c s f x r)) := by
  have inside : (decide (postSpace f = 1) && !localSpan s c.g (postRange c s f).1 (postRange c s f).2) = false := by
    by_cases space : postSpace f = 1
    · rw [h.inside space]
      exact Bool.and_false _
    · rw [decide_eq_false space]
      rfl
  have limits : (r.valid && (decide (uread s c.g f.c = 0) || decide (r.slotb < uread s c.g f.c) ||
      decide (31 < stashLocks s (coreOf s c.g)))) = false := by
    rw [decide_eq_false (Nat.pos_iff_ne_zero.mp h.some_byte), decide_eq_false (Nat.not_lt.mpr h.length),
      decide_eq_false (Nat.not_lt.mpr h.stash)]
    exact Bool.and_false _
  have room : (!isDet s c.g && decide (r.slots ≤ diff32 r.tail r.head) ||
      decide (64 ≤ (engineCmds s (coreOf s c.g)).length) || decide (freeLocks s (coreOf s c.g) < 1)) = false := by
    have slot : (!isDet s c.g && decide (r.slots ≤ diff32 r.tail r.head)) = false := by
      cases det : isDet s c.g with
      | true => rfl
      | false => rw [decide_eq_false (Nat.not_le.mpr (h.slot det))]; rfl
    rw [slot, decide_eq_false (Nat.not_le.mpr h.cmds), decide_eq_false (Nat.not_lt.mpr h.locks)]
    rfl
  have usable : (!r.valid || r.pull) = false := by
    rw [hdr.valid, h.pull]
    rfl
  have unstashed := h.unstashed
  simp only [postSpace, postRange] at unstashed
  simp only [rpostRes, uread_begun, hdr.aligned, localRun_begun, hdr.place, ringAt_begun, hdr.header, localSpan_begun,
    rangeStashed_begun, unstashed, stashLocks_begun, coreOf_begun, limits, usable, isDet_begun,
    engineCmds_begun, freeLocks_begun, room, begun_nextId, acceptLocks_begun, grp_begun_seen, ne_eq, not_true_eq_false,
    Bool.false_eq_true, if_false]
  exact if_neg (ne_true_of_eq_false inside)

/-- CQRY counts the filled slots of a ring that are not released. -/
theorem cqryRes_header (hm : f.mod % 4 = 3) : cqryRes f c (begun c s) = .done (uwrite c f.d r.ready (begun c s)) := by
  simp only [cqryRes, hm, uread_begun, ringChecks_valid hdr]

end

/-- RTAIL holds its store, which is a release event at scope .sys. -/
theorem rtailRes_holds {t : State} {hit : Hit} (aligned : uread s c.g f.a % 64 = 0) (idle : memBusy s c = false)
    (unlocked : globalLock s c.g (uread s c.g f.a) 4 false = none) (hp : c.w.pois = 0) (hf : c.w.fail = 0)
    (translated : xlateLanes c.g .write false [(0, uread s c.g f.a)] (begun c s) = ([hit], [], t))
    (room : holdFull t c.g c.w.seq (newSectors t c.g c.w.seq [hit.pa / 64]) = none) :
    rtailRes f c (begun c s) = .done (relEvent c.g (hold c.g c.w.seq
      (.data (uread s c.g f.a - uread s c.g f.a % 64) (hit.pa - hit.pa % 64)
        (sectorBytes [(hit.pa, toBytes 4 (uread s c.g f.b % 2 ^ 32))]) 2 hit.dev) t hit.low)) := by
  simp only [rtailRes, uread_begun, aligned, memBusy_begun, idle, globalLock_begun, unlocked,
    ringStore_holds (relEvent c.g) hp hf translated room, ne_eq, not_true_eq_false, Bool.false_eq_true, if_false]

theorem cqryRes_cmds (hm : f.mod % 4 = 0) : cqryRes f c (begun c s) =
    .done (uwrite c f.d ((engineCmds s (coreOf s c.g)).filter fun y => y.lk = lkOf c.g).length (begun c s)) := by
  simp only [cqryRes, hm, coreOf_begun, engineCmds_begun]

theorem cqryRes_locks (hm : f.mod % 4 = 1) :
    cqryRes f c (begun c s) = .done (uwrite c f.d (freeLocks s (coreOf s c.g)) (begun c s)) := by
  simp only [cqryRes, hm, coreOf_begun, freeLocks_begun]

theorem cqryRes_places (hm : f.mod % 4 = 2) :
    cqryRes f c (begun c s) = .done (uwrite c f.d (64 - (engineCmds s (coreOf s c.g)).length) (begun c s)) := by
  simp only [cqryRes, hm, coreOf_begun, engineCmds_begun]

end

/-- Settles O19. RINIT drops what each core of the team held for the ring (`foldl_modCore_own`); a header that passes
the checks is handed on (`ringChecks_valid`), and each word then has one equation for each case. That RPOST takes one
lock entry, that CQRY counts no pulls, and the multiple of 64 that RTAIL asks for are the model's choice (log entries
106, 148 and 147). -/
theorem ringWords : Obligations.RingWords := by
  unfold Obligations.RingWords
  intro c s w x r f h k cfg
  refine ⟨fun half o => ?rinit, fun hdr => ⟨?rwait, ?rwaitWaits, ?rwaitTraps, ?rrel, ?rrelTraps,
    ⟨?rrelLocked, ?rrelPull⟩, ?rpost, ?cqryRing⟩, ?rtail, ?cqryCmds, ?cqryLocks, ?cqryPlaces⟩
  case rinit =>
    intro src new aligned srcAligned hcfg some_slot slots slotb place old gone drop cores room
    have ring' : initRing f c (begun c s) = new := by
      rw [initRing, initSrc, uread_begun, uread_begun]
    have src' : initSrc f c (begun c s) = src := congrArg Ring.src ring'
    have cores' : teamCores (begun c s) c.g = cores := by
      rw [teamCores, coreOf_begun, launchOf_begun]
    have dropped : cores.foldl (fun u m => modCore u m (dropRing c half o (core u m))) (begun c s) =
        cores.foldl drop (begun c s) :=
      foldl_modCore_own (dropRing c half o) s (teamCores_nodup s c.g) fun m _ => core_begun c s m
    have address : uread (begun c s) c.g f.a = h := uread_begun ..
    have config : uread (begun c s) c.g f.b = cfg := uread_begun ..
    have init := rinitRes_new (c := c) (t := begun c s) (f := f) (half := half) (o := o)
    rw [ring', src', cores', dropped, address, config, coreOf_begun, core_begun, localRun_begun] at init
    exact does_of_done rfl (init aligned srcAligned hcfg some_slot slots slotb place room)
  case rwait =>
    intro inside filled
    exact does_of_done rfl ((rwaitRes_header hdr).trans
      ((if_neg (Nat.not_le.mpr inside)).trans (if_neg (Nat.not_le.mpr filled))))
  case rwaitWaits =>
    intro inside unfilled
    exact waits_of_waitFor rfl ((rwaitRes_header hdr).trans ((if_neg (Nat.not_le.mpr inside)).trans (if_pos unfilled)))
  case rwaitTraps =>
    intro outside
    exact traps_of_trapAs rfl ((rwaitRes_header hdr).trans (if_pos outside))
  case rrel =>
    intro idle filled push
    refine does_of_done rfl ((rrelRes_unlocked hdr idle fun pull => ?_).trans
      ((if_neg (Nat.not_lt.mpr filled)).trans (if_neg (by rw [push]; decide))))
    exact absurd pull (by rw [push]; decide)
  case rrelTraps =>
    intro idle unfilled unlocked
    exact traps_of_trapAs rfl ((rrelRes_unlocked hdr idle unlocked).trans (if_pos unfilled))
  case rrelLocked =>
    intro cause idle pull lock
    exact traps_of_trapAs rfl (rrelRes_locked hdr idle pull lock)
  case rrelPull =>
    intro hit t idle filled pull unlocked pois fail translated room
    exact does_of_done rfl ((rrelRes_unlocked hdr idle fun _ => unlocked).trans ((if_neg (Nat.not_lt.mpr filled)).trans
      ((if_pos pull).trans (ringStore_holds (ringAdd c x 0 f.imm) pois fail translated room))))
  case rpost =>
    intro src len ssp sr p cmd pull some_byte length inside unstashed stash locks cmds slot taken
    exact does_of_done rfl
      (rpostRes_posts hdr ⟨pull, some_byte, length, inside, unstashed, stash, locks, cmds, slot⟩)
  case cqryRing =>
    intro m
    exact does_of_done rfl (cqryRes_header hdr m)
  case rtail =>
    intro hit t aligned idle unlocked pois fail translated room
    exact does_of_done rfl (rtailRes_holds aligned idle unlocked pois fail translated room)
  case cqryCmds => exact fun m => does_of_done rfl (cqryRes_cmds m)
  case cqryLocks => exact fun m => does_of_done rfl (cqryRes_locks m)
  case cqryPlaces => exact fun m => does_of_done rfl (cqryRes_places m)

end Sys2Proof.Machine
end

section
/-!
PROOFS. Events of groups, and how the sectors of a load return (O27).
-/
namespace Sys2Proof.Machine

/-! ### Trap delivery, claims, time waits and walks (R218, R220, R283, R322, R327) -/

section
variable {s : State} {g : Nat}

theorem deliverTo_none (h : (grp s g).raised = none) (host : Bool) : deliverTo host s g = s := by
  rw [deliverTo, h]

theorem deliverTo_delivers {r : TrapRec} {host : Bool} (here : (nfind s.groups g).isSome = true)
    (raised : (grp s g).raised = some r) (goes : trapToHost s g r = host) : deliverTo host s g = deliver g s := by
  simp only [deliverTo, raised, goes, here, decide_true, Bool.and_self, if_true]

/-- The host's trap ends the run of its launch; without a host handler no record is written. -/
theorem hostDeliver_ends {lk : Nat} {t : TrapRec} (trapped : (launch s lk).hostTrap = some (g, t))
    (live : (launch s lk).killed = false) (handler : (launch s lk).tvec = 0) :
    hostDeliver lk s = killCard (lk / 2) { killFor s (lk / 2) t.cls t.cause with cores := 2 ^ coreOf s g }
      (modLaunch s lk fun l => { l with killed := true }) := by
  simp only [hostDeliver, trapped, live, handler, Bool.false_eq_true, if_false, if_true]

section
variable {w : QWord} {ws : List QWord} (head : queueOf (grp s g) 5 = w :: ws)
include head

/-- The release of a deadlock runs the head of the Y queue at stage 2, in the short and in the long form of CLAIM. -/
theorem releaseClaim_short {i : SW} (dead : claimDead s g = true) (claim : w.instr = .claim i) :
    releaseClaim g s = wordStep (.claim i) (claimRes i.flds) ⟨g, true, { w with stage := 2 }⟩ s := by
  simp only [releaseClaim, dead, head, claim, Bool.not_true, Bool.false_eq_true, if_false]

theorem releaseClaim_long {i : XW} (dead : claimDead s g = true) (claim : w.instr = .claimX i) :
    releaseClaim g s = wordStep (.claimX i) (claimRes i.flds) ⟨g, true, { w with stage := 2 }⟩ s := by
  simp only [releaseClaim, dead, head, claim, Bool.not_true, Bool.false_eq_true, if_false]

theorem timeReached_twtime {i : XW} (waits : w.instr = .twtime i) :
    timeReached g s = wordStep (.twtime i) (twtimeRes i.flds) ⟨g, true, w⟩ s := by
  simp only [timeReached, head, waits]

end
end

theorem groupEvents_moves : Obl.GroupEvents := by
  unfold Obl.GroupEvents
  intro g s r w ws G here
  refine ⟨fun placed raised handler => ?_, fun lk t trapped live handler unraised => ?_, fun i dead head claim => ?_,
    fun i dead head claim => ?_, fun i head waits => ?_, fun va acc placed => ?_⟩
  · exact congrArg Host.Outcome.next (deliverTo_delivers placed raised handler)
  · have delivered : (groupsOfLaunch s lk).foldl (deliverTo true) s = s :=
      foldl_same fun h hh => deliverTo_none (unraised h hh) true
    refine congrArg Host.Outcome.next ?_
    rw [deliverHost, delivered, hostDeliver_ends trapped live handler]
  · exact congrArg Host.Outcome.next (releaseClaim_short head dead claim)
  · exact congrArg Host.Outcome.next (releaseClaim_long head dead claim)
  · exact congrArg Host.Outcome.next (timeReached_twtime head waits)
  · exact congrArg Host.Outcome.next (if_pos placed)

/-! ### What the lanes of a piece take (R31, R165, R253) -/

/-- The lanes of a piece. -/
def Piece.laneList (p : Piece) : List Nat := maskList 64 p.lanes.toNat

/-- The addresses at which they read. -/
def Piece.places (p : Piece) (addrs : NMap (Nat × Nat)) : List Nat := p.laneList.map fun l => (nget (0, 0) addrs l).2

/-- The state in which the lanes of a piece have taken what the pair reads. -/
def pieceTaken (g : Nat) (w : QWord) (d ty : Nat) (unif : Bool) (addrs : NMap (Nat × Nat)) (p : Piece) (t : State) :
    State :=
  let t1 := markRead g (p.laneList.flatMap fun l => (List.range (mtSize ty)).map fun i => (nget (0, 0) addrs l).2 + i)
    (useRot g w t)
  p.laneList.foldl (fun u l => loadPut ⟨g, true, w⟩ d ty unif l
    (loadNum u g (nget (0, 0) addrs l).2 (mtSize ty)) u) (if viewPoison t g p.addr then countPois g 1 t1 else t1)

section
variable {g seq n d ty : Nat} {s t : State} {f : Flight} {w : QWord} {unif : Bool} {addrs : NMap (Nat × Nat)}
  {pieces : List Piece} {p : Piece} {k : Option Nat}

theorem takePiece_takes (h : viewPoison t g p.addr = false ∨ isCont t g = true) :
    takePiece ⟨g, true, w⟩ d ty unif addrs p t =
      (markDone w p.laneList, pieceTaken g w d ty unif addrs p t) := by
  refine if_neg ?_
  rcases h with clean | cont
  · simp [clean]
  · simp [cont]

/-- Under contain the lanes of a poisoned sector take nothing. -/
theorem takePiece_poisoned (bad : viewPoison t g p.addr = true) (contain : isCont t g = false) :
    takePiece ⟨g, true, w⟩ d ty unif addrs p t = (w, t) :=
  if_pos (by simp [bad, contain])

/-! ### What becomes of a piece (R31, R146, R253, R279, R374, R397) -/

/-- A load with all of its lanes done is complete and counts as retired. -/
theorem landLoad_done (h : ∀ x ∈ addrs, w.done.toNat.testBit x.1 = true) :
    landLoad g w unif addrs s = retireCheck g (modGrp s g fun G => { G with qret := G.qret + 1 }) := by
  have none_left : (addrs.filter fun x => !w.done.toNat.testBit x.1) = [] :=
    List.filter_eq_nil_iff.mpr fun x hx => by rw [h x hx]; decide
  simp only [landLoad, none_left]

/-- One with a lane left that met poison waits again, where its queue has room, and traps. -/
theorem landLoad_traps {l va pa : Nat} {xs : NMap (Nat × Nat)}
    (left : addrs.filter (fun x => !w.done.toNat.testBit x.1) = (l, va, pa) :: xs) (room : queueLoad (grp s g) 2 < 8) :
    let u := modGrp s g fun G => setQueue G 2 (insertWord w (queueOf G 2))
    landLoad g w unif addrs s =
      raiseTrap g (trapRec u ⟨g, true, w⟩ w.instr clsPoison 0 va (repMask unif w)) u := by
  simp only [landLoad, left, if_neg (Nat.not_le.mpr room)]

/-- A piece is held while an earlier load has a byte of it to come, or while its link does not let it through. -/
def pieceHeld (s : State) (g seq ty : Nat) (addrs : NMap (Nat × Nat)) (p : Piece) : Bool :=
  loadBehind s g seq (p.places addrs) (mtSize ty) || linkHolds s p.addr

/-- A piece that is not held is deferred by its regulator, or comes: its lanes take their values, and the load lands
with its last piece. -/
theorem sectorReturns_eq (load : loadAt s g seq = some f) (kind : f.kind = .load w d ty unif addrs pieces)
    (piece : pieces[n]? = some p) (fetched : fetchSector g p s = (k, t)) : sectorReturns g seq n s =
    if pieceHeld s g seq ty addrs p then s
    else if dramSleeps s p.addr then meetAsleep s
    else if k.isSome then
      putFlight g seq (some { f with kind := .load w d ty unif addrs (pieces.set n { p with ticket := k }) }) t
    else
      let taken := takePiece ⟨g, true, w⟩ d ty unif addrs p t
      if (pieces.eraseIdx n).isEmpty then landLoad g taken.1 unif addrs (putFlight g seq none taken.2)
      else putFlight g seq (some { f with kind := .load taken.1 d ty unif addrs (pieces.eraseIdx n) }) taken.2 := by
  simp only [sectorReturns, load, kind, piece, fetched, pieceHeld, Piece.places, Piece.laneList]

/-- The only element of a list is its last one. -/
theorem eraseIdx_isEmpty_iff {α : Type} {xs : List α} {x : α} (h : xs[n]? = some x) :
    (xs.eraseIdx n).isEmpty = true ↔ xs.length = 1 := by
  obtain ⟨lt, -⟩ := List.getElem?_eq_some_iff.mp h
  rw [List.isEmpty_iff, ← List.length_eq_zero_iff, List.length_eraseIdx_of_lt lt]
  omega

end

theorem loadReturns : Obl.LoadReturns := by
  unfold Obl.LoadReturns
  intro g seq n s t f w d ty unif addrs pieces p k load kind piece fetched ls waits pas bad t1 s1
  have returns := sectorReturns_eq load kind piece fetched
  have last := eraseIdx_isEmpty_iff piece
  have held : pieceHeld s g seq ty addrs p = true ↔ waits := by
    rw [pieceHeld, Bool.or_eq_true]
    rfl
  have awake {u : State} (h : dramSleeps s p.addr = false) : (if dramSleeps s p.addr then meetAsleep s else u) = u :=
    if_neg (ne_true_of_eq_false h)
  refine ⟨fun waiting => ?waits, fun free asleep => ?asleep, fun x free unasleep deferred => ?deferred,
    fun free unasleep now clean => ?comes, fun l va pa xs free unasleep now poisoned contain one left => ?traps⟩
  case waits => exact congrArg Host.Outcome.next (returns.trans (if_pos (held.mpr waiting)))
  all_goals rw [if_neg (mt held.mp free)] at returns
  case asleep => exact congrArg Host.Outcome.next (returns.trans (if_pos asleep))
  all_goals rw [awake unasleep] at returns
  case deferred => exact congrArg Host.Outcome.next (returns.trans (if_pos (by rw [deferred]; rfl)))
  all_goals rw [if_neg (by rw [now]; decide)] at returns
  case comes =>
    rw [takePiece_takes clean] at returns
    refine ⟨fun more => congrArg Host.Outcome.next ?_, fun one all => congrArg Host.Outcome.next ?_⟩
    · exact returns.trans (if_neg (by rw [last]; omega))
    · exact returns.trans ((if_pos (last.mpr one)).trans (landLoad_done all))
  case traps =>
    rw [takePiece_poisoned poisoned contain] at returns
    intro t2 t3 room
    exact congrArg Host.Outcome.next (returns.trans ((if_pos (last.mpr one)).trans (landLoad_traps left room)))

/-- Settles O27. Each event is its guard and one equation for each outcome. A piece of a load is held, deferred, or
comes (`sectorReturns_eq`); what its lanes take is `takePiece`, and the last piece lands the load (`landLoad_done`,
`landLoad_traps`). -/
theorem groupEvents : Obligations.GroupEvents := ⟨groupEvents_moves, loadReturns⟩

end Sys2Proof.Machine
end

section
/-!
PROOFS. Events of the copy engine (O32).
-/
namespace Sys2Proof.Machine

/-! ### Chunks, timed copies, source locks and completion (R194 to R201, R207) -/

section
variable {k id ch : Nat} {s : State} {c : Cmd} (found : cmdAt s k id = some c)
include found

/-- A chunk moves of a sealed copy that runs and whose release time allows it. -/
theorem copyChunk_moves (sealed : c.sealed = true) (normal : cmdDet s c = false) (runs : cmdRuns s c = true)
    (released : c.time = none ∨ c.started = true) : copyChunk k id ch s = runChunk c ch s := by
  rw [copyChunk, found]
  refine if_pos ?_
  rcases released with untimed | started
  · simp [sealed, normal, runs, untimed]
  · simp [sealed, normal, runs, started]

theorem copyChunk_unsealed (unsealed : c.sealed = false) : copyChunk k id ch s = s := by
  rw [copyChunk, found]
  exact if_neg (by simp [unsealed])

theorem completeCmd_unsealed (unsealed : c.sealed = false) (pull : Bool) : completeCmd pull k id s = s := by
  rw [completeCmd, found]
  exact if_neg (by simp [unsealed])

/-- A command whose bytes are all written completes, a copy and a pull each by its own event. -/
theorem completeCmd_finishes (sealed : c.sealed = true) (written : c.todo = []) (unfilled : c.filled = false)
    (normal : cmdDet s c = false) (runs : cmdRuns s c = true) (released : c.time = none ∨ c.started = true) :
    completeCmd c.pull k id s = finishCmd k c s := by
  rw [completeCmd, found]
  refine if_pos ?_
  rcases released with untimed | started
  · simp [sealed, written, unfilled, normal, runs, untimed]
  · simp [sealed, written, unfilled, normal, runs, started]

theorem cpytStart_starts (runs : cmdRuns s c = true) (ready : cpytReady s k c = true) :
    cpytStart k id s = modCmd id (fun x => { x with started := true }) s := by
  rw [cpytStart, found]
  exact if_pos (by simp [runs, ready])

/-- Once every source byte can be read, the engine holds them and the source lock is free. -/
theorem sourceDone_frees {m : NMap (List (Byte × Bool))} {t : State} (reading : c.srcDone = false)
    (normal : cmdDet s c = false) (runs : cmdRuns s c = true) (unfaulted : c.recs = [])
    (read : readAll c c.todo s = (some m, t)) :
    sourceDone k id s = freeCmdLocks k id [0] (modCmd id (fun x => { x with buf := m, srcDone := true }) t) := by
  simp only [sourceDone, found, reading, normal, runs, unfaulted, read, Bool.not_true, List.isEmpty_nil, Bool.or_self,
    Bool.false_eq_true, if_false]

end

theorem copyEvents : Obl.CopyEvents := by
  unfold Obl.CopyEvents
  intro k id ch s c found runs
  refine ⟨fun sealed normal runs released => ?_, fun unsealed => ⟨?_, ?_, ?_⟩, fun runs ready => ?_,
    fun m t reading normal runs unfaulted read => ?_,
    fun sealed written unfilled normal runs released => ⟨fun copy => ?_, fun pull => ?_⟩⟩
  all_goals refine congrArg Host.Outcome.next ?_
  · exact copyChunk_moves found sealed normal runs released
  · exact copyChunk_unsealed found unsealed
  · exact completeCmd_unsealed found unsealed false
  · exact completeCmd_unsealed found unsealed true
  · exact cpytStart_starts found runs ready
  · exact sourceDone_frees found reading normal runs unfaulted read
  · exact copy ▸ completeCmd_finishes found sealed written unfilled normal runs released
  · exact pull ▸ completeCmd_finishes found sealed written unfilled normal runs released

/-! ### Pull rings (R204, R207, R279, R321, R374) -/

/-- The watch is in force: its word is released and its group goes on. -/
structure WatchRuns (s : State) (k n : Nat) (w : Watch) : Prop where
  found : (core s k).watches[n]? = some w
  live : w.dead = none
  sealed : released s w.g w.seq = true
  unasked : preemptDue s w.g = false
  placed : (grp s w.g).parked = false

section
variable {s t s1 : State} {k n : Nat} {w : Watch} (runs : WatchRuns s k n w)
include runs

/-- A walk that reads poison ends the run of its launch. -/
theorem observeTail_walkPoison {ipa : Nat} (walk : xlateFor s k (lkOf w.g) w.src .read = (.fault 8 ipa, t)) :
    observeTail k n s =
      enterHost w.g { cls := clsPage, cause := 8, pmode := (grp s w.g).supv, seq := w.seq } t := by
  simp only [observeTail, runs.found, runs.live, runs.sealed, runs.unasked, runs.placed, walk, Option.isSome_none,
    Bool.not_true, Bool.or_self, Bool.false_eq_true, if_false, if_true]

section
variable {pa mt : Nat} (walk : xlateFor s k (lkOf w.g) w.src .read = (.ok pa mt, t))
include walk

/-- The channel for pulls is closed. -/
theorem observeTail_held (closed : linkHoldsOn t 2 pa = true) : observeTail k n s = t := by
  simp only [observeTail, runs.found, runs.live, runs.sealed, runs.unasked, runs.placed, walk, closed,
    Option.isSome_none, Bool.not_true, Bool.not_false, Bool.true_or, Bool.or_self, Bool.false_eq_true, if_false,
    if_true]

variable (opened : linkHoldsOn t 2 pa = false)
include opened

/-- The regulator defers the read. -/
theorem observeTail_deferred (asked : askRead (.word w.g w.seq) pa (launchOf s w.g).acct mt t = (false, s1)) :
    observeTail k n s = s1 := by
  simp only [observeTail, runs.found, runs.live, runs.sealed, runs.unasked, runs.placed, walk, opened, asked,
    Option.isSome_none, Bool.not_true, Bool.not_false, Bool.true_or, Bool.or_self, Bool.false_eq_true, if_false,
    if_true]

/-- A tail that is neither poisoned nor held back on the pair is read, and pulls begin where it is ahead. -/
theorem observeTail_reads (asked : askRead (.word w.g w.seq) pa (launchOf s w.g).acct mt t = (true, s1))
    (clean : engPoison s1 pa ((List.range 4).map (pa % 64 + ·)) = false)
    (unheld : (List.range 4).any (fun i => heldOnPair s1 (k / 2) (pa + i)) = false) :
    let tail := ofBytes ((List.range 4).map fun i => engByte s1 (pa + i))
    let R := ringOf (memNum ((team s1 (tkOf w.g)).mem w.half) w.hdr 64)
    observeTail k n s =
      if R.valid && R.pull && decide (1 ≤ diff32 tail R.filled) && decide (diff32 tail R.filled ≤ 2 ^ 31) then
        beginPulls k w tail R.slots s1
      else s1 := by
  simp only [observeTail, runs.found, runs.live, runs.sealed, runs.unasked, runs.placed, walk, opened, asked, clean,
    unheld, Option.isSome_none, Bool.not_true, Bool.or_self, Bool.false_eq_true, if_false]

end
end

theorem pullRings : Obl.PullRings := by
  unfold Obl.PullRings
  intro k n s w found live released unasked placed
  have runs : WatchRuns s k n w := ⟨found, live, released, unasked, placed⟩
  refine ⟨fun pa mt t walk closed => ?_, fun pa mt t s1 walk opened asked => ?_,
    fun pa mt t s1 walk opened asked clean unheld => ⟨fun valid pull ahead near => ?_, fun same => ?_⟩,
    fun ipa t walk => ?_⟩
  all_goals refine congrArg Host.Outcome.next ?_
  · exact observeTail_held runs walk closed
  · exact observeTail_deferred runs walk opened asked
  · exact (observeTail_reads runs walk opened asked clean unheld).trans (if_pos
      (by rw [valid, pull, decide_eq_true ahead, decide_eq_true near]; rfl))
  · exact (observeTail_reads runs walk opened asked clean unheld).trans (if_neg (by simp [same]))
  · exact observeTail_walkPoison runs walk

/-- Settles O32. Each event finds its command (`cmdAt`) or its watch (`WatchRuns`) and has one equation for each case
that the statement names. -/
theorem copiesMove : Obligations.CopiesMove := ⟨copyEvents, pullRings⟩

end Sys2Proof.Machine
end

section
/-!
PROOFS. The sum-tree words (O24).
-/
namespace Sys2Proof.Machine

/-! ### How a sum-tree command is issued (R234) -/

section
variable {c : Cur} {s : State} {n : Nat}

/-- A command without a result is held and its word is done. -/
theorem treeRes_holds {cmd : TreeCmd} (room : holdFull s c.g c.w.seq 1 = none) :
    treeRes n cmd none c s = .done (hold c.g c.w.seq (.tree n cmd) s) := by
  simp only [treeRes, holdRoom_none room]

/-- Outside a handler, a command with a result closes its quantum, and its word is in flight. -/
theorem treeRes_flies {cmd : TreeCmd} {ds : List Reg} (room : holdFull s c.g c.w.seq 1 = none)
    (out : handlerStuck s c.g = false) : treeRes n cmd (some ds) c s =
      .fly (heldFlight c 6 ds) (closeAfter c (hold c.g c.w.seq (.tree n cmd) s)) := by
  simp only [treeRes, holdRoom_none room, out, Bool.false_eq_true, if_false]

variable {f : Flds} {cmd : List Nat → TreeCmd} {dests : Option (List Reg)}

/-- A word that acts per lane issues one command for its active lanes. -/
theorem treeLanes_active (some_lane : laneList s c f ≠ []) :
    treeLanes n cmd dests f c s = treeRes n (cmd (laneList s c f)) dests c s :=
  if_neg (by rwa [List.isEmpty_iff])

/-- With no active lane it issues none, and only closes its quantum where it has a result. -/
theorem treeLanes_idle (no_lane : laneList s c f = []) :
    treeLanes n cmd dests f c s = .done (if dests.isSome then closeAfter c s else s) :=
  if_pos (by rw [no_lane]; rfl)

end

section
variable {c : Cur} {s : State} {f : Flds}

/-- TRINS with MOD bit 0 issues its insertions without a destination (R235). -/
theorem trinsRes_silent (silent : f.m 0 = true) : trinsRes f c s =
    treeLanes f.imm (fun ls => .ins none (ls.map (lane3 s c.g f))) none f c s := by
  simp only [trinsRes, silent, if_true, Option.map_none]

theorem trinsRes_answered (answered : f.m 0 = false) : trinsRes f c s =
    treeLanes f.imm (fun ls => .ins (some f.d) (ls.map (lane3 s c.g f))) (some [.v f.d]) f c s := by
  simp only [trinsRes, answered, Bool.false_eq_true, if_false, Option.map_some]

end

/-- Settles O24. A word with active lanes issues one command (`treeLanes_active`); the command is held, and a word with
a result then flies, its quantum closed (`treeRes_holds`, `treeRes_flies`). -/
theorem treeWords : Obligations.TreeWords := by
  unfold Obligations.TreeWords
  intro c s w f ls v ops held answers room
  have lanes : laneList (begun c s) c f = ls := laneList_begun ..
  have holds {i : Instr} {body : Cur → State → Res} {cmd : TreeCmd} (he : exec i s = word i body s)
      (hb : body c (begun c s) = treeRes f.imm cmd none c (begun c s)) : Does i c s (held cmd) :=
    does_of_done he (hb.trans (treeRes_holds room))
  have flies {i : Instr} {body : Cur → State → Res} {cmd : TreeCmd} {ds : List Reg} (he : exec i s = word i body s)
      (hb : body c (begun c s) = treeRes f.imm cmd (some ds) c (begun c s)) : answers i cmd ds :=
    fun out => flies_of_fly he (hb.trans (treeRes_flies room ((handlerStuck_begun ..).trans out)))
  refine ⟨fun some_lane => ?lanes, fun no_lane => ?noLane, flies rfl rfl, ?trcfg⟩
  case lanes =>
    have issues {cmd : List Nat → TreeCmd} {dests : Option (List Reg)} :
        treeLanes f.imm cmd dests f c (begun c s) = treeRes f.imm (cmd ls) dests c (begun c s) :=
      lanes ▸ treeLanes_active (lanes ▸ some_lane)
    refine ⟨fun silent => holds rfl ((trinsRes_silent silent).trans issues),
      fun answered => flies rfl ((trinsRes_answered answered).trans issues), flies rfl issues, flies rfl ?_,
      flies rfl issues⟩
    rw [← uread_begun c]
    exact issues
  case noLane =>
    have idle {cmd : List Nat → TreeCmd} {dests : Option (List Reg)} : treeLanes f.imm cmd dests f c (begun c s) =
        .done (if dests.isSome then closeAfter c (begun c s) else begun c s) := treeLanes_idle (lanes.trans no_lane)
    refine ⟨?_, does_of_done rfl idle, does_of_done rfl idle, does_of_done rfl idle⟩
    split
    case isTrue silent => exact does_of_done rfl ((trinsRes_silent silent).trans idle)
    case isFalse answered =>
      exact does_of_done rfl ((trinsRes_answered (Bool.eq_false_of_not_eq_true answered)).trans idle)
  case trcfg =>
    refine holds rfl ?_
    rw [← uread_begun c]
    rfl

end Sys2Proof.Machine
end

section
/-!
PROOFS. The return from a handler (O59).
-/
namespace Sys2Proof.Machine

/-! ### HRET (R241, R323) -/

/-- The group as HRET resumes it from a handler's record. -/
def resumed (h : Handler) (G : Group) : Group :=
  { G with
    handler := none, s0 := h.s0, s1 := h.s1, turn := h.turn, supv := h.trap.pmode, refetch := h.saved
    plan := planPast h.saved (rotOf G) }

section
variable {c : Cur} {s : State} {h : Handler} (held : (grp s c.g).handler = some h)
include held

/-- Once no earlier word of the handler waits, HRET resumes the group. -/
theorem hretRes_resumes (started : ∀ x ∈ queued (grp s c.g), c.w.seq ≤ x.seq) :
    hretRes c s = .done (modGrp s c.g (resumed h)) := by
  have none_waits : ((queued (grp s c.g)).any fun w => decide (w.seq < c.w.seq)) = false := by
    simpa using started
  simp only [hretRes, held, none_waits, Bool.false_eq_true, if_false]
  rfl

theorem hretRes_waits {x : QWord} (waiting : x ∈ queued (grp s c.g)) (earlier : x.seq < c.w.seq) :
    hretRes c s = waitFor c 0 s := by
  have waits : ((queued (grp s c.g)).any fun w => decide (w.seq < c.w.seq)) = true :=
    List.any_eq_true.mpr ⟨x, waiting, decide_eq_true earlier⟩
  simp only [hretRes, held, waits, if_true]

end

/-- The first saved word is fetched from its address with its number, slot and lane mask (R86). -/
theorem fetchAt_refetch {G : Group} {x : QWord} {xs : List QWord} (saved : G.refetch = x :: xs) :
    fetchAt G 2 = ⟨2, x.slot, x.pc, x.seq, x.mask, x.rot, some x⟩ := by
  simp only [fetchAt, saved, if_true, List.head?_cons]

/-- The bits of a well-formed word raise none of the causes 2, 3 and 6 (R75). -/
theorem causes_of_wellFormed {i : Instr} {r : Row} (hr : i.row = some r) (wf : i.wellFormed = true) :
    r.cause2 i.flds = false ∧ r.cause3 i.flds = false ∧ r.modOk = true := by
  simp only [Instr.wellFormed, hr, Row.staticCauses, List.isEmpty_iff, List.append_eq_nil_iff] at wf
  simpa [and_assoc] using wf

/-- In supervisor mode, HRET of a group that runs no handler meets cause 7. -/
theorem illop_hret {s : State} {g : Nat} {w : SW} (none_runs : (grp s g).handler = none) (supv : (grp s g).supv = true)
    (wf : (Instr.hret w).wellFormed = true) : illop s g (.hret w) = some 7 := by
  obtain ⟨resv, range, mode⟩ := causes_of_wellFormed rfl wf
  have admitted : privileged s g (.hret w) = false := if_pos supv
  have unheld : stateBad s g (.hret w) = true := by
    simp only [stateBad, none_runs, Option.isNone_none]
  rw [illop_fieldsOk rfl resv range rfl, admitted, mode, unheld]
  rfl

/-- Settles O59. HRET has one equation for each case of its own effect (`hretRes_resumes`, `hretRes_waits`); without a
handler the splitter finds cause 7 (`illop_hret`). That HRET waits for the handler's earlier words is the model's choice
(log entry 141). -/
theorem returnFromHandler : Obligations.ReturnFromHandler := by
  unfold Obligations.ReturnFromHandler
  intro c s w
  refine ⟨fun h held started => ?_, fun runs ⟨x, waiting, earlier⟩ => ?_, fun G x xs => fetchAt_refetch,
    fun none_runs supv wf => ⟨illop_hret none_runs supv wf, fun cur first seq live unheld => ?_⟩⟩
  · exact does_of_done rfl (hretRes_resumes ((grp_begun_handler ..).trans held) started)
  · obtain ⟨h, held⟩ := Option.ne_none_iff_exists'.mp runs
    exact waits_of_waitFor rfl (hretRes_waits ((grp_begun_handler ..).trans held) waiting earlier)
  · have cause : illop (begun c s) c.g (.hret w) = some 7 :=
      illop_hret ((grp_begun_handler ..).trans none_runs) ((grp_begun_supv ..).trans supv) wf
    refine (word_fetched cur live first seq).trans ?_
    rw [takeWord_illop unheld cause]
    rfl

end Sys2Proof.Machine
end

section
/-!
PROOFS. System words and system registers (O26).
-/
namespace Sys2Proof.Machine

/-! ### System registers where a try begins (R29, R33) -/

@[simp] theorem begun_pairs (c : Cur) (s : State) : (begun c s).pairs = s.pairs :=
  detClose_keeps (P := fun t => t.pairs = s.pairs) (fun _ _ ht => ht) rfl
@[simp] theorem begun_wakeReq (c : Cur) (s : State) : (begun c s).wakeReq = s.wakeReq :=
  detClose_keeps (P := fun t => t.wakeReq = s.wakeReq) (fun _ _ ht => ht) rfl
@[simp] theorem begun_gated (c : Cur) (s : State) : (begun c s).gated = s.gated :=
  detClose_keeps (P := fun t => t.gated = s.gated) (fun _ _ ht => ht) rfl

section
variable (c : Cur) (s : State) (g : Nat)

@[simp] theorem pair_begun (p : Nat) : pair (begun c s) p = pair s p := by
  simp only [pair, begun_pairs]
/-- The trap registers of a group. -/
theorem grp_begun_trapRegs : (grp (begun c s) g).tstat = (grp s g).tstat ∧ (grp (begun c s) g).tseq = (grp s g).tseq ∧
    (grp (begun c s) g).taddr = (grp s g).taddr ∧ (grp (begun c s) g).trec = (grp s g).trec :=
  ⟨(congrArg Group.tstat (work_begun c s g) :), (congrArg Group.tseq (work_begun c s g) :),
    (congrArg Group.taddr (work_begun c s g) :), (congrArg Group.trec (work_begun c s g) :)⟩
@[simp] theorem heldRec_begun : heldRec (begun c s) g = heldRec s g := by
  simp only [heldRec, grp_begun_handler]
@[simp] theorem sysReg_begun (n : Nat) : sysReg (begun c s) g n = sysReg s g n := by
  obtain ⟨tstat, tseq, taddr, trec⟩ := grp_begun_trapRegs c s g
  simp only [sysReg, heldRec_begun, launchOf_begun, pairOf_begun, pair_begun, begun_wakeReq, begun_gated, tstat, tseq,
    taddr, trec]

end

theorem systemRegisters : Obl.SystemRegisters := by
  intro s g
  refine ⟨rfl, rfl, rfl, rfl, rfl, rfl, rfl, rfl, rfl, rfl, rfl, rfl, fun h held => ?_⟩
  have word (n : Nat) (low : 0x100 ≤ n) (high : n ≤ 0x1FF) : sysReg s g n =
      RecSrc.word ⟨h.trap, g, h.nextSeq, h.s0, h.s1, h.saved⟩ (n - 0x100) := by
    simp only [sysReg, if_pos (And.intro low high), heldRec, held, Option.map_some]
  refine ⟨word 0x100 ?_ ?_, word 0x101 ?_ ?_, word 0x102 ?_ ?_, word 0x103 ?_ ?_⟩ <;> decide

/-! ### System words (R79, R242 to R247, R324) -/

section
variable {c : Cur} {s : State} {f : Flds}

/-- A system word is held for its seal where the buffer has room. -/
theorem sysHold_flies {cmd : SysCmd} {ds : List Reg} (room : holdFull s c.g c.w.seq 1 = none) :
    sysHold cmd ds c s = .fly (heldFlight c 7 ds) (hold c.g c.w.seq (.sys cmd) s) := by
  simp only [sysHold, holdRoom_none room]

theorem gateRes_outside (out : handlerStuck s c.g = false) :
    gateRes f c s = sysHold (.gate f.d (uread s c.g f.a)) [.u f.d] c s :=
  if_neg (ne_true_of_eq_false out)

theorem gateRes_handler (inside : handlerStuck s c.g = true) : gateRes f c s = trapAs c clsDouble 0 0 s :=
  if_pos inside

theorem suspRes_misaligned (h : uread s c.g f.a % 4096 ≠ 0) :
    suspRes f c s = trapAs c clsMisalign 0 (uread s c.g f.a) s :=
  if_pos h

theorem suspRes_outside (aligned : uread s c.g f.a % 4096 = 0) (out : handlerStuck s c.g = false) :
    suspRes f c s = sysHold (.susp (uread s c.g f.a)) [] c s :=
  (if_neg (not_not.mpr aligned)).trans (if_neg (ne_true_of_eq_false out))

theorem suspRes_handler (aligned : uread s c.g f.a % 4096 = 0) (inside : handlerStuck s c.g = true) :
    suspRes f c s = trapAs c clsDouble 0 0 s :=
  (if_neg (not_not.mpr aligned)).trans (if_pos inside)

theorem haltRes_woken (tried : c.w.stage = 1) (woken : c.w.aux = 1) : haltRes c s = .done (resolve c (past c 4) s) :=
  if_pos ⟨tried, woken⟩

theorem haltRes_asleep (asleep : ¬(c.w.stage = 1 ∧ c.w.aux = 1)) :
    haltRes c s = .wait { c.w with stage := 1, cause := 6 } s :=
  if_neg asleep

end

theorem systemWords_effects : Obl.SystemWords := by
  unfold Obl.SystemWords
  intro c s w f a held
  have operand (n : Nat) : uread (begun c s) c.g n = uread s c.g n := uread_begun ..
  have stuck : handlerStuck (begun c s) c.g = handlerStuck s c.g := handlerStuck_begun ..
  refine ⟨?sysrd, fun room => ?held, fun misaligned => ?susp, fun inside => ⟨?gate, fun aligned => ?suspIn⟩,
    fun v => ?jobyld, fun v first starts charge => ?halt, fun v tried woken => ?woken, fun v tried asleep => ?asleep⟩
  case sysrd =>
    rw [← sysReg_begun c]
    exact does_of_done rfl rfl
  case held =>
    intro waits
    have flies {i : Instr} {body : Cur → State → Res} {ds : List Reg} {cmd : SysCmd} (he : exec i s = word i body s)
        (hb : body c (begun c s) = sysHold cmd ds c (begun c s)) : waits i ds cmd :=
      flies_of_fly he (hb.trans (sysHold_flies room))
    simp only [a, ← operand]
    refine ⟨flies rfl rfl, flies rfl rfl, fun out => flies rfl (gateRes_outside (stuck.trans out)), flies rfl rfl,
      fun v => flies rfl rfl, fun aligned out => flies rfl (suspRes_outside aligned (stuck.trans out)), flies rfl rfl⟩
  case susp =>
    simp only [a, ← operand] at misaligned ⊢
    exact traps_of_trapAs rfl (suspRes_misaligned misaligned)
  case gate => exact traps_of_trapAs rfl (gateRes_handler (stuck.trans inside))
  case suspIn =>
    simp only [a, ← operand] at aligned
    exact traps_of_trapAs rfl (suspRes_handler aligned (stuck.trans inside))
  case jobyld =>
    rw [← seatOf_begun c]
    exact does_of_done rfl rfl
  case halt => exact word_wait starts (haltRes_asleep (by simp [first])) charge
  case woken => exact does_of_done rfl (haltRes_woken tried woken)
  case asleep =>
    refine waits_of_waitFor rfl ((haltRes_asleep fun h => asleep h.2).trans ?_)
    rw [← tried]
    rfl

/-- Settles O26. A held system word flies where the buffer has room (`sysHold_flies`), the others have one equation for
each case; the system registers are those of the state before the try (`sysReg_begun`). -/
theorem systemWords : Obligations.SystemWords := ⟨systemWords_effects, systemRegisters⟩

end Sys2Proof.Machine
end

section
/-!
PROOFS. Port entries and link messages on their way (O33).
-/
namespace Sys2Proof.Machine

/-! ### When a word lets its communication go (R229, R262, R430) -/

theorem maySend_iff {s : State} {g seq : Nat} {after : Marks} : maySend s g seq after = true ↔
    (∀ G, nfind s.groups g = some G → seq < sealedBelow G) ∧
      (isDet s g = true ∨ ∀ e ∈ heldBefore s g seq after, isWriteEntry e = false) := by
  rw [maySend, Bool.and_eq_true, Bool.or_eq_true]
  refine and_congr ?_ (or_congr Iff.rfl (by simp))
  cases nfind s.groups g with
  | none => simp
  | some G => simp

/-! ### Port entries (R229, R230) -/

section
variable {s : State} {g port i : Nat}

section
variable {p : PortPart} (part : (chanAt s g port).parts[i]? = some p)
include part

theorem deliverPart_delivers (undelivered : p.delivered = false) (may : maySend s p.src p.seq p.after = true)
    (inOrder : ∀ x ∈ (chanAt s g port).parts.take i, x.origin = p.origin → x.delivered = true) :
    deliverPart g port i s = setChan g port
      { chanAt s g port with parts := (chanAt s g port).parts.set i { p with delivered := true } } s := by
  have none_before : ((chanAt s g port).parts.take i).any (fun x => x.origin = p.origin && !x.delivered) = false :=
    List.any_eq_false.mpr fun x hx => by simpa using inOrder x hx
  simp only [deliverPart, part, undelivered, partMay, may, none_before, Bool.not_true, Bool.or_self, Bool.false_eq_true,
    if_false]

theorem deliverPart_stays (held : maySend s p.src p.seq p.after = false) : deliverPart g port i s = s := by
  simp only [deliverPart, part, partMay, held, Bool.not_false, Bool.or_true, Bool.true_or, if_true]

end

section
variable {o : OutPart} (part : s.outParts[i]? = some o)
include part

theorem sendPart_sends {n : Nat} (route : hwRoute s o.dev = some n) (unsent : o.sent = false)
    (may : maySend s o.part.src o.part.seq o.part.after = true) (opened : chanStopped s n 2 = false)
    (inOrder : ∀ x ∈ s.outParts.take i, x.part.src = o.part.src → x.dev = o.dev → x.dst = o.dst → x.port = o.port →
      x.sent = true) : sendPart i s = extEff (lkOf o.part.src)
        (noteGone o.part.src o.part.seq { s with outParts := s.outParts.set i { o with sent := true } }) := by
  have none_before : ((s.outParts.take i).any fun x => x.part.src = o.part.src && x.dev = o.dev && x.dst = o.dst &&
      x.port = o.port && !x.sent) = false :=
    List.any_eq_false.mpr fun x hx => by simpa [and_assoc] using inOrder x hx
  simp only [sendPart, part, route, unsent, partMay, may, none_before, opened, Bool.not_true, Bool.or_self,
    Bool.false_eq_true, if_false]

theorem sendPart_stays (held : maySend s o.part.src o.part.seq o.part.after = false) : sendPart i s = s := by
  simp only [sendPart, part, partMay, held, Bool.not_false, Bool.or_true, Bool.true_or, if_true]
  split <;> rfl

end

/-! ### Link messages of this device (R232, R374, R375) -/

/-- Message `i` has left, and deterministic mode notes it. -/
def sentMsg (i : Nat) (m : Msg) (s : State) : State :=
  noteGone m.src m.seq { s with msgs := s.msgs.set i { m with stage := 1 } }

/-- The link of a message of this device: that of its launch's route, where it is up. -/
theorem msgLink_own {m : Msg} {n : Nat} (own : m.sdev = deviceNo s)
    (route : nfind (launch s (lkOf m.src)).routes m.ddev = some n) :
    msgLink s m = if linkUp s n then some n else none := by
  simp only [msgLink, own, route, ne_eq, not_true_eq_false, if_false]

section
variable {m : Msg} (msg : s.msgs[i]? = some m)
include msg

theorem sendMsg_stays (own : m.stage ≠ 3) (held : maySend s m.src m.seq m.after = false) : sendMsg i s = s := by
  simp only [sendMsg, msg, own, held, Bool.not_false, Bool.or_true, Bool.true_or, if_true, if_false]

section
variable (waiting : m.stage = 0) (own : m.sdev = deviceNo s) (may : maySend s m.src m.seq m.after = true)
  (inOrder : ∀ x ∈ s.msgs.take i, x.inChan m.sdev m.src m.ddev m.dst m.chan = true → x.stage ≠ 0)
include waiting own may inOrder

omit msg in
/-- Nothing holds back a message that its word lets go and whose channel has sent the earlier ones. -/
theorem sendMsg_unheld : (decide (m.stage ≠ 0) || decide (m.sdev ≠ deviceNo s) || !maySend s m.src m.seq m.after ||
    (s.msgs.take i).any fun x => x.inChan m.sdev m.src m.ddev m.dst m.chan && decide (x.stage = 0)) = false := by
  have none_before : ((s.msgs.take i).any fun x => x.inChan m.sdev m.src m.ddev m.dst m.chan && x.stage = 0) = false :=
    List.any_eq_false.mpr fun x hx => by simpa using inOrder x hx
  rw [none_before, may, decide_eq_false (not_not.mpr waiting), decide_eq_false (not_not.mpr own)]
  rfl

theorem sendMsg_toSelf (here : m.ddev = deviceNo s) : sendMsg i s = linkUnlock m.core m.lock (sentMsg i m s) := by
  have not_onward : m.stage ≠ 3 := by rw [waiting]; decide
  simp only [sendMsg, msg, not_onward, sendMsg_unheld waiting own may inOrder, Bool.false_eq_true, if_false]
  exact if_pos here

variable {n : Nat} (away : m.ddev ≠ deviceNo s) (route : nfind (launch s (lkOf m.src)).routes m.ddev = some n)
include away route

theorem sendMsg_leaves (up : linkUp s n = true) (opened : chanStopped s n 2 = false) :
    sendMsg i s = extEff (lkOf m.src) (linkUnlock m.core m.lock (sentMsg i m s)) := by
  have not_onward : m.stage ≠ 3 := by rw [waiting]; decide
  have link : msgLink s m = some n := (msgLink_own own route).trans (if_pos up)
  simp only [sendMsg, msg, not_onward, sendMsg_unheld waiting own may inOrder, away, link, opened,
    Bool.false_eq_true, if_false, sentMsg]

/-- A message whose route is down is discarded and counted. -/
theorem sendMsg_lost (down : linkUp s n = false) :
    sendMsg i s = linkUnlock m.core m.lock (loseOn n { s with msgs := s.msgs.eraseIdx i }) := by
  have not_onward : m.stage ≠ 3 := by rw [waiting]; decide
  have link : msgLink s m = none := (msgLink_own own route).trans (if_neg (ne_true_of_eq_false down))
  simp only [sendMsg, msg, not_onward, sendMsg_unheld waiting own may inOrder, away, link, route,
    Bool.false_eq_true, if_false, Option.getD_some]

end

/-! ### Link messages of other devices (R231, R232, R375, R376) -/

section
variable (onward : m.stage = 3) (far : m.sdev ≠ deviceNo s)
  (inOrder : ∀ x ∈ s.msgs.take i, x.inChan m.sdev m.src m.ddev m.dst m.chan = true → x.stage ≠ 3)
include onward far inOrder

/-- A message that is passed on goes by the link toward its device. -/
theorem sendMsg_forwards {n : Nat} (route : hwRoute s m.ddev = some n) : sendMsg i s =
    if chanStopped s n 2 then s else { s with msgs := s.msgs.set i { m with stage := 1 } } := by
  have none_before : ((s.msgs.take i).any fun x => x.inChan m.sdev m.src m.ddev m.dst m.chan && x.stage = 3) = false :=
    List.any_eq_false.mpr fun x hx => by simpa using inOrder x hx
  have link : msgLink s m = some n := (if_pos far).trans route
  simp only [sendMsg, msg, onward, forwardMsg, none_before, link, if_true, Bool.false_eq_true, if_false]

/-- Where no link up leads there it is discarded and counted. -/
theorem sendMsg_forwardLost (lost : hwRoute s m.ddev = none) :
    sendMsg i s = loseOn (linkToward s m.ddev) { s with msgs := s.msgs.eraseIdx i } := by
  have none_before : ((s.msgs.take i).any fun x => x.inChan m.sdev m.src m.ddev m.dst m.chan && x.stage = 3) = false :=
    List.any_eq_false.mpr fun x hx => by simpa using inOrder x hx
  have link : msgLink s m = none := (if_pos far).trans lost
  simp only [sendMsg, msg, onward, forwardMsg, none_before, link, if_true, Bool.false_eq_true, if_false]

end

theorem arriveOwn_arrives (left : m.stage = 1) (here : m.ddev = deviceNo s)
    (inOrder : ∀ x ∈ s.msgs.take i, x.inChan m.sdev m.src m.ddev m.dst m.chan = true → 2 ≤ x.stage) :
    arriveOwn i s = { s with msgs := s.msgs.set i { m with stage := 2 } } := by
  have none_before : ((s.msgs.take i).any fun x => x.inChan m.sdev m.src m.ddev m.dst m.chan && decide (x.stage < 2)) =
      false := List.any_eq_false.mpr fun x hx => by simpa [Nat.lt_iff_add_one_le] using inOrder x hx
  simp only [arriveOwn, msg, none_before]
  refine if_neg ?_
  simp [left, here]

end
end

/-- What another device that is present sends arrives. -/
theorem not_absent {s : State} {dev : Nat} (far : dev ≠ deviceNo s) (present : devPresent s dev = true) :
    ¬(dev = deviceNo s || !devPresent s dev) = true := by
  simp [far, present]

/-- Settles O33. A part, a message of this device and one that is passed on have each an equation for what becomes of
them once they may go (`deliverPart_delivers`, `sendPart_sends`, `sendMsg_leaves`, `sendMsg_forwards`), and stay where
they are until then. That a forwarded message is kept in its channel, or discarded and counted, and that a word's
messages leave at its seal, are the model's choices (log entries 155 and 30). -/
theorem messagesMove : Obligations.MessagesMove := by
  unfold Obligations.MessagesMove
  intro s g port i
  refine ⟨fun p part undelivered may inOrder => ?_, fun o n part route unsent may opened inOrder => ?_,
    fun m msg waiting own may inOrder => ?own, fun _ _ _ => maySend_iff, fun p part held => ?_,
    fun o part held => ?_, fun m msg own held => ?_, fun m msg onward far inOrder => ?onward,
    fun m dev src dst chan bytes msg left here inOrder => ?_, fun dev src dst chan bytes far present => ?message,
    fun dev src dst chan bytes far ofar present opresent => ?passed, fun dev src dst chan bytes far present => ?part⟩
  · exact congrArg Host.Outcome.next (deliverPart_delivers part undelivered may inOrder)
  · exact congrArg Host.Outcome.next (sendPart_sends part route unsent may opened inOrder)
  case own =>
    refine ⟨fun here => ?_, fun n away route up opened => ?_, fun n away route down => ?_⟩
    all_goals refine congrArg Host.Outcome.next ?_
    · exact sendMsg_toSelf msg waiting own may inOrder here
    · exact sendMsg_leaves msg waiting own may inOrder away route up opened
    · exact sendMsg_lost msg waiting own may inOrder away route down
  · exact congrArg Host.Outcome.next (deliverPart_stays part held)
  · exact congrArg Host.Outcome.next (sendPart_stays part held)
  · exact congrArg Host.Outcome.next (sendMsg_stays msg own held)
  case onward =>
    refine ⟨fun n route opened => ?_, fun n route stopped => ?_, fun lost => ?_⟩
    all_goals refine congrArg Host.Outcome.next ?_
    · exact (sendMsg_forwards msg onward far inOrder route).trans (if_neg (ne_true_of_eq_false opened))
    · exact (sendMsg_forwards msg onward far inOrder route).trans (if_pos stopped)
    · exact sendMsg_forwardLost msg onward far inOrder lost
  · exact congrArg Host.Outcome.next (arriveOwn_arrives msg left here inOrder)
  case message => exact congrArg Host.Outcome.next (if_neg (not_absent far present))
  case passed => exact congrArg Host.Outcome.next (if_neg (by simp [far, ofar, present, opresent]))
  case part => exact congrArg Host.Outcome.next (if_neg (not_absent far present))

end Sys2Proof.Machine
end

section
/-!
PROOFS. Power gating, sensor events and the island's restarts (O45).
-/
namespace Sys2Proof.Machine

/-! ### Power gating and wakes (R243, R343, R402) -/

section
variable {s : State} {k : Nat}

/-- A core that is not gated, or that no wake names, does not come up. -/
theorem wakeDone_stays (h : s.gated.testBit k = false ∨ s.wakeReq.testBit k = false) : wakeDone k s = s :=
  if_neg (by simpa [or_iff_not_imp_left] using h)

theorem wakeDone_wakes (gated : s.gated.testBit k = true) (named : s.wakeReq.testBit k = true) : wakeDone k s =
    dispatch { s with gated := setBits s.gated k k 0, wakeReq := setBits s.wakeReq k k 0 } :=
  if_pos (by rw [gated, named]; rfl)

end

theorem powerGating : Obl.PowerGating := by
  unfold Obl.PowerGating
  intro s k
  refine ⟨fun gates => ?_, fun aborted => ?_, fun gated named => ?_, fun idle => ?_, fun running => ?_,
    fun suspended => ?_⟩
  all_goals refine congrArg Host.Outcome.next ?_
  · exact if_pos gates
  · exact if_neg (ne_true_of_eq_false aborted)
  · exact wakeDone_wakes gated named
  · exact wakeDone_stays idle
  · exact if_pos running
  · exact if_neg suspended

/-! ### When the island may restart an engine, and what its code names (R394) -/

section
variable {s : State} {k code : Nat}

/-- A core is restarted only where its pair does not roll back. -/
theorem mayRestart_core (h : k < 0x20) :
    mayRestart s k = true ↔ s.island.restart = none ∧ (pair s (k / 2)).rolling = false := by
  rw [mayRestart, decide_eq_true h, Bool.true_and, Bool.and_eq_true, Option.isNone_iff_eq_none, Bool.not_eq_true']

/-- Of any other engine it counts only that no restart is in progress. -/
theorem mayRestart_other (h : 0x20 ≤ code) : mayRestart s code = true ↔ s.island.restart = none := by
  rw [mayRestart, decide_eq_false (Nat.not_lt.mpr h), Bool.false_and, Bool.not_false, Bool.and_true,
    Option.isNone_iff_eq_none]

theorem restartEngine_core (h : k < 0x20) :
    restartEngine k s = some (restartCore k { s with island := { s.island with restart := some k } }) :=
  if_pos h

theorem restartEngine_walker (h : k < 0x20) : restartEngine (0x20 + k) s = some (restartWalker k s) := by
  have number : 0x20 + k - 0x20 = k := by omega
  rw [restartEngine, if_neg (by omega), if_pos (by omega), number]

theorem restartEngine_ingest (h : k < 8) : restartEngine (0x40 + k) s = some (dropFrame k s) := by
  have number : 0x40 + k - 0x40 = k := by omega
  rw [restartEngine, if_neg (by omega), if_neg (by omega), if_pos (by omega), number]

theorem restartEngine_cluster : restartEngine 0x48 s =
    some (loseApLines { s with island := { s.island with hbAt := s.now } }) := rfl

theorem autoRestart_restarts {t : State} (may : mayRestart s code = true) (engine : restartEngine code s = some t) :
    autoRestart code s = t := by
  simp only [autoRestart, may, engine, if_true, Option.getD_some]

/-! ### Engines that show no progress (R394) -/

theorem coreTimeout_restarts (core : k < 0x20) (stalls : coreStalls s k = true) (free : s.island.restart = none)
    (steady : (pair s (k / 2)).rolling = false) :
    coreTimeout k s = restartCore k { s with island := { s.island with restart := some k } } :=
  (if_pos (by rw [stalls, decide_eq_true core]; rfl)).trans
    (autoRestart_restarts ((mayRestart_core core).mpr ⟨free, steady⟩) (restartEngine_core core))

theorem coreTimeout_stays
    (h : coreStalls s k = false ∨ ¬s.island.restart = none ∨ (pair s (k / 2)).rolling = true) :
    coreTimeout k s = s := by
  by_cases stalled : (decide (k < 32) && coreStalls s k) = true
  · obtain ⟨core, stalls⟩ := Bool.and_eq_true_iff.mp stalled
    refine (if_pos stalled).trans (if_neg ?_)
    rw [mayRestart_core (of_decide_eq_true core)]
    simpa [stalls, or_iff_not_imp_left] using h
  · exact if_neg stalled

/-- A walker stalls where none of its cards awaits a reply and its current card has made no step for 10 ms. -/
theorem walkerStalls_iff : walkerStalls s k = true ↔ (∀ j ∈ (core s k).jobs, j.live = true → j.recs = []) ∧
    ∃ j, currentJob (core s k).jobs = some j ∧ j.since + 10000000 ≤ s.now := by
  simp only [walkerStalls, Bool.and_eq_true]
  refine and_congr (by simp) ?_
  cases currentJob (core s k).jobs with
  | none => simp
  | some j => simp

theorem walkerTimeout_restarts (core : k < 0x20) (stalls : walkerStalls s k = true) (free : s.island.restart = none) :
    walkerTimeout k s = restartWalker k s :=
  (if_pos (by rw [stalls, decide_eq_true core]; rfl)).trans
    (autoRestart_restarts ((mayRestart_other (Nat.le_add_right ..)).mpr free) (restartEngine_walker core))

theorem walkerTimeout_stays (h : ¬walkerStalls s k = true) : walkerTimeout k s = s :=
  if_neg fun stalled => h (Bool.and_eq_true_iff.mp stalled).2

/-- The current card of a walker is a live one that is not parked. -/
theorem currentJob_some {js : List Job} {j : Job} (h : currentJob js = some j) :
    j ∈ js ∧ j.live = true ∧ j.parked = false := by
  unfold currentJob at h
  split at h
  case h_1 x found =>
    cases h
    have holds := List.find?_some found
    simp only [Bool.and_eq_true, Bool.not_eq_true'] at holds
    obtain ⟨⟨live, -⟩, unparked⟩ := holds
    exact ⟨List.mem_of_find?_eq_some found, live, unparked⟩
  case h_2 =>
    have holds := List.find?_some h
    simp only [Bool.and_eq_true, Bool.not_eq_true'] at holds
    exact ⟨List.mem_of_find?_eq_some h, holds⟩

section
variable {F : Frame} (receives : (nget {} s.ingest k).cur = some F)
include receives

theorem ingestTimeout_restarts (engine : k < 8) (late : F.start + 100000000 ≤ s.now) (free : s.island.restart = none) :
    ingestTimeout k s = dropFrame k s := by
  have may : mayRestart s (0x40 + k) = true := (mayRestart_other (by omega)).mpr free
  simp only [ingestTimeout, receives, engine, late, decide_true, Bool.and_self, if_true,
    autoRestart_restarts may (restartEngine_ingest engine)]

theorem ingestTimeout_early (early : s.now < F.start + 100000000) : ingestTimeout k s = s := by
  simp only [ingestTimeout, receives, decide_eq_false (Nat.not_le.mpr early), Bool.and_false, Bool.false_eq_true,
    if_false]

end

theorem ingestTimeout_idle (idle : (nget {} s.ingest k).cur = none) : ingestTimeout k s = s := by
  simp only [ingestTimeout, idle]

theorem heartbeatTimeout_restarts (watched : reg s rHbTmo ≠ 0) (due : s.island.hbAt + 1000000 * reg s rHbTmo ≤ s.now)
    (free : s.island.restart = none) :
    heartbeatTimeout s = loseApLines { s with island := { s.island with hbAt := s.now } } :=
  (if_pos (by rw [decide_eq_true watched, decide_eq_true due]; rfl)).trans
    (autoRestart_restarts ((mayRestart_other (by decide)).mpr free) restartEngine_cluster)

theorem heartbeatTimeout_stays
    (h : reg s rHbTmo = 0 ∨ ¬s.island.hbAt + 1000000 * reg s rHbTmo ≤ s.now) : heartbeatTimeout s = s :=
  if_neg (by simpa [or_iff_not_imp_left] using h)

end

theorem supervision : Obl.Supervision := by
  unfold Obl.Supervision
  intro s c k F
  refine ⟨fun core stalls free steady => ?_, fun moves => ?_, fun j core free card unfaulted late => ?_,
    fun moves => ?_, fun j => currentJob_some, fun engine receives free => ⟨fun late => ?_, fun early => ?_⟩,
    fun idle => ?_, fun watched free due => ?_, fun alive => ?_⟩
  all_goals refine congrArg Host.Outcome.next ?_
  · exact coreTimeout_restarts core stalls free steady
  · exact coreTimeout_stays moves
  · exact walkerTimeout_restarts core (walkerStalls_iff.mpr ⟨unfaulted, j, card, late⟩) free
  · refine walkerTimeout_stays fun stalls => ?_
    obtain ⟨unfaulted, j, card, late⟩ := walkerStalls_iff.mp stalls
    rcases moves with none | ⟨x, hx, live, faulted⟩ | early
    · exact absurd (none.symm.trans card) (by simp)
    · exact faulted (unfaulted x hx live)
    · exact Nat.not_lt.mpr late (early j card)
  · exact ingestTimeout_restarts receives engine late free
  · exact ingestTimeout_early receives early
  · exact ingestTimeout_idle idle
  · exact heartbeatTimeout_restarts watched due free
  · exact heartbeatTimeout_stays alive

/-- Settles O45. Each event has one equation for its effect and one for where it leaves the state as it is; a restart
goes by the engine's code (`mayRestart_core`, `mayRestart_other`, `autoRestart_restarts`). The 10 ms that count from the
walker's last step, the other supervision origins and the lines that a processor cluster loses are the model's choices
(log entries 136, 77 and 43). -/
theorem powerAndSupervision : Obligations.PowerAndSupervision := ⟨powerGating, supervision⟩

end Sys2Proof.Machine
end

section
/-!
PROOFS. TRAP and BKPT, the entry into a handler, and delivery to the host (O25).
-/
namespace Sys2Proof.Machine

/-! ### TRAP and BKPT (R84, R240) -/

section
variable {g : Nat} {s : State} {r : TrapRec}

theorem finishTrap_other (other : r.fin = false) : finishTrap g r s = s := by
  have none_found : ((queueOf (grp s g) r.queue).find? fun w => r.fin && w.seq = r.seq) = none :=
    List.find?_eq_none.mpr fun w _ => by simp [other]
  simp only [finishTrap, none_found]

/-- The trapping word that completes at its delivery goes on past its two words. -/
theorem finishTrap_completes {w : QWord} (completes : r.fin = true)
    (found : (queueOf (grp s g) r.queue).find? (fun x => x.seq = r.seq) = some w) : finishTrap g r s =
      finish ⟨g, true, w⟩ w.instr (resolve ⟨g, true, w⟩ ((w.pc.toNat + 8) % 2 ^ 64) s) := by
  simp only [finishTrap, completes, Bool.true_and, found]

end

theorem trapWords : Obl.TrapWords :=
  ⟨fun _ _ _ => ⟨fun starts => word_doneTrap starts rfl, fun starts => word_doneTrap starts rfl⟩,
    fun _ _ _ => ⟨finishTrap_other, fun _ => finishTrap_completes⟩⟩

/-! ### What a delivery leaves as it is (R84) -/

/-- Registers, rows and the bytes of local memory are quiet. -/
theorem quiet_sameItems (s : State) : Quiet (SameItems s) := by
  have all := quiet_items s fun _ => True
  simp only [true_implies] at all
  exact all

section
variable (g : Nat) (s : State)

theorem deliver_sameItems : SameItems s (deliver g s) := (quiet_sameItems s).deliver g fun _ => rfl
theorem deliver_sameMemory : SameMemory s (deliver g s) := (quiet_sameMemory s).deliver g ⟨rfl, rfl⟩

@[simp] theorem resolve_launches (c : Cur) (next : Nat) : (resolve c next s).launches = s.launches := by
  unfold resolve
  split <;> rfl
@[simp] theorem finishTrap_launches (r : TrapRec) : (finishTrap g r s).launches = s.launches := by
  unfold finishTrap
  split
  · rfl
  · exact resolve_launches ..
@[simp] theorem abandon_launches : (abandon g s).launches = s.launches := by
  unfold abandon
  dsimp only
  split <;> rfl

end

/-! ### Where a raised trap is delivered (R84, R322, R324, R327) -/

section
variable {g : Nat} {s : State} {r : TrapRec}

/-- The state at a trap's delivery: its own word has completed where it does so, and no started word is left. -/
def atDelivery (g : Nat) (r : TrapRec) (s : State) : State := abandon g (finishTrap g r s)

theorem launchOf_atDelivery : launchOf (atDelivery g r s) g = launchOf s g := by
  simp only [launchOf, launch, atDelivery, abandon_launches, finishTrap_launches]

section
variable (raised : (grp s g).raised = some r) (done : settled (isDet s g) (grp s g) = true)
include raised done

theorem deliver_toHandler (out : (grp s g).handler = none) (vector : (launchOf s g).tvec ≠ 0)
    (may : toHandler r.cls r.cause = true) : deliver g s = enterHandler g r (atDelivery g r s) := by
  simp only [deliver, raised, done, out, may, vector, Bool.not_true, Option.isSome_none, ne_eq, not_false_eq_true,
    decide_true, Bool.and_self, Bool.false_eq_true, if_false, if_true, atDelivery]

/-- A trap in a handler goes to the host as DOUBLE, and so does one that no handler may take, in its own class. -/
theorem deliver_toHost
    (h : (grp s g).handler.isSome ∨ toHandler r.cls r.cause = false ∨ (launchOf s g).tvec = 0) : deliver g s =
      enterHost g { r with cls := if (grp s g).handler.isSome then clsDouble else r.cls } (atDelivery g r s) := by
  by_cases inside : (grp s g).handler.isSome = true
  · simp only [deliver, raised, done, inside, Bool.not_true, Bool.false_eq_true, if_false, if_true, atDelivery]
  · have no_handler : ¬(toHandler r.cls r.cause && decide ((launchOf s g).tvec ≠ 0)) = true := by
      rcases h with inside' | unfit | vector
      · exact absurd inside' inside
      · simp [unfit]
      · simp [vector]
    simp only [deliver, raised, done, inside, no_handler, Bool.not_true, Bool.false_eq_true, if_false, atDelivery]

end

/-- The dispatcher keeps the first trap that it has learned of. -/
theorem hostTrap_enterHost (t : State) : (launchOf (enterHost g r t) g).hostTrap =
    some ((launchOf t g).hostTrap.getD (g, r)) := by
  rw [enterHost, launchOf, launch_modLaunch]
  simp only [modGrp_launch, launchOf]
  cases (launch t (lkOf g)).hostTrap <;> rfl

/-- The trap registers take the values of a trap that goes to the host. -/
theorem trapRegs_enterHost (t : State) : (grp (enterHost g r t) g).tstat = BitVec.ofNat 64 (tstatOf r) ∧
    (grp (enterHost g r t) g).tseq = BitVec.ofNat 64 r.seq ∧ (grp (enterHost g r t) g).taddr = r.addr := by
  unfold enterHost
  simp only [modLaunch_grp, grp_modGrp, and_self]

end

theorem handlerEntry : Obl.HandlerEntry := by
  unfold Obl.HandlerEntry
  intro g s r G tvec t raised done out vector may
  have nonzero : (launchOf s g).tvec ≠ 0 := fun h => vector (congrArg BitVec.toNat h)
  have entered : grp t g = _ := (congrArg (grp · g) (deliver_toHandler raised done out nonzero may)).trans
    (grp_modGrp ..)
  rw [entered, launchOf_atDelivery]
  exact ⟨rfl, rfl, rfl, rfl, rfl, rfl, rfl, rfl, rfl, rfl, rfl, deliver_sameItems g s, deliver_sameMemory g s⟩

theorem hostTraps : Obl.HostTraps := by
  unfold Obl.HostTraps
  intro g s r G t cls raised done host
  have delivered : t = _ := deliver_toHost raised done host
  have same : (launchOf (atDelivery g r s) g).hostTrap = (launchOf s g).hostTrap := by rw [launchOf_atDelivery]
  obtain ⟨tstat, tseq, taddr⟩ := trapRegs_enterHost (g := g) (r := { r with cls := cls }) (atDelivery g r s)
  have learned := hostTrap_enterHost (g := g) (r := { r with cls := cls }) (atDelivery g r s)
  rw [same] at learned
  refine ⟨?_, ?_, ?_, ?_, deliver_sameItems g s, deliver_sameMemory g s⟩
  all_goals rw [delivered]
  · exact tstat
  · exact tseq
  · exact taddr
  · exact learned

/-- Settles O25. A delivery is `enterHandler` or `enterHost` of the state in which no started word is left
(`deliver_toHandler`, `deliver_toHost`), and control alone changes (`deliver_sameItems`, `deliver_sameMemory`). That
TREC is TVEC + 256 in a handler too, and which started words a delivery abandons, are the model's choices (log entries
16 and 84). -/
theorem takingTraps : Obligations.TakingTraps := ⟨trapWords, handlerEntry, hostTraps⟩

end Sys2Proof.Machine
end

section
/-!
PROOFS. Port words: a push of a group that no record holds (O23).
-/
namespace Sys2Proof.Machine

/-! ### PSH on a full channel (R228) -/

/-- What PSH adds to the channels (R227). -/
def pushFeeds (f : Flds) (c : Cur) (s : State) : List Feed :=
  feedsOf s c.g f.b (fun l => vread s c.g f.a l) (activeLanes s c f)

/-- Those of them whose channel has no free entry. -/
def fullFeeds (f : Flds) (c : Cur) (s : State) : List Feed :=
  (pushFeeds f c s).filter fun x => 8 ≤ unfreed s c.g x

/-- A push onto lane channels waits where some are full and none of those is dead. -/
theorem pshRes_waits {f : Flds} {c : Cur} {s : State} (bound : f.b < 2)
    (reached : ((pushFeeds f c s).any fun x => unreachable s x.peer.dev) = false)
    (alive : (fullFeeds f c s).any (pushDead s) = false) (full : (fullFeeds f c s).isEmpty = false) :
    pshRes f c s = waitFor c 3 s := by
  have lane_port : (decide (2 ≤ f.b) && (peerOf s c.g f.b).isNone) = false := by
    rw [decide_eq_false (Nat.not_le.mpr bound), Bool.false_and]
  simp only [pushFeeds] at reached
  simp only [fullFeeds, pushFeeds] at alive full
  simp only [pshRes, lane_port, reached, alive, full, Bool.not_false, Bool.false_eq_true, if_false, if_true]

/-! ### A group without a record

A group that the state holds no record of counts as retired where its team has been placed (`hasRetired`), but a try of
one of its words begins by giving it a record, in which it has not retired (`useRot`). A push of such a group to itself
is dead in the state before the try, and in the state in which it begins it only waits. -/

/-- PSH of lane register 0 through port E, which feeds the group's own lane channel W. -/
def strayPush : XW := ⟨0, 0, 0, ⟨false, false, 0⟩, 0, 0, 0⟩

/-- It stands at the head of its queue. -/
def strayCur : Cur := ⟨0, true, { instr := .psh strayPush }⟩

/-- Group 0 has no record, its team has been placed, and its lane channel holds eight of its own parts. -/
def strayState : State :=
  { cur := some strayCur
    launches := [(0, { placed := 1 })]
    ports := [(chanKey 0 1, { parts := List.replicate 8 ⟨0, 0, [], 0, true, {}⟩ })]
    mmr := [(rDevid, 0)] }

theorem stray_starts : Starts (.psh strayPush) strayCur strayState := by
  constructor <;> decide +kernel

/-- Where the try begins, the receiver of the full channel has not retired, and the push waits. -/
theorem stray_waits : Waits (.psh strayPush) strayCur strayState 3 := by
  have reached : ((pushFeeds strayPush.flds strayCur (begun strayCur strayState)).any fun x =>
      unreachable (begun strayCur strayState) x.peer.dev) = false := by decide +kernel
  have alive : (fullFeeds strayPush.flds strayCur (begun strayCur strayState)).any
      (pushDead (begun strayCur strayState)) = false := by decide +kernel
  have full : (fullFeeds strayPush.flds strayCur (begun strayCur strayState)).isEmpty = false := by decide +kernel
  exact waits_of_waitFor rfl (pshRes_waits (by decide) reached alive full)

/-- Refutes O23: its clause on dead pushes reads from the state before the try which groups have retired. A group
without a record, whose team has been placed, has retired there, but not in the state in which its try begins: the push
of `strayCur` onto its own full lane channel waits (`stray_waits`) where the clause has it trap. -/
theorem not_portAndLinkWords : ¬ Obligations.PortAndLinkWords := by
  unfold Obligations.PortAndLinkWords Obl.PortWords
  rintro ⟨port, -⟩
  obtain ⟨-, -, -, dead, -⟩ := port strayCur strayState strayPush
  have trapped := dead (Or.inl (by decide)) (by decide +kernel) (by decide +kernel) stray_starts
  have waited := stray_waits stray_starts (by decide +kernel)
  have same := Host.Outcome.next.inj (trapped.symm.trans waited)
  have raised := congrArg (fun t => (grp t 0).raised.isSome) same
  exact absurd raised (by decide +kernel)

end Sys2Proof.Machine
end

section
/-!
PROOFS. Requests from outside the array: of other devices, PCI Express and the application processors (O34).
-/
namespace Sys2Proof.Machine

/-! ### Accesses from outside the array (R279, R397) -/

/-- An event that is `outsideReach` takes its effect once its reads have been served, and waits until then. -/
theorem reaches_of_outsideReach {i : Instr} {s t : State} {n pid : Nat} {touch reads : List Nat} {f : State → State}
    (h : exec i s = .next (outsideReach n pid touch reads f t)) : Obl.Reaches i s n pid touch reads f t := by
  have awake (hd : ∀ a ∈ touch, dramSleeps t a = false) : touch.any (dramSleeps t) = false := by
    simpa using hd
  refine ⟨fun hd => ?_, fun u hd hr => ?_, fun u ⟨hd, hr⟩ => ?_⟩ <;> rw [h, outsideReach]
  · rw [if_pos (List.any_eq_true.2 hd)]
  · simp only [awake hd, hr, Bool.false_eq_true, if_false]
  · simp only [awake hd, hr, Bool.false_eq_true, if_false, if_true]

/-! ### Requests of other devices and of the application processors (R265, R278, R373) -/

section
variable {s : State} {pa op ty b c pid : Nat} {bytes : List Byte}

theorem remoteRequest_write (h : pa % 2 ^ 48 % 64 + bytes.length ≤ 64) :
    remoteRequest 1 pa op ty b c pid bytes s = outsideWrite 6 .outside (pa % 2 ^ 48) bytes (pid % 64) s :=
  if_neg (Nat.not_lt.2 h)

theorem remoteRequest_atomic (h : pa % 2 ^ 48 % atomSize ty = 0) :
    remoteRequest 2 pa op ty b c pid bytes s = outsideAtomic 6 3 .outside (pa % 2 ^ 48) op ty b c (pid % 64) s :=
  if_neg (not_not.2 h)

/-- The harts run once stage 5 of boot has ended, the safety island's cores always (R389). -/
theorem apAccess_runs {island : Bool} (h : island = true ∨ 6 ≤ s.island.stage) :
    (!island && decide (s.island.stage < 6)) = false := by
  rcases h with h | h
  · simp [h]
  · simp [Nat.not_lt.2 h]

variable {island : Bool} (runs : island = true ∨ 6 ≤ s.island.stage)
include runs

theorem apAccess_read (h : pa % 64 + bytes.length ≤ 64) : apAccess island 0 pa op ty b c bytes s =
    outsideAsk (b2n island) pa 0
      (fun u => answer (b2n island) pa ((busRead u pa bytes.length).map (toBytes bytes.length)) u) s := by
  simp only [apAccess, apAccess_runs runs, Bool.false_eq_true, if_false, if_neg (Nat.not_lt.2 h)]

theorem apAccess_write (h : pa % 64 + bytes.length ≤ 64) : apAccess island 1 pa op ty b c bytes s =
    outsideReach (b2n island) 0 [pa] (if allocates s pa 0 then [pa] else []) (apWrite island pa bytes) s := by
  simp only [apAccess, apAccess_runs runs, Bool.false_eq_true, if_false, if_neg (Nat.not_lt.2 h)]

theorem apAccess_atomic (h : pa % atomSize ty = 0) : apAccess island 2 pa op ty b c bytes s =
    outsideAsk (b2n island) pa 0 (fun u => match busRead u pa (atomSize ty) with
      | some old => answer (b2n island) pa (some (toBytes (atomSize ty) old))
          (apWrite island pa (toBytes (atomSize ty) (atomNew op ty old b c)) u)
      | none => answer (b2n island) pa none u) s := by
  simp only [apAccess, apAccess_runs runs, Bool.false_eq_true, if_false, if_neg (not_not.2 h)] <;> rfl

end

/-- What a hart writes to DRAM is noted for its cluster's caches (R394). -/
theorem apWrite_eq (island : Bool) (pa : Nat) (bs : List Byte) (t : State) : apWrite island pa bs t =
    let u := busWrite (if island then .island else .host) pa bs 0 t
    if island = false ∧ paKind t pa = .dram then { u with apLines := pa / 64 :: u.apLines } else u := by
  cases island with
  | true => exact (if_neg fun h => Bool.noConfusion h.1).symm
  | false =>
    cases kind : paKind t pa <;> simp [apWrite, kind]

/-! ### Requests of PCI Express (R275, R386) -/

/-- The kind of access that a request makes. -/
def pcieAccess : Nat → Acc2
  | 0 => .read
  | 1 => .write
  | _ => .atomic

/-- What becomes of a request once its translation has answered. -/
def pcieGoes (i what pa op ty b c : Nat) (raw : Bool) (bytes : List Byte) : Xl → State → State
  | .fault cause _, t => if cause = causeAsleep then t else pcieRefuse i what pa t
  | .ok a _, t => pciePerform i what a op ty b c raw bytes t

theorem pcieAccess_eq {what : Nat} (h : what < 3) :
    (if what = 0 then .read else if what = 1 then .write else .atomic) = pcieAccess what := by
  interval_cases what <;> rfl

section
variable {s t : State} {i bar what pa a op ty b c : Nat} {raw : Bool} {bytes : List Byte}

/-- A controller with lanes takes requests. -/
theorem pcie_takes (hi : i < 4) (lanes : nget 0 s.pciWidth i ≠ 0) :
    ¬(decide (4 ≤ i) || decide (nget 0 s.pciWidth i = 0)) = true := by
  rw [decide_eq_false (Nat.not_le.2 hi), decide_eq_false lanes]
  exact Bool.false_ne_true

/-- One whose address lies in no BAR is refused. -/
theorem pcieInbound_unaddressed (hi : i < 4) (lanes : nget 0 s.pciWidth i ≠ 0) (h : pcieAddr s i bar pa = none) :
    pcieInbound i bar what pa op ty b c raw bytes s = pcieRefuse i what pa s := by
  unfold pcieInbound
  rw [if_neg (pcie_takes hi lanes), h]

section
variable {va : Nat} (hi : i < 4) (lanes : nget 0 s.pciWidth i ≠ 0) (addr : pcieAddr s i bar pa = some va)
include hi lanes addr

theorem pcieInbound_untranslated (off : (reg s (rPci i 0)).testBit 6 = false) :
    pcieInbound i bar what pa op ty b c raw bytes s = pciePerform i what va op ty b c raw bytes s := by
  unfold pcieInbound
  rw [if_neg (pcie_takes hi lanes), addr]
  dsimp only
  rw [off]
  rfl

theorem pcieInbound_translated {x : Xl} (on : (reg s (rPci i 0)).testBit 6 = true)
    (h : translate s false false noTlb (reg s (rPci i 0) % 64) false va (pcieAccess what) = (x, t)) :
    pcieInbound i bar what pa op ty b c raw bytes s = pcieGoes i what pa op ty b c raw bytes x t := by
  unfold pcieInbound
  rw [if_neg (pcie_takes hi lanes), addr]
  dsimp only
  rw [on, if_neg (by decide)]
  obtain _ | _ | what := what <;> simp only [pcieAccess] at h ⊢ <;> rw [h] <;> cases x <;> rfl

end

/-- A request that comes to a physical address is performed there. -/
theorem pcieInbound_performs (h : Obl.PcieAt s i bar pa (pcieAccess what) a t) :
    pcieInbound i bar what pa op ty b c raw bytes s = pciePerform i what a op ty b c raw bytes t := by
  obtain ⟨hi, lanes, va, addr, ⟨off, rfl, rfl⟩ | ⟨on, mt, ht⟩⟩ := h
  · exact pcieInbound_untranslated hi lanes addr off
  · exact pcieInbound_translated hi lanes addr on ht

theorem pciePerform_read (h : a % 64 + bytes.length ≤ 64) : pciePerform i 0 a op ty b c false bytes t =
    outsideAsk (2 + i) a (reg t (rPci i 8) % 64)
      (fun u => answer 2 a ((busRead u a bytes.length).map (toBytes bytes.length)) u) t := by
  simp only [pciePerform, if_neg (Nat.not_lt.2 h), Bool.false_and, Bool.false_eq_true, if_false]

theorem pciePerform_readPast (h : a % 64 + bytes.length ≤ 64) (dram : paKind t a = .dram) :
    pciePerform i 0 a op ty b c true bytes t = outsideReach (2 + i) (reg t (rPci i 8) % 64) [a] []
      (fun u => answer 2 a ((rawRead u a bytes.length).map (toBytes bytes.length))
        (chargeDram a (reg t (rPci i 8) % 64) u)) t := by
  simp only [pciePerform, if_neg (Nat.not_lt.2 h), Bool.true_and, dram, decide_true, if_true]

theorem pciePerform_write (h : a % 64 + bytes.length ≤ 64) : pciePerform i 1 a op ty b c false bytes t =
    outsideWrite (2 + i) .outside a bytes (reg t (rPci i 8) % 64) t := by
  simp only [pciePerform, if_neg (Nat.not_lt.2 h), Bool.false_and, Bool.false_eq_true, if_false]

theorem pciePerform_writePast (h : a % 64 + bytes.length ≤ 64) (dram : paKind t a = .dram) :
    pciePerform i 1 a op ty b c true bytes t = outsideReach (2 + i) (reg t (rPci i 8) % 64) [a] []
      (fun u => dramWrite a bytes (chargeDram a (reg t (rPci i 8) % 64) u)) t := by
  simp only [pciePerform, if_neg (Nat.not_lt.2 h), Bool.true_and, dram, decide_true, if_true]

theorem pciePerform_atomic (aligned : a % atomSize ty = 0) (hop : op ∈ [0, 6, 7]) (hty : ty < 4) :
    pciePerform i 2 a op ty b c raw bytes t =
      outsideAtomic (2 + i) 2 .outside a op ty b c (reg t (rPci i 8) % 64) t := by
  have runs : ¬(decide (a % atomSize ty ≠ 0) || !([0, 6, 7].contains op) || decide (4 ≤ ty)) = true := by
    rw [decide_eq_false (not_not.2 aligned), List.contains_iff_mem.2 hop, decide_eq_false (Nat.not_le.2 hty)]
    exact Bool.false_ne_true
  exact if_neg runs

/-- A request that comes to a physical address reaches it as its performance does. -/
theorem pcie_reaches {n pid : Nat} {touch reads : List Nat} {f : State → State}
    (h : Obl.PcieAt s i bar pa (pcieAccess what) a t)
    (e : pciePerform i what a op ty b c raw bytes t = outsideReach n pid touch reads f t) :
    Obl.Reaches (.pcieInboundRequest i bar what pa op ty b c raw bytes) s n pid touch reads f t :=
  reaches_of_outsideReach (congrArg Host.Outcome.next ((pcieInbound_performs h).trans e))

end

/-- Settles O34. Each request is one `outsideReach` (`reaches_of_outsideReach`) once its checks have passed: of another
device (`remoteRequest_write`), of a hart or the island (`apAccess_runs`), of PCI Express where it has come to its
physical address (`pcieInbound_performs`). -/
theorem outsideRequests : Obligations.OutsideRequests := by
  unfold Obligations.OutsideRequests
  intro s pa op ty b c partid bytes p n len pid at64 new atom filled
  refine ⟨reaches_of_outsideReach rfl,
    fun h => reaches_of_outsideReach (congrArg Host.Outcome.next (remoteRequest_write h)),
    fun h => reaches_of_outsideReach (congrArg Host.Outcome.next (remoteRequest_atomic h)), ?_, ?_, ?_, ?_, ?_⟩
  · intro island runs who wrote
    have writes (bs : List Byte) : apWrite island pa bs = wrote bs := funext (apWrite_eq island pa bs)
    refine ⟨fun h => ⟨reaches_of_outsideReach (congrArg Host.Outcome.next (apAccess_read runs h)), ?_⟩, fun h => ?_⟩
    · rw [← writes]
      exact reaches_of_outsideReach (congrArg Host.Outcome.next (apAccess_write runs h))
    · simp only [atom, ← writes]
      exact reaches_of_outsideReach (congrArg Host.Outcome.next (apAccess_atomic runs h))
  · intro i bar a t at_a h part got
    exact ⟨pcie_reaches (what := 0) at_a (pciePerform_read h),
      fun dram => pcie_reaches (what := 0) at_a (pciePerform_readPast h dram)⟩
  · intro i bar a t at_a h part
    exact ⟨pcie_reaches (what := 1) at_a (pciePerform_write h),
      fun dram => pcie_reaches (what := 1) at_a (pciePerform_writePast h dram)⟩
  · intro i bar a t raw at_a aligned hop hty part
    exact pcie_reaches (what := 2) at_a (pciePerform_atomic aligned hop hty)
  · intro i bar what raw hi lanes hwhat acc
    have kind : acc = pcieAccess what := pcieAccess_eq hwhat
    refine ⟨fun h => congrArg Host.Outcome.next (pcieInbound_unaddressed hi lanes h), ?_⟩
    intro va cause ipa t haddr on h
    rw [kind] at h
    have goes := pcieInbound_translated hi lanes haddr on h (op := op) (ty := ty) (b := b) (c := c) (raw := raw) (bytes := bytes)
    exact ⟨fun hc => congrArg Host.Outcome.next (goes.trans (if_neg hc)),
      fun hc => congrArg Host.Outcome.next (goes.trans (if_pos hc))⟩

end Sys2Proof.Machine
end

section
/-!
PROOFS. The canonical form of memory: what each part of a step keeps (O52).

`f_wf` says of a function `f` of the model that the state it gives has its memory in canonical form where the states it
takes have theirs: of a function that gives a pair or a `Res`, its state; of one that gives an option, the state where
there is one. The lemmas stand in the order of the model, function by function, up to the step itself. What changes
memory is `memWrite` (`nwf_memWrite`), the copy of another state's memory (`wf_mk`), and the move of the ochre SRAM
(`moveOchre_wf`); everything else is cases, folds and the functions before.
-/
namespace Sys2Proof.Machine

/-! ### Cases, folds and pairs -/

section
variable {α β γ : Type} {p : Prop} [Decidable p]

theorem wf_ite {a b : State} (ha : Memory.wf a) (hb : Memory.wf b) : Memory.wf (if p then a else b) := by
  split <;> assumption
theorem wf_ite_snd {a b : α × State} (ha : Memory.wf a.2) (hb : Memory.wf b.2) :
    Memory.wf (if p then a else b).2 := by
  split <;> assumption
theorem wf_ite_snd_snd {a b : α × β × State} (ha : Memory.wf a.2.2) (hb : Memory.wf b.2.2) :
    Memory.wf (if p then a else b).2.2 := by
  split <;> assumption
theorem wf_ite_state {a b : Res} (ha : Memory.wf a.state) (hb : Memory.wf b.state) :
    Memory.wf (if p then a else b).state := by
  split <;> assumption

theorem wf_foldl {f : State → α → State} {xs : List α} {s : State}
    (hf : ∀ s x, Memory.wf s → Memory.wf (f s x)) (h : Memory.wf s) : Memory.wf (xs.foldl f s) :=
  foldl_keeps (P := fun s => Memory.wf s) hf xs h
theorem wf_foldl_snd {f : β × State → α → β × State} {xs : List α} {p : β × State}
    (hf : ∀ p x, Memory.wf p.2 → Memory.wf (f p x).2) (h : Memory.wf p.2) : Memory.wf (xs.foldl f p).2 := by
  induction xs generalizing p with
  | nil => exact h
  | cons x xs ih => exact ih (hf _ _ h)
theorem wf_foldl_fst {f : State × β → α → State × β} {xs : List α} {p : State × β}
    (hf : ∀ p x, Memory.wf p.1 → Memory.wf (f p x).1) (h : Memory.wf p.1) : Memory.wf (xs.foldl f p).1 := by
  induction xs generalizing p with
  | nil => exact h
  | cons x xs ih => exact ih (hf _ _ h)

theorem wf_snd {x : α × State} {a : α} {t : State} (e : x = (a, t)) (h : Memory.wf x.2) : Memory.wf t := by
  rwa [e] at h
theorem wf_snd_snd {x : α × β × State} {a : α} {b : β} {t : State} (e : x = (a, b, t)) (h : Memory.wf x.2.2) :
    Memory.wf t := by
  rwa [e] at h
/-- A record with the memory of a state in canonical form. -/
theorem wf_mk {now ticks script cur groups teams launches cores pairs cards poison under underPois l2 dirty apLines
    replies tlb walkCache scrubNext scrubDue faults outFaults ports outParts farRetired msgs runs duties savedParts
    msis msixs pciWidth pciEnd ingest regulators scans scanAt island susp slew timeFrac syncNext linkStop retrain
    treeBusy treeBased treePart treeWait tlbinv wakeReq gating gated mmr nextId decision} {s : State} (h : Memory.wf
    s) : Memory.wf ⟨now, ticks, script, cur, groups, teams, launches, cores, pairs, cards, s.mem, poison, under,
    underPois, l2, dirty, apLines, replies, tlb, walkCache, scrubNext, scrubDue, faults, outFaults, ports, outParts,
    farRetired, msgs, runs, duties, savedParts, msis, msixs, pciWidth, pciEnd, ingest, regulators, scans, scanAt,
    island, susp, slew, timeFrac, syncNext, linkStop, retrain, treeBusy, treeBased, treePart, treeWait, tlbinv,
    wakeReq, gating, gated, mmr, nextId, decision⟩ := h

theorem wf_done {s : State} (h : Memory.wf s) : Memory.wf (Res.done s).state := h
theorem wf_wait {w : QWord} {s : State} (h : Memory.wf s) : Memory.wf (Res.wait w s).state := h
theorem wf_fly {f : Flight} {s : State} (h : Memory.wf s) : Memory.wf (Res.fly f s).state := h
theorem word_wf {i : Instr} {body : Cur → State → Res} {s t : State} (e : word i body s = .next t) (h : Memory.wf s)
    (hb : ∀ c u, Memory.wf u → Memory.wf (body c u).state) : Memory.wf t := by
  cases hc : s.cur with
  | none => rw [word_none hc] at e; exact nomatch e
  | some c => exact quiet_wf.word hc e (hb c) h
theorem event_wf {s t : State} (e : event s = .next t) (h : Memory.wf s) : Memory.wf t :=
  Host.Outcome.next.inj e ▸ h

theorem wf_none : ∀ t, (none : Option State) = some t → Memory.wf t := fun _ e => nomatch e
theorem wf_none_snd : ∀ t, (none : Option (α × State)) = some t → Memory.wf t.2 := fun _ e => nomatch e
theorem wf_none_state : ∀ r, (none : Option Res) = some r → Memory.wf r.state := fun _ e => nomatch e
theorem wf_some {t : State} (h : Memory.wf t) : ∀ u, some t = some u → Memory.wf u := fun _ e => Option.some.inj e ▸ h
theorem wf_some_snd {t : α × State} (h : Memory.wf t.2) : ∀ u, some t = some u → Memory.wf u.2 :=
  fun _ e => Option.some.inj e ▸ h
theorem wf_some_state {r : Res} (h : Memory.wf r.state) : ∀ u, some r = some u → Memory.wf u.state :=
  fun _ e => Option.some.inj e ▸ h
theorem wf_ite_some {a b : Option State} (ha : ∀ t, a = some t → Memory.wf t) (hb : ∀ t, b = some t → Memory.wf t) :
    ∀ t, (if p then a else b) = some t → Memory.wf t := by
  split <;> assumption
theorem wf_ite_some_snd {a b : Option (α × State)} (ha : ∀ t, a = some t → Memory.wf t.2)
    (hb : ∀ t, b = some t → Memory.wf t.2) : ∀ t, (if p then a else b) = some t → Memory.wf t.2 := by
  split <;> assumption
theorem wf_ite_some_state {a b : Option Res} (ha : ∀ r, a = some r → Memory.wf r.state)
    (hb : ∀ r, b = some r → Memory.wf r.state) : ∀ r, (if p then a else b) = some r → Memory.wf r.state := by
  split <;> assumption

theorem wf_findSome {f : α → Option State} {xs : List α} (hf : ∀ x t, f x = some t → Memory.wf t) :
    ∀ t, xs.findSome? f = some t → Memory.wf t := fun t e =>
  let ⟨x, _, hx⟩ := List.exists_of_findSome?_eq_some e
  hf x t hx
theorem wf_findSome_snd {f : α → Option (β × State)} {xs : List α} (hf : ∀ x t, f x = some t → Memory.wf t.2) :
    ∀ t, xs.findSome? f = some t → Memory.wf t.2 := fun t e =>
  let ⟨x, _, hx⟩ := List.exists_of_findSome?_eq_some e
  hf x t hx
theorem wf_map_snd {o : Option State} {f : State → β × State} (ho : ∀ t, o = some t → Memory.wf t)
    (hf : ∀ t, Memory.wf t → Memory.wf (f t).2) : ∀ t, o.map f = some t → Memory.wf t.2 := fun _ e =>
  let ⟨u, hu, e⟩ := Option.map_eq_some_iff.1 e
  e ▸ hf u (ho u hu)
theorem wf_getD {o : Option State} {s : State} (ho : ∀ t, o = some t → Memory.wf t) (h : Memory.wf s) :
    Memory.wf (o.getD s) := by
  cases o with
  | none => exact h
  | some t => exact ho t rfl
theorem wf_getD_state {o : Option Res} {r : Res} (ho : ∀ t, o = some t → Memory.wf t.state) (h : Memory.wf r.state) :
    Memory.wf (o.getD r).state := by
  cases o with
  | none => exact h
  | some t => exact ho t rfl
theorem wf_or_state {a b : Option Res} (ha : ∀ t, a = some t → Memory.wf t.state)
    (hb : ∀ t, b = some t → Memory.wf t.state) : ∀ t, a.or b = some t → Memory.wf t.state := by
  cases a with
  | none => exact hb
  | some r => exact ha

end

section
variable {s s0 : State} {c : Cur} {f : Flds} {bytes : List Byte} {unif : Bool}
  {a ctx g half hi k lk mt n off op pa partid pr seq ty va x : Nat}

/-! ### Machine/Ops -/

theorem modGrp_wf {f : Group → Group} (h : Memory.wf s) : Memory.wf (modGrp s g f) := h
theorem setTeam_wf {tk : Nat} {T : Team} (h : Memory.wf s) : Memory.wf (setTeam s tk T) := h
theorem modLaunch_wf {f : Launch → Launch} (h : Memory.wf s) : Memory.wf (modLaunch s lk f) := h
theorem modCore_wf {c : Nat} {f : Core → Core} (h : Memory.wf s) : Memory.wf (modCore s c f) := h
theorem modPair_wf {p : Nat} {f : Pair → Pair} (h : Memory.wf s) : Memory.wf (modPair s p f) := h
theorem writeItem_wf {it : Item} {x : Val} (h : Memory.wf s) : Memory.wf (writeItem s it x) := by
  unfold writeItem
  split <;> exact h
theorem jwrite_wf {it : Item} {e : Eff} (h : Memory.wf s) : Memory.wf (jwrite g seq it e s) :=
  modPair_wf (writeItem_wf h)
theorem jw_wf {it : Item} {e : Eff} (h : Memory.wf s) : Memory.wf (jw c it e s) := jwrite_wf h
theorem engineWrite_wf {it : Item} {e : Eff} (h : Memory.wf s) : Memory.wf (engineWrite pr it e s) :=
  wf_ite (modPair_wf (writeItem_wf h)) (writeItem_wf h)
theorem undoJournal_wf {gone : Undo → Bool} (h : Memory.wf s) : Memory.wf (undoJournal pr gone s) := by
  refine modPair_wf (wf_foldl (fun _ _ h1 => ?_) h)
  split
  · exact h1
  · exact writeItem_wf h1
theorem vwrite_wf {l : Nat} (h : Memory.wf s) : Memory.wf (vwrite c n l x s) := by
  unfold vwrite
  split
  · exact h
  · exact jw_wf h
theorem vwrite64_wf {l : Nat} (h : Memory.wf s) : Memory.wf (vwrite64 c n l x s) := vwrite_wf (vwrite_wf h)
theorem uwrite_wf (h : Memory.wf s) : Memory.wf (uwrite c n x s) := jw_wf h
theorem pput_wf {xs : List (Nat × Bool)} (h : Memory.wf s) : Memory.wf (pput c n xs s) := jw_wf h
theorem fwrite_wf (h : Memory.wf s) : Memory.wf (fwrite c n x s) := jw_wf h
theorem vwriteLanes_wf {xs : List (Nat × Nat)} (h : Memory.wf s) : Memory.wf (vwriteLanes c n xs s) :=
  wf_foldl (fun _ _ h1 => vwrite_wf h1) h
theorem vwriteLanes64_wf {xs : List (Nat × Nat)} (h : Memory.wf s) : Memory.wf (vwriteLanes64 c n xs s) :=
  wf_foldl (fun _ _ h1 => vwrite64_wf h1) h
theorem putSlot_wf {x : Slot} (h : Memory.wf s) : Memory.wf (putSlot c n x s) := h
theorem resolve_wf {next : Nat} (h : Memory.wf s) : Memory.wf (resolve c next s) := quiet_wf.resolve _ _ h
theorem waitFor_wf {cause : Nat} (h : Memory.wf s) : Memory.wf (waitFor c cause s).state := h
theorem trapAs_wf {cls cause addr : Nat} (h : Memory.wf s) : Memory.wf (trapAs c cls cause addr s).state := h
theorem retireCheck_wf (h : Memory.wf s) : Memory.wf (retireCheck g s) := h
theorem finish_wf {i : Instr} (h : Memory.wf s) : Memory.wf (finish c i s) := h
theorem deliver_wf (h : Memory.wf s) : Memory.wf (deliver g s) := quiet_wf.deliver _ h
theorem raiseTrap_wf {t : TrapRec} (h : Memory.wf s) : Memory.wf (raiseTrap g t s) := quiet_wf.raiseTrap _ _ h
theorem applyRes_wf {i : Instr} {r : Res} (h : Memory.wf r.state) : Memory.wf (applyRes c i r) :=
  quiet_wf.applyRes _ _ h

/-! ### Machine/RegFile -/

theorem setMmr_wf (h : Memory.wf s) : Memory.wf (setMmr s off x) := h
theorem countUe_wf (h : Memory.wf s) : Memory.wf (countUe s) := h
theorem setReg_wf (h : Memory.wf s) : Memory.wf (setReg s off x) := h
theorem countReg_wf (h : Memory.wf s) : Memory.wf (countReg off n s) := h

/-! ### Machine/Memory -/

theorem chargeCardBw_wf (h : Memory.wf s) : Memory.wf (chargeCardBw a s) := by
  unfold chargeCardBw
  split <;> exact h
theorem chargeDram_wf {account : Nat} (h : Memory.wf s0) : Memory.wf (chargeDram pa account s0) :=
  l2Quiet_wf.chargeDram _ _ h
theorem dropL1_wf {line : Nat} (h : Memory.wf s) : Memory.wf (dropL1 line s) := h
theorem dropSector_wf {sec : Nat} (h : Memory.wf s) : Memory.wf (dropSector sec partid s) := l2Quiet_wf.drop _ _ _ h
theorem invalidateSector_wf {sec : Nat} (h : Memory.wf s) : Memory.wf (invalidateSector sec s) := by
  unfold invalidateSector
  dsimp only
  split
  · exact wf_mk (dropL1_wf (dropSector_wf h))
  · exact dropL1_wf (dropSector_wf h)
theorem evictLine_wf {line : Nat} (h : Memory.wf s) : Memory.wf (evictLine line s) := l2Quiet_wf.evictLine _ h
theorem flushL2_wf (h : Memory.wf s) : Memory.wf (flushL2 s) := wf_foldl (fun _ _ h1 => evictLine_wf h1) h
theorem l2FillBy_wf {charge : Bool} {low : Bool} (h : Memory.wf s) : Memory.wf (l2FillBy charge pa partid low s) := by
  unfold l2FillBy
  split
  · refine wf_ite h ?_
    dsimp only
    split
    · exact wf_mk (wf_ite (chargeDram_wf h) h)
    · split
      · exact wf_ite (chargeDram_wf h) h
      · refine wf_mk ?_
        split
        · exact evictLine_wf (wf_ite (chargeDram_wf h) h)
        · exact wf_ite (chargeDram_wf h) h
  · exact h
theorem l2Fill_wf {low : Bool} (h : Memory.wf s) : Memory.wf (l2Fill pa partid low s) := l2Quiet_wf.l2Fill _ _ _ h
theorem fillAs_wf {charge : Bool} {pid : Nat} (h : Memory.wf s) : Memory.wf (fillAs charge mt pa pid s) :=
  wf_ite (wf_ite (chargeDram_wf h) h) (l2FillBy_wf h)
theorem regFill_wf {account : Nat} {ticket : Option Nat} (h : Memory.wf s) :
    Memory.wf (regFill pa account mt ticket s).2 := by
  refine wf_ite_snd (fillAs_wf h) ?_
  split
  · exact wf_ite_snd (fillAs_wf (chargeCardBw_wf h)) h
  · exact wf_ite_snd h (fillAs_wf h)
theorem askRead_wf {rd : Asker} {account : Nat} (h : Memory.wf s) : Memory.wf (askRead rd pa account mt s).2 := by
  unfold askRead
  dsimp only
  split
  · exact regFill_wf h
  · exact wf_mk (regFill_wf h)
  · exact regFill_wf h
  · exact wf_mk (regFill_wf h)
theorem askReads_wf {rd : Asker} {account : Nat} {x : List (Nat × Nat)} (h : Memory.wf s) :
    Memory.wf (askReads rd account x s).2 := by
  induction x generalizing s with
  | nil => exact h
  | cons x xs ih => exact ih (askRead_wf h)
theorem dramWrite_wf (h : Memory.wf s) : Memory.wf (dramWrite pa bytes s) := wf_ite h (nwf_memWrite _ _ h)
theorem l2WriteSectorAs_wf {but : Option (Nat × Nat)} (h : Memory.wf s) :
    Memory.wf (l2WriteSectorAs mt but pa bytes partid s) := by
  unfold l2WriteSectorAs
  split
  · exact nwf_memWrite _ _ (markDirty_wf _ _ _ h)
  · exact wf_ite (nwf_memWrite _ _ h) (wf_mk h)
  · exact nwf_memWrite _ _ h
  · exact h
  · exact h
theorem poisonSector_wf (h : Memory.wf s) : Memory.wf (poisonSector pa s) := by
  unfold poisonSector
  split <;> exact h
theorem zeroSector_wf (h : Memory.wf s) : Memory.wf (zeroSector pa partid s) := l2WriteSector_wf _ _ _ h
theorem writeBack_wf (h : Memory.wf s) : Memory.wf (writeBack pa s) := by
  unfold writeBack
  split
  · exact wf_ite h (chargeDram_wf h)
  · exact h
theorem l1Fill_wf (h : Memory.wf s) : Memory.wf (l1Fill k pa s) := wf_ite h h
theorem setAD_wf {a : Acc2} (h : Memory.wf s) : Memory.wf (setAD pa a s) := wf_ite h (l2Write_wf _ _ _ h)
theorem setADs_wf {seen : List (Nat × Option Acc2)} (h : Memory.wf s) : Memory.wf (setADs seen s) := by
  refine wf_foldl (fun _ _ h1 => ?_) h
  dsimp only
  split
  · exact setAD_wf (l2Fill_wf h1)
  · exact l2Fill_wf h1
theorem tlbPut_wf {unit : Nat} {t : Tlb} (h : Memory.wf s) : Memory.wf (tlbPut unit t s) := h
theorem cacheWalk_wf {tabs : List (Nat × Nat × Nat)} (h : Memory.wf s) : Memory.wf (cacheWalk k ctx va tabs s) := h
theorem demandFill_wf {loc : Nat} (h : Memory.wf s) : ∀ t, demandFill loc s = some t → Memory.wf t :=
  wf_ite_some wf_none (wf_some (l2Write_wf _ _ _ (l2Write_wf _ _ _ (setMmr_wf (l2Fill_wf h)))))
theorem orAsleep_wf {t : State} (h : Memory.wf s) (h1 : Memory.wf t) : Memory.wf (orAsleep s t) := wf_ite h h1
theorem translate_install_wf {a : Acc2} {t : Tlb} {seen : List (Nat × Option Acc2)} {tabs : List (Nat × Nat × Nat)}
    (h : Memory.wf s) : Memory.wf (translate.install k ctx va a t seen tabs s).2 :=
  wf_ite_snd h (wf_ite (setADs_wf h) (tlbPut_wf (tlbPut_wf (cacheWalk_wf (setADs_wf h)))))
theorem translate_slow_wf {cont hw : Bool} {userMode : Bool} {a : Acc2} (h : Memory.wf s) :
    Memory.wf (translate.slow s cont hw k ctx userMode va a).2 := by
  unfold translate.slow
  dsimp only
  split
  · exact translate_install_wf h
  · refine wf_ite_snd h (wf_ite_snd ?_ (setADs_wf h))
    split
    · exact setADs_wf h
    · split
      · rename_i e _ _ _ _ _
        exact translate_install_wf (demandFill_wf (setADs_wf h) _ e)
      · rename_i e _ _ _ _ _ _ _
        exact setADs_wf (demandFill_wf (setADs_wf h) _ e)
theorem translate_second_wf {cont hw : Bool} {userMode : Bool} {a : Acc2} (h : Memory.wf s) :
    Memory.wf (translate.second s cont hw k ctx userMode va a).2 := by
  unfold translate.second
  split
  · exact wf_ite_snd h (translate_slow_wf h)
  · exact translate_slow_wf h
theorem translate_wf {cont hw : Bool} {userMode : Bool} {a : Acc2} (h : Memory.wf s) :
    Memory.wf (translate s cont hw k ctx userMode va a).2 := by
  unfold translate
  extract_lets r
  have hr : Memory.wf r.2 := by
    subst r
    split
    · exact wf_ite_snd h (translate_second_wf h)
    · exact translate_second_wf h
  split
  · exact wf_ite_snd hr hr
  · exact hr
theorem setCardFld_wf {lo v : Nat} (h : Memory.wf s) : Memory.wf (setCardFld n hi lo v s) := h
theorem extEff_wf (h : Memory.wf s) : Memory.wf (extEff lk s) := setCardFld_wf h
theorem xlate_wf {a : Acc2} (h : Memory.wf s) : Memory.wf (xlate s g va a).2 := translate_wf h
theorem xlateFor_wf {a : Acc2} (h : Memory.wf s) : Memory.wf (xlateFor s k lk va a).2 := translate_wf h
theorem locPutChunk_wf (h : Memory.wf s) : Memory.wf (locPutChunk g seq half a bytes s) := jwrite_wf h
theorem locPutAux_wf {x1 : Nat} {x2 : List Byte} (h : Memory.wf s) : Memory.wf (locPutAux g seq half x x1 x2 s) := by
  induction x generalizing x1 x2 s with
  | zero => exact h
  | succ x ih => exact wf_ite h (ih (locPutChunk_wf h))
theorem locPut_wf (h : Memory.wf s) : Memory.wf (locPut g seq half a bytes s) := locPutAux_wf h
theorem hold_wf {what : Held} {low : Bool} {back : Option Nat} (h : Memory.wf s) :
    Memory.wf (hold g seq what s low back) := quiet_wf.hold _ _ _ _ _ h
theorem relEvent_wf (h : Memory.wf s) : Memory.wf (relEvent g s) := h
theorem markRead_wf {pas : List Nat} (h : Memory.wf s) : Memory.wf (markRead g pas s) := by
  unfold markRead
  dsimp only
  split <;> exact h
theorem acqEvent_wf (h : Memory.wf s) : Memory.wf (acqEvent g s) := h

/-! ### Machine/Quantum -/

theorem decisionPoint_wf (h : Memory.wf s) : Memory.wf (decisionPoint s) := h
theorem closeGroup_wf (h : Memory.wf s) : Memory.wf (closeGroup g hi s) := h
theorem closePair_wf {special : Option (Nat × Nat)} (h : Memory.wf s) : Memory.wf (closePair pr special s) :=
  quiet_wf.closePair _ _ h
theorem detClose_wf (h : Memory.wf s) : Memory.wf (detClose g s) := quiet_wf.detClose _ h
theorem closeAfter_wf (h : Memory.wf s) : Memory.wf (closeAfter c s) := quiet_wf.closeAfter _ h
theorem overflowClose_wf {own : Nat × Nat × Nat} (h : Memory.wf s) : Memory.wf (overflowClose c own s) :=
  wf_ite (detClose_wf h) h
theorem modPart_wf {c : Nat} {f : Part → Part} (h : Memory.wf s) : Memory.wf (modPart lk c f s) := h
theorem vacate_wf {c : Nat} (h : Memory.wf s) : Memory.wf (vacate lk c s) := h
theorem askPart_wf {c : Nat} (h : Memory.wf s) : Memory.wf (askPart lk c s) := wf_ite h (wf_ite h h)
theorem askPreempt_wf {c : Nat} (h : Memory.wf s) : Memory.wf (askPreempt lk c s) :=
  wf_ite (wf_foldl (fun _ _ h1 => wf_foldl (fun _ _ h2 => askPart_wf h2) h1) h) (askPart_wf h)

/-! ### Machine/Issue -/

theorem waitHeld_wf {cause : Nat} {hs : List HB} (h : Memory.wf s) : Memory.wf (waitHeld c cause hs s).state :=
  wf_ite_state h h
theorem waitEpoch_wf {own : Nat × Nat × Nat} (h : Memory.wf s) : Memory.wf (waitEpoch own c s).state :=
  wf_ite_state h (waitFor_wf (overflowClose_wf h))
theorem wordStep_wf {i : Instr} {body : Cur → State → Res}
    (hbody : ∀ x0 t1, Memory.wf t1 → Memory.wf (body x0 t1).state) (h : Memory.wf s0) :
    Memory.wf (wordStep i body c s0) := quiet_wf.wordStep _ _ (fun _ h => hbody _ _ h) h

/-! ### Machine/Operands -/

theorem putLanes_wf {wide : Bool} {xs : List (Nat × Nat)} (h : Memory.wf s) : Memory.wf (putLanes c wide n xs s) :=
  wf_ite (vwriteLanes64_wf h) (vwriteLanes_wf h)
theorem laneWord_wf {wide : Bool} {fn : State → Nat → Nat → Nat} (h : Memory.wf s) :
    Memory.wf (laneWord wide f fn c s).state := wf_done (putLanes_wf h)
theorem predWord_wf {fn : State → Nat → Nat → Bool} (h : Memory.wf s) : Memory.wf (predWord f fn c s).state :=
  wf_done (pput_wf h)
theorem unifWord_wf {fn : State → Nat → Nat} (h : Memory.wf s) : Memory.wf (unifWord f fn c s).state :=
  wf_done (uwrite_wf h)
theorem clearReg_wf (h : Memory.wf s) : Memory.wf (clearReg c n s) := wf_foldl (fun _ _ h1 => jw_wf h1) h

/-! ### Machine/MemWords -/

theorem settleLanes_wf {w : QWord} {bad : List Bad} {pois : List Pois} {fa : Nat → Nat} {complete : State → Res}
    (hcomplete : ∀ t, Memory.wf t → Memory.wf (complete t).state) (h : Memory.wf s) :
    Memory.wf (settleLanes c unif w bad pois fa complete s).state := by
  unfold settleLanes
  split
  · exact h
  · refine wf_ite_state h (wf_ite_state h ?_)
    split
    · exact h
    · split
      · exact h
      · exact hcomplete _ h
theorem xlateLanes_wf {a : Acc2} {nt : Bool} {x : List (Nat × Nat)} (h : Memory.wf s) :
    Memory.wf (xlateLanes g a nt x s).2.2 := by
  induction x generalizing s with
  | nil => exact h
  | cons x xs ih =>
    rw [xlateLanes]
    split <;> exact ih (xlate_wf h)
theorem countPois_wf (h : Memory.wf s) : Memory.wf (countPois g n s) := wf_ite h h
theorem globalChecks_wf {size : Nat} {load : Bool} {own : Nat × Nat × Nat} {xs : List (Nat × Nat)} (h : Memory.wf s) :
    ∀ t, globalChecks c size load own xs s = some t → Memory.wf t.state := by
  unfold globalChecks
  split
  · exact wf_some_state h
  · split
    · exact wf_some_state h
    · exact wf_ite_some_state (wf_some_state h) wf_none_state
theorem orderWait_wf {store : Bool} (h : Memory.wf s) : ∀ t, orderWait c f store s = some t → Memory.wf t.state :=
  wf_ite_some_state (wf_some_state (waitHeld_wf h)) (wf_ite_some_state (wf_some_state h) wf_none_state)
theorem ordEvents_wf (h : Memory.wf s) : Memory.wf (ordEvents g f s) := wf_ite (relEvent_wf (wf_ite h h)) (wf_ite h h)
theorem loadPut_wf {d : Nat} {l : Nat} (h : Memory.wf s) : Memory.wf (loadPut c d ty unif l x s) :=
  wf_ite (uwrite_wf h) (wf_ite (vwrite64_wf h) (vwrite_wf h))
theorem readSectors_wf {hits : List Hit} (h : Memory.wf s) : Memory.wf (readSectors c hits s).2 := askReads_wf h
theorem cacheRead_wf {low : Bool} (h : Memory.wf s) : Memory.wf (cacheRead g pa low s) := wf_ite h (l1Fill_wf h)
theorem loadNow_wf {d : Nat} {hits : List Hit} (h : Memory.wf s) : Memory.wf (loadNow c d ty unif hits s) :=
  markRead_wf (wf_foldl (fun _ _ h1 => loadPut_wf h1) (wf_foldl (fun _ _ h1 => cacheRead_wf h1) h))
theorem holdRoom_wf (h : Memory.wf s) : ∀ t, holdRoom c n s = some t → Memory.wf t.state := by
  unfold holdRoom
  split
  · exact wf_none_state
  · exact wf_some_state (wf_ite_state h (waitFor_wf (wf_ite (closePair_wf h) (overflowClose_wf h))))
theorem devRest_wf {pois : List Pois} {addr : Nat → Nat} (h : Memory.wf s) :
    Memory.wf (devRest c unif pois addr s).state := wf_ite_state (settleLanes_wf (fun _ h1 => h1) h) h
theorem devFly_wf {pois : List Pois} {dests : List Reg} (h : Memory.wf s) : Memory.wf (devFly c pois dests s).state :=
  wf_ite_state (wf_fly (closeAfter_wf h)) (wf_wait (closeAfter_wf h))
theorem loadDevice_wf {pois : List Pois} {hits : List Hit} {zeros : State → State}
    (hzeros : ∀ t, Memory.wf t → Memory.wf (zeros t)) (h : Memory.wf s) :
    Memory.wf (loadDevice c f unif pois hits zeros s).state := by
  unfold loadDevice
  split
  · exact holdRoom_wf h _ ‹_›
  · exact wf_ite_state h (devFly_wf (wf_foldl (fun _ _ h1 => hold_wf h1) (hzeros _ h)))
theorem loadLanes_wf {addr : Nat → Nat} {hits : List Hit} {bad : List Bad} {answered : List (Nat × Nat)}
    (h : Memory.wf s) : Memory.wf (loadLanes c f unif addr hits bad answered s).state := by
  unfold loadLanes
  extract_lets _ _ _ _ _ _ _ _ _ s0 s1 s2
  have hs0 : Memory.wf s0 := by
    exact wf_ite (countPois_wf (wf_foldl (fun _ _ h1 => loadPut_wf h1) (readSectors_wf h))) (readSectors_wf h)
  have hs1 : Memory.wf s1 := wf_ite (countPois_wf hs0) hs0
  have hs2 : Memory.wf s2 := ordEvents_wf (loadNow_wf hs1)
  refine wf_ite_state ?_ ?_
  · exact wf_ite_state (settleLanes_wf (fun _ h1 => h1) h)
      (loadDevice_wf (fun _ h1 => wf_ite (countPois_wf (wf_foldl (fun _ _ h2 => loadPut_wf h2) h1)) h1) h)
  · refine wf_ite_state (waitHeld_wf h) (wf_ite_state (waitHeld_wf h) ?_)
    exact wf_ite_state (wf_fly (wf_ite (countPois_wf (wf_foldl (fun _ _ h1 => loadPut_wf h1) h)) h))
      (wf_ite_state h (wf_ite_state (waitFor_wf (readSectors_wf h)) (settleLanes_wf (fun _ h1 => h1) hs2)))
theorem loadRes_wf {i : Instr} (h : Memory.wf s) : Memory.wf (loadRes i f unif c s).state := by
  refine wf_ite_state h (wf_ite_state (devRest_wf h) ?_)
  split
  · exact globalChecks_wf h _ ‹_›
  · split
    · exact orderWait_wf h _ ‹_›
    · exact wf_ite_state (waitEpoch_wf h) (loadLanes_wf (xlateLanes_wf h))
theorem holdSector_wf {hits : List (Hit × List Byte)} {sec : Nat} {back : Option Nat} (h : Memory.wf s) :
    Memory.wf (holdSector c f hits sec s back) := by
  unfold holdSector
  dsimp only
  split
  · exact h
  · exact hold_wf h
theorem holdDevice_wf {hits : List (Hit × List Byte)} {back : Option Nat} (h : Memory.wf s) :
    Memory.wf (holdDevice c f hits s back) := wf_foldl (fun _ _ h1 => hold_wf h1) h
theorem storeLanes_wf {addr : Nat → Nat} {hits : List Hit} {bad : List Bad} {answered : List Nat} (h : Memory.wf s) :
    Memory.wf (storeLanes c f unif addr hits bad answered s).state := by
  unfold storeLanes
  extract_lets _ _ _ _ s0 s1 s2
  have hs0 : Memory.wf s0 := wf_ite (countPois_wf h) h
  have hs1 : Memory.wf s1 := wf_ite (countPois_wf hs0) hs0
  have hs2 : Memory.wf s2 := wf_ite (holdDevice_wf hs1) (wf_foldl (fun _ _ h1 => holdSector_wf h1) hs1)
  refine wf_ite_state (settleLanes_wf (fun _ h1 => h1) h) ?_
  split
  · exact holdRoom_wf h _ ‹_›
  · exact settleLanes_wf (fun _ h1 => h1) (ordEvents_wf hs2)
theorem storeRes_wf (h : Memory.wf s) : Memory.wf (storeRes f unif c s).state := by
  unfold storeRes
  dsimp only
  split
  · exact globalChecks_wf h _ ‹_›
  · split
    · exact orderWait_wf h _ ‹_›
    · exact storeLanes_wf (xlateLanes_wf h)
theorem atomPut_wf {d l : Nat} (h : Memory.wf s) : Memory.wf (atomPut c ty d l x s) :=
  wf_ite (vwrite64_wf h) (vwrite_wf h)
theorem atomZeros_wf {ls : List Nat} (h : Memory.wf s) : Memory.wf (atomZeros c f ls s) :=
  countPois_wf (wf_ite h (wf_foldl (fun _ _ h1 => atomPut_wf h1) h))
theorem atomLanesRes_wf {addr : Nat → Nat} {hits : List Hit} {bad : List Bad} {answered : List (Nat × Nat)}
    (h : Memory.wf s) : Memory.wf (atomLanesRes c f addr hits bad answered s).state := by
  unfold atomLanesRes
  extract_lets _ _ _ _ _ _ _ s1 _ _ s2
  have hs1 : Memory.wf s1 := wf_ite (atomZeros_wf h) h
  have hs2 : Memory.wf s2 := wf_foldl (fun _ _ h1 => hold_wf h1) hs1
  refine wf_ite_state (settleLanes_wf (fun _ h1 => h1) h) ?_
  split
  · exact holdRoom_wf h _ ‹_›
  · refine wf_ite_state h ?_
    exact wf_ite_state (devFly_wf (ordEvents_wf (wf_foldl (fun _ _ h1 => hold_wf h1) hs1)))
      (settleLanes_wf (fun _ h1 => wf_ite_state h1 (wf_ite_state (wf_done (closeAfter_wf h1))
      (wf_fly (closeAfter_wf h1)))) (ordEvents_wf hs2))
theorem atomRes_wf {i : Instr} (h : Memory.wf s) : Memory.wf (atomRes i f c s).state := by
  refine wf_ite_state (devRest_wf h) ?_
  split
  · exact globalChecks_wf h _ ‹_›
  · split
    · exact orderWait_wf h _ ‹_›
    · exact wf_ite_state (waitEpoch_wf h) (atomLanesRes_wf (xlateLanes_wf h))
theorem putFill_wf {tk gran sec : Nat} {byte : Nat → Byte} (h : Memory.wf s) :
    Memory.wf (putFill tk half gran sec byte s) := h
theorem fillGranule_wf {gran : Nat} (h : Memory.wf s) : Memory.wf (fillGranule g half gran pa s) := markRead_wf h
theorem fillFor_wf {l : Nat} {w : Stash} (h : Memory.wf s) : Memory.wf (fillFor c l half a w s).2 := by
  refine wf_ite_snd h ?_
  dsimp only
  split
  · exact xlate_wf h
  · exact wf_ite_snd (xlate_wf h) (wf_ite_snd (askRead_wf (xlate_wf h))
      (wf_ite_snd (wf_ite_snd (countPois_wf (fillGranule_wf (askRead_wf (xlate_wf h)))) (askRead_wf (xlate_wf h)))
      (fillGranule_wf (askRead_wf (xlate_wf h)))))
theorem prepLane_wf {write : Bool} {l : Nat} (h : Memory.wf s) : Memory.wf (prepLane c write l half a s).2 := by
  unfold prepLane
  split
  · exact h
  · refine wf_ite_snd h ?_
    split
    · rename_i e
      exact wf_snd e (fillFor_wf h)
    · rename_i e
      refine wf_ite_snd (wf_snd e (fillFor_wf h)) ?_
      dsimp only
      split <;> exact xlate_wf (wf_snd e (fillFor_wf h))
theorem prepLanes_wf {write : Bool} {x : List (Nat × Nat × Nat)} (h : Memory.wf s) :
    Memory.wf (prepLanes c write x s).2 := by
  induction x generalizing s with
  | nil => exact h
  | cons x xs ih => exact ih (prepLane_wf h)
theorem localChecks_wf {size : Nat} {load : Bool} {own : List (Nat × Nat × Nat) → Nat × Nat × Nat}
    {xs : List (Nat × Int)} (h : Memory.wf s) : ∀ r, localChecks c size load own xs s = .inl r → Memory.wf r.state := by
  unfold localChecks
  split
  · exact fun _ e => Sum.inl.inj e ▸ h
  · split
    · exact fun _ e => Sum.inl.inj e ▸ h
    · dsimp only
      split
      · exact fun _ e => Sum.inl.inj e ▸ h
      · split
        · exact fun _ e => Sum.inl.inj e ▸ h
        · exact fun _ e => nomatch e
theorem fillWait_wf {own : Nat × Nat × Nat} {ys : List (Nat × Nat × Nat)} (h : Memory.wf s) :
    ∀ t, fillWait s c own ys = some t → Memory.wf t.state :=
  wf_ite_some_state wf_none_state (wf_ite_some_state (wf_some_state (waitEpoch_wf h))
    (wf_ite_some_state wf_none_state (wf_some_state (waitHeld_wf h))))
theorem localDevice_wf {rs : List LRes} {addr : Nat → Nat} (h : Memory.wf s) :
    ∀ t, localDevice c rs addr s = some t → Memory.wf t.state := by
  refine wf_ite_some_state (wf_some_state h) (wf_ite_some_state wf_none_state
    (wf_ite_some_state (wf_some_state (settleLanes_wf (fun _ h1 => h1) h)) (wf_ite_some_state wf_none_state ?_)))
  split
  · rename_i e
    exact wf_some_state (holdRoom_wf h _ e)
  · exact wf_ite_some_state (wf_some_state h) (wf_some_state
      (wf_wait (closeAfter_wf (wf_foldl (fun _ _ h1 => hold_wf h1) h))))
theorem cleanGranule_wf (h : Memory.wf s) : Memory.wf (cleanGranule c half a s) :=
  wf_ite (countPois_wf (jw_wf (locPut_wf h))) h
theorem ldlRes_wf {i : Instr} (h : Memory.wf s) : Memory.wf (ldlRes i f c s).state := by
  unfold ldlRes
  extract_lets
  refine wf_ite_state h (wf_ite_state h ?_)
  split
  · exact localChecks_wf h _ ‹_›
  · extract_lets p s1 _ _ _ _ _ _ s2 s3
    have hp : Memory.wf p.2 := prepLanes_wf h
    have hs1 : Memory.wf s1 := hp
    have hs2 : Memory.wf s2 := wf_foldl (fun _ _ h1 => loadPut_wf h1) hs1
    have hs3 : Memory.wf s3 := countPois_wf (wf_foldl (fun _ _ h1 => loadPut_wf h1) hs2)
    split
    · exact wf_or_state (orderWait_wf h) (fillWait_wf h) _ ‹_›
    · split
      · exact localDevice_wf hs1 _ ‹_›
      · exact settleLanes_wf (fun _ h1 => h1) (ordEvents_wf hs3)
theorem holdBacks_wf {xs : List (Nat × Hit × List Byte)} (h : Memory.wf s) : Memory.wf (holdBacks c f xs s) :=
  wf_foldl (fun _ _ h1 => holdDevice_wf (wf_foldl (fun _ _ h2 => holdSector_wf h2) h1)) h
theorem stlRes_wf (h : Memory.wf s) : Memory.wf (stlRes f c s).state := by
  unfold stlRes
  extract_lets
  refine wf_ite_state h ?_
  split
  · exact localChecks_wf h _ ‹_›
  · extract_lets p s1 _ _ _ s2 s3 s4 s5
    have hp : Memory.wf p.2 := prepLanes_wf h
    have hs1 : Memory.wf s1 := hp
    have hs2 : Memory.wf s2 := wf_ite (wf_foldl (fun _ _ h1 => cleanGranule_wf h1) hs1) hs1
    have hs3 : Memory.wf s3 := wf_foldl (fun _ _ h1 => locPut_wf h1) hs2
    have hs4 : Memory.wf s4 := wf_foldl (fun _ _ h1 => wf_ite (jw_wf h1) h1) hs3
    have hs5 : Memory.wf s5 := wf_ite (countPois_wf hs4) hs4
    split
    · exact wf_or_state (orderWait_wf h) (fillWait_wf h) _ ‹_›
    · split
      · exact localDevice_wf hs1 _ ‹_›
      · split
        · exact holdRoom_wf hs1 _ ‹_›
        · exact settleLanes_wf (fun _ h1 => h1) (ordEvents_wf (holdBacks_wf hs5))
theorem atomlLane_wf {src : State} {e : LHit} {x : State × List (Nat × Hit × List Byte)} (h : Memory.wf x.1) :
    Memory.wf (atomlLane c f src e x).1 := wf_ite (jw_wf (cleanGranule_wf h)) (atomPut_wf (jw_wf (cleanGranule_wf h)))
theorem atomlRes_wf {i : Instr} (h : Memory.wf s) : Memory.wf (atomlRes i f c s).state := by
  unfold atomlRes
  extract_lets
  refine wf_ite_state h ?_
  split
  · exact localChecks_wf h _ ‹_›
  · extract_lets p s1 _ _ _ _ _ a s2 s3
    have hp : Memory.wf p.2 := prepLanes_wf h
    have hs1 : Memory.wf s1 := hp
    have ha : Memory.wf a.1 := wf_foldl_fst (fun _ _ h1 => atomlLane_wf h1) hs1
    have hs2 : Memory.wf s2 := holdBacks_wf ha
    have hs3 : Memory.wf s3 := wf_ite hs2 (atomZeros_wf hs2)
    split
    · exact wf_or_state (orderWait_wf h) (fillWait_wf h) _ ‹_›
    · split
      · exact localDevice_wf hs1 _ ‹_›
      · split
        · exact holdRoom_wf hs1 _ ‹_›
        · exact settleLanes_wf (fun _ h1 => h1) (ordEvents_wf hs3)
theorem fenceRes_wf (h : Memory.wf s) : Memory.wf (fenceRes f c s).state :=
  wf_ite_state (wf_done (ordEvents_wf h)) (waitHeld_wf h)
theorem pfetchLane_wf (h : Memory.wf s) : Memory.wf (pfetchLane f c va s).2 := by
  refine wf_ite_snd h ?_
  split
  · exact wf_ite_snd (translate_wf h) h
  · exact wf_ite_snd h (wf_ite_snd (translate_wf h) (wf_ite (askRead_wf (translate_wf h))
      (l1Fill_wf (askRead_wf (translate_wf h)))))
theorem pfetchLanes_wf {x : List Nat} (h : Memory.wf s) : Memory.wf (pfetchLanes f c x s).2 := by
  induction x generalizing s with
  | nil => exact h
  | cons x xs ih => exact ih (pfetchLane_wf h)
theorem pfetchRes_wf (h : Memory.wf s) : Memory.wf (pfetchRes f c s).state := by
  unfold pfetchRes
  split
  · exact orderWait_wf h _ ‹_›
  · exact wf_ite_state (wf_done (pfetchLanes_wf h)) (waitFor_wf (pfetchLanes_wf h))
theorem lineRes_wf {inv : Bool} (h : Memory.wf s) : Memory.wf (lineRes inv f c s).state := by
  refine wf_ite_state h ?_
  split
  · exact orderWait_wf h _ ‹_›
  · refine wf_ite_state (settleLanes_wf (fun _ h1 => h1) (xlateLanes_wf h)) ?_
    split
    · exact holdRoom_wf (xlateLanes_wf h) _ ‹_›
    · exact settleLanes_wf (fun _ h1 => h1) (wf_foldl (fun _ _ h1 => hold_wf h1) (xlateLanes_wf h))
theorem stashPut_wf {w : Stash} (h : Memory.wf s) : Memory.wf (stashPut c half n w s) := locPut_wf h
theorem unfillRange_wf {tk lo : Nat} (h : Memory.wf s) : Memory.wf (unfillRange tk half lo hi s) := h
theorem stmapRes_wf (h : Memory.wf s) : Memory.wf (stmapRes f c s).state := by
  refine wf_ite_state h (wf_ite_state h (wf_ite_state h (wf_ite_state h ?_)))
  split
  · exact orderWait_wf h _ ‹_›
  · exact wf_done (unfillRange_wf (modCore_wf (stashPut_wf h)))
theorem stunmapRes_wf (h : Memory.wf s) : Memory.wf (stunmapRes f c s).state := by
  refine wf_ite_state h ?_
  split
  · exact orderWait_wf h _ ‹_›
  · exact wf_done (unfillRange_wf (modCore_wf (stashPut_wf h)))
theorem stsyncRes_wf (h : Memory.wf s) : Memory.wf (stsyncRes f c s).state :=
  wf_ite_state (wf_getD_state (orderWait_wf h) h) h
theorem restash_wf (h : Memory.wf s) : Memory.wf (restash k s) := h
theorem predLanes_wf {d : Nat} {xs : List (Nat × Bool)} (h : Memory.wf s) : Memory.wf (predLanes c d xs s) :=
  wf_ite h (pput_wf h)
theorem ptstRes_wf {i : Instr} (h : Memory.wf s) : Memory.wf (ptstRes i f c s).state := by
  unfold ptstRes
  extract_lets _ _ _ _ _ r _ _ s0 s1
  have hr : Memory.wf r.2.2 := xlateLanes_wf h
  have hs0 : Memory.wf s0 := readSectors_wf hr
  have hs1 : Memory.wf s1 := predLanes_wf hs0
  refine wf_ite_state ?_ ?_
  · split
    · exact h
    · exact wf_getD_state (orderWait_wf h) (wf_done (predLanes_wf h))
  · split
    · exact orderWait_wf h _ ‹_›
    · exact wf_ite_state (waitEpoch_wf h) (wf_ite_state (settleLanes_wf (fun _ h1 => h1) hr)
        (wf_ite_state (waitFor_wf (readSectors_wf hr)) (settleLanes_wf (fun _ h1 => h1) hs1)))

/-! ### Machine/OpCard -/

theorem xlatePages_wf {a : Acc2} {x : NMap Nat} (h : Memory.wf s) : Memory.wf (xlatePages k lk a x s).2.2 := by
  induction x generalizing s with
  | nil => exact h
  | cons x xs ih =>
    rw [xlatePages]
    split <;> exact ih (xlateFor_wf h)
theorem countFor_wf (h : Memory.wf s) : Memory.wf (countFor lk n s) := wf_ite h h
theorem jobGather_wf {j : Job} {rs : List Run} (h : Memory.wf s) : Memory.wf (jobGather k j rs s).2 := by
  unfold jobGather
  extract_lets _ r s1 _ _ _ _ _ _ s11 q
  have hr : Memory.wf r.2.2 := xlatePages_wf h
  have hs1 : Memory.wf s1 := hr
  have hs11 : Memory.wf s11 := wf_ite (extEff_wf hs1) hs1
  have hq : Memory.wf q.2 := askReads_wf hs11
  exact wf_ite_snd hs1 (wf_ite_snd hs1 (wf_ite_snd hs1 (wf_ite_snd hs1 (wf_ite_snd hq (wf_ite_snd hq hq)))))
theorem jobRecords_wf {j : Job} {step : Nat} {a : Acc2} {fs : List (Nat × Nat × Nat × Nat)} (h : Memory.wf s) :
    Memory.wf (jobRecords k j step a fs s) := h
theorem checkMasks_wf {j : Job} {x : OpBits} (h : Memory.wf s) : Memory.wf (checkMasks k j x s).2 := by
  unfold checkMasks
  extract_lets r
  have hr : Memory.wf r.2 := jobGather_wf h
  split
  · exact hr
  · exact jobRecords_wf hr
  · exact hr
  · extract_lets _ s1
    have hs1 : Memory.wf s1 := countFor_wf hr
    exact wf_ite_snd hs1 (wf_ite_snd hs1 hs1)
theorem readCard_wf {j : Job} (h : Memory.wf s) : Memory.wf (readCard k j s).2 := by
  refine wf_ite_snd h ?_
  dsimp only
  split
  · exact jobGather_wf h
  · exact jobRecords_wf (jobGather_wf h)
  · exact jobGather_wf h
  · exact wf_ite_snd (countFor_wf (jobGather_wf h)) (wf_ite_snd (countFor_wf (jobGather_wf h))
      (countFor_wf (jobGather_wf h)))

/-! ### Machine/Scalar -/

theorem salu_wf (h : Memory.wf s) : Memory.wf (salu op f c s).state := wf_done (uwrite_wf h)
theorem scmpRes_wf (h : Memory.wf s) : Memory.wf (scmpRes f c s).state := wf_done (uwrite_wf h)
theorem sselRes_wf (h : Memory.wf s) : Memory.wf (sselRes f c s).state := wf_done (uwrite_wf h)
theorem sliRes_wf (h : Memory.wf s) : Memory.wf (sliRes f c s).state := wf_done (uwrite_wf h)
theorem slihRes_wf (h : Memory.wf s) : Memory.wf (slihRes f c s).state := wf_done (uwrite_wf h)
theorem stWrite_wf (h : Memory.wf s) : Memory.wf (stWrite c n x s) := wf_ite (uwrite_wf h) (jw_wf h)
theorem smovGo_wf (h : Memory.wf s) : Memory.wf (smovGo f c s) := wf_ite h (stWrite_wf h)
theorem smovRes_wf (h : Memory.wf s) : Memory.wf (smovRes f c s).state :=
  wf_ite_state (wf_ite_state (waitEpoch_wf h) h) (wf_done (smovGo_wf h))
theorem srdRes_wf (h : Memory.wf s) : Memory.wf (srdRes f c s).state :=
  wf_ite_state h (wf_ite_state (wf_done (vwriteLanes_wf h)) (wf_done (uwrite_wf h)))
theorem landLateWord_wf {w : QWord} (h : Memory.wf s) : Memory.wf (landLateWord g s w) := by
  unfold landLateWord
  dsimp only
  split
  · exact h
  · rename_i u e
    have hu : Memory.wf u := by
      split at e
      · exact wf_ite_some (wf_some (uwrite_wf (s := useRot g w s) h)) wf_none u e
      · exact wf_ite_some wf_none (wf_some (smovGo_wf (s := useRot g w s) h)) u e
      · exact nomatch e
    exact deliver_wf (retireCheck_wf (wf_mk hu))
theorem landLate_wf (h : Memory.wf s) : Memory.wf (landLate g s) := wf_foldl (fun _ _ h1 => landLateWord_wf h1) h
theorem branchTo_wf {next : Nat} {s' : State} (h : Memory.wf s) (h1 : Memory.wf s') :
    Memory.wf (branchTo c next s s').state := wf_ite_state h (wf_done (resolve_wf h1))
theorem braRes_wf (h : Memory.wf s) : Memory.wf (braRes f c s).state := branchTo_wf h h
theorem brcRes_wf (h : Memory.wf s) : Memory.wf (brcRes f c s).state := branchTo_wf h h
theorem brxRes_wf (h : Memory.wf s) : Memory.wf (brxRes f c s).state := branchTo_wf h h
theorem callRes_wf (h : Memory.wf s) : Memory.wf (callRes f c s).state := branchTo_wf h (uwrite_wf h)
theorem loopRes_wf (h : Memory.wf s) : Memory.wf (loopRes f c s).state := wf_done (uwrite_wf h)
theorem endlRes_wf (h : Memory.wf s) : Memory.wf (endlRes f c s).state :=
  wf_ite_state (wf_done (resolve_wf (uwrite_wf h))) (wf_done (resolve_wf (uwrite_wf h)))
theorem stackPut_wf {i : Nat} {e : StackEntry} (h : Memory.wf s) : Memory.wf (stackPut c i e s) := locPut_wf h
theorem setDepth_wf (h : Memory.wf s) : Memory.wf (setDepth c n s) := jw_wf h
theorem push_wf {e : StackEntry} (h : Memory.wf s) : Memory.wf (push c e s) := setDepth_wf (stackPut_wf h)
theorem bdivRes_wf (h : Memory.wf s) : Memory.wf (bdivRes f c s).state := by
  refine wf_ite_state (wf_done (resolve_wf h)) (wf_ite_state (wf_done (resolve_wf h)) (wf_ite_state h ?_))
  split
  · exact h
  · exact wf_done (putSlot_wf (push_wf h))
theorem spillStopper_wf {slot : Nat} (h : Memory.wf s) : Memory.wf (spillStopper g slot s) := by
  unfold spillStopper
  split <;> exact h
theorem markRes_wf (h : Memory.wf s) : Memory.wf (markRes f c s).state := by
  unfold markRes
  dsimp only
  split
  · exact h
  · exact wf_done (push_wf (wf_ite (putSlot_wf (push_wf (spillStopper_wf h))) h))
theorem resumeSlot_wf (h : Memory.wf s) : Memory.wf (resumeSlot c x s) := by
  induction x generalizing s with
  | zero => exact h
  | succ x ih =>
    exact wf_ite h (wf_ite (putSlot_wf (setDepth_wf h)) (wf_ite h
      (wf_ite (putSlot_wf (setDepth_wf h)) (ih (setDepth_wf h)))))
theorem joinRes_wf (h : Memory.wf s) : Memory.wf (joinRes c s).state := by
  unfold joinRes
  split
  · exact h
  · exact wf_ite_state h (wf_done (resumeSlot_wf h))
theorem clearRejoin_wf {lanes : Nat} (h : Memory.wf s) : Memory.wf (clearRejoin c lanes x s) := by
  induction x generalizing s with
  | zero => exact h
  | succ x ih => exact ih (wf_ite (stackPut_wf h) h)
theorem exitRes_wf (h : Memory.wf s) : Memory.wf (exitRes c s).state :=
  wf_done (resumeSlot_wf (putSlot_wf (clearRejoin_wf h)))
theorem twaitRes_wf (h : Memory.wf s) : Memory.wf (twaitRes f c s).state := wf_ite_state (wf_done (jw_wf h)) h
theorem tsigRes_wf {q : Nat} (h : Memory.wf s) : Memory.wf (tsigRes q f c s).state :=
  wf_ite_state h (wf_done (jw_wf h))

/-! ### Machine/Matrix -/

theorem rowPut_wf {e : RowEff} (h : Memory.wf s) : Memory.wf (rowPut c n e s) := jw_wf h
theorem rowsPut_wf {lo : Nat} {e : RowEff} (h : Memory.wf s) : Memory.wf (rowsPut c lo n e s) :=
  wf_foldl (fun _ _ h1 => rowPut_wf h1) h
theorem rowsCheck_wf {lo writes : Nat} (h : Memory.wf s) : ∀ t, rowsCheck c lo n writes s = some t → Memory.wf t.state :=
  wf_ite_some_state (wf_some_state h) (wf_ite_some_state (wf_some_state h) wf_none_state)
theorem cleanRows_wf {rows : List Nat} (h : Memory.wf s) : Memory.wf (cleanRows c rows s) :=
  countPois_wf (wf_foldl (fun _ _ h1 => rowPut_wf h1) h)
theorem readingRows_wf {lo : Nat} {k : State → Res} (h : Memory.wf s)
    (hk : ∀ t, Memory.wf t → Memory.wf (k t).state) : Memory.wf (readingRows c lo n s k).state := by
  unfold readingRows
  split
  · exact hk _ h
  · exact wf_ite_state (hk _ (cleanRows_wf h)) h
theorem runsPage_wf {runs : List (Nat × Nat)} (h : Memory.wf s) :
    ∀ t, runsPage c runs s = some t → Memory.wf t.state := by
  unfold runsPage
  split
  · exact wf_some_state h
  · exact wf_none_state
theorem runPut_wf (h : Memory.wf s) : Memory.wf (runPut c a bytes s) := by
  unfold runPut
  split
  · exact h
  · exact wf_ite h (wf_foldl (fun _ _ h1 => wf_ite (jw_wf h1) h1)
      (locPut_wf (wf_ite (wf_foldl (fun _ _ h1 => cleanGranule_wf h1) h) h)))
theorem xstrmRes_wf (h : Memory.wf s) : Memory.wf (xstrmRes f c s).state := wf_ite_state h (wf_done (fwrite_wf h))
theorem xstrmGetRes_wf (h : Memory.wf s) : Memory.wf (xstrmGetRes f c s).state := wf_done (uwrite_wf h)
theorem advStreams_wf {A B : Strm} {ka : Nat} (h : Memory.wf s) : Memory.wf (advStreams c f A B ka s) :=
  wf_ite (fwrite_wf (wf_ite (fwrite_wf h) h)) (wf_ite (fwrite_wf h) h)
theorem prodRes_wf (h : Memory.wf s) : Memory.wf (prodRes op f c s).state := by
  refine wf_ite_state h ?_
  split
  · exact runsPage_wf h _ ‹_›
  · exact wf_ite_state h (wf_ite_state h (wf_ite_state h
      (wf_ite_state h (wf_ite_state h (wf_done (advStreams_wf
      (wf_foldl (fun _ _ h1 => rowPut_wf h1) (wf_ite (countPois_wf h) h))))))))
theorem xzeroRes_wf (h : Memory.wf s) : Memory.wf (xzeroRes f c s).state := by
  unfold xzeroRes
  dsimp only
  split
  · exact rowsCheck_wf h _ ‹_›
  · exact wf_done (rowsPut_wf h)
theorem xexpRes_wf (h : Memory.wf s) : Memory.wf (xexpRes f c s).state := by
  unfold xexpRes
  dsimp only
  split
  · exact rowsCheck_wf h _ ‹_›
  · exact wf_done (rowsPut_wf h)
theorem xnormRes_wf (h : Memory.wf s) : Memory.wf (xnormRes f c s).state := by
  unfold xnormRes
  dsimp only
  split
  · exact rowsCheck_wf h _ ‹_›
  · exact readingRows_wf h fun _ h1 => wf_done (wf_foldl (fun _ _ h2 => rowPut_wf h2) h1)
theorem xgrdRes_wf (h : Memory.wf s) : Memory.wf (xgrdRes f c s).state := by
  unfold xgrdRes
  dsimp only
  split
  · exact rowsCheck_wf h _ ‹_›
  · exact readingRows_wf h fun _ h1 => wf_ite_state (wf_done (rowPut_wf (uwrite_wf h1))) (wf_done (uwrite_wf h1))
theorem xrdRes_wf (h : Memory.wf s) : Memory.wf (xrdRes f c s).state := by
  unfold xrdRes
  dsimp only
  split
  · exact rowsCheck_wf h _ ‹_›
  · exact readingRows_wf h fun _ h1 => wf_done (putLanes_wf h1)
theorem xwrRes_wf (h : Memory.wf s) : Memory.wf (xwrRes f c s).state := by
  unfold xwrRes
  dsimp only
  split
  · exact rowsCheck_wf h _ ‹_›
  · exact wf_done (rowPut_wf h)
theorem xflushRes_wf (h : Memory.wf s) : Memory.wf (xflushRes f c s).state := by
  unfold xflushRes
  extract_lets
  refine wf_ite_state h ?_
  split
  · exact runsPage_wf h _ ‹_›
  · refine wf_ite_state h (wf_ite_state h ?_)
    refine wf_ite_state h (readingRows_wf h (fun _ h1 => ?_))
    refine wf_done ?_
    refine wf_ite ?_ ?_
    · exact rowsPut_wf (wf_ite (fwrite_wf (wf_foldl (fun _ _ h2 => runPut_wf (runPut_wf h2)) h1))
        (wf_foldl (fun _ _ h2 => runPut_wf (runPut_wf h2)) h1))
    · exact wf_ite (fwrite_wf (wf_foldl (fun _ _ h2 => runPut_wf (runPut_wf h2)) h1))
        (wf_foldl (fun _ _ h2 => runPut_wf (runPut_wf h2)) h1)
theorem modJobs_wf {f : List Job → List Job} (h : Memory.wf s) : Memory.wf (modJobs k f s) := h
theorem xrunRes_wf (h : Memory.wf s) : Memory.wf (xrunRes f c s).state :=
  wf_ite_state h (wf_ite_state h (wf_ite_state (waitEpoch_wf h)
    (wf_done (uwrite_wf (modJobs_wf (modLaunch_wf (readCard_wf h)))))))
theorem pollEvent_wf {j : Option (Nat × Job)} (h : Memory.wf s) : Memory.wf (pollEvent g j s) := by
  unfold pollEvent
  split
  · exact wf_ite h h
  · exact h
theorem xpollRes_wf (h : Memory.wf s) : Memory.wf (xpollRes f c s).state :=
  wf_ite_state h (wf_done (pollEvent_wf (uwrite_wf h)))
theorem xkillRes_wf (h : Memory.wf s) : Memory.wf (xkillRes f c s).state := by
  unfold xkillRes
  split
  · exact h
  · exact wf_done (wf_ite h h)

/-! ### Machine/Copy -/

theorem copyRes_wf {q : CopyReq} {w : Bool} (h : Memory.wf s) : Memory.wf (copyRes q w f c s).state := by
  unfold copyRes
  dsimp only
  split
  · exact h
  · split
    · exact h
    · split
      · exact h
      · exact wf_ite_state h (wf_ite_state h (wf_ite_state h
          (wf_ite_state h (wf_ite_state h (wf_ite_state h (wf_ite_state h (wf_ite_state h h)))))))
theorem ringChecks_wf {e : Nat} {k : Half → Ring → Res} (h : Memory.wf s) (hk : ∀ x0 x1, Memory.wf (k x0 x1).state) :
    Memory.wf (ringChecks c e s k).state := by
  refine wf_ite_state h ?_
  split
  · exact h
  · exact wf_ite_state h (hk _ _)
theorem ringAdd_wf {x : Half} (h : Memory.wf s) : Memory.wf (ringAdd c x off n s) := jw_wf h
theorem rinitRes_wf (h : Memory.wf s) : Memory.wf (rinitRes f c s).state := by
  unfold rinitRes
  extract_lets k cfg src
  refine wf_ite_state h (wf_ite_state h ?_)
  extract_lets
  split
  · exact h
  · extract_lets _ _ drop s1
    have hs : Memory.wf s1 := wf_foldl (fun _ _ h1 => modCore_wf h1) h
    exact wf_ite_state h (wf_ite_state h (wf_done (locPut_wf hs)))
theorem rwaitRes_wf (h : Memory.wf s) : Memory.wf (rwaitRes f c s).state := by
  unfold rwaitRes
  exact ringChecks_wf h fun _ _ => wf_ite_state h (wf_ite_state h (wf_done (acqEvent_wf (uwrite_wf h))))
theorem ringStore_wf {rel : Nat} {after : State → State} (hafter : ∀ t, Memory.wf t → Memory.wf (after t))
    (h : Memory.wf s) : Memory.wf (ringStore c va x rel after s).state := by
  unfold ringStore
  split
  · exact settleLanes_wf (fun _ h1 => hafter _ (wf_ite (countPois_wf h1) h1)) h
  · rename_i s1 e
    have h1 : Memory.wf s1 := by
      split at e
      · exact nomatch e
      · exact wf_snd_snd (Option.some.inj e) (xlateLanes_wf h)
    split
    · exact settleLanes_wf (fun _ h2 => h2) h1
    · split
      · exact holdRoom_wf h1 _ ‹_›
      · exact hafter _ (hold_wf h1)
theorem rrelRes_wf (h : Memory.wf s) : Memory.wf (rrelRes f c s).state :=
  wf_ite_state h (ringChecks_wf h (fun _ _ => wf_ite_state h
    (wf_ite_state h (wf_ite_state (ringStore_wf (fun _ h1 => ringAdd_wf h1) h) (wf_done (ringAdd_wf h))))))
theorem rpostRes_wf (h : Memory.wf s) : Memory.wf (rpostRes f c s).state := by
  refine wf_ite_state h ?_
  split
  · exact h
  · exact wf_ite_state h (wf_ite_state h (wf_ite_state h
      (wf_ite_state h (wf_ite_state h (wf_done (wf_ite h (ringAdd_wf h)))))))
theorem rtailRes_wf (h : Memory.wf s) : Memory.wf (rtailRes f c s).state := by
  refine wf_ite_state h (wf_ite_state h ?_)
  split
  · exact h
  · exact ringStore_wf (fun _ h1 => h1) h
theorem cqryRes_wf (h : Memory.wf s) : Memory.wf (cqryRes f c s).state := by
  unfold cqryRes
  dsimp only
  split
  · exact wf_done (uwrite_wf h)
  · exact wf_done (uwrite_wf h)
  · exact wf_done (uwrite_wf h)
  · exact ringChecks_wf h fun _ _ => wf_done (uwrite_wf h)

/-! ### Machine/Ports -/

theorem freePorts_wf (h : Memory.wf s) : Memory.wf (freePorts g s) := wf_mk (wf_foldl (fun _ _ h1 => wf_ite h1 h1) h)
theorem addPart_wf {f : Feed} (h : Memory.wf s) : Memory.wf (addPart c s f) := wf_ite h (wf_ite h h)
theorem pshRes_wf (h : Memory.wf s) : Memory.wf (pshRes f c s).state :=
  wf_ite_state h (wf_ite_state h (wf_ite_state h (wf_ite_state h
    (wf_done (relEvent_wf (wf_foldl (fun _ _ h1 => addPart_wf h1) h))))))
theorem popRes_wf (h : Memory.wf s) : Memory.wf (popRes f c s).state :=
  wf_ite_state h (wf_ite_state (wf_done (acqEvent_wf (wf_ite (pput_wf (vwriteLanes_wf h)) (vwriteLanes_wf h))))
    (wf_ite_state h (wf_ite_state h h)))
theorem pstatRes_wf (h : Memory.wf s) : Memory.wf (pstatRes f c s).state := wf_done (uwrite_wf h)
theorem linkChecks_askRoutes_wf (h : Memory.wf s) : Memory.wf (linkChecks.askRoutes lk s) := wf_ite h h
theorem linkChecks_wf {p : LinkPeer} {load : Bool} {k : State → Res} (h : Memory.wf s)
    (hk : ∀ t, Memory.wf t → Memory.wf (k t).state) : Memory.wf (linkChecks c a n p load s k).state := by
  refine wf_ite_state h (wf_ite_state h (wf_ite_state h ?_))
  split
  · exact h
  · exact wf_ite_state (wf_ite_state (hk _ h) h) (wf_ite_state (wf_ite_state (hk _ h) h)
      (waitFor_wf (linkChecks_askRoutes_wf h)))
theorem linkUnlock_wf {core id : Nat} (h : Memory.wf s) : Memory.wf (linkUnlock core id s) := h
theorem readingRun_wf {k : State → Res} (h : Memory.wf s) (hk : ∀ t, Memory.wf t → Memory.wf (k t).state) :
    Memory.wf (readingRun c a n s k).state := by
  unfold readingRun
  split
  · exact hk _ h
  · exact wf_ite_state (hk _ (countPois_wf h)) h
theorem lsndRes_wf (h : Memory.wf s) : Memory.wf (lsndRes f c s).state := by
  unfold lsndRes
  exact linkChecks_wf h fun _ h1 => wf_ite_state h1 (wf_ite_state h1 (readingRun_wf h1 (fun _ h2 => h2)))
theorem recvMsg_wf {add : Option Nat} {m : Msg} (h : Memory.wf s) : Memory.wf (recvMsg add f c a n m s).state := by
  refine wf_ite_state h ?_
  dsimp only
  split
  · exact wf_done (acqEvent_wf (linkUnlock_wf (wf_mk (uwrite_wf (runPut_wf h)))))
  · exact readingRun_wf h fun _ h1 => wf_done (acqEvent_wf (linkUnlock_wf (wf_mk (uwrite_wf (runPut_wf h1)))))
theorem lrcvRes_wf {add : Option Nat} (h : Memory.wf s) : Memory.wf (lrcvRes add f c s).state := by
  refine wf_ite_state (linkChecks_wf h (fun _ h1 => wf_ite_state h1 ?_)) (wf_ite_state h ?_)
  · dsimp only
    split
    · exact recvMsg_wf h1
    · exact h1
  · split
    · exact recvMsg_wf h
    · exact h
theorem treeRes_wf {cmd : TreeCmd} {dests : Option (List Reg)} (h : Memory.wf s) :
    Memory.wf (treeRes n cmd dests c s).state := by
  unfold treeRes
  split
  · exact holdRoom_wf h _ ‹_›
  · dsimp only
    split
    · exact wf_done (hold_wf h)
    · exact wf_ite_state h (wf_fly (closeAfter_wf (hold_wf h)))
theorem treeLanes_wf {cmd : List Nat → TreeCmd} {dests : Option (List Reg)} (h : Memory.wf s) :
    Memory.wf (treeLanes n cmd dests f c s).state :=
  wf_ite_state (wf_done (wf_ite (closeAfter_wf h) h)) (treeRes_wf h)
theorem trinsRes_wf (h : Memory.wf s) : Memory.wf (trinsRes f c s).state := by
  unfold trinsRes
  exact treeLanes_wf h
theorem trupdRes_wf (h : Memory.wf s) : Memory.wf (trupdRes f c s).state := treeLanes_wf h
theorem trdrwRes_wf (h : Memory.wf s) : Memory.wf (trdrwRes f c s).state := treeLanes_wf h
theorem trwgtRes_wf (h : Memory.wf s) : Memory.wf (trwgtRes f c s).state := treeLanes_wf h
theorem trtotRes_wf (h : Memory.wf s) : Memory.wf (trtotRes f c s).state := treeRes_wf h
theorem trcfgRes_wf (h : Memory.wf s) : Memory.wf (trcfgRes f c s).state := treeRes_wf h

/-! ### Machine/Regs -/

theorem sendMsi_wf (h : Memory.wf s) : Memory.wf (sendMsi n s) := wf_ite h h
theorem raiseInt_wf (h : Memory.wf s) : Memory.wf (raiseInt n s) := wf_ite (sendMsi_wf h) h
theorem bumpCard_wf {lo : Nat} (h : Memory.wf s) : Memory.wf (bumpCard n hi lo s) := h
theorem modRun_wf {f : CardRun → CardRun} (h : Memory.wf s) : Memory.wf (modRun n f s) := h
theorem putVirtual_wf (h : Memory.wf s) : Memory.wf (putVirtual lk va bytes s) := by
  unfold putVirtual
  dsimp only
  split
  · exact l2Write_wf _ _ _ (xlateFor_wf h)
  · exact xlateFor_wf h
theorem copyPage_wf {dst src : Nat} (h : Memory.wf s) : Memory.wf (copyPage dst src partid s) :=
  wf_foldl (fun _ _ h1 => wf_ite (poisonSector_wf (l2Write_wf _ _ _ (l2Fill_wf h1)))
    (l2Write_wf _ _ _ (l2Fill_wf h1))) h
theorem snapshot_wf (h : Memory.wf s) : Memory.wf (snapshot lk va pa s) := by
  refine wf_ite (extEff_wf h) ?_
  split
  · exact extEff_wf h
  · dsimp only
    split
    · exact xlateFor_wf h
    · refine wf_ite (l2Fill_wf (xlateFor_wf h)) (putVirtual_wf ?_)
      split
      · exact copyPage_wf (xlateFor_wf (l2Fill_wf (xlateFor_wf h)))
      · exact xlateFor_wf (l2Fill_wf (xlateFor_wf h))
theorem launchWriteAs_wf {but : Option (Nat × Nat)} (h : Memory.wf s) :
    Memory.wf (launchWriteAs mt but lk va pa bytes partid s) :=
  l2WriteSectorAs_wf (wf_ite (extEff_wf (snapshot_wf h)) (snapshot_wf h))

/-! ### Machine/Tree -/

theorem treeSet_wf {w lo v : Nat} (h : Memory.wf s) : Memory.wf (treeSet n w hi lo v s) := h
theorem treeErr_wf (h : Memory.wf s) : Memory.wf (treeErr n k s) := h
theorem treeDrop_wf (h : Memory.wf s) : Memory.wf (treeDrop n s) := h
theorem treeFault_wf (h : Memory.wf s) : Memory.wf (treeFault n s) := h
theorem treeXlate_wf (h : Memory.wf s) : Memory.wf (treeXlate n va s).2 := by
  unfold treeXlate
  dsimp only
  split <;> exact translate_wf h
theorem nodeRead_wf {len : Nat} (h : Memory.wf s) : Memory.wf (nodeRead n off len s).2 := by
  unfold nodeRead
  dsimp only
  split
  · exact treeXlate_wf h
  · exact l2Fill_wf (treeXlate_wf h)
theorem nodeWrite_wf {len : Nat} (h : Memory.wf s) : Memory.wf (nodeWrite n off len x s).2 := by
  unfold nodeWrite
  dsimp only
  split
  · exact treeXlate_wf h
  · exact l2Write_wf _ _ _ (treeXlate_wf h)
theorem writePath_wf {ws : List (Nat × Nat × Nat)} (h : Memory.wf s) : Memory.wf (writePath n ws s) :=
  wf_ite (wf_foldl_snd (fun _ _ h1 => nodeWrite_wf h1) h)
    (treeFault_wf (wf_foldl (fun _ _ h1 => poisonSector_wf h1) (wf_foldl_snd (fun _ _ h1 => nodeWrite_wf h1) h)))
theorem rootRead_wf (h : Memory.wf s) : Memory.wf (rootRead n s).2 := nodeRead_wf h
theorem childPairs_wf {D d i : Nat} (h : Memory.wf s) : Memory.wf (childPairs n D d i x s).2 := by
  induction x generalizing s with
  | zero => exact h
  | succ x ih =>
    rw [childPairs]
    split
    · exact wf_ite_snd (nodeRead_wf h) (nodeRead_wf h)
    · exact ih (wf_ite_snd (nodeRead_wf h) (nodeRead_wf h))
theorem pathUp_wf {D child : Nat} {v : Nat × Nat} (h : Memory.wf s) : Memory.wf (pathUp n D child v x s).2 := by
  induction x generalizing child v s with
  | zero => exact h
  | succ x ih =>
    rw [pathUp]
    split
    · exact childPairs_wf h
    · exact ih (childPairs_wf h)
theorem treeMirror_wf {v : Nat × Nat} (h : Memory.wf s) : Memory.wf (treeMirror n v s) := h
theorem treeSync_wf (h : Memory.wf s) : Memory.wf (treeSync n s) := by
  refine wf_ite h ?_
  dsimp only
  split
  · exact treeMirror_wf (rootRead_wf h)
  · exact rootRead_wf h
theorem applyLeaf_wf {i : Nat} (h : Memory.wf s) :
    (∀ t, (applyLeaf n i x s).1 = some t → Memory.wf t) ∧ Memory.wf (applyLeaf n i x s).2 := by
  have path := pathUp_wf (n := n) (D := trLevels s n) (child := i) (v := leafPair x) (x := trLevels s n)
    (rootRead_wf (n := n) h)
  unfold applyLeaf
  dsimp only
  split
  · exact ⟨wf_some (treeMirror_wf (writePath_wf path)), path⟩
  · exact ⟨wf_none, path⟩
theorem applyLeaf_wf_fst {i : Nat} {t : State} {o : State} (e : applyLeaf n i x s = (some t, o)) (h : Memory.wf s) :
    Memory.wf t := (applyLeaf_wf h).1 t (congrArg Prod.fst e)
theorem clearPage_wf {D : Nat} {j : Nat} (h : Memory.wf s) : Memory.wf (clearPage n D s j) := by
  unfold clearPage
  dsimp only
  split
  · exact treeFault_wf (treeXlate_wf h)
  · exact wf_ite (treeFault_wf (l2Write_wf _ _ _ (treeXlate_wf h))) (wf_mk (l2Write_wf _ _ _ (treeXlate_wf h)))
theorem treeClear_wf (h : Memory.wf s) : Memory.wf (treeClear n s) :=
  wf_ite (treeMirror_wf (setReg_wf (treeSet_wf h))) (wf_mk
    (wf_foldl (fun _ _ h1 => clearPage_wf h1) (treeMirror_wf (setReg_wf (treeSet_wf h)))))
theorem treeCfg_wf {field : Nat} (h : Memory.wf s) : Memory.wf (treeCfg n field x s) := by
  unfold treeCfg
  split
  · refine wf_ite h ?_
    dsimp only
    split
    · exact treeErr_wf (treeXlate_wf h)
    · exact treeClear_wf (wf_mk (treeSet_wf (setReg_wf (treeXlate_wf h))))
  · exact wf_ite (treeClear_wf h) h
  · exact h
  · exact wf_ite h h
  · exact h
  · exact wf_ite (treeClear_wf h) h
theorem descend_wf {D i e x1 : Nat} (h : Memory.wf s) : Memory.wf (descend n D i x e x1 s).2.2 := by
  induction x1 generalizing i x e s with
  | zero => exact h
  | succ x1 ih =>
    rw [descend]
    split
    · exact treeSet_wf (childPairs_wf h)
    · split
      · exact ih (childPairs_wf h)
      · split
        · exact ih (childPairs_wf h)
        · exact childPairs_wf h
theorem drawLane_wf {w q l : Nat} (h : Memory.wf s) : Memory.wf (drawLane n w q l s).2 := by
  refine wf_ite_snd h (wf_ite_snd (treeFault_wf (rootRead_wf h)) (wf_ite_snd h ?_))
  dsimp only
  split
  · exact treeErr_wf (descend_wf h)
  · split
    · exact treeFault_wf (nodeRead_wf (treeErr_wf (descend_wf h)))
    · exact nodeRead_wf (treeErr_wf (descend_wf h))
theorem insLane_wf {x : Nat × Nat × Nat × Nat} (h : Memory.wf s) : Memory.wf (insLane n x s).2 := by
  have leaf := nodeRead_wf (n := n) (off := leafAt (trLevels s n) x.2.1) (len := 8) h
  unfold insLane
  refine wf_ite_snd (treeErr_wf h) ?_
  dsimp only
  split
  · exact treeFault_wf leaf
  · split
    · rename_i e
      exact applyLeaf_wf_fst e leaf
    · rename_i e
      exact treeFault_wf (wf_snd e (applyLeaf_wf leaf).2)
theorem updLane_wf {x : Nat × Nat × Nat × Nat} (h : Memory.wf s) : Memory.wf (updLane n x s).2 := by
  have leaf := nodeRead_wf (n := n) (off := leafAt (trLevels s n) x.2.1) (len := 8) h
  unfold updLane
  refine wf_ite_snd (treeErr_wf h) ?_
  dsimp only
  split
  · exact treeFault_wf leaf
  · refine wf_ite_snd (treeDrop_wf leaf) ?_
    split
    · rename_i e
      exact applyLeaf_wf_fst e leaf
    · rename_i e
      exact treeFault_wf (wf_snd e (applyLeaf_wf leaf).2)
theorem overLanes_wf {α β : Type} {f : α → State → β × State} {x : List α}
    (hf : ∀ x0 t1, Memory.wf t1 → Memory.wf (f x0 t1).2) (h : Memory.wf s) : Memory.wf (overLanes f x s).2 := by
  induction x generalizing s with
  | nil => exact h
  | cons x xs ih => exact ih (hf _ _ h)
theorem treePerform_wf {part w : Nat} {c : TreeCmd} (h : Memory.wf s) : Memory.wf (treePerform n ctx part w c s).2 := by
  refine wf_ite_snd h ?_
  dsimp only
  split
  · exact overLanes_wf (fun _ _ h1 => insLane_wf h1) (treeSync_wf h)
  · exact overLanes_wf (fun _ _ h1 => updLane_wf h1) (treeSync_wf h)
  · exact overLanes_wf (fun _ _ h1 => drawLane_wf h1) (treeSync_wf h)
  · exact treeSync_wf h
  · exact treeSync_wf h
  · exact treeCfg_wf (wf_mk (treeSync_wf h))

/-! ### Machine/Cards -/

theorem cardXlate_wf {a : Acc2} (h : Memory.wf s) : Memory.wf (cardXlate s n va a).2 := by
  unfold cardXlate
  dsimp only
  split <;> exact translate_wf h
theorem dropRecord_wf (h : Memory.wf s) : Memory.wf (dropRecord n s) := modRun_wf (bumpCard_wf h)
theorem writeRecord_wf {r : RecArgs} (h : Memory.wf s) : Memory.wf (writeRecord n r s) := by
  unfold writeRecord
  extract_lets _ _ t
  have ht : Memory.wf t.2 := cardXlate_wf h
  refine wf_ite h ?_
  split
  · exact dropRecord_wf ht
  · extract_lets t2 _ _ q
    have ht2 : Memory.wf t2 := l2Fill_wf ht
    have hq : Memory.wf q.2 := cardXlate_wf ht2
    split
    · exact dropRecord_wf hq
    · extract_lets s1 s2 s3
      have hs1 : Memory.wf s1 := l2Write_wf _ _ _ hq
      have hs2 : Memory.wf s2 := l2Write_wf _ _ _ hs1
      have hs3 : Memory.wf s3 := hs2
      exact wf_ite (dropRecord_wf hq) (wf_ite hs3 (raiseInt_wf hs3))
theorem askDuty_wf {d : Duty} (h : Memory.wf s) : Memory.wf (askDuty d s) := h
theorem cardRead_wf {x1 : Nat} (h : Memory.wf s) : Memory.wf (cardRead n x x1 s).2 := by
  induction x1 generalizing x s with
  | zero => exact h
  | succ x1 ih =>
    rw [cardRead]
    split
    · exact cardXlate_wf h
    · exact wf_ite_snd (l2Fill_wf (cardXlate_wf h)) (ih (l2Fill_wf (cardXlate_wf h)))
theorem cardReadNum_wf {len : Nat} (h : Memory.wf s) : Memory.wf (cardReadNum n va len s).2 := cardRead_wf h
theorem cardLoad_wf (h : Memory.wf s) : Memory.wf (cardLoad n s).2 := by
  unfold cardLoad
  extract_lets _ _ y1 sn d d1 y2
  have hy1 : Memory.wf y1.2 := cardReadNum_wf h
  have hsn : Memory.wf sn.2 := by
    subst sn
    refine wf_ite_snd h ?_
    split
    · exact hy1
    · extract_lets e
      have he : Memory.wf e.2 := cardReadNum_wf hy1
      exact he
  have hd : Memory.wf d.2 := cardReadNum_wf hsn
  have hd1 : Memory.wf d1.2 := cardReadNum_wf hsn
  have hy2 : Memory.wf y2.2 := cardReadNum_wf hsn
  split
  · exact hsn
  · extract_lets
    split
    · split
      · exact hd
      · extract_lets _ w
        have hw : Memory.wf w.2 := wf_ite_snd hd (cardReadNum_wf hd)
        split
        · exact hw
        · exact wf_ite_snd hw hw
    · split
      · exact hd1
      · exact wf_ite_snd hd1 hd1
    · split
      · exact hy2
      · exact wf_ite_snd hy2 hy2
theorem admitCard_wf (h : Memory.wf s) : Memory.wf (admitCard n s) :=
  wf_ite h (modRun_wf (countReg_wf (countReg_wf h)))
theorem unadmit_wf (h : Memory.wf s) : Memory.wf (unadmit n s) := by
  unfold unadmit
  split
  · exact h
  · exact modRun_wf (setReg_wf (setReg_wf h))
theorem toIdle_wf (h : Memory.wf s) : Memory.wf (toIdle n s) := unadmit_wf h
theorem armCause_wf {path : ArmPath} (h : Memory.wf s) : Memory.wf (armCause path n s).2.2 := by
  refine wf_ite_snd_snd h (wf_ite_snd_snd h ?_)
  dsimp only
  split <;> exact cardLoad_wf h
theorem armed_wf {rel : Nat} (h : Memory.wf s) : Memory.wf (armed n rel s) :=
  setCardFld_wf (setCardFld_wf (setCardFld_wf (setCardFld_wf (setCardFld_wf h))))
theorem rejectRecord_wf {path : ArmPath} {rel cause : Nat} (h : Memory.wf s) :
    Memory.wf (rejectRecord path n rel cause s) := by
  unfold rejectRecord
  dsimp only
  split
  · exact writeRecord_wf (writeRecord_wf h)
  · exact writeRecord_wf h
theorem armCard_wf {path : ArmPath} {rel : Nat} (h : Memory.wf s) : Memory.wf (armCard path n rel s).2 :=
  wf_ite_snd (rejectRecord_wf (setReg_wf (armCause_wf h)))
    (wf_ite_snd (askDuty_wf (setCardFld_wf (wf_mk (setReg_wf (armCause_wf h)))))
    (admitCard_wf (armed_wf (wf_mk (setReg_wf (armCause_wf h))))))

/-! ### Machine/System -/

theorem hretRes_wf (h : Memory.wf s) : Memory.wf (hretRes c s).state := by
  unfold hretRes
  split
  · exact h
  · exact wf_ite_state h h
theorem sysrdRes_wf (h : Memory.wf s) : Memory.wf (sysrdRes f c s).state := wf_done (uwrite_wf h)
theorem sysHold_wf {cmd : SysCmd} {dests : List Reg} (h : Memory.wf s) : Memory.wf (sysHold cmd dests c s).state := by
  unfold sysHold
  split
  · exact holdRoom_wf h _ ‹_›
  · exact wf_fly (hold_wf h)
theorem syswrRes_wf (h : Memory.wf s) : Memory.wf (syswrRes f c s).state := sysHold_wf h
theorem wakeRes_wf (h : Memory.wf s) : Memory.wf (wakeRes f c s).state := sysHold_wf h
theorem gateRes_wf (h : Memory.wf s) : Memory.wf (gateRes f c s).state := wf_ite_state h (sysHold_wf h)
theorem haltRes_wf (h : Memory.wf s) : Memory.wf (haltRes c s).state := wf_ite_state (wf_done (resolve_wf h)) h
theorem wakeMask_wf (h : Memory.wf s) : Memory.wf (wakeMask x s) :=
  wf_foldl (fun _ _ h1 => wf_ite (wf_ite h1 h1) h1) h
theorem jobarmRes_wf (h : Memory.wf s) : Memory.wf (jobarmRes f c s).state := sysHold_wf h
theorem jobdoneRes_wf (h : Memory.wf s) : Memory.wf (jobdoneRes c s).state := sysHold_wf h
theorem jobyldRes_wf (h : Memory.wf s) : Memory.wf (jobyldRes c s).state := wf_done (askPreempt_wf h)
theorem suspRes_wf (h : Memory.wf s) : Memory.wf (suspRes f c s).state :=
  wf_ite_state h (wf_ite_state h (sysHold_wf h))
theorem fltrplyRes_wf (h : Memory.wf s) : Memory.wf (fltrplyRes f c s).state := sysHold_wf h

/-! ### Machine/Rollback -/

theorem cancelCmds_wf {B : Bounds} (h : Memory.wf s) : Memory.wf (cancelCmds B s) := h
theorem undoPorts_wf {B : Bounds} (h : Memory.wf s) : Memory.wf (undoPorts B s) := h
theorem undoMsgs_wf {B : Bounds} (h : Memory.wf s) : Memory.wf (undoMsgs B s) := wf_mk (wf_foldl (fun _ _ h1 => h1) h)
theorem undoJobs_wf {B : Bounds} (h : Memory.wf s) : Memory.wf (undoJobs B s) :=
  wf_mk (wf_foldl (fun _ _ h1 => wf_foldl (fun _ _ h2 => h2) h1) h)
theorem undoFaults_wf {B : Bounds} (h : Memory.wf s) : Memory.wf (undoFaults B s) := h
theorem unfillTeams_wf (h : Memory.wf s) : Memory.wf (unfillTeams pr s) := h
theorem rollGroups_wf {B : Bounds} (h : Memory.wf s) : Memory.wf (rollGroups pr B s) :=
  unfillTeams_wf (restash_wf (restash_wf (wf_foldl (fun _ _ h1 => h1)
    (undoFaults_wf (undoJobs_wf (wf_foldl (fun _ _ h1 => h1)
    (undoMsgs_wf (undoPorts_wf (cancelCmds_wf (modPair_wf (undoJournal_wf h)))))))))))
theorem rollJobs_wf {q : Nat} (h : Memory.wf s) : Memory.wf (rollJobs pr q s) :=
  modPair_wf (wf_foldl (fun _ _ h1 => h1) h)
theorem undoCapture_wf (h : Memory.wf s) : Memory.wf (undoCapture pr s) :=
  wf_foldl (fun _ _ h1 => wf_foldl (fun _ _ h2 => wf_ite h2 h2) h1) h
theorem lowerAsks_wf (h : Memory.wf s) : Memory.wf (lowerAsks pr s) := h
theorem rollTo_wf {q0 : Nat} (h : Memory.wf s0) : Memory.wf (rollTo pr q0 s0) :=
  lowerAsks_wf (modPair_wf (rollJobs_wf (rollGroups_wf (undoCapture_wf h))))
theorem rollPair_wf {toCommit : Nat → Bool} (h : Memory.wf s) : Memory.wf (rollPair pr toCommit s) :=
  lowerAsks_wf (modPair_wf (rollJobs_wf (rollGroups_wf (undoCapture_wf h))))
theorem killLaunch_wf (h : Memory.wf s) : Memory.wf (killLaunch lk s) := h
theorem endDuties_wf {kinds : List Nat} (h : Memory.wf s) : Memory.wf (endDuties n kinds s) := h
theorem killCard_wf {k : Kill} (h : Memory.wf s) : Memory.wf (killCard n k s) :=
  wf_ite h (modRun_wf (endDuties_wf (killLaunch_wf (killLaunch_wf h))))
theorem makeReady_wf {rel absDl : Nat} (h : Memory.wf s) : Memory.wf (makeReady n rel absDl s) := by
  refine wf_ite (wf_mk (setCardFld_wf (setCardFld_wf (setCardFld_wf h))))
    (wf_foldl (fun _ _ h1 => ?_) (wf_mk (setCardFld_wf (setCardFld_wf (setCardFld_wf h)))))
  dsimp only
  split
  · exact l2Write_wf _ _ _ (cardXlate_wf h1)
  · exact cardXlate_wf h1
theorem leaveInstance_wf (h : Memory.wf s) : Memory.wf (leaveInstance n s) := by
  unfold leaveInstance
  extract_lets _ s1
  have hs1 : Memory.wf s1 := setCardFld_wf (modRun_wf (endDuties_wf h))
  split
  · exact makeReady_wf hs1
  · exact wf_ite (setCardFld_wf hs1) (toIdle_wf hs1)
theorem freeCard_wf (h : Memory.wf s) : Memory.wf (freeCard n s) := h
theorem completeCard_wf (h : Memory.wf s) : Memory.wf (completeCard n s) :=
  leaveInstance_wf (freeCard_wf (writeRecord_wf h))
theorem failCard_wf {event cls : Nat} (h : Memory.wf s) : Memory.wf (failCard n event cls s) :=
  leaveInstance_wf (writeRecord_wf h)
theorem restoreSnapshot_wf (h : Memory.wf s) : Memory.wf (restoreSnapshot n s) := by
  refine wf_ite h (wf_foldl (fun _ _ h1 => ?_) h)
  dsimp only
  split
  · exact cardXlate_wf h1
  · refine wf_ite (l2Fill_wf (cardXlate_wf h1)) ?_
    split
    · exact copyPage_wf (cardXlate_wf (cardXlate_wf (l2Fill_wf (cardXlate_wf h1))))
    · exact cardXlate_wf (cardXlate_wf (l2Fill_wf (cardXlate_wf h1)))
theorem replayCard_wf (h : Memory.wf s) : Memory.wf (replayCard n s) :=
  setCardFld_wf (modRun_wf (restoreSnapshot_wf h))
theorem killDone_wf (h : Memory.wf s) : Memory.wf (killDone n s) := by
  unfold killDone
  split
  · exact h
  · exact wf_ite h (wf_ite (failCard_wf (freeCard_wf h))
      (wf_ite (replayCard_wf (freeCard_wf h)) (wf_ite (freeCard_wf h) (askDuty_wf (modRun_wf (freeCard_wf h))))))
theorem hostDeliver_wf (h : Memory.wf s) : Memory.wf (hostDeliver lk s) := by
  unfold hostDeliver
  dsimp only
  split
  · exact h
  · exact wf_ite h (killCard_wf (modLaunch_wf (wf_ite h (wf_foldl (fun _ _ h1 => putVirtual_wf h1) h))))

/-! ### Machine/Place -/

theorem openPart_wf {c capture rows bytes : Nat} (h : Memory.wf s) :
    Memory.wf (openPart lk c capture rows bytes s) := by
  refine modRun_wf (wf_foldl (fun _ _ h1 => h1) (modPart_wf (wf_foldl (fun _ _ h1 => wf_ite h1 ?_) h)))
  split <;> exact h1
theorem placeTeam_wf {t c : Nat} (h : Memory.wf s) : Memory.wf (placeTeam lk t c s) :=
  modLaunch_wf (wf_foldl (fun _ _ h1 => h1) (setTeam_wf (wf_mk (openPart_wf h))))
theorem loadPart_wf (h : Memory.wf s) : Memory.wf (loadPart lk k s) := by
  unfold loadPart
  split <;> exact h
theorem restoreTo_wf {old c rows bytes : Nat} (h : Memory.wf s) : Memory.wf (restoreTo lk old c rows bytes s) :=
  openPart_wf (wf_mk (modLaunch_wf (wf_foldl (fun _ _ h1 => h1) h)))
theorem accrue_wf (h : Memory.wf s) : Memory.wf (accrue s n) := h
theorem accrueAll_wf (h : Memory.wf s) : Memory.wf (accrueAll s) := wf_foldl (fun _ _ h1 => wf_ite h1 h1) h
theorem chargeCard_wf (h : Memory.wf s) : Memory.wf (chargeCard s n) := setCardFld_wf (accrue_wf h)
theorem chargeAll_wf (h : Memory.wf s) : Memory.wf (chargeAll s) :=
  wf_foldl (fun _ _ h1 => wf_ite (chargeCard_wf h1) h1) h
theorem carveSeat_wf {m c : Nat} {l : Launch} (h : Memory.wf s) : ∀ t, carveSeat s n m c l = some t → Memory.wf t :=
  wf_ite_some wf_none (wf_ite_some (wf_some (wf_foldl (fun _ _ h1 => wf_foldl (fun _ _ h2 => h2) h1) h)) wf_none)
theorem findSeat_wf {m : Nat} {l : Launch} (h : Memory.wf s) : ∀ t, findSeat s n m l = some t → Memory.wf t.2 := by
  unfold findSeat
  dsimp only
  split
  · exact wf_some_snd h
  · exact wf_findSome_snd fun _ => wf_map_snd (carveSeat_wf h) fun _ h1 => h1
theorem placeUp_wf {x1 : Nat} (h : Memory.wf s) : Memory.wf (placeUp n hi x x1 s).2 := by
  induction x generalizing x1 s with
  | zero => exact h
  | succ x ih =>
    refine wf_ite_snd h ?_
    dsimp only
    split
    · exact h
    · rename_i e
      exact ih (wf_foldl (fun _ _ h1 => placeTeam_wf h1) (findSeat_wf h _ e))
theorem fillSeat_wf {c x1 : Nat} (h : Memory.wf s) : Memory.wf (fillSeat n hi c x x1 s).2 := by
  induction x generalizing x1 s with
  | zero => exact h
  | succ x ih => exact wf_ite_snd (ih (wf_foldl (fun _ _ h1 => placeTeam_wf h1) h)) h
theorem growWave_wf {need : Nat} (h : Memory.wf s) : Memory.wf (growWave n need x s) := by
  induction x generalizing s with
  | zero => exact h
  | succ x ih =>
    refine wf_ite h ?_
    split
    · rename_i e
      exact ih (wf_findSome (fun _ => carveSeat_wf h) _ e)
    · exact h
theorem placeWave_wf {t : Nat} (h : Memory.wf s) : Memory.wf (placeWave n hi t s).2 :=
  wf_foldl_snd (fun _ _ h1 => fillSeat_wf h1) (growWave_wf h)
theorem placeNear_wf {wave : Bool} {fuel t last : Nat} (h : Memory.wf s) :
    ∀ u, placeNear n hi wave fuel t last s = some u → Memory.wf u := by
  induction fuel generalizing t last s with
  | zero => exact wf_ite_some (wf_some h) wf_none
  | succ fuel ih =>
    refine wf_ite_some (wf_some h) fun u e => ?_
    obtain ⟨x, hx, e⟩ := List.exists_of_findSome?_eq_some e
    have h1 : Memory.wf x.2 := by
      obtain hx | hx := List.mem_append.1 hx
      · obtain ⟨c, -, rfl⟩ := List.mem_map.1 hx
        exact h
      · obtain ⟨c, -, hc⟩ := List.mem_filterMap.1 hx
        exact wf_map_snd (carveSeat_wf h) (fun _ h2 => h2) x hc
    exact wf_ite_some (ih (wf_foldl (fun _ _ h2 => placeTeam_wf h2) h1)) wf_none u e
theorem openLaunches_wf (h : Memory.wf s) : Memory.wf (openLaunches n s) := wf_foldl (fun _ _ h1 => wf_ite h1 h1) h
theorem placeLanes_wf (h : Memory.wf s0) : ∀ t, placeLanes n s0 = some t → Memory.wf t := by
  unfold placeLanes
  extract_lets s _ _ r
  have hs : Memory.wf s := openLaunches_wf h
  have hr : Memory.wf r.2 := wf_ite_snd (placeWave_wf hs) (placeUp_wf hs)
  exact wf_ite_some wf_none (wf_ite_some (placeNear_wf hs)
    (wf_ite_some (wf_ite_some (wf_some hr) wf_none) (wf_ite_some wf_none (wf_some hr))))
theorem placeChain_wf (h : Memory.wf s0) : ∀ t, placeChain n s0 = some t → Memory.wf t := by
  unfold placeChain
  dsimp only
  split
  · exact wf_none
  · exact wf_some (modJobs_wf (openPart_wf (openLaunches_wf h)))
theorem issueBatch_wf {c : Nat} (h : Memory.wf s) : Memory.wf (issueBatch n c x s).2 := by
  induction x generalizing s with
  | zero => exact h
  | succ x ih =>
    refine wf_ite_snd h ?_
    split
    · exact cardReadNum_wf h
    · exact wf_ite_snd (cardReadNum_wf h) (ih (modRun_wf (modCore_wf (wf_mk (cardReadNum_wf h)))))
theorem runBatch_wf {c : Nat} (h : Memory.wf s) : Memory.wf (runBatch n c s) :=
  wf_ite (killCard_wf (issueBatch_wf h)) (issueBatch_wf h)
theorem placeBatch_wf (h : Memory.wf s0) : ∀ t, placeBatch n s0 = some t → Memory.wf t := by
  unfold placeBatch
  dsimp only
  split
  · exact wf_none
  · exact wf_some (runBatch_wf (openPart_wf (openLaunches_wf h)))
theorem restoreSeat_wf {xs : List Return} (h : Memory.wf s) : ∀ t, restoreSeat n xs s = some t → Memory.wf t := by
  unfold restoreSeat
  dsimp only
  split
  · exact wf_some (wf_foldl (fun _ _ h1 => restoreTo_wf h1) h)
  · exact wf_ite_some wf_none (wf_findSome (fun _ => wf_ite_some
      (wf_ite_some (wf_some (wf_foldl (fun _ _ h1 => restoreTo_wf h1) (wf_foldl (fun _ _ h1 => h1) h))) wf_none)
      wf_none))
theorem wf_foldl_bind {α : Type} {f : α → State → Option State} {xs : List α} {o : Option State}
    (hf : ∀ x s, Memory.wf s → ∀ t, f x s = some t → Memory.wf t) (ho : ∀ t, o = some t → Memory.wf t) :
    ∀ t, xs.foldl (fun a x => a.bind (f x)) o = some t → Memory.wf t := by
  induction xs generalizing o with
  | nil => exact ho
  | cons x xs ih =>
    refine ih fun t e => ?_
    obtain ⟨u, hu, e⟩ := Option.bind_eq_some_iff.1 e
    exact hf x u (ho u hu) t e
theorem restoreCard_wf (h : Memory.wf s) : ∀ t, restoreCard n s = some t → Memory.wf t := by
  unfold restoreCard
  refine wf_ite_some (wf_ite_some wf_none (wf_foldl_bind (fun _ _ h1 => restoreSeat_wf h1) (wf_some h)))
    (wf_ite_some (wf_some (wf_foldl_snd (fun a x h1 => ?_) h)) wf_none)
  split
  · exact restoreSeat_wf h1 _ ‹_›
  · exact h1
theorem reapTeam_wf {tk : Nat} (h : Memory.wf s) : Memory.wf (reapTeam s tk) := wf_ite h h
theorem reapTeams_wf (h : Memory.wf s) : Memory.wf (reapTeams s) :=
  wf_foldl (fun _ _ h1 => wf_ite (reapTeam_wf h1) h1) h
theorem takeRoom_wf (h : Memory.wf s) : ∀ t, takeRoom n s = some t → Memory.wf t := by
  unfold takeRoom
  split
  · rename_i e
    exact wf_some (restoreCard_wf h _ e)
  · split
    · exact placeLanes_wf h
    · exact wf_ite_some (placeChain_wf h) wf_none
    · exact wf_ite_some (placeBatch_wf h) wf_none
theorem preemptFor_wf {xs : List (Nat × Nat)} {t : State} (h : Memory.wf s) :
    ∀ u, preemptFor n xs t s = some u → Memory.wf u := by
  induction xs generalizing t s with
  | nil => exact wf_ite_some (wf_some h) wf_none
  | cons x xs ih => exact wf_ite_some (wf_some h) (ih (askPreempt_wf h))
theorem wakeFor_wf (h : Memory.wf s) : Memory.wf (wakeFor n s) := wf_foldl (fun _ _ h1 => wf_ite h1 h1) h
theorem decideCard_wf (h : Memory.wf s) : Memory.wf (decideCard s n) := by
  refine wf_ite h (wf_ite h ?_)
  split
  · rename_i e
    exact wf_ite h (wf_ite (setCardFld_wf (takeRoom_wf h _ e)) (takeRoom_wf h _ e))
  · refine wf_ite h ?_
    dsimp only
    split
    · exact preemptFor_wf h _ ‹_›
    · exact wakeFor_wf h
theorem setScan_wf {x : Scan} (h : Memory.wf s) : Memory.wf (setScan x s) := h
theorem drainCore_wf {c : Nat} (h : Memory.wf s) : Memory.wf (drainCore c s) :=
  setScan_wf (wf_foldl (fun _ _ h1 => askPreempt_wf h1) h)
theorem grantScan_wf {c : Nat} (h : Memory.wf s) : Memory.wf (grantScan c s) := wf_ite h (drainCore_wf h)
theorem wantScan_wf {c : Nat} (h : Memory.wf s) : Memory.wf (wantScan c s) := wf_ite h (wf_ite h (grantScan_wf h))
theorem askScan_wf {c : Nat} (h : Memory.wf s) : Memory.wf (askScan c s) := wf_ite h h
theorem askedScans_wf (h : Memory.wf s) : Memory.wf (askedScans s) := wf_foldl (fun _ _ h1 => wantScan_wf h1) h
theorem dispatch_wf (h : Memory.wf s) : Memory.wf (dispatch s) :=
  wf_ite (askedScans_wf (reapTeams_wf (chargeAll_wf h)))
    (wf_foldl (fun _ _ h1 => decideCard_wf h1) (askedScans_wf (reapTeams_wf (chargeAll_wf h))))

/-! ### Machine/Island -/

theorem modJob_wf {j : Job} {f : Job → Job} (h : Memory.wf s) : Memory.wf (modJob k j f s) := h
theorem handClock_wf {j : Job} (h : Memory.wf s) : Memory.wf (handClock k j s) := by
  unfold handClock
  split
  · exact wf_ite h h
  · exact h
theorem failJob_wf {j : Job} {err : Nat} (h : Memory.wf s) : Memory.wf (failJob k j err s) :=
  wf_ite (killCard_wf (modJob_wf (handClock_wf h))) (decisionPoint_wf (modJob_wf (handClock_wf h)))
theorem setSuspStat_wf (h : Memory.wf s) : Memory.wf (setSuspStat x s) := h
theorem suspGo_wf {by_ : Option Nat} {addr : Nat} (h : Memory.wf s) : Memory.wf (suspGo by_ addr s) := by
  refine wf_ite h ?_
  dsimp only
  split
  · exact askPreempt_wf (wf_foldl (fun _ _ h1 => wf_foldl (fun _ _ h2 => wf_ite (askPart_wf h2) h2) h1) h)
  · exact wf_foldl (fun _ _ h1 => wf_foldl (fun _ _ h2 => wf_ite (askPart_wf h2) h2) h1) h

/-! ### Machine/Write -/

theorem modCmd_wf {id : Nat} {f : Cmd → Cmd} (h : Memory.wf s) : Memory.wf (modCmd id f s) := h
theorem applyReply_wf {r : FaultRec} {code : Nat} (h : Memory.wf s) : Memory.wf (applyReply r code s) := by
  unfold applyReply
  split
  · exact h
  · exact wf_ite h h
  · exact h
  · exact h
  · refine wf_ite ?_ h
    split
    · exact failJob_wf h
    · exact wf_ite (killCard_wf h) h
theorem faultReply_wf {tag code : Nat} (h : Memory.wf s) : Memory.wf (faultReply tag code s) := by
  refine wf_ite h ?_
  split
  · exact h
  · exact wf_ite h (applyReply_wf h)
theorem dropDuty_wf {tag : Nat} (h : Memory.wf s) : Memory.wf (dropDuty tag s) := h
theorem giveRoutes_wf {rs : NMap Nat} (h : Memory.wf s) : Memory.wf (giveRoutes n rs s) :=
  wf_foldl (fun _ _ h1 => wf_ite h1 h1) h
theorem placeReply_wf {mask : Nat} (h : Memory.wf s) : Memory.wf (placeReply n mask s) := by
  refine wf_ite (modRun_wf h) ?_
  split
  · rename_i e
    exact setCardFld_wf (takeRoom_wf (modRun_wf h) _ e)
  · exact countReg_wf (modRun_wf h)
theorem dutyAct_wf {d : Duty} {code payload : Nat} (h : Memory.wf s) :
    ∀ t, dutyAct d code payload s = some t → Memory.wf t := by
  unfold dutyAct
  extract_lets _ s1 _ y
  have hs1 : Memory.wf s1 := toIdle_wf h
  have hy : Memory.wf y := h
  split
  · exact wf_some (admitCard_wf (armed_wf h))
  · exact wf_some (rejectRecord_wf hs1)
  · exact wf_some (placeReply_wf h)
  · exact wf_some h
  · exact wf_some (dispatch_wf (replayCard_wf h))
  · split
    · exact wf_some (dispatch_wf (failCard_wf h))
    · exact wf_some h
  · exact wf_some (grantScan_wf h)
  · exact wf_some h
  · exact wf_some (giveRoutes_wf h)
  · exact wf_ite_some (wf_some hy) wf_none
  · exact wf_none
theorem dutyReply_wf {tag code : Nat} (h : Memory.wf s) : Memory.wf (dutyReply tag code s) := by
  unfold dutyReply
  split
  · exact countReg_wf h
  · refine wf_ite (countReg_wf (dropDuty_wf h)) ?_
    split
    · exact dutyAct_wf (dropDuty_wf h) _ ‹_›
    · exact countReg_wf h
theorem armWrite_wf {path : ArmPath} (h : Memory.wf s) : Memory.wf (armWrite path x s) := armCard_wf h
theorem disarmCard_wf (h : Memory.wf s) : Memory.wf (disarmCard n s) := wf_ite h (wf_ite h (toIdle_wf h))
theorem readyPending_wf (h : Memory.wf s) : Memory.wf (readyPending s) := by
  refine wf_foldl (fun _ _ h1 => ?_) h
  split
  · exact wf_ite (makeReady_wf h1) h1
  · exact h1
theorem dctlSet_wf (h : Memory.wf s) : Memory.wf (dctlSet s) := dispatch_wf (wf_ite (readyPending_wf h) h)
theorem cardWrite_wf (h : Memory.wf s) : Memory.wf (cardWrite off x s) := wf_ite h (setCardFld_wf h)
theorem tlbinvWrite_wf (h : Memory.wf s) : Memory.wf (tlbinvWrite x s) := wf_ite h h
theorem regLimWrite_wf {pid : Nat} (h : Memory.wf s) : Memory.wf (regLimWrite pid x s) :=
  setReg_wf (wf_foldl (fun _ _ h1 => h1) h)
theorem hienWrite_wf (h : Memory.wf s) : Memory.wf (hienWrite x s) := wf_foldl (fun _ _ h1 => sendMsi_wf h1) h
theorem lkctlWrite_wf (h : Memory.wf s) : Memory.wf (lkctlWrite n x s) := wf_ite h h
theorem treeApply_wf {who : Agent} {bytes : List Nat} (h : Memory.wf s) : Memory.wf (treeApply who off x bytes s) := by
  unfold treeApply
  extract_lets _ s1 _ _ s11 s2 s3
  have hs1 : Memory.wf s1 := by
    subst s1
    split <;> exact h
  have hs11 : Memory.wf s11 := wf_ite hs1 hs1
  have hs2 : Memory.wf s2 := wf_ite hs11 hs11
  have hs3 : Memory.wf s3 := wf_ite (treeCfg_wf hs2) hs2
  split
  · exact treeCfg_wf hs1
  · exact wf_ite (treeCfg_wf hs3) hs3
  · exact wf_ite (treeCfg_wf hs1) hs1
  · exact treeCfg_wf hs1
  · exact hs1
theorem treeWrite_wf {who : Agent} {bytes : List Nat} (h : Memory.wf s) : Memory.wf (treeWrite who off x bytes s) :=
  wf_ite h (treeApply_wf h)
theorem treeDrain_wf {x : List TreeWait} (h : Memory.wf s) : Memory.wf (treeDrain n x s) := by
  induction x generalizing s with
  | nil => exact h
  | cons x xs ih => exact wf_ite (ih (treeApply_wf h)) (ih h)
theorem treeCleared_wf (h : Memory.wf s) : Memory.wf (treeCleared n s) := wf_ite (treeDrain_wf h) h
theorem wakesetWrite_wf {who : Agent} (h : Memory.wf s) : Memory.wf (wakesetWrite who x s) := wakeMask_wf (wf_ite h h)
theorem mbWrite_wf (h : Memory.wf s) : Memory.wf (mbWrite x s) := wf_ite h h
theorem hbapWrite_wf (h : Memory.wf s) : Memory.wf (hbapWrite x s) := wf_ite h h
theorem tsetWrite_wf (h : Memory.wf s) : Memory.wf (tsetWrite x s) := wf_ite h h
theorem nwf_putAll {xs m : List Host.Cell} (h : nwf 0 m = true) :
    nwf 0 (xs.foldl (fun m x => memSet m x.1 x.2) m) = true := by
  induction xs generalizing m with
  | nil => exact h
  | cons x xs ih => exact ih (nwf_memSet x.1 x.2 h)
theorem moveOchre_wf {w : Nat} (h : Memory.wf s0) : Memory.wf (moveOchre w s0) := by
  unfold moveOchre
  refine wf_ite h ?_
  exact nwf_putAll (nwf_filter _ (nwf_putAll (nwf_filter _ (wf_foldl (fun _ _ h1 => evictLine_wf h1) h))))
theorem regWrite_wf {who : Agent} {bytes : List Nat} (h : Memory.wf s) : Memory.wf (regWrite who off x bytes s) := by
  unfold regWrite
  refine wf_ite h ?_
  split
  · exact h
  · exact h
  · exact h
  · split
    · exact armWrite_wf h
    · exact armWrite_wf h
    · exact disarmCard_wf h
    · exact dutyReply_wf h
    · exact askScan_wf h
    · exact faultReply_wf h
    · exact tsetWrite_wf h
    · exact wakesetWrite_wf h
    · exact wf_ite (suspGo_wf h) h
    · exact hbapWrite_wf h
    · exact mbWrite_wf h
    · exact h
  · refine wf_ite (cardWrite_wf h) (wf_ite (wf_ite (wf_ite (dctlSet_wf h) h) h) ?_)
    exact wf_ite (tlbinvWrite_wf h) (wf_ite (regLimWrite_wf h)
      (wf_ite (hienWrite_wf h) (wf_ite (treeWrite_wf h) (wf_ite h
      (wf_ite (lkctlWrite_wf h) (wf_ite h (wf_ite (setReg_wf (moveOchre_wf h)) (wf_ite h h))))))))
theorem regStore_wf {who : Agent} {bs : List Byte} (h : Memory.wf s) : Memory.wf (regStore who off bs s) :=
  wf_ite h (wf_ite h (regWrite_wf h))
theorem busWrite_wf {who : Agent} {bs : List Byte} (h : Memory.wf s) : Memory.wf (busWrite who pa bs partid s) := by
  unfold busWrite
  split
  · exact regStore_wf h
  · exact l2Write_wf _ _ _ h

/-! ### Machine/Perform -/

theorem putV_wf {l : Nat} (h : Memory.wf s) : Memory.wf (putV n l x s g) := by
  unfold putV
  split
  · exact h
  · exact engineWrite_wf h
theorem putV64_wf {l : Nat} (h : Memory.wf s) : Memory.wf (putV64 n l x s g) := putV_wf (putV_wf h)
theorem putU_wf (h : Memory.wf s) : Memory.wf (putU n x s g) := engineWrite_wf h
theorem putP_wf {xs : List (Nat × Bool)} (h : Memory.wf s) : Memory.wf (putP n xs s g) := engineWrite_wf h
theorem putLoad_wf {d : Nat} {l : Nat} (h : Memory.wf s) : Memory.wf (putLoad d ty unif l x s g) :=
  wf_ite (putU_wf h) (wf_ite (putV64_wf h) (putV_wf h))
theorem putAtom_wf {d l : Nat} (h : Memory.wf s) : Memory.wf (putAtom ty d l x s g) :=
  wf_ite (putV64_wf h) (putV_wf h)
theorem forGroups_wf {gs : List Nat} {f : State → Nat → State} (hf : ∀ t x1, Memory.wf t → Memory.wf (f t x1))
    (h : Memory.wf s) : Memory.wf (forGroups gs f s) := wf_foldl (fun _ _ h1 => hf _ _ h1) h
theorem rotFor_wf (h : Memory.wf s) : Memory.wf (rotFor seq s g) := by
  unfold rotFor
  split <;> exact h
theorem landHeld_wf (h : Memory.wf s) : Memory.wf (landHeld seq s g) := wf_ite h (deliver_wf h)
theorem poisonEnds_wf (h : Memory.wf s) : Memory.wf (poisonEnds g seq va s) := h
theorem cleanSector_wf (h : Memory.wf s) : ∀ t, cleanSector lk partid pa s = some t → Memory.wf t :=
  wf_ite_some (wf_some h) (wf_ite_some (wf_some (countFor_wf (zeroSector_wf h))) wf_none)
theorem lowLine_wf (h : Memory.wf s) : Memory.wf (lowLine pa s) := by
  unfold lowLine
  split <;> exact h
theorem launchPut_wf {but : Option (Nat × Nat)} {core : Nat} (h : Memory.wf s) :
    Memory.wf (launchPut mt but lk core va pa bytes partid s) := by
  unfold launchPut
  split
  · exact regStore_wf (extEff_wf h)
  · exact launchWriteAs_wf h
theorem putSector_wf {e : HB} {bytes : NMap Byte} (h : Memory.wf s) : Memory.wf (putSector e va pa bytes s) :=
  wf_ite (lowLine_wf (wf_foldl (fun _ _ h1 => launchPut_wf h1) h)) (wf_foldl (fun _ _ h1 => launchPut_wf h1) h)
theorem atomLane_wf {e : HB} {d : Option Nat} {gs : List Nat} {a : AtomLane} (h : Memory.wf s) :
    Memory.wf (atomLane e op ty d gs s a) := by
  unfold atomLane
  dsimp only
  split
  · exact launchPut_wf h
  · exact forGroups_wf (fun _ _ h1 => putAtom_wf h1) (launchPut_wf h)
theorem performAtom_wf {e : HB} {d : Option Nat} {lanes : List AtomLane} {gs : List Nat} (h : Memory.wf s) :
    Memory.wf (performAtom e op ty d lanes gs s) := by
  unfold performAtom
  split
  · exact h
  · split
    · exact h
    · rename_i e
      exact wf_foldl (fun _ _ h1 => atomLane_wf h1) (cleanSector_wf h _ e)
theorem performDevLoad_wf {e : HB} {d : Nat} {lane : Nat} {gs : List Nat} (h : Memory.wf s) :
    Memory.wf (performDevLoad e d ty unif lane va pa gs s) := by
  unfold performDevLoad
  dsimp only
  split
  · exact forGroups_wf (fun _ _ h1 => putLoad_wf h1) (extEff_wf h)
  · exact wf_ite (forGroups_wf (fun _ _ h1 => putLoad_wf h1) (countFor_wf (extEff_wf h)))
      (poisonEnds_wf (extEff_wf h))
theorem performDevAtom_wf {e : HB} {d : Option Nat} {a : AtomLane} {gs : List Nat} (h : Memory.wf s) :
    Memory.wf (performDevAtom e op ty d a gs s) := by
  unfold performDevAtom
  dsimp only
  split
  · refine wf_ite (poisonEnds_wf (extEff_wf h)) ?_
    split
    · exact busWrite_wf (wf_ite (countFor_wf (extEff_wf h)) (extEff_wf h))
    · exact forGroups_wf (fun _ _ h1 => putAtom_wf h1) (busWrite_wf
        (wf_ite (countFor_wf (extEff_wf h)) (extEff_wf h)))
  · exact performAtom_wf (extEff_wf h)
theorem performDevFill_wf {e : HB} {tk gran : Nat} (h : Memory.wf s) :
    Memory.wf (performDevFill e tk half gran va pa s) :=
  wf_ite (poisonEnds_wf (extEff_wf h)) (putFill_wf (wf_ite (countFor_wf (extEff_wf h)) (extEff_wf h)))
theorem performTb_wf {e : HB} {x : Int} (h : Memory.wf s) : Memory.wf (performTb e op va pa x s) := by
  unfold performTb
  split
  · exact h
  · rename_i e
    exact wf_ite (cleanSector_wf h _ e) (launchPut_wf (cleanSector_wf h _ e))
theorem performLine_wf (h : Memory.wf s) : Memory.wf (performLine pa s) := writeBack_wf (writeBack_wf h)
theorem performInv_wf (h : Memory.wf s) : Memory.wf (performInv pa s) := wf_mk (dropL1_wf (evictLine_wf h))
theorem performOutput_wf {e : HB} {tail : Nat} (h : Memory.wf s) : Memory.wf (performOutput e lk va pa bytes tail s) :=
  wf_ite h (launchPut_wf h)
theorem treeResults_wf {o : TreeOut} (h : Memory.wf s) : Memory.wf (treeResults o s g) := by
  unfold treeResults
  extract_lets s1 s2
  have hs1 : Memory.wf s1 := wf_foldl (fun _ _ h1 => putV_wf h1) h
  have hs2 : Memory.wf s2 := by
    subst s2
    split
    · exact hs1
    · exact putP_wf hs1
  split
  · exact hs2
  · exact putU_wf hs2
theorem performTree_wf {e : HB} {c : TreeCmd} {gs : List Nat} (h : Memory.wf s) : Memory.wf (performTree e n c gs s) :=
  forGroups_wf (fun _ _ h1 => treeResults_wf h1) (treePerform_wf (wf_ite (extEff_wf h) h))
theorem performSys_wf {e : HB} {c : SysCmd} {gs : List Nat} (h : Memory.wf s0) : Memory.wf (performSys e c gs s0) := by
  unfold performSys
  extract_lets lk s
  have hs : Memory.wf s := by
    subst s
    split
    · exact h
    · exact extEff_wf h
  clear_value s
  split
  · exact wf_ite (modPair_wf hs) (wf_foldl (fun _ _ h1 => wf_mk h1) hs)
  · exact wakeMask_wf hs
  · exact forGroups_wf (fun _ _ h1 => putU_wf h1) (wf_mk hs)
  · exact armCard_wf hs
  · exact hs
  · exact suspGo_wf hs
  · exact faultReply_wf hs
theorem performHeld_wf {e : HB} (h : Memory.wf s) : Memory.wf (performHeld e s) := by
  unfold performHeld
  dsimp only
  split
  · exact putSector_wf h
  · exact performAtom_wf h
  · exact performDevLoad_wf h
  · exact performDevAtom_wf h
  · exact performDevFill_wf h
  · exact performTb_wf h
  · exact performLine_wf h
  · exact performInv_wf h
  · exact performTree_wf h
  · exact performSys_wf h
  · exact busWrite_wf h
  · exact performOutput_wf h
theorem dropEntry_wf (h : Memory.wf s) : Memory.wf (dropEntry pr n s) := h
theorem freeDests_wf (h : Memory.wf s) : Memory.wf (freeDests seq s g) := by
  unfold freeDests
  split
  · exact h
  · refine wf_foldl (fun _ _ h1 => ?_) h
    split
    · exact wf_foldl (fun _ _ h2 => putV_wf h2) h1
    · exact putU_wf h1
    · exact putP_wf h1
    · exact h1
theorem spoilt_wf {e : HB} (h : Memory.wf s) : Memory.wf (spoilt e s) :=
  forGroups_wf (fun _ _ h1 => freeDests_wf h1) (wf_foldl (fun _ _ h1 => poisonSector_wf h1) h)
theorem spoilEntry_wf (h : Memory.wf s) : Memory.wf (spoilEntry pr n s) := h
theorem performAt_wf {e : HB} (h : Memory.wf s0) : Memory.wf (performAt pr n e s0) := by
  unfold performAt
  extract_lets _ s s1
  have hs : Memory.wf s := wf_ite (forGroups_wf (fun _ _ h1 => rotFor_wf h1) h) h
  have hs1 : Memory.wf s1 := dropEntry_wf (wf_ite (spoilt_wf hs) (performHeld_wf hs))
  exact wf_ite hs1 (forGroups_wf (fun _ _ h1 => landHeld_wf h1) hs1)
theorem entryServed_wf {e : HB} (h : Memory.wf s) : Memory.wf (entryServed e s).2 :=
  wf_ite_snd h (wf_ite_snd h (askReads_wf h))
theorem performReady_wf {e : HB} (h : Memory.wf s) : Memory.wf (performReady pr n e s) :=
  wf_ite (performAt_wf (entryServed_wf h)) (entryServed_wf h)
theorem drainEntry_wf {want : HB → Bool} (h : Memory.wf s) : Memory.wf (drainEntry pr n want s) := by
  unfold drainEntry
  split
  · exact h
  · exact wf_ite (performReady_wf h) h

/-! ### Machine/Seal -/

theorem closeNow_wf (h : Memory.wf s) : Memory.wf (closeNow pr s) := dispatch_wf (closePair_wf h)
theorem timedClose_wf (h : Memory.wf s) : Memory.wf (timedClose pr s) := wf_ite (closeNow_wf h) h
theorem wordCountClose_wf (h : Memory.wf s) : Memory.wf (wordCountClose pr s) := wf_ite (closeNow_wf h) h
theorem capacityClose_wf (h : Memory.wf s) : Memory.wf (capacityClose pr s) := wf_ite (closeNow_wf h) h
theorem detCloseNow_wf (h : Memory.wf s) : Memory.wf (detCloseNow g s) :=
  wf_ite h (wf_ite (closeGroup_wf (detClose_wf h)) (detClose_wf h))
theorem sealGroup_wf (h : Memory.wf s) : Memory.wf (sealGroup s g) := by
  unfold sealGroup
  dsimp only
  split
  · exact h
  · exact wf_ite (freePorts_wf h) (freePorts_wf (wf_ite h h))
theorem sealPair_wf (h : Memory.wf s0) : Memory.wf (sealPair pr s0) := by
  unfold sealPair
  split
  · exact h
  · exact wf_ite (wf_foldl (fun _ _ h1 => h1) h) (modPair_wf
      (wf_foldl (fun _ _ h1 => sealGroup_wf h1) (wf_foldl (fun _ _ h1 => h1) h)))
theorem sealDet_wf (h : Memory.wf s0) : Memory.wf (sealDet g s0) := wf_ite (modPair_wf (sealGroup_wf h)) h
theorem commitTreg_wf {t : TeamWrite} (h : Memory.wf s) : Memory.wf (commitTreg pr t s) := modPair_wf (writeItem_wf h)
theorem endCommit_wf (h : Memory.wf s) : Memory.wf (endCommit n s) :=
  wf_foldl (fun _ _ h1 => freePorts_wf h1) (wf_mk (wf_foldl (fun _ _ h1 => h1) (wf_foldl (fun _ _ h1 => h1) h)))
theorem mismatchLost_wf (h : Memory.wf s) : Memory.wf (mismatchLost n s) :=
  killCard_wf (wf_foldl (fun _ _ h1 => wf_ite (wf_foldl (fun _ _ h2 => askScan_wf h2) h1)
    (wf_foldl (fun _ _ h2 => h2) h1)) h)
theorem compareCopies_wf (h : Memory.wf s) : Memory.wf (compareCopies n s) :=
  wf_ite h (wf_ite (wf_foldl (fun _ _ h1 => h1) h) (wf_ite
    (wf_foldl (fun _ _ h1 => rollPair_wf h1) (modRun_wf (countReg_wf (wf_foldl (fun _ _ h1 => h1) h))))
    (mismatchLost_wf h)))
theorem startWave_wf (h : Memory.wf s) : Memory.wf (startWave n s) :=
  wf_ite (dispatch_wf (wf_foldl (fun _ _ h1 => h1) h)) h

/-! ### Machine/Engines -/

theorem meetPois_wf {c : Cmd} {xs : List Nat} (h : Memory.wf s) : Memory.wf (meetPois c xs s) := countFor_wf h
theorem localSource_wf {c : Cmd} {xs : List Int} (h : Memory.wf s) : Memory.wf (localSource c xs s).2 :=
  wf_ite (meetPois_wf h) h
theorem globalSource_wf {c : Cmd} {ch : Nat} {xs : List Nat} (h : Memory.wf s) :
    Memory.wf (globalSource c ch xs s).2 := by
  unfold globalSource
  extract_lets _ _ _ r s1 _ _ s11 q s2
  have hr : Memory.wf r.2.2 := xlatePages_wf h
  have hs1 : Memory.wf s1 := hr
  have hs11 : Memory.wf s11 := wf_ite (extEff_wf hs1) hs1
  have hq : Memory.wf q.2 := askReads_wf hs11
  have hs2 : Memory.wf s2 := hq
  exact wf_ite_snd hs1 (wf_ite_snd hs1 (wf_ite_snd (wf_ite_snd hs1 hs1)
    (wf_ite_snd hs1 (wf_ite_snd hs1 (wf_ite_snd hs2 (wf_ite (meetPois_wf hs2) hs2))))))
theorem chunkSource_wf {c : Cmd} {ch : Nat} (h : Memory.wf s) : Memory.wf (chunkSource c ch s).2 := by
  unfold chunkSource
  split
  · exact h
  · exact wf_ite_snd (localSource_wf h) (globalSource_wf h)
theorem globalDest_wf {c : Cmd} {pages : NMap Nat} {xs : List (Nat × Byte × Bool)} (h : Memory.wf s) :
    Memory.wf (globalDest c pages xs s) :=
  wf_foldl (fun _ _ h1 => poisonSector_wf h1) (wf_foldl
    (fun _ _ h1 => wf_ite (lowLine_wf (wf_foldl (fun _ _ h2 => launchPut_wf h2) h1))
    (wf_foldl (fun _ _ h2 => launchPut_wf h2) h1)) h)
theorem localDest_wf {c : Cmd} {xs : List (Nat × Byte × Bool)} (h : Memory.wf s) : Memory.wf (localDest c half xs s) :=
  wf_foldl (fun _ _ h1 => engineWrite_wf h1) (wf_foldl (fun _ _ h1 => engineWrite_wf h1)
    (wf_foldl (fun _ _ h1 => wf_foldl (fun _ _ h2 => wf_foldl (fun _ _ h3 => engineWrite_wf h3) h2) h1) h))
theorem destPages_wf {c : Cmd} {ch : Nat} {xs : List Nat} (h : Memory.wf s) : Memory.wf (destPages c ch xs s).2.2 :=
  wf_ite_snd_snd h (xlatePages_wf h)
theorem walkEnds_wf {c : Cmd} (h : Memory.wf s) : Memory.wf (walkEnds c s) := wf_ite (killCard_wf h) h
theorem writeChunk_wf {c : Cmd} {ch : Nat} {bs : List (Byte × Bool)} {pages : NMap Nat} (h : Memory.wf s) :
    Memory.wf (writeChunk c ch bs pages s) :=
  modCmd_wf (wf_ite (globalDest_wf h) (wf_ite (wf_foldl (fun _ _ h1 => localDest_wf h1) h) h))
theorem destServed_wf {c : Cmd} {ch : Nat} {pages : NMap Nat} (h : Memory.wf s) :
    Memory.wf (destServed c ch pages s).2 := wf_ite_snd h (wf_ite_snd h (askReads_wf h))
theorem runChunk_wf {c : Cmd} {ch : Nat} (h : Memory.wf s) : Memory.wf (runChunk c ch s) := by
  unfold runChunk
  extract_lets r d q
  have hr : Memory.wf r.2 := chunkSource_wf h
  have hd : Memory.wf d.2.2 := destPages_wf hr
  have hq : Memory.wf q.2 := destServed_wf hd
  refine wf_ite h ?_
  split
  · exact hr
  · exact walkEnds_wf hr
  · extract_lets _ _ s1
    have hs1 : Memory.wf s1 := hd
    refine wf_ite hd (wf_ite (walkEnds_wf hd) (wf_ite hs1 ?_))
    split
    · exact wf_ite hq (writeChunk_wf hq)
    · exact hd
theorem copyChunk_wf {id ch : Nat} (h : Memory.wf s) : Memory.wf (copyChunk k id ch s) := by
  unfold copyChunk
  split
  · exact h
  · exact wf_ite (runChunk_wf h) h
theorem cpytStart_wf {id : Nat} (h : Memory.wf s) : Memory.wf (cpytStart k id s) := by
  unfold cpytStart
  split
  · exact h
  · exact wf_ite h h
theorem readAll_wf {c : Cmd} {x : List Nat} (h : Memory.wf s) : Memory.wf (readAll c x s).2 := by
  induction x generalizing s with
  | nil => exact h
  | cons x xs ih =>
    rw [readAll]
    split
    · exact ih (chunkSource_wf h)
    · exact chunkSource_wf h
theorem freeCmdLocks_wf {id : Nat} {kinds : List Nat} (h : Memory.wf s) : Memory.wf (freeCmdLocks k id kinds s) := h
theorem sourceDone_wf {id : Nat} (h : Memory.wf s) : Memory.wf (sourceDone k id s) := by
  unfold sourceDone
  split
  · exact h
  · refine wf_ite h ?_
    dsimp only
    split
    · exact readAll_wf h
    · exact freeCmdLocks_wf (modCmd_wf (readAll_wf h))
theorem applyCredit_wf {c : Cmd} (h : Memory.wf s) : Memory.wf (applyCredit c s).2 := by
  unfold applyCredit
  refine wf_ite_snd h (wf_ite_snd ?_ (wf_ite_snd h ?_))
  · split
    · exact h
    · exact wf_ite_snd (engineWrite_wf h) h
  · have hx := xlateFor_wf (k := c.core) (lk := c.lk) (va := c.compAddr) (a := .atomic) h
    extract_lets r
    have hr : Memory.wf r.2 := hx
    clear_value r
    split
    · exact wf_ite_snd hr (wf_ite_snd (walkEnds_wf hr) (modCmd_wf (wf_mk hr)))
    · extract_lets q
      have hq : Memory.wf q.2 := wf_ite_snd hr (askRead_wf hr)
      clear_value q
      refine wf_ite_snd hq ?_
      split
      · exact poisonEnds_wf hq
      · rename_i e
        have h1 := cleanSector_wf hq _ e
        exact wf_ite_snd (launchPut_wf h1) h1
theorem advanceFilled_wf {c : Cmd} (h : Memory.wf s) : Memory.wf (advanceFilled k c x s) := by
  induction x generalizing s with
  | zero => exact h
  | succ x ih =>
    rw [advanceFilled]
    split
    · exact h
    · exact ih (modCore_wf (engineWrite_wf h))
theorem finishCmd_wf {c : Cmd} (h : Memory.wf s) : Memory.wf (finishCmd k c s) :=
  wf_ite (advanceFilled_wf h) (wf_ite (applyCredit_wf h)
    (wf_ite (runBatch_wf (modCore_wf (applyCredit_wf h))) (modCore_wf (applyCredit_wf h))))
theorem completeCmd_wf {pull : Bool} {id : Nat} (h : Memory.wf s) : Memory.wf (completeCmd pull k id s) := by
  unfold completeCmd
  split
  · exact h
  · exact wf_ite (finishCmd_wf h) h
theorem beginPulls_wf {w : Watch} {t : Nat} (h : Memory.wf s) : Memory.wf (beginPulls k w t x s) := by
  induction x generalizing s with
  | zero => exact h
  | succ x ih => exact wf_ite h (ih (modCore_wf (engineWrite_wf h)))
theorem observeTail_wf (h : Memory.wf s) : Memory.wf (observeTail k n s) := by
  unfold observeTail
  split
  · exact h
  · extract_lets r
    have hr : Memory.wf r.2 := xlateFor_wf h
    refine wf_ite h ?_
    split
    · exact wf_ite hr hr
    · extract_lets q s1
      have hq : Memory.wf q.2 := wf_ite_snd hr (askRead_wf hr)
      have hs1 : Memory.wf s1 := hq
      exact wf_ite hs1 (wf_ite (beginPulls_wf hs1) hs1)
theorem reserveSlot_wf {c : Cmd} (h : Memory.wf s) : ∀ t, reserveSlot k c s = some t → Memory.wf t.2 := by
  unfold reserveSlot
  split
  · exact wf_some_snd h
  · exact wf_ite_some_snd (wf_some_snd h) (wf_ite_some_snd wf_none_snd (wf_some_snd (modCmd_wf (engineWrite_wf h))))
theorem commitCopy_go_wf {c0 : Cmd} (h : Memory.wf s) : Memory.wf (commitCopy.go k c0 s) := by
  unfold commitCopy.go
  split
  · exact h
  · extract_lets second idx pairs s1 s2
    have hs1 : Memory.wf s1 := by
      subst s1
      rename_i e
      exact wf_ite (reserveSlot_wf h _ e) (modCmd_wf (reserveSlot_wf h _ e))
    have hs2 : Memory.wf s2 := by
      subst s2
      refine wf_ite hs1 (wf_foldl (fun _ _ h1 => ?_) hs1)
      split
      · exact runChunk_wf h1
      · exact h1
    split
    · exact hs2
    · exact wf_ite hs2 (finishCmd_wf hs2)
theorem commitCopy_wf {c0 : Cmd} (h : Memory.wf s) : Memory.wf (commitCopy k c0 s) := by
  unfold commitCopy
  split
  · exact wf_ite (commitCopy_go_wf h) h
  · exact commitCopy_go_wf h
theorem applyComm_wf {x : Comm} (h : Memory.wf s) : Memory.wf (applyComm n x s) := by
  unfold applyComm
  split
  · exact wf_ite (landHeld_wf h) (wf_ite h (wf_ite h (performReady_wf h)))
  · exact commitCopy_wf h
  · exact commitTreg_wf h
theorem commitStep_wf (h : Memory.wf s) : Memory.wf (commitStep n s) := by
  refine wf_ite h ?_
  split
  · exact endCommit_wf (wf_foldl (fun _ _ h1 => h1) h)
  · exact applyComm_wf (wf_foldl (fun _ _ h1 => h1) h)

/-! ### Machine/CardEv -/

theorem nextRelease_wf (h : Memory.wf s) : Memory.wf (nextRelease n s) := setCardFld_wf h
theorem skipRelease_wf (h : Memory.wf s) : Memory.wf (skipRelease n s) :=
  nextRelease_wf (writeRecord_wf (bumpCard_wf h))
theorem pendRelease_wf (h : Memory.wf s) : Memory.wf (pendRelease n s) := wf_ite (skipRelease_wf h) (nextRelease_wf h)
theorem releaseCard_wf (h : Memory.wf s) : Memory.wf (releaseCard n s) := by
  refine wf_ite ?_ (wf_ite (decisionPoint_wf (pendRelease_wf h)) h)
  split
  · exact dispatch_wf (makeReady_wf h)
  · exact wf_ite (decisionPoint_wf (skipRelease_wf h)) h
  · exact wf_ite (dispatch_wf (makeReady_wf (wf_ite (nextRelease_wf h) h))) h
  · exact wf_ite (decisionPoint_wf (pendRelease_wf h)) h
theorem armHandler_wf (h : Memory.wf s) : Memory.wf (armHandler n s).2 := wf_ite_snd h (armCard_wf h)
theorem raiseMiss_wf {inst rel time : Nat} (h : Memory.wf s) : Memory.wf (raiseMiss n inst rel time s) :=
  writeRecord_wf (armHandler_wf (bumpCard_wf (wf_mk h)))
theorem dropPending_wf (h : Memory.wf s) : Memory.wf (dropPending n s) :=
  decisionPoint_wf (leaveInstance_wf (writeRecord_wf h))
theorem missInstance_wf {time : Nat} (h : Memory.wf s) : Memory.wf (missInstance n time s) :=
  wf_ite (killCard_wf (raiseMiss_wf h)) (raiseMiss_wf h)
theorem missPending_wf {time : Nat} (h : Memory.wf s) : Memory.wf (missPending n time s) := by
  unfold missPending
  split
  · exact h
  · exact wf_ite (dropPending_wf (raiseMiss_wf h)) (raiseMiss_wf h)
theorem raiseDue_wf {x : Nat × Nat × Bool} {time : Nat} (h : Memory.wf s) : Memory.wf (raiseDue x time s) :=
  wf_ite (missPending_wf h) (missInstance_wf h)
theorem missDeadline_wf (h : Memory.wf s) : Memory.wf (missDeadline n s) := by
  unfold missDeadline
  split
  · exact raiseDue_wf h
  · exact wf_ite (killCard_wf h) h
theorem raiseBudget_wf {event : Nat} (h : Memory.wf s) : Memory.wf (raiseBudget n event s) :=
  writeRecord_wf (armHandler_wf (bumpCard_wf h))
theorem overrunBudget_wf (h : Memory.wf s) : Memory.wf (overrunBudget n s) := by
  refine wf_ite ?_ h
  dsimp only
  split
  · exact modRun_wf (raiseBudget_wf h)
  · exact killCard_wf (raiseBudget_wf h)
  · exact raiseBudget_wf h
theorem overrunBandwidth_wf (h : Memory.wf s) : Memory.wf (overrunBandwidth n s) :=
  wf_ite (raiseBudget_wf h) (wf_ite (raiseBudget_wf h) h)
theorem reportOverruns_wf (h : Memory.wf s) : Memory.wf (reportOverruns n s) :=
  overrunBudget_wf (wf_foldl (fun _ _ h1 => overrunBandwidth_wf h1) (chargeCard_wf h))
theorem killOver_wf (h : Memory.wf s) : Memory.wf (killOver n s) :=
  wf_ite h (dispatch_wf (killDone_wf (reportOverruns_wf h)))
theorem completeLaunch_wf (h : Memory.wf s0) : Memory.wf (completeLaunch n s0) := by
  unfold completeLaunch
  extract_lets _ _ s1 s
  have hs1 : Memory.wf s1 := wf_ite (missInstance_wf h) h
  have hs : Memory.wf s := wf_ite (reportOverruns_wf hs1) hs1
  exact wf_ite h (wf_ite (dispatch_wf (completeCard_wf hs)) hs)
theorem parkPart_wf {c : Nat} (h : Memory.wf s) : Memory.wf (parkPart lk c s) :=
  modPart_wf (wf_foldl (fun _ _ h1 => h1) (wf_foldl (fun _ _ h1 => h1) h))
theorem capturePart_wf {c : Nat} (h : Memory.wf s) : Memory.wf (capturePart lk c s) := by
  refine wf_ite h (dispatch_wf (parkPart_wf ?_))
  split
  · exact rollTo_wf h
  · exact h
theorem captureWave_wf (h : Memory.wf s) : Memory.wf (captureWave n s) :=
  wf_ite h (dispatch_wf (wf_foldl (fun _ _ h1 => wf_foldl (fun _ _ h2 => wf_ite (parkPart_wf h2) h2) h1)
    (wf_foldl (fun _ _ h1 => rollPair_wf h1) h)))
theorem imageSector_wf (h : Memory.wf s) : Memory.wf (imageSector lk k s) := by
  refine wf_mk ?_
  split
  · exact modPair_wf (wf_mk (cardXlate_wf h))
  · exact cardXlate_wf h
theorem writeImage_wf (h : Memory.wf s) : Memory.wf (writeImage lk k s) := by
  unfold writeImage
  split
  · exact h
  · exact wf_ite h (wf_ite (modPart_wf (wf_ite (imageSector_wf h) h)) (wf_ite (imageSector_wf h) h))
theorem freeContext_wf {c : Nat} (h : Memory.wf s) : Memory.wf (freeContext lk c s) :=
  wf_ite h (dispatch_wf (wf_ite (setCardFld_wf (vacate_wf (wf_foldl (fun _ _ h1 => h1) (chargeCard_wf h))))
    (vacate_wf (wf_foldl (fun _ _ h1 => h1) (chargeCard_wf h)))))
theorem landAll_wf (h : Memory.wf s) : Memory.wf (landAll s g) := wf_foldl (fun _ _ h1 => landHeld_wf h1) h
theorem readImage_wf (h : Memory.wf s) : Memory.wf (readImage lk k s) := by
  refine wf_foldl (fun _ _ h1 => ?_) h
  dsimp only
  split
  · exact l2Fill_wf (cardXlate_wf h1)
  · exact cardXlate_wf h1
theorem restoreDone_wf {c : Nat} (h : Memory.wf s) : Memory.wf (restoreDone lk c s) :=
  wf_ite h (dispatch_wf (wf_foldl (fun _ _ h1 => landAll_wf h1)
    (wf_foldl (fun _ _ h1 => h1) (wf_foldl (fun _ _ h1 => h1)
    (modPart_wf (wf_foldl (fun _ _ h1 => h1) (wf_foldl (fun _ _ h1 => loadPart_wf (readImage_wf h1)) h)))))))

/-! ### Machine/LinkEv -/

theorem deliverPart_wf {port i : Nat} (h : Memory.wf s) : Memory.wf (deliverPart g port i s) := by
  unfold deliverPart
  dsimp only
  split
  · exact h
  · exact wf_ite h h
theorem noteGone_wf (h : Memory.wf s) : Memory.wf (noteGone g seq s) := wf_ite h h
theorem sendPart_wf {i : Nat} (h : Memory.wf s) : Memory.wf (sendPart i s) := by
  unfold sendPart
  split
  · exact h
  · dsimp only
    split
    · exact h
    · exact wf_ite h (extEff_wf (noteGone_wf h))
theorem forwardMsg_wf {i : Nat} {m : Msg} (h : Memory.wf s) : Memory.wf (forwardMsg i m s) := by
  refine wf_ite h ?_
  split
  · exact h
  · exact wf_ite h h
theorem sendMsg_wf {i : Nat} (h : Memory.wf s) : Memory.wf (sendMsg i s) := by
  unfold sendMsg
  split
  · exact h
  · refine wf_ite (forwardMsg_wf h) (wf_ite h (wf_ite (linkUnlock_wf (noteGone_wf h)) ?_))
    split
    · exact h
    · exact wf_ite h (extEff_wf (linkUnlock_wf (noteGone_wf h)))
theorem arriveOwn_wf {i : Nat} (h : Memory.wf s) : Memory.wf (arriveOwn i s) := by
  unfold arriveOwn
  split
  · exact h
  · exact wf_ite h h
theorem arriveMsg_wf {dev src dst chan : Nat} (h : Memory.wf s) : Memory.wf (arriveMsg dev src dst chan bytes s) :=
  wf_ite h h
theorem arriveOnward_wf {dev ddev src dst chan : Nat} (h : Memory.wf s) :
    Memory.wf (arriveOnward dev ddev src dst chan bytes s) := wf_ite h h
theorem arrivePart_wf {dev dst port : Nat} (h : Memory.wf s) : Memory.wf (arrivePart dev dst port bytes s) :=
  wf_ite h h
theorem linkArrive_wf {what i dev src dst chan : Nat} (h : Memory.wf s) :
    Memory.wf (linkArrive what i dev src dst chan bytes s) := by
  unfold linkArrive
  split
  · exact arriveOwn_wf h
  · exact arriveMsg_wf h
  · exact arriveOnward_wf h
  · exact arrivePart_wf h
theorem answer_wf {agent : Nat} {data : Option (List Byte)} (h : Memory.wf s) : Memory.wf (answer agent pa data s) :=
  h
theorem outsideReach_wf {pid : Nat} {touch reads : List Nat} {k : State → State}
    (hk : ∀ t, Memory.wf t → Memory.wf (k t)) (h : Memory.wf s) : Memory.wf (outsideReach n pid touch reads k s) :=
  wf_ite h (wf_ite (hk _ (askReads_wf h)) (askReads_wf h))
theorem outsideAsk_wf {pid : Nat} {k : State → State} (hk : ∀ t, Memory.wf t → Memory.wf (k t)) (h : Memory.wf s) :
    Memory.wf (outsideAsk n pa pid k s) := outsideReach_wf (fun _ h1 => hk _ h1) h
theorem outsideWrite_wf {who : Agent} {bs : List Byte} {pid : Nat} (h : Memory.wf s) :
    Memory.wf (outsideWrite n who pa bs pid s) := outsideReach_wf (fun _ h1 => busWrite_wf h1) h
theorem outsideAtomic_wf {agent : Nat} {who : Agent} {b c pid : Nat} (h : Memory.wf s) :
    Memory.wf (outsideAtomic n agent who pa op ty b c pid s) := by
  refine outsideAsk_wf (fun _ h1 => ?_) h
  split
  · exact answer_wf (busWrite_wf h1)
  · exact h1
theorem remoteRequest_wf {what b c : Nat} (h : Memory.wf s) :
    Memory.wf (remoteRequest what pa op ty b c partid bytes s) := by
  unfold remoteRequest
  dsimp only
  split
  · exact outsideAsk_wf (fun _ h1 => h1) h
  · exact wf_ite h (outsideWrite_wf h)
  · exact wf_ite h (outsideAtomic_wf h)
theorem flitReceive_wf {what : Nat} (h : Memory.wf s) : Memory.wf (flitReceive n what x s) := by
  refine wf_ite h ?_
  split
  · exact h
  · exact wf_ite h h
  · exact wf_ite h h
  · split
    · exact wf_ite h h
    · exact h
  · split
    · exact wf_ite h h
    · exact h
  · exact wf_ite h h
  · exact h
theorem setTstat_wf {bit : Nat} {on : Bool} (h : Memory.wf s) : Memory.wf (setTstat bit on s) :=
  wf_ite h (raiseInt_wf h)
theorem setLlock_wf (h : Memory.wf s) : Memory.wf (setLlock s) := setTstat_wf h
theorem linkRestarted_wf (h : Memory.wf s) : Memory.wf (linkRestarted n s) := wf_ite h h
theorem linkComesUp_wf {peer lanes : Nat} (h : Memory.wf s) : Memory.wf (linkComesUp n peer lanes s) := by
  unfold linkComesUp
  split
  · exact h
  · exact wf_ite h (wf_ite (linkRestarted_wf (setLlock_wf h)) (raiseInt_wf (linkRestarted_wf (setLlock_wf h))))
theorem linkGoesDown_wf (h : Memory.wf s) : Memory.wf (linkGoesDown n s) := by
  unfold linkGoesDown
  split
  · exact h
  · exact wf_ite h (wf_ite (raiseInt_wf (linkRestarted_wf
      (setLlock_wf (setReg_wf (wf_mk (wf_foldl (fun _ _ h1 => h1) h))))))
      (linkRestarted_wf (setLlock_wf (setReg_wf (wf_mk (wf_foldl (fun _ _ h1 => h1) h))))))
theorem retrainLink_wf (h : Memory.wf s) : Memory.wf (retrainLink n s) := wf_ite h (regWrite_wf h)
theorem linkTime_wf {t1 t2 t3 t4 : Nat} (h : Memory.wf s) : Memory.wf (linkTime n t1 t2 t3 t4 s) :=
  wf_ite h (setLlock_wf h)
theorem ptpMessage_wf {m : PtpMsg} {lock : Bool} {t1 t2 t3 t4 : Nat} (h : Memory.wf s) :
    Memory.wf (ptpMessage m lock t1 t2 t3 t4 s) :=
  wf_ite h (setTstat_wf (wf_ite (wf_ite h h) (setReg_wf (wf_mk (wf_ite h h)))))
theorem syncInterval_wf {refTime : Nat} (h : Memory.wf s) : Memory.wf (syncInterval refTime s) := wf_ite h h

/-! ### Machine/DevEv -/

theorem dramError_wf {err pid : Nat} (h : Memory.wf s) : Memory.wf (dramError pa err pid s) := by
  unfold dramError
  split
  · exact h
  · exact h
  · dsimp only
    split
    · exact h
    · exact poisonSector_wf (wf_ite (markDirty_wf _ _ _ h) h)
theorem dramRequest_wf {pid : Nat} {card : Option Nat} {write : Bool} {err : Nat} (h : Memory.wf s) :
    Memory.wf (dramRequest pa pid card write err s) :=
  wf_ite h (wf_ite (writeBack_wf h) (wf_ite h (outsideAsk_wf (fun _ h1 => dramError_wf h1) h)))
theorem patrolRead_wf {err : Nat} (h : Memory.wf s) : Memory.wf (patrolRead pa err s) := wf_ite h (dramError_wf h)
theorem unmapped_wf {write : Bool} (h : Memory.wf s) : Memory.wf (unmapped pa write s) := wf_ite h (wf_ite h h)
theorem setIngest_wf {e : Ingest} (h : Memory.wf s) : Memory.wf (setIngest k e s) := h
theorem countDrop_wf (h : Memory.wf s) : Memory.wf (countDrop k s) := h
theorem ingestWrite_wf {F : Frame} {bs : List Byte} (h : Memory.wf s) : Memory.wf (ingestWrite F pa bs s) :=
  wf_ite h (busWrite_wf h)
theorem beginFrame_wf {rx vc dt : Nat} (h : Memory.wf s) : Memory.wf (beginFrame rx vc dt s k) :=
  wf_ite h (wf_ite h (wf_ite (countDrop_wf (l2Fill_wf (wf_ite h h))) (setIngest_wf (l2Fill_wf (wf_ite h h)))))
theorem frameBegins_wf {rx vc dt : Nat} (h : Memory.wf s) : Memory.wf (frameBegins rx vc dt s) :=
  wf_foldl (fun _ _ h1 => beginFrame_wf h1) h
theorem takeLine_wf {rx vc dt : Nat} {crcErr eccFix : Bool} (h : Memory.wf s) :
    Memory.wf (takeLine rx vc dt crcErr eccFix bytes s k) := by
  unfold takeLine
  dsimp only
  split
  · exact h
  · exact wf_ite h (wf_ite h (setIngest_wf (ingestWrite_wf h)))
theorem frameLine_wf {rx vc dt : Nat} {crcErr eccFix : Bool} (h : Memory.wf s) :
    Memory.wf (frameLine rx vc dt crcErr eccFix bytes s) := wf_foldl (fun _ _ h1 => takeLine_wf h1) h
theorem endFrame_wf {rx vc : Nat} (h : Memory.wf s) : Memory.wf (endFrame rx vc s k) := by
  unfold endFrame
  dsimp only
  split
  · exact h
  · exact wf_ite h (raiseInt_wf (setIngest_wf (ingestWrite_wf (ingestWrite_wf h))))
theorem frameEnds_wf {rx vc : Nat} (h : Memory.wf s) : Memory.wf (frameEnds rx vc s) :=
  wf_foldl (fun _ _ h1 => endFrame_wf h1) h
theorem ethDone_wf {p word1 : Nat} {time : Option Nat} (h : Memory.wf s) : Memory.wf (ethDone p pa word1 time s) := by
  refine l2Write_wf _ _ _ ?_
  split
  · exact l2Write_wf _ _ _ h
  · exact h
theorem ethFrame_wf {p : Nat} {under : Bool} (h : Memory.wf s) : Memory.wf (ethFrame p pa under s) :=
  outsideReach_wf (fun _ h1 => raiseInt_wf (setReg_wf (ethDone_wf h1))) h
theorem ethSend_wf {p : Nat} {under : Bool} (h : Memory.wf s) : Memory.wf (ethSend p under s) :=
  wf_ite h (outsideAsk_wf (fun _ h1 => ethFrame_wf h1) h)
theorem ethFill_wf {p : Nat} {fcsErr : Bool} (h : Memory.wf s) : Memory.wf (ethFill p pa fcsErr bytes s) :=
  outsideReach_wf (fun _ h1 => raiseInt_wf (setReg_wf (ethDone_wf (wf_ite h1 (l2Write_wf _ _ _ h1))))) h
theorem ethReceive_wf {p : Nat} {fcsErr : Bool} (h : Memory.wf s) : Memory.wf (ethReceive p fcsErr bytes s) :=
  wf_ite h (outsideAsk_wf (fun _ h1 => ethFill_wf h1) h)
theorem pcieRefuse_wf {i what : Nat} (h : Memory.wf s) : Memory.wf (pcieRefuse i what a s) := wf_ite h h
theorem pciePerform_wf {i what b c : Nat} {raw : Bool} (h : Memory.wf s) :
    Memory.wf (pciePerform i what pa op ty b c raw bytes s) := by
  unfold pciePerform
  dsimp only
  split
  · exact wf_ite h (wf_ite (outsideReach_wf (fun _ h1 => answer_wf (chargeDram_wf h1)) h)
      (outsideAsk_wf (fun _ h1 => h1) h))
  · exact wf_ite h (wf_ite (outsideReach_wf (fun _ h1 => dramWrite_wf (chargeDram_wf h1)) h) (outsideWrite_wf h))
  · exact wf_ite h (outsideAtomic_wf h)
theorem pcieInbound_wf {i bar what b c : Nat} {raw : Bool} (h : Memory.wf s) :
    Memory.wf (pcieInbound i bar what a op ty b c raw bytes s) := by
  refine wf_ite h ?_
  split
  · exact pcieRefuse_wf h
  · refine wf_ite (pciePerform_wf h) ?_
    dsimp only
    split
    · exact wf_ite (translate_wf h) (pcieRefuse_wf (translate_wf h))
    · exact pciePerform_wf (translate_wf h)
theorem apWrite_wf {island : Bool} {bs : List Byte} (h : Memory.wf s) : Memory.wf (apWrite island pa bs s) := by
  unfold apWrite
  dsimp only
  split
  · exact wf_mk (busWrite_wf h)
  · exact busWrite_wf h
theorem apAccess_wf {island : Bool} {what b c : Nat} (h : Memory.wf s) :
    Memory.wf (apAccess island what pa op ty b c bytes s) := by
  refine wf_ite h ?_
  split
  · exact wf_ite h (outsideAsk_wf (fun _ h1 => h1) h)
  · exact wf_ite h (outsideReach_wf (fun _ h1 => apWrite_wf h1) h)
  · refine wf_ite h (outsideAsk_wf (fun _ h1 => ?_) h)
    split
    · exact answer_wf (apWrite_wf h1)
    · exact h1

/-! ### Machine/Fetch -/

theorem fetchLine_wf (h : Memory.wf s) : Memory.wf (fetchLine g k pa mt s).2 :=
  wf_ite_snd h (wf_ite (l1Fill_wf (askRead_wf h)) (askRead_wf h))
theorem fetchWord_wf (h : Memory.wf s) : Memory.wf (fetchWord s g k va).2 := by
  unfold fetchWord
  dsimp only
  split
  · exact xlate_wf h
  · exact wf_ite_snd (fetchLine_wf (xlate_wf h)) (wf_ite_snd (markRead_wf (fetchLine_wf (xlate_wf h)))
      (wf_ite_snd (countPois_wf (markRead_wf (fetchLine_wf (xlate_wf h)))) (markRead_wf (fetchLine_wf (xlate_wf h)))))
theorem fetchTrap_wf {p : FetchAt} {cls cause addr q : Nat} (h : Memory.wf s) :
    Memory.wf (fetchTrap g p cls cause addr q s) := raiseTrap_wf h
theorem fetchFail_wf {p : FetchAt} {q : Nat} {f : Fetched} (h : Memory.wf s) : Memory.wf (fetchFail g p q f s) := by
  unfold fetchFail
  split
  · exact h
  · exact h
  · exact fetchTrap_wf h
  · exact wf_ite h (wf_ite (fetchTrap_wf h) h)

/-! ### Machine/Sync -/

theorem arriveBar_wf {e : Eff} (h : Memory.wf s) : Memory.wf (arriveBar c n e s) := jw_wf h
theorem barRes_wf (h : Memory.wf s) : Memory.wf (barRes f c s).state :=
  wf_ite_state (wf_ite_state (wf_done (acqEvent_wf (arriveBar_wf h))) (wf_wait (arriveBar_wf h))) (wf_ite_state h h)
theorem baraRes_wf (h : Memory.wf s) : Memory.wf (baraRes f c s).state := wf_done (arriveBar_wf (uwrite_wf h))
theorem barwRes_wf (h : Memory.wf s) : Memory.wf (barwRes f c s).state := wf_ite_state h h
theorem bardRes_wf (h : Memory.wf s) : Memory.wf (bardRes f c s).state := wf_done (arriveBar_wf h)
theorem teamObj_wf {k : Half → TbObj → State → Res} (h : Memory.wf s)
    (hk : ∀ x0 x1 t2, Memory.wf t2 → Memory.wf (k x0 x1 t2).state) : Memory.wf (teamObj c a s k).state := by
  refine wf_ite_state h ?_
  split
  · exact h
  · exact wf_ite_state h (hk _ _ _ (wf_ite (cleanGranule_wf h) h))
theorem tbJw_wf {x : Half} {v : Int} (h : Memory.wf s) : Memory.wf (tbJw c x op v s) := jw_wf h
theorem clusterObj_wf {cnt : Nat} {v : Int} (h : Memory.wf s) : Memory.wf (clusterObj c a op cnt v s).state := by
  unfold clusterObj
  extract_lets r
  have hr : Memory.wf r.2.2 := xlateLanes_wf h
  split
  · exact globalChecks_wf h _ ‹_›
  · refine wf_ite_state (settleLanes_wf (fun _ h1 => h1) h)
      (wf_ite_state (wf_ite_state (wf_done (countPois_wf h)) h) ?_)
    split
    · exact settleLanes_wf (fun _ h1 => h1) hr
    · refine wf_ite_state hr ?_
      split
      · exact holdRoom_wf hr _ ‹_›
      · exact wf_done (hold_wf hr)
theorem tbinitRes_wf (h : Memory.wf s) : Memory.wf (tbinitRes f c s).state :=
  wf_ite_state (clusterObj_wf h) (teamObj_wf h (fun _ _ _ h1 => wf_ite_state h1 (wf_done (tbJw_wf h1))))
theorem tbexpRes_wf (h : Memory.wf s) : Memory.wf (tbexpRes f c s).state :=
  wf_ite_state (clusterObj_wf h) (teamObj_wf h (fun _ _ _ h1 => wf_ite_state h1 (wf_done (tbJw_wf h1))))
theorem tbarrRes_wf (h : Memory.wf s) : Memory.wf (tbarrRes f c s).state :=
  wf_ite_state (clusterObj_wf h) (teamObj_wf h (fun _ _ _ h1 => wf_ite_state h1
    (wf_done (tbJw_wf (wf_ite (uwrite_wf h1) h1)))))
theorem tbwaitRes_wf (h : Memory.wf s) : Memory.wf (tbwaitRes f c s).state := by
  unfold tbwaitRes
  extract_lets _ _ r
  have hr : Memory.wf r.2.2 := xlateLanes_wf h
  refine wf_ite_state ?_ (teamObj_wf h (fun _ _ _ h1 => wf_ite_state h1 (wf_ite_state h1 h1)))
  split
  · exact globalChecks_wf h _ ‹_›
  · refine wf_ite_state (waitEpoch_wf h) (wf_ite_state (settleLanes_wf (fun _ h1 => h1) h)
      (wf_ite_state (wf_ite_state (wf_done (countPois_wf h)) h) ?_))
    split
    · exact settleLanes_wf (fun _ h1 => h1) hr
    · extract_lets s1
      have hs1 : Memory.wf s1 := markRead_wf (cacheRead_wf (readSectors_wf hr))
      exact wf_ite_state hr (wf_ite_state (waitHeld_wf hr)
        (wf_ite_state (waitFor_wf (readSectors_wf hr)) (wf_ite_state (trapAs_wf (wf_ite (countPois_wf hs1) hs1))
        (wf_ite_state hs1 hs1))))
theorem addPool_wf {n : Int} (h : Memory.wf s) : Memory.wf (addPool c n s) := jw_wf h
theorem setBlocks_wf (h : Memory.wf s) : Memory.wf (setBlocks c n s) := jw_wf h
theorem grantClaim_wf (h : Memory.wf s) : Memory.wf (grantClaim f c s) :=
  wf_ite (uwrite_wf (addPool_wf (setBlocks_wf h))) (addPool_wf (setBlocks_wf h))
theorem claimRes_wf (h : Memory.wf s) : Memory.wf (claimRes f c s).state :=
  wf_ite_state (wf_done (grantClaim_wf h)) (wf_ite_state (wf_ite_state (wf_done (uwrite_wf h)) h) h)
theorem grantWaiting_wf {e : Nat} (h : Memory.wf s) : Memory.wf (grantWaiting e s) := by
  unfold grantWaiting
  split
  · refine wf_ite (wf_ite (finish_wf (wf_ite (resolve_wf h) h)) (wf_ite (applyRes_wf h) (applyRes_wf ?_))) h
    unfold checkCharge
    dsimp only
    split
    · exact claimRes_wf h
    · split
      · exact h
      · exact claimRes_wf h
  · exact h
theorem giveRes_wf (h : Memory.wf s) : Memory.wf (giveRes f c s).state :=
  wf_done (wf_foldl (fun _ _ h1 => grantWaiting_wf h1) (addPool_wf
    (setBlocks_wf (wf_foldl (fun _ _ h1 => clearReg_wf h1) h))))
theorem qendRes_wf (h : Memory.wf s) : Memory.wf (qendRes c s).state := wf_done (closeAfter_wf h)
theorem qsealRes_wf (h : Memory.wf s) : Memory.wf (qsealRes c s).state :=
  wf_ite_state (wf_ite_state h (wf_wait (closeAfter_wf h))) (wf_ite_state h h)
theorem twtimeRes_wf (h : Memory.wf s) : Memory.wf (twtimeRes f c s).state := wf_ite_state h h
theorem yieldRes_wf (h : Memory.wf s) : Memory.wf (yieldRes c s).state := wf_ite_state (wf_done (closeAfter_wf h)) h
theorem replan_wf {r : Rot} (h : Memory.wf s) : Memory.wf (replan c r s) := h
theorem rotcfgRes_wf (h : Memory.wf s) : Memory.wf (rotcfgRes f c s).state :=
  wf_done (wf_ite (replan_wf (jw_wf (wf_foldl (fun _ _ h1 => clearReg_wf h1) h)))
    (jw_wf (wf_foldl (fun _ _ h1 => clearReg_wf h1) h)))

/-! ### Machine/GroupEv -/

theorem deliverTo_wf {host : Bool} (h : Memory.wf s) : Memory.wf (deliverTo host s g) := by
  unfold deliverTo
  split
  · exact wf_ite (deliver_wf h) h
  · exact h
theorem deliverHost_wf (h : Memory.wf s) : Memory.wf (deliverHost lk s) :=
  hostDeliver_wf (wf_foldl (fun _ _ h1 => deliverTo_wf h1) h)
theorem releaseClaim_wf (h : Memory.wf s) : Memory.wf (releaseClaim g s) := by
  refine wf_ite h ?_
  split
  · exact h
  · dsimp only
    split
    · exact wordStep_wf (fun _ _ h1 => claimRes_wf h1) h
    · exact wordStep_wf (fun _ _ h1 => claimRes_wf h1) h
    · exact h
theorem putFlight_wf {f : Option Flight} (h : Memory.wf s) : Memory.wf (putFlight g seq f s) := h
theorem landLoad_wf {w : QWord} {addrs : NMap (Nat × Nat)} (h : Memory.wf s) :
    Memory.wf (landLoad g w unif addrs s) := by
  unfold landLoad
  dsimp only
  split
  · exact h
  · exact wf_ite h (raiseTrap_wf h)
theorem fetchSector_wf {p : Piece} (h : Memory.wf s) : Memory.wf (fetchSector g p s).2 :=
  wf_ite_snd h (wf_ite_snd (regFill_wf h) (l1Fill_wf (regFill_wf h)))
theorem takePiece_wf {d : Nat} {addrs : NMap (Nat × Nat)} {p : Piece} (h : Memory.wf s) :
    Memory.wf (takePiece c d ty unif addrs p s).2 :=
  wf_ite_snd h (wf_foldl (fun _ _ h1 => loadPut_wf h1) (wf_ite (countPois_wf (markRead_wf h)) (markRead_wf h)))
theorem sectorReturns_wf (h : Memory.wf s) : Memory.wf (sectorReturns g seq n s) := by
  unfold sectorReturns
  split
  · exact h
  · split
    · exact h
    · exact h
    · split
      · exact h
      · exact wf_ite h (wf_ite h (wf_ite (putFlight_wf (fetchSector_wf h))
          (wf_ite (landLoad_wf (putFlight_wf (takePiece_wf (fetchSector_wf h))))
          (putFlight_wf (takePiece_wf (fetchSector_wf h))))))
theorem walkDone_wf {acc : Nat} (h : Memory.wf s) : Memory.wf (walkDone g va acc s) := wf_ite (xlate_wf h) h
theorem writeFault_wf (h : Memory.wf s) : Memory.wf (writeFault n s) := by
  unfold writeFault
  dsimp only
  split
  · exact h
  · exact wf_ite h (raiseInt_wf (setReg_wf (wf_mk (busWrite_wf h))))
theorem writeDuty_wf (h : Memory.wf s) : Memory.wf (writeDuty n s) := by
  unfold writeDuty
  dsimp only
  split
  · exact h
  · exact wf_ite h (raiseInt_wf (setReg_wf (wf_mk (busWrite_wf h))))
theorem timeReached_wf (h : Memory.wf s) : Memory.wf (timeReached g s) := by
  unfold timeReached
  split
  · exact h
  · split
    · exact wordStep_wf (fun _ _ h1 => twtimeRes_wf h1) h
    · exact h
theorem drainStore_wf {bad : Bool} (h : Memory.wf s) : Memory.wf (drainStore pr n bad s) := drainEntry_wf (wf_ite h h)

/-! ### Machine/RegEv -/

theorem hostWrite_wf (h : Memory.wf s) : Memory.wf (hostWrite off x s) := regWrite_wf h
theorem replyAs_wf {kind code tag : Nat} (h : Memory.wf s) : Memory.wf (replyAs kind code tag s) := by
  unfold replyAs
  split
  · exact wf_ite (hostWrite_wf h) h
  · exact hostWrite_wf h
theorem replyWith_wf {kind code tag payload : Nat} (h : Memory.wf s) : Memory.wf (replyWith kind code tag payload s) :=
  replyAs_wf (hostWrite_wf h)
theorem frReply_wf {tag code : Nat} (h : Memory.wf s) : Memory.wf (frReply tag code s) := hostWrite_wf h
theorem invalidate_wf {scope : Nat} {all : Bool} (h : Memory.wf s) : Memory.wf (invalidate scope ctx all s) :=
  hostWrite_wf h
theorem invDone_wf (h : Memory.wf s) : Memory.wf (invDone s) := wf_ite h h
theorem treeBytes_wf {bs : List Byte} (h : Memory.wf s) : Memory.wf (treeBytes n off bs s) := wf_ite h (regStore_wf h)
theorem treeLevels_wf (h : Memory.wf s) : Memory.wf (treeLevels n x s) := treeBytes_wf h

/-! ### Machine/IslandEv -/

theorem pairLost_wf (h : Memory.wf s) : Memory.wf (pairLost pr s) := wf_foldl (fun _ _ h1 => killCard_wf h1) h
theorem strikePair_wf {bad : Bool} (h : Memory.wf s) : Memory.wf (strikePair pr bad s) :=
  wf_ite (pairLost_wf (modPair_wf (rollPair_wf (wf_foldl (fun _ _ h1 => h1) (wf_foldl (fun _ _ h1 => h1) h)))))
    (wf_ite (wf_foldl (fun _ _ h1 => askScan_wf h1) (pairLost_wf
    (modPair_wf (rollPair_wf (wf_foldl (fun _ _ h1 => h1) (wf_foldl (fun _ _ h1 => h1) h))))))
    (modPair_wf (rollPair_wf (wf_foldl (fun _ _ h1 => h1) (wf_foldl (fun _ _ h1 => h1) h)))))
theorem loseTag_wf {line : Nat} (h : Memory.wf s) : Memory.wf (loseTag line s) :=
  wf_ite (wf_foldl (fun _ _ h1 => poisonSector_wf h1) (evictLine_wf h)) (evictLine_wf h)
theorem scrubSector_wf {x : Nat × Nat} (h : Memory.wf s) : Memory.wf (scrubSector s x) := by
  refine wf_ite h ?_
  split
  · exact h
  · exact wf_ite (countUe_wf (poisonSector_wf h)) (invalidateSector_wf h)
  · exact loseTag_wf h
  · exact h
theorem strike_wf {region : Nat} {bad : Bool} {sectors : List (Nat × Nat)} (h : Memory.wf s) :
    Memory.wf (strike region n bad sectors s) := by
  unfold strike
  dsimp only
  split
  · exact wf_ite h (wf_ite (strikePair_wf h) h)
  · exact wf_ite (wf_foldl (fun _ _ h1 => scrubSector_wf h1) h) h
  · exact h
theorem resumePair_wf (h : Memory.wf s) : Memory.wf (resumePair pr s) := wf_ite h h
theorem scanDue_wf (h : Memory.wf s) : Memory.wf (scanDue s) := by
  unfold scanDue
  split
  · exact wantScan_wf h
  · refine wf_ite h ?_
    dsimp only
    split
    · exact wantScan_wf h
    · exact h
theorem forceDrain_wf {c : Nat} (h : Memory.wf s) : Memory.wf (forceDrain c s) := by
  unfold forceDrain
  split
  · exact wf_ite (drainCore_wf h) h
  · exact h
theorem confirmCore_wf {c : Nat} {suspect : Bool} (h : Memory.wf s) : Memory.wf (confirmCore c suspect s) := by
  refine wf_foldl (fun _ _ h1 => ?_) h
  split
  · exact h1
  · exact writeRecord_wf h1
theorem quarantineOnly_wf {c : Nat} (h : Memory.wf s) : Memory.wf (quarantineOnly c s) := wf_ite h h
theorem quarantine_wf {c : Nat} (h : Memory.wf s) : Memory.wf (quarantine c s) := wf_ite h (quarantineOnly_wf h)
theorem endScan_wf {c : Nat} (h : Memory.wf s) : Memory.wf (endScan c s) := h
theorem scanOver_wf {c : Nat} {pass : Bool} {rows cols : Nat} {spent : Bool} (h : Memory.wf s) :
    Memory.wf (scanOver c pass rows cols spent s) := by
  unfold scanOver
  split
  · exact h
  · exact wf_ite h (wf_ite (dispatch_wf (endScan_wf (wf_ite (quarantineOnly_wf (confirmCore_wf h))
      (confirmCore_wf h)))) (wf_ite h (dispatch_wf (endScan_wf (quarantine_wf (confirmCore_wf h))))))
theorem enterGating_wf {c : Nat} (h : Memory.wf s) : Memory.wf (enterGating c s) := wf_ite h h
theorem wakeDone_wf {c : Nat} (h : Memory.wf s) : Memory.wf (wakeDone c s) := wf_ite (dispatch_wf h) h
theorem sensorEvent_wf (h : Memory.wf s) : Memory.wf (sensorEvent s) := wf_ite h h
theorem powerDown_wf (h : Memory.wf s) : Memory.wf (powerDown s) :=
  wf_ite h (setSuspStat_wf (setReg_wf (wf_mk (flushL2_wf (l2Write_wf _ _ _ (flushL2_wf h))))))
theorem landSusp_wf (h : Memory.wf s) : Memory.wf (landSusp s) := wf_foldl (fun _ _ h1 => landAll_wf h1) h
theorem endResume_wf (h : Memory.wf s) : Memory.wf (endResume s) :=
  wf_foldl (fun _ _ h1 => raiseDue_wf h1) (wf_ite (landSusp_wf
    (dispatch_wf (wf_ite (readyPending_wf (wf_mk (setReg_wf (setReg_wf h)))) (wf_mk (setReg_wf (setReg_wf h))))))
    (landSusp_wf (wf_mk (wf_foldl (fun _ _ h1 => killCard_wf h1) (wf_mk (setReg_wf (setReg_wf h)))))))
theorem resume_wf {wake : Bool} (h : Memory.wf s) : Memory.wf (resume wake s) := by
  unfold resume
  split
  · exact wf_ite h h
  · exact wf_ite h h
  · exact endResume_wf h
  · exact h
theorem resumeAlarm_wf (h : Memory.wf s) : Memory.wf (resumeAlarm s) := wf_ite h h
theorem takeImage_wf {kind : Nat} {img : List Byte} (h : Memory.wf s) : Memory.wf (takeImage kind img s) :=
  wf_ite h (l2Write_wf _ _ _ h)
theorem stageEnds_wf (h : Memory.wf s) : Memory.wf (stageEnds n s) := h
theorem stageFails_wf {kind : Nat} (h : Memory.wf s) : Memory.wf (stageFails n kind s) := h
theorem clearDram_wf (h : Memory.wf s) : Memory.wf (clearDram s) := nwf_filter _ h
theorem writeDevice_wf (h : Memory.wf s) : Memory.wf (writeDevice s) := wf_ite h h
theorem setPcie_wf (h : Memory.wf s) : Memory.wf (setPcie s) := h
theorem bootScan_wf {failed : Nat} (h : Memory.wf s) : Memory.wf (bootScan failed s) :=
  wf_foldl (fun _ _ h1 => wf_ite (quarantine_wf h1) h1) h
theorem bootStage_wf {ok : Bool} {img img2 : List Byte} {failed : Nat} (h : Memory.wf s) :
    Memory.wf (bootStage ok img img2 failed s) := by
  refine wf_ite h (wf_ite h ?_)
  split
  · exact wf_ite (stageEnds_wf (takeImage_wf h)) h
  · exact stageEnds_wf (clearDram_wf h)
  · exact stageEnds_wf (setPcie_wf (writeDevice_wf h))
  · exact wf_ite (stageEnds_wf (wf_mk (takeImage_wf h))) h
  · exact wf_ite (wf_ite (dispatch_wf (stageEnds_wf (bootScan_wf (takeImage_wf (takeImage_wf h)))))
      (stageFails_wf (takeImage_wf h))) h
  · exact h
theorem restartCore_wf {c : Nat} (h : Memory.wf s) : Memory.wf (restartCore c s) :=
  setScan_wf (wf_foldl (fun _ _ h1 => killCard_wf h1) h)
theorem restartWalker_wf {c : Nat} (h : Memory.wf s) : Memory.wf (restartWalker c s) :=
  wf_foldl (fun _ _ h1 => failJob_wf h1) h
theorem dropFrame_wf (h : Memory.wf s) : Memory.wf (dropFrame k s) := by
  unfold dropFrame
  dsimp only
  split <;> exact h
theorem restartEth_wf {p : Nat} (h : Memory.wf s) : Memory.wf (restartEth p s) :=
  wf_ite (wf_foldl (fun _ _ h1 => ethDone_wf h1) h) (raiseInt_wf
    (setReg_wf (wf_foldl (fun _ _ h1 => ethDone_wf h1) h)))
theorem loseApLines_wf (h : Memory.wf s) : Memory.wf (loseApLines s) := wf_foldl (fun _ _ h1 => poisonSector_wf h1) h
theorem restartEngine_wf {code : Nat} (h : Memory.wf s) : ∀ t, restartEngine code s = some t → Memory.wf t :=
  wf_ite_some (wf_some (restartCore_wf h)) (wf_ite_some (wf_some (restartWalker_wf h))
    (wf_ite_some (wf_some (dropFrame_wf h)) (wf_ite_some (wf_some (loseApLines_wf (wf_ite h h)))
    (wf_ite_some (wf_some (restartEth_wf h)) (wf_ite_some (wf_some h) wf_none)))))
theorem postMail_wf (h : Memory.wf s) : Memory.wf (postMail s) := raiseInt_wf h
theorem mbDone_wf {result : Nat} (h : Memory.wf s) : Memory.wf (mbDone result s) := postMail_wf h
theorem attestBegin_wf (h : Memory.wf s) : Memory.wf (attestBegin s) :=
  wf_ite (mbDone_wf h) (outsideAsk_wf (fun _ h1 => h1) h)
theorem mbAttest_wf (h : Memory.wf s) : Memory.wf (mbAttest s) := by
  unfold mbAttest
  split
  · exact attestBegin_wf h
  · exact mbDone_wf (l2Write_wf _ _ _ h)
  · exact h
theorem mbRestart_wf (h : Memory.wf s) : Memory.wf (mbRestart s) := by
  unfold mbRestart
  split
  · refine wf_ite h ?_
    split
    · rename_i e
      exact mbDone_wf (restartEngine_wf h _ e)
    · exact mbDone_wf h
  · exact h
theorem mbCommitsv_wf (h : Memory.wf s) : Memory.wf (mbCommitsv s) := by
  unfold mbCommitsv
  split
  · exact mbDone_wf h
  · exact h
theorem mbInvalid_wf (h : Memory.wf s) : Memory.wf (mbInvalid s) := by
  unfold mbInvalid
  split
  · exact wf_ite h (mbDone_wf h)
  · exact h
theorem autoRestart_wf {code : Nat} (h : Memory.wf s) : Memory.wf (autoRestart code s) :=
  wf_ite (wf_getD (restartEngine_wf h) h) h
theorem coreTimeout_wf {c : Nat} (h : Memory.wf s) : Memory.wf (coreTimeout c s) := wf_ite (autoRestart_wf h) h
theorem walkerTimeout_wf {c : Nat} (h : Memory.wf s) : Memory.wf (walkerTimeout c s) := wf_ite (autoRestart_wf h) h
theorem ingestTimeout_wf (h : Memory.wf s) : Memory.wf (ingestTimeout k s) := by
  unfold ingestTimeout
  split
  · exact wf_ite (autoRestart_wf h) h
  · exact h
theorem heartbeatTimeout_wf (h : Memory.wf s) : Memory.wf (heartbeatTimeout s) := wf_ite (autoRestart_wf h) h
theorem thermalShutdown_wf (h : Memory.wf s) : Memory.wf (thermalShutdown s) := by
  unfold thermalShutdown
  split
  · exact wf_ite h (postMail_wf (wf_mk (wf_foldl (fun _ _ h1 => killCard_wf h1) h)))
  · exact h
theorem thermalRelease_wf {t : Nat} (h : Memory.wf s) : Memory.wf (thermalRelease t s) := wf_ite (dispatch_wf h) h

/-! ### Machine/Lane -/

theorem int2_wf {x : Cur} (h : Memory.wf s) : Memory.wf (int2 op f x s).state := by
  unfold int2
  exact laneWord_wf h
theorem imadRes_wf {x : Cur} (h : Memory.wf s) : Memory.wf (imadRes f x s).state := by
  unfold imadRes
  exact laneWord_wf h
theorem int1_wf {x : Cur} (h : Memory.wf s) : Memory.wf (int1 op f x s).state := by
  unfold int1
  exact laneWord_wf h
theorem ibfxRes_wf {x : Cur} (h : Memory.wf s) : Memory.wf (ibfxRes f x s).state := laneWord_wf h
theorem ibfiRes_wf {x : Cur} (h : Memory.wf s) : Memory.wf (ibfiRes f x s).state := laneWord_wf h
theorem iselRes_wf {x : Cur} (h : Memory.wf s) : Memory.wf (iselRes f x s).state := by
  unfold iselRes
  exact laneWord_wf h
theorem imoviRes_wf {x : Cur} (h : Memory.wf s) : Memory.wf (imoviRes f x s).state := laneWord_wf h
theorem icmpRes_wf {x : Cur} (h : Memory.wf s) : Memory.wf (icmpRes f x s).state := by
  unfold icmpRes
  exact predWord_wf h
theorem fcmpRes_wf {x : Cur} (h : Memory.wf s) : Memory.wf (fcmpRes f x s).state := predWord_wf h
theorem float2_wf {x : Cur} (h : Memory.wf s) : Memory.wf (float2 op f x s).state := laneWord_wf h
theorem fscaleRes_wf {x : Cur} (h : Memory.wf s) : Memory.wf (fscaleRes f x s).state := laneWord_wf h
theorem ffmaRes_wf {x : Cur} (h : Memory.wf s) : Memory.wf (ffmaRes f x s).state := laneWord_wf h
theorem float1_wf {x : Cur} (h : Memory.wf s) : Memory.wf (float1 op f x s).state := laneWord_wf h
theorem cvtRes_wf {x : Cur} (h : Memory.wf s) : Memory.wf (cvtRes f x s).state := laneWord_wf h
theorem quantRes_wf (h : Memory.wf s) : Memory.wf (quantRes f c s).state :=
  wf_done (vwriteLanes_wf (vwriteLanes_wf h))
theorem dqntRes_wf {x : Cur} (h : Memory.wf s) : Memory.wf (dqntRes f x s).state := laneWord_wf h
theorem skeyRes_wf {x : Cur} (h : Memory.wf s) : Memory.wf (skeyRes f x s).state := laneWord_wf h
theorem lshufRes_wf {x : Cur} (h : Memory.wf s) : Memory.wf (lshufRes f x s).state := laneWord_wf h
theorem lbcastRes_wf {x : Cur} (h : Memory.wf s) : Memory.wf (lbcastRes f x s).state := laneWord_wf h
theorem lvoteRes_wf (h : Memory.wf s) : Memory.wf (lvoteRes f c s).state := by
  unfold lvoteRes
  exact unifWord_wf h
theorem lreadRes_wf {x : Cur} (h : Memory.wf s) : Memory.wf (lreadRes f x s).state := unifWord_wf h
theorem lwriteRes_wf (h : Memory.wf s) : Memory.wf (lwriteRes f c s).state := wf_ite_state (wf_done (putLanes_wf h)) h
theorem gredRes_wf (h : Memory.wf s) : Memory.wf (gredRes f c s).state :=
  wf_ite_state (wf_done (vwriteLanes_wf h)) (wf_done (uwrite_wf h))
theorem gscanRes_wf (h : Memory.wf s) : Memory.wf (gscanRes f c s).state := wf_done (vwriteLanes_wf h)
theorem pred2_wf {x : Cur} (h : Memory.wf s) : Memory.wf (pred2 op f x s).state := predWord_wf h
theorem psetRes_wf {x : Cur} (h : Memory.wf s) : Memory.wf (psetRes f x s).state := predWord_wf h
theorem pgetRes_wf {x : Cur} (h : Memory.wf s) : Memory.wf (pgetRes f x s).state := laneWord_wf h
theorem vrotRes_wf (h : Memory.wf s) : Memory.wf (vrotRes c s).state :=
  wf_done (jw_wf (wf_ite (clearReg_wf (clearReg_wf h)) (clearReg_wf h)))

/-! ### Machine/Walker -/

theorem loadWeights_wf {j : Job} {x : OpBits} {rd : Reader} {ni : Nat} (h : Memory.wf s) :
    Memory.wf (loadWeights k j x rd ni s) := wf_foldl (fun _ _ h1 => h1) h
theorem badGather_wf {j : Job} {g : Got} {a : Acc2} (h : Memory.wf s) : Memory.wf (badGather k j g a s) := by
  unfold badGather
  split
  · exact failJob_wf h
  · exact h
  · exact h
theorem runRows_wf {j : Job} {x : OpBits} {rd : Reader} {lost : List Nat} (h : Memory.wf s) :
    Memory.wf (runRows k j x rd lost s) := h
theorem runStep_wf {j : Job} {x : OpBits} (h : Memory.wf s) : Memory.wf (runStep k j x s) := by
  unfold runStep
  dsimp only
  split
  · exact wf_ite (failJob_wf (wf_ite (loadWeights_wf (jobGather_wf h)) (jobGather_wf h)))
      (runRows_wf (countFor_wf (wf_ite (loadWeights_wf (jobGather_wf h)) (jobGather_wf h))))
  · exact badGather_wf (jobGather_wf h)
theorem readNext_wf {j : Job} (h : Memory.wf s) : Memory.wf (readNext k j s) := by
  unfold readNext
  extract_lets r s1
  have hr : Memory.wf r.2 := by
    subst r
    split
    · exact readCard_wf h
    · exact checkMasks_wf h
  have hs1 : Memory.wf s1 := hr
  exact wf_ite (failJob_wf hr) (wf_ite (dispatch_wf hs1) hs1)
theorem tileStep_wf (h : Memory.wf s) : Memory.wf (tileStep k s) := by
  unfold tileStep
  split
  · exact h
  · refine wf_ite h ?_
    split
    · exact readNext_wf h
    · exact wf_ite (readNext_wf h) (runStep_wf h)
theorem stageOutputs_wf {j : Job} {pages : NMap Nat} {outs : List (Nat × List Byte × Nat)} (h : Memory.wf s) :
    Memory.wf (stageOutputs k j pages outs s) := h
theorem cleanStep_wf {j : Job} {spoilt : List Nat} (h : Memory.wf s) : Memory.wf (cleanStep k j spoilt s) :=
  wf_ite h (countFor_wf h)
theorem endStep_wf {j : Job} {x : OpBits} {rd : Reader} (h : Memory.wf s0) : Memory.wf (endStep k j x rd n s0) := by
  unfold endStep
  extract_lets _ s _ _ r s1 _ s2
  have hs : Memory.wf s := cleanStep_wf h
  have hr : Memory.wf r.2.2 := xlatePages_wf hs
  have hs1 : Memory.wf s1 := stageOutputs_wf (countFor_wf hr)
  have hs2 : Memory.wf s2 := hs1
  exact wf_ite (failJob_wf h) (wf_ite hr (wf_ite (failJob_wf hr)
    (wf_ite (badGather_wf hr) (wf_ite (dispatch_wf hs2) hs2))))
theorem tileStepEnd_wf (h : Memory.wf s) : Memory.wf (tileStepEnd k s) := by
  unfold tileStepEnd
  split
  · exact h
  · refine wf_ite (dispatch_wf (modJob_wf (handClock_wf h))) (wf_ite h ?_)
    split
    · exact h
    · dsimp only
      split
      · exact endStep_wf (jobGather_wf h)
      · exact badGather_wf (jobGather_wf h)
theorem outputPerform_wf (h : Memory.wf s) : Memory.wf (outputPerform pr n s) := by
  unfold outputPerform
  split
  · exact h
  · split
    · exact wf_ite h (wf_ite (performReady_wf h) (wf_foldl (fun _ _ h1 => h1) (decisionPoint_wf (performReady_wf h))))
    · exact h
theorem abandonStep_wf (h : Memory.wf s) : Memory.wf (abandonStep k s) := by
  unfold abandonStep
  split
  · exact h
  · split
    · exact wf_ite h h
    · exact h

/-! ### Machine/Run -/

theorem raisePassed_wf (h : Memory.wf s) : Memory.wf (raisePassed s) :=
  wf_foldl (fun _ _ h1 => wf_ite (raiseDue_wf h1) h1) h
theorem noteTime_wf (h : Memory.wf s) : Memory.wf (noteTime s) := wf_foldl (fun _ _ h1 => h1) (accrueAll_wf h)
theorem runClock_wf {ns : Nat} (h : Memory.wf s) : Memory.wf (runClock ns s) := h
theorem passTime_wf {ns : Nat} (h : Memory.wf s) : Memory.wf (passTime ns s) :=
  raisePassed_wf (runClock_wf (noteTime_wf h))
theorem spoilRow_wf (h : Memory.wf s) : Memory.wf (spoilRow k n s) := wf_ite h h
theorem spoilLocal_wf {tk gran : Nat} (h : Memory.wf s) : Memory.wf (spoilLocal tk half gran s) := wf_ite h h
theorem spoilWeights_wf {gran : Nat} (h : Memory.wf s) : Memory.wf (spoilWeights k gran s) := wf_ite h h
theorem noteFaulty_wf (h : Memory.wf s) : Memory.wf (noteFaulty k s) := h
theorem farWrite_wf (h : Memory.wf s) : Memory.wf (farWrite pa bytes s) := by
  unfold farWrite
  split
  · exact wf_ite h (nwf_memWrite _ _ h)
  · exact h
theorem linkFails_wf (h : Memory.wf s) : Memory.wf (linkFails n s) := wf_ite h h
theorem nextCycle_wf (h : Memory.wf s) : Memory.wf (nextCycle k s) := h
theorem noteReady_wf (h : Memory.wf s) : Memory.wf (noteReady s) := h
theorem winner_wf {ptr : Nat} {xs : List (Nat × Nat)} (h : Memory.wf s) : Memory.wf (winner s ptr xs).2 := by
  unfold winner
  split
  · exact h
  · exact wf_ite_snd h h

end

/-! ### The instructions -/

/-- What an instruction word or a machine event does keeps memory in its canonical form. -/
theorem exec_wf {i : Instr} {s t : State} (e : exec i s = .next t) (h : Memory.wf s) : Memory.wf t := by
  cases i with
  | nop _ _ => exact word_wf e h fun _ _ h => h
  | twait _ _ => exact word_wf e h fun _ _ h => twaitRes_wf h
  | tsig _ _ => exact word_wf e h fun _ _ h => tsigRes_wf h
  | sli _ => exact word_wf e h fun _ _ h => sliRes_wf h
  | slih _ => exact word_wf e h fun _ _ h => slihRes_wf h
  | smov _ => exact word_wf e h fun _ _ h => smovRes_wf h
  | sadd _ => exact word_wf e h fun _ _ h => salu_wf h
  | saddX _ => exact word_wf e h fun _ _ h => salu_wf h
  | ssub _ => exact word_wf e h fun _ _ h => salu_wf h
  | ssubX _ => exact word_wf e h fun _ _ h => salu_wf h
  | smul _ => exact word_wf e h fun _ _ h => salu_wf h
  | smulX _ => exact word_wf e h fun _ _ h => salu_wf h
  | smulh _ => exact word_wf e h fun _ _ h => salu_wf h
  | smulhX _ => exact word_wf e h fun _ _ h => salu_wf h
  | sand _ => exact word_wf e h fun _ _ h => salu_wf h
  | sandX _ => exact word_wf e h fun _ _ h => salu_wf h
  | sor _ => exact word_wf e h fun _ _ h => salu_wf h
  | sorX _ => exact word_wf e h fun _ _ h => salu_wf h
  | sxor _ => exact word_wf e h fun _ _ h => salu_wf h
  | sxorX _ => exact word_wf e h fun _ _ h => salu_wf h
  | sshl _ => exact word_wf e h fun _ _ h => salu_wf h
  | sshlX _ => exact word_wf e h fun _ _ h => salu_wf h
  | sshr _ => exact word_wf e h fun _ _ h => salu_wf h
  | sshrX _ => exact word_wf e h fun _ _ h => salu_wf h
  | ssra _ => exact word_wf e h fun _ _ h => salu_wf h
  | ssraX _ => exact word_wf e h fun _ _ h => salu_wf h
  | smin _ => exact word_wf e h fun _ _ h => salu_wf h
  | sminX _ => exact word_wf e h fun _ _ h => salu_wf h
  | smax _ => exact word_wf e h fun _ _ h => salu_wf h
  | smaxX _ => exact word_wf e h fun _ _ h => salu_wf h
  | scmp _ => exact word_wf e h fun _ _ h => scmpRes_wf h
  | ssel _ => exact word_wf e h fun _ _ h => sselRes_wf h
  | srd _ => exact word_wf e h fun _ _ h => srdRes_wf h
  | bra _ => exact word_wf e h fun _ _ h => braRes_wf h
  | brc _ => exact word_wf e h fun _ _ h => brcRes_wf h
  | brx _ => exact word_wf e h fun _ _ h => brxRes_wf h
  | call _ => exact word_wf e h fun _ _ h => callRes_wf h
  | ret _ => exact word_wf e h fun _ _ h => brxRes_wf h
  | bdiv _ => exact word_wf e h fun _ _ h => bdivRes_wf h
  | mark _ => exact word_wf e h fun _ _ h => markRes_wf h
  | join _ => exact word_wf e h fun _ _ h => joinRes_wf h
  | loop _ => exact word_wf e h fun _ _ h => loopRes_wf h
  | endl _ => exact word_wf e h fun _ _ h => endlRes_wf h
  | exit _ => exact word_wf e h fun _ _ h => exitRes_wf h
  | iadd _ => exact word_wf e h fun _ _ h => int2_wf h
  | iaddX _ => exact word_wf e h fun _ _ h => int2_wf h
  | isub _ => exact word_wf e h fun _ _ h => int2_wf h
  | isubX _ => exact word_wf e h fun _ _ h => int2_wf h
  | imul _ => exact word_wf e h fun _ _ h => int2_wf h
  | imulX _ => exact word_wf e h fun _ _ h => int2_wf h
  | imulh _ => exact word_wf e h fun _ _ h => int2_wf h
  | imulhX _ => exact word_wf e h fun _ _ h => int2_wf h
  | imad _ => exact word_wf e h fun _ _ h => imadRes_wf h
  | iand _ => exact word_wf e h fun _ _ h => int2_wf h
  | iandX _ => exact word_wf e h fun _ _ h => int2_wf h
  | ior _ => exact word_wf e h fun _ _ h => int2_wf h
  | iorX _ => exact word_wf e h fun _ _ h => int2_wf h
  | ixor _ => exact word_wf e h fun _ _ h => int2_wf h
  | ixorX _ => exact word_wf e h fun _ _ h => int2_wf h
  | ishl _ => exact word_wf e h fun _ _ h => int2_wf h
  | ishlX _ => exact word_wf e h fun _ _ h => int2_wf h
  | ishr _ => exact word_wf e h fun _ _ h => int2_wf h
  | ishrX _ => exact word_wf e h fun _ _ h => int2_wf h
  | isra _ => exact word_wf e h fun _ _ h => int2_wf h
  | israX _ => exact word_wf e h fun _ _ h => int2_wf h
  | imin _ => exact word_wf e h fun _ _ h => int2_wf h
  | iminX _ => exact word_wf e h fun _ _ h => int2_wf h
  | imax _ => exact word_wf e h fun _ _ h => int2_wf h
  | imaxX _ => exact word_wf e h fun _ _ h => int2_wf h
  | iabs _ => exact word_wf e h fun _ _ h => int1_wf h
  | iabsX _ => exact word_wf e h fun _ _ h => int1_wf h
  | iclz _ => exact word_wf e h fun _ _ h => int1_wf h
  | iclzX _ => exact word_wf e h fun _ _ h => int1_wf h
  | ipopc _ => exact word_wf e h fun _ _ h => int1_wf h
  | ipopcX _ => exact word_wf e h fun _ _ h => int1_wf h
  | ibrev _ => exact word_wf e h fun _ _ h => int1_wf h
  | ibrevX _ => exact word_wf e h fun _ _ h => int1_wf h
  | ibfx _ => exact word_wf e h fun _ _ h => ibfxRes_wf h
  | ibfi _ => exact word_wf e h fun _ _ h => ibfiRes_wf h
  | isel _ => exact word_wf e h fun _ _ h => iselRes_wf h
  | imov _ => exact word_wf e h fun _ _ h => int1_wf h
  | imovX _ => exact word_wf e h fun _ _ h => int1_wf h
  | imovi _ => exact word_wf e h fun _ _ h => imoviRes_wf h
  | icmp _ => exact word_wf e h fun _ _ h => icmpRes_wf h
  | fadd _ => exact word_wf e h fun _ _ h => float2_wf h
  | faddX _ => exact word_wf e h fun _ _ h => float2_wf h
  | fsub _ => exact word_wf e h fun _ _ h => float2_wf h
  | fsubX _ => exact word_wf e h fun _ _ h => float2_wf h
  | fmul _ => exact word_wf e h fun _ _ h => float2_wf h
  | fmulX _ => exact word_wf e h fun _ _ h => float2_wf h
  | ffma _ => exact word_wf e h fun _ _ h => ffmaRes_wf h
  | fmin _ => exact word_wf e h fun _ _ h => float2_wf h
  | fminX _ => exact word_wf e h fun _ _ h => float2_wf h
  | fmax _ => exact word_wf e h fun _ _ h => float2_wf h
  | fmaxX _ => exact word_wf e h fun _ _ h => float2_wf h
  | fcmp _ => exact word_wf e h fun _ _ h => fcmpRes_wf h
  | fclass _ => exact word_wf e h fun _ _ h => float1_wf h
  | fclassX _ => exact word_wf e h fun _ _ h => float1_wf h
  | frcp _ => exact word_wf e h fun _ _ h => float1_wf h
  | frcpX _ => exact word_wf e h fun _ _ h => float1_wf h
  | frsq _ => exact word_wf e h fun _ _ h => float1_wf h
  | frsqX _ => exact word_wf e h fun _ _ h => float1_wf h
  | fsqrt _ => exact word_wf e h fun _ _ h => float1_wf h
  | fsqrtX _ => exact word_wf e h fun _ _ h => float1_wf h
  | fdiv _ => exact word_wf e h fun _ _ h => float2_wf h
  | fdivX _ => exact word_wf e h fun _ _ h => float2_wf h
  | fex2 _ => exact word_wf e h fun _ _ h => float1_wf h
  | fex2X _ => exact word_wf e h fun _ _ h => float1_wf h
  | flg2 _ => exact word_wf e h fun _ _ h => float1_wf h
  | flg2X _ => exact word_wf e h fun _ _ h => float1_wf h
  | fscale _ => exact word_wf e h fun _ _ h => fscaleRes_wf h
  | fscaleX _ => exact word_wf e h fun _ _ h => fscaleRes_wf h
  | cvt _ => exact word_wf e h fun _ _ h => cvtRes_wf h
  | quant _ => exact word_wf e h fun _ _ h => quantRes_wf h
  | dqnt _ => exact word_wf e h fun _ _ h => dqntRes_wf h
  | skey _ => exact word_wf e h fun _ _ h => skeyRes_wf h
  | skeyX _ => exact word_wf e h fun _ _ h => skeyRes_wf h
  | lshuf _ => exact word_wf e h fun _ _ h => lshufRes_wf h
  | lshufX _ => exact word_wf e h fun _ _ h => lshufRes_wf h
  | lbcast _ => exact word_wf e h fun _ _ h => lbcastRes_wf h
  | lbcastX _ => exact word_wf e h fun _ _ h => lbcastRes_wf h
  | lvote _ => exact word_wf e h fun _ _ h => lvoteRes_wf h
  | lvoteX _ => exact word_wf e h fun _ _ h => lvoteRes_wf h
  | lread _ => exact word_wf e h fun _ _ h => lreadRes_wf h
  | lwrite _ => exact word_wf e h fun _ _ h => lwriteRes_wf h
  | gred _ => exact word_wf e h fun _ _ h => gredRes_wf h
  | gscan _ => exact word_wf e h fun _ _ h => gscanRes_wf h
  | pand _ => exact word_wf e h fun _ _ h => pred2_wf h
  | pandX _ => exact word_wf e h fun _ _ h => pred2_wf h
  | por _ => exact word_wf e h fun _ _ h => pred2_wf h
  | porX _ => exact word_wf e h fun _ _ h => pred2_wf h
  | pxor _ => exact word_wf e h fun _ _ h => pred2_wf h
  | pxorX _ => exact word_wf e h fun _ _ h => pred2_wf h
  | pset _ => exact word_wf e h fun _ _ h => psetRes_wf h
  | pget _ => exact word_wf e h fun _ _ h => pgetRes_wf h
  | pgetX _ => exact word_wf e h fun _ _ h => pgetRes_wf h
  | vrot _ => exact word_wf e h fun _ _ h => vrotRes_wf h
  | ld _ => exact word_wf e h fun _ _ h => loadRes_wf h
  | st _ => exact word_wf e h fun _ _ h => storeRes_wf h
  | ldl _ => exact word_wf e h fun _ _ h => ldlRes_wf h
  | stl _ => exact word_wf e h fun _ _ h => stlRes_wf h
  | lds _ => exact word_wf e h fun _ _ h => loadRes_wf h
  | sts _ => exact word_wf e h fun _ _ h => storeRes_wf h
  | atom _ => exact word_wf e h fun _ _ h => atomRes_wf h
  | atoml _ => exact word_wf e h fun _ _ h => atomlRes_wf h
  | fence _ => exact word_wf e h fun _ _ h => fenceRes_wf h
  | pfetch _ => exact word_wf e h fun _ _ h => pfetchRes_wf h
  | cwb _ => exact word_wf e h fun _ _ h => lineRes_wf h
  | cinv _ => exact word_wf e h fun _ _ h => lineRes_wf h
  | stmap _ => exact word_wf e h fun _ _ h => stmapRes_wf h
  | stunmap _ => exact word_wf e h fun _ _ h => stunmapRes_wf h
  | stsync _ => exact word_wf e h fun _ _ h => stsyncRes_wf h
  | ptst _ => exact word_wf e h fun _ _ h => ptstRes_wf h
  | xstrm _ => exact word_wf e h fun _ _ h => xstrmRes_wf h
  | xstrmGet _ => exact word_wf e h fun _ _ h => xstrmGetRes_wf h
  | xmma _ => exact word_wf e h fun _ _ h => prodRes_wf h
  | xmmac _ => exact word_wf e h fun _ _ h => prodRes_wf h
  | ximma _ => exact word_wf e h fun _ _ h => prodRes_wf h
  | xzero _ => exact word_wf e h fun _ _ h => xzeroRes_wf h
  | xexp _ => exact word_wf e h fun _ _ h => xexpRes_wf h
  | xnorm _ => exact word_wf e h fun _ _ h => xnormRes_wf h
  | xgrd _ => exact word_wf e h fun _ _ h => xgrdRes_wf h
  | xrd _ => exact word_wf e h fun _ _ h => xrdRes_wf h
  | xwr _ => exact word_wf e h fun _ _ h => xwrRes_wf h
  | xflush _ => exact word_wf e h fun _ _ h => xflushRes_wf h
  | xrun _ => exact word_wf e h fun _ _ h => xrunRes_wf h
  | xpoll _ => exact word_wf e h fun _ _ h => xpollRes_wf h
  | xkill _ => exact word_wf e h fun _ _ h => xkillRes_wf h
  | cpy _ => exact word_wf e h fun _ _ h => copyRes_wf h
  | cpyt _ => exact word_wf e h fun _ _ h => copyRes_wf h
  | cpynd _ => exact word_wf e h fun _ _ h => copyRes_wf h
  | cpyg _ => exact word_wf e h fun _ _ h => copyRes_wf h
  | cpys _ => exact word_wf e h fun _ _ h => copyRes_wf h
  | cpyw _ => exact word_wf e h fun _ _ h => copyRes_wf h
  | rinit _ => exact word_wf e h fun _ _ h => rinitRes_wf h
  | rwait _ => exact word_wf e h fun _ _ h => rwaitRes_wf h
  | rrel _ => exact word_wf e h fun _ _ h => rrelRes_wf h
  | rpost _ => exact word_wf e h fun _ _ h => rpostRes_wf h
  | rtail _ => exact word_wf e h fun _ _ h => rtailRes_wf h
  | cqry _ => exact word_wf e h fun _ _ h => cqryRes_wf h
  | bar _ => exact word_wf e h fun _ _ h => barRes_wf h
  | barX _ => exact word_wf e h fun _ _ h => barRes_wf h
  | bara _ => exact word_wf e h fun _ _ h => baraRes_wf h
  | baraX _ => exact word_wf e h fun _ _ h => baraRes_wf h
  | barw _ => exact word_wf e h fun _ _ h => barwRes_wf h
  | barwX _ => exact word_wf e h fun _ _ h => barwRes_wf h
  | bard _ => exact word_wf e h fun _ _ h => bardRes_wf h
  | bardX _ => exact word_wf e h fun _ _ h => bardRes_wf h
  | tbinit _ => exact word_wf e h fun _ _ h => tbinitRes_wf h
  | tbexp _ => exact word_wf e h fun _ _ h => tbexpRes_wf h
  | tbarr _ => exact word_wf e h fun _ _ h => tbarrRes_wf h
  | tbwait _ => exact word_wf e h fun _ _ h => tbwaitRes_wf h
  | give _ => exact word_wf e h fun _ _ h => giveRes_wf h
  | giveX _ => exact word_wf e h fun _ _ h => giveRes_wf h
  | claim _ => exact word_wf e h fun _ _ h => claimRes_wf h
  | claimX _ => exact word_wf e h fun _ _ h => claimRes_wf h
  | qend _ => exact word_wf e h fun _ _ h => qendRes_wf h
  | qseal _ => exact word_wf e h fun _ _ h => qsealRes_wf h
  | twtime _ => exact word_wf e h fun _ _ h => twtimeRes_wf h
  | yield _ => exact word_wf e h fun _ _ h => yieldRes_wf h
  | rotcfg _ => exact word_wf e h fun _ _ h => rotcfgRes_wf h
  | psh _ => exact word_wf e h fun _ _ h => pshRes_wf h
  | pop _ => exact word_wf e h fun _ _ h => popRes_wf h
  | pstat _ => exact word_wf e h fun _ _ h => pstatRes_wf h
  | lsnd _ => exact word_wf e h fun _ _ h => lsndRes_wf h
  | lrcv _ => exact word_wf e h fun _ _ h => lrcvRes_wf h
  | lradd _ => exact word_wf e h fun _ _ h => lrcvRes_wf h
  | trins _ => exact word_wf e h fun _ _ h => trinsRes_wf h
  | trdrw _ => exact word_wf e h fun _ _ h => trdrwRes_wf h
  | trupd _ => exact word_wf e h fun _ _ h => trupdRes_wf h
  | trtot _ => exact word_wf e h fun _ _ h => trtotRes_wf h
  | trwgt _ => exact word_wf e h fun _ _ h => trwgtRes_wf h
  | trcfg _ => exact word_wf e h fun _ _ h => trcfgRes_wf h
  | trap _ => exact word_wf e h fun _ _ h => h
  | hret _ => exact word_wf e h fun _ _ h => hretRes_wf h
  | sysrd _ => exact word_wf e h fun _ _ h => sysrdRes_wf h
  | syswr _ => exact word_wf e h fun _ _ h => syswrRes_wf h
  | wake _ => exact word_wf e h fun _ _ h => wakeRes_wf h
  | gate _ => exact word_wf e h fun _ _ h => gateRes_wf h
  | halt _ => exact word_wf e h fun _ _ h => haltRes_wf h
  | bkpt _ => exact word_wf e h fun _ _ h => h
  | jobarm _ => exact word_wf e h fun _ _ h => jobarmRes_wf h
  | jobdone _ => exact word_wf e h fun _ _ h => jobdoneRes_wf h
  | jobyld _ => exact word_wf e h fun _ _ h => jobyldRes_wf h
  | susp _ => exact word_wf e h fun _ _ h => suspRes_wf h
  | fltrply _ => exact word_wf e h fun _ _ h => fltrplyRes_wf h
  | trapDeliveryHandler _ => exact event_wf e (deliverTo_wf h)
  | trapDeliveryHost _ => exact event_wf e (deliverHost_wf h)
  | claimDeadlock _ => exact event_wf e (releaseClaim_wf h)
  | loadSectorReturn _ _ _ => exact event_wf e (sectorReturns_wf h)
  | tableWalkComplete _ _ _ => exact event_wf e (walkDone_wf h)
  | faultRecordWrite _ => exact event_wf e (writeFault_wf h)
  | dutyRecordWrite _ => exact event_wf e (writeDuty_wf h)
  | quantumTimedClose _ => exact event_wf e (timedClose_wf h)
  | quantumWordCountClose _ => exact event_wf e (wordCountClose_wf h)
  | quantumCapacityClose _ => exact event_wf e (capacityClose_wf h)
  | detQuantumClose _ => exact event_wf e (landLate_wf (detCloseNow_wf h))
  | quantumSeal _ _ => exact event_wf e (wf_ite (sealDet_wf h) (sealPair_wf h))
  | holdbackDrain _ _ _ => exact event_wf e (drainStore_wf h)
  | atomPerform _ _ => exact event_wf e (drainEntry_wf h)
  | clusterTbPerform _ _ => exact event_wf e (drainEntry_wf h)
  | deviceAccessPerform _ _ => exact event_wf e (drainEntry_wf h)
  | systemWordPerform _ _ => exact event_wf e (drainEntry_wf h)
  | jobarmPerform _ _ => exact event_wf e (drainEntry_wf h)
  | epochCommit _ => exact event_wf e (commitStep_wf h)
  | waveStart _ => exact event_wf e (startWave_wf h)
  | launchComplete _ => exact event_wf e (completeLaunch_wf h)
  | copyWriteStart _ _ _ => exact event_wf e (copyChunk_wf h)
  | cpytRelease _ _ => exact event_wf e (cpytStart_wf h)
  | copyComplete _ _ => exact event_wf e (completeCmd_wf h)
  | ringTailObserved _ _ => exact event_wf e (observeTail_wf h)
  | ringPullComplete _ _ => exact event_wf e (completeCmd_wf h)
  | portEntryDeliver _ _ _ _ => exact event_wf e (wf_ite (sendPart_wf h) (deliverPart_wf h))
  | lsndSend _ => exact event_wf e (sendMsg_wf h)
  | linkMessageArrive _ _ _ _ _ _ _ => exact event_wf e (linkArrive_wf h)
  | krypinRemoteRequest _ _ _ _ _ _ _ _ => exact event_wf e (remoteRequest_wf h)
  | flitReceive _ _ _ => exact event_wf e (flitReceive_wf h)
  | linkDown _ => exact event_wf e (linkGoesDown_wf h)
  | lkctlRetrain _ => exact event_wf e (retrainLink_wf h)
  | linkTimeExchange _ _ _ _ _ => exact event_wf e (linkTime_wf h)
  | ptpMessage _ _ _ _ _ _ => exact event_wf e (ptpMessage_wf h)
  | timeSyncInterval _ => exact event_wf e (syncInterval_wf h)
  | tset _ => exact event_wf e (regWrite_wf h)
  | cardRelease _ => exact event_wf e (releaseCard_wf h)
  | preemptCapture _ _ => exact event_wf e (capturePart_wf h)
  | detWavePreempt _ => exact event_wf e (captureWave_wf h)
  | contextImageWrite _ _ => exact event_wf e (writeImage_wf h)
  | contextFree _ _ => exact event_wf e (freeContext_wf h)
  | killComplete _ => exact event_wf e (killOver_wf h)
  | deadlineMiss _ => exact event_wf e (missDeadline_wf h)
  | execBudgetOverrun _ => exact event_wf e (overrunBudget_wf h)
  | bwBudgetOverrun _ => exact event_wf e (overrunBandwidth_wf h)
  | regulatorWindow => exact event_wf e h
  | regulatorRequest _ _ _ _ _ _ => exact event_wf e (dramRequest_wf h)
  | patrolScrub _ _ => exact event_wf e (patrolRead_wf h)
  | unmappedAccess _ _ => exact event_wf e (unmapped_wf h)
  | strikeReport _ _ _ _ => exact event_wf e (strike_wf h)
  | rollbackResume _ => exact event_wf e (resumePair_wf h)
  | scanDue => exact event_wf e (scanDue_wf h)
  | scanForceDrain _ => exact event_wf e (forceDrain_wf h)
  | scanComplete _ _ _ _ _ => exact event_wf e (scanOver_wf h)
  | scannow _ => exact event_wf e (hostWrite_wf h)
  | redundantCompare _ => exact event_wf e (compareCopies_wf h)
  | tileStep _ => exact event_wf e (tileStep_wf h)
  | tileStepEnd _ => exact event_wf e (tileStepEnd_wf h)
  | walkerOutputPerform _ _ => exact event_wf e (outputPerform_wf h)
  | walkerAbandonStep _ => exact event_wf e (abandonStep_wf h)
  | treeBaseWrite _ _ => exact event_wf e (treeBytes_wf h)
  | treeLevelsWrite _ _ => exact event_wf e (treeLevels_wf h)
  | treeBetaWrite _ _ => exact event_wf e (treeBytes_wf h)
  | treeNsizeWrite _ _ => exact event_wf e (treeBytes_wf h)
  | treeSeedWrite _ _ => exact event_wf e (treeBytes_wf h)
  | sumtreeCommandPerform _ _ => exact event_wf e (drainEntry_wf h)
  | treeClearComplete _ => exact event_wf e (treeCleared_wf h)
  | arm _ => exact event_wf e (hostWrite_wf h)
  | armTimed _ => exact event_wf e (hostWrite_wf h)
  | parm _ _ => exact event_wf e (regWrite_wf h)
  | disarm _ => exact event_wf e (hostWrite_wf h)
  | dctlEnable => exact event_wf e (hostWrite_wf h)
  | dctlDisable => exact event_wf e (hostWrite_wf h)
  | dutyReplyAdmit _ => exact event_wf e (replyAs_wf h)
  | dutyReplyReject _ => exact event_wf e (replyAs_wf h)
  | dutyReplyPlace _ _ => exact event_wf e (replyWith_wf h)
  | dutyReplyDefer _ => exact event_wf e (replyAs_wf h)
  | dutyReplyReplay _ => exact event_wf e (replyAs_wf h)
  | dutyReplyAbandon _ => exact event_wf e (replyAs_wf h)
  | dutyReplyGrantScan _ => exact event_wf e (replyAs_wf h)
  | dutyReplyPostponeScan _ => exact event_wf e (replyAs_wf h)
  | dutyReplyRouteTable _ _ => exact event_wf e (replyWith_wf h)
  | dutyReplyTimeCorrection _ _ => exact event_wf e (replyWith_wf h)
  | frreplyRetry _ => exact event_wf e (frReply_wf h)
  | frreplyPoison _ => exact event_wf e (frReply_wf h)
  | frreplyFail _ => exact event_wf e (frReply_wf h)
  | tlbinvPage _ _ => exact event_wf e (invalidate_wf h)
  | tlbinvContext _ _ => exact event_wf e (invalidate_wf h)
  | tlbinvIpa _ _ => exact event_wf e (invalidate_wf h)
  | tlbinvComplete => exact event_wf e (invDone_wf h)
  | histatClear _ => exact event_wf e (hostWrite_wf h)
  | hienWrite _ => exact event_wf e (hostWrite_wf h)
  | frameStart _ _ => exact event_wf e (frameBegins_wf h)
  | frameLine _ _ _ _ _ _ => exact event_wf e (frameLine_wf h)
  | frameEnd _ _ => exact event_wf e (frameEnds_wf h)
  | ethTx _ _ => exact event_wf e (ethSend_wf h)
  | ethRxFrame _ _ _ => exact event_wf e (ethReceive_wf h)
  | pcieInboundRequest _ _ _ _ _ _ _ _ _ _ => exact event_wf e (pcieInbound_wf h)
  | registerWrite _ _ _ => exact event_wf e (regStore_wf h)
  | coreEnterGating _ => exact event_wf e (enterGating_wf h)
  | coreWakeComplete _ => exact event_wf e (wakeDone_wf h)
  | wakeset _ _ => exact event_wf e (regWrite_wf h)
  | suspctlGo _ => exact event_wf e (hostWrite_wf h)
  | suspendPowerDown => exact event_wf e (powerDown_wf h)
  | resume _ => exact event_wf e (resume_wf h)
  | resumeAlarm => exact event_wf e (resumeAlarm_wf h)
  | powerOn => exact event_wf e reset_wf
  | bootStage _ _ _ _ => exact event_wf e (bootStage_wf h)
  | islandLockstepReset => exact event_wf e h
  | mbAttest => exact event_wf e (mbAttest_wf h)
  | mbRestart => exact event_wf e (mbRestart_wf h)
  | mbCommitsv => exact event_wf e (mbCommitsv_wf h)
  | mbInvalid => exact event_wf e (mbInvalid_wf h)
  | coreStallTimeout _ => exact event_wf e (coreTimeout_wf h)
  | walkerStallTimeout _ => exact event_wf e (walkerTimeout_wf h)
  | ingestFrameTimeout _ => exact event_wf e (ingestTimeout_wf h)
  | heartbeatTimeout => exact event_wf e (heartbeatTimeout_wf h)
  | hbap => exact event_wf e (hostWrite_wf h)
  | thermalThrottle _ => exact event_wf e h
  | thermalShutdown => exact event_wf e (thermalShutdown_wf h)
  | thermalRelease _ => exact event_wf e (thermalRelease_wf h)
  | linkUp _ _ _ => exact event_wf e (linkComesUp_wf h)
  | sensorEvent => exact event_wf e (sensorEvent_wf h)
  | twtimeTargetReached _ => exact event_wf e (timeReached_wf h)
  | copySourceReadDone _ _ => exact event_wf e (sourceDone_wf h)
  | restoreComplete _ _ => exact event_wf e (restoreDone_wf h)
  | applicationProcessorAccess _ _ _ _ _ _ _ _ => exact event_wf e (apAccess_wf h)

/-! ### Fetches -/

/-- The state that a fetch leaves. -/
def FetchRes.state : FetchRes → State
  | .run _ _ s => s
  | .idle s => s

theorem fetchDecode_wf {g : Nat} {p : FetchAt} {w x : Word32} {s : State} (h : Memory.wf s) :
    Memory.wf (fetchDecode g p w x s).state := by
  unfold fetchDecode
  split
  · exact fetchTrap_wf h
  · exact h
theorem fetchExt_wf {g : Nat} {p : FetchAt} {w : Word32} {ans : Nat} {s : State} (h : Memory.wf s) :
    Memory.wf (fetchExt g p w ans s).state := by
  unfold fetchExt
  extract_lets q va x
  have hx : Memory.wf x.2 := fetchWord_wf h
  split
  · split
    · exact fetchDecode_wf hx
    · exact fetchFail_wf hx
  · split
    · exact fetchDecode_wf (countPois_wf h)
    · exact fetchTrap_wf h
  · exact fetchTrap_wf h
theorem fetchBytes_wf {g : Nat} {p : FetchAt} {ans : Nat} {s : State} (h : Memory.wf s) :
    Memory.wf (fetchBytes g p ans s).state := by
  unfold fetchBytes
  extract_lets r
  have hr : Memory.wf r.2 := fetchWord_wf h
  split
  · split
    · exact fetchDecode_wf hr
    · exact fetchExt_wf hr
  · exact fetchFail_wf hr
theorem fetchSlot_wf {g k : Nat} {s : State} (h : Memory.wf s) : Memory.wf (fetchSlot g k s).state := by
  unfold fetchSlot
  extract_lets p ans s1
  have h1 : Memory.wf s1 := wf_ite h (modGrp_wf h)
  clear_value ans s1
  split
  · exact h
  · split
    · split
      · exact fetchDecode_wf (countPois_wf h1)
      · exact fetchTrap_wf h1
    · exact fetchTrap_wf h1
    · exact fetchBytes_wf h1

/-! ### Moves -/

section
variable {s t : State}

theorem next_wf {u : State} (e : (.next u : Host.Outcome State Fault Refusal) = .next t) (h : Memory.wf u) :
    Memory.wf t := Host.Outcome.next.inj e ▸ h
theorem runHead_wf {g q : Nat} (e : runHead g q s = .next t) (h : Memory.wf s) : Memory.wf t := by
  unfold runHead at e
  split at e
  · exact next_wf e h
  · exact exec_wf e h
theorem runFetch_wf {g slot : Nat} (e : runFetch g slot s = .next t) (h : Memory.wf s) : Memory.wf t := by
  have hf : Memory.wf (fetchSlot g slot s).state := fetchSlot_wf h
  unfold runFetch at e
  split at e <;> rename_i hr <;> rw [hr] at hf
  · exact exec_wf e hf
  · exact next_wf e hf
theorem runEvent_wf {i : Instr} (e : runEvent i s = .next t) (h : Memory.wf s) : Memory.wf t := by
  unfold runEvent at e
  split at e
  · rename_i he
    exact next_wf e (orAsleep_wf h (exec_wf he (wf_mk h)))
  · exact exec_wf e (wf_mk h)
theorem runMove_wf {m : Move} (e : runMove m s = .next t) (h : Memory.wf s) : Memory.wf t := by
  cases m with
  | event i =>
    by_cases hi : isEvent i
    · exact runEvent_wf ((if_pos hi).symm.trans e) h
    · exact next_wf ((if_neg hi).symm.trans e) h
  | fetch g slot => exact runFetch_wf e h
  | head g q => exact runHead_wf e h
  | pass ns => exact next_wf e (passTime_wf h)
  | evictL2 line => exact next_wf e (evictLine_wf h)
  | evictL1 k sec => exact next_wf e (modCore_wf h)
  | evictTlb n => exact next_wf e (wf_mk h)
  | farWrite pa bytes => exact next_wf e (farWrite_wf h)
  | linkFails n => exact next_wf e (linkFails_wf h)
  | spoilEntry pr n => exact next_wf e (spoilEntry_wf h)
  | cycle k => exact next_wf e (nextCycle_wf h)
  | poisonRow k n => exact next_wf e (noteFaulty_wf (spoilRow_wf h))
  | poisonLocal tk half gran => exact next_wf e (noteFaulty_wf (spoilLocal_wf h))
  | poisonWeights k gran => exact next_wf e (noteFaulty_wf (spoilWeights_wf h))

/-! ### The issue schedulers and one step -/

theorem issueWord_wf {g : Nat} (e : issueWord g s = .next t) (h : Memory.wf s) : Memory.wf t := by
  unfold issueWord at e
  split at e
  · exact runHead_wf e h
  · split at e
    · exact runFetch_wf e h
    · exact next_wf e h
theorem issueOne_wf {g : Nat} {m : Move} (e : issueOne g m s = .next t) (h : Memory.wf s) : Memory.wf t := by
  unfold issueOne at e
  extract_lets k r w at e
  have hw : Memory.wf w.2 := winner_wf h
  split at e
  · exact runMove_wf e h
  · split at e
    · exact next_wf e h
    · exact issueWord_wf e (modGrp_wf (modCore_wf hw))
theorem runFree_wf {m : Move} (e : runFree m s = .next t) (h : Memory.wf s) : Memory.wf t := by
  have h1 : Memory.wf (noteReady s) := noteReady_wf h
  unfold runFree at e
  extract_lets s1 at e
  split at e
  · exact issueOne_wf e h1
  · split at e
    · exact issueOne_wf e h1
    · exact runMove_wf e h1
  · exact runMove_wf e h1
theorem decided_wf {o : Host.Outcome State Fault Refusal} (e : decided o = .next t)
    (ho : ∀ u, o = .next u → Memory.wf u) : Memory.wf t := by
  unfold decided at e
  split at e
  · exact next_wf e (wf_ite (dispatch_wf (ho _ rfl)) (ho _ rfl))
  · exact ho t e
theorem noted_wf {o : Host.Outcome State Fault Refusal} (e : noted o = .next t)
    (ho : ∀ u, o = .next u → Memory.wf u) : Memory.wf t := by
  unfold noted at e
  split at e
  · exact next_wf e (noteReady_wf (ho _ rfl))
  · exact ho t e
theorem step_wf (e : step s = .next t) (h : Memory.wf s) : Memory.wf t := by
  unfold step stepOnce at e
  extract_lets s1 at e
  have h1 : Memory.wf s1 := h
  split at e
  · exact decided_wf e fun _ e => runMove_wf e h1
  · exact noted_wf e fun _ e => decided_wf e fun _ e => runFree_wf e h1

end

/-- Settles O52: `step_wf`, which follows the step through its move, the word or event that runs, and the decision. -/
theorem stepKeepsMemoryForm : Obligations.StepKeepsMemoryForm := by
  unfold Obligations.StepKeepsMemoryForm
  exact fun _ _ h e => step_wf e h

end Sys2Proof.Machine
end

section
/-!
PROOFS. Memory traffic: the bandwidth regulators, the patrol scrubber and accesses where nothing is (O36).
-/
namespace Sys2Proof.Machine

/-! ### A regulator in its present window (R279) -/

/-- A home agent's regulator of a PARTID is written. -/
def putRegulator (key : Nat) (r : Regulator) (s : State) : State := { s with regulators := nput s.regulators key r }
@[simp] theorem bump_regulators (off n : Nat) (s : State) : (bump off n s).regulators = s.regulators := rfl
@[simp] theorem nget_putRegulator (key : Nat) (r : Regulator) (s : State) :
    nget {} (putRegulator key r s).regulators key = r := nget_nput_self ..

section
variable {s : State} {pa pid mt : Nat} {r : Regulator}

/-- A PARTID alone is the account of traffic that no card is charged for. -/
theorem acctPid_partid (hpid : pid < 64) : acctPid pid = pid := Nat.mod_eq_of_lt (by omega)
theorem acctCard_partid (hpid : pid < 64) : acctCard pid = none := if_pos (Nat.div_eq_of_lt (by omega))
theorem chargeCardBw_partid (hpid : pid < 64) (s : State) : chargeCardBw pid s = s := by
  rw [chargeCardBw, acctCard_partid hpid]

theorem catchUp_present (now : windowOf s.now ≤ r.win) : catchUp s pid r = r := by
  rw [catchUp, Nat.sub_eq_zero_of_le now, catchUpAux]

theorem regulatorAt_found {key : Nat} (found : nfind s.regulators key = some r) : regulatorAt s key = r := by
  simp only [regulatorAt, nget, found, Option.getD_some]

theorem regulated_found (hpid : pid < 64) (ochre : inWindow (ochreWin s) pa = false)
    (found : nfind s.regulators (homeOf pa * 64 + pid) = some r) : regulated s pa pid = true := by
  simp [regulated, noPartid, hpid, ochre, found]

variable (hpid : pid < 64) (ochre : inWindow (ochreWin s) pa = false)
  (found : nfind s.regulators (homeOf pa * 64 + pid) = some r) (now : windowOf s.now ≤ r.win)
include hpid ochre found now

/-- A charge of a PARTID counts 64 bytes in its regulator's present window. -/
theorem chargeDram_counts : chargeDram pa pid s =
    putRegulator (homeOf pa * 64 + pid) { r with bytes := r.bytes + 64 } s := by
  simp only [chargeDram, ochre, chargeCardBw_partid hpid, acctPid_partid hpid, regulated_found hpid ochre found,
    regulatorAt_found found, catchUp_present now, Bool.not_true, Bool.false_eq_true, if_false, putRegulator]

/-- A first request of a sector outside the L2 takes the next place among the deferred reads where others wait or the
window's bytes are used, and else fills the sector. -/
theorem regFill_first (dram : paKind s pa = .dram) (out : l2Valid s pa = false) :
    let s1 := putRegulator (homeOf pa * 64 + pid) r s
    regFill pa pid mt none s =
      if r.en = true ∧ (r.deferred ≠ 0 ∨ r.limit < r.bytes + 64) then
        (some (r.served + r.deferred),
          bump (rRegDef pid) 1 (putRegulator (homeOf pa * 64 + pid) { r with deferred := r.deferred + 1 } s1))
      else (none, fillAs true mt pa pid s1) := by
  have counted : (l2Valid s pa || decide (paKind s pa ≠ .dram) || !regulated s pa pid) = false := by
    simp [dram, out, regulated_found hpid ochre found]
  unfold regFill
  simp only [acctPid_partid hpid, counted, regulatorAt_found found, catchUp_present now, Bool.false_eq_true, if_false,
    Bool.and_eq_true, Bool.or_eq_true, decide_eq_true_eq, putRegulator]

end

/-! ### The request of a read that has no place yet (R279) -/

/-- A read that is asked for the first time: it is done where `regFill` gives it no place, and waits at its place
otherwise. -/
theorem askRead_first {rd : Asker} {pa account mt : Nat} {s : State}
    (fresh : ∀ x ∈ (nget {} s.regulators (homeOf pa * 64 + acctPid account)).waiting, ¬(x.1 = rd ∧ x.2.1 = pa / 64)) :
    askRead rd pa account mt s =
      match regFill pa account mt none s with
      | (none, t) => (true, t)
      | (some n, t) =>
        let key := homeOf pa * 64 + acctPid account
        let R := nget {} t.regulators key
        (false, putRegulator key { R with waiting := R.waiting ++ [(rd, pa / 64, n)] } t) := by
  have none_waits : (nget {} s.regulators (homeOf pa * 64 + acctPid account)).waiting.find?
      (fun x => x.1 = rd && x.2.1 = pa / 64) = none :=
    List.find?_eq_none.2 fun x hx => by simpa using fresh x hx
  simp only [askRead, none_waits, Option.map_none]
  rcases regFill pa account mt none s with ⟨_ | n, t⟩ <;> rfl

/-- The deferred reads that a request of a PARTID meets are those of its regulator. -/
theorem fresh_of_found {pa pid : Nat} {rd : Asker} {s : State} {r : Regulator} (hpid : pid < 64)
    (found : nfind s.regulators (homeOf pa * 64 + pid) = some r)
    (fresh : ∀ x ∈ r.waiting, ¬(x.1 = rd ∧ x.2.1 = pa / 64)) :
    ∀ x ∈ (nget {} s.regulators (homeOf pa * 64 + acctPid pid)).waiting, ¬(x.1 = rd ∧ x.2.1 = pa / 64) := by
  rwa [acctPid_partid hpid, nget, found]

/-- An agent that reads one sector waits where the read is deferred, and goes on where it is done. -/
theorem outsideAsk_awake {n pa pid : Nat} {k : State → State} {s : State} (awake : dramSleeps s pa = false) :
    outsideAsk n pa pid k s =
      let x := askRead (.agent n) pa pid 0 s
      if x.1 then k x.2 else x.2 := by
  simp [outsideAsk, outsideReach, awake, askReads]

/-! ### REGULATOR_REQUEST (R277, R279) -/

section
variable {s : State} {pa pid err : Nat} (hpid : pid < 64) (dram : paKind s pa = .dram)
include hpid dram

/-- A request of a PARTID for DRAM passes the event's guard. -/
theorem dramRequest_runs (write : Bool) : dramRequest pa pid none write err s =
    if write then writeBack pa s else if l2Valid s pa then s else outsideAsk 30 pa pid (dramError pa err pid) s := by
  have runs : ¬(decide (64 ≤ pid) || decide (paKind s pa ≠ .dram)) = true := by simp [dram, hpid]
  exact if_neg runs

theorem dramRequest_read (out : l2Valid s pa = false) :
    dramRequest pa pid none false err s = outsideAsk 30 pa pid (dramError pa err pid) s := by
  simp only [dramRequest_runs hpid dram, out, Bool.false_eq_true, if_false]

variable {r : Regulator} (ochre : inWindow (ochreWin s) pa = false)
  (found : nfind s.regulators (homeOf pa * 64 + pid) = some r) (now : windowOf s.now ≤ r.win)
  (out : l2Valid s pa = false) (awake : dramSleeps s pa = false)
  (fresh : ∀ x ∈ r.waiting, ¬(x.1 = .agent 30 ∧ x.2.1 = pa / 64))
include ochre found now out awake fresh

/-- A first request over the limit stands last among the deferred reads, and is counted as deferred. -/
theorem dramRequest_deferred (en : r.en = true) (full : r.deferred ≠ 0 ∨ r.limit < r.bytes + 64) :
    let key := homeOf pa * 64 + pid
    let R : Regulator := { r with deferred := r.deferred + 1 }
    dramRequest pa pid none false err s =
      putRegulator key { R with waiting := r.waiting ++ [(.agent 30, pa / 64, r.served + r.deferred)] }
        (bump (rRegDef pid) 1 (putRegulator key R (putRegulator key r s))) := by
  simp only [dramRequest_read hpid dram out, outsideAsk_awake awake, askRead_first (fresh_of_found hpid found fresh),
    regFill_first hpid ochre found now dram out, if_pos (And.intro en full), acctPid_partid hpid, bump_regulators,
    nget_putRegulator, Bool.false_eq_true, if_false]

/-- A first request within the limit fills its sector, which charges its regulator. -/
theorem dramRequest_served (room : r.en = false ∨ ¬(r.deferred ≠ 0 ∨ r.limit < r.bytes + 64)) :
    dramRequest pa pid none false 0 s =
      l2Fill pa pid false (putRegulator (homeOf pa * 64 + pid) r s) := by
  have serves : ¬(r.en = true ∧ (r.deferred ≠ 0 ∨ r.limit < r.bytes + 64)) :=
    fun ⟨en, full⟩ => room.elim (fun h => Bool.false_ne_true (h.symm.trans en)) fun h => h full
  simp only [dramRequest_read hpid dram out, outsideAsk_awake awake, askRead_first (fresh_of_found hpid found fresh),
    regFill_first hpid ochre found now dram out, if_neg serves]
  rfl

end

/-! ### The patrol scrubber (R277, R280) -/

/-- A read that finds two bits in error poisons what DRAM holds beneath a dirty copy, and else the sector itself. -/
theorem dramError_two {pa err pid : Nat} {s : State} (two : 2 ≤ err) : dramError pa err pid s =
    match nfind s.dirty (pa / 64) with
    | some d => { countUe s with dirty := nput s.dirty (pa / 64) { d with pois := true } }
    | none => poisonSector pa (if l2Valid s pa then markDirty 0 pa pid (countUe s) else countUe s) := by
  obtain ⟨e, rfl⟩ := Nat.exists_eq_add_of_le' two
  rfl

/-- The scrubber with its next sector before it. -/
def patrolled (s : State) : State := { s with
  scrubNext := if 64 * (s.scrubNext + 1) < Config.dramBytes then s.scrubNext + 1 else 0
  scrubDue := if s.scrubNext = 0 then s.now + reg s rScrub * 3600000000000 else s.scrubDue }

section
variable {s : State} {pa err : Nat}

theorem patrolRead_next (dram : paKind s pa = .dram) (on : reg s rScrub ≠ 0) (booted : 4 ≤ s.island.stage)
    (awake : dramSleeps s pa = false) (next : pa / 64 = s.scrubNext) (due : s.scrubNext = 0 → s.scrubDue ≤ s.now) :
    patrolRead pa err s = dramError pa err noPartid (patrolled s) := by
  have runs : ¬(reg s rScrub = 0 || decide (s.island.stage < 4) || dramSleeps s pa || paKind s pa ≠ .dram ||
      pa / 64 ≠ s.scrubNext || (s.scrubNext = 0 && decide (s.now < s.scrubDue))) = true := by
    simpa [dram, on, awake, next, booted] using due
  exact if_neg runs

theorem patrolRead_off (off : reg s rScrub = 0) : patrolRead pa err s = s := by
  simp only [patrolRead, off, decide_true, Bool.true_or, if_true]

/-! ### Accesses where nothing is (R278) -/

theorem unmapped_nothing (write : Bool) (nothing : nothingAt s pa = true) :
    unmapped pa write s = if write then countUe s else answer 0 pa none s := by
  simp only [unmapped, nothing, Bool.not_true, Bool.false_eq_true, if_false]

end

/-- Settles O36. A request is counted or deferred as `regFill_first` says of its regulator's present window
(`dramRequest_served`, `dramRequest_deferred`); the scrubber's read of its next sector is `dramError` after it has moved
on (`patrolRead_next`). -/
theorem memoryTraffic : Obligations.MemoryTraffic := by
  unfold Obligations.MemoryTraffic
  intro s pa pid card err r key s1 full
  refine ⟨rfl, fun hpid dram => ⟨fun held => ?_, ?_, fun out => ?_, fun ochre found now => ⟨?_, ?_⟩⟩, ?_, ?_, ?_⟩
  · exact congrArg Host.Outcome.next ((dramRequest_runs hpid dram false).trans (if_pos held))
  · exact congrArg Host.Outcome.next (dramRequest_runs hpid dram true)
  · exact reaches_of_outsideReach (congrArg Host.Outcome.next (dramRequest_read hpid dram out))
  · rw [chargeDram_counts hpid ochre found now]
    exact nfind_nput_self ..
  · intro out awake fresh
    exact ⟨fun en full => congrArg Host.Outcome.next
        (dramRequest_deferred hpid dram ochre found now out awake fresh en full),
      fun room => congrArg Host.Outcome.next (dramRequest_served hpid dram ochre found now out awake fresh room)⟩
  · intro dram on booted awake next due s2
    have reads (e : Nat) : exec (.patrolScrub pa e) s = .next (dramError pa e noPartid s2) :=
      congrArg Host.Outcome.next (patrolRead_next dram on booted awake next due)
    exact ⟨reads 0, reads 1, fun e two => (reads e).trans (congrArg Host.Outcome.next (dramError_two two))⟩
  · exact fun off => congrArg Host.Outcome.next (patrolRead_off off)
  · exact fun nothing => ⟨congrArg Host.Outcome.next (unmapped_nothing true nothing),
      congrArg Host.Outcome.next (unmapped_nothing false nothing)⟩

end Sys2Proof.Machine
end

section
/-!
PROOFS. Arming, disarming, DCTL and releases (O39).
-/
namespace Sys2Proof.Machine

/-! ### Arming (R299, R301) -/

section
variable {s : State} {n rel : Nat} {path : ArmPath}

/-- ARM and PARM name a card in bits 11 to 0; bit 12 takes ARMTIME for its release. -/
theorem armWrite_named (timed : Bool) (h : n < 4096) : armWrite path (n % 4096 + b2n timed * 4096) s =
    (armCard path n (if timed then max 1 (reg s rArmTime) else 0) s).2 := by
  have small : n % 4096 = n := Nat.mod_eq_of_lt h
  cases timed with
  | false =>
    have bit : n.testBit 12 = false := Nat.testBit_lt_two_pow h
    simp [armWrite, b2n, small, bit]
  | true =>
    have bit : (n + 2 ^ 12).testBit 12 = true := by
      rw [Nat.add_comm, Nat.testBit_two_pow_add_eq, Nat.testBit_lt_two_pow h, Bool.not_false]
    have bit : (n + 4096).testBit 12 = true := bit
    simp [armWrite, b2n, small, bit]

theorem exec_arm (h : n < 4096) : exec (.arm n) s = .next (armCard .arm n 0 s).2 := by
  have value : n % 4096 % 2 ^ 64 = n % 4096 + b2n false * 4096 := by simp [b2n]; omega
  have write : exec (.arm n) s = .next (armWrite .arm (n % 4096 % 2 ^ 64) s) := rfl
  rw [write, value, armWrite_named false h]
  rfl

theorem exec_armTimed (h : n < 4096) :
    exec (.armTimed n) s = .next (armCard .arm n (max 1 (reg s rArmTime)) s).2 := by
  have value : (n % 4096 + 4096) % 2 ^ 64 = n % 4096 + b2n true * 4096 := by simp [b2n]; omega
  have write : exec (.armTimed n) s = .next (armWrite .arm ((n % 4096 + 4096) % 2 ^ 64) s) := rfl
  rw [write, value, armWrite_named true h]
  rfl

theorem exec_parm (timed : Bool) (h : n < 4096) : exec (.parm n timed) s =
    .next (armCard .parm n (if timed then max 1 (reg s rArmTime) else 0) s).2 :=
  congrArg Host.Outcome.next (armWrite_named timed h)

/-- A card that is not idle is not armed: cause 1, the lowest, goes to ARMSTAT. -/
theorem armCard_busy (h : n < 4096) (busy : cState s n ≠ 0) :
    (armCard path n rel s).2 = rejectRecord path n rel 1 (setReg s rArmStat (n + 2 ^ 16)) := by
  have cause : armCause path n s = (1, {}, s) := if_pos busy
  simp [armCard, cause, Nat.mod_eq_of_lt h]

/-! ### DISARM and DCTL (R300, R303) -/

theorem exec_disarm (h : n < 4096) : exec (.disarm n) s = .next (disarmCard n s) := by
  have value : n % 4096 % 2 ^ 64 % 4096 = n := by omega
  have write : exec (.disarm n) s = .next (disarmCard (n % 4096 % 2 ^ 64 % 4096) s) := rfl
  rw [write, value]

theorem disarmCard_idle (h : cState s n = 0) : disarmCard n s = s := if_pos h

theorem disarmCard_waits (hlo : 1 ≤ cState s n) (hhi : cState s n ≤ 3) : disarmCard n s =
    toIdle n (endDuties n [0, 1, 2, 4]
      (modRun n (fun R => { R with pend := none, kill := none, replayAsk := false, placeAsk := false }) s)) :=
  (if_neg (by omega)).trans (if_neg (by omega))

theorem disarmCard_runs (h : 4 ≤ cState s n) :
    disarmCard n s = modRun n (fun R => { R with disarmed := true, pend := none }) s :=
  (if_neg (by omega)).trans (if_pos h)

theorem exec_dctlEnable : exec .dctlEnable s = .next (if reg s rDctl = 0 then dctlSet s else s) := rfl

end

theorem armingWrites : Obl.ArmingWrites := by
  unfold Obl.ArmingWrites
  intro s n timed h
  simp only [exec_arm h, exec_armTimed h, exec_parm timed h, exec_disarm h, exec_dctlEnable]
  refine ⟨fun busy => ?_, trivial, trivial, trivial, fun idle => ?_, fun lo hi => ?_, fun runs => ?_, rfl, fun on => ?_,
    fun off awake => ?_, fun off suspending => ?_⟩
  · simp only [armCard_busy h busy, and_self]
  · rw [disarmCard_idle idle]
  · rw [disarmCard_waits lo hi]
  · rw [disarmCard_runs runs]
  · rw [if_neg on]
  · rw [if_pos off]
    exact congrArg (fun t => Host.Outcome.next (dispatch t)) (if_pos awake)
  · rw [if_pos off]
    exact congrArg (fun t => Host.Outcome.next (dispatch t)) (if_neg suspending)

/-! ### Releases (R300, R303 to R305) -/

section
variable {s : State} {n : Nat}

theorem releaseCard_unarmed (h : cState s n < 2) : releaseCard n s = s := by
  have early : ¬ 3 ≤ cState s n := by omega
  simp [releaseCard, Nat.ne_of_lt h, early]

theorem releaseCard_early (armed : cState s n = 2) (unpended : (run s n).pend = none) (h : s.now < cRelease s n) :
    releaseCard n s = s := by
  cases on : dispatching s <;> simp only [releaseCard, armed, unpended, on, if_true, if_neg (Nat.not_le.mpr h)]

theorem releaseCard_ready (armed : cState s n = 2) (unpended : (run s n).pend = none) (on : dispatching s = true)
    (come : cRelease s n ≤ s.now) : releaseCard n s = dispatch (makeReady n (cRelease s n)
      (cRelease s n + cDeadline s n) (if cPeriod s n ≠ 0 then nextRelease n s else s)) := by
  simp only [releaseCard, armed, unpended, on, if_true, if_pos come]

/-- A release that comes while the instance runs is recorded as pending or skipped, and calls for a decision. -/
theorem releaseCard_runs (inst : 3 ≤ cState s n) (periodic : cPeriod s n ≠ 0) (going : (run s n).disarmed = false)
    (come : cRelease s n ≤ s.now) : releaseCard n s = decisionPoint (pendRelease n s) := by
  have notArmed : cState s n ≠ 2 := by omega
  simp [releaseCard, notArmed, inst, periodic, going, come]

theorem pendRelease_records (unpended : (run s n).pend = none) : pendRelease n s =
    nextRelease n (modRun n (fun R => { R with pend := some (cRelease s n, cRelease s n + cDeadline s n) }) s) :=
  if_neg (by rw [unpended]; exact Bool.false_ne_true)

theorem pendRelease_skips (pended : (run s n).pend.isSome = true) : pendRelease n s =
    nextRelease n (writeRecord n { instRec s n 7 0 with rel := cRelease s n } (bumpCard n 895 864 s)) :=
  if_pos pended

end

theorem releases : Obl.Releases := by
  unfold Obl.Releases
  intro s n
  refine ⟨fun h => ?_, fun armed unpended h => ?_, fun armed unpended on come => ?_,
    fun inst periodic going come unpended => ?_, fun inst periodic going come pended => ?_, fun _ => rfl⟩
  all_goals refine congrArg Host.Outcome.next ?_
  · exact releaseCard_unarmed h
  · exact releaseCard_early armed unpended h
  · exact releaseCard_ready armed unpended on come
  · rw [releaseCard_runs inst periodic going come, pendRelease_records unpended]
    rfl
  · rw [releaseCard_runs inst periodic going come, pendRelease_skips pended]

/-- Settles O39. ARM and PARM are one write (`armWrite_named`), DISARM goes by the card's state, and CARD_RELEASE by
whether the card is armed or its instance runs (`releaseCard_ready`, `releaseCard_runs`). The release time max 1 ARMTIME,
the record of a skipped release and what becomes of the duty records are the model's choices (log entries 44, 57
and 97). -/
theorem armingAndRelease : Obligations.ArmingAndRelease := ⟨armingWrites, releases⟩

end Sys2Proof.Machine
end

section
/-!
PROOFS. Replies to duty records (O40).
-/
namespace Sys2Proof.Machine

/-! ### The write of DRREPLY0, and DRREPLY1 before it (R320) -/

section
variable {s : State} {tag x code kind : Nat} {d : Duty}

/-- The event of a record's own kind is the reply that the tag and code of DRREPLY0 name. -/
theorem replyAs_eq (ht : tag < 2 ^ 32) (hc : code < 16)
    (fits : ∀ d, (s.duties.find? fun d => d.tag = some tag) = some d → d.kind = kind) :
    replyAs kind code tag s = dutyReply tag code s := by
  have low : (tag % 2 ^ 32 + code * 2 ^ 32) % 2 ^ 64 % 2 ^ 32 = tag := by omega
  have high : nbits ((tag % 2 ^ 32 + code * 2 ^ 32) % 2 ^ 64) 35 32 = code := by
    rw [nbits, Nat.shiftRight_eq_div_pow]
    omega
  have write (x : Nat) : regWrite .host 0x98 x (List.range 8) s = dutyReply (x % 2 ^ 32) (nbits x 35 32) s := rfl
  have reply : hostWrite 0x98 (tag % 2 ^ 32 + code * 2 ^ 32) s = dutyReply tag code s := by
    rw [hostWrite, write, low, high]
  unfold replyAs
  split
  case h_1 d found => rw [if_pos (fits d found), reply]
  case h_2 => exact reply

theorem hostWrite_drReply1 (h : x < 2 ^ 64) : hostWrite rDrReply1 x s = setReg s rDrReply1 x := by
  have write (x : Nat) : regWrite .host rDrReply1 x (List.range 8) s = setReg s rDrReply1 (x &&& (2 ^ 64 - 1)) := rfl
  rw [hostWrite, write, Nat.and_two_pow_sub_one_eq_mod, Nat.mod_mod, Nat.mod_eq_of_lt h]

/-! ### What a reply does (R320) -/

section
variable (found : (s.duties.find? fun d => d.tag = some tag) = some d)
include found

theorem dutyReply_acts {t : State} (live : d.dead = false)
    (act : dutyAct d code (reg s rDrReply1) (dropDuty tag s) = some t) : dutyReply tag code s = t := by
  simp only [dutyReply, found, live, act, Bool.false_eq_true, if_false]

/-- A reply to a record whose question has ended is counted. -/
theorem dutyReply_dead (dead : d.dead = true) : dutyReply tag code s = countReg rDrIgn 1 (dropDuty tag s) := by
  simp only [dutyReply, found, dead, if_true]

theorem replyAs_acts {t : State} (ht : tag < 2 ^ 32) (hc : code < 16) (own : d.kind = kind) (live : d.dead = false)
    (act : dutyAct d code (reg s rDrReply1) (dropDuty tag s) = some t) : replyAs kind code tag s = t := by
  rw [replyAs_eq ht hc, dutyReply_acts found live act]
  intro e he
  cases found.symm.trans he
  exact own

/-- A reply with a payload acts with the payload that DRREPLY1 has taken. -/
theorem replyWith_acts {t : State} (ht : tag < 2 ^ 32) (hx : x < 2 ^ 64) (own : d.kind = kind) (live : d.dead = false)
    (act : dutyAct d 0 x (dropDuty tag (setReg s rDrReply1 x)) = some t) : replyWith kind 0 tag x s = t := by
  rw [replyWith, hostWrite_drReply1 hx]
  refine replyAs_acts (s := setReg s rDrReply1 x) found ht (by decide) own live ?_
  rw [reg_setReg, Nat.mod_eq_of_lt hx]
  exact act

end

theorem dutyReply_unknown (h : (s.duties.find? fun d => d.tag = some tag) = none) :
    dutyReply tag code s = countReg rDrIgn 1 s := by
  simp only [dutyReply, h]

/-! ### The effects of each kind's codes (R303, R320) -/

theorem dutyAct_admit (kind : d.kind = 0) :
    dutyAct d 0 x s = some (admitCard d.card (armed d.card (run s d.card).armRel s)) := by
  simp only [dutyAct, kind]

theorem dutyAct_reject (kind : d.kind = 0) (driver : (run s d.card).armBy = none) : dutyAct d 1 x s =
    some (rejectRecord .arm d.card (run s d.card).armRel 11
      (toIdle d.card (setReg s rArmStat (d.card % 4096 + 11 * 2 ^ 16)))) := by
  simp only [dutyAct, kind, driver]

theorem dutyAct_place (kind : d.kind = 1) : dutyAct d 0 x s = some (placeReply d.card (x % 2 ^ 32) s) := by
  simp only [dutyAct, kind]

theorem dutyAct_defer (kind : d.kind = 1) :
    dutyAct d 1 x s = some (modRun d.card (fun R => { R with placeAsk := false }) s) := by
  simp only [dutyAct, kind]

theorem dutyAct_replay (kind : d.kind = 2) : dutyAct d 0 x s = some (dispatch (replayCard d.card s)) := by
  simp only [dutyAct, kind]

theorem dutyAct_abandon {k : Kill} (kind : d.kind = 2) (killed : (run s d.card).kill = some k) :
    dutyAct d 1 x s = some (dispatch (failCard d.card 5 k.cls s)) := by
  simp only [dutyAct, kind, killed]

theorem dutyAct_grantScan (kind : d.kind = 3) : dutyAct d 0 x s = some (grantScan (Nat.log2 d.cores) s) := by
  simp only [dutyAct, kind]

theorem dutyAct_postponeScan (kind : d.kind = 3) : dutyAct d 1 x s =
    some (setScan { core := Nat.log2 d.cores, stage := 4, dueAt := s.now + 100000000 } s) := by
  simp only [dutyAct, kind]

theorem dutyAct_routes (kind : d.kind = 4) : dutyAct d 0 x s = some (giveRoutes d.card (routeTable s x) s) := by
  simp only [dutyAct, kind]

theorem dutyAct_correction (kind : d.kind = 5) (lo : -200000 ≤ sx 32 (x % 2 ^ 32)) (hi : sx 32 (x % 2 ^ 32) ≤ 200000) :
    dutyAct d 0 x s = some { setReg s rTRate (cut 64 (sx 32 (x % 2 ^ 32))) with
      slew := s.slew + sx 32 (x / 2 ^ 32 % 2 ^ 32) * 1000000000 } := by
  simp only [dutyAct, kind]
  exact if_pos ⟨lo, hi⟩

/-- A placement reply to a card that is neither ready nor parked places nothing. -/
theorem placeReply_neither {n mask : Nat} (notReady : cState s n ≠ 3) (notParked : cState s n ≠ 5) :
    placeReply n mask s = modRun n (fun R => { R with placeAsk := false, placeMask := none }) s :=
  if_pos (by simp [notReady, notParked])

/-- A scan that is granted waits while a context at critical level holds it off, and else drains its core. -/
theorem grantScan_free {c : Nat} (free : criticalOn s c = false) : grantScan c s = drainCore c s :=
  if_neg (ne_true_of_eq_false free)

theorem grantScan_held {c : Nat} (held : criticalOn s c = true) :
    grantScan c s = setScan { core := c, stage := 2, dueAt := s.now + 10000000 } s := if_pos held

end

/-- Settles O40. A reply is `dutyReply` of its tag and code (`replyAs_eq`), and acts as its record's kind says. The
records whose question has ended are the model's choice (log entries 97 and 98). -/
theorem dutyReplies : Obligations.DutyReplies := by
  unfold Obligations.DutyReplies
  intro s tag x d ht hx u v
  refine ⟨fun found live => ⟨fun kind => ⟨?_, fun driver => ?_⟩, fun kind => ⟨?_, fun notReady notParked => ?_, ?_⟩,
    fun kind => ⟨?_, fun k killed => ?_⟩, fun kind => ⟨fun free => ?_, fun held => ?_, ?_⟩, fun kind => ?_,
    fun kind lo hi => ?_⟩, fun found dead kind => ?_, fun unknown => ?_⟩
  all_goals refine congrArg Host.Outcome.next ?_
  · exact replyAs_acts found ht (by decide) kind live (dutyAct_admit kind)
  · exact replyAs_acts found ht (by decide) kind live (dutyAct_reject kind driver)
  · exact replyWith_acts found ht hx kind live (dutyAct_place kind)
  · refine (replyWith_acts found ht hx kind live (dutyAct_place kind)).trans ?_
    exact placeReply_neither notReady notParked
  · exact replyAs_acts found ht (by decide) kind live (dutyAct_defer kind)
  · exact replyAs_acts found ht (by decide) kind live (dutyAct_replay kind)
  · exact replyAs_acts found ht (by decide) kind live (dutyAct_abandon kind killed)
  · refine (replyAs_acts found ht (by decide) kind live (dutyAct_grantScan kind)).trans ?_
    exact grantScan_free free
  · refine (replyAs_acts found ht (by decide) kind live (dutyAct_grantScan kind)).trans ?_
    exact grantScan_held held
  · exact replyAs_acts found ht (by decide) kind live (dutyAct_postponeScan kind)
  · exact replyWith_acts found ht hx kind live (dutyAct_routes kind)
  · exact replyWith_acts found ht hx kind live (dutyAct_correction kind lo hi)
  · refine (replyAs_eq ht (by decide) fun e he => ?_).trans (dutyReply_dead found dead)
    cases found.symm.trans he
    exact kind
  · refine (replyAs_eq ht (by decide) fun e he => ?_).trans (dutyReply_unknown unknown)
    exact absurd (unknown.symm.trans he) (by simp)

end Sys2Proof.Machine
end

section
/-!
PROOFS. Temperature (O60).
-/
namespace Sys2Proof.Machine

section
variable {s : State} {t a : Nat}

theorem setTemp_eq : setTemp t s = setReg { s with island := { s.island with
    hotSince := if sx 16 (t % 2 ^ 16) ≤ 2000 then none else some (s.island.hotSince.getD s.now) } }
    rTemp (t % 2 ^ 16) := by
  cases since : s.island.hotSince <;> simp [setTemp, since]

theorem thermalRelease_releases (held : s.island.coresHeld = true) (cool : sx 16 (t % 2 ^ 16) < sx 16 (reg s rThrot)) :
    thermalRelease t s =
      dispatch { setTemp t s with island := { (setTemp t s).island with coresHeld := false } } :=
  if_pos (by rw [held, decide_eq_true cool]; rfl)

theorem thermalRelease_holds (h : s.island.coresHeld = false ∨ sx 16 (reg s rThrot) ≤ sx 16 (t % 2 ^ 16)) :
    thermalRelease t s = setTemp t s :=
  if_neg (by simpa [or_iff_not_imp_left] using h)

section
variable (hot : s.island.hotSince = some a)
include hot

/-- Above 125 °C for 1 ms, the array's contexts are killed with LOST and the cores are held in reset, with a message. -/
theorem thermalShutdown_due (due : a + 1000000 ≤ s.now) (running : s.island.coresHeld = false) :
    thermalShutdown s =
      (let killed := (((List.range 32).flatMap fun c => (ctxsOn s c).map fun x => x.1 / 2).dedup).foldl
        (fun s n => killCard n (killFor s n clsLost 0) s) s
      raiseInt 6 { killed with island := { killed.island with coresHeld := true } }) := by
  have goes : (s.island.coresHeld || decide (s.now < a + 1000000)) = false := by
    rw [running, decide_eq_false (Nat.not_lt.mpr due)]
    rfl
  simp only [thermalShutdown, hot, goes, Bool.false_eq_true, if_false, postMail]

theorem thermalShutdown_early (early : s.now < a + 1000000) : thermalShutdown s = s := by
  simp only [thermalShutdown, hot, early, decide_true, Bool.or_true, if_true]

end

theorem thermalShutdown_stays (h : s.island.hotSince = none ∨ s.island.coresHeld = true) : thermalShutdown s = s := by
  unfold thermalShutdown
  split
  case h_1 hot =>
    have held : s.island.coresHeld = true := h.resolve_left (by simp [hot])
    rw [if_pos (by rw [held, Bool.true_or])]
  case h_2 => rfl

end

/-- Settles O60. The three events go by `setTemp`, `thermalRelease` and `thermalShutdown`, with the time since which the
junction is hot (`setTemp_eq`); the class LOST of the kills is the model's choice (log entry 75). -/
theorem temperature : Obligations.Temperature := by
  unfold Obligations.Temperature
  intro s t temp since told cards killed
  refine ⟨?_, fun held cool => ?_, fun stays => ?_, fun a hot due running => ?_, fun a hot early => ?_,
    fun stays => ?_⟩
  all_goals refine congrArg Host.Outcome.next ?_
  · exact setTemp_eq
  · rw [thermalRelease_releases held cool, setTemp_eq]
  · exact (thermalRelease_holds stays).trans setTemp_eq
  · exact thermalShutdown_due hot due running
  · exact thermalShutdown_early hot early
  · exact thermalShutdown_stays stays

end Sys2Proof.Machine
end

section
/-!
PROOFS. Strikes, rollbacks and core scans (O44).
-/
namespace Sys2Proof.Machine

/-! ### Strikes (R331, R332, R334 to R336) -/

/-- The island has counted a strike. -/
def strikeCounted (s : State) : State := { s with island := { s.island with strikes := s.island.strikes + 1 } }

/-- The rollbacks of a pair's present quantum, with the one that begins (R335). -/
def rollsOf (s : State) (pr : Nat) : Nat := if pairWork s pr then (pair s pr).rolls + 1 else 0

/-- A pair without deterministic groups rolls back: the cards there count it, and the pair resumes later (R332). -/
def rolledBack (pr : Nat) (s : State) : State :=
  modPair (rollPair pr (fun _ => false)
    ((cardsOn s pr).foldl (fun s n => modRun n (fun R => { R with rolls := R.rolls + 1 }) s) s)) pr
    fun P => { P with strikes := P.strikes + 1, rolls := rollsOf s pr, rolling := true }

section
variable {s : State} {pr : Nat} {bad : Bool} {sectors : List (Nat × Nat)}

section
variable (normal : ∀ g ∈ allOn s pr, isDet s g = false)
include normal

theorem strikePair_normal : strikePair pr bad s =
    if bad then pairLost pr (rolledBack pr s)
    else if 4 ≤ rollsOf s pr then askScan (2 * pr + 1) (askScan (2 * pr) (pairLost pr (rolledBack pr s)))
    else rolledBack pr s := by
  have det : ((allOn s pr).filter fun g => isDet s g && openWork (grp s g)) = [] :=
    List.filter_eq_nil_iff.mpr fun g hg => by simp [normal g hg]
  simp only [strikePair, det, List.foldl_nil, List.any_nil, Bool.or_false, decide_eq_true_eq, List.foldl_cons]
  rfl

end

theorem strike_pair (unsealed : (pair s pr).sealedAt ≠ some s.now) (hpr : pr ≤ 16) :
    strike 0 pr bad sectors s = strikePair pr bad (strikeCounted s) :=
  (if_neg unsealed).trans (if_pos hpr)

theorem strike_slice (hpr : pr < 32) : strike 1 pr bad sectors s =
    (sectors.filter fun x => l2Slice x.1 = pr).foldl scrubSector (strikeCounted s) := if_pos hpr

/-! ### One sector of a slice's scrub (R336) -/

section
variable {a : Nat} (valid : l2Valid s a = true)
include valid

theorem scrubSector_poisons (dirty : l2Dirty s (a / 64) = true) :
    scrubSector s (a, 2) = countUe (poisonSector a s) := by
  simp only [scrubSector, valid, dirty, Bool.not_true, Bool.false_eq_true, if_false, if_true]

theorem scrubSector_drops (clean : l2Dirty s (a / 64) = false) : scrubSector s (a, 2) = invalidateSector (a / 64) s := by
  simp only [scrubSector, valid, clean, Bool.not_true, Bool.false_eq_true, if_false]

theorem scrubSector_tag : scrubSector s (a, 3) = loseTag (a / 128) s := by
  simp only [scrubSector, valid, Bool.not_true, Bool.false_eq_true, if_false]

end

theorem resumePair_resumes (rolling : (pair s pr).rolling = true) :
    resumePair pr s = modPair s pr fun P => { P with rolling := false, openAt := s.now } := if_pos rolling

theorem resumePair_stays (running : (pair s pr).rolling = false) : resumePair pr s = s :=
  if_neg (ne_true_of_eq_false running)

end

theorem strikes : Obl.Strikes := by
  unfold Obl.Strikes
  intro s pr sectors s1 n counted back
  have onPair (bad : Bool) (unsealed : (pair s pr).sealedAt ≠ some s.now) (hpr : pr ≤ 16)
      (normal : ∀ g ∈ allOn s pr, isDet s g = false) : strike 0 pr bad sectors s =
        if bad then pairLost pr back
        else if 4 ≤ n then askScan (2 * pr + 1) (askScan (2 * pr) (pairLost pr back)) else back :=
    (strike_pair unsealed hpr).trans (strikePair_normal (s := s1) normal)
  refine ⟨fun unsealed hpr normal => ⟨fun few => ?_, fun many => ?_, ?_⟩, fun hpr => ?_,
    fun a valid => ⟨fun dirty => ?_, fun clean => ?_, ?_⟩, rfl, rfl, fun rolling => ?_, fun running => ?_⟩
  · exact congrArg Host.Outcome.next ((onPair false unsealed hpr normal).trans (if_neg (Nat.not_le.mpr few)))
  · exact congrArg Host.Outcome.next ((onPair false unsealed hpr normal).trans (if_pos many))
  · exact congrArg Host.Outcome.next (onPair true unsealed hpr normal)
  · exact congrArg Host.Outcome.next (strike_slice hpr)
  · exact scrubSector_poisons valid dirty
  · exact scrubSector_drops valid clean
  · exact scrubSector_tag valid
  · exact congrArg Host.Outcome.next (resumePair_resumes rolling)
  · exact congrArg Host.Outcome.next (resumePair_stays running)

/-! ### Scans (R337 to R339) -/

/-- Core `i` of the rotation that SCANSTAT stands at. -/
def rotated (s : State) (i : Nat) : Nat := (reg s rScanStat % 32 + i) % 32

/-- SPARES counts the units that a scan maps to spares, the core's faulty rows among them (R339). -/
def sparesMapped (c rows cols : Nat) (s : State) : State :=
  modCore (useSpares (max rows (core s c).faulty) cols s) c fun C => { C with faulty := 0 }

section
variable {s : State} {c : Nat} {x : Scan}

section
variable (unpostponed : ∀ y ∈ s.scans, y.stage ≠ 4)
include unpostponed

/-- Where no scan is postponed, the rotation's next core is due every 100 ms. -/
theorem scanDue_rotation : scanDue s =
    if s.now < s.scanAt + 100000000 then s
    else match (List.range 32).find? (fun i => !(reg s rRetired).testBit (rotated s i)) with
      | some i => wantScan (rotated s i) (setReg { s with scanAt := s.scanAt + 100000000 } rScanStat
          (setBits (reg s rScanStat) 4 0 ((rotated s i + 1) % 32)))
      | none => { s with scanAt := s.scanAt + 100000000 } := by
  have postponed : (s.scans.find? fun x => x.stage = 4 && decide (x.dueAt ≤ s.now)) = none :=
    List.find?_eq_none.mpr fun y hy => by simp [unpostponed y hy]
  have first : nbits (reg s rScanStat) 4 0 = reg s rScanStat % 32 := rfl
  simp only [scanDue, postponed, first, List.find?_map, Function.comp_def, rotated]
  cases (List.range 32).find? fun i => !(reg s rRetired).testBit ((reg s rScanStat % 32 + i) % 32) <;> rfl

theorem scanDue_early (early : s.now < s.scanAt + 100000000) : scanDue s = s :=
  (scanDue_rotation unpostponed).trans (if_pos early)

theorem scanDue_next {i : Nat} (due : s.scanAt + 100000000 ≤ s.now) (hi : i < 32)
    (used : (reg s rRetired).testBit (rotated s i) = false)
    (first : ∀ j < i, (reg s rRetired).testBit (rotated s j) = true) :
    scanDue s = wantScan (rotated s i) (setReg { s with scanAt := s.scanAt + 100000000 } rScanStat
      (setBits (reg s rScanStat) 4 0 ((rotated s i + 1) % 32))) := by
  have next : (List.range 32).find? (fun i => !(reg s rRetired).testBit (rotated s i)) = some i := by
    rw [List.find?_range_eq_some]
    exact ⟨by rw [used]; rfl, List.mem_range.mpr hi, fun j hj => by rw [first j hj]; rfl⟩
  rw [scanDue_rotation unpostponed, if_neg (Nat.not_lt.mpr due), next]

theorem scanDue_allRetired (due : s.scanAt + 100000000 ≤ s.now)
    (all : ∀ i < 32, (reg s rRetired).testBit (rotated s i) = true) :
    scanDue s = { s with scanAt := s.scanAt + 100000000 } := by
  have next : (List.range 32).find? (fun i => !(reg s rRetired).testBit (rotated s i)) = none :=
    List.find?_eq_none.mpr fun i hi => by simp [all i (List.mem_range.mp hi)]
  rw [scanDue_rotation unpostponed, if_neg (Nat.not_lt.mpr due), next]

end

section
variable (found : (s.scans.find? fun x => x.core = c) = some x)
include found

theorem forceDrain_drains (waits : x.stage = 2) (h : x.dueAt ≤ s.now ∨ criticalOn s c = false) :
    forceDrain c s = drainCore c s := by
  simp only [forceDrain, found]
  exact if_pos (by simpa [waits] using h)

theorem forceDrain_holds (early : s.now < x.dueAt) (critical : criticalOn s c = true) : forceDrain c s = s := by
  simp only [forceDrain, found]
  exact if_neg (by simp [critical, Nat.not_le.mpr early])

end

section
variable {rows cols : Nat} {pass spent : Bool}
  (found : (s.scans.find? fun x => x.core = c && decide (x.stage < 2)) = some x)
include found

theorem scanOver_busy (busy : coreDrained s c = false) : scanOver c pass rows cols spent s = s := by
  simp only [scanOver, found, busy, Bool.not_false, if_true]

variable (drained : coreDrained s c = true)
include drained

theorem scanOver_passes : scanOver c true rows cols spent s =
    (let passed := confirmCore c x.second (sparesMapped c rows cols s)
     dispatch (endScan c (if x.spent || spent then quarantineOnly c passed else passed))) := by
  simp only [scanOver, found, drained, Bool.not_true, Bool.false_eq_true, if_false, if_true, sparesMapped]

theorem scanOver_again (first : x.second = false) : scanOver c false rows cols spent s =
    setScan { x with stage := 1, second := true, spent := x.spent || spent }
      (countScanFail (sparesMapped c rows cols s)) := by
  simp only [scanOver, found, drained, first, Bool.not_true, Bool.not_false, Bool.false_eq_true, if_false, if_true,
    sparesMapped]

theorem scanOver_fails (second : x.second = true) : scanOver c false rows cols spent s =
    dispatch (endScan c (quarantine c (confirmCore c true (countScanFail (sparesMapped c rows cols s))))) := by
  simp only [scanOver, found, drained, second, Bool.not_true, Bool.false_eq_true, if_false, sparesMapped]

end

end

theorem scans : Obl.Scans := by
  unfold Obl.Scans
  intro s c rows cols x x0 s1 retired
  refine ⟨fun unpostponed => ⟨fun early => ?_, fun due => ⟨fun i hi used first => ?_, fun all => ?_⟩⟩,
    fun found waits => ⟨fun h => ?_, fun early critical => ?_⟩,
    fun found => ⟨fun busy => ?_, fun drained => ⟨fun fresh => ?_, fun spent => ?_, ?_, fun first => ?_,
      fun second => ?_⟩⟩⟩
  all_goals refine congrArg Host.Outcome.next ?_
  · exact scanDue_early unpostponed early
  · exact scanDue_next unpostponed due hi used first
  · exact scanDue_allRetired unpostponed due all
  · exact forceDrain_drains found waits h
  · exact forceDrain_holds found early critical
  · exact scanOver_busy found busy
  · rw [scanOver_passes found drained, fresh]
    rfl
  · rw [scanOver_passes found drained, spent]
    rfl
  · rw [scanOver_passes found drained, Bool.or_true]
    rfl
  · rw [scanOver_again found drained first, Bool.or_false]
    rfl
  · exact scanOver_fails found drained second

/-- Settles O44. A strike on a pair in normal mode is `strikePair_normal`, SCAN_DUE goes by the rotation
(`scanDue_rotation`), and a scan's end by whether it passed. The rollback count per pair with work, the quarantine at
the last spare and what a lost tag does are the model's choices (log entries 71, 72 and 134). -/
theorem strikesAndScans : Obligations.StrikesAndScans := ⟨strikes, scans⟩

end Sys2Proof.Machine
end

section
/-!
PROOFS. The state after reset (O53).
-/
namespace Sys2Proof.Machine

/-- After reset a register holds its reset value. -/
theorem reg_reset (off : Nat) : reg State.reset off = regReset off % 2 ^ 64 := BitVec.toNat_ofNat ..

theorem reg_reset_l2way {n : Nat} (h : n < 64) : reg State.reset (rL2way n) = 0xFFFF := by
  have way : 0x100000 ≤ rL2way n ∧ rL2way n < 0x100200 := by simp only [rL2way, mBase]; omega
  rw [reg_reset, regReset, if_neg (by simp only [rAdmCore]; omega), if_neg (by simp only [rAdmBw]; omega),
    if_neg (by simp only [rSpares]; omega), if_pos way]
  rfl

/-- A tree's word 5 holds MIN, which is 0xFFFFFFFF for an empty tree; its other words are 0. -/
theorem regReset_tree {n w : Nat} (hn : n < 64) (hw : w < 8) :
    regReset (treeReg n w) = if w = 5 then 0xFFFFFFFF else 0 := by
  have at0 : treeReg n w = 0x110000 + 64 * n + 8 * w := rfl
  have word : (0x110000 ≤ treeReg n w ∧ treeReg n w < 0x111000 ∧ treeReg n w % 64 = 40) ↔ w = 5 := by omega
  have other (off : Nat) (h : off < 0x110000 ∨ 0x111000 ≤ off) : treeReg n w ≠ off := by omega
  rw [regReset, if_neg (other _ (by decide)), if_neg (other _ (by decide)), if_neg (other _ (by decide)),
    if_neg (by omega), if_neg (other _ (by decide)), if_neg (other _ (by decide)), if_neg (other _ (by decide)),
    if_neg (other _ (by decide))]
  simp only [word]

theorem trees_reset {n : Nat} (h : n < 64) : trMin State.reset n = 0xFFFFFFFF ∧ trTotal State.reset n = 0 := by
  rw [trMin, trTotal, reg_reset, reg_reset, regReset_tree h (by decide), regReset_tree h (by decide)]
  decide

/-- A compute core has its smallest carve. -/
theorem core_reset {c : Nat} (h : c < 32) : core State.reset c = {} := if_pos h

/-- Every field of a card is 0. -/
theorem cardFld_reset (n hi lo : Nat) : cardFld State.reset n hi lo = 0 := by
  have empty : nget 0 State.reset.cards n = 0#1024 := rfl
  rw [cardFld, empty, BitVec.toNat_zero, nbits, Nat.zero_shiftRight, Nat.zero_mod]

/-- No core has a row that anything has written. -/
theorem rows_reset (c : Nat) : (core State.reset c).rows = [] := by
  by_cases h : c < 32 <;> simp [State.reset, core, Core.fresh, nget, nfind, h]

/-- Settles O53. Every map of the reset state is empty, so each object reads as its default and each register as its
reset value (`reg_reset`). That memory is empty and zero and that the rows are zero are the model's choices (log
entries 6 and 8). -/
theorem resetState : Obligations.ResetState := by
  unfold Obligations.ResetState
  refine ⟨rfl, fun _ => rfl, rfl, rfl, fun n => ?cards, fun _ => rfl, fun c n => ?rows, fun c h => ?carve,
    ⟨rfl, rfl, rfl⟩, rfl, rfl, rfl, rfl, rfl, rfl, rfl, rfl, rfl, fun n h => reg_reset_l2way h,
    fun n h => trees_reset h, rfl, rfl, rfl, rfl⟩
  case cards => exact ⟨cardFld_reset .., cardFld_reset .., cardFld_reset ..⟩
  case rows => rw [rows_reset]; rfl
  case carve => rw [core_reset h]; exact ⟨rfl, rfl, rfl⟩

end Sys2Proof.Machine
end

section
/-!
PROOFS. Suspend and resume (O46).
-/
namespace Sys2Proof.Machine

/-! ### The L2 empties (R400) -/

section
variable (s : State)

theorem dropSector_l2 (sec pid : Nat) : (dropSector sec pid s).l2 = s.l2 := by
  unfold dropSector
  split
  case h_1 => rfl
  case h_2 d _ =>
    by_cases drop : d.drop = true
    · simp only [if_pos drop]
    · obtain ⟨r, q, charged⟩ := chargeDram_eq (64 * sec) pid { s with dirty := ndel s.dirty sec }
      simp only [if_neg drop, charged]

/-- A key that the map does not hold takes nothing out of it. -/
theorem ndel_of_nfind_none {α : Type} {k : Nat} : ∀ {m : NMap α}, nfind m k = none → ndel m k = m
  | [], _ => rfl
  | (j, a) :: m, h => by
    simp only [nfind] at h
    split at h
    case isTrue => cases h
    case isFalse differs => rw [ndel_cons, if_neg differs, ndel_of_nfind_none h]

theorem evictLine_l2 (line : Nat) : (evictLine line s).l2 = ndel s.l2 line := by
  unfold evictLine
  split
  case h_1 absent => exact (ndel_of_nfind_none absent).symm
  case h_2 => simp only [dropL1, dropSector_l2]

theorem foldl_evictLine_l2 (lines : List Nat) : (lines.foldl (fun s line => evictLine line s) s).l2 =
    s.l2.filter fun x => x.1 ∉ lines := by
  induction lines generalizing s with
  | nil => simp
  | cons line lines ih =>
    rw [List.foldl_cons, ih, evictLine_l2, ndel, List.filter_filter]
    simp [Bool.and_comm]

theorem flushL2_l2 : (flushL2 s).l2 = [] := by
  rw [flushL2, foldl_evictLine_l2]
  exact List.filter_eq_nil_iff.mpr fun x hx => by simpa using ⟨x.2, hx⟩

end

/-! ### Power down (R400) -/

section
variable {s : State}

theorem suspStat_setSuspStat {x : Nat} (h : x < 4) : suspStat (setSuspStat x s) = x := by
  rw [suspStat, setSuspStat, reg_setReg]
  omega

/-- The low half of SUSPTIME is the time that a suspend took (R401). -/
theorem nbits_setBits_low (x v : Nat) : nbits (setBits x 31 0 v % 2 ^ 64) 31 0 = v % 2 ^ 32 := by
  simp only [nbits, setBits, Nat.shiftRight_zero]
  omega

/-- A core that loses its power has no rows. -/
theorem rows_powerOff {c : Nat} (h : c < 32) (m : NMap Core) :
    (nget (Core.fresh c) (m.map powerOffCore) c).rows = [] := by
  have keys (x : Nat × Core) : (powerOffCore x).1 = x.1 := by
    unfold powerOffCore
    split <;> rfl
  rw [nget, nfind_map powerOffCore keys]
  cases nfind m c with
  | none => simp [Core.fresh, h]
  | some C => simp [powerOffCore, h]

/-- The device as the last step of a suspend leaves it. -/
def poweredDown (s : State) : State :=
  let img := suspendImage s
  let s1 := flushL2 (l2Write s.susp.image img 0 (flushL2 s))
  let s2 : State := { s1 with
    tlb := []
    walkCache := []
    apLines := []
    cores := s1.cores.map powerOffCore
    susp := { s.susp with powerDown := s.now, len := img.length, digest := Config.shake256 img } }
  setSuspStat 2 (setReg s2 rSuspTime (setBits (reg s2 rSuspTime) 31 0 (s.now + 1 - s.susp.begun)))

theorem powerDown_ready (suspending : suspStat s = 1) (ready : suspendReady s = true) :
    powerDown s = poweredDown s :=
  if_neg (by simp [suspending, ready])

theorem powerDown_stays (h : suspStat s ≠ 1 ∨ suspendReady s = false) : powerDown s = s :=
  if_pos (by simpa using h)

theorem poweredDown_l2 : (poweredDown s).l2 = [] := by
  simp only [poweredDown, setSuspStat, setReg_l2, flushL2_l2]

theorem poweredDown_rows {c : Nat} (h : c < 32) : (core (poweredDown s) c).rows = [] := by
  simp only [poweredDown, setSuspStat, core, setReg_cores, rows_powerOff h]

theorem suspTime_poweredDown :
    nbits (reg (poweredDown s) rSuspTime) 31 0 = (s.now + 1 - s.susp.begun) % 2 ^ 32 := by
  have other : rSuspTime ≠ rSuspStat := by decide
  rw [poweredDown, setSuspStat, reg_setReg_ne _ _ other, reg_setReg, nbits_setBits_low]

/-! ### Resume (R402) -/

theorem resume_suspending (h : suspStat s = 1) :
    resume true s = { s with susp := { s.susp with wakeSeen := true } } := by
  simp only [resume, h, if_true]

/-- A suspended device resumes on a wake event, be it the present one or one seen before. -/
theorem resume_suspended (wake : Bool) (h : suspStat s = 2) :
    resume wake s = if wake || s.susp.wakeSeen then beginResume s else s := by
  simp only [resume, h]

theorem resume_resuming (wake : Bool) (h : suspStat s = 3) : resume wake s = endResume s := by
  simp only [resume, h]

theorem resumeAlarm_due (h : suspStat s = 2) (set : reg s rResAlarm ≠ 0) (come : reg s rResAlarm ≤ s.now) :
    resumeAlarm s = beginResume s :=
  if_pos (by simp [h, set, come])

theorem resumeAlarm_unset (h : reg s rResAlarm = 0) : resumeAlarm s = s := if_neg (by simp [h])

end

/-- Settles O46. SUSPEND_POWER_DOWN ends in `poweredDown`, with the L2 flushed (`flushL2_l2`); RESUME and RESUME_ALARM go
by SUSPSTAT. The contexts of the ochre cluster that run on, the image's layout and the two resume events are the model's
choices (log entries 69, 13 and 70). -/
theorem suspendResume : Obligations.SuspendResume := by
  unfold Obligations.SuspendResume
  intro s
  refine ⟨fun stays => ?_, fun suspending ready => ⟨poweredDown s, ?_, suspStat_setSuspStat (by decide), rfl, rfl,
    poweredDown_l2, rfl, rfl, suspTime_poweredDown, fun c h => poweredDown_rows h⟩, fun h => ?_, fun h => ?_,
    fun h seen => ?_, fun h unseen => ?_, fun h => ?_, fun h set come => ?_, fun unset => ?_⟩
  all_goals refine congrArg Host.Outcome.next ?_
  · exact powerDown_stays stays
  · exact powerDown_ready suspending ready
  · exact resume_suspending h
  · exact resume_suspended true h
  · rw [resume_suspended false h, seen]
    rfl
  · rw [resume_suspended false h, unseen]
    rfl
  · exact resume_resuming false h
  · exact resumeAlarm_due h set come
  · exact resumeAlarm_unset unset

end Sys2Proof.Machine
end

section
/-!
PROOFS. Power-on, boot stages and mailbox commands (O47).
-/
namespace Sys2Proof.Machine

/-! ### Boot (R375, R385, R388 to R390) -/

section
variable {s : State} {n mask : Nat} {img img2 : List Byte} {ok : Bool}

/-- A boot that is over or has failed makes no further stage. -/
theorem bootStage_over (h : 7 ≤ s.island.stage ∨ s.island.failed = true) : bootStage ok img img2 mask s = s :=
  if_pos (by rcases h with h | h <;> simp [h])

/-- The traffic of the L2 takes no time of its own. -/
theorem l2Quiet_now (time : Nat) : L2Quiet fun s => s.now = time where
  charge _ _ _ h := h
  lines _ _ h := h
  cores _ _ h := h
  drop s sec pid h := by
    unfold dropSector
    split
    case h_1 => exact h
    case h_2 d _ =>
      dsimp only
      split
      case isTrue => exact h
      case isFalse =>
        obtain ⟨r, q, charged⟩ := chargeDram_eq (64 * sec) pid { s with dirty := ndel s.dirty sec }
        rw [charged]
        exact h

theorem l2WriteSector_now (pa pid : Nat) (bytes : List Byte) (s : State) :
    (l2WriteSector pa bytes pid s).now = s.now := by
  unfold l2WriteSector l2WriteSectorAs
  split
  case h_1 => exact markDirty_keeps (l2Quiet_now s.now) 0 pa pid rfl (fun _ h => h) fun _ _ _ h => h
  case h_2 => split <;> rfl
  all_goals rfl

theorem l2Write_now (pa pid : Nat) (bytes : List Byte) (s : State) : (l2Write pa bytes pid s).now = s.now := by
  have aux (fuel : Nat) : ∀ pa bytes s, (l2WriteAux fuel pa bytes pid s).now = s.now := by
    induction fuel with
    | zero => exact fun _ _ _ => rfl
    | succ fuel ih =>
      intro pa bytes s
      rw [l2WriteAux]
      split
      · rfl
      · rw [ih, l2WriteSector_now]
  exact aux _ pa bytes s

theorem takeImage_now (kind : Nat) : (takeImage kind img s).now = s.now := by
  unfold takeImage
  dsimp only
  split
  · rfl
  · rw [l2Write_now]

/-- A stage that is neither over nor before the first fails where its hardware does. -/
theorem bootStage_fails (first : 1 ≤ s.island.stage) (last : s.island.stage < 7) (going : s.island.failed = false) :
    bootStage false img img2 mask s = stageFails s.island.stage 0 s := by
  have started : s.island.stage ≠ 0 := by omega
  simp [bootStage, started, Nat.not_le.mpr last, going]

section
variable (going : s.island.failed = false)
include going

theorem bootStage_one (stage : s.island.stage = 1) : bootStage true img img2 mask s = stageEnds 1 s := by
  simp [bootStage, stage, going]

theorem bootStage_two (stage : s.island.stage = 2) : bootStage true img img2 mask s =
    if imageOk s 1 img then stageEnds 2 (takeImage 1 img s) else stageFails 2 1 s := by
  simp [bootStage, stage, going]

theorem bootStage_three (stage : s.island.stage = 3) :
    bootStage true img img2 mask s = stageEnds 3 (clearDram s) := by
  simp [bootStage, stage, going]

theorem bootStage_four (stage : s.island.stage = 4) :
    bootStage true img img2 mask s = stageEnds 4 (setPcie (writeDevice s)) := by
  simp [bootStage, stage, going]

theorem bootStage_five (stage : s.island.stage = 5) : bootStage true img img2 mask s =
    (let u := takeImage 2 img s
     if imageOk s 2 img then stageEnds 5 { u with island := { u.island with hbAt := s.now } } else stageFails 5 2 s) := by
  simp [bootStage, stage, going, takeImage_now]

theorem bootStage_six (stage : s.island.stage = 6) (good : imageOk s 3 img = true)
    (good2 : imageOk (takeImage 3 img s) 4 img2 = true) : bootStage true img img2 mask s =
      dispatch (stageEnds 6 (bootScan mask (takeImage 4 img2 (takeImage 3 img s)))) := by
  simp [bootStage, stage, going, good, good2]

end

theorem writeDevice_several (h : soleDevice s = false) : writeDevice s = s := if_neg (ne_true_of_eq_false h)

theorem writeDevice_sole (h : soleDevice s = true) : writeDevice s = setReg s rDevid (devid s / 4 * 4) := if_pos h

end

theorem bootStages : Obl.BootStages := by
  unfold Obl.BootStages
  intro s img img2 mask n
  refine ⟨⟨_, rfl, rfl, rfl, rfl, rfl, rfl, rfl, rfl, rfl⟩, fun first last going => ?_,
    fun past => congrArg Host.Outcome.next (bootStage_over past), rfl⟩
  refine ⟨?_, fun stage => ?_, fun stage several => ?_, fun stage sole => ?_, fun stage => ?_, fun stage good => ?_,
    fun stage bad => ?_, fun stage good => ?_, fun stage bad => ?_, fun stage good good2 => ?_⟩
  all_goals refine congrArg Host.Outcome.next ?_
  · exact bootStage_fails first last going
  · exact bootStage_one going stage
  · rw [bootStage_four going stage, writeDevice_several several]
  · rw [bootStage_four going stage, writeDevice_sole sole]
  · exact bootStage_three going stage
  · exact (bootStage_two going stage).trans (if_pos good)
  · exact (bootStage_two going stage).trans (if_neg (ne_true_of_eq_false bad))
  · exact (bootStage_five going stage).trans (if_pos good)
  · exact (bootStage_five going stage).trans (if_neg (ne_true_of_eq_false bad))
  · exact bootStage_six going stage good good2

/-! ### Mailbox commands (R391 to R394) -/

/-- An agent that reaches its sectors, and has been served what it reads, goes on. -/
theorem outsideReach_reached {n pid : Nat} {touch reads : List Nat} {k : State → State} {s u : State}
    (h : Obl.Reached n pid touch reads s u) : outsideReach n pid touch reads k s = k u := by
  obtain ⟨awake, served⟩ := h
  have woken : touch.any (dramSleeps s) = false := by simpa using awake
  simp only [outsideReach, woken, served, Bool.false_eq_true, if_false, if_true]

section
variable {s : State} {code arg : Nat}

/-- Without a command in progress no command's event does anything. -/
theorem mailbox_idle (idle : s.island.mb = none) :
    mbAttest s = s ∧ mbRestart s = s ∧ mbCommitsv s = s ∧ mbInvalid s = s := by
  simp only [mbAttest, mbRestart, mbCommitsv, mbInvalid, idle, and_self]

section
variable (asked : s.island.mb = some (1, arg))
include asked

theorem mbAttest_begins (unsigned : s.island.signing = none) : mbAttest s = attestBegin s := by
  simp only [mbAttest, asked, unsigned]

theorem mbAttest_releases {i : Nat} {r : List Byte} (signing : s.island.signing = some (i, r)) :
    mbAttest s = mbDone 0 (l2Write (reg s rMbAddr) (r ++ (List.range 9893).map (Config.signByte i r)) 0
      { s with island := { s.island with signing := none } }) := by
  simp only [mbAttest, asked, signing]

end

/-- The key has 2^40 indices. -/
theorem attestBegin_exhausted (h : 2 ^ 40 ≤ s.island.keyIndex) : attestBegin s = mbDone 3 s := if_pos h

theorem attestBegin_takes {u : State} (h : s.island.keyIndex < 2 ^ 40)
    (reached : Obl.Reached 1 0 [reg s rMbAddr] [reg s rMbAddr] s u) : attestBegin s = { u with island := { u.island with
      keyIndex := s.island.keyIndex + 1
      signing := some (s.island.keyIndex, attestReport u (l2Read u (reg s rMbAddr + 16) 32)) } } :=
  (if_neg (Nat.not_le.mpr h)).trans (outsideReach_reached reached)

section
variable (asked : s.island.mb = some (2, arg)) (may : mayRestart s (arg % 256) = true)
include asked may

theorem mbRestart_restarts {t : State} (engine : restartEngine (arg % 256) s = some t) : mbRestart s = mbDone 0 t := by
  simp only [mbRestart, asked, may, engine, Bool.not_true, Bool.false_eq_true, if_false]

theorem mbRestart_unknown (unlisted : 0x52 ≤ arg % 256) : mbRestart s = mbDone 2 s := by
  have engine : restartEngine (arg % 256) s = none := by
    rw [restartEngine, if_neg (by omega), if_neg (by omega), if_neg (by omega), if_neg (by omega), if_neg (by omega),
      if_neg (by omega)]
  simp only [mbRestart, asked, may, engine, Bool.not_true, Bool.false_eq_true, if_false]

end

/-- The least security versions that COMMITSV leaves: those of the images that run, where they are greater (R393). -/
def svnCommitted (s : State) : NMap Nat :=
  [1, 2, 3, 4].foldl (fun m k => nput m k (max (svnFloor s k) (nget 0 s.island.svnRun k))) s.island.svnMin

theorem mbCommitsv_commits (asked : s.island.mb = some (3, arg)) :
    mbCommitsv s = mbDone 0 { s with island := { s.island with svnMin := svnCommitted s } } := by
  simp only [mbCommitsv, asked, svnCommitted]

theorem nget_svnCommitted {k : Nat} (lo : 1 ≤ k) (hi : k ≤ 4) :
    nget 0 (svnCommitted s) k = max (svnFloor s k) (nget 0 s.island.svnRun k) := by
  simp only [svnCommitted, List.foldl_cons, List.foldl_nil]
  interval_cases k <;> simp [nget_nput_self, nget_nput_ne]

theorem mbInvalid_ends (asked : s.island.mb = some (code, arg)) (h1 : code ≠ 1) (h2 : code ≠ 2) (h3 : code ≠ 3) :
    mbInvalid s = mbDone 2 s := by
  simp [mbInvalid, asked, h1, h2, h3]

end

theorem mailboxCommands : Obl.MailboxCommands := by
  unfold Obl.MailboxCommands
  intro s code arg ended
  refine ⟨fun idle => ?_, fun asked unsigned used => ?_, fun asked unsigned left u reached => ?_,
    fun i r asked signing => ?_, fun asked may => ⟨fun t engine => ?_, fun unlisted => ?_⟩, fun asked => ?_,
    fun asked h1 h2 h3 => ?_⟩
  · obtain ⟨attest, restart, commitsv, invalid⟩ := mailbox_idle idle
    exact ⟨congrArg Host.Outcome.next attest, congrArg Host.Outcome.next restart,
      congrArg Host.Outcome.next commitsv, congrArg Host.Outcome.next invalid⟩
  · exact congrArg Host.Outcome.next ((mbAttest_begins asked unsigned).trans (attestBegin_exhausted used))
  · exact congrArg Host.Outcome.next ((mbAttest_begins asked unsigned).trans (attestBegin_takes left reached))
  · exact congrArg Host.Outcome.next (mbAttest_releases asked signing)
  · exact congrArg Host.Outcome.next (mbRestart_restarts asked may engine)
  · exact congrArg Host.Outcome.next (mbRestart_unknown asked may unlisted)
  · exact ⟨_, congrArg Host.Outcome.next (mbCommitsv_commits asked), rfl, fun k lo hi => nget_svnCommitted lo hi⟩
  · exact congrArg Host.Outcome.next (mbInvalid_ends asked h1 h2 h3)

/-- Settles O47. Each boot stage has its equation, and each mailbox command in `mbDone`, or with
its index taken (`attestBegin_takes`). The power-on state and its zero memory, what the lockstep reset clears, when
RESTART completes, and the sole device are the model's choices (log entries 73, 6, 76 and 133). -/
theorem bootAndMailbox : Obligations.BootAndMailbox := ⟨bootStages, mailboxCommands⟩

end Sys2Proof.Machine
end

section
/-!
PROOFS. Link states and global time (O35).
-/
namespace Sys2Proof.Machine

/-! ### Flits (R228, R374) -/

section
variable {s : State} {n x peer lanes : Nat}

section
variable (link : n < 4) (up : linkUp s n = true)
include link up

/-- A link that is up takes its flits. -/
theorem flit_taken : ¬(!linkUp s n || decide (4 ≤ n)) = true := by
  simpa [up] using link

theorem flitReceive_whole : flitReceive n 0 x s = s := if_neg (flit_taken link up)

theorem flitReceive_bad : flitReceive n 1 x s = s := if_neg (flit_taken link up)

theorem flitReceive_resend : flitReceive n 2 x s = setReg s (rLk n 0x10) (reg s (rLk n 0x10) + 1) :=
  if_neg (flit_taken link up)

theorem flitReceive_stop (hx : x < 4) :
    flitReceive n 3 x s = countStop n x { s with linkStop := s.linkStop ||| 2 ^ (4 * n + x) } :=
  (if_neg (flit_taken link up)).trans (if_pos hx)

theorem flitReceive_go (hx : x < 4) :
    flitReceive n 4 x s = { s with linkStop := setBits s.linkStop (4 * n + x) (4 * n + x) 0 } :=
  (if_neg (flit_taken link up)).trans (if_pos hx)

/-- The first news that a group of another device has retired is kept. -/
theorem flitReceive_retired (route : hwRoute s (x % 4) = some n) (away : x % 4 ≠ deviceNo s)
    (fresh : (x % 4, x / 4) ∉ s.farRetired) :
    flitReceive n 7 x s = { s with farRetired := s.farRetired ++ [(x % 4, x / 4)] } :=
  (if_neg (flit_taken link up)).trans (if_pos (by simp [route, away, fresh]))

end

/-! ### Links that come up and go down (R374, R375) -/

section
variable {t : Nat} (trains : nfind s.retrain n = some t)
include trains

theorem linkComesUp_trained (booted : 5 ≤ s.island.stage) : linkComesUp n peer lanes s =
    (let u := linkRestarted n (setLlock (setReg { s with retrain := ndel s.retrain n } (rLk n 8)
      (1 + peer % 4 * 2 + lanes % 32 * 16)))
     if linkUp s n then u else raiseInt 5 u) := by
  simp only [linkComesUp, trains, if_neg (Nat.not_lt.mpr booted)]

theorem linkGoesDown_early (early : s.now < t + 1000000) : linkGoesDown n s = s := by
  simp only [linkGoesDown, trains, if_pos early]

/-- A link on which nothing is in flight goes down after 1 ms, and its channels are no longer stopped. -/
theorem linkGoesDown_late (late : t + 1000000 ≤ s.now) (noMsg : ∀ m ∈ s.msgs, m.stage ≠ 1)
    (noPart : ∀ o ∈ s.outParts, o.sent = false) : linkGoesDown n s =
    (let u : State := { s with
      retrain := ndel s.retrain n
      linkStop := s.linkStop - nbits s.linkStop (4 * n + 3) (4 * n) * 2 ^ (4 * n) }
     let v := linkRestarted n (setLlock (setReg u (rLk n 8) (setBits (setBits (reg u (rLk n 8)) 0 0 0) 3 3 0)))
     if linkUp s n then raiseInt 5 v else v) := by
  have flying : (s.msgs.filter fun m => m.stage = 1 && m.ddev ≠ deviceNo s && msgLink s m = some n) = [] :=
    List.filter_eq_nil_iff.mpr fun m hm => by simp [noMsg m hm]
  have msgs : (s.msgs.filter fun m => !(m.stage = 1 && m.ddev ≠ deviceNo s && msgLink s m = some n)) = s.msgs :=
    List.filter_eq_self.mpr fun m hm => by simp [noMsg m hm]
  have parts : (s.outParts.filter fun o => !(o.sent && hwRoute s o.dev = some n)) = s.outParts :=
    List.filter_eq_self.mpr fun o ho => by simp [noPart o ho]
  simp only [linkGoesDown, trains, if_neg (Nat.not_lt.mpr late), flying, List.foldl_nil, msgs, parts]

end

end

theorem linkStates : Obl.LinkStates := by
  unfold Obl.LinkStates
  intro s n x peer lanes
  refine ⟨fun link up => ⟨?_, ?_, ?_, fun hx => ?_, fun hx => ?_, fun route away fresh => ?_⟩,
    fun t trains => ⟨fun booted => ?_, fun early => ?_, fun late noMsg noPart => ?_⟩, fun link => ?_⟩
  all_goals refine congrArg Host.Outcome.next ?_
  · exact flitReceive_whole link up
  · exact flitReceive_bad link up
  · exact flitReceive_resend link up
  · exact flitReceive_stop link up hx
  · exact flitReceive_go link up hx
  · exact flitReceive_retired link up route away fresh
  · exact linkComesUp_trained trains booted
  · exact linkGoesDown_early trains early
  · exact linkGoesDown_late trains late noMsg noPart
  · exact if_neg (Nat.not_le.mpr link)

/-! ### Global time (R6, R8, R377 to R379) -/

section
variable {s : State} {n t1 t2 t3 t4 x : Nat} {lock : Bool} {m : PtpMsg}

theorem linkTime_follows (link : n < 4) (up : linkUp s n = true) (follower : isMaster s = false)
    (source : timeSource s = some (linkPeerDev s n)) : linkTime n t1 t2 t3 t4 s =
    (let o := offsetOf t1 t2 t3 t4
     let s1 := setReg { s with slew := -(o * 1000000000) } (rLk n 0x28) (cut 64 o)
     setLlock (setReg s1 (rLk n 8) (reg s1 (rLk n 8) ||| 8))) :=
  if_neg (by simpa [follower, up, source] using link)

theorem linkTime_ignores (h : isMaster s = true ∨ timeSource s ≠ some (linkPeerDev s n)) :
    linkTime n t1 t2 t3 t4 s = s :=
  if_pos (by rcases h with h | h <;> simp [h])

theorem ptpMessage_other (h : reg s rTSync % 4 ≠ m.port ∨ nbits (reg s rTSync) 9 2 ≠ m.dom) :
    ptpMessage m lock t1 t2 t3 t4 s = s :=
  if_pos (by simpa using h)

section
variable (port : reg s rTSync % 4 = m.port) (dom : nbits (reg s rTSync) 9 2 = m.dom)
include port dom

/-- A message of TSYNC's port and domain sets LOCK, and one that completes an exchange gives the offset. -/
theorem ptpMessage_own : ptpMessage m lock t1 t2 t3 t4 s =
    (let o := offsetOf t1 t2 t3 t4
     let s1 := if m.whole then setReg s rTOffset (cut 64 o) else s
     setTstat 0 lock (if !m.whole || (reg s rDutySel).testBit 5 then s1
       else setReg { s1 with slew := -(o * 1000000000) } rTRate (cut 64 (servoRate s)))) :=
  if_neg (by simp [port, dom])

theorem ptpMessage_part (part : m.whole = false) : ptpMessage m lock t1 t2 t3 t4 s = setTstat 0 lock s := by
  simp only [ptpMessage_own port dom, part, Bool.not_false, Bool.true_or, Bool.false_eq_true, if_false, if_true]

theorem ptpMessage_host (whole : m.whole = true) (host : (reg s rDutySel).testBit 5 = true) :
    ptpMessage m lock t1 t2 t3 t4 s =
      setTstat 0 lock (setReg s rTOffset (cut 64 (offsetOf t1 t2 t3 t4))) := by
  simp only [ptpMessage_own port dom, whole, host, Bool.or_true, if_true]

theorem ptpMessage_hardware (whole : m.whole = true) (hardware : (reg s rDutySel).testBit 5 = false) :
    ptpMessage m lock t1 t2 t3 t4 s = setTstat 0 lock
      (setReg { setReg s rTOffset (cut 64 (offsetOf t1 t2 t3 t4)) with slew := -(offsetOf t1 t2 t3 t4 * 1000000000) }
        rTRate (cut 64 (servoRate s))) := by
  simp only [ptpMessage_own port dom, whole, hardware, Bool.not_true, Bool.or_false, Bool.false_eq_true, if_false,
    if_true]

end

theorem syncInterval_due (host : (reg s rDutySel).testBit 5 = true) (due : s.syncNext ≤ s.now) : syncInterval x s =
    askDuty { kind := 5, time := s.now, arg0 := s.now, arg1 := x, arg2 := reg s rTOffset }
      { s with syncNext := (s.now / syncPeriod s + 1) * syncPeriod s } :=
  if_pos (by rw [host, decide_eq_true due]; rfl)

theorem syncInterval_stays (h : (reg s rDutySel).testBit 5 = false ∨ s.now < s.syncNext) : syncInterval x s = s :=
  if_neg (by simpa [or_iff_not_imp_left] using h)

end

theorem timeEvents : Obl.TimeEvents := by
  unfold Obl.TimeEvents
  intro s n port dom t1 t2 t3 t4 x whole lock o host told
  refine ⟨fun link up follower source => ?_, fun ignores => ?_, fun other => ?_,
    fun own inDom => ⟨?_, fun assisted => ?_, fun hardware => ?_⟩, fun assisted due => ?_, fun stays => ?_, rfl⟩
  all_goals refine congrArg Host.Outcome.next ?_
  · exact linkTime_follows link up follower source
  · exact linkTime_ignores ignores
  · exact ptpMessage_other other
  · exact ptpMessage_part own inDom rfl
  · exact ptpMessage_host own inDom rfl assisted
  · exact ptpMessage_hardware own inDom rfl hardware
  · exact syncInterval_due assisted due
  · exact syncInterval_stays stays

/-- Settles O35. Each flit, each change of a link and each time event has its equation. A flit that tells of a retired
group, the offset that replaces what is left of the slew, LLOCK and TLOCK, and the time source with its interval are the
model's choices (log entries 117, 62, 63 and 137). -/
theorem linksAndTime : Obligations.LinksAndTime := ⟨linkStates, timeEvents⟩

end Sys2Proof.Machine
end

section
/-!
PROOFS. Writes of tree, TLBINV, interrupt, scan, wake and suspend registers (O38).
-/
namespace Sys2Proof.Machine

/-! ### Writes of a tree's words (R12, R359) -/

section
variable {s : State} {n w : Nat}

theorem treeReg_place (hn : n < 64) (hw : w < 8) : treeReg n w / 0x10000 = 0x11 ∧ treeReg n w % 0x1000 / 64 = n ∧
    treeReg n w / 8 % 8 = w ∧ treeReg n w % 8 = 0 ∧ 0x110000 ≤ treeReg n w ∧ treeReg n w < 0x111000 := by
  rw [treeReg]
  omega

/-- The first four words of a tree can be written. -/
theorem regKind_tree (hn : n < 64) (hw : w < 4) : ∃ m, regKind (treeReg n w) = some (.rw m) := by
  obtain ⟨block, -, word, aligned, lo, hi⟩ := treeReg_place hn (by omega : w < 8)
  have offset : treeReg n w % 0x10000 < 0x1000 := by omega
  have word : treeReg n w % 0x10000 / 8 % 8 = w := by omega
  simp only [regKind, if_neg (show ¬treeReg n w % 8 ≠ 0 by omega),
    if_neg (show ¬(0x10000 ≤ treeReg n w ∧ treeReg n w < 0x90000) by omega), block, treeRegKind, if_pos offset, word]
  interval_cases w <;> exact ⟨_, rfl⟩

theorem regRead_tree (hn : n < 64) (hw : w < 4) : regRead s (treeReg n w) = reg s (treeReg n w) := by
  obtain ⟨m, kind⟩ := regKind_tree hn hw
  obtain ⟨-, -, -, -, lo, hi⟩ := treeReg_place hn (by omega : w < 8)
  simp only [regRead, kind, if_neg (show ¬(0x10000 ≤ treeReg n w ∧ treeReg n w < 0x90000) by omega),
    if_neg (show treeReg n w ≠ rDevid by rw [rDevid]; omega)]

theorem regWrite_tree {x : Nat} {bytes : List Nat} (hn : n < 64) (hw : w < 4) :
    regWrite .host (treeReg n w) x bytes s = treeWrite .host (treeReg n w) x bytes s := by
  obtain ⟨m, kind⟩ := regKind_tree hn hw
  obtain ⟨-, -, -, -, lo, hi⟩ := treeReg_place hn (by omega : w < 8)
  have other (off : Nat) (h : off < 0x110000 ∨ 0x111000 ≤ off) : treeReg n w ≠ off := by omega
  have free : islandOnly (treeReg n w) = false := by
    simp [islandOnly, other 0x18, other rDevid (by decide), other 0x130010, other 0x180048]
  simp only [regWrite, free, kind, Bool.false_and, Bool.false_eq_true, if_false]
  rw [if_neg (by omega), if_neg (other _ (by decide)), if_neg (other _ (by decide)), if_neg (by omega),
    if_neg (other _ (by decide)), if_pos ⟨lo, hi⟩]

/-- A host's write of bytes of a tree's word, the bytes beside them kept. -/
theorem treeBytes_eq {b : Nat} {bs : List Byte} (hn : n < 64) (hw : w < 4) (len : bs.length ∈ [1, 2, 4, 8])
    (inside : b + bs.length ≤ 8) (aligned : b % bs.length = 0) : treeBytes n (8 * w + b) bs s =
      treeWrite .host (treeReg n w)
        (setBits (reg s (treeReg n w)) (8 * b + 8 * bs.length - 1) (8 * b) (ofBytes bs))
        ((List.range bs.length).map (b + ·)) s := by
  have size : bs.length = 1 ∨ bs.length = 2 ∨ bs.length = 4 ∨ bs.length = 8 := by simpa using len
  obtain ⟨m, kind⟩ := regKind_tree hn hw
  have at0 : 0x110000 + 64 * n + (8 * w + b) = treeReg n w + b := by rw [treeReg]; omega
  obtain ⟨-, -, -, word, lo, hi⟩ := treeReg_place hn (by omega : w < 8)
  have base : (treeReg n w + b) / 8 * 8 = treeReg n w := by omega
  have place : (treeReg n w + b) % 8 = b := by omega
  have fit : (treeReg n w + b) % bs.length = 0 := by
    rcases size with e | e | e | e <;> rw [e] at aligned ⊢ <;> omega
  have fits : regFits (treeReg n w + b) bs.length = true := by
    simp only [regFits, fit, base, kind, Option.isSome_some, Bool.and_true, decide_true]
    rcases size with e | e | e | e <;> rw [e] <;> rfl
  have inRegion : isEcam (treeReg n w + b) = false := decide_eq_false (by omega)
  rw [treeBytes, if_neg (Nat.not_le.mpr hn), at0, regStore, if_neg (ne_true_of_eq_false inRegion), fits]
  simp only [base, place, kind, regRead_tree hn hw, regWrite_tree hn hw, Bool.not_true, Bool.false_eq_true, if_false]

/-- A register holds 64 bits. -/
theorem reg_lt (off : Nat) : reg s off < 2 ^ 64 := BitVec.isLt _

theorem setBits_whole {x v : Nat} (hx : x < 2 ^ 64) (hv : v < 2 ^ 64) : setBits x 63 0 v = v := by
  simp only [setBits, nbits, Nat.shiftRight_zero]
  omega

/-- A configuration write acts at once where the tree is not clearing, and else takes its place behind the clear. -/
theorem treeWrite_idle {who : Agent} {x : Nat} {bytes : List Nat} (hn : n < 64) (hw : w < 8)
    (idle : s.treeBusy.testBit n = false) :
    treeWrite who (treeReg n w) x bytes s = treeApply who (treeReg n w) x bytes s := by
  obtain ⟨-, tree, -⟩ := treeReg_place hn hw
  rw [treeWrite, tree, if_neg (ne_true_of_eq_false idle)]

theorem treeWrite_clearing {who : Agent} {x : Nat} {bytes : List Nat} (hn : n < 64) (hw : w < 8)
    (busy : s.treeBusy.testBit n = true) : treeWrite who (treeReg n w) x bytes s =
      { s with treeWait := s.treeWait ++ [⟨who, treeReg n w, x, bytes⟩] } := by
  obtain ⟨-, tree, -⟩ := treeReg_place hn hw
  rw [treeWrite, tree, if_pos busy]

/-- Word 0 is BASE, word 2 NSIZE and word 3 SEED. -/
theorem treeApply_base {x : Nat} {bytes : List Nat} (hn : n < 64) :
    treeApply .host (treeReg n 0) x bytes s = treeCfg n 0 x s := by
  obtain ⟨-, tree, word, -⟩ := treeReg_place hn (by decide : 0 < 8)
  unfold treeApply
  rw [tree, word]
  rfl

theorem treeApply_seed {x : Nat} {bytes : List Nat} (hn : n < 64) :
    treeApply .host (treeReg n 3) x bytes s = treeCfg n 4 x s := by
  obtain ⟨-, tree, word, -⟩ := treeReg_place hn (by decide : 3 < 8)
  unfold treeApply
  rw [tree, word]
  rfl

theorem treeApply_nsize {x : Nat} (hn : n < 64) :
    treeApply .host (treeReg n 2) x [0, 1, 2, 3] s = treeCfg n 3 (x % 2 ^ 32) s := by
  obtain ⟨-, tree, word, -⟩ := treeReg_place hn (by decide : 2 < 8)
  unfold treeApply
  rw [tree, word]
  rfl

/-- Word 1 holds LEVELS, EN and CTXID below, and BETA above. -/
theorem treeApply_levels {x : Nat} (hn : n < 64) : treeApply .host (treeReg n 1) x [0] s =
    treeCfg n 1 (x % 16) (treeSet n 1 10 5 (nbits x 10 5) (treeSet n 1 4 4 (nbits x 4 4) s)) := by
  obtain ⟨-, tree, word, -⟩ := treeReg_place hn (by decide : 1 < 8)
  unfold treeApply
  rw [tree, word]
  rfl

theorem treeApply_beta {x : Nat} (hn : n < 64) :
    treeApply .host (treeReg n 1) x [4, 5, 6, 7] s = treeCfg n 2 (x / 2 ^ 32) s := by
  obtain ⟨-, tree, word, -⟩ := treeReg_place hn (by decide : 1 < 8)
  unfold treeApply
  rw [tree, word]
  rfl

/-! ### The events of a tree's table (R359, R362, R365) -/

/-- A write of a whole word gives its new value. -/
theorem treeBytes_word (x : Nat) (hn : n < 64) (hw : w < 4) : treeBytes n (8 * w) (toBytes 8 x) s =
    treeWrite .host (treeReg n w) (x % 2 ^ 64) (List.range 8) s := by
  have bytes := treeBytes_eq (s := s) (b := 0) (bs := toBytes 8 x) hn hw (by simp) (by simp) (by simp)
  rw [toBytes_length, ofBytes_toBytes] at bytes
  exact bytes.trans (congrArg (treeWrite .host (treeReg n w) · _ s) (setBits_whole (reg_lt _) (Nat.mod_lt _ (by decide))))

theorem treeBytes_base (x : Nat) (hn : n < 64) : treeBytes n 0 (toBytes 8 x) s =
    treeWrite .host (treeReg n 0) (x % 2 ^ 64) (List.range 8) s := treeBytes_word (w := 0) x hn (by decide)

theorem treeBytes_seed (x : Nat) (hn : n < 64) : treeBytes n 24 (toBytes 8 x) s =
    treeWrite .host (treeReg n 3) (x % 2 ^ 64) (List.range 8) s := treeBytes_word (w := 3) x hn (by decide)

theorem treeBytes_beta (x : Nat) (hn : n < 64) : treeBytes n 12 (toBytes 4 x) s =
    treeWrite .host (treeReg n 1) (setBits (reg s (treeReg n 1)) 63 32 (x % 2 ^ 32)) [4, 5, 6, 7] s := by
  have bytes := treeBytes_eq (s := s) (w := 1) (b := 4) (bs := toBytes 4 x) hn (by decide) (by simp) (by simp) (by simp)
  rw [toBytes_length, ofBytes_toBytes] at bytes
  exact bytes

theorem treeBytes_nsize (x : Nat) (hn : n < 64) : treeBytes n 16 (toBytes 4 x) s =
    treeWrite .host (treeReg n 2) (setBits (reg s (treeReg n 2)) 31 0 (x % 2 ^ 32)) [0, 1, 2, 3] s := by
  have bytes := treeBytes_eq (s := s) (w := 2) (b := 0) (bs := toBytes 4 x) hn (by decide) (by simp) (by simp) (by simp)
  rw [toBytes_length, ofBytes_toBytes] at bytes
  exact bytes

/-- A write of LEVELS alone gives word 1 with those bits replaced. -/
theorem treeLevels_eq (x : Nat) (hn : n < 64) : treeLevels n x s =
    treeWrite .host (treeReg n 1) (setBits (reg s (treeReg n 1)) 3 0 x) [0] s := by
  have bytes := treeBytes_eq (s := s) (w := 1) (b := 0)
    (bs := [BitVec.ofNat 8 (setBits (reg s (treeReg n 1)) 3 0 x)]) hn (by decide) (by simp) (by simp) (by simp)
  have value : setBits (reg s (treeReg n 1)) 7 0 (ofBytes [BitVec.ofNat 8 (setBits (reg s (treeReg n 1)) 3 0 x)]) =
      setBits (reg s (treeReg n 1)) 3 0 x := by
    simp only [ofBytes, BitVec.toNat_ofNat, setBits, nbits, Nat.shiftRight_zero]
    omega
  have old : regRead s (0x110000 + 64 * n + 8) = reg s (treeReg n 1) := regRead_tree (w := 1) hn (by decide)
  rw [treeLevels, old]
  exact bytes.trans (congrArg (treeWrite .host (treeReg n 1) · _ s) value)

/-- A write of LEVELS keeps EN and CTXID, and sets the levels or counts an error. -/
theorem treeApply_levels_alone {x : Nat} (hn : n < 64) (hx : x < 16) :
    treeApply .host (treeReg n 1) (setBits (reg s (treeReg n 1)) 3 0 x) [0] s =
      treeCfg n 1 x (treeSet n 1 10 5 (nbits (reg s (treeReg n 1)) 10 5)
        (treeSet n 1 4 4 (nbits (reg s (treeReg n 1)) 4 4) s)) := by
  have levels : setBits (reg s (treeReg n 1)) 3 0 x % 16 = x := by
    simp only [setBits, nbits, Nat.shiftRight_zero]
    omega
  rw [treeApply_levels hn, levels, nbits_setBits_ne _ _ (by decide) (.inr (by decide)),
    nbits_setBits_ne _ _ (by decide) (.inr (by decide))]

theorem treeApply_beta_alone {x : Nat} (hn : n < 64) (hx : x < 2 ^ 32) :
    treeApply .host (treeReg n 1) (setBits (reg s (treeReg n 1)) 63 32 (x % 2 ^ 32)) [4, 5, 6, 7] s =
      treeSet n 1 63 32 x s := by
  have old : reg s (treeReg n 1) < 2 ^ 64 := reg_lt _
  have beta : setBits (reg s (treeReg n 1)) 63 32 (x % 2 ^ 32) / 2 ^ 32 % 2 ^ 32 = x := by
    simp only [setBits, nbits, Nat.shiftRight_eq_div_pow]
    omega
  rw [treeApply_beta hn, treeCfg, beta]

theorem treeApply_nsize_alone {x : Nat} (hn : n < 64) (hx : x < 2 ^ 32) :
    treeApply .host (treeReg n 2) (setBits (reg s (treeReg n 2)) 31 0 (x % 2 ^ 32)) [0, 1, 2, 3] s =
      treeCfg n 3 x s := by
  have nsize : setBits (reg s (treeReg n 2)) 31 0 (x % 2 ^ 32) % 2 ^ 32 = x := by
    simp only [setBits, nbits, Nat.shiftRight_zero]
    omega
  rw [treeApply_nsize hn, nsize]

theorem treeCfg_levels {x : Nat} (lo : 1 ≤ x) (hi : x ≤ 8) : treeCfg n 1 x s = treeClear n (treeSet n 1 3 0 x s) :=
  if_pos ⟨lo, hi⟩

theorem treeCfg_levels_zero : treeCfg n 1 0 s = treeErr n 1 s := rfl

theorem treeCfg_nsize {x : Nat} (lo : 1 ≤ x) (hi : x < 2 ^ 32) : treeCfg n 3 x s = treeSet n 2 31 0 x s :=
  if_pos ⟨lo, hi⟩

theorem treeCfg_nsize_zero : treeCfg n 3 0 s = treeErr n 1 s := rfl

/-- The bytes of a whole word replace every bit of the register. -/
theorem foldl_setBits_bytes (x old k : Nat) :
    (List.range k).foldl (fun a b => setBits a (8 * b + 7) (8 * b) (nbits x (8 * b + 7) (8 * b))) old =
      2 ^ (8 * k) * (old / 2 ^ (8 * k)) + x % 2 ^ (8 * k) := by
  induction k with
  | zero => simp [Nat.mod_one]
  | succ k ih =>
    have width : 8 * k + 7 + 1 - 8 * k = 8 := by omega
    have next : 2 ^ (8 * (k + 1)) = 2 ^ (8 * k) * 2 ^ 8 := by rw [← pow_add]; rfl
    have high : 8 * k + 7 + 1 = 8 * (k + 1) := by omega
    have pos : 0 < 2 ^ (8 * k) := by positivity
    have low : (2 ^ (8 * k) * (old / 2 ^ (8 * k)) + x % 2 ^ (8 * k)) / 2 ^ (8 * k) = old / 2 ^ (8 * k) := by
      rw [Nat.mul_add_div pos, Nat.div_eq_of_lt (Nat.mod_lt _ pos), Nat.add_zero]
    rw [List.range_succ, List.foldl_append, ih, List.foldl_cons, List.foldl_nil, setBits_eq _ _ (by omega), width, high,
      next, ← Nat.div_div_eq_div_mul, low, Nat.mul_add_mod, Nat.mod_mod, Nat.div_div_eq_div_mul, nbits, width,
      Nat.mod_mod, Nat.shiftRight_eq_div_pow, Nat.mod_mul]
    ring

/-- Those of a tree's BASE that waits leave nothing of the old one. -/
theorem foldl_setBits_word {x : Nat} (hn : n < 64) (hx : x < 2 ^ 64) :
    (List.range 8).foldl (fun a b => setBits a (8 * b + 7) (8 * b) (nbits x (8 * b + 7) (8 * b)))
      (regRead s (treeReg n 0)) = x := by
  have small : reg s (treeReg n 0) / 2 ^ (8 * 8) = 0 := Nat.div_eq_of_lt (reg_lt _)
  rw [foldl_setBits_bytes, regRead_tree hn (by decide), small, Nat.mul_zero, Nat.zero_add]
  exact Nat.mod_eq_of_lt hx

/-- A bit that is cleared reads 0. -/
theorem testBit_setBits_zero (x : Nat) : (setBits x n n 0).testBit n = false := by
  have value : setBits x n n 0 = 2 ^ n * (2 * (x / 2 ^ (n + 1))) + x % 2 ^ n := by
    rw [setBits_eq x 0 (le_refl n), Nat.add_sub_cancel_left]
    simp
  have pos : 0 < 2 ^ n := by positivity
  rw [value, Nat.testBit_eq_decide_div_mod_eq, Nat.mul_add_div pos, Nat.div_eq_of_lt (Nat.mod_lt _ pos)]
  simp

theorem treeCleared_idle (idle : s.treeBusy.testBit n = false) : treeCleared n s = s :=
  if_neg (ne_true_of_eq_false idle)

theorem treeCleared_none (busy : s.treeBusy.testBit n = true) (waits : s.treeWait = []) :
    treeCleared n s = { s with treeBusy := setBits s.treeBusy n n 0 } := by
  rw [treeCleared, if_pos busy, waits]
  rfl

/-! During a clear a write of the table waits (R362). -/

section
variable {x : Nat} (hn : n < 64) (busy : s.treeBusy.testBit n = true)
include hn busy

theorem exec_treeBaseWrite_clearing : exec (.treeBaseWrite n x) s =
    .next { s with treeWait := s.treeWait ++ [⟨.host, treeReg n 0, x % 2 ^ 64, List.range 8⟩] } :=
  congrArg Host.Outcome.next ((treeBytes_base x hn).trans (treeWrite_clearing hn (by decide) busy))

theorem exec_treeLevelsWrite_clearing : exec (.treeLevelsWrite n x) s = .next { s with
    treeWait := s.treeWait ++ [⟨.host, treeReg n 1, setBits (reg s (treeReg n 1)) 3 0 x, [0]⟩] } :=
  congrArg Host.Outcome.next ((treeLevels_eq x hn).trans (treeWrite_clearing hn (by decide) busy))

theorem exec_treeBetaWrite_clearing : exec (.treeBetaWrite n x) s = .next { s with treeWait := s.treeWait ++
    [⟨.host, treeReg n 1, setBits (reg s (treeReg n 1)) 63 32 (x % 2 ^ 32), [4, 5, 6, 7]⟩] } :=
  congrArg Host.Outcome.next ((treeBytes_beta x hn).trans (treeWrite_clearing hn (by decide) busy))

theorem exec_treeNsizeWrite_clearing : exec (.treeNsizeWrite n x) s = .next { s with treeWait := s.treeWait ++
    [⟨.host, treeReg n 2, setBits (reg s (treeReg n 2)) 31 0 (x % 2 ^ 32), [0, 1, 2, 3]⟩] } :=
  congrArg Host.Outcome.next ((treeBytes_nsize x hn).trans (treeWrite_clearing hn (by decide) busy))

theorem exec_treeSeedWrite_clearing : exec (.treeSeedWrite n x) s =
    .next { s with treeWait := s.treeWait ++ [⟨.host, treeReg n 3, x % 2 ^ 64, List.range 8⟩] } :=
  congrArg Host.Outcome.next ((treeBytes_seed x hn).trans (treeWrite_clearing hn (by decide) busy))

end

/-- A BASE that waits behind a clear acts when the clear ends. -/
theorem treeCleared_base {x : Nat} (hn : n < 64) (hx : x < 2 ^ 64) (busy : s.treeBusy.testBit n = true)
    (waits : s.treeWait = [⟨.host, treeReg n 0, x, List.range 8⟩]) : treeCleared n s =
      treeCfg n 0 x { s with treeBusy := setBits s.treeBusy n n 0, treeWait := [] } := by
  obtain ⟨-, tree, -⟩ := treeReg_place hn (by decide : 0 < 8)
  have free : (setBits s.treeBusy n n 0).testBit n = false := testBit_setBits_zero _
  rw [treeCleared, if_pos busy]
  simp only [waits, treeDrain, tree, free, Bool.not_false, decide_true, Bool.and_self, if_true, List.erase_cons_head]
  rw [treeApply_base hn, foldl_setBits_word hn hx]

end

theorem treeTableWrites : Obl.TreeTableWrites := by
  unfold Obl.TreeTableWrites
  intro s n x hn w kept at0
  refine ⟨fun idle => ⟨fun hx => ?base, fun lo hi => ?levels, ?levels0, fun hx => ?beta, fun lo hi => ?nsize, ?nsize0,
    fun hx => ?seed, ?clear⟩, fun busy => ⟨fun hx => by
      rw [exec_treeBaseWrite_clearing hn busy, Nat.mod_eq_of_lt hx]; rfl,
      ⟨_, exec_treeLevelsWrite_clearing hn busy, _, rfl, rfl, rfl⟩,
      ⟨_, exec_treeBetaWrite_clearing hn busy, _, rfl, rfl, rfl⟩,
      ⟨_, exec_treeNsizeWrite_clearing hn busy, _, rfl, rfl, rfl⟩,
      ⟨_, exec_treeSeedWrite_clearing hn busy, _, rfl, rfl, rfl⟩,
      fun waits => ?none, fun hx waits => ?one⟩⟩
  all_goals refine congrArg Host.Outcome.next ?_
  case base =>
    refine (treeBytes_base x hn).trans ?_
    rw [treeWrite_idle hn (by decide) idle, treeApply_base hn, Nat.mod_eq_of_lt hx]
  case levels =>
    refine (treeLevels_eq x hn).trans ?_
    rw [treeWrite_idle hn (by decide) idle, treeApply_levels_alone hn (by omega), treeCfg_levels lo hi]
  case levels0 =>
    refine (treeLevels_eq 0 hn).trans ?_
    rw [treeWrite_idle hn (by decide) idle, treeApply_levels_alone hn (by omega), treeCfg_levels_zero]
  case beta =>
    refine (treeBytes_beta x hn).trans ?_
    rw [treeWrite_idle hn (by decide) idle, treeApply_beta_alone hn hx]
  case nsize =>
    refine (treeBytes_nsize x hn).trans ?_
    rw [treeWrite_idle hn (by decide) idle, treeApply_nsize_alone hn hi, treeCfg_nsize lo hi]
  case nsize0 =>
    refine (treeBytes_nsize 0 hn).trans ?_
    rw [treeWrite_idle hn (by decide) idle, treeApply_nsize_alone hn (by decide), treeCfg_nsize_zero]
  case seed =>
    refine (treeBytes_seed x hn).trans ?_
    rw [treeWrite_idle hn (by decide) idle, treeApply_seed hn, Nat.mod_eq_of_lt hx]
    rfl
  case clear => exact treeCleared_idle idle
  case none => exact treeCleared_none busy waits
  case one => exact treeCleared_base hn hx busy waits

/-! ### Invalidation (R290, R291) -/

section
variable {s : State} {ctx scope : Nat} {all : Bool}

/-- The translations and the walks' table entries of a context, or of all, that an invalidation of a scope removes. -/
def invalidated (s : State) (scope ctx : Nat) (all : Bool) (hit : Tlb → Bool) (cached : WalkEnt → Bool) : State :=
  { setReg s rTlbInv (ctx + b2n all * 64 + scope * 128 + 2 ^ 63) with
    tlb := s.tlb.filter fun t => !((all || t.ctx = ctx) && hit t)
    walkCache := s.walkCache.filter fun w => !((all || w.ctx = ctx) && cached w)
    tlbinv := s.tlb.filter fun t => (all || t.ctx = ctx) && hit t }

/-- The address that TLBINVADDR names lies in a range. -/
def invalidates (s : State) (lo n : Nat) : Bool := decide (lo ≤ reg s rTlbInvAddr) && decide (reg s rTlbInvAddr < lo + n)

/-- What each scope removes: 0 the address's page, 1 the whole context, 2 the intermediate address's page. -/
def scopeHits (s : State) (scope : Nat) (t : Tlb) : Bool :=
  match scope with
  | 0 => invalidates s t.va t.size || invalidates s t.blk t.blkSize
  | 1 => true
  | _ => invalidates s t.ipa t.size || invalidates s t.iblk t.iblkSize

/-- Of the walk caches scope 0 removes the entries that may lead to the address, the others all. -/
def scopeCaches (s : State) (scope : Nat) (w : WalkEnt) : Bool := scope ≠ 0 || invalidates s w.va w.size

/-- The fields of a write of TLBINV: context in bits 5 to 0, ALL in bit 6, scope in bits 8 and 7. -/
theorem tlbinv_fields (hc : ctx < 64) (hs : scope < 3) :
    let x := (ctx % 64 + b2n all * 64 + scope * 128) % 2 ^ 64
    x = ctx + b2n all * 64 + scope * 128 ∧ x % 64 = ctx ∧ x.testBit 6 = all ∧ nbits x 8 7 = scope ∧ x % 512 = x := by
  have bit : b2n all = 0 ∨ b2n all = 1 := by cases all <;> simp [b2n]
  have value : (ctx % 64 + b2n all * 64 + scope * 128) % 2 ^ 64 = ctx + b2n all * 64 + scope * 128 := by omega
  have flag : (ctx + b2n all * 64 + scope * 128).testBit 6 = all := by
    rw [Nat.testBit_eq_decide_div_mod_eq, show (ctx + b2n all * 64 + scope * 128) / 2 ^ 6 % 2 = b2n all by omega]
    cases all <;> rfl
  refine ⟨value, ?_, value ▸ flag, ?_, ?_⟩
  · omega
  · rw [nbits, Nat.shiftRight_eq_div_pow]
    omega
  · omega

theorem invalidate_write : invalidate scope ctx all s =
    tlbinvWrite ((ctx % 64 + b2n all * 64 + scope * 128) % 2 ^ 64) s := rfl

theorem invalidate_busy (busy : (reg s rTlbInv).testBit 63 = true) : invalidate scope ctx all s = s :=
  if_pos (by rw [busy, Bool.true_or])

section
variable (hc : ctx < 64) (idle : (reg s rTlbInv).testBit 63 = false)
include hc idle

/-- TLBINV removes what its scope and context name from the TLBs and the walk caches. -/
theorem invalidate_removes (hs : scope < 3) : invalidate scope ctx all s =
    invalidated s scope ctx all (scopeHits s scope) (scopeCaches s scope) := by
  obtain ⟨value, context, every, field, low⟩ := tlbinv_fields (all := all) hc hs
  rw [invalidate_write]
  simp only [tlbinvWrite, idle, field, context, every, low, decide_eq_false (Nat.ne_of_lt hs)]
  rw [value]
  rfl

end

/-- An invalidation ends once no access uses a translation that it removed. -/
theorem invDone_ends (busy : (reg s rTlbInv).testBit 63 = true) (unused : ∀ t ∈ s.tlbinv, invInUse s t = false) :
    invDone s = { setReg s rTlbInv (reg s rTlbInv % 2 ^ 63) with tlbinv := [] } := by
  have free : s.tlbinv.any (invInUse s) = false := by simpa using unused
  exact if_neg (by rw [busy, free]; exact Bool.false_ne_true)

end

theorem invalidation : Obl.Invalidation := by
  unfold Obl.Invalidation
  intro s ctx all hc a holds gone
  refine ⟨fun idle => ⟨?_, ?_, ?_⟩, fun busy => ⟨?_, ?_, ?_, fun unused => ?_⟩⟩
  all_goals refine congrArg Host.Outcome.next ?_
  · exact invalidate_removes hc idle (by decide : 0 < 3)
  · exact invalidate_removes hc idle (by decide : 1 < 3)
  · exact invalidate_removes hc idle (by decide : 2 < 3)
  · exact invalidate_busy busy
  · exact invalidate_busy busy
  · exact invalidate_busy busy
  · exact invDone_ends busy unused

/-! ### Interrupt, scan, wake, suspend and heartbeat registers (R12, R278, R340, R387, R393, R400) -/

section
variable {s : State} {x c o : Nat}

/-- A register keeps the low 64 bits of what is written. -/
theorem setReg_mod (off x : Nat) : setReg s off (x % 2 ^ 64) = setReg s off x := by
  have low : BitVec.ofNat 64 (x % 2 ^ 64) = BitVec.ofNat 64 x := by
    apply BitVec.eq_of_toNat_eq
    simp only [BitVec.toNat_ofNat, Nat.mod_mod]
  simp only [setReg, setMmr, low]

theorem hostWrite_hiStat (hx : x < 2 ^ 64) : hostWrite rHiStat x s = histatWrite x s := by
  have write : hostWrite rHiStat x s = histatWrite (x % 2 ^ 64) s := rfl
  rw [write, Nat.mod_eq_of_lt hx]

theorem hostWrite_hiEn (hx : x < 2 ^ 64) : hostWrite rHiEn x s = hienWrite x s := by
  have write : hostWrite rHiEn x s = hienWrite (x % 2 ^ 64) s := rfl
  rw [write, Nat.mod_eq_of_lt hx]

/-- Where no source that becomes enabled is pending, HIEN takes its bits alone. -/
theorem hienWrite_quiet (quiet : ∀ n < 8, x.testBit n = true → (reg s rHiEn).testBit n = true ∨
    (reg s rHiStat).testBit n = false) : hienWrite x s = setReg s rHiEn (x % 256) := by
  have none : ((List.range 8).filter fun n => x.testBit n && !(reg s rHiEn).testBit n && (reg s rHiStat).testBit n) = [] := by
    refine List.filter_eq_nil_iff.mpr fun n hn => ?_
    have clear := quiet n (List.mem_range.mp hn)
    cases on : x.testBit n with
    | false => simp
    | true => rcases clear on with h | h <;> simp [h]
  simp only [hienWrite, none, List.foldl_nil]

theorem hostWrite_scanNow (hc : c < 32) : hostWrite 0x128 (c % 32) s = askScan c s := by
  have write : hostWrite 0x128 (c % 32) s = askScan (c % 32 % 2 ^ 64 % 32) s := rfl
  have core : c % 32 % 2 ^ 64 % 32 = c := by omega
  rw [write, core]

theorem askScan_retired (retired : (reg s rRetired).testBit c = true) : askScan c s = s :=
  if_pos (by simp [retired])

theorem askScan_asks (hc : c < 32) (used : (reg s rRetired).testBit c = false) (fresh : ∀ y ∈ s.scans, y.core ≠ c) :
    askScan c s = { s with scans := { core := c, stage := 5 } :: s.scans } := by
  have others : (s.scans.filter fun y => y.core ≠ c) = s.scans :=
    List.filter_eq_self.mpr fun y hy => by simpa using fresh y hy
  have none : (s.scans.any fun x => x.core = c && x.stage < 4) = false :=
    List.any_eq_false.mpr fun y hy => by simp [fresh y hy]
  have asked : askScan c s = setScan { core := c, stage := 5 } s :=
    if_neg (by rw [decide_eq_false (show ¬34 ≤ c by omega), used, none]; exact Bool.false_ne_true)
  rw [asked, setScan, others]

/-- SUSPCTL holds the page of the image, and GO in bit 0. -/
theorem hostWrite_suspCtl (x : Nat) :
    hostWrite 0x180010 (x / 4096 * 4096 % 2 ^ 52 + 1) s = suspGo none (x / 4096 * 4096 % 2 ^ 52) s := by
  have write (y : Nat) (go : y.testBit 0 = true) :
      regWrite .host 0x180010 y (List.range 8) s = suspGo none (nbits y 51 12 * 4096) s := if_pos go
  have page : nbits ((x / 4096 * 4096 % 2 ^ 52 + 1) % 2 ^ 64) 51 12 * 4096 = x / 4096 * 4096 % 2 ^ 52 := by
    rw [nbits, Nat.shiftRight_eq_div_pow]
    omega
  rw [hostWrite, write, page]
  rw [Nat.testBit_zero, decide_eq_true_eq]
  omega

theorem suspGo_suspending (by' : Option Nat) (h : suspStat s ≠ 0) : suspGo by' x s = s := if_pos h

theorem regWrite_wakeset (who : Agent) (hx : x < 2 ^ 64) :
    regWrite who 0x180000 (x % 2 ^ 64) (List.range 8) s = wakesetWrite who x s := by
  rw [Nat.mod_eq_of_lt hx]
  rfl

theorem wakesetWrite_awake (who : Agent) (h : suspStat s = 0) : wakesetWrite who x s = wakeMask x s := by
  simp [wakesetWrite, h]

theorem wakesetWrite_ochre (lk : Nat) (h : suspStat s ≠ 0) : wakesetWrite (.group lk 32) x s =
    wakeMask x { s with susp := { s.susp with wakeSeen := true } } := by
  simp [wakesetWrite, h, isOchre]

/-- A narrow write of ARMTIME keeps the bytes beside it. -/
theorem regStore_armTime (who : Agent) {bs : List Byte} (len : bs.length ∈ [1, 2, 4, 8]) (ho : o < 8)
    (aligned : o % bs.length = 0) : regStore who (0x10 + o) bs s =
      setReg s 0x10 (setBits (reg s 0x10) (8 * o + 8 * bs.length - 1) (8 * o) (ofBytes bs)) := by
  have size : bs.length = 1 ∨ bs.length = 2 ∨ bs.length = 4 ∨ bs.length = 8 := by simpa using len
  have base : (0x10 + o) / 8 * 8 = 0x10 := by omega
  have place : (0x10 + o) % 8 = o := by omega
  have fit : (0x10 + o) % bs.length = 0 := by
    rcases size with e | e | e | e <;> rw [e] at aligned ⊢ <;> omega
  have kind : regKind 0x10 = some (.rw allBits) := rfl
  have fits : regFits (0x10 + o) bs.length = true := by
    simp only [regFits, fit, base, kind, Option.isSome_some, Bool.and_true, decide_true]
    rcases size with e | e | e | e <;> rw [e] <;> rfl
  have inRegion : isEcam (0x10 + o) = false := decide_eq_false (by omega)
  have read : regRead s 0x10 = reg s 0x10 := rfl
  have write (y : Nat) (bytes : List Nat) : regWrite who 0x10 y bytes s = setReg s 0x10 (y &&& (2 ^ 64 - 1)) := rfl
  rw [regStore, if_neg (ne_true_of_eq_false inRegion), fits]
  simp only [base, place, kind, read, write, Nat.and_two_pow_sub_one_eq_mod, setReg_mod, Bool.not_true,
    Bool.false_eq_true, if_false]

/-- An access of three bytes is dropped and counted. -/
theorem regStore_three (who : Agent) {bs : List Byte} (len : bs.length = 3) (ho : o < 0x10000000) :
    regStore who o bs s = countUe s := by
  have inRegion : isEcam o = false := decide_eq_false (by omega)
  have misfit : regFits o bs.length = false := by simp [regFits, len]
  rw [regStore, if_neg (ne_true_of_eq_false inRegion), misfit]
  rfl

end

theorem registerWrites_events : Obl.RegisterWrites := by
  unfold Obl.RegisterWrites
  intro s x c o island ochre bytes hx
  refine ⟨?_, fun quiet => ?_, fun hc retired => ?_, fun hc used fresh => ?_, fun awake => ?_, fun suspending => ?_,
    fun page inRange => ?_, fun suspending => ?_, rfl, fun len ho aligned => ?_, fun len ho => ?_⟩
  all_goals refine congrArg Host.Outcome.next ?_
  · exact hostWrite_hiStat hx
  · exact (hostWrite_hiEn hx).trans (hienWrite_quiet quiet)
  · exact (hostWrite_scanNow hc).trans (askScan_retired retired)
  · exact (hostWrite_scanNow hc).trans (askScan_asks hc used fresh)
  · exact (regWrite_wakeset _ hx).trans (wakesetWrite_awake _ awake)
  · exact (regWrite_wakeset _ hx).trans (wakesetWrite_ochre 0 suspending)
  · refine (hostWrite_suspCtl x).trans ?_
    rw [show x / 4096 * 4096 % 2 ^ 52 = x by omega]
  · exact (hostWrite_suspCtl x).trans (suspGo_suspending none suspending)
  · exact regStore_armTime _ len ho aligned
  · exact regStore_three _ len ho

/-- Settles O38. A host's write of a tree's bytes is `treeWrite` of the new word (`treeBytes_eq`), at once or behind a
clear; a write of TLBINV removes what its scope names (`invalidate_removes`), and each of the other registers has its
equation. That SCANNOW of a retired core does nothing is the model's choice. -/
theorem registerWrites : Obligations.RegisterWrites := ⟨treeTableWrites, invalidation, registerWrites_events⟩

end Sys2Proof.Machine
end

section
/-!
PROOFS. The operator walker's steps and outputs (O43).
-/
namespace Sys2Proof.Machine

section
variable {s : State} {k : Nat} {j : Job}

/-! ### TILE_STEP (R349 to R351) -/

theorem tileStep_noJob (idle : nextJob s k = none) : tileStep k s = s := by
  unfold tileStep
  rw [idle]

/-- What the walker reads of a card, or checks of its masks, in one step. -/
def cardReading (k : Nat) (j : Job) (s : State) : Job × State :=
  match j.desc with
  | none => readCard k j s
  | some d => checkMasks k j d.toNat s

theorem cardReading_unread (unread : j.desc = none) : cardReading k j s = readCard k j s := by
  unfold cardReading
  rw [unread]

theorem cardReading_masks {d : BitVec 2048} (read : j.desc = some d) :
    cardReading k j s = checkMasks k j d.toNat s := by
  unfold cardReading
  rw [read]

theorem readNext_eq : readNext k j s =
    if (cardReading k j s).1.st = 3 then failJob k j (cardReading k j s).1.err (cardReading k j s).2
    else
      let s1 := modJob k j (fun _ => (cardReading k j s).1) (cardReading k j s).2
      if (cardReading k j s).1.desc.isSome && !(cardReading k j s).1.unchecked then dispatch s1 else s1 := rfl

theorem readNext_fails (fails : (cardReading k j s).1.st = 3) :
    readNext k j s = failJob k j (cardReading k j s).1.err (cardReading k j s).2 := by
  rw [readNext_eq, if_pos fails]

/-- Before its masks are checked, a card stands at no checkpoint. -/
theorem readNext_goesOn (sound : (cardReading k j s).1.st ≠ 3)
    (more : (cardReading k j s).1.desc = none ∨ (cardReading k j s).1.unchecked = true) :
    readNext k j s = modJob k j (fun _ => (cardReading k j s).1) (cardReading k j s).2 := by
  rw [readNext_eq, if_neg sound]
  refine if_neg ?_
  obtain unread | unchecked := more
  · simp [unread]
  · simp [unchecked]

theorem readNext_checkpoint (sound : (cardReading k j s).1.st ≠ 3) (read : (cardReading k j s).1.desc ≠ none)
    (checked : (cardReading k j s).1.unchecked = false) :
    readNext k j s = dispatch (modJob k j (fun _ => (cardReading k j s).1) (cardReading k j s).2) := by
  rw [readNext_eq, if_neg sound]
  exact if_pos (by simp [Option.isSome_iff_ne_none.2 read, checked])

section
variable (next : nextJob s k = some j) (answered : j.recs = []) (between : j.stage = 0)
  (runs : stopsHere s k j = false)
include next answered between runs

theorem tileStep_eq : tileStep k s = match j.desc with
    | none => readNext k j s
    | some d => if j.unchecked then readNext k j s else runStep k j d.toNat s := by
  unfold tileStep
  rw [next]
  exact if_neg (by simp [answered, between, runs])

theorem tileStep_unread (unread : j.desc = none) : tileStep k s = readNext k j s := by
  rw [tileStep_eq next answered between runs, unread]

theorem tileStep_masks {d : BitVec 2048} (read : j.desc = some d) (unchecked : j.unchecked = true) :
    tileStep k s = readNext k j s := by
  rw [tileStep_eq next answered between runs, read]
  exact if_pos unchecked

theorem tileStep_runs {d : BitVec 2048} (read : j.desc = some d) (checked : j.unchecked = false) :
    tileStep k s = runStep k j d.toNat s := by
  rw [tileStep_eq next answered between runs, read]
  exact if_neg (by simp [checked])

end

/-- A step that reads the card, or checks its masks, does what the reading's end says. -/
theorem tileStep_reads {r : Job × State} (reads : tileStep k s = readNext k j s) (reading : cardReading k j s = r) :
    (r.1.st ≠ 3 → r.1.desc = none ∨ r.1.unchecked = true →
      exec (.tileStep k) s = .next (modJob k j (fun _ => r.1) r.2)) ∧
    (r.1.st ≠ 3 → r.1.desc ≠ none → r.1.unchecked = false →
      exec (.tileStep k) s = .next (dispatch (modJob k j (fun _ => r.1) r.2))) ∧
    (r.1.st = 3 → exec (.tileStep k) s = .next (failJob k j r.1.err r.2)) := by
  subst reading
  refine ⟨fun sound more => ?_, fun sound read checked => ?_, fun fails => ?_⟩
  · exact congrArg Host.Outcome.next (reads.trans (readNext_goesOn sound more))
  · exact congrArg Host.Outcome.next (reads.trans (readNext_checkpoint sound read checked))
  · exact congrArg Host.Outcome.next (reads.trans (readNext_fails fails))

/-- With its weights resident, a step gathers its inputs alone. -/
theorem runStep_resident {x : OpBits} {p : NMap Nat} {z : List Nat} (resident : j.resident = some (ocNi x j.pos))
    (gathered : (jobGather k j (gatherRuns x j.pos) s).1 = .ok p z)
    (sound : let t := (jobGather k j (gatherRuns x j.pos) s).2
      spoiltWeights k j x t = [] ∨ (launch t j.lk).cont = true) :
    let t := (jobGather k j (gatherRuns x j.pos) s).2
    let lost := spoiltWeights k j x t
    runStep k j x s = runRows k j x (gotNum t p z) lost (countFor j.lk (z.length + lost.length) t) := by
  unfold runStep
  simp only [resident, ne_eq, not_true, if_false, List.nil_append, gathered]
  refine if_neg ?_
  obtain clean_ | continues := sound
  · simp [clean_]
  · simp [continues]

/-! ### TILE_STEP_END (R353) -/

section
variable (running : (core s k).jobs.find? (fun j => j.live && j.stage = 1) = some j)
include running

/-- A card that XKILL has named ends with its step (R189). -/
theorem tileStepEnd_killed (killed : j.killBy.isSome = true) : tileStepEnd k s =
    dispatch (modJob k j (fun y => { y with st := 3, killed := true, stage := 0, recs := [] }) (handClock k j s)) := by
  unfold tileStepEnd
  rw [running]
  exact if_pos killed

theorem tileStepEnd_ends {d : BitVec 2048} {p : NMap Nat} {z : List Nat} (lives : j.killBy = none)
    (answered : j.recs = [])
    (runs : jobRuns s k j = true) (read : j.desc = some d)
    (gathered : (jobGather k j (biasRuns d.toNat j.pos) s).1 = .ok p z) :
    let t := (jobGather k j (biasRuns d.toNat j.pos) s).2
    tileStepEnd k s = endStep k j d.toNat (gotNum t p z) z.length t := by
  unfold tileStepEnd
  simp only [running, lives, answered, runs, read, gathered, Option.isSome_none, Bool.false_eq_true, if_false,
    List.isEmpty_nil, Bool.not_true, Bool.or_self]

end

/-! ### WALKER_ABANDON_STEP (R355) -/

section
variable {d : BitVec 2048} {p : Part} (holds : (core s k).jobs.find? holdsWalker = some j) (read : j.desc = some d)
  (part_ : jobPart s k j = some p)
include holds read part_

theorem abandonStep_early (early : 2 * s.now < 2 * p.askedAt + ocCkpt d.toNat * nbits d.toNat 63 32) :
    abandonStep k s = s := by
  unfold abandonStep
  simp only [holds, read, part_]
  exact if_neg (by simp [early])

theorem abandonStep_overruns (asked : p.preempt = true) (inCore : p.capture = 0) (inStep : atCheckpoint j = false)
    (late : 2 * p.askedAt + ocCkpt d.toNat * nbits d.toNat 63 32 ≤ 2 * s.now) :
    abandonStep k s = modJob k j (fun y =>
      if y.killBy.isSome then { y with st := 3, killed := true, stage := 0, recs := [] }
      else { y.turnClock s.now with stage := 0, parked := true }) s := by
  unfold abandonStep
  simp only [holds, read, part_]
  exact if_pos (by simp [asked, inCore, inStep, late])

end
end

/-! ### What the reads of a unit leave as it is (R258, R279) -/

section
variable {P : State → Prop} (hP : L2Quiet P) {s : State}
include hP

theorem L2Quiet.chargeCardBw (account : Nat) (h : P s) : P (chargeCardBw account s) := by
  unfold Machine.chargeCardBw
  split
  · exact hP.charge s _ s.regulators h
  · exact h

theorem L2Quiet.l2FillBy (charge : Bool) (pa pid : Nat) (low : Bool) (h : P s) : P (l2FillBy charge pa pid low s) := by
  have charged : P (if charge = true then Machine.chargeDram pa pid s else s) := by
    split
    · exact hP.chargeDram pa pid h
    · exact h
  unfold Machine.l2FillBy
  split
  case h_2 => exact h
  split
  · exact h
  dsimp only
  split
  · exact hP.lines _ _ charged
  · split
    · exact charged
    · refine hP.lines _ _ ?_
      split
      · exact hP.evictLine _ charged
      · exact charged

theorem L2Quiet.fillAs (charge : Bool) (mt pa pid : Nat) (h : P s) : P (fillAs charge mt pa pid s) := by
  unfold Machine.fillAs
  split
  · split
    · exact hP.chargeDram pa pid h
    · exact h
  · exact hP.l2FillBy charge pa pid _ h

variable (regs : ∀ s q, P s → P { s with regulators := q }) (counts : ∀ s m, P s → P { s with mmr := m })
include regs counts

theorem L2Quiet.regFill (pa account mt : Nat) (ticket : Option Nat) (h : P s) :
    P (regFill pa account mt ticket s).2 := by
  unfold Machine.regFill
  dsimp only
  split
  · exact hP.fillAs _ _ _ _ h
  split
  · split
    · exact hP.fillAs _ _ _ _ (hP.chargeCardBw account (regs _ _ h))
    · exact regs _ _ h
  · split
    · exact counts _ _ (regs _ _ h)
    · exact hP.fillAs _ _ _ _ (regs _ _ h)

theorem L2Quiet.askRead (rd : Asker) (pa account mt : Nat) (h : P s) : P (askRead rd pa account mt s).2 := by
  unfold Machine.askRead
  dsimp only
  split
  · exact hP.regFill regs counts _ _ _ _ h
  · exact regs _ _ (hP.regFill regs counts _ _ _ _ h)
  · exact hP.regFill regs counts _ _ _ _ h
  · exact regs _ _ (hP.regFill regs counts _ _ _ _ h)

theorem L2Quiet.askReads (rd : Asker) (account : Nat) (reads : List (Nat × Nat)) (h : P s) :
    P (askReads rd account reads s).2 := by
  induction reads generalizing s with
  | nil => exact h
  | cons x xs ih => exact ih (hP.askRead regs counts rd _ account _ h)

end

theorem l2Quiet_pairs (ps : NMap Pair) : L2Quiet fun s => s.pairs = ps where
  charge _ _ _ h := h
  lines _ _ h := h
  cores _ _ h := h
  drop s sec pid h := by
    unfold dropSector
    split
    · exact h
    · dsimp only
      split
      · exact h
      · obtain ⟨r, q, charged⟩ := chargeDram_eq (64 * sec) pid { s with dirty := ndel s.dirty sec }
        rw [charged]
        exact h

theorem entryServed_pairs (h : HB) (s : State) : (entryServed h s).2.pairs = s.pairs := by
  unfold entryServed
  split
  · rfl
  split
  · rfl
  · exact (l2Quiet_pairs s.pairs).askReads (fun _ _ h => h) (fun _ _ h => h) _ _ _ rfl

/-! ### WALKER_OUTPUT_PERFORM (R279, R353) -/

section
variable {s u : State} {pr n : Nat} {h : HB} {lk key step va pa tail : Nat} {bytes : List Sys2Proof.Byte}

/-- An entry is an output of a step of the card `key` of launch `lk`. -/
def isOutputOf (lk key step : Nat) (e : HB) : Bool :=
  match e.what with
  | .output l q t .. => l = lk && q = key && t = step
  | _ => false

theorem isOutputOf_iff {e : HB} :
    isOutputOf lk key step e = true ↔ ∃ v p b l, e.what = .output lk key step v p b l := by
  unfold isOutputOf
  split
  case h_1 what => simp [what, and_assoc]
  case h_2 other => simpa using fun v p b l what => other lk key step v p b l what

/-- A step of a card counts on the cores of a pair, once its last output there has performed. -/
def countStep (pr lk key : Nat) (s : State) : State :=
  [2 * pr, 2 * pr + 1].foldl (fun s k => modJobs k (fun js => js.flatMap fun j =>
    if j.lk = lk && j.key = key then stepDone j else [j]) s) (decisionPoint s)

variable (at_ : (pair s pr).hb[n]? = some h) (what : h.what = .output lk key step va pa bytes tail)
include at_ what

theorem outputPerform_waits (waits : entryMay s pr n h = false) : outputPerform pr n s = s := by
  unfold outputPerform
  simp only [at_, what, waits, Bool.not_false, if_true]

theorem outputPerform_eq (may : entryMay s pr n h = true) : outputPerform pr n s =
    if (pair (performReady pr n h s) pr).hb.any (isOutputOf lk key step) then performReady pr n h s
    else countStep pr lk key (performReady pr n h s) := by
  unfold outputPerform
  simp only [at_, what, may, Bool.not_true, Bool.false_eq_true, if_false]
  rfl

/-- While its reads are deferred, an output stays held, and its step does not count. -/
theorem outputPerform_deferred (may : entryMay s pr n h = true) (served : entryServed h s = (false, u)) :
    outputPerform pr n s = u := by
  have held : (pair u pr).hb = (pair s pr).hb := by
    have kept : u.pairs = s.pairs := (congrArg (·.2.pairs) served).symm.trans (entryServed_pairs h s)
    unfold pair
    rw [kept]
  rw [outputPerform_eq at_ what may, performReady_waits served]
  refine if_pos (List.any_eq_true.2 ⟨h, ?_, isOutputOf_iff.2 ⟨va, pa, bytes, tail, what⟩⟩)
  exact held ▸ List.mem_of_getElem? at_

theorem outputPerform_left (may : entryMay s pr n h = true) (served : entryServed h s = (true, u))
    (left : ∃ e ∈ (pair (performAt pr n h u) pr).hb, ∃ v p b l, e.what = .output lk key step v p b l) :
    outputPerform pr n s = performAt pr n h u := by
  rw [outputPerform_eq at_ what may, performReady_served served]
  obtain ⟨e, he, same⟩ := left
  exact if_pos (List.any_eq_true.2 ⟨e, he, isOutputOf_iff.2 same⟩)

theorem outputPerform_last (may : entryMay s pr n h = true) (served : entryServed h s = (true, u))
    (last : ∀ e ∈ (pair (performAt pr n h u) pr).hb, ¬∃ v p b l, e.what = .output lk key step v p b l) :
    outputPerform pr n s = countStep pr lk key (performAt pr n h u) := by
  rw [outputPerform_eq at_ what may, performReady_served served]
  exact if_neg fun left =>
    let ⟨e, he, same⟩ := List.any_eq_true.1 left
    last e he (isOutputOf_iff.1 same)

end

/-! ### The statement -/

theorem walkerSteps_steps : Obl.WalkerSteps := by
  unfold Obl.WalkerSteps
  intro s k j
  refine ⟨fun idle => ?_, fun next answered between runs => ?_, fun running => ⟨fun killed => ?_, ?_⟩, ?_⟩
  · exact congrArg Host.Outcome.next (tileStep_noJob idle)
  · refine ⟨fun unread => ?_, fun d read unchecked => ?_, fun d read checked resident p z gathered sound => ?_⟩
    · exact tileStep_reads (tileStep_unread next answered between runs unread) (cardReading_unread unread)
    · exact tileStep_reads (tileStep_masks next answered between runs read unchecked) (cardReading_masks read)
    · exact congrArg Host.Outcome.next ((tileStep_runs next answered between runs read checked).trans
        (runStep_resident resident gathered sound))
  · exact congrArg Host.Outcome.next (tileStepEnd_killed running killed)
  · intro d p z lives answered runs read gathered
    exact congrArg Host.Outcome.next (tileStepEnd_ends running lives answered runs read gathered)
  · intro d p holds read part_ asked inCore inStep
    refine ⟨fun early => ?_, fun late _ => ?_⟩
    · exact congrArg Host.Outcome.next (abandonStep_early holds read part_ early)
    · exact congrArg Host.Outcome.next (abandonStep_overruns holds read part_ asked inCore inStep late)

theorem walkerSteps_outputs : Obl.WalkerOutputs := by
  unfold Obl.WalkerOutputs
  intro s pr n h lk key step va pa tail bytes at_ what
  refine ⟨fun waits => ?_, fun u may served => ?_, fun u may served => ⟨fun left => ?_, fun last => ?_⟩⟩
  · exact congrArg Host.Outcome.next (outputPerform_waits at_ what waits)
  · exact congrArg Host.Outcome.next (outputPerform_deferred at_ what may served)
  · exact congrArg Host.Outcome.next (outputPerform_left at_ what may served left)
  · exact congrArg Host.Outcome.next (outputPerform_last at_ what may served last)

/-- Settles O43. That a step in progress is abandoned after so many times two cycles a nanosecond is the model's choice
(log entry 61), and so is what a step does on poisoned weights or rows (log entry 130). -/
theorem walkerSteps : Obligations.WalkerSteps := ⟨walkerSteps_steps, walkerSteps_outputs⟩

end Sys2Proof.Machine
end

section
/-!
PROOFS. What accesses of memory leave alone, and the capture and restore of contexts (O42).
-/
namespace Sys2Proof.Machine

/-! ### Accesses of memory move no group and no context -/

/-- The device at `t` is the one at `s` but for its memory, its caches, its translations and its counts: the time, the
groups, the launches, the frames being received and the teams' places are the same. -/
structure OnlyMemory (s t : State) : Prop where
  now : t.now = s.now
  groups : t.groups = s.groups
  launches : t.launches = s.launches
  ingest : t.ingest = s.ingest
  seats : t.teams.map (fun x => (x.1, x.2.core)) = s.teams.map fun x => (x.1, x.2.core)

theorem OnlyMemory.refl (s : State) : OnlyMemory s s := ⟨rfl, rfl, rfl, rfl, rfl⟩

theorem OnlyMemory.part {s t : State} (h : OnlyMemory s t) (lk c : Nat) : part t lk c = part s lk c := by
  unfold Machine.part launch
  rw [h.launches]

/-- The teams of a context are told by their places. -/
theorem OnlyMemory.teamsOfPart {s t : State} (h : OnlyMemory s t) (lk c : Nat) :
    teamsOfPart t lk c = teamsOfPart s lk c := by
  have place (u : State) : Machine.teamsOfPart u lk c =
      ((u.teams.map fun x => (x.1, x.2.core)).filter fun x => lkOfT x.1 = lk && x.2 = c).map (·.1) := by
    unfold Machine.teamsOfPart
    rw [List.filter_map, List.map_map]
    rfl
  rw [place, place, h.seats]

theorem l2Quiet_onlyMemory (s : State) : L2Quiet (OnlyMemory s) where
  charge _ _ _ h := ⟨h.now, h.groups, h.launches, h.ingest, h.seats⟩
  lines _ _ h := ⟨h.now, h.groups, h.launches, h.ingest, h.seats⟩
  cores _ _ h := ⟨h.now, h.groups, h.launches, h.ingest, h.seats⟩
  drop t sec pid h := by
    unfold dropSector
    split
    · exact h
    · dsimp only
      split
      · exact ⟨h.now, h.groups, h.launches, h.ingest, h.seats⟩
      · obtain ⟨r, q, charged⟩ := chargeDram_eq (64 * sec) pid { t with dirty := ndel t.dirty sec }
        rw [charged]
        exact ⟨h.now, h.groups, h.launches, h.ingest, h.seats⟩

section
variable {s t : State} (h : OnlyMemory s t)
include h

theorem OnlyMemory.markDirty (mt pa pid : Nat) : OnlyMemory s (markDirty mt pa pid t) :=
  markDirty_keeps (l2Quiet_onlyMemory s) mt pa pid h
    (fun _ h => ⟨h.now, h.groups, h.launches, h.ingest, h.seats⟩)
    fun _ _ _ h => ⟨h.now, h.groups, h.launches, h.ingest, h.seats⟩

theorem OnlyMemory.unfillBut (but : Option (Nat × Nat)) (sec : Nat) : OnlyMemory s (unfillBut but sec t) where
  now := h.now
  groups := h.groups
  launches := h.launches
  ingest := h.ingest
  seats := by
    rw [← h.seats]
    exact List.map_map

theorem OnlyMemory.countUe : OnlyMemory s (countUe t) := ⟨h.now, h.groups, h.launches, h.ingest, h.seats⟩

theorem OnlyMemory.l2WriteSector (pa : Nat) (bytes : List Byte) (pid : Nat) :
    OnlyMemory s (l2WriteSector pa bytes pid t) := by
  unfold Machine.l2WriteSector l2WriteSectorAs
  split
  · obtain ⟨hn, hg, hl, hi, hs⟩ := (h.markDirty 0 pa pid).unfillBut none (pa / 64)
    exact ⟨hn, hg, hl, hi, hs⟩
  · split
    · obtain ⟨hn, hg, hl, hi, hs⟩ := h.unfillBut none (pa / 64)
      exact ⟨hn, hg, hl, hi, hs⟩
    · exact ⟨h.now, h.groups, h.launches, h.ingest, h.seats⟩
  · exact ⟨h.now, h.groups, h.launches, h.ingest, h.seats⟩
  · exact h.countUe
  · exact h.countUe

omit h in
theorem OnlyMemory.l2WriteAux (pid fuel : Nat) : ∀ {t : State} (_ : OnlyMemory s t) (pa : Nat) (bytes : List Byte),
    OnlyMemory s (l2WriteAux fuel pa bytes pid t) := by
  induction fuel with
  | zero => exact fun h _ _ => h
  | succ fuel ih =>
    intro t h pa bytes
    rw [Machine.l2WriteAux]
    split
    · exact h
    · exact ih (h.l2WriteSector ..) ..

theorem OnlyMemory.l2Write (pa : Nat) (bytes : List Byte) (pid : Nat) : OnlyMemory s (l2Write pa bytes pid t) :=
  OnlyMemory.l2WriteAux pid _ h pa bytes

theorem OnlyMemory.l2Fill (pa pid : Nat) (low : Bool) : OnlyMemory s (l2Fill pa pid low t) :=
  (l2Quiet_onlyMemory s).l2Fill pa pid low h

theorem OnlyMemory.setAD (pa : Nat) (a : Acc2) : OnlyMemory s (setAD pa a t) := by
  unfold Machine.setAD
  extract_lets e d e'
  split
  · exact h
  · exact h.l2Write ..

theorem OnlyMemory.setADs (seen : List (Nat × Option Acc2)) : OnlyMemory s (setADs seen t) := by
  refine foldl_keeps (P := OnlyMemory s) (fun u x hu => ?_) seen h
  dsimp only
  split
  · exact (hu.l2Fill ..).setAD ..
  · exact hu.l2Fill ..

theorem OnlyMemory.setMmr (off x : Nat) : OnlyMemory s (setMmr t off x) :=
  ⟨h.now, h.groups, h.launches, h.ingest, h.seats⟩

theorem OnlyMemory.demandFill {loc : Nat} {u : State} (fills : demandFill loc t = some u) : OnlyMemory s u := by
  unfold Machine.demandFill at fills
  dsimp only at fills
  split at fills
  · exact nomatch fills
  · rw [← Option.some.inj fills]
    exact (((h.l2Fill ..).setMmr ..).l2Write ..).l2Write ..

theorem OnlyMemory.asleep : OnlyMemory s (asleep t).2 := ⟨h.now, h.groups, h.launches, h.ingest, h.seats⟩

theorem OnlyMemory.tlbPut (unit : Nat) (e : Tlb) : OnlyMemory s (tlbPut unit e t) :=
  ⟨h.now, h.groups, h.launches, h.ingest, h.seats⟩

theorem OnlyMemory.cacheWalk (k ctx va : Nat) (tabs : List (Nat × Nat × Nat)) :
    OnlyMemory s (cacheWalk k ctx va tabs t) := ⟨h.now, h.groups, h.launches, h.ingest, h.seats⟩

variable (cont hw : Bool) (k ctx : Nat) (userMode : Bool) (va : Nat) (a : Acc2)

omit cont hw userMode in
theorem OnlyMemory.install (e : Tlb) (seen : List (Nat × Option Acc2)) (tabs : List (Nat × Nat × Nat)) :
    OnlyMemory s (translate.install k ctx va a e seen tabs t).2 := by
  unfold translate.install
  dsimp only
  split
  · exact h.asleep
  dsimp only
  split
  · exact h.setADs seen
  · exact (((h.setADs seen).cacheWalk ..).tlbPut ..).tlbPut ..

theorem OnlyMemory.slow : OnlyMemory s (translate.slow t cont hw k ctx userMode va a).2 := by
  unfold translate.slow
  dsimp only
  split
  · exact h.install ..
  split
  · exact h.asleep
  split
  case isFalse => exact h.setADs _
  split
  · exact h.setADs _
  case h_2 fills =>
    have filled := (h.setADs _).demandFill fills
    split
    · exact filled.install ..
    · exact filled.setADs _

theorem OnlyMemory.second : OnlyMemory s (translate.second t cont hw k ctx userMode va a).2 := by
  unfold translate.second
  split
  · split
    · exact h.tlbPut ..
    · exact h.slow ..
  · exact h.slow ..

/-- A translation moves nothing but the tables' A and D bits, what it fills and what it holds (R281 to R290). -/
theorem OnlyMemory.translate : OnlyMemory s (translate t cont hw k ctx userMode va a).2 := by
  unfold Machine.translate
  extract_lets r
  have found : OnlyMemory s r.2 := by
    subst r
    split
    · split
      · exact h
      · exact h.second ..
    · exact h.second ..
  split
  · split
    · exact found.asleep
    · exact found
  · exact found

omit cont hw k ctx userMode in
theorem OnlyMemory.cardXlate (n : Nat) : OnlyMemory s (cardXlate t n va a).2 := by
  unfold Machine.cardXlate
  dsimp only
  split
  · exact h.translate ..
  · exact h.translate ..

end
/-! ### Capture (R308 to R311) -/

section
variable {s : State} {lk c : Nat} {p : Part}

theorem part_of_nfind (at_ : nfind (launch s lk).parts c = some p) : part s lk c = p := by
  unfold part nget
  rw [at_]
  rfl

theorem capturePart_unasked (at_ : nfind (launch s lk).parts c = some p) (unasked : p.preempt = false) :
    capturePart lk c s = s := by
  unfold capturePart
  exact if_pos (by simp [part_of_nfind at_, unasked])

/-- A context's groups park where they stand, or where a rollback takes them (R308 step 2). -/
def parkAfter (lk c : Nat) : Option Nat → State → State
  | none, s => dispatch (parkPart lk c s)
  | some q, s => dispatch (parkPart lk c (rollTo (c / 2) q s))

section
variable (at_ : nfind (launch s lk).parts c = some p) (asked : p.preempt = true) (inCore : p.capture = 0)
  (normal : (launch s lk).det = false) (untrapped : (launch s lk).hostTrap = none)
  (stand : jobsParked s lk c = true)
include at_ asked inCore normal untrapped stand

theorem capturePart_parks (closed : cKind s (lk / 2) = 1 →
      p.atQ < (pair s (c / 2)).qn ∧ ∀ g ∈ groupsOfPart s lk c, stoodStill (grp s g) = true) :
    capturePart lk c s = parkAfter lk c (captureBack s lk c) s := by
  unfold capturePart
  refine (if_neg ?_).trans ?_
  · simpa [at_, part_of_nfind at_, asked, inCore, normal, untrapped, stand] using closed
  · cases captureBack s lk c <;> rfl

end

/-! ### DET_WAVE_PREEMPT (R309) -/

theorem captureWave_undue (undue : ∀ lk ∈ commitKeys s c, leavingParts s lk = []) : captureWave c s = s := by
  unfold captureWave
  refine if_pos ?_
  have calm : (commitKeys s c).any (fun lk => (launch s lk).det && !(leavingParts s lk).isEmpty) = false :=
    List.any_eq_false.2 fun lk hlk => by simp [undue lk hlk]
  simp only [calm, Bool.not_false, Bool.true_or]

theorem captureWave_stops (due : ∃ lk ∈ commitKeys s c, (launch s lk).det = true ∧ leavingParts s lk ≠ [])
    (free : ∀ lk ∈ commitKeys s c, (launch s lk).committing = false ∧ (launch s lk).hostTrap = none)
    (still : ∀ g ∈ waveGroups s c, (grp s g).parked = true ∨ stoodStill (grp s g) = true)
    (stand : ∀ lk ∈ commitKeys s c, ∀ p ∈ (launch s lk).parts, jobsParked s lk p.1 = true) :
    captureWave c s = dispatch ((commitKeys s c).foldl (fun s lk => (launch s lk).parts.foldl (fun s p =>
      if p.2.capture = 0 then parkPart lk p.1 s else s) s)
      ((wavePairs s c).foldl (fun s p => rollPair p (fun g => gCard g = c) s) s)) := by
  have isDue : (commitKeys s c).any (fun lk => (launch s lk).det && !(leavingParts s lk).isEmpty) = true := by
    obtain ⟨lk, hlk, det, leaves⟩ := due
    exact List.any_eq_true.2 ⟨lk, hlk, by simp [det, leaves]⟩
  have isFree : (commitKeys s c).any (fun lk => (launch s lk).committing || (launch s lk).hostTrap.isSome) = false :=
    List.any_eq_false.2 fun lk hlk => by simp [free lk hlk]
  have isStill : ((waveGroups s c).filter fun g => !(grp s g).parked).all (fun g => stoodStill (grp s g)) = true := by
    refine List.all_eq_true.2 fun g hg => ?_
    obtain ⟨hg, running⟩ := List.mem_filter.1 hg
    exact (still g hg).resolve_left (by simpa using running)
  have allStand : (commitKeys s c).all (fun lk => (launch s lk).parts.all fun p => jobsParked s lk p.1) = true :=
    List.all_eq_true.2 fun lk hlk => List.all_eq_true.2 fun p hp => stand lk hlk p hp
  unfold captureWave
  exact if_neg (by simp only [isDue, isFree, isStill, allStand]; decide)

/-! ### The image (R40, R308, R312) -/

variable {k : Nat}

theorem writeImage_none (away : partAt s lk k = none) : writeImage lk k s = s := by
  unfold writeImage
  rw [away]

theorem writeImage_sector (at_ : partAt s lk k = some c) (captured : (part s lk c).capture = 1)
    (closed : ∀ g ∈ groupsOfPart s lk c, (grp s g).closed = []) (room : holdCount s k < holdCap k)
    (more : (savedAt s lk k).written / 64 < imageSize s lk k) :
    writeImage lk k s = if imageWritten (imageSector lk k s) lk c
      then modPart lk c (fun p => { p with capture := 2 }) (imageSector lk k s) else imageSector lk k s := by
  unfold writeImage
  rw [at_]
  have goes : ((part s lk c).capture ≠ 1 || !(groupsOfPart s lk c).all (fun g => (grp s g).closed.isEmpty) ||
      decide (holdCap k ≤ holdCount s k)) = false := by
    simpa [captured, room] using closed
  simp only [goes, Bool.false_eq_true, if_false, if_pos more]

/-- A held entry is of a context: an output of its launch, or of its groups on its cores. -/
def isHeldOf (s : State) (lk c : Nat) (h : HB) : Bool :=
  match h.what with
  | .output l .. => l = lk
  | _ => lkOf h.g = lk && (coresOf (launch s lk) c).contains h.core

/-- The context is saved, and its share of its cores is free. -/
def savedState (lk c : Nat) (s : State) : State :=
  vacate lk c ((coresOf (launch s lk) c).foldl (fun s k => savePart lk k s) (chargeCard s (lk / 2)))

/-- Every context of a launch is saved. -/
def allSaved (s : State) (lk : Nat) : Bool := (launch s lk).parts.all fun p => p.2.capture = 3

theorem allSaved_iff : allSaved s lk = true ↔ ∀ p ∈ (launch s lk).parts, p.2.capture = 3 := by
  simp [allSaved]

theorem freeContext_eq : freeContext lk c s =
    if (part s lk c).capture ≠ 2 || !imageSealed s lk c || (pair s (c / 2)).hb.any (isHeldOf s lk c) then s
    else dispatch (if [lk / 2 * 2, lk / 2 * 2 + 1].all (allSaved (savedState lk c s))
      then setCardFld (lk / 2) 7 4 5 (savedState lk c s) else savedState lk c s) := rfl

/-- No held entry is of the context. -/
def noneHeld (s : State) (lk c : Nat) : Prop :=
  ∀ h ∈ (pair s (c / 2)).hb, ¬match h.what with
    | .output l .. => l = lk
    | _ => lkOf h.g = lk ∧ h.core ∈ coresOf (launch s lk) c

theorem noneHeld.any_eq_false (away : noneHeld s lk c) : (pair s (c / 2)).hb.any (isHeldOf s lk c) = false := by
  refine List.any_eq_false.2 fun h hh held => away h hh ?_
  unfold isHeldOf at held
  split at held <;> simpa using held

section
variable (written : (part s lk c).capture = 2) (sealed_ : imageSealed s lk c = true) (away : noneHeld s lk c)
include written sealed_ away

theorem freeContext_leaves : freeContext lk c s =
    dispatch (if [lk / 2 * 2, lk / 2 * 2 + 1].all (allSaved (savedState lk c s))
      then setCardFld (lk / 2) 7 4 5 (savedState lk c s) else savedState lk c s) := by
  rw [freeContext_eq]
  exact if_neg (by simp [written, sealed_, away.any_eq_false])

/-- With its last context the card is parked. -/
theorem freeContext_last (even : allSaved (savedState lk c s) (lk / 2 * 2) = true)
    (odd : allSaved (savedState lk c s) (lk / 2 * 2 + 1) = true) :
    freeContext lk c s = dispatch (setCardFld (lk / 2) 7 4 5 (savedState lk c s)) := by
  rw [freeContext_leaves written sealed_ away]
  exact congrArg dispatch (if_pos (by simp [even, odd]))

theorem freeContext_others (more : allSaved (savedState lk c s) (lk / 2 * 2) = false) :
    freeContext lk c s = dispatch (savedState lk c s) := by
  rw [freeContext_leaves written sealed_ away]
  exact congrArg dispatch (if_neg (by simp [more]))

end

theorem freeContext_keeps (other : (part s lk c).capture ≠ 2) : freeContext lk c s = s := by
  rw [freeContext_eq]
  exact if_pos (by simp [other])

/-! ### Restore (R41, R162, R312) -/

theorem restoreDone_keeps (other : (part s lk c).capture ≠ 4) : restoreDone lk c s = s := if_pos other

theorem OnlyMemory.readImage {t : State} (h : OnlyMemory s t) : OnlyMemory s (readImage lk k t) := by
  refine foldl_keeps (P := OnlyMemory s) (fun u i hu => ?_) _ h
  have reached := hu.cardXlate (imageAddr u (lk / 2) (savedAt t lk k).slot i) .read (lk / 2)
  dsimp only
  split
  · exact reached.l2Fill ..
  · exact reached

theorem OnlyMemory.loadPart {t : State} (h : OnlyMemory s t) : OnlyMemory s (loadPart lk k t) := by
  unfold Machine.loadPart
  split
  · exact h
  · exact ⟨h.now, h.groups, h.launches, h.ingest, h.seats⟩

theorem OnlyMemory.restash {t : State} (h : OnlyMemory s t) : OnlyMemory s (restash k t) :=
  ⟨h.now, h.groups, h.launches, h.ingest, h.seats⟩

theorem OnlyMemory.modJobs {t : State} (h : OnlyMemory s t) (f : List Job → List Job) : OnlyMemory s (modJobs k f t) :=
  ⟨h.now, h.groups, h.launches, h.ingest, h.seats⟩

/-- A restored group goes on, with new quanta. -/
def goOn (now : Nat) (G : Group) : Group :=
  { G with parked := false, qret := 0, issuedAt := now, plan := planPast G.refetch (rotOf G) }

/-- A restored card's turn goes on, and none of its weights are on the core. -/
def goOnJob (now lk : Nat) (j : Job) : Job :=
  if j.lk ≠ lk then j
  else if j.parked then Job.turnClock now { j with parked := false, resident := none }
  else { j with resident := none }

/-- The parts of a restore, in turn: the contents arrive, the groups go on, the context is back, and so are its
locks and cards. -/
def contentsBack (lk c : Nat) (s : State) : State :=
  (coresOf (launch s lk) c).foldl (fun s k => loadPart lk k (readImage lk k s)) s
def groupsBack (lk c : Nat) (s : State) : State :=
  (groupsOfPart s lk c).foldl (fun t g => modGrp t g (goOn s.now)) (contentsBack lk c s)
def contextBack (lk c : Nat) (s : State) : State :=
  modPart lk c (fun p => { p with capture := 0 }) (groupsBack lk c s)
def locksBack (lk c : Nat) (s : State) : State :=
  (coresOf (launch s lk) c).foldl (fun t k => restash k (modJobs k (List.map (goOnJob s.now lk)) t))
    (contextBack lk c s)
def windowsEmptied (lk c : Nat) (s : State) : State :=
  (teamsOfPart (locksBack lk c s) lk c).foldl (fun s t => modTeam s t fun T => { T with fill0 := [], fill1 := [] })
    (locksBack lk c s)

theorem restoreDone_eq (back : (part s lk c).capture = 4) :
    restoreDone lk c s = dispatch ((groupsOfPart s lk c).foldl landAll (windowsEmptied lk c s)) :=
  if_neg (not_not_intro back)

theorem contentsBack_onlyMemory : OnlyMemory s (contentsBack lk c s) :=
  foldl_keeps (P := OnlyMemory s) (fun _ _ h => h.readImage.loadPart) _ (.refl s)

theorem locksBack_onlyMemory : OnlyMemory (contextBack lk c s) (locksBack lk c s) :=
  foldl_keeps (P := OnlyMemory (contextBack lk c s)) (fun _ _ h => (h.modJobs _).restash) _ (.refl _)

/-- Each group of a list of groups that change in turn has changed. -/
theorem grp_foldl_modGrp {f : Group → Group} {Q : Group → Prop} (after : ∀ G, Q (f G)) {gs : List Nat} {g : Nat}
    (hg : g ∈ gs) : ∀ t, Q (grp (gs.foldl (fun t g => modGrp t g f) t) g) := by
  have stays : ∀ (gs : List Nat) (t : State), Q (grp t g) → Q (grp (gs.foldl (fun t g => modGrp t g f) t) g) :=
    fun gs t ht => foldl_keeps (P := fun t => Q (grp t g)) (fun t x ht => by
      rw [grp_modGrp_if]
      split
      · exact after _
      · exact ht) gs ht
  induction gs with
  | nil => exact nomatch hg
  | cons x xs ih =>
    intro t
    obtain rfl | hg := List.mem_cons.1 hg
    · exact stays xs _ (by rw [grp_modGrp]; exact after _)
    · exact ih hg _

/-- Each team of a list of teams that change in turn has changed. -/
theorem team_foldl_modTeam {f : Team → Team} {Q : Team → Prop} (after : ∀ T, Q (f T)) {tks : List Nat} {tk : Nat}
    (htk : tk ∈ tks) : ∀ t, Q (team (tks.foldl (fun t tk => modTeam t tk f) t) tk) := by
  have stays : ∀ (tks : List Nat) (t : State), Q (team t tk) → Q (team (tks.foldl (fun t tk => modTeam t tk f) t) tk) :=
    fun tks t ht => foldl_keeps (P := fun t => Q (team t tk)) (fun t x ht => by
      rw [team_modTeam_if]
      split
      · exact after _
      · exact ht) tks ht
  induction tks with
  | nil => exact nomatch htk
  | cons x xs ih =>
    intro t
    obtain rfl | htk := List.mem_cons.1 htk
    · exact stays xs _ (by rw [team_modTeam]; exact after _)
    · exact ih htk _

theorem groupsBack_launches : (groupsBack lk c s).launches = s.launches := by
  unfold groupsBack
  refine foldl_keeps (P := fun t => t.launches = s.launches) (fun _ _ h => ?_) _ contentsBack_onlyMemory.launches
  exact h
theorem groupsBack_now : (groupsBack lk c s).now = s.now := by
  unfold groupsBack
  refine foldl_keeps (P := fun t => t.now = s.now) (fun _ _ h => ?_) _ contentsBack_onlyMemory.now
  exact h
theorem groupsBack_teams : (groupsBack lk c s).teams = (contentsBack lk c s).teams := by
  unfold groupsBack
  refine foldl_keeps (P := fun t => t.teams = (contentsBack lk c s).teams) (fun _ _ h => ?_) _ rfl
  exact h

theorem windowsEmptied_launches : (windowsEmptied lk c s).launches = (contextBack lk c s).launches := by
  unfold windowsEmptied
  refine foldl_keeps (P := fun t => t.launches = (contextBack lk c s).launches) (fun _ _ h => ?_) _
    locksBack_onlyMemory.launches
  exact h
theorem windowsEmptied_groups : (windowsEmptied lk c s).groups = (groupsBack lk c s).groups := by
  unfold windowsEmptied
  refine foldl_keeps (P := fun t => t.groups = (groupsBack lk c s).groups) (fun _ _ h => ?_) _
    locksBack_onlyMemory.groups
  exact h
theorem windowsEmptied_now : (windowsEmptied lk c s).now = s.now := by
  unfold windowsEmptied
  refine foldl_keeps (P := fun t => t.now = s.now) (fun _ _ h => ?_) _ (locksBack_onlyMemory.now.trans groupsBack_now)
  exact h

/-- The context is back on its cores. -/
theorem windowsEmptied_capture : (part (windowsEmptied lk c s) lk c).capture = 0 := by
  have there : part (windowsEmptied lk c s) lk c = part (contextBack lk c s) lk c := by
    unfold part launch
    rw [windowsEmptied_launches]
  rw [there]
  unfold part contextBack modPart
  rw [launch_modLaunch]
  exact congrArg Part.capture (nget_nput_self ..)

theorem windowsEmptied_parked {g : Nat} (hg : g ∈ groupsOfPart s lk c) :
    (grp (windowsEmptied lk c s) g).parked = false := by
  have there : grp (windowsEmptied lk c s) g = grp (groupsBack lk c s) g := by
    unfold grp
    rw [windowsEmptied_groups]
  rw [there]
  exact grp_foldl_modGrp (Q := fun G => G.parked = false) (fun _ => rfl) hg _

theorem locksBack_teamsOfPart : teamsOfPart (locksBack lk c s) lk c = teamsOfPart s lk c := by
  have teams3 : (contextBack lk c s).teams = (contentsBack lk c s).teams := groupsBack_teams
  calc teamsOfPart (locksBack lk c s) lk c
      _ = teamsOfPart (contextBack lk c s) lk c := locksBack_onlyMemory.teamsOfPart lk c
      _ = teamsOfPart (contentsBack lk c s) lk c := by
        unfold teamsOfPart
        rw [teams3]
      _ = teamsOfPart s lk c := contentsBack_onlyMemory.teamsOfPart lk c

/-- The stash windows of a restored context are empty (R162). -/
theorem windowsEmptied_windows {tk : Nat} (htk : tk ∈ teamsOfPart s lk c) :
    (team (windowsEmptied lk c s) tk).fill0 = [] ∧ (team (windowsEmptied lk c s) tk).fill1 = [] :=
  team_foldl_modTeam (Q := fun T => T.fill0 = [] ∧ T.fill1 = []) (fun _ => ⟨rfl, rfl⟩)
    (locksBack_teamsOfPart.symm ▸ htk) _

end

/-! ### The statement -/

/-- Settles O42. That a context leaves its core only once every write of its own has performed is the model's choice
(log entry 124), and so are the image's size and bytes (log entry 12) and the context as a part of its launch
(log entry 32). -/
theorem captures : Obligations.Captures := by
  unfold Obligations.Captures
  intro s lk c k p
  refine ⟨fun at_ asked inCore normal untrapped stand lane closed still => ?_,
    fun at_ asked inCore normal untrapped stand lane noBack => ?_, fun at_ unasked => ?_,
    ⟨fun undue => ?_, fun due free still stand => ?_⟩, fun away => ?_,
    fun at_ captured closed room more => ?_, ⟨fun written sealed_ away => ⟨fun even odd => ?_, fun more => ?_⟩,
    fun other => ?_⟩, ⟨fun back => ?_, fun other => ?_⟩⟩
  · have parks := capturePart_parks at_ asked inCore normal untrapped stand fun _ => ⟨closed, still⟩
    refine ⟨fun noBack => congrArg Host.Outcome.next ?_, fun q back => congrArg Host.Outcome.next ?_⟩
    · rw [parks, noBack, parkAfter]
    · rw [parks, back, parkAfter]
  · refine congrArg Host.Outcome.next ?_
    rw [capturePart_parks at_ asked inCore normal untrapped stand fun h => absurd h lane, noBack, parkAfter]
  · exact congrArg Host.Outcome.next (capturePart_unasked at_ unasked)
  · exact congrArg Host.Outcome.next (captureWave_undue undue)
  · exact congrArg Host.Outcome.next (captureWave_stops due free still stand)
  · exact congrArg Host.Outcome.next (writeImage_none away)
  · exact congrArg Host.Outcome.next (writeImage_sector at_ captured closed room more)
  · exact congrArg Host.Outcome.next
      (freeContext_last written sealed_ away (allSaved_iff.2 even) (allSaved_iff.2 odd))
  · exact congrArg Host.Outcome.next (freeContext_others written sealed_ away
      (Bool.eq_false_iff.2 fun all => more (allSaved_iff.1 all)))
  · exact congrArg Host.Outcome.next (freeContext_keeps other)
  · exact ⟨windowsEmptied lk c s, congrArg Host.Outcome.next (restoreDone_eq back), windowsEmptied_capture,
      fun g => windowsEmptied_parked, windowsEmptied_now, fun tk => windowsEmptied_windows⟩
  · exact congrArg Host.Outcome.next (restoreDone_keeps other)

end Sys2Proof.Machine
end

section
/-!
PROOFS. The frames that the ingest engines receive: what leaves them alone (O37).

`Frames I s` says that the engines receive the frames `I` at `s`. A write of an ingest engine can fall on a register,
and of what a write of a register does nothing touches the engines (`busWrite_frames`); `f_frames` says so of a
function `f` of the model: of one that gives a pair, of its state, and of one that gives an option, of the state where
there is one. The lemmas stand in the order of the model.
-/
namespace Sys2Proof.Machine

/-- The ingest engines receive the frames `I`. -/
def Frames (I : NMap Ingest) (s : State) : Prop := s.ingest = I

theorem OnlyMemory.frames {I : NMap Ingest} {s t : State} (m : OnlyMemory s t) (h : Frames I s) : Frames I t :=
  m.ingest.trans h

/-! ### Cases, folds and pairs -/

section
variable {α β γ : Type} {p : Prop} [Decidable p] {I : NMap Ingest}

theorem frames_ite {a b : State} (ha : Frames I a) (hb : Frames I b) : Frames I (if p then a else b) := by
  split <;> assumption
theorem frames_ite_snd {a b : α × State} (ha : Frames I a.2) (hb : Frames I b.2) :
    Frames I (if p then a else b).2 := by
  split <;> assumption
theorem frames_ite_snd_snd {a b : α × β × State} (ha : Frames I a.2.2) (hb : Frames I b.2.2) :
    Frames I (if p then a else b).2.2 := by
  split <;> assumption
theorem frames_foldl {f : State → α → State} {xs : List α} {s : State}
    (hf : ∀ s x, Frames I s → Frames I (f s x)) (h : Frames I s) : Frames I (xs.foldl f s) :=
  foldl_keeps (P := fun s => Frames I s) hf xs h
theorem frames_foldl_snd {f : β × State → α → β × State} {xs : List α} {p : β × State}
    (hf : ∀ p x, Frames I p.2 → Frames I (f p x).2) (h : Frames I p.2) : Frames I (xs.foldl f p).2 := by
  induction xs generalizing p with
  | nil => exact h
  | cons x xs ih => exact ih (hf _ _ h)
/-- A record with the ingest engines of a state. -/
theorem frames_mk {now ticks script cur groups teams launches cores pairs cards mem poison under underPois l2 dirty
    apLines replies tlb walkCache scrubNext scrubDue faults outFaults ports outParts farRetired msgs runs duties
    savedParts msis msixs pciWidth pciEnd regulators scans scanAt island susp slew timeFrac syncNext linkStop retrain
    treeBusy treeBased treePart treeWait tlbinv wakeReq gating gated mmr nextId decision} {s : State}
    (h : Frames I s) : Frames I ⟨now, ticks, script, cur, groups, teams, launches, cores, pairs, cards, mem, poison,
    under, underPois, l2, dirty, apLines, replies, tlb, walkCache, scrubNext, scrubDue, faults, outFaults, ports,
    outParts, farRetired, msgs, runs, duties, savedParts, msis, msixs, pciWidth, pciEnd, s.ingest, regulators, scans,
    scanAt, island, susp, slew, timeFrac, syncNext, linkStop, retrain, treeBusy, treeBased, treePart, treeWait,
        tlbinv,
    wakeReq, gating, gated, mmr, nextId, decision⟩ := h
theorem frames_none : ∀ t, (none : Option State) = some t → Frames I t := fun _ e => nomatch e
theorem frames_some {t : State} (h : Frames I t) : ∀ u, some t = some u → Frames I u :=
  fun _ e => Option.some.inj e ▸ h
theorem frames_some_snd {t : α × State} (h : Frames I t.2) : ∀ u, some t = some u → Frames I u.2 :=
  fun _ e => Option.some.inj e ▸ h
theorem frames_ite_some {a b : Option State} (ha : ∀ t, a = some t → Frames I t) (hb : ∀ t, b = some t → Frames I t) :
    ∀ t, (if p then a else b) = some t → Frames I t := by
  split <;> assumption
theorem frames_findSome {f : α → Option State} {xs : List α} (hf : ∀ x t, f x = some t → Frames I t) :
    ∀ t, xs.findSome? f = some t → Frames I t := fun t e =>
  let ⟨x, _, hx⟩ := List.exists_of_findSome?_eq_some e
  hf x t hx
theorem frames_findSome_snd {f : α → Option (β × State)} {xs : List α} (hf : ∀ x t, f x = some t → Frames I t.2) :
    ∀ t, xs.findSome? f = some t → Frames I t.2 := fun t e =>
  let ⟨x, _, hx⟩ := List.exists_of_findSome?_eq_some e
  hf x t hx
theorem frames_map_snd {o : Option State} {f : State → β × State} (ho : ∀ t, o = some t → Frames I t)
    (hf : ∀ t, Frames I t → Frames I (f t).2) : ∀ t, o.map f = some t → Frames I t.2 := fun _ e =>
  let ⟨u, hu, e⟩ := Option.map_eq_some_iff.1 e
  e ▸ hf u (ho u hu)
end

/-! ### Accesses of memory -/

section
variable {I : NMap Ingest} {s s0 : State} {bytes : List Byte} {ctx hi k lk n off pa partid va x : Nat}

theorem evictLine_frames {line : Nat} (h : Frames I s) : Frames I (evictLine line s) :=
  ((l2Quiet_onlyMemory s).evictLine line (.refl s)).frames h
theorem l2Fill_frames {low : Bool} (h : Frames I s) : Frames I (l2Fill pa partid low s) :=
  ((OnlyMemory.refl s).l2Fill ..).frames h
theorem l2Write_frames (h : Frames I s) : Frames I (l2Write pa bytes partid s) :=
  ((OnlyMemory.refl s).l2Write ..).frames h
theorem poisonSector_frames (h : Frames I s) : Frames I (poisonSector pa s) := by
  unfold poisonSector
  split <;> exact h
theorem translate_frames {cont hw userMode : Bool} {a : Acc2} (h : Frames I s) :
    Frames I (translate s cont hw k ctx userMode va a).2 :=
  ((OnlyMemory.refl s).translate ..).frames h
theorem cardXlate_frames {a : Acc2} (h : Frames I s) : Frames I (cardXlate s n va a).2 :=
  ((OnlyMemory.refl s).cardXlate ..).frames h

/-! ### Parts of the state -/

theorem setTeam_frames {tk : Nat} {T : Team} (h : Frames I s) : Frames I (setTeam s tk T) := h
theorem modLaunch_frames {f : Launch → Launch} (h : Frames I s) : Frames I (modLaunch s lk f) := h
theorem modCore_frames {c : Nat} {f : Core → Core} (h : Frames I s) : Frames I (modCore s c f) := h
theorem setMmr_frames (h : Frames I s) : Frames I (setMmr s off x) := h
theorem setReg_frames (h : Frames I s) : Frames I (setReg s off x) := h
theorem countReg_frames (h : Frames I s) : Frames I (countReg off n s) := h
theorem setCardFld_frames {lo v : Nat} (h : Frames I s) : Frames I (setCardFld n hi lo v s) := h
theorem decisionPoint_frames (h : Frames I s) : Frames I (decisionPoint s) := h
theorem modPart_frames {c : Nat} {f : Part → Part} (h : Frames I s) : Frames I (modPart lk c f s) := h
theorem askPart_frames {c : Nat} (h : Frames I s) : Frames I (askPart lk c s) := frames_ite h (frames_ite h h)
theorem askPreempt_frames {c : Nat} (h : Frames I s) : Frames I (askPreempt lk c s) :=
  frames_ite (frames_foldl (fun _ _ h1 => frames_foldl (fun _ _ h2 => askPart_frames h2) h1) h) (askPart_frames h)
theorem modJobs_frames {f : List Job → List Job} (h : Frames I s) : Frames I (modJobs k f s) := h

/-! ### Interrupts and trees (R358 to R365) -/

theorem sendMsi_frames (h : Frames I s) : Frames I (sendMsi n s) := frames_ite h h
theorem raiseInt_frames (h : Frames I s) : Frames I (raiseInt n s) := frames_ite (sendMsi_frames h) h
theorem bumpCard_frames {lo : Nat} (h : Frames I s) : Frames I (bumpCard n hi lo s) := h
theorem modRun_frames {f : CardRun → CardRun} (h : Frames I s) : Frames I (modRun n f s) := h
theorem copyPage_frames {dst src : Nat} (h : Frames I s) : Frames I (copyPage dst src partid s) :=
  frames_foldl (fun _ _ h1 => frames_ite (poisonSector_frames (l2Write_frames (l2Fill_frames h1)))
    (l2Write_frames (l2Fill_frames h1))) h
theorem treeSet_frames {w lo v : Nat} (h : Frames I s) : Frames I (treeSet n w hi lo v s) := h
theorem treeErr_frames (h : Frames I s) : Frames I (treeErr n k s) := h
theorem treeFault_frames (h : Frames I s) : Frames I (treeFault n s) := h
theorem treeXlate_frames (h : Frames I s) : Frames I (treeXlate n va s).2 := by
  unfold treeXlate
  dsimp only
  split <;> exact translate_frames h
theorem treeMirror_frames {v : Nat × Nat} (h : Frames I s) : Frames I (treeMirror n v s) := h
theorem clearPage_frames {D : Nat} {j : Nat} (h : Frames I s) : Frames I (clearPage n D s j) := by
  unfold clearPage
  dsimp only
  split
  · exact treeFault_frames (treeXlate_frames h)
  · exact frames_ite (treeFault_frames (l2Write_frames (treeXlate_frames h)))
      (frames_mk (l2Write_frames (treeXlate_frames h)))
theorem treeClear_frames (h : Frames I s) : Frames I (treeClear n s) :=
  frames_ite (treeMirror_frames (setReg_frames (treeSet_frames h))) (frames_mk
    (frames_foldl (fun _ _ h1 => clearPage_frames h1) (treeMirror_frames (setReg_frames (treeSet_frames h)))))
theorem treeCfg_frames {field : Nat} (h : Frames I s) : Frames I (treeCfg n field x s) := by
  unfold treeCfg
  split
  · refine frames_ite h ?_
    dsimp only
    split
    · exact treeErr_frames (treeXlate_frames h)
    · exact treeClear_frames (frames_mk (treeSet_frames (setReg_frames (treeXlate_frames h))))
  · exact frames_ite (treeClear_frames h) h
  · exact h
  · exact frames_ite h h
  · exact h
  · exact frames_ite (treeClear_frames h) h

/-! ### Records, duties and armings (R300 to R304) -/

theorem dropRecord_frames (h : Frames I s) : Frames I (dropRecord n s) := modRun_frames (bumpCard_frames h)
theorem writeRecord_frames {r : RecArgs} (h : Frames I s) : Frames I (writeRecord n r s) := by
  unfold writeRecord
  extract_lets _ _ t
  have ht : Frames I t.2 := cardXlate_frames h
  refine frames_ite h ?_
  split
  · exact dropRecord_frames ht
  · extract_lets t2 _ _ q
    have ht2 : Frames I t2 := l2Fill_frames ht
    have hq : Frames I q.2 := cardXlate_frames ht2
    split
    · exact dropRecord_frames hq
    · extract_lets s1 s2 s3
      have hs1 : Frames I s1 := l2Write_frames hq
      have hs2 : Frames I s2 := l2Write_frames hs1
      have hs3 : Frames I s3 := hs2
      exact frames_ite (dropRecord_frames hq) (frames_ite hs3 (raiseInt_frames hs3))
theorem askDuty_frames {d : Duty} (h : Frames I s) : Frames I (askDuty d s) := h
theorem cardRead_frames {x1 : Nat} (h : Frames I s) : Frames I (cardRead n x x1 s).2 := by
  induction x1 generalizing x s with
  | zero => exact h
  | succ x1 ih =>
    rw [cardRead]
    split
    · exact cardXlate_frames h
    · exact frames_ite_snd (l2Fill_frames (cardXlate_frames h)) (ih (l2Fill_frames (cardXlate_frames h)))
theorem cardReadNum_frames {len : Nat} (h : Frames I s) : Frames I (cardReadNum n va len s).2 := cardRead_frames h
theorem cardLoad_frames (h : Frames I s) : Frames I (cardLoad n s).2 := by
  unfold cardLoad
  extract_lets _ _ y1 sn d d1 y2
  have hy1 : Frames I y1.2 := cardReadNum_frames h
  have hsn : Frames I sn.2 := by
    subst sn
    refine frames_ite_snd h ?_
    split
    · exact hy1
    · extract_lets e
      have he : Frames I e.2 := cardReadNum_frames hy1
      exact he
  have hd : Frames I d.2 := cardReadNum_frames hsn
  have hd1 : Frames I d1.2 := cardReadNum_frames hsn
  have hy2 : Frames I y2.2 := cardReadNum_frames hsn
  split
  · exact hsn
  · extract_lets
    split
    · split
      · exact hd
      · extract_lets _ w
        have hw : Frames I w.2 := frames_ite_snd hd (cardReadNum_frames hd)
        split
        · exact hw
        · exact frames_ite_snd hw hw
    · split
      · exact hd1
      · exact frames_ite_snd hd1 hd1
    · split
      · exact hy2
      · exact frames_ite_snd hy2 hy2
theorem admitCard_frames (h : Frames I s) : Frames I (admitCard n s) :=
  frames_ite h (modRun_frames (countReg_frames (countReg_frames h)))
theorem unadmit_frames (h : Frames I s) : Frames I (unadmit n s) := by
  unfold unadmit
  split
  · exact h
  · exact modRun_frames (setReg_frames (setReg_frames h))
theorem toIdle_frames (h : Frames I s) : Frames I (toIdle n s) := unadmit_frames h
theorem armCause_frames {path : ArmPath} (h : Frames I s) : Frames I (armCause path n s).2.2 := by
  refine frames_ite_snd_snd h (frames_ite_snd_snd h ?_)
  dsimp only
  split <;> exact cardLoad_frames h
theorem armed_frames {rel : Nat} (h : Frames I s) : Frames I (armed n rel s) :=
  setCardFld_frames (setCardFld_frames (setCardFld_frames (setCardFld_frames (setCardFld_frames h))))
theorem rejectRecord_frames {path : ArmPath} {rel cause : Nat} (h : Frames I s) :
    Frames I (rejectRecord path n rel cause s) := by
  unfold rejectRecord
  dsimp only
  split
  · exact writeRecord_frames (writeRecord_frames h)
  · exact writeRecord_frames h
theorem armCard_frames {path : ArmPath} {rel : Nat} (h : Frames I s) : Frames I (armCard path n rel s).2 :=
  frames_ite_snd (rejectRecord_frames (setReg_frames (armCause_frames h)))
    (frames_ite_snd (askDuty_frames (setCardFld_frames (frames_mk (setReg_frames (armCause_frames h)))))
    (admitCard_frames (armed_frames (frames_mk (setReg_frames (armCause_frames h))))))

/-! ### The ends of instances (R330, R332) -/

theorem wakeMask_frames (h : Frames I s) : Frames I (wakeMask x s) :=
  frames_foldl (fun _ _ h1 => frames_ite (frames_ite h1 h1) h1) h
theorem killLaunch_frames (h : Frames I s) : Frames I (killLaunch lk s) := h
theorem endDuties_frames {kinds : List Nat} (h : Frames I s) : Frames I (endDuties n kinds s) := h
theorem killCard_frames {k : Kill} (h : Frames I s) : Frames I (killCard n k s) :=
  frames_ite h (modRun_frames (endDuties_frames (killLaunch_frames (killLaunch_frames h))))
theorem makeReady_frames {rel absDl : Nat} (h : Frames I s) : Frames I (makeReady n rel absDl s) := by
  refine frames_ite (frames_mk (setCardFld_frames (setCardFld_frames (setCardFld_frames h))))
    (frames_foldl (fun _ _ h1 => ?_) (frames_mk (setCardFld_frames (setCardFld_frames (setCardFld_frames h)))))
  dsimp only
  split
  · exact l2Write_frames (cardXlate_frames h1)
  · exact cardXlate_frames h1
theorem leaveInstance_frames (h : Frames I s) : Frames I (leaveInstance n s) := by
  unfold leaveInstance
  extract_lets _ s1
  have hs1 : Frames I s1 := setCardFld_frames (modRun_frames (endDuties_frames h))
  split
  · exact makeReady_frames hs1
  · exact frames_ite (setCardFld_frames hs1) (toIdle_frames hs1)
theorem failCard_frames {event cls : Nat} (h : Frames I s) : Frames I (failCard n event cls s) :=
  leaveInstance_frames (writeRecord_frames h)
theorem restoreSnapshot_frames (h : Frames I s) : Frames I (restoreSnapshot n s) := by
  refine frames_ite h (frames_foldl (fun _ _ h1 => ?_) h)
  dsimp only
  split
  · exact cardXlate_frames h1
  · refine frames_ite (l2Fill_frames (cardXlate_frames h1)) ?_
    split
    · exact copyPage_frames (cardXlate_frames (cardXlate_frames (l2Fill_frames (cardXlate_frames h1))))
    · exact cardXlate_frames (cardXlate_frames (l2Fill_frames (cardXlate_frames h1)))
theorem replayCard_frames (h : Frames I s) : Frames I (replayCard n s) :=
  setCardFld_frames (modRun_frames (restoreSnapshot_frames h))

/-! ### Placement (R306, R307, R312) -/

theorem openPart_frames {c capture rows bytes : Nat} (h : Frames I s) :
    Frames I (openPart lk c capture rows bytes s) := by
  refine modRun_frames (frames_foldl (fun _ _ h1 => h1) (modPart_frames
      (frames_foldl (fun _ _ h1 => frames_ite h1 ?_) h)))
  split <;> exact h1
theorem placeTeam_frames {t c : Nat} (h : Frames I s) : Frames I (placeTeam lk t c s) :=
  modLaunch_frames (frames_foldl (fun _ _ h1 => h1) (setTeam_frames (frames_mk (openPart_frames h))))
theorem restoreTo_frames {old c rows bytes : Nat} (h : Frames I s) : Frames I (restoreTo lk old c rows bytes s) :=
  openPart_frames (frames_mk (modLaunch_frames (frames_foldl (fun _ _ h1 => h1) h)))
theorem accrue_frames (h : Frames I s) : Frames I (accrue s n) := h
theorem chargeCard_frames (h : Frames I s) : Frames I (chargeCard s n) := setCardFld_frames (accrue_frames h)
theorem chargeAll_frames (h : Frames I s) : Frames I (chargeAll s) :=
  frames_foldl (fun _ _ h1 => frames_ite (chargeCard_frames h1) h1) h
theorem carveSeat_frames {m c : Nat} {l : Launch} (h : Frames I s) : ∀ t, carveSeat s n m c l = some t → Frames I t :=
  frames_ite_some frames_none (frames_ite_some (frames_some (frames_foldl
      (fun _ _ h1 => frames_foldl (fun _ _ h2 => h2) h1) h)) frames_none)
theorem findSeat_frames {m : Nat} {l : Launch} (h : Frames I s) : ∀ t, findSeat s n m l = some t → Frames I t.2 := by
  unfold findSeat
  dsimp only
  split
  · exact frames_some_snd h
  · exact frames_findSome_snd fun _ => frames_map_snd (carveSeat_frames h) fun _ h1 => h1
theorem placeUp_frames {x1 : Nat} (h : Frames I s) : Frames I (placeUp n hi x x1 s).2 := by
  induction x generalizing x1 s with
  | zero => exact h
  | succ x ih =>
    refine frames_ite_snd h ?_
    dsimp only
    split
    · exact h
    · rename_i e
      exact ih (frames_foldl (fun _ _ h1 => placeTeam_frames h1) (findSeat_frames h _ e))
theorem fillSeat_frames {c x1 : Nat} (h : Frames I s) : Frames I (fillSeat n hi c x x1 s).2 := by
  induction x generalizing x1 s with
  | zero => exact h
  | succ x ih => exact frames_ite_snd (ih (frames_foldl (fun _ _ h1 => placeTeam_frames h1) h)) h
theorem growWave_frames {need : Nat} (h : Frames I s) : Frames I (growWave n need x s) := by
  induction x generalizing s with
  | zero => exact h
  | succ x ih =>
    refine frames_ite h ?_
    split
    · rename_i e
      exact ih (frames_findSome (fun _ => carveSeat_frames h) _ e)
    · exact h
theorem placeWave_frames {t : Nat} (h : Frames I s) : Frames I (placeWave n hi t s).2 :=
  frames_foldl_snd (fun _ _ h1 => fillSeat_frames h1) (growWave_frames h)
theorem placeNear_frames {wave : Bool} {fuel t last : Nat} (h : Frames I s) :
    ∀ u, placeNear n hi wave fuel t last s = some u → Frames I u := by
  induction fuel generalizing t last s with
  | zero => exact frames_ite_some (frames_some h) frames_none
  | succ fuel ih =>
    refine frames_ite_some (frames_some h) fun u e => ?_
    obtain ⟨x, hx, e⟩ := List.exists_of_findSome?_eq_some e
    have h1 : Frames I x.2 := by
      obtain hx | hx := List.mem_append.1 hx
      · obtain ⟨c, -, rfl⟩ := List.mem_map.1 hx
        exact h
      · obtain ⟨c, -, hc⟩ := List.mem_filterMap.1 hx
        exact frames_map_snd (carveSeat_frames h) (fun _ h2 => h2) x hc
    exact frames_ite_some (ih (frames_foldl (fun _ _ h2 => placeTeam_frames h2) h1)) frames_none u e
theorem openLaunches_frames (h : Frames I s) : Frames I (openLaunches n s) :=
  frames_foldl (fun _ _ h1 => frames_ite h1 h1) h
theorem placeLanes_frames (h : Frames I s0) : ∀ t, placeLanes n s0 = some t → Frames I t := by
  unfold placeLanes
  extract_lets s _ _ r
  have hs : Frames I s := openLaunches_frames h
  have hr : Frames I r.2 := frames_ite_snd (placeWave_frames hs) (placeUp_frames hs)
  exact frames_ite_some frames_none (frames_ite_some (placeNear_frames hs)
    (frames_ite_some (frames_ite_some (frames_some hr) frames_none) (frames_ite_some frames_none (frames_some hr))))
theorem placeChain_frames (h : Frames I s0) : ∀ t, placeChain n s0 = some t → Frames I t := by
  unfold placeChain
  dsimp only
  split
  · exact frames_none
  · exact frames_some (modJobs_frames (openPart_frames (openLaunches_frames h)))
theorem issueBatch_frames {c : Nat} (h : Frames I s) : Frames I (issueBatch n c x s).2 := by
  induction x generalizing s with
  | zero => exact h
  | succ x ih =>
    refine frames_ite_snd h ?_
    split
    · exact cardReadNum_frames h
    · exact frames_ite_snd (cardReadNum_frames h) (ih (modRun_frames
        (modCore_frames (frames_mk (cardReadNum_frames h)))))
theorem runBatch_frames {c : Nat} (h : Frames I s) : Frames I (runBatch n c s) :=
  frames_ite (killCard_frames (issueBatch_frames h)) (issueBatch_frames h)
theorem placeBatch_frames (h : Frames I s0) : ∀ t, placeBatch n s0 = some t → Frames I t := by
  unfold placeBatch
  dsimp only
  split
  · exact frames_none
  · exact frames_some (runBatch_frames (openPart_frames (openLaunches_frames h)))
theorem restoreSeat_frames {xs : List Return} (h : Frames I s) : ∀ t, restoreSeat n xs s = some t → Frames I t := by
  unfold restoreSeat
  dsimp only
  split
  · exact frames_some (frames_foldl (fun _ _ h1 => restoreTo_frames h1) h)
  · exact frames_ite_some frames_none (frames_findSome (fun _ => frames_ite_some
      (frames_ite_some (frames_some (frames_foldl (fun _ _ h1 => restoreTo_frames h1)
          (frames_foldl (fun _ _ h1 => h1) h))) frames_none)
      frames_none))
theorem frames_foldl_bind {α : Type} {f : α → State → Option State} {xs : List α} {o : Option State}
    (hf : ∀ x s, Frames I s → ∀ t, f x s = some t → Frames I t) (ho : ∀ t, o = some t → Frames I t) :
    ∀ t, xs.foldl (fun a x => a.bind (f x)) o = some t → Frames I t := by
  induction xs generalizing o with
  | nil => exact ho
  | cons x xs ih =>
    refine ih fun t e => ?_
    obtain ⟨u, hu, e⟩ := Option.bind_eq_some_iff.1 e
    exact hf x u (ho u hu) t e
theorem restoreCard_frames (h : Frames I s) : ∀ t, restoreCard n s = some t → Frames I t := by
  unfold restoreCard
  refine frames_ite_some (frames_ite_some frames_none (frames_foldl_bind (fun _ _ h1 => restoreSeat_frames h1)
      (frames_some h)))
    (frames_ite_some (frames_some (frames_foldl_snd (fun a x h1 => ?_) h)) frames_none)
  split
  · exact restoreSeat_frames h1 _ ‹_›
  · exact h1

/-! ### The dispatcher and its scans (R305, R337) -/

theorem reapTeam_frames {tk : Nat} (h : Frames I s) : Frames I (reapTeam s tk) := frames_ite h h
theorem reapTeams_frames (h : Frames I s) : Frames I (reapTeams s) :=
  frames_foldl (fun _ _ h1 => frames_ite (reapTeam_frames h1) h1) h
theorem takeRoom_frames (h : Frames I s) : ∀ t, takeRoom n s = some t → Frames I t := by
  unfold takeRoom
  split
  · rename_i e
    exact frames_some (restoreCard_frames h _ e)
  · split
    · exact placeLanes_frames h
    · exact frames_ite_some (placeChain_frames h) frames_none
    · exact frames_ite_some (placeBatch_frames h) frames_none
theorem preemptFor_frames {xs : List (Nat × Nat)} {t : State} (h : Frames I s) :
    ∀ u, preemptFor n xs t s = some u → Frames I u := by
  induction xs generalizing t s with
  | nil => exact frames_ite_some (frames_some h) frames_none
  | cons x xs ih => exact frames_ite_some (frames_some h) (ih (askPreempt_frames h))
theorem wakeFor_frames (h : Frames I s) : Frames I (wakeFor n s) := frames_foldl (fun _ _ h1 => frames_ite h1 h1) h
theorem decideCard_frames (h : Frames I s) : Frames I (decideCard s n) := by
  refine frames_ite h (frames_ite h ?_)
  split
  · rename_i e
    exact frames_ite h (frames_ite (setCardFld_frames (takeRoom_frames h _ e)) (takeRoom_frames h _ e))
  · refine frames_ite h ?_
    dsimp only
    split
    · exact preemptFor_frames h _ ‹_›
    · exact wakeFor_frames h
theorem setScan_frames {x : Scan} (h : Frames I s) : Frames I (setScan x s) := h
theorem drainCore_frames {c : Nat} (h : Frames I s) : Frames I (drainCore c s) :=
  setScan_frames (frames_foldl (fun _ _ h1 => askPreempt_frames h1) h)
theorem grantScan_frames {c : Nat} (h : Frames I s) : Frames I (grantScan c s) := frames_ite h (drainCore_frames h)
theorem wantScan_frames {c : Nat} (h : Frames I s) : Frames I (wantScan c s) :=
  frames_ite h (frames_ite h (grantScan_frames h))
theorem askScan_frames {c : Nat} (h : Frames I s) : Frames I (askScan c s) := frames_ite h h
theorem askedScans_frames (h : Frames I s) : Frames I (askedScans s) :=
  frames_foldl (fun _ _ h1 => wantScan_frames h1) h
theorem dispatch_frames (h : Frames I s) : Frames I (dispatch s) :=
  frames_ite (askedScans_frames (reapTeams_frames (chargeAll_frames h)))
    (frames_foldl (fun _ _ h1 => decideCard_frames h1) (askedScans_frames (reapTeams_frames (chargeAll_frames h))))

/-! ### The walkers and the suspend (R354, R400) -/

theorem modJob_frames {j : Job} {f : Job → Job} (h : Frames I s) : Frames I (modJob k j f s) := h
theorem handClock_frames {j : Job} (h : Frames I s) : Frames I (handClock k j s) := by
  unfold handClock
  split
  · exact frames_ite h h
  · exact h
theorem failJob_frames {j : Job} {err : Nat} (h : Frames I s) : Frames I (failJob k j err s) :=
  frames_ite (killCard_frames (modJob_frames (handClock_frames h)))
      (decisionPoint_frames (modJob_frames (handClock_frames h)))
theorem suspGo_frames {by_ : Option Nat} {addr : Nat} (h : Frames I s) : Frames I (suspGo by_ addr s) := by
  refine frames_ite h ?_
  dsimp only
  split
  · exact askPreempt_frames (frames_foldl (fun _ _ h1 => frames_foldl
      (fun _ _ h2 => frames_ite (askPart_frames h2) h2) h1) h)
  · exact frames_foldl (fun _ _ h1 => frames_foldl (fun _ _ h2 => frames_ite (askPart_frames h2) h2) h1) h

/-! ### Writes of registers (R12, R293, R320) -/

theorem applyReply_frames {r : FaultRec} {code : Nat} (h : Frames I s) : Frames I (applyReply r code s) := by
  unfold applyReply
  split
  · exact h
  · exact frames_ite h h
  · exact h
  · exact h
  · refine frames_ite ?_ h
    split
    · exact failJob_frames h
    · exact frames_ite (killCard_frames h) h
theorem faultReply_frames {tag code : Nat} (h : Frames I s) : Frames I (faultReply tag code s) := by
  refine frames_ite h ?_
  split
  · exact h
  · exact frames_ite h (applyReply_frames h)
theorem dropDuty_frames {tag : Nat} (h : Frames I s) : Frames I (dropDuty tag s) := h
theorem giveRoutes_frames {rs : NMap Nat} (h : Frames I s) : Frames I (giveRoutes n rs s) :=
  frames_foldl (fun _ _ h1 => frames_ite h1 h1) h
theorem placeReply_frames {mask : Nat} (h : Frames I s) : Frames I (placeReply n mask s) := by
  refine frames_ite (modRun_frames h) ?_
  split
  · rename_i e
    exact setCardFld_frames (takeRoom_frames (modRun_frames h) _ e)
  · exact countReg_frames (modRun_frames h)
theorem dutyAct_frames {d : Duty} {code payload : Nat} (h : Frames I s) :
    ∀ t, dutyAct d code payload s = some t → Frames I t := by
  unfold dutyAct
  extract_lets _ s1 _ y
  have hs1 : Frames I s1 := toIdle_frames h
  have hy : Frames I y := h
  split
  · exact frames_some (admitCard_frames (armed_frames h))
  · exact frames_some (rejectRecord_frames hs1)
  · exact frames_some (placeReply_frames h)
  · exact frames_some h
  · exact frames_some (dispatch_frames (replayCard_frames h))
  · split
    · exact frames_some (dispatch_frames (failCard_frames h))
    · exact frames_some h
  · exact frames_some (grantScan_frames h)
  · exact frames_some h
  · exact frames_some (giveRoutes_frames h)
  · exact frames_ite_some (frames_some hy) frames_none
  · exact frames_none
theorem dutyReply_frames {tag code : Nat} (h : Frames I s) : Frames I (dutyReply tag code s) := by
  unfold dutyReply
  split
  · exact countReg_frames h
  · refine frames_ite (countReg_frames (dropDuty_frames h)) ?_
    split
    · exact dutyAct_frames (dropDuty_frames h) _ ‹_›
    · exact countReg_frames h
theorem armWrite_frames {path : ArmPath} (h : Frames I s) : Frames I (armWrite path x s) := armCard_frames h
theorem disarmCard_frames (h : Frames I s) : Frames I (disarmCard n s) :=
  frames_ite h (frames_ite h (toIdle_frames h))
theorem readyPending_frames (h : Frames I s) : Frames I (readyPending s) := by
  refine frames_foldl (fun _ _ h1 => ?_) h
  split
  · exact frames_ite (makeReady_frames h1) h1
  · exact h1
theorem dctlSet_frames (h : Frames I s) : Frames I (dctlSet s) :=
  dispatch_frames (frames_ite (readyPending_frames h) h)
theorem cardWrite_frames (h : Frames I s) : Frames I (cardWrite off x s) := frames_ite h (setCardFld_frames h)
theorem tlbinvWrite_frames (h : Frames I s) : Frames I (tlbinvWrite x s) := frames_ite h h
theorem regLimWrite_frames {pid : Nat} (h : Frames I s) : Frames I (regLimWrite pid x s) :=
  setReg_frames (frames_foldl (fun _ _ h1 => h1) h)
theorem hienWrite_frames (h : Frames I s) : Frames I (hienWrite x s) :=
  frames_foldl (fun _ _ h1 => sendMsi_frames h1) h
theorem lkctlWrite_frames (h : Frames I s) : Frames I (lkctlWrite n x s) := frames_ite h h
theorem treeApply_frames {who : Agent} {bytes : List Nat} (h : Frames I s) :
    Frames I (treeApply who off x bytes s) := by
  unfold treeApply
  extract_lets _ s1 _ _ s11 s2 s3
  have hs1 : Frames I s1 := by
    subst s1
    split <;> exact h
  have hs11 : Frames I s11 := frames_ite hs1 hs1
  have hs2 : Frames I s2 := frames_ite hs11 hs11
  have hs3 : Frames I s3 := frames_ite (treeCfg_frames hs2) hs2
  split
  · exact treeCfg_frames hs1
  · exact frames_ite (treeCfg_frames hs3) hs3
  · exact frames_ite (treeCfg_frames hs1) hs1
  · exact treeCfg_frames hs1
  · exact hs1
theorem treeWrite_frames {who : Agent} {bytes : List Nat} (h : Frames I s) : Frames I (treeWrite who off x bytes s) :=
  frames_ite h (treeApply_frames h)
theorem wakesetWrite_frames {who : Agent} (h : Frames I s) : Frames I (wakesetWrite who x s) :=
  wakeMask_frames (frames_ite h h)
theorem mbWrite_frames (h : Frames I s) : Frames I (mbWrite x s) := frames_ite h h
theorem hbapWrite_frames (h : Frames I s) : Frames I (hbapWrite x s) := frames_ite h h
theorem tsetWrite_frames (h : Frames I s) : Frames I (tsetWrite x s) := frames_ite h h
theorem moveOchre_frames {w : Nat} (h : Frames I s0) : Frames I (moveOchre w s0) := by
  unfold moveOchre
  refine frames_ite h ?_
  exact frames_mk (frames_foldl (fun _ _ h1 => evictLine_frames h1) h)
theorem regWrite_frames {who : Agent} {bytes : List Nat} (h : Frames I s) :
    Frames I (regWrite who off x bytes s) := by
  unfold regWrite
  refine frames_ite h ?_
  split
  · exact h
  · exact h
  · exact h
  · split
    · exact armWrite_frames h
    · exact armWrite_frames h
    · exact disarmCard_frames h
    · exact dutyReply_frames h
    · exact askScan_frames h
    · exact faultReply_frames h
    · exact tsetWrite_frames h
    · exact wakesetWrite_frames h
    · exact frames_ite (suspGo_frames h) h
    · exact hbapWrite_frames h
    · exact mbWrite_frames h
    · exact h
  · refine frames_ite (cardWrite_frames h) (frames_ite (frames_ite (frames_ite (dctlSet_frames h) h) h) ?_)
    exact frames_ite (tlbinvWrite_frames h) (frames_ite (regLimWrite_frames h)
      (frames_ite (hienWrite_frames h) (frames_ite (treeWrite_frames h) (frames_ite h
      (frames_ite (lkctlWrite_frames h) (frames_ite h (frames_ite (setReg_frames (moveOchre_frames h))
          (frames_ite h h))))))))
theorem regStore_frames {who : Agent} {bs : List Byte} (h : Frames I s) : Frames I (regStore who off bs s) :=
  frames_ite h (frames_ite h (regWrite_frames h))
theorem busWrite_frames {who : Agent} {bs : List Byte} (h : Frames I s) :
    Frames I (busWrite who pa bs partid s) := by
  unfold busWrite
  split
  · exact regStore_frames h
  · exact l2Write_frames h

end
end Sys2Proof.Machine
end

section
/-!
PROOFS. Sensor ingest and Ethernet frames (O37).
-/
namespace Sys2Proof.Machine

/-! ### One engine of eight (R381, R382) -/

theorem foldl_stays {β : Type} {f : State → β → State} {s : State} {xs : List β} (stays : ∀ x ∈ xs, f s x = s) :
    xs.foldl f s = s := by
  induction xs with
  | nil => rfl
  | cons x xs ih =>
    rw [List.foldl_cons, stays x List.mem_cons_self]
    exact ih fun y hy => stays y (List.mem_cons_of_mem x hy)

/-- What is done at eight engines is what engine `k` does, where the others do nothing before it and after it. -/
theorem foldl_one {f : State → Nat → State} {s : State} {k : Nat} (hk : k < 8)
    (before : ∀ j < 8, j ≠ k → f s j = s) (after : ∀ j < 8, j ≠ k → f (f s k) j = f s k) :
    (List.range 8).foldl f s = f s k := by
  obtain ⟨front, back, cut⟩ := List.append_of_mem (List.mem_range.2 hk)
  have once : (front ++ k :: back).Nodup := cut ▸ List.nodup_range
  have other (j : Nat) (hj : j ∈ front ∨ j ∈ back) : j < 8 ∧ j ≠ k := by
    refine ⟨List.mem_range.1 (cut ▸ List.mem_append.2 (hj.imp_right (List.mem_cons_of_mem k))), ?_⟩
    rintro rfl
    simp_all [List.nodup_middle]
  rw [cut, List.foldl_append, List.foldl_cons,
    foldl_stays fun j hj => before j (other j (.inl hj)).1 (other j (.inl hj)).2,
    foldl_stays fun j hj => after j (other j (.inr hj)).1 (other j (.inr hj)).2]

theorem ingestAt_setIngest_ne (e : Ingest) (s : State) {k j : Nat} (hj : j ≠ k) :
    ingestAt (setIngest k e s) j = ingestAt s j := nget_nput_ne _ _ _ hj

theorem Frames.ingestAt {s t : State} (same : Frames s.ingest t) (j : Nat) : ingestAt t j = ingestAt s j := by
  unfold Machine.ingestAt
  rw [same]

/-! ### Frame Start -/

section
variable {s : State} {rx vc dt k j : Nat} {F : Frame}

theorem l2Quiet_mmr (m : NMap Word64) : L2Quiet fun s => s.mmr = m where
  charge _ _ _ h := h
  lines _ _ h := h
  cores _ _ h := h
  drop s sec pid h := by
    unfold dropSector
    split
    · exact h
    · dsimp only
      split
      · exact h
      · obtain ⟨r, q, charged⟩ := chargeDram_eq (64 * sec) pid { s with dirty := ndel s.dirty sec }
        rw [charged]
        exact h

theorem l2Fill_reg (pa pid off : Nat) (low : Bool) (s : State) : reg (l2Fill pa pid low s) off = reg s off := by
  unfold reg mmr
  rw [(l2Quiet_mmr s.mmr).l2Fill pa pid low rfl]

theorem beginFrame_other (other : takesFrame (reg s (rIng j 0)) rx vc dt = false) : beginFrame rx vc dt s j = s :=
  if_pos (by rw [frameOf, other]; rfl)

/-- A Frame Start whose ring sleeps wakes the device instead. -/
theorem beginFrame_asleep (takes : takesFrame (frameOf s k).ictl rx vc dt = true)
    (asleep_ : dramSleeps s (frameOf s k).ring = true) : beginFrame rx vc dt s k = meetAsleep s := by
  unfold beginFrame
  simp only [takes, asleep_, Bool.not_true, Bool.false_eq_true, if_false, if_true]

/-- The state at which a Frame Start has read the ring of engine `k`. -/
def ringRead (s : State) (k : Nat) : State :=
  l2Fill (frameOf s k).ring (nbits (frameOf s k).ictl 20 15) false s

/-- The ring's tail, and the buffers in use, as that state has them. -/
def ringTail (s : State) (k : Nat) : Nat := ofBytes (l2Read (ringRead s k) (frameOf s k).ring 4)
def ringUsed (s : State) (k : Nat) : Nat :=
  diff32 (ringTail s k) (ofBytes (l2Read (ringRead s k) ((frameOf s k).ring + 8) 4))

theorem ringRead_ingestAt : ingestAt (ringRead s k) j = ingestAt s j :=
  Frames.ingestAt (l2Fill_frames rfl) j

theorem beginFrame_awake (takes : takesFrame (frameOf s k).ictl rx vc dt = true)
    (awake : dramSleeps s (frameOf s k).ring = false) (idle : (ingestAt s k).cur = none) :
    beginFrame rx vc dt s k =
      if isPoison (ringRead s k) (frameOf s k).ring || decide (2 ^ lbufOf (frameOf s k).geom = ringUsed s k) then
        countDrop k (ringRead s k)
      else setIngest k { ingestAt (ringRead s k) k with cur := some { frameOf s k with num := ringTail s k } }
        (ringRead s k) := by
  unfold beginFrame
  simp only [takes, awake, idle, Bool.not_true, Bool.false_eq_true, if_false, Option.isSome_none]
  rfl

theorem countDrop_reg (off : Nat) (s : State) : reg (countDrop k s) off = reg s off := rfl
theorem meetAsleep_reg (off : Nat) (s : State) : reg (meetAsleep s) off = reg s off := rfl

theorem ringRead_reg (off : Nat) : reg (ringRead s k) off = reg s off := l2Fill_reg ..

section
variable (hk : k < 8)
  (others : ∀ j < 8, j ≠ k → (ingestAt s j).cur = none ∧ takesFrame (reg s (rIng j 0)) rx vc dt = false)
include hk others

/-- Where engine `k` changes no register, the frame starts at it alone. -/
theorem frameBegins_one (same : ∀ off, reg (beginFrame rx vc dt s k) off = reg s off) :
    frameBegins rx vc dt s = beginFrame rx vc dt s k :=
  foldl_one hk (fun j hj n => beginFrame_other (others j hj n).2)
    fun j hj n => beginFrame_other (by rw [same]; exact (others j hj n).2)

theorem frameBegins_untaken (untaken : takesFrame (frameOf s k).ictl rx vc dt = false) :
    frameBegins rx vc dt s = s := by
  have stays : beginFrame rx vc dt s k = s := beginFrame_other untaken
  rw [frameBegins_one hk others fun _ => by rw [stays], stays]

theorem frameBegins_asleep (takes : takesFrame (frameOf s k).ictl rx vc dt = true)
    (asleep_ : dramSleeps s (frameOf s k).ring = true) : frameBegins rx vc dt s = meetAsleep s := by
  have meets := beginFrame_asleep takes asleep_
  rw [frameBegins_one hk others fun off => by rw [meets, meetAsleep_reg], meets]

theorem frameBegins_opens (takes : takesFrame (frameOf s k).ictl rx vc dt = true)
    (awake : dramSleeps s (frameOf s k).ring = false) (idle : (ingestAt s k).cur = none)
    (clean : isPoison (ringRead s k) (frameOf s k).ring = false) (room : ringUsed s k ≠ 2 ^ lbufOf (frameOf s k).geom) :
    frameBegins rx vc dt s =
      setIngest k { ingestAt s k with cur := some { frameOf s k with num := ringTail s k } } (ringRead s k) := by
  have opens := (beginFrame_awake takes awake idle).trans (if_neg (by simp [clean, room.symm]))
  rw [frameBegins_one hk others fun off => by rw [opens, setIngest_reg, ringRead_reg], opens, ringRead_ingestAt]

theorem frameBegins_drops (takes : takesFrame (frameOf s k).ictl rx vc dt = true)
    (awake : dramSleeps s (frameOf s k).ring = false) (idle : (ingestAt s k).cur = none)
    (full : isPoison (ringRead s k) (frameOf s k).ring = true ∨ ringUsed s k = 2 ^ lbufOf (frameOf s k).geom) :
    frameBegins rx vc dt s = countDrop k (ringRead s k) := by
  have drops := (beginFrame_awake takes awake idle).trans (if_pos (by obtain h | h := full <;> simp [h]))
  rw [frameBegins_one hk others fun off => by rw [drops, countDrop_reg, ringRead_reg], drops]

end

/-! ### Lines and Frame End -/

theorem takeLine_idle {crcErr eccFix : Bool} {bytes : List Byte} (idle : (ingestAt s j).cur = none) :
    takeLine rx vc dt crcErr eccFix bytes s j = s := by
  unfold takeLine
  simp only [idle]

theorem endFrame_idle (idle : (ingestAt s j).cur = none) : endFrame rx vc s j = s := by
  unfold endFrame
  simp only [idle]

theorem ingestWrite_awake {pa : Nat} {bytes : List Byte} (awake : dramSleeps s pa = false) :
    ingestWrite F pa bytes s = busWrite .outside pa bytes (nbits F.ictl 20 15) s := by
  unfold ingestWrite
  rw [awake]
  rfl

theorem ingestWrite_frames {I : NMap Ingest} {pa : Nat} {bytes : List Byte} (h : Frames I s) :
    Frames I (ingestWrite F pa bytes s) := frames_ite h (busWrite_frames h)

/-- What an engine does with its line or its frame leaves the other engines alone. -/
theorem takeLine_others {crcErr eccFix : Bool} {bytes : List Byte} (hj : j ≠ k) :
    ingestAt (takeLine rx vc dt crcErr eccFix bytes s k) j = ingestAt s j := by
  unfold takeLine
  dsimp only
  split
  · rfl
  split
  · rfl
  split
  · exact ingestAt_setIngest_ne _ _ hj
  · exact (ingestAt_setIngest_ne _ _ hj).trans (Frames.ingestAt (ingestWrite_frames rfl) j)

theorem endFrame_others (hj : j ≠ k) : ingestAt (endFrame rx vc s k) j = ingestAt s j := by
  unfold endFrame
  dsimp only
  split
  · rfl
  split
  · rfl
  · refine (Frames.ingestAt (raiseInt_frames rfl) j).trans ?_
    exact (ingestAt_setIngest_ne _ _ hj).trans
      (Frames.ingestAt (ingestWrite_frames (ingestWrite_frames rfl)) j)

section
variable (hk : k < 8) (idle : ∀ j < 8, j ≠ k → (ingestAt s j).cur = none)
include hk idle

theorem frameLine_one (crcErr eccFix : Bool) (bytes : List Byte) :
    frameLine rx vc dt crcErr eccFix bytes s = takeLine rx vc dt crcErr eccFix bytes s k :=
  foldl_one hk (fun j hj n => takeLine_idle (idle j hj n))
    fun j hj n => takeLine_idle (by rw [takeLine_others n]; exact idle j hj n)

theorem frameEnds_one : frameEnds rx vc s = endFrame rx vc s k :=
  foldl_one hk (fun j hj n => endFrame_idle (idle j hj n))
    fun j hj n => endFrame_idle (by rw [endFrame_others n]; exact idle j hj n)

end

section
variable (receiving : (ingestAt s k).cur = some F) {bytes : List Byte}
include receiving

/-- Where a line of a frame is written. -/
def lineAt (F : Frame) : Nat :=
  F.ibuf + F.num % 2 ^ lbufOf F.geom * (F.geom % 2 ^ 32 * nbits F.geom 47 32) + F.lines * (F.geom % 2 ^ 32)

theorem takeLine_writes (takes : takesFrame F.ictl rx vc dt = true) (room : F.lines < nbits F.geom 47 32)
    (awake : dramSleeps s (lineAt F) = false) :
    takeLine rx vc dt false false bytes s k = setIngest k
      { ingestAt s k with cur := some { F with lines := F.lines + 1 } }
      (busWrite .outside (lineAt F) (bytes.take (F.geom % 2 ^ 32)) (nbits F.ictl 20 15) s) := by
  unfold takeLine
  simp only [receiving, takes, Bool.not_true, Bool.false_eq_true, if_false, Nat.not_le.2 room, Bool.or_false]
  rw [← ingestWrite_awake awake]
  rfl

theorem takeLine_truncates (takes : takesFrame F.ictl rx vc dt = true) (full : nbits F.geom 47 32 ≤ F.lines) :
    takeLine rx vc dt false false bytes s k =
      setIngest k { ingestAt s k with cur := some { F with trunc := true } } s := by
  unfold takeLine
  simp only [receiving, takes, Bool.not_true, Bool.false_eq_true, if_false, if_pos full, Bool.or_false]

theorem takeLine_untaken (untaken : takesFrame F.ictl rx vc dt = false) :
    takeLine rx vc dt false false bytes s k = s := by
  unfold takeLine
  simp only [receiving, untaken, Bool.not_false, if_true]

/-- Where the record of a frame is written. -/
def recordAt (F : Frame) : Nat := F.ring + 64 + 64 * (F.num % 2 ^ lbufOf F.geom)

theorem endFrame_ends (takes : takesChannel F.ictl rx vc = true) (awake : dramSleeps s (recordAt F) = false) :
    let s1 := busWrite .outside (recordAt F) (frameRecord F (ingestAt s k).since s.now) (nbits F.ictl 20 15) s
    dramSleeps s1 F.ring = false → endFrame rx vc s k =
      raiseInt 3 (setIngest k { ingestAt s k with cur := none, frames := (ingestAt s k).frames + 1, since := 0 }
        (busWrite .outside F.ring (toBytes 4 ((F.num + 1) % 2 ^ 32)) (nbits F.ictl 20 15) s1)) := by
  intro s1 awake1
  unfold endFrame
  simp only [receiving, takes, Bool.not_true, Bool.false_eq_true, if_false]
  have first : ingestWrite F (recordAt F) (frameRecord F (ingestAt s k).since s.now) s = s1 := ingestWrite_awake awake
  rw [← ingestWrite_awake awake1, ← first]
  rfl

theorem endFrame_untaken (untaken : takesChannel F.ictl rx vc = false) : endFrame rx vc s k = s := by
  unfold endFrame
  simp only [receiving, untaken, Bool.not_false, if_true]

end
end

theorem framesArrive_ingest : Obl.IngestFrames := by
  unfold Obl.IngestFrames
  intro s rx vc dt k F bytes hk others
  have idle : ∀ j < 8, j ≠ k → (ingestAt s j).cur = none := fun j hj n => (others j hj n).1
  refine ⟨⟨fun untaken => ?_, fun takes asleep_ => ?_, fun takes awake idle_ => ⟨fun clean room => ?_, fun full => ?_⟩⟩,
    fun receiving => ⟨fun takes room awake => ?_, fun takes full => ?_, fun untaken => ?_,
      fun takes awake awake1 => ?_, fun untaken => ?_⟩⟩
  all_goals refine congrArg Host.Outcome.next ?_
  · exact frameBegins_untaken hk others untaken
  · exact frameBegins_asleep hk others takes asleep_
  · exact frameBegins_opens hk others takes awake idle_ clean room
  · exact frameBegins_drops hk others takes awake idle_ full
  · exact (frameLine_one hk idle ..).trans (takeLine_writes receiving takes room awake)
  · exact (frameLine_one hk idle ..).trans (takeLine_truncates receiving takes full)
  · exact (frameLine_one hk idle ..).trans (takeLine_untaken receiving untaken)
  · exact (frameEnds_one hk idle).trans (endFrame_ends receiving takes awake awake1)
  · exact (frameEnds_one hk idle).trans (endFrame_untaken receiving untaken)

/-! ### Ethernet (R279, R384) -/

section
variable {s u v : State} {p : Nat} {bad : Bool} {bytes : List Byte}

theorem ethSend_idle (empty : diff32 (reg s (rEth p 0x10)) (reg s (rEth p 0x18)) = 0) : ethSend p bad s = s :=
  if_pos (by simp [empty])

theorem ethReceive_lost (empty : diff32 (reg s (rEth p 0x28)) (reg s (rEth p 0x30)) = 0) :
    ethReceive p bad bytes s = s :=
  if_pos (by simp [empty])

/-- The MAC sends the frame that it has read, and returns the descriptor. -/
theorem ethFrame_sends {pa : Nat} :
    let buf := ofBytes (l2Read u pa 8) % 2 ^ 52
    let w1 := ofBytes (l2Read u (pa + 8) 8)
    let secs := sectorsOf buf (w1 % 2 ^ 14)
    Obl.Reached (20 + p) (nbits (reg u (rEth p 0)) 7 2) secs secs u v →
    let err := bad || isPoison v pa || secs.any (isPoison v)
    ethFrame p pa bad u = raiseInt 4 (setReg (ethDone p pa (setBits w1 16 15 (1 + 2 * b2n err))
      (if w1.testBit 14 then some v.now else none)
      (answer (8 + p) buf (if err then none else some (l2Read v buf (w1 % 2 ^ 14))) v)) (rEth p 0x18)
        ((reg u (rEth p 0x18) + 1) % 2 ^ 32)) := by
  intro buf w1 secs framed
  unfold ethFrame
  exact outsideReach_reached framed

/-- The received frame fills its buffer, and the descriptor returns. -/
theorem ethFill_fills {pa : Nat} :
    let buf := ofBytes (l2Read u pa 8) % 2 ^ 52
    let w1 := ofBytes (l2Read u (pa + 8) 8)
    let size := w1 % 2 ^ 14
    let lost := isPoison u pa
    let long := decide (size < bytes.length) || decide (9216 < bytes.length)
    Obl.Reached (20 + p) (nbits (reg u (rEth p 0)) 7 2)
      (if lost then [] else sectorsOf buf (min size bytes.length)) [] u v →
    ethFill p pa bad bytes u = raiseInt 4 (setReg (ethDone p pa
      (setBits (setBits w1 13 0 bytes.length) 16 15 (1 + 2 * b2n (bad || long || lost))) (some v.now)
      (if lost then v else l2Write buf (bytes.take size) (nbits (reg u (rEth p 0)) 7 2) v))
      (rEth p 0x30) ((reg u (rEth p 0x30) + 1) % 2 ^ 32)) := by
  intro buf w1 size lost long filled
  unfold ethFill
  exact outsideReach_reached filled

section
variable (hp : p < 4) (enabled : (reg s (rEth p 0)).testBit 0 = true)
include hp enabled

/-- The port's next covered descriptor is read as its PARTID lets it, and then its frame. -/
theorem ethSend_reads (covered : diff32 (reg s (rEth p 0x10)) (reg s (rEth p 0x18)) ≠ 0) :
    let pa := ethDesc (reg s (rEth p 8)) (reg s (rEth p 0x18))
    Obl.Reached (20 + p) (nbits (reg s (rEth p 0)) 7 2) [pa] [pa] s u → ethSend p bad s = ethFrame p pa bad u := by
  intro pa reached
  refine (if_neg ?_).trans (outsideReach_reached reached)
  simpa [enabled, covered] using hp

theorem ethReceive_reads (supplied : diff32 (reg s (rEth p 0x28)) (reg s (rEth p 0x30)) ≠ 0) :
    let pa := ethDesc (reg s (rEth p 0x20)) (reg s (rEth p 0x30))
    Obl.Reached (20 + p) (nbits (reg s (rEth p 0)) 7 2) [pa] [pa] s u →
      ethReceive p bad bytes s = ethFill p pa bad bytes u := by
  intro pa reached
  refine (if_neg ?_).trans (outsideReach_reached reached)
  simpa [enabled, supplied] using hp

end
end

theorem framesArrive_ethernet : Obl.EthernetFrames := by
  unfold Obl.EthernetFrames
  intro s p bad bytes hp enabled
  refine ⟨⟨fun covered u v => ?_, fun empty => ?_⟩, ⟨fun supplied u v => ?_, fun empty => ?_⟩⟩
  · intro buf w1 len secs reached framed
    exact congrArg Host.Outcome.next ((ethSend_reads hp enabled covered reached).trans (ethFrame_sends framed))
  · exact congrArg Host.Outcome.next (ethSend_idle empty)
  · intro buf w1 size lost secs long reached filled
    exact congrArg Host.Outcome.next ((ethReceive_reads hp enabled supplied reached).trans (ethFill_fills filled))
  · exact congrArg Host.Outcome.next (ethReceive_lost empty)

/-- Settles O37. That a poisoned ring header drops the frame, and that lines are cut at STRIDE and told by their
channel, is the model's choice (log entry 65), and so is the ERR of a received frame for poison and for excess length
(log entry 42). -/
theorem framesArrive : Obligations.FramesArrive := ⟨framesArrive_ingest, framesArrive_ethernet⟩

end Sys2Proof.Machine
end
